-- ==== Sys2Proof/Word.lean ====
section
/-!
DEFINITION. The word types of the device: 32-bit registers (R13), bytes of memory, 64-bit device time (R11).
-/

namespace Sys2Proof

/-- A 32-bit register or memory word (R13). -/
abbrev Word := BitVec 32

/-- A byte of memory. -/
abbrev Byte := BitVec 8

end Sys2Proof
end

