-- ==== Sys2Proof/Syntax.lean ====
section
/-!
DEFINITION. The commands of the block: one constructor of `Instr` per row of spec/opcode_table.json, with the row's operands.
An operand says which unit the command concerns, which master issues it, and what the world outside supplies (a level, a
count, the bytes of a frame, the outcome of an error check).
-/

namespace Sys2Proof

/-- The masters of R43, with the codes of SYS.AERR_INFO.MASTER (R78). -/
inductive Master where
  | le (n : Fin 12) | triad | medlar | host | loader | crc (n : Fin 4) | jtag
  deriving DecidableEq, Repr

/-- The supplies with a power-on source (R83, R654); VIO has the banks A to E (R650). -/
inductive Rail where
  | vdd | vio (bank : Fin 5) | vdda
  deriving DecidableEq, Repr

/-- The reset sources that RST.CAUSE names (R107), in its bit order. -/
inductive Source where
  | porVdd | porVio | porVdda | porstPin | resetPin | swCold | swWarm | cmdHost | cmdEth | cmdCan | mgtWdt | triadFatal | clkMon
  deriving DecidableEq, Repr

/-- The cores a JTAG reset request names (R90). -/
inductive JtagTarget where
  | engine (n : Fin 12) | triad | medlar
  deriving DecidableEq, Repr

/-- The nine monitored clock domains, in the order of R125. -/
inductive Domain where
  | fab | mgt | tri | pwm | adc | fbk | mbus | net | mem
  deriving DecidableEq, Repr

/-- The PLLs that may spread (R120). -/
inductive SscPll where
  | fab | mgt | net | mem
  deriving DecidableEq, Repr

/-- What the error correction of a memory found when a word was read (R218, R228). -/
inductive Ecc where
  | ok | corrected | uncorrectable
  deriving DecidableEq, Repr

/-- The fields of a loop-engine instruction (R174), the opcode being the command itself, with what ECC found at the fetch of
the instruction word and at its data or coefficient read. -/
structure EngFields where
  d     : Fin 64 := 0
  a     : Fin 64 := 0
  b     : Fin 64 := 0
  c     : Fin 64 := 0
  m     : Fin 4 := 0
  imm   : Word := 0
  fetch : Ecc := .ok
  data  : Ecc := .ok
  /-- Index of the word of the coefficient store that `data` speaks of (R228). -/
  bad   : BitVec 8 := 0
  /-- The instruction issues in the FAB cycle of the effects before it (R226, R235). -/
  same  : Bool := false
  deriving DecidableEq, Repr

/-! ### Operands of the triad, bus, management and network commands -/

/-- One core's copy of a store as it leaves its alignment stages (R489, R493): whether that core stores in this cycle, the
address, the byte enables, the data, and whether the parity of its stage failed. -/
structure StoreCopy where
  store     : Bool := true
  addr      : Word := 0
  enables   : BitVec 4 := 0xF
  data      : Word := 0
  parityErr : Bool := false
  deriving DecidableEq, Repr

/-- The three copies of one store, and whether the results of the two voters differ (R493). -/
structure StoreSet where
  t0       : StoreCopy := {}
  t1       : StoreCopy := {}
  t2       : StoreCopy := {}
  vaVbDiff : Bool := false
  deriving DecidableEq, Repr

/-- The kinds of result of the agreement exchange (R496). -/
inductive LoadKind where
  | majority | medianSigned | medianUnsigned | medianFloat
  deriving DecidableEq, Repr

/-- The samples of one load in the agreement exchange (R496): which slots hold one, the bits by which each core's sample differs from
what stands at its address (a value read some cycles apart, or an upset), the interval from the first to the last in TRI cycles, and
the cores whose input stage failed its parity (R505). -/
structure Exchange where
  present : BitVec 3 := 7
  differ  : Vector Word 3 := Vector.replicate 3 0
  spread  : Nat := 2
  dlyIn   : BitVec 3 := 0
  deriving DecidableEq, Repr

/-- What one voter does with its self-test (R495): the bits in which it delivers other than the uninverted value, and the copy to which
it attributes the disagreement. -/
structure VoterTest where
  wrong : Word := 0
  blame : Option (Fin 3) := none
  deriving DecidableEq, Repr

/-- A CAN frame (R565): its format bits, identifier (base in [28:18]), DLC and data. -/
structure CanFrame where
  ide  : Bool := false
  fdf  : Bool := false
  brs  : Bool := false
  esi  : Bool := false
  rtr  : Bool := false
  id   : BitVec 29 := 0
  dlc  : Fin 16 := 0
  data : List Byte := []
  deriving DecidableEq, Repr

/-- A target decided at the end of a frame's arbitration field (R566, R583): the buffer (64: the HPB) and its GEN then. -/
structure CanTarget where
  buf : Fin 65
  gen : BitVec 8
  deriving DecidableEq, Repr

/-- The points of a received frame at which the controller acts: the synchronising edge of its SOF (R577), the last bit of its
arbitration field (R566), and the point where it becomes valid (R567). -/
inductive CanRxPhase where
  | sof | arbitration | valid
  deriving DecidableEq, Repr

/-- How a transmission attempt ends (R573). -/
inductive TxOutcome where
  | done | arbLost | bit | stuff | form | ack
  deriving DecidableEq, Repr

/-- The bus errors of MBn.ERRLOG.CODE (R587). -/
inductive CanError where
  | stuff | form | ack | bit1 | bit0 | crc
  deriving DecidableEq, Repr

/-- The cases that ISO 11898-1 distinguishes when it counts an error (R578): a detected error; a receiver that sees a dominant bit right
after its error flag; a bit error within an error or overload flag; further dominant bits after a flag; and the two errors of a
transmitter that count nothing, no acknowledgement in the error-passive state with no dominant bit within the passive flag, and a
recessive stuff bit overwritten during arbitration. -/
inductive CanErrorCase where
  | plain | afterFlag | flagBit | longDominant | quietAck | arbStuff
  deriving DecidableEq, Repr

/-- What an event-log entry records (R614): newly pending bits of a page, the reset cause, or the commit state. -/
inductive LogKind where
  | event (page : Nat) | reset | state
  deriving DecidableEq, Repr

/-- What a scrub pass found (R616 to R618): the addresses of the words corrected, those of the words left uncorrectable, the triad
words with the copies they are uncorrectable in, and how many words of Medlar's L2 were corrected and left uncorrectable. -/
structure ScrubFindings where
  fixed    : List Nat := []
  bad      : List Nat := []
  triadBad : List (Nat × BitVec 3) := []
  l2Fixed  : Nat := 0
  l2Bad    : Nat := 0
  deriving DecidableEq, Repr

/-- The sender of a datagram (R635, R636). -/
structure EthPeer where
  ip   : Word
  port : BitVec 16
  deriving DecidableEq, Repr

/-- The frames of the network subset that have no service of their own (R632). -/
inductive EthKind where
  | arpRequest | icmpEcho | other
  deriving DecidableEq, Repr

/-- What a Sync brings the PTP slave (R638, R640): the master's time of sending in ns, the ticks since its SFD passed the balls, and of the
latest delay exchange the ticks since the request's SFD passed the balls and the master's time of receiving it in ns. -/
structure PtpExchange where
  t1    : Nat
  back2 : Nat
  back3 : Nat
  t4    : Nat
  deriving DecidableEq, Repr

/-- The commands of the block, one constructor per row of spec/opcode_table.json, in its order. -/
inductive Instr where
  /-- REGISTER_WRITE (R19): A write to a register that has no row of its own acts on each field under its access type. -/
  | registerWrite (m : Master) (addr : BitVec 32) (bytes : Nat) (v : Word) (same : Bool)
  /-- KEY_WRITE (R59): A write to KEY advances, completes or breaks the two-word unlock sequence. -/
  | keyWrite (m : Master) (page : Nat) (v : Word)
  /-- KEY_WINDOW_EXPIRY (R59): The 2560 AON cycles after the first unlock word pass without the second word. -/
  | keyWindowExpiry (page : Nat)
  /-- UNLOCK_TIMEOUT (R60): An unlocked page relocks 40 000 AON cycles after unlocking with no keyed write. -/
  | unlockTimeout (page : Nat)
  /-- SHADOW_WRITE (R64): A write to a shadow offset sets the shadow of RWC fields, or is discarded during a commit. -/
  | shadowWrite (m : Master) (page off : Nat) (v : Word)
  /-- EVENT_DELIVERY (R75): A pending enabled event reaches each target that EVT_ROUTE selects within its latency. -/
  | eventDelivery (page : Nat) (differ : BitVec 3)
  /-- SUPPLY_BROWN_OUT (R654): A supply dips below its falling threshold for 500 ns or longer and asserts its cold source. -/
  | supplyBrownOut (r : Rail) (mv ns : Nat)
  /-- POWER_ON_RELEASE (R83): The power-on sources release 200 µs after all three supplies are above threshold. -/
  | powerOnRelease
  /-- VIO_CLASS_TAKE (R654): A VIO bank takes the 3.3 V class on passing 2.85 V or the 1.8 V class when its 20 ms window ends. -/
  | vioClassTake (bank : Fin 5)
  /-- PORST_PIN (R84): A low pulse on PORST_N is accepted as a cold reset source. -/
  | porstPin (lowNs : Nat)
  /-- RESET_PIN (R84): A low pulse on RESET_N is accepted as a warm reset source. -/
  | resetPin (lowNs : Nat)
  /-- BALL_SOURCE_RELEASE (R85): An accepted ball source releases once its ball has been high for 2 µs. -/
  | ballSourceRelease (src : Source)
  /-- SWRST_COLD (R86): A keyed write of SYS.SWRST.COLD asserts a cold source. -/
  | swrstCold (m : Master) (alsoWarm : Bool)
  /-- SWRST_WARM (R86): A keyed write of SYS.SWRST.WARM asserts a warm source. -/
  | swrstWarm (m : Master)
  /-- SOFTWARE_SOURCE_RELEASE (R86): A software or command reset source releases 1 µs after it was asserted. -/
  | softwareSourceRelease (src : Source)
  /-- INTERNAL_SOURCE_RELEASE (R670): A clock-monitor, Medlar watchdog or triad-fatal source releases after 40 AON cycles. -/
  | internalSourceRelease (src : Source)
  /-- SRST (R96): A keyed write of 1 to CTRL.SRST applies a block reset of the page's block. -/
  | srst (m : Master) (page : Nat)
  /-- BLOCK_RESET_RELEASE (R96): A block reset releases its page after 4 AON cycles, or when its clock qualifies. -/
  | blockResetRelease (page : Nat)
  /-- JTAG_RESET (R90): A JTAG reset request resets and halts the named cores, or is refused unless the device is OFF and not ARMED. -/
  | jtagReset (t : JtagTarget)
  /-- SELF_REFRESH_TIMEOUT (R99): Self-refresh entry is not acknowledged within 2 µs and the DRAM contents are lost. -/
  | selfRefreshTimeout
  /-- XTAL_VALID (R97): The crystal oscillator shows valid amplitude and the PLLs are enabled. -/
  | xtalValid
  /-- XTAL_TIMEOUT (R97): No valid crystal amplitude within 10 ms holds every PLL domain in reset and raises CLK_FAULT. -/
  | xtalTimeout
  /-- PLL_LOCK (R114): A PLL reports lock in CLK.LOCK. -/
  | pllLock (p : Fin 6)
  /-- CLOCK_QUALIFY (R95): A qualification gate of 256 AON cycles completes with a count within ±2 % and the domain is qualified. -/
  | clockQualify (dom : Domain) (count : Nat)
  /-- QUALIFICATION_TIMEOUT (R82): A released domain does not qualify within 1 ms, stays held and raises CLK_FAULT. -/
  | qualificationTimeout (dom : Domain)
  /-- RELEASE_SEQUENCE (R98): Once every source of the episode has released, the qualified domains are released in order and memories initialised. -/
  | releaseSequence
  /-- MEMORY_INIT_DONE (R98): Memory initialisation completes and MGT is released. -/
  | memoryInitDone
  /-- DRAM_INIT_DONE (R99): DRAM training, zeroing or self-refresh exit completes and the DRAM becomes available. -/
  | dramInitDone
  /-- MONITOR_GATE (R116): A 256-cycle monitor gate completes and a count outside ±5 % twice running fails the domain. -/
  | monitorGate (dom : Domain) (count : Nat)
  /-- CLOCK_EDGE_TIMEOUT (R116): No edge of a monitored clock is seen for 8 AON cycles and the domain fails. -/
  | clockEdgeTimeout (dom : Domain)
  /-- XTAL_RC_MISMATCH (R117): The crystal disagrees with the RC oscillator beyond ±5 % in two gates and every PLL domain counts as failed. -/
  | xtalRcMismatch
  /-- SSC_APPLY (R121): A PLL applies a transferred spread-spectrum depth once its condition holds. -/
  | sscApply (p : SscPll)
  /-- FLASH_TIMEOUT (R110): The flash does not answer within 10 ms and flash boot fails. -/
  | flashTimeout
  /-- BOOT_VERIFY (R110): The boot ROM completes the firmware copy and signature check and starts or rejects the firmware. -/
  | bootVerify (signatureOk : Bool)
  /-- HOST_BOOT_GO (R631): A write of HOST.BOOT with GO = 1 makes the boot ROM check the host-supplied firmware. -/
  | hostBootGo (m : Master) (len : Nat) (signatureOk : Bool)
  /-- PAD_ENABLE (R664): A write of 1 to PAD.CTRL.EN applies every PAD and GPIO register to its balls and clears HELD. -/
  | padEnable (m : Master)
  /-- FIRMWARE_START_LOAD (R147): At firmware start in UNCONFIGURED the loader checks both slots and applies the newer valid image. -/
  | firmwareStartLoad
  /-- LOAD_NEWEST (R147): CFG command LOAD_NEWEST checks both slots and applies the newer valid image. -/
  | loadNewest (m : Master)
  /-- LOAD_A (R145): CFG command LOAD_A checks and applies the image of slot A. -/
  | loadA (m : Master)
  /-- LOAD_B (R145): CFG command LOAD_B checks and applies the image of slot B. -/
  | loadB (m : Master)
  /-- LOAD_SRAM (R151): CFG command LOAD_SRAM checks and applies the image at CFG.IMG_ADDR in shared SRAM. -/
  | loadSram (m : Master)
  /-- LOAD_COMPLETE (R149): A load finishes writing its sections and COMMIT_CRC and reports its result. -/
  | loadComplete
  /-- COMMIT (R156): CFG command COMMIT starts the CRC step over every RWC shadow. -/
  | commit (m : Master)
  /-- COMMIT_CRC_DONE (R66): The commit CRC step ends and on match non-group pages transfer and group pages set COMMIT_WAIT. -/
  | commitCrcDone
  /-- ARM (R160): CFG command ARM moves SEALED to ARMED when every condition holds. -/
  | arm (m : Master) (remote : Bool)
  /-- DISARM (R161): CFG command DISARM moves ARMED to SEALED with the device OFF. -/
  | disarm (m : Master)
  /-- ACK_SAFE (R161): CFG command ACK_SAFE moves SAFE to SEALED with the device OFF and no Sloe latch set. -/
  | ackSafe (m : Master)
  /-- BURN_KEY (R153): CFG command BURN_KEY burns the SHA-256 of the key at IMG_ADDR into the key hash fuse. -/
  | burnKey (m : Master)
  /-- BURN_SIGREQ (R153): CFG command BURN_SIGREQ burns the SIG_REQUIRED fuse. -/
  | burnSigreq (m : Master)
  /-- NOP (R177): Loop-engine instruction NOP does nothing. -/
  | nop (e : Fin 12) (f : EngFields)
  /-- FADD (R171): Loop-engine instruction FADD adds two binary32 values. -/
  | fadd (e : Fin 12) (f : EngFields)
  /-- FSUB (R171): Loop-engine instruction FSUB subtracts two binary32 values. -/
  | fsub (e : Fin 12) (f : EngFields)
  /-- FMUL (R171): Loop-engine instruction FMUL multiplies two binary32 values. -/
  | fmul (e : Fin 12) (f : EngFields)
  /-- FMA (R171): Loop-engine instruction FMA computes A × Bi + C with one rounding. -/
  | fma (e : Fin 12) (f : EngFields)
  /-- FMS (R171): Loop-engine instruction FMS computes C − A × Bi with one rounding. -/
  | fms (e : Fin 12) (f : EngFields)
  /-- FMIN (R172): Loop-engine instruction FMIN returns the lesser operand. -/
  | fmin (e : Fin 12) (f : EngFields)
  /-- FMAX (R172): Loop-engine instruction FMAX returns the greater operand. -/
  | fmax (e : Fin 12) (f : EngFields)
  /-- FABS (R177): Loop-engine instruction FABS writes the absolute value. -/
  | fabs (e : Fin 12) (f : EngFields)
  /-- FNEG (R177): Loop-engine instruction FNEG writes the negated value. -/
  | fneg (e : Fin 12) (f : EngFields)
  /-- FCMP (R172): Loop-engine instruction FCMP compares two binary32 values under a condition. -/
  | fcmp (e : Fin 12) (f : EngFields)
  /-- FSEL (R177): Loop-engine instruction FSEL selects A or B by a bitwise test of C. -/
  | fsel (e : Fin 12) (f : EngFields)
  /-- CVTFI (R173): Loop-engine instruction CVTFI converts binary32 to int32 with saturation. -/
  | cvtfi (e : Fin 12) (f : EngFields)
  /-- CVTIF (R177): Loop-engine instruction CVTIF converts int32 to binary32. -/
  | cvtif (e : Fin 12) (f : EngFields)
  /-- MOV (R177): Loop-engine instruction MOV copies a register or immediate. -/
  | mov (e : Fin 12) (f : EngFields)
  /-- IADD (R177): Loop-engine instruction IADD adds integers modulo 2^32. -/
  | iadd (e : Fin 12) (f : EngFields)
  /-- ISUB (R177): Loop-engine instruction ISUB subtracts integers modulo 2^32. -/
  | isub (e : Fin 12) (f : EngFields)
  /-- IAND (R177): Loop-engine instruction IAND forms a bitwise AND. -/
  | iand (e : Fin 12) (f : EngFields)
  /-- IOR (R177): Loop-engine instruction IOR forms a bitwise OR. -/
  | ior (e : Fin 12) (f : EngFields)
  /-- ISHL (R177): Loop-engine instruction ISHL shifts left. -/
  | ishl (e : Fin 12) (f : EngFields)
  /-- ISHR (R177): Loop-engine instruction ISHR shifts right, logical or arithmetic. -/
  | ishr (e : Fin 12) (f : EngFields)
  /-- ICMP (R176): Loop-engine instruction ICMP compares signed integers under a condition. -/
  | icmp (e : Fin 12) (f : EngFields)
  /-- LD (R185): Loop-engine instruction LD loads one or two words. -/
  | ld (e : Fin 12) (f : EngFields)
  /-- LD_DATA_RETURN (R186): The data of a load outside the own TCM returns and issue resumes. -/
  | ldDataReturn (e : Fin 12)
  /-- ST (R187): Loop-engine instruction ST stores to TCM or posts a write. -/
  | st (e : Fin 12) (f : EngFields)
  /-- POSTED_WRITE_DELIVERY (R199): A posted write leaves the queue and reaches its page or word, or is discarded for a stale GEN. -/
  | postedWriteDelivery (e : Fin 12)
  /-- BR (R183): Loop-engine instruction BR branches on its condition. -/
  | br (e : Fin 12) (f : EngFields)
  /-- LOOP (R184): Loop-engine instruction LOOP pushes a hardware loop. -/
  | loop (e : Fin 12) (f : EngFields)
  /-- CALL (R177): Loop-engine instruction CALL saves the return address in V63 and jumps. -/
  | call (e : Fin 12) (f : EngFields)
  /-- JR (R177): Loop-engine instruction JR jumps to a register address. -/
  | jr (e : Fin 12) (f : EngFields)
  /-- FEND (R194): Loop-engine instruction FEND ends the frame or the init section. -/
  | fend (e : Fin 12) (f : EngFields)
  /-- PUB (R256): Loop-engine instruction PUB writes the pending value of a bridge slot. -/
  | pub (e : Fin 12) (f : EngFields)
  /-- RCV (R259): Loop-engine instruction RCV reads a bridge slot from the latched view. -/
  | rcv (e : Fin 12) (f : EngFields)
  /-- TIME (R177): Loop-engine instruction TIME reads frame cycles or device time. -/
  | time (e : Fin 12) (f : EngFields)
  /-- CAP (R202): Loop-engine instruction CAP pushes a capture record. -/
  | cap (e : Fin 12) (f : EngFields)
  /-- TRQ (R201): Loop-engine instruction TRQ requests a trip of owned groups with cause ENGINE_SW. -/
  | trq (e : Fin 12) (f : EngFields)
  /-- BSW (R230): Loop-engine instruction BSW requests bank swaps of control-law units. -/
  | bsw (e : Fin 12) (f : EngFields)
  /-- CWR (R223): Loop-engine instruction CWR writes a coefficient or state word of the store. -/
  | cwr (e : Fin 12) (f : EngFields)
  /-- DIV (R178): Loop-engine instruction DIV divides two binary32 values. -/
  | div (e : Fin 12) (f : EngFields)
  /-- SQRT (R178): Loop-engine instruction SQRT computes a square root. -/
  | sqrt (e : Fin 12) (f : EngFields)
  /-- SINCOS (R177): Loop-engine instruction SINCOS computes sine and cosine of an angle in turns. -/
  | sincos (e : Fin 12) (f : EngFields)
  /-- ATAN2 (R177): Loop-engine instruction ATAN2 computes angle and magnitude of a vector. -/
  | atan2 (e : Fin 12) (f : EngFields)
  /-- XFM_CLARKE (R179): XFM mode 0 computes the Clarke transform. -/
  | xfmClarke (e : Fin 12) (f : EngFields)
  /-- XFM_PARK (R179): XFM mode 1 computes the Park transform. -/
  | xfmPark (e : Fin 12) (f : EngFields)
  /-- XFM_INVERSE_PARK (R179): XFM mode 2 computes the inverse Park transform. -/
  | xfmInversePark (e : Fin 12) (f : EngFields)
  /-- XFM_INVERSE_CLARKE (R179): XFM mode 3 computes the inverse Clarke transform. -/
  | xfmInverseClarke (e : Fin 12) (f : EngFields)
  /-- PI (R241): Control-law instruction PI runs a PI controller with conditional integration. -/
  | pi (e : Fin 12) (f : EngFields)
  /-- PR (R242): Control-law instruction PR runs a proportional-resonant filter. -/
  | pr (e : Fin 12) (f : EngFields)
  /-- BIQ (R243): Control-law instruction BIQ runs a biquad filter. -/
  | biq (e : Fin 12) (f : EngFields)
  /-- LIM_SCALAR (R179): LIM mode 0 clamps a scalar between MIN and MAX. -/
  | limScalar (e : Fin 12) (f : EngFields)
  /-- LIM_CIRCLE (R244): LIM mode 1 limits a vector to a circle and may freeze bound PI integrators. -/
  | limCircle (e : Fin 12) (f : EngFields)
  /-- PLL (R245): Control-law instruction PLL tracks angle and frequency of a vector. -/
  | pll (e : Fin 12) (f : EngFields)
  /-- OBS (R246): Control-law instruction OBS estimates rotor angle, speed and confidence. -/
  | obs (e : Fin 12) (f : EngFields)
  /-- SVM_SVPWM (R247): SVM mode 0 forms space-vector duties. -/
  | svmSvpwm (e : Fin 12) (f : EngFields)
  /-- SVM_SINUSOIDAL (R247): SVM mode 1 forms sinusoidal duties. -/
  | svmSinusoidal (e : Fin 12) (f : EngFields)
  /-- SVM_THREE_LEVEL (R247): SVM mode 2 forms signed three-level duties. -/
  | svmThreeLevel (e : Fin 12) (f : EngFields)
  /-- SVM_DISCONTINUOUS (R247): SVM mode 3 forms discontinuous duties. -/
  | svmDiscontinuous (e : Fin 12) (f : EngFields)
  /-- DTC (R248): Control-law instruction DTC corrects a duty for dead time and switching delay. -/
  | dtc (e : Fin 12) (f : EngFields)
  /-- VSM (R251): Control-law instruction VSM runs a virtual synchronous machine. -/
  | vsm (e : Fin 12) (f : EngFields)
  /-- ILLEGAL_OPCODE (R177): An instruction with an illegal opcode is issued. -/
  | illegalOpcode (e : Fin 12) (op : BitVec 6) (fetch : Ecc)
  /-- FRAME_START (R193): A frame starts 250 ns after its triggering reload, or when a held event is taken. -/
  | frameStart (e : Fin 12)
  /-- FRAME_COMPLETE (R194): A frame completes once its FEND has issued and every posted write has landed. -/
  | frameComplete (e : Fin 12)
  /-- FRAME_DEADLINE (R203): The deadline of an incomplete frame passes and the overrun mode acts. -/
  | frameDeadline (e : Fin 12)
  /-- ENGINE_START (R206): LEn.CMD START moves a HALTED engine into its init section. -/
  | engineStart (m : Master) (e : Fin 12)
  /-- ENGINE_STOP (R206): LEn.CMD STOP halts the engine or moves it to STOPPING. -/
  | engineStop (m : Master) (e : Fin 12)
  /-- ENGINE_WATCHDOG (R215): The engine watchdog count reaches LIMIT and asserts a block reset of LEn. -/
  | engineWatchdog (e : Fin 12)
  /-- LE_MBX_POST (R213): A write of LEn.MBX_POST posts a mailbox message. -/
  | leMbxPost (m : Master) (e : Fin 12) (v : Word)
  /-- CW_DATA_WRITE (R224): A write of LEn.CW_DATA writes the addressed coefficient or state word. -/
  | cwDataWrite (m : Master) (e : Fin 12) (v : Word) (same : Bool)
  /-- CW_DATA_READ (R224): A read of LEn.CW_DATA returns the addressed word and may increment INDEX. -/
  | cwDataRead (m : Master) (e : Fin 12) (data : Ecc)
  /-- BANK_REQ (R230): A write of 1 to LEn.BANK_REQ requests a bank swap. -/
  | bankReq (m : Master) (e : Fin 12) (v : Word)
  /-- RELOAD (R268): A group timebase reaches a reload, which is a sample boundary. -/
  | reload (g : Fin 12)
  /-- DUTY_SHADOW_WRITE (R278): A write to PGn.DUTY_SHk lands and joins the sample of a reload. -/
  | dutyShadowWrite (m : Master) (g : Fin 12) (k : Fin 4) (v : Word)
  /-- EDGE_EVENT (R271): A leg command changes at its carrier instant within a period. -/
  | edgeEvent (g : Fin 12) (k : Fin 4) (on : Bool)
  /-- DEAD_TIME_EXPIRY (R275): A dead time elapses and a switch whose command is still on turns on. -/
  | deadTimeExpiry (g : Fin 12) (k : Fin 4) (high : Bool)
  /-- START (R285): PGn.CMD START moves an OFF group to STARTING when every condition holds. -/
  | start (m : Master) (g : Fin 12)
  /-- STOP (R284): PGn.CMD STOP turns the group's commands off at the next reload or at once. -/
  | stop (m : Master) (g : Fin 12)
  /-- STOP_NOW (R284): PGn.CMD STOP_NOW turns every command off at once. -/
  | stopNow (m : Master) (g : Fin 12)
  /-- GSTART (R286): A write of PWMSYS.GSTART applies START to every named group. -/
  | gstart (m : Master) (v : Word)
  /-- GSTOP (R286): A write of PWMSYS.GSTOP applies STOP to every named group. -/
  | gstop (m : Master) (v : Word)
  /-- GROUP_OFF (R284): A stopping group reaches OFF after its last switch turns off, or 400 ns after the lane state frame. -/
  | groupOff (g : Fin 12)
  /-- DL_LOCK (R263): The delay line's DLL locks and DL_LOCK sets. -/
  | dlLock (g : Fin 12)
  /-- DL_UNLOCK (R264): The delay line loses lock and DL_UNLOCK is set. -/
  | dlUnlock (g : Fin 12)
  /-- SYNC_IN_PULSE (R294): A pulse on SYNC_IN reaches G0, which aligns or corrects its next carrier. -/
  | syncInPulse (ticks : Nat)
  /-- SYNC_LOST (R295): No SYNC_IN pulse arrives within LOSS carriers and G0 clears SYNC_LOCK. -/
  | syncLost
  /-- SYNC_OUT_PULSE (R292): SYNC_OUT is driven high for 16 ticks ADV ticks before a carrier start. -/
  | syncOutPulse
  /-- TRIP_NOW (R304): PGn.CMD TRIP_NOW sets the trip latch with cause HOST. -/
  | tripNow (m : Master) (g : Fin 12)
  /-- TRIP_CLR (R316): PGn.CMD TRIP_CLR clears the trip latch or is refused. -/
  | tripClr (m : Master) (g : Fin 12)
  /-- GCLR (R319): A write of PWMSYS.GCLR applies TRIP_CLR to every named group. -/
  | gclr (m : Master) (v : Word)
  /-- TRIP_INPUT (R307): A TRIP input becomes active after its filter and trips its routed groups. -/
  | tripInput (i : Fin 13) (level : Bool) (clocks : Nat)
  /-- ASC_LOW_SIDE_ON (R311): A full dead time after the trip instant the non-conducting ASC low sides turn on. -/
  | ascLowSideOn (g : Fin 12)
  /-- SLOE_ASC_LOW_SIDE_ON (R102): SDT after Sloe applied an ASC pattern the remaining ASC low sides turn on. -/
  | sloeAscLowSideOn (g : Fin 12)
  /-- FORCE_SH_WRITE (R326): A keyed write of PGn.FORCE_SH sets the force shadow. -/
  | forceShWrite (m : Master) (g : Fin 12) (v : Word)
  /-- COMMUTATION_EVENT (R323): A commutation event of MCn sets PGn.CMASK in the tick it lands. -/
  | commutationEvent (g : Fin 12)
  /-- ALIGNMENT_FRAME_SEND (R335): A lane sends an alignment frame in slot 0 of each cycle. -/
  | alignmentFrameSend (n : Fin 12)
  /-- EDGE_FRAME_SEND (R347): A lane sends an EDGE frame of two events in a free slot. -/
  | edgeFrameSend (n : Fin 12)
  /-- EDGE_FRAME_REPEAT (R348): A lane repeats an EDGE frame with REPEAT = 1 before its send deadline. -/
  | edgeFrameRepeat (n : Fin 12)
  /-- EDGE_SEND_DEADLINE (R349): An EDGE frame cannot start by its send deadline and the lane leaves READY. -/
  | edgeSendDeadline (n : Fin 12)
  /-- STATE_FRAME_SEND (R356): A lane sends a STATE frame in a free slot. -/
  | stateFrameSend (n : Fin 12)
  /-- MEASUREMENT_START (R343): A round-trip measurement of 8 PINGs starts at training and every 10 ms. -/
  | measurementStart (n : Fin 12)
  /-- PING_SEND (R342): A lane sends a PING frame in a slot free of EDGE and STATE frames. -/
  | pingSend (n : Fin 12)
  /-- PING_REPLY_RECEIVE (R342): A lane receives a PING reply and computes its RTT. -/
  | pingReplyReceive (n : Fin 12) (frame : List Byte) (tap : Fin 32)
  /-- UPSTREAM_ALIGNMENT_RECEIVE (R366): A lane receives an upstream alignment frame. -/
  | upstreamAlignmentReceive (n : Fin 12) (frame : List Byte)
  /-- UPSTREAM_STATE_RECEIVE (R366): A lane receives an upstream STATE frame with the far end's state and reports. -/
  | upstreamStateReceive (n : Fin 12) (frame : List Byte)
  /-- TELE_FRAME_RECEIVE (R364): A lane receives a TELE frame and stores delays and leg data. -/
  | teleFrameReceive (n : Fin 12) (frame : List Byte)
  /-- INVALID_FRAME_RECEIVE (R338): An invalid upstream link frame is discarded and counted. -/
  | invalidFrameReceive (n : Fin 12) (alignment : Bool)
  /-- LANE_SILENCE (R366): No valid upstream symbol for 200 ns is a loss and the lane returns to TRAIN. -/
  | laneSilence (n : Fin 12)
  /-- STATE_FRAME_TIMEOUT (R366): No valid upstream STATE frame arrives for two cycles. -/
  | stateFrameTimeout (n : Fin 12)
  /-- ALIGNMENT_MISSED (R366): An expected upstream alignment frame is missing. -/
  | alignmentMissed (n : Fin 12)
  /-- TRIGGER_FIRE (R374): A converter TRIG entry fires and starts or queues a sequence. -/
  | triggerFire (c : Fin 24) (i : Fin 8)
  /-- GRID_CONVERSION (R377): A continuous or interleaved grid instant starts a conversion. -/
  | gridConversion (c : Fin 24)
  /-- CONVERSION_SAMPLE (R373): A converter samples its slot's input at the sampling instant. -/
  | conversionSample (c : Fin 24) (code : Int)
  /-- CONVERSION_RESULT (R373): A conversion result enters accumulators and trackers 130 ns after sampling. -/
  | conversionResult (c : Fin 24)
  /-- SNAPSHOT_REPLACE (R382): Window snapshots are replaced 200 ns after the reload and WIN_CNT changes. -/
  | snapshotReplace (g : Fin 12)
  /-- REF_READY (R389): A reference buffer sets REF_RDY 2 ms after enable. -/
  | refReady (h : Fin 2)
  /-- REF_DROP (R389): A reference buffer leaves its band or is disabled and REF_RDY clears. -/
  | refDrop (h : Fin 2)
  /-- CAL_ZERO (R394): ADCSYS.CAL_CMD ZERO starts a zero calibration step. -/
  | calZero (m : Master) (v : Word)
  /-- CAL_FULL (R394): ADCSYS.CAL_CMD FULL starts a full-scale calibration step. -/
  | calFull (m : Master) (v : Word)
  /-- CAL_CALC (R395): ADCSYS.CAL_CMD CALC computes gain and offset of an input. -/
  | calCalc (m : Master) (v : Word)
  /-- CAL_ABORT (R393): ADCSYS.CAL_CMD ABORT ends a running calibration step. -/
  | calAbort (m : Master) (v : Word)
  /-- CAL_STEP_DONE (R394): A ZERO or FULL step completes its 4096 samples and stores the mean. -/
  | calStepDone
  /-- TRIM_UPDATE (R397): Every 100 ms the interleave trim estimator computes new corrections. -/
  | trimUpdate
  /-- SD_OUTPUT (R402): A sigma-delta channel produces a decimated output. -/
  | sdOutput (c : Fin 24) (bits : List Bool)
  /-- SD_FAST_FILTER_DECISION (R404): A fast over-current filter decision becomes active or inactive. -/
  | sdFastFilterDecision (c : Fin 24) (bits : List Bool)
  /-- MOD_FAULT (R405): A modulator input shows no transition for 256 clocks and the channel faults. -/
  | modFault (c : Fin 24) (bits : List Bool)
  /-- COMPARATOR_CROSSING (R408): A comparator's filtered HI or LO output becomes active or clears. -/
  | comparatorCrossing (j : Fin 64) (x : Option Int)
  /-- ABZ_EDGE (R421): A transition of A or B counts one encoder edge. -/
  | abzEdge (n : Fin 8) (a b : Bool) (ns : Nat)
  /-- INDEX (R424): A rising edge of Z is an index that latches or resets the position. -/
  | index (n : Fin 8) (a b : Bool) (ns : Nat)
  /-- ZHOME (R424): A write of 1 to ABZ_CMD.ZHOME arms one home reset. -/
  | zhome (m : Master) (n : Fin 8)
  /-- HALL_CHANGE (R427): The Hall code changes and an edge, error or skip results. -/
  | hallChange (n : Fin 8) (code : Fin 8) (ns : Nat)
  /-- SERIAL_REQUEST (R431): A timebase position or µs timer requests a serial transfer. -/
  | serialRequest (n : Fin 8)
  /-- SER_CMD_REQ (R431): A write of 1 to SER_CMD.REQ requests a serial transfer. -/
  | serCmdReq (m : Master) (n : Fin 8)
  /-- SERIAL_TRANSFER_DONE (R434): A serial transfer completes and its position is taken or the failure counted. -/
  | serialTransferDone (n : Fin 8) (bits : List Bool)
  /-- SER_TIMEOUT (R433): The last serial bit does not arrive within TIMEOUT and the transfer fails. -/
  | serTimeout (n : Fin 8)
  /-- SERIAL_RECOVERY_DONE (R435): SL has been high for RECOVER µs and the next request is accepted. -/
  | serialRecoveryDone (n : Fin 8)
  /-- SPEED_WINDOW_CLOSE (R439): A speed window closes and SPEED and state update. -/
  | speedWindowClose (n : Fin 8)
  /-- STANDSTILL_TIMEOUT (R440): STILL × 100 µs pass without an edge and the speed unit enters STILL. -/
  | standstillTimeout (n : Fin 8)
  /-- EMULATOR_EDGE (R444): The encoder emulator steps its output count by one quadrature state. -/
  | emulatorEdge (n : Fin 8)
  /-- CMP_POS_WRITE (R447): A write of CMP_POS arms the position compare with a behind check. -/
  | cmpPosWrite (m : Master) (n : Fin 8) (v : Word)
  /-- CMP_PULSE_END (R449): The PFn_CMP pulse ends after PW FBK cycles. -/
  | cmpPulseEnd (n : Fin 8)
  /-- MC_RUN (R460): MCn.CMD RUN starts the unit or changes the setpoint. -/
  | mcRun (m : Master) (n : Fin 12)
  /-- MC_STOP (R460): MCn.CMD STOP decelerates or blocks the machine. -/
  | mcStop (m : Master) (n : Fin 12)
  /-- RESET_FAULT (R460): MCn.CMD RESET_FAULT returns LOCKOUT to IDLE. -/
  | resetFault (m : Master) (n : Fin 12)
  /-- OBS_REPORT (R466): An engine write of OBS_CONF lands as an observer report. -/
  | obsReport (m : Master) (n : Fin 12) (v : Word)
  /-- OBS_REPORT_TIMEOUT (R467): No observer report lands within two periods and the rotor is lost. -/
  | obsReportTimeout (n : Fin 12)
  /-- ZERO_CROSSING (R481): An expected back-EMF zero crossing schedules the next six-step row. -/
  | zeroCrossing (n : Fin 12)
  /-- ROW_CHANGE (R481): A scheduled six-step row applies after its delay. -/
  | rowChange (n : Fin 12)
  /-- ZC_MISS (R482): No expected crossing arrives within 2I of the latest row change. -/
  | zcMiss (n : Fin 12)
  /-- FORCED_STEP (R483): ALIGN steps the rows at its forced interval or ends in lock or START_FAIL. -/
  | forcedStep (n : Fin 12)
  /-- CMDIN_CYCLE (R484): A command pin completes a cycle or measurement and CMDIN_VAL updates. -/
  | cmdinCycle (k : Fin 4) (high ns : Nat)
  /-- CMDIN_TIMEOUT (R485): A digital command pin sees no rising edge for TIMEOUT ms and is lost. -/
  | cmdinTimeout (k : Fin 4)
  /-- TRIAD_TCM_ACCESS (R491): A triad core accesses its own TCM copy, with ECC repair on an uncorrectable error. -/
  | triadTcmAccess (c : Fin 3) (addr : BitVec 32) (bytes : Nat) (store : Option Word) (bad : BitVec 3)
  /-- VOTED_STORE (R493): The voters form the 2-of-3 vote of a triad store and attribute any disagreement. -/
  | votedStore (s : StoreSet)
  /-- EXCHANGE_DELIVERY (R496): The agreement exchange delivers one result once the samples are present. -/
  | exchangeDelivery (k : LoadKind) (addr : BitVec 32) (bytes : Nat) (x : Exchange)
  /-- EXCHANGE_TIMEOUT (R497): The exchange waits 64 TRI cycles and marks missing cores odd. -/
  | exchangeTimeout (k : LoadKind) (addr : BitVec 32) (bytes : Nat) (x : Exchange)
  /-- XLW_MED_S (R500): Triad instruction XLW.MED.S loads the signed median through the exchange. -/
  | xlwMedS (rd rs1 : Fin 32) (imm : BitVec 12) (x : Exchange)
  /-- XLW_MED_U (R500): Triad instruction XLW.MED.U loads the unsigned median through the exchange. -/
  | xlwMedU (rd rs1 : Fin 32) (imm : BitVec 12) (x : Exchange)
  /-- XFLW_MED (R500): Triad instruction XFLW.MED loads the binary32 median through the exchange. -/
  | xflwMed (rd rs1 : Fin 32) (imm : BitVec 12) (x : Exchange)
  /-- SYNC_POINT (R501): Every 400 000 TRI cycles the cores stop for digest comparison. -/
  | syncPoint (va vb : VoterTest)
  /-- TRIAD_MBX_POST (R507): A write of TRIAD.MBX_POST posts a message to the triad. -/
  | triadMbxPost (m : Master) (v : Word)
  /-- MBX_ACK (R507): The triad's write of MBX_ACK clears PENDING and counts the message taken. -/
  | mbxAck (m : Master) (v : Word)
  /-- MBX_OUT_SEQ (R508): The triad's write of MBX_OUT_SEQ publishes its answer. -/
  | mbxOutSeq (m : Master) (v : Word)
  /-- SAFETY_INPUT_CHANGE (R514): A safety input's filtered run state changes. -/
  | safetyInputChange (i : Fin 16) (level : Bool) (ns : Nat)
  /-- TEST_PULSE (R515): A test output drives its low pulse and the tested inputs are checked. -/
  | testPulse (x : Fin 4)
  /-- OSSD_TOLERANCE_EXPIRY (R517): An OSSD excursion outlasts its tolerance and becomes a demand. -/
  | ossdToleranceExpiry (i : Fin 16)
  /-- DISCREPANCY_TIMEOUT (R519): Two channels differ longer than DISC_T and a discrepancy fault latches. -/
  | discrepancyTimeout (k : Fin 8)
  /-- RESET_PULSE (R522): The trailing edge of a valid reset pulse on RST_IN clears function latches. -/
  | resetPulse (i : Fin 16)
  /-- SS1_TIMER_EXPIRY (R526): The SS1 timer ends and STO follows. -/
  | ss1TimerExpiry
  /-- SPEED_A_WINDOW_CLOSE (R527): A window of Sloe's speed source A closes with count N_A. -/
  | speedAWindowClose
  /-- SPD_B_WRITE (R528): The triad writes speed source B to SAFE.SPD_B. -/
  | spdBWrite (m : Master) (v : Word)
  /-- STO_CLOSE_START (R532): Close conditions hold in OPEN and the STO switches go to TEST or CLOSING. -/
  | stoCloseStart
  /-- STO_TEST_PHASE_END (R532): A TEST phase of TEST_T ms ends and the feedbacks are compared. -/
  | stoTestPhaseEnd
  /-- STO_FEEDBACK_CHANGE (R532): The STO feedbacks reach the commanded levels and the state advances. -/
  | stoFeedbackChange (fb0 fb1 : Bool)
  /-- STO_FEEDBACK_TIMEOUT (R531): A feedback disagrees longer than FB_T and STO_FB latches. -/
  | stoFeedbackTimeout
  /-- STO_AGE_HOUR (R533): STO_AGE counts an hour and may raise TEST_DUE. -/
  | stoAgeHour
  /-- TRESP_WRITE (R537): The triad answers the permit challenge in SLOE.TRESP. -/
  | trespWrite (m : Master) (v : Word)
  /-- TPERMIT_WINDOW_EXPIRY (R537): No correct permit answer arrives within TP_WIN and TPERMIT latches. -/
  | tpermitWindowExpiry
  /-- TREQ_WRITE (R534): The triad writes SLOE.TREQ to demand holds, SS1 or STO. -/
  | treqWrite (m : Master) (v : Word)
  /-- FAULT_CLEAR (R538): A W1C write of SLOE.FAULT in a session clears fault latches whose conditions are absent. -/
  | faultClear (m : Master) (v : Word)
  /-- RWS_WRITE (R545): An accepted RWS write changes the safety configuration and logs a WRITE entry. -/
  | rwsWrite (m : Master) (addr : BitVec 32) (v : Word)
  /-- OPEN (R542): SAFE.CMD OPEN opens a safety session with the password. -/
  | open_ (m : Master)
  /-- CLOSE (R544): SAFE.CMD CLOSE closes the safety session. -/
  | close (m : Master)
  /-- SCOMMIT (R546): SAFE.CMD SCOMMIT checks the rules and starts the safety CRC. -/
  | scommit (m : Master)
  /-- SAFETY_CRC_DONE (R546): The safety CRC completes and the configuration is accepted or refused. -/
  | safetyCrcDone
  /-- SAFE_RESET (R521): SAFE.CMD RESET clears demand latches with HOST reset. -/
  | safeReset (m : Master)
  /-- SESSION_TIMEOUT (R544): A session closes after 600 s without an accepted write from its owner. -/
  | sessionTimeout
  /-- PW_LOCK_EXPIRY (R543): The 60 s password lock ends. -/
  | pwLockExpiry
  /-- LOG_ACK (R549): Medlar acknowledges the oldest change-log entry and it leaves the FIFO. -/
  | logAck (m : Master) (v : Word)
  /-- INIT (R558): MBn.CTRL.MODE INIT removes the controller from the bus. -/
  | init (m : Master) (n : Fin 4)
  /-- NORMAL (R557): MBn.CTRL.MODE NORMAL makes the controller integrate and join the bus. -/
  | normal (m : Master) (n : Fin 4)
  /-- LISTEN (R557): MBn.CTRL.MODE LISTEN makes the controller receive without driving. -/
  | listen (m : Master) (n : Fin 4)
  /-- LOOPBACK (R557): MBn.CTRL.MODE LOOPBACK makes the controller receive its own frames. -/
  | loopback (m : Master) (n : Fin 4)
  /-- CAN_FRAME_RECEIVE (R567): A valid CAN frame is stored in its target buffer, shadow or HPB. -/
  | canFrameReceive (n : Fin 4) (p : CanRxPhase) (f : CanFrame)
  /-- TXREQ (R571): A write of 1 to TXREQ requests transmission of a buffer. -/
  | txreq (m : Master) (n : Fin 4) (w : Fin 2) (v : Word)
  /-- TXABT (R574): A write of 1 to TXABT cancels a pending request. -/
  | txabt (m : Master) (n : Fin 4) (w : Fin 2) (v : Word)
  /-- RX_RELEASE (R568): A write of 1 to RXFULL or HPB_STAT.FULL releases a receive buffer. -/
  | rxRelease (m : Master) (n : Fin 4) (w : Fin 3) (v : Word)
  /-- CAN_TX_END (R573): A transmission attempt ends in success, arbitration loss or error. -/
  | canTxEnd (n : Fin 4) (o : TxOutcome) (tdcv : BitVec 7)
  /-- CAN_BUS_ERROR (R578): A bus error is detected and the error counters move. -/
  | canBusError (n : Fin 4) (e : CanError) (c : CanErrorCase) (dataPhase : Bool)
  /-- RECOVER (R581): MBn.CMD RECOVER starts bus-off recovery. -/
  | recover (m : Master) (n : Fin 4)
  /-- RECOVERED (R581): 128 sequences of 11 recessive bits end bus-off recovery. -/
  | recovered (n : Fin 4)
  /-- BUF_CFG_WRITE (R584): A write of BUF_CFGb changes a buffer's role, possibly held while it transmits. -/
  | bufCfgWrite (m : Master) (n : Fin 4) (b : Fin 64) (v : Word)
  /-- FILTER_WRITE (R582): A write to a filter is a role change of the buffers it names. -/
  | filterWrite (m : Master) (n : Fin 4) (f : Fin 32) (maskWord : Bool) (v : Word)
  /-- WINDOW_SELECT (R564): A write of WINw_SEL makes the window a view of a buffer. -/
  | windowSelect (m : Master) (n : Fin 4) (w : Fin 2) (v : Word)
  /-- TS_WRAP (R576): The timestamp counter wraps from 0xFFFF_FFFF to 0. -/
  | tsWrap (n : Fin 4)
  /-- CRC_INIT (R590): CRCn.CMD INIT sets RUN to INIT and BYTES to 0. -/
  | crcInit (m : Master) (n : Fin 4)
  /-- CRC_START (R593): CRCn.CMD START runs the DMA over LEN bytes from SRC. -/
  | crcStart (m : Master) (n : Fin 4)
  /-- CRC_ABORT (R595): CRCn.CMD ABORT ends a running DMA. -/
  | crcAbort (m : Master) (n : Fin 4)
  /-- CHECK (R596): CRCn.CMD CHECK compares RESULT with EXP. -/
  | check (m : Master) (n : Fin 4)
  /-- CRC_DMA_DONE (R593): A CRC DMA run completes and the automatic compare runs. -/
  | crcDmaDone (n : Fin 4)
  /-- CRC_DMA_REFUSED (R594): A refused DMA read ends the run with DMA_ERR. -/
  | crcDmaRefused (n : Fin 4)
  /-- DIN (R592): A write of CRCn.DIN feeds four bytes. -/
  | din (m : Master) (n : Fin 4) (v : Word)
  /-- DIN_B (R592): A write of CRCn.DIN_B feeds one byte. -/
  | dinB (m : Master) (n : Fin 4) (v : Word)
  /-- CRC_RUN_WRITE (R591): A write of CRCn.RUN replaces the CRC register. -/
  | crcRunWrite (m : Master) (n : Fin 4) (v : Word)
  /-- CLAIM (R598): A write of CRCn.CLAIM.HELD claims or releases the unit. -/
  | claim (m : Master) (n : Fin 4) (v : Word)
  /-- MEDLAR_WATCHDOG (R606): The Medlar watchdog is not served within 250 ms and asserts a plane reset. -/
  | medlarWatchdog
  /-- CAPTURE_RECORD_WRITE (R612): A capture record leaves the FIFO into the capture region of DRAM. -/
  | captureRecordWrite
  /-- RESTART (R612): DRAM.CAP_CMD RESTART resets the capture pointers and unfreezes capture. -/
  | restart (m : Master)
  /-- TRIGGER (R612): DRAM.CAP_CMD TRIGGER triggers capture. -/
  | trigger (m : Master)
  /-- FREEZE (R612): DRAM.CAP_CMD FREEZE freezes capture at once. -/
  | freeze (m : Master)
  /-- EVENT_LOG_ENTRY (R614): Medlar writes an entry to the event log. -/
  | eventLogEntry (k : LogKind)
  /-- SRAM_SCRUB_PASS (R616): The SRAM scrub pass runs once per second over all SRAM memories. -/
  | sramScrubPass (f : ScrubFindings)
  /-- DRAM_SCRUB_PASS (R618): The DRAM scrub pass runs once every 60 s. -/
  | dramScrubPass (f : ScrubFindings)
  /-- JOURNAL_COMPACTION (R620): Medlar compacts the flash journal at most once per 10 s. -/
  | journalCompaction (flashOk : Bool)
  /-- SAFETY_LOG_TRANSFER (R621): Medlar writes a safety-log entry to the journal and reads it back. -/
  | safetyLogTransfer (readBackOk : Bool)
  /-- TELEMETRY_SAMPLE (R622): Every TELE_CFG.PERIOD Medlar samples the telemetry list. -/
  | telemetrySample
  /-- MARK (R624): MGT mailbox command MARK writes a tagged event-log entry. -/
  | mark (m : Master) (seq : BitVec 8)
  /-- LOG_READ (R624): MGT mailbox command LOG_READ returns an event-log entry. -/
  | logRead (m : Master) (seq : BitVec 8)
  /-- JOURNAL_READ (R624): MGT mailbox command JOURNAL_READ returns a journal record. -/
  | journalRead (m : Master) (seq : BitVec 8)
  /-- IMAGE_WRITE (R624): MGT mailbox command IMAGE_WRITE checks an image and writes it to the free slot. -/
  | imageWrite (m : Master) (seq : BitVec 8) (flashOk : Bool)
  /-- TELE_READ (R624): MGT mailbox command TELE_READ returns telemetry values. -/
  | teleRead (m : Master) (seq : BitVec 8)
  /-- SPI_READ (R629): A host SPI READ frame returns words. -/
  | spiRead (ns : Nat) (addr : Word) (count : Fin 64) (crc : BitVec 16) (late : BitVec 64) (ecc : List (Fin 64 × Ecc)) (same : Bool)
  /-- SPI_WRITE (R628): A host SPI WRITE frame queues its words. -/
  | spiWrite (ns : Nat) (addr : Word) (words : List Word) (crc : BitVec 16)
  /-- SPI_NOP (R627): A host SPI NOP frame returns only STATUS. -/
  | spiNop (ns : Nat) (addr : Word) (count : Byte) (crc : BitVec 16)
  /-- SPI_RESET (R630): A host SPI RESET frame asserts a plane or warm reset. -/
  | spiReset (ns : Nat) (reach : Word) (count : Byte) (crc : BitVec 16)
  /-- SPI_UNKNOWN_COMMAND (R628): A host SPI frame with an unknown CMD executes nothing and reports ACC_ERR. -/
  | spiUnknownCommand (ns : Nat) (cmd : Byte) (addr : Word) (count : Byte) (crc : BitVec 16)
  /-- FRAME_ABORT (R628): HOST_CS_N rises before the CRC phase ends and the frame executes nothing. -/
  | frameAbort (ns : Nat)
  /-- HOST_WRITE_ISSUE (R628): The host port issues a queued write to its target. -/
  | hostWriteIssue
  /-- ETH_READ (R636): A register-access READ datagram is executed and answered. -/
  | ethRead (n : Fin 2) (p : EthPeer) (seq : Word) (count : Fin 64) (addr : Word) (len : Nat) (ecc : List (Fin 64 × Ecc)) (same : Bool)
  /-- ETH_WRITE (R636): A register-access WRITE datagram is executed and answered. -/
  | ethWrite (n : Fin 2) (p : EthPeer) (seq : Word) (count : Fin 64) (addr : Word) (words : List Word)
  /-- ETH_RESET (R636): A register-access RESET datagram asserts a reset after its reply. -/
  | ethReset (n : Fin 2) (p : EthPeer) (seq : Word) (reach : Word) (len : Nat)
  /-- BEACON (R637): Medlar sends the beacon once a second on each port with a link. -/
  | beacon
  /-- HEARTBEAT (R165): Medlar sends the CAN heartbeat on MB0 once a second. -/
  | heartbeat
  /-- ETH_LINK_CHANGE (R632): An Ethernet link comes up or goes down. -/
  | ethLinkChange (n : Fin 2) (up : Bool)
  /-- PTP_SYNC (R640): A received PTP Sync message yields an offset. -/
  | ptpSync (x : PtpExchange)
  /-- SERVO_COMMIT (R640): The PTP servo writes the TS shadows and commits them at most once per second. -/
  | servoCommit
  /-- TIME_LO_READ (R639): A read of TS.TIME_LO latches TIME_HI for the reading master. -/
  | timeLoRead (m : Master) (lane : Fin 4) (bytes : Nat)
  /-- MODBUS_READ_INPUT (R642): Modbus function 0x04 returns telemetry registers. -/
  | modbusReadInput (start count : BitVec 16)
  /-- MODBUS_READ_HOLDING (R642): Modbus function 0x03 returns the latest posted message words. -/
  | modbusReadHolding (start count : BitVec 16)
  /-- MODBUS_WRITE_MULTIPLE (R642): Modbus function 0x10 posts 8 words to an engine mailbox. -/
  | modbusWriteMultiple (start : BitVec 16) (words : List (BitVec 16))
  /-- SDO_REQUEST (R643): A CANopen SDO request is served. -/
  | sdoRequest (index : BitVec 16) (sub : Byte) (write : Option (List Byte))
  /-- CHANNEL_OBJECT_WRITE (R644): A write of a fan channel's controlword or target velocity posts an engine mailbox message. -/
  | channelObjectWrite (c : Fin 8) (target : Bool) (v : BitVec 16)
  /-- NMT (R643): A CANopen NMT command changes the NMT state. -/
  | nmt (cmd node : Byte)
  /-- SYNC_CONSUMER (R643): A CANopen SYNC frame is consumed. -/
  | syncConsumer
  /-- OUT_SET (R667): A write of GPIO.OUT_SET sets output bits. -/
  | outSet (m : Master) (v : Word) (same : Bool)
  /-- OUT_CLR (R667): A write of GPIO.OUT_CLR clears output bits. -/
  | outClr (m : Master) (v : Word) (same : Bool)
  /-- GPIO_EDGE (R666): A selected edge on a GPIO ball sets EDGE_RAW. -/
  | gpioEdge (i : Fin 32) (level : Bool) (ns : Nat)
  /-- SUPPLY_RISE (R83): A supply rises past its rising threshold, and the 200 µs power-on hold of its source begins. -/
  | supplyRise (r : Rail) (mv : Nat)
  /-- PING_REPLY_TIMEOUT (R342): A PING reply fails to arrive within 4 slots of its ping, and the measurement is rejected. -/
  | pingReplyTimeout (n : Fin 12)
  /-- LOCK_PLAUS_TIMEOUT (R520): A guard lock has shown locked while both door channels show open for longer than DISC_T, and LOCK_PLAUS latches. -/
  | lockPlausTimeout (k : Fin 8)
  /-- BUS_INTEGRATED (R557): The CAN controller sees 11 consecutive recessive bits while integrating and joins the bus as ERROR_ACTIVE. -/
  | busIntegrated (n : Fin 4)
  /-- TRANSMISSION_START (R572): The bus becomes free after intermission or suspend transmission, and the controller selects a pending request and sends its SOF. -/
  | transmissionStart (n : Fin 4)
  /-- ETH_FRAME_RECEIVE (R633): An Ethernet port receives a frame such as ARP or ICMP echo, counts it in RX_CNT, and discards and counts it in DROP above 20 000 frames per second. -/
  | ethFrameReceive (n : Fin 2) (kind : EthKind)
  /-- VDDQ_OUT_OF_RANGE (R655): VDDQ or VDDQL leaves its recommended range while VDD is valid, and the DRAM contents are no longer guaranteed. -/
  | vddqOutOfRange
  deriving DecidableEq, Repr

end Sys2Proof
end

