-- ==== Sys2Proof/Machine/Bits.lean ====
section
/-!
DEFINITION. Bit fields of registers (R8: hi first, bit 0 least significant), byte order of words (little-endian, R66, R109),
saturating counters and signed readings.
-/

namespace Sys2Proof.Machine

/-- The field [hi:lo] of a word, as a number (R8). -/
def fld (hi lo : Nat) (w : Word) : Nat := (w.toNat >>> lo) % 2 ^ (hi - lo + 1)

/-- A word of which only bit `i` is set. -/
def bitMask (i : Nat) : Word := BitVec.ofNat 32 (2 ^ i)

/-- A word whose bits [hi:lo] are set. -/
def fieldMask (hi lo : Nat) : Word := BitVec.ofNat 32 ((2 ^ (hi - lo + 1) - 1) * 2 ^ lo)

/-- A number placed in the field [hi:lo], cut to the field's width. -/
def place (hi lo v : Nat) : Word := BitVec.ofNat 32 ((v % 2 ^ (hi - lo + 1)) * 2 ^ lo)

/-- A word with the field [hi:lo] replaced. -/
def put (hi lo v : Nat) (w : Word) : Word := (w &&& ~~~ fieldMask hi lo) ||| place hi lo v

/-- Bit `i` of a word. -/
def bitAt (i : Nat) (w : Word) : Bool := w.getLsbD i

/-- A word with bit `i` set to `b`. -/
def setBit (i : Nat) (b : Bool) (w : Word) : Word := if b then w ||| bitMask i else w &&& ~~~ bitMask i

/-- 0 or 1. -/
def b2n (b : Bool) : Nat := if b then 1 else 0

/-- A word from a number. -/
def word (n : Nat) : Word := BitVec.ofNat 32 n

/-- Bit `i` of a number. -/
def natBit (i n : Nat) : Bool := n.testBit i

/-- A counter of `w` bits that saturates. -/
def satInc (w n : Nat) : Nat := if n + 1 < 2 ^ w then n + 1 else 2 ^ w - 1

/-- The signed reading of the low `w` bits of a number. -/
def signedOf (w n : Nat) : Int :=
  let m := n % 2 ^ w
  if m < 2 ^ (w - 1) then (m : Int) else (m : Int) - (2 ^ w : Nat)

/-- A signed number as `w` bits. -/
def unsignedOf (w : Nat) (i : Int) : Nat := (i % ((2 ^ w : Nat) : Int)).toNat

/-- An integer held between two limits. -/
def clampInt (lo hi i : Int) : Int := if i < lo then lo else if hi < i then hi else i

/-- The bytes of a word, least significant first. -/
def wordBytes (w : Word) : List Byte :=
  [w.extractLsb' 0 8, w.extractLsb' 8 8, w.extractLsb' 16 8, w.extractLsb' 24 8]

/-- A word from its bytes, least significant first; missing bytes read zero. -/
def wordOfBytes : List Byte → Word
  | [] => 0
  | b :: rest => (b.setWidth 32) ||| (wordOfBytes rest <<< 8)

/-- A number from bytes, least significant first. -/
def natOfBytes : List Byte → Nat
  | [] => 0
  | b :: rest => b.toNat + 256 * natOfBytes rest

/-- A number from bytes, most significant first. -/
def natOfBytesBE (bs : List Byte) : Nat := bs.foldl (fun a b => a * 256 + b.toNat) 0

/-- `k` bytes of a number, least significant first. -/
def bytesOfNat : Nat → Nat → List Byte
  | 0, _ => []
  | k + 1, n => BitVec.ofNat 8 n :: bytesOfNat k (n / 256)

/-- `k` bytes of a number, most significant first. -/
def bytesOfNatBE (k n : Nat) : List Byte := (bytesOfNat k n).reverse

/-- Which of the low `w` bits of a number are set, lowest first. -/
def setBits (w n : Nat) : List Nat := (List.range w).filter (fun i => natBit i n)

/-- The element of a list at an index, with a default. -/
def nth {α : Type} (dflt : α) (l : List α) (i : Nat) : α := (l[i]?).getD dflt

end Sys2Proof.Machine
end

