-- ==== Sys2Proof/Machine/Crc.lean ====
section
/-!
DEFINITION. Check values (R588, R589): a CRC of any width and parameters over bytes, in the orientation of its input, and the
four presets; and SHA-256 and ECDSA P-256 verification, which the configuration image uses (R144, R152).
-/

namespace Sys2Proof.Machine

/-- The low `w` bits of a number reversed. -/
def bitReverse : Nat → Nat → Nat
  | 0, _ => 0
  | w + 1, n => (n % 2) * 2 ^ w + bitReverse w (n / 2)

/-- The parameters of a CRC (R588): width, polynomial, initial value, reflections, final XOR. -/
structure CrcParams where
  width  : Nat
  poly   : Nat
  init   : Nat
  xorOut : Nat
  refIn  : Bool
  refOut : Bool
  deriving DecidableEq, Repr

/-- One input bit into a register of width `w` that takes the most significant bit first. -/
def crcBitMsb (w poly : Nat) (r : Nat) (b : Bool) : Nat :=
  let top := natBit (w - 1) r
  let s := (r * 2) % 2 ^ w
  if top != b then s ^^^ poly else s

/-- One byte into the register of R590: in the orientation of the input (R589). -/
def crcByte (p : CrcParams) (r : Nat) (b : Byte) : Nat :=
  if p.refIn then
    let poly := bitReverse p.width p.poly
    (List.range 8).foldl (fun r i => if (r % 2 == 1) != natBit i b.toNat then (r / 2) ^^^ poly else r / 2) r
  else
    (List.range 8).foldl (fun r i => crcBitMsb p.width p.poly r (natBit (7 - i) b.toNat)) r

/-- The register before the first byte (R590). -/
def crcInit (p : CrcParams) : Nat := if p.refIn then bitReverse p.width (p.init % 2 ^ p.width) else p.init % 2 ^ p.width

/-- Bytes into the register. -/
def crcFeed (p : CrcParams) (r : Nat) (bs : List Byte) : Nat := bs.foldl (crcByte p) r

/-- The result of R590 from the register. -/
def crcResult (p : CrcParams) (r : Nat) : Nat :=
  (((if p.refOut != p.refIn then bitReverse p.width r else r) ^^^ p.xorOut) % 2 ^ p.width)

/-- The check value of bytes. -/
def crcOf (p : CrcParams) (bs : List Byte) : Nat := crcResult p (crcFeed p (crcInit p) bs)

/-- The presets of R588. -/
def crc32Params : CrcParams := { width := 32, poly := 0x04C11DB7, init := 0xFFFFFFFF, xorOut := 0xFFFFFFFF, refIn := true, refOut := true }
def crc32cParams : CrcParams := { width := 32, poly := 0x1EDC6F41, init := 0xFFFFFFFF, xorOut := 0xFFFFFFFF, refIn := true, refOut := true }
def crc16Params : CrcParams := { width := 16, poly := 0x1021, init := 0xFFFF, xorOut := 0, refIn := false, refOut := false }
def crc8Params : CrcParams := { width := 8, poly := 0x2F, init := 0xFF, xorOut := 0xFF, refIn := false, refOut := false }

/-- CRC-32C of bytes, and of words taken least significant byte first. -/
def crc32c (bs : List Byte) : Word := word (crcOf crc32cParams bs)
def crc32cWords (ws : List Word) : Word := crc32c (ws.flatMap wordBytes)

/-! ### SHA-256 -/

/-- The first primes: numbers below 312 that no smaller number from 2 to 18 divides. -/
def smallPrimes : List Nat :=
  (List.range 312).filter (fun n => 2 ≤ n && (List.range 17).all (fun k => n ≤ k + 2 || n % (k + 2) != 0))

/-- The whole part of the root of degree `deg` of a number below 2 ^ (`bits` × `deg`), found bit by bit from the highest. -/
def wholeRoot (deg n bits : Nat) : Nat :=
  (List.range bits).foldr (fun i r => if (r + 2 ^ i) ^ deg ≤ n then r + 2 ^ i else r) 0

/-- The first 32 bits of the fractional part of the root of a prime. -/
def rootBits (deg p : Nat) : Word := word (wholeRoot deg (p * 2 ^ (32 * deg)) 37)

/-- A hash in progress: the chain that begins with a, the chain that begins with e, and the sixteen words of the message schedule
that the next rounds take, the next one first. -/
structure ShaRun where
  near   : List Word
  far    : List Word
  window : List Word

/-- The exclusive or of a word rotated right by each of some counts. -/
def spin (w : Word) (counts : List Nat) : Word := counts.foldl (fun x n => x ^^^ w.rotateRight n) 0

/-- The word that the schedule appends to a window. -/
def shaNext (ws : List Word) : Word :=
  let early := nth 0 ws 1
  let late := nth 0 ws 14
  nth 0 ws 0 + nth 0 ws 9 + (spin early [7, 18] ^^^ (early >>> 3)) + (spin late [17, 19] ^^^ (late >>> 10))

/-- One round under its constant. -/
def ShaRun.turn (r : ShaRun) (constant : Word) : ShaRun :=
  let at_ (l : List Word) (i : Nat) : Word := nth 0 l i
  let e := at_ r.far 0
  let pick := (at_ r.far 2 ^^^ (e &&& (at_ r.far 1 ^^^ at_ r.far 2)))
  let major := (at_ r.near 0 &&& (at_ r.near 1 ||| at_ r.near 2)) ||| (at_ r.near 1 &&& at_ r.near 2)
  let carry := constant + at_ r.window 0 + at_ r.far 3 + pick + spin e [6, 11, 25]
  { near := (carry + major + spin (at_ r.near 0) [2, 13, 22]) :: r.near.take 3
    far := (carry + at_ r.near 3) :: r.far.take 3
    window := r.window.drop 1 ++ [shaNext r.window] }

/-- A block of 64 bytes taken into the two chains: 64 rounds under the cube roots of the first 64 primes. -/
def shaTake (chains : List Word × List Word) (block : List Byte) : List Word × List Word :=
  let words := (List.range 16).map (fun i => word (natOfBytesBE ((block.drop (4 * i)).take 4)))
  let r := (smallPrimes.map (rootBits 3)).foldl ShaRun.turn { near := chains.1, far := chains.2, window := words }
  (List.zipWith (· + ·) chains.1 r.near, List.zipWith (· + ·) chains.2 r.far)

/-- SHA-256 of bytes, as a number (FIPS 180-4): the chains begin with the square roots of the first eight primes, and the message
ends with a 1 bit, zeros and its length in bits. -/
def sha256 (bs : List Byte) : Nat :=
  let fill := (64 - (bs.length + 9) % 64) % 64
  let message := bs ++ 0x80 :: (List.replicate fill 0 ++ bytesOfNatBE 8 (8 * bs.length))
  let start := (smallPrimes.take 8).map (rootBits 2)
  let chains := (List.range (message.length / 64)).foldl (fun c i => shaTake c ((message.drop (64 * i)).take 64))
    (start.take 4, start.drop 4)
  (chains.1 ++ chains.2).foldl (fun n w => n * 2 ^ 32 + w.toNat) 0

/-! ### ECDSA P-256 -/

def p256 : Nat := 0xffffffff00000001000000000000000000000000ffffffffffffffffffffffff
def n256 : Nat := 0xffffffff00000000ffffffffffffffffbce6faada7179e84f3b9cac2fc632551
def b256 : Nat := 0x5ac635d8aa3a93e7b3ebbd55769886bc651d06b0cc53b0f63bce3c3e27d2604b
def gx256 : Nat := 0x6b17d1f2e12c4247f8bce6e563a440f277037d812deb33a0f4a13945d898c296
def gy256 : Nat := 0x4fe342e2fe1a7f9b8ee7eb4a7c0f9e162bce33576b315ececbb6406837bf51f5

/-- Powers by squaring, over `k` bits of the exponent. -/
def powMod (m : Nat) : Nat → Nat → Nat → Nat
  | 0, _, _ => 1
  | k + 1, b, e => (if e % 2 = 1 then b else 1) * powMod m k (b * b % m) (e / 2) % m

/-- The inverse modulo a prime. -/
def invMod (m a : Nat) : Nat := powMod m 256 (a % m) (m - 2)

/-- The sum of two points of the curve; none is the point at infinity. -/
def ecAdd (a b : Option (Nat × Nat)) : Option (Nat × Nat) :=
  match a, b with
  | none, q => q
  | q, none => q
  | some (x1, y1), some (x2, y2) =>
    if x1 = x2 ∧ (y1 + y2) % p256 = 0 then none
    else
      let l := if x1 = x2 then (3 * x1 * x1 + (p256 - 3)) * invMod p256 (2 * y1) % p256
        else (y2 + p256 - y1) * invMod p256 (x2 + p256 - x1) % p256
      let x3 := (l * l + 2 * p256 - x1 - x2) % p256
      some (x3, (l * (x1 + p256 - x3) + p256 - y1) % p256)

/-- A multiple of a point, over `k` bits of the multiplier. -/
def ecMul : Nat → Nat → Option (Nat × Nat) → Option (Nat × Nat)
  | 0, _, _ => none
  | k + 1, e, q =>
    let r := ecMul k (e / 2) (ecAdd q q)
    if e % 2 = 1 then ecAdd r q else r

/-- The key is a point of the curve. -/
def onCurve (x y : Nat) : Bool := x < p256 && y < p256 && y * y % p256 == (x * x * x + (p256 - 3) * x + b256) % p256

/-- ECDSA P-256 verification of a hash under a public key (FIPS 186-4). -/
def ecdsaOk (x y r s hash : Nat) : Bool :=
  if onCurve x y && 0 < r && r < n256 && 0 < s && s < n256 then
    let w := invMod n256 s
    match ecAdd (ecMul 256 (hash * w % n256) (some (gx256, gy256))) (ecMul 256 (r * w % n256) (some (x, y))) with
    | none => false
    | some (vx, _) => vx % n256 == r
  else false

end Sys2Proof.Machine
end

