-- ==== Sys2Proof/Config.lean ====
section
/-!
DEFINITION. What the spec leaves open, as constants without a body: nothing in Lean can evaluate one or prove a value of it, so
whatever is proved holds for every value.
-/

namespace Sys2Proof.Config

/-- The model's stream of free values: the value a state takes is the one at its counter. -/
opaque freeWord : Nat → Word

/-- Contents of the boot ROM (R39 gives its place and size, not its bytes). -/
opaque bootRom : Nat → Byte

/-- Bytes of a DRAM whose contents are not guaranteed (R99, R655), by epoch of loss and address. -/
opaque lostByte : Nat → Nat → Byte

/-- Whether a ball whose low pulse lies between the ignored and the accepted length is accepted (R84). -/
opaque pulseAccepted : Nat → Bool

/-- The angle of a vector that has none: both components zero, or both infinite (R177 states no result there). -/
opaque angleOpen : Word → Word → Word

/-- The dither's LFSR (R136 names a 23-bit LFSR without its taps) and the length it draws around a nominal one. -/
opaque lfsrStep : Nat → Nat
opaque ditherPick : Nat → Nat → Nat → Int

/-- Whether the trim estimator rounds a value up (R397 names the resolution of its values and not their rounding). -/
opaque roundUp : Int → Nat → Bool

/-- The bit before the first that a sigma-delta channel has sampled, by channel and place (R401, R404). -/
opaque sdBefore : Nat → Nat → Bool

/-- Payload layouts that the spec names without giving: SERVICE and CALIB (R142). -/
opaque serviceIpv4 : List Byte → Word
opaque serviceMask : List Byte → Word
opaque serviceGateway : List Byte → Word
opaque serviceHeartbeat : List Byte → Nat
opaque serviceBeacon : List Byte → Nat
opaque serviceCanRate : List Byte → Nat
opaque servicePtpRaw : List Byte → Bool
opaque servicePhyTx : List Byte → Nat → Int
opaque servicePhyRx : List Byte → Nat → Int
opaque servicePermitted : List Byte → List Word
opaque serviceModbus : List Byte → Bool
opaque serviceModbusEngine : List Byte → Nat
opaque servicePtpPort : List Byte → Nat
opaque servicePtpSlave : List Byte → Bool
opaque serviceCanController : List Byte → Nat
opaque serviceNodeId : List Byte → Nat
opaque serviceTelemetry : List Byte → List Nat
opaque serviceChannels : List Byte → List (Nat × Nat)
opaque serviceRegisters : List Byte → List (Nat × Word)
opaque calibPairs : List Byte → List (Nat × Word)

/-- PSTATE of a released block that R127 does not list, by page and instant, and whether a core (Medlar or the triad, by page)
executes at an instant and does not wait for an interrupt (R127). -/
opaque otherState : Nat → Nat → Nat
opaque executes : Nat → Nat → Bool

/-- The link-local address a port takes until a SERVICE section is committed (R633). -/
opaque linkLocal : Nat → Word

/-- The receive error counter after a valid frame received at 128 or above, which ISO 11898-1 leaves between 119 and 127. -/
opaque recAfterPassive : Nat → Nat

/-- The 64 bytes of a flash-journal record (R620 gives their number and not their layout), by kind and content. -/
opaque journalRecord : Nat → List Byte → List Byte

/-- Where and how a telemetry set is stored in the service region (R622 names the region alone), by set number and values. -/
opaque teleStore : Nat → List Word → List (Nat × Byte)

/-- The bytes that the DMA of a check-value unit reads in a tick (R595 gives no pace), by unit and instant. -/
opaque dmaStep : Nat → Nat → Nat

/-- The delay that a slew step adds at a gate ball of the 1.8 V class, in hundredths of a unit of 1/32 tick: R131 states the 3.3 V
class alone. -/
opaque gateDelay18 : Nat → Nat

/-- The RATE that the PTP servo commits for an offset, whose control law R640 leaves open, by the offset and the RATE in force. -/
opaque servoRate : Int → Word → Word

end Sys2Proof.Config
end

