-- ==== Sys2Proof/Machine/RegMap.lean ====
section
/-!
DEFINITION. The register map: one row per register of every page kind, with the mask of each access type and the cold reset
value, written from the field tables of spec/02 to spec/20 (R58, R107, R112, R126, R166, R219, R261, R300, R301, R330, R331,
R368, R413 to R418, R451, R486, R509, R554, R555, R587, R603, R625, R645, R665, R667), and a name for each register's address.
-/

namespace Sys2Proof.Machine

/-- The kinds of register page (R54). -/
inductive PageKind where
  | sys | rst | clk | cfg | evt | ts | le | pg | pwmsys | fl | ac | adcsys | acc | mmx | cmp | sd | pf | mc | mb | crc | triad | sloe | safe | mgt | host | eth | dram | scrub | pad | gpio
  deriving DecidableEq, Repr

/-- How a reset value depends on where the register stands ("2^n", "2^i", "n + 1", "n mod 8", the ID word). -/
inductive ResetForm where
  | fixed | powInst | powIdx | instPlus1 | instMod8 | ident
  deriving DecidableEq, Repr

/-- One row of the register map: `count` registers from offset `off`, `stride` bytes apart, with one mask per access type
of R19 (`keyed` marks the keyed fields of R668) and the cold reset value. -/
structure RegDesc where
  off    : Nat
  stride : Nat := 0
  count  : Nat := 1
  rw     : Nat := 0
  ro     : Nat := 0
  w1c    : Nat := 0
  w1s    : Nat := 0
  wo     : Nat := 0
  rwc    : Nat := 0
  rws    : Nat := 0
  keyed  : Nat := 0
  reset  : Nat := 0
  form   : ResetForm := .fixed
  deriving DecidableEq, Repr


/-- The registers of a SYS page (spec/03). -/
def descsSys : List RegDesc :=
  [{ off := 0x0, ro := 0xFFFFFFFF, form := .ident },
   { off := 0x4, ro := 0x1, wo := 0x2, keyed := 0x2, reset := 0x1 },
   { off := 0x8, ro := 0x40000000, w1c := 0x80000000 },
   { off := 0xc, w1c := 0xC0000007 },
   { off := 0x10, rw := 0xFFFFFFFF },
   { off := 0x14, ro := 0xFFFFFFFF },
   { off := 0x18, rwc := 0xF17, rws := 0x8, reset := 0x3 },
   { off := 0x1c, ro := 0x3 },
   { off := 0x20, ro := 0xFFFFFF07 },
   { off := 0x24, ro := 0xFFFF },
   { off := 0x40, ro := 0xFFFFFFFF },
   { off := 0x44, ro := 0xFF01, w1c := 0x80000000 },
   { off := 0x48, ro := 0xFFFF },
   { off := 0x50, wo := 0x3, keyed := 0x3 },
   { off := 0x54, ro := 0xC00001FF }]

/-- The registers of a RST page (spec/03). -/
def descsRst : List RegDesc :=
  [{ off := 0x0, ro := 0xFFFFFFFF, form := .ident },
   { off := 0x4, ro := 0x1, wo := 0x2, keyed := 0x2, reset := 0x1 },
   { off := 0x8, ro := 0x40000000, w1c := 0x80000000 },
   { off := 0xc, w1c := 0xC0000000 },
   { off := 0x10, rw := 0xFFFFFFFF },
   { off := 0x14, ro := 0xFFFFFFFF },
   { off := 0x18, rwc := 0xF17, rws := 0x8, reset := 0x3 },
   { off := 0x1c, ro := 0x3 },
   { off := 0x20, ro := 0xFFFFFF07 },
   { off := 0x24, ro := 0xFFFF },
   { off := 0x40, ro := 0xF8001FFF },
   { off := 0x44, w1c := 0x1FFF },
   { off := 0x48, ro := 0xFFFFFFFF },
   { off := 0x4c, ro := 0x3FFFFFF, w1c := 0x80000000 },
   { off := 0x50, ro := 0xFFFF }]

/-- The registers of a CLK page (spec/04). -/
def descsClk : List RegDesc :=
  [{ off := 0x0, ro := 0xFFFFFFFF, form := .ident },
   { off := 0x4, ro := 0x1, wo := 0x2, keyed := 0x2, reset := 0x1 },
   { off := 0x8, ro := 0x40000000, w1c := 0x80000000 },
   { off := 0xc, w1c := 0xC0000007 },
   { off := 0x10, rw := 0xFFFFFFFF },
   { off := 0x14, ro := 0xFFFFFFFF },
   { off := 0x18, rwc := 0xF17, rws := 0x8, reset := 0x3 },
   { off := 0x1c, ro := 0x3 },
   { off := 0x20, ro := 0xFFFFFF07 },
   { off := 0x24, ro := 0xFFFF },
   { off := 0x40, ro := 0x101FF },
   { off := 0x44, w1c := 0x301FF },
   { off := 0x48, ro := 0x3F },
   { off := 0x4c, rwc := 0x3333 },
   { off := 0x50, ro := 0x3333 },
   { off := 0x54, rw := 0xF0000000, ro := 0xFFFF }]

/-- The registers of a CFG page (spec/05). -/
def descsCfg : List RegDesc :=
  [{ off := 0x0, ro := 0xFFFFFFFF, form := .ident },
   { off := 0x4, ro := 0x1, wo := 0x2, keyed := 0x2, reset := 0x1 },
   { off := 0x8, ro := 0x40000000, w1c := 0x80000000 },
   { off := 0xc, w1c := 0xC000007F },
   { off := 0x10, rw := 0xFFFFFFFF },
   { off := 0x14, ro := 0xFFFFFFFF },
   { off := 0x18, rwc := 0xF17, rws := 0x8, reset := 0x3 },
   { off := 0x1c, ro := 0x3 },
   { off := 0x20, ro := 0xFFFFFF07 },
   { off := 0x24, ro := 0xFFFF },
   { off := 0x40, ro := 0x3F37 },
   { off := 0x44, wo := 0xFF, keyed := 0xFF },
   { off := 0x48, rw := 0xFFFFFFFF },
   { off := 0x4c, ro := 0xFFFFFFFF },
   { off := 0x50, ro := 0xFFFF01FF },
   { off := 0x54, rw := 0xFFFFFFFF, reset := 0x10000000 },
   { off := 0x58, ro := 0x3 },
   { off := 0x5c, ro := 0xFFFFFFFF },
   { off := 0x60, ro := 0xFFFFFFFF },
   { off := 0x64, ro := 0x3 }]

/-- The registers of a EVT page (spec/02). -/
def descsEvt : List RegDesc :=
  [{ off := 0x0, ro := 0xFFFFFFFF, form := .ident },
   { off := 0x4, ro := 0x1, wo := 0x2, keyed := 0x2, reset := 0x1 },
   { off := 0x8, ro := 0x40000000, w1c := 0x80000000 },
   { off := 0xc, w1c := 0xC0000000 },
   { off := 0x10, rw := 0xFFFFFFFF },
   { off := 0x14, ro := 0xFFFFFFFF },
   { off := 0x18, rwc := 0xF17, rws := 0x8, reset := 0x3 },
   { off := 0x1c, ro := 0x3 },
   { off := 0x20, ro := 0xFFFFFF07 },
   { off := 0x24, ro := 0xFFFF },
   { off := 0x40, stride := 4, count := 8, ro := 0xFFFFFFFF },
   { off := 0x60, stride := 4, count := 8, ro := 0xFFFFFFFF },
   { off := 0x80, stride := 4, count := 8, ro := 0xFFFFFFFF }]

/-- The registers of a TS page (spec/19). -/
def descsTs : List RegDesc :=
  [{ off := 0x0, ro := 0xFFFFFFFF, form := .ident },
   { off := 0x4, ro := 0x1, wo := 0x2, keyed := 0x2, reset := 0x1 },
   { off := 0x8, ro := 0x40000000, w1c := 0x80000000 },
   { off := 0xc, w1c := 0xC0000003 },
   { off := 0x10, rw := 0xFFFFFFFF },
   { off := 0x14, ro := 0xFFFFFFFF },
   { off := 0x18, rwc := 0xF17, rws := 0x8, reset := 0x3 },
   { off := 0x1c, ro := 0x3 },
   { off := 0x20, ro := 0xFFFFFF07 },
   { off := 0x24, ro := 0xFFFF },
   { off := 0x40, ro := 0xFFFFFFFF },
   { off := 0x44, ro := 0xFFFFFFFF },
   { off := 0x48, rwc := 0xFFFFFFFF },
   { off := 0x4c, rwc := 0xFFFFFFFF },
   { off := 0x50, rwc := 0xFFFFFFFF },
   { off := 0x54, rw := 0x1 },
   { off := 0x58, rw := 0xFF0000, ro := 0xC000FFFF }]

/-- The registers of a LE page (spec/06). -/
def descsLe : List RegDesc :=
  [{ off := 0x0, ro := 0xFFFFFFFF, form := .ident },
   { off := 0x4, rw := 0x1, wo := 0x2, keyed := 0x2 },
   { off := 0x8, ro := 0x40FFFFF7, w1c := 0x80000000 },
   { off := 0xc, w1c := 0xC00001FF },
   { off := 0x10, rw := 0xFFFFFFFF },
   { off := 0x14, ro := 0xFFFFFFFF },
   { off := 0x18, rwc := 0xF17, rws := 0x8, reset := 0x3 },
   { off := 0x1c, ro := 0x3 },
   { off := 0x20, ro := 0xFFFFFF07 },
   { off := 0x24, ro := 0xFFFF },
   { off := 0x40, wo := 0xFF },
   { off := 0x44, rwc := 0xFFF, form := .powInst },
   { off := 0x48, ro := 0x30FFF, form := .powInst },
   { off := 0x4c, rwc := 0x10FFF, reset := 0x10000, form := .powInst },
   { off := 0x50, rwc := 0xFFF0FFF },
   { off := 0x54, rwc := 0xFF03 },
   { off := 0x58, rwc := 0xFFFF },
   { off := 0x5c, ro := 0xFFFFFFFF },
   { off := 0x60, rw := 0xFFFF, ro := 0xFF000000 },
   { off := 0x64, rw := 0xFFFF },
   { off := 0x68, rw := 0xFFFF },
   { off := 0x6c, ro := 0xFFFFF },
   { off := 0x70, rw := 0xFFFFF },
   { off := 0x74, rw := 0xFFFFFFFF, reset := 0xFFFFFFFF },
   { off := 0x78, ro := 0xFFF0FFF },
   { off := 0x7c, w1c := 0xF },
   { off := 0x80, ro := 0xFFFF3FFF },
   { off := 0x84, wo := 0x1FFFF },
   { off := 0x88, ro := 0xFFFF0001 },
   { off := 0xa0, stride := 4, count := 8, ro := 0xFFFFFFFF },
   { off := 0xc0, stride := 4, count := 8, rw := 0xFFFFFFFF },
   { off := 0x100, stride := 4, count := 64, rwc := 0x800FFFFF },
   { off := 0x200, rwc := 0x1 },
   { off := 0x204, ro := 0x3FE },
   { off := 0x208, w1s := 0x3FE },
   { off := 0x20c, w1c := 0x1FFFF },
   { off := 0x210, rw := 0xF0FFFF03 },
   { off := 0x214, rw := 0xFFFFFFFF },
   { off := 0x218, ro := 0xFFFFF01, w1c := 0x80000000 },
   { off := 0x21c, ro := 0xFFFFFF, reset := 0xFFFFFF }] ++
  [{ off := 0x220, rw := 0xFFFF },
   { off := 0x240, stride := 4, count := 8, rwc := 0x1FF },
   { off := 0x260, stride := 4, count := 12, rwc := 0xFFFF },
   { off := 0x2a0, stride := 4, count := 8, ro := 0xFFFFFFFF }]

/-- The registers of a PG page (spec/08). -/
def descsPg : List RegDesc :=
  [{ off := 0x0, ro := 0xFFFFFFFF, form := .ident },
   { off := 0x4, wo := 0x2, rwc := 0x30001, keyed := 0x2 },
   { off := 0x8, ro := 0x400F01EF, w1c := 0x80000000 },
   { off := 0xc, w1c := 0xC01F00FF },
   { off := 0x10, rw := 0xFFFFFFFF },
   { off := 0x14, ro := 0xFFFFFFFF },
   { off := 0x18, rwc := 0xF17, rws := 0x8, reset := 0x3 },
   { off := 0x1c, ro := 0x3 },
   { off := 0x20, ro := 0xFFFFFF07 },
   { off := 0x24, ro := 0xFFFF },
   { off := 0x40, wo := 0xFF },
   { off := 0x44, ro := 0xFF00, w1c := 0x80000000 },
   { off := 0x48, rwc := 0xFF07, reset := 0x2 },
   { off := 0x4c, rwc := 0x7FFFF, reset := 0x9C40 },
   { off := 0x50, rwc := 0xFFFF, reset := 0x3200 },
   { off := 0x54, rwc := 0xFFFF0003 },
   { off := 0x58, rwc := 0x9F7FFFFF, form := .instPlus1 },
   { off := 0x5c, rwc := 0xFF },
   { off := 0x60, rw := 0x1, ro := 0x6 },
   { off := 0x64, ro := 0x4000FFFF, w1c := 0x80000000 },
   { off := 0x68, ro := 0xFFFFFFFF },
   { off := 0x6c, ro := 0xFFFFF },
   { off := 0x70, ro := 0xFFFFF },
   { off := 0x74, ro := 0x800FFFFF },
   { off := 0x78, rw := 0xFFFF },
   { off := 0x7c, ro := 0xFFFF },
   { off := 0x80, stride := 4, count := 4, rw := 0x1FFFFFF },
   { off := 0x90, stride := 4, count := 4, ro := 0x1FFFFFF },
   { off := 0xa0, stride := 4, count := 4, rwc := 0xFFF },
   { off := 0x100, rwc := 0x30F0FFF, reset := 0xF0000 },
   { off := 0x104, rwc := 0xFFFE, reset := 0xFFFE },
   { off := 0x108, rwc := 0xFFFFFFFF },
   { off := 0x10c, rwc := 0xFFFFFFFF },
   { off := 0x110, rwc := 0xFFFFFF },
   { off := 0x114, ro := 0x8F00FFFE },
   { off := 0x118, ro := 0x3FFFE },
   { off := 0x11c, ro := 0xFFFFFFFF },
   { off := 0x120, rw := 0xFFFF },
   { off := 0x124, ro := 0x3FFFE, w1c := 0x80000000 },
   { off := 0x128, ro := 0x810F00FF }] ++
  [{ off := 0x140, rwc := 0x1 },
   { off := 0x144, ro := 0xFF },
   { off := 0x148, rw := 0xFFFF },
   { off := 0x160, rwc := 0x1 },
   { off := 0x164, rw := 0x1FF, keyed := 0x1FF },
   { off := 0x168, rw := 0xFFFFFF },
   { off := 0x16c, ro := 0x1FF }]

/-- The registers of a PWMSYS page (spec/08). -/
def descsPwmsys : List RegDesc :=
  [{ off := 0x0, ro := 0xFFFFFFFF, form := .ident },
   { off := 0x4, ro := 0x1, wo := 0x2, keyed := 0x2, reset := 0x1 },
   { off := 0x8, ro := 0x40000000, w1c := 0x80000000 },
   { off := 0xc, w1c := 0xC0001FFF },
   { off := 0x10, rw := 0xFFFFFFFF },
   { off := 0x14, ro := 0xFFFFFFFF },
   { off := 0x18, rwc := 0xF17, rws := 0x8, reset := 0x3 },
   { off := 0x1c, ro := 0x3 },
   { off := 0x20, ro := 0xFFFFFF07 },
   { off := 0x24, ro := 0xFFFF },
   { off := 0x40, rwc := 0xFFFFFF, reset := 0x555555 },
   { off := 0x44, rwc := 0x800F00FF },
   { off := 0x48, rwc := 0xFFFF, reset := 0x404 },
   { off := 0x4c, wo := 0xFFF },
   { off := 0x50, wo := 0xFFF },
   { off := 0x54, ro := 0xFFF },
   { off := 0x100, stride := 4, count := 12, rwc := 0x8FFF03FF, reset := 0x10, form := .powIdx },
   { off := 0x130, ro := 0xFFF0000, rwc := 0x800003FF, reset := 0x10 },
   { off := 0x140, ro := 0x1FFF },
   { off := 0x148, wo := 0xFFF }]

/-- The registers of a FL page (spec/10). -/
def descsFl : List RegDesc :=
  [{ off := 0x0, ro := 0xFFFFFFFF, form := .ident },
   { off := 0x4, wo := 0x2, rwc := 0x3D0001, keyed := 0x2, reset := 0x50000 },
   { off := 0x8, ro := 0x40000707, w1c := 0x80000000 },
   { off := 0xc, w1c := 0xC00000FF },
   { off := 0x10, rw := 0xFFFFFFFF },
   { off := 0x14, ro := 0xFFFFFFFF },
   { off := 0x18, rwc := 0xF17, rws := 0x8, reset := 0x3 },
   { off := 0x1c, ro := 0x3 },
   { off := 0x20, ro := 0xFFFFFF07 },
   { off := 0x24, ro := 0xFFFF },
   { off := 0x40, ro := 0x80FFFFFF },
   { off := 0x44, ro := 0xFFFFFFFF },
   { off := 0x48, ro := 0xFFFFFFFF },
   { off := 0x4c, rw := 0xFFFF, ro := 0xFFFF0000 },
   { off := 0x50, ro := 0xFFFFFF0F },
   { off := 0x54, ro := 0xF, w1c := 0x80000000 },
   { off := 0x58, ro := 0xFFFFFFFF },
   { off := 0x5c, ro := 0xFFFFFFFF },
   { off := 0x60, stride := 8, count := 4, ro := 0xFFFFFFFF, reset := 0xFFFFFFFF },
   { off := 0x64, stride := 8, count := 4, ro := 0xFFFFFFFF, reset := 0xFFFFFFFF },
   { off := 0x80, stride := 4, count := 4, ro := 0xFFFFFF03, reset := 0xFF00 }]

/-- The registers of a AC page (spec/11). -/
def descsAc : List RegDesc :=
  [{ off := 0x0, ro := 0xFFFFFFFF, form := .ident },
   { off := 0x4, wo := 0x2, rwc := 0x1, keyed := 0x2 },
   { off := 0x8, ro := 0x40000007, w1c := 0x80000000 },
   { off := 0xc, w1c := 0xC000000F },
   { off := 0x10, rw := 0xFFFFFFFF },
   { off := 0x14, ro := 0xFFFFFFFF },
   { off := 0x18, rwc := 0xF17, rws := 0x8, reset := 0x3 },
   { off := 0x1c, ro := 0x3 },
   { off := 0x20, ro := 0xFFFFFF07 },
   { off := 0x24, ro := 0xFFFF },
   { off := 0x40, rwc := 0x30F03 },
   { off := 0x44, stride := 4, count := 4, rwc := 0xFFFF833F, reset := 0x8000000 },
   { off := 0x60, stride := 4, count := 8, rwc := 0xB007FFFF },
   { off := 0x80, ro := 0xFFFFFFFF },
   { off := 0x84, rw := 0xFFFFFFFF },
   { off := 0x88, rw := 0xFFFF }]

/-- The registers of a ADCSYS page (spec/11). -/
def descsAdcsys : List RegDesc :=
  [{ off := 0x0, ro := 0xFFFFFFFF, form := .ident },
   { off := 0x4, ro := 0x1, wo := 0x2, keyed := 0x2, reset := 0x1 },
   { off := 0x8, ro := 0x40000007, w1c := 0x80000000 },
   { off := 0xc, w1c := 0xC000001F },
   { off := 0x10, rw := 0xFFFFFFFF },
   { off := 0x14, ro := 0xFFFFFFFF },
   { off := 0x18, rwc := 0xF17, rws := 0x8, reset := 0x3 },
   { off := 0x1c, ro := 0x3 },
   { off := 0x20, ro := 0xFFFFFF07 },
   { off := 0x24, ro := 0xFFFF },
   { off := 0x40, rwc := 0x3 },
   { off := 0x44, rwc := 0xFFFFFFFF },
   { off := 0x48, wo := 0x7F1F07 },
   { off := 0x4c, rw := 0xFFFFFFFF },
   { off := 0x50, rw := 0xFFFFFFFF, reset := 0x3F800000 },
   { off := 0x54, ro := 0xFF03007F },
   { off := 0x58, ro := 0xFFFFFFFF },
   { off := 0x5c, ro := 0xFFFFFFFF },
   { off := 0x60, ro := 0xFFF0FFF },
   { off := 0x64, ro := 0xFFFFFFFF },
   { off := 0x80, stride := 4, count := 12, ro := 0xFFFFFFFF },
   { off := 0xc0, stride := 4, count := 6, rwc := 0x800000FF, reset := 0xA },
   { off := 0x100, stride := 8, count := 64, rwc := 0xFFFFFFFF, reset := 0x3F800000 },
   { off := 0x104, stride := 8, count := 64, rwc := 0xFFFFFFFF }]

/-- The registers of a ACC page (spec/11). -/
def descsAcc : List RegDesc :=
  [{ off := 0x0, ro := 0xFFFFFFFF, form := .ident },
   { off := 0x4, wo := 0x2, rwc := 0x1, keyed := 0x2 },
   { off := 0x8, ro := 0x40000000, w1c := 0x80000000 },
   { off := 0xc, w1c := 0xC0000007 },
   { off := 0x10, rw := 0xFFFFFFFF },
   { off := 0x14, ro := 0xFFFFFFFF },
   { off := 0x18, rwc := 0xF17, rws := 0x8, reset := 0x3 },
   { off := 0x1c, ro := 0x3 },
   { off := 0x20, ro := 0xFFFFFF07 },
   { off := 0x24, ro := 0xFFFF },
   { off := 0x40, stride := 16, count := 32, rwc := 0xFFFF3FFF, reset := 0x78000000 },
   { off := 0x44, stride := 16, count := 32, ro := 0xFFFFFFFF },
   { off := 0x48, stride := 16, count := 32, ro := 0xFF7FFFFF }]

/-- The registers of a MMX page (spec/11). -/
def descsMmx : List RegDesc :=
  [{ off := 0x0, ro := 0xFFFFFFFF, form := .ident },
   { off := 0x4, wo := 0x2, rwc := 0x1, keyed := 0x2 },
   { off := 0x8, ro := 0x40000000, w1c := 0x80000000 },
   { off := 0xc, w1c := 0xC0000006 },
   { off := 0x10, rw := 0xFFFFFFFF },
   { off := 0x14, ro := 0xFFFFFFFF },
   { off := 0x18, rwc := 0xF17, rws := 0x8, reset := 0x3 },
   { off := 0x1c, ro := 0x3 },
   { off := 0x20, ro := 0xFFFFFF07 },
   { off := 0x24, ro := 0xFFFF },
   { off := 0x40, stride := 16, count := 32, rwc := 0xFF0F3FFF, reset := 0x78000000 },
   { off := 0x44, stride := 16, count := 32, ro := 0xFFFFFFFF },
   { off := 0x48, stride := 16, count := 32, ro := 0xFFFFFFFF },
   { off := 0x4c, stride := 16, count := 32, ro := 0xFF71FFFF }]

/-- The registers of a CMP page (spec/11). -/
def descsCmp : List RegDesc :=
  [{ off := 0x0, ro := 0xFFFFFFFF, form := .ident },
   { off := 0x4, wo := 0x2, rwc := 0x1, keyed := 0x2 },
   { off := 0x8, ro := 0x40000001, w1c := 0x80000000 },
   { off := 0xc, w1c := 0xC0000003 },
   { off := 0x10, rw := 0xFFFFFFFF },
   { off := 0x14, ro := 0xFFFFFFFF },
   { off := 0x18, rwc := 0xF17, rws := 0x8, reset := 0x3 },
   { off := 0x1c, ro := 0x3 },
   { off := 0x20, ro := 0xFFFFFF07 },
   { off := 0x24, ro := 0xFFFF },
   { off := 0x40, stride := 4, count := 64, rwc := 0xCFFF0FFF, reset := 0xFFF0000 },
   { off := 0x140, stride := 4, count := 64, rwc := 0xBF3F80FF, reset := 0x4000000 },
   { off := 0x240, ro := 0xFFFFFFFF },
   { off := 0x244, ro := 0xFFFFFFFF },
   { off := 0x248, ro := 0xFFFFFFFF },
   { off := 0x24c, ro := 0xFFFFFFFF },
   { off := 0x250, w1c := 0xFFFFFFFF },
   { off := 0x254, w1c := 0xFFFFFFFF },
   { off := 0x258, w1c := 0xFFFFFFFF },
   { off := 0x25c, w1c := 0xFFFFFFFF },
   { off := 0x260, ro := 0x3013F, w1c := 0x80000000 },
   { off := 0x264, rw := 0xFFFF }]

/-- The registers of a SD page (spec/11). -/
def descsSd : List RegDesc :=
  [{ off := 0x0, ro := 0xFFFFFFFF, form := .ident },
   { off := 0x4, wo := 0x2, rwc := 0x1, keyed := 0x2 },
   { off := 0x8, ro := 0x40000000, w1c := 0x80000000 },
   { off := 0xc, w1c := 0xC000FFFF },
   { off := 0x10, rw := 0xFFFFFFFF },
   { off := 0x14, ro := 0xFFFFFFFF },
   { off := 0x18, rwc := 0xF17, rws := 0x8, reset := 0x3 },
   { off := 0x1c, ro := 0x3 },
   { off := 0x20, ro := 0xFFFFFF07 },
   { off := 0x24, ro := 0xFFFF },
   { off := 0x40, stride := 16, count := 8, rwc := 0x87FF01FF, reset := 0x40 },
   { off := 0x44, stride := 16, count := 8, rwc := 0xFFFF8F3F, reset := 0x7FFF8110 },
   { off := 0x48, stride := 16, count := 8, rwc := 0xFFFFFFFF, reset := 0x3F800000 },
   { off := 0x4c, stride := 16, count := 8, rwc := 0xFFFFFFFF },
   { off := 0xc0, ro := 0xFF },
   { off := 0xc4, ro := 0xFF }]

/-- The registers of a PF page (spec/12). -/
def descsPf : List RegDesc :=
  [{ off := 0x0, ro := 0xFFFFFFFF, form := .ident },
   { off := 0x4, wo := 0x2, rwc := 0x1, keyed := 0x2 },
   { off := 0x8, ro := 0x400007F7, w1c := 0x80000000 },
   { off := 0xc, w1c := 0xC0007FFF },
   { off := 0x10, rw := 0xFFFFFFFF },
   { off := 0x14, ro := 0xFFFFFFFF },
   { off := 0x18, rwc := 0xF17, rws := 0x8, reset := 0x3 },
   { off := 0x1c, ro := 0x3 },
   { off := 0x20, ro := 0xFFFFFF07 },
   { off := 0x24, ro := 0xFFFF },
   { off := 0x40, rwc := 0xFEFFFFFF, reset := 0x6000000 },
   { off := 0x44, w1s := 0x1 },
   { off := 0x48, ro := 0xFFFFFFFF },
   { off := 0x4c, ro := 0xFFFF },
   { off := 0x50, rwc := 0xFFFFFF },
   { off := 0x54, ro := 0xFFFFFFFF },
   { off := 0x58, rw := 0xFFFF },
   { off := 0x60, rwc := 0x80FFFFFF, reset := 0x1354C8 },
   { off := 0x64, ro := 0x70007 },
   { off := 0x68, ro := 0xFFFFFFFF },
   { off := 0x70, rwc := 0xFB3F1F00, reset := 0x180000 },
   { off := 0x74, rwc := 0xFFFFF1FF, reset := 0x64140014 },
   { off := 0x78, rwc := 0xFF07FFFF },
   { off := 0x7c, wo := 0x1 },
   { off := 0x80, ro := 0xFFFFFFFF },
   { off := 0x84, ro := 0xFFFFFFFF },
   { off := 0x88, rw := 0xFFFF, ro := 0x80FF0000 },
   { off := 0x8c, rw := 0xFFFF },
   { off := 0xa0, rwc := 0xBFFF3FFF, reset := 0x6403E8 },
   { off := 0xa4, rwc := 0xFFFFFFFF, reset := 0x3F800000 },
   { off := 0xa8, ro := 0xFFFFFFFF },
   { off := 0xac, ro := 0xF0FFFFFF },
   { off := 0xb0, ro := 0xFFFFFFFF },
   { off := 0xc0, rwc := 0xE781FFFF, reset := 0x400 },
   { off := 0xc4, rwc := 0xFFFF00FF, reset := 0xFFFF0014 },
   { off := 0xc8, ro := 0xFFFFFFFF },
   { off := 0xcc, ro := 0xFFFFFFFF },
   { off := 0xe0, rwc := 0xFE00FFFF, reset := 0x30000014 },
   { off := 0xe4, rw := 0xFFFFFFFF },
   { off := 0xe8, rw := 0xFFFFFFFF }] ++
  [{ off := 0xec, rw := 0xFFFF, ro := 0xF0000000 },
   { off := 0xf0, ro := 0xFFFFFFFF },
   { off := 0xf4, ro := 0xFFFFFFFF },
   { off := 0x100, rwc := 0x800F0000 },
   { off := 0x104, ro := 0xFFFFFFFF },
   { off := 0x108, ro := 0xFF07FFFF },
   { off := 0x10c, ro := 0xFFFFFFFF },
   { off := 0x110, ro := 0x80FFFFFF, reset := 0xFFFFFF },
   { off := 0x114, ro := 0xFFFFFFFF },
   { off := 0x118, ro := 0xFFFFFFFF }]

/-- The registers of a MC page (spec/13). -/
def descsMc : List RegDesc :=
  [{ off := 0x0, ro := 0xFFFFFFFF, form := .ident },
   { off := 0x4, wo := 0x2, rwc := 0x1, keyed := 0x2 },
   { off := 0x8, ro := 0x40000F0F, w1c := 0x80000000 },
   { off := 0xc, w1c := 0xC000F1FF },
   { off := 0x10, rw := 0xFFFFFFFF },
   { off := 0x14, ro := 0xFFFFFFFF },
   { off := 0x18, rwc := 0xF17, rws := 0x8, reset := 0x3 },
   { off := 0x1c, ro := 0x3 },
   { off := 0x20, ro := 0xFFFFFF07 },
   { off := 0x24, ro := 0xFFFF },
   { off := 0x40, wo := 0xFF },
   { off := 0x44, ro := 0xFFFF, w1c := 0x80000000 },
   { off := 0x48, rwc := 0xF0F7733, reset := 0x1020000, form := .instMod8 },
   { off := 0x4c, rwc := 0x7133F, reset := 0x324 },
   { off := 0x50, rwc := 0x807F7F7F },
   { off := 0x54, rwc := 0x7F7F7F7F },
   { off := 0x58, rwc := 0xBFFFFFFF },
   { off := 0x5c, rwc := 0xFF00FFFF, reset := 0x32008002 },
   { off := 0x60, rwc := 0xFFFFFFFF },
   { off := 0x64, rwc := 0xFFFFFFFF },
   { off := 0x68, rwc := 0xFFFFFFFF },
   { off := 0x6c, rwc := 0xFFFFFFFF },
   { off := 0x70, rwc := 0xFFFFFFFF, reset := 0x3F800000 },
   { off := 0x74, rwc := 0xFFFFFFFF, reset := 0x43FA0000 },
   { off := 0x78, rwc := 0xFFFFFFFF, reset := 0x3F000000 },
   { off := 0x7c, rwc := 0xFFFFFFFF, reset := 0x41A00000 },
   { off := 0x80, rwc := 0xFFFFFFFF, reset := 0x3B03126F },
   { off := 0x84, rwc := 0xFFFFFFFF, reset := 0x3F733333 },
   { off := 0x88, rwc := 0xFFFFFFFF, reset := 0x3F800000 },
   { off := 0x8c, rwc := 0xFFFFFFFF, reset := 0x3F666666 },
   { off := 0x90, rwc := 0xFFFFFFFF, reset := 0x41200000 },
   { off := 0x94, rwc := 0xFFFFFFFF, reset := 0x3CA3D70A },
   { off := 0x98, rwc := 0xFFFFFFFF },
   { off := 0x9c, rwc := 0xFFFFFFFF },
   { off := 0xa0, rwc := 0xFFFFFFFF },
   { off := 0xa4, rwc := 0xFFFFFFFF },
   { off := 0xa8, rwc := 0xFFFFFFFF, reset := 0x3C23D70A },
   { off := 0xac, rwc := 0xFFFFFFFF, reset := 0x3F800000 },
   { off := 0xb0, rwc := 0xFFFFFFFF, reset := 0x3DCCCCCD },
   { off := 0xb4, rwc := 0xFFFFFFFF, reset := 0x3E4CCCCD }] ++
  [{ off := 0xb8, rwc := 0xFFFFFFFF, reset := 0x3CA3D70A },
   { off := 0xbc, rwc := 0xFFFFFFFF, reset := 0x3B03126F },
   { off := 0xc0, rwc := 0xFF0F, reset := 0x3002 },
   { off := 0xd0, rw := 0xFFFFFFFF },
   { off := 0xd4, rw := 0xFFFFFFFF },
   { off := 0xd8, rw := 0xFFFFFFFF },
   { off := 0xdc, rw := 0xFFFFFFFF },
   { off := 0xe0, rw := 0xFFFFFFFF },
   { off := 0x100, ro := 0xFFFFFFFF },
   { off := 0x104, ro := 0xFFFFFFFF },
   { off := 0x108, ro := 0xFFFFFFFF },
   { off := 0x10c, ro := 0xFFFFFFFF },
   { off := 0x110, ro := 0xFFFFFFFF },
   { off := 0x114, ro := 0xFFFFFFFF },
   { off := 0x118, ro := 0xFFFFFFFF },
   { off := 0x11c, ro := 0xFFFFFFFF },
   { off := 0x120, ro := 0xFFFFFFFF },
   { off := 0x124, ro := 0xFF07001F },
   { off := 0x128, ro := 0xF0F, w1c := 0x80000000 },
   { off := 0x12c, rw := 0xFFFF },
   { off := 0x180, stride := 16, count := 4, rwc := 0xB07FFFFF, reset := 0x30000064 },
   { off := 0x184, stride := 16, count := 4, rwc := 0xFFFFFFFF, reset := 0x3F800000 },
   { off := 0x188, stride := 16, count := 4, rwc := 0xFFFFFFFF },
   { off := 0x18c, stride := 16, count := 4, ro := 0xFFFFFFFF },
   { off := 0x1c0, ro := 0xF }]

/-- The registers of a MB page (spec/16). -/
def descsMb : List RegDesc :=
  [{ off := 0x0, ro := 0xFFFFFFFF, form := .ident },
   { off := 0x4, rw := 0x1F0001, wo := 0x2, keyed := 0x2, reset := 0x180000 },
   { off := 0x8, ro := 0x400000FC, w1c := 0x80000000 },
   { off := 0xc, w1c := 0xC000FFFC },
   { off := 0x10, rw := 0xFFFFFFFF },
   { off := 0x14, ro := 0xFFFFFFFF },
   { off := 0x18, rwc := 0xF17, rws := 0x8, reset := 0x3 },
   { off := 0x1c, ro := 0x3 },
   { off := 0x20, ro := 0xFFFFFF07 },
   { off := 0x24, ro := 0xFFFF },
   { off := 0x40, rw := 0xFFFFFC1F, reset := 0x3E7DF800 },
   { off := 0x44, rw := 0xF0F1F1F, reset := 0x7071E00 },
   { off := 0x48, rw := 0x807F0000, ro := 0x7F },
   { off := 0x4c, ro := 0x1FF00FF },
   { off := 0x50, ro := 0x710FFFF, w1c := 0x80000000 },
   { off := 0x54, rw := 0x1 },
   { off := 0x58, ro := 0xFFFFFFFF },
   { off := 0x5c, rw := 0xDFFFFFFF },
   { off := 0x60, rw := 0x1FFFFFFF },
   { off := 0x64, rwc := 0xF17, rws := 0x8, reset := 0x2 },
   { off := 0x68, rw := 0xFFFF },
   { off := 0x6c, rw := 0xFFFF },
   { off := 0x70, rw := 0xFFFF },
   { off := 0x74, rwc := 0xF0000000 },
   { off := 0x78, rwc := 0x1FFFFFFF },
   { off := 0x7c, rwc := 0xFFFFFFFF },
   { off := 0x80, rwc := 0xFFFFFFFF },
   { off := 0x84, ro := 0xFFFFFFFF },
   { off := 0x88, w1s := 0xFFFFFFFF },
   { off := 0x8c, w1s := 0xFFFFFFFF },
   { off := 0x90, w1s := 0xFFFFFFFF },
   { off := 0x94, w1s := 0xFFFFFFFF },
   { off := 0x98, w1c := 0xFFFFFFFF },
   { off := 0x9c, w1c := 0xFFFFFFFF },
   { off := 0xa0, w1c := 0xFFFFFFFF },
   { off := 0xa4, w1c := 0xFFFFFFFF },
   { off := 0xa8, ro := 0x2, w1c := 0x1 },
   { off := 0xac, wo := 0xFF },
   { off := 0x100, stride := 8, count := 32, rw := 0xDFFFFFFF },
   { off := 0x104, stride := 8, count := 32, rw := 0xFFFFFFFF }] ++
  [{ off := 0x200, stride := 4, count := 64, rw := 0xFF000000 },
   { off := 0x300, stride := 4, count := 64, rw := 0xFF, ro := 0xF0C0FF00 },
   { off := 0x400, rw := 0x7F },
   { off := 0x404, rw := 0x5FFFFFFF },
   { off := 0x408, rw := 0xF0000, ro := 0x1E00 },
   { off := 0x40c, ro := 0xFFFFFFFF },
   { off := 0x410, stride := 4, count := 16, rw := 0xFFFFFFFF },
   { off := 0x480, rw := 0x7F },
   { off := 0x484, rw := 0x5FFFFFFF },
   { off := 0x488, rw := 0xF0000, ro := 0x1E00 },
   { off := 0x48c, ro := 0xFFFFFFFF },
   { off := 0x490, stride := 4, count := 16, rw := 0xFFFFFFFF }]

/-- The registers of a CRC page (spec/17). -/
def descsCrc : List RegDesc :=
  [{ off := 0x0, ro := 0xFFFFFFFF, form := .ident },
   { off := 0x4, rw := 0x1, wo := 0x2, keyed := 0x2 },
   { off := 0x8, ro := 0x4000001F, w1c := 0x80000000 },
   { off := 0xc, w1c := 0xC000001F },
   { off := 0x10, rw := 0xFFFFFFFF },
   { off := 0x14, ro := 0xFFFFFFFF },
   { off := 0x18, rwc := 0xF17, rws := 0x8, reset := 0x3 },
   { off := 0x1c, ro := 0x3 },
   { off := 0x20, ro := 0xFFFFFF07 },
   { off := 0x24, ro := 0xFFFF },
   { off := 0x40, rw := 0x1F060007, reset := 0x1F000000 },
   { off := 0x44, rw := 0xFFFFFFFF },
   { off := 0x48, rw := 0xFFFFFFFF },
   { off := 0x4c, rw := 0xFFFFFFFF },
   { off := 0x50, wo := 0xFF },
   { off := 0x54, rw := 0xFFFFFFFF },
   { off := 0x58, rw := 0xFFFFFF },
   { off := 0x5c, wo := 0xFFFFFFFF },
   { off := 0x60, wo := 0xFF },
   { off := 0x64, rw := 0xFFFFFFFF },
   { off := 0x68, ro := 0xFFFFFFFF },
   { off := 0x6c, rw := 0xFFFFFFFF },
   { off := 0x70, rw := 0x1 },
   { off := 0x74, rw := 0x1, ro := 0xFF00 },
   { off := 0x78, ro := 0xFFFFFFFF }]

/-- The registers of a TRIAD page (spec/14). -/
def descsTriad : List RegDesc :=
  [{ off := 0x0, ro := 0xFFFFFFFF, form := .ident },
   { off := 0x4, ro := 0x1, wo := 0x2, keyed := 0x2 },
   { off := 0x8, ro := 0x40000713, w1c := 0x80000000 },
   { off := 0xc, w1c := 0xC00003FE },
   { off := 0x10, rw := 0xFFFFFFFF },
   { off := 0x14, ro := 0xFFFFFFFF },
   { off := 0x18, rwc := 0xF17, rws := 0x8, reset := 0x3 },
   { off := 0x1c, ro := 0x3 },
   { off := 0x20, ro := 0xFFFFFF07 },
   { off := 0x24, ro := 0xFFFF },
   { off := 0x40, ro := 0xFFFF0007 },
   { off := 0x44, stride := 4, count := 3, ro := 0xFFFFFFFF },
   { off := 0x50, ro := 0x703FFFF, w1c := 0x80000000 },
   { off := 0x54, rw := 0xFFFF, ro := 0xFF000000 },
   { off := 0x58, rw := 0x3FFFFFFF },
   { off := 0x5c, rw := 0xFFFF00FF },
   { off := 0x60, ro := 0xFFFF0000 },
   { off := 0x68, ro := 0xFFFF0000 },
   { off := 0x80, stride := 4, count := 8, rw := 0xFFFFFFFF },
   { off := 0xa0, wo := 0x1FFFF },
   { off := 0xa4, ro := 0xFFFF0001 },
   { off := 0xa8, wo := 0x1 },
   { off := 0xc0, stride := 4, count := 8, ro := 0xFFFFFFFF },
   { off := 0xe0, ro := 0xFFFF }]

/-- The registers of a SLOE page (spec/15). -/
def descsSloe : List RegDesc :=
  [{ off := 0x0, ro := 0xFFFFFFFF, form := .ident },
   { off := 0x4, ro := 0x1, wo := 0x2, keyed := 0x2, reset := 0x1 },
   { off := 0x8, ro := 0x400F0007, w1c := 0x80000000 },
   { off := 0xc, w1c := 0xC000007F },
   { off := 0x10, rw := 0xFFFFFFFF },
   { off := 0x14, ro := 0xFFFFFFFF },
   { off := 0x18, rwc := 0xF17, rws := 0x8, reset := 0x3 },
   { off := 0x1c, ro := 0x3 },
   { off := 0x20, ro := 0xFFFFFF07 },
   { off := 0x24, ro := 0xFFFF },
   { off := 0x40, stride := 4, count := 12, rws := 0x10F00FF, reset := 0xF00CD },
   { off := 0x80, ro := 0x7FF },
   { off := 0x84, ro := 0xF000000, w1c := 0xFF },
   { off := 0x88, ro := 0x70F0000, w1c := 0x80000000 },
   { off := 0x8c, ro := 0x10FFF },
   { off := 0x90, ro := 0x33 },
   { off := 0x94, rws := 0xFFFF00FF, reset := 0xA140018 },
   { off := 0x98, ro := 0xFFFF, reset := 0xFFFF },
   { off := 0xa0, ro := 0xFFFF, reset := 0x1 },
   { off := 0xa4, wo := 0xFFFF },
   { off := 0xa8, rws := 0x1F, reset := 0x2 },
   { off := 0xac, rw := 0x30FFF },
   { off := 0xb0, rws := 0x10FFF, reset := 0xFFF },
   { off := 0xc0, rws := 0x8780007F, reset := 0xA },
   { off := 0xc4, ro := 0xFFFFFF }]

/-- The registers of a SAFE page (spec/15). -/
def descsSafe : List RegDesc :=
  [{ off := 0x0, ro := 0xFFFFFFFF, form := .ident },
   { off := 0x4, ro := 0x1, wo := 0x2, keyed := 0x2, reset := 0x1 },
   { off := 0x8, ro := 0x40001F03, w1c := 0x80000000 },
   { off := 0xc, w1c := 0xC000001F },
   { off := 0x10, rw := 0xFFFFFFFF },
   { off := 0x14, ro := 0xFFFFFFFF },
   { off := 0x18, rwc := 0xF17, rws := 0x8, reset := 0x3 },
   { off := 0x1c, ro := 0x3 },
   { off := 0x20, ro := 0xFFFFFF07 },
   { off := 0x24, ro := 0xFFFF },
   { off := 0x40, wo := 0xFFFFFFFF },
   { off := 0x44, wo := 0xFFFFFFFF, rws := 0xFFFFFFFF },
   { off := 0x48, wo := 0xFF, keyed := 0xFF },
   { off := 0x4c, rw := 0xFFFFFFFF },
   { off := 0x50, ro := 0xFFFFFFFF },
   { off := 0x54, rws := 0xFFFF },
   { off := 0x58, ro := 0xFFFFFFFF },
   { off := 0x5c, ro := 0xFFFF00FF },
   { off := 0x60, stride := 4, count := 16, rws := 0xF87F01FF, reset := 0x28 },
   { off := 0xa0, ro := 0xFFFFFFFF },
   { off := 0xa4, rws := 0x83FF03FF, reset := 0x640064 },
   { off := 0xc0, stride := 8, count := 8, rws := 0xFF0FFF80, reset := 0x2000000 },
   { off := 0xc4, stride := 8, count := 8, rws := 0xFFFFF000, reset := 0x640000 },
   { off := 0x100, rws := 0x8000FFFF, reset := 0x3E8 },
   { off := 0x104, rws := 0xE700FFFF, reset := 0x64 },
   { off := 0x108, rws := 0xFFFFFF },
   { off := 0x10c, rws := 0xFFFFFFFF },
   { off := 0x110, rws := 0xFFFFFF },
   { off := 0x114, rws := 0xFFFFFFFF },
   { off := 0x118, rw := 0xFFFFFFFF },
   { off := 0x140, ro := 0xFF001F },
   { off := 0x144, wo := 0xFFFFFFFF },
   { off := 0x160, stride := 4, count := 8, ro := 0xFFFFFFFF }]

/-- The registers of a MGT page (spec/18). -/
def descsMgt : List RegDesc :=
  [{ off := 0x0, ro := 0xFFFFFFFF, form := .ident },
   { off := 0x4, ro := 0x1, wo := 0x2, keyed := 0x2, reset := 0x1 },
   { off := 0x8, ro := 0x40000000, w1c := 0x80000000 },
   { off := 0xc, w1c := 0xC0000007 },
   { off := 0x10, rw := 0xFFFFFFFF },
   { off := 0x14, ro := 0xFFFFFFFF },
   { off := 0x18, rwc := 0xF17, rws := 0x8, reset := 0x3 },
   { off := 0x1c, ro := 0x3 },
   { off := 0x20, ro := 0xFFFFFF07 },
   { off := 0x24, ro := 0xFFFF },
   { off := 0x40, wo := 0xFF0000FF },
   { off := 0x44, ro := 0xFFFF0001 },
   { off := 0x48, ro := 0xC0FFFFFF },
   { off := 0x4c, ro := 0xFFFF, w1c := 0x80000000 },
   { off := 0x50, rw := 0x3FFF, reset := 0x64 },
   { off := 0x54, ro := 0xFFFFFFFF },
   { off := 0x80, stride := 4, count := 16, rw := 0xFFFFFFFF },
   { off := 0xc0, stride := 4, count := 16, ro := 0xFFFFFFFF }]

/-- The registers of a HOST page (spec/19). -/
def descsHost : List RegDesc :=
  [{ off := 0x0, ro := 0xFFFFFFFF, form := .ident },
   { off := 0x4, ro := 0x1, wo := 0x2, keyed := 0x2, reset := 0x1 },
   { off := 0x8, ro := 0x40000000, w1c := 0x80000000 },
   { off := 0xc, w1c := 0xC0000007 },
   { off := 0x10, rw := 0xFFFFFFFF },
   { off := 0x14, ro := 0xFFFFFFFF },
   { off := 0x18, rwc := 0xF17, rws := 0x8, reset := 0x3 },
   { off := 0x1c, ro := 0x3 },
   { off := 0x20, ro := 0xFFFFFF07 },
   { off := 0x24, ro := 0xFFFF },
   { off := 0x40, rw := 0x3 },
   { off := 0x44, wo := 0x801FFFFF },
   { off := 0x48, rw := 0xFFFFFFFF },
   { off := 0x4c, ro := 0x7F, reset := 0x40 }]

/-- The registers of a ETH page (spec/19). -/
def descsEth : List RegDesc :=
  [{ off := 0x0, ro := 0xFFFFFFFF, form := .ident },
   { off := 0x4, rw := 0xE0001, wo := 0x2, keyed := 0x2 },
   { off := 0x8, ro := 0x40000001, w1c := 0x80000000 },
   { off := 0xc, w1c := 0xC0000003 },
   { off := 0x10, rw := 0xFFFFFFFF },
   { off := 0x14, ro := 0xFFFFFFFF },
   { off := 0x18, rwc := 0xF17, rws := 0x8, reset := 0x3 },
   { off := 0x1c, ro := 0x3 },
   { off := 0x20, ro := 0xFFFFFF07 },
   { off := 0x24, ro := 0xFFFF },
   { off := 0x40, ro := 0xFFFFFFFF },
   { off := 0x44, ro := 0xFFFF },
   { off := 0x48, ro := 0xFFFFFFFF },
   { off := 0x4c, ro := 0xFFFFFFFF },
   { off := 0x50, ro := 0xFFFFFFFF },
   { off := 0x54, rw := 0xFFFFFFFF }]

/-- The registers of a DRAM page (spec/18). -/
def descsDram : List RegDesc :=
  [{ off := 0x0, ro := 0xFFFFFFFF, form := .ident },
   { off := 0x4, ro := 0x1, wo := 0x2, keyed := 0x2, reset := 0x1 },
   { off := 0x8, ro := 0x40000307, w1c := 0x80000000 },
   { off := 0xc, w1c := 0xC0000007 },
   { off := 0x10, rw := 0xFFFFFFFF },
   { off := 0x14, ro := 0xFFFFFFFF },
   { off := 0x18, rwc := 0xF17, rws := 0x8, reset := 0x3 },
   { off := 0x1c, ro := 0x3 },
   { off := 0x20, ro := 0xFFFFFF07 },
   { off := 0x24, ro := 0xFFFF },
   { off := 0x40, rwc := 0xFFFF, reset := 0x830 },
   { off := 0x44, rw := 0x7 },
   { off := 0x48, rw := 0xFFF },
   { off := 0x4c, rw := 0xFFFFFF },
   { off := 0x50, wo := 0xFF },
   { off := 0x54, ro := 0x3FFFFFF },
   { off := 0x58, ro := 0xFFFFFFFF, reset := 0xFFFFFFFF },
   { off := 0x5c, rw := 0xFFFFFFFF },
   { off := 0x60, rw := 0xF0FFF },
   { off := 0x64, stride := 4, count := 4, rw := 0x7F }]

/-- The registers of a SCRUB page (spec/18). -/
def descsScrub : List RegDesc :=
  [{ off := 0x0, ro := 0xFFFFFFFF, form := .ident },
   { off := 0x4, ro := 0x1, wo := 0x2, keyed := 0x2, reset := 0x1 },
   { off := 0x8, ro := 0x40000000, w1c := 0x80000000 },
   { off := 0xc, w1c := 0xC000001F },
   { off := 0x10, rw := 0xFFFFFFFF },
   { off := 0x14, ro := 0xFFFFFFFF },
   { off := 0x18, rwc := 0xF17, rws := 0x8, reset := 0x3 },
   { off := 0x1c, ro := 0x3 },
   { off := 0x20, ro := 0xFFFFFF07 },
   { off := 0x24, ro := 0xFFFF },
   { off := 0x40, ro := 0x4000FFFF, w1c := 0x80000000 },
   { off := 0x44, ro := 0x4000FFFF, w1c := 0x80000000 },
   { off := 0x48, rw := 0xFFFF },
   { off := 0x4c, ro := 0xFFFF, w1c := 0x80000000 },
   { off := 0x50, ro := 0xFFFFFFFF },
   { off := 0x54, rw := 0xFFFF },
   { off := 0x58, ro := 0xFFFF, w1c := 0x80000000 },
   { off := 0x5c, ro := 0xFFFFFFFF }]

/-- The registers of a PAD page (spec/20). -/
def descsPad : List RegDesc :=
  [{ off := 0x0, ro := 0xFFFFFFFF, form := .ident },
   { off := 0x4, w1s := 0x1, wo := 0x2, keyed := 0x2 },
   { off := 0x8, ro := 0x40000001, w1c := 0x80000000 },
   { off := 0xc, w1c := 0xC0000000 },
   { off := 0x10, rw := 0xFFFFFFFF },
   { off := 0x14, ro := 0xFFFFFFFF },
   { off := 0x18, rwc := 0xF17, rws := 0x8, reset := 0x3 },
   { off := 0x1c, ro := 0x3 },
   { off := 0x20, ro := 0xFFFFFF07 },
   { off := 0x24, ro := 0xFFFF },
   { off := 0x40, stride := 4, count := 20, rw := 0x3FF03, reset := 0x1 }]

/-- The registers of a GPIO page (spec/20). -/
def descsGpio : List RegDesc :=
  [{ off := 0x0, ro := 0xFFFFFFFF, form := .ident },
   { off := 0x4, ro := 0x1, wo := 0x2, keyed := 0x2, reset := 0x1 },
   { off := 0x8, ro := 0x40000000, w1c := 0x80000000 },
   { off := 0xc, w1c := 0xC0000001 },
   { off := 0x10, rw := 0xFFFFFFFF },
   { off := 0x14, ro := 0xFFFFFFFF },
   { off := 0x18, rwc := 0xF17, rws := 0x8, reset := 0x3 },
   { off := 0x1c, ro := 0x3 },
   { off := 0x20, ro := 0xFFFFFF07 },
   { off := 0x24, ro := 0xFFFF },
   { off := 0x40, rw := 0xFFFFFFFF },
   { off := 0x44, rw := 0xFFFFFFFF },
   { off := 0x48, wo := 0xFFFFFFFF },
   { off := 0x4c, wo := 0xFFFFFFFF },
   { off := 0x50, ro := 0xFFFFFFFF },
   { off := 0x54, rw := 0xFFFFFFFF },
   { off := 0x58, rw := 0xFFFFFFFF },
   { off := 0x60, w1c := 0xFFFFFFFF },
   { off := 0x80, stride := 4, count := 32, rw := 0x13FF03, reset := 0x1 }]

/-- The register rows of a page kind. -/
def descsOf : PageKind → List RegDesc
  | .sys => descsSys
  | .rst => descsRst
  | .clk => descsClk
  | .cfg => descsCfg
  | .evt => descsEvt
  | .ts => descsTs
  | .le => descsLe
  | .pg => descsPg
  | .pwmsys => descsPwmsys
  | .fl => descsFl
  | .ac => descsAc
  | .adcsys => descsAdcsys
  | .acc => descsAcc
  | .mmx => descsMmx
  | .cmp => descsCmp
  | .sd => descsSd
  | .pf => descsPf
  | .mc => descsMc
  | .mb => descsMb
  | .crc => descsCrc
  | .triad => descsTriad
  | .sloe => descsSloe
  | .safe => descsSafe
  | .mgt => descsMgt
  | .host => descsHost
  | .eth => descsEth
  | .dram => descsDram
  | .scrub => descsScrub
  | .pad => descsPad
  | .gpio => descsGpio

/-- Page kind and instance number of a page, none where the number is unassigned (R54, R56). -/
def pageKind? (p : Nat) : Option (PageKind × Nat) :=
  if p = 0x0 then some (.sys, p - 0x0)
  else if p = 0x1 then some (.rst, p - 0x1)
  else if p = 0x2 then some (.clk, p - 0x2)
  else if p = 0x3 then some (.cfg, p - 0x3)
  else if p = 0x4 then some (.evt, p - 0x4)
  else if p = 0x5 then some (.ts, p - 0x5)
  else if 0x10 ≤ p ∧ p < 0x1c then some (.le, p - 0x10)
  else if 0x20 ≤ p ∧ p < 0x2c then some (.pg, p - 0x20)
  else if p = 0x2c then some (.pwmsys, p - 0x2c)
  else if 0x30 ≤ p ∧ p < 0x3c then some (.fl, p - 0x30)
  else if 0x40 ≤ p ∧ p < 0x58 then some (.ac, p - 0x40)
  else if p = 0x58 then some (.adcsys, p - 0x58)
  else if 0x59 ≤ p ∧ p < 0x5d then some (.acc, p - 0x59)
  else if 0x5d ≤ p ∧ p < 0x5f then some (.mmx, p - 0x5d)
  else if p = 0x5f then some (.cmp, p - 0x5f)
  else if 0x60 ≤ p ∧ p < 0x63 then some (.sd, p - 0x60)
  else if 0x68 ≤ p ∧ p < 0x70 then some (.pf, p - 0x68)
  else if 0x70 ≤ p ∧ p < 0x7c then some (.mc, p - 0x70)
  else if 0x80 ≤ p ∧ p < 0x84 then some (.mb, p - 0x80)
  else if 0x88 ≤ p ∧ p < 0x8c then some (.crc, p - 0x88)
  else if p = 0x90 then some (.triad, p - 0x90)
  else if p = 0x91 then some (.sloe, p - 0x91)
  else if p = 0x92 then some (.safe, p - 0x92)
  else if p = 0x98 then some (.mgt, p - 0x98)
  else if p = 0x99 then some (.host, p - 0x99)
  else if 0x9a ≤ p ∧ p < 0x9c then some (.eth, p - 0x9a)
  else if p = 0xa0 then some (.dram, p - 0xa0)
  else if p = 0xa1 then some (.scrub, p - 0xa1)
  else if p = 0xa8 then some (.pad, p - 0xa8)
  else if p = 0xa9 then some (.gpio, p - 0xa9)
  else none

/-- First page number of a kind, which is also its ID type code (R54). -/
def PageKind.first : PageKind → Nat
  | .sys => 0x0
  | .rst => 0x1
  | .clk => 0x2
  | .cfg => 0x3
  | .evt => 0x4
  | .ts => 0x5
  | .le => 0x10
  | .pg => 0x20
  | .pwmsys => 0x2c
  | .fl => 0x30
  | .ac => 0x40
  | .adcsys => 0x58
  | .acc => 0x59
  | .mmx => 0x5d
  | .cmp => 0x5f
  | .sd => 0x60
  | .pf => 0x68
  | .mc => 0x70
  | .mb => 0x80
  | .crc => 0x88
  | .triad => 0x90
  | .sloe => 0x91
  | .safe => 0x92
  | .mgt => 0x98
  | .host => 0x99
  | .eth => 0x9a
  | .dram => 0xa0
  | .scrub => 0xa1
  | .pad => 0xa8
  | .gpio => 0xa9

/-- Number of pages of a kind (R54). -/
def PageKind.instances : PageKind → Nat
  | .sys => 1
  | .rst => 1
  | .clk => 1
  | .cfg => 1
  | .evt => 1
  | .ts => 1
  | .le => 12
  | .pg => 12
  | .pwmsys => 1
  | .fl => 12
  | .ac => 24
  | .adcsys => 1
  | .acc => 4
  | .mmx => 2
  | .cmp => 1
  | .sd => 3
  | .pf => 8
  | .mc => 12
  | .mb => 4
  | .crc => 4
  | .triad => 1
  | .sloe => 1
  | .safe => 1
  | .mgt => 1
  | .host => 1
  | .eth => 2
  | .dram => 1
  | .scrub => 1
  | .pad => 1
  | .gpio => 1

/-- Every assigned page number, in ascending order (R54). -/
def allPages : List Nat :=
  [0x0, 0x1, 0x2, 0x3, 0x4, 0x5, 0x10, 0x11, 0x12, 0x13, 0x14, 0x15, 0x16, 0x17, 0x18, 0x19, 0x1a, 0x1b, 0x20, 0x21, 0x22, 0x23, 0x24, 0x25, 0x26, 0x27, 0x28, 0x29, 0x2a, 0x2b, 0x2c, 0x30, 0x31, 0x32, 0x33, 0x34, 0x35, 0x36, 0x37, 0x38, 0x39, 0x3a, 0x3b, 0x40, 0x41, 0x42, 0x43, 0x44, 0x45, 0x46, 0x47, 0x48, 0x49, 0x4a, 0x4b, 0x4c, 0x4d, 0x4e, 0x4f, 0x50, 0x51, 0x52, 0x53, 0x54, 0x55, 0x56, 0x57, 0x58, 0x59, 0x5a, 0x5b, 0x5c, 0x5d, 0x5e, 0x5f, 0x60, 0x61, 0x62, 0x68, 0x69, 0x6a, 0x6b, 0x6c, 0x6d, 0x6e, 0x6f, 0x70, 0x71, 0x72, 0x73, 0x74, 0x75, 0x76, 0x77, 0x78, 0x79, 0x7a, 0x7b, 0x80, 0x81, 0x82, 0x83, 0x88, 0x89, 0x8a, 0x8b, 0x90, 0x91, 0x92, 0x98, 0x99, 0x9a, 0x9b, 0xa0, 0xa1, 0xa8, 0xa9]

/-! Addresses. A register's key is its page number times 4096 plus its offset; `bus` addresses start at 0x4000_0000 (R54). -/

abbrev Reg.SYS_CTRL : Nat := 0x4
abbrev Reg.SYS_STAT : Nat := 0x8
abbrev Reg.SYS_EVT_RAW : Nat := 0xc
abbrev Reg.SYS_AERR_ADDR : Nat := 0x40
abbrev Reg.SYS_AERR_INFO : Nat := 0x44
abbrev Reg.SYS_AERR_CNT : Nat := 0x48
abbrev Reg.SYS_SWRST : Nat := 0x50
abbrev Reg.SYS_BOOT : Nat := 0x54
abbrev Reg.RST_CTRL : Nat := 0x1004
abbrev Reg.RST_STAT : Nat := 0x1008
abbrev Reg.RST_EVT_RAW : Nat := 0x100c
abbrev Reg.RST_CAUSE : Nat := 0x1040
abbrev Reg.RST_CAUSE_HIST : Nat := 0x1044
abbrev Reg.RST_CNT : Nat := 0x1048
abbrev Reg.RST_BLK_LAST : Nat := 0x104c
abbrev Reg.RST_SEQ : Nat := 0x1050
abbrev Reg.CLK_CTRL : Nat := 0x2004
abbrev Reg.CLK_STAT : Nat := 0x2008
abbrev Reg.CLK_EVT_RAW : Nat := 0x200c
abbrev Reg.CLK_QUAL : Nat := 0x2040
abbrev Reg.CLK_MON_FAIL : Nat := 0x2044
abbrev Reg.CLK_LOCK : Nat := 0x2048
abbrev Reg.CLK_SSC : Nat := 0x204c
abbrev Reg.CLK_SSC_STAT : Nat := 0x2050
abbrev Reg.CLK_MEAS : Nat := 0x2054
abbrev Reg.CFG_CTRL : Nat := 0x3004
abbrev Reg.CFG_STAT : Nat := 0x3008
abbrev Reg.CFG_EVT_RAW : Nat := 0x300c
abbrev Reg.CFG_STATE : Nat := 0x3040
abbrev Reg.CFG_CMD : Nat := 0x3044
abbrev Reg.CFG_COMMIT_EXP : Nat := 0x3048
abbrev Reg.CFG_COMMIT_CALC : Nat := 0x304c
abbrev Reg.CFG_RESULT : Nat := 0x3050
abbrev Reg.CFG_IMG_ADDR : Nat := 0x3054
abbrev Reg.CFG_SLOT_STAT : Nat := 0x3058
abbrev Reg.CFG_SEQ_A : Nat := 0x305c
abbrev Reg.CFG_SEQ_B : Nat := 0x3060
abbrev Reg.CFG_SEC : Nat := 0x3064
abbrev Reg.EVT_CTRL : Nat := 0x4004
abbrev Reg.EVT_STAT : Nat := 0x4008
abbrev Reg.EVT_EVT_RAW : Nat := 0x400c
abbrev Reg.EVT_SUM_HOST (k : Nat) : Nat := 0x4040 + k * 4
abbrev Reg.EVT_SUM_MEDLAR (k : Nat) : Nat := 0x4060 + k * 4
abbrev Reg.EVT_SUM_TRIAD (k : Nat) : Nat := 0x4080 + k * 4
abbrev Reg.TS_CTRL : Nat := 0x5004
abbrev Reg.TS_STAT : Nat := 0x5008
abbrev Reg.TS_EVT_RAW : Nat := 0x500c
abbrev Reg.TS_TIME_LO : Nat := 0x5040
abbrev Reg.TS_TIME_HI : Nat := 0x5044
abbrev Reg.TS_RATE : Nat := 0x5048
abbrev Reg.TS_EPOCH_LO : Nat := 0x504c
abbrev Reg.TS_EPOCH_HI : Nat := 0x5050
abbrev Reg.TS_SERVO : Nat := 0x5054
abbrev Reg.TS_SERVO_STAT : Nat := 0x5058
abbrev Reg.LE_CTRL (n : Nat) : Nat := 0x10004 + n * 0x1000
abbrev Reg.LE_STAT (n : Nat) : Nat := 0x10008 + n * 0x1000
abbrev Reg.LE_EVT_RAW (n : Nat) : Nat := 0x1000c + n * 0x1000
abbrev Reg.LE_CMD (n : Nat) : Nat := 0x10040 + n * 0x1000
abbrev Reg.LE_OWN (n : Nat) : Nat := 0x10044 + n * 0x1000
abbrev Reg.LE_OWN_EFF (n : Nat) : Nat := 0x10048 + n * 0x1000
abbrev Reg.LE_TRIG (n : Nat) : Nat := 0x1004c + n * 0x1000
abbrev Reg.LE_ENTRY (n : Nat) : Nat := 0x10050 + n * 0x1000
abbrev Reg.LE_OVR (n : Nat) : Nat := 0x10054 + n * 0x1000
abbrev Reg.LE_WDT (n : Nat) : Nat := 0x10058 + n * 0x1000
abbrev Reg.LE_FRAME_CNT (n : Nat) : Nat := 0x1005c + n * 0x1000
abbrev Reg.LE_OVR_CNT (n : Nat) : Nat := 0x10060 + n * 0x1000
abbrev Reg.LE_SKIP_CNT (n : Nat) : Nat := 0x10064 + n * 0x1000
abbrev Reg.LE_STALE_CNT (n : Nat) : Nat := 0x10068 + n * 0x1000
abbrev Reg.LE_LAST_CYC (n : Nat) : Nat := 0x1006c + n * 0x1000
abbrev Reg.LE_MAX_CYC (n : Nat) : Nat := 0x10070 + n * 0x1000
abbrev Reg.LE_SLACK_MIN (n : Nat) : Nat := 0x10074 + n * 0x1000
abbrev Reg.LE_PC (n : Nat) : Nat := 0x10078 + n * 0x1000
abbrev Reg.LE_FPX (n : Nat) : Nat := 0x1007c + n * 0x1000
abbrev Reg.LE_ECC (n : Nat) : Nat := 0x10080 + n * 0x1000
abbrev Reg.LE_MBX_POST (n : Nat) : Nat := 0x10084 + n * 0x1000
abbrev Reg.LE_MBX_STAT (n : Nat) : Nat := 0x10088 + n * 0x1000
abbrev Reg.LE_EVT_SRC (n : Nat) (k : Nat) : Nat := 0x100a0 + n * 0x1000 + k * 4
abbrev Reg.LE_MBX_IN (n : Nat) (k : Nat) : Nat := 0x100c0 + n * 0x1000 + k * 4
abbrev Reg.LE_IN_SEL (n : Nat) (k : Nat) : Nat := 0x10100 + n * 0x1000 + k * 4
abbrev Reg.LE_CLU_CTRL (n : Nat) : Nat := 0x10200 + n * 0x1000
abbrev Reg.LE_BANK_ACT (n : Nat) : Nat := 0x10204 + n * 0x1000
abbrev Reg.LE_BANK_REQ (n : Nat) : Nat := 0x10208 + n * 0x1000
abbrev Reg.LE_CLU_STAT (n : Nat) : Nat := 0x1020c + n * 0x1000
abbrev Reg.LE_CW_ADDR (n : Nat) : Nat := 0x10210 + n * 0x1000
abbrev Reg.LE_CW_DATA (n : Nat) : Nat := 0x10214 + n * 0x1000
abbrev Reg.LE_CW_ERR (n : Nat) : Nat := 0x10218 + n * 0x1000
abbrev Reg.LE_BR_AGE (n : Nat) : Nat := 0x1021c + n * 0x1000
abbrev Reg.LE_BR_DISC_CNT (n : Nat) : Nat := 0x10220 + n * 0x1000
abbrev Reg.LE_BR_SLOT (n : Nat) (k : Nat) : Nat := 0x10240 + n * 0x1000 + k * 4
abbrev Reg.LE_BR_EXP (n : Nat) (k : Nat) : Nat := 0x10260 + n * 0x1000 + k * 4
abbrev Reg.LE_BR_PUB (n : Nat) (k : Nat) : Nat := 0x102a0 + n * 0x1000 + k * 4
abbrev Reg.PG_CTRL (n : Nat) : Nat := 0x20004 + n * 0x1000
abbrev Reg.PG_STAT (n : Nat) : Nat := 0x20008 + n * 0x1000
abbrev Reg.PG_EVT_RAW (n : Nat) : Nat := 0x2000c + n * 0x1000
abbrev Reg.PG_CMD (n : Nat) : Nat := 0x20040 + n * 0x1000
abbrev Reg.PG_START_RES (n : Nat) : Nat := 0x20044 + n * 0x1000
abbrev Reg.PG_CARRIER (n : Nat) : Nat := 0x20048 + n * 0x1000
abbrev Reg.PG_PERIOD (n : Nat) : Nat := 0x2004c + n * 0x1000
abbrev Reg.PG_DT (n : Nat) : Nat := 0x20050 + n * 0x1000
abbrev Reg.PG_SYNC (n : Nat) : Nat := 0x20054 + n * 0x1000
abbrev Reg.PG_DITHER (n : Nat) : Nat := 0x20058 + n * 0x1000
abbrev Reg.PG_LEGMODE (n : Nat) : Nat := 0x2005c + n * 0x1000
abbrev Reg.PG_UPD (n : Nat) : Nat := 0x20060 + n * 0x1000
abbrev Reg.PG_LATE (n : Nat) : Nat := 0x20064 + n * 0x1000
abbrev Reg.PG_WIN_CNT (n : Nat) : Nat := 0x20068 + n * 0x1000
abbrev Reg.PG_CUR_LEN (n : Nat) : Nat := 0x2006c + n * 0x1000
abbrev Reg.PG_NEXT_LEN (n : Nat) : Nat := 0x20070 + n * 0x1000
abbrev Reg.PG_TB (n : Nat) : Nat := 0x20074 + n * 0x1000
abbrev Reg.PG_LOCK_SKIP_CNT (n : Nat) : Nat := 0x20078 + n * 0x1000
abbrev Reg.PG_SYNC_ERR (n : Nat) : Nat := 0x2007c + n * 0x1000
abbrev Reg.PG_DUTY_SH (n : Nat) (k : Nat) : Nat := 0x20080 + n * 0x1000 + k * 4
abbrev Reg.PG_DUTY_ACT (n : Nat) (k : Nat) : Nat := 0x20090 + n * 0x1000 + k * 4
abbrev Reg.PG_SKEW (n : Nat) (k : Nat) : Nat := 0x200a0 + n * 0x1000 + k * 4
abbrev Reg.PG_TRIP_CFG (n : Nat) : Nat := 0x20100 + n * 0x1000
abbrev Reg.PG_TRIP_EN (n : Nat) : Nat := 0x20104 + n * 0x1000
abbrev Reg.PG_TRIP_CMP_LO (n : Nat) : Nat := 0x20108 + n * 0x1000
abbrev Reg.PG_TRIP_CMP_HI (n : Nat) : Nat := 0x2010c + n * 0x1000
abbrev Reg.PG_TRIP_SD (n : Nat) : Nat := 0x20110 + n * 0x1000
abbrev Reg.PG_TRIP_STAT (n : Nat) : Nat := 0x20114 + n * 0x1000
abbrev Reg.PG_TRIP_ACT (n : Nat) : Nat := 0x20118 + n * 0x1000
abbrev Reg.PG_TRIP_TIME (n : Nat) : Nat := 0x2011c + n * 0x1000
abbrev Reg.PG_TRIP_CNT (n : Nat) : Nat := 0x20120 + n * 0x1000
abbrev Reg.PG_CLR_RES (n : Nat) : Nat := 0x20124 + n * 0x1000
abbrev Reg.PG_SAFE_MIRROR (n : Nat) : Nat := 0x20128 + n * 0x1000
abbrev Reg.PG_CMASK_CFG (n : Nat) : Nat := 0x20140 + n * 0x1000
abbrev Reg.PG_CMASK (n : Nat) : Nat := 0x20144 + n * 0x1000
abbrev Reg.PG_CMASK_CNT (n : Nat) : Nat := 0x20148 + n * 0x1000
abbrev Reg.PG_FORCE_CFG (n : Nat) : Nat := 0x20160 + n * 0x1000
abbrev Reg.PG_FORCE_SH (n : Nat) : Nat := 0x20164 + n * 0x1000
abbrev Reg.PG_FORCE_WIDTH (n : Nat) : Nat := 0x20168 + n * 0x1000
abbrev Reg.PG_FORCE_ACT (n : Nat) : Nat := 0x2016c + n * 0x1000
abbrev Reg.PWMSYS_CTRL : Nat := 0x2c004
abbrev Reg.PWMSYS_STAT : Nat := 0x2c008
abbrev Reg.PWMSYS_EVT_RAW : Nat := 0x2c00c
abbrev Reg.PWMSYS_SLEW : Nat := 0x2c040
abbrev Reg.PWMSYS_SYNC_OUT : Nat := 0x2c044
abbrev Reg.PWMSYS_SYNC_IN : Nat := 0x2c048
abbrev Reg.PWMSYS_GSTART : Nat := 0x2c04c
abbrev Reg.PWMSYS_GSTOP : Nat := 0x2c050
abbrev Reg.PWMSYS_DL_LOCK : Nat := 0x2c054
abbrev Reg.PWMSYS_TRIP_IN (k : Nat) : Nat := 0x2c100 + k * 4
abbrev Reg.PWMSYS_TRIP_LVL : Nat := 0x2c140
abbrev Reg.PWMSYS_GCLR : Nat := 0x2c148
abbrev Reg.FL_CTRL (n : Nat) : Nat := 0x30004 + n * 0x1000
abbrev Reg.FL_STAT (n : Nat) : Nat := 0x30008 + n * 0x1000
abbrev Reg.FL_EVT_RAW (n : Nat) : Nat := 0x3000c + n * 0x1000
abbrev Reg.FL_RTT (n : Nat) : Nat := 0x30040 + n * 0x1000
abbrev Reg.FL_OWD (n : Nat) : Nat := 0x30044 + n * 0x1000
abbrev Reg.FL_MEAS (n : Nat) : Nat := 0x30048 + n * 0x1000
abbrev Reg.FL_ERR_CNT (n : Nat) : Nat := 0x3004c + n * 0x1000
abbrev Reg.FL_FE_ID (n : Nat) : Nat := 0x30050 + n * 0x1000
abbrev Reg.FL_LOSS_CAUSE (n : Nat) : Nat := 0x30054 + n * 0x1000
abbrev Reg.FL_LTIME (n : Nat) : Nat := 0x30058 + n * 0x1000
abbrev Reg.FL_EDGE_CNT (n : Nat) : Nat := 0x3005c + n * 0x1000
abbrev Reg.FL_DLY_H (n : Nat) (k : Nat) : Nat := 0x30060 + n * 0x1000 + k * 8
abbrev Reg.FL_DLY_L (n : Nat) (k : Nat) : Nat := 0x30064 + n * 0x1000 + k * 8
abbrev Reg.FL_FE_LEG (n : Nat) (k : Nat) : Nat := 0x30080 + n * 0x1000 + k * 4
abbrev Reg.AC_CTRL (n : Nat) : Nat := 0x40004 + n * 0x1000
abbrev Reg.AC_STAT (n : Nat) : Nat := 0x40008 + n * 0x1000
abbrev Reg.AC_EVT_RAW (n : Nat) : Nat := 0x4000c + n * 0x1000
abbrev Reg.AC_CFG (n : Nat) : Nat := 0x40040 + n * 0x1000
abbrev Reg.AC_SLOT (n : Nat) (k : Nat) : Nat := 0x40044 + n * 0x1000 + k * 4
abbrev Reg.AC_TRIG (n : Nat) (k : Nat) : Nat := 0x40060 + n * 0x1000 + k * 4
abbrev Reg.AC_CONV_CNT (n : Nat) : Nat := 0x40080 + n * 0x1000
abbrev Reg.AC_DROP_CNT (n : Nat) : Nat := 0x40084 + n * 0x1000
abbrev Reg.AC_SKIP_CNT (n : Nat) : Nat := 0x40088 + n * 0x1000
abbrev Reg.ADCSYS_CTRL : Nat := 0x58004
abbrev Reg.ADCSYS_STAT : Nat := 0x58008
abbrev Reg.ADCSYS_EVT_RAW : Nat := 0x5800c
abbrev Reg.ADCSYS_REF : Nat := 0x58040
abbrev Reg.ADCSYS_DIFF : Nat := 0x58044
abbrev Reg.ADCSYS_CAL_CMD : Nat := 0x58048
abbrev Reg.ADCSYS_CAL_VZ : Nat := 0x5804c
abbrev Reg.ADCSYS_CAL_VF : Nat := 0x58050
abbrev Reg.ADCSYS_CAL_STAT : Nat := 0x58054
abbrev Reg.ADCSYS_CAL_MZ : Nat := 0x58058
abbrev Reg.ADCSYS_CAL_MF : Nat := 0x5805c
abbrev Reg.ADCSYS_TRIM_STAT : Nat := 0x58060
abbrev Reg.ADCSYS_TRIM_CNT : Nat := 0x58064
abbrev Reg.ADCSYS_TRIM_P (k : Nat) : Nat := 0x58080 + k * 4
abbrev Reg.ADCSYS_SDCK (k : Nat) : Nat := 0x580c0 + k * 4
abbrev Reg.ADCSYS_CAL_GAIN (k : Nat) : Nat := 0x58100 + k * 8
abbrev Reg.ADCSYS_CAL_OFS (k : Nat) : Nat := 0x58104 + k * 8
abbrev Reg.ACC_CTRL (n : Nat) : Nat := 0x59004 + n * 0x1000
abbrev Reg.ACC_STAT (n : Nat) : Nat := 0x59008 + n * 0x1000
abbrev Reg.ACC_EVT_RAW (n : Nat) : Nat := 0x5900c + n * 0x1000
abbrev Reg.ACC_CFG (n : Nat) (k : Nat) : Nat := 0x59040 + n * 0x1000 + k * 16
abbrev Reg.ACC_MEAN (n : Nat) (k : Nat) : Nat := 0x59044 + n * 0x1000 + k * 16
abbrev Reg.ACC_WSTAT (n : Nat) (k : Nat) : Nat := 0x59048 + n * 0x1000 + k * 16
abbrev Reg.MMX_CTRL (n : Nat) : Nat := 0x5d004 + n * 0x1000
abbrev Reg.MMX_STAT (n : Nat) : Nat := 0x5d008 + n * 0x1000
abbrev Reg.MMX_EVT_RAW (n : Nat) : Nat := 0x5d00c + n * 0x1000
abbrev Reg.MMX_CFG (n : Nat) (k : Nat) : Nat := 0x5d040 + n * 0x1000 + k * 16
abbrev Reg.MMX_MAX (n : Nat) (k : Nat) : Nat := 0x5d044 + n * 0x1000 + k * 16
abbrev Reg.MMX_MIN (n : Nat) (k : Nat) : Nat := 0x5d048 + n * 0x1000 + k * 16
abbrev Reg.MMX_WSTAT (n : Nat) (k : Nat) : Nat := 0x5d04c + n * 0x1000 + k * 16
abbrev Reg.CMP_CTRL : Nat := 0x5f004
abbrev Reg.CMP_STAT : Nat := 0x5f008
abbrev Reg.CMP_EVT_RAW : Nat := 0x5f00c
abbrev Reg.CMP_THR (k : Nat) : Nat := 0x5f040 + k * 4
abbrev Reg.CMP_CFG (k : Nat) : Nat := 0x5f140 + k * 4
abbrev Reg.CMP_HI0 : Nat := 0x5f240
abbrev Reg.CMP_HI1 : Nat := 0x5f244
abbrev Reg.CMP_LO0 : Nat := 0x5f248
abbrev Reg.CMP_LO1 : Nat := 0x5f24c
abbrev Reg.CMP_XHI0 : Nat := 0x5f250
abbrev Reg.CMP_XHI1 : Nat := 0x5f254
abbrev Reg.CMP_XLO0 : Nat := 0x5f258
abbrev Reg.CMP_XLO1 : Nat := 0x5f25c
abbrev Reg.CMP_PLAUS_REC : Nat := 0x5f260
abbrev Reg.CMP_PLAUS_CNT : Nat := 0x5f264
abbrev Reg.SD_CTRL (n : Nat) : Nat := 0x60004 + n * 0x1000
abbrev Reg.SD_STAT (n : Nat) : Nat := 0x60008 + n * 0x1000
abbrev Reg.SD_EVT_RAW (n : Nat) : Nat := 0x6000c + n * 0x1000
abbrev Reg.SD_CFG (n : Nat) (k : Nat) : Nat := 0x60040 + n * 0x1000 + k * 16
abbrev Reg.SD_OC (n : Nat) (k : Nat) : Nat := 0x60044 + n * 0x1000 + k * 16
abbrev Reg.SD_GAIN (n : Nat) (k : Nat) : Nat := 0x60048 + n * 0x1000 + k * 16
abbrev Reg.SD_OFS (n : Nat) (k : Nat) : Nat := 0x6004c + n * 0x1000 + k * 16
abbrev Reg.SD_OC_STAT (n : Nat) : Nat := 0x600c0 + n * 0x1000
abbrev Reg.SD_MOD_STAT (n : Nat) : Nat := 0x600c4 + n * 0x1000
abbrev Reg.PF_CTRL (n : Nat) : Nat := 0x68004 + n * 0x1000
abbrev Reg.PF_STAT (n : Nat) : Nat := 0x68008 + n * 0x1000
abbrev Reg.PF_EVT_RAW (n : Nat) : Nat := 0x6800c + n * 0x1000
abbrev Reg.PF_ABZ_CFG (n : Nat) : Nat := 0x68040 + n * 0x1000
abbrev Reg.PF_ABZ_CMD (n : Nat) : Nat := 0x68044 + n * 0x1000
abbrev Reg.PF_POS (n : Nat) : Nat := 0x68048 + n * 0x1000
abbrev Reg.PF_REV (n : Nat) : Nat := 0x6804c + n * 0x1000
abbrev Reg.PF_ZPOS (n : Nat) : Nat := 0x68050 + n * 0x1000
abbrev Reg.PF_ZLATCH (n : Nat) : Nat := 0x68054 + n * 0x1000
abbrev Reg.PF_QERR_CNT (n : Nat) : Nat := 0x68058 + n * 0x1000
abbrev Reg.PF_HALL_CFG (n : Nat) : Nat := 0x68060 + n * 0x1000
abbrev Reg.PF_HALL_STAT (n : Nat) : Nat := 0x68064 + n * 0x1000
abbrev Reg.PF_HALL_TIME (n : Nat) : Nat := 0x68068 + n * 0x1000
abbrev Reg.PF_SER_CFG (n : Nat) : Nat := 0x68070 + n * 0x1000
abbrev Reg.PF_SER_TIM (n : Nat) : Nat := 0x68074 + n * 0x1000
abbrev Reg.PF_SER_REQ (n : Nat) : Nat := 0x68078 + n * 0x1000
abbrev Reg.PF_SER_CMD (n : Nat) : Nat := 0x6807c + n * 0x1000
abbrev Reg.PF_SPOS (n : Nat) : Nat := 0x68080 + n * 0x1000
abbrev Reg.PF_SPOS_TIME (n : Nat) : Nat := 0x68084 + n * 0x1000
abbrev Reg.PF_SER_STAT (n : Nat) : Nat := 0x68088 + n * 0x1000
abbrev Reg.PF_SER_OVR (n : Nat) : Nat := 0x6808c + n * 0x1000
abbrev Reg.PF_SPD_CFG (n : Nat) : Nat := 0x680a0 + n * 0x1000
abbrev Reg.PF_SPD_SCALE (n : Nat) : Nat := 0x680a4 + n * 0x1000
abbrev Reg.PF_SPEED (n : Nat) : Nat := 0x680a8 + n * 0x1000
abbrev Reg.PF_SPD_STAT (n : Nat) : Nat := 0x680ac + n * 0x1000
abbrev Reg.PF_SPD_WINS (n : Nat) : Nat := 0x680b0 + n * 0x1000
abbrev Reg.PF_EMU_CFG (n : Nat) : Nat := 0x680c0 + n * 0x1000
abbrev Reg.PF_EMU_TIM (n : Nat) : Nat := 0x680c4 + n * 0x1000
abbrev Reg.PF_EMU_CNT (n : Nat) : Nat := 0x680c8 + n * 0x1000
abbrev Reg.PF_EMU_LAGV (n : Nat) : Nat := 0x680cc + n * 0x1000
abbrev Reg.PF_CMP_CFG (n : Nat) : Nat := 0x680e0 + n * 0x1000
abbrev Reg.PF_CMP_POS (n : Nat) : Nat := 0x680e4 + n * 0x1000
abbrev Reg.PF_CMP_INC (n : Nat) : Nat := 0x680e8 + n * 0x1000
abbrev Reg.PF_CMP_STAT (n : Nat) : Nat := 0x680ec + n * 0x1000
abbrev Reg.PF_CMP_HIT (n : Nat) : Nat := 0x680f0 + n * 0x1000
abbrev Reg.PF_CMP_TIME (n : Nat) : Nat := 0x680f4 + n * 0x1000
abbrev Reg.PF_SNAP_CFG (n : Nat) : Nat := 0x68100 + n * 0x1000
abbrev Reg.PF_SNAP_POS (n : Nat) : Nat := 0x68104 + n * 0x1000
abbrev Reg.PF_SNAP_REV (n : Nat) : Nat := 0x68108 + n * 0x1000
abbrev Reg.PF_SNAP_SPOS (n : Nat) : Nat := 0x6810c + n * 0x1000
abbrev Reg.PF_SNAP_AGE (n : Nat) : Nat := 0x68110 + n * 0x1000
abbrev Reg.PF_SNAP_SPEED (n : Nat) : Nat := 0x68114 + n * 0x1000
abbrev Reg.PF_SNAP_SPD (n : Nat) : Nat := 0x68118 + n * 0x1000
abbrev Reg.MC_CTRL (n : Nat) : Nat := 0x70004 + n * 0x1000
abbrev Reg.MC_STAT (n : Nat) : Nat := 0x70008 + n * 0x1000
abbrev Reg.MC_EVT_RAW (n : Nat) : Nat := 0x7000c + n * 0x1000
abbrev Reg.MC_CMD (n : Nat) : Nat := 0x70040 + n * 0x1000
abbrev Reg.MC_CMD_RES (n : Nat) : Nat := 0x70044 + n * 0x1000
abbrev Reg.MC_CFG (n : Nat) : Nat := 0x70048 + n * 0x1000
abbrev Reg.MC_LEGS (n : Nat) : Nat := 0x7004c + n * 0x1000
abbrev Reg.MC_ACC_I (n : Nat) : Nat := 0x70050 + n * 0x1000
abbrev Reg.MC_ACC_V (n : Nat) : Nat := 0x70054 + n * 0x1000
abbrev Reg.MC_CMPSEL (n : Nat) : Nat := 0x70058 + n * 0x1000
abbrev Reg.MC_ZC_TIM (n : Nat) : Nat := 0x7005c + n * 0x1000
abbrev Reg.MC_PSI (n : Nat) : Nat := 0x70060 + n * 0x1000
abbrev Reg.MC_RS (n : Nat) : Nat := 0x70064 + n * 0x1000
abbrev Reg.MC_LS (n : Nat) : Nat := 0x70068 + n * 0x1000
abbrev Reg.MC_ANG_OFS (n : Nat) : Nat := 0x7006c + n * 0x1000
abbrev Reg.MC_F_SCALE (n : Nat) : Nat := 0x70070 + n * 0x1000
abbrev Reg.MC_FMAX (n : Nat) : Nat := 0x70074 + n * 0x1000
abbrev Reg.MC_CONF_MIN (n : Nat) : Nat := 0x70078 + n * 0x1000
abbrev Reg.MC_OBS_FMIN (n : Nat) : Nat := 0x7007c + n * 0x1000
abbrev Reg.MC_CATCH_T (n : Nat) : Nat := 0x70080 + n * 0x1000
abbrev Reg.MC_CATCH_LIM (n : Nat) : Nat := 0x70084 + n * 0x1000
abbrev Reg.MC_ASC_K (n : Nat) : Nat := 0x70088 + n * 0x1000
abbrev Reg.MC_ASC_REL (n : Nat) : Nat := 0x7008c + n * 0x1000
abbrev Reg.MC_EMIN (n : Nat) : Nat := 0x70090 + n * 0x1000
abbrev Reg.MC_CONV_TOL (n : Nat) : Nat := 0x70094 + n * 0x1000
abbrev Reg.MC_VDC_SOFT (n : Nat) : Nat := 0x70098 + n * 0x1000
abbrev Reg.MC_VDC_HARD (n : Nat) : Nat := 0x7009c + n * 0x1000
abbrev Reg.MC_ACCEL (n : Nat) : Nat := 0x700a0 + n * 0x1000
abbrev Reg.MC_DECEL (n : Nat) : Nat := 0x700a4 + n * 0x1000
abbrev Reg.MC_RAMP_T (n : Nat) : Nat := 0x700a8 + n * 0x1000
abbrev Reg.MC_STOP_F (n : Nat) : Nat := 0x700ac + n * 0x1000
abbrev Reg.MC_STOP_T (n : Nat) : Nat := 0x700b0 + n * 0x1000
abbrev Reg.MC_ALIGN_T (n : Nat) : Nat := 0x700b4 + n * 0x1000
abbrev Reg.MC_OL_T0 (n : Nat) : Nat := 0x700b8 + n * 0x1000
abbrev Reg.MC_OL_T1 (n : Nat) : Nat := 0x700bc + n * 0x1000
abbrev Reg.MC_OBS_CNT (n : Nat) : Nat := 0x700c0 + n * 0x1000
abbrev Reg.MC_SETPT (n : Nat) : Nat := 0x700d0 + n * 0x1000
abbrev Reg.MC_OBS_F (n : Nat) : Nat := 0x700d4 + n * 0x1000
abbrev Reg.MC_OBS_CONF (n : Nat) : Nat := 0x700d8 + n * 0x1000
abbrev Reg.MC_VAPP_A (n : Nat) : Nat := 0x700dc + n * 0x1000
abbrev Reg.MC_VAPP_B (n : Nat) : Nat := 0x700e0 + n * 0x1000
abbrev Reg.MC_TH_OUT (n : Nat) : Nat := 0x70100 + n * 0x1000
abbrev Reg.MC_F_OUT (n : Nat) : Nat := 0x70104 + n * 0x1000
abbrev Reg.MC_REF_OUT (n : Nat) : Nat := 0x70108 + n * 0x1000
abbrev Reg.MC_TQ_MOT (n : Nat) : Nat := 0x7010c + n * 0x1000
abbrev Reg.MC_TQ_GEN (n : Nat) : Nat := 0x70110 + n * 0x1000
abbrev Reg.MC_INIT_TH (n : Nat) : Nat := 0x70114 + n * 0x1000
abbrev Reg.MC_INIT_F (n : Nat) : Nat := 0x70118 + n * 0x1000
abbrev Reg.MC_E_EST (n : Nat) : Nat := 0x7011c + n * 0x1000
abbrev Reg.MC_VDC_OUT (n : Nat) : Nat := 0x70120 + n * 0x1000
abbrev Reg.MC_OUT_FLAGS (n : Nat) : Nat := 0x70124 + n * 0x1000
abbrev Reg.MC_LOCK_CAUSE (n : Nat) : Nat := 0x70128 + n * 0x1000
abbrev Reg.MC_REACQ_CNT (n : Nat) : Nat := 0x7012c + n * 0x1000
abbrev Reg.MC_CMDIN_CFG (n : Nat) (k : Nat) : Nat := 0x70180 + n * 0x1000 + k * 16
abbrev Reg.MC_CMDIN_K (n : Nat) (k : Nat) : Nat := 0x70184 + n * 0x1000 + k * 16
abbrev Reg.MC_CMDIN_OFS (n : Nat) (k : Nat) : Nat := 0x70188 + n * 0x1000 + k * 16
abbrev Reg.MC_CMDIN_VAL (n : Nat) (k : Nat) : Nat := 0x7018c + n * 0x1000 + k * 16
abbrev Reg.MC_CMDIN_STAT (n : Nat) : Nat := 0x701c0 + n * 0x1000
abbrev Reg.MB_CTRL (n : Nat) : Nat := 0x80004 + n * 0x1000
abbrev Reg.MB_STAT (n : Nat) : Nat := 0x80008 + n * 0x1000
abbrev Reg.MB_EVT_RAW (n : Nat) : Nat := 0x8000c + n * 0x1000
abbrev Reg.MB_NBT (n : Nat) : Nat := 0x80040 + n * 0x1000
abbrev Reg.MB_DBT (n : Nat) : Nat := 0x80044 + n * 0x1000
abbrev Reg.MB_TDC (n : Nat) : Nat := 0x80048 + n * 0x1000
abbrev Reg.MB_ECNT (n : Nat) : Nat := 0x8004c + n * 0x1000
abbrev Reg.MB_ERRLOG (n : Nat) : Nat := 0x80050 + n * 0x1000
abbrev Reg.MB_TSCFG (n : Nat) : Nat := 0x80054 + n * 0x1000
abbrev Reg.MB_TSC (n : Nat) : Nat := 0x80058 + n * 0x1000
abbrev Reg.MB_PRIO_ID (n : Nat) : Nat := 0x8005c + n * 0x1000
abbrev Reg.MB_PRIO_MASK (n : Nat) : Nat := 0x80060 + n * 0x1000
abbrev Reg.MB_HPB_ROUTE (n : Nat) : Nat := 0x80064 + n * 0x1000
abbrev Reg.MB_ORPHAN_CNT (n : Nat) : Nat := 0x80068 + n * 0x1000
abbrev Reg.MB_RX_LOST_CNT (n : Nat) : Nat := 0x8006c + n * 0x1000
abbrev Reg.MB_NOMATCH_CNT (n : Nat) : Nat := 0x80070 + n * 0x1000
abbrev Reg.MB_RCMD_CFG (n : Nat) : Nat := 0x80074 + n * 0x1000
abbrev Reg.MB_RCMD_ID (n : Nat) : Nat := 0x80078 + n * 0x1000
abbrev Reg.MB_RCMD_KEY0 (n : Nat) : Nat := 0x8007c + n * 0x1000
abbrev Reg.MB_RCMD_KEY1 (n : Nat) : Nat := 0x80080 + n * 0x1000
abbrev Reg.MB_RCMD_CNT (n : Nat) : Nat := 0x80084 + n * 0x1000
abbrev Reg.MB_TXREQ0 (n : Nat) : Nat := 0x80088 + n * 0x1000
abbrev Reg.MB_TXREQ1 (n : Nat) : Nat := 0x8008c + n * 0x1000
abbrev Reg.MB_TXABT0 (n : Nat) : Nat := 0x80090 + n * 0x1000
abbrev Reg.MB_TXABT1 (n : Nat) : Nat := 0x80094 + n * 0x1000
abbrev Reg.MB_RXFULL0 (n : Nat) : Nat := 0x80098 + n * 0x1000
abbrev Reg.MB_RXFULL1 (n : Nat) : Nat := 0x8009c + n * 0x1000
abbrev Reg.MB_TXFIN0 (n : Nat) : Nat := 0x800a0 + n * 0x1000
abbrev Reg.MB_TXFIN1 (n : Nat) : Nat := 0x800a4 + n * 0x1000
abbrev Reg.MB_HPB_STAT (n : Nat) : Nat := 0x800a8 + n * 0x1000
abbrev Reg.MB_CMD (n : Nat) : Nat := 0x800ac + n * 0x1000
abbrev Reg.MB_FLT_ID (n : Nat) (k : Nat) : Nat := 0x80100 + n * 0x1000 + k * 8
abbrev Reg.MB_FLT_MASK (n : Nat) (k : Nat) : Nat := 0x80104 + n * 0x1000 + k * 8
abbrev Reg.MB_BUF_CFG (n : Nat) (k : Nat) : Nat := 0x80200 + n * 0x1000 + k * 4
abbrev Reg.MB_BUF_STAT (n : Nat) (k : Nat) : Nat := 0x80300 + n * 0x1000 + k * 4
abbrev Reg.MB_WIN0_SEL (n : Nat) : Nat := 0x80400 + n * 0x1000
abbrev Reg.MB_WIN0_ID (n : Nat) : Nat := 0x80404 + n * 0x1000
abbrev Reg.MB_WIN0_INFO (n : Nat) : Nat := 0x80408 + n * 0x1000
abbrev Reg.MB_WIN0_TS (n : Nat) : Nat := 0x8040c + n * 0x1000
abbrev Reg.MB_WIN0_DATA (n : Nat) (k : Nat) : Nat := 0x80410 + n * 0x1000 + k * 4
abbrev Reg.MB_WIN1_SEL (n : Nat) : Nat := 0x80480 + n * 0x1000
abbrev Reg.MB_WIN1_ID (n : Nat) : Nat := 0x80484 + n * 0x1000
abbrev Reg.MB_WIN1_INFO (n : Nat) : Nat := 0x80488 + n * 0x1000
abbrev Reg.MB_WIN1_TS (n : Nat) : Nat := 0x8048c + n * 0x1000
abbrev Reg.MB_WIN1_DATA (n : Nat) (k : Nat) : Nat := 0x80490 + n * 0x1000 + k * 4
abbrev Reg.CRC_CTRL (n : Nat) : Nat := 0x88004 + n * 0x1000
abbrev Reg.CRC_STAT (n : Nat) : Nat := 0x88008 + n * 0x1000
abbrev Reg.CRC_EVT_RAW (n : Nat) : Nat := 0x8800c + n * 0x1000
abbrev Reg.CRC_CFG (n : Nat) : Nat := 0x88040 + n * 0x1000
abbrev Reg.CRC_POLY (n : Nat) : Nat := 0x88044 + n * 0x1000
abbrev Reg.CRC_INIT (n : Nat) : Nat := 0x88048 + n * 0x1000
abbrev Reg.CRC_XOROUT (n : Nat) : Nat := 0x8804c + n * 0x1000
abbrev Reg.CRC_CMD (n : Nat) : Nat := 0x88050 + n * 0x1000
abbrev Reg.CRC_SRC (n : Nat) : Nat := 0x88054 + n * 0x1000
abbrev Reg.CRC_LEN (n : Nat) : Nat := 0x88058 + n * 0x1000
abbrev Reg.CRC_DIN (n : Nat) : Nat := 0x8805c + n * 0x1000
abbrev Reg.CRC_DIN_B (n : Nat) : Nat := 0x88060 + n * 0x1000
abbrev Reg.CRC_RUN (n : Nat) : Nat := 0x88064 + n * 0x1000
abbrev Reg.CRC_RESULT (n : Nat) : Nat := 0x88068 + n * 0x1000
abbrev Reg.CRC_EXP (n : Nat) : Nat := 0x8806c + n * 0x1000
abbrev Reg.CRC_CMP (n : Nat) : Nat := 0x88070 + n * 0x1000
abbrev Reg.CRC_CLAIM (n : Nat) : Nat := 0x88074 + n * 0x1000
abbrev Reg.CRC_BYTES (n : Nat) : Nat := 0x88078 + n * 0x1000
abbrev Reg.TRIAD_CTRL : Nat := 0x90004
abbrev Reg.TRIAD_STAT : Nat := 0x90008
abbrev Reg.TRIAD_EVT_RAW : Nat := 0x9000c
abbrev Reg.TRIAD_DIGEST_STAT : Nat := 0x90040
abbrev Reg.TRIAD_DIGEST (k : Nat) : Nat := 0x90044 + k * 4
abbrev Reg.TRIAD_FIND : Nat := 0x90050
abbrev Reg.TRIAD_FIND_CNT : Nat := 0x90054
abbrev Reg.TRIAD_OUTVOTE : Nat := 0x90058
abbrev Reg.TRIAD_XCHG_STAT : Nat := 0x9005c
abbrev Reg.TRIAD_ECC_STAT : Nat := 0x90060
abbrev Reg.TRIAD_VTEST : Nat := 0x90068
abbrev Reg.TRIAD_MBX_IN (k : Nat) : Nat := 0x90080 + k * 4
abbrev Reg.TRIAD_MBX_POST : Nat := 0x900a0
abbrev Reg.TRIAD_MBX_STAT : Nat := 0x900a4
abbrev Reg.TRIAD_MBX_ACK : Nat := 0x900a8
abbrev Reg.TRIAD_MBX_OUT (k : Nat) : Nat := 0x900c0 + k * 4
abbrev Reg.TRIAD_MBX_OUT_SEQ : Nat := 0x900e0
abbrev Reg.SLOE_CTRL : Nat := 0x91004
abbrev Reg.SLOE_STAT : Nat := 0x91008
abbrev Reg.SLOE_EVT_RAW : Nat := 0x9100c
abbrev Reg.SLOE_PSAFE (k : Nat) : Nat := 0x91040 + k * 4
abbrev Reg.SLOE_DEMAND : Nat := 0x91080
abbrev Reg.SLOE_FAULT : Nat := 0x91084
abbrev Reg.SLOE_FAULT_REC : Nat := 0x91088
abbrev Reg.SLOE_HOLD : Nat := 0x9108c
abbrev Reg.SLOE_STO : Nat := 0x91090
abbrev Reg.SLOE_STO_CFG : Nat := 0x91094
abbrev Reg.SLOE_STO_AGE : Nat := 0x91098
abbrev Reg.SLOE_TCHAL : Nat := 0x910a0
abbrev Reg.SLOE_TRESP : Nat := 0x910a4
abbrev Reg.SLOE_TP_CFG : Nat := 0x910a8
abbrev Reg.SLOE_TREQ : Nat := 0x910ac
abbrev Reg.SLOE_EVT_ACT : Nat := 0x910b0
abbrev Reg.SLOE_SPD_A : Nat := 0x910c0
abbrev Reg.SLOE_SPD_A_CNT : Nat := 0x910c4
abbrev Reg.SAFE_CTRL : Nat := 0x92004
abbrev Reg.SAFE_STAT : Nat := 0x92008
abbrev Reg.SAFE_EVT_RAW : Nat := 0x9200c
abbrev Reg.SAFE_PW_IN : Nat := 0x92040
abbrev Reg.SAFE_PW_NEW : Nat := 0x92044
abbrev Reg.SAFE_CMD : Nat := 0x92048
abbrev Reg.SAFE_SCRC_EXP : Nat := 0x9204c
abbrev Reg.SAFE_SCRC : Nat := 0x92050
abbrev Reg.SAFE_PSET : Nat := 0x92054
abbrev Reg.SAFE_RESULT : Nat := 0x92058
abbrev Reg.SAFE_PW_FAIL : Nat := 0x9205c
abbrev Reg.SAFE_SIN_CFG (k : Nat) : Nat := 0x92060 + k * 4
abbrev Reg.SAFE_SIN_STAT : Nat := 0x920a0
abbrev Reg.SAFE_STP_CFG : Nat := 0x920a4
abbrev Reg.SAFE_FUNC_A (k : Nat) : Nat := 0x920c0 + k * 8
abbrev Reg.SAFE_FUNC_B (k : Nat) : Nat := 0x920c4 + k * 8
abbrev Reg.SAFE_SS1_CFG : Nat := 0x92100
abbrev Reg.SAFE_SLS_CFG : Nat := 0x92104
abbrev Reg.SAFE_SLS_LIM_A : Nat := 0x92108
abbrev Reg.SAFE_SLS_LIM_B : Nat := 0x9210c
abbrev Reg.SAFE_SLS_STILL_A : Nat := 0x92110
abbrev Reg.SAFE_SLS_STILL_B : Nat := 0x92114
abbrev Reg.SAFE_SPD_B : Nat := 0x92118
abbrev Reg.SAFE_LOG_STAT : Nat := 0x92140
abbrev Reg.SAFE_LOG_ACK : Nat := 0x92144
abbrev Reg.SAFE_LOG_HEAD (k : Nat) : Nat := 0x92160 + k * 4
abbrev Reg.MGT_CTRL : Nat := 0x98004
abbrev Reg.MGT_STAT : Nat := 0x98008
abbrev Reg.MGT_EVT_RAW : Nat := 0x9800c
abbrev Reg.MGT_MBX_CMD : Nat := 0x98040
abbrev Reg.MGT_MBX_STAT : Nat := 0x98044
abbrev Reg.MGT_JOURNAL_STAT : Nat := 0x98048
abbrev Reg.MGT_TELE_STAT : Nat := 0x9804c
abbrev Reg.MGT_TELE_CFG : Nat := 0x98050
abbrev Reg.MGT_LOG_SEQ : Nat := 0x98054
abbrev Reg.MGT_MBX_IN (k : Nat) : Nat := 0x98080 + k * 4
abbrev Reg.MGT_MBX_OUT (k : Nat) : Nat := 0x980c0 + k * 4
abbrev Reg.HOST_CTRL : Nat := 0x99004
abbrev Reg.HOST_STAT : Nat := 0x99008
abbrev Reg.HOST_EVT_RAW : Nat := 0x9900c
abbrev Reg.HOST_CFG : Nat := 0x99040
abbrev Reg.HOST_BOOT : Nat := 0x99044
abbrev Reg.HOST_CNT : Nat := 0x99048
abbrev Reg.HOST_QUEUE : Nat := 0x9904c
abbrev Reg.ETH_CTRL (n : Nat) : Nat := 0x9a004 + n * 0x1000
abbrev Reg.ETH_STAT (n : Nat) : Nat := 0x9a008 + n * 0x1000
abbrev Reg.ETH_EVT_RAW (n : Nat) : Nat := 0x9a00c + n * 0x1000
abbrev Reg.ETH_MAC_LO (n : Nat) : Nat := 0x9a040 + n * 0x1000
abbrev Reg.ETH_MAC_HI (n : Nat) : Nat := 0x9a044 + n * 0x1000
abbrev Reg.ETH_IPV4 (n : Nat) : Nat := 0x9a048 + n * 0x1000
abbrev Reg.ETH_RX_CNT (n : Nat) : Nat := 0x9a04c + n * 0x1000
abbrev Reg.ETH_TX_CNT (n : Nat) : Nat := 0x9a050 + n * 0x1000
abbrev Reg.ETH_DROP (n : Nat) : Nat := 0x9a054 + n * 0x1000
abbrev Reg.DRAM_CTRL : Nat := 0xa0004
abbrev Reg.DRAM_STAT : Nat := 0xa0008
abbrev Reg.DRAM_EVT_RAW : Nat := 0xa000c
abbrev Reg.DRAM_PART : Nat := 0xa0040
abbrev Reg.DRAM_CAP_CTRL : Nat := 0xa0044
abbrev Reg.DRAM_CAP_TRIG : Nat := 0xa0048
abbrev Reg.DRAM_CAP_POST : Nat := 0xa004c
abbrev Reg.DRAM_CAP_CMD : Nat := 0xa0050
abbrev Reg.DRAM_CAP_WPTR : Nat := 0xa0054
abbrev Reg.DRAM_CAP_TRIG_PTR : Nat := 0xa0058
abbrev Reg.DRAM_CAP_DROP : Nat := 0xa005c
abbrev Reg.DRAM_CAP_SRC : Nat := 0xa0060
abbrev Reg.DRAM_CAP_ACC (k : Nat) : Nat := 0xa0064 + k * 4
abbrev Reg.SCRUB_CTRL : Nat := 0xa1004
abbrev Reg.SCRUB_STAT : Nat := 0xa1008
abbrev Reg.SCRUB_EVT_RAW : Nat := 0xa100c
abbrev Reg.SCRUB_SRAM_STAT : Nat := 0xa1040
abbrev Reg.SCRUB_DRAM_STAT : Nat := 0xa1044
abbrev Reg.SCRUB_SRAM_CORR : Nat := 0xa1048
abbrev Reg.SCRUB_SRAM_UNC : Nat := 0xa104c
abbrev Reg.SCRUB_SRAM_UNC_ADDR : Nat := 0xa1050
abbrev Reg.SCRUB_DRAM_CORR : Nat := 0xa1054
abbrev Reg.SCRUB_DRAM_UNC : Nat := 0xa1058
abbrev Reg.SCRUB_DRAM_UNC_ADDR : Nat := 0xa105c
abbrev Reg.PAD_CTRL : Nat := 0xa8004
abbrev Reg.PAD_STAT : Nat := 0xa8008
abbrev Reg.PAD_EVT_RAW : Nat := 0xa800c
abbrev Reg.PAD_GRP (k : Nat) : Nat := 0xa8040 + k * 4
abbrev Reg.GPIO_CTRL : Nat := 0xa9004
abbrev Reg.GPIO_STAT : Nat := 0xa9008
abbrev Reg.GPIO_EVT_RAW : Nat := 0xa900c
abbrev Reg.GPIO_DIR : Nat := 0xa9040
abbrev Reg.GPIO_OUT : Nat := 0xa9044
abbrev Reg.GPIO_OUT_SET : Nat := 0xa9048
abbrev Reg.GPIO_OUT_CLR : Nat := 0xa904c
abbrev Reg.GPIO_IN : Nat := 0xa9050
abbrev Reg.GPIO_EDGE_CFG0 : Nat := 0xa9054
abbrev Reg.GPIO_EDGE_CFG1 : Nat := 0xa9058
abbrev Reg.GPIO_EDGE_RAW : Nat := 0xa9060
abbrev Reg.GPIO_CFG (k : Nat) : Nat := 0xa9080 + k * 4

abbrev Reg.ctrl (page : Nat) : Nat := page * 0x1000 + 0x004
abbrev Reg.stat (page : Nat) : Nat := page * 0x1000 + 0x008
abbrev Reg.evtRaw (page : Nat) : Nat := page * 0x1000 + 0x00C
abbrev Reg.evtEn (page : Nat) : Nat := page * 0x1000 + 0x010
abbrev Reg.evtPend (page : Nat) : Nat := page * 0x1000 + 0x014
abbrev Reg.evtRoute (page : Nat) : Nat := page * 0x1000 + 0x018
abbrev Reg.key (page : Nat) : Nat := page * 0x1000 + 0x01C
abbrev Reg.pwr (page : Nat) : Nat := page * 0x1000 + 0x020
abbrev Reg.gen (page : Nat) : Nat := page * 0x1000 + 0x024

/-- The row of the register map that holds an offset of a page kind, with the register's index in the row. -/
def findDesc (off : Nat) : List RegDesc → Option (RegDesc × Nat)
  | [] => none
  | r :: rest =>
    if r.count = 1 then (if off = r.off then some (r, 0) else findDesc off rest)
    else if r.off ≤ off ∧ (off - r.off) % r.stride = 0 ∧ (off - r.off) / r.stride < r.count then some (r, (off - r.off) / r.stride)
    else findDesc off rest

/-- The command-pin registers sit in the MC0 page only (R484). -/
def absentAt (k : PageKind) (inst off : Nat) : Bool := k == .mc && inst != 0 && decide (0x180 ≤ off)

/-- The register map at a key: page kind, instance, row and index; none at a reserved offset or an unassigned page. -/
def regAt (key : Nat) : Option (PageKind × Nat × RegDesc × Nat) :=
  match pageKind? (key / 0x1000) with
  | none => none
  | some (k, inst) =>
    if absentAt k inst (key % 0x1000) then none else
    match findDesc (key % 0x1000) (descsOf k) with
    | none => none
    | some (r, i) => some (k, inst, r, i)

/-- The bits of a row that a read returns (every access type but WO). -/
def RegDesc.readMask (r : RegDesc) : Nat := r.rw ||| r.ro ||| r.w1c ||| r.w1s ||| r.rwc ||| r.rws

/-- The cold reset value of the register at a key (the Reset columns of the field tables), 0 at a reserved offset (R16). -/
def resetWord (key : Nat) : Word :=
  match regAt key with
  | none => 0
  | some (k, inst, r, i) =>
    match r.form with
    | .fixed => BitVec.ofNat 32 r.reset
    | .powInst => BitVec.ofNat 32 (r.reset + 2 ^ inst)
    | .powIdx => BitVec.ofNat 32 (r.reset + (if i < 12 then 2 ^ (16 + i) else 0))
    | .instPlus1 => BitVec.ofNat 32 (r.reset + inst + 1)
    | .instMod8 => BitVec.ofNat 32 (r.reset + (inst % 8) * 0x100)
    | .ident => BitVec.ofNat 32 (k.first * 0x100000 + inst * 0x1000 + 1)

end Sys2Proof.Machine
end

