-- ==== Sys2Proof/Machine/State.lean ====
section
/-!
DEFINITION. The state of the block as plain data: registers and shadows by address key, memories as byte lists, the parts of
each block that no register shows, and the queue of waiting commands; and the state right after reset.
-/

namespace Sys2Proof.Machine

/-! ### Reset controller (spec/03), supplies (spec/20), clocks (spec/04) -/

/-- The reaches that an episode can have (R83, R91); block and debug resets concern single pages. -/
inductive Reach where
  | plane | warm | cold
  deriving DecidableEq, Repr

/-- The reset controller: the episode in progress, its sources, the recorder in AON, and the pages held in reset. -/
structure ResetCtl where
  /-- Reach in force of the episode in progress (R92). -/
  episode   : Option Reach := none
  /-- Sources asserted now, with the reach each asserted (R91). -/
  asserted  : List (Source × Reach) := []
  /-- Sources the recorder has seen in this episode, in the bit order of RST.CAUSE (R94). -/
  seen      : BitVec 13 := 0
  /-- The domains of the episode have been released and the memories are being initialised (R98). -/
  releasing : Bool := false
  /-- DRAM contents lost in this episode (R99). -/
  dramLost  : Bool := false
  /-- The DRAM has still to be initialised with zero (R99): after a cold reset, and after its contents were lost in an episode. -/
  dramInit  : Bool := true
  /-- The commit state has left another state for UNCONFIGURED in this episode (R100, R157). -/
  cstateLeft : Bool := false
  /-- Instant at which the release sequence began, in model ticks (RST.SEQ.REL_TIME, R107). -/
  seqStart  : Nat := 0
  /-- Pages held in reset by the episode (R80 to R82). -/
  held      : List Nat := []
  /-- Pages under a block or debug reset, not yet released (R96); one that an episode in progress covers has joined it (R91). -/
  blockHeld : List Nat := []
  /-- Pages whose release waits for the qualification of their clock (R82). -/
  deferred  : List Nat := []
  deriving DecidableEq, Repr

/-- A VIO bank (R650, R654): it has passed 1.55 V, and 2.85 V; the class it has taken; the tick at which its 20 ms window began. -/
structure VioBank where
  up      : Bool := true
  high    : Bool := true
  class33 : Option Bool := some true
  since   : Nat := 0
  deriving DecidableEq, Repr

/-- The supplies (R652, R654): above their thresholds or not, and the tick since which all three have been above (R83). -/
structure Supplies where
  vdd   : Bool := true
  vdda  : Bool := true
  vio   : Vector VioBank 5 := Vector.replicate 5 {}
  allAt : Nat := 0
  deriving DecidableEq, Repr

/-- Crystal, PLLs and monitors (R97, R114 to R119). Lock and qualification bits stand in CLK.LOCK and CLK.QUAL. -/
structure Clocks where
  /-- The PLLs have been enabled since the last cold reset. -/
  pllsOn    : Bool := true
  /-- The crystal failed under R97: every PLL domain held and IRQ_N low until the next cold reset. -/
  xtalFault : Bool := false
  /-- Consecutive monitor gates outside ±5 % per domain (R116). -/
  badGates  : Vector Nat 9 := Vector.replicate 9 0
  /-- Count of the latest completed gate per domain (CLK.MEAS.COUNT). -/
  counts    : Vector Nat 9 := Vector.replicate 9 0
  deriving DecidableEq, Repr

/-! ### Configuration loader and fuses (spec/05) -/

/-- Where an image comes from (CFG.STATE.SLOT). -/
inductive ImageSource where
  | slotA | slotB | sram
  deriving DecidableEq, Repr

/-- A load in progress: the checked image that LOAD_COMPLETE writes (R145, R149), and RESULT.CODE of its command. -/
structure Load where
  source : ImageSource
  image  : List Byte
  code   : Nat
  /-- The instant at which the load began. -/
  startAt : Nat
  deriving DecidableEq, Repr

/-- The loader: the load in progress, whether the applied image had REMOTE_ARM (R160), whether a TRIAD section was applied
since the triad was last reset (R162), the bar of R152, and whether a SERVICE section has been committed (R165). -/
structure Loader where
  load         : Option Load := none
  remoteArm    : Bool := false
  triadApplied : Bool := false
  rwcBar       : Bool := false
  /-- The CRC step of a commit runs (R156). -/
  crcStep      : Bool := false
  /-- The shadows of the latest commit that ended in COMMIT_DONE, by key (R640). -/
  goodSet      : Option (List (Nat × Word)) := none
  /-- SEQUENCE of the applied image, or 0 (R637, R643). -/
  appliedSeq   : Word := 0
  deriving DecidableEq, Repr

/-- One-time fuses (R152, R153) and the MAC addresses (spec/19). -/
structure Fuses where
  keyHash     : Option Nat := none
  sigRequired : Bool := false
  mac         : Nat := 0
  deriving DecidableEq, Repr

/-! ### Loop engines (spec/06, spec/07) -/

/-- An active hardware loop (R184): first and last instruction, and the passes left, the current one included. -/
structure HwLoop where
  first : Nat
  last  : Nat
  left  : Nat
  deriving DecidableEq, Repr

/-- A posted write in an engine's queue, with the GEN captured of its target page (R187, R199). -/
structure Posted where
  addr : Nat
  data : Word
  gen  : Option Nat
  deriving DecidableEq, Repr

/-- The two coefficient banks and the state words of one unit instance (R220). -/
structure Coef where
  bankA : Vector Word 16 := Vector.replicate 16 0
  bankB : Vector Word 16 := Vector.replicate 16 0
  state : Vector Word 8 := Vector.replicate 8 0
  deriving DecidableEq, Repr

/-- One publish slot of an engine's bridge (R256): the value the frame in progress has written, the value and stamp of a
completed frame that wait for the publisher's boundary, and the visible value with its stamp (none: never published). -/
structure BridgeSlot where
  pending : Option Word := none
  done    : Option (Word × Nat) := none
  visible : Word := 0
  stamp   : Option Nat := none
  deriving DecidableEq, Repr

/-- One slot as an engine's view latched it (R258). -/
structure ViewSlot where
  enabled : Bool := false
  value   : Word := 0
  stamp   : Option Nat := none
  deriving DecidableEq, Repr

/-- One loop engine behind its page. -/
structure Engine where
  v          : Vector Word 64 := Vector.replicate 64 0
  /-- Loop stack, innermost first (R184). -/
  loops      : List HwLoop := []
  /-- Posted-write queue, oldest first (R187). -/
  queue      : List Posted := []
  /-- A load outside the own TCM that holds issue: destination and address (R186). -/
  loadWait   : Option (Fin 64 × Nat) := none
  /-- FEND has issued and the section waits for completion (R194). -/
  fend       : Bool := false
  /-- The running section is the init section (R205). -/
  inInit     : Bool := false
  /-- Groups whose sample events wait for the frame start (R192), and held events (R197), bit g for Gg. -/
  trigger    : BitVec 12 := 0
  /-- Model tick of each group's latest sample event. -/
  evTick     : Vector Nat 12 := Vector.replicate 12 0
  heldEvents : BitVec 12 := 0
  /-- Deadline of the pending or held sample event of each group, in model ticks (R194, R197). -/
  evDeadline : Vector Nat 12 := Vector.replicate 12 0
  /-- Groups the running frame serves, and its deadline. -/
  served     : BitVec 12 := 0
  deadline   : Nat := 0
  /-- The deadline of the running frame has passed (R196, R203). -/
  overran    : Bool := false
  /-- Owned groups at the frame start (R200) and the captured GENs of their PG, FL and MC pages (R199). -/
  ownFrame   : BitVec 12 := 0
  genPG      : Vector Nat 12 := Vector.replicate 12 0
  genFL      : Vector Nat 12 := Vector.replicate 12 0
  genMC      : Vector Nat 12 := Vector.replicate 12 0
  /-- LEn.GEN captured at the frame start, for bridge stamps (R256). -/
  genOwn     : Nat := 0
  /-- Model ticks of the section's start and of the latest section's end. -/
  startTick  : Nat := 0
  idleAt     : Nat := 0
  /-- The previous frame overran; frames skipped since the previous frame; the tick of the boundary at which a commit last
  transferred this page (R190). -/
  ovrPrev    : Bool := false
  skipped    : Nat := 0
  commitAt   : Option Nat := none
  /-- Engine locks per group: those of AUTOLOCK (R195), those held through one reload (R196), and those that stay until the group's
  next frame completes (R203). LEn.STAT.LOCK_HELD shows the last two. -/
  locks      : BitVec 12 := 0
  lockHeld   : BitVec 12 := 0
  lockAbort  : BitVec 12 := 0
  /-- The page's MBX_POST message: its GEN and the tick in which it reached the page (R213, R214). -/
  mbxGen     : Nat := 0
  mbxTick    : Nat := 0
  /-- Microseconds that the watchdog has counted (R215). -/
  wdtUs      : Nat := 0
  /-- The coefficient store: unit codes 1 to 9 (index unit − 1), 16 instances each (R220). -/
  coef       : Vector (Vector Coef 16) 9 := Vector.replicate 9 (Vector.replicate 16 {})
  /-- PI instances invoked since the start of the frame or init section (R244). -/
  piInvoked  : BitVec 16 := 0
  /-- Publish slots, and the latched view of all engines' slots (R258). -/
  slots      : Vector BridgeSlot 8 := Vector.replicate 8 {}
  view       : Vector (Vector ViewSlot 8) 12 := Vector.replicate 12 (Vector.replicate 8 {})
  /-- Source engines that have published since this engine's previous frame start (BR_AGE, R261); all, before its first. -/
  pubNew     : BitVec 12 := 0xFFF
  /-- SEQ of the engine's capture records (spec/18). -/
  capSeq     : Nat := 0
  deriving DecidableEq, Repr

/-! ### PWM groups (spec/08, spec/09) -/

/-- A change of a leg's switches: its instant in units of 1/32 tick, the instant with SKEW at which a pin or the lane's event shows
it (R299), and the two switches from then on. -/
structure LegEdge where
  at_ : Nat
  pin : Int
  h   : Bool
  l   : Bool
  deriving DecidableEq, Repr

/-- One leg: its duty command (inside the on-interval), a forced pulse in progress (R328), and its two switches as driven. -/
structure Leg where
  duty : Bool := false
  forced : Bool := false
  onH  : Bool := false
  onL  : Bool := false
  /-- Instant, in units of 1/32 tick, of the leg's latest turn-off (R275); none: no switch of it has turned off since the cold
  reset. -/
  offAt : Option Nat := none
  /-- The latest changes, the newest first. -/
  hist  : List LegEdge := []
  deriving DecidableEq, Repr

/-- What a group samples one tick before a reload (R277, R280, R327): the duty shadows, the lock, and FORCE_SH where it was written
since its last transfer. -/
structure ReloadSample where
  duty  : Vector Word 4
  lock  : Bool
  force : Option Word
  deriving DecidableEq, Repr

/-- One group behind its page. Lengths, GSTATE, latches and counters stand in the page's registers. -/
structure Group where
  /-- A carrier runs: its start and the start of the current period, in model ticks. -/
  running      : Bool := false
  carStart     : Nat := 0
  perStart     : Nat := 0
  /-- Length of the current carrier and of the next, in ticks (R270). -/
  carLen       : Nat := 0
  nextCar      : Nat := 0
  /-- The carrier before, start and length, and the reload before the latest: what a delay of 160 ticks reaches back to (R52). -/
  lastCar      : Option (Nat × Nat) := none
  prevAt       : Option Nat := none
  /-- Length of the period that the latest reload ended, in ticks; 0 before the first (R455). -/
  closedLen    : Nat := 0
  /-- Double update: the current period follows a peak (R271). -/
  afterPeak    : Bool := false
  /-- The 23-bit LFSR of the dither (R136). -/
  lfsr         : Nat := 0
  /-- Carrier starts to come that another timebase or a pulse has set, with the length of the predecessor's carrier (R288, R289,
  R294). -/
  starts       : List (Nat × Nat) := []
  /-- A reload has passed whose snapshots are still to be replaced: WIN_CNT follows then (R269); the tick of that reload (R382). -/
  winDue       : Bool := false
  winAt        : Nat := 0
  /-- STARTING: reloads left until RUN (R282). -/
  startLeft    : Nat := 0
  /-- STOPPING entered by STOP from RUN and not yet at its reload (R283). -/
  stopAtReload : Bool := false
  /-- A trip clear was accepted in TRIPPED and the group returns to RUN at the next reload (R317). -/
  clearPending : Bool := false
  /-- The tick in which a stopping group's own commands went off, and the tick of the lane's first STATE frame after it (R284). -/
  cmdsOffAt    : Nat := 0
  stateSentAt  : Option Nat := none
  /-- The sample for the coming reload (R277, R280, R327). -/
  sample       : Option ReloadSample := none
  /-- The tick of the owning engine's latest write of each duty shadow (R281). -/
  engAt        : Vector (Option Nat) 4 := Vector.replicate 4 none
  /-- FORCE_SH was written since its last sample (R327). -/
  forceNew     : Bool := false
  /-- G0: the correction of its next carrier length (R294). -/
  corr         : Int := 0
  legs         : Vector Leg 4 := Vector.replicate 4 {}
  /-- G0: consecutive pulses within SLEW; a pulse has come in the current carrier; whole carriers without a pulse; their loss has
  been noted (R294, R295). -/
  syncGood     : Nat := 0
  pulsed       : Bool := false
  quiet        : Nat := 0
  syncLost     : Bool := false
  /-- The latest trip instant, the instant from which ASC applies, and the reload of a return to RUN, in units of 1/32 tick (R311,
  R353, R354). -/
  tripAt       : Nat := 0
  ascAt        : Nat := 0
  runAt        : Nat := 0
  /-- A period of FORCE_ACT marked ONESHOT is in force (R327). -/
  oneshot      : Bool := false
  deriving DecidableEq, Repr

/-! ### Foelle lanes (spec/10) -/

/-- One event waiting for an EDGE frame: leg, new command (0 OFF, 1 HIGH, 2 LOW) and carrier instant in link-time units. -/
structure LaneEvent where
  leg     : Nat
  kind    : Nat
  carrier : Nat
  deriving DecidableEq, Repr

/-- What a lane sends in a slot: nothing while it is dark, a link frame, the trip symbol K28.7 (R351), or the idle fill of ten K28.0
(R334). -/
inductive LaneTx where
  | none | frame (bytes : List Byte) | trip | idle
  deriving DecidableEq, Repr

/-- One lane behind its page. -/
structure Lane where
  /-- Model tick at which link time is 0 (R335). -/
  since      : Nat := 0
  /-- Consecutive valid upstream alignment frames in TRAIN (R366). -/
  aligned    : Nat := 0
  /-- A measurement runs: pings sent and the RTT of each reply so far (R342). -/
  measuring  : Bool := false
  pings      : Nat := 0
  rtts       : List Nat := []
  pid        : Nat := 0
  /-- Measurements rejected since MEASURE was entered (R366). -/
  rejects    : Nat := 0
  pingOut    : Bool := false
  /-- Alignment frames sent with the accepted OWD since SYNC was entered (R366). -/
  owdSent    : Nat := 0
  /-- SEQ of the next EDGE frame (R348), and the events waiting, in order of application instant (R347). -/
  seq        : Nat := 0
  events     : List LaneEvent := []
  /-- Events sent before their carrier instants, which are still to come. -/
  ahead      : List LaneEvent := []
  /-- EDGE frames that are to be sent once more, with their events, the oldest first: repeats (R348), and a frame that a trip
  interrupted (R351). -/
  repeats    : List (List Byte × List LaneEvent) := []
  /-- The EDGE frame sent last, with its events. -/
  inSlot     : Option (List Byte × List LaneEvent) := .none
  /-- The slot start, the cycle of the latest STATE frame and the slot start of the latest ping, in link-time ticks; the tick of the
  latest measurement's start (R334, R342, R343, R350). -/
  slotAt     : Option Nat := .none
  stateCycle : Option Nat := .none
  pingAt     : Option Nat := .none
  measAt     : Option Nat := .none
  /-- A target has been applied since the training began (R343). -/
  owdSet     : Bool := false
  /-- Consecutive missed or invalid alignment frames, and consecutive invalid link frames (R366). -/
  missed     : Nat := 0
  invalids   : Nat := 0
  /-- The ticks of the latest valid upstream frame, of the latest upstream alignment frame or of the one missed in its place, and of
  the latest valid upstream STATE frame or of the entry into MEASURE (R366). -/
  rxAt       : Nat := 0
  alignRx    : Option Nat := .none
  stateRx    : Option Nat := .none
  /-- The lane sends STATE frames with the safe pattern through a warm reset and until its page is enabled (R104, R105). -/
  safeTx     : Bool := false
  /-- What the lane sent last, and the tick at which the latest EDGE, STATE or TELE frame has passed (R127). -/
  tx         : LaneTx := .none
  busyUntil  : Nat := 0
  deriving DecidableEq, Repr

/-! ### Analog acquisition (spec/11) -/

/-- A window being gathered by an accumulator or tracker: real conversions and their sum in 1/256 code, predictions, extremes
and the flags of the snapshot (R383, R388, R391). -/
structure Window where
  n        : Nat := 0
  sum      : Int := 0
  preds    : List Word := []
  max      : Option Int := none
  min      : Option Int := none
  clip     : Bool := false
  modFault : Bool := false
  skip     : Bool := false
  refNr    : Bool := false
  deriving DecidableEq, Repr

/-- An accumulator or tracker: the open window, its number and the tick at which it began, the window closed at the latest reload and
not yet published with the tick at which that began, periods taken by a MULTI window, and whether the first boundary of the present
configuration has come (R381, R385). -/
structure AcqUnit where
  cur     : Window := {}
  winNo   : Nat := 0
  curAt   : Nat := 0
  closing : Option (Window × Nat) := none
  periods : Nat := 0
  open_   : Bool := false
  wins    : Nat := 0
  deriving DecidableEq, Repr

/-- A sampled conversion in the pipeline: its instant, raw code, source, whether its pair interleaves, and the window number of each
unit at the sampling instant (R373, R51). -/
structure Sampled where
  at_   : Nat
  code  : Int
  src   : Nat
  clip  : Bool
  pair  : Bool
  accNo : List (Nat × Nat)
  mmxNo : List (Nat × Nat)
  deriving DecidableEq, Repr

/-- A conversion started and not yet sampled: its source, the settings of its slot at its start, its sampling instant, and the
decision of R386 once it has been made. -/
structure Started where
  src    : Nat
  slot   : Word
  at_    : Nat
  judged : Option Bool := none
  deriving DecidableEq, Repr

/-- A converter: the conversions started, the tick until which a running sequence occupies it, the pending trigger, the tick in which
each TRIG entry has fired last, and the pipeline (R373 to R379). -/
structure Converter where
  due      : List Started := []
  endAt    : Nat := 0
  pending  : Bool := false
  fired    : Vector (Option Nat) 8 := Vector.replicate 8 none
  pipeline : List Sampled := []
  deriving DecidableEq, Repr

/-- The estimator of one interleaved pair over the running 100 ms, which began at a tick, and its corrections (R397, R398): offset in
1/16 code and gain in ppm, in force, and computed but waiting for the reload. -/
structure TrimPair where
  since : Nat := 0
  nE   : Nat := 0
  sumE : Int := 0
  sqE  : Nat := 0
  nO   : Nat := 0
  sumO : Int := 0
  sqO  : Nat := 0
  ofs  : Int := 0
  gain : Int := 0
  next : Option (Int × Int) := none
  good : Nat := 0
  deriving DecidableEq, Repr

/-- One unfiltered output of a comparator: its level, the instant since which it has held it, the tick at which its filtered output
became active last (R374), and the finished active spans that the plausibility check may still need (R409, R410). -/
structure CompSide where
  act    : Bool := false
  since  : Nat := 0
  rose   : Option Nat := none
  spans  : List (Nat × Nat) := []
  deriving DecidableEq, Repr

/-- A comparator: the level at its input as latest crossed, in 1/256 code, and its unfiltered HI and LO. -/
structure CompRaw where
  x      : Option Int := none
  hi     : CompSide := {}
  lo     : CompSide := {}
  deriving DecidableEq, Repr

/-- A calibration step in progress, ZERO or FULL (R394): its input, converter and start, and the values taken so far with their sum in
1/256 code. -/
structure CalStep where
  full  : Bool
  input : Nat
  conv  : Nat
  start : Nat := 0
  n     : Nat := 0
  sum   : Int := 0
  deriving DecidableEq, Repr

/-- A sigma-delta channel (R400 to R405): the bits sampled, newest first; the tick from which the next are to come; bits taken of the
decimation cycle; restarts of its phase to come; clocks without a transition, and clocks in a row above, and not above, the limit. -/
structure SdChannel where
  bits   : List Bool := []
  fromT  : Nat := 0
  phase  : Nat := 0
  marks  : List Nat := []
  still  : Nat := 0
  above  : Nat := 0
  below  : Nat := 0
  /-- The channel is on and its clock runs; the fast filter's decision, a fault left out (R404, R405). -/
  live   : Bool := false
  own    : Bool := false
  deriving DecidableEq, Repr

/-- A tracker window whose plausibility check is due 200 ns after its close (R409 to R411). -/
structure WindowCheck where
  mmx    : Nat
  start  : Nat
  close  : Nat
  window : Window
  deriving DecidableEq, Repr

/-- What the acquisition subsystem holds beside its units: the channels, the tick at which each modulator clock began, the tick at which
each reference buffer was enabled, and the checks to come. -/
structure AcqSys where
  sd     : Vector SdChannel 24 := Vector.replicate 24 {}
  sdck   : Vector Nat 6 := Vector.replicate 6 0
  refAt  : Vector Nat 2 := Vector.replicate 2 0
  checks : List WindowCheck := []
  deriving DecidableEq, Repr

/-! ### Position feedback (spec/12) -/

/-- The values a position interface latched at a reload, waiting for the replacement of the snapshots (R442). -/
structure PosLatch where
  pos   : Word
  rev   : Nat
  sect  : Nat
  spos  : Word
  valid : Bool
  age   : Nat
  speed : Word
  spd   : Word
  deriving DecidableEq, Repr

/-- Edges of a speed window: the net count, and whether there are forward and backward ones (R438, R441). -/
structure EdgeCount where
  net : Int := 0
  fwd : Bool := false
  bwd : Bool := false
  deriving DecidableEq, Repr

/-- A standstill timeout that an edge of its cycle still cancels (R440): the cycle, and what stood before it. -/
structure StillUndo where
  cycle : Nat
  state : Nat
  speed : Word
  event : Bool
  deriving DecidableEq, Repr

/-- A step of a position (R447): its cycle, the source, the position it left, its size and its direction. -/
structure PosStep where
  cycle : Nat
  kind  : Nat
  pos   : Nat
  size  : Nat
  back  : Bool
  deriving DecidableEq, Repr

/-- One position interface behind its page. -/
structure PosUnit where
  /-- Levels of A and B, and the code of the Hall switches, as latest sampled at the balls (R421, R426). -/
  a          : Bool := false
  b          : Bool := false
  hall       : Nat := 0
  /-- The same as Sloe samples them through its own filter (R527). -/
  sloeA      : Bool := false
  sloeB      : Bool := false
  sloeHall   : Nat := 0
  /-- A serial transfer runs; device time and model tick of its first MA edge, and SER_CFG and SER_TIM as it began; its recovery
  runs, and the tick at which the transfer ended (R432, R435). -/
  busy       : Bool := false
  reqTime    : Nat := 0
  reqTick    : Nat := 0
  serCfg     : Word := 0
  serTim     : Word := 0
  recovering : Bool := false
  serEndAt   : Nat := 0
  /-- The tick of the transfer of SER_CFG.EN = 1, and the tick of the latest request by position or timer (R431). -/
  serAt      : Nat := 0
  serLast    : Option Nat := none
  /-- Model tick of SPOS_TIME (R442). -/
  valTick    : Option Nat := none
  /-- Latest edge of the ABZ count and of the serial position: model tick, and whether backward (R448). -/
  lastAbz    : Option (Nat × Bool) := none
  lastSer    : Option (Nat × Bool) := none
  /-- The edges of the open speed window, and those of the cycle in which it closes; its beginning and its end in ticks (R437 to R439,
  R441). -/
  count      : EdgeCount := {}
  next       : EdgeCount := {}
  winAt      : Nat := 0
  winEnd     : Nat := 0
  /-- FIRST: the open window began at or after the edge that left STILL (R439). -/
  winFresh   : Bool := false
  /-- The tick of the standstill timeout; the timeout of the cycle, with SPD_STATE, SPEED and STILL as they were (R440). -/
  stillAt    : Nat := 0
  undo       : Option StillUndo := none
  /-- The emulator: the tick of its latest edge; the tick of the latest serial target, the interval over which its steps are spread,
  and their number (R444, R445). -/
  emuAt      : Option Nat := none
  emuFrom    : Nat := 0
  emuSpan    : Nat := 0
  emuTotal   : Nat := 0
  /-- The compare: the latest step of its source; the cycle in which it was armed last; the cycle in which a target that was behind
  fires, and the tick at which CMP_TIME takes the device time (R447 to R449). -/
  step       : Option PosStep := none
  armAt      : Option Nat := none
  fireAt     : Option Nat := none
  timeAt     : Option Nat := none
  /-- Level of PFn_CMP, a pulse in progress, and the tick at which it began (R449). -/
  cmpOut     : Bool := false
  cmpPulse   : Bool := false
  pulseAt    : Nat := 0
  latch      : Option PosLatch := none
  deriving DecidableEq, Repr

/-! ### Machine control (spec/13) -/

/-- One window of a rotor estimate (R470): angle in turns, magnitude, frequency in Hz, and the angle at the window centre. -/
structure EstWindow where
  phi : Word
  mag : Word
  f   : Word
  deriving DecidableEq, Repr

/-- An estimate in progress: its windows, newest first; consecutive still windows; the instant from which windows count; the
instant at which a catch ends, or the windows a re-acquisition has left (R470 to R473). -/
structure Estimate where
  /-- What the windows measure: 0 terminal voltages, 1 phase currents (R477). -/
  kind    : Nat := 0
  windows : List EstWindow := []
  still   : Nat := 0
  fromT   : Nat := 0
  untilT  : Nat := 0
  left    : Nat := 0
  deriving DecidableEq, Repr

/-- The data of the prediction for skipped samples (R469); the instant in half ticks. -/
structure Prediction where
  ia : Word
  ib : Word
  tc : Nat
  va : Word
  vb : Word
  ea : Word
  eb : Word
  deriving DecidableEq, Repr

/-- A command pin (R484, R485): the ticks of its rising edges, newest first, as far back as 10 ms and one edge more, none since a loss;
the tick of the latest edge, or from which an edge is awaited. -/
structure CmdPin where
  edges : List Nat := []
  since : Nat := 0
  deriving DecidableEq, Repr

/-- One machine-control unit behind its page. -/
structure McUnit where
  /-- A RUN waits for the sample boundary at which its catch or engagement starts (R471, R472). -/
  starting   : Bool := false
  /-- The legs are released at the next reload (R475); the release has happened and the ramp runs (R464). -/
  releasePend : Bool := false
  released   : Bool := false
  /-- The ramp factor r of R464. -/
  ramp       : Word := 0
  est        : Estimate := {}
  /-- Model tick of the release reload (R464). -/
  relAt      : Nat := 0
  /-- Consecutive low reports (R467), and whether the engine has reported since the pulses were last blocked (R469). -/
  lowReports : Nat := 0
  reported   : Bool := false
  /-- Reloads since the latest report or the release, and the ticks of its period that had then passed (R467). -/
  quiet      : Nat := 0
  quietOfs   : Nat := 0
  /-- Model tick since which the stop condition has held (R458), and boundaries for which the MC_ASC release condition has (R476). -/
  stopHeld   : Option Nat := none
  ascHeld    : Nat := 0
  /-- VAPP in force for the period that begins at the latest boundary (R468). -/
  vappA      : Word := 0
  vappB      : Word := 0
  pred       : Option Prediction := none
  /-- The posted commands of the four legs (R324): 0 PWM, 1 FLOAT, 2 LOW, 3 HIGH. -/
  maskOut    : Vector Nat 4 := Vector.replicate 4 0
  /-- Six-step: the row in force (0 none), the row scheduled, instants of the latest row change and crossing, the latest
  interval, consecutive misses, direction backward (R479 to R482). -/
  row        : Nat := 0
  nextRow    : Option Nat := none
  rowDue     : Nat := 0
  rowAt      : Nat := 0
  crossAt    : Option Nat := none
  interval   : Nat := 0
  misses     : Nat := 0
  backward   : Bool := false
  /-- ALIGN: forced steps made (none: the row of sector 1 still applies), crossings in a row within their window, start (R483). -/
  steps      : Option Nat := none
  locked     : Nat := 0
  alignAt    : Nat := 0
  /-- The command pins, of MC0 only (R484, R485). -/
  pins       : Vector CmdPin 4 := Vector.replicate 4 {}
  /-- ANGSRC is treated as 0 until the next RUN from IDLE (R478, FB_REACQ). -/
  noSensor   : Bool := false
  /-- The angle carried forward from the latest INIT_TH under ANGSRC 0 (R469), and its instant in half ticks. -/
  th         : Word := 0
  thAt       : Nat := 0
  deriving DecidableEq, Repr

/-! ### Triad (spec/14) -/

/-- One triad core: registers, PC, the machine-mode CSRs that exceptions and interrupts use, its latch of the events routed to the
triad (R499), its running digest, and its map of stored lines. -/
structure TriadCore where
  x       : Vector Word 32 := Vector.replicate 32 0
  f       : Vector Word 32 := Vector.replicate 32 0
  pc      : Word := 0x20000000
  mstatus : Word := 0
  mtvec   : Word := 0
  mepc    : Word := 0
  mcause  : Word := 0
  mtval   : Word := 0
  mie     : Word := 0
  eip     : Bool := false
  digest  : Word := 0xFFFFFFFF
  lines   : List Nat := []
  deriving DecidableEq, Repr

/-- The triad: its cores, whether they are released, the tick of the next sync point (R501), the instants of its findings in the latest
second (R505), the value that the exchange has delivered last, and the pending state of the routed events as delivered (R499). -/
structure Triad where
  cores    : Vector TriadCore 3 := Vector.replicate 3 {}
  released : Bool := false
  nextSync : Nat := 0
  findings : List Nat := []
  delivered : Word := 0
  events   : Bool := false
  deriving DecidableEq, Repr

/-! ### Sloe (spec/15) -/

/-- Which origin a safety-log entry carries (R549). -/
inductive SafeOrigin where
  | host | eth | can | loader
  deriving DecidableEq, Repr

/-- Sloe behind its two pages: the active copy of the safety configuration (R673), the password, the inputs as its functions
see them, the timers' states that no register shows, and the change log. -/
structure Sloe where
  /-- Active copy: values by register address key, an unlisted register at its reset value. -/
  active     : List (Nat × Word) := []
  password   : Option Word := none
  pwIn       : Word := 0
  pwNew      : Option Word := none
  /-- Run states as the functions evaluate them (R517). -/
  evalRun    : BitVec 16 := 0
  /-- The ball level of each input outside the test pulses that it ignores (R516), and the tick since which its filter sees it. -/
  seen       : BitVec 16 := 0
  seenAt     : Vector Nat 16 := Vector.replicate 16 0
  /-- The ticks of the latest rise and fall of each filtered run state (R517, R522). -/
  runAt      : Vector Nat 16 := Vector.replicate 16 0
  fallAt     : Vector Nat 16 := Vector.replicate 16 0
  /-- The tick from which the test outputs' pulses are counted (R515). -/
  stpAt      : Nat := 0
  /-- Function k: since when its channels differ (R519), and its lock shows locked with an open door (R520). -/
  discAt     : Vector (Option Nat) 8 := Vector.replicate 8 none
  lockAt     : Vector (Option Nat) 8 := Vector.replicate 8 none
  /-- The AON cycle in which each demand and each fault latest arose (R539). -/
  demandCyc  : Vector (Option Nat) 11 := Vector.replicate 11 none
  faultCyc   : Vector (Option Nat) 8 := Vector.replicate 8 none
  /-- Function k: both channels have been out of their run state together since its latch set (R521). -/
  bothOut    : BitVec 8 := 0
  /-- The STO feedback balls. -/
  fb0        : Bool := false
  fb1        : Bool := false
  /-- The second phase of TEST runs; the tick at which STO_STATE or its phase was entered (R532). -/
  testPhase2 : Bool := false
  stoAt      : Nat := 0
  /-- Since when each feedback disagrees with its switch's command (R531). -/
  fbAt0      : Option Nat := none
  fbAt1      : Option Nat := none
  /-- The tick of the latest passed switch test (R533). -/
  ageAt      : Nat := 0
  /-- The watch's window has not ended without an answer since the latest correct one (R536, R537). -/
  permitOk   : Bool := false
  /-- The tick of the latest correct answer (R537). -/
  tpAt       : Nat := 0
  /-- Edges counted for speed source A in the open window, and the tick at which that window closes (R527). -/
  count      : Int := 0
  winEnd     : Nat := 0
  /-- Windows of source A begun since the one of the latest write of SPD_B, that one among them (R528); the tick of the first of the
  latest consecutive window closes with exactly one source above its limit (R529). -/
  spdBWins   : Nat := 0
  oneAt      : Option Nat := none
  /-- The safety CRC of a commit is being computed (R546), and since which tick. -/
  crcRun     : Bool := false
  crcAt      : Nat := 0
  /-- The ticks of the owner's latest accepted write (R544) and of the start of the password lock (R543). -/
  sessAt     : Nat := 0
  pwLockAt   : Nat := 0
  /-- Groups whose pins Sloe holds (R321), those it holds all off whatever their pattern (R524), and the groups that its
  demands covered at its latest decision (R534). -/
  hold       : BitVec 12 := 0xFFF
  /-- The tick of the decision from which Sloe holds each group (R102, R321). -/
  holdAt     : Vector Nat 12 := Vector.replicate 12 0
  holdOff    : BitVec 12 := 0
  cover      : BitVec 12 := 0
  /-- The tick at which the running SS1 timer ends; it has ended and a demand that starts it still stands (R526). -/
  ss1End     : Nat := 0
  ss1Done    : Bool := false
  /-- The change-log FIFO (R549), oldest first, and the SEQ of its latest entry. -/
  log        : List (List Byte) := []
  logSeq     : Nat := 0
  deriving DecidableEq, Repr

/-! ### Message bus controllers (spec/16) -/

/-- The words of one message buffer as a window shows them (R564): ID with IDE, INFO, TS and DATA. -/
structure CanBuf where
  id   : Word := 0
  info : Word := 0
  ts   : Word := 0
  data : Vector Word 16 := Vector.replicate 16 0
  deriving DecidableEq, Repr

/-- A frame being received once its arbitration field has ended: its identifier and the target decided for it (R566). -/
structure RxHead where
  ide    : Bool
  id     : BitVec 29
  target : Option CanTarget
  deriving DecidableEq, Repr

/-- What the latest stored frame met in its target: the MBUS cycle, the target, the frame, and buffer, shadow, FULL and the three
registers of a loss as they were before it (R568). -/
structure RxNote where
  cycle  : Nat
  buf    : Nat
  frame  : CanBuf
  old    : CanBuf
  shadow : Option CanBuf
  full   : Bool
  events : Word
  lost   : Word
  stat   : Word
  deriving DecidableEq, Repr

/-- One CAN controller behind its page; index 64 is the high-priority buffer. -/
structure CanCtl where
  bufs     : Vector CanBuf 65 := Vector.replicate 65 {}
  shadows  : Vector (Option CanBuf) 65 := Vector.replicate 65 none
  /-- Values of BUF_CFG held under R584. -/
  held     : Vector (Option Word) 64 := Vector.replicate 64 none
  /-- The buffer in arbitration or transmission, and the TSC at its SOF (R572, R577). -/
  sending  : Option (Fin 64) := none
  sofTs    : Word := 0
  /-- The frame being received (R566), and the latest stored one (R568). -/
  rxHead   : Option RxHead := none
  rxNote   : Option RxNote := none
  /-- The tick at which the latest frame or error ended and the bits of bus idle that follow it (R579), and the tick from which
  integration or recovery counts its recessive bits (R557, R581). -/
  quietAt  : Nat := 0
  quiet    : Nat := 0
  since    : Nat := 0
  /-- A write of INIT waits for the end of the frame on the bus (R558). -/
  initPend : Bool := false
  /-- Model tick from which TSC counts with SRC = 0 (R576). -/
  tscBase  : Nat := 0
  deriving DecidableEq, Repr

/-! ### Check-value units (spec/17) -/

/-- What a check-value unit's page does not show: the tick at which its DMA run began, and the tick at which it latest took a byte
written to it (R593, R602). -/
structure CrcRun where
  startAt : Nat := 0
  fedAt   : Option Nat := none
  deriving DecidableEq, Repr

/-! ### Management plane (spec/18) -/

/-- The capture path (R611, R612): the FIFO toward DRAM, the record counters of the acquisition selectors, and the stored
records left until the freeze that a trigger began. -/
structure Capture where
  fifo     : List (List Byte) := []
  accSeq   : Vector Nat 4 := Vector.replicate 4 0
  postLeft : Option Nat := none
  deriving DecidableEq, Repr

/-- A record of the flash journal (R620): kind 1 safety log, 2 image step with its number from 1 (R148), 3 RESET. -/
structure JournalRec where
  kind : Nat
  step : Nat := 0
  data : List Byte
  deriving DecidableEq, Repr

/-- The settings of the SERVICE section (R142): network addresses (R633), heartbeat and beacon in ms (R165), register access, Modbus
TCP, PTP with its transport and the PHY latencies in ns (R634, R638), CANopen with the bit rate of its controller (0 to 3: 125, 250,
500, 1000 kbit/s, R643), telemetry, channels, and the capture and telemetry registers. -/
structure Service where
  ipv4      : Word := 0
  mask      : Word := 0
  gateway   : Word := 0
  heartbeat : Nat := 1000
  beacon    : Nat := 1000
  canRate   : Fin 4 := 2
  ptpRaw    : Bool := false
  phyTx     : Vector Int 2 := Vector.replicate 2 0
  phyRx     : Vector Int 2 := Vector.replicate 2 0
  permitted : List Word := []
  modbus    : Bool := false
  modbusLe  : Fin 12 := 0
  ptpPort   : Option (Fin 2) := none
  ptpSlave  : Bool := true
  canCtl    : Fin 4 := 0
  nodeId    : Nat := 127
  telemetry : List Nat := []
  channels  : List (Fin 12 × Fin 12) := []
  capture   : List (Nat × Word) := []
  deriving DecidableEq, Repr

/-- The services of Medlar. -/
structure Mgmt where
  /-- A JTAG reset has halted Medlar (R90). -/
  halted     : Bool := false
  /-- The SERVICE section that the latest load applied, and the one a commit has since put in force. -/
  loaded     : Option Service := none
  service    : Option Service := none
  /-- Event bits already recorded, by page (R614). -/
  recorded   : List (Nat × Word) := []
  /-- The flash journal, newest first (R620), and model tick of its latest compaction. -/
  journal    : List JournalRec := []
  compactAt  : Option Nat := none
  /-- The latest telemetry set (R622). -/
  tele       : List Word := []
  /-- The start of the running telemetry period (R622), and of the running SRAM and DRAM scrub intervals (R616, R618). -/
  teleAt     : Nat := 0
  sramAt     : Nat := 0
  dramPassAt : Nat := 0
  /-- The tick from which the watchdog's period can run unserved (R606). -/
  wdtAt      : Nat := 0
  /-- The commit states entered and not yet recorded, oldest first, and a start not yet recorded (R614). -/
  states     : List Nat := []
  startDue   : Bool := false
  /-- The ticks of the latest heartbeat and beacon (R165); a committed SERVICE section has Medlar join its CAN bus anew (R643). -/
  beatAt     : Option Nat := none
  beaconAt   : Option Nat := none
  rejoin     : Bool := false
  deriving DecidableEq, Repr

/-! ### Host port, Ethernet and CANopen (spec/19) -/

/-- The host SPI port: queued writes, and what the port drove in its latest frame (R627, R628). -/
structure HostPort where
  queue    : List (Nat × Word) := []
  response : List Byte := []
  /-- The tick of the port's release (R669). -/
  upAt     : Nat := 0
  deriving DecidableEq, Repr

/-- The latest executed register-access request and its reply (R636). -/
structure EthReply where
  peer  : EthPeer
  seq   : Word
  reply : List Byte
  deriving DecidableEq, Repr

/-- The network services: latest register-access reply, the latest frame payload that each port sent, the words of the latest
Modbus message, and the latest Modbus answer. -/
structure Network where
  last      : Option EthReply := none
  sent      : Vector (List Byte) 2 := Vector.replicate 2 []
  posted    : List Word := []
  modbusTx  : List Byte := []
  /-- Tick at which each port latest carried a frame (R127). -/
  busyAt    : Vector (Option Nat) 2 := Vector.replicate 2 none
  /-- The running second of each port and the frames it has taken in it (R633). -/
  taken     : Vector (Nat × Nat) 2 := Vector.replicate 2 (0, 0)
  /-- The offset in ns that the latest Sync yielded and no commit has yet corrected (R640). -/
  offset    : Option Int := none
  /-- Consecutive Syncs within 1 µs, whether a mismatch has stopped the servo's commits, and model tick of its latest commit
  (R640). -/
  syncGood  : Nat := 0
  servoStop : Bool := false
  servoAt   : Option Nat := none
  deriving DecidableEq, Repr

/-- The CANopen device (R643, R644): NMT state, controlword and target of each channel, latest SDO answer, latest frames sent. -/
structure CanOpen where
  nmt     : Nat := 127
  ctrl    : Vector (BitVec 16) 8 := Vector.replicate 8 0
  target  : Vector (BitVec 16) 8 := Vector.replicate 8 0
  answer  : List Byte := []
  emcy    : List Byte := []
  beat    : List Byte := []
  syncs   : Nat := 0
  deriving DecidableEq, Repr

/-! ### The machine -/

/-- The FAB cycle in progress, as far as the rules of one cycle ask (R20 to R22, R226, R235, R599, R666): the registers at its start,
the event bits that hardware has set in it, the pages that a commit has transferred in it, the coefficient words that CWR has
written in it and the units that have swapped in it (engine, unit, instance, bank and word; engine and unit), and the master code of
its latest write. -/
structure FabCycle where
  regs    : List (Nat × Word) := []
  raised  : List (Nat × Word) := []
  commits : List Nat := []
  cwr     : List (Nat × Nat) := []
  swaps   : List (Nat × Nat) := []
  master  : Nat := 0
  /-- Capture has frozen in it (R612). -/
  froze   : Bool := false
  deriving DecidableEq, Repr

/-- Everything the device holds. -/
structure Dev where
  /-- Registers by key (page × 0x1000 + offset), an unlisted one at its cold reset value; shadows likewise (R65). -/
  regs     : List (Nat × Word) := []
  shadow   : List (Nat × Word) := []
  /-- Bytes of shared SRAM and loop-engine TCMs, of the triad's three TCM copies, of the DRAM and of the flash. -/
  mem      : List Host.Cell := []
  triadMem : Vector (List Host.Cell) 3 := Vector.replicate 3 []
  dram     : List Host.Cell := []
  flash    : List Host.Cell := []
  /-- How often the DRAM contents have ceased to be guaranteed (R99, R655); 0: guaranteed. -/
  dramEpoch : Nat := 0
  /-- Instant in model ticks of 2.5 ns; device time (R11) and the fraction RATE has accumulated (R639). -/
  now      : Nat := 0
  devTime  : Nat := 0
  rateAcc  : Int := 0
  /-- The FAB cycle in progress. -/
  cyc      : FabCycle := {}
  /-- Value that the latest read returned; result of the agreement exchange's latest delivery stands in `triad`. -/
  readData : Word := 0
  /-- The model's own counter of free values. -/
  freeCount : Nat := 0
  /-- TIME_HI as latched for each master that read TIME_LO (R639). -/
  timeHi   : List (Master × Word) := []
  /-- Pages ACTIVE at some instant of the running microsecond of device time (R129). -/
  activeSeen : List Nat := []
  /-- Tick of the latest access to the DRAM (R127). -/
  dramAt   : Option Nat := none
  /-- Tick at which the boot ROM started on the flash, while it reads or verifies (R110, R112). -/
  romAt    : Option Nat := some 0
  /-- Size in bytes by the density in the flash's JESD216 table; none: the flash gives no valid table (R671). -/
  flashSize : Option Nat := none
  /-- Tick of the latest rising edge of SYNC_OUT (R292). -/
  syncOutAt : Option Nat := none
  reset    : ResetCtl := {}
  supplies : Supplies := {}
  clocks   : Clocks := {}
  loader   : Loader := {}
  fuses    : Fuses := {}
  /-- The BOOTSEL balls, sampled at MGT release (R108). -/
  bootsel  : Nat := 0
  engines  : Vector Engine 12 := Vector.replicate 12 {}
  groups   : Vector Group 12 := Vector.replicate 12 {}
  /-- Levels of TRIP0 to TRIP11 and TRIP_ALL after their filters, active (R307). -/
  tripIn   : BitVec 13 := 0
  lanes    : Vector Lane 12 := Vector.replicate 12 {}
  conv     : Vector Converter 24 := Vector.replicate 24 {}
  acc      : Vector AcqUnit 128 := Vector.replicate 128 {}
  mmx      : Vector AcqUnit 64 := Vector.replicate 64 {}
  trims    : Vector TrimPair 12 := Vector.replicate 12 {}
  cmps     : Vector CompRaw 64 := Vector.replicate 64 {}
  cal      : Option CalStep := none
  acq      : AcqSys := {}
  pos      : Vector PosUnit 8 := Vector.replicate 8 {}
  mc       : Vector McUnit 12 := Vector.replicate 12 {}
  triad    : Triad := {}
  sloe     : Sloe := {}
  can      : Vector CanCtl 4 := Vector.replicate 4 {}
  crcs     : Vector CrcRun 4 := Vector.replicate 4 {}
  capture  : Capture := {}
  mgmt     : Mgmt := {}
  host     : HostPort := {}
  net      : Network := {}
  canopen  : CanOpen := {}
  /-- Levels of the GPIO balls after their filters, and the PAD and GPIO registers that apply while the pads are held (R664). -/
  gpioIn   : BitVec 32 := 0
  padHeld  : List (Nat × Word) := []
  deriving DecidableEq, Repr

/-- The block: the device, and the commands that wait for it, first in, first out. -/
structure State where
  dev     : Dev := {}
  pending : List Instr := []
  deriving DecidableEq, Repr

/-- Reasons a step can fault. There is none: every access that the device turns away is discarded and logged (R44, R79), and
every command leaves a next state, so this type has no constructor. -/
inductive Fault where
  deriving DecidableEq, Repr

/-- Reasons a step can be refused. -/
inductive Refusal where
  /-- Raised by an arm of `exec` for a command that has no meaning yet, with its mnemonic. Safe: the run stops. -/
  | notModelled (mnemonic : String)
  deriving DecidableEq, Repr

/-- The registers that the power-on episode leaves away from their cold reset values, by ascending key: SYS.BOOT at stage
MGT release is unlisted; RST.CAUSE, RST.CAUSE_HIST, CLK.QUAL and CLK.LOCK are as the end of the episode writes them, and
entering UNCONFIGURED has set CFG.EVT_RAW.ANNOUNCE (R157, R164). -/
def resetRegs : List (Nat × Word) :=
  [(Reg.RST_CAUSE, 0xB0000007), (Reg.RST_CAUSE_HIST, 7), (Reg.CLK_QUAL, 0x101FF), (Reg.CLK_LOCK, 0x3F), (Reg.CFG_EVT_RAW, 1)]

/-- The machine right after the power-on reset episode (R94, R98, R107): log entries 1 and 3 to 6 name what the spec does not state. -/
def State.reset : State := { dev := { regs := resetRegs, cyc := { regs := resetRegs } }, pending := [] }

end Sys2Proof.Machine
end

