-- ==== Sys2Proof/Machine/Ops.lean ====
section
/-!
DEFINITION. The named operations over the state: sparse stores, registers and their shadows, memory by address, events, access
errors, the access table, and the write of a register page under keys and permissions (spec/00, spec/01, spec/02).
-/

namespace Sys2Proof.Machine

/-! ### Sparse stores in canonical form -/

/-- The value at a key: the listed one, else the default. -/
def lookup {α : Type} (dflt : Nat → α) (k : Nat) : List (Nat × α) → α
  | [] => dflt k
  | (a, v) :: rest => if a = k then v else lookup dflt k rest

/-- A value put at a key below the first greater key. -/
def insertKey {α : Type} (k : Nat) (v : α) : List (Nat × α) → List (Nat × α)
  | [] => [(k, v)]
  | (a, w) :: rest => if a < k then (a, w) :: insertKey k v rest else (k, v) :: (a, w) :: rest

/-- A value written at a key: kept in rising order of keys; a value equal to the default is not listed. -/
def store {α : Type} [DecidableEq α] (dflt : Nat → α) (k : Nat) (v : α) (l : List (Nat × α)) : List (Nat × α) :=
  let l := l.filter (fun e => e.1 != k)
  if v = dflt k then l else insertKey k v l

/-- Every key lies at or above a bound and they rise strictly; no entry equals the default. -/
def canonicalAbove {α : Type} [DecidableEq α] (dflt : Nat → α) : Nat → List (Nat × α) → Bool
  | _, [] => true
  | b, (a, v) :: rest => decide (b ≤ a) && decide (v ≠ dflt a) && canonicalAbove dflt (a + 1) rest

/-- The canonical form of a sparse store. -/
def canonical {α : Type} [DecidableEq α] (dflt : Nat → α) (l : List (Nat × α)) : Bool := canonicalAbove dflt 0 l

/-- A vector with the element at a number replaced, if there is one. -/
def vset {α : Type} {n : Nat} (v : Vector α n) (i : Nat) (x : α) : Vector α n := v.setIfInBounds i x

/-- The element of a vector at a number, with a default. -/
def vget {α : Type} {n : Nat} (dflt : α) (v : Vector α n) (i : Nat) : α := (v[i]?).getD dflt

/-- A vector with the element at a number changed. -/
def vmod {α : Type} {n : Nat} (dflt : α) (v : Vector α n) (i : Nat) (f : α → α) : Vector α n := vset v i (f (vget dflt v i))

/-- A fold of an update over a list. -/
def each {α σ : Type} (l : List α) (f : α → σ → σ) (s : σ) : σ := l.foldl (fun s a => f a s) s

/-! ### Registers -/

/-- The register at a key. -/
def Dev.reg (d : Dev) (k : Nat) : Word := lookup resetWord k d.regs

/-- The device with the register at a key replaced. -/
def Dev.setReg (k : Nat) (v : Word) (d : Dev) : Dev := { d with regs := store resetWord k v d.regs }

/-- The shadow of the register at a key (R64, R65). -/
def Dev.sh (d : Dev) (k : Nat) : Word := lookup resetWord k d.shadow

/-- The device with the shadow at a key replaced. -/
def Dev.setSh (k : Nat) (v : Word) (d : Dev) : Dev := { d with shadow := store resetWord k v d.shadow }

/-- The field [hi:lo] of the register at a key. -/
def Dev.fld (d : Dev) (k hi lo : Nat) : Nat := Machine.fld hi lo (d.reg k)

/-- The device with a field of a register replaced. -/
def Dev.setFld (k hi lo v : Nat) (d : Dev) : Dev := d.setReg k (put hi lo v (d.reg k))

/-- Bit `i` of the register at a key. -/
def Dev.bit (d : Dev) (k i : Nat) : Bool := bitAt i (d.reg k)

/-- The device with a bit of a register set or cleared. -/
def Dev.setBit (k i : Nat) (b : Bool) (d : Dev) : Dev := d.setReg k (Machine.setBit i b (d.reg k))

/-- The device with a counter field increased by `n`, saturating. -/
def Dev.addSat (k hi lo n : Nat) (d : Dev) : Dev :=
  d.setFld k hi lo (min (d.fld k hi lo + n) (2 ^ (hi - lo + 1) - 1))

/-- The device with a counter field increased by one, saturating. -/
def Dev.bumpSat (k hi lo : Nat) (d : Dev) : Dev := d.addSat k hi lo 1

/-- The device with a counter field increased by one, wrapping. -/
def Dev.bumpWrap (k hi lo : Nat) (d : Dev) : Dev := d.setFld k hi lo (d.fld k hi lo + 1)

/-- A change made where a condition holds. -/
def Dev.when (b : Bool) (f : Dev → Dev) (d : Dev) : Dev := if b then f d else d

/-- The next free value, and the device with the stream advanced. -/
def Dev.free (d : Dev) : Word × Dev := (Config.freeWord d.freeCount, { d with freeCount := d.freeCount + 1 })

/-- The stream of free values advanced past `n` of them. -/
def Dev.skipFree (n : Nat) (d : Dev) : Dev := { d with freeCount := d.freeCount + n }

/-! ### The FAB cycle (R20 to R22) -/

def Dev.putCyc (x : FabCycle) (d : Dev) : Dev := { d with cyc := x }

/-- A FAB cycle begins. -/
def Dev.newCycle (d : Dev) : Dev := Dev.putCyc { regs := d.regs } d

/-- Hardware sets bits of a register in the cycle (R20). -/
def Dev.noteSet (key : Nat) (m : Word) (d : Dev) : Dev :=
  Dev.putCyc { d.cyc with raised := store (fun _ => 0) key (lookup (fun _ => 0) key d.cyc.raised ||| m) d.cyc.raised } d

/-- The bits of a register that hardware has set in the cycle: those set since its start, and those set again. -/
def Dev.setInCycle (d : Dev) (key : Nat) : Word :=
  lookup (fun _ => 0) key d.cyc.raised ||| (d.reg key &&& ~~~ lookup resetWord key d.cyc.regs)

/-- CWR writes a word of an engine's coefficient store in the cycle (R226). -/
def Dev.noteCwr (e word : Nat) (d : Dev) : Dev := Dev.putCyc { d.cyc with cwr := (e, word) :: d.cyc.cwr } d

/-- Units of an engine swap in the cycle (R235). -/
def Dev.noteSwap (e units : Nat) (d : Dev) : Dev := Dev.putCyc { d.cyc with swaps := (e, units) :: d.cyc.swaps } d

/-- A commit transfers a page in the cycle (R22). -/
def Dev.noteCommit (page : Nat) (d : Dev) : Dev := Dev.putCyc { d.cyc with commits := page :: d.cyc.commits } d

/-- Capture freezes in the cycle (R612). -/
def Dev.noteFreeze (d : Dev) : Dev := Dev.putCyc { d.cyc with froze := true } d

/-- Bits of a page's EVT_RAW set by their source (R71). -/
def Dev.raiseMask (page : Nat) (m : Word) (d : Dev) : Dev :=
  (d.setReg (Reg.evtRaw page) (d.reg (Reg.evtRaw page) ||| m)).noteSet (Reg.evtRaw page) m

/-- Bit `i` of a page's EVT_RAW set. -/
def Dev.raise (page i : Nat) (d : Dev) : Dev := d.raiseMask page (bitMask i)

/-- Pending events of a page (R58). -/
def Dev.pend (d : Dev) (page : Nat) : Word := d.reg (Reg.evtRaw page) &&& d.reg (Reg.evtEn page)

/-- A role change: GEN steps and wraps from 0xFFFF to 1 (R58). -/
def Dev.bumpGen (page : Nat) (d : Dev) : Dev :=
  let g := d.fld (Reg.gen page) 15 0
  d.setFld (Reg.gen page) 15 0 (if g = 0xFFFF then 1 else g + 1)

/-! ### One field of the device replaced -/

def Dev.putDevTime (x : Nat) (d : Dev) : Dev := { d with devTime := x }
def Dev.putRateAcc (x : Int) (d : Dev) : Dev := { d with rateAcc := x }
def Dev.putReadData (x : Word) (d : Dev) : Dev := { d with readData := x }
def Dev.putTimeHi (x : List (Master × Word)) (d : Dev) : Dev := { d with timeHi := x }
def Dev.putActiveSeen (x : List Nat) (d : Dev) : Dev := { d with activeSeen := x }
def Dev.putDramAt (x : Option Nat) (d : Dev) : Dev := { d with dramAt := x }
def Dev.putRomAt (x : Option Nat) (d : Dev) : Dev := { d with romAt := x }
def Dev.putSyncOutAt (x : Option Nat) (d : Dev) : Dev := { d with syncOutAt := x }
def Dev.putReset (x : ResetCtl) (d : Dev) : Dev := { d with reset := x }
def Dev.putSupplies (x : Supplies) (d : Dev) : Dev := { d with supplies := x }
def Dev.putClocks (x : Clocks) (d : Dev) : Dev := { d with clocks := x }
def Dev.putLoader (x : Loader) (d : Dev) : Dev := { d with loader := x }
def Dev.putTripIn (x : BitVec 13) (d : Dev) : Dev := { d with tripIn := x }
def Dev.putLanes (x : Vector Lane 12) (d : Dev) : Dev := { d with lanes := x }
def Dev.putConv (x : Vector Converter 24) (d : Dev) : Dev := { d with conv := x }
def Dev.putAcc (x : Vector AcqUnit 128) (d : Dev) : Dev := { d with acc := x }
def Dev.putMmx (x : Vector AcqUnit 64) (d : Dev) : Dev := { d with mmx := x }
def Dev.putTrims (x : Vector TrimPair 12) (d : Dev) : Dev := { d with trims := x }
def Dev.putCmps (x : Vector CompRaw 64) (d : Dev) : Dev := { d with cmps := x }
def Dev.putCal (x : Option CalStep) (d : Dev) : Dev := { d with cal := x }
def Dev.modAcq (f : AcqSys → AcqSys) (d : Dev) : Dev := { d with acq := f d.acq }
def Dev.putTriad (x : Triad) (d : Dev) : Dev := { d with triad := x }
def Dev.putCapture (x : Capture) (d : Dev) : Dev := { d with capture := x }
def Dev.modCrc (n : Nat) (f : CrcRun → CrcRun) (d : Dev) : Dev := { d with crcs := vmod {} d.crcs n f }
def Dev.putMgmt (x : Mgmt) (d : Dev) : Dev := { d with mgmt := x }
def Dev.putHost (x : HostPort) (d : Dev) : Dev := { d with host := x }
def Dev.putNet (x : Network) (d : Dev) : Dev := { d with net := x }
def Dev.putCanopen (x : CanOpen) (d : Dev) : Dev := { d with canopen := x }
def Dev.putGpioIn (x : BitVec 32) (d : Dev) : Dev := { d with gpioIn := x }
def Dev.putPadHeld (x : List (Nat × Word)) (d : Dev) : Dev := { d with padHeld := x }

/-- The DRAM is accessed (R127). -/
def Dev.touchDram (d : Dev) : Dev := Dev.putDramAt (some d.now) d

/-- The memory at an address is accessed. -/
def Dev.touchAt (a : Nat) (d : Dev) : Dev := if 0x80000000 ≤ a then d.touchDram else d

/-! ### Parts of the state by number -/

def Dev.engine (d : Dev) (e : Nat) : Engine := vget {} d.engines e
def Dev.modEngine (e : Nat) (f : Engine → Engine) (d : Dev) : Dev := { d with engines := vmod {} d.engines e f }
def Dev.group (d : Dev) (g : Nat) : Group := vget {} d.groups g
def Dev.modGroup (g : Nat) (f : Group → Group) (d : Dev) : Dev := { d with groups := vmod {} d.groups g f }
def Dev.lane (d : Dev) (n : Nat) : Lane := vget {} d.lanes n
def Dev.modLane (n : Nat) (f : Lane → Lane) (d : Dev) : Dev := { d with lanes := vmod {} d.lanes n f }
def Dev.mcu (d : Dev) (n : Nat) : McUnit := vget {} d.mc n
def Dev.modMc (n : Nat) (f : McUnit → McUnit) (d : Dev) : Dev := { d with mc := vmod {} d.mc n f }
def Dev.pf (d : Dev) (n : Nat) : PosUnit := vget {} d.pos n
def Dev.modPf (n : Nat) (f : PosUnit → PosUnit) (d : Dev) : Dev := { d with pos := vmod {} d.pos n f }
def Dev.ctl (d : Dev) (n : Nat) : CanCtl := vget {} d.can n
def Dev.modCtl (n : Nat) (f : CanCtl → CanCtl) (d : Dev) : Dev := { d with can := vmod {} d.can n f }
def Dev.modSloe (f : Sloe → Sloe) (d : Dev) : Dev := { d with sloe := f d.sloe }
def Dev.modTriad (f : Triad → Triad) (d : Dev) : Dev := { d with triad := f d.triad }

/-- The twelve numbers of engines, groups, lanes and machine-control units. -/
def twelve : List Nat := List.range 12

/-! ### States that many rules ask for -/

/-- PGg.STAT.GSTATE: 0 OFF, 1 STARTING, 2 RUN, 3 STOPPING, 4 TRIPPED (R301). -/
def Dev.gstate (d : Dev) (g : Nat) : Nat := d.fld (Reg.PG_STAT g) 2 0

/-- The device is OFF: every group is OFF (R63). -/
def Dev.deviceOff (d : Dev) : Bool := twelve.all (fun g => d.gstate g == 0)

/-- CFG.STATE.CSTATE: 0 UNCONFIGURED, 1 LOADED, 2 SEALED, 3 ARMED, 4 SAFE (R166). -/
def Dev.cstate (d : Dev) : Nat := d.fld Reg.CFG_STATE 2 0

/-- A commit is in progress (R64). -/
def Dev.commitBusy (d : Dev) : Bool := d.bit Reg.CFG_STATE 4

/-- LEe.STAT.ESTATE: 0 HALTED, 1 INIT, 2 IDLE, 3 FRAME, 4 STOPPING, 5 FAULT (R219). -/
def Dev.estate (d : Dev) (e : Nat) : Nat := d.fld (Reg.LE_STAT e) 2 0

/-- The groups engine `e` owns (R207). -/
def Dev.owned (d : Dev) (e : Nat) : Nat := d.fld (Reg.LE_OWN_EFF e) 11 0

/-- The engine that owns a group, if any. -/
def Dev.ownerOf (d : Dev) (g : Nat) : Option Nat := twelve.find? (fun e => natBit g (d.owned e))

/-- The triad cores are held in reset (R492). -/
def Dev.triadHeld (d : Dev) : Bool := !d.triad.released

/-! ### Masters, holds and access errors -/

/-- The codes of SYS.AERR_INFO.MASTER (R78). -/
def masterCode : Master → Nat
  | .le n => n.val
  | .triad => 0x10
  | .medlar => 0x20
  | .host => 0x21
  | .loader => 0x23
  | .crc n => 0x24 + n.val
  | .jtag => 0x30

/-- The FAB cycle in which a write of a master lands: the cycle in progress where `same` says so and no master of a higher code has
written in it (in one cycle writes take effect in ascending order of master code, R599, R666: a write that comes after one of a
higher code belongs to a later cycle); else a new one. -/
def Dev.enterCycle (m : Master) (same : Bool) (d : Dev) : Dev :=
  let d := if same && decide (d.cyc.master ≤ masterCode m) then d else d.newCycle
  Dev.putCyc { d.cyc with master := masterCode m } d

/-- A page is held in reset (R79 to R82). -/
def Dev.pageHeld (d : Dev) (page : Nat) : Bool :=
  d.reset.held.contains page || d.reset.blockHeld.contains page || d.reset.deferred.contains page

/-- The SYS record of access errors (R78). -/
def Dev.logAccess (m : Master) (addr : Nat) (write : Bool) (d : Dev) : Dev :=
  let d := if d.bit Reg.SYS_AERR_INFO 31 then d
    else (d.setReg Reg.SYS_AERR_ADDR (word addr)).setReg Reg.SYS_AERR_INFO
      (bitMask 31 ||| place 15 8 (masterCode m) ||| place 0 0 (b2n write))
  d.bumpSat Reg.SYS_AERR_CNT 15 0

/-- An access that a page refuses: its ACCESS_ERR and the SYS record (R79). -/
def Dev.refuse (m : Master) (page addr : Nat) (write : Bool) (d : Dev) : Dev :=
  (d.raise page 31).logAccess m addr write

/-- An access to an unmapped address or to a page held in reset: SYS alone (R44, R79). -/
def Dev.refuseSys (m : Master) (addr : Nat) (write : Bool) (d : Dev) : Dev :=
  (d.raise 0 31).logAccess m addr write

/-- Address of the register at a key (R54). -/
def keyAddr (key : Nat) : Nat := 0x40000000 + key

/-- A write that a page discards with ACCESS_ERR. -/
def Dev.discard (m : Master) (key : Nat) (d : Dev) : Dev := d.refuse m (key / 0x1000) (keyAddr key) true

/-! ### The access table (R43, R77) -/

/-- The group that a PG, FL or MC page serves. -/
def pageGroup (page : Nat) : Option Nat :=
  if 0x20 ≤ page ∧ page ≤ 0x2B then some (page - 0x20)
  else if 0x30 ≤ page ∧ page ≤ 0x3B then some (page - 0x30)
  else if 0x70 ≤ page ∧ page ≤ 0x7B then some (page - 0x70)
  else none

/-- A frame of engine `e` runs (R205): FRAME, or STOPPING entered from it. -/
def Dev.inFrame (d : Dev) (e : Nat) : Bool := (d.estate e == 3 || d.estate e == 4) && !(d.engine e).inInit

/-- The groups whose pages engine `e` may access: for a whole frame those it owned at the frame start (R200). -/
def Dev.rights (d : Dev) (e : Nat) : Nat := if d.inFrame e then (d.engine e).ownFrame.toNat else d.owned e

/-- The page is LEe, or a PG, FL or MC page of a group that engine `e` owns. -/
def Dev.enginePage (d : Dev) (e page : Nat) : Bool :=
  page == 0x10 + e ||
    match pageGroup page with
    | some g => natBit g (d.rights e)
    | none => false

/-- A page whose EVT_ROUTE names engine `e` (R77). -/
def Dev.routesEngine (d : Dev) (e page : Nat) : Bool :=
  d.bit (Reg.evtRoute page) 4 && d.fld (Reg.evtRoute page) 11 8 == e

/-- The access table for a write to offset `off` of a page. -/
def Dev.mayWrite (d : Dev) (m : Master) (page off : Nat) : Bool :=
  match m with
  | .medlar | .host | .loader => true
  | .le n => d.enginePage n.val page || (off == 0x00C && d.routesEngine n.val page)
  | .triad => page == 0x90 || page == 0x91 || page == 0x92 || page == 4 || (off == 0x00C && d.bit (Reg.evtRoute page) 2)
  | .crc _ | .jtag => false

/-- The access table for a read of offset `off` of a page. -/
def Dev.mayRead (d : Dev) (m : Master) (page off : Nat) : Bool :=
  match m with
  | .medlar | .host | .loader | .triad => true
  | .le n => d.enginePage n.val page || off < 0x40 || (0x59 ≤ page && page ≤ 0x5E) || (0x60 ≤ page && page ≤ 0x62) ||
      (0x68 ≤ page && page ≤ 0x6F)
  | .crc _ | .jtag => false

/-! ### Keys (R59 to R62, R668) -/

/-- A write to a key counts as a write to a keyed field (R668). -/
def keyedWrite (key : Nat) (v : Word) : Bool :=
  match regAt key with
  | some (_, _, r, _) => (r.keyed &&& r.rw != 0) || (r.keyed &&& r.rwc != 0) || (v.toNat &&& r.keyed != 0)
  | none => false

/-- KSTATE of a page: 0 locked, 1 first word accepted, 2 unlocked. -/
def Dev.kstate (d : Dev) (page : Nat) : Nat := d.fld (Reg.key page) 1 0

/-- KSTATE replaced. -/
def Dev.setKstate (page v : Nat) (d : Dev) : Dev := d.setReg (Reg.key page) (word v)

/-- A 32-bit write of `v` to the register at a key by a master: refused while the page is held (R81), where the access table
does not permit it (R44), and to a keyed field of a locked page (R61); else `op` acts, a keyed write consuming the unlock. -/
def Dev.accessWrite (m : Master) (key : Nat) (v : Word) (op : Dev → Dev) (d : Dev) : Dev :=
  let page := key / 0x1000
  if d.pageHeld page then d.refuseSys m (keyAddr key) true
  else if !d.mayWrite m page (key % 0x1000) then d.refuse m page (keyAddr key) true
  else if keyedWrite key v then
    (if d.kstate page = 2 then op (d.setKstate page 0) else d.refuse m page (keyAddr key) true)
  else op d

/-! ### Memory by address (R39 to R42) -/

/-- What stands at an address. -/
inductive Region where
  | rom | sram | leProg (n : Nat) | leData (n : Nat) | triad | page (p off : Nat) | dram | unmapped
  deriving DecidableEq, Repr

/-- The address map of R39; an unassigned page number is unmapped (R56). -/
def regionOf (a : Nat) : Region :=
  if a < 0x10000 then .rom
  else if 0x10000000 ≤ a ∧ a < 0x10200000 then .sram
  else if 0x18000000 ≤ a ∧ a < 0x18C00000 then
    (let o := (a - 0x18000000) % 0x100000
     let n := (a - 0x18000000) / 0x100000
     if o < 0x8000 then .leProg n else if o < 0x20000 then .leData n else .unmapped)
  else if 0x20000000 ≤ a ∧ a < 0x20040000 then .triad
  else if 0x40000000 ≤ a ∧ a < 0x40100000 then
    (let p := (a - 0x40000000) / 0x1000
     if (pageKind? p).isSome then .page p ((a - 0x40000000) % 0x1000) else .unmapped)
  else if 0x80000000 ≤ a ∧ a < 0x84000000 then .dram
  else .unmapped

/-- What an unlisted byte of SRAM reads as. -/
def zeroByte : Nat → Byte := fun _ => 0

/-- What an unlisted byte of DRAM reads as: 0 while its contents are guaranteed, free afterwards (R655). -/
def dramByte (epoch : Nat) : Nat → Byte := fun a => if epoch = 0 then 0 else Config.lostByte epoch a

/-- What an erased byte of flash reads as. -/
def erasedByte : Nat → Byte := fun _ => 0xFF

/-- The bitwise vote of three bytes. -/
def vote8 (a b c : Byte) : Byte := (a &&& b) ||| (b &&& c) ||| (a &&& c)

/-- The bitwise vote of three words (R493, R496). -/
def vote (a b c : Word) : Word := (a &&& b) ||| (b &&& c) ||| (a &&& c)

/-- A byte of triad TCM copy `c`. -/
def Dev.triadByte (d : Dev) (c a : Nat) : Byte := lookup zeroByte a (vget [] d.triadMem c)

/-- A byte of memory (not of the register pages); the triad TCM reads as the vote of its copies (R41). -/
def Dev.byteAt (d : Dev) (a : Nat) : Byte :=
  match regionOf a with
  | .rom => Config.bootRom a
  | .sram | .leProg _ | .leData _ => lookup zeroByte a d.mem
  | .triad => vote8 (d.triadByte 0 a) (d.triadByte 1 a) (d.triadByte 2 a)
  | .dram => lookup (dramByte d.dramEpoch) a d.dram
  | .page _ _ | .unmapped => 0

/-- A byte of memory written; nothing where no memory stands. -/
def Dev.setByte (a : Nat) (b : Byte) (d : Dev) : Dev :=
  match regionOf a with
  | .sram | .leProg _ | .leData _ => { d with mem := store zeroByte a b d.mem }
  | .triad => { d with triadMem := d.triadMem.map (store zeroByte a b) }
  | .dram => { d with dram := store (dramByte d.dramEpoch) a b d.dram }
  | .rom | .page _ _ | .unmapped => d

/-- The memories are in canonical form: SRAM with the engines' TCMs, the copies of the triad TCM, the DRAM and the flash. -/
def Memory.wf (d : Dev) : Bool :=
  canonical zeroByte d.mem && d.triadMem.toList.all (canonical zeroByte) && canonical (dramByte d.dramEpoch) d.dram &&
    canonical erasedByte d.flash

/-- Bytes from an address upward. -/
def Dev.bytesAt (d : Dev) (a n : Nat) : List Byte := (List.range n).map (fun i => d.byteAt (a + i))

/-- Bytes written from an address upward. -/
def Dev.setBytes : Nat → List Byte → Dev → Dev
  | _, [], d => d
  | a, b :: rest, d => Dev.setBytes (a + 1) rest (d.setByte a b)

/-- The word at an address of memory, least significant byte first. -/
def Dev.wordAt (d : Dev) (a : Nat) : Word := wordOfBytes (d.bytesAt a 4)

/-- Bytes of the flash. -/
def Dev.flashBytes (d : Dev) (a n : Nat) : List Byte := (List.range n).map (fun i => lookup erasedByte (a + i) d.flash)

/-- Bytes written to the flash. -/
def Dev.setFlash (a : Nat) (bs : List Byte) (d : Dev) : Dev :=
  { d with flash := (bs.zip (List.range bs.length)).foldl (fun l p => store erasedByte (a + p.2) p.1 l) d.flash }

/-- The service region of the DRAM under the partition in force (R608). -/
def Dev.serviceStart (d : Dev) : Nat :=
  let cap := d.fld Reg.DRAM_PART 7 0
  let log := d.fld Reg.DRAM_PART 15 8
  if cap < 1 ∨ log < 1 ∨ 64 < cap + log + 1 then 0x80000000 + 56 * 0x100000 else 0x80000000 + (cap + log) * 0x100000

/-- The access table for memory (R43). -/
def Dev.mayAccess (d : Dev) (m : Master) (write : Bool) (a : Nat) : Bool :=
  match regionOf a, m with
  | .unmapped, _ | _, .jtag => false
  | .page p off, _ => if write then d.mayWrite m p off else d.mayRead m p off
  | .rom, .triad | .rom, .medlar | .rom, .loader | .rom, .crc _ => !write
  | .rom, _ => false
  | .sram, .crc _ => !write
  | .sram, _ => true
  | .leProg n, .le k | .leData n, .le k => n == k.val
  | .leProg n, .medlar | .leData n, .medlar | .leProg n, .host | .leData n, .host
  | .leProg n, .loader | .leData n, .loader => d.estate n == 0
  | .leProg _, .triad | .leData _, .triad => !write
  | .leProg _, .crc _ | .leData _, .crc _ => false
  | .triad, .le _ => false
  | .triad, .triad => true
  | .triad, .medlar => !write || d.triadHeld
  | .triad, .loader => write && d.triadHeld
  | .triad, .host | .triad, .crc _ => !write
  | .dram, .medlar => true
  | .dram, .host => !write || d.serviceStart ≤ a
  | .dram, .crc _ => !write
  | .dram, .le _ | .dram, .triad | .dram, .loader => false

/-! ### Outcomes -/

/-- The next state with the device changed and the queue as it stands. -/
def State.onDev (s : State) (f : Dev → Dev) : Host.Outcome State Fault Refusal := .next { s with dev := f s.dev }

end Sys2Proof.Machine
end

