-- ==== Sys2Proof/Machine/Permit.lean ====
section
/-!
DEFINITION. What ties Sloe, the commit state and the triad together: the active copy of the safety configuration (R673), the
run permit (R536), the end of a session (R544), a change of commit state (R157, R162, R164, R643), and the release of the triad
(R492).
-/

namespace Sys2Proof.Machine

/-- A register of the active copy of the safety configuration (R673). -/
def Dev.act (d : Dev) (k : Nat) : Word := lookup resetWord k d.sloe.active

/-- A field of the active copy. -/
def Dev.actFld (d : Dev) (k hi lo : Nat) : Nat := Machine.fld hi lo (d.act k)

/-- Medlar runs its firmware: SYS.BOOT.STAGE is FIRMWARE and its page is not held (R110, R111). -/
def Dev.medlarUp (d : Dev) : Bool := d.fld Reg.SYS_BOOT 3 0 == 4 && !d.pageHeld 0x98 && !d.mgmt.halted

/-- A safety session is open. -/
def Dev.sessionOpen (d : Dev) : Bool := d.bit Reg.SAFE_STAT 8

/-- SLOE.STAT.STO_STATE: 0 OPEN, 1 TEST, 2 CLOSING, 3 CLOSED, 4 OPENING (R554). -/
def Dev.stoState (d : Dev) : Nat := d.fld Reg.SLOE_STAT 2 0

/-- The fault latches, and the demand latches (R554). -/
def Dev.faults (d : Dev) : Nat := d.fld Reg.SLOE_FAULT 7 0
def Dev.demands (d : Dev) : Nat := d.fld Reg.SLOE_DEMAND 10 0

/-- ACTION of function k: 0 STO, 1 SS1, 2 SLS_ONLY; 3 acts as 0 (R555). -/
def Dev.funcAction (d : Dev) (k : Nat) : Nat :=
  let a := d.actFld (Reg.SAFE_FUNC_A k) 27 26
  if a = 3 then 0 else a

/-- SS1 is in CONTROLLED mode (R525). -/
def Dev.ss1Controlled (d : Dev) : Bool := bitAt 31 (d.act Reg.SAFE_SS1_CFG)

/-- The demand latches whose action is SS1, as bits of SLOE.DEMAND: functions, SLS and the triad request (R534). -/
def Dev.ss1Latches (d : Dev) : Nat :=
  let f := (List.range 8).foldl (fun a k => if natBit k d.demands && d.funcAction k == 1 then a + 2 ^ k else a) 0
  let s := if natBit 8 d.demands && bitAt 30 (d.act Reg.SAFE_SLS_CFG) then 2 ^ 8 else 0
  let t := if natBit 10 d.demands && d.bit Reg.SLOE_TREQ 16 then 2 ^ 10 else 0
  f + s + t

/-- The run permit (R536): a demand latch is tolerated only where it is a CONTROLLED SS1 latch whose timer still runs. -/
def Dev.runPermit (d : Dev) : Bool :=
  let tolerated := if d.ss1Controlled && d.bit Reg.SLOE_STAT 19 then d.ss1Latches % 512 else 0
  d.bit Reg.SAFE_STAT 0 && !d.sessionOpen && d.stoState == 3 && d.faults == 0 && (d.demands &&& (2047 - tolerated)) == 0 &&
    d.bit Reg.SLOE_STAT 17 && d.sloe.permitOk

/-- The triad cores are released (R492, R162): GEN steps, the sync points count from 0. -/
def Dev.triadRelease (d : Dev) : Dev :=
  let d := d.bumpGen 0x90
  let d := (d.setBit Reg.TRIAD_CTRL 0 true).setFld Reg.TRIAD_STAT 1 0 1
  (d.setFld Reg.TRIAD_DIGEST_STAT 31 16 0).modTriad (fun t => { t with released := true, nextSync := d.now + 400000 })

/-- The EMCY frame of R643: error code 0xFF00, the error register of object 0x1001 (a free value), CSTATE and ERR. -/
def Dev.sendEmcy (d : Dev) : Dev :=
  if d.medlarUp && d.canopen.nmt != 4 then
    let (w, d) := d.free
    let frame : List Byte := [0x00, 0xFF, w.setWidth 8, BitVec.ofNat 8 d.cstate, BitVec.ofNat 8 (d.fld Reg.CFG_RESULT 23 16), 0, 0, 0]
    (Dev.putCanopen { d.canopen with emcy := frame } d)
  else d

/-- A change of commit state: STATE_CHANGE, ANNOUNCE except into ARMED (R164), an EMCY frame (R643), and the release of the
triad on entry to SEALED from LOADED where a TRIAD section was applied since it was last reset (R162). -/
def Dev.setCstate (v : Nat) (d : Dev) : Dev :=
  let old := d.cstate
  if old = v then d else
  let d := (d.setFld Reg.CFG_STATE 2 0 v).raise 3 1
  let d := Dev.putMgmt { d.mgmt with states := d.mgmt.states ++ [v] } d
  let d := d.when (v != 3) (Dev.raise 3 0)
  let d := d.sendEmcy
  d.when (old == 1 && v == 2 && d.loader.triadApplied && d.triadHeld) Dev.triadRelease

/-- The first accepted RWC write leaves UNCONFIGURED (R157). -/
def Dev.rwcAccepted (d : Dev) : Dev := d.when (d.cstate == 0) (Dev.setCstate 1)

/-- ARMED goes to SAFE (R157). -/
def Dev.enterSafe (d : Dev) : Dev := d.when (d.cstate == 3) (Dev.setCstate 4)

/-- SLOE.STAT.RUN_PERMIT follows R536; its changes raise events, and its loss leaves ARMED for SAFE (R157). -/
def Dev.permitUpdate (d : Dev) : Dev :=
  let new := d.runPermit
  let old := d.bit Reg.SLOE_STAT 16
  if new == old then d
  else if new then (d.setBit Reg.SLOE_STAT 16 true).raise 0x91 3
  else ((d.setBit Reg.SLOE_STAT 16 false).raise 0x91 4).enterSafe

/-- The triad cores are put into reset (R161, R492): no image of theirs counts as applied any more, and the permit watch is disarmed
without a fault (R537). -/
def Dev.triadHold (d : Dev) : Dev :=
  let d : Dev := (Dev.putLoader { d.loader with triadApplied := false } (Dev.putTriad {} d))
  let d := ((d.setBit Reg.TRIAD_CTRL 0 false).setFld Reg.TRIAD_STAT 1 0 0).setBit Reg.SLOE_STAT 17 false
  (d.modSloe (fun s => { s with permitOk := false })).permitUpdate

/-- The safety session closes (R544): its password change is dropped and its commit ends. -/
def Dev.closeSession (d : Dev) : Dev :=
  if d.sessionOpen then
    let d := ((d.setBit Reg.SAFE_STAT 8 false).setFld Reg.SAFE_STAT 10 9 0).raise 0x92 1
    (d.modSloe (fun s => { s with pwNew := none, crcRun := false })).permitUpdate
  else d

end Sys2Proof.Machine
end

