-- ==== Sys2Proof/Machine/Own.lean ====
section
/-!
DEFINITION. Ownership of groups (R208 to R211) and the bank swaps that do not wait for a reload (R230, R231).
-/

namespace Sys2Proof.Machine

/-! ### Bank swaps -/

/-- The pending swaps of engine `e` are carried out (R231, R233): the banks of every unit asked for change places. -/
def Dev.swapNow (e : Nat) (d : Dev) : Dev :=
  let req := d.reg (Reg.LE_BANK_REQ e)
  ((d.setReg (Reg.LE_BANK_ACT e) (d.reg (Reg.LE_BANK_ACT e) ^^^ req)).setReg (Reg.LE_BANK_REQ e) 0).noteSwap e req.toNat

/-- The groups whose sample events start frames of engine `e` (R192). -/
def Dev.triggers (d : Dev) (e : Nat) : Nat := d.fld (Reg.LE_TRIG e) 11 0 &&& d.owned e

/-- Pending swaps are carried out at once where no reload triggers the engine, or where it is HALTED or in FAULT (R231). -/
def Dev.swapIdle (e : Nat) (d : Dev) : Dev :=
  d.when (d.triggers e == 0 || d.estate e == 0 || d.estate e == 5) (Dev.swapNow e)

/-- A swap is requested for the units of a mask, bit 0 ignored (R230). -/
def Dev.requestSwap (e : Nat) (units : Word) (d : Dev) : Dev :=
  (d.setReg (Reg.LE_BANK_REQ e) (d.reg (Reg.LE_BANK_REQ e) ||| (units &&& 0x3FE))).swapIdle e

/-- The engine's watchdog counts: LIMIT is not 0, and ESTATE is INIT, IDLE, FRAME or STOPPING (R215). -/
def Dev.wdtRuns (d : Dev) (e : Nat) : Bool := d.fld (Reg.LE_WDT e) 15 0 != 0 && decide (1 ≤ d.estate e ∧ d.estate e ≤ 4)

/-! ### Owners -/

/-- Engine `e` names the group in its OWN. -/
def Dev.names (d : Dev) (e g : Nat) : Bool := d.bit (Reg.LE_OWN e) g

/-- The engines that name a group. -/
def Dev.namers (d : Dev) (g : Nat) : List Nat := twelve.filter (fun e => d.names e g)

/-- The engine that is to own a group: the one engine that names it (R209, R210). -/
def Dev.ownerWanted (d : Dev) (g : Nat) : Option Nat :=
  match d.namers g with
  | [e] => some e
  | _ => none

/-- The owner of a group under R209 and R210: a group that is not OFF keeps its owner. -/
def Dev.ownerNow (d : Dev) (g : Nat) : Option Nat := if d.gstate g = 0 then d.ownerWanted g else d.ownerOf g

/-- Groups as a mask. -/
def groupMask (p : Nat → Bool) : Nat := twelve.foldl (fun a g => if p g then a + 2 ^ g else a) 0

/-- Groups that engine `e` is to own and that still run under another owner (R209). -/
def Dev.ownPending (d : Dev) (e : Nat) : Bool :=
  twelve.any (fun g => d.gstate g != 0 && d.ownerWanted g == some e && d.ownerOf g != some e)

/-- A group that engine `e` names is named by another engine too (R210). -/
def Dev.ownConflict (d : Dev) (e : Nat) : Bool := twelve.any (fun g => d.names e g && 2 ≤ (d.namers g).length)

/-- Ownership follows OWN and the states of the groups (R209, R210); what changes is a role change (R211). -/
def Dev.resolveOwners (d : Dev) : Dev :=
  let owner := twelve.map d.ownerNow
  let changed := twelve.filter (fun g => nth none owner g != d.ownerOf g)
  let eff := fun e => groupMask (fun g => nth none owner g == some e)
  let moved := twelve.filter (fun e => eff e != d.owned e)
  let pend := twelve.map d.ownPending
  let conf := twelve.map d.ownConflict
  let d := each twelve (fun e d =>
    d.setReg (Reg.LE_OWN_EFF e) (word (eff e) ||| place 16 16 (b2n (nth false pend e)) ||| place 17 17 (b2n (nth false conf e)))) d
  let d := each moved (fun e d => (d.bumpGen (0x10 + e)).raise (0x10 + e) 8) d
  let d := each changed (fun g d => ((d.bumpGen (0x20 + g)).bumpGen (0x30 + g)).bumpGen (0x70 + g)) d
  each twelve Dev.swapIdle d

end Sys2Proof.Machine
end

