-- ==== Sys2Proof/Machine/Legs.lean ====
section
/-!
DEFINITION. Which command each switch takes (R302), turn-offs at once (R275), group states (R282), trip latches with their chain
and action (R304 to R313), and Sloe's hold of a group (R321). Shared by every command that stops, trips, holds or commutates.
-/

namespace Sys2Proof.Machine

/-- PGg.CTRL.OUT = 1: the group drives its lane (R297). -/
def Dev.laneGroup (d : Dev) (g : Nat) : Bool := d.bit (Reg.PG_CTRL g) 17

/-- Sloe holds the group's pins (R321). -/
def Dev.sloeHolds (d : Dev) (g : Nat) : Bool := natBit g d.sloe.hold.toNat

/-- Sloe's hold shows the ASC pattern on leg `k`: PATTERN ASC, the leg in its mask, and no STO (R321, R524). -/
def Dev.sloeAscLeg (d : Dev) (g k : Nat) : Bool :=
  !natBit g d.sloe.holdOff.toNat && bitAt 24 (d.act (Reg.SLOE_PSAFE g)) && natBit k (d.actFld (Reg.SLOE_PSAFE g) 19 16)

/-- The trip action applied: 0 none, 1 ALL_OFF, 2 ASC (R330). -/
def Dev.tripApplied (d : Dev) (g : Nat) : Nat := d.fld (Reg.PG_TRIP_ACT g) 17 16

/-- Leg `k` is an ASC leg of the trip action (R310). -/
def Dev.tripAscLeg (d : Dev) (g k : Nat) : Bool := natBit k (d.fld (Reg.PG_TRIP_CFG g) 19 16)

/-- The group's own commands are live: RUN, or STOPPING entered by STOP from RUN before its reload (R283). -/
def Dev.cmdsLive (d : Dev) (g : Nat) : Bool := d.gstate g == 2 || (d.gstate g == 3 && (d.group g).stopAtReload)

/-- Force mode of leg `k` in force: 0 NONE, 1 OFF, 2 HIGH, 3 LOW (R328). -/
def Dev.forceMode (d : Dev) (g k : Nat) : Nat := d.fld (Reg.PG_FORCE_ACT g) (2 * k + 1) (2 * k)

/-- Mask of leg `k`: 0 PWM, 1 FLOAT, 2 LOW, 3 HIGH, 0 while the mask path is off (R323, R324). -/
def Dev.maskOf (d : Dev) (g k : Nat) : Nat := if d.bit (Reg.PG_CMASK_CFG g) 0 then d.fld (Reg.PG_CMASK g) (2 * k + 1) (2 * k) else 0

/-- The leg of a group. -/
def Dev.leg (d : Dev) (g k : Nat) : Leg := vget {} (d.group g).legs k

/-- A leg changed. -/
def Dev.modLeg (g k : Nat) (f : Leg → Leg) (d : Dev) : Dev := d.modGroup g (fun x => { x with legs := vmod {} x.legs k f })

/-- The group's own command for a leg in a state, high and low side, from ranks 4 to 6 of R302: force, mask, then duty under
LEGMODE (R274). -/
def Dev.ownWant (d : Dev) (g k : Nat) (l : Leg) : Bool × Bool :=
  match d.forceMode g k with
  | 1 => (false, false)
  | 2 => (l.forced, false)
  | 3 => (false, l.forced)
  | _ =>
    match d.maskOf g k with
    | 1 => (false, false)
    | 2 => (false, true)
    | 3 => (true, false)
    | _ =>
      match d.fld (Reg.PG_LEGMODE g) (2 * k + 1) (2 * k) with
      | 0 => (l.duty, !l.duty)
      | 1 => (l.duty, false)
      | 2 => (false, l.duty)
      | _ => (false, false)

/-- The command of a leg from the first source of R302 that claims it. -/
def Dev.want (d : Dev) (g k : Nat) : Bool × Bool :=
  if d.sloeHolds g then (false, d.sloeAscLeg g k)
  else if d.tripApplied g = 2 then (false, d.tripAscLeg g k)
  else if d.tripApplied g = 1 then (false, false)
  else if d.cmdsLive g then d.ownWant g k (d.leg g k)
  else (false, false)

/-- Link-time units since the lane's time began, 32 to a tick (R335). -/
def Dev.ltime (d : Dev) (n : Nat) : Nat := (d.now - (d.lane n).since) * 32

/-- The signed offset SKEW of a leg, in link-time units (R299). -/
def Dev.skew (d : Dev) (g k : Nat) : Int := signedOf 12 (d.fld (Reg.PG_SKEW g k) 11 0)

/-- Command of a leg as frames code it: 0 OFF, 1 HIGH, 2 LOW (R339). -/
def legKind (h l : Bool) : Nat := if h then 1 else if l then 2 else 0

/-- Events in order of carrier instant (R347). -/
def insertEvent (e : LaneEvent) : List LaneEvent → List LaneEvent
  | [] => [e]
  | x :: rest => if x.carrier ≤ e.carrier then x :: insertEvent e rest else e :: x :: rest

/-- An instant of model time in link time, both in units (R335). -/
def Dev.linkInstant (d : Dev) (g : Nat) (u : Int) : Nat := (u - 32 * ((d.lane g).since : Int)).toNat

/-- The lane takes the events of its group (R345): it is READY, the group leaves on it, and GSTATE is not OFF. -/
def Dev.takesEvents (d : Dev) (g : Nat) : Bool := d.laneGroup g && d.fld (Reg.FL_STAT g) 2 0 == 4 && d.gstate g != 0

/-- The event of a change of a leg's own command on a lane group (R345), its carrier instant with SKEW; an event that has been sent
ahead of its instant has its change now. -/
def Dev.pushEdge (g k kind : Nat) (pin : Int) (d : Dev) : Dev :=
  let e : LaneEvent := { leg := k, kind := kind, carrier := d.linkInstant g pin }
  d.when (d.takesEvents g) (Dev.modLane g (fun l =>
    if l.ahead.contains e then { l with ahead := l.ahead.filter (fun x => x.leg != k || e.carrier < x.carrier) }
    else { l with events := insertEvent e l.events }))

/-- A change of a leg's switches added to its history. A change of the group's own commands is moved by SKEW (R299), and none comes
before the one before it; any other acts at its instant, and what was still to come after it does not occur. -/
def Leg.note (own : Bool) (skew : Int) (e : Nat × Bool × Bool) (x : Leg) : Leg :=
  let hist := if own then x.hist else x.hist.filter (fun p => p.pin ≤ (e.1 : Int))
  let pin : Int := if own then (e.1 : Int) + skew else (e.1 : Int)
  let pin := match hist with
    | p :: _ => max pin p.pin
    | [] => pin
  { x with hist := { at_ := e.1, pin := pin, h := e.2.1, l := e.2.2 } :: hist.take 31 }

/-- The switches of a leg driven at an instant; on a lane group a change that the group's own commands cause is an event. -/
def Dev.driveFrom (own : Bool) (g k : Nat) (h l : Bool) (at_ : Nat) (d : Dev) : Dev :=
  let o := d.leg g k
  if o.onH == h && o.onL == l then d else
  let off := (o.onH && !h) || (o.onL && !l)
  let o := ({ o with onH := h, onL := l, offAt := if off then some at_ else o.offAt }).note own (d.skew g k) (at_, h, l)
  let pin := match o.hist with
    | p :: _ => p.pin
    | [] => at_
  (d.modLeg g k (fun _ => o)).when own (Dev.pushEdge g k (legKind h l) pin)

/-- The group's own commands drive its switches: Sloe does not hold them and no trip action applies (R302). -/
def Dev.ownDrives (d : Dev) (g : Nat) : Bool := !d.sloeHolds g && d.tripApplied g == 0

/-- The switches of a leg driven by the source in force. -/
def Dev.driveAt (g k : Nat) (h l : Bool) (at_ : Nat) (d : Dev) : Dev := d.driveFrom (d.ownDrives g) g k h l at_

/-- The present instant in units of 1/32 tick. -/
def Dev.nowUnits (d : Dev) : Nat := 32 * d.now

/-- The dead time of a group in units of 1/32 tick (R276). -/
def Dev.deadTime (d : Dev) (g : Nat) : Nat := d.fld (Reg.PG_DT g) 15 0

/-- The switches of a leg that follows a command from an instant on (R275): every switch whose command is off turns off at once; a
switch whose command is on turns on at once only where both have been off for the dead time `dt`, and otherwise waits for its
expiry. -/
def Leg.follow (o : Leg) (dt at_ : Nat) (mayOn : Bool) (w : Bool × Bool) : Bool × Bool :=
  let h := o.onH && w.1
  let l := o.onL && w.2
  let off : Option Nat := if o.onH || o.onL then some at_ else o.offAt
  let ready := !h && !l && mayOn && (match off with
    | none => true
    | some t => decide (t + dt ≤ at_))
  (h || (ready && w.1), l || (ready && w.2))

/-- A leg follows its command at an instant. -/
def Dev.settleLegAt (g at_ k : Nat) (d : Dev) : Dev :=
  let r := (d.leg g k).follow (d.deadTime g) at_ (d.ownDrives g) (d.want g k)
  d.driveAt g k r.1 r.2 at_

/-- The four legs of a group follow their commands now. -/
def Dev.settle (g : Nat) (d : Dev) : Dev := each [0, 1, 2, 3] (Dev.settleLegAt g d.nowUnits) d

/-- Low sides of the ASC legs that are commanded on turn on at an instant, their high sides being off (R311, R321). -/
def Dev.ascOn (g at_ : Nat) (d : Dev) : Dev :=
  each [0, 1, 2, 3] (fun k d => d.when (d.want g k).2 (Dev.driveAt g k false true at_)) d

/-- The mask that MCn has posted lands in CMASK, counted where it differs, and the legs follow it (R323, R324, R459). -/
def Dev.mcMask (g : Nat) (d : Dev) : Dev :=
  if d.bit (Reg.PG_CMASK_CFG g) 0 then
    let m := (List.range 4).foldl (fun a k => a + vget 0 (d.mcu g).maskOut k * 4 ^ k) 0
    let d := d.when (d.fld (Reg.PG_CMASK g) 7 0 != m) (Dev.bumpSat (Reg.PG_CMASK_CNT g) 15 0)
    (d.setFld (Reg.PG_CMASK g) 7 0 m).settle g
  else d

/-- MCn works and commands legs: EN, and a MODE other than NONE (R454, R486). -/
def Dev.mcOn (d : Dev) (n : Nat) : Bool := d.bit (Reg.MC_CTRL n) 0 && d.fld (Reg.MC_CFG n) 1 0 != 0

/-- The filtered HI, and LO, of a comparator (R418). -/
def Dev.cmpHi (d : Dev) (j : Nat) : Bool := d.bit (if j < 32 then Reg.CMP_HI0 else Reg.CMP_HI1) (j % 32)
def Dev.cmpLo (d : Dev) (j : Nat) : Bool := d.bit (if j < 32 then Reg.CMP_LO0 else Reg.CMP_LO1) (j % 32)

/-- The brake leg of MCn follows its comparator while the group is in RUN (R465): the command is posted. -/
def Dev.brakeUpdate (n : Nat) (d : Dev) : Dev :=
  if d.mcOn n && d.bit (Reg.MC_LEGS n) 12 && d.gstate n == 2 then
    let on := d.cmpHi (d.fld (Reg.MC_CMPSEL n) 11 6)
    (d.modMc n (fun m => { m with maskOut := vset m.maskOut (d.fld (Reg.MC_LEGS n) 9 8) (if on then 3 else 1) })).setBit
      (Reg.MC_STAT n) 8 on
  else d

/-- The mask values that MCn commands on the legs that it names: motor legs, then the brake leg. -/
def Dev.mcLegs (d : Dev) (n : Nat) : List Nat :=
  [d.fld (Reg.MC_LEGS n) 1 0, d.fld (Reg.MC_LEGS n) 3 2, d.fld (Reg.MC_LEGS n) 5 4] ++
    (if d.bit (Reg.MC_LEGS n) 12 then [d.fld (Reg.MC_LEGS n) 9 8] else [])

/-- MSTATE changes (R458): STATE_CHANGE, and the BLOCK flag of R464 in blocked states. -/
def Dev.setMstate (n v : Nat) (d : Dev) : Dev :=
  let d := d.when (d.fld (Reg.MC_STAT n) 3 0 != v) (Dev.raise (0x70 + n) 0)
  let blocked := v == 0 || v == 1 || v == 5 || v == 7 || v == 8
  (d.setFld (Reg.MC_STAT n) 3 0 v).setBit (Reg.MC_OUT_FLAGS n) 1 blocked

/-- The group has left RUN: MCn commands every motor leg and the brake leg FLOAT and, unless it is in LOCKOUT, waits in IDLE
(R458, R459). -/
def Dev.mcLeaveRun (n : Nat) (d : Dev) : Dev :=
  if !d.mcOn n then d else
  let legs := d.mcLegs n
  let d := d.modMc n (fun m => { m with
    maskOut := legs.foldl (fun v k => vset v k 1) m.maskOut, starting := false, releasePend := false, released := false,
    row := 0, nextRow := none, steps := none, est := {}, pred := none })
  let d := d.setBit (Reg.MC_STAT n) 8 false
  let d := if d.fld (Reg.MC_STAT n) 3 0 = 8 then d
    else (d.setMstate n 0).setFld (Reg.MC_STAT n) 11 9 0
  d.mcMask n

/-- Force registers drop when the group leaves RUN (R329). -/
def Dev.forceDrop (g : Nat) (d : Dev) : Dev :=
  let d := d.when (d.fld (Reg.PG_FORCE_ACT g) 7 0 != 0) (Dev.raise (0x20 + g) 20)
  let d := (d.setReg (Reg.PG_FORCE_ACT g) 0).setReg (Reg.PG_FORCE_SH g) 0
  d.modGroup g (fun x => { x with
    forceNew := false, oneshot := false, sample := x.sample.map (fun s => { s with force := none }) })

/-- Capture freezes (R612). -/
def Dev.captureFreeze (d : Dev) : Dev :=
  let d := (Dev.putCapture { d.capture with postLeft := none } d)
  ((d.setBit Reg.DRAM_STAT 8 true).raise 0xA0 1).noteFreeze

/-- Capture is triggered (R612): the pointer and the event of the first trigger, and the records left until the freeze. A freeze of the
same FAB cycle stands. -/
def Dev.captureTrigger (d : Dev) : Dev :=
  let frozen := d.bit Reg.DRAM_STAT 8
  if d.fld Reg.DRAM_CAP_CTRL 1 0 = 2 ∧ (frozen = false ∨ d.cyc.froze = true) ∧ d.reg Reg.DRAM_CAP_TRIG_PTR = 0xFFFFFFFF then
    let d := (d.setReg Reg.DRAM_CAP_TRIG_PTR (d.reg Reg.DRAM_CAP_WPTR)).raise 0xA0 0
    let post := d.fld Reg.DRAM_CAP_POST 23 0
    if frozen then d
    else if post = 0 then d.captureFreeze
    else (Dev.putCapture { d.capture with postLeft := some post } d)
  else d

/-- GSTATE changes (R282): STATE_CHANGE, what leaving RUN and leaving OFF bring (R329, R459, R544), the session's end, and the
handover of a group that reaches OFF (R209). -/
def Dev.setGstate (g v : Nat) (d : Dev) : Dev :=
  let old := d.gstate g
  if old = v then d else
  let off := d.deviceOff
  let d := (d.setFld (Reg.PG_STAT g) 2 0 v).raise (0x20 + g) 7
  let d := d.when (old == 2) (fun d => (d.forceDrop g).mcLeaveRun g)
  let d := d.when (v == 2) (Dev.brakeUpdate g)
  let d := d.when (v == 0) Dev.resolveOwners
  d.when off Dev.closeSession

/-- The causes that cannot be disabled (R304). -/
def tripFixed (c : Nat) : Bool := c == 2 || c == 10 || c == 11 || c == 13 || c == 14

/-- The action a cause takes: 1 ALL_OFF, 2 ASC (R309). -/
def Dev.tripActionOf (d : Dev) (g c : Nat) : Nat :=
  if c = 13 then 2 else
  match d.fld (Reg.PG_TRIP_CFG g) 25 24 with
  | 1 => 2
  | 2 => if bitAt 24 (d.act (Reg.SLOE_PSAFE g)) then 2 else 1
  | _ => 1

/-- The trip latch of the group. -/
def Dev.latched (d : Dev) (g : Nat) : Bool := d.bit (Reg.PG_TRIP_STAT g) 31

/-- An action applied at a trip instant: an ASC in force stays, ALL_OFF escalates to ASC, whose dead time counts from the instant
from which it applies (R309, R311, R312, R318). -/
def Dev.applyAction (g a : Nat) (d : Dev) : Dev :=
  let cur := d.tripApplied g
  let d := d.when (cur != 2 && a == 2) (Dev.modGroup g (fun x => { x with ascAt := d.nowUnits }))
  let d := d.when (cur == 1 && a == 2) (Dev.raise (0x20 + g) 19)
  (d.setFld (Reg.PG_TRIP_ACT g) 17 16 (max cur a)).settle g

/-- The lane sends the trip symbol at once (R351): of the waiting events those before this instant are still sent, and so is an EDGE
frame that the symbol interrupts, where all its events are. -/
def Lane.tripNow (t : Nat) (ltick : Nat) (l : Lane) : Lane :=
  let before (es : List LaneEvent) : Bool := es.all (fun e => e.carrier < t)
  let cut := match l.inSlot, l.slotAt with
    | some f, some s => if ltick < s + 16 ∧ before f.2 = true then [f] else []
    | _, _ => []
  { l with
    tx := .trip, slotAt := some (ltick - ltick % 16), inSlot := .none, ahead := []
    events := l.events.filter (fun e => e.carrier < t), repeats := cut ++ l.repeats.filter (fun f => before f.2) }

/-- The lane of a group sends the trip symbol, where it is lit. -/
def Dev.laneTrip (g : Nat) (d : Dev) : Dev :=
  d.when (d.laneGroup g && d.fld (Reg.FL_STAT g) 2 0 != 0)
    (Dev.modLane g (fun l => l.tripNow (d.ltime g) (d.now - l.since)))

/-- One cause at one group, without its chain: whether it newly latched, and the device (R305, R309 to R313). -/
def Dev.tripOne (c g : Nat) (d : Dev) : Bool × Dev :=
  if !(tripFixed c || d.bit (Reg.PG_TRIP_EN g) c) then (false, d) else
  if d.latched g then
    if c = 15 then (false, d)
    else
      let d := d.setBit (Reg.PG_TRIP_STAT g) c true
      (false, d.when (d.tripApplied g == 1 && d.tripActionOf g c == 2) (Dev.applyAction g 2))
  else
    let d := d.setReg (Reg.PG_TRIP_STAT g) (bitMask 31 ||| place 27 24 c ||| bitMask c)
    let d := (d.raise (0x20 + g) 16).setReg (Reg.PG_TRIP_TIME g) (word d.devTime)
    let d := d.bumpSat (Reg.PG_TRIP_CNT g) 15 0
    let d := d.when (natBit g (d.fld Reg.DRAM_CAP_TRIG 11 0)) Dev.captureTrigger
    let d := d.modGroup g (fun x => { x with clearPending := false, stopAtReload := false, tripAt := d.nowUnits })
    if d.gstate g = 0 then (true, d)
    else (true, ((d.applyAction g (d.tripActionOf g c)).setGstate g 4).laneTrip g)

/-- A cause at a group with its chain: a new latch propagates with cause CHAIN to every group that names it (R306). -/
def Dev.tripChain : Nat → Nat → Nat → Dev → Dev
  | 0, _, _, d => d
  | fuel + 1, c, g, d =>
    let r := d.tripOne c g
    if r.1 then
      each (twelve.filter (fun h => h != g && natBit g (r.2.fld (Reg.PG_TRIP_CFG h) 11 0))) (Dev.tripChain fuel 15) r.2
    else r.2

/-- A cause trips a group (R305, R306). -/
def Dev.trip (c g : Nat) (d : Dev) : Dev := d.tripChain 13 c g

/-- Sloe holds a group at its pins (R321, R102): the pattern applies, and a lane group's lane sends the trip symbol. -/
def Dev.holdPins (g : Nat) (off : Bool) (d : Dev) : Dev :=
  let d := d.modSloe (fun s => { s with
    holdAt := if natBit g s.hold.toNat then s.holdAt else vset s.holdAt g d.now
    hold := s.hold ||| BitVec.ofNat 12 (2 ^ g)
    holdOff := if off then s.holdOff ||| BitVec.ofNat 12 (2 ^ g) else s.holdOff })
  (d.settle g).laneTrip g

/-- Sloe's hold of a group ends as it enters STARTING: every switch the pattern held on turns off, which is no change of the group's own
commands (R103, R321, R322, R345); events from before the hold, which Sloe's frames kept from the lane, are not sent (R355). -/
def Dev.holdEnd (g : Nat) (d : Dev) : Dev :=
  if d.sloeHolds g then
    let d := each [0, 1, 2, 3] (fun k d => d.driveFrom false g k false false d.nowUnits) d
    let d := d.modLane g (fun l => { l with events := [], repeats := [] })
    (d.modSloe (fun s => { s with
      hold := s.hold &&& ~~~ BitVec.ofNat 12 (2 ^ g), holdOff := s.holdOff &&& ~~~ BitVec.ofNat 12 (2 ^ g) })).settle g
  else d

end Sys2Proof.Machine
end

