-- ==== Sys2Proof/Machine/Capture.lean ====
section
/-!
DEFINITION. The capture path: records pushed into its FIFO and stored in the DRAM (R32, R202, R609 to R613).
-/

namespace Sys2Proof.Machine

/-- CAP_CTRL.MODE, 3 acting as 0 (R612). -/
def Dev.capMode (d : Dev) : Nat := let m := d.fld Reg.DRAM_CAP_CTRL 1 0; if m = 3 then 0 else m

/-- The DRAM controller takes records: READY and not held. -/
def Dev.dramReady (d : Dev) : Bool := d.fld Reg.DRAM_STAT 2 0 == 3 && !d.pageHeld 0xA0

/-- A capture record of 32 bytes (R610). -/
def captureRecord (time src gen tag seq : Nat) (a b c : Word) : List Byte :=
  let body := bytesOfNat 8 time ++ bytesOfNat 1 src ++ [0] ++ bytesOfNat 2 gen ++ bytesOfNat 2 tag ++ bytesOfNat 2 seq ++
    wordBytes a ++ wordBytes b ++ wordBytes c
  body ++ wordBytes (crc32c body)

/-- A record is pushed (R611): discarded uncounted while capture is OFF or frozen, discarded and counted where the FIFO is full or
the controller is not READY. -/
def Dev.pushCapture (r : List Byte) (d : Dev) : Dev :=
  if d.capMode = 0 ∨ d.bit Reg.DRAM_STAT 8 = true then d
  else if 256 ≤ d.capture.fifo.length ∨ d.dramReady = false then (d.bumpSat Reg.DRAM_CAP_DROP 31 0).raise 0xA0 2
  else (Dev.putCapture { d.capture with fifo := d.capture.fifo ++ [r] } d)

/-- RESTART (R612). -/
def Dev.captureRestart (d : Dev) : Dev :=
  let d := (Dev.putCapture { d.capture with postLeft := none } d)
  ((d.setReg Reg.DRAM_CAP_WPTR 0).setReg Reg.DRAM_CAP_TRIG_PTR 0xFFFFFFFF).setBit Reg.DRAM_STAT 8 false

/-- Sizes in MB of the capture and event-log regions in force (R608). -/
def Dev.partition (d : Dev) : Nat × Nat :=
  let cap := d.fld Reg.DRAM_PART 7 0
  let log := d.fld Reg.DRAM_PART 15 8
  if cap < 1 ∨ log < 1 ∨ 64 < cap + log + 1 then (48, 8) else (cap, log)

/-- CAPTURE_RECORD_WRITE (R611, R612): the oldest record of the FIFO is stored at CAP_WPTR, which wraps with the region; after a
trigger the records left until the freeze count down. -/
def execCaptureRecordWrite (s : State) : Host.Outcome State Fault Refusal :=
  s.onDev (fun d =>
    match d.capture.fifo with
    | [] => d
    | r :: rest =>
      let d' : Dev := (Dev.putCapture { d.capture with fifo := rest } d)
      if d.capMode = 0 ∨ d.bit Reg.DRAM_STAT 8 = true then d'
      else if d.dramReady = false then (d'.bumpSat Reg.DRAM_CAP_DROP 31 0).raise 0xA0 2
      else
        let ofs := d.fld Reg.DRAM_CAP_WPTR 25 0
        let size := d.partition.1 * 0x100000
        let d := d'.touchDram.setBytes (0x80000000 + ofs) r
        let d := d.setFld Reg.DRAM_CAP_WPTR 25 0 (if size ≤ ofs + 32 then 0 else ofs + 32)
        match d.capture.postLeft with
        | some n => if n ≤ 1 then d.captureFreeze else (Dev.putCapture { d.capture with postLeft := some (n - 1) } d)
        | none => d)

/-- A code written to CAP_CMD (R612, R625): 1 RESTART, 2 TRIGGER, 3 FREEZE. -/
def Dev.capCmdOp (code : Nat) (d : Dev) : Dev :=
  match code with
  | 1 => d.captureRestart
  | 2 => d.captureTrigger
  | 3 => d.captureFreeze
  | _ => d

/-- RESTART (R612). -/
def execRestart (m : Master) (s : State) : Host.Outcome State Fault Refusal :=
  s.onDev (fun d => d.accessWrite m Reg.DRAM_CAP_CMD 1 (Dev.capCmdOp 1))

/-- TRIGGER (R612). -/
def execTrigger (m : Master) (s : State) : Host.Outcome State Fault Refusal :=
  s.onDev (fun d => d.accessWrite m Reg.DRAM_CAP_CMD 2 (Dev.capCmdOp 2))

/-- FREEZE (R612). -/
def execFreeze (m : Master) (s : State) : Host.Outcome State Fault Refusal :=
  s.onDev (fun d => d.accessWrite m Reg.DRAM_CAP_CMD 3 (Dev.capCmdOp 3))

end Sys2Proof.Machine
end

