-- ==== Sys2Proof/Machine/Fp.lean ====
section
/-!
DEFINITION. binary32 arithmetic as the loop engines do it (R171, R172, R173): round to nearest even, subnormal operands and
results as signed zero, the canonical NaN, and the flags INV, DZ, OVF, UNF in the bit places of LEn.FPX (R219). Every finite
value is an exact dyadic number (sign, magnitude m * 2^e), so each operation computes exactly and rounds once.
-/

namespace Sys2Proof.Machine

/-- Flags of LEn.FPX: bit 0 INV, 1 DZ, 2 OVF, 3 UNF (R219). -/
abbrev FpFlags := BitVec 4

def FpFlags.none : FpFlags := 0
def FpFlags.inv : FpFlags := 1
def FpFlags.dz : FpFlags := 2
def FpFlags.ovf : FpFlags := 4
def FpFlags.unf : FpFlags := 8

/-- The result of an operation: a binary32 word and the flags it sets. -/
structure FpOut where
  val   : Word
  flags : FpFlags
  deriving DecidableEq, Repr

/-- A binary32 value as an operand is read (R171: a subnormal reads as zero of the same sign). A finite nonzero value is
`(-1)^neg * mant * 2^exp`. -/
inductive FpVal where
  | nan (signalling : Bool)
  | inf (neg : Bool)
  | zero (neg : Bool)
  | fin (neg : Bool) (mant : Nat) (exp : Int)
  deriving DecidableEq, Repr

/-- The canonical NaN (R171). -/
def canonicalNan : Word := 0x7FC00000

/-- Reading a word as binary32. -/
def fpRead (w : Word) : FpVal :=
  let neg := bitAt 31 w
  let e := fld 30 23 w
  let m := fld 22 0 w
  if e = 255 then (if m = 0 then .inf neg else .nan (!bitAt 22 w))
  else if e = 0 then .zero neg
  else .fin neg (m + 0x800000) ((e : Int) - 150)

def fpZero (neg : Bool) : Word := if neg then 0x80000000 else 0
def fpInf (neg : Bool) : Word := if neg then 0xFF800000 else 0x7F800000

/-- INV where a NaN operand is signalling (R171). -/
def nanFlag (s : Bool) : FpFlags := if s then .inv else .none

/-- Rounds the exact magnitude `m * 2^e` to 24 bits, nearest even, as if the exponent were unbounded, and then applies the
overflow and underflow rules of R171. -/
def fpRound (neg : Bool) (m : Nat) (e : Int) : FpOut :=
  if m = 0 then ⟨fpZero neg, .none⟩ else
  let l := Nat.log2 m
  let (q, x) : Nat × Int :=
    if l ≤ 23 then (m * 2 ^ (23 - l), e - ((23 - l : Nat) : Int))
    else
      let sh := l - 23
      let q := m / 2 ^ sh
      let r := m % 2 ^ sh
      let up := 2 * r > 2 ^ sh ∨ (2 * r = 2 ^ sh ∧ q % 2 = 1)
      let q' := if up then q + 1 else q
      if q' = 2 ^ 24 then (2 ^ 23, e + sh + 1) else (q', e + sh)
  let ex := x + 23
  if ex > 127 then ⟨fpInf neg, .ovf⟩
  else if ex < -126 then ⟨fpZero neg, .unf⟩
  else ⟨BitVec.ofNat 32 ((b2n neg) * 2 ^ 31 + (ex + 127).toNat * 2 ^ 23 + (q - 2 ^ 23)), .none⟩

/-- A signed dyadic number `i * 2^e`, rounded; an exact zero takes the sign given. -/
def fpRoundInt (zeroNeg : Bool) (i : Int) (e : Int) : FpOut :=
  if i = 0 then ⟨fpZero zeroNeg, .none⟩ else fpRound (i < 0) i.natAbs e

/-- The signed integer `±m * 2^k`. -/
def signedMant (neg : Bool) (m k : Nat) : Int := if neg then -((m * 2 ^ k : Nat) : Int) else ((m * 2 ^ k : Nat) : Int)

/-- The exact sum of two dyadic numbers, rounded once; an exact zero is +0 (round to nearest). -/
def dyadicAdd (na : Bool) (ma : Nat) (ea : Int) (nb : Bool) (mb : Nat) (eb : Int) : FpOut :=
  let e := min ea eb
  fpRoundInt false (signedMant na ma (ea - e).toNat + signedMant nb mb (eb - e).toNat) e

/-- x + y (R171). -/
def fpAddV (x y : FpVal) : FpOut :=
  match x, y with
  | .nan s, .nan t => ⟨canonicalNan, nanFlag (s || t)⟩
  | .nan s, _ => ⟨canonicalNan, nanFlag s⟩
  | _, .nan t => ⟨canonicalNan, nanFlag t⟩
  | .inf a, .inf b => if a = b then ⟨fpInf a, .none⟩ else ⟨canonicalNan, .inv⟩
  | .inf a, _ => ⟨fpInf a, .none⟩
  | _, .inf b => ⟨fpInf b, .none⟩
  | .zero a, .zero b => ⟨fpZero (a && b), .none⟩
  | .zero _, .fin n m e => fpRound n m e
  | .fin n m e, .zero _ => fpRound n m e
  | .fin na ma ea, .fin nb mb eb => dyadicAdd na ma ea nb mb eb

/-- The value with its sign inverted. -/
def fpNegV : FpVal → FpVal
  | .nan s => .nan s
  | .inf n => .inf (!n)
  | .zero n => .zero (!n)
  | .fin n m e => .fin (!n) m e

/-- The exact product of two values, before rounding; an invalid product is a signalling NaN. -/
def fpMulExact (x y : FpVal) : FpVal :=
  match x, y with
  | .nan s, .nan t => .nan (s || t)
  | .nan s, _ => .nan s
  | _, .nan t => .nan t
  | .inf _, .zero _ => .nan true
  | .zero _, .inf _ => .nan true
  | .inf a, .inf b => .inf (a != b)
  | .inf a, .fin b _ _ => .inf (a != b)
  | .fin a _ _, .inf b => .inf (a != b)
  | .zero a, .zero b => .zero (a != b)
  | .zero a, .fin b _ _ => .zero (a != b)
  | .fin a _ _, .zero b => .zero (a != b)
  | .fin a ma ea, .fin b mb eb => .fin (a != b) (ma * mb) (ea + eb)

/-- A value rounded to binary32. -/
def fpRoundV : FpVal → FpOut
  | .nan s => ⟨canonicalNan, nanFlag s⟩
  | .inf n => ⟨fpInf n, .none⟩
  | .zero n => ⟨fpZero n, .none⟩
  | .fin n m e => fpRound n m e

def fpAdd (a b : Word) : FpOut := fpAddV (fpRead a) (fpRead b)
def fpSub (a b : Word) : FpOut := fpAddV (fpRead a) (fpNegV (fpRead b))
def fpMul (a b : Word) : FpOut := fpRoundV (fpMulExact (fpRead a) (fpRead b))

/-- Whether any of the operands is a NaN, and whether any is signalling. -/
def nanOperands (l : List Word) : Bool × Bool :=
  l.foldl (fun acc w => match fpRead w with | .nan s => (true, acc.2 || s) | _ => acc) (false, false)

/-- a × b + c with one rounding (R171); a NaN operand decides before an invalid product. -/
def fpFma (a b c : Word) : FpOut :=
  let (n, s) := nanOperands [a, b, c]
  if n then ⟨canonicalNan, nanFlag s⟩ else fpAddV (fpMulExact (fpRead a) (fpRead b)) (fpRead c)

/-- c − a × b with one rounding (R171). -/
def fpFms (a b c : Word) : FpOut :=
  let (n, s) := nanOperands [a, b, c]
  if n then ⟨canonicalNan, nanFlag s⟩ else fpAddV (fpNegV (fpMulExact (fpRead a) (fpRead b))) (fpRead c)

/-- a / b (R171, R178). -/
def fpDiv (a b : Word) : FpOut :=
  match fpRead a, fpRead b with
  | .nan s, .nan t => ⟨canonicalNan, nanFlag (s || t)⟩
  | .nan s, _ => ⟨canonicalNan, nanFlag s⟩
  | _, .nan t => ⟨canonicalNan, nanFlag t⟩
  | .inf _, .inf _ => ⟨canonicalNan, .inv⟩
  | .zero _, .zero _ => ⟨canonicalNan, .inv⟩
  | .inf x, .zero y => ⟨fpInf (x != y), .none⟩
  | .inf x, .fin y _ _ => ⟨fpInf (x != y), .none⟩
  | .zero x, .inf y => ⟨fpZero (x != y), .none⟩
  | .zero x, .fin y _ _ => ⟨fpZero (x != y), .none⟩
  | .fin x _ _, .inf y => ⟨fpZero (x != y), .none⟩
  | .fin x _ _, .zero y => ⟨fpInf (x != y), .dz⟩
  | .fin x ma ea, .fin y mb eb =>
    let n := ma * 2 ^ 50
    let q := n / mb
    fpRound (x != y) (q * 2 + b2n (n % mb ≠ 0)) (ea - eb - 51)

/-- Integer square root by bits, from bit `k - 1` down. -/
def isqrtBits : Nat → Nat → Nat → Nat
  | 0, _, acc => acc
  | k + 1, n, acc =>
    let t := acc + 2 ^ k
    if t * t ≤ n then isqrtBits k n t else isqrtBits k n acc

/-- The square root of the exact magnitude `m * 2^e`, rounded once. -/
def dyadicSqrt (m : Nat) (e : Int) : FpOut :=
  -- scale so that the exponent is even and the root has at least 26 bits
  let sh : Nat := 120 - Nat.log2 m % 2
  let k : Nat := if (e - sh) % 2 = 0 then sh else sh + 1
  let n := m * 2 ^ k
  let r := isqrtBits (Nat.log2 n / 2 + 1) n 0
  fpRound false (r * 2 + b2n (r * r ≠ n)) ((e - k) / 2 - 1)

/-- √a (R171, R178); the root of −0 is −0 and the root of a negative number is invalid. -/
def fpSqrt (a : Word) : FpOut :=
  match fpRead a with
  | .nan s => ⟨canonicalNan, nanFlag s⟩
  | .zero n => ⟨fpZero n, .none⟩
  | .inf true => ⟨canonicalNan, .inv⟩
  | .inf false => ⟨fpInf false, .none⟩
  | .fin true _ _ => ⟨canonicalNan, .inv⟩
  | .fin false m e => dyadicSqrt m e

/-- √(a² + b²), rounded once (the second result of ATAN2, R177). -/
def fpHypot (a b : Word) : FpOut :=
  match fpRead a, fpRead b with
  | .nan s, .nan t => ⟨canonicalNan, nanFlag (s || t)⟩
  | .nan s, _ => ⟨canonicalNan, nanFlag s⟩
  | _, .nan t => ⟨canonicalNan, nanFlag t⟩
  | .inf _, _ => ⟨fpInf false, .none⟩
  | _, .inf _ => ⟨fpInf false, .none⟩
  | .zero _, .zero _ => ⟨fpZero false, .none⟩
  | .zero _, .fin _ m e => fpRound false m e
  | .fin _ m e, .zero _ => fpRound false m e
  | .fin _ ma ea, .fin _ mb eb =>
    let e := min (2 * ea) (2 * eb)
    dyadicSqrt (ma * ma * 2 ^ (2 * ea - e).toNat + mb * mb * 2 ^ (2 * eb - e).toNat) e

/-- Order of two values that are not NaN, −0 equal to +0. -/
def fpLtV (x y : FpVal) : Bool :=
  match x, y with
  | .nan _, _ => false
  | _, .nan _ => false
  | .inf true, .inf true => false
  | .inf true, _ => true
  | _, .inf true => false
  | .inf false, _ => false
  | _, .inf false => true
  | .zero _, .zero _ => false
  | .zero _, .fin n _ _ => !n
  | .fin n _ _, .zero _ => n
  | .fin na ma ea, .fin nb mb eb =>
    let e := min ea eb
    decide (signedMant na ma (ea - e).toNat < signedMant nb mb (eb - e).toNat)

/-- Equality of two values that are not NaN, −0 equal to +0 (R172). -/
def fpEqV (x y : FpVal) : Bool :=
  match x, y with
  | .nan _, _ => false
  | _, .nan _ => false
  | .zero _, .zero _ => true
  | x, y => !fpLtV x y && !fpLtV y x

def fpLt (a b : Word) : Bool := fpLtV (fpRead a) (fpRead b)
def fpLe (a b : Word) : Bool := fpLtV (fpRead a) (fpRead b) || fpEqV (fpRead a) (fpRead b)
def fpGe (a b : Word) : Bool := fpLe b a
def fpGt (a b : Word) : Bool := fpLt b a
def fpEq (a b : Word) : Bool := fpEqV (fpRead a) (fpRead b)
def fpIsNan (a : Word) : Bool := match fpRead a with | .nan _ => true | _ => false
def fpIsInf (a : Word) : Bool := match fpRead a with | .inf _ => true | _ => false

/-- The sign of a value. -/
def fpSignV : FpVal → Bool
  | .nan _ => false
  | .inf n => n
  | .zero n => n
  | .fin n _ _ => n

/-- Order with −0 below +0, for FMIN and FMAX (R172). -/
def fpMinLt (x y : FpVal) : Bool := fpLtV x y || (fpEqV x y && fpSignV x && !fpSignV y)

/-- An operand as it is read, back as a word: subnormals as signed zero, NaN as the canonical NaN. -/
def fpFlush (w : Word) : Word := match fpRead w with | .nan _ => canonicalNan | .zero n => fpZero n | _ => w

/-- FMIN (R172). -/
def fpMin (a b : Word) : FpOut :=
  match fpRead a, fpRead b with
  | .nan s, .nan t => ⟨canonicalNan, nanFlag (s || t)⟩
  | .nan s, _ => ⟨fpFlush b, nanFlag s⟩
  | _, .nan t => ⟨fpFlush a, nanFlag t⟩
  | x, y => ⟨fpFlush (if fpMinLt y x then b else a), .none⟩

/-- FMAX (R172). -/
def fpMax (a b : Word) : FpOut :=
  match fpRead a, fpRead b with
  | .nan s, .nan t => ⟨canonicalNan, nanFlag (s || t)⟩
  | .nan s, _ => ⟨fpFlush b, nanFlag s⟩
  | _, .nan t => ⟨fpFlush a, nanFlag t⟩
  | x, y => ⟨fpFlush (if fpMinLt x y then b else a), .none⟩

/-- FABS and FNEG read their operand as binary32 (R171, R177). -/
def fpAbs (a : Word) : FpOut :=
  match fpRead a with
  | .nan s => ⟨canonicalNan, nanFlag s⟩
  | _ => ⟨fpFlush a &&& 0x7FFFFFFF, .none⟩

def fpNeg (a : Word) : FpOut :=
  match fpRead a with
  | .nan s => ⟨canonicalNan, nanFlag s⟩
  | _ => ⟨fpFlush a ^^^ 0x80000000, .none⟩

/-- Rounding of a dyadic magnitude to an integer. Modes of CVTFI: 0 nearest even, 1 toward zero, 2 floor, 3 ceiling (R177). -/
def dyadicToInt (mode : Nat) (neg : Bool) (m : Nat) (e : Int) : Int :=
  let (q, r, d) : Nat × Nat × Nat :=
    if 0 ≤ e then (m * 2 ^ e.toNat, 0, 1) else (m / 2 ^ (-e).toNat, m % 2 ^ (-e).toNat, 2 ^ (-e).toNat)
  let up : Bool :=
    match mode with
    | 0 => 2 * r > d || (2 * r = d && q % 2 = 1)
    | 1 => false
    | 2 => neg && r ≠ 0
    | _ => !neg && r ≠ 0
  let n := if up then q + 1 else q
  if neg then -(n : Int) else (n : Int)

/-- CVTFI (R173). -/
def fpToInt (mode : Nat) (a : Word) : FpOut :=
  match fpRead a with
  | .nan _ => ⟨0, .inv⟩
  | .inf true => ⟨0x80000000, .inv⟩
  | .inf false => ⟨0x7FFFFFFF, .inv⟩
  | .zero _ => ⟨0, .none⟩
  | .fin n m e =>
    let i := dyadicToInt mode n m e
    if i > 0x7FFFFFFF then ⟨0x7FFFFFFF, .inv⟩
    else if i < -0x80000000 then ⟨0x80000000, .inv⟩
    else ⟨BitVec.ofInt 32 i, .none⟩

/-- CVTIF: binary32 of an int32, nearest even (R177). -/
def fpOfInt (a : Word) : Word := (fpRoundInt false a.toInt 0).val

/-- binary32 of an integer, nearest even. -/
def fpOfIntZ (i : Int) : Word := (fpRoundInt false i 0).val

/-- binary32 of the quotient of two integers, nearest even. -/
def fpOfRatio (num : Int) (den : Nat) : Word :=
  if den = 0 then canonicalNan else
  let n := num.natAbs * 2 ^ 64
  let q := n / den
  if num = 0 then 0 else (fpRound (num < 0) (q * 2 + b2n (n % den ≠ 0)) (-65)).val

/-- The largest integer not above a finite value, for frac (R238); 0 for others. -/
def fpFloorInt (a : Word) : Int :=
  match fpRead a with
  | .fin n m e => dyadicToInt 2 n m e
  | _ => 0

/-- floor(x) as binary32. -/
def fpFloor (a : Word) : FpOut :=
  match fpRead a with
  | .nan s => ⟨canonicalNan, nanFlag s⟩
  | .fin n m e => if 0 ≤ e then ⟨a, .none⟩ else fpRoundInt false (dyadicToInt 2 n m e) 0
  | _ => ⟨fpFlush a, .none⟩

end Sys2Proof.Machine
end

