-- ==== Sys2Proof/Machine/Acq.lean ====
section
/-!
DEFINITION. Accumulators and trackers (spec/11): sources, windows, what a conversion adds, and the snapshot of a window.
-/

namespace Sys2Proof.Machine

/-! ### Converters (R369, R370, R372, R377) -/

/-- ACk.CTRL.EN. -/
def Dev.convEn (d : Dev) (c : Nat) : Bool := d.bit (Reg.AC_CTRL c) 0

/-- The pair AC2k, AC2k+1 interleaves (R372, R377). -/
def Dev.interleaving (d : Dev) (k : Nat) : Bool :=
  d.convEn (2 * k) && d.fld (Reg.AC_CFG (2 * k)) 1 0 == 2 && d.convEn (2 * k + 1)

/-- How a converter works: 0 triggered, 1 continuous, 2 in an interleaving pair (R372, R377). -/
def Dev.convMode (d : Dev) (c : Nat) : Nat :=
  if d.interleaving (c / 2) then 2
  else match d.fld (Reg.AC_CFG c) 1 0 with
    | 1 => 1
    | 2 => 1
    | _ => 0

/-- The converter whose configuration governs `c`: AC2k for both of an interleaving pair (R377). -/
def Dev.convLead (d : Dev) (c : Nat) : Nat := if d.interleaving (c / 2) then c - c % 2 else c

/-- The group of a converter, none for 12 to 15. -/
def Dev.convGroup (d : Dev) (c : Nat) : Option Nat :=
  let g := d.fld (Reg.AC_CFG (d.convLead c)) 11 8
  if g < 12 then some g else none

/-- The timebase of the converter's group runs (R378). -/
def Dev.convClocked (d : Dev) (c : Nat) : Bool :=
  match d.convGroup c with
  | some g => (d.group g).running
  | none => false

/-- Input `i` belongs to a differential pair (R369). -/
def Dev.diffInput (d : Dev) (i : Nat) : Bool := d.bit Reg.ADCSYS_DIFF (i / 2)

/-- The end codes of an input (R369). -/
def Dev.codeRange (d : Dev) (i : Nat) : Int × Int := if d.diffInput i then (-32768, 32767) else (0, 65535)

/-- A slot's input that the converter cannot reach (R370). -/
def Dev.muxError (d : Dev) (c i : Nat) : Bool := i / 32 != c / 12 || (d.diffInput i && i % 2 == 1)

/-- REF_RDY of a half. -/
def Dev.refReady (d : Dev) (h : Nat) : Bool := d.bit Reg.ADCSYS_STAT h

/-! ### Units and their sources (R380, R412) -/

/-- CFG of accumulator or tracker `m`. -/
def Dev.accCfg (d : Dev) (m : Nat) : Word := d.reg (Reg.ACC_CFG (m / 32) (m % 32))
def Dev.mmxCfg (d : Dev) (m : Nat) : Word := d.reg (Reg.MMX_CFG (m / 32) (m % 32))

/-- The unit works: its page and its own EN, and its page is not held. -/
def Dev.accOn (d : Dev) (m : Nat) : Bool := bitAt 31 (d.accCfg m) && d.bit (Reg.ACC_CTRL (m / 32)) 0 && !d.pageHeld (0x59 + m / 32)
def Dev.mmxOn (d : Dev) (m : Nat) : Bool := bitAt 31 (d.mmxCfg m) && d.bit (Reg.MMX_CTRL (m / 32)) 0 && !d.pageHeld (0x5D + m / 32)

/-- Fields of a unit's CFG (R415): source, window group, window mode (3 acts as 0), count. -/
def cfgSrc (w : Word) : Nat := fld 30 24 w
def cfgGroup (w : Word) : Nat := fld 19 16 w
def cfgMode (w : Word) : Nat := let m := fld 13 12 w; if m = 3 then 0 else m
def cfgCount (w : Word) : Nat := fld 11 0 w

/-- A source delivers nothing: a slot of the odd converter of an interleaving pair (R380). -/
def Dev.srcSilent (d : Dev) (src : Nat) : Bool := decide (src < 0x60) && src / 4 % 2 == 1 && d.interleaving (src / 8)

/-- The accumulators, and the trackers, that take a source. -/
def Dev.accOf (d : Dev) (src : Nat) : List Nat :=
  if d.srcSilent src then [] else (List.range 128).filter (fun m => d.accOn m && cfgSrc (d.accCfg m) == src)
def Dev.mmxOf (d : Dev) (src : Nat) : List Nat :=
  if d.srcSilent src then [] else (List.range 64).filter (fun m => d.mmxOn m && cfgSrc (d.mmxCfg m) == src)

/-- Calibration of a source (R383, R414, R417). -/
def Dev.calOf (d : Dev) (src : Nat) : Word × Word :=
  if src < 0x60 then
    let i := d.fld (Reg.AC_SLOT (src / 4) (src % 4)) 5 0
    (d.reg (Reg.ADCSYS_CAL_GAIN i), d.reg (Reg.ADCSYS_CAL_OFS i))
  else
    let c := src - 0x60
    (d.reg (Reg.SD_GAIN (c / 8) (c % 8)), d.reg (Reg.SD_OFS (c / 8) (c % 8)))

/-- The source is a faulted sigma-delta channel (R405). -/
def Dev.srcFault (d : Dev) (src : Nat) : Bool :=
  0x60 ≤ src && src < 0x78 && d.bit (Reg.SD_MOD_STAT ((src - 0x60) / 8)) ((src - 0x60) % 8)

def Dev.accUnit (d : Dev) (m : Nat) : AcqUnit := vget {} d.acc m
def Dev.modAcc (m : Nat) (f : AcqUnit → AcqUnit) (d : Dev) : Dev := (Dev.putAcc (vmod {} d.acc m f) d)
def Dev.mmxUnit (d : Dev) (m : Nat) : AcqUnit := vget {} d.mmx m
def Dev.modMmx (m : Nat) (f : AcqUnit → AcqUnit) (d : Dev) : Dev := (Dev.putMmx (vmod {} d.mmx m f) d)

/-! ### Windows (R381, R383 to R385) -/

/-- A value in 1/256 code enters a window. -/
def Window.take (x : Int) (clip : Bool) (w : Window) : Window :=
  { w with
    n := w.n + 1, sum := w.sum + x, clip := w.clip || clip
    max := some (match w.max with | some y => if x < y then y else x | none => x)
    min := some (match w.min with | some y => if y < x then y else x | none => x) }

/-- A prediction enters a window (R388). -/
def Window.predict (q : Word) (w : Window) : Window := { w with preds := w.preds ++ [q] }

/-- A unit whose configuration a transfer changed starts at its next window boundary (R385); a COUNT window, which has none, at once. -/
def AcqUnit.restart (cfg : Word) (fault : Bool) (now : Nat) (u : AcqUnit) : AcqUnit :=
  { winNo := u.winNo + 2, open_ := cfgMode cfg == 2, cur := { modFault := fault }, curAt := now }

/-- A reload of the unit's group: a PERIOD or MULTI window closes and the next begins, or the first one begins (R381, R385). -/
def AcqUnit.boundary (cfg : Word) (fault : Bool) (now : Nat) (u : AcqUnit) : AcqUnit :=
  if !u.open_ then
    { u with open_ := true, cur := { modFault := fault }, curAt := now, winNo := u.winNo + 1, periods := 0, closing := none }
  else if cfgMode cfg = 1 ∧ u.periods + 1 < max 1 (cfgCount cfg) then { u with periods := u.periods + 1 }
  else { u with
    closing := some (u.cur, u.curAt), cur := { modFault := fault }, curAt := now, winNo := u.winNo + 1, periods := 0 }

/-- The unit's windows follow the reloads of group `g`. -/
def followsGroup (cfg : Word) (g : Nat) : Bool := cfgMode cfg != 2 && cfgGroup cfg == g

/-- Windows of group `g` close at its reload. -/
def Dev.acqBoundary (g : Nat) (d : Dev) : Dev :=
  let accs := (List.range 128).filter (fun m => d.accOn m && followsGroup (d.accCfg m) g)
  let mmxs := (List.range 64).filter (fun m => d.mmxOn m && followsGroup (d.mmxCfg m) g)
  let d := each accs (fun m d => d.modAcc m (AcqUnit.boundary (d.accCfg m) (d.srcFault (cfgSrc (d.accCfg m))) d.now)) d
  each mmxs (fun m d => d.modMmx m (AcqUnit.boundary (d.mmxCfg m) (d.srcFault (cfgSrc (d.mmxCfg m))) d.now)) d

/-! ### Snapshots (R383, R384) -/

/-- A finite value as an exact integer times a power of two; none for a NaN or an infinity. -/
def dyadicOf (w : Word) : Option (Int × Int) :=
  match fpRead w with
  | .nan _ => none
  | .inf _ => none
  | .zero _ => some (0, 0)
  | .fin n m e => some (if n then -(m : Int) else (m : Int), e)

/-- The exact sum of two dyadic numbers. -/
def dyadicSum (x y : Int × Int) : Int × Int :=
  let e := min x.2 y.2
  (x.1 * 2 ^ (x.2 - e).toNat + y.1 * 2 ^ (y.2 - e).toNat, e)

/-- A dyadic number divided by a count and rounded once to binary32. -/
def dyadicQuot (x : Int × Int) (den : Nat) : Word :=
  if x.1 = 0 ∨ den = 0 then 0 else
  let n := x.1.natAbs * 2 ^ 64
  let q := n / den
  (fpRound (x.1 < 0) (q * 2 + b2n (n % den ≠ 0)) (x.2 - 65)).val

/-- MEAN of a window (R383): GAIN × Σx + n × OFS + Σq over n + p, exact and rounded once. -/
def Window.mean (gain ofs : Word) (w : Window) : Word :=
  match dyadicOf gain, dyadicOf ofs, w.preds.mapM dyadicOf with
  | some g, some o, some qs =>
    let s := dyadicSum (g.1 * w.sum, g.2 - 8) (o.1 * (w.n : Int), o.2)
    dyadicQuot (qs.foldl dyadicSum s) (w.n + w.preds.length)
  | _, _, _ => canonicalNan

/-- A calibrated value GAIN × x + OFS of a code in 1/256 (R383). -/
def calibrated (gain ofs : Word) (x : Int) : Word := (fpFma gain (fpOfRatio x 256) ofs).val

/-- Flags and count of a snapshot (R415): CLIP, MOD_FAULT, EMPTY, SHORT, SKIP, PRED, REF_NOT_READY, COUNT. -/
def Window.flags (count : Nat) (w : Window) : Word :=
  place 22 22 (b2n w.clip) ||| place 21 21 (b2n w.modFault) ||| place 20 20 (b2n (count == 0)) |||
    place 19 19 (b2n (1 ≤ count && count ≤ 3)) ||| place 18 18 (b2n w.skip) ||| place 17 17 (b2n (!w.preds.isEmpty)) |||
    place 16 16 (b2n w.refNr) ||| place 15 0 (Nat.min count 65535)

/-- WIN of a unit's snapshot (R415). -/
def Dev.winOf (d : Dev) (cfg : Word) (u : AcqUnit) : Nat :=
  if cfgMode cfg = 2 then u.wins else if cfgGroup cfg < 12 then d.fld (Reg.PG_WIN_CNT (cfgGroup cfg)) 7 0 else 0

/-- A capture record of each enabled selector of an accumulator (R610, R611). -/
def Dev.captureAcc (m : Nat) (d : Dev) : Dev :=
  each [0, 1, 2, 3] (fun k d =>
    if d.bit Reg.DRAM_CAP_SRC (16 + k) && d.fld (Reg.DRAM_CAP_ACC k) 6 0 == m then
      let seq := vget 0 d.capture.accSeq k
      let g := cfgGroup (d.accCfg m)
      let win := if g < 12 then d.reg (Reg.PG_WIN_CNT g) else 0
      let r := captureRecord d.devTime (0x40 + k) 0 (0xA000 + m) seq (d.reg (Reg.ACC_MEAN (m / 32) (m % 32)))
        (d.reg (Reg.ACC_WSTAT (m / 32) (m % 32))) win
      Dev.pushCapture r (Dev.putCapture { d.capture with accSeq := vset d.capture.accSeq k ((seq + 1) % 65536) } d)
    else d) d

/-! ### Analog command pins (R484, R485) -/

/-- A command pin updates: VAL := K × x + OFS, and it is not lost. -/
def Dev.cmdinTake (k : Nat) (x : Word) (d : Dev) : Dev :=
  let v := fpAdd (fpMul (d.reg (Reg.MC_CMDIN_K 0 k)) x).val (d.reg (Reg.MC_CMDIN_OFS 0 k))
  (d.setReg (Reg.MC_CMDIN_VAL 0 k) v.val).setBit (Reg.MC_CMDIN_STAT 0) k false

/-- A pin is lost. -/
def Dev.cmdinLost (k : Nat) (d : Dev) : Dev :=
  ((d.setReg (Reg.MC_CMDIN_VAL 0 k) 0).setBit (Reg.MC_CMDIN_STAT 0) k true).raise 0x70 (12 + k)

/-- The kind of a pin that is enabled: 0 analog, 1 duty, 2 frequency, 3 off; none where it is not. -/
def Dev.cmdinKind (d : Dev) (k : Nat) : Option Nat :=
  let cfg := d.reg (Reg.MC_CMDIN_CFG 0 k)
  if bitAt 31 cfg && !d.pageHeld 0x70 then some (Machine.fld 29 28 cfg) else none

/-- An analog pin takes the snapshot of its accumulator; it is lost where that is EMPTY or REF_NOT_READY. -/
def Dev.cmdinAnalog (k : Nat) (d : Dev) : Dev :=
  let m := Machine.fld 22 16 (d.reg (Reg.MC_CMDIN_CFG 0 k))
  let st := d.reg (Reg.ACC_WSTAT (m / 32) (m % 32))
  if bitAt 20 st || bitAt 16 st then d.cmdinLost k else d.cmdinTake k (d.reg (Reg.ACC_MEAN (m / 32) (m % 32)))

/-- The analog pins that name accumulator `m` follow its snapshot. -/
def Dev.cmdinFollow (m : Nat) (d : Dev) : Dev :=
  each ([0, 1, 2, 3].filter (fun k => d.cmdinKind k == some 0 && Machine.fld 22 16 (d.reg (Reg.MC_CMDIN_CFG 0 k)) == m)) Dev.cmdinAnalog d

/-- The snapshot of an accumulator's window (R382 to R384). -/
def Dev.publishAcc (m : Nat) (w : Window) (d : Dev) : Dev :=
  let cfg := d.accCfg m
  let cal := d.calOf (cfgSrc cfg)
  let count := w.n + w.preds.length
  let d := d.modAcc m (fun u => { u with wins := u.wins + 1 })
  let d := d.when (count != 0) (Dev.setReg (Reg.ACC_MEAN (m / 32) (m % 32)) (w.mean cal.1 cal.2))
  let d := d.setReg (Reg.ACC_WSTAT (m / 32) (m % 32)) (w.flags count ||| place 31 24 (d.winOf cfg (d.accUnit m)))
  let page := 0x59 + m / 32
  let d := ((d.when w.clip (Dev.raise page 2)).when (count == 0) (Dev.raise page 1)).when (1 ≤ count && count ≤ 3) (Dev.raise page 0)
  (d.captureAcc m).cmdinFollow m

/-- The greater and the lesser of two calibrated values. -/
def calMax (a b : Word) : Word := (fpMax a b).val
def calMin (a b : Word) : Word := (fpMin a b).val

/-- The snapshot of a tracker's window, without the plausibility check (R383, R384, R416). -/
def Dev.publishMmx (m : Nat) (w : Window) (d : Dev) : Dev :=
  let cfg := d.mmxCfg m
  let cal := d.calOf (cfgSrc cfg)
  let d := d.modMmx m (fun u => { u with wins := u.wins + 1 })
  let d := match w.max, w.min with
    | some hi, some lo =>
      let a := calibrated cal.1 cal.2 hi
      let b := calibrated cal.1 cal.2 lo
      (d.setReg (Reg.MMX_MAX (m / 32) (m % 32)) (calMax a b)).setReg (Reg.MMX_MIN (m / 32) (m % 32)) (calMin a b)
    | _, _ => d
  let f := w.flags w.n &&& ~~~ fieldMask 19 17
  let d := d.setReg (Reg.MMX_WSTAT (m / 32) (m % 32)) (f ||| place 31 24 (d.winOf cfg (d.mmxUnit m)))
  let page := 0x5D + m / 32
  (d.when w.clip (Dev.raise page 2)).when (w.n == 0) (Dev.raise page 1)

/-- A COUNT window that has taken its conversions closes at once (R381, R382). -/
def countFull (cfg : Word) (w : Window) : Bool := cfgMode cfg == 2 && max 4 (cfgCount cfg) ≤ w.n + w.preds.length

def Dev.closeCountAcc (m : Nat) (d : Dev) : Dev :=
  let w := (d.accUnit m).cur
  if countFull (d.accCfg m) w then
    (d.modAcc m (fun u => { u with cur := { modFault := d.srcFault (cfgSrc (d.accCfg m)) }, curAt := d.now })).publishAcc m w
  else d

/-- The unit's window that a conversion sampled under window number `no` belongs to takes it; none where it has gone. The number of a
COUNT unit changes with its configuration alone. -/
def AcqUnit.enter (no : Nat) (f : Window → Window) (u : AcqUnit) : AcqUnit :=
  if u.open_ && u.winNo == no then { u with cur := f u.cur }
  else if u.winNo = no + 1 then { u with closing := u.closing.map (fun w => (f w.1, w.2)) }
  else u

/-- An accumulator takes a value. -/
def Dev.enterAcc (m no : Nat) (f : Window → Window) (d : Dev) : Dev :=
  (d.modAcc m (AcqUnit.enter no f)).closeCountAcc m

end Sys2Proof.Machine
end

