-- ==== Sys2Proof/Machine/Flags.lean ====
section
/-!
DEFINITION. What an engine instruction leaves beside its results: the sticky floating-point flags (R171), the flags of the
control-law units (R239), the ECC record (R218) and the engine fault (R216).
-/

namespace Sys2Proof.Machine

/-- LEn.FPX takes the flags of an operation; a bit that goes from 0 to 1 raises FPX (R171, R219). -/
def Dev.fpFlags (e : Nat) (fl : FpFlags) (d : Dev) : Dev :=
  let old := d.fld (Reg.LE_FPX e) 3 0
  let new := old ||| fl.toNat
  if new = old then d else (d.setFld (Reg.LE_FPX e) 3 0 new).raise (0x10 + e) 5

/-- A bit of CLU_STAT set (R239, R261). -/
def Dev.cluFlag (e i : Nat) (d : Dev) : Dev := d.setBit (Reg.LE_CLU_STAT e) i true

/-- Bits of CLU_STAT set. -/
def Dev.cluFlags (e : Nat) (l : List Nat) (d : Dev) : Dev := each l (Dev.cluFlag e) d

/-- A corrected ECC error of a TCM or of the coefficient store (R218, R228). -/
def Dev.eccCorrected (e : Nat) (d : Dev) : Dev := (d.bumpSat (Reg.LE_ECC e) 31 16).raise (0x10 + e) 6

/-- The word of an uncorrectable error in the engine's TCM (R219). -/
def Dev.eccUnc (e word64 : Nat) (d : Dev) : Dev := d.setFld (Reg.LE_ECC e) 13 0 word64

/-- The engine requests a trip of every group in OWN_EFF (R203, R216, R228). -/
def Dev.engineTrip (e cause : Nat) (trip : Nat → Nat → Dev → Dev) (d : Dev) : Dev :=
  each (twelve.filter (fun g => natBit g (d.owned e))) (trip cause) d

end Sys2Proof.Machine
end

