-- ==== Sys2Proof/Machine/Operands.lean ====
section
/-!
DEFINITION. The register file and operand forms of the loop engines, the checks that precede an instruction (R174 to R180), and
the sequencing of the instruction pointer (R184).
-/

namespace Sys2Proof.Machine

/-! ### Registers -/

/-- Register `r` as an operand: V0 reads as zero (R169). -/
def Dev.v (d : Dev) (e r : Nat) : Word := if r = 0 then 0 else vget 0 (d.engine e).v r

/-- A result written to register `r`: V0 discards it (R169). -/
def Dev.setV (e r : Nat) (w : Word) (d : Dev) : Dev :=
  if r = 0 then d else d.modEngine e (fun x => { x with v := vset x.v r w })

/-- The register after `r` as a second source; beyond V63 there is none, and the value is free. -/
def Dev.vNext (d : Dev) (e r : Nat) : Word × Dev := if r + 1 < 64 then (d.v e (r + 1), d) else d.free

/-- Operand Bi: IMM when M[0] = 1, register B otherwise (R176). -/
def Dev.opBi (d : Dev) (e : Nat) (f : EngFields) : Word := if f.m.val % 2 = 1 then f.imm else d.v e f.b.val

/-- The instruction pointer: PC of the next instruction to issue. -/
def Dev.pc (d : Dev) (e : Nat) : Nat := d.fld (Reg.LE_PC e) 11 0

def Dev.setPc (e pc : Nat) (d : Dev) : Dev := d.setFld (Reg.LE_PC e) 11 0 pc

/-! ### Which fields an instruction names (R175, R177) -/

/-- The fields an instruction names: registers, the largest value of C, M and IMM that uses no unnamed bit, and the number of
destinations. -/
structure Form where
  d    : Bool := false
  a    : Bool := false
  b    : Bool := false
  cMax : Nat := 0
  mMax : Nat := 0
  imm  : Nat := 0
  outs : Nat := 0
  /-- Where a command is one mode of an opcode: M modulo `modes` is `mode` (R179). -/
  modes : Nat := 1
  mode  : Nat := 0
  deriving DecidableEq, Repr

/-! ### The instruction word (R174) -/

/-- First address of an engine's TCM (R39): the program TCM, with the data TCM after its 32 KB. -/
def tcmBase (e : Nat) : Nat := 0x18000000 + e * 0x100000

/-- An instruction as its 64-bit word holds it: OP, D, A, B, C, M and IMM. -/
structure Insn where
  op  : Fin 64
  d   : Fin 64
  a   : Fin 64
  b   : Fin 64
  c   : Fin 64
  m   : Fin 4
  imm : Word
  deriving DecidableEq, Repr

/-- The 6 bits of a word from bit `lo` up. -/
def sixBits (lo w : Nat) : Fin 64 := Fin.ofNat 64 (w / 2 ^ lo)

/-- The fields of a 64-bit word: OP [63:58], D [57:52], A [51:46], B [45:40], C [39:34], M [33:32], IMM [31:0]. -/
def decodeInsn (w : Nat) : Insn where
  op := sixBits 58 w
  d := sixBits 52 w
  a := sixBits 46 w
  b := sixBits 40 w
  c := sixBits 34 w
  m := Fin.ofNat 4 (w / 2 ^ 32)
  imm := BitVec.ofNat 32 w

/-- The word of an instruction. -/
def encodeInsn (i : Insn) : Nat :=
  i.op.val * 2 ^ 58 + i.d.val * 2 ^ 52 + i.a.val * 2 ^ 46 + i.b.val * 2 ^ 40 + i.c.val * 2 ^ 34 + i.m.val * 2 ^ 32 + i.imm.toNat

/-- Instruction number PC: the 8 bytes at program TCM offset 8 × PC, least significant byte first. -/
def Dev.insnAt (d : Dev) (e : Nat) : Insn :=
  let a := tcmBase e + 8 * d.pc e
  decodeInsn ((d.wordAt a).toNat + (d.wordAt (a + 4)).toNat * 2 ^ 32)

/-- The instruction of a command: the opcode of its row with the command's fields. -/
def insnOf (op : Nat) (f : EngFields) : Insn :=
  { op := Fin.ofNat 64 op, d := f.d, a := f.a, b := f.b, c := f.c, m := f.m, imm := f.imm }

/-- The word at PC is the command's instruction, or cannot be corrected, in which case nothing is known of it. -/
def Dev.fetches (d : Dev) (e op : Nat) (f : EngFields) : Bool := f.fetch == .uncorrectable || d.insnAt e == insnOf op f

/-- All bits of a register field, and of IMM. -/
def allReg : Nat := 63
def allImm : Nat := 0xFFFFFFFF

/-- The forms of R177: D, A, Bi; D, A, Bi, C; D, A; D, Bi; D, A, Bi with a condition; D, A, Bi, M[1]. -/
def Form.dabi : Form := { d := true, a := true, b := true, mMax := 1, imm := allImm, outs := 1 }
def Form.dabic : Form := { Form.dabi with cMax := allReg }
def Form.cond : Form := { Form.dabi with cMax := 3 }
def Form.shiftRight : Form := { Form.dabi with mMax := 3 }
def Form.da : Form := { d := true, a := true, outs := 1 }
def Form.dbi : Form := { d := true, b := true, mMax := 1, imm := allImm, outs := 1 }

/-- Every field the instruction does not name is zero (R175). -/
def Form.ok (u : Form) (f : EngFields) : Bool :=
  (u.d || f.d == 0) && (u.a || f.a == 0) && (u.b || f.b == 0) && f.c.val ≤ u.cMax && f.m.val ≤ u.mMax && f.imm.toNat ≤ u.imm

/-! ### Faults and sequencing -/

/-- Posted values of a frame that did not complete are dropped (R256). -/
def Dev.dropPending (e : Nat) (d : Dev) : Dev :=
  d.modEngine e (fun x => { x with slots := x.slots.map (fun s => { s with pending := none }) })

/-- An engine fault (R216): issue stops, the cause and PC are recorded, FAULT is entered, and the owned groups trip. The AUTOLOCK
locks of the frame end with it (DEDUCED, log entry 34). -/
def Dev.engineFault (e cause : Nat) (d : Dev) : Dev :=
  let d := (d.setFld (Reg.LE_STAT e) 23 16 cause).setFld (Reg.LE_PC e) 27 16 (d.pc e)
  let d := (d.raise (0x10 + e) 2).setFld (Reg.LE_STAT e) 2 0 5
  let d := d.modEngine e (fun x => { x with
    fend := false, loadWait := none, heldEvents := 0, trigger := 0, locks := x.locks &&& ~~~ x.served })
  ((d.dropPending e).engineTrip e 10 Dev.trip).swapIdle e

/-- The engine issues: a section runs, its FEND has not issued, no load holds issue, and the page is not held (R186, R194). -/
def Dev.canIssue (d : Dev) (e : Nat) : Bool :=
  (d.estate e == 1 || d.estate e == 3 || d.estate e == 4) && !(d.engine e).fend && (d.engine e).loadWait.isNone && !d.pageHeld (0x10 + e)

/-- The pointer after an instruction that transfers no control (R184): back to the first instruction of the innermost loop at its
end while passes are left, else on, the loop popped at its end. -/
def Dev.advance (e : Nat) (d : Dev) : Dev :=
  let pc := d.pc e
  match (d.engine e).loops with
  | l :: rest =>
    if pc = l.last then
      (if 1 < l.left then (d.modEngine e (fun x => { x with loops := { l with left := l.left - 1 } :: rest })).setPc e l.first
       else (d.modEngine e (fun x => { x with loops := rest })).setPc e (pc + 1))
    else d.setPc e (pc + 1)
  | [] => d.setPc e (pc + 1)

/-- The word of an instruction as it is fetched (R216, R218): an uncorrectable one faults, a corrected one is counted. -/
def Dev.fetched (e : Nat) (ecc : Ecc) (act : Dev → Dev) (d : Dev) : Dev :=
  if ecc = .uncorrectable then (d.eccUnc e (d.pc e)).engineFault e 5
  else act (d.when (ecc == .corrected) (Dev.eccCorrected e))

/-- The instruction at PC issues (R174, R175, R180, R216, R218), in the FAB cycle in progress or in one of its own: an uncorrectable
word, an unnamed field or a destination beyond V63 faults; else the instruction acts. A command whose instruction does not stand at
PC, or is of another mode, finds nothing to issue. -/
def Dev.issue (e op : Nat) (u : Form) (f : EngFields) (act : Dev → Dev) (d : Dev) : Dev :=
  if d.canIssue e && d.fetches e op f && f.m.val % u.modes == u.mode then
    (if f.same then d else d.newCycle).fetched e f.fetch (fun d =>
      if !u.ok f then d.engineFault e 2
      else if 64 < f.d.val + u.outs then d.engineFault e 3
      else act d)
  else d

/-- An instruction with one result and flags. -/
def Dev.issueOp (e op : Nat) (u : Form) (f : EngFields) (g : Dev → FpOut) (d : Dev) : Dev :=
  d.issue e op u f (fun d => let o := g d; ((d.setV e f.d.val o.val).fpFlags e o.flags).advance e)

end Sys2Proof.Machine
end

