-- ==== Sys2Proof/Machine/EngineM.lean ====
section
/-!
DEFINITION. The M-class instructions of the loop engines: control transfers (R183, R184), memory (R185 to R188), the side effects
of R201 and R202, the DC-link bridge as an engine sees it (R255 to R259), and the coefficient store (R220 to R235).
-/

namespace Sys2Proof.Machine

/-! ### The coefficient store (R220 to R224, R234) -/

/-- Instances, coefficients and state words of a unit (R179, R240). -/
def unitInfo : Nat → Option (Nat × Nat × Nat)
  | 1 => some (16, 4, 2)
  | 2 => some (16, 4, 4)
  | 3 => some (16, 5, 2)
  | 4 => some (8, 4, 0)
  | 5 => some (2, 7, 3)
  | 6 => some (2, 9, 7)
  | 7 => some (4, 5, 0)
  | 8 => some (16, 6, 0)
  | 9 => some (2, 10, 3)
  | _ => none

/-- Coefficient addresses that exist (R223). -/
def coefValid (unit inst index : Nat) : Bool :=
  match unitInfo unit with
  | some (n, c, st) => inst < n && (index < c || (0x80 ≤ index && index < 0x80 + st))
  | none => false

/-- One instance of a unit. -/
def Dev.coefOf (d : Dev) (e unit inst : Nat) : Coef := vget {} (vget (Vector.replicate 16 {}) (d.engine e).coef (unit - 1)) inst

def Dev.modCoef (e unit inst : Nat) (f : Coef → Coef) (d : Dev) : Dev :=
  d.modEngine e (fun x => { x with coef := vmod (Vector.replicate 16 {}) x.coef (unit - 1) (fun v => vmod {} v inst f) })

/-- Bank B is the active bank of a unit. -/
def Dev.bankB (d : Dev) (e unit : Nat) : Bool := d.bit (Reg.LE_BANK_ACT e) unit

/-- The word at an index, from the active or the inactive bank. -/
def Dev.coefWord (d : Dev) (e unit inst index : Nat) (active : Bool) : Word :=
  let c := d.coefOf e unit inst
  if 0x80 ≤ index then vget 0 c.state (index - 0x80)
  else if d.bankB e unit == active then vget 0 c.bankB index else vget 0 c.bankA index

/-- The word at an index written. -/
def Dev.setCoef (e unit inst index : Nat) (active : Bool) (w : Word) (d : Dev) : Dev :=
  let b := d.bankB e unit == active
  d.modCoef e unit inst (fun c =>
    if 0x80 ≤ index then { c with state := vset c.state (index - 0x80) w }
    else if b then { c with bankB := vset c.bankB index w } else { c with bankA := vset c.bankA index w })

/-- A swap of the unit is pending. -/
def Dev.swapPending (d : Dev) (e unit : Nat) : Bool := d.bit (Reg.LE_BANK_REQ e) unit

/-- A write that the store takes: it exists (R223), and it is not a write to the inactive bank while a swap is pending (R234). -/
def Dev.coefWriteOk (d : Dev) (e unit inst index : Nat) (active : Bool) : Bool :=
  coefValid unit inst index && (active || 0x80 ≤ index || !d.swapPending e unit)

/-! ### Control transfers -/

/-- BR's condition (R177, R184): the register is tested as 32 bits. -/
def branchTaken (m : Nat) (a : Word) : Bool :=
  match m with
  | 0 => true
  | 1 => a == 0
  | 2 => a != 0
  | _ => bitAt 31 a

/-- BR. -/
def execBr (e : Fin 12) (f : EngFields) (s : State) : Host.Outcome State Fault Refusal :=
  s.onDev (Dev.issue e.val 0x1A { a := true, imm := allImm, mMax := 3 } f (fun d =>
    if branchTaken f.m.val (d.v e.val f.a.val) then d.setPc e.val (fld 11 0 f.imm) else d.advance e.val))

/-- LOOP (R184): a count of 0 skips the body; a fifth active loop faults. -/
def Dev.loopOp (e : Nat) (f : EngFields) (d : Dev) : Dev :=
  let count := if f.m.val = 1 then Machine.fld 31 16 f.imm else (d.v e f.a.val).toNat
  let last := Machine.fld 11 0 f.imm
  if count = 0 then d.setPc e (last + 1)
  else if 4 ≤ (d.engine e).loops.length then d.engineFault e 7
  else
    let first := (d.pc e + 1) % 4096
    (d.modEngine e (fun x => { x with loops := { first := first, last := last, left := count } :: x.loops })).setPc e first

/-- LOOP. -/
def execLoop (e : Fin 12) (f : EngFields) (s : State) : Host.Outcome State Fault Refusal :=
  s.onDev (Dev.issue e.val 0x1B { a := true, imm := allImm, mMax := 1 } f (Dev.loopOp e.val f))

/-- CALL: V63 := PC + 1. -/
def execCall (e : Fin 12) (f : EngFields) (s : State) : Host.Outcome State Fault Refusal :=
  s.onDev (Dev.issue e.val 0x1C { imm := allImm } f (fun d => (d.setV e.val 63 (word (d.pc e.val + 1))).setPc e.val (fld 11 0 f.imm)))

/-- JR. -/
def execJr (e : Fin 12) (f : EngFields) (s : State) : Host.Outcome State Fault Refusal :=
  s.onDev (Dev.issue e.val 0x1D { a := true } f (fun d => d.setPc e.val (fld 11 0 (d.v e.val f.a.val))))

/-- FEND (R184, R194): the loop stack is cleared and nothing issues until the section completes. -/
def execFend (e : Fin 12) (f : EngFields) (s : State) : Host.Outcome State Fault Refusal :=
  s.onDev (Dev.issue e.val 0x1E {} f (fun d =>
    (d.modEngine e.val (fun x => { x with loops := [], fend := true })).setPc e.val (d.pc e.val + 1)))

/-! ### Memory -/

/-- The address lies in the engine's own TCM. -/
def ownTcm (e a : Nat) : Bool := tcmBase e ≤ a && a < tcmBase e + 0x20000

/-- The address of a load or store (R177). -/
def Dev.memAddr (d : Dev) (e : Nat) (f : EngFields) : Nat := (d.v e f.a.val + f.imm).toNat

/-- The address breaks R188. -/
def misaligned (e a m : Nat) : Bool := a % 4 != 0 || (m == 1 && (a % 8 != 0 || !ownTcm e a))

/-- LD (R185, R186, R188): the own TCM answers at once; any other load holds issue until its data returns. -/
def Dev.loadOp (e : Nat) (f : EngFields) (d : Dev) : Dev :=
  let a := d.memAddr e f
  if misaligned e a f.m.val then d.engineFault e 4
  else if ownTcm e a then
    (if f.data = .uncorrectable then (d.eccUnc e ((a - tcmBase e) / 8)).engineFault e (if a < tcmBase e + 0x8000 then 5 else 6)
     else
      let d := d.when (f.data == .corrected) (Dev.eccCorrected e)
      let w := d.wordAt a
      let w2 := d.wordAt (a + 4)
      ((d.setV e f.d.val w).when (f.m.val == 1) (Dev.setV e (f.d.val + 1) w2)).advance e)
  else (d.modEngine e (fun x => { x with loadWait := some (f.d, a) })).advance e

/-- LD. -/
def execLd (e : Fin 12) (f : EngFields) (s : State) : Host.Outcome State Fault Refusal :=
  s.onDev (Dev.issue e.val 0x18 { d := true, a := true, imm := allImm, mMax := 1, outs := 1 + f.m.val % 2 } f (Dev.loadOp e.val f))

/-- The GEN captured at the frame start for the page of an address, where it is a page of an owned group (R199). -/
def Dev.capturedGen (d : Dev) (e a : Nat) : Option Nat :=
  if a < 0x40000000 ∨ 0x40100000 ≤ a then none else
  let page := (a - 0x40000000) / 0x1000
  let x := d.engine e
  match pageGroup page with
  | none => none
  | some g =>
    if d.inFrame e && natBit g x.ownFrame.toNat then
      some (if page < 0x30 then vget 0 x.genPG g else if page < 0x40 then vget 0 x.genFL g else vget 0 x.genMC g)
    else none

/-- ST (R185, R187, R188, R199): the own TCM takes it at once; any other store joins the posted-write queue, and a store that finds
it full does not issue yet. -/
def Dev.storeOp (e : Nat) (f : EngFields) (d : Dev) : Dev :=
  let a := d.memAddr e f
  if misaligned e a f.m.val then d.engineFault e 4
  else if ownTcm e a then
    (let d1 := d.setBytes a (wordBytes (d.v e f.b.val))
     (if f.m.val = 1 then (let r := d1.vNext e f.b.val; r.2.setBytes (a + 4) (wordBytes r.1)) else d1).advance e)
  else if 16 ≤ (d.engine e).queue.length then d
  else
    let p : Posted := { addr := a, data := d.v e f.b.val, gen := d.capturedGen e a }
    (d.modEngine e (fun x => { x with queue := x.queue ++ [p] })).advance e

/-- ST. -/
def execSt (e : Fin 12) (f : EngFields) (s : State) : Host.Outcome State Fault Refusal :=
  s.onDev (Dev.issue e.val 0x19 { a := true, b := true, imm := allImm, mMax := 1 } f (Dev.storeOp e.val f))

/-! ### The DC-link bridge -/

/-- PUB (R255, R256). -/
def Dev.pubOp (e j : Nat) (w : Word) (d : Dev) : Dev :=
  if d.bit (Reg.LE_BR_SLOT e j) 8 then
    d.modEngine e (fun x => { x with
      slots := vmod {} x.slots j (fun s => { s with pending := some w }) })
  else d.cluFlag e 11

/-- PUB. -/
def execPub (e : Fin 12) (f : EngFields) (s : State) : Host.Outcome State Fault Refusal :=
  s.onDev (Dev.issue e.val 0x1F { a := true, imm := allImm } f (fun d =>
    (d.pubOp e.val (fld 2 0 f.imm) (d.v e.val f.a.val)).advance e.val))

/-- RCV (R258, R259): the value of the latched view, 0 where the slot is disabled, never published or stale. -/
def Dev.rcvOp (e m j : Nat) (d : Dev) : Word × Dev :=
  if 12 ≤ m then (0, d) else
  let s := vget {} (vget (Vector.replicate 8 {}) (d.engine e).view m) j
  match s.enabled, s.stamp with
  | true, some g =>
    if g = d.fld (Reg.LE_BR_EXP e m) 15 0 then (s.value, d)
    else (0, (d.raise (0x10 + e) 30).bumpSat (Reg.LE_BR_DISC_CNT e) 15 0)
  | _, _ => (0, d)

/-- RCV. -/
def execRcv (e : Fin 12) (f : EngFields) (s : State) : Host.Outcome State Fault Refusal :=
  s.onDev (Dev.issue e.val 0x20 { d := true, imm := allImm, outs := 1 } f (fun d =>
    let r := d.rcvOp e.val (fld 11 8 f.imm) (fld 2 0 f.imm)
    (r.2.setV e.val f.d.val r.1).advance e.val))

/-! ### Time, capture, trips, banks -/

/-- FAB cycles since the section's start, which for the init section is its START: two to a tick of 2.5 ns, whatever the spreading of
the FAB clock (R47, R177; DEDUCED, log entry 94). -/
def Dev.sectionCycles (d : Dev) (e : Nat) : Nat := 2 * (d.now - (d.engine e).startTick)

/-- TIME. -/
def execTime (e : Fin 12) (f : EngFields) (s : State) : Host.Outcome State Fault Refusal :=
  s.onDev (Dev.issueOp e.val 0x21 { d := true, mMax := 1, outs := 1 } f (fun d =>
    ⟨if f.m.val = 1 then word d.devTime else word (d.sectionCycles e.val), .none⟩))

/-- CAP (R202, R610, R611): a record with its source's SEQ, where the engine is a source. -/
def Dev.capOp (e : Nat) (f : EngFields) (d : Dev) : Dev :=
  if d.bit Reg.DRAM_CAP_SRC e && !d.pageHeld 0xA0 then
    let seq := (d.engine e).capSeq
    let r := captureRecord d.devTime e (d.fld (Reg.gen (0x10 + e)) 15 0) (Machine.fld 15 0 f.imm) seq
      (d.v e f.a.val) (d.v e f.b.val) (d.v e f.c.val)
    (d.modEngine e (fun x => { x with capSeq := (seq + 1) % 65536 })).pushCapture r
  else d

/-- CAP. -/
def execCap (e : Fin 12) (f : EngFields) (s : State) : Host.Outcome State Fault Refusal :=
  s.onDev (Dev.issue e.val 0x22 { a := true, b := true, cMax := allReg, imm := allImm } f (fun d => (d.capOp e.val f).advance e.val))

/-- TRQ (R201): a trip with cause ENGINE_SW of the named groups in OWN_EFF. -/
def execTrq (e : Fin 12) (f : EngFields) (s : State) : Host.Outcome State Fault Refusal :=
  s.onDev (Dev.issue e.val 0x23 { imm := allImm } f (fun d =>
    (each (twelve.filter (fun g => bitAt g f.imm && natBit g (d.owned e.val))) (Dev.trip 8) d).advance e.val))

/-- BSW (R230). -/
def execBsw (e : Fin 12) (f : EngFields) (s : State) : Host.Outcome State Fault Refusal :=
  s.onDev (Dev.issue e.val 0x24 { imm := allImm } f (fun d => (d.requestSwap e.val f.imm).advance e.val))

/-- The write is a TRIM that lands in the FAB cycle of a swap of its unit (R235). -/
def Dev.trimSwapped (d : Dev) (e unit index : Nat) (active : Bool) : Bool :=
  active && decide (index < 0x80) && d.cyc.swaps.any (fun p => p.1 == e && natBit unit p.2)

/-- A write that the store takes: a TRIM in the cycle of a swap lands in the bank that was active before it (R235). -/
def Dev.coefWrite (e unit inst index : Nat) (active : Bool) (w : Word) (d : Dev) : Dev :=
  if d.trimSwapped e unit index active then (d.setCoef e unit inst index false w).cluFlag e 14
  else d.setCoef e unit inst index active w

/-- The word that a write reaches, as one number: unit, instance, index, and the bank of a coefficient. -/
def Dev.coefPlace (d : Dev) (e unit inst index : Nat) (active : Bool) : Nat :=
  let bankB := decide (index < 0x80) && d.bankB e unit == (active && !d.trimSwapped e unit index active)
  ((unit * 256 + inst) * 256 + index) * 2 + b2n bankB

/-- A CWR (R223, R234, R235). -/
def Dev.cwrOp (e : Nat) (w imm : Word) (active : Bool) (d : Dev) : Dev :=
  let unit := Machine.fld 31 28 imm
  let inst := Machine.fld 23 16 imm
  let index := Machine.fld 15 8 imm
  if d.coefWriteOk e unit inst index active then
    (d.coefWrite e unit inst index active w).noteCwr e (d.coefPlace e unit inst index active)
  else d.cluFlag e 12

/-- CWR. -/
def execCwr (e : Fin 12) (f : EngFields) (s : State) : Host.Outcome State Fault Refusal :=
  s.onDev (Dev.issue e.val 0x25 { a := true, imm := allImm, mMax := 1 } f (fun d =>
    (d.cwrOp e.val (d.v e.val f.a.val) f.imm (f.m.val == 1)).advance e.val))

/-! ### The store through the page (R224, R225, R228) -/

/-- INDEX steps after a CW_DATA access with INC = 1. -/
def Dev.cwInc (e : Nat) (d : Dev) : Dev :=
  d.when (d.bit (Reg.LE_CW_ADDR e) 1) (fun d => d.setFld (Reg.LE_CW_ADDR e) 15 8 (d.fld (Reg.LE_CW_ADDR e) 15 8 + 1))

/-- A write of CW_DATA (R224, R225, R234, R235); one to a word that a CWR has written in the same FAB cycle is discarded (R226). -/
def Dev.cwDataOp (m : Master) (e : Nat) (w : Word) (d : Dev) : Dev :=
  let a := d.reg (Reg.LE_CW_ADDR e)
  let unit := Machine.fld 31 28 a
  let inst := Machine.fld 23 16 a
  let index := Machine.fld 15 8 a
  let active := bitAt 0 a
  let d :=
    if d.bit (Reg.LE_CLU_CTRL e) 0 && !(d.estate e == 0 || d.estate e == 5) then d.discard m (Reg.LE_CW_DATA e)
    else if d.coefWriteOk e unit inst index active && !d.cyc.cwr.contains (e, d.coefPlace e unit inst index active) then
      d.coefWrite e unit inst index active w
    else (d.discard m (Reg.LE_CW_DATA e)).cluFlag e 12
  d.cwInc e

/-- CW_DATA_WRITE; with `same` it lands in the FAB cycle of the effects before it (R226, R235). -/
def execCwDataWrite (m : Master) (e : Fin 12) (v : Word) (same : Bool) (s : State) : Host.Outcome State Fault Refusal :=
  s.onDev (fun d => (d.enterCycle m same).accessWrite m (Reg.LE_CW_DATA e.val) v (Dev.cwDataOp m e.val v))

/-- An uncorrectable word of the store is recorded (R228). -/
def Dev.coefUnc (e unit inst index : Nat) (bankB : Bool) (d : Dev) : Dev :=
  (d.setReg (Reg.LE_CW_ERR e) (bitMask 31 ||| place 27 24 unit ||| place 23 16 inst ||| place 15 8 index ||| place 0 0 (b2n bankB))).cluFlag e 15

/-- A read of CW_DATA and what its ECC finds. -/
def Dev.cwReadOp (m : Master) (e : Nat) (ecc : Ecc) (d : Dev) : Word × Dev :=
  let a := d.reg (Reg.LE_CW_ADDR e)
  let unit := Machine.fld 31 28 a
  let inst := Machine.fld 23 16 a
  let index := Machine.fld 15 8 a
  let active := bitAt 0 a
  let r : Word × Dev :=
    if !coefValid unit inst index then (0, (d.refuse m (0x10 + e) (keyAddr (Reg.LE_CW_DATA e)) false).cluFlag e 12)
    else match ecc with
      | .uncorrectable => (0, d.coefUnc e unit inst index (index < 0x80 && d.bankB e unit == active))
      | .corrected => (d.coefWord e unit inst index active, d.eccCorrected e)
      | .ok => (d.coefWord e unit inst index active, d)
  (r.1, r.2.cwInc e)

/-- CW_DATA_READ: the value returned stands in `readData`. -/
def execCwDataRead (m : Master) (e : Fin 12) (data : Ecc) (s : State) : Host.Outcome State Fault Refusal :=
  s.onDev (fun d =>
    let page := 0x10 + e.val
    let addr := keyAddr (Reg.LE_CW_DATA e.val)
    if d.pageHeld page then (Dev.putReadData 0 (d.refuseSys m addr false))
    else if !d.mayRead m page 0x214 then (Dev.putReadData 0 (d.refuse m page addr false))
    else let r := d.cwReadOp m e.val data; Dev.putReadData r.1 r.2)

/-- BANK_REQ (R230). -/
def execBankReq (m : Master) (e : Fin 12) (v : Word) (s : State) : Host.Outcome State Fault Refusal :=
  s.onDev (fun d => d.accessWrite m (Reg.LE_BANK_REQ e.val) v (Dev.requestSwap e.val v))

end Sys2Proof.Machine
end

