-- ==== Sys2Proof/Machine/Trig.lean ====
section
/-!
DEFINITION. Sine and cosine of an angle in turns, tan(π x), and the angle of a vector (R171, R173, R177, R242): each function is
computed from its operands in fixed point with 448 bits behind the point and rounded once. By Niven's theorem no dyadic angle but
the multiples of a quarter turn has a rational sine, so that the truncated value, with one more bit set below it, rounds as the
exact one does.
-/

namespace Sys2Proof.Machine

/-- Bits behind the point, and the unit. -/
def fixBits : Nat := 448
def fixOne : Nat := 2 ^ fixBits

def fixMul (x y : Nat) : Nat := x * y / fixOne

/-! ### Arc tangent -/

/-- Euler's series of the arc tangent: each term is the one before times 2n/(2n+1) and x²/(1+x²); `k` terms from term `n` on. -/
def atanTerms (ratio : Nat) : Nat → Nat → Nat → Nat → Nat
  | 0, _, _, acc => acc
  | k + 1, n, term, acc => atanTerms ratio k (n + 1) (fixMul (term * (2 * n) / (2 * n + 1)) ratio) (acc + term)

/-- The arc tangent in radians of x from 0 to 1. -/
def fixAtan (x : Nat) : Nat :=
  let one := fixOne + fixMul x x
  atanTerms (fixMul x x * fixOne / one) 460 1 (x * fixOne / one) 0

/-- π. -/
def fixPi : Nat := 4 * fixAtan fixOne

/-! ### Sine and cosine of at most π/4 radians -/

/-- The series of sine (from 1, first term t) or cosine (from 0, first term 1): each term is the one before times t²/((n+1)(n+2)),
with alternating sign; the sum of the terms with + and of those with −. -/
def sinTerms (sq : Nat) : Nat → Nat → Nat → Nat → Nat → Nat
  | 0, _, _, plus, minus => plus - minus
  | k + 1, n, term, plus, minus =>
    sinTerms sq k (n + 2) (fixMul term sq / ((n + 1) * (n + 2)))
      (if n / 2 % 2 = 0 then plus + term else plus) (if n / 2 % 2 = 0 then minus else minus + term)

def fixSin (t : Nat) : Nat := sinTerms (fixMul t t) 50 1 t 0 0
def fixCos (t : Nat) : Nat := sinTerms (fixMul t t) 50 0 fixOne 0 0

/-! ### Angles in turns -/

/-- A fixed-point magnitude that was cut off, rounded. -/
def fixRound (neg : Bool) (x : Nat) : FpOut := fpRound neg (2 * x + 1) (-((fixBits : Nat) : Int) - 1)

/-- The angle `(−1)^neg m 2^e` in eighths of a turn, modulo 1.0 (R173): the octant from 0 to 7, and the part of an eighth above it
as a numerator and the exponent of its denominator. -/
def octantOf (neg : Bool) (m : Nat) (e : Int) : Nat × Nat × Nat :=
  let x := e + 3
  let k := (-x).toNat
  let q := m * 2 ^ x.toNat
  let p := q % (8 * 2 ^ k)
  let p := if neg && p != 0 then 8 * 2 ^ k - p else p
  (p / 2 ^ k, p % 2 ^ k, k)

/-- π/4 times a part `r / 2^k` of an eighth of a turn. -/
def eighth (r k : Nat) : Nat := fixPi * r / 2 ^ (k + 2)

/-- Magnitude of the sine of an angle from 0 to a quarter turn, given by its octant (0 or 1) and its part; and of the cosine. A part
of 0 is exact at the quarters. -/
def quarterSin (o r k : Nat) : Nat := if o = 0 then fixSin (eighth r k) else fixCos (eighth (2 ^ k - r) k)
def quarterCos (o r k : Nat) : Nat := if o = 0 then fixCos (eighth r k) else fixSin (eighth (2 ^ k - r) k)

/-- Sine of an angle in octants; a zero takes the sign of the operand. -/
def sinOctant (zeroNeg : Bool) (p : Nat × Nat × Nat) : FpOut :=
  let quarter := p.1 / 2
  let neg := 2 ≤ quarter
  if p.1 % 2 = 0 ∧ p.2.1 = 0 then
    (if quarter % 2 = 0 then ⟨fpZero zeroNeg, .none⟩ else fpRound neg 1 0)
  else if quarter % 2 = 0 then fixRound neg (quarterSin (p.1 % 2) p.2.1 p.2.2)
  else fixRound neg (quarterCos (p.1 % 2) p.2.1 p.2.2)

/-- sin(a), a in turns: invalid at infinity (R171, R173, R177). -/
def fpSinTurns (a : Word) : FpOut :=
  match fpRead a with
  | .nan t => ⟨canonicalNan, nanFlag t⟩
  | .inf _ => ⟨canonicalNan, .inv⟩
  | .zero n => ⟨fpZero n, .none⟩
  | .fin n m e => sinOctant n (octantOf n m e)

/-- cos(a) = sin(a + ¼), a in turns; a zero is +0. -/
def fpCosTurns (a : Word) : FpOut :=
  match fpRead a with
  | .nan t => ⟨canonicalNan, nanFlag t⟩
  | .inf _ => ⟨canonicalNan, .inv⟩
  | .zero _ => fpRound false 1 0
  | .fin n m e =>
    let p := octantOf n m e
    sinOctant false ((p.1 + 2) % 8, p.2)

/-- tan(π x) for x from 0 to ½, as PR asks for it (R242); beyond, the canonical NaN. -/
def fpTanPi (a : Word) : FpOut :=
  match fpRead a with
  | .nan t => ⟨canonicalNan, nanFlag t⟩
  | .zero n => ⟨fpZero n, .none⟩
  | .fin false m e =>
    let p := octantOf false m (e - 1)
    let c := quarterCos (p.1 % 2) p.2.1 p.2.2
    if 2 ≤ p.1 ∨ c = 0 then ⟨canonicalNan, .inv⟩
    else if p.1 = 1 ∧ p.2.1 = 0 then fpRound false 1 0
    else fixRound false (quarterSin (p.1 % 2) p.2.1 p.2.2 * fixOne / c)
  | _ => ⟨canonicalNan, .inv⟩

/-! ### The angle of a vector -/

/-- The quotient of two positive dyadic numbers, in fixed point. -/
def fixDiv (ma : Nat) (ea : Int) (mb : Nat) (eb : Int) : Nat :=
  let x := ea - eb + fixBits
  ma * 2 ^ x.toNat / (mb * 2 ^ (-x).toNat)

/-- An arc tangent as a part of a turn. -/
def fixTurns (x : Nat) : Nat := fixAtan x * fixOne / (2 * fixPi)

/-- Angle in turns of the vector (x, y) with both components finite and not zero: within an eighth turn of the axis next to it. An
angle that rounds to ½ is −½ (R177: [−0.5, 0.5)). -/
def angleFin (ny : Bool) (my : Nat) (ey : Int) (nx : Bool) (mx : Nat) (ex : Int) : FpOut :=
  let steep := fpLtV (.fin false mx ex) (.fin false my ey)
  let q := fixTurns (if steep then fixDiv mx ex my ey else fixDiv my ey mx ex)
  let t := if steep then fixOne / 4 - q else q
  let r := fixRound ny (if nx then fixOne / 2 - t else t)
  if r.val = 0x3F000000 then ⟨0xBF000000, r.flags⟩ else r

/-- The eighth turns at which both components have one magnitude. -/
def angleDiagonal (ny nx : Bool) : Word := (if ny then 0x80000000 else 0) ||| (if nx then 0x3EC00000 else 0x3E000000)

/-- The angle of the vector (b, a) in turns, in [−0.5, 0.5) (R177). An angle of zero has the sign of a. -/
def fpAngle (a b : Word) : FpOut :=
  let quarter (n : Bool) : FpOut := ⟨if n then 0xBE800000 else 0x3E800000, .none⟩
  let axis (ny nx : Bool) : FpOut := ⟨if nx then 0xBF000000 else fpZero ny, .none⟩
  match fpRead a, fpRead b with
  | .nan s, .nan t => ⟨canonicalNan, nanFlag (s || t)⟩
  | .nan s, _ => ⟨canonicalNan, nanFlag s⟩
  | _, .nan t => ⟨canonicalNan, nanFlag t⟩
  | .zero _, .zero _ | .inf _, .inf _ => ⟨Config.angleOpen (fpFlush a) (fpFlush b), .none⟩
  | .zero n, y => axis n (fpSignV y)
  | x, .zero _ => quarter (fpSignV x)
  | .inf n, _ => quarter n
  | x, .inf n => axis (fpSignV x) n
  | .fin na ma ea, .fin nb mb eb =>
    if fpEqV (.fin false ma ea) (.fin false mb eb) then ⟨angleDiagonal na nb, .none⟩ else angleFin na ma ea nb mb eb

end Sys2Proof.Machine
end

