-- ==== Sys2Proof/Machine/EngineU.lean ====
section
/-!
DEFINITION. The U-class instructions of the loop engines: division, root and CORDIC (R177, R178) and the control-law units with
their equations (R238 to R251). The units compute in binary32, one rounding for each operation in the order in which the
equations write them; the flags of every operation reach LEn.FPX.
-/

namespace Sys2Proof.Machine

/-! ### Equations over results with flags -/

/-- A word as an operand of an equation; a signalling NaN sets INV (R171). -/
def rd (w : Word) : FpOut := ⟨w, nanFlag (nanOperands [w]).2⟩

/-- A constant. -/
def lit (w : Word) : FpOut := ⟨w, .none⟩

/-- An operation on two results, with the flags of both and its own. -/
def FpOut.lift2 (op : Word → Word → FpOut) (x y : FpOut) : FpOut :=
  let r := op x.val y.val
  ⟨r.val, x.flags ||| y.flags ||| r.flags⟩

/-- An operation on one result. -/
def FpOut.lift1 (op : Word → FpOut) (x : FpOut) : FpOut :=
  let r := op x.val
  ⟨r.val, x.flags ||| r.flags⟩

def FpOut.add (x y : FpOut) : FpOut := .lift2 fpAdd x y
def FpOut.sub (x y : FpOut) : FpOut := .lift2 fpSub x y
def FpOut.mul (x y : FpOut) : FpOut := .lift2 fpMul x y
def FpOut.div (x y : FpOut) : FpOut := .lift2 fpDiv x y
def FpOut.max (x y : FpOut) : FpOut := .lift2 fpMax x y
def FpOut.min (x y : FpOut) : FpOut := .lift2 fpMin x y
def FpOut.neg (x : FpOut) : FpOut := .lift1 fpNeg x
def FpOut.abs (x : FpOut) : FpOut := .lift1 fpAbs x
def FpOut.sqrt (x : FpOut) : FpOut := .lift1 fpSqrt x
def FpOut.sq (x : FpOut) : FpOut := x.mul x

def f0 : FpOut := lit 0
def f1 : FpOut := lit 0x3F800000
def fHalf : FpOut := lit 0x3F000000
def f2 : FpOut := lit 0x40000000
def f3 : FpOut := lit 0x40400000
/-- √3 and √3/2, rounded to nearest. -/
def fRoot3 : FpOut := lit 0x3FDDB3D7
def fHalfRoot3 : FpOut := lit 0x3F5DB3D7

/-- clamp(x, lo, hi) = min(max(x, lo), hi) under R172 (R238). -/
def FpOut.clamp (x lo hi : FpOut) : FpOut := (x.max lo).min hi

/-- frac(x) = x − floor(x) (R238). -/
def FpOut.frac (x : FpOut) : FpOut := x.sub (x.lift1 fpFloor)

/-- sign(x): +1 for x ≥ 0 and −1 otherwise (R238). -/
def FpOut.sign (x : FpOut) : FpOut := ⟨if fpGe x.val 0 then 0x3F800000 else 0xBF800000, x.flags⟩

/-- Order of two results. -/
def FpOut.lt (x y : FpOut) : Bool := fpLt x.val y.val
def FpOut.ge (x y : FpOut) : Bool := fpGe x.val y.val
def FpOut.isNan (x : FpOut) : Bool := fpIsNan x.val

/-- Two results differ as numbers; a NaN differs from everything. -/
def FpOut.ne (x y : FpOut) : Bool := !fpEq x.val y.val

/-! ### Division, root, CORDIC -/

/-- DIV. -/
def execDiv (e : Fin 12) (f : EngFields) (s : State) : Host.Outcome State Fault Refusal :=
  s.onDev (Dev.issueOp e.val 0x28 { d := true, a := true, b := true, outs := 1 } f
    (fun d => fpDiv (d.v e.val f.a.val) (d.v e.val f.b.val)))

/-- SQRT. -/
def execSqrt (e : Fin 12) (f : EngFields) (s : State) : Host.Outcome State Fault Refusal :=
  s.onDev (Dev.issueOp e.val 0x29 .da f (fun d => fpSqrt (d.v e.val f.a.val)))

def FpOut.cos (x : FpOut) : FpOut := .lift1 fpCosTurns x
def FpOut.sin (x : FpOut) : FpOut := .lift1 fpSinTurns x

/-- tan(π x). -/
def FpOut.tanPi (x : FpOut) : FpOut := .lift1 fpTanPi x

/-- Results written to D, D+1, ... with their flags. -/
def Dev.setOuts (e r : Nat) : List FpOut → Dev → Dev
  | [], d => d
  | o :: rest, d => Dev.setOuts e (r + 1) rest ((d.setV e r o.val).fpFlags e o.flags)

/-- SINCOS. -/
def execSincos (e : Fin 12) (f : EngFields) (s : State) : Host.Outcome State Fault Refusal :=
  s.onDev (Dev.issue e.val 0x2A { d := true, a := true, outs := 2 } f (fun d =>
    let a := rd (d.v e.val f.a.val)
    (d.setOuts e.val f.d.val [a.sin, a.cos]).advance e.val))

/-- ATAN2. -/
def execAtan2 (e : Fin 12) (f : EngFields) (s : State) : Host.Outcome State Fault Refusal :=
  s.onDev (Dev.issue e.val 0x2B { d := true, a := true, b := true, outs := 2 } f (fun d =>
    let a := d.v e.val f.a.val
    let b := d.v e.val f.b.val
    (d.setOuts e.val f.d.val [fpAngle a b, fpHypot a b]).advance e.val))

/-! ### XFM -/

/-- An XFM instruction with its results. -/
def Dev.xfm (e mode outs : Nat) (f : EngFields) (eqs : FpOut → FpOut → FpOut → List FpOut) (d : Dev) : Dev :=
  d.issue e 0x2C { d := true, a := true, b := true, cMax := allReg, mMax := 3, outs := outs, modes := 4, mode := mode } f (fun d =>
    (d.setOuts e f.d.val (eqs (rd (d.v e f.a.val)) (rd (d.v e f.b.val)) (rd (d.v e f.c.val)))).advance e)

/-- M0 Clarke: α = (2a − b − c)/3, β = (b − c)/√3. -/
def clarke (a b c : FpOut) : List FpOut := [(((f2.mul a).sub b).sub c).div f3, (b.sub c).div fRoot3]

/-- M1 Park. -/
def park (al be th : FpOut) : List FpOut :=
  [(al.mul th.cos).add (be.mul th.sin), (al.neg.mul th.sin).add (be.mul th.cos)]

/-- M2 inverse Park. -/
def inversePark (dd q th : FpOut) : List FpOut :=
  [(dd.mul th.cos).sub (q.mul th.sin), (dd.mul th.sin).add (q.mul th.cos)]

/-- M3 inverse Clarke. -/
def inverseClarke (al be : FpOut) : List FpOut :=
  [al, (al.neg.div f2).add (fHalfRoot3.mul be), (al.neg.div f2).sub (fHalfRoot3.mul be)]

/-- XFM M0. -/
def execXfmClarke (e : Fin 12) (f : EngFields) (s : State) : Host.Outcome State Fault Refusal := s.onDev (Dev.xfm e.val 0 2 f clarke)

/-- XFM M1. -/
def execXfmPark (e : Fin 12) (f : EngFields) (s : State) : Host.Outcome State Fault Refusal := s.onDev (Dev.xfm e.val 1 2 f park)

/-- XFM M2. -/
def execXfmInversePark (e : Fin 12) (f : EngFields) (s : State) : Host.Outcome State Fault Refusal :=
  s.onDev (Dev.xfm e.val 2 2 f inversePark)

/-- XFM M3: α passes as a, a subnormal as zero and a NaN as the canonical NaN (R171). -/
def execXfmInverseClarke (e : Fin 12) (f : EngFields) (s : State) : Host.Outcome State Fault Refusal :=
  s.onDev (Dev.xfm e.val 3 3 f (fun a b _ => inverseClarke ⟨fpFlush a.val, a.flags⟩ b))

/-! ### Invocations of the control-law units (R179, R222, R228, R229) -/

/-- What an invocation leaves: outputs, the state words it writes, and flags of CLU_STAT. -/
structure UnitOut where
  outs  : List FpOut
  state : List (Nat × FpOut) := []
  flags : List Nat := []
  deriving DecidableEq, Repr

/-- The outputs' flags reach FPX with those of the state words. -/
def Dev.putUnit (e unit inst r : Nat) (u : UnitOut) (d : Dev) : Dev :=
  let d := each u.state (fun p d => (d.setCoef e unit inst p.1 true p.2.val).fpFlags e p.2.flags) d
  (d.setOuts e r u.outs).cluFlags e u.flags

/-- The canonical NaN in every destination. -/
def nanOuts (n : Nat) : List FpOut := List.replicate n (lit canonicalNan)

/-- An invocation of a unit, in one of `modes` modes of its opcode: an instance beyond the count and an uncorrectable word give the
canonical NaN (R228, R229); else `act` computes with the active bank. The word that ECC finds bad is one that the unit lists. -/
def Dev.invoke (e unit modes mode outs : Nat) (f : EngFields) (act : Nat → Dev → Dev) (d : Dev) : Dev :=
  d.issue e (0x2C + unit)
    { d := true, a := true, b := true, cMax := allReg, mMax := 3, imm := 15, outs := outs, modes := modes, mode := mode } f (fun d =>
    let inst := Machine.fld 3 0 f.imm
    let count := match unitInfo unit with
      | some i => i.1
      | none => 0
    if count ≤ inst then ((d.setOuts e f.d.val (nanOuts outs)).cluFlag e 16).advance e
    else
      let index := f.bad.toNat
      if f.data = .uncorrectable ∧ coefValid unit inst index = true then
        (((d.setOuts e f.d.val (nanOuts outs)).coefUnc e unit inst index (index < 0x80 && d.bankB e unit)).engineTrip e 10 Dev.trip).advance e
      else (act inst (d.when (f.data == .corrected) (Dev.eccCorrected e))).advance e)

/-- A coefficient of the active bank, and a state word, as operands. -/
def Dev.coefIn (d : Dev) (e unit inst i : Nat) : FpOut := rd (d.coefWord e unit inst i true)

/-- A unit whose results depend on operands, coefficients and state alone. -/
def Dev.unitOp (e unit modes mode outs : Nat) (f : EngFields) (eqs : (a b c : FpOut) → (k : Nat → FpOut) → UnitOut) (d : Dev) : Dev :=
  d.invoke e unit modes mode outs f (fun inst d =>
    d.putUnit e unit inst f.d.val
      (eqs (rd (d.v e f.a.val)) (rd (d.v e f.b.val)) (rd (d.v e f.c.val)) (d.coefIn e unit inst)))

/-- Flags where conditions hold. -/
def flagsOf (l : List (Bool × Nat)) : List Nat := (l.filter (fun p => p.1)).map (fun p => p.2)

/-! ### PI, PR, BIQ -/

/-- PI with conditional integration (R241). -/
def piCalc (x ff _c : FpOut) (k : Nat → FpOut) : UnitOut :=
  let mx := k 2
  let mn := k 3
  let i := k 0x80
  let u0 := (((k 0).mul x).add i).add ff
  let u := u0.clamp mn mx
  if x.isNan || ff.isNan then { outs := [⟨((lit canonicalNan).clamp mn mx).val, x.flags ||| ff.flags⟩], state := [(0x81, i)], flags := [10] }
  else
    let holds := (mx.lt u0 && f0.lt x) || (u0.lt mn && x.lt f0)
    let i' := if holds then i else (i.add ((k 1).mul x)).clamp mn mx
    { outs := [u], state := [(0x80, i'), (0x81, i)], flags := flagsOf [(mx.lt u0 || u0.lt mn, 0)] }

/-- PI; the instance counts as invoked in this section (R244). -/
def execPi (e : Fin 12) (f : EngFields) (s : State) : Host.Outcome State Fault Refusal :=
  s.onDev (Dev.invoke e.val 1 1 0 1 f (fun inst d =>
    (d.putUnit e.val 1 inst f.d.val
      (piCalc (rd (d.v e.val f.a.val)) (rd (d.v e.val f.b.val)) f0 (d.coefIn e.val 1 inst))).modEngine e.val
      (fun x => { x with piInvoked := x.piInvoked ||| BitVec.ofNat 16 (2 ^ inst) })))

/-- A coefficient lies in (0, 0.5) (R242). -/
def inHalf (w : FpOut) : Bool := f0.lt w && w.lt fHalf

/-- Every state word zero. -/
def zeroState (n : Nat) : List (Nat × FpOut) := (List.range n).map (fun i => (0x80 + i, f0))

/-- A result that R243 rejects: NaN or infinite. -/
def FpOut.bad (y : FpOut) : Bool := fpIsNan y.val || fpIsInf y.val

/-- PR (R242, R243). -/
def prCalc (x _b _c : FpOut) (k : Nat → FpOut) : UnitOut :=
  if !inHalf (k 1) || !inHalf (k 2) then { outs := [f0], state := zeroState 4, flags := [10] }
  else
    let g0 := (k 1).tanPi
    let gc := (k 2).tanPi
    let a0 := (f1.add (f2.mul gc)).add g0.sq
    let b0 := ((f2.mul gc).mul (k 0)).div a0
    let a1 := (f2.mul (g0.sq.sub f1)).div a0
    let a2 := ((f1.sub (f2.mul gc)).add g0.sq).div a0
    let y := ((b0.mul (x.sub (k 0x81))).sub (a1.mul (k 0x82))).sub (a2.mul (k 0x83))
    if y.bad then { outs := [⟨0, y.flags⟩], state := zeroState 4, flags := [10] }
    else
      let yc := y.clamp (k 3).neg (k 3)
      { outs := [yc], state := [(0x81, k 0x80), (0x80, x), (0x83, k 0x82), (0x82, yc)], flags := flagsOf [(yc.ne y, 1)] }

/-- PR. -/
def execPr (e : Fin 12) (f : EngFields) (s : State) : Host.Outcome State Fault Refusal := s.onDev (Dev.unitOp e.val 2 1 0 1 f prCalc)

/-- BIQ (R243). -/
def biqCalc (x _b _c : FpOut) (k : Nat → FpOut) : UnitOut :=
  let y := ((k 0).mul x).add (k 0x80)
  if y.bad then { outs := [⟨0, y.flags⟩], state := zeroState 2, flags := [10] }
  else
    let s1 := (((k 1).mul x).sub ((k 3).mul y)).add (k 0x81)
    let s2 := ((k 2).mul x).sub ((k 4).mul y)
    { outs := [y], state := [(0x80, s1), (0x81, s2)] }

/-- BIQ. -/
def execBiq (e : Fin 12) (f : EngFields) (s : State) : Host.Outcome State Fault Refusal := s.onDev (Dev.unitOp e.val 3 1 0 1 f biqCalc)

/-! ### LIM -/

/-- LIM M0. -/
def limScalarCalc (a _b _c : FpOut) (k : Nat → FpOut) : UnitOut :=
  let y := a.clamp (k 1) (k 0)
  { outs := [y], flags := flagsOf [(y.ne a, 2)] }

/-- LIM M0. -/
def execLimScalar (e : Fin 12) (f : EngFields) (s : State) : Host.Outcome State Fault Refusal :=
  s.onDev (Dev.unitOp e.val 4 2 0 1 f limScalarCalc)

/-- LIM M1: the limited vector; a MODE beyond 1 has no stated result, and the two free words stand for it. -/
def limCircleOuts (a b rmax : FpOut) (mode : Word) (w0 w1 : Word) : FpOut × FpOut :=
  let r := (a.sq.add b.sq).sqrt
  if !f0.lt rmax && !rmax.isNan then (f0, f0)
  else if mode = 0 then (if rmax.lt r then (a.mul (rmax.div r), b.mul (rmax.div r)) else (a, b))
  else if mode = 1 then
    let d' := a.clamp rmax.neg rmax
    (d', b.sign.mul (b.abs.min (rmax.sq.sub d'.sq).sqrt))
  else (lit w0, lit w1)

/-- The integrators bound to a circle limit are held for the sample (R244): I from I_PREV, where the PI has been invoked. -/
def Dev.freezePi (e : Nat) (bind : Word) (d : Dev) : Dev :=
  d.when (bitAt 8 bind) (each [Machine.fld 3 0 bind, Machine.fld 7 4 bind] (fun i d =>
    d.when (natBit i (d.engine e).piInvoked.toNat) (fun d => d.setCoef e 1 i 0x80 true (d.coefWord e 1 i 0x81 true))))

/-- LIM M1 (R244). -/
def execLimCircle (e : Fin 12) (f : EngFields) (s : State) : Host.Outcome State Fault Refusal :=
  s.onDev (Dev.invoke e.val 4 2 1 2 f (fun inst d =>
    let a := rd (d.v e.val f.a.val)
    let b := rd (d.v e.val f.b.val)
    let mode := d.coefWord e.val 4 inst 3 true
    let (w0, d) := if mode = 0 ∨ mode = 1 then ((0 : Word), d) else d.free
    let (w1, d) := if mode = 0 ∨ mode = 1 then ((0 : Word), d) else d.free
    let o := limCircleOuts a b (d.coefIn e.val 4 inst 0) mode w0 w1
    let acts := o.1.ne a || o.2.ne b
    let d := d.putUnit e.val 4 inst f.d.val { outs := [o.1, o.2], flags := flagsOf [(acts, 2)] }
    d.when acts (Dev.freezePi e.val (d.coefWord e.val 4 inst 2 true))))

/-! ### PLL, OBS -/

/-- PLL (R245). -/
def pllCalc (al be _c : FpOut) (k : Nat → FpOut) : UnitOut :=
  let th := k 0x80
  let m := (al.sq.add be.sq).sqrt
  let t := k 5
  let fn := k 2
  let next := fun (f : FpOut) => (th.add (f.mul t)).frac
  if m.ge (k 6) then
    let err := ((be.mul th.cos).sub (al.mul th.sin)).div m
    let fi := ((k 0x82).add ((k 1).mul err)).clamp ((k 4).sub fn) ((k 3).sub fn)
    let f := ((fn.add fi).add ((k 0).mul err)).clamp (k 4) (k 3)
    { outs := [th, f, m], state := [(0x80, next f), (0x81, f), (0x82, fi)] }
  else
    let f := fn.add (k 0x82)
    { outs := [th, f, m], state := [(0x80, next f), (0x81, f)], flags := flagsOf [(m.lt (k 6), 5)] }

/-- PLL. -/
def execPll (e : Fin 12) (f : EngFields) (s : State) : Host.Outcome State Fault Refusal := s.onDev (Dev.unitOp e.val 5 1 0 3 f pllCalc)

/-- OBS (R246): measured current, applied voltage. -/
def obsCalc (iam ibm va vb : FpOut) (k : Nat → FpOut) : UnitOut :=
  let ia := k 0x80
  let ib := k 0x81
  let th := k 0x84
  let f := k 0x85
  let fi := k 0x86
  let t := k 2
  let g := (k 3).mul ((k 1).div t)
  let ea := (k 0x82).sub (g.mul (iam.sub ia))
  let eb := (k 0x83).sub (g.mul (ibm.sub ib))
  let tl := t.div (k 1)
  let ia' := iam.add (tl.mul ((va.sub ((k 0).mul iam)).sub ea))
  let ib' := ibm.add (tl.mul ((vb.sub ((k 0).mul ibm)).sub eb))
  let m := (ea.sq.add eb.sq).sqrt
  let above := m.ge (k 7)
  let dd := (f.sign.mul ((ea.neg.mul th.cos).sub (eb.mul th.sin))).div m
  let fi' := if above then (fi.add ((k 5).mul dd)).clamp (k 8).neg (k 8) else fi
  let f' := if above then (fi'.add ((k 4).mul dd)).clamp (k 8).neg (k 8) else f
  let dist := (iam.sub ia).sq.add (ibm.sub ib).sq
  let conf := m.sq.div ((m.sq.add ((k 6).sq.mul dist)).add (k 7).sq)
  { outs := [th, f', conf]
    state := [(0x80, ia'), (0x81, ib'), (0x82, ea), (0x83, eb), (0x84, (th.add (f'.mul t)).frac), (0x85, f'), (0x86, fi')]
    flags := flagsOf [(m.lt (k 7), 6)] }

/-- OBS: current α β in A, A+1 and voltage α β in B, B+1. -/
def execObs (e : Fin 12) (f : EngFields) (s : State) : Host.Outcome State Fault Refusal :=
  s.onDev (Dev.invoke e.val 6 1 0 3 f (fun inst d =>
    let a := d.v e.val f.a.val
    let (a1, d) := d.vNext e.val f.a.val
    let b := d.v e.val f.b.val
    let (b1, d) := d.vNext e.val f.b.val
    d.putUnit e.val 6 inst f.d.val (obsCalc (rd a) (rd a1) (rd b) (rd b1) (d.coefIn e.val 6 inst))))

/-! ### SVM -/

/-- Largest and smallest of three. -/
def FpOut.max3 (x y z : FpOut) : FpOut := (x.max y).max z
def FpOut.min3 (x y z : FpOut) : FpOut := (x.min y).min z

/-- SVM in a mode (R247): limit, scaling, zero sequence, outputs. -/
def svmCalc (mode : Nat) (al be vdc : FpOut) (k : Nat → FpOut) : UnitOut :=
  let idle := if mode = 2 then f0 else fHalf
  let anyNan := al.isNan || be.isNan || vdc.isNan
  if anyNan || vdc.lt (k 4) then
    { outs := [idle, idle, ⟨idle.val, al.flags ||| be.flags ||| vdc.flags⟩], flags := flagsOf [(true, 4), (anyNan, 10)] }
  else
    let ph := inverseClarke al be
    let va := nth f0 ph 0
    let vb := nth f0 ph 1
    let vc := nth f0 ph 2
    let lim := if mode = 1 then f2.mul (FpOut.max3 va.abs vb.abs vc.abs) else (FpOut.max3 va vb vc).sub (FpOut.min3 va vb vc)
    let top := (k 0).mul vdc
    let sat := top.lt lim
    let scale := fun (x : FpOut) => if sat then x.mul (top.div lim) else x
    let va := scale va
    let vb := scale vb
    let vc := scale vc
    let mx := FpOut.max3 va vb vc
    let mn := FpOut.min3 va vb vc
    let half := vdc.div f2
    let mid := (mx.add mn).neg.div f2
    let v0 := match mode with
      | 0 => mid
      | 1 => f0
      | 2 => mid.add (((k 1).mul vdc).div f2)
      | _ => if (mx.add mn).ge f0 then half.sub mx else half.neg.sub mn
    let out := fun (x : FpOut) =>
      let y := match mode with
        | 1 => fHalf.add (x.div vdc)
        | 2 => (x.add v0).div half
        | _ => fHalf.add ((x.add v0).div vdc)
      y.clamp (k 2) (k 3)
    { outs := [out va, out vb, out vc], flags := flagsOf [(sat, 3)] }

/-- SVM M0. -/
def execSvmSvpwm (e : Fin 12) (f : EngFields) (s : State) : Host.Outcome State Fault Refusal :=
  s.onDev (Dev.unitOp e.val 7 4 0 3 f (svmCalc 0))

/-- SVM M1. -/
def execSvmSinusoidal (e : Fin 12) (f : EngFields) (s : State) : Host.Outcome State Fault Refusal :=
  s.onDev (Dev.unitOp e.val 7 4 1 3 f (svmCalc 1))

/-- SVM M2. -/
def execSvmThreeLevel (e : Fin 12) (f : EngFields) (s : State) : Host.Outcome State Fault Refusal :=
  s.onDev (Dev.unitOp e.val 7 4 2 3 f (svmCalc 2))

/-- SVM M3. -/
def execSvmDiscontinuous (e : Fin 12) (f : EngFields) (s : State) : Host.Outcome State Fault Refusal :=
  s.onDev (Dev.unitOp e.val 7 4 3 3 f (svmCalc 3))

/-! ### DTC -/

/-- The lane carries TELE link frames: it is READY and asks for them (R363, R366). -/
def Dev.laneTele (d : Dev) (g : Nat) : Bool := d.fld (Reg.FL_STAT g) 2 0 == 4 && d.bit (Reg.FL_CTRL g) 16

/-- The leg has delays that its lane delivered within the last 4 periods (R249, R364). -/
def Dev.delaysFresh (d : Dev) (g k : Nat) : Bool :=
  d.laneGroup g && d.laneTele g && d.fld (Reg.FL_FE_LEG g k) 15 8 < 4

/-- The carrier length in ticks of the period that begins at the group's next reload (R248). -/
def Dev.nextCarrier (d : Dev) (g : Nat) : Nat :=
  let n := d.fld (Reg.PG_NEXT_LEN g) 19 0
  if 2 ≤ d.fld (Reg.PG_CARRIER g) 1 0 && d.bit (Reg.PG_CARRIER g) 2 then 2 * n else n

/-- DTC (R248 to R250). `high` chooses the high-side delays. -/
def Dev.dtcOp (e inst r : Nat) (a b : FpOut) (d : Dev) : Dev :=
  let leg := (d.coefWord e 8 inst 0 true).toNat
  let g := leg / 4
  let k := leg % 4
  if 48 ≤ leg ∨ natBit g (d.owned e) = false then
    (d.setV e r a.val).cluFlag e 9
  else
    let src := d.coefWord e 8 inst 5 true
    let (w, d) := if (src = 0 ∨ src = 1) ∧ b.isNan = false then ((0 : Word), d) else d.free
    let high := if b.isNan then bitAt 0 w else b.ge f0
    let tele := src = 0 ∨ (src ≠ 1 ∧ bitAt 1 w = true)
    let reg := if high then d.reg (Reg.FL_DLY_H g k) else d.reg (Reg.FL_DLY_L g k)
    let fresh := d.delaysFresh g k && Machine.fld 15 0 reg != 0xFFFF && Machine.fld 31 16 reg != 0xFFFF
    let ton : Int := if tele ∧ fresh = true then (Machine.fld 15 0 reg : Int) else (d.coefWord e 8 inst 2 true).toInt
    let toff : Int := if tele ∧ fresh = true then (Machine.fld 31 16 reg : Int) else (d.coefWord e 8 inst 3 true).toInt
    let dt : Int := d.fld (Reg.PG_DT g) 15 0
    let share := (b.div (d.coefIn e 8 inst 1)).clamp (lit 0xBF800000) f1
    let num := ((d.coefIn e 8 inst 4).mul share).mul (lit (fpOfIntZ (dt + ton - toff)))
    let den := lit (fpOfIntZ ((32 * d.nextCarrier g : Nat) : Int))
    let y := a.add (num.div den)
    ((d.setOuts e r [y]).when (tele ∧ fresh = false) (Dev.cluFlag e 8))

/-- DTC. -/
def execDtc (e : Fin 12) (f : EngFields) (s : State) : Host.Outcome State Fault Refusal :=
  s.onDev (Dev.invoke e.val 8 1 0 1 f (fun inst d => d.dtcOp e.val inst f.d.val (rd (d.v e.val f.a.val)) (rd (d.v e.val f.b.val))))

/-! ### VSM -/

/-- VSM (R251): power, voltage α β. -/
def vsmCalc (p va vb : FpOut) (k : Nat → FpOut) : UnitOut :=
  let th := k 0x80
  let f := k 0x81
  let en := k 0x82
  let t := k 5
  let fn := k 2
  let dp := ((k 0).sub p).div (k 1)
  let f1' := f.add (((t.div (k 3)).mul fn).mul (dp.sub (((k 4).mul (f.sub fn)).div fn)))
  let f2' := f1'.clamp (fn.mul (f1.sub (k 9))) (fn.mul (f1.add (k 9)))
  let e1 := en.add (((k 7).mul t).mul ((k 6).sub (va.sq.add vb.sq).sqrt))
  let e2 := e1.clamp f0 (k 8)
  { outs := [th, f2', e2]
    state := [(0x80, (th.add (f2'.mul t)).frac), (0x81, f2'), (0x82, e2)]
    flags := flagsOf [(f2'.ne f1' || e2.ne e1, 7)] }

/-- VSM: power in A, voltage α β in B, B+1. -/
def execVsm (e : Fin 12) (f : EngFields) (s : State) : Host.Outcome State Fault Refusal :=
  s.onDev (Dev.invoke e.val 9 1 0 3 f (fun inst d =>
    let a := d.v e.val f.a.val
    let b := d.v e.val f.b.val
    let (b1, d) := d.vNext e.val f.b.val
    d.putUnit e.val 9 inst f.d.val (vsmCalc (rd a) (rd b) (rd b1) (d.coefIn e.val 9 inst))))

end Sys2Proof.Machine
end

