-- ==== Sys2Proof/Machine/Group.lean ====
section
/-!
DEFINITION. PWM groups (spec/08): carriers and their lengths, duty shadows and reloads, edges and dead time, group states, and the
sync chain. What a reload does beyond the group's own page stands in the files of the blocks concerned.
-/

namespace Sys2Proof.Machine

/-! ### Carrier and lengths (R266 to R270, R136, R288 to R294) -/

/-- The group's timebase is enabled (R262). -/
def Dev.groupEn (d : Dev) (g : Nat) : Bool := d.bit (Reg.PG_CTRL g) 0

/-- The carrier counts up and down: MODE 2, and 3 which acts as 2 (R300). -/
def Dev.upDown (d : Dev) (g : Nat) : Bool := 2 ≤ d.fld (Reg.PG_CARRIER g) 1 0

/-- Double update is in force (R266). -/
def Dev.doubleUpd (d : Dev) (g : Nat) : Bool := d.upDown g && d.bit (Reg.PG_CARRIER g) 2

/-- SYNC.MODE: 0 FREE, 1 FOLLOW, 2 ALIGN; 3 acts as 0 (R300). -/
def Dev.syncMode (d : Dev) (g : Nat) : Nat := let m := d.fld (Reg.PG_SYNC g) 1 0; if m = 3 then 0 else m

/-- A carrier length as applied: held to 800 to 400 000 ticks, even for the up-down carrier (R267). -/
def Dev.applyLen (d : Dev) (g : Nat) (len : Int) : Nat :=
  let l := (clampInt 800 400000 len).toNat
  if d.upDown g then l - l % 2 else l

/-- DITHER.D in half percent, values above 20 acting as 20 (R296). -/
def Dev.ditherD (d : Dev) (g : Nat) : Nat := min 20 (d.fld (Reg.PG_DITHER g) 28 24)

/-- The group dithers: FREE, with DITHER.EN (R139, R290). -/
def Dev.dithers (d : Dev) (g : Nat) : Bool := d.bit (Reg.PG_DITHER g) 31 && d.syncMode g == 0

/-- A dithered length: round(nominal × (1 + u)) for some u within ±D, otherwise as the LFSR gives it (R136). -/
def ditherLen (nominal dd lfsr : Nat) : Int :=
  let lo := (2 * nominal * (200 - dd) + 199) / 400
  let hi := (2 * nominal * (200 + dd) + 200) / 400
  clampInt lo hi (Config.ditherPick nominal dd lfsr)

/-- A FOLLOW group with a group before it: its carriers start at an offset from that group's (R288). -/
def Dev.follows (d : Dev) (g : Nat) : Bool := g != 0 && d.syncMode g == 1

/-- The length of the group's next carrier, and the state of its LFSR and of the SYNC_IN correction after the draw. A FOLLOW group
takes that of the predecessor's carrier that will start it: one under way, or the predecessor's next. -/
def Dev.drawLen (d : Dev) (g : Nat) : Nat × Nat × Int :=
  let x := d.group g
  let nominal := d.fld (Reg.PG_PERIOD g) 18 0
  if d.syncMode g = 1 ∧ g = 0 then (d.applyLen g (nominal + x.corr), x.lfsr, 0)
  else if d.syncMode g = 1 then
    (d.applyLen g (match x.starts with
      | s :: _ => s.2
      | [] => (d.group (g - 1)).nextCar), x.lfsr, x.corr)
  else if d.dithers g then
    (let next := Config.lfsrStep x.lfsr % 2 ^ 23
     (d.applyLen g (ditherLen (d.applyLen g nominal) (d.ditherD g) next), next, x.corr))
  else (d.applyLen g nominal, x.lfsr, x.corr)

/-- A length drawn for the group's next carrier. -/
def Dev.fixNext (g : Nat) (d : Dev) : Dev :=
  let r := d.drawLen g
  d.modGroup g (fun x => { x with nextCar := r.1, lfsr := r.2.1, corr := r.2.2 })

/-- Length of the current period in ticks. -/
def Dev.periodLen (d : Dev) (g : Nat) : Nat := if d.doubleUpd g then (d.group g).carLen / 2 else (d.group g).carLen

/-- Φ of a group for a predecessor's carrier of `len` ticks (R289). -/
def Dev.phaseTicks (d : Dev) (g len : Nat) : Nat := (d.fld (Reg.PG_SYNC g) 31 16 * len + 32768) / 65536

/-- The group's next carrier start with the length of that carrier, as far as it is fixed now: the end of the current carrier, a
start that another timebase has set, or the predecessor's next start and the offset (R288, R289). -/
def Dev.nextStart (d : Dev) : Nat → Option (Nat × Nat)
  | 0 =>
    let x := d.group 0
    if !d.groupEn 0 then none
    else if x.running then some (x.carStart + x.carLen, x.nextCar)
    else x.starts.head?.map (fun s => (s.1, (d.drawLen 0).1))
  | g + 1 =>
    let x := d.group (g + 1)
    if !d.groupEn (g + 1) then none
    else if x.running && !d.follows (g + 1) then some (x.carStart + x.carLen, x.nextCar)
    else match x.starts with
      | s :: _ => some (s.1, if d.follows (g + 1) then d.applyLen (g + 1) s.2 else (d.drawLen (g + 1)).1)
      | [] => (d.nextStart g).map (fun p =>
          (p.1 + d.phaseTicks (g + 1) p.2, if d.follows (g + 1) then d.applyLen (g + 1) p.2 else (d.drawLen (g + 1)).1))

/-- The coming reload is the peak of a double-update carrier (R268). -/
def Dev.atPeak (d : Dev) (g : Nat) : Bool := (d.group g).running && d.doubleUpd g && !(d.group g).afterPeak

/-- The tick of the group's next reload, as far as it is fixed now. -/
def Dev.reloadAt (d : Dev) (g : Nat) : Option Nat :=
  if d.atPeak g then some ((d.group g).carStart + (d.group g).carLen / 2) else (d.nextStart g).map (fun p => p.1)

/-- The tick of the group's next reload; where no start is to come, the end of its period. -/
def Dev.nextReload (d : Dev) (g : Nat) : Nat := (d.reloadAt g).getD ((d.group g).perStart + d.periodLen g)

/-- CUR_LEN and NEXT_LEN follow the lengths fixed (R270). -/
def Dev.showLens (g : Nat) (d : Dev) : Dev :=
  let x := d.group g
  let next := if d.doubleUpd g then (if x.afterPeak then x.nextCar / 2 else x.carLen / 2) else x.nextCar
  (d.setFld (Reg.PG_CUR_LEN g) 19 0 (d.periodLen g)).setFld (Reg.PG_NEXT_LEN g) 19 0 next


/-! ### The sample for a reload (R277, R280, R327) -/

/-- The owning engine holds its lock on the group (R195, R196). -/
def Dev.engineLock (d : Dev) (g : Nat) : Bool :=
  match d.ownerOf g with
  | some e => let x := d.engine e; natBit g (x.locks ||| x.lockHeld ||| x.lockAbort).toNat
  | none => false

/-- The lock in effect now. -/
def Dev.lockNow (d : Dev) (g : Nat) : Bool := d.bit (Reg.PG_UPD g) 0 || d.engineLock g

/-- The sample of the shadows and the lock, in the PWM cycle that ends one tick before a reload. -/
def Dev.takeSample (g : Nat) (d : Dev) : Dev :=
  let x := d.group g
  let old := x.sample.bind (fun s => s.force)
  let s : ReloadSample :=
    { duty := Vector.ofFn (fun k : Fin 4 => d.reg (Reg.PG_DUTY_SH g k.val)), lock := d.lockNow g
      force := if x.forceNew then some (d.reg (Reg.PG_FORCE_SH g)) else old }
  d.modGroup g (fun x => { x with sample := some s, forceNew := false })

/-- A carrier start is set for a tick; one so near that no cycle is left for its sample takes it now. -/
def Dev.setStart (g t len : Nat) (d : Dev) : Dev :=
  let d := d.modGroup g (fun x => { x with starts := x.starts ++ [(t, len)] })
  d.when (decide (t ≤ d.now + 1) && (d.group g).sample.isNone) (Dev.takeSample g)

/-- A carrier of group `g` has started: a group after it that follows, or that waits for its first start, takes the offset from it
(R288, R289). -/
def Dev.passStart (g len : Nat) (d : Dev) : Dev :=
  let h := g + 1
  let waits := d.syncMode h == 2 && !(d.group h).running && (d.group h).starts.isEmpty
  d.when (decide (h < 12) && d.groupEn h && (d.follows h || waits)) (Dev.setStart h (d.now + d.phaseTicks h len) len)

/-- The timebase of group `g` stops: a FOLLOW group after it waits for a new start (R289). -/
def Dev.dropStarts (g : Nat) (d : Dev) : Dev :=
  let h := g + 1
  d.when (decide (h < 12) && d.follows h) (Dev.modGroup h (fun x => { x with starts := [], sample := none }))

/-! ### The carrier at a reload -/

/-- The carriers since the latest pulse at SYNC_IN, counted as G0 starts one (R295). -/
def Dev.countQuiet (g : Nat) (d : Dev) : Dev :=
  d.when (g == 0) (Dev.modGroup 0 (fun x => { x with pulsed := false, quiet := if x.pulsed then 0 else x.quiet + 1 }))

/-- The timebase passes a reload: a carrier starts, or the peak of a double-update carrier passes (R268, R270). A carrier's length is
held to R267 under the mode it starts in; in FOLLOW it is that of the predecessor's carrier (R288). -/
def Dev.carrierStep (peak : Bool) (g : Nat) (d : Dev) : Dev :=
  let x := d.group g
  let dbl := d.doubleUpd g
  if peak && x.running && dbl then
    ((d.modGroup g (fun x => { x with perStart := d.now, afterPeak := true })).fixNext g).showLens g
  else
    let d := if x.running then d else d.fixNext g
    let len := d.applyLen g (match d.follows g, x.starts with
      | true, s :: _ => s.2
      | _, _ => (d.group g).nextCar)
    let d := (d.modGroup g (fun x => { x with
      lastCar := if x.running then some (x.carStart, x.carLen) else none
      running := true, carStart := d.now, perStart := d.now, carLen := len, nextCar := len, afterPeak := false
      starts := x.starts.tail })).countQuiet g
    let d := (if dbl then d else d.fixNext g).passStart g len
    (d.setBit (Reg.PG_STAT g) 8 false).showLens g

/-- A FOLLOW group whose carrier ends while its predecessor's timebase stands (R289). -/
def Dev.followStops (d : Dev) (g : Nat) : Bool :=
  let x := d.group g
  d.follows g && x.running && !d.atPeak g && x.starts.isEmpty && !(d.group (g - 1)).running && d.now == x.carStart + x.carLen

/-- The group's next reload falls in this tick: a peak, a start that has been set, or the end of the carrier (R262, R268, R288,
R289). -/
def Dev.reloadDue (d : Dev) (g : Nat) : Bool :=
  let x := d.group g
  d.groupEn g &&
    (if d.atPeak g then d.now == x.carStart + x.carLen / 2
     else if x.running && !d.follows g then d.now == x.carStart + x.carLen
     else (match x.starts with
       | s :: _ => d.now == s.1
       | [] => false) || d.followStops g)

/-! ### Duties and edges (R271 to R274) -/

/-- A duty value in force over a period of `p` ticks, in units of 1/32 tick (R273). -/
def Dev.dutyUnits (d : Dev) (g p v : Nat) : Nat :=
  if d.bit (Reg.PG_CTRL g) 16 then (min v (2 ^ 24) * (32 * p) * 2 + 2 ^ 24) / 2 ^ 25 else v

/-- The on-interval of a duty value over a period of `p` ticks that follows a peak or not, in units from its start (R271). -/
def Dev.onIntervalOf (d : Dev) (g p v : Nat) (afterPeak : Bool) : Nat × Nat :=
  let c := d.dutyUnits g p v
  let p := 32 * p
  if p ≤ c then (0, p) else
  match d.fld (Reg.PG_CARRIER g) 1 0 with
  | 0 => (0, c)
  | 1 => (p - c, p)
  | _ =>
    if d.doubleUpd g then (if afterPeak then (0, c) else (p - c, p))
    else (p / 2 - c / 2, p / 2 - c / 2 + c)

/-- The on-interval of a leg in the current period. -/
def Dev.onInterval (d : Dev) (g k : Nat) : Nat × Nat :=
  d.onIntervalOf g (d.periodLen g) (d.fld (Reg.PG_DUTY_ACT g k) 24 0) (d.group g).afterPeak

/-- The duty command at the start of a period with an on-interval. -/
def dutyAtStart (iv : Nat × Nat) : Bool := iv.1 == 0 && 0 < iv.2

/-- A force of the leg drives one of its switches (R328). -/
def Dev.forceOn (d : Dev) (g k : Nat) : Bool := d.forceMode g k == 2 || d.forceMode g k == 3

/-- The legs take their commands at the start of a period (R271, R272, R328). -/
def Dev.startLegs (g : Nat) (d : Dev) : Dev :=
  each [0, 1, 2, 3] (fun k d =>
    d.modLeg g k (fun l => { l with duty := dutyAtStart (d.onInterval g k), forced := d.forceOn g k })) d

/-! ### Transfers and the reload (R277 to R281, R327) -/

/-- The coming reload is locked, as the group has sampled it (R280). -/
def Dev.reloadLocked (d : Dev) (g : Nat) : Bool :=
  match (d.group g).sample with
  | some s => s.lock
  | none => d.lockNow g

/-- Duty shadows transfer, each with the value in the sample (R277, R278). -/
def Dev.transferDuties (g : Nat) (d : Dev) : Dev :=
  each [0, 1, 2, 3] (fun k d =>
    d.setReg (Reg.PG_DUTY_ACT g k) (match (d.group g).sample with
      | some s => vget 0 s.duty k
      | none => d.reg (Reg.PG_DUTY_SH g k))) d

/-- FORCE_SH transfers where it was written since its last transfer; a ONESHOT ends (R327). -/
def Dev.transferForce (g : Nat) (d : Dev) : Dev :=
  let v := (d.group g).sample.bind (fun s => s.force)
  match v with
  | some w => (d.setReg (Reg.PG_FORCE_ACT g) w).modGroup g (fun x => { x with oneshot := bitAt 8 w })
  | none => if (d.group g).oneshot then (d.setReg (Reg.PG_FORCE_ACT g) 0).modGroup g (fun x => { x with oneshot := false }) else d

/-- A locked reload: nothing transfers; a ONESHOT in force has had its one period (R280, R327). -/
def Dev.skipTransfer (g : Nat) (d : Dev) : Dev :=
  let d := (d.bumpSat (Reg.PG_LOCK_SKIP_CNT g) 15 0).raise (0x20 + g) 6
  let d := d.when (d.group g).oneshot (fun d =>
    (d.setReg (Reg.PG_FORCE_ACT g) 0).modGroup g (fun x => { x with oneshot := false }))
  d.modGroup g (fun x => { x with forceNew := x.forceNew || (x.sample.bind (fun s => s.force)).isSome })

/-- GSTATE at a reload (R282, R283, R317): STARTING counts down to RUN, a STOPPING entered from RUN turns its commands off, and
a cleared TRIPPED returns to RUN. -/
def Dev.stateAtReload (g : Nat) (d : Dev) : Dev :=
  let x := d.group g
  if d.gstate g = 1 then
    if x.startLeft ≤ 1 then (d.modGroup g (fun x => { x with startLeft := 0 })).setGstate g 2
    else d.modGroup g (fun x => { x with startLeft := x.startLeft - 1 })
  else if d.gstate g = 3 ∧ x.stopAtReload = true then
    d.modGroup g (fun x => { x with stopAtReload := false, cmdsOffAt := d.now })
  else if d.gstate g = 4 ∧ x.clearPending = true then
    ((d.modGroup g (fun x => { x with clearPending := false })).setFld (Reg.PG_TRIP_ACT g) 17 16 0).setGstate g 2
  else d

/-- FE_LEGk.AGE of a lane counts the group's reloads (R364). -/
def Dev.ageLegs (g : Nat) (d : Dev) : Dev := each [0, 1, 2, 3] (fun k => Dev.bumpSat (Reg.FL_FE_LEG g k) 15 8) d

/-- WIN_CNT follows a reload, with the snapshots of the window that it ended (R269). -/
def Dev.winCount (g : Nat) (d : Dev) : Dev :=
  (d.setReg (Reg.PG_WIN_CNT g) (d.reg (Reg.PG_WIN_CNT g) + 1)).modGroup g (fun x => { x with winDue := false })

/-- A reload as the group's own page takes it, before any commit that transfers on its edge: the period that ends, the duty
and force shadows, GSTATE. -/
def Dev.reloadTake (g : Nat) (d : Dev) : Dev :=
  let closed := if (d.group g).running then d.periodLen g else 0
  let d := d.modGroup g (fun x => { x with
    closedLen := closed, winDue := true, winAt := d.now, prevAt := if x.running then some x.perStart else none })
  let d := d.when (d.group g).sample.isNone (Dev.takeSample g)
  let d := if d.reloadLocked g then d.skipTransfer g else (d.transferDuties g).transferForce g
  (d.modGroup g (fun x => { x with sample := none })).stateAtReload g

/-- The period that begins at a reload, under the values in force after it; none where a transfer has stopped the timebase. -/
def Dev.reloadPeriod (peak : Bool) (g : Nat) (d : Dev) : Dev :=
  if d.groupEn g then (((d.carrierStep peak g).startLegs g).settle g).ageLegs g else d

/-- A FOLLOW group whose predecessor stands holds its timebase at its carrier's end (R289). -/
def Dev.holdTimebase (g : Nat) (d : Dev) : Dev :=
  ((d.modGroup g (fun x => { x with running := false, sample := none })).setBit (Reg.PG_STAT g) 8 true).dropStarts g

/-- A timebase that is enabled and does not run yet waits for its first start: the next tick in FREE, a start that its predecessor
sets otherwise (R288, R289). -/
def Dev.awaitStart (g : Nat) (d : Dev) : Dev :=
  let free := d.syncMode g == 0
  let d := (d.modGroup g (fun x => { x with starts := [], sample := none })).setBit (Reg.PG_STAT g) 8 (!free)
  d.when free (Dev.setStart g (d.now + 1) 0)

/-- CTRL.EN of a PG page changes (R262, R269, R288): a timebase starts from nothing, or stops with its outputs off. -/
def Dev.groupEnable (g : Nat) (en : Bool) (d : Dev) : Dev :=
  if en then
    let d := d.setReg (Reg.PG_WIN_CNT g) 0
    let d := d.modGroup g (fun x => { x with
      running := false, winDue := false, syncGood := 0, corr := 0, pulsed := false, quiet := 0, syncLost := false })
    d.awaitStart g
  else
    let d := d.modGroup g (fun x => { x with running := false, starts := [], sample := none })
    let d := ((d.setBit (Reg.PG_STAT g) 8 false).setBit (Reg.PG_STAT g) 6 false).setBit (Reg.PG_STAT g) 7 false
    (d.settle g).dropStarts g

/-- DITHER transfers: the LFSR restarts from SEED, 0 acting as 1 (R296). -/
def Dev.ditherRestart (g : Nat) (d : Dev) : Dev :=
  d.modGroup g (fun x => { x with lfsr := max 1 (d.fld (Reg.PG_DITHER g) 22 0) })

/-! ### Meanings: shadows and edges -/

/-- LATE_WRITE and LATE of a shadow write that lands in the 8 ticks before a reload or in its tick (R279): in the tick of a reload that
has passed, or in the last tick before one, the write joins the sample of the reload after it. -/
def Dev.noteLate (g : Nat) (d : Dev) : Dev :=
  let x := d.group g
  let record (next : Bool) (more : Nat) (d : Dev) : Dev :=
    let win := d.fld (Reg.PG_WIN_CNT g) 15 0 + b2n x.winDue + more
    (d.raise (0x20 + g) 0).setReg (Reg.PG_LATE g) (bitMask 31 ||| place 30 30 (b2n next) ||| place 15 0 win)
  if x.running && x.perStart == d.now then record true 1 d
  else match d.reloadAt g with
    | some t => if d.now + 8 < t then d else if t ≤ d.now + 1 then record true 2 d else record false 1 d
    | none => d

/-- A write of DUTY_SHk lands (R277 to R279): of a write of the owning engine and a direct one in one PWM cycle the engine's remains,
in whichever order they come (R281). -/
def Dev.dutyOp (m : Master) (g k : Nat) (v : Word) (d : Dev) : Dev :=
  let stamped := match m with
    | .le _ => true
    | _ => false
  let keep := !stamped && vget none (d.group g).engAt k == some d.now
  let d := if keep then d else d.setReg (Reg.PG_DUTY_SH g k) (v &&& fieldMask 24 0)
  (d.when stamped (Dev.modGroup g (fun x => { x with engAt := vset x.engAt k (some d.now) }))).noteLate g

/-- DUTY_SHADOW_WRITE (R277 to R279). -/
def execDutyShadowWrite (m : Master) (g : Fin 12) (k : Fin 4) (v : Word) (s : State) : Host.Outcome State Fault Refusal :=
  s.onDev (fun d => d.accessWrite m (Reg.PG_DUTY_SH g.val k.val) v (Dev.dutyOp m g.val k.val v))

/-- An instant in units as the group places its edges: on direct pins at the nearest tick, half up, while the delay line is not
locked (R264). -/
def Dev.placeEdge (d : Dev) (g u : Nat) : Nat := if d.bit (Reg.PG_STAT g) 6 || d.laneGroup g then u else (u + 16) / 32 * 32

/-- Instants, in units, at which the duty command of a leg goes on, or off, inside a period that starts at `s`. -/
def dutyEdges (s p : Nat) (iv : Nat × Nat) (on : Bool) : List Nat :=
  if iv.2 ≤ iv.1 then []
  else if on then (if iv.1 = 0 then [] else [s + iv.1])
  else if p ≤ iv.2 then [] else [s + iv.2]

/-- The instant at which a forced pulse ends inside a period (R328). -/
def Dev.forceEnd (d : Dev) (g k s p : Nat) : List Nat :=
  let width := d.fld (Reg.PG_FORCE_WIDTH g) 23 0
  if d.forceOn g k && width != 0 && decide (width < p) then [s + width] else []

/-- EDGE_EVENT (R264, R271 to R275, R328): in this tick the duty command of a leg goes on or off inside the period, or its forced
pulse ends. -/
def execEdgeEvent (g : Fin 12) (k : Fin 4) (on : Bool) (s : State) : Host.Outcome State Fault Refusal :=
  s.onDev (fun d =>
    let g := g.val
    let k := k.val
    let start := 32 * (d.group g).perStart
    let p := 32 * d.periodLen g
    let here (l : List Nat) : Option Nat := (l.map (d.placeEdge g)).find? (fun u => u / 32 == d.now)
    let duty := here (dutyEdges start p (d.onInterval g k) on)
    let force := if on then none else here (d.forceEnd g k start p)
    if !(d.group g).running then d
    else
      let d := d.modLeg g k (fun l => { l with
        duty := if duty.isSome then on else l.duty, forced := l.forced && force.isNone })
      match (if d.forceOn g k then force else duty) with
      | some u => d.settleLegAt g u k
      | none => d)

/-- The instant at which DT has elapsed since the later turn-off of a leg, as the group places an edge there (R264, R275). -/
def Dev.deadEnd (d : Dev) (g k : Nat) : Option Nat := (d.leg g k).offAt.map (fun t => d.placeEdge g (t + d.deadTime g))

/-- A switch of the group's own commands may turn on (R275, R302): its command is on and both switches of the leg are off. -/
def Dev.mayTurnOn (d : Dev) (g k : Nat) (high : Bool) : Bool :=
  let o := d.leg g k
  let w := d.want g k
  (if high then w.1 else w.2) && !o.onH && !o.onL && d.ownDrives g

/-- DEAD_TIME_EXPIRY (R275): in this tick DT has elapsed since the later turn-off of the leg. -/
def execDeadTimeExpiry (g : Fin 12) (k : Fin 4) (high : Bool) (s : State) : Host.Outcome State Fault Refusal :=
  s.onDev (fun d =>
    match d.deadEnd g.val k.val with
    | some u => d.when (d.mayTurnOn g.val k.val high && u / 32 == d.now) (Dev.driveAt g.val k.val high (!high) u)
    | none => d)

/-! ### The commands scheduled for a leg (R347, R386) -/

/-- A change to come of a leg's duty command or forced pulse. -/
structure CmdChange where
  at_    : Nat
  duty   : Option Bool
  forced : Option Bool
  deriving DecidableEq, Repr

def insertChange (c : CmdChange) : List CmdChange → List CmdChange
  | [] => [c]
  | x :: rest => if x.at_ ≤ c.at_ then x :: insertChange c rest else c :: x :: rest

/-- The changes inside a period of `p` ticks from tick `s` on with an on-interval, in order. -/
def Dev.changesIn (d : Dev) (g k s p : Nat) (iv : Nat × Nat) : List CmdChange :=
  let one (duty forced : Option Bool) (u : Nat) : CmdChange := { at_ := d.placeEdge g u, duty := duty, forced := forced }
  let l := (dutyEdges (32 * s) (32 * p) iv true).map (one (some true) none) ++
    (dutyEdges (32 * s) (32 * p) iv false).map (one (some false) none) ++ (d.forceEnd g k (32 * s) (32 * p)).map (one none (some false))
  l.foldr insertChange []

/-- The changes to come in the current period: those of later ticks, and those of this tick that have not been made. -/
def Dev.changesNow (d : Dev) (g k : Nat) : List CmdChange :=
  let o := d.leg g k
  (d.changesIn g k (d.group g).perStart (d.periodLen g) (d.onInterval g k)).filter (fun c =>
    d.now < c.at_ / 32 || (c.at_ / 32 == d.now && (c.duty.any (· != o.duty) || c.forced.any (· != o.forced))))

/-- The changes in the period after the next reload, under the values in force now. -/
def Dev.changesNext (d : Dev) (g k : Nat) : List CmdChange :=
  match d.reloadAt g with
  | some s =>
    let p := d.fld (Reg.PG_NEXT_LEN g) 19 0
    let iv := d.onIntervalOf g p (d.fld (Reg.PG_DUTY_ACT g k) 24 0) (d.atPeak g)
    { at_ := 32 * s, duty := some (dutyAtStart iv), forced := some (d.forceOn g k) } :: d.changesIn g k s p iv
  | none => []

/-- A leg with its switches as they are from an instant on. -/
def Leg.turn (at_ : Nat) (r : Bool × Bool) (o : Leg) : Leg :=
  { o with onH := r.1, onL := r.2, offAt := if (o.onH && !r.1) || (o.onL && !r.2) then some at_ else o.offAt }

/-- The turn-on of a switch that waits for its dead time, where it ends before `till`. -/
def Dev.waitingOn (d : Dev) (g k till : Nat) (o : Leg) : List (Nat × Bool × Bool) :=
  let w := d.ownWant g k o
  match o.offAt with
  | some t =>
    let u := d.placeEdge g (t + d.deadTime g)
    if !o.onH && !o.onL && (w.1 || w.2) && decide (u < till) then [(u, w.1, w.2)] else []
  | none => []

/-- What a leg does from now on under the group's own commands, as a list of instants with the switches from each on: at each change
it follows its command. -/
def Dev.playLeg (d : Dev) (g k : Nat) : List CmdChange → (till : Nat) → Leg → List (Nat × Bool × Bool)
  | [], till, o => d.waitingOn g k till o
  | c :: rest, till, o =>
    let wait := d.waitingOn g k c.at_ o
    let o := match wait with
      | w :: _ => o.turn w.1 w.2
      | [] => o
    let next := { o with duty := c.duty.getD o.duty, forced := c.forced.getD o.forced }
    let r := next.follow (d.deadTime g) c.at_ true (d.ownWant g k next)
    let here := if r.1 == o.onH && r.2 == o.onL then [] else [(c.at_, r.1, r.2)]
    wait ++ here ++ d.playLeg g k rest till (next.turn c.at_ r)

/-- The turn-on to come of an ASC low side (R311, R321). -/
def Dev.ascToCome (d : Dev) (g k till : Nat) : List (Nat × Bool × Bool) :=
  let u := if d.sloeHolds g then 32 * (vget 0 d.sloe.holdAt g + 10 * d.actFld (Reg.SLOE_PSAFE g) 7 0)
    else (d.group g).ascAt + d.deadTime g
  if (d.want g k).2 && !(d.leg g k).onL && decide (d.nowUnits ≤ u) && decide (u < till) then [(u, false, true)] else []

/-- The scheduled changes of a leg's switches: under the group's own commands, or under the action that applies. -/
def Dev.schedule (d : Dev) (g k : Nat) (changes : List CmdChange) (till : Nat) : List (Nat × Bool × Bool) :=
  if !d.ownDrives g then d.ascToCome g k till
  else if d.cmdsLive g then d.playLeg g k changes till (d.leg g k)
  else []

/-- The scheduled changes up to the next reload. -/
def Dev.periodSchedule (d : Dev) (g k : Nat) : List (Nat × Bool × Bool) :=
  d.schedule g k (d.changesNow g k) (32 * d.nextReload g)

/-- The low side of a leg is on without interruption from one instant to another, both in units, in what the leg has done and in what
is scheduled for it over this period and the next. -/
def Dev.lowOnThrough (d : Dev) (g k u0 u1 : Nat) : Bool :=
  let past := (d.leg g k).hist.reverse.map (fun e => (e.at_, e.h, e.l))
  let line := past ++ d.schedule g k (d.changesNow g k ++ d.changesNext g k) (u1 + 1)
  let start := (line.filter (fun e => e.1 ≤ u0)).getLast?.any (fun e => e.2.2)
  start && line.all (fun e => e.1 ≤ u0 || u1 < e.1 || e.2.2)

/-! ### Meanings: START, STOP and OFF (R282 to R286) -/

/-- A page that serves the group waits for a commit transfer (R285). -/
def Dev.commitWaits (d : Dev) (g : Nat) : Bool :=
  d.bit (Reg.PG_STAT g) 30 || d.bit (Reg.FL_STAT g) 30 || d.bit (Reg.MC_STAT g) 30 ||
    (match d.ownerOf g with
     | some e => d.bit (Reg.LE_STAT e) 30
     | none => false)

/-- The group has an owning engine in IDLE or FRAME (R208, R285, R316). -/
def Dev.ownerReady (d : Dev) (g : Nat) : Bool :=
  match d.ownerOf g with
  | some e => d.estate e == 2 || d.estate e == 3
  | none => false

/-- The lane of the group is READY (R366). -/
def Dev.laneReady (d : Dev) (g : Nat) : Bool := d.fld (Reg.FL_STAT g) 2 0 == 4

/-- Cause of the first condition of R285 that fails, 0 where START is accepted. -/
def Dev.startCause (d : Dev) (g : Nat) : Nat :=
  if d.gstate g = 3 then 2
  else if d.gstate g ≠ 0 then 1
  else if d.cstate ≠ 3 then 3
  else if !d.ownerReady g then 4
  else if !(d.groupEn g && !d.bit (Reg.PG_STAT g) 8) then 5
  else if !d.laneGroup g && !d.bit (Reg.PG_STAT g) 6 then 6
  else if d.laneGroup g && !d.laneReady g then 7
  else if d.latched g then 8
  else if d.commitWaits g then 9
  else 0

/-- START at one group (R285): accepted into STARTING, where Sloe's hold ends, or refused with its cause. -/
def Dev.startGroup (g : Nat) (d : Dev) : Dev :=
  let c := d.startCause g
  let d := d.setReg (Reg.PG_START_RES g) (bitMask 31 ||| place 15 8 c)
  if c = 0 then
    let d := d.modGroup g (fun x => { x with
      startLeft := 2 + d.fld (Reg.PG_CARRIER g) 15 8, stopAtReload := false, stateSentAt := none })
    (d.setGstate g 1).holdEnd g
  else d.raise (0x20 + g) (if c = 2 then 2 else 1)

/-- STOP, or STOP_NOW where `now` holds, at one group (R284, R286). A trip action stays with its latch; where the latch has been
cleared the action ends with TRIPPED (R302, R309). -/
def Dev.stopGroup (now : Bool) (g : Nat) (d : Dev) : Dev :=
  let st := d.gstate g
  if st = 1 ∨ st = 2 ∨ st = 4 then
    let d := d.modGroup g (fun x => { x with
      stopAtReload := st == 2 && !now, clearPending := false, stateSentAt := none, cmdsOffAt := d.now })
    let d := d.when (st == 4 && !d.latched g) (Dev.setFld (Reg.PG_TRIP_ACT g) 17 16 0)
    let d := d.setGstate g 3
    d.settle g
  else d.raise (0x20 + g) 3

/-- START (R285). -/
def execStart (m : Master) (g : Fin 12) (s : State) : Host.Outcome State Fault Refusal :=
  s.onDev (fun d => d.accessWrite m (Reg.PG_CMD g.val) 1 (Dev.startGroup g.val))

/-- STOP (R284). -/
def execStop (m : Master) (g : Fin 12) (s : State) : Host.Outcome State Fault Refusal :=
  s.onDev (fun d => d.accessWrite m (Reg.PG_CMD g.val) 2 (Dev.stopGroup false g.val))

/-- STOP_NOW (R284). -/
def execStopNow (m : Master) (g : Fin 12) (s : State) : Host.Outcome State Fault Refusal :=
  s.onDev (fun d => d.accessWrite m (Reg.PG_CMD g.val) 3 (Dev.stopGroup true g.val))

/-- The groups that a group mask names. -/
def groupsOf (v : Word) : List Nat := twelve.filter (fun g => bitAt g v)

/-- GSTART (R286). -/
def execGstart (m : Master) (v : Word) (s : State) : Host.Outcome State Fault Refusal :=
  s.onDev (fun d => d.accessWrite m Reg.PWMSYS_GSTART v (each (groupsOf v) Dev.startGroup))

/-- GSTOP (R286). -/
def execGstop (m : Master) (v : Word) (s : State) : Host.Outcome State Fault Refusal :=
  s.onDev (fun d => d.accessWrite m Reg.PWMSYS_GSTOP v (each (groupsOf v) (Dev.stopGroup false)))

/-- The instant of OFF has come for a stopping group (R284): the tick after its own commands went off, or, on a lane, 400 ns after the
first STATE frame since then has left the balls. -/
def Dev.offDue (d : Dev) (g : Nat) : Bool :=
  let x := d.group g
  d.gstate g == 3 && !x.stopAtReload &&
    (if d.laneGroup g then (match x.stateSentAt with
      | some t => decide (t + 16 + 160 ≤ d.now)
      | none => false)
     else decide (x.cmdsOffAt < d.now))

/-- GROUP_OFF (R284). -/
def execGroupOff (g : Fin 12) (s : State) : Host.Outcome State Fault Refusal :=
  s.onDev (fun d => d.when (d.offDue g.val) (Dev.setGstate g.val 0))

/-! ### Meanings: delay line and sync chain -/

/-- DL_LOCK (R263): the delay line of an enabled group locks. -/
def execDlLock (g : Fin 12) (s : State) : Host.Outcome State Fault Refusal :=
  s.onDev (fun d => d.when (d.groupEn g.val) (Dev.setBit (Reg.PG_STAT g.val) 6 true))

/-- DL_UNLOCK (R264): a loss of lock, an event for a direct-pin group. -/
def execDlUnlock (g : Fin 12) (s : State) : Host.Outcome State Fault Refusal :=
  s.onDev (fun d =>
    if d.bit (Reg.PG_STAT g.val) 6 then
      (d.setBit (Reg.PG_STAT g.val) 6 false).when (!d.laneGroup g.val) (Dev.raise (0x20 + g.val) 5)
    else d)

/-- The signed tick difference from the carrier start of G0 nearest to an instant: of the current carrier, of the next, or of the one
after it. -/
def Dev.syncError (d : Dev) (t : Nat) : Int :=
  let x := d.group 0
  let near (a b : Int) : Int := if a.natAbs ≤ b.natAbs then a else b
  let e (s : Nat) : Int := (t : Int) - s
  near (near (e x.carStart) (e (x.carStart + x.carLen))) (e (x.carStart + x.carLen + x.nextCar))

/-- Φ of G0, from PG0.PERIOD (R294). -/
def Dev.syncPhase (d : Dev) : Nat := d.phaseTicks 0 (d.fld (Reg.PG_PERIOD 0) 18 0)

/-- PWMSYS.SYNC_IN.SLEW. -/
def Dev.syncSlew (d : Dev) : Nat := d.fld Reg.PWMSYS_SYNC_IN 7 0

/-- SYNC_IN_PULSE (R288, R293 to R295): pulses under 4 ticks are ignored; the first sets the start of G0's first carrier, each later
one corrects a FOLLOW G0 and counts toward SYNC_LOCK. The command stands for the instant at which the pulse reaches the chain. -/
def execSyncInPulse (ticks : Nat) (s : State) : Host.Outcome State Fault Refusal :=
  s.onDev (fun d =>
    if ticks < 4 ∨ d.groupEn 0 = false ∨ d.syncMode 0 = 0 then d
    else if !(d.group 0).running then
      (if (d.group 0).starts.isEmpty then d.setStart 0 (d.now + d.syncPhase) 0 else d).modGroup 0 (fun x => { x with
        pulsed := true, syncLost := false })
    else if d.syncMode 0 = 1 then
      let e := d.syncError (d.now + d.syncPhase)
      let slew := d.syncSlew
      let c := clampInt (-(slew : Int)) slew e
      let good := if e.natAbs ≤ slew then (d.group 0).syncGood + 1 else 0
      let d := d.modGroup 0 (fun x => { x with
        pulsed := true, syncLost := false, syncGood := good, corr := if d.upDown 0 then 2 * (c.tdiv 2) else c })
      (d.setFld (Reg.PG_SYNC_ERR 0) 15 0 (unsignedOf 16 e)).setBit (Reg.PG_STAT 0) 7 (8 ≤ good)
    else d)

/-- SYNC_LOST (R295, R301): LOSS carriers of G0, 0 acting as 1, have passed without a pulse. -/
def execSyncLost (s : State) : Host.Outcome State Fault Refusal :=
  s.onDev (fun d =>
    let x := d.group 0
    if d.syncMode 0 = 1 ∧ x.running = true ∧ x.syncLost = false ∧ max 1 (d.fld Reg.PWMSYS_SYNC_IN 15 8) ≤ x.quiet then
      ((d.modGroup 0 (fun x => { x with syncGood := 0, corr := 0, syncLost := true })).setBit (Reg.PG_STAT 0) 7 false).raise 0x20 4
    else d)

/-- SYNC_OUT_PULSE (R292): SYNC_OUT rises, ADV ticks before a carrier start of the group SEL; SEL 12 to 15 drives no pulse. -/
def execSyncOutPulse (s : State) : Host.Outcome State Fault Refusal :=
  s.onDev (fun d =>
    let sel := d.fld Reg.PWMSYS_SYNC_OUT 19 16
    let adv := d.fld Reg.PWMSYS_SYNC_OUT 7 0
    let due := (if (d.group sel).running && (d.group sel).carStart == d.now then adv == 0 else false) ||
      (d.nextStart sel).any (fun p => p.1 == d.now + adv)
    if d.bit Reg.PWMSYS_SYNC_OUT 31 ∧ sel < 12 ∧ due = true then (Dev.putSyncOutAt (some d.now) d) else d)

/-- COMMUTATION_EVENT (R323, R324): the mask that MCn has posted lands. -/
def execCommutationEvent (g : Fin 12) (s : State) : Host.Outcome State Fault Refusal :=
  s.onDev (Dev.mcMask g.val)

end Sys2Proof.Machine
end

