-- ==== Sys2Proof/Machine/Adc.lean ====
section
/-!
DEFINITION. Conversions, trackers with the plausibility check, reference buffers, system calibration, the trim of interleaved
pairs, and sigma-delta channels (spec/11).
-/

namespace Sys2Proof.Machine

/-! ### Comparators as the plausibility check sees them (R406, R407, R409 to R411) -/

/-- CMPj works: both EN, its page not held, its half's reference ready, and not the odd half of a differential pair (R391, R407,
R412). -/
def Dev.cmpLive (d : Dev) (j : Nat) : Bool :=
  d.bit Reg.CMP_CTRL 0 && d.bit (Reg.CMP_CFG j) 31 && !d.pageHeld 0x5F && d.refReady (j / 32) && !(j % 2 == 1 && d.diffInput j)

/-- The tracker's source converts on a grid, on the comparator's own input (R411). -/
def Dev.plausFits (d : Dev) (j : Nat) : Bool :=
  let src := cfgSrc (d.mmxCfg (d.fld (Reg.CMP_CFG j) 21 16))
  let c := src / 4
  src < 0x60 && src % 4 == 0 && d.convMode c != 0 && d.fld (Reg.AC_SLOT (d.convLead c) 0) 5 0 == j

/-- The check of CMPj is set and can run. -/
def Dev.plausOn (d : Dev) (j : Nat) : Bool := d.bit (Reg.CMP_CFG j) 15 && d.plausFits j && d.cmpLive j

/-- CMP.STAT.PLAUS_CFG_ERR as a transfer sets it (R411). -/
def Dev.plausCfg (d : Dev) : Dev :=
  d.setBit Reg.CMP_STAT 0 ((List.range 64).any (fun j => d.bit (Reg.CMP_CFG j) 15 && !d.plausFits j))

/-- The raw outputs of a comparator. -/
def Dev.cmpRaw (d : Dev) (j : Nat) : CompRaw := vget {} d.cmps j

/-- An unfiltered output takes a level at an instant; its finished span is kept where a plausibility check needs it. -/
def CompSide.level (now : Nat) (active keep : Bool) (x : CompSide) : CompSide :=
  if x.act == active then x
  else { x with act := active, since := now, spans := if !keep then [] else if x.act then x.spans ++ [(x.since, now)] else x.spans }

/-- The active spans up to an instant, the one that still runs included. -/
def CompSide.upTo (now : Nat) (x : CompSide) : List (Nat × Nat) := if x.act then x.spans ++ [(x.since, now)] else x.spans

/-- Two grid intervals of a converter in ticks (R409). -/
def Dev.twoIntervals (d : Dev) (c : Nat) : Nat := if d.convMode c = 2 then 40 else 80

/-- A level in codes (R406, R407). -/
def Dev.cmpLevel (d : Dev) (j t : Nat) : Int := if d.diffInput j then ((t : Int) - 2048) * 16 else (t : Int) * 16

/-- HYST in codes. -/
def Dev.cmpHyst (d : Dev) (j : Nat) : Int :=
  match d.fld (Reg.CMP_THR j) 31 30 with
  | 0 => 0 | 1 => 64 | 2 => 128 | _ => 256

/-- A finding of the check (R411). -/
def Dev.plausFinding (kind dir j : Nat) (d : Dev) : Dev :=
  let d := (d.raise 0x5F 1).bumpSat Reg.CMP_PLAUS_CNT 15 0
  d.when (!d.bit Reg.CMP_PLAUS_REC 31)
    (Dev.setReg Reg.CMP_PLAUS_REC (bitMask 31 ||| place 17 16 kind ||| place 8 8 dir ||| place 5 0 j))

/-- The check of one output of CMPj over a tracker window [open, close), its extreme mirrored for LO so that a greater value lies
further beyond the level (R409, R410). -/
def Dev.plausSide (j dir : Nat) (from_ close : Nat) (long : Nat) (x : CompSide) (level extreme : Int) (d : Dev) : Dev :=
  let hyst := d.cmpHyst j
  let mu := (d.fld (Reg.CMP_CFG j) 29 24 : Int) * 16
  let spans := x.upTo d.now
  let held := spans.any (fun p => (max p.1 from_) + long ≤ min p.2 close)
  let seen := spans.any (fun p => from_ ≤ p.2 && p.1 ≤ close + 40)
  let d := d.when (held && decide (extreme < 256 * (level - hyst - mu))) (Dev.plausFinding 1 dir j)
  d.when (!seen && decide (256 * (level + mu) < extreme)) (Dev.plausFinding 2 dir j)

/-- The check of CMPj at the close of its tracker's window (R409 to R411); an EMPTY window has no extremes to check. The spans that
end with the window are not needed any more. -/
def Dev.plausCheck (from_ close : Nat) (w : Window) (j : Nat) (d : Dev) : Dev :=
  let r := d.cmpRaw j
  let long := d.twoIntervals (cfgSrc (d.mmxCfg (d.fld (Reg.CMP_CFG j) 21 16)) / 4)
  let d := match w.max, w.min with
    | some hi, some lo =>
      (d.plausSide j 0 from_ close long r.hi (d.cmpLevel j (d.fld (Reg.CMP_THR j) 27 16)) hi).plausSide j 1 from_ close long r.lo
        (-(d.cmpLevel j (d.fld (Reg.CMP_THR j) 11 0))) (-lo)
    | _, _ => d
  let keep (x : CompSide) : CompSide := { x with spans := x.spans.filter (fun p => decide (close < p.2)) }
  (Dev.putCmps (vset d.cmps j { r with hi := keep r.hi, lo := keep r.lo }) d)

/-- The checks that name a tracker, over one of its windows. -/
def Dev.checkWindow (x : WindowCheck) (d : Dev) : Dev :=
  each ((List.range 64).filter (fun j => d.plausOn j && d.fld (Reg.CMP_CFG j) 21 16 == x.mmx)) (Dev.plausCheck x.start x.close x.window) d

/-- The checks whose instant has come: 200 ns after the close of a COUNT window. -/
def Dev.checksDue (d : Dev) : Dev :=
  let due (x : WindowCheck) : Bool := decide (x.close + 80 ≤ d.now)
  let xs := d.acq.checks.filter due
  each xs Dev.checkWindow (d.modAcq (fun a => { a with checks := a.checks.filter (fun x => !due x) }))

/-! ### Trackers -/

/-- A COUNT window of a tracker that is full closes (R381, R382): it ends with the sampling instant of its last conversion, which was
at `close`, and is checked 200 ns after it. -/
def Dev.closeCountMmx (m close : Nat) (d : Dev) : Dev :=
  let u := d.mmxUnit m
  if countFull (d.mmxCfg m) u.cur then
    let d := (d.modMmx m (fun u => { u with
      cur := { modFault := d.srcFault (cfgSrc (d.mmxCfg m)) }, curAt := close })).publishMmx m u.cur
    d.modAcq (fun a => { a with checks := a.checks ++ [{ mmx := m, start := u.curAt, close := close, window := u.cur }] })
  else d

/-- A tracker takes a value of an instant. -/
def Dev.enterMmx (m no at_ : Nat) (f : Window → Window) (d : Dev) : Dev :=
  (d.modMmx m (AcqUnit.enter no f)).closeCountMmx m at_

/-- The windows of the units that took a boundary at the group's reload are published (R382): `g` names the group. -/
def Dev.publishGroup (g : Nat) (d : Dev) : Dev :=
  let close := (d.group g).winAt
  let accs := (List.range 128).filter (fun m => d.accOn m && followsGroup (d.accCfg m) g)
  let mmxs := (List.range 64).filter (fun m => d.mmxOn m && followsGroup (d.mmxCfg m) g)
  let d := each accs (fun m d =>
    match (d.accUnit m).closing with
    | some w => (d.modAcc m (fun u => { u with closing := none })).publishAcc m w.1
    | none => d) d
  each mmxs (fun m d =>
    match (d.mmxUnit m).closing with
    | some w =>
      ((d.modMmx m (fun u => { u with closing := none })).publishMmx m w.1).checkWindow
        { mmx := m, start := w.2, close := close, window := w.1 }
    | none => d) d

/-! ### Converters and triggers (R373 to R379) -/

def Dev.converter (d : Dev) (c : Nat) : Converter := vget {} d.conv c
def Dev.modConv (c : Nat) (f : Converter → Converter) (d : Dev) : Dev := (Dev.putConv (vmod {} d.conv c f) d)

/-- A ZERO or FULL step runs on the converter (R394). -/
def Dev.calOn (d : Dev) (c : Nat) : Bool :=
  match d.cal with
  | some k => k.input < 64 && k.conv == c
  | none => false

/-- The converter works: EN, and its page not held. -/
def Dev.convLive (d : Dev) (c : Nat) : Bool := d.convEn c && !d.pageHeld (0x40 + c)

/-- The delay of a group's triggers and grid (R52): 160 ticks for a lane group. -/
def Dev.laneDelay (d : Dev) (g : Nat) : Nat := if d.laneGroup g then 160 else 0

/-- A tick rounded up to an even one: the ADC cycle in which a conversion starts (R373). -/
def evenTick (t : Nat) : Nat := t + t % 2

/-- A sequence over the slots starts, with the configuration in force (R373, R375, R379): each slot occupies 40 ticks from its sampling
instant. -/
def Dev.startSeq (c : Nat) (d : Dev) : Dev :=
  let n := d.fld (Reg.AC_CFG c) 17 16
  let first := evenTick d.now + 8
  let due : List Started := (List.range (n + 1)).map (fun k =>
    { src := 4 * c + k, slot := d.reg (Reg.AC_SLOT c k), at_ := first + 40 * k })
  d.modConv c (fun x => { x with due := x.due ++ due, endAt := first + 40 * n + 40 })

/-- A sequence runs on the converter (R376). -/
def Dev.seqRuns (d : Dev) (c : Nat) : Bool := decide (d.now < (d.converter c).endAt)

/-- The pending triggers whose sequences start in this tick: 40 ticks after the last sampling instant of the one before (R376). -/
def Dev.startPending (d : Dev) : Dev :=
  each ((List.range 24).filter (fun c => (d.converter c).pending && !d.seqRuns c))
    (fun c d => (d.modConv c (fun x => { x with pending := false })).when (d.convLive c && d.convMode c == 0) (Dev.startSeq c)) d

/-- A trigger is discarded (R376, R394). -/
def Dev.dropTrigger (c : Nat) (d : Dev) : Dev := (d.raise (0x40 + c) 0).bumpSat (Reg.AC_DROP_CNT c) 15 0

/-- A trigger of a converter: its sequence starts, or it becomes pending, or it is discarded (R375, R376). -/
def Dev.trigger (c : Nat) (d : Dev) : Dev :=
  if d.calOn c then d.dropTrigger c
  else if (d.converter c).pending then d.dropTrigger c
  else if d.seqRuns c then d.modConv c (fun x => { x with pending := true })
  else d.startSeq c

/-- The carrier of group `g` at an instant, its start and its length: the one that runs, or the one before it. -/
def Dev.carrierAt (d : Dev) (g t : Nat) : Option (Nat × Nat) :=
  let x := d.group g
  if !x.running then none
  else if x.carStart ≤ t then some (x.carStart, x.carLen)
  else x.lastCar.filter (fun p => decide (p.1 ≤ t))

/-- A position of the carrier of group `g` is reached now, its delay included: TB.CNT equals it with bit 0 cleared; one not below the
carrier's length is not reached (R374). -/
def Dev.posReached (d : Dev) (g pos delay : Nat) : Bool :=
  decide (delay ≤ d.now) && (d.carrierAt g (d.now - delay)).any (fun p => decide (pos < p.2) && p.1 + pos / 2 * 2 == d.now - delay)

/-- The output of a comparator side has become active in this ADC cycle. -/
def Dev.roseNow (d : Dev) (s : CompSide) : Bool := s.rose.any (fun t => t / 2 == d.now / 2)

/-- Entry `i` of a converter fires in this tick (R372, R374, R378), once, and no later entry of the tick has been taken (R376). -/
def Dev.trigFires (d : Dev) (c i : Nat) : Bool :=
  let w := d.reg (Reg.AC_TRIG c i)
  let pos := Machine.fld 18 0 w
  let fired := (d.converter c).fired
  let first := (List.range 8).all (fun k => decide (k < i) || vget none fired k != some d.now)
  d.convLive c && d.convMode c == 0 && bitAt 31 w && first &&
    match Machine.fld 29 28 w with
    | 0 => (match d.convGroup c with
      | some g => d.posReached g pos (d.laneDelay g)
      | none => false)
    | 1 => d.roseNow (d.cmpRaw (pos % 64)).hi && !(vget none fired i).any (fun t => t / 2 == d.now / 2)
    | 2 => d.roseNow (d.cmpRaw (pos % 64)).lo && !(vget none fired i).any (fun t => t / 2 == d.now / 2)
    | _ => false

/-- TRIGGER_FIRE (R52, R374 to R376): an entry fires in this tick. -/
def execTriggerFire (c : Fin 24) (i : Fin 8) (s : State) : Host.Outcome State Fault Refusal :=
  s.onDev (fun d => d.when (d.trigFires c.val i.val)
    (fun d => (d.modConv c.val (fun x => { x with fired := vset x.fired i.val (some d.now) })).trigger c.val))

/-- D(k) of group `g` for the latest one not after now (R377). -/
def Dev.gridOrigin (d : Dev) (g : Nat) : Option Nat :=
  let x := d.group g
  let delay := d.laneDelay g
  if !x.running then none
  else if x.perStart + delay ≤ d.now then some (x.perStart + delay)
  else (x.prevAt.map (· + delay)).filter (fun t => decide (t ≤ d.now))

/-- An instant of the continuous grid of a converter is now (R377, R378). -/
def Dev.onGrid (d : Dev) (c : Nat) : Bool :=
  match (d.convGroup c).bind d.gridOrigin with
  | some t =>
    let u := d.now - t
    if d.interleaving (c / 2) then u % 20 == 0 && u / 20 % 2 == c % 2 else u % 40 == 0
  | none => false

/-- GRID_CONVERSION (R52, R377, R378): a conversion starts at an instant of the continuous grid of a converter. -/
def execGridConversion (c : Fin 24) (s : State) : Host.Outcome State Fault Refusal :=
  s.onDev (fun d =>
    let c := c.val
    let lead := d.convLead c
    let conv : Started := { src := 4 * lead, slot := d.reg (Reg.AC_SLOT lead 0), at_ := evenTick d.now + 8 }
    d.when (d.convLive c && d.convMode c != 0 && !d.calOn c && d.onGrid c && !(d.converter c).due.any (fun x => x.at_ == conv.at_))
      (Dev.modConv c (fun x => { x with due := x.due ++ [conv] })))

/-! ### The sampling instant (R370, R386 to R388, R391) -/

/-- The phase-current prediction of MCg for phase k at the present instant (R469); none without one. -/
def Dev.predicted (d : Dev) (g k : Nat) : Option Word :=
  let ms := d.fld (Reg.MC_STAT g) 3 0
  if ms = 2 ∨ ms = 3 then
    (d.mcu g).pred.map (fun p =>
      let dt := lit (fpOfRatio (2 * (d.now : Int) - p.tc) 800000000)
      let at_ (i v e : Word) := (rd i).add ((dt.div (rd (d.reg (Reg.MC_LS g)))).mul
        (((rd v).sub ((rd (d.reg (Reg.MC_RS g))).mul (rd i))).sub (rd e)))
      ((inverseClarke (at_ p.ia p.va p.ea) (at_ p.ib p.vb p.eb))[k]?.getD f0).val)
  else none

/-- An accumulator's source slot is skipped (R388). -/
def Dev.skipAcc (c m : Nat) (d : Dev) : Dev :=
  let p := Machine.fld 23 20 (d.accCfg m)
  let q := if 1 ≤ p ∧ p ≤ 3 then (match d.convGroup c with
    | some g => d.predicted g (p - 1)
    | none => none) else none
  match q with
  | some x => d.enterAcc m (d.accUnit m).winNo (Window.predict x)
  | none => d.enterAcc m (d.accUnit m).winNo (fun w => { w with skip := true })

/-- The decision of R386 on a slot that samples at `t`, on the commands scheduled now: the low side of QUAL_LEG is on from SETTLE ×
10 ns before it, which is 4 ticks each, to HOLD ticks after it, on the group's own time. -/
def Dev.qualifies (d : Dev) (c : Nat) (slot : Word) (t : Nat) : Bool :=
  match d.convGroup c with
  | some g =>
    let delay := d.laneDelay g
    let u0 := t - delay - 4 * Machine.fld 23 16 slot
    let u1 := t + Machine.fld 31 24 slot - delay
    (d.group g).running && d.lowOnThrough g (Machine.fld 9 8 slot) (32 * u0) (32 * u1)
  | none => false

/-- The slots whose conversions start in this tick are judged, 8 ticks before they sample (R373, R386). -/
def Dev.judgeSlots (d : Dev) : Dev :=
  let here (x : Started) : Bool := bitAt 15 x.slot && x.at_ == d.now + 8 && x.judged.isNone
  each ((List.range 24).filter (fun c => (d.converter c).due.any here)) (fun c d =>
    d.modConv c (fun v => { v with
      due := v.due.map (fun x => if here x then { x with judged := some (d.qualifies c x.slot x.at_) } else x) })) d

/-- The code that an input converts into (R369). -/
def Dev.codeOf (d : Dev) (i : Nat) (code : Int) : Int := clampInt (d.codeRange i).1 (d.codeRange i).2 code

/-- The code is an end code of its input (R369). -/
def Dev.endCode (d : Dev) (i : Nat) (code : Int) : Bool := code == (d.codeRange i).1 || code == (d.codeRange i).2

/-- A conversion without a ready reference (R391). -/
def Dev.refMissing (c : Nat) (d : Dev) : Dev := (d.raise (0x40 + c) 2).bumpSat (Reg.AC_DROP_CNT c) 31 16

/-- A slot is sampled: an input out of reach, a skip, a reference that is not ready, or a conversion that enters the pipeline
with the window of each unit that takes its source (R51, R370, R387, R391). -/
def Dev.sampleSlot (c : Nat) (x : Started) (code : Int) (d : Dev) : Dev :=
  let i := Machine.fld 5 0 x.slot
  let page := 0x40 + c
  if d.muxError c i then d.raise page 1
  else if bitAt 15 x.slot && x.judged != some true then
    each (d.accOf x.src) (Dev.skipAcc c) ((d.raise page 3).bumpSat (Reg.AC_SKIP_CNT c) 15 0)
  else
    let d := d.bumpWrap (Reg.AC_CONV_CNT c) 31 0
    if !d.refReady (c / 12) then
      let note (w : Window) : Window := { w with refNr := true }
      let d := each (d.accOf x.src) (fun m d => d.enterAcc m (d.accUnit m).winNo note) (d.refMissing c)
      each (d.mmxOf x.src) (fun m d => d.enterMmx m (d.mmxUnit m).winNo d.now note) d
    else
      let code := d.codeOf i code
      let rec_ : Sampled := {
        at_ := d.now, code := code, src := x.src, clip := d.endCode i code, pair := d.interleaving (c / 2)
        accNo := (d.accOf x.src).map (fun m => (m, (d.accUnit m).winNo))
        mmxNo := (d.mmxOf x.src).map (fun m => (m, (d.mmxUnit m).winNo)) }
      d.modConv c (fun v => { v with pipeline := v.pipeline ++ [rec_] })

/-- A calibration command is refused or a step fails (R393 to R395). -/
def Dev.calFail (err : Nat) (d : Dev) : Dev := (d.setFld Reg.ADCSYS_CAL_STAT 31 24 err).raise 0x58 2

/-- The running calibration step ends. -/
def Dev.calEnd (d : Dev) : Dev := Dev.putCal none (d.setBit Reg.ADCSYS_STAT 2 false)

/-- A value in 1/256 code enters the calibration average, up to 4096 (R394). -/
def Dev.calTake (k : CalStep) (x : Int) (d : Dev) : Dev :=
  d.when (decide (k.n < 4096)) (Dev.putCal (some { k with n := k.n + 1, sum := k.sum + x }))

/-- A conversion of an AIN step, 40 ticks after the one before (R391, R394): an end code ends the step with CLIP. -/
def Dev.calSample (c : Nat) (k : CalStep) (code : Int) (d : Dev) : Dev :=
  if d.now < k.start + 8 ∨ (d.now - k.start - 8) % 40 ≠ 0 ∨ 4096 ≤ k.n then d
  else if d.muxError c k.input then d.raise (0x40 + c) 1
  else
    let d := d.bumpWrap (Reg.AC_CONV_CNT c) 31 0
    let code := d.codeOf k.input code
    if !d.refReady (c / 12) then d.refMissing c
    else if d.endCode k.input code then d.calEnd.calFail 6
    else d.calTake k (256 * code)

/-- The started conversion whose sampling instant is now is sampled. -/
def Dev.sampleDue (c : Nat) (code : Int) (d : Dev) : Dev :=
  match (d.converter c).due.find? (fun x => x.at_ == d.now) with
  | some x => (d.modConv c (fun v => { v with due := v.due.filter (fun y => decide (d.now < y.at_)) })).sampleSlot c x code
  | none => d

/-- CONVERSION_SAMPLE (R373, R375, R377, R394): the sampling instant of a started conversion, or of a calibration step; `code` is what
the input converts into (R369). -/
def execConversionSample (c : Fin 24) (code : Int) (s : State) : Host.Outcome State Fault Refusal :=
  s.onDev (fun d =>
    let c := c.val
    if !d.convLive c then d
    else match d.cal with
      | some k =>
        if d.calOn c then d.calSample c k code else d.sampleDue c code
      | none => d.sampleDue c code)

/-! ### The result (R373, R383, R397) -/

def Dev.trim (d : Dev) (k : Nat) : TrimPair := vget {} d.trims k
def Dev.modTrim (k : Nat) (f : TrimPair → TrimPair) (d : Dev) : Dev := (Dev.putTrims (vmod {} d.trims k f) d)

/-- An integer quotient rounded down or up as the estimator rounds it. -/
def openQuot (num : Int) (den : Nat) : Int :=
  if den = 0 then 0 else num.fdiv den + (if num.fmod den ≠ 0 ∧ Config.roundUp num den = true then 1 else 0)

/-- A code of AC2k+1 as it enters, in 1/256 code: x × (1 + g) + o with 4 fractional bits (R397). -/
def TrimPair.correct (t : TrimPair) (code : Int) : Int := 16 * (openQuot (code * (1000000 + t.gain) * 16) 1000000 + t.ofs)

/-- The estimator of a pair takes a conversion (R397). -/
def TrimPair.gather (odd : Bool) (code : Int) (t : TrimPair) : TrimPair :=
  if odd then { t with nO := t.nO + 1, sumO := t.sumO + code, sqO := t.sqO + (code * code).toNat }
  else { t with nE := t.nE + 1, sumE := t.sumE + code, sqE := t.sqE + (code * code).toNat }

/-- CONVERSION_RESULT (R373): a conversion sampled 52 ticks ago enters the units whose windows it belongs to. -/
def execConversionResult (c : Fin 24) (s : State) : Host.Outcome State Fault Refusal :=
  s.onDev (fun d =>
    match (d.converter c.val).pipeline.find? (fun r => r.at_ + 52 == d.now) with
    | none => d
    | some r =>
      let k := c.val / 2
      let odd := c.val % 2 == 1
      let x := if r.pair && odd then (d.trim k).correct r.code else 256 * r.code
      let d := d.modConv c.val (fun v => { v with pipeline := v.pipeline.filter (fun q => decide (r.at_ < q.at_)) })
      let d := d.when r.pair (Dev.modTrim k (TrimPair.gather odd r.code))
      let d := each r.accNo (fun p d => d.enterAcc p.1 p.2 (Window.take x r.clip)) d
      each r.mmxNo (fun p d => d.enterMmx p.1 p.2 r.at_ (Window.take x r.clip)) d)

/-! ### The trim estimator (R397, R398) -/

/-- Integer square root, for numbers below 2^128. -/
def natSqrt (n : Nat) : Nat := isqrtBits 64 n 0

/-- The corrections computed from what a pair has gathered (R397): o in 1/16 code, g in ppm. -/
def TrimPair.estimate (t : TrimPair) : Int × Int :=
  let p : Int := t.sumE * t.nO - t.sumO * t.nE
  let q : Nat := t.nE * t.nO
  let o := openQuot (16 * p) q
  let odd : Nat := ((t.sqO * q * q : Nat) + 2 * p * (q : Int) * t.sumO + (t.nO : Int) * p * p).toNat * t.nE
  let even : Nat := t.sqE * t.nO * q * q
  let g : Int :=
    if 1024 * 1024 * t.nE < t.sqE ∧ odd ≠ 0 then
      let r := natSqrt (1000000 * 1000000 * even / odd)
      (r : Int) - 1000000 + (if odd * r * r ≠ 1000000 * 1000000 * even ∧ Config.roundUp even odd = true then 1 else 0)
    else t.gain
  (o, g)

/-- TRIM_UPDATE (R397): the end of an interval of 100 ms, or 40 000 000 ticks, of the pairs whose interval ends now; the values wait for
the reload of AC2k's group. -/
def execTrimUpdate (s : State) : Host.Outcome State Fault Refusal :=
  s.onDev (fun d =>
    each (twelve.filter (fun k => d.interleaving k && (d.trim k).since + 40000000 == d.now)) (fun k d =>
      d.modTrim k (fun t =>
        let next := if t.nE = 0 ∨ t.nO = 0 then t.next else some t.estimate
        { t with since := d.now, next := next, nE := 0, sumE := 0, sqE := 0, nO := 0, sumO := 0, sqO := 0 })) d)

/-- A pair's new corrections apply at the reload of its group (R397, R398). -/
def Dev.applyTrim (k : Nat) (d : Dev) : Dev :=
  match (d.trim k).next with
  | none => d
  | some (o, g) =>
    let t := d.trim k
    let small := decide ((o - t.ofs).natAbs < 16) && decide ((g - t.gain).natAbs < 20)
    let beyond := decide (16 < (o - t.ofs).natAbs) || decide (20 < (g - t.gain).natAbs)
    let good := if small then t.good + 1 else 0
    let d := d.modTrim k (fun t => { t with ofs := o, gain := g, next := none, good := good })
    let d := (d.raise 0x58 4).bumpWrap Reg.ADCSYS_TRIM_CNT 31 0
    let d := d.setReg (Reg.ADCSYS_TRIM_P k)
      (place 31 16 (unsignedOf 16 (clampInt (-32768) 32767 g)) ||| place 15 0 (unsignedOf 16 (clampInt (-32768) 32767 o)))
    if beyond then d.setBit Reg.ADCSYS_TRIM_STAT (16 + k) false
    else d.when (2 ≤ good) (Dev.setBit Reg.ADCSYS_TRIM_STAT (16 + k) true)

/-- The pairs whose AC2k names group `g` take their corrections. -/
def Dev.trimReload (g : Nat) (d : Dev) : Dev :=
  each (twelve.filter (fun k => d.interleaving k && d.convGroup (2 * k) == some g)) Dev.applyTrim d

/-- A pair enters INTERLEAVED mode: its corrections are zero, and its first interval begins (R397, R398). -/
def Dev.trimStart (k : Nat) (d : Dev) : Dev :=
  ((d.modTrim k (fun _ => { since := d.now })).setReg (Reg.ADCSYS_TRIM_P k) 0).setBit Reg.ADCSYS_TRIM_STAT (16 + k) false

/-! ### System calibration (R393 to R396) -/

/-- SDc works: both EN, and its page not held. -/
def Dev.sdOn (d : Dev) (c : Nat) : Bool := d.bit (Reg.SD_CTRL (c / 8)) 0 && d.bit (Reg.SD_CFG (c / 8) (c % 8)) 31 && !d.pageHeld (0x60 + c / 8)

/-- CLK of SDc names a running clock output (R399, R405). -/
def Dev.sdClocked (d : Dev) (c : Nat) : Bool :=
  let k := d.fld (Reg.SD_CFG (c / 8) (c % 8)) 26 24
  decide (k < 6) && d.bit (Reg.ADCSYS_SDCK k) 31 && !d.pageHeld 0x58

/-- Error of a calibration command, 0 where it is accepted (R393, R395): every condition bears on every command, but for the running
step, which ABORT ends. -/
def Dev.calError (d : Dev) (code input conv : Nat) : Nat :=
  if code = 0 ∨ 4 < code then Machine.fld 7 0 (Config.freeWord d.freeCount)
  else if !d.deviceOff then 1
  else if 2 ≤ d.cstate then 2
  else if d.cal.isSome && code != 4 then 3
  else if input < 64 ∧ d.refReady (input / 32) = false then 4
  else if input < 64 ∧ !(conv / 12 == input / 32 && decide (conv < 24) && d.convLive conv) then 5
  else if 64 ≤ input ∧ !(decide (input < 88) && d.sdOn (input - 64) && d.sdClocked (input - 64)) then 5
  else if code = 3 ∧ !(d.bit Reg.ADCSYS_CAL_STAT 16 && d.bit Reg.ADCSYS_CAL_STAT 17 && d.fld Reg.ADCSYS_CAL_STAT 6 0 == input) then 8
  else 0

/-- A ZERO or FULL step begins (R394, R395); on an input its converter leaves what it was doing. -/
def Dev.calStart (full : Bool) (input conv : Nat) (d : Dev) : Dev :=
  let d := d.when (d.fld Reg.ADCSYS_CAL_STAT 6 0 != input) (Dev.setFld Reg.ADCSYS_CAL_STAT 17 16 0)
  let d := d.when (decide (input < 64)) (Dev.modConv conv (fun v => { v with due := [], endAt := 0, pending := false }))
  (Dev.putCal (some { full := full, input := input, conv := conv, start := evenTick d.now }) (d.setBit Reg.ADCSYS_STAT 2 true))

/-- A direct write of an RWC register that takes effect also writes its shadow (R154). -/
def Dev.setBoth (key : Nat) (v : Word) (d : Dev) : Dev := (d.setReg key v).setSh key v

/-- The calibration registers of an input (R414, R417). -/
def calKeys (input : Nat) : Nat × Nat :=
  if input < 64 then (Reg.ADCSYS_CAL_GAIN input, Reg.ADCSYS_CAL_OFS input)
  else (Reg.SD_GAIN ((input - 64) / 8) ((input - 64) % 8), Reg.SD_OFS ((input - 64) / 8) ((input - 64) % 8))

/-- CALC (R395): the write of the results is barred like any direct write while a commit runs (R154). -/
def Dev.calCalc (input : Nat) (d : Dev) : Dev :=
  let mz := d.reg Reg.ADCSYS_CAL_MZ
  let mf := d.reg Reg.ADCSYS_CAL_MF
  let span := fpSub mf mz
  if fpLt (fpAbs span.val).val 0x44800000 then d.calFail 7
  else
    let vz := d.reg Reg.ADCSYS_CAL_VZ
    let gain := (fpDiv (fpSub (d.reg Reg.ADCSYS_CAL_VF) vz).val span.val).val
    let ofs := (fpSub vz (fpMul gain mz).val).val
    let d := if d.commitBusy || d.loader.rwcBar then d
      else (((d.setBoth (calKeys input).1 gain).setBoth (calKeys input).2 ofs)).rwcAccepted
    d.raise 0x58 3

/-- A write of CAL_CMD (R393). -/
def Dev.calOp (v : Word) (d : Dev) : Dev :=
  let code := Machine.fld 2 0 v
  let input := Machine.fld 22 16 v
  let err := d.calError code input (Machine.fld 12 8 v)
  if code = 0 ∨ 4 < code then (d.calFail err).skipFree 1
  else if err ≠ 0 then d.calFail err
  else
    let d := d.setFld Reg.ADCSYS_CAL_STAT 31 24 0
    if code = 3 then d.calCalc input
    else if code = 4 then
      (if d.cal.isSome then d.calEnd.calFail 9 else d)
    else d.calStart (code == 2) input (Machine.fld 12 8 v)

/-- CAL_ZERO (R394). -/
def execCalZero (m : Master) (v : Word) (s : State) : Host.Outcome State Fault Refusal :=
  s.onDev (fun d => d.accessWrite m Reg.ADCSYS_CAL_CMD (put 2 0 1 v) (Dev.calOp (put 2 0 1 v)))

/-- CAL_FULL (R394). -/
def execCalFull (m : Master) (v : Word) (s : State) : Host.Outcome State Fault Refusal :=
  s.onDev (fun d => d.accessWrite m Reg.ADCSYS_CAL_CMD (put 2 0 2 v) (Dev.calOp (put 2 0 2 v)))

/-- CAL_CALC (R395). -/
def execCalCalc (m : Master) (v : Word) (s : State) : Host.Outcome State Fault Refusal :=
  s.onDev (fun d => d.accessWrite m Reg.ADCSYS_CAL_CMD (put 2 0 3 v) (Dev.calOp (put 2 0 3 v)))

/-- CAL_ABORT (R393). -/
def execCalAbort (m : Master) (v : Word) (s : State) : Host.Outcome State Fault Refusal :=
  s.onDev (fun d => d.accessWrite m Reg.ADCSYS_CAL_CMD (put 2 0 4 v) (Dev.calOp (put 2 0 4 v)))

/-- CAL_STEP_DONE (R394): the 4096 values have been taken; their mean is stored. -/
def execCalStepDone (s : State) : Host.Outcome State Fault Refusal :=
  s.onDev (fun d =>
    match d.cal with
    | none => d
    | some k =>
      if k.n < 4096 then d else
      let d := d.calEnd.setReg (if k.full then Reg.ADCSYS_CAL_MF else Reg.ADCSYS_CAL_MZ) (fpOfRatio k.sum (4096 * 256))
      ((d.setFld Reg.ADCSYS_CAL_STAT 6 0 k.input).setBit Reg.ADCSYS_CAL_STAT (if k.full then 17 else 16) true).raise 0x58 3)

/-! ### Sigma-delta channels (R399 to R405) -/

def Dev.sdChan (d : Dev) (c : Nat) : SdChannel := vget {} d.acq.sd c
def Dev.modSd (c : Nat) (f : SdChannel → SdChannel) (d : Dev) : Dev := d.modAcq (fun a => { a with sd := vmod {} a.sd c f })

/-- The field of SDc's CFG, and of its OC. -/
def Dev.sdCfg (d : Dev) (c hi lo : Nat) : Nat := d.fld (Reg.SD_CFG (c / 8) (c % 8)) hi lo
def Dev.sdOc (d : Dev) (c hi lo : Nat) : Nat := d.fld (Reg.SD_OC (c / 8) (c % 8)) hi lo

/-- The period of a modulator clock in PWM ticks, two to an ADC cycle, with DIV even and held to 10 to 200 (R399). -/
def Dev.sdPeriod (d : Dev) (k : Nat) : Nat :=
  let v := d.fld (Reg.ADCSYS_SDCK k) 7 0
  2 * max 10 (min 200 (v - v % 2))

/-- The decimation ratio, the length of the fast filter, and its count of clocks (R401, R404, R417). -/
def Dev.sdRatio (d : Dev) (c : Nat) : Nat := max 16 (min 256 (d.sdCfg c 8 0))
def Dev.sdFast (d : Dev) (c : Nat) : Nat := max 4 (min 32 (d.sdOc c 5 0))
def Dev.sdCount (d : Dev) (c : Nat) : Nat := max 1 (d.sdOc c 11 8)

/-- The delay of a channel's sampling from the clock edge, in ticks (R400). -/
def Dev.sdDelay (d : Dev) (c : Nat) : Nat := 2 * d.sdCfg c 23 20

/-- The number of the first sampling instant of a channel, from its clock's start on, that lies at or after a tick (R400). -/
def Dev.sdIndex (d : Dev) (c t : Nat) : Nat :=
  let k := d.sdCfg c 26 24
  (t - (vget 0 d.acq.sdck k + d.sdDelay c) + d.sdPeriod k - 1) / d.sdPeriod k

/-- The rising edge with a number. -/
def Dev.sdEdge (d : Dev) (c i : Nat) : Nat := vget 0 d.acq.sdck (d.sdCfg c 26 24) + i * d.sdPeriod (d.sdCfg c 26 24)

/-- The weight of the bit sampled `j` clocks before the latest in a sinc3 of ratio `n`: the ways in which three numbers below `n` sum
to `j`; and in a sinc2. -/
def sinc3Weight (n j : Nat) : Nat :=
  let t (k : Nat) : Nat := k * (k + 1) / 2
  t (j + 1) + 3 * t (j + 1 - 2 * n) - 3 * t (j + 1 - n)
def sinc2Weight (n j : Nat) : Nat := (j + 1) - 2 * (j + 1 - n)

/-- The weighted count of ones in the latest bits; one before the channel's first is free (log entry 99). -/
def SdChannel.ones (c : Nat) (x : SdChannel) (weight : Nat → Nat) (len : Nat) : Nat :=
  (List.range len).foldl (fun s j => s + (if (x.bits[j]?).getD (Config.sdBefore c j) then weight j else 0)) 0

/-- 32 768 × (2d − 1) with 8 fractional bits for a density of ones d = num / den (R401); which neighbour shows where it is no multiple of
1/256 is free. -/
def densityCode (num den : Nat) : Int := openQuot (8388608 * (2 * (num : Int) - den)) den

/-- The fast filter after a bit (R404): clocks in a row above the limit or not, and the decision. -/
def SdChannel.fast (limit cnt : Nat) (x : Int) (v : SdChannel) : SdChannel :=
  let v := if 256 * limit < x.natAbs then { v with above := v.above + 1, below := 0 } else { v with above := 0, below := v.below + 1 }
  if cnt ≤ v.above then { v with own := true } else if cnt ≤ v.below then { v with own := false } else v

/-- A channel takes the bit of the clock edge at `edge`: clocks without a transition, the phase that restarts at the first edge at or after
a mark, and the end of a decimation cycle (R401, R405). -/
def SdChannel.take (ratio edge : Nat) (b : Bool) (v : SdChannel) : Bool × SdChannel :=
  let phase := if v.marks.any (fun m => decide (m ≤ edge)) then 1 else v.phase + 1
  let ends := decide (ratio ≤ phase)
  (ends, { v with
    bits := b :: v.bits.take 765
    still := match v.bits with
      | p :: _ => if p == b then v.still + 1 else 0
      | [] => 0
    marks := v.marks.filter (fun m => decide (edge < m)), phase := if ends then 0 else phase })

/-- D(k) of a reload of group `g` restarts the phase of the channels that name it (R401). -/
def Dev.sdReload (g : Nat) (d : Dev) : Dev :=
  each ((List.range 24).filter (fun c => d.sdOn c && d.sdCfg c 19 16 == g))
    (fun c d => d.modSd c (fun v => { v with marks := v.marks ++ [d.now + d.laneDelay g] })) d

/-- MOD_FAULT of SDc holds (R405). -/
def Dev.sdFault (d : Dev) (c : Nat) : Bool := d.bit (Reg.SD_MOD_STAT (c / 8)) (c % 8)

/-- A decimated output in 1/256 code, at its output instant (R380, R394, R402): into the units that take the channel, and into a
calibration step on it. -/
def Dev.sdDeliver (c : Nat) (x : Int) (d : Dev) : Dev :=
  let clip := decide (32767 * 256 ≤ x.natAbs)
  let src := 0x60 + c
  let d := match d.cal with
    | some k => d.when (k.input == 64 + c) (Dev.calTake k x)
    | none => d
  let d := each (d.accOf src) (fun m d => d.enterAcc m (d.accUnit m).winNo (Window.take x clip)) d
  each (d.mmxOf src) (fun m d => d.enterMmx m (d.mmxUnit m).winNo d.now (Window.take x clip)) d

/-- The fast-filter decision of SDc in force: the filter's own, or active under a fault with FAILTRIP (R404, R405). -/
def Dev.sdWant (d : Dev) (c : Nat) : Bool :=
  d.sdOn c && ((d.sdChan c).own || (d.sdFault c && d.bit (Reg.SD_OC (c / 8) (c % 8)) 15))

/-- OC_STAT follows the decision; its activation is the OC event and cause SD_OC (R304, R404). -/
def Dev.sdDecide (c : Nat) (d : Dev) : Dev :=
  let want := d.sdWant c
  let was := d.bit (Reg.SD_OC_STAT (c / 8)) (c % 8)
  let d := d.setBit (Reg.SD_OC_STAT (c / 8)) (c % 8) want
  if want && !was then
    each (twelve.filter (fun g => d.bit (Reg.PG_TRIP_SD g) c)) (Dev.trip 4) (d.raise (0x60 + c / 8) (8 + c % 8))
  else d

/-- MOD_FAULT of SDc sets or clears (R405): an event on entry, and the flag in the open windows that take the channel. -/
def Dev.modFaultSet (c : Nat) (holds : Bool) (d : Dev) : Dev :=
  let was := d.sdFault c
  let d := d.setBit (Reg.SD_MOD_STAT (c / 8)) (c % 8) holds
  let d := if holds && !was then
      (let note (w : Window) : Window := { w with modFault := true }
       let d := d.raise (0x60 + c / 8) (c % 8)
       let d := each (d.accOf (0x60 + c)) (fun m d => d.enterAcc m (d.accUnit m).winNo note) d
       each (d.mmxOf (0x60 + c)) (fun m d => d.enterMmx m (d.mmxUnit m).winNo d.now note) d)
    else d
  d.sdDecide c

/-- The channel takes the bit of the sampling instant with a number (R400 to R405): the fault, the fast filter, and the output where the
decimation cycle ends and no fault holds. -/
def Dev.sdBit (c i : Nat) (b : Bool) (d : Dev) : Dev :=
  let n := d.sdRatio c
  let r := (d.sdChan c).take n (d.sdEdge c i) b
  let f := d.sdFast c
  let x := densityCode (r.2.ones c (sinc2Weight f) (2 * f - 1)) (f * f)
  let v := r.2.fast (d.sdOc c 31 16) (d.sdCount c) x
  let d := (d.modSd c (fun _ => v)).modFaultSet c (decide (256 ≤ v.still))
  d.when (r.1 && !d.sdFault c) (Dev.sdDeliver c (densityCode (v.ones c (sinc3Weight n) (3 * n - 2)) (n * n * n)))

/-- The channel takes the bits of its sampling instants from the one with number `i` on. -/
def Dev.sdBits (c : Nat) : Nat → List Bool → Dev → Dev
  | _, [], d => d
  | i, b :: rest, d => Dev.sdBits c (i + 1) rest (d.sdBit c i b)

/-- The levels of SD_Di at the channel's sampling instants since its latest command, oldest first, of which the last is now, enter the
channel (R400); another number of levels than there were instants is no such command. -/
def Dev.sdTake (c : Nat) (bits : List Bool) (d : Dev) : Dev :=
  let i := d.sdIndex c (d.sdChan c).fromT
  let n := d.sdIndex c (d.now + 1) - i
  if !d.sdOn c || !d.sdClocked c || bits.isEmpty || bits.length != n || d.sdEdge c (i + n - 1) + d.sdDelay c != d.now then d
  else (Dev.sdBits c i bits d).modSd c (fun v => { v with fromT := d.now + 1 })

/-- SD_OUTPUT (R400 to R402): with the last of these bits a decimation cycle ends. -/
def execSdOutput (c : Fin 24) (bits : List Bool) (s : State) : Host.Outcome State Fault Refusal :=
  s.onDev (fun d => let t := d.sdTake c.val bits; if (t.sdChan c.val).phase = 0 then t else d)

/-- SD_FAST_FILTER_DECISION (R404): with the last of these bits the decision of the fast filter changes. -/
def execSdFastFilterDecision (c : Fin 24) (bits : List Bool) (s : State) : Host.Outcome State Fault Refusal :=
  s.onDev (fun d => let t := d.sdTake c.val bits; if (t.sdChan c.val).own != (d.sdChan c.val).own then t else d)

/-- MOD_FAULT (R405): with the last of these bits 256 clocks have passed without a transition, or the data input shows one again. -/
def execModFault (c : Fin 24) (bits : List Bool) (s : State) : Host.Outcome State Fault Refusal :=
  s.onDev (fun d => let t := d.sdTake c.val bits; if t.sdFault c.val != d.sdFault c.val then t else d)

/-- A channel whose configuration or clock has changed: its bits begin as it begins to run; disabled channels hold no fault and no
decision; a missing clock is a fault (R405, R412). -/
def Dev.sdConfigured (c : Nat) (d : Dev) : Dev :=
  let runs := d.sdOn c && d.sdClocked c
  let d := d.modSd c (fun v =>
    if !runs then { v with live := false, still := 0, own := v.own && d.sdOn c }
    else if v.live then v else { fromT := d.now, live := true, own := v.own })
  d.modFaultSet c (d.sdOn c && (!runs || decide (256 ≤ (d.sdChan c).still)))

/-- A modulator clock output begins anew after a change of its register (R399). -/
def Dev.sdckStart (k : Nat) (d : Dev) : Dev := d.modAcq (fun a => { a with sdck := vset a.sdck k (evenTick d.now) })

end Sys2Proof.Machine
end

