-- ==== Sys2Proof/Machine/EngineCtl.lean ====
section
/-!
DEFINITION. The commands of a loop engine and its mailbox (R197, R205 to R207, R213, R214, R231).
-/

namespace Sys2Proof.Machine

/-- ESTATE replaced. -/
def Dev.setEstate (e v : Nat) (d : Dev) : Dev := d.setFld (Reg.LE_STAT e) 2 0 v

/-- Sample events that wait are ignored once the engine no longer starts frames (R197). -/
def Dev.dropEvents (e : Nat) (d : Dev) : Dev := d.modEngine e (fun x => { x with trigger := 0, heldEvents := 0 })

/-- The engine is HALTED; its pending swaps wait no longer (R205, R231). -/
def Dev.enterHalted (e : Nat) (d : Dev) : Dev := ((d.setEstate e 0).dropEvents e).swapIdle e

/-- START at a HALTED engine: the init section begins at INIT_PC (R205). -/
def Dev.enterInitSection (e : Nat) (d : Dev) : Dev :=
  let d := (d.setEstate e 1).setPc e (d.fld (Reg.LE_ENTRY e) 11 0)
  (d.dropEvents e).modEngine e (fun x => { x with
    loops := [], fend := false, loadWait := none, inInit := true, startTick := d.now, piInvoked := 0, overran := false, served := 0 })

/-- START (R206). -/
def Dev.engineStart (e : Nat) (d : Dev) : Dev :=
  if d.estate e = 0 ∧ d.bit (Reg.LE_CTRL e) 0 = true then d.enterInitSection e
  else if d.estate e = 4 then d.raise (0x10 + e) 3
  else d.raise (0x10 + e) 4

/-- A group that bars STOP of its engine (R206): STARTING, RUN or STOPPING, or TRIPPED with its return to RUN pending. -/
def Dev.barsStop (d : Dev) (g : Nat) : Bool :=
  let s := d.gstate g
  s == 1 || s == 2 || s == 3 || (s == 4 && (d.group g).clearPending)

/-- STOP (R205, R206). -/
def Dev.engineStop (e : Nat) (d : Dev) : Dev :=
  let s := d.estate e
  if s = 0 ∨ s = 4 ∨ twelve.any (fun g => natBit g (d.owned e) && d.barsStop g) = true then d.raise (0x10 + e) 4
  else if s = 1 ∨ s = 3 then (d.setEstate e 4).dropEvents e
  else d.enterHalted e

/-- A code written to LEe.CMD (R206, R219). -/
def Dev.leCmdOp (e code : Nat) (d : Dev) : Dev :=
  if code = 1 then d.engineStart e else if code = 2 then d.engineStop e else d.raise (0x10 + e) 4

/-- ENGINE_START (R206). -/
def execEngineStart (m : Master) (e : Fin 12) (s : State) : Host.Outcome State Fault Refusal :=
  s.onDev (fun d => d.accessWrite m (Reg.LE_CMD e.val) 1 (Dev.engineStart e.val))

/-- ENGINE_STOP (R206). -/
def execEngineStop (m : Master) (e : Fin 12) (s : State) : Host.Outcome State Fault Refusal :=
  s.onDev (fun d => d.accessWrite m (Reg.LE_CMD e.val) 2 (Dev.engineStop e.val))

/-- A write of EN (R207): 0 only in HALTED or FAULT. -/
def Dev.leEnOp (m : Master) (e : Nat) (v : Word) (d : Dev) : Dev :=
  if bitAt 0 v then d.setBit (Reg.LE_CTRL e) 0 true
  else if d.estate e = 0 ∨ d.estate e = 5 then d.setBit (Reg.LE_CTRL e) 0 false
  else d.discard m (Reg.LE_CTRL e)

/-! ### Mailbox (R213) -/

/-- A write of MBX_POST: discarded while a message waits; POST = 1 posts with the GEN written. -/
def Dev.leMbxPost (m : Master) (e : Nat) (v : Word) (d : Dev) : Dev :=
  if d.bit (Reg.LE_MBX_STAT e) 0 then d.discard m (Reg.LE_MBX_POST e)
  else if bitAt 16 v then
    (d.setBit (Reg.LE_MBX_STAT e) 0 true).modEngine e (fun x => { x with mbxGen := Machine.fld 15 0 v, mbxTick := d.now })
  else d

/-- LE_MBX_POST (R213). -/
def execLeMbxPost (m : Master) (e : Fin 12) (v : Word) (s : State) : Host.Outcome State Fault Refusal :=
  s.onDev (fun d => d.accessWrite m (Reg.LE_MBX_POST e.val) v (Dev.leMbxPost m e.val v))

/-- A write of MBX_INj: discarded while a message waits. -/
def Dev.leMbxIn (m : Master) (e j : Nat) (v : Word) (d : Dev) : Dev :=
  if d.bit (Reg.LE_MBX_STAT e) 0 then d.discard m (Reg.LE_MBX_IN e j) else d.setReg (Reg.LE_MBX_IN e j) v

end Sys2Proof.Machine
end

