-- ==== Sys2Proof/Machine/Pins.lean ====
section
/-!
DEFINITION. The PAD and GPIO pages (spec/20): the hold of the balls, and GPIO outputs and edges.
-/

namespace Sys2Proof.Machine

/-- A write of PAD.CTRL (R664): EN applies every PAD and GPIO register to its balls and clears HELD. -/
def Dev.padCtrlOp (v : Word) (d : Dev) : Dev :=
  if bitAt 0 v then Dev.putPadHeld [] ((d.setBit Reg.PAD_CTRL 0 true).setBit Reg.PAD_STAT 0 false) else d

/-- PAD_ENABLE (R664). -/
def execPadEnable (m : Master) (s : State) : Host.Outcome State Fault Refusal :=
  s.onDev (fun d => d.accessWrite m Reg.PAD_CTRL 1 (Dev.padCtrlOp 1))

/-- The value of a PAD or GPIO register that applies at the balls: as held, or as the register stands (R664). -/
def Dev.padApplied (d : Dev) (key : Nat) : Word :=
  if d.bit Reg.PAD_STAT 0 then lookup resetWord key d.padHeld else d.reg key

/-- The new level of a ball has been stable for `ns` ns, the full length of its filter under the FILT of a register: N × 20 ns, none
where N is 0 (R133, R134). A shorter pulse is suppressed. -/
def Dev.filtered (d : Dev) (key ns : Nat) : Bool := decide (20 * Machine.fld 15 8 (d.padApplied key) ≤ ns)

/-- A write of GPIO.OUT_SET, and of GPIO.OUT_CLR (R667). -/
def Dev.outSetOp (v : Word) (d : Dev) : Dev := d.setReg Reg.GPIO_OUT (d.reg Reg.GPIO_OUT ||| v)
def Dev.outClrOp (v : Word) (d : Dev) : Dev := d.setReg Reg.GPIO_OUT (d.reg Reg.GPIO_OUT &&& ~~~ v)

/-- OUT_SET (R666, R667); with `same` in the FAB cycle in progress. -/
def execOutSet (m : Master) (v : Word) (same : Bool) (s : State) : Host.Outcome State Fault Refusal :=
  s.onDev (fun d => (d.enterCycle m same).accessWrite m Reg.GPIO_OUT_SET v (Dev.outSetOp v))

/-- OUT_CLR (R666, R667); with `same` in the FAB cycle in progress. -/
def execOutClr (m : Master) (v : Word) (same : Bool) (s : State) : Host.Outcome State Fault Refusal :=
  s.onDev (fun d => (d.enterCycle m same).accessWrite m Reg.GPIO_OUT_CLR v (Dev.outClrOp v))

/-- EDGE_CFG of ball i: 0 none, 1 rising, 2 falling, 3 both (R667). -/
def Dev.edgeCfg (d : Dev) (i : Nat) : Nat :=
  let k := if i < 16 then Reg.GPIO_EDGE_CFG0 else Reg.GPIO_EDGE_CFG1
  d.fld k (2 * (i % 16) + 1) (2 * (i % 16))

/-- GPIO_EDGE (R133, R134, R666): ball i has held a new level for `ns` ns, which its filter accepts; a page held in reset sees no
edge. -/
def execGpioEdge (i : Fin 32) (level : Bool) (ns : Nat) (s : State) : Host.Outcome State Fault Refusal :=
  s.onDev (fun d =>
    if !d.filtered (Reg.GPIO_CFG i.val) ns then d else
    let was := natBit i.val d.gpioIn.toNat
    let m := BitVec.ofNat 32 (2 ^ i.val)
    let d : Dev := (Dev.putGpioIn (if level then d.gpioIn ||| m else d.gpioIn &&& ~~~ m) d)
    let hit : Bool := was != level && natBit (if level then 0 else 1) (d.edgeCfg i.val)
    if hit && !d.pageHeld 0xA9 then
      ((d.setBit Reg.GPIO_EDGE_RAW i.val true).noteSet Reg.GPIO_EDGE_RAW (bitMask i.val)).raise 0xA9 0
    else d)

end Sys2Proof.Machine
end

