-- ==== Sys2Proof/Machine/Trip.lean ====
section
/-!
DEFINITION. Trips and overrides (spec/09): clear conditions, the clearing of a trip, trip inputs, the turn-on of active short
circuits, and the force shadow.
-/

namespace Sys2Proof.Machine

/-! ### Clear conditions (R304, R316) -/

/-- Some comparator named in TRIP_CMP_LO or TRIP_CMP_HI is beyond a threshold, after its filter. -/
def Dev.cmpPresent (d : Dev) (g : Nat) : Bool :=
  ((d.reg Reg.CMP_HI0 ||| d.reg Reg.CMP_LO0) &&& d.reg (Reg.PG_TRIP_CMP_LO g)) != 0 ||
    ((d.reg Reg.CMP_HI1 ||| d.reg Reg.CMP_LO1) &&& d.reg (Reg.PG_TRIP_CMP_HI g)) != 0

/-- Some channel named in TRIP_SD is above its fast limit. -/
def Dev.sdPresent (d : Dev) (g : Nat) : Bool :=
  (List.range 24).any (fun c => d.bit (Reg.PG_TRIP_SD g) c && d.bit (Reg.SD_OC_STAT (c / 8)) (c % 8))

/-- The latest TELE frame of some leg of a lane group shows a desaturation flag. -/
def Dev.desatPresent (d : Dev) (g : Nat) : Bool :=
  d.laneGroup g && [0, 1, 2, 3].any (fun k => d.fld (Reg.FL_FE_LEG g k) 1 0 != 0)

/-- The owning engine is HALTED, STOPPING or in FAULT; absent without an owner (R316). -/
def Dev.ownerDown (d : Dev) (g : Nat) : Bool :=
  match d.ownerOf g with
  | some e => d.estate e == 0 || d.estate e == 4 || d.estate e == 5
  | none => false

/-- The groups whose latch the group's LINK chains from: those groups name it (R306). -/
def Dev.chainPresent (d : Dev) (g except : Nat) : Bool :=
  twelve.any (fun h => h != g && natBit h (d.fld (Reg.PG_TRIP_CFG g) 11 0) && d.latched h && !natBit h except)

/-- The causes whose clear condition is present, bit c for cause c; CHAIN leaves out the groups of `except` (R319). -/
def Dev.activeCauses (d : Dev) (g except : Nat) : Nat :=
  let pin := twelve.any (fun i => d.bit (Reg.PWMSYS_TRIP_IN i) (16 + g) && natBit i d.tripIn.toNat)
  b2n pin * 2 ^ 1 + b2n (natBit 12 d.tripIn.toNat) * 2 ^ 2 + b2n (d.cmpPresent g) * 2 ^ 3 + b2n (d.sdPresent g) * 2 ^ 4 +
    b2n (d.desatPresent g) * 2 ^ 5 + b2n (d.laneGroup g && !d.laneReady g) * 2 ^ 6 + b2n (d.ownerDown g) * 2 ^ 10 +
    b2n (d.ownerDown g) * 2 ^ 11 + b2n (d.bit (Reg.MC_STAT g) 10) * 2 ^ 12 + b2n (d.bit (Reg.MC_STAT g) 11) * 2 ^ 13 +
    b2n (natBit g d.sloe.cover.toNat) * 2 ^ 14 + b2n (d.chainPresent g except) * 2 ^ 15

/-- TRIP_EN with its fixed bits (R304). -/
def Dev.tripEn (d : Dev) (g : Nat) : Nat := (d.fld (Reg.PG_TRIP_EN g) 15 0 ||| 0x6C04) &&& 0xFFFE

/-- CLR_RES of a clear (R316, R330): BLOCK, NOT_ARMED and NO_OWNER; 0 where it is accepted. -/
def Dev.clearBlock (d : Dev) (g except : Nat) : Nat :=
  let block := d.activeCauses g except &&& d.tripEn g
  if d.gstate g = 4 then block + b2n (d.cstate != 3) * 2 ^ 16 + b2n (!d.ownerReady g) * 2 ^ 17 else block

/-- TRIP_CLR at one group (R316, R317). -/
def Dev.clearGroup (except g : Nat) (d : Dev) : Dev :=
  let b := d.clearBlock g except
  if b ≠ 0 then (d.setReg (Reg.PG_CLR_RES g) (bitMask 31 ||| word b)).raise (0x20 + g) 17
  else
    let d := (d.setBit (Reg.PG_TRIP_STAT g) 31 false).raise (0x20 + g) 18
    if d.gstate g = 4 then d.modGroup g (fun x => { x with clearPending := true, runAt := 32 * d.nextReload g })
    else (d.setFld (Reg.PG_TRIP_ACT g) 17 16 0).settle g

/-- The named groups whose clears are accepted together: a CHAIN source that is itself named and accepted does not count
(R319). Each round drops the groups that are refused beside those that remain. -/
def Dev.acceptedClears (d : Dev) : Nat → Nat → Nat
  | 0, named => named
  | fuel + 1, named =>
    d.acceptedClears fuel (twelve.foldl (fun a g => if natBit g named && d.clearBlock g named == 0 then a + 2 ^ g else a) 0)

/-! ### Meanings -/

/-- TRIP_NOW (R304). -/
def execTripNow (m : Master) (g : Fin 12) (s : State) : Host.Outcome State Fault Refusal :=
  s.onDev (fun d => d.accessWrite m (Reg.PG_CMD g.val) 0x10 (Dev.trip 7 g.val))

/-- TRIP_CLR (R316). -/
def execTripClr (m : Master) (g : Fin 12) (s : State) : Host.Outcome State Fault Refusal :=
  s.onDev (fun d => d.accessWrite m (Reg.PG_CMD g.val) 0x11 (Dev.clearGroup 0 g.val))

/-- A write of PWMSYS.GCLR (R319). -/
def Dev.gclrOp (v : Word) (d : Dev) : Dev :=
  let named := (v &&& 0xFFF).toNat
  let acc := d.acceptedClears 12 named
  each (groupsOf v) (Dev.clearGroup acc) d

/-- GCLR (R319). -/
def execGclr (m : Master) (v : Word) (s : State) : Host.Outcome State Fault Refusal :=
  s.onDev (fun d => d.accessWrite m Reg.PWMSYS_GCLR v (Dev.gclrOp v))

/-- A code written to PGn.CMD (R300, R330): START, STOP, STOP_NOW, TRIP_NOW, TRIP_CLR; every other is refused. -/
def Dev.pgCmdOp (g code : Nat) (d : Dev) : Dev :=
  if code = 1 then d.startGroup g
  else if code = 2 then d.stopGroup false g
  else if code = 3 then d.stopGroup true g
  else if code = 0x10 then d.trip 7 g
  else if code = 0x11 then d.clearGroup 0 g
  else d.raise (0x20 + g) 3

/-- A trip input that is active after its filter trips its groups (R304, R307). -/
def Dev.tripFromInput (i : Nat) (d : Dev) : Dev :=
  if i = 12 then each twelve (Dev.trip 2) d
  else each (twelve.filter (fun g => d.bit (Reg.PWMSYS_TRIP_IN i) (16 + g))) (Dev.trip 1) d

/-- A trip input takes a new state after its filter (R301, R307). -/
def Dev.tripInputSet (i : Nat) (active : Bool) (d : Dev) : Dev :=
  let was := natBit i d.tripIn.toNat
  let m := BitVec.ofNat 13 (2 ^ i)
  let d := (Dev.putTripIn (if active then d.tripIn ||| m else d.tripIn &&& ~~~m) d)
  if active && !was then (d.raise 0x2C i).tripFromInput i else d

/-- Filter length of a trip input in PWM clocks, from 16 to 512 (R135, R331). -/
def Dev.tripFilter (d : Dev) (i : Nat) : Nat := max 16 (min 512 (d.fld (Reg.PWMSYS_TRIP_IN i) 9 0))

/-- TRIP_INPUT (R135, R307): the ball of TRIPi, or of TRIP_ALL for i = 12, has stood at a level for some PWM clocks; the filter passes
it once it has been stable for the full length. -/
def execTripInput (i : Fin 13) (level : Bool) (clocks : Nat) (s : State) : Host.Outcome State Fault Refusal :=
  s.onDev (fun d =>
    if d.pageHeld 0x2C ∨ clocks < d.tripFilter i.val then d
    else d.tripInputSet i.val (level == d.bit (Reg.PWMSYS_TRIP_IN i.val) 31))

/-- ASC_LOW_SIDE_ON (R311): in this tick DT has elapsed from the instant from which ASC applies, and the ASC low sides that do not
conduct turn on. -/
def execAscLowSideOn (g : Fin 12) (s : State) : Host.Outcome State Fault Refusal :=
  s.onDev (fun d =>
    let at_ := (d.group g.val).ascAt + d.deadTime g.val
    d.when (d.tripApplied g.val == 2 && !d.sloeHolds g.val && at_ / 32 == d.now) (Dev.ascOn g.val at_))

/-- SDT of a group in the active copy, in AON cycles (R320). -/
def Dev.sdt (d : Dev) (g : Nat) : Nat := d.actFld (Reg.SLOE_PSAFE g) 7 0

/-- SLOE_ASC_LOW_SIDE_ON (R102, R321): SDT after the decision to hold, an AON cycle being 10 ticks, the remaining ASC low sides turn
on. -/
def execSloeAscLowSideOn (g : Fin 12) (s : State) : Host.Outcome State Fault Refusal :=
  s.onDev (fun d =>
    let at_ := vget 0 d.sloe.holdAt g.val + 10 * d.sdt g.val
    d.when (d.sloeHolds g.val && at_ == d.now) (Dev.ascOn g.val (32 * at_)))

/-- A write of FORCE_SH that has passed its key (R326, R327): without effect while FORCE_CFG.EN = 0. -/
def Dev.forceOp (g : Nat) (v : Word) (d : Dev) : Dev :=
  if !d.bit (Reg.PG_FORCE_CFG g) 0 then d else
  ((d.setReg (Reg.PG_FORCE_SH g) (v &&& fieldMask 8 0)).modGroup g (fun x => { x with forceNew := true })).noteLate g

/-- A write of FORCE_SH by a master: an engine's is discarded (R326). -/
def Dev.forceShWrite (m : Master) (g : Nat) (v : Word) (op : Dev → Dev) (d : Dev) : Dev :=
  match m with
  | .le _ => if d.pageHeld (0x20 + g) then d.refuseSys m (keyAddr (Reg.PG_FORCE_SH g)) true else d.discard m (Reg.PG_FORCE_SH g)
  | _ => d.accessWrite m (Reg.PG_FORCE_SH g) v op

/-- FORCE_SH_WRITE (R326, R327). -/
def execForceShWrite (m : Master) (g : Fin 12) (v : Word) (s : State) : Host.Outcome State Fault Refusal :=
  s.onDev (Dev.forceShWrite m g.val v (Dev.forceOp g.val v))

/-- Causes enabled while their source is active trip the group (R304, R305): those that stand as levels. -/
def Dev.tripLevels (g : Nat) (d : Dev) : Dev :=
  each ([1, 3, 4, 5, 6, 12].filter (fun c => natBit c (d.activeCauses g 0))) (fun c d => d.trip c g) d

end Sys2Proof.Machine
end

