-- ==== Sys2Proof/Machine/Mc.lean ====
section
/-!
DEFINITION. Machine control (spec/13): the state of a unit, its estimates and outputs at a sample boundary, six-step commutation,
lockout and forced short circuits, and the command pins.
-/

namespace Sys2Proof.Machine

/-! ### Settings of a unit -/

def Dev.mcMode (d : Dev) (n : Nat) : Nat := d.fld (Reg.MC_CFG n) 1 0
def Dev.mstate (d : Dev) (n : Nat) : Nat := d.fld (Reg.MC_STAT n) 3 0
def Dev.mcPf (d : Dev) (n : Nat) : Nat := d.fld (Reg.MC_CFG n) 10 8

/-- ANGSRC in force: 3 acts as 0, and 0 after a lost sensor (R478, R486). -/
def Dev.angSrc (d : Dev) (n : Nat) : Nat :=
  let a := d.fld (Reg.MC_CFG n) 5 4
  if (d.mcu n).noSensor || a == 3 then 0 else a

/-- A sensor gives angle and speed: SIX_HALL, or FOC with ANGSRC 1 or 2 (R458). -/
def Dev.mcSensor (d : Dev) (n : Nat) : Bool := d.mcMode n == 2 || (d.mcMode n == 1 && d.angSrc n != 0)

/-- FOC on the engine's observer (R467). -/
def Dev.mcObserver (d : Dev) (n : Nat) : Bool := d.mcMode n == 1 && d.angSrc n == 0

/-- A binary32 number of seconds in whole ticks of 2.5 ns, rounded down; 0 for what is no time. -/
def secTicks (w : Word) : Nat :=
  match dyadicOf w with
  | some (n, e) => if 0 ≤ e then (n * 2 ^ e.toNat * 400000000).toNat else ((n * 400000000).fdiv (2 ^ (-e).toNat)).toNat
  | none => 0

/-- The length in seconds of the window just closed (R457). -/
def Dev.closedSec (d : Dev) (n : Nat) : FpOut := lit (fpOfRatio (d.group n).closedLen 400000000)

/-- A register as an operand. -/
def Dev.k (d : Dev) (key : Nat) : FpOut := rd (d.reg key)

/-- Single-turn bits of a serial position: ST of 0 or above LEN acts as LEN (R436). -/
def Dev.serLen (d : Dev) (p : Nat) : Nat := min 32 (max 8 (d.fld (Reg.PF_SER_CFG p) 21 16))
def Dev.stBits (d : Dev) (p : Nat) : Nat :=
  let st := d.fld (Reg.PF_SER_CFG p) 12 8
  if st = 0 ∨ d.serLen p < st then d.serLen p else st

def fPi : FpOut := lit 0x40490FDB
def fTwoPi : FpOut := lit 0x40C90FDB

/-- The value that an amplitude of back-EMF has at a frequency: 2π |f| × PSI (R477). -/
def Dev.emfAt (d : Dev) (n : Nat) (f : FpOut) : FpOut := (fTwoPi.mul f.abs).mul (d.k (Reg.MC_PSI n))

/-- An accumulator's mean. -/
def Dev.accMean (d : Dev) (m : Nat) : FpOut := d.k (Reg.ACC_MEAN (m / 32) (m % 32))

/-! ### Leg commands (R453, R454, R479) -/

/-- Commands posted for the motor legs of phases a, b and c. -/
def Dev.postLegs (n a b c : Nat) (d : Dev) : Dev :=
  let l := d.reg (Reg.MC_LEGS n)
  d.modMc n (fun m => { m with
    maskOut := vset (vset (vset m.maskOut (Machine.fld 1 0 l) a) (Machine.fld 3 2 l) b) (Machine.fld 5 4 l) c })

/-- The row of a sector: commands of phases a, b, c (R479). -/
def rowOf : Nat → Nat × Nat × Nat
  | 1 => (0, 2, 1)
  | 2 => (0, 1, 2)
  | 3 => (1, 0, 2)
  | 4 => (2, 0, 1)
  | 5 => (2, 1, 0)
  | 6 => (1, 2, 0)
  | _ => (1, 1, 1)

/-- The sector applied for sector `s` (R479). -/
def Dev.sectApplied (d : Dev) (n s : Nat) : Nat :=
  let o := d.fld (Reg.MC_LEGS n) 18 16
  (s + (if 6 ≤ o then 0 else o) + 5) % 6 + 1

/-- The row of a sector is posted (R479): in the backward direction the row of the sector three further. -/
def Dev.postRow (n s : Nat) (backward : Bool) (d : Dev) : Dev :=
  let ap := d.sectApplied n s
  let r := rowOf (if backward then (ap + 2) % 6 + 1 else ap)
  let d := d.modMc n (fun m => { m with row := s, rowAt := d.now, nextRow := none, backward := backward })
  (d.postLegs n r.1 r.2.1 r.2.2).setFld (Reg.MC_OUT_FLAGS n) 18 16 ap

/-- The direction is that of REF_OUT, forward at 0 (R479). -/
def Dev.refBackward (d : Dev) (n : Nat) : Bool := fpLt (d.reg (Reg.MC_REF_OUT n)) 0

/-- The motor legs are blocked at once; no row and no prediction remain. -/
def Dev.mcBlock (n : Nat) (d : Dev) : Dev :=
  let d := d.modMc n (fun m => { m with
    starting := false, releasePend := false, released := false, ramp := 0, pred := none, row := 0, nextRow := none, steps := none
    reported := false, stopHeld := none })
  let d := (d.postLegs n 1 1 1).setFld (Reg.MC_OUT_FLAGS n) 18 16 0
  ((d.setReg (Reg.MC_TQ_MOT n) 0).setReg (Reg.MC_TQ_GEN n) 0).mcMask n

/-! ### Lockout and forced short circuit (R474, R476) -/

/-- OV_CMP shows over-voltage and is enabled. -/
def Dev.overVolt (d : Dev) (n : Nat) : Bool := d.bit (Reg.MC_CMPSEL n) 31 && d.cmpHi (d.fld (Reg.MC_CMPSEL n) 5 0)

/-- √3 × E_EST, and K × VDC for a factor K. -/
def Dev.lineEmf (d : Dev) (n : Nat) : FpOut := fRoot3.mul (d.k (Reg.MC_E_EST n))
def Dev.vdcTimes (d : Dev) (n key : Nat) : FpOut := (d.k key).mul (d.k (Reg.MC_VDC_OUT n))

/-- The MC_ASC request is asserted: its event, and cause MC_ASC (R474, R476). -/
def Dev.ascAssert (n : Nat) (d : Dev) : Dev :=
  if d.bit (Reg.MC_STAT n) 11 then d
  else (((d.setBit (Reg.MC_STAT n) 11 true).raise (0x70 + n) 8).modMc n (fun m => { m with ascHeld := 0 })).trip 13 n

/-- The condition of R476 asserts the request in LOCKOUT. -/
def Dev.ascCheck (n : Nat) (d : Dev) : Dev :=
  d.when (d.mstate n == 8 && ((d.lineEmf n).ge (d.vdcTimes n (Reg.MC_ASC_K n)) || d.overVolt n)) (Dev.ascAssert n)

/-- At a sample boundary of LOCKOUT the request is released once its release condition has held for 16 boundaries (R476). -/
def Dev.ascBoundary (n : Nat) (d : Dev) : Dev :=
  let d := d.ascCheck n
  if d.mstate n = 8 ∧ d.bit (Reg.MC_STAT n) 11 = true then
    let rel := (d.vdcTimes n (Reg.MC_ASC_REL n)).ge (d.lineEmf n) && !d.overVolt n
    let held := if rel then (d.mcu n).ascHeld + 1 else 0
    (d.modMc n (fun m => { m with ascHeld := held })).when (16 ≤ held) (Dev.setBit (Reg.MC_STAT n) 11 false)
  else d

/-- A lockout cause (R458, R476, R478): blocked, with the MC trip request. -/
def Dev.lockout (n cause : Nat) (d : Dev) : Dev :=
  let d := ((d.setMstate n 8).setBit (Reg.MC_STAT n) 9 false).mcBlock n
  let d := d.modMc n (fun m => { m with est := {}, ascHeld := 0 })
  let d := (d.raise (0x70 + n) 7).setReg (Reg.MC_LOCK_CAUSE n)
    (bitMask 31 ||| place 11 8 (d.fld (Reg.MC_LOCK_CAUSE n) 11 8) ||| place 3 0 cause)
  ((d.setBit (Reg.MC_STAT n) 10 true).trip 12 n).ascCheck n

/-- Over-voltage while a machine is caught or waits for its release (R474): the request before the lockout. -/
def Dev.overVoltCheck (n : Nat) (d : Dev) : Dev :=
  let st := d.mstate n
  if d.mcOn n && d.overVolt n && (st == 1 || st == 5 || (st == 2 && !(d.mcu n).released)) then (d.ascAssert n).lockout n 4
  else if d.mcOn n then d.ascCheck n
  else d

/-! ### Engagement, decline and loss (R458, R471 to R475) -/

/-- The rotor is lost (R473): REACQ, blocked at once, with STOP_PEND from DECEL. -/
def Dev.rotorLost (n : Nat) (d : Dev) : Dev :=
  let d := d.setBit (Reg.MC_STAT n) 9 (d.bit (Reg.MC_STAT n) 9 || d.mstate n == 4)
  let d := ((d.raise (0x70 + n) 4).setMstate n 5).mcBlock n
  (d.modMc n (fun m => { m with
    lowReports := 0, est := { fromT := d.now + (d.group n).carLen, left := 8 } })).overVoltCheck n

/-- A catch is declined (R471): 1 CATCH_TOO_FAST, 2 CATCH_UNSTABLE. -/
def Dev.declineCatch (n cause : Nat) (d : Dev) : Dev :=
  let d := ((d.setMstate n 7).raise (0x70 + n) 6).modMc n (fun m => { m with est := {} })
  d.setReg (Reg.MC_LOCK_CAUSE n) (bitMask 31 ||| place 11 8 cause ||| place 3 0 (d.fld (Reg.MC_LOCK_CAUSE n) 3 0))

/-- An engagement (R475): initial angle, frequency and back-EMF, INIT for this boundary, and the release at the next reload. In
SIX_BEMF no interval has been measured: it is free until two crossings have come. -/
def Dev.engage (n : Nat) (f th e : Word) (still : Bool) (d : Dev) : Dev :=
  let d := ((d.setReg (Reg.MC_INIT_TH n) th).setReg (Reg.MC_INIT_F n) f).setReg (Reg.MC_E_EST n) e
  let d := (d.setBit (Reg.MC_OUT_FLAGS n) 0 true).setBit (Reg.MC_OUT_FLAGS n) 2 still
  let d := d.setReg (Reg.MC_REF_OUT n) (if d.bit (Reg.MC_CFG n) 16 then 0 else f)
  let d := d.when (d.mcMode n == 3) (Dev.setReg (Reg.MC_F_OUT n) f)
  let x := d.group n
  let d := d.modMc n (fun m => { m with
    starting := false, releasePend := true, released := false, ramp := 0, lowReports := 0, reported := false, est := {}, misses := 0
    crossAt := none, th := th, thAt := 2 * x.perStart - x.closedLen })
  let d := d.when (d.mcMode n == 3) (fun d =>
    let r := d.free
    r.2.modMc n (fun m => { m with interval := r.1.toNat }))
  let d := (((d.setReg (Reg.MC_TQ_MOT n) 0).setReg (Reg.MC_TQ_GEN n) 0).setMstate n 2).raise (0x70 + n) 5
  d.overVoltCheck n

/-- An engagement of a rotor found still, or of a start without a catch (R471, R486): F = 0; angle and magnitude are free. -/
def Dev.engageStill (n : Nat) (d : Dev) : Dev :=
  let (th, d) := d.free
  let (e, d) := d.free
  d.engage n 0 th e true

/-- The open-loop start begins with the row of sector 1 (R483). -/
def Dev.alignStart (n : Nat) (backward : Bool) (d : Dev) : Dev :=
  let d := (d.setMstate n 6).modMc n (fun m => { m with
    starting := false, est := {}, alignAt := d.now, steps := none, locked := 0, crossAt := none, misses := 0 })
  d.postRow n 1 backward

/-! ### Targets (R462) -/

/-- The target of a unit: 0 in DECEL and with STOP_PEND. -/
def Dev.mcTarget (d : Dev) (n : Nat) : FpOut :=
  if d.mstate n = 4 ∨ d.bit (Reg.MC_STAT n) 9 = true then f0
  else
    let src := d.fld (Reg.MC_CFG n) 14 12
    let t := if 1 ≤ src ∧ src ≤ 4 then d.k (Reg.MC_CMDIN_VAL 0 (src - 1)) else d.k (Reg.MC_SETPT n)
    if d.bit (Reg.MC_CFG n) 16 then t.clamp f1.neg f1
    else let m := d.k (Reg.MC_FMAX n); t.clamp m.neg m

/-- The target points backward. -/
def Dev.targetBackward (d : Dev) (n : Nat) : Bool := (d.mcTarget n).lt f0

/-! ### Estimates (R470) -/

/-- Angles reduced into [−0.5, 0.5). -/
def FpOut.wrapHalf (x : FpOut) : FpOut := x.sub ((x.add fHalf).lift1 fpFloor)

/-- A window joins an estimate: angle and magnitude of a vector, and from the second window on its frequency. -/
def Estimate.push (len al be : FpOut) (x : Estimate) : Estimate :=
  let phi := FpOut.lift2 fpAngle be al
  let mag := FpOut.lift2 fpHypot be al
  let f := match x.windows with
    | w :: _ => ((phi.sub (lit w.phi)).wrapHalf.div len).val
    | [] => 0
  { x with windows := { phi := phi.val, mag := mag.val, f := f } :: x.windows }

/-- E_w of a window: m × πfT / sin(πfT); m at f = 0 (R470). -/
def EstWindow.emf (len : FpOut) (w : EstWindow) : FpOut :=
  if fpEq w.f 0 then lit w.mag
  else
    let x := (fPi.mul (lit w.f)).mul len
    (((lit w.mag).mul x)).div (((lit w.f).mul len).mul fHalf).sin

/-- The angle at the centre of a window (R470). -/
def EstWindow.centre (w : EstWindow) : FpOut := (lit w.phi).sub ((lit 0x3E800000).mul (lit w.f).sign)

/-- The estimate converges at its newest window (R470). -/
def Dev.estConverged (d : Dev) (n : Nat) (x : Estimate) : Bool :=
  match x.windows with
  | w :: w1 :: w2 :: _ :: _ =>
    let f := lit w.f
    let tol := ((d.k (Reg.MC_CONV_TOL n)).mul f.abs).max fHalf
    let near (y : Word) : Bool := tol.ge ((lit y).sub f).abs
    near w.f && near w1.f && near w2.f && f.abs.lt ((lit 0x3ECCCCCD).div (d.closedSec n))
  | _ => false

/-- The magnitude of the newest window counts toward stillness (R470). -/
def Dev.estStill (d : Dev) (n : Nat) (x : Estimate) : Nat :=
  match x.windows with
  | w :: _ => if (lit w.mag).lt (d.k (Reg.MC_EMIN n)) then x.still + 1 else 0
  | [] => 0

/-- The vector of the terminal voltages, or of the phase currents, of the window just closed. -/
def Dev.mcVector (d : Dev) (key : Nat) : FpOut × FpOut :=
  let w := d.reg key
  match clarke (d.accMean (Machine.fld 6 0 w)) (d.accMean (Machine.fld 14 8 w)) (d.accMean (Machine.fld 22 16 w)) with
  | [a, b] => (a, b)
  | _ => (f0, f0)

/-- The estimate takes the window just closed. -/
def Dev.estWindow (n key : Nat) (d : Dev) : Dev :=
  let v := d.mcVector key
  let x := (d.mcu n).est.push (d.closedSec n) v.1 v.2
  d.modMc n (fun m => { m with est := { x with still := d.estStill n x } })

/-- The newest window of the estimate. -/
def Dev.estNow (d : Dev) (n : Nat) : EstWindow := ((d.mcu n).est.windows[0]?).getD { phi := 0, mag := 0, f := 0 }

/-- The line back-EMF of the newest window is above CATCH_LIM × VDC (R471, R473). -/
def Dev.tooFast (d : Dev) (n : Nat) : Bool :=
  (d.vdcTimes n (Reg.MC_CATCH_LIM n)).lt (fRoot3.mul ((d.estNow n).emf (d.closedSec n)))

/-- F_OUT and TH_OUT during a catch or a re-acquisition show the newest window. -/
def Dev.estShow (n : Nat) (d : Dev) : Dev :=
  if (d.mcu n).est.windows.length < 2 then d
  else
    let w := d.estNow n
    ((d.setReg (Reg.MC_F_OUT n) w.f).setReg (Reg.MC_TH_OUT n) w.centre.val).setBit (Reg.MC_OUT_FLAGS n) 4 true

/-- An engagement with the newest window of an estimate. -/
def Dev.engageEst (n : Nat) (d : Dev) : Dev :=
  let w := d.estNow n
  d.engage n w.f w.centre.val (w.emf (d.closedSec n)).val false

/-- CATCH at a sample boundary (R471). -/
def Dev.catchBoundary (n : Nat) (d : Dev) : Dev :=
  let x := (d.mcu n).est
  let close := (d.group n).perStart
  let d := d.when (x.fromT < close && close ≤ x.untilT) (fun d => (d.estWindow n (Reg.MC_ACC_V n)).estShow n)
  let y := (d.mcu n).est
  if d.estConverged n y then (if d.tooFast n then d.declineCatch n 1 else d.engageEst n)
  else if 3 ≤ y.still then (if d.mcMode n = 3 then d.alignStart n (d.targetBackward n) else d.engageStill n)
  else if x.untilT ≤ close then d.declineCatch n 2
  else d

/-- REACQ at a sample boundary (R473). -/
def Dev.reacqBoundary (n : Nat) (d : Dev) : Dev :=
  let x := (d.mcu n).est
  let g := d.group n
  if g.perStart < x.fromT + g.closedLen then d
  else
    let d := ((d.modMc n (fun m => { m with est := { m.est with left := x.left - 1 } })).estWindow n (Reg.MC_ACC_V n)).estShow n
    let y := (d.mcu n).est
    if d.estConverged n y then
      (if d.tooFast n then d.lockout n 2 else (d.engageEst n).bumpSat (Reg.MC_REACQ_CNT n) 15 0)
    else if 3 ≤ y.still then d.lockout n 3
    else if y.left = 0 then d.lockout n 1
    else d

/-- E_EST in LOCKOUT (R477): a sensor, else the phase currents under ASC, else the terminal voltages under ALL_OFF. -/
def Dev.lockoutBoundary (n : Nat) (d : Dev) : Dev :=
  let p := d.mcPf n
  let take (kind key : Nat) (d : Dev) : Dev :=
    let d := d.when ((d.mcu n).est.kind != kind) (Dev.modMc n (fun m => { m with est := { kind := kind } }))
    let d := d.estWindow n key
    d.when (2 ≤ (d.mcu n).est.windows.length)
      (fun d => d.setReg (Reg.MC_E_EST n) (d.emfAt n (lit (d.estNow n).f)).val)
  let d :=
    if d.angSrc n != 0 && d.bit (Reg.PF_SNAP_SPD p) 31 then d.setReg (Reg.MC_E_EST n) (d.emfAt n (d.k (Reg.MC_F_OUT n))).val
    else if d.tripApplied n == 2 && d.bit (Reg.MC_ACC_I n) 31 then take 1 (Reg.MC_ACC_I n) d
    else if d.tripApplied n == 1 then take 0 (Reg.MC_ACC_V n) d
    else d
  d.ascBoundary n

/-! ### Outputs at a sample boundary (R455 to R457, R462 to R464, R469) -/

/-- The mechanical fraction of the sensor, and the age of its snapshot in seconds (R457); no fraction is stated for ABZ with
CPR = 0, where it is free. -/
def Dev.sensorFrac (d : Dev) (n : Nat) : FpOut × FpOut × Dev :=
  let p := d.mcPf n
  if d.angSrc n = 1 then
    let cpr := d.fld (Reg.PF_ABZ_CFG p) 23 0
    if cpr = 0 then (let (w, d) := d.free; (lit w, f0, d))
    else (lit (fpOfRatio (d.reg (Reg.PF_SNAP_POS p)).toNat cpr), f0, d)
  else
    let st := d.stBits p
    (lit (fpOfRatio ((d.reg (Reg.PF_SNAP_SPOS p)).toNat % 2 ^ st) (2 ^ st)),
      lit (fpOfRatio (d.fld (Reg.PF_SNAP_AGE p) 23 0) 400000000), d)

/-- Angle and speed from a sensor (R457, R480), and what FOC shows without one (R457). -/
def Dev.mcSense (n : Nat) (d : Dev) : Dev :=
  let p := d.mcPf n
  let d := d.setBit (Reg.MC_OUT_FLAGS n) 4 false
  let d := if d.mcSensor n then
      (d.setReg (Reg.MC_F_OUT n) ((d.k (Reg.PF_SNAP_SPEED p)).mul (d.k (Reg.MC_F_SCALE n))).val).setBit
        (Reg.MC_OUT_FLAGS n) 3 (d.bit (Reg.PF_SNAP_SPD p) 31)
    else if d.mcObserver n && (d.mstate n == 2 || d.mstate n == 3 || d.mstate n == 4) then
      (d.setReg (Reg.MC_F_OUT n) (d.reg (Reg.MC_OBS_F n))).setBit (Reg.MC_OUT_FLAGS n) 3 false
    else d.setBit (Reg.MC_OUT_FLAGS n) 3 false
  if d.angSrc n = 0 then d.setReg (Reg.MC_TH_OUT n) 0
  else
    let (frac, age, d) := d.sensorFrac n
    let pp := max 1 (d.fld (Reg.MC_CFG n) 27 24)
    let a := (((lit (fpOfIntZ pp)).mul frac).add (d.k (Reg.MC_ANG_OFS n))).add
      ((d.k (Reg.MC_F_OUT n)).mul (age.sub ((d.closedSec n).div f2)))
    (d.setReg (Reg.MC_TH_OUT n) a.frac.val).setBit (Reg.MC_OUT_FLAGS n) 4 true

/-- The ramp factor and the torque limits (R464). -/
def Dev.mcTorque (n : Nat) (d : Dev) : Dev :=
  let st := d.mstate n
  let grows := (st == 2 || st == 3 || st == 4) && (d.mcu n).released && (d.mcu n).relAt != (d.group n).perStart || st == 6 ||
    ((st == 3 || st == 4) && d.mcMode n == 3 && !(d.mcu n).released && !(d.mcu n).releasePend)
  let r := if grows then ((lit (d.mcu n).ramp).add ((d.closedSec n).div (d.k (Reg.MC_RAMP_T n)))).min f1 else lit (d.mcu n).ramp
  let vdc := d.k (Reg.MC_VDC_OUT n)
  let soft := d.k (Reg.MC_VDC_SOFT n)
  let hard := d.k (Reg.MC_VDC_HARD n)
  let gen := if soft.ge hard then (if soft.lt vdc then f0 else r)
    else r.mul (((hard.sub vdc).div (hard.sub soft)).clamp f0 f1)
  let d := d.modMc n (fun m => { m with ramp := r.val })
  let d := (d.setReg (Reg.MC_TQ_MOT n) r.val).setReg (Reg.MC_TQ_GEN n) gen.val
  if st = 2 ∧ fpGe r.val 0x3F800000 = true then
    if d.bit (Reg.MC_STAT n) 9 then (d.setBit (Reg.MC_STAT n) 9 false).setMstate n 4 else d.setMstate n 3
  else d

/-- A value moved toward a target: by at most `up` where its magnitude grows, by at most `down` where it shrinks, through zero
only by way of zero (R463). -/
def rampTo (x t up down : FpOut) : FpOut :=
  let same := (f0.lt x && f0.lt t) || (x.lt f0 && t.lt f0)
  if fpEq x.val 0 then
    (if up.ge t.abs then t else if t.lt f0 then up.neg else up)
  else if same && x.abs.lt t.abs then
    (if up.ge (t.sub x).abs then t else if x.lt f0 then x.sub up else x.add up)
  else if same then
    (if down.ge (t.sub x).abs then t else if x.lt f0 then x.add down else x.sub down)
  else (if down.ge x.abs then f0 else if x.lt f0 then x.add down else x.sub down)

/-- REF_OUT at a sample boundary of ENGAGE, DRIVE or DECEL (R463). -/
def Dev.mcRef (n : Nat) (d : Dev) : Dev :=
  let len := d.closedSec n
  let up := (d.k (Reg.MC_ACCEL n)).mul len
  let down := ((d.k (Reg.MC_DECEL n)).mul len).mul (d.k (Reg.MC_TQ_GEN n))
  d.setReg (Reg.MC_REF_OUT n) (rampTo (d.k (Reg.MC_REF_OUT n)) (d.mcTarget n) up down).val

/-- A stop completes (R458, R461). -/
def Dev.stopDone (n : Nat) (d : Dev) : Dev :=
  let d := ((d.setMstate n 0).setBit (Reg.MC_STAT n) 9 false).mcBlock n
  d.when (d.bit (Reg.MC_CFG n) 18) (Dev.stopGroup false n)

/-- The condition of a completed stop (R458). -/
def Dev.stopCheck (n : Nat) (d : Dev) : Dev :=
  let holds := fpEq (d.reg (Reg.MC_REF_OUT n)) 0 && (d.k (Reg.MC_STOP_F n)).ge (d.k (Reg.MC_F_OUT n)).abs
  if !holds then d.modMc n (fun m => { m with stopHeld := none })
  else
    let t0 := (d.mcu n).stopHeld.getD d.now
    let d := d.modMc n (fun m => { m with stopHeld := some t0 })
    d.when (secTicks (d.reg (Reg.MC_STOP_T n)) ≤ d.now - t0) (Dev.stopDone n)

/-- The prediction for skipped samples of the period that begins (R469). -/
def Dev.mcPredict (n : Nat) (d : Dev) : Dev :=
  let st := d.mstate n
  let obs := d.angSrc n == 0
  let x := d.group n
  let tc := 2 * x.perStart - x.closedLen
  let f := if obs then d.k (Reg.MC_OBS_F n) else d.k (Reg.MC_F_OUT n)
  let dt := lit (fpOfRatio ((tc : Int) - (d.mcu n).thAt) 800000000)
  let th := if obs then ((lit (d.mcu n).th).add (f.mul dt)).frac else d.k (Reg.MC_TH_OUT n)
  let drives := st == 2 || st == 3
  let d := d.when (drives && obs && (d.mcu n).thAt < tc) (Dev.modMc n (fun m => { m with th := th.val, thAt := tc }))
  if drives && d.bit (Reg.MC_ACC_I n) 31 && (!obs || (d.mcu n).reported) then
    let i := d.mcVector (Reg.MC_ACC_I n)
    let w := (fTwoPi.mul f).mul (d.k (Reg.MC_PSI n))
    d.modMc n (fun m => { m with pred := some {
      ia := i.1.val, ib := i.2.val, tc := tc, va := m.vappA, vb := m.vappB
      ea := (w.mul th.sin.neg).val, eb := (w.mul th.cos).val } })
  else d.modMc n (fun m => { m with pred := none })

/-- A RUN that waited for the boundary starts (R471, R472, R486). -/
def Dev.startBoundary (n : Nat) (d : Dev) : Dev :=
  let d := d.modMc n (fun m => { m with starting := false })
  let t := (d.group n).perStart
  let caught (d : Dev) : Dev :=
    ((d.setMstate n 1).modMc n (fun m => { m with
      est := { fromT := t, untilT := t + secTicks (d.reg (Reg.MC_CATCH_T n)) } })).overVoltCheck n
  if d.mstate n = 7 then caught d
  else if d.mcSensor n then
    d.engage n (d.reg (Reg.MC_F_OUT n)) (d.reg (Reg.MC_TH_OUT n)) (d.emfAt n (d.k (Reg.MC_F_OUT n))).val false
  else if d.bit (Reg.MC_CFG n) 17 then caught d
  else d.engageStill n

/-- The six-step row follows the direction of REF_OUT (R479). -/
def Dev.rowDirection (n : Nat) (d : Dev) : Dev :=
  let m := d.mcu n
  let st := d.mstate n
  if m.row != 0 && (st == 2 || st == 3 || st == 4) && d.refBackward n != m.backward then
    let t := m.rowAt
    (d.postRow n m.row (!m.backward)).modMc n (fun x => { x with rowAt := t, nextRow := m.nextRow })
  else d

/-- A sample boundary of the group (R455): outputs, estimates, state, ramps and the prediction. -/
def Dev.mcBoundary (n : Nat) (d : Dev) : Dev :=
  if !d.mcOn n || (d.group n).closedLen == 0 then d else
  let d := (d.setBit (Reg.MC_OUT_FLAGS n) 0 false).setFld (Reg.MC_OUT_FLAGS n) 31 24 (d.fld (Reg.PG_WIN_CNT n) 7 0)
  let d := (d.mcSense n).setReg (Reg.MC_VDC_OUT n) (d.accMean (d.fld (Reg.MC_ACC_V n) 30 24)).val
  let st := d.mstate n
  let d :=
    if (st == 0 || st == 7) && (d.mcu n).starting then d.startBoundary n
    else if st = 1 then d.catchBoundary n
    else if st = 5 then d.reacqBoundary n
    else if st = 8 then d.lockoutBoundary n
    else if st == 2 || st == 3 || st == 4 || st == 6 then
      (let d := d.mcTorque n
       if st = 6 then d else
       let d := d.mcRef n
       if st = 4 then d.stopCheck n else d)
    else d
  (d.rowDirection n).mcPredict n

/-- The sector at which six-step engages (R480, R482). -/
def Dev.engageSector (d : Dev) (n : Nat) : Nat :=
  if d.mcMode n = 2 then d.fld (Reg.PF_HALL_STAT (d.mcPf n)) 18 16
  else 1 + (fpFloorInt ((lit 0x40C00000).mul ((d.k (Reg.MC_INIT_TH n)).add (d.k (Reg.MC_ANG_OFS n))).frac).val).toNat % 6

/-- A reload of the group (R468, R475): the voltage of the new period, and the release of the legs in its tick. -/
def Dev.mcReload (n : Nat) (d : Dev) : Dev :=
  if !d.mcOn n then d else
  let a := d.reg (Reg.MC_VAPP_A n)
  let b := d.reg (Reg.MC_VAPP_B n)
  let d := d.modMc n (fun m => { m with vappA := a, vappB := b, quiet := m.quiet + 1 })
  if (d.mcu n).releasePend then
    let d := d.modMc n (fun m => { m with releasePend := false, released := true, relAt := d.now, quiet := 0, quietOfs := 0 })
    let d := if d.mcMode n = 1 then d.postLegs n 0 0 0 else d.postRow n (d.engageSector n) (d.refBackward n)
    d.mcMask n
  else d

/-! ### Commands (R460) -/

/-- The outcome of a command: recorded, and an event where it is refused. -/
def Dev.mcResult (n code cause : Nat) (d : Dev) : Dev :=
  let d := d.setReg (Reg.MC_CMD_RES n) (bitMask 31 ||| place 15 8 cause ||| place 7 0 code)
  if cause = 0 then d else d.raise (0x70 + n) (if cause = 2 then 1 else 2)

/-- The Hall code of an interface stands for a sector (R426). -/
def Dev.hallSector (d : Dev) (p code : Nat) : Nat :=
  let s := (d.fld (Reg.PF_HALL_CFG p) 23 0 >>> (3 * (code % 8))) % 8
  if s = 7 then 0 else s

/-- RUN accepted in IDLE or DECLINED (R458, R471, R472, R478): the start waits for the sample boundary, an open-loop start begins
at once, an invalid Hall code locks out. -/
def Dev.runStart (n : Nat) (d : Dev) : Dev :=
  let d := d.when (d.mstate n == 0) (Dev.modMc n (fun m => { m with noSensor := false }))
  if d.mcMode n = 2 ∧ d.hallSector (d.mcPf n) (d.fld (Reg.PF_HALL_STAT (d.mcPf n)) 2 0) = 0 then d.lockout n 7
  else if d.mcMode n = 3 ∧ d.bit (Reg.MC_CFG n) 17 = false ∧ d.mstate n = 0 then d.alignStart n (d.targetBackward n)
  else d.modMc n (fun m => { m with starting := true })

/-- RUN (R460). -/
def Dev.mcRunOp (n : Nat) (d : Dev) : Dev :=
  let st := d.mstate n
  let gs := d.gstate n
  if st = 8 then d.mcResult n 1 3
  else if st = 0 ∨ st = 7 then
    if gs = 3 then d.mcResult n 1 2
    else if gs = 0 ∨ gs = 4 then d.mcResult n 1 1
    else if !d.mcOn n || !d.bit (Reg.PG_CMASK_CFG n) 0 then d.mcResult n 1 4
    else (d.mcResult n 1 0).runStart n
  else
    let d := (d.mcResult n 1 0).setBit (Reg.MC_STAT n) 9 false
    if st = 4 then (d.modMc n (fun m => { m with stopHeld := none })).setMstate n 3 else d

/-- STOP (R460). -/
def Dev.mcStopOp (n : Nat) (d : Dev) : Dev :=
  let st := d.mstate n
  if st = 2 ∨ st = 3 then (d.mcResult n 2 0).setMstate n 4
  else if st = 5 then (d.mcResult n 2 0).setBit (Reg.MC_STAT n) 9 true
  else if st = 1 ∨ st = 6 ∨ st = 7 then
    (((d.mcResult n 2 0).setMstate n 0).mcBlock n).modMc n (fun m => { m with est := {} })
  else if st = 4 then d.mcResult n 2 0
  else d.mcResult n 2 5

/-- RESET_FAULT (R460): from LOCKOUT, with no MC_ASC asserted, to IDLE; the MC trip request ends. -/
def Dev.mcResetOp (n : Nat) (d : Dev) : Dev :=
  if d.mstate n = 8 ∧ d.bit (Reg.MC_STAT n) 11 = false then
    ((d.mcResult n 3 0).setMstate n 0).setBit (Reg.MC_STAT n) 10 false
  else d.mcResult n 3 5

/-- A code written to MCn.CMD (R460, R486). -/
def Dev.mcCmdOp (n code : Nat) (d : Dev) : Dev :=
  if code = 1 then d.mcRunOp n
  else if code = 2 then d.mcStopOp n
  else if code = 3 then d.mcResetOp n
  else d.mcResult n code 5

/-- MC_RUN (R460). -/
def execMcRun (m : Master) (n : Fin 12) (s : State) : Host.Outcome State Fault Refusal :=
  s.onDev (fun d => d.accessWrite m (Reg.MC_CMD n.val) 1 (Dev.mcRunOp n.val))

/-- MC_STOP (R460). -/
def execMcStop (m : Master) (n : Fin 12) (s : State) : Host.Outcome State Fault Refusal :=
  s.onDev (fun d => d.accessWrite m (Reg.MC_CMD n.val) 2 (Dev.mcStopOp n.val))

/-- RESET_FAULT (R460). -/
def execResetFault (m : Master) (n : Fin 12) (s : State) : Host.Outcome State Fault Refusal :=
  s.onDev (fun d => d.accessWrite m (Reg.MC_CMD n.val) 3 (Dev.mcResetOp n.val))

/-! ### Observer reports (R466, R467) -/

/-- The unit is driven: ENGAGE, DRIVE or DECEL. -/
def Dev.mcDriven (d : Dev) (n : Nat) : Bool := d.mcOn n && (d.mstate n == 2 || d.mstate n == 3 || d.mstate n == 4)

/-- The engine's observer is judged: with ANGSRC 0 in ENGAGE or DRIVE (R467). -/
def Dev.mcJudged (d : Dev) (n : Nat) : Bool := d.mcOn n && d.mcObserver n && (d.mstate n == 2 || d.mstate n == 3)

/-- A write of OBS_CONF lands: an observer report. -/
def Dev.obsReport (n : Nat) (v : Word) (d : Dev) : Dev :=
  let d := d.setReg (Reg.MC_OBS_CONF n) v
  let low := (rd v).lt (d.k (Reg.MC_CONF_MIN n)) && (d.k (Reg.MC_OBS_F n)).abs.ge (d.k (Reg.MC_OBS_FMIN n))
  let cnt := if low then (d.mcu n).lowReports + 1 else 0
  let ofs := d.now - (d.group n).perStart
  let d := d.modMc n (fun m => { m with lowReports := cnt, reported := true, quiet := 0, quietOfs := ofs })
  let need := max 1 (d.fld (Reg.MC_OBS_CNT n) 3 0)
  d.when (d.mcJudged n && need ≤ cnt) (Dev.rotorLost n)

/-- OBS_REPORT (R466). -/
def execObsReport (m : Master) (n : Fin 12) (v : Word) (s : State) : Host.Outcome State Fault Refusal :=
  s.onDev (fun d => d.accessWrite m (Reg.MC_OBS_CONF n.val) v (Dev.obsReport n.val v))

/-- Two periods have ended since the previous report or the release (R467): the instant lies as far into its period as that one. -/
def Dev.obsOverdue (d : Dev) (n : Nat) : Bool :=
  let m := d.mcu n
  m.released && (decide (3 ≤ m.quiet) || (m.quiet == 2 && decide (m.quietOfs ≤ d.now - (d.group n).perStart)))

/-- OBS_REPORT_TIMEOUT (R467). -/
def execObsReportTimeout (n : Fin 12) (s : State) : Host.Outcome State Fault Refusal :=
  s.onDev (fun d => d.when (d.mcJudged n.val && d.obsOverdue n.val) (Dev.rotorLost n.val))

/-! ### Six-step commutation (R480 to R483) -/

/-- The sector after `s` in a direction. -/
def nextSector (s : Nat) (backward : Bool) : Nat := if backward then (s + 4) % 6 + 1 else s % 6 + 1

/-- The row in force: that of the sector applied, or the one three further in the backward direction (R479). -/
def Dev.rowInForce (d : Dev) (n : Nat) : Nat :=
  let m := d.mcu n
  let ap := d.sectApplied n m.row
  if m.backward then (ap + 2) % 6 + 1 else ap

/-- The floating phase of a row, 0 a, 1 b, 2 c, and whether it crosses rising (R479). -/
def rowCrossing (r : Nat) : Nat × Bool := (match r % 3 with | 1 => 2 | 2 => 1 | _ => 0, r % 2 == 0)

/-- The instant of the crossing that the row expects, where it has just come (R481): the activation of the phase's comparator, HI for a
rising crossing and LO for a falling one, which reaches MCn within 10 ns; not one within BLANK of the row change, nor one taken. -/
def Dev.expectedCrossing (d : Dev) (n : Nat) : Option Nat :=
  let m := d.mcu n
  let x := rowCrossing (d.rowInForce n)
  let j := d.fld (Reg.MC_CMPSEL n) (17 + 6 * x.1) (12 + 6 * x.1)
  let side := if x.2 then (d.cmpRaw j).hi else (d.cmpRaw j).lo
  side.rose.filter (fun t =>
    decide (t ≤ d.now) && decide (d.now ≤ t + 4) && decide (m.rowAt + d.fld (Reg.MC_ZC_TIM n) 31 24 * 400 ≤ t) &&
      m.crossAt.all (fun c => decide (c < t)))

/-- The forced interval of step `k` in ticks: from OL_T0 to OL_T1 over OL_N steps (R483). -/
def Dev.forcedInterval (d : Dev) (n k : Nat) : Nat :=
  let t0 := secTicks (d.reg (Reg.MC_OL_T0 n))
  let t1 := secTicks (d.reg (Reg.MC_OL_T1 n))
  let last := d.fld (Reg.MC_OBS_CNT n) 15 8 - 1
  if last = 0 then t0 else ((t0 : Int) + ((t1 : Int) - t0) * (min k last : Nat) / (last : Nat)).toNat

/-- An expected crossing at `t` (R481): its interval gives F_OUT, and the next row is scheduled, resolved to 10 ns. -/
def Dev.crossing (n t : Nat) (d : Dev) : Dev :=
  let m := d.mcu n
  let d := match m.crossAt with
    | some c =>
      let f := fpOfRatio (if m.backward then -400000000 else 400000000) (6 * (t - c))
      (d.setReg (Reg.MC_F_OUT n) f).modMc n (fun x => { x with interval := t - c })
    | none => d
  let wait := d.fld (Reg.MC_ZC_TIM n) 15 8 * (d.mcu n).interval / 256 / 4 * 4
  d.modMc n (fun x => { x with crossAt := some t, nextRow := some (nextSector m.row m.backward), rowDue := max d.now (t + wait), misses := 0 })

/-- A crossing during ALIGN (R483): six in a row, each between a quarter and three quarters of its forced interval, end it. A further one
of its interval does not count. -/
def Dev.alignCrossing (n t : Nat) (d : Dev) : Dev :=
  let m := d.mcu n
  match m.steps with
  | none => d
  | some k =>
    if m.crossAt.any (fun c => decide (m.rowAt ≤ c)) then d else
    let iv := d.forcedInterval n k
    let dt := t - m.rowAt
    let good := iv ≤ 4 * dt && 4 * dt ≤ 3 * iv
    let cnt := if good then m.locked + 1 else 0
    let d := d.modMc n (fun x => { x with locked := cnt })
    if 6 ≤ cnt then ((d.crossing n t).modMc n (fun x => { x with steps := none })).setMstate n 3
    else d.modMc n (fun x => { x with crossAt := some t })

/-- ZERO_CROSSING (R481, R483): the crossing that the row expects. -/
def execZeroCrossing (n : Fin 12) (s : State) : Host.Outcome State Fault Refusal :=
  s.onDev (fun d =>
    let n := n.val
    if !(d.mcOn n && d.mcMode n == 3) || (d.mcu n).row == 0 then d else
    match d.expectedCrossing n with
    | none => d
    | some t =>
      if d.mstate n = 6 then d.alignCrossing n t
      else d.when (d.mcDriven n && (d.mcu n).nextRow.isNone) (Dev.crossing n t))

/-- ROW_CHANGE (R481): the scheduled row is commanded at its instant. -/
def execRowChange (n : Fin 12) (s : State) : Host.Outcome State Fault Refusal :=
  s.onDev (fun d =>
    match (d.mcu n.val).nextRow with
    | some r => d.when (d.mcDriven n.val && (d.mcu n.val).rowDue == d.now) (Dev.postRow n.val r (d.refBackward n.val))
    | none => d)

/-- ZC_MISS (R482): no expected crossing within 2I of the latest row change, and again for each further 2I; MISS in a row lose the
rotor. -/
def execZcMiss (n : Fin 12) (s : State) : Host.Outcome State Fault Refusal :=
  s.onDev (fun d =>
    let n := n.val
    let m := d.mcu n
    let cnt := m.misses + 1
    let due := m.nextRow.isNone && m.rowAt + 2 * m.interval * cnt == d.now
    d.when (d.mcDriven n && d.mcMode n == 3 && m.row != 0 && due) (fun d =>
      let d := (d.raise (0x70 + n) 3).modMc n (fun x => { x with misses := cnt })
      d.when (max 1 (d.fld (Reg.MC_ZC_TIM n) 7 0) ≤ cnt) (Dev.rotorLost n)))

/-- The row of ALIGN ends (R483): the first at the end of ALIGN_T, or later where there is no target until then, the rows after it at
their forced intervals. -/
def Dev.forcedDue (d : Dev) (n : Nat) : Bool :=
  let m := d.mcu n
  match m.steps with
  | none => decide (m.alignAt + secTicks (d.reg (Reg.MC_ALIGN_T n)) ≤ d.now) && !fpEq (d.mcTarget n).val 0
  | some k => m.rowAt + d.forcedInterval n k == d.now

/-- FORCED_STEP (R483): the next row; after OL_N steps without a lock the start fails. -/
def execForcedStep (n : Fin 12) (s : State) : Host.Outcome State Fault Refusal :=
  s.onDev (fun d =>
    let n := n.val
    if !(d.mcOn n && d.mstate n == 6 && d.forcedDue n) then d else
    let m := d.mcu n
    let made := match m.steps with | some k => k + 1 | none => 0
    if d.fld (Reg.MC_OBS_CNT n) 15 8 ≤ made then d.lockout n 5
    else
      let crossed : Bool := m.crossAt.any (fun t => decide (m.rowAt ≤ t))
      let d := d.postRow n (nextSector m.row (d.targetBackward n)) (d.targetBackward n)
      d.modMc n (fun x => { x with steps := some made, locked := if crossed then m.locked else 0 }))

/-- A valid Hall edge of an interface (R480): the row of its sector, in every unit in SIX_HALL that it feeds. -/
def Dev.mcHallEdge (p : Nat) (d : Dev) : Dev :=
  each (twelve.filter (fun n => d.mcMode n == 2 && d.mcPf n == p && d.mcDriven n && (d.mcu n).released))
    (fun n d => d.postRow n (d.fld (Reg.PF_HALL_STAT p) 18 16) (d.refBackward n)) d

/-- An invalid Hall code of an interface (R478). -/
def Dev.mcHallError (p : Nat) (d : Dev) : Dev :=
  each (twelve.filter (fun n => d.mcMode n == 2 && d.mcPf n == p && d.mcOn n && (d.mstate n == 2 || d.mstate n == 3)))
    (fun n d => d.lockout n 7) d

/-- FB_LOST of an interface (R478): a lockout, or with FB_REACQ a re-acquisition without the sensor. -/
def Dev.mcFbLost (p : Nat) (d : Dev) : Dev :=
  each (twelve.filter (fun n => d.mcPf n == p && d.angSrc n != 0 && d.mcDriven n)) (fun n d =>
    if d.bit (Reg.MC_CFG n) 19 then (d.modMc n (fun m => { m with noSensor := true })).rotorLost n else d.lockout n 6) d

/-- The configuration of a unit has changed (R454, R486): a unit that begins to work is IDLE with its legs blocked. -/
def Dev.mcConfigured (n : Nat) (d : Dev) : Dev :=
  if d.mcOn n then
    let d := d.modMc n (fun m => { m with maskOut := (d.mcLegs n).foldl (fun v k => vset v k 1) m.maskOut })
    (((d.setMstate n (if d.mstate n = 8 then 8 else 0)).setBit (Reg.MC_OUT_FLAGS n) 1 true).mcBlock n).brakeUpdate n
  else d

/-! ### Digital command pins (R484, R485) -/

def Dev.cmdPin (d : Dev) (k : Nat) : CmdPin := vget {} (d.mcu 0).pins k
def Dev.modPin (k : Nat) (f : CmdPin → CmdPin) (d : Dev) : Dev := d.modMc 0 (fun m => { m with pins := vmod {} m.pins k f })

/-- What a pin measures at a rising edge, if a cycle is complete (R484): KIND 1 the high time, in samples of 5 ns, over the length of the
cycle; KIND 2 the edges of the latest 10 ms over the time from the first to the last of them, or the reciprocal of the latest full
period. -/
def cmdinMeasure (kind high now : Nat) (edges : List Nat) : Option Word :=
  match edges with
  | a :: b :: _ =>
    if kind = 1 then some (fpOfRatio (2 * high : Nat) (a - b))
    else
      let es := edges.filter (fun t => decide (now ≤ t + 4000000))
      some (if es.length < 2 then fpOfRatio 400000000 (a - b) else fpOfRatio (400000000 * es.length : Nat) (a - es.getLastD a))
  | _ => none

/-- A rising edge of a digital pin: its tick joins the edges, of which those older than 10 ms but the newest are dropped. -/
def Dev.cmdinEdge (k high : Nat) (d : Dev) : Dev :=
  let p := d.cmdPin k
  let es := d.now :: (p.edges.take 1 ++ (p.edges.drop 1).filter (fun t => decide (d.now ≤ t + 4000000)))
  let d := d.modPin k (fun _ => { edges := es, since := d.now })
  match cmdinMeasure ((d.cmdinKind k).getD 3) high d.now es with
  | some x => d.cmdinTake k x
  | none => d

/-- CMDIN_CYCLE (R133, R134, R484, R485): a rising edge of a pin, of a level held for `ns` ns, with the high time of the cycle that it
ends in samples of 5 ns; an analog pin takes the latest snapshot. -/
def execCmdinCycle (k : Fin 4) (high ns : Nat) (s : State) : Host.Outcome State Fault Refusal :=
  s.onDev (fun d =>
    match d.cmdinKind k.val with
    | some 0 => d.cmdinAnalog k.val
    | some 3 | none => d
    | some _ =>
      let fresh := (d.cmdPin k.val).edges.all (fun t => decide (t < d.now))
      d.when (d.filtered (Reg.PAD_GRP 10) ns && fresh) (Dev.cmdinEdge k.val high))

/-- CMDIN_TIMEOUT (R485): a digital pin has had no rising edge for TIMEOUT ms. -/
def execCmdinTimeout (k : Fin 4) (s : State) : Host.Outcome State Fault Refusal :=
  s.onDev (fun d =>
    let t := max 1 (d.fld (Reg.MC_CMDIN_CFG 0 k.val) 15 0) * 400000
    let kind := d.cmdinKind k.val
    d.when ((kind == some 1 || kind == some 2) && (d.cmdPin k.val).since + t == d.now) (fun d =>
      (d.cmdinLost k.val).modPin k.val (fun p => { p with edges := [] })))

/-- The command pins after a change of their registers: a pin that begins to work awaits its edges from now on, an analog one takes the
latest snapshot. -/
def Dev.cmdinConfigured (old : Dev) (d : Dev) : Dev :=
  each [0, 1, 2, 3] (fun k d =>
    let d := d.when (d.cmdinKind k != old.cmdinKind k) (Dev.modPin k (fun _ => { since := d.now }))
    d.when (d.cmdinKind k == some 0) (Dev.cmdinAnalog k)) d

end Sys2Proof.Machine
end

