-- ==== Sys2Proof/Machine/Cmp.lean ====
section
/-!
DEFINITION. Window comparators (spec/11): their unfiltered and filtered outputs, what an activation does, and the drop of a
reference buffer.
-/

namespace Sys2Proof.Machine

/-- The register that shows the filtered output of CMPj, and the one that latches its activations (R418). -/
def cmpOutKey (j : Nat) (low : Bool) : Nat :=
  if low then (if j < 32 then Reg.CMP_LO0 else Reg.CMP_LO1) else (if j < 32 then Reg.CMP_HI0 else Reg.CMP_HI1)
def cmpSeenKey (j : Nat) (low : Bool) : Nat :=
  if low then (if j < 32 then Reg.CMP_XLO0 else Reg.CMP_XLO1) else (if j < 32 then Reg.CMP_XHI0 else Reg.CMP_XHI1)

/-- The group names CMPj in its trip enables (R304, R408). -/
def Dev.cmpTrips (d : Dev) (g j : Nat) : Bool :=
  if j < 32 then d.bit (Reg.PG_TRIP_CMP_LO g) j else d.bit (Reg.PG_TRIP_CMP_HI g) (j - 32)

/-- What hangs on a filtered HI beside the trips: the brake legs and the over-voltage inputs that name it (R465, R474). -/
def Dev.cmpFollow (j : Nat) (d : Dev) : Dev :=
  let d := each (twelve.filter (fun n => d.fld (Reg.MC_CMPSEL n) 11 6 == j)) Dev.brakeUpdate d
  each (twelve.filter (fun n => d.bit (Reg.MC_CMPSEL n) 31 && d.fld (Reg.MC_CMPSEL n) 5 0 == j)) Dev.overVoltCheck d

/-- A filtered output takes a level: an activation is latched, raises CROSS and trips the groups that name it (R408). -/
def Dev.cmpFiltered (j : Nat) (low active : Bool) (d : Dev) : Dev :=
  let was := d.bit (cmpOutKey j low) (j % 32)
  let d := d.setBit (cmpOutKey j low) (j % 32) active
  let d := d.when (active && !was) (fun d =>
    let r := d.cmpRaw j
    let rose (x : CompSide) : CompSide := { x with rose := some d.now }
    let d := Dev.putCmps (vset d.cmps j (if low then { r with lo := rose r.lo } else { r with hi := rose r.hi })) d
    let d := (d.setBit (cmpSeenKey j low) (j % 32) true).raise 0x5F 0
    each (twelve.filter (fun g => d.cmpTrips g j)) (Dev.trip 3) d)
  if low || active == was then d else d.cmpFollow j

/-- The unfiltered HI, and LO, of CMPj for its input in 1/256 code: with hysteresis from the level each has had (R406). -/
def Dev.cmpCompare (d : Dev) (j : Nat) (r : CompRaw) : Bool × Bool :=
  let hi := 256 * d.cmpLevel j (d.fld (Reg.CMP_THR j) 27 16)
  let lo := 256 * d.cmpLevel j (d.fld (Reg.CMP_THR j) 11 0)
  let h := 256 * d.cmpHyst j
  match r.x with
  | some x =>
    (if r.hi.act then decide (hi - h ≤ x) else decide (hi < x), if r.lo.act then decide (x ≤ lo + h) else decide (x < lo))
  | none => (false, false)

/-- The unfiltered outputs of CMPj follow its input; one that does not work holds them inactive (R391, R407, R412). -/
def Dev.cmpUnfiltered (j : Nat) (d : Dev) : Dev :=
  let r := d.cmpRaw j
  let want := if d.cmpLive j then d.cmpCompare j r else (false, false)
  let keep := d.bit (Reg.CMP_CFG j) 15
  Dev.putCmps (vset d.cmps j { r with hi := r.hi.level d.now want.1 keep, lo := r.lo.level d.now want.2 keep }) d

/-- A filtered output of CMPj follows the unfiltered one that has held its level for FILT ADC cycles; one of a comparator that does not
work at once (R407). -/
def Dev.cmpFilter (j : Nat) (low : Bool) (d : Dev) : Dev :=
  let x := if low then (d.cmpRaw j).lo else (d.cmpRaw j).hi
  let held := decide (x.since + 2 * d.fld (Reg.CMP_CFG j) 7 0 ≤ d.now)
  d.when (x.act != d.bit (cmpOutKey j low) (j % 32) && (held || !d.cmpLive j)) (Dev.cmpFiltered j low x.act)

/-- CMPj after a change of its input, of its configuration or of what it needs. -/
def Dev.cmpSettle (j : Nat) (d : Dev) : Dev := ((d.cmpUnfiltered j).cmpFilter j true).cmpFilter j false

/-- The comparators after a change of what they need (R407, R411, R412). -/
def Dev.cmpConfigured (d : Dev) : Dev := Dev.plausCfg (each (List.range 64) Dev.cmpSettle d)

/-- COMPARATOR_CROSSING (R406 to R408): the input of CMPj crosses to a level in 1/256 code, or, where none is given, the filter of an
output that has held its level has run. -/
def execComparatorCrossing (j : Fin 64) (x : Option Int) (s : State) : Host.Outcome State Fault Refusal :=
  s.onDev (fun d =>
    let d := match x with
      | some v => Dev.putCmps (vset d.cmps j.val { d.cmpRaw j.val with x := some v }) d
      | none => d
    d.cmpSettle j.val)

/-- REF_READY (R389): 400 000 ADC cycles after its enable, the buffer's monitor reports its output within the band; the comparators of
its half work from then on (R391). -/
def execRefReady (h : Fin 2) (s : State) : Host.Outcome State Fault Refusal :=
  s.onDev (fun d =>
    if d.bit Reg.ADCSYS_REF h.val && !d.pageHeld 0x58 && decide (vget 0 d.acq.refAt h.val + 800000 ≤ d.now) then
      each ((List.range 32).map (fun i => 32 * h.val + i)) Dev.cmpSettle (d.setBit Reg.ADCSYS_STAT h.val true)
    else d)

/-- The regulation of a reference buffer is lost, or its enable is withdrawn (R389, R391). -/
def Dev.refDrop (h : Nat) (d : Dev) : Dev :=
  if !d.refReady h then d
  else each ((List.range 32).map (fun i => 32 * h + i)) Dev.cmpSettle ((d.setBit Reg.ADCSYS_STAT h false).raise 0x58 h)

/-- REF_DROP (R389). -/
def execRefDrop (h : Fin 2) (s : State) : Host.Outcome State Fault Refusal := s.onDev (Dev.refDrop h.val)

end Sys2Proof.Machine
end

