-- ==== Sys2Proof/Machine/Lane.lean ====
section
/-!
DEFINITION. Foelle lanes (spec/10): the frames a lane sends, its measurements, what it takes from the far end, and its states.
-/

namespace Sys2Proof.Machine

/-! ### Frames (R335 to R339) -/

/-- The check byte of nine bytes, or of bytes 1 to 8 of an alignment frame (R337). -/
def crcByte8 (bs : List Byte) : Byte := BitVec.ofNat 8 (crcOf crc8Params bs)

/-- A frame: header, eight payload bytes, check byte. -/
def linkFrame (header : Nat) (payload : List Byte) : List Byte :=
  let body := BitVec.ofNat 8 header :: payload
  body ++ [crcByte8 body]

/-- K28.5, the comma of an alignment frame. -/
def commaByte : Byte := 0xBC

/-- LSTATE: 0 DARK, 1 TRAIN, 2 MEASURE, 3 SYNC, 4 READY (R368). -/
def Dev.lstate (d : Dev) (n : Nat) : Nat := d.fld (Reg.FL_STAT n) 2 0

/-- Link time of a lane in ticks (R335). -/
def Dev.ltick (d : Dev) (n : Nat) : Nat := d.now - (d.lane n).since

/-- The downstream alignment frame (R339). -/
def Dev.alignFrame (d : Dev) (n : Nat) : List Byte :=
  let valid := 3 ≤ d.lstate n && d.bit (Reg.FL_RTT n) 31
  let payload := bytesOfNatBE 4 (d.ltick n) ++ bytesOfNatBE 2 (d.fld (Reg.FL_OWD n) 15 0) ++
    [BitVec.ofNat 8 (0x10 + n), BitVec.ofNat 8 (b2n valid)]
  commaByte :: payload ++ [crcByte8 payload]

/-- The application instant of a carrier instant, modulo 2^24 (R346). -/
def stampOf (carrier : Nat) : Nat := (carrier + 32 * 170) % 2 ^ 24

/-- A descriptor of an EDGE frame (R339). -/
def descriptorOf (e : LaneEvent) : List Byte :=
  bytesOfNatBE 4 (2 ^ 31 + e.leg * 2 ^ 29 + e.kind * 2 ^ 27 + stampOf e.carrier)

/-- An EDGE frame of one or two events (R347). -/
def edgeFrame (seq : Nat) : List LaneEvent → List Byte
  | [] => linkFrame seq (List.replicate 8 0)
  | [e] => linkFrame seq (descriptorOf e ++ [0, 0, 0, 0])
  | e :: f :: _ => linkFrame seq (descriptorOf e ++ descriptorOf f)

/-- The command of a leg at an instant in units of model time, from its latest changes (R339, R350). -/
def Leg.kindAt (u : Int) (l : Leg) : Nat :=
  match l.hist.find? (fun e => decide (e.pin ≤ u)) with
  | some e => legKind e.h e.l
  | none => 0

/-- The command that a leg takes at the next reload with the group's own commands live (R354). -/
def Dev.kindAtReload (d : Dev) (n k : Nat) : Nat :=
  let duty := if d.lockNow n then d.reg (Reg.PG_DUTY_ACT n k) else d.reg (Reg.PG_DUTY_SH n k)
  let iv := d.onIntervalOf n (d.fld (Reg.PG_NEXT_LEN n) 19 0) (Machine.fld 24 0 duty) (d.atPeak n)
  let l := { d.leg n k with duty := dutyAtStart iv, forced := d.forceOn n k }
  let r := l.follow (d.deadTime n) (32 * d.nextReload n) true (d.ownWant n k l)
  legKind r.1 r.2

/-- LEGSTATE of four legs (R339). -/
def legState (kind : Nat → Nat) : Nat := (List.range 4).foldl (fun a k => a + kind k * 4 ^ k) 0

/-- The eight payload bytes of a downstream STATE frame (R339). -/
def statePayload (mode safe tele legs action dt legState stamp : Nat) : List Byte :=
  [BitVec.ofNat 8 (mode * 64 + safe * 32 + tele * 16 + legs), BitVec.ofNat 8 (action * 128)] ++ bytesOfNatBE 2 dt ++
    [BitVec.ofNat 8 legState] ++ bytesOfNatBE 3 stamp

/-- MODE that the lane itself sends (R353, R354, R356): 0 HOLD_OFF, 1 RUN, 2 TRIP_OFF, 3 TRIP_ASC. -/
def Dev.laneMode (d : Dev) (n : Nat) : Nat :=
  let trip := if d.tripApplied n = 2 then 3 else 2
  if d.lstate n ≠ 4 then (if d.latched n then trip else 0)
  else if (d.group n).clearPending then 1
  else if d.tripApplied n ≠ 0 then trip
  else if d.gstate n = 0 then 0
  else 1

/-- An instant of model time in units as a STAMP of a lane (R339). -/
def Dev.stampAt (d : Dev) (n : Nat) (u : Int) : Nat := ((u - 32 * ((d.lane n).since : Int)) % 2 ^ 24).toNat

/-- ACTION of a STATE frame: the action applied, or the one that a trip would apply (R352). -/
def Dev.frameAction (d : Dev) (n : Nat) : Nat :=
  (if d.tripApplied n ≠ 0 then d.tripApplied n else d.tripActionOf n 0) - 1

/-- The STATE frame of a lane, Sloe's while Sloe holds its group (R350, R352 to R356): STAMP is the instant of Sloe's decision, the
trip instant, the application instant of the reload of a return to RUN, or that of the carrier instant 300 ns before now, and LEGSTATE
the commands at that instant. -/
def Dev.stateFrame (d : Dev) (n : Nat) : List Byte :=
  let tele := b2n (d.bit (Reg.FL_CTRL n) 16)
  let at_ (u : Int) : Nat := legState (fun k => (d.leg n k).kindAt u)
  let applied : Int := 32 * 170
  if d.sloeHolds n then
    let asc := !natBit n d.sloe.holdOff.toNat && bitAt 24 (d.act (Reg.SLOE_PSAFE n))
    let u : Int := 32 * vget 0 d.sloe.holdAt n
    linkFrame 0x40 (statePayload (if asc then 3 else 2) 1 tele (d.actFld (Reg.SLOE_PSAFE n) 19 16) (b2n asc)
      (min (320 * d.sdt n) 65535) (at_ u) (d.stampAt n u))
  else
    let mode := d.laneMode n
    let r : Nat × Nat :=
      if 2 ≤ mode then (at_ (d.group n).tripAt, d.stampAt n (d.group n).tripAt)
      else if (d.group n).clearPending then (legState (d.kindAtReload n), d.stampAt n ((d.group n).runAt + applied))
      else (let u : Int := 32 * (d.now : Int) - 32 * 120; (at_ u, d.stampAt n (u + applied)))
    linkFrame 0x40 (statePayload mode 0 tele (d.fld (Reg.PG_TRIP_CFG n) 19 16) (d.frameAction n)
      (d.fld (Reg.PG_DT n) 15 0) r.1 r.2)

/-- The lane sends a frame. -/
def Dev.sendFrame (n : Nat) (f : List Byte) (d : Dev) : Dev :=
  d.modLane n (fun l => { l with tx := .frame f, slotAt := some (d.ltick n), inSlot := .none })

/-- A slot starts in this tick in which nothing has been sent: slot 0 of a cycle, which an alignment frame takes, or another (R334,
R335). -/
def Dev.slotFree (d : Dev) (n : Nat) (zero : Bool) : Bool :=
  let t := d.ltick n
  t % 16 == 0 && (d.lane n).slotAt != some t && (t % 1024 == 0) == zero

/-- The lane carries an EDGE, STATE or TELE frame for the ticks of a slot (R127). -/
def Dev.laneBusy (n : Nat) (d : Dev) : Dev := d.modLane n (fun l => { l with busyUntil := d.now + 16 })

/-! ### Lane states (R366) -/

/-- The lane returns to TRAIN: what belongs to the training and the sending ends. -/
def Dev.laneTrain (n : Nat) (d : Dev) : Dev :=
  let d := d.setFld (Reg.FL_STAT n) 2 0 1
  d.modLane n (fun l => { l with
    aligned := 0, measuring := false, pings := 0, rtts := [], pingOut := false, pingAt := .none, measAt := .none, owdSet := false
    rejects := 0, owdSent := 0, events := [], ahead := [], repeats := [], inSlot := .none, missed := 0, invalids := 0
    alignRx := .none, stateRx := .none })

/-- A loss of the lane (R344, R349, R366): from SYNC or READY with its event and cause; a lane group whose lane leaves READY
trips with cause LANE. MEASURE returns to TRAIN, and TRAIN stays as it is. -/
def Dev.laneLoss (n cause : Nat) (d : Dev) : Dev :=
  let st := d.lstate n
  if st ≤ 1 then d
  else if st = 2 then d.laneTrain n
  else
    let d := ((d.laneTrain n).raise (0x30 + n) 0).setReg (Reg.FL_LOSS_CAUSE n) (bitMask 31 ||| word cause)
    d.when (st == 4 && d.laneGroup n) (Dev.trip 6 n)

/-- CTRL.EN of an FL page changes (R335, R366). -/
def Dev.laneEnable (n : Nat) (en : Bool) (d : Dev) : Dev :=
  if en then
    ((d.modLane n (fun _ => { since := d.now })).setBit (Reg.FL_RTT n) 31 false).setFld (Reg.FL_STAT n) 2 0 1
  else
    let ready := d.lstate n == 4 && d.laneGroup n
    let d := (d.modLane n (fun l => { since := l.since })).setFld (Reg.FL_STAT n) 2 0 0
    d.when ready (Dev.trip 6 n)

/-- The lane is enabled and lit. -/
def Dev.lanePowered (d : Dev) (n : Nat) : Bool := d.lstate n != 0

/-! ### Events to send (R345 to R350) -/

/-- Events may be sent: the lane is READY, the group leaves on it, and Sloe's frames do not take precedence (R297, R355). Where a trip
action applies, only events from before the trip instant are left (R351). -/
def Dev.edgesFlow (d : Dev) (n : Nat) : Bool := d.lstate n == 4 && d.laneGroup n && !d.sloeHolds n

/-- The changes scheduled for the legs of a group over the current period, as events with SKEW (R299, R345). -/
def Dev.eventsToCome (d : Dev) (n : Nat) : List LaneEvent :=
  if !d.takesEvents n || !d.ownDrives n then [] else
  [0, 1, 2, 3].flatMap (fun k =>
    let least : Int := match (d.leg n k).hist with
      | p :: _ => p.pin
      | [] => 0
    (d.periodSchedule n k).map (fun e =>
      { leg := k, kind := legKind e.2.1 e.2.2, carrier := d.linkInstant n (max ((e.1 : Int) + d.skew n k) least) }))

/-- The events not yet sent, in order of carrier instant: those whose changes have come, and those scheduled. -/
def Dev.eventsWaiting (d : Dev) (n : Nat) : List LaneEvent :=
  let l := d.lane n
  ((d.eventsToCome n).filter (fun e => !l.ahead.contains e)).foldl (fun es e => insertEvent e es) l.events

/-- The send deadline of a frame whose earliest event is `e` has passed at a link time: 300 ns after its carrier instant (R347). -/
def pastDeadline (ltime : Nat) (e : LaneEvent) : Bool := decide (e.carrier + 32 * 120 < ltime)

/-- The events of the EDGE frame that could start now: one or two, each eligible from 1.28 µs before its application instant (R347). -/
def Dev.edgeEvents (d : Dev) (n : Nat) : List LaneEvent :=
  if d.edgesFlow n then ((d.eventsWaiting n).takeWhile (fun e => decide (e.carrier + 32 * 170 ≤ d.ltime n + 32 * 512))).take 2 else []

/-- The frames to send once more whose deadline has not passed (R348, R351). -/
def Dev.repeatsLeft (d : Dev) (n : Nat) : List (List Byte × List LaneEvent) :=
  if d.edgesFlow n then (d.lane n).repeats.filter (fun f => !f.2.any (pastDeadline (d.ltime n))) else []

/-- No EDGE frame takes the slot that starts now (R348). -/
def Dev.edgesIdle (d : Dev) (n : Nat) : Bool := (d.edgeEvents n).isEmpty && (d.repeatsLeft n).isEmpty

/-- The repeat of an EDGE frame: REPEAT = 1 and the same SEQ (R336, R348). -/
def repeatOf (f : List Byte) : List Byte :=
  match f with
  | h :: rest => linkFrame (h.toNat + 32) (rest.take 8)
  | [] => []

/-! ### Meanings: sending -/

/-- ALIGNMENT_FRAME_SEND (R334, R335, R339, R366): slot 0 of a cycle starts. -/
def execAlignmentFrameSend (n : Fin 12) (s : State) : Host.Outcome State Fault Refusal :=
  s.onDev (fun d => d.when (d.lanePowered n.val && d.slotFree n.val true) (fun d =>
    (d.sendFrame n.val (d.alignFrame n.val)).modLane n.val (fun l => { l with
      owdSent := if d.lstate n.val = 3 then l.owdSent + 1 else l.owdSent })))

/-- EDGE_FRAME_SEND (R298, R345 to R348): a slot starts, and eligible events wait whose deadline has not passed. -/
def execEdgeFrameSend (n : Fin 12) (s : State) : Host.Outcome State Fault Refusal :=
  s.onDev (fun d =>
    let n := n.val
    let es := d.edgeEvents n
    if !d.slotFree n false || es.isEmpty || es.any (pastDeadline (d.ltime n)) then d else
    let f := edgeFrame (d.lane n).seq es
    let d := d.setReg (Reg.FL_EDGE_CNT n) (d.reg (Reg.FL_EDGE_CNT n) + word es.length)
    ((d.sendFrame n f).laneBusy n).modLane n (fun l => { l with
      seq := (l.seq + 1) % 32, inSlot := some (f, es), repeats := l.repeats ++ [(repeatOf f, es)]
      events := l.events.filter (fun e => !es.contains e)
      ahead := l.ahead ++ es.filter (fun e => !l.events.contains e) }))

/-- EDGE_FRAME_REPEAT (R348, R351): a slot starts that no new EDGE frame takes; a frame whose deadline has passed is not sent again. -/
def execEdgeFrameRepeat (n : Fin 12) (s : State) : Host.Outcome State Fault Refusal :=
  s.onDev (fun d =>
    let n := n.val
    match d.repeatsLeft n with
    | f :: rest =>
      if d.slotFree n false && (d.edgeEvents n).isEmpty then
        ((d.sendFrame n f.1).laneBusy n).modLane n (fun l => { l with inSlot := some f, repeats := rest })
      else d
    | [] => d)

/-- EDGE_SEND_DEADLINE (R349): a waiting event could not start by its send deadline. -/
def execEdgeSendDeadline (n : Fin 12) (s : State) : Host.Outcome State Fault Refusal :=
  s.onDev (fun d =>
    if d.edgesFlow n.val = true ∧ (d.edgeEvents n.val).any (pastDeadline (d.ltime n.val)) = true then
      (d.raise (0x30 + n.val) 4).laneLoss n.val 10
    else d)

/-- The group's own commands are all off while it stops (R284). -/
def Dev.stoppedOff (d : Dev) (g : Nat) : Bool := d.gstate g == 3 && !(d.group g).stopAtReload

/-- A STATE frame is due in the slot that starts now: the first of its cycle; after a trip or its clear, and in Sloe's hold, any (R350, R351,
R354 to R356). -/
def Dev.stateDue (d : Dev) (n : Nat) : Bool :=
  d.sloeHolds n || (d.lstate n == 4 && 2 ≤ d.laneMode n) || (d.group n).clearPending ||
    (d.lane n).stateCycle != some (d.ltick n / 1024)

/-- STATE_FRAME_SEND (R104, R350 to R356): a slot starts that no EDGE frame takes; the first one after the group's own commands are off
starts the delay of R284. -/
def execStateFrameSend (n : Fin 12) (s : State) : Host.Outcome State Fault Refusal :=
  s.onDev (fun d =>
    let n := n.val
    let lit := d.lanePowered n || (d.lane n).safeTx
    if !lit || !d.slotFree n false || !d.edgesIdle n || !d.stateDue n then d else
    let d := ((d.sendFrame n (d.stateFrame n)).laneBusy n).modLane n (fun l => { l with stateCycle := some (d.ltick n / 1024) })
    d.when (d.stoppedOff n && (d.group n).stateSentAt.isNone) (Dev.modGroup n (fun x => { x with stateSentAt := some d.now })))

/-- MEASUREMENT_START (R343): at training, and every 10 ms thereafter. -/
def execMeasurementStart (n : Fin 12) (s : State) : Host.Outcome State Fault Refusal :=
  s.onDev (fun d =>
    let due := match (d.lane n.val).measAt with
      | some t => decide (t + 4000000 ≤ d.now)
      | none => true
    d.when (2 ≤ d.lstate n.val && !(d.lane n.val).measuring && due)
      (Dev.modLane n.val (fun l => { l with measuring := true, pings := 0, rtts := [], pingOut := false, measAt := some d.now })))

/-- PING_SEND (R339, R342): one of the 8 pings of the measurement, one per cycle, in a slot that no EDGE or STATE frame takes. -/
def execPingSend (n : Fin 12) (s : State) : Host.Outcome State Fault Refusal :=
  s.onDev (fun d =>
    let n := n.val
    let l := d.lane n
    let sent := match l.pingAt with
      | some t => t / 1024 == d.ltick n / 1024
      | none => false
    let state := (d.lstate n == 4 && 2 ≤ d.laneMode n) || l.stateCycle != some (d.ltick n / 1024)
    if !l.measuring || decide (8 ≤ l.pings) || l.pingOut || sent || state || !d.slotFree n false || !d.edgesIdle n then d else
    let f := linkFrame 0x80 (bytesOfNatBE 3 (d.ltime n) ++ [BitVec.ofNat 8 l.pid] ++ [0, 0, 0, 0])
    (d.sendFrame n f).modLane n (fun l => { l with pings := l.pings + 1, pingOut := true, pingAt := some (d.ltick n) }))

/-! ### Meanings: measurements (R342 to R344) -/

/-- A measurement is rejected: RTT_BAD; three in MEASURE return the lane to TRAIN, and three in a row lose a READY one (R344, R366). -/
def Dev.measureRejected (n : Nat) (d : Dev) : Dev :=
  let d := (d.bumpSat (Reg.FL_MEAS n) 31 24).raise (0x30 + n) 6
  let d := d.modLane n (fun l => { l with measuring := false, rtts := [], pingOut := false, rejects := l.rejects + 1 })
  let lost := match d.lstate n with
    | 2 => decide (3 ≤ (d.lane n).rejects)
    | 4 => decide (3 ≤ d.fld (Reg.FL_MEAS n) 31 24)
    | _ => false
  d.when lost (Dev.laneLoss n 7)

/-- A measurement is accepted with its 8 values: RTT, its target, and the step of the applied OWD. Where the mean is no whole
number of units, which neighbour RTT shows is free. -/
def Dev.measureAccepted (n : Nat) (rtts : List Nat) (spread : Nat) (d : Dev) : Dev :=
  let sum := rtts.foldl (· + ·) 0
  let r := d.free
  let d := r.2
  let rtt := sum / 8 + (if sum % 8 = 0 then 0 else b2n (bitAt 0 r.1))
  let tie := if sum % 16 = 8 then b2n (bitAt 1 r.1) else 1
  let target := (sum + 7 + tie) / 16
  let first := !(d.lane n).owdSet
  let applied := d.fld (Reg.FL_OWD n) 15 0
  let d := d.setReg (Reg.FL_RTT n) (bitMask 31 ||| place 23 0 rtt)
  let cnt := d.fld (Reg.FL_MEAS n) 15 0
  let d := d.setReg (Reg.FL_MEAS n) (place 23 16 (min spread 255) ||| place 15 0 (cnt + 1))
  let d := (d.setFld (Reg.FL_OWD n) 31 16 target).raise (0x30 + n) 7
  let d := d.modLane n (fun l => { l with measuring := false, rtts := [], pingOut := false, owdSet := true })
  let jump := !first && decide (64 < (if target < applied then applied - target else target - applied))
  let step := if applied < target then applied + 1 else if target < applied then applied - 1 else applied
  let d := d.setFld (Reg.FL_OWD n) 15 0 (if first then target else step)
  match d.lstate n with
  | 2 => if target ≤ 307 ∧ jump = false then (d.setFld (Reg.FL_STAT n) 2 0 3).modLane n (fun l => { l with owdSent := 0 }) else d
  | 4 => if 307 < target then d.laneLoss n 8 else if jump then (d.raise (0x30 + n) 5).laneLoss n 9 else d
  | _ => d

/-- The frame passes its check (R337, R338), with its TYPE. -/
def frameType (f : List Byte) : Option Nat :=
  if f.length = 10 ∧ crcByte8 (f.take 9) = nth 0 f 9 then some ((nth 0 f 0).toNat / 64) else none

/-- An invalid upstream link frame (R338, R366): discarded and counted. -/
def Dev.invalidUp (n : Nat) (alignment : Bool) (d : Dev) : Dev :=
  if d.lstate n = 0 then d else
  let d := (d.bumpSat (Reg.FL_ERR_CNT n) 15 0).raise (0x30 + n) 2
  let d := d.modLane n (fun l =>
    let l := { l with invalids := l.invalids + 1 }
    if alignment then { l with missed := l.missed + 1, aligned := 0, alignRx := some d.now } else l)
  if 4 ≤ (d.lane n).invalids then d.laneLoss n 3
  else d.when (alignment && decide (2 ≤ (d.lane n).missed)) (Dev.laneLoss n 2)

/-- A valid upstream link frame ends a run of invalid ones, and a silence. -/
def Dev.validUp (n : Nat) (d : Dev) : Dev := d.modLane n (fun l => { l with invalids := 0, rxAt := d.now })

/-- PING_REPLY_RECEIVE (R342): a reply has been received whole; its first symbol arrived a slot ago, `tap` units into that tick. It
counts within 4 slots of its ping. -/
def execPingReplyReceive (n : Fin 12) (frame : List Byte) (tap : Fin 32) (s : State) : Host.Outcome State Fault Refusal :=
  s.onDev (fun d =>
    let n := n.val
    if d.lstate n = 0 then d
    else if frameType frame ≠ some 2 then d.invalidUp n false
    else
      let d := d.validUp n
      let l := d.lane n
      let t4 := d.ltime n - 32 * 16 + tap.val
      let inTime := l.pingAt.any (fun t => decide (t4 ≤ 32 * (t + 64)))
      if !l.measuring || !l.pingOut || !inTime || (nth 0 frame 4).toNat != l.pid then d else
      let t1 := natOfBytesBE ((frame.drop 1).take 3)
      let ta := natOfBytesBE ((frame.drop 5).take 3)
      let rtts := l.rtts ++ [(t4 + 2 * 2 ^ 24 - t1 - ta) % 2 ^ 24]
      let d := d.modLane n (fun l => { l with rtts := rtts, pingOut := false, pid := (l.pid + 1) % 256 })
      if rtts.length < 8 then d else
      let spread := rtts.foldl max 0 - rtts.foldl min (2 ^ 24)
      if spread ≤ 8 then d.measureAccepted n rtts spread
      else (d.setFld (Reg.FL_MEAS n) 23 16 (min spread 255)).measureRejected n)

/-- PING_REPLY_TIMEOUT (R342): no reply can have arrived within 4 slots of its ping any more; the measurement is rejected. -/
def execPingReplyTimeout (n : Fin 12) (s : State) : Host.Outcome State Fault Refusal :=
  s.onDev (fun d =>
    let l := d.lane n.val
    if l.measuring && l.pingOut && l.pingAt.any (fun t => decide (t + 64 + 16 < d.ltick n.val)) then
      (d.modLane n.val (fun l => { l with pid := (l.pid + 1) % 256 })).measureRejected n.val
    else d)

/-! ### Meanings: receiving (R338, R364 to R366) -/

/-- UPSTREAM_ALIGNMENT_RECEIVE (R339, R366). -/
def execUpstreamAlignmentReceive (n : Fin 12) (frame : List Byte) (s : State) : Host.Outcome State Fault Refusal :=
  s.onDev (fun d =>
    let n := n.val
    if d.lstate n = 0 then d
    else if frame.length ≠ 10 ∨ nth 0 frame 0 ≠ commaByte ∨ crcByte8 ((frame.drop 1).take 8) ≠ nth 0 frame 9 then d.invalidUp n true
    else
      let d := d.setReg (Reg.FL_FE_ID n) (place 31 16 (natOfBytesBE ((frame.drop 1).take 2)) |||
        place 15 8 (nth 0 frame 3).toNat ||| place 3 0 (nth 0 frame 4).toNat)
      let d := (d.validUp n).modLane n (fun l => { l with missed := 0, aligned := l.aligned + 1, alignRx := some d.now })
      if d.lstate n = 1 ∧ 4 ≤ (d.lane n).aligned then
        (d.setFld (Reg.FL_STAT n) 2 0 2).modLane n (fun l => { l with rejects := 0, stateRx := some d.now })
      else d)

/-- UPSTREAM_STATE_RECEIVE (R339, R366). -/
def execUpstreamStateReceive (n : Fin 12) (frame : List Byte) (s : State) : Host.Outcome State Fault Refusal :=
  s.onDev (fun d =>
    let n := n.val
    if d.lstate n = 0 then d
    else if frameType frame ≠ some 1 then d.invalidUp n false
    else
      let b := (nth 0 frame 1).toNat
      let fe := b / 32
      let d := ((d.validUp n).modLane n (fun l => { l with stateRx := some d.now })).setFld (Reg.FL_STAT n) 10 8 fe
      let d := d.setFld (Reg.FL_ERR_CNT n) 31 16 (natOfBytesBE ((frame.drop 2).take 2))
      let d := d.when (b / 4 % 8 != 0) (Dev.raise (0x30 + n) 3)
      if fe = 4 then d.laneLoss n 5
      else if fe = 3 ∧ d.latched n = false ∧ d.sloeHolds n = false then d.laneLoss n 6
      else if d.lstate n = 3 ∧ fe = 2 ∧ 2 ≤ (d.lane n).owdSent then (d.setFld (Reg.FL_STAT n) 2 0 4).raise (0x30 + n) 1
      else d)

/-- A delay of a TELE frame, 0xFFFF leaving the stored one. -/
def keepDelay (new old : Nat) : Nat := if new = 0xFFFF then old else new

/-- TELE_FRAME_RECEIVE (R364, R365). -/
def execTeleFrameReceive (n : Fin 12) (frame : List Byte) (s : State) : Host.Outcome State Fault Refusal :=
  s.onDev (fun d =>
    let n := n.val
    if d.lstate n = 0 then d
    else if frameType frame ≠ some 3 then d.invalidUp n false
    else
      let b := (nth 0 frame 1).toNat
      let k := b / 64
      let key := if natBit 5 b then Reg.FL_DLY_L n k else Reg.FL_DLY_H n k
      let ton := natOfBytesBE ((frame.drop 2).take 2)
      let toff := natOfBytesBE ((frame.drop 4).take 2)
      let d := (d.validUp n).laneBusy n
      let d := d.setReg key (place 31 16 (keepDelay toff (d.fld key 31 16)) ||| place 15 0 (keepDelay ton (d.fld key 15 0)))
      let age := if ton = 0xFFFF ∧ toff = 0xFFFF then d.fld (Reg.FL_FE_LEG n k) 15 8 else 0
      let d := d.setReg (Reg.FL_FE_LEG n k) (place 31 24 (nth 0 frame 7).toNat ||| place 23 16 (nth 0 frame 6).toNat |||
        place 15 8 age ||| place 1 1 (b2n (natBit 3 b)) ||| place 0 0 (b2n (natBit 4 b)))
      d.when (d.laneGroup n && (natBit 3 b || natBit 4 b)) (Dev.trip 5 n))

/-- INVALID_FRAME_RECEIVE (R338, R366). -/
def execInvalidFrameReceive (n : Fin 12) (alignment : Bool) (s : State) : Host.Outcome State Fault Refusal :=
  s.onDev (Dev.invalidUp n.val alignment)

/-- LANE_SILENCE (R366): no valid symbol for 200 ns, and so no valid frame. -/
def execLaneSilence (n : Fin 12) (s : State) : Host.Outcome State Fault Refusal :=
  s.onDev (fun d => d.when (decide ((d.lane n.val).rxAt + 80 ≤ d.now)) (Dev.laneLoss n.val 1))

/-- STATE_FRAME_TIMEOUT (R366): no valid STATE frame for two cycles. -/
def execStateFrameTimeout (n : Fin 12) (s : State) : Host.Outcome State Fault Refusal :=
  s.onDev (fun d => d.when ((d.lane n.val).stateRx.any (fun t => decide (t + 2048 ≤ d.now))) (Dev.laneLoss n.val 4))

/-- ALIGNMENT_MISSED (R366): a cycle has passed since the latest alignment frame, or since the one missed before. -/
def execAlignmentMissed (n : Fin 12) (s : State) : Host.Outcome State Fault Refusal :=
  s.onDev (fun d =>
    match (d.lane n.val).alignRx with
    | some t =>
      if t + 1024 < d.now then
        let d := d.modLane n.val (fun l => { l with missed := l.missed + 1, aligned := 0, alignRx := some (t + 1024) })
        d.when (2 ≤ (d.lane n.val).missed) (Dev.laneLoss n.val 2)
      else d
    | none => d)

end Sys2Proof.Machine
end

