-- ==== Sys2Proof/Machine/Sloe.lean ====
section
/-!
DEFINITION. Sloe (spec/15): demands, holds and STO (R510 to R540), the safety session, its configuration and its change log (R542
to R550), and the meanings of Sloe's own commands.
-/

namespace Sys2Proof.Machine

/-! ### Demands (R534) -/

/-- Every group's PATTERN is all off in the active copy. -/
def Dev.allPatternsOff (d : Dev) : Bool := twelve.all (fun g => !bitAt 24 (d.act (Reg.SLOE_PSAFE g)))

/-- Function k takes part: TYPE 1 to 3 (R518, R555). -/
def Dev.funcType (d : Dev) (k : Nat) : Nat :=
  let t := d.actFld (Reg.SAFE_FUNC_A k) 31 29
  if t ≤ 3 then t else 0

/-- An input in its run state as functions evaluate it (R514, R516, R517). -/
def Dev.inRun (d : Dev) (i : Nat) : Bool := bitAt 31 (d.act (Reg.SAFE_SIN_CFG i)) && natBit i d.sloe.evalRun.toNat

/-- The channels of function k in their run states (R518). -/
def Dev.chanA (d : Dev) (k : Nat) : Bool := d.inRun (d.actFld (Reg.SAFE_FUNC_A k) 15 12)
def Dev.chanB (d : Dev) (k : Nat) : Bool :=
  d.inRun (d.actFld (Reg.SAFE_FUNC_A k) 19 16) != bitAt 28 (d.act (Reg.SAFE_FUNC_A k))

/-- A guard whose lock feedback counts shows locked (R520); true of every other function. -/
def Dev.lockOk (d : Dev) (k : Nat) : Bool :=
  if d.funcType k = 2 ∧ bitAt 7 (d.act (Reg.SAFE_FUNC_A k)) then d.inRun (d.actFld (Reg.SAFE_FUNC_A k) 11 8) else true

/-- Function k demands (R518, R520). -/
def Dev.funcDemands (d : Dev) (k : Nat) : Bool := d.funcType k != 0 && !(d.chanA k && d.chanB k && d.lockOk k)

/-- An SS1 demand stands: an SS1 latch, a fault latch with some ASC pattern, or SS1 in TREQ (R534). -/
def Dev.ss1Demand (d : Dev) : Bool := d.ss1Latches != 0 || (d.faults != 0 && !d.allPatternsOff)

/-- An STO demand stands (R534): a latch with action STO, a fault latch with every pattern all off, STO in TREQ or EVT_ACT, or
the SS1 timer's end while its demand stands. -/
def Dev.stoDemand (d : Dev) : Bool :=
  (List.range 8).any (fun k => natBit k d.demands && d.funcAction k == 0) ||
    (natBit 8 d.demands && !bitAt 30 (d.act Reg.SAFE_SLS_CFG)) ||
    (d.faults != 0 && d.allPatternsOff) ||
    (natBit 10 d.demands && d.bit Reg.SLOE_TREQ 17) ||
    (natBit 9 d.demands && bitAt 16 (d.act Reg.SLOE_EVT_ACT)) || d.sloe.ss1Done

/-- The groups that demands cover now (R534, R535). -/
def Dev.covered (d : Dev) : Nat :=
  let ss1 := if d.ss1Controlled then 0 else if d.ss1Latches != 0 then 0xFFF else 0
  let treq := if natBit 10 d.demands then d.fld Reg.SLOE_TREQ 11 0 else 0
  let evt := if natBit 9 d.demands then d.actFld Reg.SLOE_EVT_ACT 11 0 else 0
  if d.stoDemand || d.faults != 0 then 0xFFF else ss1 ||| treq ||| evt

/-- The conditions under which the STO switches close (R532). -/
def Dev.closeOk (d : Dev) : Bool :=
  d.bit Reg.SAFE_STAT 0 && !d.sessionOpen && d.demands == 0 && d.faults == 0 && !d.stoDemand && d.bit Reg.SLOE_STAT 17

/-- Since when a feedback disagrees with its switch's command, given since when it did. -/
def disagreeSince (now : Nat) (was : Option Nat) (fb cmd : Bool) : Option Nat := if fb = cmd then none else some (was.getD now)

/-- Each feedback is compared with its switch's command (R531). -/
def Dev.fbCheck (d : Dev) : Dev :=
  d.modSloe (fun s => { s with fbAt0 := disagreeSince d.now s.fbAt0 s.fb0 (d.bit Reg.SLOE_STO 0),
                               fbAt1 := disagreeSince d.now s.fbAt1 s.fb1 (d.bit Reg.SLOE_STO 1) })

/-- STO_STATE or its phase entered, with the levels of the two switches (R532). -/
def Dev.setSto (st : Nat) (hs ls : Bool) (d : Dev) : Dev :=
  let d := ((d.setFld Reg.SLOE_STAT 2 0 st).setBit Reg.SLOE_STO 0 hs).setBit Reg.SLOE_STO 1 ls
  (d.modSloe (fun s => { s with stoAt := d.now })).fbCheck

/-- The two conditions on the feedbacks (R532): CLOSING becomes CLOSED while both are high, OPENING becomes OPEN while both are
low. -/
def Dev.stoSettle (d : Dev) : Dev :=
  if d.stoState = 2 ∧ d.sloe.fb0 = true ∧ d.sloe.fb1 = true then d.setSto 3 true true
  else if d.stoState = 4 ∧ d.sloe.fb0 = false ∧ d.sloe.fb1 = false then d.setSto 0 false false
  else d

/-- STO at its decision: every group held all off, the switches low, STO_ACT (R524, R532). -/
def Dev.applySto (d : Dev) : Dev :=
  let d := d.setBit Reg.SLOE_STAT 18 true
  let d := d.modSloe (fun s => { s with holdOff := 0xFFF })
  let d := each twelve (fun g d => d.holdPins g true) d
  let st := d.stoState
  if st = 1 ∨ st = 2 ∨ st = 3 then d.setSto 4 false false else d

/-- SS1_T in ticks: 1 to 60 000 ms, outside values acting as the nearer limit (R555). -/
def Dev.ss1Ticks (d : Dev) : Nat := 400000 * min 60000 (max 1 (d.actFld Reg.SAFE_SS1_CFG 15 0))

/-- Sloe's evaluation after any change (R524 to R536): the SS1 timer starts, STO applies, newly covered groups are held with
cause SLOE, the switches open where R532 says so, and the run permit follows. -/
def Dev.evaluate (d : Dev) : Dev :=
  let d := if d.ss1Demand && !d.bit Reg.SLOE_STAT 19 && !d.sloe.ss1Done then
      let d := d.modSloe (fun s => { s with ss1End := d.now + d.ss1Ticks })
      (d.setBit Reg.SLOE_STAT 19 true).when d.ss1Controlled (Dev.raise 0x91 0)
    else d
  let d := d.when (d.sloe.ss1Done && !d.ss1Demand && d.stoState != 1 && d.stoState != 2 && d.stoState != 3)
    (Dev.modSloe (fun s => { s with ss1Done := false }))
  let cov := d.covered
  let d := d.when d.stoDemand Dev.applySto
  let fresh := twelve.filter (fun g => natBit g cov && !natBit g d.sloe.cover.toNat)
  let d := each fresh (fun g d => ((if d.sloeHolds g then d else d.holdPins g false).trip 14 g)) d
  let d := d.modSloe (fun s => { s with cover := BitVec.ofNat 12 cov })
  let d := d.when (cov != 0) Dev.enterSafe
  let st := d.stoState
  let d := if (st = 1 ∨ st = 2) ∧ d.closeOk = false then d.setSto 4 false false
    else if st = 3 ∧ d.faults ≠ 0 then d.setSto 4 false false
    else d
  let d := d.stoSettle
  let d := d.when (!d.stoDemand && (d.stoState == 0 || d.stoState == 3)) (fun d => d.setBit Reg.SLOE_STAT 18 false)
  d.permitUpdate

/-- The number of the running AON cycle of 25 ns (R11; log entry 94 on its nominal length). -/
def Dev.aonCycle (d : Dev) : Nat := d.now / 10

/-- A demand latch sets (R518, R529, R534). -/
def Dev.demandSet (b : Nat) (d : Dev) : Dev :=
  let d := d.modSloe (fun s => { s with demandCyc := vset s.demandCyc b (some d.aonCycle) })
  d.when (!natBit b d.demands) (fun d => (d.setBit Reg.SLOE_DEMAND b true).raise 0x91 1)

/-- A fault latch sets, with the first fault's record (R554), and Sloe evaluates. -/
def Dev.faultSet (b unit : Nat) (d : Dev) : Dev :=
  let d := d.modSloe (fun s => { s with faultCyc := vset s.faultCyc b (some d.aonCycle) })
  let d := d.when (!natBit b d.faults) (fun d => (d.setBit Reg.SLOE_FAULT b true).raise 0x91 2)
  let d := d.when (!d.bit Reg.SLOE_FAULT_REC 31)
    (Dev.setReg Reg.SLOE_FAULT_REC (bitMask 31 ||| place 26 24 b ||| place 19 16 unit))
  d.evaluate

/-- Demand b arose in this AON cycle, and so did fault b: its latch cannot clear in it (R539). -/
def Dev.demandNow (d : Dev) (b : Nat) : Bool := vget none d.sloe.demandCyc b == some d.aonCycle
def Dev.faultNow (d : Dev) (b : Nat) : Bool := vget none d.sloe.faultCyc b == some d.aonCycle

/-- The door of guard k is open on both channels while its lock shows locked (R520). -/
def Dev.lockImplausible (d : Dev) (k : Nat) : Bool :=
  d.funcType k == 2 && bitAt 7 (d.act (Reg.SAFE_FUNC_A k)) && d.lockOk k && !d.chanA k && !d.chanB k

/-- The channels of function k differ (R519). -/
def Dev.chansDiffer (d : Dev) (k : Nat) : Bool := d.funcType k != 0 && d.chanA k != d.chanB k

/-- Since when the channels of function k differ, and its lock is implausible. -/
def Dev.funcTimes (k : Nat) (d : Dev) : Dev :=
  d.modSloe (fun s => { s with
    discAt := vset s.discAt k (disagreeSince d.now (vget none s.discAt k) (d.chansDiffer k) false),
    lockAt := vset s.lockAt k (disagreeSince d.now (vget none s.lockAt k) (d.lockImplausible k) false) })

/-- A function's latch may clear (R521), its reset apart. -/
def Dev.clearable (d : Dev) (k : Nat) : Bool :=
  natBit k d.demands && natBit k d.sloe.bothOut.toNat && d.chanA k && d.chanB k && d.lockOk k

/-- Function k's latch clears. -/
def Dev.funcClear (k : Nat) (d : Dev) : Dev :=
  (d.setBit Reg.SLOE_DEMAND k false).modSloe (fun s => { s with bothOut := s.bothOut &&& ~~~ BitVec.ofNat 8 (2 ^ k) })

/-- Function k after a change of inputs or configuration: its demand latches, except under SLS_ONLY (R523), the common absence
of both channels is noted, and an AUTO reset clears (R518, R521). -/
def Dev.funcUpdate (k : Nat) (d : Dev) : Dev :=
  let d := d.funcTimes k
  let d := d.when (d.funcDemands k && d.funcAction k != 2 && !natBit k d.demands) (fun d =>
    (d.demandSet k).modSloe (fun s => { s with bothOut := s.bothOut &&& ~~~ BitVec.ofNat 8 (2 ^ k) }))
  let d := d.when (d.funcType k != 0 && natBit k d.demands && !d.chanA k && !d.chanB k)
    (Dev.modSloe (fun s => { s with bothOut := s.bothOut ||| BitVec.ofNat 8 (2 ^ k) }))
  d.when (d.clearable k && d.actFld (Reg.SAFE_FUNC_A k) 25 24 == 0) (Dev.funcClear k)

/-- Every function after a change, then Sloe's evaluation. -/
def Dev.inputsChanged (d : Dev) : Dev := (each (List.range 8) Dev.funcUpdate d).evaluate

/-! ### The safety configuration, its CRC and its log -/

/-- The RWS bits of a register that belong to the safety configuration; PW_NEW and the fault latches do not (R545, R546). -/
def safetyMask (key : Nat) : Word :=
  if key = Reg.SAFE_PW_NEW ∨ key = Reg.SLOE_FAULT then 0 else
  match regAt key with
  | some (_, _, r, _) => word r.rws
  | none => 0

/-- Keys of the registers of a page, ascending. -/
def pageKeys (page : Nat) : List Nat := (List.range 512).map (fun i => page * 0x1000 + 4 * i)

/-- The words of the safety CRC in the order of R546: EVT_ROUTE of SLOE and of SAFE, which hold a field of the safety configuration,
come with their page and again with the EVT_ROUTEs (DEDUCED, log entry 57). -/
def safetyKeys : List Nat :=
  (pageKeys 0x91).filter (fun k => safetyMask k != 0) ++
    (pageKeys 0x92).filter (fun k => safetyMask k != 0) ++
    allPages.map Reg.evtRoute ++ (List.range 4).map Reg.MB_HPB_ROUTE

/-- The safety CRC over the registers as written (R546). -/
def Dev.safetyCrc (d : Dev) : Word := crc32cWords (safetyKeys.map (fun k => d.reg k &&& safetyMask k))

/-- WIN of source A in ms; outside values act as the nearer limit. -/
def Dev.spdWin (d : Dev) : Nat := min 100 (max 1 (d.actFld Reg.SLOE_SPD_A 6 0))

/-- Source A starts its windows anew under a changed SPD_A (R527). -/
def Dev.spdStart (d : Dev) : Dev :=
  d.modSloe (fun s => { s with count := 0, winEnd := d.now + 400000 * d.spdWin, spdBWins := 1, oneAt := none })

/-- Input i under a changed SIN_CFG: its filter starts anew, and a disabled input reads 0 (R514). -/
def Dev.inputStart (i : Nat) (d : Dev) : Dev :=
  let d := d.modSloe (fun s => { s with seenAt := vset s.seenAt i d.now })
  if bitAt 31 (d.act (Reg.SAFE_SIN_CFG i)) then d
  else (d.setBit Reg.SAFE_SIN_STAT i false).modSloe (fun s => { s with evalRun := s.evalRun &&& ~~~ BitVec.ofNat 16 (2 ^ i) })

/-- The active copy takes the configuration (R673); inputs, test outputs and speed source A whose registers it changes start
anew (log entry 97). -/
def Dev.takeActive (d : Dev) : Dev :=
  let old := d
  let d := d.modSloe (fun s => { s with
    active := safetyKeys.foldl (fun a k => store resetWord k ((resetWord k &&& ~~~ safetyMask k) ||| (d.reg k &&& safetyMask k)) a) [] })
  let changed := fun k => old.act k != d.act k
  let d := each ((List.range 16).filter (fun i => changed (Reg.SAFE_SIN_CFG i))) Dev.inputStart d
  let d := d.when (changed Reg.SAFE_STP_CFG) (Dev.modSloe (fun s => { s with stpAt := d.now }))
  d.when (changed Reg.SLOE_SPD_A) Dev.spdStart

/-- The log FIFO holds 16 entries (R550). -/
def Dev.logFull (d : Dev) : Bool := 16 ≤ d.sloe.log.length

/-- STAT.LOG_FULL and LOG_STAT.PEND follow the FIFO. -/
def Dev.logShown (d : Dev) : Dev :=
  (d.setBit Reg.SAFE_STAT 12 d.logFull).setFld Reg.SAFE_LOG_STAT 4 0 d.sloe.log.length

/-- An entry of the change log (R549). -/
def Dev.logEntry (origin kind item : Nat) (old new : Word) (d : Dev) : Dev :=
  let seq := d.sloe.logSeq + 1
  let body := bytesOfNat 4 seq ++ bytesOfNat 8 d.devTime ++ bytesOfNat 1 origin ++ bytesOfNat 1 kind ++ bytesOfNat 2 item ++
    bytesOfNat 2 (d.fld Reg.SAFE_PSET 15 0) ++ [0, 0] ++ wordBytes old ++ wordBytes new
  let d := d.modSloe (fun s => { s with log := s.log ++ [body ++ wordBytes (crc32c body)], logSeq := seq })
  (d.logShown).raise 0x92 4

/-- ORIGIN of a master (R549). -/
def originOf : Master → Nat
  | .host => 1
  | .loader => 4
  | _ => 2

/-- SAFE.RESULT: code, error and item (R555). -/
def Dev.safeResult (code err item : Nat) (d : Dev) : Dev :=
  d.setReg Reg.SAFE_RESULT (place 31 24 code ||| place 23 16 err ||| place 15 0 item)

/-- SAFE.RESULT's error and item alone, for a write. -/
def Dev.safeErr (err : Nat) (d : Dev) : Dev := (d.setFld Reg.SAFE_RESULT 23 16 err).setFld Reg.SAFE_RESULT 15 0 0

/-- The master owns the open session (R542): 1 host SPI, 2 Medlar. -/
def Dev.ownsSession (d : Dev) (m : Master) : Bool :=
  d.sessionOpen && ((m = .host && d.fld Reg.SAFE_STAT 10 9 == 1) || (m = .medlar && d.fld Reg.SAFE_STAT 10 9 == 2))

/-- ITEM of a WRITE entry (R545). -/
def safetyItem (key : Nat) : Nat :=
  let page := key / 0x1000
  if page = 0x91 ∨ page = 0x92 then (if key % 0x1000 = 0x018 then 0x8000 + 2 * page else key - 0x91000)
  else if key % 0x1000 = 0x018 then 0x8000 + 2 * page
  else 0x8000 + 2 * page + 1

/-- A write or command of the session's owner is accepted: the 600 s start anew (R544). -/
def Dev.touchSession (d : Dev) : Dev := d.modSloe (fun s => { s with sessAt := d.now })

/-- A write of the RWS fields of a register, its other fields apart: only by the session's owner (R542), not while the safety
CRC runs (R546), and only with room in the log (R550); it logs a WRITE entry and clears SAFE_CFG_OK (R545). -/
def Dev.rwsApply (m : Master) (key : Nat) (v : Word) (d : Dev) : Dev :=
  let mask : Word := match regAt key with
    | some (_, _, r, _) => word r.rws
    | none => 0
  if !d.ownsSession m then d.discard m key
  else if d.sloe.crcRun then (d.discard m key).safeErr 10
  else if d.logFull then (d.discard m key).safeErr 8
  else
    let old := d.safetyCrc
    let d := if key = Reg.SAFE_PW_NEW then d.modSloe (fun s => { s with pwNew := some v })
      else d.setReg key ((d.reg key &&& ~~~ mask) ||| (v &&& mask))
    let d := d.logEntry (originOf m) 1 (safetyItem key) old d.safetyCrc
    ((d.setBit Reg.SAFE_STAT 0 false).touchSession).evaluate

/-- A write of SCRC_EXP: only by the session's owner (R542), and not while the safety CRC runs (R546). -/
def Dev.scrcExpOp (m : Master) (v : Word) (d : Dev) : Dev :=
  if !d.ownsSession m then d.discard m Reg.SAFE_SCRC_EXP
  else if d.sloe.crcRun then (d.discard m Reg.SAFE_SCRC_EXP).safeErr 10
  else (d.setReg Reg.SAFE_SCRC_EXP v).touchSession

/-! ### Rules and commit (R546, R547) -/

/-- A field of a safety register as written. -/
def Dev.funcA (d : Dev) (k hi lo : Nat) : Nat := d.fld (Reg.SAFE_FUNC_A k) hi lo
def Dev.usedFunc (d : Dev) (k : Nat) : Bool := 1 ≤ d.funcA k 31 29 && d.funcA k 31 29 ≤ 3
def Dev.sinEn (d : Dev) (i : Nat) : Bool := d.bit (Reg.SAFE_SIN_CFG i) 31
def Dev.sinTest (d : Dev) (i : Nat) : Nat := let t := d.fld (Reg.SAFE_SIN_CFG i) 29 27; if t ≤ 5 then t else 0

/-- The functions that use an input as a channel. -/
def Dev.usersOf (d : Dev) (i : Nat) : List Nat :=
  (List.range 8).filter (fun k => d.usedFunc k && (d.funcA k 15 12 == i || d.funcA k 19 16 == i))

/-- The registers that offend against each rule of R547, rule by rule. -/
def Dev.offences (d : Dev) : List (List Nat) :=
  let fs := (List.range 8).filter d.usedFunc
  let r1 := fs.flatMap (fun k =>
    (if d.funcA k 15 12 == d.funcA k 19 16 || !d.sinEn (d.funcA k 15 12) || !d.sinEn (d.funcA k 19 16) ||
        (d.bit (Reg.SAFE_FUNC_A k) 7 && !d.sinEn (d.funcA k 11 8)) then [Reg.SAFE_FUNC_A k] else []) ++
    (if d.funcA k 25 24 == 1 && !d.sinEn (d.fld (Reg.SAFE_FUNC_B k) 15 12) then [Reg.SAFE_FUNC_B k] else []))
  let r2 := (fs.filter (fun k => 1 < (d.usersOf (d.funcA k 15 12)).length || 1 < (d.usersOf (d.funcA k 19 16)).length)).map Reg.SAFE_FUNC_A
  let r3 := (fs.filter (fun k => d.funcA k 31 29 == 1 && d.funcA k 25 24 == 0)).map Reg.SAFE_FUNC_A
  let r4 := (fs.filter (fun k => d.funcA k 31 29 == 3)).flatMap (fun k =>
    ([d.funcA k 15 12, d.funcA k 19 16].filter (fun i => d.sinTest i != 5)).map Reg.SAFE_SIN_CFG)
  let r5 := (fs.filter (fun k => let a := d.sinTest (d.funcA k 15 12)
    1 ≤ a && a ≤ 4 && a == d.sinTest (d.funcA k 19 16))).map Reg.SAFE_FUNC_A
  let tested := (List.range 16).any (fun i => d.sinEn i && 1 ≤ d.sinTest i && d.sinTest i ≤ 4)
  let r6 := if tested && d.fld Reg.SAFE_STP_CFG 9 0 * 1000 < 8 * d.fld Reg.SAFE_STP_CFG 25 16 then [Reg.SAFE_STP_CFG] else []
  let r7 := if d.bit Reg.SAFE_SLS_CFG 31 && (!d.bit Reg.SLOE_SPD_A 31 || d.fld Reg.SAFE_SLS_LIM_A 23 0 == 0) then [Reg.SAFE_SLS_CFG] else []
  [r1, r2, r3, r4, r5, r6, r7]

/-- The register of the first offence (R547): first rule, then lowest address. -/
def Dev.firstOffence (d : Dev) : Option Nat :=
  match d.offences.find? (fun l => !l.isEmpty) with
  | some (k :: ks) => some (ks.foldl min k)
  | _ => none

/-- The safety commit against an expected CRC (R546): whether it is accepted, and the device; `kindOk` and `kindFail` are the
log kinds, `old` the CRC before the event, and `code` the command it reports. -/
def Dev.safetyCommit (expected old : Word) (origin kindOk kindFail code : Nat) (d : Dev) : Bool × Dev :=
  let crc := d.safetyCrc
  match d.firstOffence with
  | some k =>
    (false, ((((d.setBit Reg.SAFE_STAT 0 false).safeResult code 11 (k - 0x91000)).logEntry origin kindFail 0 old crc).raise 0x92 2).evaluate)
  | none =>
    if crc = expected then
      let d := ((d.setBit Reg.SAFE_STAT 0 true).setReg Reg.SAFE_SCRC crc).takeActive
      let d := match d.sloe.pwNew with
        | some p => (d.modSloe (fun s => { s with password := some p, pwNew := none })).setBit Reg.SAFE_STAT 1 true
        | none => d
      (true, (((d.safeResult code 0 0).logEntry origin kindOk 0 old crc).raise 0x92 3).inputsChanged)
    else
      (false, ((((d.setBit Reg.SAFE_STAT 0 false).safeResult code 7 0).logEntry origin kindFail 0 old crc).raise 0x92 2).evaluate)

/-- The word at an offset of bytes. -/
def wordIn (bs : List Byte) (o : Nat) : Word := wordOfBytes ((bs.drop o).take 4)

/-- The pairs of a SAFETY section (R548). -/
def safetyPairs (bs : List Byte) : List (Nat × Word) :=
  (List.range ((bs.length - 16) / 8)).map (fun i => ((wordIn bs (16 + 8 * i)).toNat, wordIn bs (20 + 8 * i)))

/-- The pair rule of R548. -/
def pairAllowed (addr : Nat) : Bool := safetyKeys.contains (addr - 0x40000000) && 0x40000000 ≤ addr

/-- Sloe handles a SAFETY section of the loader (R548): whether it accepts it, and the device. -/
def Dev.safetySection (bs : List Byte) (d : Dev) : Bool × Dev :=
  let crc := d.safetyCrc
  let pwSet := d.bit Reg.SAFE_STAT 1
  let bad := bs.length < 16 || (bs.length - 16) % 8 != 0
  if !bad && pwSet && d.bit Reg.SAFE_STAT 0 && wordIn bs 12 == d.reg Reg.SAFE_SCRC then (true, d)
  else if d.logFull then (false, d.safeErr 8)
  else if bad || (pwSet && d.sloe.password != some (wordIn bs 4)) || !(safetyPairs bs).all (fun p => pairAllowed p.1) then
    (false, d.logEntry 4 5 0 crc crc)
  else
    let d := d.setFld Reg.SAFE_PSET 15 0 (wordIn bs 0).toNat
    let d := each (safetyPairs bs) (fun p d =>
      let k := p.1 - 0x40000000
      d.setReg k ((d.reg k &&& ~~~ safetyMask k) ||| (p.2 &&& safetyMask k))) d
    let d := d.modSloe (fun s => { s with pwNew := some (wordIn bs 8) })
    let r := d.safetyCommit (wordIn bs 12) crc 4 4 5 (d.fld Reg.SAFE_RESULT 31 24)
    (r.1, r.2.modSloe (fun s => { s with pwNew := none }))

/-! ### Meanings: inputs and functions -/

/-- The period and the width of a test pulse in ticks: TP_P from 4 to 1000 ms and TP_W from 20 to 1000 µs, outside values acting as
the nearer limit (R515; log entry 97). -/
def Dev.stpPeriod (d : Dev) : Nat := 400000 * min 1000 (max 4 (d.actFld Reg.SAFE_STP_CFG 9 0))
def Dev.stpWidth (d : Dev) : Nat := 400 * min 1000 (max 20 (d.actFld Reg.SAFE_STP_CFG 25 16))

/-- How long after the start of a pulse of STPx a tick lies (R515); none before its first pulse or with EN = 0. -/
def Dev.stpPhase (d : Dev) (x t : Nat) : Option Nat :=
  let first := d.sloe.stpAt + x * d.stpPeriod / 4
  if bitAt 31 (d.act Reg.SAFE_STP_CFG) && decide (first ≤ t) then some ((t - first) % d.stpPeriod) else none

/-- The test output from which an input is tested (R516). -/
def Dev.testedBy (d : Dev) (i : Nat) : Option Nat :=
  let t := d.actFld (Reg.SAFE_SIN_CFG i) 29 27
  if 1 ≤ t ∧ t ≤ 4 then some (t - 1) else none

/-- The end of the time in which Sloe ignores a change of input i at tick t: from the start of a pulse until TP_W after its end
(R516). -/
def Dev.ignoredUntil (d : Dev) (i t : Nat) : Option Nat :=
  match (d.testedBy i).bind (fun x => d.stpPhase x t) with
  | some p => if p < 2 * d.stpWidth then some (t - p + 2 * d.stpWidth) else none
  | none => none

/-- The level of input i that its filter sees: the ball's, but for changes within the time it ignores (R516). -/
def Dev.inputSeen (i : Nat) (level : Bool) (ns : Nat) (d : Dev) : Dev :=
  if (d.ignoredUntil i d.now).isSome ∨ natBit i d.sloe.seen.toNat = level then d else
  let t := d.now - 2 * ns / 5
  let since := max (vget 0 d.sloe.seenAt i) ((d.ignoredUntil i t).getD t)
  d.modSloe (fun s => { s with
    seen := if level then s.seen ||| BitVec.ofNat 16 (2 ^ i) else s.seen &&& ~~~ BitVec.ofNat 16 (2 ^ i),
    seenAt := vset s.seenAt i since })

/-- FILT of an input in ticks: 1 to 400 times 25 µs, outside values acting as the nearer limit (R514, R555). -/
def Dev.sinFilt (d : Dev) (i : Nat) : Nat := 10000 * min 400 (max 1 (d.actFld (Reg.SAFE_SIN_CFG i) 8 0))

/-- OSSD_TOL of an OSSD input in ticks, 0 of any other (R517). -/
def Dev.ossdTol (d : Dev) (i : Nat) : Nat :=
  if d.actFld (Reg.SAFE_SIN_CFG i) 29 27 = 5 then 4000 * min 100 (d.actFld (Reg.SAFE_SIN_CFG i) 22 16) else 0

/-- The filtered run state of input i changes (R514); the functions see a loss of it at once but for an OSSD excursion, which has its
tolerance (R517). -/
def Dev.runChange (i : Nat) (run : Bool) (d : Dev) : Dev :=
  let bit := BitVec.ofNat 16 (2 ^ i)
  let tolerated := !run && d.ossdTol i != 0
  let d := (d.setBit Reg.SAFE_SIN_STAT i run).modSloe (fun s => { s with
    runAt := if run then vset s.runAt i d.now else s.runAt,
    fallAt := if run then s.fallAt else vset s.fallAt i d.now,
    evalRun := if run then s.evalRun ||| bit else if tolerated then s.evalRun else s.evalRun &&& ~~~ bit })
  d.inputsChanged

/-- SAFETY_INPUT_CHANGE (R514, R516): the ball of input i has stood at a level for `ns` ns. BALL shows it; the run state of an enabled
input follows once the level its filter sees has been stable for FILT. -/
def execSafetyInputChange (i : Fin 16) (level : Bool) (ns : Nat) (s : State) : Host.Outcome State Fault Refusal :=
  s.onDev (fun d =>
    let cfg := d.act (Reg.SAFE_SIN_CFG i.val)
    let d := (d.setBit Reg.SAFE_SIN_STAT (16 + i.val) level).inputSeen i.val level ns
    let run := natBit i.val d.sloe.seen.toNat != bitAt 30 cfg
    d.when (bitAt 31 cfg && run != d.bit Reg.SAFE_SIN_STAT i.val && decide (d.sinFilt i.val + vget 0 d.sloe.seenAt i.val ≤ d.now))
      (Dev.runChange i.val run))

/-- OSSD_TOLERANCE_EXPIRY (R517): an excursion that outlasts its tolerance is a demand. -/
def execOssdToleranceExpiry (i : Fin 16) (s : State) : Host.Outcome State Fault Refusal :=
  s.onDev (fun d =>
    let i := i.val
    if d.ossdTol i != 0 && !d.bit Reg.SAFE_SIN_STAT i && decide (vget 0 d.sloe.fallAt i + d.ossdTol i < d.now) then
      (d.modSloe (fun x => { x with evalRun := x.evalRun &&& ~~~ BitVec.ofNat 16 (2 ^ i) })).inputsChanged
    else d)

/-- The ball of input i is at its run level (R516). -/
def Dev.ballRuns (d : Dev) (i : Nat) : Bool := d.bit Reg.SAFE_SIN_STAT (16 + i) != bitAt 30 (d.act (Reg.SAFE_SIN_CFG i))

/-- TEST_PULSE (R515, R516): in the last quarter of a pulse of STPx, an input tested from it whose ball is not at the level of the
demand state sets TEST_PULSE. -/
def execTestPulse (x : Fin 4) (s : State) : Host.Outcome State Fault Refusal :=
  s.onDev (fun d =>
    match d.stpPhase x.val d.now with
    | some p =>
      if 3 * d.stpWidth ≤ 4 * p ∧ p < d.stpWidth then
        each ((List.range 16).filter (fun i => bitAt 31 (d.act (Reg.SAFE_SIN_CFG i)) && d.testedBy i == some x.val && d.ballRuns i))
          (fun i d => d.faultSet 1 i) d
      else d
    | none => d)

/-- DISC_T of function k in ticks: 10 to 2000 ms, outside values acting as the nearer limit (R555). -/
def Dev.discTicks (d : Dev) (k : Nat) : Nat := 400000 * min 2000 (max 10 (d.actFld (Reg.SAFE_FUNC_B k) 31 16))

/-- A condition has stood for longer than a time. -/
def Dev.longer (d : Dev) (since : Option Nat) (ticks : Nat) : Bool :=
  match since with
  | some t => decide (t + ticks < d.now)
  | none => false

/-- DISCREPANCY_TIMEOUT (R519): the channels of a function have differed for longer than DISC_T. -/
def execDiscrepancyTimeout (k : Fin 8) (s : State) : Host.Outcome State Fault Refusal :=
  s.onDev (fun d => d.when (d.longer (vget none d.sloe.discAt k.val) (d.discTicks k.val)) (Dev.faultSet 0 k.val))

/-- LOCK_PLAUS_TIMEOUT (R520): the lock has shown locked with the door open for longer than DISC_T. -/
def execLockPlausTimeout (k : Fin 8) (s : State) : Host.Outcome State Fault Refusal :=
  s.onDev (fun d => d.when (d.longer (vget none d.sloe.lockAt k.val) (d.discTicks k.val)) (Dev.faultSet 2 k.val))

/-- The latest run state of input i ended in this AON cycle and lasted from 100 ms to 5 s (R522). -/
def Dev.pulseEnds (d : Dev) (i : Nat) : Bool :=
  let len := vget 0 d.sloe.fallAt i - vget 0 d.sloe.runAt i
  !d.bit Reg.SAFE_SIN_STAT i && decide (d.now ≤ vget 0 d.sloe.fallAt i + 9 ∧ 40000000 ≤ len ∧ len ≤ 2000000000)

/-- RESET_PULSE (R521, R522): the trailing edge of a valid pulse on input i clears the functions that it resets. -/
def execResetPulse (i : Fin 16) (s : State) : Host.Outcome State Fault Refusal :=
  s.onDev (fun d =>
    if !bitAt 31 (d.act (Reg.SAFE_SIN_CFG i.val)) || !d.pulseEnds i.val then d else
    (each ((List.range 8).filter (fun k => d.actFld (Reg.SAFE_FUNC_A k) 25 24 == 1 &&
      d.actFld (Reg.SAFE_FUNC_B k) 15 12 == i.val && d.clearable k && !d.demandNow k)) Dev.funcClear d).evaluate)

/-- SS1_TIMER_EXPIRY (R526): the timer ends and STO follows, whatever has become of the demands that started it. -/
def execSs1TimerExpiry (s : State) : Host.Outcome State Fault Refusal :=
  s.onDev (fun d =>
    if d.bit Reg.SLOE_STAT 19 ∧ d.sloe.ss1End = d.now then
      let d := (d.setBit Reg.SLOE_STAT 19 false).raise 0x91 5
      ((d.modSloe (fun x => { x with ss1Done := true })).evaluate).evaluate
    else d)

/-! ### Meanings: speed sources -/

/-- Function FUNC of SLS_CFG demands, or SEL = 0: SLS is active (R529). -/
def Dev.slsActive (d : Dev) : Bool :=
  bitAt 31 (d.act Reg.SAFE_SLS_CFG) &&
    (!bitAt 29 (d.act Reg.SAFE_SLS_CFG) || d.funcDemands (d.actFld Reg.SAFE_SLS_CFG 26 24))

/-- SPEED_A_WINDOW_CLOSE (R525, R527 to R529): at the close of a window N_A, the SLS check, the early end of SS1, and the fault
latches SLS_DISC and SLS_STALE. -/
def execSpeedAWindowClose (s : State) : Host.Outcome State Fault Refusal :=
  s.onDev (fun d =>
    if !bitAt 31 (d.act Reg.SLOE_SPD_A) || d.sloe.winEnd != d.now then d else
    let n := d.sloe.count
    let d := d.setReg Reg.SLOE_SPD_A_CNT (word (unsignedOf 24 n))
    let na := n.natAbs
    let vb := (d.reg Reg.SAFE_SPD_B).toInt.natAbs
    let overA := d.actFld Reg.SAFE_SLS_LIM_A 23 0 < na
    let overB := (d.act Reg.SAFE_SLS_LIM_B).toNat < vb
    let active := d.slsActive
    let one := disagreeSince d.now d.sloe.oneAt (active && overA != overB) false
    let d := d.modSloe (fun x => { x with count := 0, winEnd := d.now + 400000 * d.spdWin, spdBWins := x.spdBWins + 1, oneAt := one })
    let d := d.when (active && (overA || overB)) (Dev.demandSet 8)
    let still := d.ss1Controlled && d.bit Reg.SLOE_STAT 19 && bitAt 31 (d.act Reg.SAFE_SLS_CFG) &&
      na ≤ d.actFld Reg.SAFE_SLS_STILL_A 23 0 && vb ≤ (d.act Reg.SAFE_SLS_STILL_B).toNat
    let d := d.when still (Dev.modSloe (fun x => { x with ss1Done := true }))
    let d := d.evaluate
    let d := d.when (d.longer one (400000 * d.actFld Reg.SAFE_SLS_CFG 15 0)) (Dev.faultSet 5 0)
    d.when (3 ≤ d.sloe.spdBWins) (Dev.faultSet 6 0))

/-- SPD_B_WRITE (R528): the triad alone writes source B. -/
def Dev.spdBOp (m : Master) (v : Word) (d : Dev) : Dev :=
  if m = .triad then (d.setReg Reg.SAFE_SPD_B v).modSloe (fun x => { x with spdBWins := 0 })
  else d.discard m Reg.SAFE_SPD_B

def execSpdBWrite (m : Master) (v : Word) (s : State) : Host.Outcome State Fault Refusal :=
  s.onDev (fun d => d.accessWrite m Reg.SAFE_SPD_B v (Dev.spdBOp m v))

/-! ### Meanings: the STO switches (R531 to R533) -/

/-- TEST_MAX in hours. -/
def Dev.testMax (d : Dev) : Nat := min 168 (max 1 (d.actFld Reg.SLOE_STO_CFG 7 0))

/-- STO_CLOSE_START (R532): with the close conditions, OPEN goes to TEST where a test is due, else to CLOSING. -/
def execStoCloseStart (s : State) : Host.Outcome State Fault Refusal :=
  s.onDev (fun d =>
    if d.stoState = 0 ∧ d.closeOk = true then
      if d.testMax ≤ d.fld Reg.SLOE_STO_AGE 15 0 then
        (d.setSto 1 true false).modSloe (fun x => { x with testPhase2 := false })
      else (d.setSto 2 true true).evaluate
    else d)

/-- Every feedback equals its switch's command. -/
def Dev.feedbackOk (d : Dev) : Bool := d.sloe.fb0 == d.bit Reg.SLOE_STO 0 && d.sloe.fb1 == d.bit Reg.SLOE_STO 1

/-- STO_TEST_PHASE_END (R532, R533): the end of a phase of TEST_T ms, 0 acting as 1. -/
def execStoTestPhaseEnd (s : State) : Host.Outcome State Fault Refusal :=
  s.onDev (fun d =>
    if d.stoState ≠ 1 ∨ d.sloe.stoAt + 400000 * max 1 (d.actFld Reg.SLOE_STO_CFG 31 24) ≠ d.now then d
    else if !d.feedbackOk then d.faultSet 3 0
    else if !d.sloe.testPhase2 then (d.setSto 1 false true).modSloe (fun x => { x with testPhase2 := true })
    else (((d.setReg Reg.SLOE_STO_AGE 0).modSloe (fun x => { x with ageAt := d.now })).setSto 2 true true).evaluate)

/-- STO_FEEDBACK_CHANGE (R531, R532): CLOSING becomes CLOSED with both feedbacks high, OPENING becomes OPEN with both low. -/
def execStoFeedbackChange (fb0 fb1 : Bool) (s : State) : Host.Outcome State Fault Refusal :=
  s.onDev (fun d =>
    let d := d.modSloe (fun x => { x with fb0 := fb0, fb1 := fb1 })
    let d := (d.setBit Reg.SLOE_STO 4 fb0).setBit Reg.SLOE_STO 5 fb1
    (d.fbCheck.stoSettle).evaluate)

/-- FB_T in ticks, 0 ms acting as 1 (R554). -/
def Dev.fbTicks (d : Dev) : Nat := 400000 * max 1 (d.actFld Reg.SLOE_STO_CFG 23 16)

/-- FB_T ends in CLOSING without both feedbacks high, or in OPENING without both low (R532). -/
def Dev.settleEnds (d : Dev) : Bool :=
  decide (d.sloe.stoAt + d.fbTicks ≤ d.now) &&
    ((d.stoState == 2 && !(d.sloe.fb0 && d.sloe.fb1)) || (d.stoState == 4 && (d.sloe.fb0 || d.sloe.fb1)))

/-- STO_FEEDBACK_TIMEOUT (R531, R532): a feedback has disagreed for longer than FB_T, or FB_T ends in CLOSING or OPENING without the
feedbacks they wait for: STO_FB. -/
def execStoFeedbackTimeout (s : State) : Host.Outcome State Fault Refusal :=
  s.onDev (fun d => d.when (d.longer d.sloe.fbAt0 d.fbTicks || d.longer d.sloe.fbAt1 d.fbTicks || d.settleEnds) (Dev.faultSet 3 0))

/-- STO_AGE_HOUR (R533): a whole hour of 3600 s since the latest passed switch test. -/
def execStoAgeHour (s : State) : Host.Outcome State Fault Refusal :=
  s.onDev (fun d =>
    if d.now ≤ d.sloe.ageAt ∨ (d.now - d.sloe.ageAt) % 1440000000000 ≠ 0 then d else
    let old := d.fld Reg.SLOE_STO_AGE 15 0
    let d := d.bumpSat Reg.SLOE_STO_AGE 15 0
    d.when (d.stoState == 3 && old + 1 == d.testMax) (Dev.raise 0x91 6))

/-! ### Meanings: the triad's requests and permit -/

/-- The next challenge (R537). -/
def nextChallenge (c : Nat) : Nat :=
  (c * 2) % 65536 + (b2n (natBit 15 c) + b2n (natBit 13 c) + b2n (natBit 12 c) + b2n (natBit 10 c)) % 2

/-- The watch's window of TP_WIN ms, 1 to 20, has ended, the AON cycle of its end included, without a correct answer (R537). -/
def Dev.permitLate (d : Dev) : Bool :=
  let win := 400000 * min 20 (max 1 (d.actFld Reg.SLOE_TP_CFG 4 0))
  d.bit Reg.SLOE_STAT 17 && d.sloe.permitOk && decide ((d.sloe.tpAt + win) / 10 < d.aonCycle)

/-- The window ends without a correct answer (R537). -/
def Dev.permitExpire (d : Dev) : Dev := (d.modSloe (fun x => { x with permitOk := false })).faultSet 4 0

/-- TRESP_WRITE (R537): a correct answer arms the watch, restarts its window and steps the challenge; a wrong one sets TPERMIT. -/
def Dev.trespOp (m : Master) (v : Word) (d : Dev) : Dev :=
  if m ≠ .triad then d.discard m Reg.SLOE_TRESP
  else
    let d := d.when d.permitLate Dev.permitExpire
    let c := d.fld Reg.SLOE_TCHAL 15 0
    if Machine.fld 15 0 v = 65535 - c then
      let d := (d.setBit Reg.SLOE_STAT 17 true).setFld Reg.SLOE_TCHAL 15 0 (nextChallenge c)
      (d.modSloe (fun x => { x with permitOk := true, tpAt := d.now })).evaluate
    else d.faultSet 4 0

def execTrespWrite (m : Master) (v : Word) (s : State) : Host.Outcome State Fault Refusal :=
  s.onDev (fun d => d.accessWrite m Reg.SLOE_TRESP v (Dev.trespOp m v))

/-- TPERMIT_WINDOW_EXPIRY (R537). -/
def execTpermitWindowExpiry (s : State) : Host.Outcome State Fault Refusal :=
  s.onDev (fun d => d.when d.permitLate Dev.permitExpire)

/-- TREQ_WRITE (R534): the triad's demand, which clears when it writes 0. -/
def Dev.treqOp (m : Master) (v : Word) (d : Dev) : Dev :=
  if m ≠ .triad then d.discard m Reg.SLOE_TREQ
  else
    let v := v &&& 0x30FFF
    let d := d.setReg Reg.SLOE_TREQ v
    (if v = 0 then d.when (!d.demandNow 10) (Dev.setBit Reg.SLOE_DEMAND 10 false) else d.demandSet 10).evaluate

def execTreqWrite (m : Master) (v : Word) (s : State) : Host.Outcome State Fault Refusal :=
  s.onDev (fun d => d.accessWrite m Reg.SLOE_TREQ v (Dev.treqOp m v))

/-! ### Meanings: session and configuration -/

/-- A fault latch's condition is absent (R538). -/
def Dev.faultAbsent (d : Dev) (b : Nat) : Bool :=
  match b with
  | 0 => (List.range 8).all (fun k => d.funcType k == 0 || d.chanA k == d.chanB k)
  | 2 => (List.range 8).all (fun k => !d.lockImplausible k)
  | 3 => d.feedbackOk
  | 5 => d.sloe.oneAt == none
  | _ => true

/-- FAULT_CLEAR (R538): a W1C write in a session clears the named latches whose conditions are absent and logs LATCH_CLR. -/
def Dev.faultClearOp (m : Master) (v : Word) (d : Dev) : Dev :=
  if !d.ownsSession m then d.discard m Reg.SLOE_FAULT
  else if d.sloe.crcRun then (d.discard m Reg.SLOE_FAULT).safeErr 10
  else
    let named := (List.range 8).filter (fun b => bitAt b v && natBit b d.faults)
    let clear := named.filter (fun b => d.faultAbsent b && !d.faultNow b)
    if clear.isEmpty then (if named.isEmpty then d else d.safeErr 9)
    else if d.logFull then (d.discard m Reg.SLOE_FAULT).safeErr 8
    else
      let d := each clear (fun b d => d.setBit Reg.SLOE_FAULT b false) d
      let d := d.when (clear.contains 7) (Dev.setFld Reg.SLOE_FAULT 27 24 0)
      let crc := d.safetyCrc
      let d := d.logEntry (originOf m) 6 (clear.foldl (fun a b => a + 2 ^ b) 0) crc crc
      ((d.when (clear.length != named.length) (Dev.safeErr 9)).touchSession).evaluate

def execFaultClear (m : Master) (v : Word) (s : State) : Host.Outcome State Fault Refusal :=
  s.onDev (fun d => d.accessWrite m Reg.SLOE_FAULT v (Dev.faultClearOp m v))

/-- A wrong password (R543). -/
def Dev.passwordWrong (m : Master) (d : Dev) : Dev :=
  let d := (d.bumpSat Reg.SAFE_PW_FAIL 7 0).bumpSat Reg.SAFE_PW_FAIL 31 16
  let crc := d.safetyCrc
  let d := if d.logFull then d.bumpSat Reg.SAFE_LOG_STAT 23 16 else d.logEntry (originOf m) 7 0 crc crc
  let d := d.raise 0x92 0
  d.when (3 ≤ d.fld Reg.SAFE_PW_FAIL 7 0) (fun d =>
    (d.setBit Reg.SAFE_STAT 11 true).modSloe (fun x => { x with pwLockAt := d.now }))

/-- SAFE.CMD OPEN (R542, R543). -/
def Dev.openOp (m : Master) (d : Dev) : Dev :=
  let pw := d.sloe.pwIn
  let d := d.modSloe (fun x => { x with pwIn := 0 })
  if d.sloe.crcRun then d.safeResult 1 10 0
  else if m ≠ .host ∧ m ≠ .medlar then (d.discard m Reg.SAFE_CMD).safeResult 1 6 0
  else if d.sessionOpen then d.safeResult 1 13 0
  else if !d.deviceOff then d.safeResult 1 1 0
  else if d.cstate = 3 then d.safeResult 1 2 0
  else if d.bit Reg.SAFE_STAT 11 then d.safeResult 1 4 0
  else if pw ≠ (d.sloe.password).getD 0 then (d.passwordWrong m).safeResult 1 3 0
  else
    let d := d.setFld Reg.SAFE_PW_FAIL 7 0 0
    if d.logFull then d.safeResult 1 8 0
    else
      let crc := d.safetyCrc
      let d := (d.setBit Reg.SAFE_STAT 8 true).setFld Reg.SAFE_STAT 10 9 (if m = .host then 1 else 2)
      let d := ((d.raise 0x92 1).logEntry (originOf m) 8 0 crc crc).safeResult 1 0 0
      d.touchSession.evaluate

def execOpen (m : Master) (s : State) : Host.Outcome State Fault Refusal :=
  s.onDev (fun d => d.accessWrite m Reg.SAFE_CMD 1 (Dev.openOp m))

/-- A session command of a master that is not the owner, or without a session (R542, R555). -/
def Dev.sessionCommand (m : Master) (code : Nat) (op : Dev → Dev) (d : Dev) : Dev :=
  if d.sloe.crcRun then d.safeResult code 10 0
  else if !d.sessionOpen then d.safeResult code 5 0
  else if !d.ownsSession m then (d.discard m Reg.SAFE_CMD).safeResult code 6 0
  else op d

/-- SAFE.CMD CLOSE (R544). -/
def Dev.closeOp (m : Master) (d : Dev) : Dev := d.sessionCommand m 2 (fun d => (d.closeSession.safeResult 2 0 0).evaluate)

def execClose (m : Master) (s : State) : Host.Outcome State Fault Refusal :=
  s.onDev (fun d => d.accessWrite m Reg.SAFE_CMD 2 (Dev.closeOp m))

/-- SAFE.CMD SCOMMIT (R546): the safety CRC starts. -/
def Dev.scommitOp (m : Master) (d : Dev) : Dev :=
  d.sessionCommand m 3 (fun d =>
    if d.logFull then d.safeResult 3 8 0
    else ((d.modSloe (fun x => { x with crcRun := true, crcAt := d.now })).safeResult 3 0 0).touchSession)

def execScommit (m : Master) (s : State) : Host.Outcome State Fault Refusal :=
  s.onDev (fun d => d.accessWrite m Reg.SAFE_CMD 3 (Dev.scommitOp m))

/-- SAFETY_CRC_DONE (R546, R547, R673): within 10 µs the configuration is accepted and the session closes, or it is refused. -/
def execSafetyCrcDone (s : State) : Host.Outcome State Fault Refusal :=
  s.onDev (fun d =>
    if !d.sloe.crcRun || decide (d.sloe.crcAt + 4000 < d.now) then d else
    let d := d.modSloe (fun x => { x with crcRun := false })
    let origin := if d.fld Reg.SAFE_STAT 10 9 = 1 then 1 else 2
    let r := d.safetyCommit (d.reg Reg.SAFE_SCRC_EXP) d.safetyCrc origin 2 3 3
    if r.1 then (r.2.closeSession).evaluate else r.2)

/-- The SLOE bit of an EVT_ROUTE, as the active copy has it, routes a pending event to Sloe (R76, R673). -/
def Dev.routedToSloe (d : Dev) (page : Nat) : Bool :=
  (bitAt 3 (d.act (Reg.evtRoute page)) &&
    (if 0x80 ≤ page ∧ page ≤ 0x83 then d.pend page &&& ~~~ bitMask 6 else d.pend page) != 0) ||
  (0x80 ≤ page && page ≤ 0x83 && bitAt 3 (d.act (Reg.MB_HPB_ROUTE (page - 0x80))) && bitAt 6 (d.pend page))

/-- SAFE.CMD RESET (R521, R529, R534): HOST resets clear, and EVT clears once no routed event is pending. -/
def Dev.safeResetOp (d : Dev) : Dev :=
  if d.sloe.crcRun then d.safeResult 0x10 10 0 else
  let d := d.safeResult 0x10 0 0
  let d := each ((List.range 8).filter (fun k => 2 ≤ d.actFld (Reg.SAFE_FUNC_A k) 25 24 && d.clearable k && !d.demandNow k)) Dev.funcClear d
  let d := d.when (!d.demandNow 8) (Dev.setBit Reg.SLOE_DEMAND 8 false)
  let d := d.when (!allPages.any d.routedToSloe && !d.demandNow 9) (Dev.setBit Reg.SLOE_DEMAND 9 false)
  d.evaluate

def execSafeReset (m : Master) (s : State) : Host.Outcome State Fault Refusal :=
  s.onDev (fun d => d.accessWrite m Reg.SAFE_CMD 0x10 Dev.safeResetOp)

/-- SESSION_TIMEOUT (R544): 600 s after the owner's latest accepted write. -/
def execSessionTimeout (s : State) : Host.Outcome State Fault Refusal :=
  s.onDev (fun d => d.when (d.sessionOpen && d.sloe.sessAt + 240000000000 == d.now) (fun d => d.closeSession.evaluate))

/-- PW_LOCK_EXPIRY (R543): 60 s after the lock began; CONSEC stays as it is. -/
def execPwLockExpiry (s : State) : Host.Outcome State Fault Refusal :=
  s.onDev (fun d => d.when (d.sloe.pwLockAt + 24000000000 == d.now) (Dev.setBit Reg.SAFE_STAT 11 false))

/-- LOG_ACK (R549): Medlar takes the oldest entry from the FIFO; any other SEQ, or master, is discarded. -/
def Dev.logAckOp (m : Master) (v : Word) (d : Dev) : Dev :=
  match d.sloe.log with
  | e :: rest =>
    if m = .medlar ∧ wordIn e 0 = v then (d.modSloe (fun x => { x with log := rest })).logShown
    else d.discard m Reg.SAFE_LOG_ACK
  | [] => d.discard m Reg.SAFE_LOG_ACK

def execLogAck (m : Master) (v : Word) (s : State) : Host.Outcome State Fault Refusal :=
  s.onDev (fun d => d.accessWrite m Reg.SAFE_LOG_ACK v (Dev.logAckOp m v))

/-- A triad fatal sets Sloe's latch with its cause (R506, R538). -/
def Dev.triadFatalLatch (cause : Nat) (d : Dev) : Dev := (d.setFld Reg.SLOE_FAULT 27 24 cause).faultSet 7 0

end Sys2Proof.Machine
end

