-- ==== Sys2Proof/Machine/Reset.lean ====
section
/-!
DEFINITION. Reset sources, what each reach clears, episodes and release sequences (spec/03), the supplies (spec/20), and block and
debug resets. Every reset asks for its clearing here.
-/

namespace Sys2Proof.Machine

/-! ### Pages and their domains -/

/-- The pages of the always-on domain (R54), which only a cold reach clears (R87). -/
def aonPages : List Nat := [1, 2, 0x91, 0x92]

/-- The pages that a plane reset clears (R88). -/
def planePages : List Nat :=
  [0x98, 0x99, 0x9A, 0x9B, 0xA0, 0xA1, 0x80, 0x81, 0x82, 0x83, 0x88, 0x89, 0x8A, 0x8B, 0xA8, 0xA9]

/-- The clock domain of a page (R54); the always-on domain needs no qualification. -/
def pageDomain (page : Nat) : Option Domain :=
  if aonPages.contains page then none
  else if page = 5 ∨ (0x20 ≤ page ∧ page ≤ 0x3B) then some .pwm
  else if 0x40 ≤ page ∧ page ≤ 0x62 then some .adc
  else if 0x68 ≤ page ∧ page ≤ 0x6F then some .fbk
  else if 0x80 ≤ page ∧ page ≤ 0x83 then some .mbus
  else if page = 0x90 then some .tri
  else if page = 0x98 then some .mgt
  else if 0x99 ≤ page ∧ page ≤ 0x9B then some .net
  else if page = 0xA0 then some .mem
  else some .fab

/-- The bit of a domain in the CLK registers (R125). -/
def domainBit : Domain → Nat
  | .fab => 0 | .mgt => 1 | .tri => 2 | .pwm => 3 | .adc => 4 | .fbk => 5 | .mbus => 6 | .net => 7 | .mem => 8

/-- The domain is qualified and not failed (R95, R126). -/
def Dev.qualified (d : Dev) (dom : Domain) : Bool := d.bit Reg.CLK_QUAL (domainBit dom)

/-- The clock of a page is qualified. -/
def Dev.pageQualified (d : Dev) (page : Nat) : Bool :=
  match pageDomain page with
  | some dom => d.qualified dom
  | none => true

/-! ### What a reset clears (R87 to R89) -/

/-- The register holds a SLOE bit (R70, R569), which every reach but a cold one keeps (R673). -/
def sloeRoute (key : Nat) : Bool :=
  key % 0x1000 == 0x018 || (0x80 ≤ key / 0x1000 && key / 0x1000 ≤ 0x83 && key % 0x1000 == 0x064)

/-- What a listed register becomes when its page is cleared: unlisted, but for a SLOE bit that is set. -/
def clearedReg (e : Nat × Word) : Option (Nat × Word) :=
  let v := setBit 3 true (resetWord e.1)
  if sloeRoute e.1 && bitAt 3 e.2 && v != resetWord e.1 then some (e.1, v) else none

/-- Registers and shadows of pages at their reset values, the SLOE bits of the routes kept (R673). -/
def Dev.clearPages (ps : List Nat) (d : Dev) : Dev :=
  { d with
    regs := d.regs.filterMap (fun e => if ps.contains (e.1 / 0x1000) then clearedReg e else some e)
    shadow := d.shadow.filter (fun e => !ps.contains (e.1 / 0x1000)) }

/-- DRAM contents are lost (R99, R655). -/
def Dev.loseDram (d : Dev) : Dev := { (d.skipFree 1) with dram := [], dramEpoch := d.freeCount + 1 }

/-- The DRAM has to be initialised with zero (R99). -/
def Dev.initDram (d : Dev) : Dev := Dev.putReset { d.reset with dramInit := true } d

/-- The pads hold what applies to them (R664). -/
def Dev.holdPads (d : Dev) : Dev :=
  if d.bit Reg.PAD_STAT 0 then d
  else (Dev.putPadHeld (d.regs.filter (fun e => e.1 / 0x1000 == 0xA8 || e.1 / 0x1000 == 0xA9)) d)

/-- What the ADC system holds beside its registers, cleared; what stands at the comparators' inputs stays. -/
def Dev.clearConversions (d : Dev) : Dev :=
  { d with trims := Vector.replicate 12 {}, cal := none, acq := { sd := d.acq.sd } }

/-- What Medlar knows after a reset of its own (R88): the flash's journal, the settings, and the timers of hardware stay. -/
def Mgmt.restarted (m : Mgmt) : Mgmt :=
  { m with halted := false, recorded := [], tele := [], states := [], startDue := false, beatAt := none, beaconAt := none
           rejoin := false }

/-- What the management plane holds beside its registers, cleared (R88), the pads held with what applied to them. -/
def Dev.clearPlaneParts (padHeld : List (Nat × Word)) (d : Dev) : Dev :=
  { d with
    padHeld := padHeld, can := Vector.replicate 4 {}, capture := { d.capture with postLeft := none }, host := {}, net := {}
    canopen := {}, romAt := none, crcs := Vector.replicate 4 {}, mgmt := d.mgmt.restarted }

/-- The management plane and Medlar cleared (R88): what the flash holds stays, and so do the capture FIFO and the SEQ counters
(R611); capture is frozen (R613). -/
def Dev.clearPlane (d : Dev) : Dev :=
  let held := d.holdPads.padHeld
  let d := (d.clearPages planePages).clearPlaneParts held
  (d.setBit Reg.PAD_STAT 0 true).setBit Reg.DRAM_STAT 8 true

/-- A loader operation in progress is aborted by a plane reset (R88, R167). -/
def Dev.abortLoad (d : Dev) : Dev :=
  if d.bit Reg.CFG_STATE 5 then
    let d := (Dev.putLoader { d.loader with load := none } d)
    let d := (d.setBit Reg.CFG_STATE 5 false).setFld Reg.CFG_RESULT 23 16 11
    ((d.setFld Reg.CFG_RESULT 8 0 0x1FF).raise 3 5).raise 3 0
  else d

/-- What a lane sends through a warm reset (R104): STATE frames with the safe pattern, where its group's pattern is ASC or it was
transmitting before the reset, an earlier source of the episode included, while the PWM clock stays qualified. -/
def Dev.laneThroughReset (d : Dev) (n : Nat) : Lane :=
  let l := d.lane n
  let sends := d.qualified .pwm && (l.safeTx || d.lanePowered n || bitAt 24 (d.act (Reg.SLOE_PSAFE n)))
  { since := l.since, safeTx := sends, tx := if sends then .frame (d.stateFrame n) else .none }

/-- A position unit in reset: the samples of its balls, and Sloe's, alone (R527). -/
def PosUnit.balls (p : PosUnit) : PosUnit :=
  { a := p.a, b := p.b, hall := p.hall, sloeA := p.sloeA, sloeB := p.sloeB, sloeHall := p.sloeHall }

/-- The data plane cleared by a warm or cold reach, what stands at the pins apart. -/
def Dev.clearData (d : Dev) : Dev :=
  { d with
    engines := Vector.replicate 12 {}
    groups := d.groups.map (fun x => { legs := x.legs.map (fun l => { onH := l.onH, onL := l.onL, offAt := l.offAt, hist := l.hist }) })
    conv := Vector.replicate 24 {}, acc := Vector.replicate 128 {}, mmx := Vector.replicate 64 {}, trims := Vector.replicate 12 {}
    cmps := d.cmps.map (fun r => { x := r.x }), cal := none, acq := {}, pos := d.pos.map PosUnit.balls, mc := Vector.replicate 12 {}, triad := {}
    loader := { rwcBar := d.fuses.sigRequired }, capture := {}
    mgmt := { journal := d.mgmt.journal, compactAt := d.mgmt.compactAt, sramAt := d.now, dramPassAt := d.now, wdtAt := d.now }
    tripIn := 0, timeHi := [], devTime := 0, rateAcc := 0, activeSeen := [], syncOutAt := none }

/-- Sloe through a warm reach (R541): its session closes and the permit watch disarms. -/
def Dev.warmSloe (d : Dev) : Dev :=
  let d := d.closeSession
  let d := d.setBit Reg.SLOE_STAT 17 false
  (d.modSloe (fun x => { x with permitOk := false })).permitUpdate

/-- A warm reach (R87, R102 to R104). Every group takes its safe pattern at the pins before its page is cleared. -/
def Dev.clearWarm (d : Dev) : Dev :=
  let d := each twelve (fun g d => d.holdPins g false) d
  let d := (Dev.putLanes (Vector.ofFn (fun n => d.laneThroughReset n.val)) d)
  let d := d.clearPlane
  (d.clearPages (allPages.filter (fun p => !aonPages.contains p && !planePages.contains p))).clearData.warmSloe

/-- Every register and shadow at its cold reset value. -/
def Dev.clearRegs (d : Dev) : Dev := { d with regs := [], shadow := [] }

/-- What only a cold reach clears beside the registers: the pins, the lanes, Sloe, the held pads, the clocks. -/
def Dev.clearAon (d : Dev) : Dev :=
  { d with
    groups := Vector.replicate 12 {}, lanes := Vector.replicate 12 {}, sloe := {}, padHeld := []
    clocks := { pllsOn := false } }

/-- A cold reach (R87, R102, R541): everything but fuses, flash and the recorder; the pins are low, the lanes dark, the STO
switches open, the crystal and the PLLs stopped, the held pads released. -/
def Dev.clearCold (d : Dev) : Dev :=
  ((d.clearPlane.loseDram.initDram).clearData).clearRegs.clearAon

/-! ### Episodes (R91 to R94) -/

/-- The bit of a source in RST.CAUSE (R107). -/
def sourceBit : Source → Nat
  | .porVdd => 0 | .porVio => 1 | .porVdda => 2 | .porstPin => 3 | .resetPin => 4 | .swCold => 5 | .swWarm => 6
  | .cmdHost => 7 | .cmdEth => 8 | .cmdCan => 9 | .mgtWdt => 10 | .triadFatal => 11 | .clkMon => 12

/-- RST.CAUSE.REACH (R107). -/
def reachCode : Reach → Nat
  | .plane => 1 | .warm => 2 | .cold => 3

/-- The wider of a reach in force and another (R92). -/
def widest : Option Reach → Reach → Reach
  | none, r => r
  | some a, b => if reachCode a < reachCode b then b else a

/-- The pages that a reach holds in reset. The AON pages are never held: the spec gives no instant at which a cold release sequence
releases them (DESIGN CHOICE, log entry 89). -/
def heldBy : Reach → List Nat
  | .plane => planePages
  | .warm | .cold => allPages.filter (fun p => !aonPages.contains p)

/-- The DRAM contents are lost in an episode, whose end records it (R99). -/
def Dev.dramLoss (d : Dev) : Dev :=
  let d := d.loseDram.initDram
  Dev.putReset { d.reset with dramLost := true } d

/-- DRAM self-refresh under a warm or plane source: lost where the MEM clock has failed (R99). -/
def Dev.enterSelfRefresh (d : Dev) : Dev := if d.qualified .mem || d.reset.dramLost then d else d.dramLoss

/-- Every page of a reach is held, again where the release sequence has released it (R93). -/
def Dev.holdReach (r : Reach) (d : Dev) : Dev :=
  (Dev.putReset { d.reset with
    held := heldBy r, releasing := false, deferred := d.reset.deferred.filter (fun p => !(heldBy r).contains p) } d)

/-- A source is asserted with a reach (R91 to R94): it joins the episode in progress or begins one, is recorded, widens the
reach in force, and every page of that reach is cleared and held (again). -/
def Dev.assertSource (src : Source) (r : Reach) (d : Dev) : Dev :=
  let reach := widest d.reset.episode r
  let d := (Dev.putReset { d.reset with
    episode := some reach
    asserted := (d.reset.asserted.filter (fun a : Source × Reach => a.1 != src)) ++ [(src, r)]
    seen := d.reset.seen ||| BitVec.ofNat 13 (2 ^ sourceBit src)
    releasing := false
    cstateLeft := d.reset.cstateLeft || (reach != Reach.plane && d.cstate != 0) } d)
  let d := match reach with
    | .plane => (d.abortLoad.clearPlane).when (d.sessionOpen && d.fld Reg.SAFE_STAT 10 9 == 2) Dev.closeSession
    | .warm => d.clearWarm
    | .cold => d.clearCold
  let d := d.when (reach != Reach.cold) Dev.enterSelfRefresh
  d.holdReach reach

/-- A source releases (R85, R86, R670): the release sequence runs from the last release of the episode (R93). -/
def Dev.releaseSource (src : Source) (d : Dev) : Dev :=
  if d.reset.asserted.any (fun a => a.1 == src) then
    (Dev.putReset { d.reset with asserted := d.reset.asserted.filter (fun a => a.1 != src), seqStart := d.now } d)
  else d

/-- A page is released from a reset: at once where its clock is qualified, else once it qualifies, with RELEASE_PENDING
(R82). -/
def Dev.releasePage (page : Nat) (d : Dev) : Dev :=
  let d := (Dev.putReset { d.reset with held := d.reset.held.filter (· != page) } d)
  if d.pageQualified page then d
  else ((Dev.putReset { d.reset with deferred := d.reset.deferred ++ [page] } d)).setBit (Reg.stat page) 31 true

/-- The recorded trip inputs start from the inactive level at the PWM release (R307), and Sloe's evaluation follows. -/
def Dev.afterRelease (d : Dev) : Dev := d.evaluate

/-- A block or debug reset of a page overlaps the episode in progress (R91). -/
def Dev.joinsEpisode (d : Dev) (page : Nat) : Bool :=
  match d.reset.episode with
  | some r => (heldBy r).contains page
  | none => false

/-- A source of the episode stands: one of wider reach, or a block or debug reset that has joined it (R91, R93). -/
def Dev.sourcesStand (d : Dev) : Bool := !d.reset.asserted.isEmpty || d.reset.blockHeld.any d.joinsEpisode

/-- RELEASE_SEQUENCE (R93, R98): every source has released; all pages of the reach but MGT are released. After a cold reach the
crystal must have shown its amplitude (R97). -/
def execReleaseSequence (s : State) : Host.Outcome State Fault Refusal :=
  s.onDev (fun d =>
    match d.reset.episode with
    | none => d
    | some _ =>
      if d.sourcesStand || d.reset.releasing || !d.clocks.pllsOn || d.clocks.xtalFault then d else
      let d := (Dev.putReset { d.reset with releasing := true } d)
      each (d.reset.held.filter (· != 0x98)) Dev.releasePage d)

/-- The memories that a warm or cold release initialises (R87, R98). -/
def Dev.initMemories (d : Dev) : Dev := { d with mem := [], triadMem := Vector.replicate 3 [] }

/-- The episode ends (R94, R107): the recorded sources, the counts, the time of the sequence; after a warm or cold one the commit
state has been entered anew (R100, R164). -/
def Dev.endEpisode (reach : Reach) (d : Dev) : Dev :=
  let seen := d.reset.seen.toNat
  let cause := bitMask 31 ||| place 30 28 (reachCode reach) ||| place 27 27 (b2n d.reset.dramLost) ||| word seen
  let d := d.setReg Reg.RST_CAUSE cause
  let d := d.setReg Reg.RST_CAUSE_HIST (d.reg Reg.RST_CAUSE_HIST ||| word seen)
  let d := match reach with
    | .plane => d.bumpSat Reg.RST_CNT 31 16
    | .warm => d.bumpSat Reg.RST_CNT 15 0
    | .cold => d
  let d := d.setReg Reg.RST_SEQ (word (min 0xFFFF ((d.now - d.reset.seqStart) / 400)))
  let d := d.when (reach != Reach.plane) (fun d => (d.raise 3 0).when d.reset.cstateLeft (Dev.raise 3 1))
  (Dev.putReset { d.reset with episode := none, seen := 0, releasing := false, dramLost := false, cstateLeft := false } d)

/-- The boot ROM starts as MGT is released and samples BOOTSEL (R108): flash boot, or waiting for the host with its event (R111). -/
def Dev.romStart (d : Dev) : Dev :=
  let mode := d.bootsel % 4
  let d := Dev.putRomAt (if mode = 1 then none else some d.now) (d.setReg Reg.SYS_BOOT (place 31 30 mode))
  if mode = 1 then ((d.setFld Reg.SYS_BOOT 3 0 3).setBit (Reg.evtEn 0) 0 true).raise 0 0 else d

/-- MGT may have left reset by a change from a device in which it was held: the boot ROM starts, unless a JTAG reset holds Medlar
halted (R90). -/
def Dev.romAfter (old d : Dev) : Dev := d.when (old.pageHeld 0x98 && !d.pageHeld 0x98 && !d.mgmt.halted) Dev.romStart

/-- MEMORY_INIT_DONE (R94, R98): MGT is released last and the episode ends. -/
def execMemoryInitDone (s : State) : Host.Outcome State Fault Refusal :=
  s.onDev (fun d =>
    match d.reset.episode with
    | some reach =>
      if d.reset.releasing then
        let d := d.when (reach != .plane) Dev.initMemories
        (Dev.romAfter d ((d.releasePage 0x98).endEpisode reach)).afterRelease
      else d
    | none => d)

/-- The whole DRAM is initialised with zero (R99). -/
def Dev.zeroDram (d : Dev) : Dev := { d with dram := [], dramEpoch := 0 }

/-- DRAM_INIT_DONE (R99): after a cold reset or DRAM_LOST the DRAM is zeroed; after self-refresh the contents are as they were. -/
def execDramInitDone (s : State) : Host.Outcome State Fault Refusal :=
  s.onDev (fun d =>
    if d.pageHeld 0xA0 then d else
    let d := if d.reset.dramInit then Dev.putReset { d.reset with dramInit := false } d.zeroDram else d
    d.setFld Reg.DRAM_STAT 2 0 3)

/-- SELF_REFRESH_TIMEOUT (R99): the contents are lost, and the episode's end records it. -/
def execSelfRefreshTimeout (s : State) : Host.Outcome State Fault Refusal :=
  s.onDev (fun d =>
    match d.reset.episode with
    | some .plane | some .warm => d.dramLoss
    | _ => d)

/-! ### Meanings: pins, software and internal sources -/

/-- A low pulse of a ball is accepted (R84): 2 to 5 µs is open. -/
def pulseOk (lowNs : Nat) : Bool := 5000 ≤ lowNs || (2000 ≤ lowNs && Config.pulseAccepted lowNs)

/-- PORST_PIN (R83, R84). -/
def execPorstPin (lowNs : Nat) (s : State) : Host.Outcome State Fault Refusal :=
  s.onDev (fun d => d.when (pulseOk lowNs) (Dev.assertSource .porstPin .cold))

/-- RESET_PIN (R83, R84). -/
def execResetPin (lowNs : Nat) (s : State) : Host.Outcome State Fault Refusal :=
  s.onDev (fun d => d.when (pulseOk lowNs) (Dev.assertSource .resetPin .warm))

/-- BALL_SOURCE_RELEASE (R85). -/
def execBallSourceRelease (src : Source) (s : State) : Host.Outcome State Fault Refusal :=
  s.onDev (fun d => d.when (src == .porstPin || src == .resetPin) (Dev.releaseSource src))

/-- A write of SYS.SWRST that has passed its key (R86): COLD wins. -/
def Dev.swrstOp (v : Word) (d : Dev) : Dev :=
  if bitAt 0 v then d.assertSource .swCold .cold
  else if bitAt 1 v then d.assertSource .swWarm .warm
  else d

/-- SWRST_COLD (R86). -/
def execSwrstCold (m : Master) (alsoWarm : Bool) (s : State) : Host.Outcome State Fault Refusal :=
  let v : Word := if alsoWarm then 3 else 1
  s.onDev (fun d => d.accessWrite m Reg.SYS_SWRST v (Dev.swrstOp v))

/-- SWRST_WARM (R86). -/
def execSwrstWarm (m : Master) (s : State) : Host.Outcome State Fault Refusal :=
  s.onDev (fun d => d.accessWrite m Reg.SYS_SWRST 2 (Dev.swrstOp 2))

/-- SOFTWARE_SOURCE_RELEASE (R86, R630). -/
def execSoftwareSourceRelease (src : Source) (s : State) : Host.Outcome State Fault Refusal :=
  s.onDev (fun d => d.when ([Source.swCold, .swWarm, .cmdHost, .cmdEth, .cmdCan].contains src) (Dev.releaseSource src))

/-- INTERNAL_SOURCE_RELEASE (R670). -/
def execInternalSourceRelease (src : Source) (s : State) : Host.Outcome State Fault Refusal :=
  s.onDev (fun d => d.when ([Source.mgtWdt, .triadFatal, .clkMon].contains src) (Dev.releaseSource src))

/-! ### Block and debug resets (R89, R90, R96, R217, R287) -/

/-- RST.BLK_LAST of a block or debug reset (R107): SRC 0 SRST, 1 engine watchdog, 2 JTAG. -/
def Dev.noteBlock (src page : Nat) (d : Dev) : Dev :=
  let cnt := min 0xFFFF (d.fld Reg.RST_BLK_LAST 23 8 + 1)
  d.setReg Reg.RST_BLK_LAST (bitMask 31 ||| place 25 24 src ||| place 23 8 cnt ||| place 7 0 page)

/-- What must happen before a page is reset: an engine's groups trip with ENGINE_RESET (R217), a group's pins are held (R287),
a lane group loses its lane. -/
def Dev.beforeBlock (page : Nat) (d : Dev) : Dev :=
  if 0x10 ≤ page ∧ page ≤ 0x1B then
    each (twelve.filter (fun g => natBit g (d.owned (page - 0x10)) && d.gstate g != 0)) (Dev.trip 11) d
  else if 0x20 ≤ page ∧ page ≤ 0x2B then (d.holdPins (page - 0x20) false).setGstate (page - 0x20) 0
  else if 0x30 ≤ page ∧ page ≤ 0x3B then d.laneEnable (page - 0x30) false
  else d

/-- The state of Medlar cleared (R88 to R90): what the flash holds stays, and so do the settings that a commit has put in force. -/
def Dev.clearMedlar (d : Dev) : Dev :=
  let d := Dev.putMgmt d.mgmt.restarted d
  Dev.putCanopen {} (Dev.putNet { sent := d.net.sent, busyAt := d.net.busyAt, taken := d.net.taken } d)

/-- The internal state that a page controls, cleared with it (R89). -/
def Dev.clearBlockState (page : Nat) (d : Dev) : Dev :=
  match pageKind? page with
  | some (.le, n) => d.modEngine n (fun x => {
      coef := x.coef.map (fun u => u.map (fun c => { c with state := Vector.replicate 8 0 })), capSeq := x.capSeq })
  | some (.pg, g) =>
    d.modGroup g (fun x => { legs := x.legs.map (fun l => { onH := l.onH, onL := l.onL, offAt := l.offAt, hist := l.hist }) })
  | some (.pwmsys, _) => (Dev.putSyncOutAt none (Dev.putTripIn 0 d))
  | some (.fl, n) => d.modLane n (fun l => { since := l.since })
  | some (.mgt, _) => Dev.putRomAt none (Dev.clearMedlar d)
  | some (.ac, c) => (Dev.putConv (vset d.conv c {}) d)
  | some (.adcsys, _) =>
    (each (List.range 24) Dev.sdConfigured d.clearConversions).cmpConfigured
  | some (.acc, i) => (Dev.putAcc ((List.range 32).foldl (fun a k => vset a (32 * i + k) {}) d.acc) d)
  | some (.mmx, i) => (Dev.putMmx ((List.range 32).foldl (fun a k => vset a (32 * i + k) {}) d.mmx) d)
  | some (.cmp, _) => each twelve Dev.brakeUpdate (Dev.putCmps (d.cmps.map (fun r => { x := r.x })) d)
  | some (.sd, q) => each (List.range 8) (fun i d => d.modSd (8 * q + i) (fun _ => {})) d
  | some (.pf, n) => d.modPf n PosUnit.balls
  | some (.mc, n) => d.modMc n (fun _ => {})
  | some (.mb, n) => d.modCtl n (fun _ => {})
  | some (.triad, _) => d.triadHold
  | some (.host, _) => (Dev.putHost {} d)
  | some (.eth, n) => (Dev.putNet { d.net with sent := vset d.net.sent n [] } d)
  | some (.dram, _) => (Dev.putCapture { d.capture with postLeft := none } d)
  | some (.cfg, _) => (Dev.putLoader { rwcBar := d.loader.rwcBar } d)
  | _ => d

/-- What a reach in force clears again where a block or debug reset joins its episode (R91 to R93); the AON domain stays (R87). -/
def Dev.clearAgain (d : Dev) : Dev :=
  match d.reset.episode with
  | some .plane => d.clearPlane
  | some .warm | some .cold => d.clearWarm
  | none => d

/-- A block or debug reset joins the episode in progress, where its page lies in the reach (R91): the whole reach is in reset again
until the source has released (R93). -/
def Dev.joinEpisode (page : Nat) (d : Dev) : Dev :=
  match d.reset.episode with
  | some r => if (heldBy r).contains page then d.clearAgain.holdReach r else d
  | none => d

/-- The registers of a block reset and the state behind them (R89): the pads hold what applied to them, and HELD takes its warm
value (R18, R664). -/
def Dev.clearBlockPage (page : Nat) (d : Dev) : Dev :=
  let held := if page = 0xA8 then d.holdPads.padHeld else d.padHeld
  let d := (d.clearPages [page]).clearBlockState page
  if page = 0xA8 then (Dev.putPadHeld held d).setBit Reg.PAD_STAT 0 true else d

/-- A block or debug reset of a page (R89): AON pages keep their registers (R87); the page is held until its release. An engine's
OWN returns to its reset value, and ownership follows as the groups allow (R209). The commit state stays (R87). -/
def Dev.blockReset (src page : Nat) (d : Dev) : Dev :=
  let d := (d.noteBlock src page).beforeBlock page
  let eff := if 0x10 ≤ page ∧ page ≤ 0x1B then d.owned (page - 0x10) else 0
  let commit := d.cstate
  let d := if aonPages.contains page then d else d.clearBlockPage page
  let d := d.setFld Reg.CFG_STATE 2 0 commit
  let d := d.when (0x10 ≤ page && page ≤ 0x1B) (fun d => (d.setFld (Reg.LE_OWN_EFF (page - 0x10)) 11 0 eff).resolveOwners)
  (Dev.putReset { d.reset with blockHeld := page :: d.reset.blockHeld.filter (· != page) } d).joinEpisode page

/-- A write of 1 to CTRL.SRST that has passed its key (R96): discarded with ACCESS_ERR at SLOE and SAFE (R513), and at TRIAD
while ARMED (R492). -/
def Dev.srstOp (m : Master) (page : Nat) (d : Dev) : Dev :=
  if page = 0x91 ∨ page = 0x92 ∨ (page = 0x90 ∧ d.cstate = 3) then d.discard m (Reg.ctrl page) else d.blockReset 0 page

/-- BLOCK_RESET_RELEASE (R82, R93, R96): released, or deferred until its clock qualifies; one that has joined an episode leaves its
page to the release sequence. -/
def execBlockResetRelease (page : Nat) (s : State) : Host.Outcome State Fault Refusal :=
  s.onDev (fun d =>
    if d.reset.blockHeld.contains page then
      let free := Dev.putReset { d.reset with blockHeld := d.reset.blockHeld.filter (· != page) } d
      if d.joinsEpisode page then Dev.putReset { free.reset with seqStart := d.now } free
      else Dev.romAfter d (free.releasePage page)
    else if d.reset.deferred.contains page ∧ d.pageQualified page = true then
      Dev.romAfter d (Dev.putReset { d.reset with deferred := d.reset.deferred.filter (· != page) } d)
    else d)

/-! ### Supplies (R654, R655) -/

/-- The source of a supply (R83). -/
def railSource : Rail → Source
  | .vdd => .porVdd
  | .vio _ => .porVio
  | .vdda => .porVdda

/-- A VIO bank takes its class once (R650, R654): the 3.3 V class where it has passed 2.85 V by the end of its 20 ms window, the 1.8 V
class at that end. -/
def VioBank.take (now : Nat) (b : VioBank) : VioBank :=
  let stop := b.since + 8000000
  if !b.up || b.class33.isSome then b
  else if b.high && decide (now ≤ stop) then { b with class33 := some true }
  else if stop ≤ now then { b with class33 := some false }
  else b

/-- A VIO bank rises to a level in mV: the window runs from the later of passing 1.55 V and falling below the brown-out threshold. -/
def VioBank.rise (now mv : Nat) (b : VioBank) : VioBank :=
  VioBank.take now { b with
    up := b.up || decide (1550 ≤ mv), high := b.high || decide (2850 ≤ mv), since := if !b.up && decide (1550 ≤ mv) then now else b.since }

/-- The falling threshold of a VIO bank, in mV, by its class; that of the 1.8 V class while it has none (log entry 106). -/
def VioBank.floor (b : VioBank) : Nat := if b.class33 = some true then 2800 else 1500

/-- A VIO bank falls below its falling threshold to a level in mV: its class is taken anew. -/
def VioBank.fall (now mv : Nat) (b : VioBank) : VioBank :=
  { up := b.up && decide (1500 ≤ mv), high := false, class33 := none, since := now }

/-- A supply at a level in mV is below its falling threshold (R654). -/
def Dev.belowFloor (d : Dev) (r : Rail) (mv : Nat) : Bool :=
  decide (mv < match r with
    | .vdd => 700
    | .vdda => 1580
    | .vio b => (d.supplies.vio.get b).floor)

/-- Every supply is above its threshold (R83). -/
def Supplies.above (x : Supplies) : Bool := x.vdd && x.vdda && x.vio.all (fun b => b.up)

/-- Changed supplies: the instant since which all three are above threshold is that of the change that brought it, or of a dip. -/
def Dev.changeSupplies (dip : Bool) (x : Supplies) (d : Dev) : Dev :=
  Dev.putSupplies { x with allAt := if dip || !d.supplies.above then d.now else d.supplies.allAt } d

/-- A supply below its falling threshold, at a level in mV. -/
def Dev.supplyFall (r : Rail) (mv : Nat) (d : Dev) : Dev :=
  d.changeSupplies true (match r with
    | .vdd => { d.supplies with vdd := false }
    | .vdda => { d.supplies with vdda := false }
    | .vio b => { d.supplies with vio := d.supplies.vio.set b ((d.supplies.vio.get b).fall d.now mv) })

/-- A supply that rises to a level in mV. -/
def Dev.supplyRise (r : Rail) (mv : Nat) (d : Dev) : Dev :=
  d.changeSupplies false (match r with
    | .vdd => { d.supplies with vdd := d.supplies.vdd || decide (720 ≤ mv) }
    | .vdda => { d.supplies with vdda := d.supplies.vdda || decide (1620 ≤ mv) }
    | .vio b => { d.supplies with vio := d.supplies.vio.set b ((d.supplies.vio.get b).rise d.now mv) })

/-- SUPPLY_BROWN_OUT (R83, R654): a dip to a level in mV below the falling threshold, of 500 ns or longer. -/
def execSupplyBrownOut (r : Rail) (mv ns : Nat) (s : State) : Host.Outcome State Fault Refusal :=
  s.onDev (fun d => d.when (d.belowFloor r mv && decide (500 ≤ ns)) (fun d =>
    (d.supplyFall r mv).assertSource (railSource r) .cold))

/-- SUPPLY_RISE (R83, R654): a supply has risen to a level in mV. -/
def execSupplyRise (r : Rail) (mv : Nat) (s : State) : Host.Outcome State Fault Refusal := s.onDev (Dev.supplyRise r mv)

/-- VIO_CLASS_TAKE (R650, R654). -/
def execVioClassTake (bank : Fin 5) (s : State) : Host.Outcome State Fault Refusal :=
  s.onDev (fun d =>
    (Dev.putSupplies { d.supplies with vio := d.supplies.vio.set bank ((d.supplies.vio.get bank).take d.now) } d))

/-- The power-on sources may release: 200 µs have passed since all three supplies are above threshold (R83). -/
def Dev.suppliesUp (d : Dev) : Bool := d.supplies.above && decide (d.supplies.allAt + 80000 ≤ d.now)

/-- Every VIO bank has taken its class (R650, R654). -/
def Dev.vioClassed (d : Dev) : Bool := d.supplies.vio.all (fun b => b.class33.isSome)

/-- POWER_ON_RELEASE (R83, R654): the VIO source stays until every bank has taken its class. -/
def execPowerOnRelease (s : State) : Host.Outcome State Fault Refusal :=
  s.onDev (fun d => d.when d.suppliesUp (fun d =>
    ((d.releaseSource .porVdd).releaseSource .porVdda).when d.vioClassed (Dev.releaseSource .porVio)))

/-- VDDQ_OUT_OF_RANGE (R655): the DRAM contents are no longer guaranteed. -/
def execVddqOutOfRange (s : State) : Host.Outcome State Fault Refusal :=
  s.onDev (fun d => d.when d.supplies.vdd Dev.loseDram)

end Sys2Proof.Machine
end

