-- ==== Sys2Proof/Machine/Can.lean ====
section
/-!
DEFINITION. The message bus controllers (spec/16): modes, buffers and their owners, reception with shadows, transmission, error
states, and the reset command frame.
-/

namespace Sys2Proof

open Machine

/-- Bytes that a DLC stands for. -/
def dlcBytes (fdf : Bool) (dlc : Nat) : Nat :=
  if dlc ≤ 8 then dlc else if !fdf then 8 else nth 8 [12, 16, 20, 24, 32, 48, 64] (dlc - 9)

/-- The frame is a remote frame. -/
def CanFrame.remote (f : CanFrame) : Bool := f.rtr && !f.fdf

/-- The identifier of a frame as a number, base in [28:18]. -/
def CanFrame.ident (f : CanFrame) : Nat := if f.ide then f.id.toNat else f.id.toNat / 2 ^ 18 * 2 ^ 18

/-- The data bytes of a frame: as many as its DLC says, none in a remote frame. -/
def CanFrame.bytes (f : CanFrame) : List Byte :=
  if f.remote then [] else
  let n := dlcBytes f.fdf f.dlc.val
  (f.data ++ List.replicate n 0).take n

/-- The words of a buffer from bytes, zero beyond them. -/
def dataWords (bs : List Byte) : Vector Word 16 :=
  Vector.ofFn (fun j : Fin 16 => wordOfBytes ((bs.drop (4 * j.val)).take 4))

/-- A received frame as a buffer holds it (R565, R577, R587). -/
def CanFrame.stored (f : CanFrame) (ts : Word) : CanBuf :=
  { id := place 30 30 (b2n f.ide) ||| place 28 0 f.ident
    info := place 19 16 f.dlc.val ||| place 12 12 (b2n (f.fdf && f.esi)) ||| place 11 11 (b2n f.fdf) |||
      place 10 10 (b2n (f.fdf && f.brs)) ||| place 9 9 (b2n f.remote)
    ts := ts
    data := dataWords f.bytes }

/-- The codes of RESULT for an attempt. -/
def TxOutcome.code : TxOutcome → Nat
  | .done => 1 | .arbLost => 2 | .bit => 3 | .stuff => 4 | .form => 5 | .ack => 6

def CanError.code : CanError → Nat
  | .stuff => 1 | .form => 2 | .ack => 3 | .bit1 => 4 | .bit0 => 5 | .crc => 6

/-- What ISO 11898-1 adds for a case of an error, to TEC in a transmitter and to REC in a receiver (R578; PRESUMED, log entry 98). -/
def CanErrorCase.adds (c : CanErrorCase) (sending : Bool) : Nat :=
  match c with
  | .plain => if sending then 8 else 1
  | .afterFlag => if sending then 0 else 8
  | .flagBit | .longDominant => 8
  | .quietAck | .arbStuff => 0

/-- The case is a detected error, and no continuation of one. -/
def CanErrorCase.detected (c : CanErrorCase) : Bool := c != .afterFlag && c != .longDominant

end Sys2Proof

namespace Sys2Proof.Machine

/-! ### State of a controller -/

/-- MODE in force: 0 INIT, 1 NORMAL, 2 LISTEN, 3 LOOPBACK; 4 to 7 act as 0 (R557). -/
def Dev.canMode (d : Dev) (n : Nat) : Nat := let m := d.fld (Reg.MB_CTRL n) 18 16; if m < 4 then m else 0

/-- STAT.FSTATE: 0 INIT, 1 INTEGRATING, 2 ERROR_ACTIVE, 3 ERROR_PASSIVE, 4 BUS_OFF, 5 RECOVERING. -/
def Dev.canState (d : Dev) (n : Nat) : Nat := d.fld (Reg.MB_STAT n) 6 4

/-- The controller takes part in the bus: enabled, out of INIT, error-active or error-passive. -/
def Dev.canOnBus (d : Dev) (n : Nat) : Bool :=
  d.bit (Reg.MB_CTRL n) 0 && !d.pageHeld (0x80 + n) && d.canMode n != 0 && (d.canState n == 2 || d.canState n == 3)

/-- A nominal bit in ticks: NBRP × (1 + NTSEG1 + NTSEG2) periods of 12.5 ns (R560). -/
def Dev.canBit (d : Dev) (n : Nat) : Nat :=
  let w := d.reg (Reg.MB_NBT n)
  5 * (Machine.fld 4 0 w + 1) * (1 + (Machine.fld 17 10 w + 1) + (Machine.fld 24 18 w + 1))

/-- Some recessive bits have passed since a tick. -/
def Dev.bitsPassed (d : Dev) (n since bits : Nat) : Bool := decide (since + bits * d.canBit n ≤ d.now)

/-- The frame on the bus ends; `bits` of bus idle follow before the controller may start a frame (R557, R579): the intermission,
what is left of the frame or of its error frame, and the suspend-transmission time. -/
def Dev.canQuiet (n bits : Nat) (d : Dev) : Dev := d.modCtl n (fun c => { c with quietAt := d.now, quiet := bits })

/-- No frame is being received. -/
def Dev.stopReceiving (n : Nat) (d : Dev) : Dev := (d.modCtl n (fun c => { c with rxHead := none })).setBit (Reg.MB_STAT n) 2 false

def Dev.canTec (d : Dev) (n : Nat) : Nat := d.fld (Reg.MB_ECNT n) 24 16
def Dev.canRec (d : Dev) (n : Nat) : Nat := d.fld (Reg.MB_ECNT n) 7 0

/-- The time that TSC counts, in ticks (R576): device time, or the time since EN. -/
def Dev.tscTicks (d : Dev) (n : Nat) : Nat :=
  if d.bit (Reg.MB_TSCFG n) 0 then d.devTime
  else if d.bit (Reg.MB_CTRL n) 0 then d.now - (d.ctl n).tscBase
  else 0

/-- TSC (R576): microseconds since EN, or device time divided by 400. -/
def Dev.tsc (d : Dev) (n : Nat) : Word := word (d.tscTicks n / 400)

/-- BUF_CFGb fields: role (3 acts as 0), owner, ONESHOT, OVW, FDF, BRS, RTR. -/
def Dev.bufRole (d : Dev) (n b : Nat) : Nat := let r := d.fld (Reg.MB_BUF_CFG n b) 31 30; if r = 3 then 0 else r
def Dev.bufBit (d : Dev) (n b i : Nat) : Bool := d.bit (Reg.MB_BUF_CFG n b) i

/-- A master may use a buffer (R563): Medlar where OWNER = 1, the others where it is 0; the HPB is every master's. -/
def Dev.mayUseBuf (d : Dev) (m : Master) (n b : Nat) : Bool := 64 ≤ b || (d.bufBit n b 29 == (m == .medlar))

/-- The bit of a buffer in a pair of registers. -/
def pairKey (lo hi b : Nat) : Nat := if b < 32 then lo else hi
def Dev.txPending (d : Dev) (n b : Nat) : Bool := d.bit (pairKey (Reg.MB_TXREQ0 n) (Reg.MB_TXREQ1 n) b) (b % 32)
def Dev.setTxPending (n b : Nat) (v : Bool) (d : Dev) : Dev := d.setBit (pairKey (Reg.MB_TXREQ0 n) (Reg.MB_TXREQ1 n) b) (b % 32) v
def Dev.txAborting (d : Dev) (n b : Nat) : Bool := d.bit (pairKey (Reg.MB_TXABT0 n) (Reg.MB_TXABT1 n) b) (b % 32)
def Dev.setTxAborting (n b : Nat) (v : Bool) (d : Dev) : Dev := d.setBit (pairKey (Reg.MB_TXABT0 n) (Reg.MB_TXABT1 n) b) (b % 32) v
def Dev.rxFull (d : Dev) (n b : Nat) : Bool :=
  if b < 64 then d.bit (pairKey (Reg.MB_RXFULL0 n) (Reg.MB_RXFULL1 n) b) (b % 32) else d.bit (Reg.MB_HPB_STAT n) 0
def Dev.setRxFull (n b : Nat) (v : Bool) (d : Dev) : Dev :=
  if b < 64 then d.setBit (pairKey (Reg.MB_RXFULL0 n) (Reg.MB_RXFULL1 n) b) (b % 32) v else d.setBit (Reg.MB_HPB_STAT n) 0 v

def Dev.buf (d : Dev) (n b : Nat) : CanBuf := vget {} (d.ctl n).bufs b
def Dev.setBuf (n b : Nat) (x : CanBuf) (d : Dev) : Dev := d.modCtl n (fun c => { c with bufs := vset c.bufs b x })

/-- The shadow of a buffer, with the bit that shows it. -/
def Dev.setShadow (n b : Nat) (x : Option CanBuf) (d : Dev) : Dev :=
  let d := d.modCtl n (fun c => { c with shadows := vset c.shadows b x })
  if b < 64 then d.setBit (Reg.MB_BUF_STAT n b) 22 x.isSome else d.setBit (Reg.MB_HPB_STAT n) 1 x.isSome

/-- A role change of a buffer (R582). -/
def Dev.bufRoleChange (n b : Nat) (d : Dev) : Dev :=
  let d := d.bumpGen (0x80 + n)
  d.setFld (Reg.MB_BUF_STAT n b) 15 8 (d.fld (Reg.gen (0x80 + n)) 7 0)

/-- BUF_CFGb takes a value; a change of ROLE, OWNER, FDF, BRS or RTR is a role change (R582). -/
def Dev.setBufCfg (n b : Nat) (v : Word) (d : Dev) : Dev :=
  let key := Reg.MB_BUF_CFG n b
  let v := v &&& 0xFF000000
  let changed := ((d.reg key ^^^ v) &&& 0xE7000000) != 0
  (d.setReg key v).when changed (Dev.bufRoleChange n b)

/-! ### Frames (R565, R566, R570) -/

/-- Two identifiers agree in every bit of a mask; of a base frame only the base bits exist. -/
def sameIdent (ide : Bool) (mask a b : Nat) : Bool :=
  let m := if ide then mask else mask / 2 ^ 18 * 2 ^ 18
  ((a ^^^ b) &&& m) == 0

/-- The priority filter matches (R566). -/
def Dev.prioMatch (d : Dev) (n : Nat) (f : CanFrame) : Bool :=
  let w := d.reg (Reg.MB_PRIO_ID n)
  bitAt 31 w && bitAt 30 w == f.ide && sameIdent f.ide (d.fld (Reg.MB_PRIO_MASK n) 28 0) f.ident (Machine.fld 28 0 w)

/-- Filter k matches, and names an RX buffer (R566, R587): MASK [25:0] stands for identifier bits [28:3], [2:0] are always compared. -/
def Dev.filterMatch (d : Dev) (n : Nat) (f : CanFrame) (k : Nat) : Bool :=
  let w := d.reg (Reg.MB_FLT_ID n k)
  let mask := d.fld (Reg.MB_FLT_MASK n k) 25 0 * 8 + 7
  bitAt 31 w && bitAt 30 w == f.ide && d.bufRole n (d.fld (Reg.MB_FLT_MASK n k) 31 26) == 1 && sameIdent f.ide mask f.ident (Machine.fld 28 0 w)

/-- The target of a frame: 64 for the HPB, a buffer, or none (R566). -/
def Dev.canTarget (d : Dev) (n : Nat) (f : CanFrame) : Option Nat :=
  if d.prioMatch n f then some 64
  else ((List.range 32).find? (d.filterMatch n f)).map (fun k => d.fld (Reg.MB_FLT_MASK n k) 31 26)

/-! ### Reception (R567, R568, R583, R585, R586) -/

/-- The event of a stored frame. -/
def Dev.rxEvent (n b : Nat) (d : Dev) : Dev := d.raise (0x80 + n) (if b < 64 then 7 else 6)

/-- A frame is lost to a full buffer and shadow. -/
def Dev.rxLost (n b : Nat) (d : Dev) : Dev :=
  let d := (d.raise (0x80 + n) 8).bumpSat (Reg.MB_RX_LOST_CNT n) 15 0
  d.when (b < 64) (Dev.bumpSat (Reg.MB_BUF_STAT n b) 7 0)

/-- The number of the running MBUS cycle of 12.5 ns. -/
def Dev.mbusCycle (d : Dev) : Nat := d.now / 5

/-- What a frame meets in its target as it is stored (R568). -/
def Dev.noteRx (n b : Nat) (x : CanBuf) (d : Dev) : Dev :=
  let note : RxNote :=
    { cycle := d.mbusCycle, buf := b, frame := x, old := d.buf n b, shadow := vget none (d.ctl n).shadows b, full := d.rxFull n b
      events := d.reg (Reg.evtRaw (0x80 + n)), lost := d.reg (Reg.MB_RX_LOST_CNT n), stat := d.reg (Reg.MB_BUF_STAT n b) }
  d.modCtl n (fun c => { c with rxNote := some note })

/-- A valid frame enters its target (R567). -/
def Dev.storeFrame (n b : Nat) (x : CanBuf) (d : Dev) : Dev :=
  let d := d.noteRx n b x
  if !d.rxFull n b then ((d.setBuf n b x).setRxFull n b true).rxEvent n b
  else match vget none (d.ctl n).shadows b with
    | none => (d.setShadow n b (some x)).rxEvent n b
    | some _ =>
      if b < 64 ∧ d.bufBit n b 27 = true then ((d.setShadow n b (some x)).rxLost n b).rxEvent n b
      else d.rxLost n b

/-- GEN of a target; the HPB has no role to change (R582). -/
def Dev.targetGen (d : Dev) (n b : Nat) : Nat := if b < 64 then d.fld (Reg.MB_BUF_STAT n b) 15 8 else 0

/-- The target of a frame with its GEN, at the decision (R566, R583). -/
def Dev.decideTarget (d : Dev) (n : Nat) (f : CanFrame) : Option CanTarget :=
  (d.canTarget n f).map (fun b => { buf := Fin.ofNat 65 b, gen := BitVec.ofNat 8 (d.targetGen n b) })

/-- A valid frame with the target decided for it is stored, unless the target has had a role change since (R566, R567, R583). -/
def Dev.acceptFrame (n : Nat) (f : CanFrame) (decided : Option CanTarget) (d : Dev) : Dev :=
  match decided with
  | some t =>
    if d.targetGen n t.buf.val ≠ t.gen.toNat then (d.raise (0x80 + n) 13).bumpSat (Reg.MB_ORPHAN_CNT n) 15 0
    else d.storeFrame n t.buf.val (f.stored (d.ctl n).sofTs)
  | none => d.bumpSat (Reg.MB_NOMATCH_CNT n) 15 0

/-- The frame is the reset command (R585). -/
def Dev.resetCommand (d : Dev) (n : Nat) (f : CanFrame) : Bool :=
  d.bit (Reg.MB_RCMD_CFG n) 31 && f.ide == d.bit (Reg.MB_RCMD_CFG n) 30 &&
    (if f.ide then f.ident == d.fld (Reg.MB_RCMD_ID n) 28 0 else f.ident / 2 ^ 18 == d.fld (Reg.MB_RCMD_ID n) 28 18) &&
    f.dlc == 8 && !f.remote &&
    f.bytes == wordBytes (d.reg (Reg.MB_RCMD_KEY0 n)) ++ wordBytes (d.reg (Reg.MB_RCMD_KEY1 n))

/-- The reset command acts, or is ignored while ARMED (R585, R586). -/
def Dev.resetFrame (n : Nat) (d : Dev) : Dev :=
  if d.cstate = 3 ∧ d.bit (Reg.MB_RCMD_CFG n) 28 = false then (d.raise (0x80 + n) 14).bumpSat (Reg.MB_RCMD_CNT n) 31 16
  else
    let reach : Reach := if d.bit (Reg.MB_RCMD_CFG n) 29 then .warm else .plane
    (d.bumpSat (Reg.MB_RCMD_CNT n) 15 0).assertSource .cmdCan reach

/-! ### Error states (R578, R580) -/

/-- FSTATE follows the counters. -/
def Dev.canClass (d : Dev) (n : Nat) : Nat :=
  if 255 < d.canTec n then 4 else if 128 ≤ d.canTec n ∨ 128 ≤ d.canRec n then 3 else 2

def Dev.setCanState (n v : Nat) (d : Dev) : Dev := d.setFld (Reg.MB_STAT n) 6 4 v

/-- No frame is being sent. -/
def Dev.stopSending (n : Nat) (d : Dev) : Dev := (d.modCtl n (fun c => { c with sending := none })).setBit (Reg.MB_STAT n) 3 false

/-- A request ends with a result (R573, R575): 1 DONE, 2 ARB_LOST, 3 BIT, 4 STUFF, 5 FORM, 6 ACK, 7 BUS_OFF, 8 ABORTED,
9 REASSIGNED. -/
def Dev.endRequest (n b result : Nat) (d : Dev) : Dev :=
  let d := (d.setFld (Reg.MB_BUF_STAT n b) 31 28 result).setTxPending n b false
  let d := (d.setTxAborting n b false).setBit (pairKey (Reg.MB_TXFIN0 n) (Reg.MB_TXFIN1 n) b) (b % 32) true
  d.raise (0x80 + n) (if result = 1 then 9 else 10)

/-- BUS_OFF is entered (R580, R581): pending requests with ONESHOT end, the one whose error caused the entry among them. -/
def Dev.enterBusOff (n : Nat) (d : Dev) : Dev :=
  let d := ((d.raise (0x80 + n) 5).setCanState n (if d.bit (Reg.MB_CTRL n) 20 then 5 else 4)).stopReceiving n
  let d := d.modCtl n (fun c => { c with since := d.now })
  let gone := (List.range 64).filter (fun b => d.txPending n b && d.bufBit n b 28)
  let d := each gone (fun b d => d.endRequest n b 7) d
  match (d.ctl n).sending with
  | some b => d.when (gone.contains b.val) (Dev.stopSending n)
  | none => d

/-- The state after a change of the counters. -/
def Dev.canJudge (n : Nat) (d : Dev) : Dev :=
  let new := d.canClass n
  if new = d.canState n ∨ ¬(d.canState n = 2 ∨ d.canState n = 3) then d
  else if new = 4 then d.enterBusOff n
  else (d.setCanState n new).when (new == 3) (Dev.raise (0x80 + n) 3)

/-- REC after a frame received (ISO 11898-1): one less, and from 128 on a value between 119 and 127 that the standard leaves open. -/
def Dev.recGood (n : Nat) (d : Dev) : Dev :=
  let r := d.canRec n
  (d.setFld (Reg.MB_ECNT n) 7 0 (if 127 < r then 119 + Config.recAfterPassive r % 9 else r - 1)).canJudge n

/-- A pending write of INIT takes effect at the end of the frame (R558). -/
def Dev.enterInit (n : Nat) (d : Dev) : Dev :=
  let d := ((d.stopSending n).stopReceiving n).modCtl n (fun c => { c with initPend := false })
  (d.setFld (Reg.MB_CTRL n) 18 16 0).setCanState n 0

/-- The frame on the bus has ended. -/
def Dev.frameOver (n bits : Nat) (d : Dev) : Dev := ((d.stopReceiving n).canQuiet n bits).when (d.ctl n).initPend (Dev.enterInit n)

/-- The controller is receiving a frame. -/
def Dev.receiving (d : Dev) (n : Nat) : Bool := d.bit (Reg.MB_STAT n) 2

/-- A valid frame of another node is counted, filtered and compared with the reset command (R567, R578, R585). -/
def Dev.frameValid (n : Nat) (f : CanFrame) (t : Option CanTarget) (d : Dev) : Dev :=
  let d := d.when (d.canMode n == 1) (Dev.recGood n)
  let d := d.acceptFrame n f t
  (d.frameOver n 4).when (d.resetCommand n f) (Dev.resetFrame n)

/-- CAN_FRAME_RECEIVE (R566, R567, R577, R583, R585, R586): a frame of another node reaches its SOF, the end of its arbitration field,
or the point where it is valid. -/
def execCanFrameReceive (n : Fin 4) (p : CanRxPhase) (f : CanFrame) (s : State) : Host.Outcome State Fault Refusal :=
  s.onDev (fun d =>
    let n := n.val
    if !d.canOnBus n || d.canMode n == 3 then d else
    match p with
    | .sof =>
      if d.receiving n || (d.ctl n).sending.isSome then d else
      (d.modCtl n (fun c => { c with sofTs := d.tsc n, rxHead := none })).setBit (Reg.MB_STAT n) 2 true
    | .arbitration =>
      if !d.receiving n || (d.ctl n).rxHead.isSome then d else
      d.modCtl n (fun c => { c with rxHead := some { ide := f.ide, id := f.id, target := d.decideTarget n f } })
    | .valid =>
      match (d.ctl n).rxHead with
      | some h =>
        if !d.receiving n || h.ide != f.ide || h.id != f.id || (f.fdf && !d.bit (Reg.MB_CTRL n) 19) then d else d.frameValid n f h.target
      | none => d)

/-- A buffer is released on its own (R568). -/
def Dev.releaseNow (n b : Nat) (d : Dev) : Dev :=
  if !d.rxFull n b then d else
  match vget none (d.ctl n).shadows b with
  | some x => ((d.setBuf n b x).setShadow n b none).rxEvent n b
  | none => d.setRxFull n b false

/-- A target as a note shows it before its frame was stored. -/
def Dev.undoRx (n : Nat) (r : RxNote) (d : Dev) : Dev :=
  let ev := Reg.evtRaw (0x80 + n)
  let d := (((d.setBuf n r.buf r.old).setShadow n r.buf r.shadow).setRxFull n r.buf r.full).setBit ev 8 (bitAt 8 r.events)
  let d := d.setReg (Reg.MB_RX_LOST_CNT n) r.lost
  d.when (r.buf < 64) (Dev.setFld (Reg.MB_BUF_STAT n r.buf) 7 0 (Machine.fld 7 0 r.stat))

/-- A buffer is released; before the frame that the same MBUS cycle stores to it (R568). -/
def Dev.releaseBuf (n b : Nat) (d : Dev) : Dev :=
  match (d.ctl n).rxNote with
  | some r =>
    if r.buf = b ∧ r.cycle = d.mbusCycle then ((d.undoRx n r).releaseNow n b).storeFrame n b r.frame else d.releaseNow n b
  | none => d.releaseNow n b

/-- The buffers that a word of a pair names. -/
def wordBufs (w : Nat) (v : Word) : List Nat := (setBits 32 v.toNat).map (fun i => 32 * w + i)

/-- A write to bits of a pair of registers: each bit of a buffer that the master may use acts; the others are discarded with one
ACCESS_ERR. -/
def Dev.bufBits (m : Master) (n key w : Nat) (v : Word) (ok : Nat → Bool) (act : Nat → Dev → Dev) (d : Dev) : Dev :=
  let bs := wordBufs w v
  let d' := each (bs.filter (fun b => d.mayUseBuf m n b && ok b)) act d
  d'.when (bs.any (fun b => !(d.mayUseBuf m n b && ok b))) (Dev.discard m key)

/-- The register of RX_RELEASE: RXFULL0, RXFULL1 or HPB_STAT. -/
def releaseKey (n w : Nat) : Nat := if w = 0 then Reg.MB_RXFULL0 n else if w = 1 then Reg.MB_RXFULL1 n else Reg.MB_HPB_STAT n

def Dev.rxReleaseOp (m : Master) (n w : Nat) (v : Word) (d : Dev) : Dev :=
  if w < 2 then d.bufBits m n (releaseKey n w) w v (fun _ => true) (Dev.releaseBuf n)
  else d.when (bitAt 0 v) (Dev.releaseBuf n 64)

/-- RX_RELEASE (R568). -/
def execRxRelease (m : Master) (n : Fin 4) (w : Fin 3) (v : Word) (s : State) : Host.Outcome State Fault Refusal :=
  s.onDev (fun d => d.accessWrite m (releaseKey n.val w.val) v (Dev.rxReleaseOp m n.val w.val v))

/-! ### Transmission (R571 to R577, R584) -/

/-- A write of TXREQ (R571). -/
def Dev.txReqOp (m : Master) (n w : Nat) (v : Word) (d : Dev) : Dev :=
  d.bufBits m n (pairKey (Reg.MB_TXREQ0 n) (Reg.MB_TXREQ1 n) (32 * w)) w v
    (fun b => d.bufRole n b == 2 && !d.txPending n b) (fun b d => d.setTxPending n b true)

/-- TXREQ (R571). -/
def execTxreq (m : Master) (n : Fin 4) (w : Fin 2) (v : Word) (s : State) : Host.Outcome State Fault Refusal :=
  s.onDev (fun d => d.accessWrite m (pairKey (Reg.MB_TXREQ0 n.val) (Reg.MB_TXREQ1 n.val) (32 * w.val)) v (Dev.txReqOp m n.val w.val v))

/-- The buffer is in arbitration or transmission. -/
def Dev.isSending (d : Dev) (n b : Nat) : Bool :=
  match (d.ctl n).sending with
  | some k => k.val == b
  | none => false

/-- A pending request is cancelled, at once or when its frame ends (R574). -/
def Dev.abortTx (n b : Nat) (d : Dev) : Dev :=
  if !d.txPending n b then d
  else if d.isSending n b then d.setTxAborting n b true
  else d.endRequest n b 8

/-- A write of TXABT (R574). -/
def Dev.txAbtOp (m : Master) (n w : Nat) (v : Word) (d : Dev) : Dev :=
  d.bufBits m n (pairKey (Reg.MB_TXABT0 n) (Reg.MB_TXABT1 n) (32 * w)) w v (fun _ => true) (Dev.abortTx n)

/-- TXABT (R574). -/
def execTxabt (m : Master) (n : Fin 4) (w : Fin 2) (v : Word) (s : State) : Host.Outcome State Fault Refusal :=
  s.onDev (fun d => d.accessWrite m (pairKey (Reg.MB_TXABT0 n.val) (Reg.MB_TXABT1 n.val) (32 * w.val)) v (Dev.txAbtOp m n.val w.val v))

/-- The arbitration field of a buffer's frame as a number: the lower wins (ISO 11898-1): base identifier, RTR or SRR, IDE, the
extension, and the RTR of an extended frame. -/
def Dev.arbKey (d : Dev) (n b : Nat) : Nat :=
  let w := (d.buf n b).id
  let rtr := b2n (d.bufBit n b 24 && !d.bufBit n b 26)
  if bitAt 30 w then ((Machine.fld 28 18 w * 2 + 1) * 2 + 1) * 2 ^ 19 + Machine.fld 17 0 w * 2 + rtr
  else (Machine.fld 28 18 w * 2 + rtr) * 2 * 2 ^ 19

/-- The request that wins the selection (R572). -/
def Dev.txSelect (d : Dev) (n : Nat) : Option Nat :=
  ((List.range 64).filter (fun b => d.txPending n b && d.bufRole n b == 2)).foldl (fun o b =>
    match o with
    | none => some b
    | some a => if d.arbKey n b < d.arbKey n a then some b else some a) none

/-- The bus is free for the controller's own frame: none is on it, and the intermission, and the suspend-transmission time where it
applies, have passed (R557, R579). -/
def Dev.canFree (d : Dev) (n : Nat) : Bool :=
  !(d.ctl n).sending.isSome && !d.receiving n && d.bitsPassed n (d.ctl n).quietAt (d.ctl n).quiet

/-- TRANSMISSION_START (R572, R577, R579). -/
def execTransmissionStart (n : Fin 4) (s : State) : Host.Outcome State Fault Refusal :=
  s.onDev (fun d =>
    if !d.canOnBus n.val || d.canMode n.val == 2 || !d.canFree n.val then d else
    match d.txSelect n.val with
    | some b =>
      if h : b < 64 then
        (d.modCtl n.val (fun c => { c with sending := some ⟨b, h⟩, sofTs := d.tsc n.val })).setBit (Reg.MB_STAT n.val) 3 true
      else d
    | none => d)

/-- The frame that a buffer sends (R565, R570). -/
def Dev.txFrame (d : Dev) (n b : Nat) : CanFrame :=
  let x := d.buf n b
  { ide := bitAt 30 x.id, fdf := d.bufBit n b 26, brs := d.bufBit n b 25, esi := d.canState n == 3, rtr := d.bufBit n b 24,
    id := BitVec.ofNat 29 (Machine.fld 28 0 x.id), dlc := Fin.ofNat 16 (Machine.fld 19 16 x.info),
    data := x.data.toList.flatMap wordBytes }

/-- A held value of BUF_CFG takes effect (R584). -/
def Dev.applyHeld (n b : Nat) (d : Dev) : Dev :=
  match vget none (d.ctl n).held b with
  | some v => ((d.modCtl n (fun c => { c with held := vset c.held b none })).setBit (Reg.MB_BUF_STAT n b) 23 false).setBufCfg n b v
  | none => d

/-- TEC after a frame sent (ISO 11898-1). -/
def Dev.tecGood (n : Nat) (d : Dev) : Dev := (d.setFld (Reg.MB_ECNT n) 24 16 (d.canTec n - 1)).canJudge n

/-- The bits after an own attempt before the next (R579): the intermission, after an error its flag and delimiter too, and 8 more in the
error-passive state. -/
def Dev.afterOwn (d : Dev) (n : Nat) (o : TxOutcome) : Nat := (if o = .done then 3 else 17) + (if d.canState n = 3 then 8 else 0)

/-- The attempt is over: a frame that won the arbitration is received from here on (R579), any other end frees the bus. -/
def Dev.attemptOver (n : Nat) (o : TxOutcome) (d : Dev) : Dev :=
  if o = .arbLost then d.setBit (Reg.MB_STAT n) 2 (d.canOnBus n) else d.frameOver n (d.afterOwn n o)

/-- CAN_TX_END (R562, R573 to R575, R577, R584): the attempt of the buffer in transmission ends. -/
def execCanTxEnd (n : Fin 4) (o : TxOutcome) (tdcv : BitVec 7) (s : State) : Host.Outcome State Fault Refusal :=
  s.onDev (fun d =>
    match (d.ctl n.val).sending with
    | none => d
    | some b =>
      let f := d.txFrame n.val b.val
      let d := d.stopSending n.val
      let d := d.when (f.fdf && d.bit (Reg.MB_TDC n.val) 31 && d.canMode n.val == 1 && o != .arbLost) (Dev.setFld (Reg.MB_TDC n.val) 6 0 tdcv.toNat)
      let held := (vget none (d.ctl n.val).held b.val).isSome
      let d :=
        if o = .done then
          let d := d.tecGood n.val
          let d := d.setBuf n.val b.val { d.buf n.val b.val with ts := (d.ctl n.val).sofTs }
          let d := d.endRequest n.val b.val 1
          d.when (d.canMode n.val == 3) (Dev.acceptFrame n.val f (d.decideTarget n.val f))
        else if held then d.endRequest n.val b.val 9
        else if d.txAborting n.val b.val then d.endRequest n.val b.val 8
        else if d.bufBit n.val b.val 28 then d.endRequest n.val b.val o.code
        else d.setFld (Reg.MB_BUF_STAT n.val b.val) 31 28 o.code
      (d.applyHeld n.val b.val).attemptOver n.val o)

/-! ### Errors and recovery (R578, R580, R581) -/

/-- The error counters after a case of an error (R578). -/
def Dev.countError (n : Nat) (c : CanErrorCase) (d : Dev) : Dev :=
  let sending := (d.ctl n).sending.isSome
  let add := c.adds sending
  (if sending then d.addSat (Reg.MB_ECNT n) 24 16 add else d.addSat (Reg.MB_ECNT n) 7 0 add).canJudge n

/-- PROT_ERR and ERRLOG of a detected error (R578). -/
def Dev.logError (n : Nat) (e : CanError) (dataPhase : Bool) (d : Dev) : Dev :=
  let log := Reg.MB_ERRLOG n
  ((((d.raise (0x80 + n) 2).setBit log 31 true).setFld log 26 24 e.code).setBit log 20 dataPhase).bumpSat log 15 0

/-- CAN_BUS_ERROR (R578): an error is detected or goes on, in the frame that the controller sends or receives. -/
def execCanBusError (n : Fin 4) (e : CanError) (c : CanErrorCase) (dataPhase : Bool) (s : State) : Host.Outcome State Fault Refusal :=
  s.onDev (fun d =>
    let n := n.val
    if !d.canOnBus n then d else
    let d := d.when c.detected (Dev.logError n e dataPhase)
    let d := d.when (d.canMode n != 2) (Dev.countError n c)
    d.when ((d.ctl n).sending.isNone && d.canOnBus n) (Dev.frameOver n 17))

/-- A write of MBn.CMD (R581). -/
def Dev.canCmdOp (n : Nat) (v : Word) (d : Dev) : Dev :=
  if Machine.fld 7 0 v = 1 ∧ d.canState n = 4 then (d.setCanState n 5).modCtl n (fun c => { c with since := d.now })
  else d.raise (0x80 + n) 15

/-- RECOVER (R581). -/
def execRecover (m : Master) (n : Fin 4) (s : State) : Host.Outcome State Fault Refusal :=
  s.onDev (fun d => d.accessWrite m (Reg.MB_CMD n.val) 1 (Dev.canCmdOp n.val 1))

/-- RECOVERED (R581): 128 occurrences of 11 recessive bits have passed. -/
def execRecovered (n : Fin 4) (s : State) : Host.Outcome State Fault Refusal :=
  s.onDev (fun d =>
    if d.canState n.val = 5 ∧ d.pageHeld (0x80 + n.val) = false ∧ d.bitsPassed n.val (d.ctl n.val).since 1408 = true then
      ((d.setReg (Reg.MB_ECNT n.val) 0).setCanState n.val 2).raise (0x80 + n.val) 4
    else d)

/-! ### Modes (R557 to R561) -/

/-- The settings bar the exit from INIT (R561). -/
def Dev.canCfgBad (d : Dev) (n : Nat) : Bool :=
  let nb := d.reg (Reg.MB_NBT n)
  let db := d.reg (Reg.MB_DBT n)
  let fd := d.bit (Reg.MB_CTRL n) 19
  let nq := (Machine.fld 4 0 nb + 1) * (1 + (Machine.fld 17 10 nb + 1) + (Machine.fld 24 18 nb + 1))
  let dq := (Machine.fld 4 0 db + 1) * (1 + (Machine.fld 12 8 db + 1) + (Machine.fld 19 16 db + 1))
  decide (nq < 80) || (fd && decide (dq < 10)) || decide (Machine.fld 24 18 nb < Machine.fld 31 25 nb) || decide (Machine.fld 19 16 db < Machine.fld 27 24 db) ||
    decide (Machine.fld 17 10 nb + 1 < 2) || (fd && decide (dq < 80) && !d.bit (Reg.MB_TDC n) 31)

/-- A write of MODE (R557, R558, R561): out of INIT the controller integrates, or stays off the bus with TEC above 255. -/
def Dev.canSetMode (m : Master) (n new : Nat) (d : Dev) : Dev :=
  let key := Reg.MB_CTRL n
  let eff := if new < 4 then new else 0
  let cur := d.canMode n
  if cur = 0 then
    (if eff = 0 then d.setFld key 18 16 new
     else if d.canCfgBad n then (d.setBit (Reg.MB_STAT n) 7 true).raise (0x80 + n) 11
     else
       let st := if 255 < d.canTec n then (if d.bit key 20 then 5 else 4) else 1
       (((d.setFld key 18 16 new).setBit (Reg.MB_STAT n) 7 false).setCanState n st).modCtl n (fun c => { c with since := d.now }))
  else if eff = cur then d
  else if eff ≠ 0 then d.discard m key
  else if ((d.ctl n).sending.isSome ∨ d.receiving n = true) ∧ (d.canState n = 2 ∨ d.canState n = 3) then d.modCtl n (fun c => { c with initPend := true })
  else d.enterInit n

/-- A write of MBn.CTRL (R559, R587) but for SRST: FDEN changes and EN clears only in INIT. -/
def Dev.canCtrlOp (m : Master) (n : Nat) (v : Word) (d : Dev) : Dev :=
  let key := Reg.MB_CTRL n
  let init := d.canMode n == 0
  let d := d.setBit key 20 (bitAt 20 v)
  let d := if bitAt 19 v == d.bit key 19 then d else if init then d.setBit key 19 (bitAt 19 v) else d.discard m key
  let d := if bitAt 0 v == d.bit key 0 then d
    else if bitAt 0 v then (d.setBit key 0 true).modCtl n (fun c => { c with tscBase := d.now })
    else if init then d.setBit key 0 false
    else d.discard m key
  d.canSetMode m n (Machine.fld 18 16 v)

/-- A write of NBT, DBT or TDC: only in INIT (R559). -/
def Dev.canTimingOp (m : Master) (n key : Nat) (v mask : Word) (d : Dev) : Dev :=
  if d.canMode n = 0 then d.setReg key ((d.reg key &&& ~~~ mask) ||| (v &&& mask)) else d.discard m key

/-- A mode command: CTRL as it stands with MODE replaced. -/
def Dev.canModeCmd (m : Master) (n mode : Nat) (d : Dev) : Dev :=
  let v := put 18 16 mode (d.reg (Reg.MB_CTRL n))
  d.accessWrite m (Reg.MB_CTRL n) v (Dev.canCtrlOp m n v)

/-- INIT (R557, R558). -/
def execInit (m : Master) (n : Fin 4) (s : State) : Host.Outcome State Fault Refusal := s.onDev (Dev.canModeCmd m n.val 0)
/-- NORMAL (R557, R561). -/
def execNormal (m : Master) (n : Fin 4) (s : State) : Host.Outcome State Fault Refusal := s.onDev (Dev.canModeCmd m n.val 1)
/-- LISTEN (R557, R561). -/
def execListen (m : Master) (n : Fin 4) (s : State) : Host.Outcome State Fault Refusal := s.onDev (Dev.canModeCmd m n.val 2)
/-- LOOPBACK (R557, R561). -/
def execLoopback (m : Master) (n : Fin 4) (s : State) : Host.Outcome State Fault Refusal := s.onDev (Dev.canModeCmd m n.val 3)

/-- BUS_INTEGRATED (R557): 11 consecutive recessive bits have passed. -/
def execBusIntegrated (n : Fin 4) (s : State) : Host.Outcome State Fault Refusal :=
  s.onDev (fun d => d.when (d.canState n.val == 1 && d.bit (Reg.MB_CTRL n.val) 0 && !d.pageHeld (0x80 + n.val) &&
    d.bitsPassed n.val (d.ctl n.val).since 11) (Dev.setCanState n.val (d.canClass n.val)))

/-! ### Buffers, filters and windows (R563, R564, R582, R584) -/

/-- A write of BUF_CFGb: Medlar's buffers are Medlar's alone; a pending request ends or holds the value (R584). -/
def Dev.bufCfgOp (m : Master) (n b : Nat) (v : Word) (d : Dev) : Dev :=
  if d.bufBit n b 29 && m != .medlar then d.discard m (Reg.MB_BUF_CFG n b)
  else if d.bufRole n b == 2 && d.txPending n b then
    (if d.isSending n b then
      (d.modCtl n (fun c => { c with held := vset c.held b (some v) })).setBit (Reg.MB_BUF_STAT n b) 23 true
     else (d.setBufCfg n b v).endRequest n b 9)
  else d.setBufCfg n b v

/-- BUF_CFG_WRITE (R582, R584). -/
def execBufCfgWrite (m : Master) (n : Fin 4) (b : Fin 64) (v : Word) (s : State) : Host.Outcome State Fault Refusal :=
  s.onDev (fun d => d.accessWrite m (Reg.MB_BUF_CFG n.val b.val) v (Dev.bufCfgOp m n.val b.val v))

/-- The two words of a filter. -/
def filterKey (n f : Nat) (maskWord : Bool) : Nat := if maskWord then Reg.MB_FLT_MASK n f else Reg.MB_FLT_ID n f

/-- A write of a filter: discarded where its BUF names a buffer that the master may not use; a change is a role change of the
buffers named before and after it (R563, R582). -/
def Dev.filterOp (m : Master) (n f : Nat) (maskWord : Bool) (v : Word) (d : Dev) : Dev :=
  let key := filterKey n f maskWord
  let before := d.fld (Reg.MB_FLT_MASK n f) 31 26
  if d.bufBit n before 29 && m != .medlar then d.discard m key else
  let v := if maskWord then v else v &&& 0xDFFFFFFF
  let changed := v != d.reg key
  let d := d.setReg key v
  let after := d.fld (Reg.MB_FLT_MASK n f) 31 26
  (d.when changed (Dev.bufRoleChange n before)).when (changed && after != before) (Dev.bufRoleChange n after)

/-- FILTER_WRITE (R582). -/
def execFilterWrite (m : Master) (n : Fin 4) (f : Fin 32) (maskWord : Bool) (v : Word) (s : State) : Host.Outcome State Fault Refusal :=
  s.onDev (fun d => d.accessWrite m (filterKey n.val f.val maskWord) v (Dev.filterOp m n.val f.val maskWord v))

/-- The registers of window w: SEL, ID, INFO, TS, DATA (R587). -/
def winKey (n w off : Nat) : Nat := Reg.MB_WIN0_SEL n + 0x80 * w + off

/-- A master may write window w: window 1 is Medlar's alone (R564). -/
def mayUseWindow (m : Master) (w : Nat) : Bool := w == 0 || m == .medlar

/-- The buffer that a window shows: 64 for the HPB and every value above. -/
def Dev.winBuf (d : Dev) (n w : Nat) : Nat := Nat.min (d.fld (winKey n w 0) 6 0) 64

/-- A write of WINw_SEL (R564). -/
def Dev.winSelOp (m : Master) (n w : Nat) (v : Word) (d : Dev) : Dev :=
  if mayUseWindow m w then d.setReg (winKey n w 0) (v &&& 0x7F) else d.discard m (winKey n w 0)

/-- WINDOW_SELECT (R564). -/
def execWindowSelect (m : Master) (n : Fin 4) (w : Fin 2) (v : Word) (s : State) : Host.Outcome State Fault Refusal :=
  s.onDev (fun d => d.accessWrite m (winKey n.val w.val 0) v (Dev.winSelOp m n.val w.val v))

/-- A write through a window: words of a TX buffer that the master may use, with no request and no reassignment pending (R564). -/
def Dev.winWriteOp (m : Master) (n w off : Nat) (v : Word) (d : Dev) : Dev :=
  let b := d.winBuf n w
  if !(mayUseWindow m w && decide (b < 64) && d.mayUseBuf m n b && d.bufRole n b == 2 && !d.txPending n b &&
      !d.bit (Reg.MB_BUF_STAT n b) 23) then d.discard m (winKey n w off)
  else
    let x := d.buf n b
    if off = 4 then d.setBuf n b { x with id := v &&& 0x5FFFFFFF }
    else if off = 8 then d.setBuf n b { x with info := (x.info &&& ~~~ (0xF0000 : Word)) ||| (v &&& 0xF0000) }
    else if 0x10 ≤ off then d.setBuf n b { x with data := vset x.data ((off - 0x10) / 4) v }
    else d

/-- What a window register reads. -/
def Dev.winRead (d : Dev) (n w off : Nat) : Word :=
  let x := d.buf n (d.winBuf n w)
  if off = 0 then d.reg (winKey n w 0)
  else if off = 4 then x.id
  else if off = 8 then x.info
  else if off = 0xC then x.ts
  else vget 0 x.data ((off - 0x10) / 4)

/-- TSC has passed from 0xFFFF_FFFF to 0 with the latest step of the time it counts, which is of 1 tick, or 2 of device time. -/
def Dev.tscWraps (d : Dev) (n : Nat) : Bool :=
  let t := d.tscTicks n
  decide (400 * 2 ^ 32 ≤ t) && (t % (400 * 2 ^ 32) == 0 || (d.bit (Reg.MB_TSCFG n) 0 && t % (400 * 2 ^ 32) == 1))

/-- TS_WRAP (R576). -/
def execTsWrap (n : Fin 4) (s : State) : Host.Outcome State Fault Refusal :=
  s.onDev (fun d => d.when (!d.pageHeld (0x80 + n.val) && d.tscWraps n.val) (Dev.raise (0x80 + n.val) 12))

end Sys2Proof.Machine
end

