-- ==== Sys2Proof/Machine/CrcUnit.lean ====
section
/-!
DEFINITION. The check-value units (spec/17): their algorithm, feeding by DMA and by data writes, the compare, and claims.
-/

namespace Sys2Proof.Machine

/-- The parameters that CFG selects (R588, R589); PRESET 5 to 7 act as 0. -/
def Dev.crcParams (d : Dev) (n : Nat) : CrcParams :=
  let c := d.reg (Reg.CRC_CFG n)
  match Machine.fld 2 0 c with
  | 1 => crc32Params
  | 2 => crc32cParams
  | 3 => crc16Params
  | 4 => crc8Params
  | _ =>
    let w := Machine.fld 28 24 c + 1
    { width := w, poly := (d.reg (Reg.CRC_POLY n)).toNat % 2 ^ w, init := (d.reg (Reg.CRC_INIT n)).toNat,
      xorOut := (d.reg (Reg.CRC_XOROUT n)).toNat, refIn := bitAt 17 c, refOut := bitAt 18 c }

/-- RUN, held in the width of the algorithm (R590). -/
def Dev.crcRun (d : Dev) (n : Nat) : Nat := (d.reg (Reg.CRC_RUN n)).toNat % 2 ^ (d.crcParams n).width

/-- RESULT (R590). -/
def Dev.crcResult (d : Dev) (n : Nat) : Word := word (Machine.crcResult (d.crcParams n) (d.crcRun n))

def Dev.crcBusy (d : Dev) (n : Nat) : Bool := d.bit (Reg.CRC_STAT n) 0
def Dev.crcOn (d : Dev) (n : Nat) : Bool := d.bit (Reg.CRC_CTRL n) 0

/-- Bytes fed (R592). -/
def Dev.crcFeed (n : Nat) (bs : List Byte) (d : Dev) : Dev :=
  let r := Machine.crcFeed (d.crcParams n) (d.crcRun n) bs
  (d.setReg (Reg.CRC_RUN n) (word r)).setReg (Reg.CRC_BYTES n) (d.reg (Reg.CRC_BYTES n) + word bs.length)

/-- The bytes that a DMA run has read `k` ticks after its start: the spec gives no pace (log entry 100). -/
def dmaBytes (n start : Nat) : Nat → Nat
  | 0 => 0
  | k + 1 => dmaBytes n start k + Config.dmaStep n (start + k)

/-- A compare (R596): RESULT with EXP in the width of the algorithm. -/
def Dev.crcCompare (n : Nat) (d : Dev) : Dev :=
  let same : Bool := (d.crcResult n).toNat == (d.reg (Reg.CRC_EXP n)).toNat % 2 ^ (d.crcParams n).width
  ((d.setBit (Reg.CRC_STAT n) 3 true).setBit (Reg.CRC_STAT n) 4 same).when (!same) (Dev.raise (0x88 + n) 3)

/-- A DMA run completes (R593). -/
def Dev.crcComplete (n : Nat) (d : Dev) : Dev :=
  ((d.setBit (Reg.CRC_STAT n) 0 false).raise (0x88 + n) 0).when (d.bit (Reg.CRC_CMP n) 0) (Dev.crcCompare n)

/-- A command is refused (R600). -/
def Dev.crcRefuse (n : Nat) (d : Dev) : Dev := d.raise (0x88 + n) 4

/-- INIT (R590). -/
def Dev.crcInitNow (n : Nat) (d : Dev) : Dev :=
  let d := (d.setReg (Reg.CRC_RUN n) (word (Machine.crcInit (d.crcParams n)))).setReg (Reg.CRC_BYTES n) 0
  (d.setBit (Reg.CRC_STAT n) 3 false).setBit (Reg.CRC_STAT n) 2 false

/-- The bytes of a run that the access table permits, up to the first that it does not (R594). -/
def Dev.crcReadable (d : Dev) (n : Fin 4) : Nat :=
  let src := (d.reg (Reg.CRC_SRC n.val)).toNat
  let len := d.fld (Reg.CRC_LEN n.val) 23 0
  ((List.range len).find? (fun i => !d.mayAccess (.crc n) false (src + i))).getD len

/-- The bytes that the run under way has fed. -/
def Dev.crcFed (d : Dev) (n : Fin 4) : Nat :=
  let start := (vget {} d.crcs n.val).startAt
  Nat.min (dmaBytes n.val start (d.now - start)) (d.crcReadable n)

/-- The registers of a unit as a run under way shows them: its bytes fed so far (R595). -/
def Dev.crcNow (n : Fin 4) (d : Dev) : Dev :=
  let src := (d.reg (Reg.CRC_SRC n.val)).toNat
  if d.crcBusy n.val then d.crcFeed n.val (d.bytesAt src (d.crcFed n)) else d

/-- ABORT (R595). -/
def Dev.crcAbortNow (n : Fin 4) (d : Dev) : Dev :=
  ((((d.touchAt (d.reg (Reg.CRC_SRC n.val)).toNat).crcNow n).setBit (Reg.CRC_STAT n.val) 0 false)).raise (0x88 + n.val) 1

/-- A write of CRCn.CMD that its claim lets pass (R590, R593, R595, R596, R600). -/
def Dev.crcCmdOp (n : Fin 4) (code : Nat) (d : Dev) : Dev :=
  let i := n.val
  if !d.crcOn i then d.crcRefuse i
  else if code = 1 then (if d.crcBusy i then d.crcRefuse i else d.crcInitNow i)
  else if code = 2 then
    (if d.crcBusy i then d.crcRefuse i
     else if d.fld (Reg.CRC_LEN i) 23 0 = 0 then d.crcComplete i
     else (d.setBit (Reg.CRC_STAT i) 0 true).modCrc i (fun x => { x with startAt := d.now }))
  else if code = 3 then (if d.crcBusy i then d.crcAbortNow n else d.crcRefuse i)
  else if code = 4 then (if d.crcBusy i then d.crcRefuse i else d.crcCompare i)
  else d.crcRefuse i

/-! ### Claims (R598) -/

/-- Another master holds the unit. -/
def Dev.crcBarred (d : Dev) (m : Master) (n : Nat) : Bool :=
  d.bit (Reg.CRC_CLAIM n) 0 && d.fld (Reg.CRC_CLAIM n) 15 8 != masterCode m

/-- A write to a register of the unit, discarded where another master holds it. -/
def Dev.crcGuard (m : Master) (n key : Nat) (op : Dev → Dev) (d : Dev) : Dev := if d.crcBarred m n then d.discard m key else op d

/-- A claim or a release. -/
def Dev.crcClaimOp (m : Master) (n : Nat) (v : Word) (d : Dev) : Dev :=
  let held := d.bit (Reg.CRC_CLAIM n) 0
  if bitAt 0 v then
    (if held then d else (d.setReg (Reg.CRC_CLAIM n) (place 15 8 (masterCode m) ||| 1)).setBit (Reg.CRC_STAT n) 1 true)
  else if held then (d.setBit (Reg.CRC_CLAIM n) 0 false).setBit (Reg.CRC_STAT n) 1 false
  else d

/-- A command of a unit written to CMD. -/
def Dev.crcCommand (m : Master) (n : Fin 4) (code : Nat) (d : Dev) : Dev :=
  d.accessWrite m (Reg.CRC_CMD n.val) (word code) (Dev.crcGuard m n.val (Reg.CRC_CMD n.val) (Dev.crcCmdOp n code))

/-- CRC_INIT (R590). -/
def execCrcInit (m : Master) (n : Fin 4) (s : State) : Host.Outcome State Fault Refusal := s.onDev (Dev.crcCommand m n 1)
/-- CRC_START (R593). -/
def execCrcStart (m : Master) (n : Fin 4) (s : State) : Host.Outcome State Fault Refusal := s.onDev (Dev.crcCommand m n 2)
/-- CRC_ABORT (R595). -/
def execCrcAbort (m : Master) (n : Fin 4) (s : State) : Host.Outcome State Fault Refusal := s.onDev (Dev.crcCommand m n 3)
/-- CHECK (R596). -/
def execCheck (m : Master) (n : Fin 4) (s : State) : Host.Outcome State Fault Refusal := s.onDev (Dev.crcCommand m n 4)

/-- A run's end (R593, R594): all of its bytes fed and DONE, or those before the first refused read, with ERR and DMA_ERR. -/
def Dev.crcRunEnd (n : Fin 4) (d : Dev) : Dev :=
  let i := n.val
  let src := (d.reg (Reg.CRC_SRC i)).toNat
  let len := d.fld (Reg.CRC_LEN i) 23 0
  let k := d.crcReadable n
  let d := (d.touchAt src).crcFeed i (d.bytesAt src k)
  if k = len then d.crcComplete i
  else
    let a := src + k
    let d := match regionOf a with
      | .page p _ => if d.pageHeld p then d.refuseSys (.crc n) a false else d.refuse (.crc n) p a false
      | _ => d.refuseSys (.crc n) a false
    ((d.setBit (Reg.CRC_STAT i) 0 false).setBit (Reg.CRC_STAT i) 2 true).raise (0x88 + i) 2

/-- CRC_DMA_DONE (R593): the run ends as the access table has it. -/
def execCrcDmaDone (n : Fin 4) (s : State) : Host.Outcome State Fault Refusal :=
  s.onDev (fun d => d.when (d.crcBusy n.val && !d.pageHeld (0x88 + n.val)) (Dev.crcRunEnd n))

/-- CRC_DMA_REFUSED (R594): a run that meets a refused read ends there; where every read is permitted none is refused. -/
def execCrcDmaRefused (n : Fin 4) (s : State) : Host.Outcome State Fault Refusal :=
  s.onDev (fun d =>
    d.when (d.crcBusy n.val && !d.pageHeld (0x88 + n.val) && d.crcReadable n != d.fld (Reg.CRC_LEN n.val) 23 0) (Dev.crcRunEnd n))

/-- A data write (R592). -/
def Dev.crcDataOp (m : Master) (n key : Nat) (bs : List Byte) (d : Dev) : Dev :=
  if d.crcOn n && !d.crcBusy n then (d.crcFeed n bs).modCrc n (fun x => { x with fedAt := some d.now }) else d.discard m key

/-- DIN (R592). -/
def execDin (m : Master) (n : Fin 4) (v : Word) (s : State) : Host.Outcome State Fault Refusal :=
  s.onDev (fun d => d.accessWrite m (Reg.CRC_DIN n.val) v
    (Dev.crcGuard m n.val (Reg.CRC_DIN n.val) (Dev.crcDataOp m n.val (Reg.CRC_DIN n.val) (wordBytes v))))

/-- DIN_B (R592). -/
def execDinB (m : Master) (n : Fin 4) (v : Word) (s : State) : Host.Outcome State Fault Refusal :=
  s.onDev (fun d => d.accessWrite m (Reg.CRC_DIN_B n.val) v
    (Dev.crcGuard m n.val (Reg.CRC_DIN_B n.val) (Dev.crcDataOp m n.val (Reg.CRC_DIN_B n.val) [v.setWidth 8])))

/-- A write of a register that a run bars (R600). -/
def Dev.crcSetOp (m : Master) (n key : Nat) (v : Word) (d : Dev) : Dev :=
  if d.crcBusy n then d.discard m key else d.setReg key v

/-- A write of RUN (R591). -/
def Dev.crcRunOp (m : Master) (n : Nat) (v : Word) (d : Dev) : Dev :=
  d.crcSetOp m n (Reg.CRC_RUN n) (word (v.toNat % 2 ^ (d.crcParams n).width))

/-- CRC_RUN_WRITE (R591). -/
def execCrcRunWrite (m : Master) (n : Fin 4) (v : Word) (s : State) : Host.Outcome State Fault Refusal :=
  s.onDev (fun d => d.accessWrite m (Reg.CRC_RUN n.val) v (Dev.crcGuard m n.val (Reg.CRC_RUN n.val) (Dev.crcRunOp m n.val v)))

/-- CLAIM (R598). -/
def execClaim (m : Master) (n : Fin 4) (v : Word) (s : State) : Host.Outcome State Fault Refusal :=
  s.onDev (fun d => d.accessWrite m (Reg.CRC_CLAIM n.val) v (Dev.crcGuard m n.val (Reg.CRC_CLAIM n.val) (Dev.crcClaimOp m n.val v)))

/-- EN of a unit: cleared only while no run is under way (R603). -/
def Dev.crcEnOp (m : Master) (n : Nat) (v : Word) (d : Dev) : Dev :=
  if !bitAt 0 v && d.crcBusy n then d.discard m (Reg.CRC_CTRL n) else d.setBit (Reg.CRC_CTRL n) 0 (bitAt 0 v)

end Sys2Proof.Machine
end

