-- ==== Sys2Proof/Machine/Image.lean ====
section
/-!
DEFINITION. The boot header and the configuration image: their layouts, and the checks of an image in the order of R145 (R109,
R140 to R145, R152, R671, R672).
-/

namespace Sys2Proof.Machine

/-- `n` bytes at an offset as a number, least significant first. -/
def natIn (bs : List Byte) (o n : Nat) : Nat := natOfBytes ((bs.drop o).take n)

/-! ### Boot header (R109) -/

/-- Offset and length of a region of the flash. -/
structure BootHeader where
  valid   : Bool
  fw      : Nat
  fwLen   : Nat
  slotA   : Nat
  slotB   : Nat
  journal : Nat
  journalLen : Nat
  deriving DecidableEq, Repr

/-- The boot header as the flash holds it: MAGIC "CXBH" and its CRC-32 make it valid. -/
def Dev.bootHeader (d : Dev) : BootHeader :=
  let h := d.flashBytes 0 32
  { valid := natIn h 0 4 == 0x48425843 && crcOf crc32Params (h.take 28) == natIn h 28 4
    fw := natIn h 4 4, fwLen := natIn h 8 4, slotA := natIn h 12 4, slotB := natIn h 16 4
    journal := natIn h 20 4, journalLen := natIn h 24 4 }

/-- The end of the flash (R671): by the density that its JESD216 table gives, 16 MB where it gives no valid table. -/
def Dev.flashEnd (d : Dev) : Nat := d.flashSize.getD 0x1000000

/-- The size of a slot (R671): to the lowest start above it among the regions, else to the end of the flash. -/
def BootHeader.slotSize (h : BootHeader) (flashEnd start : Nat) : Nat :=
  match [h.fw, h.slotA, h.slotB, h.journal].filter (fun x => start < x) with
  | [] => flashEnd - start
  | x :: rest => rest.foldl Nat.min x - start

/-! ### Image layout (R140, R141, R144) -/

/-- A section: its header fields and payload. -/
structure Section where
  kind    : Nat
  inst    : Nat
  addr    : Nat
  crc     : Nat
  payload : List Byte
  deriving DecidableEq, Repr

/-- Fields of the image header. -/
def imageLength (bs : List Byte) : Nat := natIn bs 8 4
def imageSequence (bs : List Byte) : Word := wordIn bs 0xC
def imageSigned (bs : List Byte) : Bool := bitAt 0 (wordIn bs 0x10)
def imageAutoCommit (bs : List Byte) : Bool := bitAt 1 (wordIn bs 0x10)
def imageRemoteArm (bs : List Byte) : Bool := bitAt 2 (wordIn bs 0x10)
def imageCommitCrc (bs : List Byte) : Word := wordIn bs 0x14
def imageCount (bs : List Byte) : Nat := natIn bs 6 2

/-- Where the trailer begins. -/
def imageTrailer (bs : List Byte) : Nat := imageLength bs - (if imageSigned bs then 68 else 4)

/-- The section whose header stands at an offset. -/
def sectionAt (bs : List Byte) (o : Nat) : Section :=
  { kind := natIn bs o 2, inst := natIn bs (o + 2) 2, addr := natIn bs (o + 8) 4, crc := natIn bs (o + 12) 4
    payload := (bs.drop (o + 16)).take (natIn bs (o + 4) 4) }

/-- The walk of checks 7 and 8: `n` sections from offset `o` up to the trailer; the sections and where the last one ends, or the
index of the first that breaks check 7. -/
def walkSections (bs : List Byte) (trailer : Nat) : Nat → Nat → Nat → List Section → Sum Nat (List Section × Nat)
  | 0, _, o, acc => .inr (acc.reverse, o)
  | n + 1, i, o, acc =>
    let plen := natIn bs (o + 4) 4
    if o % 4 ≠ 0 ∨ trailer < o + 16 ∨ plen % 4 ≠ 0 ∨ trailer < o + 16 + plen then .inl i
    else walkSections bs trailer n (i + 1) (o + 16 + plen) (sectionAt bs o :: acc)

/-- The sections of an image that the walk accepts. -/
def imageSections (bs : List Byte) : List Section :=
  match walkSections bs (imageTrailer bs) (imageCount bs) 0 32 [] with
  | .inr r => r.1
  | .inl _ => []

/-! ### The checks (R145) -/

/-- Checks 1 to 6 on the header alone: the ERR of the first that fails, 0 where all pass; `version` is SYS.ID.VERSION, `room` the
bytes that an image may take. -/
def headerError (version room : Nat) (h : List Byte) : Nat :=
  if natIn h 0 4 ≠ 0x38345843 then 1
  else if natIn h 4 2 ≠ 1 then 1
  else if natIn h 0x1C 4 ≠ (crc32c (h.take 28)).toNat then 1
  else if imageCount h < 1 ∨ 256 < imageCount h ∨ 8 ≤ natIn h 0x10 4 then 1
  else if natIn h 0x18 4 ≠ version then 7
  else if imageLength h % 4 ≠ 0 ∨ imageLength h < 52 ∨ 0x400000 < imageLength h ∨ room < imageLength h then 2
  else 0

/-- A type that the loader does not know and may not skip (R142). -/
def sectionKnown (s : Section) : Bool := (1 ≤ s.kind && s.kind ≤ 8) || 0x8000 ≤ s.kind

/-- A range lies wholly inside a region. -/
def rangeIn (lo hi a n : Nat) : Bool := decide (lo ≤ a ∧ a + n ≤ hi)

/-- The destination rule of R672. -/
def sectionPlaced (s : Section) : Bool :=
  let base := 0x18000000 + 0x100000 * s.inst
  let n := s.payload.length
  if s.kind = 2 then decide (s.inst < 12) && s.addr % 8 == 0 && rangeIn base (base + 0x8000) s.addr n
  else if s.kind = 3 then decide (s.inst < 12) && s.addr % 4 == 0 && rangeIn (base + 0x8000) (base + 0x20000) s.addr n
  else if s.kind = 4 then s.addr % 4 == 0 && rangeIn 0x20000000 0x20040000 s.addr n
  else true

/-- The index of the first section that fails a test. -/
def firstBad (p : Section → Bool) (ss : List Section) : Option Nat := ss.findIdx? (fun s => !p s)

/-- The signature check of R152. -/
def signatureOk (fuses : Fuses) (bs : List Byte) (ss : List Section) : Bool :=
  if imageSigned bs then
    match ss.find? (fun s => s.kind == 8) with
    | some k =>
      let t := imageTrailer bs
      let num (l : List Byte) (o : Nat) : Nat := natOfBytesBE ((l.drop o).take 32)
      decide (k.payload.length = 64) &&
        (match fuses.keyHash with
         | some h => sha256 k.payload == h
         | none => true) &&
        ecdsaOk (num k.payload 0) (num k.payload 32) (num bs (t + 4)) (num bs (t + 36)) (sha256 (bs.take (t + 4)))
    | none => false
  else !fuses.sigRequired

/-- ERR and SECTION of the first check that fails; none for a valid image. -/
def imageError (version room : Nat) (fuses : Fuses) (bs : List Byte) : Option (Nat × Nat) :=
  let h := headerError version room (bs.take 32)
  if h ≠ 0 then some (h, 0x1FF) else
  let t := imageTrailer bs
  match walkSections bs t (imageCount bs) 0 32 [] with
  | .inl i => some (2, i)
  | .inr (ss, stop) =>
    if stop ≠ t then some (2, 0x1FF) else
    match firstBad (fun s => (crc32c s.payload).toNat == s.crc) ss with
    | some i => some (3, i)
    | none =>
    match firstBad sectionKnown ss with
    | some i => some (6, i)
    | none =>
    match firstBad sectionPlaced ss with
    | some i => some (8, i)
    | none =>
      if crcOf crc32Params (bs.take t) ≠ natIn bs t 4 then some (4, 0x1FF)
      else if !signatureOk fuses bs ss then some (5, 0x1FF)
      else none

/-- SYS.ID.VERSION. -/
def Dev.version (d : Dev) : Nat := Machine.fld 11 0 (d.reg 0)

/-- The image that a reader of memory gives: the header first, then, where its LENGTH passes, the whole; and the first check that
fails. -/
def Dev.readImage (d : Dev) (room : Nat) (read : Nat → List Byte) : List Byte × Option (Nat × Nat) :=
  let h := read 32
  let e := headerError d.version room h
  if e ≠ 0 then (h, some (e, 0x1FF))
  else
    let bs := read (imageLength h)
    (bs, imageError d.version room d.fuses bs)

/-- The image of a slot, checked (R145, R671). -/
def Dev.slotImage (d : Dev) (start : Nat) : List Byte × Option (Nat × Nat) :=
  d.readImage (d.bootHeader.slotSize d.flashEnd start) (d.flashBytes start)

end Sys2Proof.Machine
end

