-- ==== Sys2Proof/Machine/Pos.lean ====
section
/-!
DEFINITION. Position feedback (spec/12): the incremental decoder and its index, Hall switches, serial sensors, speed windows,
snapshots, encoder emulation and position compare.
-/

namespace Sys2Proof.Machine

/-! ### Units of an interface (R420) -/

/-- PFn.CTRL.EN, and the page not held. -/
def Dev.pfOn (d : Dev) (n : Nat) : Bool := d.bit (Reg.PF_CTRL n) 0 && !d.pageHeld (0x68 + n)

/-- A unit of the interface works: its EN is bit 31 of its configuration register. -/
def Dev.pfUnit (d : Dev) (n key : Nat) : Bool := d.pfOn n && d.bit key 31

/-- CPR of the decoder. -/
def Dev.cpr (d : Dev) (n : Nat) : Nat := d.fld (Reg.PF_ABZ_CFG n) 23 0

/-- Standstill timeout of the speed unit in ticks (R437, R440, R451). -/
def Dev.spdWin_ (d : Dev) (n : Nat) : Nat := min 10000 (max 50 (d.fld (Reg.PF_SPD_CFG n) 13 0))
def Dev.stillTicks (d : Dev) (n : Nat) : Nat := max (max 1 (d.fld (Reg.PF_SPD_CFG n) 27 16) * 40000) (d.spdWin_ n * 400)

/-! ### Speed (R437 to R441) -/

/-- The FBK cycle in progress, of 5 ns or two ticks. -/
def Dev.fbk (d : Dev) : Nat := d.now / 2

/-- SPD_CFG.SRC, 3 acting as 0. -/
def Dev.spdSrc (d : Dev) (n : Nat) : Nat := let s := d.fld (Reg.PF_SPD_CFG n) 29 28; if s = 3 then 0 else s

/-- STAT.SPD_STATE: 0 START, 1 STILL, 2 FIRST, 3 RUN. -/
def Dev.spdState (d : Dev) (n : Nat) : Nat := d.fld (Reg.PF_STAT n) 2 0

/-- The speed unit shows a state: SPD_STATE, SPEED, SPEED_VALID and STANDSTILL (R439). -/
def Dev.showSpeed (n st : Nat) (speed : Word) (d : Dev) : Dev :=
  ((d.setFld (Reg.PF_STAT n) 2 0 st).setFld (Reg.PF_SPD_STAT n) 31 30 (if st = 1 then 3 else if st = 3 then 2 else 0)).setReg
    (Reg.PF_SPEED n) speed

/-- An edge cancels the standstill timeout of its cycle (R440). -/
def Dev.undoStill (n : Nat) (d : Dev) : Dev :=
  match (d.pf n).undo with
  | some u =>
    if u.cycle == d.fbk && d.spdState n == 1 then
      let d := d.when (!u.event) (Dev.setBit (Reg.evtRaw (0x68 + n)) 9 false)
      (d.showSpeed n u.state u.speed).modPf n (fun p => { p with undo := none })
    else d
  | none => d

/-- An edge into a window's count. -/
def EdgeCount.add (c : EdgeCount) (step : Int) : EdgeCount :=
  { net := c.net + step, fwd := c.fwd || decide (0 < step), bwd := c.bwd || decide (step < 0) }

/-- An edge of a source, with its weight: counted where the speed unit takes that source, in the cycle in which the window closes for
the next one; it ends STILL (R437 to R440). -/
def Dev.speedEdge (n src : Nat) (step : Int) (d : Dev) : Dev :=
  if !(d.pfUnit n (Reg.PF_SPD_CFG n) && d.spdSrc n == src) || step == 0 then d else
  let d := d.undoStill n
  let late := decide ((d.pf n).winEnd / 2 ≤ d.fbk)
  let d := d.modPf n (fun p => { p with
    count := if late then p.count else p.count.add step
    next := if late then p.next.add step else p.next
    stillAt := d.now + d.stillTicks n })
  let d := d.setBit (Reg.PF_SPD_STAT n) 28 (decide (step < 0))
  if d.spdState n = 1 then
    (d.modPf n (fun p => { p with winFresh := p.winAt / 2 == d.fbk })).showSpeed n 2 0
  else d

/-- SPEED_WINDOW_CLOSE (R437 to R439, R441): in the cycle in which the window ends. -/
def execSpeedWindowClose (n : Fin 8) (s : State) : Host.Outcome State Fault Refusal :=
  s.onDev (fun d =>
    let n := n.val
    let p := d.pf n
    if !d.pfUnit n (Reg.PF_SPD_CFG n) || p.winEnd != d.now then d else
    let c := clampInt (-8388607) 8388607 p.count.net
    let st := d.spdState n
    let runs := st == 0 || st == 3 || (st == 2 && p.winFresh)
    let rev := runs && p.count.fwd && p.count.bwd
    let d := d.modPf n (fun p => { p with
      count := p.next, next := {}, winAt := d.now, winEnd := d.now + 400 * d.spdWin_ n, winFresh := true })
    let d := (d.setFld (Reg.PF_SPD_STAT n) 23 0 (unsignedOf 24 c)).bumpWrap (Reg.PF_SPD_WINS n) 31 0
    let d := (d.setBit (Reg.PF_SPD_STAT n) 29 rev).when rev (Dev.raise (0x68 + n) 10)
    d.when runs (Dev.showSpeed n 3 (fpMul (fpOfIntZ c) (d.reg (Reg.PF_SPD_SCALE n))).val))

/-- STANDSTILL_TIMEOUT (R440): at its instant, which each edge puts off. -/
def execStandstillTimeout (n : Fin 8) (s : State) : Host.Outcome State Fault Refusal :=
  s.onDev (fun d =>
    let n := n.val
    if !d.pfUnit n (Reg.PF_SPD_CFG n) || d.spdState n == 1 || (d.pf n).stillAt != d.now then d
    else
      let u : StillUndo := { cycle := d.fbk, state := d.spdState n, speed := d.reg (Reg.PF_SPEED n), event := d.bit (Reg.evtRaw (0x68 + n)) 9 }
      ((d.modPf n (fun p => { p with undo := some u })).showSpeed n 1 0).raise (0x68 + n) 9)

/-- The transfer of SPD_CFG.EN = 1: START with its first window (R437, R439). -/
def Dev.speedStart (n : Nat) (d : Dev) : Dev :=
  let d := d.modPf n (fun p => { p with
    count := {}, next := {}, winAt := d.now, winEnd := d.now + 400 * d.spdWin_ n, winFresh := true
    stillAt := d.now + d.stillTicks n, undo := none })
  (d.showSpeed n 0 0).setBit (Reg.PF_SPD_STAT n) 29 false

/-- A transfer changes STILL or WIN of a speed unit at work: the running timeout takes the new length, counted from the latest edge,
and comes now where that has passed; the open window keeps its end (DESIGN CHOICE, log entry 95). -/
def Dev.speedRetimed (old : Dev) (n : Nat) (d : Dev) : Dev :=
  d.modPf n (fun p => { p with stillAt := max d.now (p.stillAt + d.stillTicks n - old.stillTicks n) })

/-! ### Encoder emulation (R443 to R446) -/

/-- Position of a source within one revolution and its circle: kind 0 ABZ, 1 serial; a circle of 0 stands for 2^32. -/
def Dev.srcPos (d : Dev) (p kind : Nat) : Nat × Nat :=
  if kind = 0 then ((d.reg (Reg.PF_POS p)).toNat, d.cpr p)
  else ((d.reg (Reg.PF_SPOS p)).toNat % 2 ^ d.stBits p, 2 ^ d.stBits p)

/-- Quadrature states per revolution of the emulated encoder, 4L. -/
def Dev.emuStates (d : Dev) (n : Nat) : Nat :=
  let l := d.fld (Reg.PF_EMU_CFG n) 16 0
  4 * (if l = 0 then 1 else min l 65536)

/-- The target e of the emulator (R443). -/
def Dev.emuTarget (d : Dev) (n : Nat) : Nat :=
  let r := d.srcPos (d.fld (Reg.PF_EMU_CFG n) 26 24) (d.fld (Reg.PF_EMU_CFG n) 23 23)
  if r.2 = 0 then r.1 % d.emuStates n else r.1 * d.emuStates n / r.2

/-- The source has a valid position (R446). -/
def Dev.emuValid (d : Dev) (n : Nat) : Bool :=
  let p := d.fld (Reg.PF_EMU_CFG n) 26 24
  if d.bit (Reg.PF_EMU_CFG n) 23 then d.bit (Reg.PF_SER_STAT p) 31 else d.pfUnit p (Reg.PF_ABZ_CFG p)

/-- The signed distance from the output count to e, the shorter way (R444). -/
def Dev.emuDist (d : Dev) (n : Nat) : Int :=
  let m := d.emuStates n
  let f := (d.emuTarget n + m - (d.reg (Reg.PF_EMU_CNT n)).toNat % m) % m
  if 2 * f ≤ m then (f : Int) else (f : Int) - m

/-- EMU_LAGV and EMU_LAG follow the source and the output count of an emulator. -/
def Dev.emuOne (n : Nat) (d : Dev) : Dev :=
  if !(d.pfUnit n (Reg.PF_EMU_CFG n) && d.emuValid n) then d else
  let dist := d.emuDist n
  let old := (d.reg (Reg.PF_EMU_LAGV n)).toInt
  let lim := d.fld (Reg.PF_EMU_TIM n) 31 16
  let d := d.setReg (Reg.PF_EMU_LAGV n) (word (unsignedOf 32 dist))
  d.when (lim < dist.natAbs && old.natAbs ≤ lim) (Dev.raise (0x68 + n) 12)

/-- The emulators whose source is interface `p`. -/
def Dev.emusOf (d : Dev) (p : Nat) : List Nat := (List.range 8).filter (fun n => d.fld (Reg.PF_EMU_CFG n) 26 24 == p)

/-- They follow a change of their source. -/
def Dev.emuFollow (p : Nat) (d : Dev) : Dev := each (d.emusOf p) Dev.emuOne d

/-- A valid transfer of interface `p` gives its emulators a new target, `span` ticks after the valid transfer before it (R445). -/
def Dev.emuTargeted (p : Nat) (span : Nat) (d : Dev) : Dev :=
  each ((d.emusOf p).filter (fun n => d.bit (Reg.PF_EMU_CFG n) 23))
    (fun n d => d.modPf n (fun x => { x with emuFrom := d.now, emuSpan := span, emuTotal := (d.emuDist n).natAbs })) (d.emuFollow p)

/-- The transfer of EMU_CFG.EN = 1 (R446). -/
def Dev.emuStart (n : Nat) (d : Dev) : Dev :=
  let d := (d.setReg (Reg.PF_EMU_LAGV n) 0).modPf n (fun p => { p with emuAt := none, emuFrom := d.now, emuSpan := 0, emuTotal := 0 })
  Dev.emuOne n (if d.emuValid n then d.setReg (Reg.PF_EMU_CNT n) (word (d.emuTarget n)) else d)

/-- The earliest tick of the emulator's next edge: MIN_EDGE after the one before, and with PACE, toward a serial target, evenly over
the interval between the two latest valid transfers (R444, R445); the first step of a target comes with it (log entry 95). -/
def Dev.emuDue (d : Dev) (n : Nat) : Nat :=
  let p := d.pf n
  let gap := match p.emuAt with
    | some t => t + 2 * max 20 (d.fld (Reg.PF_EMU_TIM n) 7 0)
    | none => 0
  let cfg := d.reg (Reg.PF_EMU_CFG n)
  if bitAt 29 cfg && bitAt 23 cfg && p.emuTotal != 0 then
    max gap (p.emuFrom + (p.emuTotal - (d.emuDist n).natAbs) * p.emuSpan / p.emuTotal)
  else gap

/-- EMULATOR_EDGE (R444): one quadrature state toward e; at equal distances the way is open. -/
def execEmulatorEdge (n : Fin 8) (s : State) : Host.Outcome State Fault Refusal :=
  s.onDev (fun d =>
    let n := n.val
    if !d.pfUnit n (Reg.PF_EMU_CFG n) || !d.emuValid n || d.now < d.emuDue n then d else
    let m := d.emuStates n
    let c := (d.reg (Reg.PF_EMU_CNT n)).toNat % m
    let dist := d.emuDist n
    if dist = 0 then d else
    let tie := 2 * dist.natAbs == m
    let r := d.free
    let fwd := if tie then bitAt 0 r.1 else decide (0 < dist)
    let d := if tie then r.2 else d
    let d := d.modPf n (fun p => { p with emuAt := some d.now })
    Dev.emuOne n (d.setReg (Reg.PF_EMU_CNT n) (word (if fwd then (c + 1) % m else (c + m - 1) % m))))

/-- The levels of PFn_EA, PFn_EB and PFn_EZ (R444): EA leads EB forward. They are low until the emulator is enabled (R105). -/
def Dev.emuPins (d : Dev) (n : Nat) : Bool × Bool × Bool :=
  let c := (d.reg (Reg.PF_EMU_CNT n)).toNat % 4
  let a := c == 1 || c == 2
  let b := c == 2 || c == 3
  let z := d.reg (Reg.PF_EMU_CNT n) == 0
  if !d.pfUnit n (Reg.PF_EMU_CFG n) then (false, false, false)
  else if d.bit (Reg.PF_EMU_CFG n) 30 then (b, a, z) else (a, b, z)

/-! ### Position compare (R447 to R450) -/

/-- The compare of the interface is enabled. -/
def Dev.cmpOn (d : Dev) (n : Nat) : Bool := d.pfUnit n (Reg.PF_CMP_CFG n)

/-- ARMED, shown in CMP_STAT and STAT. -/
def Dev.setArmed (n : Nat) (b : Bool) (d : Dev) : Dev := (d.setBit (Reg.PF_CMP_STAT n) 31 b).setBit (Reg.PF_STAT n) 6 b

/-- The circle of a source, 2^32 for a free-running count. -/
def Dev.circle (d : Dev) (n kind : Nat) : Nat := let c := (d.srcPos n kind).2; if c = 0 then 2 ^ 32 else c

/-- SRC_KIND of the compare. -/
def Dev.cmpKind (d : Dev) (n : Nat) : Nat := d.fld (Reg.PF_CMP_CFG n) 27 27

/-- A fire (R449, R450): the hit, the pulse or the toggle, its time one PWM cycle later, and with INC the next target, moved on past
`more` further ones. -/
def Dev.cmpFire (n : Nat) (hit : Word) (more : Nat) (d : Dev) : Dev :=
  let d := ((d.setArmed n false).setReg (Reg.PF_CMP_HIT n) hit).raise (0x68 + n) 13
  let d := d.bumpSat (Reg.PF_CMP_STAT n) 15 0
  let cfg := d.reg (Reg.PF_CMP_CFG n)
  let d := d.modPf n (fun p =>
    let p := { p with fireAt := none, timeAt := some (d.now + 1) }
    if bitAt 25 cfg then { p with cmpOut := !p.cmpOut }
    else if bitAt 26 cfg then { p with cmpOut := true, cmpPulse := true, pulseAt := d.now }
    else p)
  let inc := (d.reg (Reg.PF_CMP_INC n)).toNat
  if inc = 0 then d
  else
    let c := d.circle n (d.cmpKind n)
    let t := ((d.reg (Reg.PF_CMP_POS n)).toNat + inc * (1 + more)) % c
    let d := (d.setReg (Reg.PF_CMP_POS n) (word t)).setArmed n true
    (d.setBit (Reg.PF_CMP_STAT n) 30 false).when (more != 0) (Dev.setBit (Reg.PF_CMP_STAT n) 28 true)

/-- CMP_CFG.EDGE takes a direction: 1 forward, 2 backward, 3 and 0 either. -/
def Dev.cmpTakes (d : Dev) (n : Nat) (back : Bool) : Bool :=
  match d.fld (Reg.PF_CMP_CFG n) 29 28 with
  | 1 => !back
  | 2 => back
  | _ => true

/-- Steps until a step of `size` in a direction crosses target `t` from position `p`, if it does (R447): forward the position
becomes the target, backward it leaves it. A target outside the circle is never crossed. -/
def crossAfter (c p t size : Nat) (back : Bool) : Option Nat :=
  let k := if back then (p + c - t) % c + 1 else (t + c - p % c - 1) % c + 1
  if t < c ∧ k ≤ size then some k else none

/-- How many further targets, INC apart, the rest of the step passes: the compare fires once (R450). -/
def morePassed (c p size inc : Nat) (back : Bool) : Nat → Nat → Nat
  | 0, _ => 0
  | fuel + 1, t =>
    match crossAfter c p ((t + inc) % c) size back with
    | some _ => 1 + morePassed c p size inc back fuel ((t + inc) % c)
    | none => 0

/-- The target is behind (R448): the compare shows it, and with FIRE_IF_PASSED fires in the next cycle. -/
def Dev.cmpBehind (n : Nat) (d : Dev) : Dev :=
  let d := (d.setBit (Reg.PF_CMP_STAT n) 30 true).raise (0x68 + n) 14
  d.when (d.bit (Reg.PF_CMP_CFG n) 30) (Dev.modPf n (fun p => { p with fireAt := some (d.fbk + 1) }))

/-- A source of the interface steps from a position in a direction (R447); a crossing in the cycle of arming makes the target one
behind (R448). -/
def Dev.cmpStep (n kind p size : Nat) (back : Bool) (d : Dev) : Dev :=
  if size = 0 then d else
  let d := d.when (d.cmpKind n == kind)
    (Dev.modPf n (fun x => { x with step := some { cycle := d.fbk, kind := kind, pos := p, size := size, back := back } }))
  if !(d.cmpOn n && d.cmpKind n == kind && d.bit (Reg.PF_CMP_STAT n) 31) then d else
  let c := d.circle n kind
  let t := (d.reg (Reg.PF_CMP_POS n)).toNat
  match crossAfter c p t size back with
  | none => d
  | some _ =>
    if (d.pf n).armAt == some d.fbk then d.cmpBehind n
    else if !d.cmpTakes n back then d
    else
      let inc := (d.reg (Reg.PF_CMP_INC n)).toNat % c
      let fuel := if kind = 0 ∨ inc = 0 then 0 else size
      d.cmpFire n (word (d.srcPos n kind).1) (morePassed c p size inc back fuel t)

/-- The target is behind at the cycle of arming (R448): the source moves and has passed it, or crosses it in this cycle. -/
def Dev.behindNow (d : Dev) (n t : Nat) : Bool :=
  let kind := d.cmpKind n
  let pos := (d.srcPos n kind).1
  let moved := match if kind = 0 then (d.pf n).lastAbz else (d.pf n).lastSer with
    | some (at_, back) => decide (d.now - at_ < d.stillTicks n) && (if back then decide (pos < t) else decide (t ≤ pos))
    | none => false
  moved || (d.pf n).step.any (fun x =>
    x.cycle == d.fbk && x.kind == kind && (crossAfter (d.circle n kind) x.pos t x.size x.back).isSome)

/-- A write of CMP_POS (R447, R448): it arms, with the behind check where the source moves. -/
def Dev.cmpPosOp (n : Nat) (v : Word) (d : Dev) : Dev :=
  let d := d.setReg (Reg.PF_CMP_POS n) v
  if !d.cmpOn n then d else
  let d := d.modPf n (fun p => { p with armAt := some d.fbk, fireAt := none })
  ((d.setArmed n true).setFld (Reg.PF_CMP_STAT n) 30 28 0).when (d.behindNow n v.toNat) (Dev.cmpBehind n)

/-- CMP_POS_WRITE (R447). -/
def execCmpPosWrite (m : Master) (n : Fin 8) (v : Word) (s : State) : Host.Outcome State Fault Refusal :=
  s.onDev (fun d => d.accessWrite m (Reg.PF_CMP_POS n.val) v (Dev.cmpPosOp n.val v))

/-- CMP_PULSE_END (R449): PW FBK cycles after the pulse began. -/
def execCmpPulseEnd (n : Fin 8) (s : State) : Host.Outcome State Fault Refusal :=
  s.onDev (fun d =>
    let p := d.pf n.val
    d.when (p.cmpPulse && p.pulseAt + 2 * max 1 (d.fld (Reg.PF_CMP_CFG n.val) 15 0) == d.now)
      (Dev.modPf n.val (fun p => { p with cmpOut := false, cmpPulse := false })))

/-- What a compare has to do in a tick that begins: a target that was behind fires in the cycle after its arming (R448), and CMP_TIME
takes the device time one PWM cycle after a crossing (R449). -/
def Dev.cmpTick (d : Dev) : Dev :=
  each (List.range 8) (fun n d =>
    let d := d.when ((d.pf n).timeAt == some d.now) (fun d =>
      (d.setReg (Reg.PF_CMP_TIME n) (word d.devTime)).modPf n (fun p => { p with timeAt := none }))
    d.when ((d.pf n).fireAt == some d.fbk) (fun d =>
      let d := d.modPf n (fun p => { p with fireAt := none })
      d.when (d.cmpOn n && d.bit (Reg.PF_CMP_STAT n) 31) (fun d =>
        (d.cmpFire n (word (d.srcPos n (d.cmpKind n)).1) 0).setBit (Reg.PF_CMP_STAT n) 29 true))) d

/-- The level of PFn_CMP: low until the compare is enabled (R105, R449). -/
def Dev.cmpPin (d : Dev) (n : Nat) : Bool := d.cmpOn n && (d.pf n).cmpOut

/-! ### Incremental encoder (R421 to R425) -/

/-- The step that two levels of A and B make: some true forward, some false backward, none where neither or both changed. -/
def quadStep (a b a' b' : Bool) : Option Bool :=
  if (a == a') == (b == b') then none
  else some (if a != a' then a' != b' else a' == b')

/-- POS and REV after an edge (R423). -/
def stepPos (cpr pos : Nat) (rev : Nat) (fwd : Bool) : Nat × Nat :=
  if cpr = 0 then ((if fwd then pos + 1 else pos + 2 ^ 32 - 1) % 2 ^ 32, rev)
  else if fwd then (if pos = cpr - 1 then (0, rev + 1) else (pos + 1, rev))
  else (if pos = 0 then (cpr - 1, rev + 65535) else (pos - 1, rev))

/-- Sloe's own count of the interface's A and B (R527). -/
def Dev.sloeQuad (n : Nat) (fwd : Bool) (d : Dev) : Dev :=
  let c := d.act Reg.SLOE_SPD_A
  d.when (bitAt 31 c && Machine.fld 26 24 c == n && !bitAt 23 c)
    (Dev.modSloe (fun s => { s with count := s.count + (if fwd then 1 else -1) }))

/-- A level of `ns` ns passes Sloe's filter of 2 AON cycles of 25 ns (R527). -/
def sloeTakes (ns : Nat) : Bool := decide (50 ≤ ns)

/-- Sloe's own samples of A and B, whatever the PAD filter does (R527). -/
def Dev.sloeLevels (n : Nat) (a b : Bool) (ns : Nat) (d : Dev) : Dev :=
  if !sloeTakes ns then d else
  let p := d.pf n
  let d := d.modPf n (fun p => { p with sloeA := a, sloeB := b })
  match quadStep p.sloeA p.sloeB a b with
  | some f => d.sloeQuad n f
  | none => d

/-- Sloe's own samples of the Hall code (R527). -/
def Dev.sloeCode (n : Nat) (code ns : Nat) (d : Dev) : Dev :=
  if !sloeTakes ns || (d.pf n).sloeHall == code then d else
  let c := d.act Reg.SLOE_SPD_A
  (d.modPf n (fun p => { p with sloeHall := code })).when (bitAt 31 c && Machine.fld 26 24 c == n && bitAt 23 c)
    (Dev.modSloe (fun x => { x with count := x.count + 1 }))

/-- The levels of A and B in a cycle: the edge they make, or QUAD_ERR (R421); `some` with its direction where one counts. -/
def Dev.abzLevels (n : Nat) (a b : Bool) (d : Dev) : Option Bool × Dev :=
  let p := d.pf n
  let q := quadStep p.a p.b a b
  let both := p.a != a && p.b != b
  let d := d.modPf n (fun p => { p with a := a, b := b })
  if !d.pfUnit n (Reg.PF_ABZ_CFG n) then (none, d)
  else if both then (none, (d.raise (0x68 + n) 0).bumpSat (Reg.PF_QERR_CNT n) 15 0)
  else (q.map (fun f => f != d.bit (Reg.PF_ABZ_CFG n) 30), d)

/-- ABZ_EDGE (R419, R421 to R423): new levels of A and B, held for `ns` ns, which their filter accepts. -/
def execAbzEdge (n : Fin 8) (a b : Bool) (ns : Nat) (s : State) : Host.Outcome State Fault Refusal :=
  s.onDev (fun d =>
    let n := n.val
    let d := d.sloeLevels n a b ns
    if !d.filtered (Reg.PAD_GRP n) ns then d else
    let r := d.abzLevels n a b
    match r.1 with
    | none => r.2
    | some fwd =>
      let d := r.2
      let old := (d.reg (Reg.PF_POS n)).toNat
      let st := stepPos (d.cpr n) old (d.fld (Reg.PF_REV n) 15 0) fwd
      let d := (d.setReg (Reg.PF_POS n) (word st.1)).setFld (Reg.PF_REV n) 15 0 st.2
      let d := d.modPf n (fun p => { p with lastAbz := some (d.now, !fwd) })
      ((d.speedEdge n 0 (if fwd then 1 else -1)).cmpStep n 0 old 1 (!fwd)).emuFollow n)

/-- INDEX (R419, R424, R425): the rising edge of Z after a high level of `ns` ns, which its filter accepts, with the levels of A and B
in its cycle. An edge of that cycle counts, and a reset by the index absorbs it. -/
def execIndex (n : Fin 8) (a b : Bool) (ns : Nat) (s : State) : Host.Outcome State Fault Refusal :=
  s.onDev (fun d =>
    let n := n.val
    let d := d.sloeLevels n a b ns
    if !d.filtered (Reg.PAD_GRP n) ns then d else
    let cfg := d.reg (Reg.PF_ABZ_CFG n)
    let mode := fld 29 28 cfg
    let on := d.pfUnit n (Reg.PF_ABZ_CFG n) && (!bitAt 27 cfg || (a == bitAt 26 cfg && b == bitAt 25 cfg))
    let r := d.abzLevels n a b
    let d := r.2
    let old := (d.reg (Reg.PF_POS n)).toNat
    let rev := d.fld (Reg.PF_REV n) 15 0
    let st := match r.1 with
      | some fwd => stepPos (d.cpr n) old rev fwd
      | none => (old, rev)
    let home := mode == 2 && d.bit (Reg.PF_ABZ_CMD n) 0
    let resets := on && (mode == 3 || home)
    let d := match r.1 with
      | some fwd =>
        let d := (d.modPf n (fun p => { p with lastAbz := some (d.now, !fwd) })).speedEdge n 0 (if fwd then 1 else -1)
        if resets then d
        else ((d.setReg (Reg.PF_POS n) (word st.1)).setFld (Reg.PF_REV n) 15 0 st.2).cmpStep n 0 old 1 (!fwd)
      | none => d
    let d := if !on then d else
      let d := (d.raise (0x68 + n) 11).when (mode != 0) (Dev.setReg (Reg.PF_ZLATCH n) (word st.1))
      let d := d.when resets (Dev.setReg (Reg.PF_POS n) (word (d.fld (Reg.PF_ZPOS n) 23 0)))
      d.when home (fun d =>
        ((d.setFld (Reg.PF_REV n) 15 0 0).setBit (Reg.PF_ABZ_CMD n) 0 false).setBit (Reg.PF_STAT n) 7 true)
    d.emuFollow n)

/-- ZHOME (R424). -/
def execZhome (m : Master) (n : Fin 8) (s : State) : Host.Outcome State Fault Refusal :=
  s.onDev (fun d => d.accessWrite m (Reg.PF_ABZ_CMD n.val) 1 (Dev.setBit (Reg.PF_ABZ_CMD n.val) 0 true))

/-! ### Hall switches (R426, R427) -/

/-- The direction of a change between sectors: some 1, some −1 for neighbours. -/
def hallStep (s t : Nat) : Int := if t = s % 6 + 1 then 1 else if s = t % 6 + 1 then -1 else 0

/-- The Hall code changes, as the decoder takes it (R427). -/
def Dev.hallOp (n code : Nat) (d : Dev) : Dev :=
  let s := d.fld (Reg.PF_HALL_STAT n) 18 16
  let t := d.hallSector n code
  let d := d.setFld (Reg.PF_HALL_STAT n) 2 0 code
  if t = 0 then (d.raise (0x68 + n) 1).mcHallError n
  else
    let d := (d.setFld (Reg.PF_HALL_STAT n) 18 16 t).setFld (Reg.PF_STAT n) 10 8 t
    if s = 0 ∨ s = t then d
    else
      let k := hallStep s t
      if k = 0 then d.raise (0x68 + n) 2
      else ((d.setReg (Reg.PF_HALL_TIME n) (word d.devTime)).speedEdge n 1 k).mcHallEdge n

/-- HALL_CHANGE (R419, R427): a new code, held for `ns` ns, which the filter accepts; every change of the code counts for Sloe's own
source (R527). -/
def execHallChange (n : Fin 8) (code : Fin 8) (ns : Nat) (s : State) : Host.Outcome State Fault Refusal :=
  s.onDev (fun d =>
    let n := n.val
    let d := d.sloeCode n code.val ns
    if (d.pf n).hall = code.val || !d.filtered (Reg.PAD_GRP n) ns then d else
    let d := d.modPf n (fun p => { p with hall := code.val })
    d.when (d.pfUnit n (Reg.PF_HALL_CFG n)) (Dev.hallOp n code.val))

/-- The transfer of HALL_CFG: the present code and its sector. -/
def Dev.hallStart (n : Nat) (d : Dev) : Dev :=
  let c := (d.pf n).hall
  let t := d.hallSector n c
  let d := d.setFld (Reg.PF_HALL_STAT n) 2 0 c
  if t = 0 then d else (d.setFld (Reg.PF_HALL_STAT n) 18 16 t).setFld (Reg.PF_STAT n) 10 8 t

/-! ### Serial sensors (R428 to R436) -/

/-- SER_CFG.REQ, 3 acting as 2. -/
def Dev.serSource (d : Dev) (n : Nat) : Nat := min 2 (d.fld (Reg.PF_SER_CFG n) 25 24)

/-- A request for a transfer (R431, R432): the first MA edge falls with it. -/
def Dev.serRequest (n : Nat) (d : Dev) : Dev :=
  let p := d.pf n
  if p.busy || p.recovering then (d.raise (0x68 + n) 7).bumpSat (Reg.PF_SER_OVR n) 15 0
  else
    (d.modPf n (fun p => { p with
      busy := true, reqTime := d.devTime, reqTick := d.now, serCfg := d.reg (Reg.PF_SER_CFG n), serTim := d.reg (Reg.PF_SER_TIM n) })).setBit
      (Reg.PF_STAT n) 4 true

/-- The source that SER_CFG.REQ selects requests a transfer in this tick, and has not done so yet (R431): a timebase position, or
the timer from the transfer of EN = 1. -/
def Dev.serAsked (d : Dev) (n : Nat) : Bool :=
  let p := d.pf n
  let g := d.fld (Reg.PF_SER_REQ n) 31 28
  let pos := d.fld (Reg.PF_SER_REQ n) 18 0
  d.pfUnit n (Reg.PF_SER_CFG n) && p.serLast != some d.now &&
    match d.serSource n with
    | 0 => decide (g < 12) && d.posReached g pos 0
    | 1 => decide (p.serAt < d.now) && (d.now - p.serAt) % (400 * max 1 (pos % 65536)) == 0
    | _ => false

/-- SERIAL_REQUEST (R431). -/
def execSerialRequest (n : Fin 8) (s : State) : Host.Outcome State Fault Refusal :=
  s.onDev (fun d =>
    d.when (d.serAsked n.val) (fun d => (d.modPf n.val (fun p => { p with serLast := some d.now })).serRequest n.val))

/-- A write of SER_CMD: a request where REQ selects it. -/
def Dev.serCmdOp (n : Nat) (v : Word) (d : Dev) : Dev :=
  d.when (bitAt 0 v && d.pfUnit n (Reg.PF_SER_CFG n) && d.serSource n == 2) (Dev.serRequest n)

/-- SER_CMD_REQ (R431). -/
def execSerCmdReq (m : Master) (n : Fin 8) (s : State) : Host.Outcome State Fault Refusal :=
  s.onDev (fun d => d.accessWrite m (Reg.PF_SER_CMD n.val) 1 (Dev.serCmdOp n.val 1))

/-- The number that a Gray code stands for. -/
def grayToBin : Nat → Nat → Nat
  | 0, v => v
  | fuel + 1, v => v ^^^ grayToBin fuel (v / 2)

/-- The step between two serial positions, modulo 2^ST around zero (R438). -/
def serStep (st a b : Nat) : Int :=
  let m := 2 ^ st
  let x := (b % m + m - a % m) % m
  if 2 * x < m then (x : Int) else (x : Int) - m

/-- A transfer ends; its recovery follows (R435). -/
def Dev.serEnd (n : Nat) (d : Dev) : Dev := d.modPf n (fun p => { p with busy := false, recovering := true, serEndAt := d.now })

/-- A failed transfer (R434). -/
def Dev.serFail (n : Nat) (d : Dev) : Dev :=
  let d := (d.setBit (Reg.PF_SER_STAT n) 31 false).bumpSat (Reg.PF_SER_STAT n) 15 0
  let before := d.fld (Reg.PF_SER_STAT n) 23 16
  let d := d.bumpSat (Reg.PF_SER_STAT n) 23 16
  let lim := d.fld (Reg.PF_SER_REQ n) 27 24
  let d := if lim != 0 && before + 1 == lim then (d.raise (0x68 + n) 8).mcFbLost n else d
  d.emuFollow n

/-- A valid transfer (R434, R438, R447). -/
def Dev.serValid (n pos : Nat) (d : Dev) : Dev :=
  let st := d.stBits n
  let p := d.pf n
  let old := (d.reg (Reg.PF_SPOS n)).toNat
  let d := (d.setReg (Reg.PF_SPOS n) (word pos)).setReg (Reg.PF_SPOS_TIME n) (word p.reqTime)
  let d := (d.setBit (Reg.PF_SER_STAT n) 31 true).setFld (Reg.PF_SER_STAT n) 23 16 0
  let k := if p.valTick.isSome then serStep st old pos else 0
  let span := match p.valTick with
    | some t => p.reqTick - t
    | none => 0
  let d := d.modPf n (fun p => { p with
    valTick := some p.reqTick, lastSer := if k = 0 then p.lastSer else some (d.now, decide (k < 0)) })
  ((d.speedEdge n 2 k).cmpStep n 1 (old % 2 ^ st) k.natAbs (decide (k < 0))).emuTargeted n span

/-- LEN of a transfer, its number of MA periods but for BiSS-C's acknowledge, and the length of one in ticks (R428 to R430): odd DIV
act as the even value below. -/
def xferLen (cfg : Word) : Nat := min 32 (max 8 (fld 21 16 cfg))
def xferPeriods (cfg : Word) : Nat := xferLen cfg + (if bitAt 30 cfg then 10 else 1 + fld 28 28 cfg)
def maPeriod (tim : Word) : Nat := 2 * (min 400 (max 20 (fld 8 0 tim)) / 2 * 2)

/-- The tick at which the last bit of a transfer has arrived, in BiSS-C with no acknowledge time: SSI samples SL DLY cycles after each
rising edge of MA, half a period after the falling one (R430). -/
def PosUnit.lastBit (p : PosUnit) : Nat :=
  let full := xferPeriods p.serCfg * maPeriod p.serTim
  p.reqTick + (if bitAt 30 p.serCfg then full else max full (full - maPeriod p.serTim / 2 + 2 * fld 15 12 p.serTim))

/-- The tick by which the last bit has to have arrived (R433). -/
def PosUnit.serLimit (p : PosUnit) : Nat := p.reqTick + 400 * min 100 (max 1 (fld 31 24 p.serTim))

/-- The transfer may end now with its last bit: SSI at its instant, BiSS-C after any acknowledge time. -/
def PosUnit.serEnds (p : PosUnit) (now : Nat) : Bool :=
  (if bitAt 30 p.serCfg then decide (p.lastBit ≤ now) else p.lastBit == now) && decide (now ≤ p.serLimit)

/-- Bits, the most significant first. -/
def bitsMsb (l : List Bool) : Nat := l.foldl (fun a b => 2 * a + b2n b) 0

/-- CRC-6 of BiSS-C over the position and both status bits, with polynomial 0x43, from 0 and sent inverted (PRESUMED, log entry 96:
the spec refers to BiSS-C). -/
def bissCrc (l : List Bool) : Nat := (l.foldl (crcBitMsb 6 0x03) 0) ^^^ 0x3F

/-- A transfer has ended with the levels of SL as sampled (R428, R433, R434). SSI: position and the error bit, if there is one.
BiSS-C: start bit, CDS, position, nE, nW and CRC. -/
def Dev.serTaken (n : Nat) (bits : List Bool) (d : Dev) : Dev :=
  let cfg := (d.pf n).serCfg
  let len := xferLen cfg
  let biss := bitAt 30 cfg
  let start := bits.headD false
  let body := if biss then bits.drop 2 else bits
  let crcBad := biss && (!start || bissCrc (body.take (len + 2)) != bitsMsb (body.drop (len + 2)))
  let flag := (body.drop len).headD false
  let sens := if biss then start && !flag else bitAt 28 cfg && flag == bitAt 27 cfg
  let warn := biss && start && !((body.drop (len + 1)).headD false)
  let raw := bitsMsb (body.take len)
  let pos := if !biss && bitAt 29 cfg then grayToBin 32 raw else raw
  let d := d.serEnd n
  let d := d.when crcBad (Dev.raise (0x68 + n) 3)
  let d := d.when sens (Dev.raise (0x68 + n) 4)
  let d := d.when warn (Dev.raise (0x68 + n) 5)
  if crcBad || sens then d.serFail n else d.serValid n pos

/-- How many levels of SL a transfer takes. -/
def xferBits (cfg : Word) : Nat := xferLen cfg + (if bitAt 30 cfg then 10 else fld 28 28 cfg)

/-- SERIAL_TRANSFER_DONE (R430, R433, R434): the last bit of a transfer arrives. -/
def execSerialTransferDone (n : Fin 8) (bits : List Bool) (s : State) : Host.Outcome State Fault Refusal :=
  s.onDev (fun d =>
    let p := d.pf n.val
    d.when (d.pfUnit n.val (Reg.PF_SER_CFG n.val) && p.busy && p.serEnds d.now && bits.length == xferBits p.serCfg)
      (Dev.serTaken n.val bits))

/-- SER_TIMEOUT (R433): TIMEOUT µs after the first MA edge the last bit has not arrived. -/
def execSerTimeout (n : Fin 8) (s : State) : Host.Outcome State Fault Refusal :=
  s.onDev (fun d =>
    let p := d.pf n.val
    d.when (d.pfUnit n.val (Reg.PF_SER_CFG n.val) && p.busy && p.serLimit == d.now && (bitAt 30 p.serCfg || decide (d.now < p.lastBit)))
      (fun d => ((d.serEnd n.val).raise (0x68 + n.val) 6).serFail n.val))

/-- SERIAL_RECOVERY_DONE (R435): SL has been high for RECOVER µs, all after the transfer's end. -/
def execSerialRecoveryDone (n : Fin 8) (s : State) : Host.Outcome State Fault Refusal :=
  s.onDev (fun d =>
    let p := d.pf n.val
    d.when (p.recovering && decide (p.serEndAt + 400 * max 1 (d.fld (Reg.PF_SER_TIM n.val) 23 16) ≤ d.now)) (fun d =>
      (d.modPf n.val (fun p => { p with recovering := false })).setBit (Reg.PF_STAT n.val) 4 false))

/-- The transfer of SER_CFG.EN = 1: the timer of R431 counts from it. -/
def Dev.serStart (n : Nat) (d : Dev) : Dev := d.modPf n (fun p => { p with serAt := d.now })

/-- The serial unit stops (R420): its transfer or recovery ends without a result. -/
def Dev.serStop (n : Nat) (d : Dev) : Dev :=
  (d.modPf n (fun p => { p with busy := false, recovering := false })).setBit (Reg.PF_STAT n) 4 false

/-- The level of PFn_MA: idle high, low until the unit is enabled (R105, R419); in a transfer it falls at the request and each period
after it, and rises half a period later (R429, R430, R432). -/
def Dev.maPin (d : Dev) (n : Nat) : Bool :=
  let p := d.pf n
  let t := maPeriod p.serTim
  d.pfUnit n (Reg.PF_SER_CFG n) && (!p.busy || decide (t / 2 ≤ (d.now - p.reqTick) % t))

/-! ### Snapshots (R442) -/

/-- The interfaces that latch at the reloads of group `g`. -/
def Dev.snapPfs (d : Dev) (g : Nat) : List Nat :=
  (List.range 8).filter (fun n => d.pfUnit n (Reg.PF_SNAP_CFG n) && d.fld (Reg.PF_SNAP_CFG n) 19 16 == g)

/-- What the interfaces latch at a reload. -/
def Dev.posLatch (g : Nat) (d : Dev) : Dev :=
  each (d.snapPfs g) (fun n d =>
    let l : PosLatch := {
      pos := d.reg (Reg.PF_POS n), rev := d.fld (Reg.PF_REV n) 15 0, sect := d.fld (Reg.PF_HALL_STAT n) 18 16
      spos := d.reg (Reg.PF_SPOS n), valid := d.bit (Reg.PF_SER_STAT n) 31
      age := match (d.pf n).valTick with
        | some t => min 0xFFFFFF (d.now - t)
        | none => 0xFFFFFF
      speed := d.reg (Reg.PF_SPEED n), spd := d.reg (Reg.PF_SPD_STAT n) }
    d.modPf n (fun p => { p with latch := some l })) d

/-- The snapshot registers are replaced (R442). -/
def Dev.posReplace (g : Nat) (d : Dev) : Dev :=
  each (d.snapPfs g) (fun n d =>
    match (d.pf n).latch with
    | none => d
    | some l =>
      let d := d.modPf n (fun p => { p with latch := none })
      let d := (d.setReg (Reg.PF_SNAP_POS n) l.pos).setReg (Reg.PF_SNAP_REV n)
        (place 31 24 (d.fld (Reg.PG_WIN_CNT g) 7 0) ||| place 18 16 l.sect ||| place 15 0 l.rev)
      let d := (d.setReg (Reg.PF_SNAP_SPOS n) l.spos).setReg (Reg.PF_SNAP_AGE n) (place 31 31 (b2n l.valid) ||| place 23 0 l.age)
      (d.setReg (Reg.PF_SNAP_SPEED n) l.speed).setReg (Reg.PF_SNAP_SPD n) l.spd) d

end Sys2Proof.Machine
end

