-- ==== Sys2Proof/Machine/Triad.lean ====
section
/-!
DEFINITION. The triad (spec/14): findings and fatals, the cores' own memory, their exceptions and interrupts, sync points with
the digest and the repair, and the mailboxes.
-/

namespace Sys2Proof.Machine

/-- The cores run: released, and neither halted nor held (R90, R492). -/
def Dev.triadRuns (d : Dev) : Bool := d.triad.released && d.fld Reg.TRIAD_STAT 1 0 == 1 && !d.pageHeld 0x90

/-- Copy c is marked odd. -/
def Dev.odd (d : Dev) (c : Nat) : Bool := d.bit Reg.TRIAD_STAT (8 + c)

def Dev.core (d : Dev) (c : Nat) : TriadCore := vget {} d.triad.cores c
def Dev.modCore (c : Nat) (f : TriadCore → TriadCore) (d : Dev) : Dev :=
  d.modTriad (fun t => { t with cores := vmod {} t.cores c f })

/-- A triad fatal (R506): Sloe latches it with its cause, and its reset source is asserted. -/
def Dev.triadFatal (cause : Nat) (d : Dev) : Dev := (d.triadFatalLatch cause).assertSource .triadFatal .warm

/-- The findings of the latest second of TRI time, which counts one cycle a tick (R505). -/
def Dev.recentFindings (d : Dev) : List Nat := d.triad.findings.filter (fun t => d.now < t + 400000000)

/-- A copy is marked odd (R505): 1 LATENT, 2 OUTVOTED, 3 DLY_OUT, 4 DLY_IN, 5 XCHG_TIMEOUT; the record keeps the first finding
after each clear. A third finding within a second is fatal. -/
def Dev.markOdd (c kind : Nat) (d : Dev) : Dev :=
  if d.odd c then d else
  let d := ((d.setBit Reg.TRIAD_STAT (8 + c) true).setBit Reg.TRIAD_STAT 4 true).raise 0x90 kind
  let d := d.when (!d.bit Reg.TRIAD_FIND 31)
    (Dev.setReg Reg.TRIAD_FIND (bitMask 31 ||| place 26 24 kind ||| place 17 16 c ||| place 15 0 (d.fld Reg.TRIAD_DIGEST_STAT 31 16)))
  let d := d.bumpSat Reg.TRIAD_FIND_CNT 15 0
  let found := d.now :: d.recentFindings
  let d := (d.modTriad (fun t => { t with findings := found })).setFld Reg.TRIAD_FIND_CNT 31 24 (Nat.min found.length 255)
  d.when (3 ≤ found.length) (Dev.triadFatal 1)

/-! ### A core's own memory (R490, R491, R502, R504) -/

/-- Bytes of copy c. -/
def Dev.copyBytes (d : Dev) (c a n : Nat) : List Byte := (List.range n).map (fun i => d.triadByte c (a + i))

/-- Bytes written to copy c. -/
def Dev.setCopy (c a : Nat) (bs : List Byte) (d : Dev) : Dev :=
  { d with triadMem := vmod [] d.triadMem c (fun l =>
      (bs.zip (List.range bs.length)).foldl (fun l p => store zeroByte (a + p.2) p.1 l) l) }

/-- The vote of the three copies over bytes. -/
def Dev.votedBytes (d : Dev) (a n : Nat) : List Byte :=
  (List.range n).map (fun i => vote8 (d.triadByte 0 (a + i)) (d.triadByte 1 (a + i)) (d.triadByte 2 (a + i)))

/-- A word with uncorrectable errors in the copies of a set (R491): one copy takes the vote; two or more are fatal. -/
def Dev.eccRepair (a : Nat) (bad : BitVec 3) (d : Dev) : Dev :=
  match [0, 1, 2].filter (fun c => bad.getLsbD c) with
  | [] => d
  | [c] => ((d.setCopy c a (d.votedBytes a 4)).raise 0x90 7).bumpSat Reg.TRIAD_ECC_STAT 31 16
  | _ => d.triadFatal 7

/-- A core stores to its own copy: the line enters its map, and the address and the data enter its digest. -/
def Dev.coreStore (c a : Nat) (bs : List Byte) (d : Dev) : Dev :=
  (d.setCopy c a bs).modCore c (fun k => { k with
    lines := if k.lines.contains (a / 32) then k.lines else (a / 32) :: k.lines
    digest := word (Machine.crcFeed crc32cParams k.digest.toNat (wordBytes (word a) ++ wordBytes (wordOfBytes bs))) })

/-- TRIAD_TCM_ACCESS (R490, R491): core `c` loads from its own copy, or stores to it; `bad` names the copies in which the word has
an uncorrectable error. A load's value stands in `readData`. -/
def execTriadTcmAccess (c : Fin 3) (addr : BitVec 32) (bytes : Nat) (st : Option Word) (bad : BitVec 3) (s : State) :
    Host.Outcome State Fault Refusal :=
  s.onDev (fun d =>
    let a := addr.toNat
    if !d.triadRuns || decide (regionOf a ≠ .triad ∨ regionOf (a + bytes - 1) ≠ .triad ∨ 4 < bytes ∨ bytes = 0) then d else
    let d := d.eccRepair (a - a % 4) bad
    if !d.triadRuns then d else
    match st with
    | none => (Dev.putReadData (wordOfBytes (d.copyBytes c.val a bytes)) d)
    | some v => d.coreStore c.val a ((wordBytes v).take bytes))

/-! ### Exceptions and interrupts of a core (R499, R500) -/

/-- The machine-mode trap of the published architecture: cause, value, and the handler's base (spec/14 uses RV32 as published); an
interrupt with vectors goes to its own. -/
def TriadCore.trap (cause : Nat) (tval : Word) (k : TriadCore) : TriadCore :=
  let mie := bitAt 3 k.mstatus
  let base := k.mtvec &&& ~~~ fieldMask 1 0
  { k with
    mepc := k.pc, mcause := word cause, mtval := tval
    mstatus := put 12 11 3 (setBit 3 false (setBit 7 mie k.mstatus))
    pc := if 2 ^ 31 ≤ cause ∧ Machine.fld 1 0 k.mtvec = 1 then base + word (4 * (cause % 2 ^ 31)) else base }

/-- Bit `i` of most cores. -/
def Dev.mostCores (d : Dev) (f : TriadCore → Bool) : Bool := 2 ≤ ([0, 1, 2].filter (fun c => f (d.core c))).length

/-- Events routed to the triad, pending as `level` (R499): each core latches it at its own cycle, the cores of `differ` otherwise; the
majority is delivered, and where it is pending and most cores enable the machine external interrupt, every core takes that interrupt
after the same instruction, none else. -/
def Dev.triadEvents (level : Bool) (differ : BitVec 3) (d : Dev) : Dev :=
  let d := each [0, 1, 2] (fun c d => d.modCore c (fun k => { k with eip := level != differ.getLsbD c })) d
  let most := d.mostCores (fun k => k.eip)
  let d := d.modTriad (fun t => { t with events := most })
  d.when (most && d.mostCores (fun k => bitAt 3 k.mstatus && bitAt 11 k.mie)) (fun d =>
    each [0, 1, 2] (fun c d => d.modCore c (TriadCore.trap (2 ^ 31 + 11) 0)) d)

/-! ### Sync points (R495, R501 to R505) -/

/-- A core's digest at a sync point: its stores, then x1 to x31, f0 to f31 and the PC (R502). -/
def TriadCore.finish (k : TriadCore) : Word :=
  word (crcResult crc32cParams (crcFeed crc32cParams k.digest.toNat
    (((List.range 31).flatMap (fun i => wordBytes (vget 0 k.x (i + 1)))) ++ ((List.range 32).flatMap (fun i => wordBytes (vget 0 k.f i))) ++
      wordBytes k.pc)))

/-- The comparison of the digests of the judged copies (R503): the copy found LATENT, or a fatal outcome. -/
def digestOutcome (judged : List (Nat × Word)) : Option Nat × Bool :=
  match judged with
  | [(a, x), (b, y), (c, z)] =>
    if x = y then (if y = z then (none, false) else (some c, false))
    else if x = z then (some b, false)
    else if y = z then (some a, false)
    else (none, true)
  | [(_, x), (_, y)] => (none, x != y)
  | _ => (none, false)

/-- The digest that two copies at least share. -/
def majorityDigest (x y z : Word) : Option Word := if x = y ∨ x = z then some x else if y = z then some y else none

/-- The repair of R504: each odd copy takes registers, PC, CSRs and the stored lines of the lowest-numbered copy that is not odd. -/
def Dev.resync (wasOdd : List Nat) (d : Dev) : Dev :=
  match [0, 1, 2].find? (fun c => !wasOdd.contains c) with
  | none => d
  | some src =>
    let lines := ((d.core 0).lines ++ (d.core 1).lines ++ (d.core 2).lines).eraseDups
    let k := d.core src
    let d := each wasOdd (fun c d =>
      let d := d.modCore c (fun _ => k)
      each lines (fun l d => d.setCopy c (32 * l) (d.copyBytes src (32 * l) 32)) d) d
    ((d.setFld Reg.TRIAD_STAT 10 8 0).setBit Reg.TRIAD_STAT 4 false).raise 0x90 6

/-- A voter passes its self-test (R495): it delivers the uninverted value and attributes the disagreement to the copy that SYNC_CNT
names. -/
def Dev.voterPasses (d : Dev) (v : VoterTest) : Bool :=
  v.wrong == 0 && v.blame.any (fun c => c.val == d.fld Reg.TRIAD_DIGEST_STAT 31 16 % 3)

/-- SYNC_POINT (R495, R501 to R505), each millisecond after the release: the voters' self-test, the digests and their comparison, and
the repair of copies that were odd before. -/
def execSyncPoint (va vb : VoterTest) (s : State) : Host.Outcome State Fault Refusal :=
  s.onDev (fun d =>
    if !d.triadRuns || d.now < d.triad.nextSync then d else
    let voterOk := d.voterPasses va && d.voterPasses vb
    let d := (d.modTriad (fun t => { t with nextSync := t.nextSync + 400000 })).bumpWrap Reg.TRIAD_DIGEST_STAT 31 16
    if !voterOk then d.triadFatal 5 else
    let d := d.bumpWrap Reg.TRIAD_VTEST 31 16
    let wasOdd := [0, 1, 2].filter d.odd
    let g := [0, 1, 2].map (fun c => (d.core c).finish)
    let d := each [0, 1, 2] (fun c d => d.setReg (Reg.TRIAD_DIGEST c) (nth 0 g c)) d
    let agree := match majorityDigest (nth 0 g 0) (nth 0 g 1) (nth 0 g 2) with
      | some x => [0, 1, 2].foldl (fun a c => if nth 0 g c = x then a + 2 ^ c else a) 0
      | none => 0
    let d := d.setFld Reg.TRIAD_DIGEST_STAT 2 0 agree
    let o := digestOutcome (([0, 1, 2].filter (fun c => !wasOdd.contains c)).map (fun c => (c, nth 0 g c)))
    if o.2 then d.triadFatal 2 else
    let d := match o.1 with
      | some c => d.markOdd c 1
      | none => d
    if !d.triadRuns then d else
    let d := if wasOdd.isEmpty then d else d.resync wasOdd
    let keep := o.1.isSome
    each [0, 1, 2] (fun c d => d.modCore c (fun k => { k with
      digest := 0xFFFFFFFF, lines := if keep then k.lines else [] })) d)

/-! ### Mailboxes (R507, R508) -/

/-- A write of MBX_POST. -/
def Dev.mbxPostOp (m : Master) (v : Word) (d : Dev) : Dev :=
  if d.bit Reg.TRIAD_MBX_STAT 0 then d.discard m Reg.TRIAD_MBX_POST
  else if !bitAt 16 v then d
  else if Machine.fld 15 0 v = d.fld (Reg.gen 0x90) 15 0 then d.setBit Reg.TRIAD_MBX_STAT 0 true
  else d.raise 0x90 30

/-- TRIAD_MBX_POST (R507). -/
def execTriadMbxPost (m : Master) (v : Word) (s : State) : Host.Outcome State Fault Refusal :=
  s.onDev (fun d => d.accessWrite m Reg.TRIAD_MBX_POST v (Dev.mbxPostOp m v))

/-- A write of an inbound word, discarded while a message waits. -/
def Dev.mbxInOp (m : Master) (k : Nat) (v : Word) (d : Dev) : Dev :=
  if d.bit Reg.TRIAD_MBX_STAT 0 then d.discard m (Reg.TRIAD_MBX_IN k) else d.setReg (Reg.TRIAD_MBX_IN k) v

/-- A write of MBX_ACK: the triad's alone. -/
def Dev.mbxAckOp (m : Master) (v : Word) (d : Dev) : Dev :=
  if m ≠ .triad then d.discard m Reg.TRIAD_MBX_ACK
  else if bitAt 0 v && d.bit Reg.TRIAD_MBX_STAT 0 then
    ((d.setBit Reg.TRIAD_MBX_STAT 0 false).bumpWrap Reg.TRIAD_MBX_STAT 31 16).raise 0x90 8
  else d

/-- MBX_ACK (R507). -/
def execMbxAck (m : Master) (v : Word) (s : State) : Host.Outcome State Fault Refusal :=
  s.onDev (fun d => d.accessWrite m Reg.TRIAD_MBX_ACK v (Dev.mbxAckOp m v))

/-- A write of MBX_OUT_SEQ, and of an outbound word: read-only for every other master. -/
def Dev.mbxOutSeqOp (m : Master) (v : Word) (d : Dev) : Dev :=
  if m = .triad then (d.setReg Reg.TRIAD_MBX_OUT_SEQ (v &&& 0xFFFF)).raise 0x90 9 else d
def Dev.mbxOutOp (m : Master) (k : Nat) (v : Word) (d : Dev) : Dev :=
  if m = .triad then d.setReg (Reg.TRIAD_MBX_OUT k) v else d

/-- MBX_OUT_SEQ (R508). -/
def execMbxOutSeq (m : Master) (v : Word) (s : State) : Host.Outcome State Fault Refusal :=
  s.onDev (fun d => d.accessWrite m Reg.TRIAD_MBX_OUT_SEQ v (Dev.mbxOutSeqOp m v))

end Sys2Proof.Machine
end

