-- ==== Sys2Proof/Machine/View.lean ====
section
/-!
DEFINITION. What a read of a register returns: the stored bits, and in the registers that show another part of the device the
bits computed from it; and a read over the bus with its permissions and side effects (R14, R16, R19, R44, R65, R80).
-/

namespace Sys2Proof.Machine

/-! ### Events (R58, R72 to R77) -/

/-- The pending bits of a page that follow EVT_ROUTE, and those that follow HPB_ROUTE (R569). -/
def Dev.pendMain (d : Dev) (page : Nat) : Word :=
  if 0x80 ≤ page ∧ page ≤ 0x83 then d.pend page &&& ~~~ bitMask 6 else d.pend page
def Dev.pendHpb (d : Dev) (page : Nat) : Bool := decide (0x80 ≤ page ∧ page ≤ 0x83) && bitAt 6 (d.pend page)

/-- A route register delivers to a target: 0 HOST, 1 MEDLAR, 2 TRIAD, 3 SLOE. -/
def Dev.routedTo (d : Dev) (page t : Nat) : Bool :=
  (d.pendMain page != 0 && d.bit (Reg.evtRoute page) t) || (d.pendHpb page && d.bit (Reg.MB_HPB_ROUTE (page - 0x80)) t)

/-- A route register delivers to engine `e`. -/
def Dev.routedToEngine (d : Dev) (page e : Nat) : Bool :=
  let names (w : Word) : Bool := bitAt 4 w && Machine.fld 11 8 w == e
  (d.pendMain page != 0 && names (d.reg (Reg.evtRoute page))) || (d.pendHpb page && names (d.reg (Reg.MB_HPB_ROUTE (page - 0x80))))

/-- A warm or cold episode holds its pages: its release sequence has not begun (R105). -/
def Dev.inReset (d : Dev) : Bool :=
  match d.reset.episode with
  | some .warm | some .cold => !d.reset.releasing
  | some .plane | none => false

/-- IRQ_N is low (R73, R97): high through a warm or cold reset but for the crystal fault (R105). -/
def Dev.irqLow (d : Dev) : Bool := d.clocks.xtalFault || (!d.inReset && allPages.any (fun p => d.routedTo p 0))

/-- Bits p − 32k of the pages for which a condition holds. -/
def pageBits (k : Nat) (p : Nat → Bool) : Word :=
  word ((allPages.filter (fun q => q / 32 == k && p q)).foldl (fun a q => a + 2 ^ (q % 32)) 0)

/-! ### Power states (R127) -/

/-- PSTATE: 0 RESET, 1 GATED, 2 IDLE, 3 ACTIVE. A block that the table of R127 does not list is in a free one of the last three
(DESIGN CHOICE, log entry 81); an Ethernet port is ACTIVE in the ticks in which it carries a frame (log entry 82). -/
def Dev.pstate (d : Dev) (page : Nat) : Nat :=
  let en (b busy : Bool) : Nat := if !b then 1 else if busy then 3 else 2
  if d.pageHeld page then 0 else
  match pageKind? page with
  | some (.le, e) => en (d.bit (Reg.LE_CTRL e) 0 && d.estate e != 0) (d.estate e == 1 || d.estate e == 3 || d.estate e == 4)
  | some (.pg, g) => en (d.groupEn g) (d.gstate g == 1 || d.gstate g == 2 || d.gstate g == 3)
  | some (.fl, n) => en (d.bit (Reg.FL_CTRL n) 0 && d.fld (Reg.FL_STAT n) 2 0 != 0) (decide (d.now < (d.lane n).busyUntil))
  | some (.ac, c) => en (d.convEn c) (d.seqRuns c || d.calOn c || (d.convMode c != 0 && d.convClocked c))
  | some (.sd, q) => en (d.bit (Reg.SD_CTRL q) 0) ((List.range 8).any (fun i => d.sdOn (8 * q + i) && d.sdClocked (8 * q + i)))
  | some (.pf, n) => en (d.bit (Reg.PF_CTRL n) 0) (d.bit (Reg.PF_STAT n) 4 || d.fld (Reg.PF_STAT n) 2 0 == 3)
  | some (.mc, n) => en (d.bit (Reg.MC_CTRL n) 0) (d.fld (Reg.MC_STAT n) 3 0 != 0)
  | some (.mb, n) => en (d.bit (Reg.MB_CTRL n) 0) (d.bit (Reg.MB_STAT n) 3)
  | some (.crc, n) => en (d.crcOn n) (d.crcBusy n || (vget {} d.crcs n).fedAt == some d.now)
  | some (.eth, n) => en (d.bit (Reg.ETH_CTRL n) 0) (vget none d.net.busyAt n == some d.now)
  | some (.triad, _) => en d.triad.released (d.triadRuns && Config.executes page d.now)
  | some (.mgt, _) => en d.medlarUp (Config.executes page d.now)
  | some (.dram, _) => en (d.fld Reg.DRAM_STAT 2 0 == 3) (d.dramAt == some d.now)
  | _ => 1 + Config.otherState page d.now % 3

/-- PWR: PSTATE with the stored ACT_CNT (R58, R129). -/
def Dev.pwrView (d : Dev) (page : Nat) : Word := put 2 0 (d.pstate page) (d.reg (Reg.pwr page))

/-! ### The boot ROM (R108 to R112) -/

/-- SYS.BOOT.STAGE while the ROM boots from flash (R110, R111): ROM start in the tick of its start; READ while it reads the header and
copies the firmware, 25 MB/s or 16 ticks a byte; VERIFY from then on (log entry 83). -/
def Dev.romStage (d : Dev) (start : Nat) : Nat :=
  let h := d.bootHeader
  if d.now = start then 0
  else if !h.valid || decide (0x100000 < h.fwLen) || decide (d.now < start + 16 * h.fwLen) then 1
  else 2

/-- SYS.BOOT (R111). -/
def Dev.bootView (d : Dev) : Word :=
  match d.romAt with
  | some t => put 3 0 (d.romStage t) (d.reg Reg.SYS_BOOT)
  | none => d.reg Reg.SYS_BOOT

/-! ### Registers that show other parts of the device -/

/-- PGg.STAT.DIR: the carrier counts down. -/
def Dev.carrierDown (d : Dev) (g : Nat) : Bool :=
  let x := d.group g
  x.running && (d.fld (Reg.PG_CARRIER g) 1 0 == 1 || (d.upDown g && decide (x.carLen / 2 ≤ d.now - x.carStart)))

/-- PGg.STAT (R300, R330). -/
def Dev.pgStat (d : Dev) (g : Nat) : Word :=
  let masked := d.bit (Reg.PG_CMASK_CFG g) 0 && d.fld (Reg.PG_CMASK g) 7 0 != 0
  let lock := d.lockNow g
  let forced := [0, 1, 2, 3].any (fun k => d.forceMode g k != 0)
  d.reg (Reg.PG_STAT g) ||| place 3 3 (b2n (d.carrierDown g)) ||| place 5 5 (b2n lock) ||| place 16 16 (b2n (d.latched g)) |||
    place 17 17 (b2n (d.sloeHolds g)) ||| place 18 18 (b2n forced) ||| place 19 19 (b2n masked)

/-- CFG.STATE with its mirrors (R166). -/
def Dev.cfgState (d : Dev) : Word :=
  d.reg Reg.CFG_STATE ||| place 8 8 (b2n (d.bit Reg.SAFE_STAT 0)) ||| place 9 9 (b2n (d.bit Reg.SLOE_STAT 16)) |||
    place 10 10 (b2n d.triad.released) ||| place 11 11 (b2n (natBit 7 d.faults))

/-- The IPv4 address in use (R633). -/
def Dev.ipv4 (d : Dev) (n : Nat) : Word :=
  match d.mgmt.service with
  | some x => x.ipv4
  | none => word (0xA9FE0100 + (Config.linkLocal n).toNat % 0xFE00)

/-- The MAC address of a port: the fused base plus its number (R633). -/
def Dev.macOf (d : Dev) (n : Nat) : Nat := (d.fuses.mac + n) % 2 ^ 48

/-- A read of the register at a page and offset, without side effects; TIME_HI as latched for the master. -/
def Dev.view (d : Dev) (m : Master) (page off : Nat) : Word :=
  let key := page * 0x1000 + off
  let raw := d.reg key
  if off = 0x014 then d.pend page
  else if off = 0x020 then d.pwrView page
  else match pageKind? page with
  | some (.sys, _) => if off = 0x54 then d.bootView else raw
  | some (.cfg, _) =>
    if off = 0x40 then d.cfgState
    else if off = 0x64 then place 1 1 (b2n d.fuses.sigRequired) ||| place 0 0 (b2n d.fuses.keyHash.isSome)
    else raw
  | some (.clk, _) =>  -- SEL 9 to 15 name no domain: COUNT reads 0 (DESIGN CHOICE, log entry 84)
    if off = 0x54 then put 15 0 (vget 0 d.clocks.counts (Machine.fld 31 28 raw)) raw else raw
  | some (.evt, _) =>
    if 0x40 ≤ off ∧ off < 0x60 then pageBits ((off - 0x40) / 4) (fun p => d.routedTo p 0)
    else if 0x60 ≤ off ∧ off < 0x80 then pageBits ((off - 0x60) / 4) (fun p => d.routedTo p 1)
    else if 0x80 ≤ off ∧ off < 0xA0 then pageBits ((off - 0x80) / 4) (fun p => d.routedTo p 2)
    else raw
  | some (.ts, _) =>
    if off = 0x40 then word d.devTime
    else if off = 0x44 then (match d.timeHi.find? (fun e => e.1 == m) with | some e => e.2 | none => 0)
    else raw
  | some (.le, e) =>
    if off = 0x08 then put 15 4 ((d.engine e).lockHeld ||| (d.engine e).lockAbort).toNat raw
    else if 0xA0 ≤ off ∧ off < 0xC0 then pageBits ((off - 0xA0) / 4) (fun p => d.routedToEngine p e)
    else if 0x2A0 ≤ off ∧ off < 0x2C0 then (vget {} (d.engine e).slots ((off - 0x2A0) / 4)).visible
    else raw
  | some (.pg, g) =>
    if off = 0x08 then d.pgStat g
    else if off = 0x60 then put 2 1 (b2n (d.engineLock g) + 2 * b2n (d.lockNow g)) raw
    else if off = 0x74 then
      (if (d.group g).running then place 31 31 (b2n (d.carrierDown g)) ||| place 19 0 (d.now - (d.group g).carStart) else 0)
    else if off = 0x118 then raw ||| (word (d.activeCauses g 0) &&& 0xFFFE)
    else if off = 0x128 then place 31 31 (b2n (d.sloeHolds g)) ||| (d.act (Reg.SLOE_PSAFE g) &&& 0x010F00FF)
    else raw
  | some (.pwmsys, _) =>
    if off = 0x140 then word d.tripIn.toNat
    else if off = 0x54 then word (twelve.foldl (fun a g => if d.bit (Reg.PG_STAT g) 6 then a + 2 ^ g else a) 0)
    else raw
  | some (.fl, n) => if off = 0x58 then word (if d.lstate n = 0 ∧ (d.lane n).since = 0 then 0 else d.ltick n) else raw
  | some (.pf, n) =>
    if off = 0x08 then put 5 5 (b2n (d.pfUnit n (Reg.PF_EMU_CFG n) && !d.emuValid n)) raw else raw
  | some (.ac, c) =>
    if off = 0x08 then
      let v := d.converter c
      let busy := d.seqRuns c || d.calOn c || (d.convLive c && d.convMode c != 0 && d.convClocked c)
      raw ||| place 2 2 (b2n v.pending) ||| place 1 1 (b2n busy) ||| place 0 0 (b2n (d.refReady (c / 12)))
    else raw
  | some (.adcsys, _) =>
    if off = 0x60 then raw ||| word (twelve.foldl (fun a k => if d.interleaving k then a + 2 ^ k else a) 0) else raw
  | some (.triad, _) => if off = 0x54 then put 31 24 (Nat.min d.recentFindings.length 255) raw else raw
  | some (.sloe, _) =>
    if off = 0x8C then
      word d.sloe.hold.toNat ||| place 16 16 (b2n (d.sloe.holdOff != 0))
    else raw
  | some (.safe, _) =>
    if 0x160 ≤ off ∧ off < 0x180 then wordIn (d.sloe.log.headD []) (off - 0x160) else raw
  | some (.mb, n) =>
    if off = 0x58 then d.tsc n
    else if 0x400 ≤ off ∧ off < 0x450 then d.winRead n 0 (off - 0x400)
    else if 0x480 ≤ off ∧ off < 0x4D0 then d.winRead n 1 (off - 0x480)
    else raw
  | some (.crc, n) =>
    let u := d.crcNow (Fin.ofNat 4 n)
    if off = 0x68 then u.crcResult n else u.reg key
  | some (.scrub, _) =>
    let running := fun at_ => put 30 30 (b2n (decide (at_ ≤ d.now))) raw
    if off = 0x40 then running d.mgmt.sramAt else if off = 0x44 then running d.mgmt.dramPassAt else raw
  | some (.host, _) => if off = 0x4C then word (64 - d.host.queue.length) else raw
  | some (.eth, n) =>
    if off = 0x40 then word (d.macOf n)
    else if off = 0x44 then word (d.macOf n / 2 ^ 32)
    else if off = 0x48 then d.ipv4 n
    else raw
  | some (.gpio, _) => if off = 0x50 then d.gpioIn else raw
  | _ => raw

/-- A read of a page as R14, R16, R65 and R80 give it: a shadow offset returns the RWC fields of the shadow, a page held in reset
its ID alone, a register its readable bits. -/
def Dev.pageRead (d : Dev) (m : Master) (page off : Nat) : Word :=
  let key := page * 0x1000 + off
  if d.pageHeld page then (if off = 0 then d.reg key else 0)
  else if 0x800 ≤ off then
    (match regAt (key - 0x800) with
     | some (_, _, r, _) => d.sh (key - 0x800) &&& word r.rwc
     | none => 0)
  else match regAt key with
    | some (_, _, r, _) => d.view m page off &&& word r.readMask
    | none => 0

/-- Reads that a page refuses beyond the access table: window 1 of a message bus controller is Medlar's (R564). -/
def readBarred (m : Master) (page off : Nat) : Bool := 0x80 ≤ page && page ≤ 0x83 && 0x480 ≤ off && off < 0x4D0 && m != .medlar

/-- A read of TIME_LO latches TIME_HI for the reading master (R639). -/
def Dev.latchTime (m : Master) (d : Dev) : Dev :=
  (Dev.putTimeHi ((m, word (d.devTime / 2 ^ 32)) :: d.timeHi.filter (fun e => e.1 != m)) d)

/-- A read of CW_DATA returns the word that CW_ADDR names (R223): the plain value, no error found. -/
def Dev.readEffect (m : Master) (page off : Nat) (d : Dev) : Word × Dev :=
  let v := d.pageRead m page off
  if d.pageHeld page then (v, d.when (off != 0) (Dev.refuseSys m (page * 0x1000 + off + 0x40000000) false))
  else if page = 5 ∧ off = 0x40 then (v, d.latchTime m)
  else if 0x10 ≤ page ∧ page ≤ 0x1B ∧ off = 0x214 then d.cwReadOp m (page - 0x10) .ok
  else (v, d)

/-- Whether the access table lets a master read an address (R43, R44). -/
def Dev.readOk (d : Dev) (m : Master) (a : Nat) : Bool :=
  d.mayAccess m false a && match regionOf a with
    | .page p off => !readBarred m p off
    | _ => true

/-- The bytes of a word that a read of `bytes` bytes at an address takes (R14): from the addressed one upward, within the word; a
32-bit read at no multiple of 4 takes the word below it, and a narrower read ends at the word's end (DESIGN CHOICE, log entry 85). -/
def lanesOf (a bytes : Nat) (w : Word) : Word :=
  if 4 ≤ bytes then w else (w >>> (8 * (a % 4))) &&& word (2 ^ (8 * bytes) - 1)

/-- A read of `bytes` bytes over the bus (R14, R44): a refused read returns zero and is logged; the value stands in `readData` too. -/
def Dev.busRead (m : Master) (a bytes : Nat) (d : Dev) : Word × Dev :=
  let low := a - a % 4
  let r : Word × Dev :=
    if !d.readOk m low then
      (match regionOf low with
       | .page p _ => (0, if d.pageHeld p then d.refuseSys m a false else d.refuse m p a false)
       | _ => (0, d.refuseSys m a false))
    else match regionOf low with
      | .page p off => d.readEffect m p off
      | .dram => (d.wordAt low, d.touchDram)
      | _ => (d.wordAt low, d)
  let v := lanesOf a bytes r.1
  (v, Dev.putReadData v r.2)

/-- The registers that hardware replaces in one FAB cycle, where a read of that cycle returns the values from before it: the snapshots
(R33), and RESULT, RUN, BYTES and STAT of a check-value unit (R597). -/
def replacedInCycle (page off : Nat) : Bool :=
  match pageKind? page with
  | some (.acc, _) | some (.mmx, _) => true
  | some (.crc, _) => off == 0x08 || off == 0x64 || off == 0x68 || off == 0x78
  | _ => false

/-- A word over the bus for a port that reads many: with `same`, one that arrives in the FAB cycle in progress; `ecc` says what error
correction found where it lies in a TCM of a loop engine (R218, R219). -/
def Dev.portRead (m : Master) (a : Nat) (ecc : Ecc) (same : Bool) (d : Dev) : Word × Dev :=
  let r := d.busRead m a 4
  let r : Word × Dev := match regionOf a with
    | .page p off => if same && replacedInCycle p off then ({ d with regs := d.cyc.regs }.busRead m a 4 |>.1, r.2) else r
    | .leProg e | .leData e =>
      if !d.readOk m (a - a % 4) then r
      else if ecc == Ecc.corrected then (r.1, r.2.eccCorrected e)
      else if ecc == Ecc.uncorrectable then (let q := r.2.free; (q.1, q.2.eccUnc e ((a - tcmBase e) / 8)))
      else r
    | _ => r
  (r.1, Dev.putReadData r.1 r.2)

/-- TIME_LO_READ (R639): a read of bytes of TIME_LO, the whole register or narrower. -/
def execTimeLoRead (m : Master) (lane : Fin 4) (bytes : Nat) (s : State) : Host.Outcome State Fault Refusal :=
  s.onDev (fun d => (d.busRead m (0x40005040 + lane.val) bytes).2)

end Sys2Proof.Machine
end

