-- ==== Sys2Proof/Machine/Roles.lean ====
section
/-!
DEFINITION. What a change of commit-protected fields does beside the register itself, whether a direct write or a transfer makes
it (R67, R74, R211, R231, R257, R262, R296, R304, R379, R385, R405, R411, R412, R420, R454, R608).
-/

namespace Sys2Proof.Machine

/-- A field of a register differs from what it was. -/
def Dev.changed (d old : Dev) (k hi lo : Nat) : Bool := old.fld k hi lo != d.fld k hi lo

/-- A register differs from what it was. -/
def Dev.changedReg (d old : Dev) (k : Nat) : Bool := old.reg k != d.reg k

/-- LE page: a change of EN or TAG of a publish slot is a role change (R257); swaps that no longer wait are carried out (R231). -/
def Dev.leTaken (old : Dev) (e : Nat) (d : Dev) : Dev :=
  let d := each (List.range 8) (fun j d =>
    if d.changed old (Reg.LE_BR_SLOT e j) 8 0 then
      (d.bumpGen (0x10 + e)).modEngine e (fun x => { x with slots := vmod {} x.slots j (fun _ => {}) })
    else d) d
  d.swapIdle e

/-- PG page: the timebase (R262), the dither's restart (R296), causes that stand as levels under the new enables (R304), and the
legs under the new settings. -/
def Dev.pgTaken (old : Dev) (hit : Nat → Bool) (g : Nat) (d : Dev) : Dev :=
  let d := d.when (d.changed old (Reg.PG_CTRL g) 0 0) (Dev.groupEnable g (d.groupEn g))
  let d := d.when (d.syncMode g != old.syncMode g && d.groupEn g && !(d.group g).running) (Dev.awaitStart g)
  let d := d.when (hit (Reg.PG_DITHER g)) (Dev.ditherRestart g)
  let d := d.when ([Reg.PG_TRIP_EN g, Reg.PG_TRIP_CMP_LO g, Reg.PG_TRIP_CMP_HI g, Reg.PG_TRIP_SD g].any (d.changedReg old))
    (Dev.tripLevels g)
  d.settle g

/-- The active state of a trip input follows its active level (R307), and its routing the groups it trips. -/
def Dev.tripInTaken (old : Dev) (i : Nat) (d : Dev) : Dev :=
  let k := Reg.PWMSYS_TRIP_IN i
  let d := d.when (d.changed old k 31 31) (Dev.tripInputSet i (!natBit i d.tripIn.toNat))
  d.when (d.changed old k 27 16 && natBit i d.tripIn.toNat) (Dev.tripFromInput i)

/-- AC page (R372, R379): a change of MODE or GROUP discards the pending trigger; a converter that no longer works stops; a pair
that begins to interleave starts its trim anew (R398). -/
def Dev.acTaken (old : Dev) (c : Nat) (d : Dev) : Dev :=
  let d := d.when (d.changed old (Reg.AC_CFG c) 1 0 || d.changed old (Reg.AC_CFG c) 11 8)
    (Dev.modConv c (fun x => { x with pending := false }))
  let d := d.when (!d.convEn c) (Dev.modConv c (fun _ => {}))
  d.when (d.interleaving (c / 2) && !old.interleaving (c / 2)) (Dev.trimStart (c / 2))

/-- ADCSYS page: reference buffers (R389), the kinds of the inputs (R369) and the modulator clocks (R399, R405). -/
def Dev.adcsysTaken (old : Dev) (d : Dev) : Dev :=
  let d := each [0, 1] (fun h d =>
    if !d.bit Reg.ADCSYS_REF h then d.refDrop h
    else d.when (!old.bit Reg.ADCSYS_REF h) (Dev.modAcq (fun a => { a with refAt := vset a.refAt h d.now }))) d
  let d := d.when (d.changedReg old Reg.ADCSYS_DIFF) Dev.cmpConfigured
  let ks := (List.range 6).filter (fun k => d.changedReg old (Reg.ADCSYS_SDCK k))
  d.when (!ks.isEmpty) (fun d => each (List.range 24) Dev.sdConfigured (each ks Dev.sdckStart d))

/-- ACC and MMX pages: a unit whose configuration changed starts at its next window boundary (R385). -/
def Dev.accTaken (old : Dev) (i : Nat) (d : Dev) : Dev :=
  let all := d.changed old (Reg.ACC_CTRL i) 0 0
  each (List.range 32) (fun k d =>
    let cfg := d.reg (Reg.ACC_CFG i k)
    d.when (all || d.changedReg old (Reg.ACC_CFG i k))
      (Dev.modAcc (32 * i + k) (AcqUnit.restart cfg (d.srcFault (cfgSrc cfg)) d.now))) d

def Dev.mmxTaken (old : Dev) (i : Nat) (d : Dev) : Dev :=
  let all := d.changed old (Reg.MMX_CTRL i) 0 0
  each (List.range 32) (fun k d =>
    let cfg := d.reg (Reg.MMX_CFG i k)
    d.when (all || d.changedReg old (Reg.MMX_CFG i k))
      (Dev.modMmx (32 * i + k) (AcqUnit.restart cfg (d.srcFault (cfgSrc cfg)) d.now))) d

/-- PF page: units that begin or cease to work (R420), and emulators whose source changes. -/
def Dev.pfTaken (old : Dev) (n : Nat) (d : Dev) : Dev :=
  let begins (k : Nat) : Bool := d.pfUnit n k && !old.pfUnit n k
  let d := d.when (begins (Reg.PF_ABZ_CFG n)) (Dev.setBit (Reg.PF_STAT n) 7 false)
  let d := d.when (d.pfUnit n (Reg.PF_HALL_CFG n) && (begins (Reg.PF_HALL_CFG n) || d.changedReg old (Reg.PF_HALL_CFG n)))
    (Dev.hallStart n)
  let ends (k : Nat) : Bool := !d.pfUnit n k && old.pfUnit n k
  let d := (d.when (begins (Reg.PF_SER_CFG n)) (Dev.serStart n)).when (ends (Reg.PF_SER_CFG n)) (Dev.serStop n)
  let d := if begins (Reg.PF_SPD_CFG n) then d.speedStart n else d.when (d.stillTicks n != old.stillTicks n) (Dev.speedRetimed old n)
  let d := d.when (ends (Reg.PF_CMP_CFG n)) (Dev.modPf n (fun p => { p with cmpOut := false, cmpPulse := false }))
  (if begins (Reg.PF_EMU_CFG n) then d.emuStart n else d.emuOne n).emuFollow n

/-- MC page: a unit that begins or ceases to work, or takes other legs (R454, R486). -/
def Dev.mcTaken (old : Dev) (n : Nat) (d : Dev) : Dev :=
  if d.mcOn n then
    let d := d.when (!old.mcOn n || d.changed old (Reg.MC_CFG n) 1 0 || d.changedReg old (Reg.MC_LEGS n)) (Dev.mcConfigured n)
    d.when (d.changedReg old (Reg.MC_CMPSEL n)) (fun d => (d.brakeUpdate n).overVoltCheck n)
  else d.when (old.mcOn n) (Dev.setMstate n 0)

/-- DRAM.STAT.PART_ERR of a partition as transferred (R608). -/
def Dev.partTaken (d : Dev) : Dev :=
  let cap := d.fld Reg.DRAM_PART 7 0
  let log := d.fld Reg.DRAM_PART 15 8
  d.setBit Reg.DRAM_STAT 9 (decide (cap < 1 ∨ log < 1 ∨ 64 < cap + log + 1))

/-- What a page's new commit-protected values do; `hit` says which registers were written. -/
def Dev.pageTaken (old : Dev) (hit : Nat → Bool) (page : Nat) (d : Dev) : Dev :=
  match pageKind? page with
  | some (.le, e) => Dev.leTaken old e d
  | some (.pg, g) => Dev.pgTaken old hit g d
  | some (.pwmsys, _) => each (List.range 13) (Dev.tripInTaken old) d
  | some (.fl, n) => d.when (d.changed old (Reg.FL_CTRL n) 0 0) (Dev.laneEnable n (d.bit (Reg.FL_CTRL n) 0))
  | some (.ac, c) => Dev.acTaken old c d
  | some (.adcsys, _) => Dev.adcsysTaken old d
  | some (.acc, i) => Dev.accTaken old i d
  | some (.mmx, i) => Dev.mmxTaken old i d
  | some (.cmp, _) => d.cmpConfigured
  | some (.sd, q) => each (List.range 8) (fun k d => Dev.sdConfigured (8 * q + k) d) d
  | some (.pf, n) => Dev.pfTaken old n d
  | some (.mc, n) => (Dev.mcTaken old n d).when (n == 0) (Dev.cmdinConfigured old)
  | some (.dram, _) => d.when (hit Reg.DRAM_PART) Dev.partTaken
  | _ => d

/-- What the new values of some pages do, ownership last (R209, R210). -/
def Dev.taken (old : Dev) (hit : Nat → Bool) (pages : List Nat) (d : Dev) : Dev :=
  let d := each pages (Dev.pageTaken old hit) d
  d.when (twelve.any (fun e => d.changedReg old (Reg.LE_OWN e))) Dev.resolveOwners

end Sys2Proof.Machine
end

