-- ==== Sys2Proof/Machine/Commit.lean ====
section
/-!
DEFINITION. The commands of the CFG page that change the commit state, and the commit itself (R63 to R69, R153 to R163); the block
and debug resets, which may end the wait of a commit (R89, R90, R96, R156).
-/

namespace Sys2Proof.Machine

/-! ### Commit-protected registers -/

/-- The RWC fields of the register at a key. -/
def rwcMask (key : Nat) : Word :=
  match regAt key with
  | some (_, _, r, _) => word r.rwc
  | none => 0

/-- The registers of a page that hold RWC fields, in ascending address order. -/
def rwcKeysOf (page : Nat) : List Nat := (pageKeys page).filter (fun k => rwcMask k != 0)

/-- Every register of the device that holds RWC fields, in ascending address order. -/
def rwcKeys : List Nat := allPages.flatMap rwcKeysOf

/-- The commit CRC (R66). -/
def Dev.commitCrc (d : Dev) : Word := crc32cWords (rwcKeys.map (fun k => d.sh k &&& rwcMask k))

/-- The shadows of a page transfer (R65, R67): registers and shadows become equal in their RWC fields, and the wait ends. -/
def Dev.transferPage (page : Nat) (d : Dev) : Dev :=
  let d := each (rwcKeysOf page) (fun k d => d.setReg k ((d.reg k &&& ~~~ rwcMask k) ||| (d.sh k &&& rwcMask k))) d
  (d.setBit (Reg.stat page) 30 false).noteCommit page

/-- The shadows of some pages transfer on one edge, with all that follows from the new values (R68). -/
def Dev.transfer (pages : List Nat) (d : Dev) : Dev :=
  Dev.taken d (fun _ => true) pages (each pages Dev.transferPage d)

/-! ### When a page transfers (R67, R68, R156, R212) -/

/-- The lowest-numbered group that triggers engine `e` (R212). -/
def Dev.boundaryOf (d : Dev) (e : Nat) : Option Nat := twelve.find? (fun g => natBit g (d.triggers e))

/-- The group at whose sample boundary a page transfers; none for a page that transfers at the end of the CRC step. -/
def Dev.boundaryGroup (d : Dev) (page : Nat) : Option Nat :=
  if 0x10 ≤ page ∧ page ≤ 0x1B then d.boundaryOf (page - 0x10) else pageGroup page

/-- The group's timebase runs as R156 counts it: EN is 1 and SYNC_WAIT is 0. -/
def Dev.timebaseRuns (d : Dev) (g : Nat) : Bool := d.groupEn g && !d.bit (Reg.PG_STAT g) 8

/-- A page has a sample boundary to wait for. -/
def Dev.hasBoundary (d : Dev) (page : Nat) : Bool :=
  match d.boundaryGroup page with
  | some g => d.timebaseRuns g
  | none => false

/-- The pages that wait for their boundary (STAT.COMMIT_WAIT). -/
def Dev.waitingPages (d : Dev) : List Nat := allPages.filter (fun p => d.bit (Reg.stat p) 30)

/-- The PTP servo learns of a commit's end (R640): its own is no longer busy; a mismatch of its own stops it until the next
COMMIT_DONE. -/
def Dev.servoEnd (done : Bool) (err : Nat) (d : Dev) : Dev :=
  let own := d.bit Reg.TS_SERVO_STAT 30
  let d := d.setBit Reg.TS_SERVO_STAT 30 false
  if done then (Dev.putNet { d.net with servoStop := false } d)
  else if own && err == 9 then
    let d := d.bumpSat Reg.TS_SERVO_STAT 23 16
    (Dev.putNet { d.net with servoStop := true } d)
  else d

/-- The commit completes once no page waits (R67). -/
def Dev.commitSettle (d : Dev) : Dev :=
  if d.commitBusy && !d.loader.crcStep && d.waitingPages.isEmpty then
    let d : Dev := (Dev.putLoader { d.loader with goodSet := some d.shadow } d)
    ((d.setBit Reg.CFG_STATE 4 false).raise 3 2).servoEnd true 0
  else d

/-- Pages that wait for a timebase that has stopped transfer (R156), and the commit completes where they were the last. -/
def Dev.commitRelease (d : Dev) : Dev :=
  if d.commitBusy && !d.loader.crcStep then
    (d.transfer (d.waitingPages.filter (fun p => !d.hasBoundary p))).commitSettle
  else d

/-- The sample boundary of group `g`: the pages that wait for it transfer; the frame that the boundary starts learns of an LE
page's transfer (R67, R68, R190, R212). -/
def Dev.commitBoundary (g : Nat) (d : Dev) : Dev :=
  let pages := d.waitingPages.filter (fun p => d.boundaryGroup p == some g)
  let engines := twelve.filter (fun e => pages.contains (0x10 + e))
  let d := d.transfer pages
  let d := each engines (fun e d => d.modEngine e (fun x => { x with commitAt := some d.now })) d
  d.commitRelease.commitSettle

/-! ### Commands of the CFG page (R158 to R163) -/

/-- CFG.RESULT of a command. -/
def Dev.cfgResult (code err sect : Nat) (d : Dev) : Dev :=
  d.setReg Reg.CFG_RESULT (place 31 24 code ||| place 23 16 err ||| place 8 0 sect)

/-- A refused command (R163): of no section, SECTION reads 0 here and after a failed commit, the field being that of a load
(DESIGN CHOICE, log entry 88). -/
def Dev.cfgRefuse (code err : Nat) (d : Dev) : Dev := (d.cfgResult code err 0).raise 3 6

/-- A command is in progress: a load or a commit. -/
def Dev.cfgBusy (d : Dev) : Bool := d.bit Reg.CFG_STATE 4 || d.bit Reg.CFG_STATE 5

/-- A command: refused with BUSY before any condition of its own while another is in progress (R163); else with the error of its
first condition that fails, 0 where all hold. -/
def Dev.cfgCommand (code err : Nat) (op : Dev → Dev) (d : Dev) : Dev :=
  if d.cfgBusy then d.cfgRefuse code 12
  else if err ≠ 0 then d.cfgRefuse code err
  else op (d.cfgResult code 0 0)

/-- A commit begins with its CRC step (R156). -/
def Dev.commitStart (d : Dev) : Dev :=
  let d := d.setBit Reg.CFG_STATE 4 true
  (Dev.putLoader { d.loader with crcStep := true } d)

/-- COMMIT accepted or refused (R158, R163). -/
def Dev.commitOp (d : Dev) : Dev := d.cfgCommand 0x10 (if d.cstate = 0 then 13 else 0) Dev.commitStart

/-- A group-gating field of a group that is not OFF differs between shadow and register (R69). -/
def Dev.liveGate (d : Dev) : Bool :=
  let differs (k i : Nat) : Bool := d.bit k i != bitAt i (d.sh k)
  twelve.any (fun g => d.gstate g != 0 &&
    (differs (Reg.PG_CTRL g) 0 || differs (Reg.PG_CTRL g) 17 || differs (Reg.FL_CTRL g) 0 || differs (Reg.MC_CTRL g) 0))

/-- A commit that ends without a transfer (R66, R69, R158). -/
def Dev.commitFail (err : Nat) (d : Dev) : Dev := (((d.setBit Reg.CFG_STATE 4 false).cfgResult 0x10 err 0).raise 3 3).servoEnd false err

/-- The CRC step ends (R66 to R69, R156 to R158). -/
def Dev.commitCrcEnd (d : Dev) : Dev :=
  let d := (Dev.putLoader { d.loader with crcStep := false } d)
  let crc := d.commitCrc
  let d := d.setReg Reg.CFG_COMMIT_CALC crc
  if crc ≠ d.reg Reg.CFG_COMMIT_EXP then d.commitFail 9
  else if d.liveGate then d.commitFail 19
  else
    let pages := allPages.filter (fun p => !(rwcKeysOf p).isEmpty)
    let wait := pages.filter d.hasBoundary
    let now := pages.filter (fun p => !d.hasBoundary p)
    let d := match d.mgmt.loaded with
      | some x => (Dev.putMgmt { d.mgmt with service := some x, rejoin := true } d)
      | none => d
    let d :=
      if d.cstate ≠ 1 then d.cfgResult 0x10 0 0
      else if d.bit Reg.SAFE_STAT 0 then (d.cfgResult 0x10 0 0).setCstate 2
      else d.cfgResult 0x10 10 0
    let d := each wait (fun p d => d.setBit (Reg.stat p) 30 true) d
    ((d.transfer now).commitRelease).commitSettle

/-- The error of ARM's first condition that fails (R160); `remote` marks Medlar acting for an Ethernet or CAN request. -/
def Dev.armError (m : Master) (remote : Bool) (d : Dev) : Nat :=
  if d.cstate ≠ 2 then 13
  else if !(d.bit Reg.SAFE_STAT 0 && d.bit Reg.SLOE_STAT 16) then 14
  else if natBit 7 d.faults || !d.triad.released then 15
  else if !(m == .host || (m == .medlar && remote && d.loader.remoteArm)) then 16
  else 0

/-- ARM (R160). -/
def Dev.armOp (m : Master) (remote : Bool) (d : Dev) : Dev := d.cfgCommand 0x20 (d.armError m remote) (Dev.setCstate 3)

/-- DISARM (R161). -/
def Dev.disarmOp (d : Dev) : Dev :=
  d.cfgCommand 0x21 (if d.cstate ≠ 3 then 13 else if !d.deviceOff then 20 else 0) (Dev.setCstate 2)

/-- ACK_SAFE (R161). -/
def Dev.ackSafeOp (d : Dev) : Dev :=
  d.cfgCommand 0x30 (if d.cstate ≠ 4 then 13 else if !d.deviceOff then 20 else if d.demands != 0 || d.faults != 0 then 14 else 0)
    (Dev.setCstate 2)

/-- The 64 bytes at CFG.IMG_ADDR lie in shared SRAM, on a multiple of 4 (R153). -/
def Dev.keyPlaceOk (d : Dev) : Bool :=
  let a := (d.reg Reg.CFG_IMG_ADDR).toNat
  a % 4 == 0 && decide (0x10000000 ≤ a ∧ a + 64 ≤ 0x10200000)

/-- The key hash burns into its fuses, once (R152, R153). -/
def Dev.burnHash (h : Nat) (d : Dev) : Dev :=
  match d.fuses.keyHash with
  | some _ => d
  | none => { d with fuses := { d.fuses with keyHash := some h } }

/-- BURN_KEY (R153). -/
def Dev.burnKeyOp (m : Master) (d : Dev) : Dev :=
  let err := if m ≠ .host then 16 else if d.cstate ≠ 0 ∨ d.fuses.keyHash.isSome = true then 13 else if !d.keyPlaceOk then 2 else 0
  d.cfgCommand 0x40 err (fun d =>
    d.burnHash (sha256 (d.bytesAt (d.reg Reg.CFG_IMG_ADDR).toNat 64)))

/-- SIG_REQUIRED burns (R152, R153). -/
def Dev.burnSig (d : Dev) : Dev := { d with fuses := { d.fuses with sigRequired := true } }

/-- BURN_SIGREQ (R153). -/
def Dev.burnSigreqOp (m : Master) (d : Dev) : Dev :=
  let err := if m ≠ .host then 16
    else if d.cstate ≠ 0 ∨ d.fuses.sigRequired = true ∨ d.fuses.keyHash.isNone = true then 13 else 0
  d.cfgCommand 0x41 err Dev.burnSig

/-! ### Meanings -/

/-- COMMIT (R156, R158). -/
def execCommit (m : Master) (s : State) : Host.Outcome State Fault Refusal :=
  s.onDev (fun d => d.accessWrite m Reg.CFG_CMD 0x10 Dev.commitOp)

/-- COMMIT_CRC_DONE (R66, R156). -/
def execCommitCrcDone (s : State) : Host.Outcome State Fault Refusal :=
  s.onDev (fun d => d.when d.loader.crcStep Dev.commitCrcEnd)

/-- ARM (R160). -/
def execArm (m : Master) (remote : Bool) (s : State) : Host.Outcome State Fault Refusal :=
  s.onDev (fun d => d.accessWrite m Reg.CFG_CMD 0x20 (Dev.armOp m remote))

/-- DISARM (R161). -/
def execDisarm (m : Master) (s : State) : Host.Outcome State Fault Refusal :=
  s.onDev (fun d => d.accessWrite m Reg.CFG_CMD 0x21 Dev.disarmOp)

/-- ACK_SAFE (R161). -/
def execAckSafe (m : Master) (s : State) : Host.Outcome State Fault Refusal :=
  s.onDev (fun d => d.accessWrite m Reg.CFG_CMD 0x30 Dev.ackSafeOp)

/-- BURN_KEY (R153). -/
def execBurnKey (m : Master) (s : State) : Host.Outcome State Fault Refusal :=
  s.onDev (fun d => d.accessWrite m Reg.CFG_CMD 0x40 (Dev.burnKeyOp m))

/-- BURN_SIGREQ (R153). -/
def execBurnSigreq (m : Master) (s : State) : Host.Outcome State Fault Refusal :=
  s.onDev (fun d => d.accessWrite m Reg.CFG_CMD 0x41 (Dev.burnSigreqOp m))

/-! ### Block and debug resets -/

/-- A write of 1 to CTRL.SRST that has passed its key, with the end of what a commit waits for (R96, R156); a check-value unit
that another master has claimed takes no write of CTRL (R598). -/
def Dev.blockResetOp (m : Master) (page : Nat) (d : Dev) : Dev :=
  if 0x88 ≤ page ∧ page ≤ 0x8B ∧ d.crcBarred m (page - 0x88) = true then d.discard m (Reg.ctrl page)
  else (d.srstOp m page).commitRelease

/-- SRST (R89, R96). -/
def execSrst (m : Master) (page : Nat) (s : State) : Host.Outcome State Fault Refusal :=
  s.onDev (fun d => if (pageKind? page).isSome then d.accessWrite m (Reg.ctrl page) 2 (Dev.blockResetOp m page) else d)

/-- JTAG_RESET (R90): only with the device OFF and not ARMED; the cores named are reset and halted. -/
def execJtagReset (t : JtagTarget) (s : State) : Host.Outcome State Fault Refusal :=
  s.onDev (fun d =>
    if !d.deviceOff || d.cstate == 3 then d else
    match t with
    | .engine n => (d.blockReset 2 (0x10 + n.val)).commitRelease
    | .triad => d.blockReset 2 0x90
    | .medlar => let d := d.blockReset 2 0x98; (Dev.putMgmt { d.mgmt with halted := true } d))

/-- ENGINE_WATCHDOG (R215): a block reset of the engine's page where its watchdog has counted to LIMIT. -/
def execEngineWatchdog (e : Fin 12) (s : State) : Host.Outcome State Fault Refusal :=
  s.onDev (fun d => d.when (d.wdtRuns e.val && decide (d.fld (Reg.LE_WDT e.val) 15 0 ≤ (d.engine e.val).wdtUs))
    (fun d => (d.blockReset 1 (0x10 + e.val)).commitRelease))

end Sys2Proof.Machine
end

