-- ==== Sys2Proof/Machine/Mgmt.lean ====
section
/-!
DEFINITION. The services of Medlar and the scrub engine (spec/18): event log, scrubbing, flash journal, safety-log transfer,
telemetry, and the commands of the MGT mailbox.
-/

namespace Sys2Proof.Machine

/-! ### Event log (R614, R615) -/

/-- Where the event-log region begins, and how many entries it holds (R608, R615). -/
def Dev.logBase (d : Dev) : Nat := 0x80000000 + d.partition.1 * 0x100000
def Dev.logSlots (d : Dev) : Nat := d.partition.2 * 0x8000

/-- The place of the entry with a SEQ: entries follow each other from the region's start and wrap. -/
def Dev.logPlace (d : Dev) (seq : Word) : Nat := d.logBase + 32 * ((seq - 1).toNat % d.logSlots)

/-- An entry of the event log (R615). -/
def logRecord (time : Nat) (seq : Word) (page kind : Nat) (bits stat : Word) : List Byte :=
  let body := bytesOfNat 8 time ++ wordBytes seq ++ bytesOfNat 2 page ++ bytesOfNat 1 kind ++ [0] ++ wordBytes bits ++
    wordBytes stat ++ [0, 0, 0, 0]
  body ++ wordBytes (crc32c body)

/-- An entry is written, and LOG_SEQ shows its SEQ. -/
def Dev.logWrite (page kind : Nat) (bits stat : Word) (d : Dev) : Dev :=
  let seq := d.reg Reg.MGT_LOG_SEQ + 1
  (d.touchDram.setBytes (d.logPlace seq) (logRecord d.devTime seq page kind bits stat)).setReg Reg.MGT_LOG_SEQ seq

/-- The 32 bytes of an entry are valid: their CRC matches. -/
def logValid (bs : List Byte) : Bool := crc32c (bs.take 28) == wordIn bs 28

/-- The entries of the log that may be valid: those with a byte written since the DRAM was zeroed, since an entry of zeros is not
valid; all of them where supplies out of range have left the contents open (R655). -/
def Dev.logPlaces (d : Dev) : List Nat :=
  let base := d.logBase
  if d.dramEpoch = 0 then
    let cells := (d.dram.map (fun c => c.1)).filter (fun a => base ≤ a && a < base + 32 * d.logSlots)
    (cells.map (fun a => base + (a - base) / 32 * 32)).eraseDups
  else (List.range d.logSlots).map (fun k => base + 32 * k)

/-- LOG_SEQ at a start of the firmware (R615): the highest SEQ of a valid entry; none where the DRAM is lost and has yet to be zeroed
(R99), and after it has been, since a DRAM of zeros holds no valid entry. -/
def Dev.logRecover (d : Dev) : Dev :=
  if d.reset.dramInit then d.setReg Reg.MGT_LOG_SEQ 0
  else
    let places := d.logPlaces
    let seqs := (places.map (fun a => d.bytesAt a 32)).filterMap (fun bs => if logValid bs then some (natIn bs 8 4) else none)
    d.setReg Reg.MGT_LOG_SEQ (word (seqs.foldl Nat.max 0))

/-- The bits of a page that are pending and routed to MEDLAR. -/
def Dev.pendMedlar (d : Dev) (page : Nat) : Word :=
  let main : Word := if d.bit (Reg.evtRoute page) 1 then d.pendMain page else 0
  let hpb : Word := if d.pendHpb page && d.bit (Reg.MB_HPB_ROUTE (page - 0x80)) 1 then bitMask 6 else 0
  main ||| hpb

/-- The bits of a page already recorded. -/
def Dev.recordedBits (d : Dev) (page : Nat) : Word := lookup (fun _ => (0 : Word)) page d.mgmt.recorded

/-- The recorded bits of a page replaced. -/
def Dev.setRecorded (page : Nat) (v : Word) (d : Dev) : Dev :=
  (Dev.putMgmt { d.mgmt with recorded := store (fun _ => (0 : Word)) page v d.mgmt.recorded } d)

/-- A bit that is no longer pending may be recorded again (R614). -/
def Dev.recordedTrim (page : Nat) (d : Dev) : Dev := d.setRecorded page (d.recordedBits page &&& d.pendMedlar page)

/-- An entry for the newly pending bits of a page. -/
def Dev.logEvent (page : Nat) (d : Dev) : Dev :=
  let bits := d.pendMedlar page &&& ~~~ d.recordedBits page
  if bits = 0 then d else (d.setRecorded page (d.pendMedlar page)).logWrite page 1 bits (d.view .medlar page 8)

/-- EVENT_LOG_ENTRY (R614, R615): newly pending bits, the oldest change of the commit state not yet recorded, or the reset cause of a
start not yet recorded, while Medlar runs and the DRAM is READY; STAT of a state entry is a free value. -/
def execEventLogEntry (k : LogKind) (s : State) : Host.Outcome State Fault Refusal :=
  s.onDev (fun d =>
    if !d.medlarUp || !d.dramReady then d else
    match k with
    | .event page => if (pageKind? page).isSome then d.logEvent page else d
    | .reset =>
      if d.mgmt.startDue then
        (Dev.putMgmt { d.mgmt with startDue := false } d).logWrite 0xFFFF 2 (d.reg Reg.RST_CAUSE) (d.reg Reg.RST_SEQ)
      else d
    | .state =>
      match d.mgmt.states with
      | c :: rest =>
        let r := Dev.free (Dev.putMgmt { d.mgmt with states := rest } d)
        r.2.logWrite 0xFFFF 3 (word c) r.1
      | [] => d)

/-! ### Scrubbing (R37, R616 to R618) -/

/-- Uncorrectable words: counted, and the first since the record was cleared kept with its address. -/
def Dev.scrubUnc (key keyAddr evt : Nat) (as : List Nat) (d : Dev) : Dev :=
  each as (fun a d =>
    let d := (d.bumpSat key 15 0).raise 0xA1 evt
    if d.bit key 31 then d else (d.setBit key 31 true).setReg keyAddr (word a)) d

/-- A pass misses its interval (R37): OVERRUN; else it is counted. -/
def Dev.passEnds (late : Bool) (stat : Nat) (d : Dev) : Dev :=
  if late then (d.setBit stat 31 true).raise 0xA1 4 else d.bumpWrap stat 15 0

/-- What a pass of the scrub engine over one kind of memory finds. -/
def Dev.scrubPass (fixed bad : List Nat) (corr unc uncAddr evt : Nat) (d : Dev) : Dev :=
  let d := d.when (!fixed.isEmpty) (fun d => (d.addSat corr 15 0 fixed.length).raise 0xA1 evt)
  d.scrubUnc unc uncAddr (evt + 1) bad

/-- The next interval of an activity of a period, after the end of its work in the one that began at `start` (R36, R37). -/
def nextInterval (start period now : Nat) : Nat := start + period * Nat.max 1 ((now - start) / period)

/-- An address lies in a memory that the SRAM pass covers (R616), and in the DRAM. -/
def inSramPass (a : Nat) : Bool :=
  match regionOf a with
  | .sram | .leProg _ | .leData _ | .triad => true
  | _ => false
def inDramPass (a : Nat) : Bool :=
  match regionOf a with
  | .dram => true
  | _ => false

/-- The words of Medlar's L2 that an SRAM pass corrected, and those it left uncorrectable (R616, R617): the spec gives the L2 no
addresses, so that the address recorded is a free value. -/
def Dev.scrubL2 (fixed bad : Nat) (d : Dev) : Dev :=
  let d := d.when (fixed != 0) (fun d => (d.addSat Reg.SCRUB_SRAM_CORR 15 0 fixed).raise 0xA1 0)
  if bad = 0 then d else
  let first := d.free
  first.2.scrubUnc Reg.SCRUB_SRAM_UNC Reg.SCRUB_SRAM_UNC_ADDR 1 (List.replicate bad first.1.toNat)

/-- The engine in whose TCM an address lies counts a corrected word (R218). -/
def Dev.tcmCorrected (a : Nat) (d : Dev) : Dev :=
  match regionOf a with
  | .leProg e | .leData e => d.eccCorrected e
  | _ => d

/-- An uncorrectable word at an address of a loop engine's TCM is its latest (R219). -/
def Dev.tcmUnc (a : Nat) (d : Dev) : Dev :=
  match regionOf a with
  | .leProg e | .leData e => d.eccUnc e ((a - tcmBase e) / 8)
  | _ => d

/-- The SRAM pass and the DRAM pass run once per second and once per 60 s (R616, R618), in ticks. -/
def sramPeriod : Nat := 400000000
def dramPeriod : Nat := 24000000000

/-- SRAM_SCRUB_PASS (R37, R218, R616, R617): the pass of the running interval ends, with OVERRUN where its second is over. The engines
count the words corrected in their TCMs; a triad word is repaired from its other copies, or fatal; words of Medlar's L2 count. -/
def execSramScrubPass (f : ScrubFindings) (s : State) : Host.Outcome State Fault Refusal :=
  s.onDev (fun d =>
    let start := d.mgmt.sramAt
    if d.pageHeld 0xA1 || decide (d.now < start) then d else
    let d := Dev.putMgmt { d.mgmt with sramAt := nextInterval start sramPeriod d.now } d
    let d := d.passEnds (decide (start + sramPeriod < d.now)) Reg.SCRUB_SRAM_STAT
    let fixed := f.fixed.filter inSramPass
    let bad := f.bad.filter inSramPass
    let d := d.scrubPass fixed bad Reg.SCRUB_SRAM_CORR Reg.SCRUB_SRAM_UNC Reg.SCRUB_SRAM_UNC_ADDR 0
    let d := each bad Dev.tcmUnc (each fixed Dev.tcmCorrected d)
    (each f.triadBad (fun t d => (d.scrubUnc Reg.SCRUB_SRAM_UNC Reg.SCRUB_SRAM_UNC_ADDR 1 [t.1]).eccRepair t.1 t.2) d).scrubL2
      f.l2Fixed f.l2Bad)

/-- DRAM_SCRUB_PASS (R37, R618): the pass waits while the controller is not READY, and sets OVERRUN where its 60 s are over. -/
def execDramScrubPass (f : ScrubFindings) (s : State) : Host.Outcome State Fault Refusal :=
  s.onDev (fun d =>
    let start := d.mgmt.dramPassAt
    let late : Bool := decide (start + dramPeriod < d.now)
    if d.pageHeld 0xA1 || decide (d.now < start) || (!late && !d.dramReady) then d else
    let d := Dev.putMgmt { d.mgmt with dramPassAt := nextInterval start dramPeriod d.now } d
    let d := d.passEnds late Reg.SCRUB_DRAM_STAT
    if !d.dramReady then d else
    d.touchDram.scrubPass (f.fixed.filter inDramPass) (f.bad.filter inDramPass) Reg.SCRUB_DRAM_CORR Reg.SCRUB_DRAM_UNC
      Reg.SCRUB_DRAM_UNC_ADDR 2)

/-! ### Flash journal (R619 to R621) -/

/-- The journal's region can be used: at least 256 KB, in units of 64 KB. -/
def Dev.journalUsable (d : Dev) : Bool :=
  let n := d.bootHeader.journalLen
  decide (0x40000 ≤ n) && n % 0x10000 == 0

/-- The journal fails (R619, R621). -/
def Dev.journalFail (d : Dev) : Dev := (d.setBit Reg.MGT_JOURNAL_STAT 30 true).raise 0x98 1

/-- FILL and ERASE_MAX after the journal's sectors have changed: free values, since R620 leaves a sector's layout open. -/
def Dev.journalStat (d : Dev) : Dev :=
  let r := d.free
  r.2.setReg Reg.MGT_JOURNAL_STAT ((d.reg Reg.MGT_JOURNAL_STAT &&& 0xC0000000) ||| (r.1 &&& 0x00FFFFFF))

/-- A record is appended, where the journal is in use. -/
def Dev.journalAppend (kind : Nat) (data : List Byte) (d : Dev) : Dev :=
  if d.bit Reg.MGT_JOURNAL_STAT 30 then d
  else
    let r : JournalRec := { kind := kind, step := if kind = 2 then (nth 0 data 1).toNat else 0, data := Config.journalRecord kind data }
    (Dev.putMgmt { d.mgmt with journal := r :: d.mgmt.journal } d).journalStat

/-- The newest `n` records of a kind. -/
def recordsOf (kind n : Nat) (l : List JournalRec) : List JournalRec := (l.filter (fun r => r.kind == kind)).take n

/-- The steps of the latest image write among steps that are newest first: those back to its first. -/
def latestWrite : List JournalRec → List JournalRec
  | [] => []
  | r :: rest => if r.step = 1 then [r] else r :: latestWrite rest

/-- The records that a compaction keeps (R620): the newest 256 of the safety log, the steps of the latest image write, and the newest
64 RESET records. -/
def liveRecords (l : List JournalRec) : List JournalRec := recordsOf 1 256 l ++ latestWrite (recordsOf 2 3 l) ++ recordsOf 3 64 l

/-- JOURNAL_COMPACTION (R620): at most once per 10 s; where the flash fails, the old records stay and the journal fails. -/
def execJournalCompaction (flashOk : Bool) (s : State) : Host.Outcome State Fault Refusal :=
  s.onDev (fun d =>
    let due : Bool := match d.mgmt.compactAt with
      | some t => decide (t + 4000000000 ≤ d.now)
      | none => true
    if !d.medlarUp || !due || d.bit Reg.MGT_JOURNAL_STAT 30 then d
    else if !flashOk then d.journalFail
    else
      let d : Dev := (Dev.putMgmt { d.mgmt with journal := liveRecords d.mgmt.journal, compactAt := some d.now } d)
      d.journalStat)

/-- SAFETY_LOG_TRANSFER (R549, R621): the oldest entry goes to the journal and is acknowledged only where it reads back. -/
def execSafetyLogTransfer (readBackOk : Bool) (s : State) : Host.Outcome State Fault Refusal :=
  s.onDev (fun d =>
    match d.sloe.log with
    | [] => d
    | e :: _ =>
      if !d.medlarUp || d.bit Reg.MGT_JOURNAL_STAT 30 then d
      else if !readBackOk then d.raise 0x98 1
      else
        let d := d.journalAppend 1 e
        d.accessWrite .medlar Reg.SAFE_LOG_ACK (wordIn e 0) (Dev.logAckOp .medlar (wordIn e 0)))

/-! ### Telemetry (R622) -/

/-- PERIOD of TELE_CFG in ticks: 10 to 10 000 ms, outside values acting as the nearer limit (R625). -/
def Dev.telePeriod (d : Dev) : Nat := 400000 * Nat.min 10000 (Nat.max 10 (d.fld Reg.MGT_TELE_CFG 13 0))

/-- The set of registers of the telemetry list is read and kept (R622). -/
def Dev.teleTake (list : List Nat) (d : Dev) : Dev :=
  let r := (list.take 64).foldl (fun (p : List Word × Dev) a =>
    let q := p.2.busRead .medlar a 4
    (p.1 ++ [q.1], q.2)) ([], d)
  let d := Dev.putMgmt { r.2.mgmt with tele := r.1 } r.2
  let d := d.bumpWrap Reg.MGT_TELE_STAT 15 0
  let cells := Config.teleStore (d.fld Reg.MGT_TELE_STAT 15 0) r.1
  each (cells.filter (fun c => d.serviceStart ≤ c.1 && c.1 < 0x84000000)) (fun c d => d.setByte c.1 c.2) d.touchDram

/-- TELEMETRY_SAMPLE (R622): the set of the running period is complete, or skipped with OVERRUN where the period is over. -/
def execTelemetrySample (s : State) : Host.Outcome State Fault Refusal :=
  s.onDev (fun d =>
    match d.mgmt.service with
    | none => d
    | some x =>
      let start := d.mgmt.teleAt
      if !d.medlarUp || decide (d.now < start) then d else
      let late : Bool := decide (start + d.telePeriod < d.now)
      let d := Dev.putMgmt { d.mgmt with teleAt := nextInterval start d.telePeriod d.now } d
      if late then (d.setBit Reg.MGT_TELE_STAT 31 true).raise 0x98 2 else d.teleTake x.telemetry)

/-! ### The MGT mailbox (R623, R624) -/

/-- A command completes: MBX_OUT, of which a word the command does not give is a free value; SEQ and STATUS; MBX_DONE. -/
def Dev.mgtDone (seq status : Nat) (outs : List Word) (d : Dev) : Dev :=
  let d := each (List.range 16) (fun j d =>
    match outs[j]? with
    | some w => d.setReg (Reg.MGT_MBX_OUT j) w
    | none => let r := d.free; r.2.setReg (Reg.MGT_MBX_OUT j) r.1) d
  (d.setReg Reg.MGT_MBX_STAT (place 31 24 seq ||| place 23 16 status)).raise 0x98 0

/-- Input word j. -/
def Dev.mgtIn (d : Dev) (j : Nat) : Word := d.reg (Reg.MGT_MBX_IN j)

/-- The words of a list of bytes. -/
def wordsIn (n : Nat) (bs : List Byte) : List Word := (List.range n).map (fun j => wordIn bs (4 * j))

/-- MARK: an entry with the tag; STAT of the entry is a free value. Without the DRAM it ends with RANGE (log entry 101). -/
def Dev.mgtMark (seq : Nat) (d : Dev) : Dev :=
  if !d.dramReady then d.mgtDone seq 2 [] else
  let r := d.free
  let d := r.2.logWrite 0xFFFF 4 (d.mgtIn 0) r.1
  d.mgtDone seq 0 [d.reg Reg.MGT_LOG_SEQ]

/-- LOG_READ: the entry with a SEQ, RANGE where it is not in the log. -/
def Dev.mgtLogRead (seq : Nat) (d : Dev) : Dev :=
  if !d.dramReady then d.mgtDone seq 2 [] else
  let bs := d.bytesAt (d.logPlace (d.mgtIn 0)) 32
  let d := d.touchDram
  if logValid bs && wordIn bs 8 == d.mgtIn 0 then d.mgtDone seq 0 (wordsIn 8 bs) else d.mgtDone seq 2 []

/-- JOURNAL_READ: a record by kind and index. -/
def Dev.mgtJournalRead (seq : Nat) (d : Dev) : Dev :=
  let k := (d.mgtIn 0).toNat
  match (d.mgmt.journal.filter (fun r => r.kind == k))[(d.mgtIn 1).toNat]? with
  | some r => if 1 ≤ k ∧ k ≤ 3 then d.mgtDone seq 0 (wordsIn 16 r.data) else d.mgtDone seq 2 []
  | none => d.mgtDone seq 2 []

/-- The image of IMAGE_WRITE lies in one of its two areas (R624). -/
def Dev.imagePlaceOk (d : Dev) (a n : Nat) : Bool :=
  n ≤ 0x400000 && (rangeIn 0x10000000 0x10100000 a n || rangeIn d.serviceStart 0x84000000 a n)

/-- A slot is erased. -/
def Dev.eraseFlash (a n : Nat) (d : Dev) : Dev := { d with flash := d.flash.filter (fun c => !(a ≤ c.1 && c.1 < a + n)) }

/-- IMAGE_WRITE (R148, R624): into the slot that does not hold the image in use, either slot where none does; where the flash
fails, the slot's header stays erased and what stands after it is open. -/
def Dev.mgtImageWrite (seq : Nat) (flashOk : Bool) (d : Dev) : Dev :=
  let a := (d.mgtIn 0).toNat
  let n := (d.mgtIn 1).toNat
  if !d.imagePlaceOk a n then d.mgtDone seq 2 [] else
  let used := d.fld Reg.CFG_STATE 13 12
  let r := d.free
  let toB : Bool := if used = 1 then true else if used = 2 then false else bitAt 0 r.1
  let d := if used = 1 ∨ used = 2 then d else r.2
  let h := d.bootHeader
  let start := if toB then h.slotB else h.slotA
  let slot := if toB then 2 else 1
  let bs := d.bytesAt a n
  let d := d.touchAt a
  if (imageError d.version (Nat.min n (h.slotSize d.flashEnd start)) d.fuses bs).isSome then d.mgtDone seq 3 [] else
  let bs := bs.take (imageLength bs)
  let d := (d.eraseFlash start (h.slotSize d.flashEnd start)).journalAppend 2 [BitVec.ofNat 8 slot, 1]
  if !flashOk then
    let body := (List.range (bs.length - 32)).map (fun i => Config.lostByte d.freeCount (start + 32 + i))
    ((d.setFlash (start + 32) body).skipFree 1).mgtDone seq 4 []
  else
    let d := ((d.setFlash start bs).journalAppend 2 [BitVec.ofNat 8 slot, 2]).journalAppend 2 [BitVec.ofNat 8 slot, 3]
    d.mgtDone seq 0 [word slot, imageSequence bs]

/-- TELE_READ: the sample number and up to 15 values of the latest set; RANGE beyond its end. -/
def Dev.mgtTeleRead (seq : Nat) (d : Dev) : Dev :=
  let i := (d.mgtIn 0).toNat
  if d.mgmt.tele.length ≤ i then d.mgtDone seq 2 []
  else d.mgtDone seq 0 (word (d.fld Reg.MGT_TELE_STAT 15 0) :: (d.mgmt.tele.drop i).take 15)

/-- A command of the mailbox, as Medlar executes it (R624). -/
def Dev.mgtRun (code seq : Nat) (flashOk : Bool) (d : Dev) : Dev :=
  if code = 0x01 then d.mgtMark seq
  else if code = 0x02 then d.mgtLogRead seq
  else if code = 0x03 then d.mgtJournalRead seq
  else if code = 0x10 then d.mgtImageWrite seq flashOk
  else if code = 0x20 then d.mgtTeleRead seq
  else d.mgtDone seq 1 []

/-- A write of MBX_CMD (R623): discarded while BUSY; Medlar executes it where it runs, and it waits where Medlar does not. -/
def Dev.mgtPost (m : Master) (v : Word) (flashOk : Bool) (d : Dev) : Dev :=
  if d.bit Reg.MGT_MBX_STAT 0 then d.discard m Reg.MGT_MBX_CMD
  else
    let d := (d.setReg Reg.MGT_MBX_CMD v).setBit Reg.MGT_MBX_STAT 0 true
    if d.medlarUp then d.mgtRun (Machine.fld 7 0 v) (Machine.fld 31 24 v) flashOk else d

/-- A write of MBX_INj: discarded while BUSY. -/
def Dev.mgtMbxIn (m : Master) (j : Nat) (v : Word) (d : Dev) : Dev :=
  if d.bit Reg.MGT_MBX_STAT 0 then d.discard m (Reg.MGT_MBX_IN j) else d.setReg (Reg.MGT_MBX_IN j) v

/-- A mailbox command written to MBX_CMD. -/
def Dev.mgtCommand (m : Master) (code : Nat) (seq : BitVec 8) (flashOk : Bool) (d : Dev) : Dev :=
  let v := place 31 24 seq.toNat ||| place 7 0 code
  d.accessWrite m Reg.MGT_MBX_CMD v (Dev.mgtPost m v flashOk)

/-- MARK (R624). -/
def execMark (m : Master) (seq : BitVec 8) (s : State) : Host.Outcome State Fault Refusal :=
  s.onDev (Dev.mgtCommand m 0x01 seq true)

/-- LOG_READ (R624). -/
def execLogRead (m : Master) (seq : BitVec 8) (s : State) : Host.Outcome State Fault Refusal :=
  s.onDev (Dev.mgtCommand m 0x02 seq true)

/-- JOURNAL_READ (R624). -/
def execJournalRead (m : Master) (seq : BitVec 8) (s : State) : Host.Outcome State Fault Refusal :=
  s.onDev (Dev.mgtCommand m 0x03 seq true)

/-- IMAGE_WRITE (R148, R624). -/
def execImageWrite (m : Master) (seq : BitVec 8) (flashOk : Bool) (s : State) : Host.Outcome State Fault Refusal :=
  s.onDev (Dev.mgtCommand m 0x10 seq flashOk)

/-- TELE_READ (R624). -/
def execTeleRead (m : Master) (seq : BitVec 8) (s : State) : Host.Outcome State Fault Refusal :=
  s.onDev (Dev.mgtCommand m 0x20 seq true)

/-- MEDLAR_WATCHDOG (R606): the firmware has not served it within 250 ms: a plane reset, recorded as MGT_WDT. The firmware may have
served it since the release at any time, so the period has ended 250 ms after the release at the earliest. -/
def execMedlarWatchdog (s : State) : Host.Outcome State Fault Refusal :=
  s.onDev (fun d => d.when (!d.pageHeld 0x98 && decide (d.mgmt.wdtAt + 100000000 ≤ d.now)) (Dev.assertSource .mgtWdt .plane))

end Sys2Proof.Machine
end

