-- ==== Sys2Proof/Machine/Boot.lean ====
section
/-!
DEFINITION. The boot ROM and the start of Medlar's firmware (R108 to R112, R164, R165, R601, R613, R619, R631), and the end of a
load, which a flash timeout may bring (R110, R145, R149, R164).
-/

namespace Sys2Proof.Machine

/-! ### The firmware starts -/

/-- Medlar claims CRC1 while its services run (R601). -/
def Dev.claimServices (d : Dev) : Dev :=
  if d.pageHeld 0x89 || d.bit (Reg.CRC_CLAIM 1) 0 then d else d.crcClaimOp .medlar 1 1

/-- The CAN controller of Medlar's services: MB0 until a SERVICE section has been committed (R643). -/
def Dev.serviceCan (d : Dev) : Nat :=
  match d.mgmt.service with
  | some x => x.canCtl.val
  | none => 0

/-- The node-ID of the CANopen device (R643). -/
def Dev.nodeId (d : Dev) : Nat :=
  match d.mgmt.service with
  | some x => x.nodeId
  | none => 127

/-- The nominal bit timing of a rate (0 to 3: 125, 250, 500, 1000 kbit/s): the two settings of R562, the lower rates with the quantum of
500 kbit/s two and four times as long. -/
def rateTiming (rate : Nat) : Word :=
  if rate = 3 then place 31 25 15 ||| place 24 18 15 ||| place 17 10 62
  else place 31 25 31 ||| place 24 18 31 ||| place 17 10 126 ||| place 4 0 (if rate = 2 then 0 else if rate = 1 then 1 else 3)

/-- The rate of Medlar's controller (R165, R643): 500 kbit/s until a SERVICE section has been committed. -/
def Dev.serviceRate (d : Dev) : Nat :=
  match d.mgmt.service with
  | some x => x.canRate.val
  | none => 2

/-- Medlar claims its buffers and filters (R563, R643): buffers 48 to 63, with buffer 63 for the heartbeat, and filters 28 to 31, each of
which names one of them (log entry 103). -/
def Dev.claimBuffers (n : Nat) (d : Dev) : Dev :=
  let d := each (List.range 15) (fun i d => d.setBufCfg n (48 + i) 0x20000000) d
  let d := each (List.range 4) (fun i d => d.setFld (Reg.MB_FLT_MASK n (28 + i)) 31 26 (48 + i)) d
  d.setBufCfg n 63 0xA0000000

/-- Medlar joins the bus of its controller with classical frames at its rate (R165, R643): through INIT, which a frame on the bus may
hold back (R558); the heartbeat tries again then. -/
def Dev.claimCan (d : Dev) : Dev :=
  let n := d.serviceCan
  if d.pageHeld (0x80 + n) then d else
  let d := d.canSetMode .medlar n 0
  if d.canMode n ≠ 0 then d else
  let d := (d.claimBuffers n).setReg (Reg.MB_NBT n) (rateTiming d.serviceRate)
  let v := put 19 19 0 (put 18 16 1 (Machine.setBit 0 true (d.reg (Reg.MB_CTRL n))))
  (Dev.putMgmt { d.mgmt with rejoin := false } d).canCtrlOp .medlar n v

/-- Medlar reapplies the capture settings of the SERVICE section, with RESTART only where it sets AUTO_RESTART (R613). -/
def Dev.reapplyCapture (d : Dev) : Dev :=
  match d.mgmt.service with
  | none => d
  | some x =>
    if d.pageHeld 0xA0 then d else
    let d := each x.capture (fun p d =>
      match regAt p.1 with
      | some (.dram, _, r, _) => d.setReg p.1 ((d.reg p.1 &&& ~~~ word r.rw) ||| (p.2 &&& word r.rw))
      | _ => d) d
    d.when (d.bit Reg.DRAM_CAP_CTRL 2) Dev.captureRestart

/-- Medlar enables both Ethernet ports, whose beacon the bring-up shows with no act of the host (R112, R165). -/
def Dev.enablePorts (d : Dev) : Dev :=
  each [0, 1] (fun n d => d.when (!d.pageHeld (0x9A + n)) (Dev.setBit (Reg.ETH_CTRL n) 0 true)) d

/-- The services begin: journal, log, capture, CAN, and a mailbox command that waits. -/
def Dev.startServices (d : Dev) : Dev :=
  let d := d.claimServices
  let d := if d.journalUsable then d.journalAppend 3 (wordBytes (d.reg Reg.RST_CAUSE)) else d.journalFail
  let d := ((d.logRecover).reapplyCapture).claimCan.enablePorts
  let d := Dev.putMgmt { d.mgmt with startDue := true, teleAt := d.now } d
  if d.bit Reg.MGT_MBX_STAT 0 then
    let r := d.free
    let v := d.reg Reg.MGT_MBX_CMD
    r.2.mgtRun (Machine.fld 7 0 v) (Machine.fld 31 24 v) (bitAt 0 r.1)
  else d

/-- The boot ROM starts verified firmware (R110, R112, R164): STAGE and SOURCE, BOOT_DONE, CFG.EVT_EN.ANNOUNCE. -/
def Dev.firmwareStart (source : Nat) (d : Dev) : Dev :=
  let d := Dev.putRomAt none (((d.setFld Reg.SYS_BOOT 3 0 4).setFld Reg.SYS_BOOT 8 8 source).raise 0 2)
  (d.setBit (Reg.evtEn 3) 0 true).startServices

/-- The boot ROM waits for the host (R111). -/
def Dev.waitHost (d : Dev) : Dev := ((d.setFld Reg.SYS_BOOT 3 0 3).setBit (Reg.evtEn 0) 0 true).raise 0 0

/-- Flash boot fails (R108, R110): the host is waited for, or the ROM stops. -/
def Dev.flashBootFail (err : Nat) (d : Dev) : Dev :=
  let d := Dev.putRomAt none (d.setFld Reg.SYS_BOOT 7 4 err)
  if d.fld Reg.SYS_BOOT 31 30 = 2 then (d.setFld Reg.SYS_BOOT 3 0 5).raise 0 1 else d.waitHost

/-- The boot ROM boots from flash: MGT is released, the ROM has started on the flash and has not ended its boot. -/
def Dev.flashBooting (d : Dev) : Bool := !d.pageHeld 0x98 && !d.mgmt.halted && d.romAt.isSome

/-- Where the firmware region goes (R110). -/
def firmwareBase : Nat := 0x10100000

/-- BOOT_VERIFY (R109, R110): header and length, the copy, and the outcome of the signature check. -/
def execBootVerify (signatureOk : Bool) (s : State) : Host.Outcome State Fault Refusal :=
  s.onDev (fun d =>
    if !d.flashBooting then d else
    let h := d.bootHeader
    if !h.valid then d.flashBootFail 1
    else if 0x100000 < h.fwLen then d.flashBootFail 3
    else
      let d := d.setBytes firmwareBase (d.flashBytes h.fw h.fwLen)
      if signatureOk then d.firmwareStart 0 else d.flashBootFail 4)

/-- A write of HOST.BOOT with GO = 1 (R631): the ROM checks what the host has placed, while it waits for it. -/
def Dev.hostBootOp (len : Nat) (signatureOk : Bool) (d : Dev) : Dev :=
  if d.fld Reg.SYS_BOOT 3 0 ≠ 3 ∨ d.pageHeld 0x98 = true ∨ d.mgmt.halted = true then d
  else if signatureOk && decide (len ≤ 0x100000) then d.firmwareStart 1
  else ((d.setFld Reg.SYS_BOOT 7 4 5).raise 0 1).waitHost

/-- HOST_BOOT_GO (R631). -/
def execHostBootGo (m : Master) (len : Nat) (signatureOk : Bool) (s : State) : Host.Outcome State Fault Refusal :=
  s.onDev (fun d =>
    d.accessWrite m Reg.HOST_BOOT (bitMask 31 ||| place 20 0 len) (Dev.hostBootOp (len % 2 ^ 21) signatureOk))

/-! ### The end of a load -/

/-- A load attempt ends (R149, R164): its result, LOAD_DONE or LOAD_FAIL, ANNOUNCE; the loader releases CRC0 (R601). -/
def Dev.loadEnd (code err sect : Nat) (d : Dev) : Dev :=
  let d : Dev := (Dev.putLoader { d.loader with load := none, rwcBar := d.loader.rwcBar && err != 0 } d)
  let d := (d.setBit Reg.CFG_STATE 5 false).cfgResult code err sect
  let d := d.when (d.bit (Reg.CRC_CLAIM 0) 0 && d.fld (Reg.CRC_CLAIM 0) 15 8 == 0x23) (Dev.crcClaimOp .loader 0 0)
  (d.raise 3 (if err = 0 then 4 else 5)).raise 3 0

/-- The flash has not answered for 10 ms: no access that began at the instant `t` or later can have waited longer (R110). -/
def Dev.flashLate (d : Dev) (t : Nat) : Bool := decide (t + 4000000 ≤ d.now)

/-- FLASH_TIMEOUT (R110): flash boot fails; a load from a slot ends with FLASH_TIMEOUT. -/
def execFlashTimeout (s : State) : Host.Outcome State Fault Refusal :=
  s.onDev (fun d =>
    if d.flashBooting then d.when (d.romAt.any d.flashLate) (Dev.flashBootFail 2)
    else match d.loader.load with
      | some l => if l.source = .sram ∨ d.flashLate l.startAt = false then d else d.loadEnd l.code 17 0x1FF
      | none => d)

end Sys2Proof.Machine
end

