-- ==== Sys2Proof/Machine/Load.lean ====
section
/-!
DEFINITION. The load commands (R145 to R152, R157, R161, R163, R601): an image is read and checked whole before anything is
written; LOAD_COMPLETE applies it.
-/

namespace Sys2Proof.Machine

/-- What a check found of a slot: SLOT_STAT and the slot's SEQUENCE, 0 when invalid. -/
def Dev.noteSlot (slotB : Bool) (img : List Byte × Option (Nat × Nat)) (d : Dev) : Dev :=
  let ok := img.2.isNone
  (d.setBit Reg.CFG_SLOT_STAT (b2n slotB) ok).setReg (if slotB then Reg.CFG_SEQ_B else Reg.CFG_SEQ_A)
    (if ok then imageSequence img.1 else 0)

/-- A checked image is about to be applied: LOAD_BUSY, and CRC0 claimed for the load (R601). -/
def Dev.loadBegin (src : ImageSource) (code : Nat) (image : List Byte) (d : Dev) : Dev :=
  let d := (d.setBit Reg.CFG_STATE 5 true).crcClaimOp .loader 0 1
  (Dev.putLoader { d.loader with load := some { source := src, image := image, code := code, startAt := d.now } } d)

/-- The image of one source: applied where valid, else the load ends with the check that failed. -/
def Dev.loadImage (src : ImageSource) (code : Nat) (img : List Byte × Option (Nat × Nat)) (d : Dev) : Dev :=
  match img.2 with
  | none => d.loadBegin src code img.1
  | some e => d.loadEnd code e.1 e.2

/-- Slot B is newer (R147). -/
def newerB (a b : Word) : Bool := decide (1 ≤ (b - a).toNat ∧ (b - a).toNat ≤ 0x7FFFFFFF)

/-- LOAD_NEWEST: both slots are checked and the newer valid image applies. -/
def Dev.loadNewest (code : Nat) (d : Dev) : Dev :=
  let h := d.bootHeader
  let a := d.slotImage h.slotA
  let b := d.slotImage h.slotB
  let d := (d.noteSlot false a).noteSlot true b
  match a.2, b.2 with
  | some _, some _ => d.loadEnd code 18 0x1FF
  | none, some _ => d.loadBegin .slotA code a.1
  | some _, none => d.loadBegin .slotB code b.1
  | none, none =>
    if newerB (imageSequence a.1) (imageSequence b.1) then d.loadBegin .slotB code b.1 else d.loadBegin .slotA code a.1

/-- LOAD_A and LOAD_B. -/
def Dev.loadSlot (slotB : Bool) (code : Nat) (d : Dev) : Dev :=
  let h := d.bootHeader
  let img := d.slotImage (if slotB then h.slotB else h.slotA)
  (d.noteSlot slotB img).loadImage (if slotB then .slotB else .slotA) code img

/-- LOAD_SRAM (R151): the place, then the LENGTH against the area, then the checks. -/
def Dev.loadSram (code : Nat) (d : Dev) : Dev :=
  let a := (d.reg Reg.CFG_IMG_ADDR).toNat
  let hi := 0x10100000
  if a % 4 ≠ 0 ∨ rangeIn 0x10000000 hi a 32 = false then d.loadEnd code 2 0x1FF
  else if hi < a + imageLength (d.bytesAt a 32) then d.loadEnd code 2 0x1FF
  else d.loadImage .sram code (d.readImage (hi - a) (d.bytesAt a))

/-- The loader starts; it ends with BUSY where another master holds CRC0 (R601). -/
def Dev.loadRun (code : Nat) (op : Dev → Dev) (d : Dev) : Dev :=
  if d.crcBarred .loader 0 then d.loadEnd code 12 0x1FF else op d

/-- A load command accepted or refused (R161, R163); accepted in SEALED, the triad cores go into reset and the state is LOADED. -/
def Dev.loadCommand (code : Nat) (op : Dev → Dev) (d : Dev) : Dev :=
  d.cfgCommand code (if d.cstate = 3 ∨ d.cstate = 4 then 13 else 0) (fun d =>
    (d.when (d.cstate == 2) (fun d => d.triadHold.setCstate 1)).loadRun code op)

/-- A load command by its code (R166). -/
def Dev.cfgLoadOp (code : Nat) (d : Dev) : Dev :=
  if code = 1 then d.loadCommand 1 (Dev.loadNewest 1)
  else if code = 2 then d.loadCommand 2 (Dev.loadSlot false 2)
  else if code = 3 then d.loadCommand 3 (Dev.loadSlot true 3)
  else d.loadCommand 4 (Dev.loadSram 4)

/-- A code written to CFG.CMD (R166): every other is refused with STATE. -/
def Dev.cfgCmdOp (m : Master) (code : Nat) (d : Dev) : Dev :=
  if 1 ≤ code ∧ code ≤ 4 then d.cfgLoadOp code
  else if code = 0x10 then d.commitOp
  else if code = 0x20 then d.armOp m true
  else if code = 0x21 then d.disarmOp
  else if code = 0x30 then d.ackSafeOp
  else if code = 0x40 then d.burnKeyOp m
  else if code = 0x41 then d.burnSigreqOp m
  else d.cfgCommand code 13 id

/-- FIRMWARE_START_LOAD (R147): only in UNCONFIGURED, as LOAD_NEWEST; no command was written, and RESULT.CODE stays. -/
def execFirmwareStartLoad (s : State) : Host.Outcome State Fault Refusal :=
  s.onDev (fun d =>
    let code := d.fld Reg.CFG_RESULT 31 24
    d.when (d.medlarUp && d.cstate == 0 && !d.cfgBusy) (Dev.loadRun code (Dev.loadNewest code)))

/-- LOAD_NEWEST (R147). -/
def execLoadNewest (m : Master) (s : State) : Host.Outcome State Fault Refusal :=
  s.onDev (fun d => d.accessWrite m Reg.CFG_CMD 1 (Dev.cfgLoadOp 1))

/-- LOAD_A (R145). -/
def execLoadA (m : Master) (s : State) : Host.Outcome State Fault Refusal :=
  s.onDev (fun d => d.accessWrite m Reg.CFG_CMD 2 (Dev.cfgLoadOp 2))

/-- LOAD_B (R145). -/
def execLoadB (m : Master) (s : State) : Host.Outcome State Fault Refusal :=
  s.onDev (fun d => d.accessWrite m Reg.CFG_CMD 3 (Dev.cfgLoadOp 3))

/-- LOAD_SRAM (R151). -/
def execLoadSram (m : Master) (s : State) : Host.Outcome State Fault Refusal :=
  s.onDev (fun d => d.accessWrite m Reg.CFG_CMD 4 (Dev.cfgLoadOp 4))

end Sys2Proof.Machine
end

