-- ==== Sys2Proof/Machine/Bus.lean ====
section
/-!
DEFINITION. A write over the bus (R15, R19, R43 to R46, R57 to R64, R79, R81): memory by bytes, a register field by field under
its access type, a shadow, a key; and the registers whose write is an operation.
-/

namespace Sys2Proof.Machine

/-! ### A field under its access type (R19) -/

/-- Every group that a page serves is OFF; for a page that serves none, the device (R63). -/
def Dev.pageOff (d : Dev) (page : Nat) : Bool :=
  match pageGroup page with
  | some g => d.gstate g == 0
  | none =>
    let own := if 0x10 ≤ page ∧ page ≤ 0x1B then d.owned (page - 0x10) else 0
    if own = 0 then d.deviceOff else twelve.all (fun g => !natBit g own || d.gstate g == 0)

/-- The bar on commit-protected fields for every master but the loader (R152). -/
def Dev.rwcBarred (d : Dev) (m : Master) : Bool := d.loader.rwcBar && m != .loader

/-- A direct write of commit-protected fields takes effect (R63, R64, R152, R155); not where a commit transfers the page in the same
FAB cycle (R22). -/
def Dev.rwcOpen (d : Dev) (m : Master) (page : Nat) : Bool :=
  !d.commitBusy && d.cstate ≤ 1 && !d.rwcBarred m && d.pageOff page && !d.cyc.commits.contains page

/-- A write of safety-locked fields takes effect (R542, R546, R550). -/
def Dev.rwsOpen (d : Dev) (m : Master) : Bool := d.ownsSession m && !d.sloe.crcRun && !d.logFull

/-- The value that a register stores of a value written: a trip filter below 16 clocks is stored as 16 (R135); the enables of the
fixed causes are 1 (R330). -/
def storedValue (key : Nat) (v : Word) : Word :=
  if 0x2C100 ≤ key ∧ key ≤ 0x2C130 ∧ fld 9 0 v < 16 then put 9 0 16 v
  else if 0x20000 ≤ key ∧ key < 0x2C000 ∧ key % 0x1000 = 0x104 then v ||| 0x6C04
  else v

/-- Registers of which VALID, written 1, clears the whole: first-event records, by page kind and offset. -/
def isRecord : PageKind → Nat → Bool
  | .rst, o => o == 0x4C
  | .le, o => o == 0x218
  | .pg, o => o == 0x44 || o == 0x64 || o == 0x124
  | .fl, o => o == 0x54
  | .cmp, o => o == 0x260
  | .mc, o => o == 0x44 || o == 0x128
  | .triad, o => o == 0x50
  | .sloe, o => o == 0x88
  | .mb, o => o == 0x50
  | .sys, o => o == 0x44
  | _, _ => false

/-- What clearing VALID clears in other registers: the record of access errors (R78), the address of SCRUB (spec/18). -/
def Dev.recordCleared (key : Nat) (d : Dev) : Dev :=
  if key = Reg.SYS_AERR_INFO then (d.setReg Reg.SYS_AERR_ADDR 0).setReg Reg.SYS_AERR_CNT 0
  else if key = Reg.SCRUB_SRAM_UNC then d.setReg Reg.SCRUB_SRAM_UNC_ADDR 0
  else if key = Reg.SCRUB_DRAM_UNC then d.setReg Reg.SCRUB_DRAM_UNC_ADDR 0
  else d

/-- RW, W1C and W1S fields of a register. A W1C bit that hardware has set in the FAB cycle stays set (R20); a W1S bit that it has
cleared in the cycle ends set (R21). -/
def Dev.plainFields (k : PageKind) (r : RegDesc) (key : Nat) (v : Word) (d : Dev) : Dev :=
  let old := d.reg key
  let clear := v &&& word r.w1c &&& ~~~ d.setInCycle key
  let new := (((old &&& ~~~ word r.rw) ||| (v &&& word r.rw)) &&& ~~~ clear) ||| (v &&& word r.w1s)
  let hit := bitAt 31 clear
  (d.setReg key (if hit && isRecord k (key % 0x1000) then 0 else new)).when hit (Dev.recordCleared key)

/-- RWC fields of a register: register and shadow alike (R154), and all that follows. -/
def Dev.rwcFields (r : RegDesc) (key : Nat) (v : Word) (d : Dev) : Dev :=
  let mask := word r.rwc
  let v := storedValue key v
  let old := d
  let d := d.setReg key ((d.reg key &&& ~~~ mask) ||| (v &&& mask))
  let d := (d.setSh key ((d.sh key &&& ~~~ mask) ||| (v &&& mask))).rwcAccepted
  Dev.taken old (fun k => k == key) [key / 0x1000] d

/-- Conditions that set an event bit again once it is written to 0 (R71): the boot ROM waits (R112), the change log holds an entry
(R555). -/
def Dev.eventLevels (page : Nat) (d : Dev) : Dev :=
  let d := d.when (page == 0 && d.fld Reg.SYS_BOOT 3 0 == 3) (Dev.raise 0 0)
  d.when (page == 0x92 && !d.sloe.log.isEmpty) (Dev.raise 0x92 4)

/-- A write to a register with no operation of its own: each field under its access type; one ACCESS_ERR where a field's
condition fails. -/
def Dev.plainWrite (m : Master) (key : Nat) (v : Word) (d : Dev) : Dev :=
  match regAt key with
  | none => d
  | some (k, _, r, _) =>
    let page := key / 0x1000
    let rwc := r.rwc != 0
    let rws := r.rws != 0
    let rwcOk := d.rwcOpen m page
    let rwsOk := d.rwsOpen m
    let d := d.plainFields k r key v
    let d := d.when (rwc && rwcOk) (Dev.rwcFields r key v)
    let d := d.when rws (Dev.rwsApply m key v)
    let d := d.when (rwc && !rwcOk && !(rws && !rwsOk)) (Dev.discard m key)
    let events : Bool := key % 0x1000 == 0x0C || key % 0x1000 == 0x10 || key % 0x1000 == 0x18
    d.when events (fun d => (d.eventLevels page).recordedTrim page)

/-! ### Registers whose write is an operation -/

/-- CTRL: its other fields, then SRST (R58, R96). -/
def Dev.ctrlWrite (m : Master) (page : Nat) (v : Word) (d : Dev) : Dev :=
  let d := match pageKind? page with
    | some (.le, e) => d.leEnOp m e v
    | some (.mb, n) => d.canCtrlOp m n v
    | some (.crc, n) => d.crcGuard m n (Reg.ctrl page) (Dev.crcEnOp m n v)
    | some (.pad, _) => d.padCtrlOp v
    | _ => d.plainWrite m (Reg.ctrl page) v
  d.when (bitAt 1 v) (Dev.blockResetOp m page)

/-- A loop engine's page (R206, R213, R224, R230). -/
def Dev.leWrite (m : Master) (e off key : Nat) (v : Word) (d : Dev) : Dev :=
  if off = 0x40 then d.leCmdOp e (Machine.fld 7 0 v)
  else if off = 0x84 then d.leMbxPost m e v
  else if 0xC0 ≤ off ∧ off < 0xE0 then d.leMbxIn m e ((off - 0xC0) / 4) v
  else if off = 0x208 then d.requestSwap e v
  else if off = 0x214 then d.cwDataOp m e v
  else d.plainWrite m key v

/-- A group's page (R278, R280, R285, R304). -/
def Dev.pgWrite (m : Master) (g off key : Nat) (v : Word) (d : Dev) : Dev :=
  if off = 0x40 then d.pgCmdOp g (Machine.fld 7 0 v)
  else if off = 0x60 then d.setBit (Reg.PG_UPD g) 0 (bitAt 0 v)
  else if 0x80 ≤ off ∧ off < 0x90 then d.dutyOp m g ((off - 0x80) / 4) v
  else d.plainWrite m key v

/-- PWMSYS (R286, R319). -/
def Dev.pwmsysWrite (m : Master) (off key : Nat) (v : Word) (d : Dev) : Dev :=
  if off = 0x4C then each (groupsOf v) Dev.startGroup d
  else if off = 0x50 then each (groupsOf v) (Dev.stopGroup false) d
  else if off = 0x148 then d.gclrOp v
  else d.plainWrite m key v

/-- A message bus controller's page (R559, R563, R564, R568, R571, R574, R581, R582, R584). -/
def Dev.mbWrite (m : Master) (n off key : Nat) (v : Word) (d : Dev) : Dev :=
  if off = 0x40 ∨ off = 0x44 ∨ off = 0x48 then
    d.canTimingOp m n key v (match regAt key with | some (_, _, r, _) => word r.rw | none => 0)
  else if off = 0x88 ∨ off = 0x8C then d.txReqOp m n ((off - 0x88) / 4) v
  else if off = 0x90 ∨ off = 0x94 then d.txAbtOp m n ((off - 0x90) / 4) v
  else if off = 0x98 ∨ off = 0x9C then d.rxReleaseOp m n ((off - 0x98) / 4) v
  else if off = 0xA8 then d.rxReleaseOp m n 2 v
  else if off = 0xAC then d.canCmdOp n v
  else if 0x100 ≤ off ∧ off < 0x200 then d.filterOp m n ((off - 0x100) / 8) (off % 8 == 4) v
  else if 0x200 ≤ off ∧ off < 0x300 then d.bufCfgOp m n ((off - 0x200) / 4) v
  else if off = 0x400 ∨ off = 0x480 then d.winSelOp m n ((off - 0x400) / 0x80) v
  else if (0x400 < off ∧ off < 0x450) ∨ (0x480 < off ∧ off < 0x4D0) then d.winWriteOp m n ((off - 0x400) / 0x80) (off % 0x80) v
  else d.plainWrite m key v

/-- The registers of a check-value unit (R590 to R600), a claim apart. -/
def Dev.crcRegs (m : Master) (n : Fin 4) (off key : Nat) (v : Word) (d : Dev) : Dev :=
  if off = 0x50 then d.crcCmdOp n (Machine.fld 7 0 v)
  else if off = 0x5C then d.crcDataOp m n.val key (wordBytes v)
  else if off = 0x60 then d.crcDataOp m n.val key [v.setWidth 8]
  else if off = 0x64 then d.crcRunOp m n.val v
  else if off = 0x74 then d.crcClaimOp m n.val v
  else if off = 0x6C ∨ off = 0x70 then d.plainWrite m key v
  else match regAt key with
    | some (_, _, r, _) => if r.rw = 0 then d else d.crcSetOp m n.val key (v &&& word r.rw)
    | none => d

/-- A check-value unit's page: what a claim bars lies from 0x040 to 0x078 (R598). -/
def Dev.crcWrite (m : Master) (n off key : Nat) (v : Word) (d : Dev) : Dev :=
  if 0x40 ≤ off ∧ off ≤ 0x78 then
    (if h : n < 4 then d.crcGuard m n key (Dev.crcRegs m ⟨n, h⟩ off key v) else d)
  else d.plainWrite m key v

/-- The triad's page (R507, R508). -/
def Dev.triadWrite (m : Master) (off key : Nat) (v : Word) (d : Dev) : Dev :=
  if 0x80 ≤ off ∧ off < 0xA0 then d.mbxInOp m ((off - 0x80) / 4) v
  else if off = 0xA0 then d.mbxPostOp m v
  else if off = 0xA8 then d.mbxAckOp m v
  else if 0xC0 ≤ off ∧ off < 0xE0 then d.mbxOutOp m ((off - 0xC0) / 4) v
  else if off = 0xE0 then d.mbxOutSeqOp m v
  else d.plainWrite m key v

/-- A code written to SAFE.CMD (R555); 0 is no write of the keyed field (R668). -/
def Dev.safeCmdOp (m : Master) (code : Nat) (d : Dev) : Dev :=
  if code = 0 then d
  else if code = 1 then d.openOp m
  else if code = 2 then d.closeOp m
  else if code = 3 then d.scommitOp m
  else if code = 0x10 then d.safeResetOp
  else d.safeResult code 12 0

/-- SLOE and SAFE (R528, R534, R537, R538, R542, R546, R549). -/
def Dev.sloeWrite (m : Master) (off key : Nat) (v : Word) (d : Dev) : Dev :=
  if off = 0x84 then d.faultClearOp m v
  else if off = 0xA4 then d.trespOp m v
  else if off = 0xAC then d.treqOp m v
  else d.plainWrite m key v
def Dev.safeWrite (m : Master) (off key : Nat) (v : Word) (d : Dev) : Dev :=
  if off = 0x40 then d.modSloe (fun x => { x with pwIn := v })
  else if off = 0x48 then d.safeCmdOp m (Machine.fld 7 0 v)
  else if off = 0x4C then d.scrcExpOp m v
  else if off = 0x118 then d.spdBOp m v
  else if off = 0x144 then d.logAckOp m v
  else d.plainWrite m key v

/-- The management plane's pages (R607, R612, R624, R631). -/
def Dev.mgtWrite (m : Master) (off key : Nat) (v : Word) (d : Dev) : Dev :=
  if off = 0x40 then
    let r := d.free
    r.2.mgtPost m v (bitAt 0 r.1)
  else if 0x80 ≤ off ∧ off < 0xC0 then d.mgtMbxIn m ((off - 0x80) / 4) v
  else d.plainWrite m key v

/-- A write of `v` to the register at a key that has passed its page's access checks and its key. -/
def Dev.regOp (m : Master) (key : Nat) (v : Word) (d : Dev) : Dev :=
  let off := key % 0x1000
  if off = 4 then d.ctrlWrite m (key / 0x1000) v
  else if off < 0x40 then d.plainWrite m key v
  else match pageKind? (key / 0x1000) with
    | some (.sys, _) => if off = 0x50 then d.swrstOp v else d.plainWrite m key v
    | some (.cfg, _) =>
      if off = 0x44 then d.when (Machine.fld 7 0 v != 0) (Dev.cfgCmdOp m (Machine.fld 7 0 v)) else d.plainWrite m key v
    | some (.le, e) => d.leWrite m e off key v
    | some (.pg, g) => d.pgWrite m g off key v
    | some (.pwmsys, _) => d.pwmsysWrite m off key v
    | some (.adcsys, _) => if off = 0x48 then d.calOp v else d.plainWrite m key v
    | some (.pf, n) =>
      if off = 0x7C then d.serCmdOp n v else if off = 0xE4 then d.cmpPosOp n v else d.plainWrite m key v
    | some (.mc, n) =>
      if off = 0x40 then d.mcCmdOp n (Machine.fld 7 0 v) else if off = 0xD8 then d.obsReport n v else d.plainWrite m key v
    | some (.mb, n) => d.mbWrite m n off key v
    | some (.crc, n) => d.crcWrite m n off key v
    | some (.triad, _) => d.triadWrite m off key v
    | some (.sloe, _) => d.sloeWrite m off key v
    | some (.safe, _) => d.safeWrite m off key v
    | some (.mgt, _) => d.mgtWrite m off key v
    | some (.dram, _) => if off = 0x50 then d.capCmdOp (Machine.fld 7 0 v) else d.plainWrite m key v
    | some (.host, _) =>
      if off = 0x44 then
        (if bitAt 31 v then
          let r := d.free
          r.2.hostBootOp (Machine.fld 20 0 v) (bitAt 0 r.1)
         else d)
      else d.plainWrite m key v
    | some (.gpio, _) =>
      if off = 0x48 then d.outSetOp v else if off = 0x4C then d.outClrOp v else d.plainWrite m key v
    | _ => d.plainWrite m key v

/-! ### Shadows and keys -/

/-- The protected fields of the register at a key are RWS fields alone, whose shadow view discards writes in silence (R70). -/
def rwsAlone (key : Nat) : Bool :=
  match regAt key with
  | some (_, _, r, _) => r.rws != 0 && r.rwc == 0
  | none => false

/-- A shadow write (R64, R70, R152): discarded with ACCESS_ERR during a commit, and under the bar where it would reach an RWC field;
without effect where the register has none. -/
def Dev.shadowOp (m : Master) (key : Nat) (v : Word) (d : Dev) : Dev :=
  let mask := rwcMask key
  if (d.commitBusy && !rwsAlone key) || (d.rwcBarred m && mask != 0) then d.refuse m (key / 0x1000) (keyAddr key + 0x800) true
  else if mask = 0 then d
  else (d.setSh key ((d.sh key &&& ~~~ mask) ||| (storedValue key v &&& mask))).rwcAccepted

/-- A write of KEY that the page accepts as a write (R59, R61); one that the page refuses, being narrow, forbidden or made while it
is held, is no write to KEY and leaves KSTATE (DESIGN CHOICE, log entry 86). -/
def Dev.keyOp (m : Master) (page : Nat) (v : Word) (d : Dev) : Dev :=
  if d.kstate page = 0 ∧ v = word (0x5A000000 + page) then d.setKstate page 1
  else if d.kstate page = 1 ∧ v = word (0xA5000000 + page) then d.setKstate page 2
  else (d.setKstate page 0).discard m (Reg.key page)

/-! ### The bus -/

/-- A 32-bit write at an offset of a page that the master may write and that is not held. -/
def Dev.pageWrite (m : Master) (page off : Nat) (v : Word) (d : Dev) : Dev :=
  let key := page * 0x1000 + off
  if 0x800 ≤ off then d.shadowOp m (key - 0x800) v
  else if off = 0x1C then d.keyOp m page v
  else if 0x20 ≤ page ∧ page ≤ 0x2B ∧ off = 0x164 then d.forceShWrite m (page - 0x20) v (Dev.forceOp (page - 0x20) v)
  else d.accessWrite m key v (Dev.regOp m key v)

/-- A write of the low `bytes` bytes of `v` over the bus in the FAB cycle in progress: one that the map or the table of R43 does not
permit is discarded and logged (R44, R79), so is one to a page held in reset (R81), and one narrower than 32 bits to a page (R15).
A write to a page that the table of R43 forbids counts as refused by the page: its own EVT_RAW takes ACCESS_ERR beside the SYS
record (DESIGN CHOICE, log entry 87). -/
def Dev.landWrite (m : Master) (a bytes : Nat) (v : Word) (d : Dev) : Dev :=
  match regionOf a with
  | .page p off =>
    if d.pageHeld p then d.refuseSys m a true
    else if !d.mayWrite m p off || bytes != 4 then d.refuse m p a true
    else d.pageWrite m p (off - off % 4) v
  | .unmapped => d.refuseSys m a true
  | .dram => if d.mayAccess m true a then d.touchDram.setBytes a ((wordBytes v).take bytes) else d.refuseSys m a true
  | _ => if d.mayAccess m true a then d.setBytes a ((wordBytes v).take bytes) else d.refuseSys m a true

/-- A write over the bus in a FAB cycle of its own. -/
def Dev.busWrite (m : Master) (a bytes : Nat) (v : Word) (d : Dev) : Dev := (d.enterCycle m false).landWrite m a bytes v

/-! ### Meanings -/

/-- REGISTER_WRITE (R15, R19); with `same` it lands in the FAB cycle of the effects since the latest tick or write (R20 to R22). -/
def execRegisterWrite (m : Master) (addr : BitVec 32) (bytes : Nat) (v : Word) (same : Bool) (s : State) :
    Host.Outcome State Fault Refusal :=
  s.onDev (fun d => (d.enterCycle m same).landWrite m addr.toNat bytes v)

/-- KEY_WRITE (R59, R61). -/
def execKeyWrite (m : Master) (page : Nat) (v : Word) (s : State) : Host.Outcome State Fault Refusal :=
  s.onDev (Dev.busWrite m (keyAddr (Reg.key page)) 4 v)

/-- KEY_WINDOW_EXPIRY (R59): the window ends with no second word. -/
def execKeyWindowExpiry (page : Nat) (s : State) : Host.Outcome State Fault Refusal :=
  s.onDev (fun d => d.when (d.kstate page == 1) (Dev.setKstate page 0))

/-- UNLOCK_TIMEOUT (R60). -/
def execUnlockTimeout (page : Nat) (s : State) : Host.Outcome State Fault Refusal :=
  s.onDev (fun d => d.when (d.kstate page == 2) (Dev.setKstate page 0))

/-- SHADOW_WRITE (R64, R70). -/
def execShadowWrite (m : Master) (page off : Nat) (v : Word) (s : State) : Host.Outcome State Fault Refusal :=
  s.onDev (Dev.busWrite m (keyAddr (page * 0x1000 + 0x800 + off)) 4 v)

/-- RWS_WRITE (R70, R545). -/
def execRwsWrite (m : Master) (addr : BitVec 32) (v : Word) (s : State) : Host.Outcome State Fault Refusal :=
  s.onDev (Dev.busWrite m addr.toNat 4 v)

/-- EVENT_DELIVERY (R72 to R75): IRQ_N and the summaries follow the pending bits at once; at Sloe a routed event sets the event
demand (R534); the triad takes the pending state of the events routed to it through the exchange, the cores of `differ` having latched
it otherwise (R499). -/
def execEventDelivery (page : Nat) (differ : BitVec 3) (s : State) : Host.Outcome State Fault Refusal :=
  s.onDev (fun d =>
    let d := d.when (d.routedToSloe page && !d.pageHeld 0x91) (fun d => (d.demandSet 9).evaluate)
    d.when d.triadRuns (Dev.triadEvents (allPages.any (fun p => d.routedTo p 2)) differ))

end Sys2Proof.Machine
end

