-- ==== Sys2Proof/Machine/Apply.lean ====
section
/-!
DEFINITION. A load writes a checked image (R142, R143, R146, R149, R150, R157, R162, R548).
-/

namespace Sys2Proof.Machine

/-- A write of the loader: false where it was discarded (R143), which the count of access errors shows. -/
def Dev.loaderWrite (a : Nat) (v : Word) (d : Dev) : Bool × Dev :=
  (((d.setReg Reg.SYS_AERR_CNT 0).busWrite .loader a 4 v).reg Reg.SYS_AERR_CNT == 0, d.busWrite .loader a 4 v)

/-- Pairs of address and value written in order up to the first that is discarded; a write that ends the load ends the rest. -/
def Dev.loaderPairs : List (Nat × Word) → Dev → Bool × Dev
  | [], d => (true, d)
  | p :: rest, d =>
    if d.loader.load.isNone then (true, d)
    else
      let r := d.loaderWrite p.1 p.2
      if r.1 then Dev.loaderPairs rest r.2 else r

/-- The pairs of a REGS section. A PLEN of 4 modulo 8 leaves a last word that is no pair, and the loader ignores it (DESIGN CHOICE,
log entry 91). -/
def regsPairs (bs : List Byte) : List (Nat × Word) :=
  (List.range (bs.length / 8)).map (fun i => ((wordIn bs (8 * i)).toNat, wordIn bs (8 * i + 4)))

/-- The calibration registers by number (R393, R396, R413, R417): gain and offset of each of the 88 inputs, 64 of the converters and
24 of the sigma-delta channels. -/
def calibKey (i : Nat) : Nat := if i % 2 = 0 then (calKeys (i / 2 % 88)).1 else (calKeys (i / 2 % 88)).2

/-- The writes of a CALIB section, whose layout the spec does not give: a number of a calibration register and its value. -/
def calibWrites (bs : List Byte) : List (Nat × Word) := (Config.calibPairs bs).map (fun p => (keyAddr (calibKey p.1), p.2))

/-- The settings of a SERVICE section, whose layout the spec does not give (R142). -/
def decodeService (bs : List Byte) : Service :=
  { ipv4 := Config.serviceIpv4 bs
    mask := Config.serviceMask bs
    gateway := Config.serviceGateway bs
    heartbeat := Config.serviceHeartbeat bs
    beacon := Config.serviceBeacon bs
    canRate := Fin.ofNat 4 (Config.serviceCanRate bs)
    ptpRaw := Config.servicePtpRaw bs
    phyTx := Vector.ofFn (fun i => Config.servicePhyTx bs i.val)
    phyRx := Vector.ofFn (fun i => Config.servicePhyRx bs i.val)
    permitted := Config.servicePermitted bs
    modbus := Config.serviceModbus bs
    modbusLe := Fin.ofNat 12 (Config.serviceModbusEngine bs)
    ptpPort := if Config.servicePtpPort bs < 2 then some (Fin.ofNat 2 (Config.servicePtpPort bs)) else none
    ptpSlave := Config.servicePtpSlave bs
    canCtl := Fin.ofNat 4 (Config.serviceCanController bs)
    nodeId := 1 + Config.serviceNodeId bs % 127
    telemetry := Config.serviceTelemetry bs
    channels := (Config.serviceChannels bs).map (fun p => (Fin.ofNat 12 p.1, Fin.ofNat 12 p.2))
    capture := (Config.serviceRegisters bs).filter (fun p => p.1 / 0x1000 == 0xA0) }

/-- The loader has written its first section (R157): it counts as written from its beginning, also where its write is then refused
(DESIGN CHOICE, log entry 92). -/
def Dev.sectionBegun (d : Dev) : Dev := d.rwcAccepted

/-- A memory section (R150): to a halted engine, or to the triad while it is held. -/
def Dev.memorySection (s : Section) (d : Dev) : Bool × Dev :=
  if s.payload.isEmpty then (true, d)
  else if d.mayAccess .loader true s.addr then (true, d.setBytes s.addr s.payload)
  else (false, d.refuseSys .loader s.addr true)

/-- One section: false where a write was refused, and whether Sloe has the section refused or it was not handed over. -/
def Dev.applySection (s : Section) (d : Dev) : Bool × Bool × Dev :=
  if s.kind = 1 then
    let r := Dev.loaderPairs (regsPairs s.payload) d.sectionBegun
    (r.1, false, r.2)
  else if s.kind = 2 ∨ s.kind = 3 then
    let r := d.sectionBegun.memorySection s
    (r.1, false, r.2)
  else if s.kind = 4 then
    let r := d.sectionBegun.memorySection s
    (r.1, false, if r.1 then Dev.putLoader { r.2.loader with triadApplied := true } r.2 else r.2)
  else if s.kind = 5 then
    if d.deviceOff && !d.sessionOpen then
      let r := d.sectionBegun.safetySection s.payload
      (true, !r.1, r.2)
    else (true, true, d)
  else if s.kind = 6 then
    let r := Dev.loaderPairs (calibWrites s.payload) d.sectionBegun
    (r.1, false, r.2)
  else if s.kind = 7 then
    let d := d.sectionBegun
    let d : Dev := (Dev.putMgmt { d.mgmt with loaded := some (decodeService s.payload) } d)
    (true, false, each (Config.serviceRegisters s.payload) (fun p d => d.busWrite .loader (keyAddr p.1) 4 p.2) d)
  else (true, false, d)

/-- SLOT of a source (R166). -/
def slotCode : ImageSource → Nat
  | .slotA => 1
  | .slotB => 2
  | .sram => 3

/-- Every section is written: COMMIT_EXP, and the result (R146, R149, R160). A load that ends with SAFETY_REFUSED has not applied its
image: SLOT, REMOTE_ARM and the applied SEQUENCE stay (DESIGN CHOICE, log entry 93). -/
def Dev.loadWritten (l : Load) (unsafeAt : Option Nat) (d : Dev) : Dev :=
  let d := d.busWrite .loader (keyAddr Reg.CFG_COMMIT_EXP) 4 (imageCommitCrc l.image)
  match unsafeAt with
  | some i => d.loadEnd l.code 10 i
  | none =>
    let d : Dev := (Dev.putLoader { d.loader with remoteArm := imageRemoteArm l.image, appliedSeq := imageSequence l.image } d)
    let d := (d.setFld Reg.CFG_STATE 13 12 (slotCode l.source)).loadEnd l.code 0 0
    d.when (imageAutoCommit l.image && d.cstate != 0) Dev.commitStart

/-- The sections in image order from index `i`, with the index of the first SAFETY section refused; a refused write ends the
load, and a reset that a section asked for has ended it already. -/
def Dev.applySections (l : Load) : Nat → Option Nat → List Section → Dev → Dev
  | _, bad, [], d => if d.loader.load.isNone then d else d.loadWritten l bad
  | i, bad, s :: rest, d =>
    if d.loader.load.isNone then d
    else
      let r := d.applySection s
      if r.1 then Dev.applySections l (i + 1) (if r.2.1 && bad.isNone then some i else bad) rest r.2.2
      else r.2.2.loadEnd l.code 8 i

/-- LOAD_COMPLETE (R149): what the load writes, and its result. -/
def execLoadComplete (s : State) : Host.Outcome State Fault Refusal :=
  s.onDev (fun d =>
    match d.loader.load with
    | some l => Dev.applySections l 0 none (imageSections l.image) d
    | none => d)

end Sys2Proof.Machine
end

