-- ==== Sys2Proof/Machine/HostPort.lean ====
section
/-!
DEFINITION. The host SPI port (R626 to R630, R669): frames with their check values, the write queue, and what the port answers.
-/

namespace Sys2Proof.Machine

/-- The bytes of a word, most significant first, as the port sends them (R626). -/
def wordBytesBE (w : Word) : List Byte := bytesOfNatBE 4 w.toNat

/-- CRC-16/CCITT over bytes as two bytes, most significant first. -/
def crc16Bytes (bs : List Byte) : List Byte := bytesOfNatBE 2 (crcOf crc16Params bs)

/-- The CRC that a frame must carry (R627): over CMD, ADDR, COUNT and DATA. -/
def hostCrc (cmd : Byte) (addr : Word) (count : Byte) (ws : List Word) : BitVec 16 :=
  BitVec.ofNat 16 (crcOf crc16Params (cmd :: wordBytesBE addr ++ count :: ws.flatMap wordBytesBE))

/-- The HOST page is out of reset. -/
def Dev.hostUp (d : Dev) : Bool := !d.pageHeld 0x99

/-- The port takes a frame whose HOST_CS_N fell `ns` ns ago: after the release of its page (R669). -/
def Dev.hostTakes (d : Dev) (ns : Nat) : Bool := d.hostUp && decide (5 * d.host.upAt + 2 * ns < 5 * d.now)

/-- STATUS (R627). -/
def Dev.hostStatus (d : Dev) (late accErr qfull crcOk : Bool) : Byte :=
  BitVec.ofNat 8 (128 * b2n d.irqLow + 8 * b2n late + 4 * b2n accErr + 2 * b2n qfull + b2n crcOk)

/-- The port drives RDATA, STATUS and RCRC (R627). -/
def Dev.hostAnswer (rdata : List Word) (late accErr qfull crcOk : Bool) (d : Dev) : Dev :=
  let bs := rdata.flatMap wordBytesBE ++ [d.hostStatus late accErr qfull crcOk]
  (Dev.putHost { d.host with response := bs ++ crc16Bytes bs } d)

/-- A frame whose CRC does not match (R628): counted; a READ sends zero data. -/
def Dev.hostCrcFail (rdata : List Word) (d : Dev) : Dev :=
  ((d.raise 0x99 1).bumpSat Reg.HOST_CNT 31 16).hostAnswer rdata false false false false

/-- A frame that the port takes: it executes only with its CRC right. -/
def Dev.hostFrame (ns : Nat) (ok : Bool) (zeros : List Word) (op : Dev → Dev) (d : Dev) : Dev :=
  if d.hostTakes ns then (if ok then op d else d.hostCrcFail zeros) else d

/-! ### The write queue -/

/-- The oldest queued write goes to its target as master 0x21 (R628). -/
def Dev.hostIssue (d : Dev) : Dev :=
  match d.host.queue with
  | [] => d
  | (a, v) :: rest => Dev.busWrite .host a 4 v (Dev.putHost { d.host with queue := rest } d)

/-- `n` queued writes issued in order. -/
def Dev.hostDrain : Nat → Dev → Dev
  | 0, d => d
  | n + 1, d => Dev.hostDrain n d.hostIssue

/-- HOST_WRITE_ISSUE (R628). -/
def execHostWriteIssue (s : State) : Host.Outcome State Fault Refusal := s.onDev Dev.hostIssue

/-- The words of a WRITE with their addresses. -/
def hostEntries (addr : Nat) (ws : List Word) : List (Nat × Word) :=
  (List.range ws.length).zipWith (fun i w => (addr + 4 * i, w)) ws

/-- A WRITE whose CRC matches (R628): queued, or discarded whole where its words do not all fit. -/
def Dev.hostQueue (addr : Nat) (ws : List Word) (d : Dev) : Dev :=
  if d.host.queue.length + ws.length ≤ 64 then
    ((Dev.putHost { d.host with queue := d.host.queue ++ hostEntries addr ws } d)).hostAnswer [] false false false true
  else (d.raise 0x99 2).hostAnswer [] false false true true

/-- SPI_WRITE (R627, R628). -/
def execSpiWrite (ns : Nat) (addr : Word) (ws : List Word) (crc : BitVec 16) (s : State) : Host.Outcome State Fault Refusal :=
  s.onDev (Dev.hostFrame ns (crc == hostCrc 2 addr (BitVec.ofNat 8 (ws.length - 1)) ws) [] (Dev.hostQueue addr.toNat ws))

/-! ### Reads -/

/-- A read that is refused (R44, R81, R629): the access table, or a page held in reset except for its ID. -/
def Dev.readRefused (d : Dev) (m : Master) (a : Nat) : Bool :=
  !d.readOk m a || match regionOf a with
    | .page p off => d.pageHeld p && off / 4 != 0
    | _ => false

/-- A word is LATE (R629): never from a register page or shared SRAM; from DRAM always unless it is READY, and never with 64
dummy clocks then; else where the frame shows it so. -/
def Dev.readLate (d : Dev) (a : Nat) (late : Bool) : Bool :=
  match regionOf a with
  | .page _ _ | .sram => false
  | .dram => if d.fld Reg.DRAM_STAT 2 0 ≠ 3 then true else late && d.fld Reg.HOST_CFG 1 0 != 3
  | _ => late

/-- A word to read: its address, whether it returns late, what error correction finds in it, and whether it arrives in the FAB cycle in
progress. -/
structure ReadSlot where
  addr : Nat
  late : Bool
  ecc  : Ecc
  same : Bool
  deriving DecidableEq, Repr

/-- The words of a frame from an address: those with an error found, and the first in the FAB cycle in progress with `same`. -/
def readSlots (addr count : Nat) (late : BitVec 64) (ecc : List (Fin 64 × Ecc)) (same : Bool) : List ReadSlot :=
  (List.range (count + 1)).map (fun i =>
    { addr := addr + 4 * i, late := late.getLsbD i, same := same && i == 0
      ecc := match ecc.find? (fun e => e.1.val == i) with | some e => e.2 | none => .ok })

/-- The words read at successive addresses (R629): those returned, whether any was refused, whether any was late. -/
def Dev.readWords (m : Master) : List ReadSlot → Dev → (List Word × Bool × Bool) × Dev
  | [], d => (([], false, false), d)
  | x :: rest, d =>
    let bad := d.readRefused m x.addr
    let slow := d.readLate x.addr x.late
    let r := Dev.portRead m x.addr x.ecc x.same d
    let q := Dev.readWords m rest r.2
    (((if slow then 0 else r.1) :: q.1.1, bad || q.1.2.1, slow || q.1.2.2), q.2)

/-- A READ whose CRC matches (R628, R629): after every earlier queued write has reached its target. -/
def Dev.hostRead (slots : List ReadSlot) (d : Dev) : Dev :=
  let d := Dev.hostDrain d.host.queue.length d
  if d.hostUp then
    let r := Dev.readWords .host slots d
    r.2.hostAnswer r.1.1 r.1.2.2 r.1.2.1 false true
  else d

/-- SPI_READ (R627 to R629); with `same` its first word is read in the FAB cycle in progress (R33, R597). -/
def execSpiRead (ns : Nat) (addr : Word) (count : Fin 64) (crc : BitVec 16) (late : BitVec 64) (ecc : List (Fin 64 × Ecc)) (same : Bool)
    (s : State) : Host.Outcome State Fault Refusal :=
  s.onDev (Dev.hostFrame ns (crc == hostCrc 1 addr (BitVec.ofNat 8 count.val) []) (List.replicate (count.val + 1) 0)
    (Dev.hostRead (readSlots addr.toNat count.val late ecc same)))

/-! ### The other frames -/

/-- SPI_NOP (R627). -/
def execSpiNop (ns : Nat) (addr : Word) (count : Byte) (crc : BitVec 16) (s : State) : Host.Outcome State Fault Refusal :=
  s.onDev (Dev.hostFrame ns (crc == hostCrc 3 addr count []) [] (Dev.hostAnswer [] false false false true))

/-- The reach that a reach word names (R630). -/
def reachOfWord (w : Word) : Option Reach :=
  if w = 0x52530001 then some .plane else if w = 0x52530002 then some .warm else none

/-- A RESET frame (R630): its STATUS is sent, then the source is asserted. -/
def Dev.hostReset (w : Word) (d : Dev) : Dev :=
  match reachOfWord w with
  | some r =>
    let d := d.hostAnswer [] false false false true
    Dev.putHost { response := d.host.response } (d.assertSource .cmdHost r)
  | none => d.hostAnswer [] false true false true

/-- SPI_RESET (R630). -/
def execSpiReset (ns : Nat) (reach : Word) (count : Byte) (crc : BitVec 16) (s : State) : Host.Outcome State Fault Refusal :=
  s.onDev (Dev.hostFrame ns (crc == hostCrc 0x10 reach count []) [] (Dev.hostReset reach))

/-- SPI_UNKNOWN_COMMAND (R628). -/
def execSpiUnknownCommand (ns : Nat) (cmd : Byte) (addr : Word) (count : Byte) (crc : BitVec 16) (s : State) :
    Host.Outcome State Fault Refusal :=
  s.onDev (Dev.hostFrame ns (crc == hostCrc cmd addr count []) [] (Dev.hostAnswer [] false true false true))

/-- FRAME_ABORT (R628). -/
def execFrameAbort (ns : Nat) (s : State) : Host.Outcome State Fault Refusal :=
  s.onDev (fun d => d.when (d.hostTakes ns) (fun d => (d.raise 0x99 0).bumpSat Reg.HOST_CNT 15 0))

end Sys2Proof.Machine
end

