-- ==== Sys2Proof/Machine/Net.lean ====
section
/-!
DEFINITION. The Ethernet ports and the services of Medlar behind them (R632 to R642): frame counts and links, register access,
the beacon, the PTP servo, and Modbus TCP.
-/

namespace Sys2Proof.Machine

/-! ### Ports (R632, R633) -/

/-- A port sends and receives: out of reset, enabled, with a link. -/
def Dev.portUp (d : Dev) (n : Nat) : Bool := !d.pageHeld (0x9A + n) && d.bit (Reg.ETH_CTRL n) 0 && d.bit (Reg.ETH_STAT n) 0

/-- A port carries a frame in this tick (R127). -/
def Dev.ethCarries (n : Nat) (d : Dev) : Dev := Dev.putNet { d.net with busyAt := vset d.net.busyAt n (some d.now) } d

/-- A frame received, and a frame sent, counted. -/
def Dev.ethReceived (n : Nat) (d : Dev) : Dev := (d.bumpWrap (Reg.ETH_RX_CNT n) 31 0).ethCarries n
def Dev.ethSent (n : Nat) (d : Dev) : Dev := (d.bumpWrap (Reg.ETH_TX_CNT n) 31 0).ethCarries n

/-- A frame sent with its payload. -/
def Dev.ethSend (n : Nat) (payload : List Byte) (d : Dev) : Dev :=
  let d := d.ethSent n
  (Dev.putNet { d.net with sent := vset d.net.sent n payload } d)

/-- A frame received is taken in for processing, or dropped and counted as beyond 20 000 in a second (R633; the seconds are those of
the device's ticks, log entry 102). -/
def Dev.ethTake (n : Nat) (d : Dev) : Bool × Dev :=
  let d := d.ethReceived n
  let second := d.now / 400000000
  let t := vget (0, 0) d.net.taken n
  let k := if t.1 = second then t.2 else 0
  if k < 20000 then (true, Dev.putNet { d.net with taken := vset d.net.taken n (second, k + 1) } d)
  else (false, d.bumpSat (Reg.ETH_DROP n) 31 0)

/-- ETH_LINK_CHANGE (R632, R645). -/
def execEthLinkChange (n : Fin 2) (up : Bool) (s : State) : Host.Outcome State Fault Refusal :=
  s.onDev (fun d =>
    if d.pageHeld (0x9A + n.val) || d.bit (Reg.ETH_STAT n.val) 0 == up then d
    else (d.setBit (Reg.ETH_STAT n.val) 0 up).raise (0x9A + n.val) (if up then 0 else 1))

/-- ETH_FRAME_RECEIVE (R632, R633): the excess is dropped and counted; ARP requests and ICMP echoes are answered. -/
def execEthFrameReceive (n : Fin 2) (kind : EthKind) (s : State) : Host.Outcome State Fault Refusal :=
  s.onDev (fun d =>
    if !d.portUp n.val then d else
    let r := d.ethTake n.val
    r.2.when (r.1 && kind != .other && d.medlarUp) (Dev.ethSent n.val))

/-! ### Register access (R635, R636) -/

/-- SERVICE permits a source address; it lists at most four (R635). -/
def Dev.permitsSource (d : Dev) (ip : Word) : Bool :=
  match d.mgmt.service with
  | some x => (x.permitted.take 4).contains ip
  | none => false

/-- A reply (R636): the header of the request with CMD OR 0x80 and STATUS [2:0], and the data of a READ. -/
def ethReply (cmd : Byte) (accErr : Bool) (seq addr : Word) (data : List Word) : List Byte :=
  [0x8A, 0xC4, cmd ||| 0x80, BitVec.ofNat 8 (4 * b2n accErr + 1)] ++ wordBytes seq ++ wordBytes addr ++ data.flatMap wordBytes

/-- A reply is stored and sent. -/
def Dev.ethAnswer (n : Nat) (p : EthPeer) (seq : Word) (reply : List Byte) (d : Dev) : Dev :=
  Dev.ethSend n reply (Dev.putNet { d.net with last := some { peer := p, seq := seq, reply := reply } } d)

/-- A request (R635, R636): discarded without reply, answered again from the stored reply, or executed. -/
def Dev.ethRequest (n : Nat) (p : EthPeer) (seq : Word) (lengthOk : Bool) (op : Dev → Dev) (d : Dev) : Dev :=
  if !d.portUp n then d else
  let t := d.ethTake n
  let d := t.2
  if !(t.1 && d.medlarUp && lengthOk && d.permitsSource p.ip) then d else
  match d.net.last with
  | some r => if r.peer = p ∧ r.seq = seq then d.ethSend n r.reply else op d
  | none => op d

/-- ETH_READ (R635, R636): a datagram of `len` bytes, which a READ has 12 of; with `same` its first word is read in the FAB cycle in
progress (R33, R597). -/
def execEthRead (n : Fin 2) (p : EthPeer) (seq : Word) (count : Fin 64) (addr : Word) (len : Nat) (ecc : List (Fin 64 × Ecc))
    (same : Bool) (s : State) : Host.Outcome State Fault Refusal :=
  s.onDev (Dev.ethRequest n.val p seq (len == 12) (fun d =>
    let r := Dev.readWords .medlar (readSlots addr.toNat count.val 0 ecc same) d
    r.2.ethAnswer n.val p seq (ethReply 0x01 r.1.2.1 seq addr r.1.1)))

/-- ETH_WRITE (R636): the words in order as master 0x20, then the reply, unless a word has reset the port that would send it. -/
def execEthWrite (n : Fin 2) (p : EthPeer) (seq : Word) (count : Fin 64) (addr : Word) (ws : List Word) (s : State) :
    Host.Outcome State Fault Refusal :=
  s.onDev (Dev.ethRequest n.val p seq (ws.length == count.val + 1) (fun d =>
    let d := each (hostEntries addr.toNat ws) (fun e d => if d.medlarUp then Dev.busWrite .medlar e.1 4 e.2 d else d) d
    d.when (d.portUp n.val && d.medlarUp) (Dev.ethAnswer n.val p seq (ethReply 0x02 false seq addr []))))

/-- ETH_RESET (R630, R635, R636): a datagram of `len` bytes, which a RESET has 12 of; the reply is sent before the source asserts. -/
def execEthReset (n : Fin 2) (p : EthPeer) (seq : Word) (reach : Word) (len : Nat) (s : State) :
    Host.Outcome State Fault Refusal :=
  s.onDev (Dev.ethRequest n.val p seq (len == 12) (fun d =>
    match reachOfWord reach with
    | some r =>
      let d := d.ethAnswer n.val p seq (ethReply 0x10 false seq reach [])
      Dev.putNet { sent := d.net.sent } (d.assertSource .cmdEth r)
    | none => d.ethAnswer n.val p seq (ethReply 0x10 true seq reach [])))

/-! ### Beacon (R165, R637) -/

/-- The payload of the beacon of port n. -/
def Dev.beaconPayload (d : Dev) (n : Nat) : List Byte :=
  [0x43, 0x58, 0x42, 0x4E] ++ wordBytes (d.reg 0) ++ bytesOfNat 6 (d.macOf n) ++
    [BitVec.ofNat 8 d.cstate, BitVec.ofNat 8 (d.fld Reg.CFG_RESULT 23 16)] ++
    wordBytes (d.ipv4 n) ++ wordBytes (d.reg Reg.RST_CAUSE) ++ wordBytes d.loader.appliedSeq

/-- A period of `ms` ms since the latest act has passed, if there was one. -/
def Dev.periodPassed (d : Dev) (last : Option Nat) (ms : Nat) : Bool :=
  match last with
  | some t => decide (t + 400000 * ms ≤ d.now)
  | none => true

/-- The period of the beacon in ms: 1 s (R165), or as the committed SERVICE section sets it. -/
def Dev.beaconMs (d : Dev) : Nat :=
  match d.mgmt.service with
  | some x => Nat.max 1 x.beacon
  | none => 1000

/-- BEACON (R165, R637): once per period, on each port with a link. -/
def execBeacon (s : State) : Host.Outcome State Fault Refusal :=
  s.onDev (fun d => d.when (d.medlarUp && d.periodPassed d.mgmt.beaconAt d.beaconMs) (fun d =>
    let d := Dev.putMgmt { d.mgmt with beaconAt := some d.now } d
    each [0, 1] (fun n d => d.when (d.portUp n) (fun d => d.ethSend n (d.beaconPayload n))) d))

/-! ### PTP (R638, R640) -/

/-- Medlar runs its clock as a slave on a port that SERVICE selects. -/
def Dev.ptpSlave (d : Dev) : Bool :=
  d.medlarUp && match d.mgmt.service with
    | some x => x.ptpPort.isSome && x.ptpSlave
    | none => false

/-- The offset of a Sync (R640, R645): OFFSET, LOCKED and its events. -/
def Dev.ptpOffset (offset : Int) (d : Dev) : Dev :=
  let near := decide (offset.natAbs ≤ 1000)
  let good := if near then d.net.syncGood + 1 else 0
  let d : Dev := (Dev.putNet { d.net with offset := some offset, syncGood := good } d)
  let d := d.setFld Reg.TS_SERVO_STAT 15 0 (unsignedOf 16 (clampInt (-32768) 32767 offset))
  let old := d.bit Reg.TS_SERVO_STAT 31
  let new := near && (old || decide (8 ≤ good))
  if new == old then d else (d.setBit Reg.TS_SERVO_STAT 31 new).raise 5 (if new then 0 else 1)

/-- PTP time some ticks ago in half nanoseconds: EPOCH + 2.5 × device time (R639). -/
def Dev.ptpHalfNs (d : Dev) (back : Nat) : Int :=
  2 * ((d.reg Reg.TS_EPOCH_LO).toNat + 2 ^ 32 * (d.reg Reg.TS_EPOCH_HI).toNat : Nat) + 5 * ((d.devTime : Int) - back)

/-- An error of a time stamp, from −8 to 8 ns in half nanoseconds, that R638 leaves open. -/
def stampError (w : Word) : Int := (w.toNat % 33 : Nat) - 16

/-- The PHY latencies of the port that runs PTP, sending and receiving, in ns (R638). -/
def Dev.phyLatency (d : Dev) : Int × Int :=
  match d.mgmt.service with
  | some x =>
    match x.ptpPort with
    | some p => (vget 0 x.phyTx p.val, vget 0 x.phyRx p.val)
    | none => (0, 0)
  | none => (0, 0)

/-- The offset that a Sync yields by the delay request-response mechanism (R638, R640), in whole ns: half the difference between the
master's message's way and the request's, each less its PHY latency and with the open error of its time stamp. -/
def Dev.syncOffset (x : PtpExchange) (d : Dev) : Int × Dev :=
  let r := d.free
  let q := r.2.free
  let lat := d.phyLatency
  let down := d.ptpHalfNs x.back2 + stampError r.1 - 2 * lat.2 - 2 * (x.t1 : Int)
  let up := 2 * (x.t4 : Int) - (d.ptpHalfNs x.back3 + stampError q.1) - 2 * lat.1
  ((down - up) / 4, q.2)

/-- PTP_SYNC (R638, R640). -/
def execPtpSync (x : PtpExchange) (s : State) : Host.Outcome State Fault Refusal :=
  s.onDev (fun d => d.when (d.ptpSlave && !d.pageHeld 5) (fun d => let r := d.syncOffset x; r.2.ptpOffset r.1))

/-- RATE and EPOCH after the correction of an offset (R640): through EPOCH above 100 µs, else through RATE. -/
def Dev.servoWords (d : Dev) (offset : Int) : List (Nat × Word) :=
  let rate := d.reg Reg.TS_RATE
  let lo := d.reg Reg.TS_EPOCH_LO
  let hi := d.reg Reg.TS_EPOCH_HI
  let epoch := unsignedOf 64 ((lo.toNat + 2 ^ 32 * hi.toNat : Nat) - offset)
  if 100000 < offset.natAbs then [(Reg.TS_RATE, rate), (Reg.TS_EPOCH_LO, word epoch), (Reg.TS_EPOCH_HI, word (epoch / 2 ^ 32))]
  else [(Reg.TS_RATE, Config.servoRate offset rate), (Reg.TS_EPOCH_LO, lo), (Reg.TS_EPOCH_HI, hi)]

/-- The commit CRC of a set of shadows with some words replaced (R66, R640). -/
def setCrc (shadows ws : List (Nat × Word)) : Word :=
  let all := each ws (fun e l => store resetWord e.1 e.2 l) shadows
  crc32cWords (rwcKeys.map (fun k => lookup resetWord k all &&& rwcMask k))

/-- The servo may commit now: HOLD is 0, no mismatch stands, a second has passed, and CFG is free for its command (R640, R641). -/
def Dev.servoReady (d : Dev) : Bool :=
  d.ptpSlave && !d.bit Reg.TS_SERVO 0 && !d.net.servoStop && !d.cfgBusy && d.kstate 3 == 0 && !d.pageHeld 3 && !d.pageHeld 5 &&
    match d.net.servoAt with
    | some t => decide (t + 400000000 ≤ d.now)
    | none => true

/-- The servo's commit (R640): BUSY from the shadow write, the TS shadows, COMMIT_EXP, and COMMIT behind its key. -/
def Dev.servoCommit (good : List (Nat × Word)) (offset : Int) (d : Dev) : Dev :=
  let ws := d.servoWords offset
  let d := d.setBit Reg.TS_SERVO_STAT 30 true
  let d : Dev := (Dev.putNet { d.net with servoAt := some d.now, offset := none } d)
  let d := each ws (fun e d => Dev.busWrite .medlar (keyAddr e.1 + 0x800) 4 e.2 d) d
  let d := Dev.busWrite .medlar (keyAddr Reg.CFG_COMMIT_EXP) 4 (setCrc good ws) d
  let d := Dev.busWrite .medlar (keyAddr (Reg.key 3)) 4 0x5A000003 d
  let d := Dev.busWrite .medlar (keyAddr (Reg.key 3)) 4 0xA5000003 d
  Dev.busWrite .medlar (keyAddr Reg.CFG_CMD) 4 0x10 d

/-- SERVO_COMMIT (R640). -/
def execServoCommit (s : State) : Host.Outcome State Fault Refusal :=
  s.onDev (fun d =>
    match d.loader.goodSet, d.net.offset with
    | some good, some o => d.when d.servoReady (Dev.servoCommit good o)
    | _, _ => d)

/-! ### Modbus TCP (R642) -/

/-- Medlar posts eight words to an engine's mailbox with its current GEN (R213, R642, R644). -/
def Dev.postToEngine (e : Nat) (ws : List Word) (d : Dev) : Dev :=
  let d := each (List.range 8) (fun j d => Dev.busWrite .medlar (keyAddr (Reg.LE_MBX_IN e j)) 4 (nth 0 ws j) d) d
  Dev.busWrite .medlar (keyAddr (Reg.LE_MBX_POST e)) 4 (place 16 16 1 ||| place 15 0 (d.fld (Reg.gen (0x10 + e)) 15 0)) d

/-- The server runs where SERVICE selects it. -/
def Dev.modbusOn (d : Dev) : Bool :=
  d.medlarUp && match d.mgmt.service with
    | some x => x.modbus
    | none => false

/-- An answer, and an exception. -/
def Dev.modbusAnswer (bs : List Byte) (d : Dev) : Dev := (Dev.putNet { d.net with modbusTx := bs } d)
def Dev.modbusError (fc code : Byte) (d : Dev) : Dev := d.modbusAnswer [fc ||| 0x80, code]

/-- Two registers show a word, high half first; register `i` of a list of words, a free one where the list ends. -/
def Dev.halfOf (d : Dev) (ws : List Word) (i : Nat) : Nat :=
  let w := nth (Config.freeWord (d.freeCount + i / 2)) ws (i / 2)
  if i % 2 = 0 then Machine.fld 31 16 w else Machine.fld 15 0 w

/-- A read of `count` registers from `start` of a map that has `size` registers from `base`: words not stated are free. -/
def Dev.modbusRead (fc : Byte) (base size : Nat) (ws : List Word) (start count : Nat) (d : Dev) : Dev :=
  if count = 0 ∨ 125 < count then d.modbusError fc 3
  else if start < base ∨ base + size < start + count then d.modbusError fc 2
  else
    let bs := (List.range count).flatMap (fun i => bytesOfNatBE 2 (d.halfOf ws (start - base + i)))
    Dev.modbusAnswer ([fc, BitVec.ofNat 8 (2 * count)] ++ bs) (d.skipFree (size / 2))

/-- MODBUS_READ_INPUT (R642): the latest telemetry set. -/
def execModbusReadInput (start count : BitVec 16) (s : State) : Host.Outcome State Fault Refusal :=
  s.onDev (fun d => d.when d.modbusOn (Dev.modbusRead 0x04 0 128 d.mgmt.tele start.toNat count.toNat))

/-- MODBUS_READ_HOLDING (R642): the words of the latest posted message. -/
def execModbusReadHolding (start count : BitVec 16) (s : State) : Host.Outcome State Fault Refusal :=
  s.onDev (fun d => d.when d.modbusOn (Dev.modbusRead 0x03 0x1000 16 d.net.posted start.toNat count.toNat))

/-- The engine whose mailbox SERVICE names for Modbus. -/
def Dev.modbusEngine (d : Dev) : Nat :=
  match d.mgmt.service with
  | some x => x.modbusLe.val
  | none => 0

/-- Sixteen registers as eight words, high half first. -/
def wordsOfHalves (hs : List (BitVec 16)) : List Word :=
  (List.range 8).map (fun j => word ((nth 0 hs (2 * j)).toNat * 2 ^ 16 + (nth 0 hs (2 * j + 1)).toNat))

/-- A write of the sixteen registers (R642). -/
def Dev.modbusPost (hs : List (BitVec 16)) (d : Dev) : Dev :=
  if d.bit (Reg.LE_MBX_STAT d.modbusEngine) 0 then d.modbusError 0x10 6
  else
    let ws := wordsOfHalves hs
    let d := d.postToEngine d.modbusEngine ws
    Dev.modbusAnswer [0x10, 0x10, 0x00, 0x00, 0x10] (Dev.putNet { d.net with posted := ws } d)

/-- MODBUS_WRITE_MULTIPLE (R642). -/
def execModbusWriteMultiple (start : BitVec 16) (hs : List (BitVec 16)) (s : State) : Host.Outcome State Fault Refusal :=
  s.onDev (fun d => d.when d.modbusOn
    (if start = 0x1000 ∧ hs.length = 16 then Dev.modbusPost hs else Dev.modbusError 0x10 2))

end Sys2Proof.Machine
end

