-- ==== Sys2Proof/Machine/CanOpen.lean ====
section
/-!
DEFINITION. The CANopen device (R165, R643, R644): the heartbeat, NMT and SYNC, the SDO server, and the objects of the fan and pump
channels.
-/

namespace Sys2Proof.Machine

/-- Medlar sends a heartbeat frame from buffer 63 of its controller, unless the previous one still waits there (R165, R643). -/
def Dev.sendBeat (state : Byte) (d : Dev) : Dev :=
  let n := d.serviceCan
  if d.pageHeld (0x80 + n) || d.txPending n 63 || d.bufRole n 63 != 2 then d else
  let d := d.setBuf n 63
    { id := word ((0x700 + d.nodeId) * 2 ^ 18), info := place 19 16 1, data := vset (Vector.replicate 16 0) 0 (word state.toNat) }
  let d := d.txReqOp .medlar n 1 (bitMask 31)
  (Dev.putCanopen { d.canopen with beat := [state] } d)

/-- The period of the heartbeat in ms: 1 s (R165, R643), or as the committed SERVICE section sets it. -/
def Dev.beatMs (d : Dev) : Nat :=
  match d.mgmt.service with
  | some x => Nat.max 1 x.heartbeat
  | none => 1000

/-- HEARTBEAT (R165, R643): the NMT state, once per period; Medlar first joins its bus anew where a commit has changed its settings. -/
def execHeartbeat (s : State) : Host.Outcome State Fault Refusal :=
  s.onDev (fun d => d.when (d.medlarUp && d.periodPassed d.mgmt.beatAt d.beatMs) (fun d =>
    let d := Dev.putMgmt { d.mgmt with beatAt := some d.now } d
    let d := d.when d.mgmt.rejoin Dev.claimCan
    d.sendBeat (BitVec.ofNat 8 d.canopen.nmt)))

/-- NMT replaced. -/
def Dev.setNmt (v : Nat) (d : Dev) : Dev := (Dev.putCanopen { d.canopen with nmt := v } d)

/-- An NMT command (CiA 301): start, stop, enter pre-operational, reset node, reset communication; the resets end in
pre-operational with the boot-up message, the former with the objects of the channels as at power-on. -/
def Dev.nmtCommand (cmd : Nat) (d : Dev) : Dev :=
  if cmd = 1 then d.setNmt 5
  else if cmd = 2 then d.setNmt 4
  else if cmd = 0x80 then d.setNmt 127
  else if cmd = 0x81 then (Dev.sendBeat 0 (Dev.putCanopen { emcy := d.canopen.emcy } d))
  else if cmd = 0x82 then (d.setNmt 127).sendBeat 0
  else d

/-- NMT (R643): a command to this node or to all. -/
def execNmt (cmd node : Byte) (s : State) : Host.Outcome State Fault Refusal :=
  s.onDev (fun d => d.when (d.medlarUp && (node.toNat == 0 || node.toNat == d.nodeId)) (Dev.nmtCommand cmd.toNat))

/-- SYNC_CONSUMER (R643): consumed unless the node is stopped. -/
def execSyncConsumer (s : State) : Host.Outcome State Fault Refusal :=
  s.onDev (fun d => d.when (d.medlarUp && d.canopen.nmt != 4)
    (fun d => (Dev.putCanopen { d.canopen with syncs := d.canopen.syncs + 1 } d)))

/-! ### The SDO server (R643, CiA 301) -/

/-- An answer of the server. -/
def Dev.sdoAnswer (bs : List Byte) (d : Dev) : Dev := (Dev.putCanopen { d.canopen with answer := bs } d)

/-- Index and sub-index as a frame carries them. -/
def sdoAddr (index : BitVec 16) (sub : Byte) : List Byte := bytesOfNat 2 index.toNat ++ [sub]

/-- An abort, a written object, and a value of `k` bytes read. -/
def sdoAbort (index : BitVec 16) (sub : Byte) (code : Word) : List Byte := 0x80 :: sdoAddr index sub ++ wordBytes code
def sdoWritten (index : BitVec 16) (sub : Byte) : List Byte := 0x60 :: sdoAddr index sub ++ [0, 0, 0, 0]
def sdoRead (index : BitVec 16) (sub : Byte) (k v : Nat) : List Byte :=
  (BitVec.ofNat 8 (0x43 + 4 * (4 - k))) :: sdoAddr index sub ++ bytesOfNat 4 (v % 2 ^ (8 * k))

/-! ### Channels (R644) -/

/-- The machine-control unit and the engine to which SERVICE binds channel c. -/
def Dev.channel (d : Dev) (c : Nat) : Option (Fin 12 × Fin 12) :=
  match d.mgmt.service with
  | some x => x.channels[c]?
  | none => none

/-- PP of a unit; 0 acts as 1. -/
def Dev.polePairs (d : Dev) (n : Nat) : Nat := Nat.max 1 (d.fld (Reg.MC_CFG n) 27 24)

/-- The words of a channel's message (R644). -/
def channelWords (c pp : Nat) (ctrl target : BitVec 16) : List Word :=
  [word (0x04020000 + c * 0x100), word ctrl.toNat, fpOfRatio (target.toInt * pp) 60, 0, 0, 0, 0, 0]

/-- A write of the controlword or the target of a channel (R644): posted, or aborted while the mailbox is pending; an unbound
channel has no object. -/
def Dev.channelWrite (c : Nat) (target : Bool) (v : BitVec 16) (d : Dev) : Dev :=
  let index := BitVec.ofNat 16 ((if target then 0x6042 else 0x6040) + 0x800 * c)
  match d.channel c with
  | none => d.sdoAnswer (sdoAbort index 0 0x06020000)
  | some (n, e) =>
    if d.bit (Reg.LE_MBX_STAT e.val) 0 then d.sdoAnswer (sdoAbort index 0 0x08000020)
    else
      let o := d.canopen
      let o := if target then { o with target := vset o.target c v } else { o with ctrl := vset o.ctrl c v }
      let d := Dev.postToEngine e.val (channelWords c (d.polePairs n.val) (vget 0 o.ctrl c) (vget 0 o.target c)) (Dev.putCanopen o d)
      d.sdoAnswer (sdoWritten index 0)

/-- CHANNEL_OBJECT_WRITE (R644). -/
def execChannelObjectWrite (c : Fin 8) (target : Bool) (v : BitVec 16) (s : State) : Host.Outcome State Fault Refusal :=
  s.onDev (fun d => d.when (d.medlarUp && d.canopen.nmt != 4) (Dev.channelWrite c.val target v))

/-- The statusword (R644). -/
def statusWord (mstate : Nat) : Nat :=
  if 2 ≤ mstate ∧ mstate ≤ 4 then 0x0027 else if mstate = 8 then 0x0008 else 0x0040

/-- F_OUT × 60 / PP rounded to nearest; none where it has no 16-bit value. -/
def velocityActual (f : Word) (pp : Nat) : Option Int :=
  match fpRead f with
  | .zero _ => some 0
  | .fin neg m e =>
    let num := m * 60 * 2 ^ e.toNat
    let den := pp * 2 ^ (-e).toNat
    let q := num / den
    let r := num % den
    let up := decide (den < 2 * r) || (decide (den = 2 * r) && Config.roundUp (if neg then -(num : Int) else num) den)
    let i : Int := if neg then -((q + b2n up : Nat) : Int) else ((q + b2n up : Nat) : Int)
    if i < -32768 ∨ 32767 < i then none else some i
  | _ => none

/-- Object 0x6044 of a unit, a free value where the rounding of R644 has no 16-bit result. -/
def Dev.velocityObject (d : Dev) (n : Nat) : Nat :=
  match velocityActual (d.reg (Reg.MC_F_OUT n)) (d.polePairs n) with
  | some i => unsignedOf 16 i
  | none => Machine.fld 15 0 (Config.freeWord d.freeCount)

/-- A request on an object of channel c: `k` is its index less 0x6040. -/
def Dev.channelRequest (c k : Nat) (index : BitVec 16) (sub : Byte) (write : Option (List Byte)) (d : Dev) : Dev :=
  match d.channel c with
  | none => d.sdoAnswer (sdoAbort index sub 0x06020000)
  | some (n, _) =>
    if sub ≠ 0 then d.sdoAnswer (sdoAbort index sub 0x06090011) else
    match write with
    | some bs =>
      if k = 1 ∨ k = 4 then d.sdoAnswer (sdoAbort index sub 0x06010002)
      else if bs.length ≠ 2 then d.sdoAnswer (sdoAbort index sub 0x06070010)
      else d.channelWrite c (k == 2) (BitVec.ofNat 16 (natOfBytes bs))
    | none =>
      let v := if k = 0 then (vget 0 d.canopen.ctrl c).toNat
        else if k = 1 then statusWord (d.fld (Reg.MC_STAT n.val) 3 0)
        else if k = 2 then (vget 0 d.canopen.target c).toNat
        else d.velocityObject n.val
      Dev.sdoAnswer (sdoRead index sub 2 v) (d.skipFree 1)

/-- A request on the announcement object 0x2000 (R643). -/
def Dev.announceRequest (index : BitVec 16) (sub : Byte) (write : Option (List Byte)) (d : Dev) : Dev :=
  if 3 < sub.toNat then d.sdoAnswer (sdoAbort index sub 0x06090011)
  else if write.isSome then d.sdoAnswer (sdoAbort index sub 0x06010002)
  else if sub = 0 then d.sdoAnswer (sdoRead index sub 1 3)
  else if sub = 1 then d.sdoAnswer (sdoRead index sub 4 d.cstate)
  else if sub = 2 then d.sdoAnswer (sdoRead index sub 4 (d.fld Reg.CFG_RESULT 23 16))
  else d.sdoAnswer (sdoRead index sub 4 d.loader.appliedSeq.toNat)

/-- Every other object of CiA 301: the spec gives none of their values, and the answer is free. -/
def Dev.openRequest (d : Dev) : Dev :=
  Dev.sdoAnswer (wordBytes (Config.freeWord d.freeCount) ++ wordBytes (Config.freeWord (d.freeCount + 1)))
    (d.skipFree 2)

/-- SDO_REQUEST (R643, R644): served in the states pre-operational and operational. -/
def Dev.sdoRequest (index : BitVec 16) (sub : Byte) (write : Option (List Byte)) (d : Dev) : Dev :=
  let i := index.toNat
  let c := (i - 0x6040) / 0x800
  let k := (i - 0x6040) % 0x800
  if i = 0x2000 then d.announceRequest index sub write
  else if 0x6040 ≤ i ∧ c < 8 ∧ (k = 0 ∨ k = 1 ∨ k = 2 ∨ k = 4) then d.channelRequest c k index sub write
  else d.openRequest

def execSdoRequest (index : BitVec 16) (sub : Byte) (write : Option (List Byte)) (s : State) :
    Host.Outcome State Fault Refusal :=
  s.onDev (fun d => d.when (d.medlarUp && d.canopen.nmt != 4) (Dev.sdoRequest index sub write))

end Sys2Proof.Machine
end

