-- ==== Sys2Proof/Machine/Clock.lean ====
section
/-!
DEFINITION. Crystal, PLLs, qualification and monitors of the clocks, and spread spectrum (spec/03, spec/04).
-/

namespace Sys2Proof.Machine

/-- Ten times the nominal count of a domain over 256 AON cycles: 64 per MHz (R95). -/
def nominal10 : Domain → Nat
  | .fab => 800 * 64 | .mgt => 1200 * 64 | .tri => 400 * 64 | .pwm => 400 * 64 | .adc => 200 * 64 | .fbk => 200 * 64
  | .mbus => 80 * 64 | .net => 125 * 64 | .mem => 1066 * 64

/-- A count within a percentage of nominal. -/
def countWithin (pct : Nat) (dom : Domain) (count : Nat) : Bool :=
  (100 - pct) * nominal10 dom ≤ 1000 * count && 1000 * count ≤ (100 + pct) * nominal10 dom

/-- The PLL of a domain, as CLK.LOCK numbers them (R126). -/
def pllOf : Domain → Nat
  | .fab => 0 | .mgt => 1 | .tri => 2 | .pwm => 3 | .adc => 3 | .fbk => 3 | .mbus => 3 | .net => 4 | .mem => 5

/-- Every PLL domain. -/
def allDomains : List Domain := [.fab, .mgt, .tri, .pwm, .adc, .fbk, .mbus, .net, .mem]

/-- The count of the latest completed gate of a domain (CLK.MEAS.COUNT). -/
def Dev.noteCount (dom : Domain) (count bad : Nat) (d : Dev) : Dev :=
  (Dev.putClocks { d.clocks with
    counts := vset d.clocks.counts (domainBit dom) count, badGates := vset d.clocks.badGates (domainBit dom) bad } d)

/-- XTAL_VALID (R97). -/
def execXtalValid (s : State) : Host.Outcome State Fault Refusal :=
  s.onDev (fun d =>
    if d.clocks.pllsOn || d.clocks.xtalFault then d
    else (Dev.putClocks { d.clocks with pllsOn := true } (d.setBit Reg.CLK_QUAL 16 true)))

/-- XTAL_TIMEOUT (R97): every PLL domain stays held and IRQ_N low until the next cold reset. -/
def execXtalTimeout (s : State) : Host.Outcome State Fault Refusal :=
  s.onDev (fun d =>
    if d.clocks.pllsOn then d
    else (Dev.putClocks { d.clocks with xtalFault := true } ((d.setBit Reg.CLK_MON_FAIL 16 true).raise 2 0)))

/-- PLL_LOCK (R114). -/
def execPllLock (p : Fin 6) (s : State) : Host.Outcome State Fault Refusal :=
  s.onDev (fun d => d.when d.clocks.pllsOn (Dev.setBit Reg.CLK_LOCK p.val true))

/-- CLOCK_QUALIFY (R95, R82): a locked PLL and a count within ±2 % qualify the domain; deferred pages are released. -/
def execClockQualify (dom : Domain) (count : Nat) (s : State) : Host.Outcome State Fault Refusal :=
  s.onDev (fun d =>
    let d := d.noteCount dom count 0
    if d.bit Reg.CLK_LOCK (pllOf dom) && countWithin 2 dom count then
      let d := d.setBit Reg.CLK_QUAL (domainBit dom) true
      Dev.romAfter d (Dev.putReset { d.reset with deferred := d.reset.deferred.filter (fun p => pageDomain p != some dom) } d)
    else d)

/-- QUALIFICATION_TIMEOUT (R82): pages that wait for the domain stay held. -/
def execQualificationTimeout (dom : Domain) (s : State) : Host.Outcome State Fault Refusal :=
  s.onDev (fun d => d.when (d.reset.deferred.any (fun p => pageDomain p == some dom)) (Dev.raise 2 0))

/-- Domains whose failure is Sloe's clock-monitor failure; the others assert the Medlar watchdog source (R118). -/
def sloeDomain : Domain → Bool
  | .fab | .tri | .pwm | .adc | .fbk | .mbus => true
  | .mgt | .net | .mem => false

/-- Domains fail (R116 to R119): recorded, no longer qualified; PLLs of Sloe's domains restart with its warm episode. -/
def Dev.failDomains (doms : List Domain) (d : Dev) : Dev :=
  let d := each doms (fun x d => (d.setBit Reg.CLK_MON_FAIL (domainBit x) true).setBit Reg.CLK_QUAL (domainBit x) false) d
  let d := d.raise 2 1
  if doms.any sloeDomain then
    let plls := doms.map pllOf
    let d := each plls (fun p d => d.setBit Reg.CLK_LOCK p false) d
    let d := each (allDomains.filter (fun x => plls.contains (pllOf x))) (fun x d => d.setBit Reg.CLK_QUAL (domainBit x) false) d
    d.assertSource .clkMon .warm
  else d.assertSource .mgtWdt .plane

/-- MONITOR_GATE (R116): a count outside ±5 % in two gates running fails a qualified domain. -/
def execMonitorGate (dom : Domain) (count : Nat) (s : State) : Host.Outcome State Fault Refusal :=
  s.onDev (fun d =>
    if !d.qualified dom then d else
    let bad := if countWithin 5 dom count then 0 else vget 0 d.clocks.badGates (domainBit dom) + 1
    let d := d.noteCount dom count bad
    d.when (2 ≤ bad) (Dev.failDomains [dom]))

/-- CLOCK_EDGE_TIMEOUT (R116). -/
def execClockEdgeTimeout (dom : Domain) (s : State) : Host.Outcome State Fault Refusal :=
  s.onDev (fun d => d.when (d.qualified dom) (Dev.failDomains [dom]))

/-- XTAL_RC_MISMATCH (R117, R118): a failure of every PLL domain. A domain that has failed or has not qualified anew holds its failure
and fails no second time, and a mismatch that finds none to fail asserts no source (R119, R670). The Sloe clock-monitor source is
asserted alone, not the Medlar watchdog source beside it for MGT, NET and MEM (DESIGN CHOICE, log entry 90). -/
def execXtalRcMismatch (s : State) : Host.Outcome State Fault Refusal :=
  s.onDev (fun d =>
    let doms := allDomains.filter d.qualified
    let d := d.setBit Reg.CLK_MON_FAIL 17 true
    d.when (!doms.isEmpty) (Dev.failDomains doms))

/-- The field of a PLL in CLK.SSC and CLK.SSC_STAT (R126), by its low bit. -/
def sscLow : SscPll → Nat
  | .fab => 0 | .mgt => 4 | .net => 8 | .mem => 12

/-- The condition under which a PLL applies its transferred depth (R121). -/
def Dev.sscMay (d : Dev) : SscPll → Bool
  | .fab => d.deviceOff
  | .net => !d.bit (Reg.ETH_CTRL 0) 0 && !d.bit (Reg.ETH_CTRL 1) 0
  | .mgt | .mem => true

/-- SSC_APPLY (R121). -/
def execSscApply (p : SscPll) (s : State) : Host.Outcome State Fault Refusal :=
  s.onDev (fun d =>
    let lo := sscLow p
    let v := d.fld Reg.CLK_SSC (lo + 1) lo
    if d.sscMay p && d.fld Reg.CLK_SSC_STAT (lo + 1) lo != v then (d.setFld Reg.CLK_SSC_STAT (lo + 1) lo v).raise 2 2 else d)

end Sys2Proof.Machine
end

