-- ==== Sys2Proof/Machine/EngineF.lean ====
section
/-!
DEFINITION. The F-class instructions of the loop engines (R171 to R173, R176, R177), and the illegal opcodes.
-/

namespace Sys2Proof.Machine

/-- A result without flags. -/
def plain (w : Word) : FpOut := ⟨w, .none⟩

/-- A floating-point instruction of form D, A, Bi. -/
def Dev.fpOp2 (op : Nat) (g : Word → Word → FpOut) (e : Nat) (f : EngFields) (d : Dev) : Dev :=
  d.issueOp e op .dabi f (fun d => g (d.v e f.a.val) (d.opBi e f))

/-- An integer instruction of form D, A, Bi. -/
def Dev.intOp2 (op : Nat) (g : Word → Word → Word) (e : Nat) (f : EngFields) (d : Dev) : Dev :=
  d.issueOp e op .dabi f (fun d => plain (g (d.v e f.a.val) (d.opBi e f)))

/-- NOP. -/
def execNop (e : Fin 12) (f : EngFields) (s : State) : Host.Outcome State Fault Refusal :=
  s.onDev (Dev.issue e.val 0x00 {} f (Dev.advance e.val))

/-- FADD. -/
def execFadd (e : Fin 12) (f : EngFields) (s : State) : Host.Outcome State Fault Refusal := s.onDev (Dev.fpOp2 0x01 fpAdd e.val f)

/-- FSUB. -/
def execFsub (e : Fin 12) (f : EngFields) (s : State) : Host.Outcome State Fault Refusal := s.onDev (Dev.fpOp2 0x02 fpSub e.val f)

/-- FMUL. -/
def execFmul (e : Fin 12) (f : EngFields) (s : State) : Host.Outcome State Fault Refusal := s.onDev (Dev.fpOp2 0x03 fpMul e.val f)

/-- FMA: A × Bi + C with one rounding. -/
def execFma (e : Fin 12) (f : EngFields) (s : State) : Host.Outcome State Fault Refusal :=
  s.onDev (Dev.issueOp e.val 0x04 .dabic f (fun d => fpFma (d.v e.val f.a.val) (d.opBi e.val f) (d.v e.val f.c.val)))

/-- FMS: C − A × Bi with one rounding. -/
def execFms (e : Fin 12) (f : EngFields) (s : State) : Host.Outcome State Fault Refusal :=
  s.onDev (Dev.issueOp e.val 0x05 .dabic f (fun d => fpFms (d.v e.val f.a.val) (d.opBi e.val f) (d.v e.val f.c.val)))

/-- FMIN. -/
def execFmin (e : Fin 12) (f : EngFields) (s : State) : Host.Outcome State Fault Refusal := s.onDev (Dev.fpOp2 0x06 fpMin e.val f)

/-- FMAX. -/
def execFmax (e : Fin 12) (f : EngFields) (s : State) : Host.Outcome State Fault Refusal := s.onDev (Dev.fpOp2 0x07 fpMax e.val f)

/-- FABS. -/
def execFabs (e : Fin 12) (f : EngFields) (s : State) : Host.Outcome State Fault Refusal :=
  s.onDev (Dev.issueOp e.val 0x08 .da f (fun d => fpAbs (d.v e.val f.a.val)))

/-- FNEG. -/
def execFneg (e : Fin 12) (f : EngFields) (s : State) : Host.Outcome State Fault Refusal :=
  s.onDev (Dev.issueOp e.val 0x09 .da f (fun d => fpNeg (d.v e.val f.a.val)))

/-- A comparison's condition code: 0 EQ, 1 LT, 2 LE, 3 NE (R176). -/
def condHolds (cond : Nat) (eq lt : Bool) : Bool :=
  match cond with
  | 0 => eq
  | 1 => lt
  | 2 => lt || eq
  | _ => !eq

/-- FCMP: 1 where the condition holds; a signalling NaN sets INV (R171, R172). -/
def fpCompare (cond : Nat) (a b : Word) : FpOut :=
  ⟨word (b2n (condHolds cond (fpEq a b) (fpLt a b))), nanFlag (nanOperands [a, b]).2⟩

/-- FCMP. -/
def execFcmp (e : Fin 12) (f : EngFields) (s : State) : Host.Outcome State Fault Refusal :=
  s.onDev (Dev.issueOp e.val 0x0A .cond f (fun d => fpCompare (f.c.val % 4) (d.v e.val f.a.val) (d.opBi e.val f)))

/-- FSEL: A if C ≠ 0, else B, as bits. -/
def execFsel (e : Fin 12) (f : EngFields) (s : State) : Host.Outcome State Fault Refusal :=
  s.onDev (Dev.issueOp e.val 0x0B { d := true, a := true, b := true, cMax := allReg, outs := 1 } f
    (fun d => plain (if d.v e.val f.c.val = 0 then d.v e.val f.b.val else d.v e.val f.a.val)))

/-- CVTFI. -/
def execCvtfi (e : Fin 12) (f : EngFields) (s : State) : Host.Outcome State Fault Refusal :=
  s.onDev (Dev.issueOp e.val 0x0C { Form.da with mMax := 3 } f (fun d => fpToInt f.m.val (d.v e.val f.a.val)))

/-- CVTIF. -/
def execCvtif (e : Fin 12) (f : EngFields) (s : State) : Host.Outcome State Fault Refusal :=
  s.onDev (Dev.issueOp e.val 0x0D .da f (fun d => plain (fpOfInt (d.v e.val f.a.val))))

/-- MOV. -/
def execMov (e : Fin 12) (f : EngFields) (s : State) : Host.Outcome State Fault Refusal :=
  s.onDev (Dev.issueOp e.val 0x0E .dbi f (fun d => plain (d.opBi e.val f)))

/-- IADD. -/
def execIadd (e : Fin 12) (f : EngFields) (s : State) : Host.Outcome State Fault Refusal :=
  s.onDev (Dev.intOp2 0x0F (· + ·) e.val f)

/-- ISUB. -/
def execIsub (e : Fin 12) (f : EngFields) (s : State) : Host.Outcome State Fault Refusal :=
  s.onDev (Dev.intOp2 0x10 (· - ·) e.val f)

/-- IAND. -/
def execIand (e : Fin 12) (f : EngFields) (s : State) : Host.Outcome State Fault Refusal :=
  s.onDev (Dev.intOp2 0x11 (· &&& ·) e.val f)

/-- IOR. -/
def execIor (e : Fin 12) (f : EngFields) (s : State) : Host.Outcome State Fault Refusal :=
  s.onDev (Dev.intOp2 0x12 (· ||| ·) e.val f)

/-- ISHL: by Bi[4:0]. -/
def execIshl (e : Fin 12) (f : EngFields) (s : State) : Host.Outcome State Fault Refusal :=
  s.onDev (Dev.intOp2 0x13 (fun a b => a <<< (fld 4 0 b)) e.val f)

/-- A right shift by Bi[4:0], logical or arithmetic. -/
def shiftRight (arith : Bool) (a b : Word) : Word := if arith then a.sshiftRight (fld 4 0 b) else a >>> fld 4 0 b

/-- ISHR: M[1] = 0 logical, 1 arithmetic. -/
def execIshr (e : Fin 12) (f : EngFields) (s : State) : Host.Outcome State Fault Refusal :=
  s.onDev (Dev.issueOp e.val 0x14 .shiftRight f (fun d => plain (shiftRight (2 ≤ f.m.val) (d.v e.val f.a.val) (d.opBi e.val f))))

/-- ICMP compares signed values. -/
def execIcmp (e : Fin 12) (f : EngFields) (s : State) : Host.Outcome State Fault Refusal :=
  s.onDev (Dev.issueOp e.val 0x15 .cond f (fun d =>
    let a := d.v e.val f.a.val
    let b := d.opBi e.val f
    plain (word (b2n (condHolds (f.c.val % 4) (a == b) (a.slt b))))))

/-- The opcodes of R177 that raise ILLEGAL. -/
def illegalOp (op : Nat) : Bool := op == 0x16 || op == 0x17 || op == 0x26 || op == 0x27 || 0x36 ≤ op

/-- ILLEGAL_OPCODE (R177, R216): the word at PC holds such an opcode, or cannot be corrected. -/
def execIllegalOpcode (e : Fin 12) (op : BitVec 6) (fetch : Ecc) (s : State) : Host.Outcome State Fault Refusal :=
  s.onDev (fun d => d.when (d.canIssue e.val && illegalOp op.toNat &&
      (fetch == .uncorrectable || (d.insnAt e.val).op.val == op.toNat)) (fun d =>
    d.newCycle.fetched e.val fetch (Dev.engineFault e.val 1)))

end Sys2Proof.Machine
end

