-- ==== Sys2Proof/Machine/Frame.lean ====
section
/-!
DEFINITION. The sample frame of a loop engine: its start with the input copy and the header (R190 to R193, R195, R199, R200,
R214, R258), its completion and its deadline (R194 to R197, R203 to R205), and what leaves and reaches an engine over the bus
(R186, R187, R199).
-/

namespace Sys2Proof.Machine

/-! ### Writes and loads over the bus -/

/-- A posted write reaches its page or word, unless its page's GEN has changed since the frame start (R199). -/
def Dev.deliverPosted (e : Fin 12) (p : Posted) (d : Dev) : Dev :=
  let page := (p.addr - 0x40000000) / 0x1000
  match p.gen with
  | some g =>
    if g != d.fld (Reg.gen page) 15 0 && !d.pageHeld page then (d.raise page 30).bumpSat (Reg.LE_STALE_CNT e.val) 15 0
    else Dev.busWrite (.le e) p.addr 4 p.data d
  | none => Dev.busWrite (.le e) p.addr 4 p.data d

/-- POSTED_WRITE_DELIVERY (R187, R199): the oldest write leaves the queue. -/
def execPostedWriteDelivery (e : Fin 12) (s : State) : Host.Outcome State Fault Refusal :=
  s.onDev (fun d =>
    match (d.engine e.val).queue with
    | p :: rest => (d.modEngine e.val (fun x => { x with queue := rest })).deliverPosted e p
    | [] => d)

/-- LD_DATA_RETURN (R186): the queue is empty, the load reads over the bus, and issue resumes. -/
def execLdDataReturn (e : Fin 12) (s : State) : Host.Outcome State Fault Refusal :=
  s.onDev (fun d =>
    match (d.engine e.val).loadWait, (d.engine e.val).queue with
    | some (r, a), [] =>
      let got := d.busRead (.le e) a 4
      (got.2.modEngine e.val (fun x => { x with loadWait := none })).setV e.val r.val got.1
    | _, _ => d)

/-! ### The frame starts -/

/-- First address of an engine's data TCM (R190). -/
def dataBase (e : Nat) : Nat := tcmBase e + 0x8000

/-- A word of the frame header. -/
def Dev.header (e off : Nat) (w : Word) (d : Dev) : Dev := d.setBytes (dataBase e + off) (wordBytes w)

/-- Input word i (R191): what IN_SEL names, read with the engine's rights; `readData` is another reader's. -/
def Dev.inputCopy (e : Fin 12) (i : Nat) (d : Dev) : Dev :=
  let sel := d.reg (Reg.LE_IN_SEL e.val i)
  if bitAt 31 sel then
    let r := d.busRead (.le e) (0x40000000 + Machine.fld 19 0 sel) 4
    Dev.header e.val (4 * i) r.1 (Dev.putReadData d.readData r.2)
  else d.header e.val (4 * i) 0

/-- The slots of engine `m` as the view of a consumer holds them (R258). -/
def Dev.viewOf (d : Dev) (m : Nat) : Vector ViewSlot 8 :=
  Vector.ofFn (fun j : Fin 8 =>
    let s := vget {} (d.engine m).slots j.val
    { enabled := d.bit (Reg.LE_BR_SLOT m j.val) 8, value := s.visible, stamp := s.stamp })

/-- BR_AGE of source engine `m` at engine `e` (R261): 3 NONE, 2 STALE, 0 NEW, 1 OLD. -/
def Dev.bridgeAge (d : Dev) (e m : Nat) : Nat :=
  let stamps := (d.viewOf m).toList.filterMap (fun s => if s.enabled then s.stamp else none)
  if stamps.isEmpty then 3
  else if stamps.any (fun g => g != d.fld (Reg.LE_BR_EXP e m) 15 0) then 2
  else if natBit m (d.engine e).pubNew.toNat then 0
  else 1

/-- The view is latched (R258). -/
def Dev.latchView (e : Nat) (d : Dev) : Dev :=
  let age := twelve.foldl (fun a m => a + d.bridgeAge e m * 4 ^ m) 0
  let view := Vector.ofFn (fun m : Fin 12 => d.viewOf m.val)
  (d.setReg (Reg.LE_BR_AGE e) (word age)).modEngine e (fun x => { x with view := view, pubNew := 0 })

/-- A pending mailbox message is taken, or discarded for its GEN (R214); whether it was taken. A frame starts in the first FAB cycle
of its tick, so that a post of the same tick waits for the next frame start. -/
def Dev.takeMailbox (e : Nat) (d : Dev) : Bool × Dev :=
  if !d.bit (Reg.LE_MBX_STAT e) 0 || decide (d.now ≤ (d.engine e).mbxTick) then (false, d)
  else
    let d := d.setBit (Reg.LE_MBX_STAT e) 0 false
    if (d.engine e).mbxGen = d.fld (Reg.gen (0x10 + e)) 15 0 then
      let d := each (List.range 8) (fun j d => d.header e (0x150 + 4 * j) (d.reg (Reg.LE_MBX_IN e j))) d
      (true, (d.bumpWrap (Reg.LE_MBX_STAT e) 31 16).raise (0x10 + e) 7)
    else (false, (d.raise (0x10 + e) 30).bumpSat (Reg.LE_STALE_CNT e) 15 0)

/-- The groups of a mask. -/
def groupList (w : BitVec 12) : List Nat := twelve.filter (fun g => natBit g w.toNat)

/-- Of the sample events that wait, those of the earliest reload tick (R192). -/
def Engine.firstEvents (x : Engine) : BitVec 12 :=
  let gs := groupList x.trigger
  let t := gs.foldl (fun a g => Nat.min a (vget 0 x.evTick g)) (vget 0 x.evTick (gs.headD 0))
  BitVec.ofNat 12 (groupMask (fun g => natBit g x.trigger.toNat && vget 0 x.evTick g == t))

/-- The deadline of a frame that serves some groups: that of the one that reloads earliest (R194). -/
def Engine.firstDeadline (x : Engine) (served : BitVec 12) : Nat :=
  let gs := groupList served
  gs.foldl (fun a g => Nat.min a (vget 0 x.evDeadline g)) (vget 0 x.evDeadline (gs.headD 0))

/-- FRAME is entered: what the engine holds for the frame, rights and captured GENs included (R193, R195, R199, R200). -/
def Dev.enterFrame (e : Nat) (d : Dev) : Dev :=
  let x := d.engine e
  let served := x.firstEvents
  let gens (base : Nat) : Vector Nat 12 := Vector.ofFn (fun g : Fin 12 => d.fld (Reg.gen (base + g.val)) 15 0)
  let lock := if d.bit (Reg.LE_TRIG e) 16 then served else 0
  let d := d.modEngine e (fun x => { x with
    loops := [], fend := false, loadWait := none, inInit := false, startTick := d.now, piInvoked := 0, overran := false
    served := served, deadline := x.firstDeadline served, trigger := 0, heldEvents := x.heldEvents ||| (x.trigger &&& ~~~ served)
    ownFrame := BitVec.ofNat 12 (d.owned e), genPG := gens 0x20, genFL := gens 0x30, genMC := gens 0x70
    genOwn := d.fld (Reg.gen (0x10 + e)) 15 0, locks := x.locks ||| lock
    slots := x.slots.map (fun s => { s with pending := none }) })
  ((d.setEstate e 3).setPc e (d.fld (Reg.LE_ENTRY e) 27 16)).bumpWrap (Reg.LE_FRAME_CNT e) 31 0

/-- A commit transferred the engine's page at the boundary that starts the frame (R190). -/
def Engine.commitHere (x : Engine) : Bool := (groupList x.served).any (fun g => x.commitAt == some (vget 0 x.evTick g))

/-- The words after the inputs (R190). -/
def Dev.frameHeader (e : Nat) (mbxNew : Bool) (d : Dev) : Dev :=
  let x := d.engine e
  let any := allPages.any (fun p => d.routedToEngine p e)
  let flags := place 0 0 (b2n x.ovrPrev) ||| place 1 1 (b2n mbxNew) ||| place 2 2 (b2n any) ||| place 3 3 (b2n x.commitHere) |||
    place 15 8 (Nat.min x.skipped 255)
  let d := d.header e 0x100 (d.reg (Reg.LE_FRAME_CNT e))
  let d := d.header e 0x104 (word x.served.toNat)
  let d := d.header e 0x108 (word d.devTime)
  let d := d.header e 0x10C (word (x.deadline - d.now))
  let d := d.header e 0x110 flags
  let d := d.header e 0x114 (word (d.owned e))
  let d := (d.header e 0x118 0).header e 0x11C 0
  each twelve (fun g d =>
    d.header e (0x120 + 4 * g) (if natBit g (d.owned e) then word (d.fld (Reg.PG_NEXT_LEN g) 19 0) else 0)) d

/-- A frame starts (R193): the inputs are those of the cycles before the start (R191). -/
def Dev.frameStart (e : Fin 12) (d : Dev) : Dev :=
  let d := each (List.range 64) (Dev.inputCopy e) d
  let d := (d.enterFrame e.val).latchView e.val
  let r := d.takeMailbox e.val
  (r.2.frameHeader e.val r.1).modEngine e.val (fun x => { x with ovrPrev := false, skipped := 0 })

/-- The tick in which the frame of the events that wait starts: 250 ns after their reload, or at the end of the section that held
them, whichever is later (R193, R197). -/
def Engine.frameAt (x : Engine) : Nat :=
  let gs := groupList x.firstEvents
  max (vget 0 x.evTick (gs.headD 0) + 100) x.idleAt

/-- FRAME_START (R193, R197): an IDLE engine with a sample event whose instant has come. -/
def execFrameStart (e : Fin 12) (s : State) : Host.Outcome State Fault Refusal :=
  s.onDev (fun d =>
    let x := d.engine e.val
    d.when (d.estate e.val == 2 && x.trigger != 0 && x.frameAt == d.now && !d.pageHeld (0x10 + e.val)) (Dev.frameStart e))

/-! ### The frame ends -/

/-- A sample event is discarded and counted (R197). -/
def Dev.skipEvent (e : Nat) (d : Dev) : Dev :=
  ((d.raise (0x10 + e) 1).bumpSat (Reg.LE_SKIP_CNT e) 15 0).modEngine e (fun x => { x with skipped := x.skipped + 1 })

/-- Held events when a section ends: those whose deadline has not passed start a frame, the others are discarded (R197). -/
def Dev.takeHeld (e : Nat) (d : Dev) : Dev :=
  let x := d.engine e
  let late := (groupList x.heldEvents).filter (fun g => vget 0 x.evDeadline g < d.now)
  let live := BitVec.ofNat 12 (groupMask (fun g => natBit g x.heldEvents.toNat && !late.contains g))
  each late (fun _ d => d.skipEvent e) (d.modEngine e (fun x => { x with heldEvents := 0, trigger := x.trigger ||| live }))

/-- A section ends: IDLE with the events that were held, or HALTED after STOP (R205). -/
def Dev.sectionEnd (e : Nat) (d : Dev) : Dev :=
  let d := d.modEngine e (fun x => { x with fend := false, loops := [], idleAt := d.now })
  if d.estate e = 4 then d.enterHalted e else (d.setEstate e 2).takeHeld e

/-- The overrun of the running frame at its deadline (R196, R203, R204). -/
def Dev.frameOverrun (e : Nat) (d : Dev) : Dev :=
  let page := 0x10 + e
  let d := ((d.bumpSat (Reg.LE_OVR_CNT e) 15 0).bumpSat (Reg.LE_OVR_CNT e) 31 24).raise page 0
  let d := (d.setReg (Reg.LE_SLACK_MIN e) 0).modEngine e (fun x => { x with
    ovrPrev := true, overran := true, lockHeld := x.lockHeld ||| x.served })
  let limit := d.fld (Reg.LE_OVR e) 15 8
  let trip : Bool := decide (2 ≤ d.fld (Reg.LE_OVR e) 1 0) || (limit != 0 && decide (limit ≤ d.fld (Reg.LE_OVR_CNT e) 31 24))
  if trip || d.fld (Reg.LE_OVR e) 1 0 == 1 then
    let d := (d.dropPending e).modEngine e (fun x => { x with
      queue := [], loadWait := none, locks := x.locks &&& ~~~ x.served, lockAbort := x.lockAbort ||| x.served })
    (d.when trip (fun d => d.engineTrip e 9 Dev.trip)).sectionEnd e
  else d

/-- FRAME_DEADLINE (R203): the deadline of the running frame has come, and it has not completed. -/
def execFrameDeadline (e : Fin 12) (s : State) : Host.Outcome State Fault Refusal :=
  s.onDev (fun d => d.when (d.inFrame e.val && !(d.engine e.val).overran && decide ((d.engine e.val).deadline ≤ d.now))
    (Dev.frameOverrun e.val))

/-- The running section has completed: FEND has issued, and every write it posted has landed (R194). -/
def Dev.sectionDone (d : Dev) (e : Nat) : Bool :=
  let x := d.engine e
  let st := d.estate e
  (st == 1 || st == 3 || st == 4) && x.fend && x.queue.isEmpty && x.loadWait.isNone && !d.pageHeld (0x10 + e)

/-- A frame completes (R195, R203, R219, R256): its figures, its locks, its publications. -/
def Dev.frameDone (e : Nat) (d : Dev) : Dev :=
  let x := d.engine e
  let cyc := Nat.min (d.sectionCycles e) 0xFFFFF
  let d := (d.setFld (Reg.LE_LAST_CYC e) 19 0 cyc).setFld (Reg.LE_MAX_CYC e) 19 0 (Nat.max cyc (d.fld (Reg.LE_MAX_CYC e) 19 0))
  let d := d.when (!x.overran) (fun d =>
    let slack := Nat.min (x.deadline - d.now) (d.reg (Reg.LE_SLACK_MIN e)).toNat
    (d.setReg (Reg.LE_SLACK_MIN e) (word slack)).setFld (Reg.LE_OVR_CNT e) 31 24 0)
  let d := d.modEngine e (fun x => { x with
    locks := x.locks &&& ~~~ x.served
    lockAbort := x.lockAbort &&& ~~~ x.served
    wdtUs := 0
    slots := x.slots.map (fun s =>
      match s.pending with
      | some w => { s with pending := none, done := some (w, x.genOwn) }
      | none => s) })
  d.sectionEnd e

/-- FRAME_COMPLETE (R194, R205): the init section or a frame; a frame that completes after its deadline has overrun, and one
that its overrun ends has no completion. -/
def execFrameComplete (e : Fin 12) (s : State) : Host.Outcome State Fault Refusal :=
  s.onDev (fun d =>
    let e := e.val
    if !d.sectionDone e then d
    else if (d.engine e).inInit then ((d.dropPending e).modEngine e (fun x => { x with wdtUs := 0 })).sectionEnd e
    else
      let d := d.when (decide ((d.engine e).deadline < d.now) && !(d.engine e).overran) (Dev.frameOverrun e)
      d.when (d.sectionDone e) (Dev.frameDone e))

/-! ### The engine's part in a reload -/

/-- The sample event of group `g` at an engine it triggers (R192, R197); one that still waits for the group is discarded. -/
def Dev.sampleEvent (g e : Nat) (d : Dev) : Dev :=
  let st := d.estate e
  if !(natBit g (d.triggers e) && (st == 1 || st == 2 || st == 3)) then d else
  let bit := BitVec.ofNat 12 (2 ^ g)
  let x := d.engine e
  let d := d.when ((x.trigger ||| x.heldEvents) &&& bit != 0) (Dev.skipEvent e)
  let due := d.nextReload g - 60
  d.modEngine e (fun x => { x with
    evTick := vset x.evTick g d.now, evDeadline := vset x.evDeadline g due
    trigger := if st = 2 then x.trigger ||| bit else x.trigger
    heldEvents := if st = 2 then x.heldEvents else x.heldEvents ||| bit })

/-- The values of completed frames become visible at the publisher's boundary (R256), which makes them new to every engine (R261). -/
def Dev.publishSlots (e : Nat) (d : Dev) : Dev :=
  let some_ := (d.engine e).slots.toList.any (fun s => s.done.isSome)
  let d := d.modEngine e (fun x => { x with
    slots := x.slots.map (fun s =>
      match s.done with
      | some v => { s with done := none, visible := v.1, stamp := some v.2 }
      | none => s) })
  d.when some_ (each twelve (fun c d => d.modEngine c (fun x => { x with pubNew := x.pubNew ||| BitVec.ofNat 12 (2 ^ e) })))

/-- Bank swaps at the engine's boundary, deferred in FRAME (R231, R232). -/
def Dev.swapAtReload (e : Nat) (d : Dev) : Dev :=
  if d.reg (Reg.LE_BANK_REQ e) = 0 then d
  else if d.estate e = 3 then d.cluFlag e 13
  else d.swapNow e

/-- The locks held through one reload end at it (R196). -/
def Dev.lockThrough (g e : Nat) (d : Dev) : Dev :=
  let bit := BitVec.ofNat 12 (2 ^ g)
  d.modEngine e (fun x => { x with lockHeld := x.lockHeld &&& ~~~ bit })

/-- A reload of group `g` as the boundary of engines: they publish and swap (R212, R231, R256). A transfer at the same edge comes
after it. -/
def Dev.engineBoundary (g : Nat) (d : Dev) : Dev :=
  each (twelve.filter (fun e => d.boundaryOf e == some g)) (fun e d => (d.publishSlots e).swapAtReload e) d

/-- A reload of group `g` as the sample event of the engines it triggers (R192, R196), under the values that have transferred. -/
def Dev.engineReload (g : Nat) (d : Dev) : Dev := each twelve (fun e d => (d.lockThrough g e).sampleEvent g e) d

end Sys2Proof.Machine
end

