-- ==== Sys2Proof/Machine/Reload.lean ====
section
/-!
DEFINITION. A reload of a group with all that falls on its edge, and the replacement of the snapshots 200 ns later (R67, R68, R192,
R268 to R271, R277 to R283, R288, R289, R327, R381, R382, R397, R442, R455, R468, R475).
-/

namespace Sys2Proof.Machine

/-- The snapshots of the window that the latest reload ended are replaced, in one cycle with WIN_CNT (R269, R382, R442), and the
machine-control unit takes its sample boundary (R455). -/
def Dev.replaceSnapshots (g : Nat) (d : Dev) : Dev := (((d.winCount g).publishGroup g).posReplace g).mcBoundary g

/-- A reload. -/
def Dev.reloadGroup (g : Nat) (d : Dev) : Dev :=
  let d := d.when (d.group g).winDue (Dev.replaceSnapshots g)
  let peak := d.atPeak g
  let d := (((d.acqBoundary g).sdReload g).posLatch g).reloadTake g
  let d := ((d.engineBoundary g).commitBoundary g).reloadPeriod peak g
  ((d.engineReload g).mcReload g).trimReload g

/-- RELOAD (R268): where the group's timebase reaches one; a FOLLOW group whose predecessor stands completes its carrier and holds
its timebase (R289), which may end the wait of a commit. -/
def execReload (g : Fin 12) (s : State) : Host.Outcome State Fault Refusal :=
  s.onDev (fun d =>
    let g := g.val
    if d.pageHeld (0x20 + g) || !d.reloadDue g then d
    else if d.followStops g then (d.holdTimebase g).commitRelease
    else d.reloadGroup g)

/-- SNAPSHOT_REPLACE (R269, R382): 200 ns after a reload, which is 80 ticks. -/
def execSnapshotReplace (g : Fin 12) (s : State) : Host.Outcome State Fault Refusal :=
  s.onDev (fun d => d.when ((d.group g.val).winDue && (d.group g.val).winAt + 80 == d.now) (Dev.replaceSnapshots g.val))

end Sys2Proof.Machine
end

