-- ==== Sys2Proof/Machine/Vote.lean ====
section
/-!
DEFINITION. The voters of the triad (R493, R494): the vote of a store, its effect over the bus, and the attribution of a
disagreement; and the agreement exchange with its loads (R496 to R500).
-/

namespace Sys2Proof.Machine

/-- What the voters compare of a copy (R493). -/
def votedPart (c : StoreCopy) : Bool × Word × BitVec 4 × Word := (c.store, c.addr, c.enables, c.data)

/-- The vote of the three copies (R493). -/
def voteStore (x : StoreSet) : StoreCopy :=
  { store := (x.t0.store && x.t1.store) || (x.t1.store && x.t2.store) || (x.t0.store && x.t2.store)
    addr := vote x.t0.addr x.t1.addr x.t2.addr
    enables := (x.t0.enables &&& x.t1.enables) ||| (x.t1.enables &&& x.t2.enables) ||| (x.t0.enables &&& x.t2.enables)
    data := vote x.t0.data x.t1.data x.t2.data }

/-- The single copy that differs in every disagreeing bit (R494): some c, or none where no copy stands out. -/
def deviant (x : StoreSet) : Option (Nat × StoreCopy) :=
  if votedPart x.t1 = votedPart x.t2 then some (0, x.t0)
  else if votedPart x.t0 = votedPart x.t2 then some (1, x.t1)
  else if votedPart x.t0 = votedPart x.t1 then some (2, x.t2)
  else none

/-- The three copies agree. -/
def allAgree (x : StoreSet) : Bool := votedPart x.t0 == votedPart x.t1 && votedPart x.t1 == votedPart x.t2

/-- A voted store takes place (R490, R493): a whole word over the bus; single bytes reach memory alone (R15). -/
def Dev.votedWrite (c : StoreCopy) (d : Dev) : Dev :=
  let a := c.addr.toNat
  let base := a - a % 4
  if c.enables = 0 then d
  else if c.enables = 0xF then Dev.busWrite .triad base 4 c.data d
  else match regionOf a with
    | .page _ _ | .unmapped => Dev.busWrite .triad a 1 c.data d
    | _ =>
      if d.mayAccess .triad true a then
        each ([0, 1, 2, 3].filter (fun i => c.enables.getLsbD i)) (fun i d => d.setByte (base + i) (nth 0 (wordBytes c.data) i)) d
      else d.refuseSys .triad a true

/-- A disagreement (R494, R505): the deviant copy is outvoted and counted, or the triad fails. -/
def Dev.attribute (x : StoreSet) (d : Dev) : Dev :=
  match deviant x with
  | some (c, copy) => (d.bumpSat Reg.TRIAD_OUTVOTE (10 * c + 9) (10 * c)).markOdd c (if copy.parityErr then 3 else 2)
  | none => d.triadFatal 6

/-- A store slot of the voters (R493, R494). -/
def Dev.votedStore (x : StoreSet) (d : Dev) : Dev :=
  let v := voteStore x
  let d := d.when v.store (Dev.votedWrite v)
  let d := d.when (!allAgree x) (Dev.attribute x)
  d.when x.vaVbDiff (Dev.triadFatal 4)

/-- VOTED_STORE (R493, R494). -/
def execVotedStore (x : StoreSet) (s : State) : Host.Outcome State Fault Refusal :=
  s.onDev (fun d => d.when d.triadRuns (Dev.votedStore x))

/-! ### The agreement exchange (R490, R496 to R500) -/

/-- The key by which a binary32 value is ordered: −0 below +0, every NaN above +∞. -/
def floatKey (w : Word) : Nat :=
  if fpIsNan w then 2 ^ 32 else if bitAt 31 w then 2 ^ 32 - 1 - w.toNat else 2 ^ 31 + w.toNat

/-- The median of three under an order. -/
def medianBy (le : Word → Word → Bool) (a b c : Word) : Word :=
  if le a b then (if le b c then b else if le a c then c else a) else (if le a c then a else if le b c then c else b)

/-- The result over three samples (R496). -/
def exchangeThree (k : LoadKind) (a b c : Word) : Word :=
  match k with
  | .majority => vote a b c
  | .medianSigned => medianBy (fun x y => decide (x.toInt ≤ y.toInt)) a b c
  | .medianUnsigned => medianBy (fun x y => decide (x.toNat ≤ y.toNat)) a b c
  | .medianFloat =>
    let m := medianBy (fun x y => decide (floatKey x ≤ floatKey y)) a b c
    if fpIsNan m then 0x7FC00000 else m

/-- Every awaited slot holds a sample: all three, or those of the cores that are not odd, within 64 TRI cycles (R496, R497). -/
def Dev.exchangeReady (d : Dev) (x : Exchange) : Bool :=
  x.present != 0 && decide (x.spread ≤ 64) && [0, 1, 2].all (fun c => x.present.getLsbD c || d.odd c)

/-- The triad may read an address (R43), and no reset holds its page. -/
def Dev.triadReads (d : Dev) (a : Nat) : Bool :=
  d.readOk .triad (a - a % 4) && match regionOf a with
    | .page p _ => !d.pageHeld p
    | _ => true

/-- The sample of one core: its own read over the bus, which a refusal makes zero (R44, R496). -/
def Dev.sampleLoad (c a bytes : Nat) (x : Exchange) (d : Dev) : Word × Dev :=
  let r := d.busRead .triad a bytes
  (if d.triadReads a then r.1 ^^^ lanesOf 0 bytes (vget 0 x.differ c) else r.1, r.2)

/-- The samples of the cores whose slots hold one, each at its address. -/
def Dev.samples (addr : Nat → Nat) (bytes : Nat) (x : Exchange) (d : Dev) : List Word × Dev :=
  [0, 1, 2].foldl (fun r c =>
    if x.present.getLsbD c then (let q := r.2.sampleLoad c (addr c) bytes x; (r.1 ++ [q.1], q.2)) else r) ([], d)

/-- The value delivered: of two samples that agree theirs, of one its own; of two that differ it is not stated and free. -/
def Dev.exchangeValue (d : Dev) (k : LoadKind) (l : List Word) : Word :=
  match l with
  | [a, b, c] => exchangeThree k a b c
  | [a, b] => if a = b then a else Config.freeWord d.freeCount
  | [a] => a
  | _ => 0

/-- A delivery of samples (R496, R497, R505): the value, the largest spread, and the copies whose input stage failed its parity. -/
def Dev.deliver (k : LoadKind) (l : List Word) (x : Exchange) (d : Dev) : Dev :=
  let v := d.exchangeValue k l
  let d := (d.skipFree 1).modTriad (fun t => { t with delivered := v })
  let d := d.setFld Reg.TRIAD_XCHG_STAT 7 0 (Nat.max (d.fld Reg.TRIAD_XCHG_STAT 7 0) (Nat.min x.spread 255))
  each ([0, 1, 2].filter (fun c => x.dlyIn.getLsbD c)) (fun c d => d.markOdd c 4) d

/-- A load goes to the exchange: of a word or a part of one, of the median kinds a whole word, outside the triad TCM (R490, R496). -/
def exchanged (k : LoadKind) (a bytes : Nat) : Bool :=
  (bytes == 4 || (k == .majority && (bytes == 1 || bytes == 2))) && decide (a % bytes = 0) && decide (regionOf a ≠ .triad)

/-- EXCHANGE_DELIVERY (R496): the result of a load of the given kind, which the cores' own instruction extends as it is published. -/
def execExchangeDelivery (k : LoadKind) (addr : BitVec 32) (bytes : Nat) (x : Exchange) (s : State) :
    Host.Outcome State Fault Refusal :=
  s.onDev (fun d => d.when (d.triadRuns && exchanged k addr.toNat bytes && d.exchangeReady x) (fun d =>
    let r := d.samples (fun _ => addr.toNat) bytes x
    r.2.deliver k r.1 x))

/-- EXCHANGE_TIMEOUT (R497): after 64 cycles the cores without a sample are odd; two samples that agree are delivered, anything
else is fatal. -/
def execExchangeTimeout (k : LoadKind) (addr : BitVec 32) (bytes : Nat) (x : Exchange) (s : State) :
    Host.Outcome State Fault Refusal :=
  s.onDev (fun d =>
    if !d.triadRuns || x.present == 7 || !exchanged k addr.toNat bytes then d else
    let r := d.samples (fun _ => addr.toNat) bytes x
    let d := r.2.addSat Reg.TRIAD_XCHG_STAT 31 16 1
    let d := each ([0, 1, 2].filter (fun c => !x.present.getLsbD c)) (fun c d => d.markOdd c 5) d
    if !d.triadRuns then d else
    match r.1 with
    | [a, b] => if a = b then d.deliver k r.1 x else d.triadFatal 3
    | _ => d.triadFatal 3)

/-- The address of an exchange load at one core. -/
def TriadCore.loadAddr (rs1 : Nat) (imm : BitVec 12) (k : TriadCore) : Word :=
  (if rs1 = 0 then 0 else vget 0 k.x rs1) + imm.signExtend 32

/-- A core's load traps before it reaches the exchange (R500): an address in the triad TCM, or one that is not aligned. -/
def TriadCore.traps (rs1 : Nat) (imm : BitVec 12) (k : TriadCore) : Bool :=
  let a := (k.loadAddr rs1 imm).toNat
  regionOf a == .triad || a % 4 != 0

/-- What an exchange load does at one core (R500): the illegal-instruction exception for an address in the triad TCM, the
load-address-misaligned exception, or the delivered value in its destination; `mtval` of the first is the architecture's choice
and free. -/
def TriadCore.exchangeLoad (float : Bool) (rd rs1 : Nat) (imm : BitVec 12) (v free : Word) (k : TriadCore) : TriadCore :=
  let a := k.loadAddr rs1 imm
  if regionOf a.toNat = .triad then k.trap 2 free
  else if a.toNat % 4 ≠ 0 then k.trap 4 a
  else
    let k := { k with pc := k.pc + 4 }
    if float then { k with f := vset k.f rd v } else if rd = 0 then k else { k with x := vset k.x rd v }

/-- The samples of an exchange load that reach the exchange: those of the cores that do not trap. -/
def Dev.loadSamples (d : Dev) (rs1 : Nat) (imm : BitVec 12) (x : Exchange) : Exchange :=
  { x with present := [0, 1, 2].foldl (fun p c => if (d.core c).traps rs1 imm then p &&& ~~~ (1#3 <<< c) else p) x.present }

/-- An exchange load of the three cores, each at its own address (R500): where all trap they take their exceptions; else it completes
with the delivery. -/
def Dev.exchangeLoad (k : LoadKind) (rd rs1 : Nat) (imm : BitVec 12) (x : Exchange) (d : Dev) : Dev :=
  if !d.triadRuns then d else
  let trap : Bool := [0, 1, 2].all (fun c => (d.core c).traps rs1 imm)
  let x := d.loadSamples rs1 imm x
  if !trap && !d.exchangeReady x then d else
  let cores := d.triad.cores
  let r := d.samples (fun c => ((vget {} cores c).loadAddr rs1 imm).toNat) 4 x
  let d := if trap then d.skipFree 1 else r.2.deliver k r.1 x
  if !d.triadRuns then d else
  let v := d.triad.delivered
  let free := Config.freeWord d.freeCount
  each [0, 1, 2] (fun c d => d.modCore c (TriadCore.exchangeLoad (k == .medianFloat) rd rs1 imm v free))
    (d.skipFree 1)

/-- XLW.MED.S (R500). -/
def execXlwMedS (rd rs1 : Fin 32) (imm : BitVec 12) (x : Exchange) (s : State) : Host.Outcome State Fault Refusal :=
  s.onDev (Dev.exchangeLoad .medianSigned rd.val rs1.val imm x)

/-- XLW.MED.U (R500). -/
def execXlwMedU (rd rs1 : Fin 32) (imm : BitVec 12) (x : Exchange) (s : State) : Host.Outcome State Fault Refusal :=
  s.onDev (Dev.exchangeLoad .medianUnsigned rd.val rs1.val imm x)

/-- XFLW.MED (R500). -/
def execXflwMed (rd rs1 : Fin 32) (imm : BitVec 12) (x : Exchange) (s : State) : Host.Outcome State Fault Refusal :=
  s.onDev (Dev.exchangeLoad .medianFloat rd.val rs1.val imm x)

end Sys2Proof.Machine
end

