-- ==== Sys2Proof/Machine/Dispatch.lean ====
section
/-!
DEFINITION. The effect of each command: one arm per constructor, each a call of the meaning of its own.
-/

namespace Sys2Proof.Machine

/-- The effect of a command on everything but the queue. -/
def exec (i : Instr) (s : State) : Host.Outcome State Fault Refusal :=
  match i with
  | .registerWrite m addr bytes v same => Sys2Proof.Machine.execRegisterWrite m addr bytes v same s
  | .keyWrite m page v => Sys2Proof.Machine.execKeyWrite m page v s
  | .keyWindowExpiry page => Sys2Proof.Machine.execKeyWindowExpiry page s
  | .unlockTimeout page => Sys2Proof.Machine.execUnlockTimeout page s
  | .shadowWrite m page off v => Sys2Proof.Machine.execShadowWrite m page off v s
  | .eventDelivery page differ => Sys2Proof.Machine.execEventDelivery page differ s
  | .supplyBrownOut r mv ns => Sys2Proof.Machine.execSupplyBrownOut r mv ns s
  | .powerOnRelease => Sys2Proof.Machine.execPowerOnRelease s
  | .vioClassTake bank => Sys2Proof.Machine.execVioClassTake bank s
  | .porstPin lowNs => Sys2Proof.Machine.execPorstPin lowNs s
  | .resetPin lowNs => Sys2Proof.Machine.execResetPin lowNs s
  | .ballSourceRelease src => Sys2Proof.Machine.execBallSourceRelease src s
  | .swrstCold m alsoWarm => Sys2Proof.Machine.execSwrstCold m alsoWarm s
  | .swrstWarm m => Sys2Proof.Machine.execSwrstWarm m s
  | .softwareSourceRelease src => Sys2Proof.Machine.execSoftwareSourceRelease src s
  | .internalSourceRelease src => Sys2Proof.Machine.execInternalSourceRelease src s
  | .srst m page => Sys2Proof.Machine.execSrst m page s
  | .blockResetRelease page => Sys2Proof.Machine.execBlockResetRelease page s
  | .jtagReset t => Sys2Proof.Machine.execJtagReset t s
  | .selfRefreshTimeout => Sys2Proof.Machine.execSelfRefreshTimeout s
  | .xtalValid => Sys2Proof.Machine.execXtalValid s
  | .xtalTimeout => Sys2Proof.Machine.execXtalTimeout s
  | .pllLock p => Sys2Proof.Machine.execPllLock p s
  | .clockQualify dom count => Sys2Proof.Machine.execClockQualify dom count s
  | .qualificationTimeout dom => Sys2Proof.Machine.execQualificationTimeout dom s
  | .releaseSequence => Sys2Proof.Machine.execReleaseSequence s
  | .memoryInitDone => Sys2Proof.Machine.execMemoryInitDone s
  | .dramInitDone => Sys2Proof.Machine.execDramInitDone s
  | .monitorGate dom count => Sys2Proof.Machine.execMonitorGate dom count s
  | .clockEdgeTimeout dom => Sys2Proof.Machine.execClockEdgeTimeout dom s
  | .xtalRcMismatch => Sys2Proof.Machine.execXtalRcMismatch s
  | .sscApply p => Sys2Proof.Machine.execSscApply p s
  | .flashTimeout => Sys2Proof.Machine.execFlashTimeout s
  | .bootVerify signatureOk => Sys2Proof.Machine.execBootVerify signatureOk s
  | .hostBootGo m len signatureOk => Sys2Proof.Machine.execHostBootGo m len signatureOk s
  | .padEnable m => Sys2Proof.Machine.execPadEnable m s
  | .firmwareStartLoad => Sys2Proof.Machine.execFirmwareStartLoad s
  | .loadNewest m => Sys2Proof.Machine.execLoadNewest m s
  | .loadA m => Sys2Proof.Machine.execLoadA m s
  | .loadB m => Sys2Proof.Machine.execLoadB m s
  | .loadSram m => Sys2Proof.Machine.execLoadSram m s
  | .loadComplete => Sys2Proof.Machine.execLoadComplete s
  | .commit m => Sys2Proof.Machine.execCommit m s
  | .commitCrcDone => Sys2Proof.Machine.execCommitCrcDone s
  | .arm m remote => Sys2Proof.Machine.execArm m remote s
  | .disarm m => Sys2Proof.Machine.execDisarm m s
  | .ackSafe m => Sys2Proof.Machine.execAckSafe m s
  | .burnKey m => Sys2Proof.Machine.execBurnKey m s
  | .burnSigreq m => Sys2Proof.Machine.execBurnSigreq m s
  | .nop e f => Sys2Proof.Machine.execNop e f s
  | .fadd e f => Sys2Proof.Machine.execFadd e f s
  | .fsub e f => Sys2Proof.Machine.execFsub e f s
  | .fmul e f => Sys2Proof.Machine.execFmul e f s
  | .fma e f => Sys2Proof.Machine.execFma e f s
  | .fms e f => Sys2Proof.Machine.execFms e f s
  | .fmin e f => Sys2Proof.Machine.execFmin e f s
  | .fmax e f => Sys2Proof.Machine.execFmax e f s
  | .fabs e f => Sys2Proof.Machine.execFabs e f s
  | .fneg e f => Sys2Proof.Machine.execFneg e f s
  | .fcmp e f => Sys2Proof.Machine.execFcmp e f s
  | .fsel e f => Sys2Proof.Machine.execFsel e f s
  | .cvtfi e f => Sys2Proof.Machine.execCvtfi e f s
  | .cvtif e f => Sys2Proof.Machine.execCvtif e f s
  | .mov e f => Sys2Proof.Machine.execMov e f s
  | .iadd e f => Sys2Proof.Machine.execIadd e f s
  | .isub e f => Sys2Proof.Machine.execIsub e f s
  | .iand e f => Sys2Proof.Machine.execIand e f s
  | .ior e f => Sys2Proof.Machine.execIor e f s
  | .ishl e f => Sys2Proof.Machine.execIshl e f s
  | .ishr e f => Sys2Proof.Machine.execIshr e f s
  | .icmp e f => Sys2Proof.Machine.execIcmp e f s
  | .ld e f => Sys2Proof.Machine.execLd e f s
  | .ldDataReturn e => Sys2Proof.Machine.execLdDataReturn e s
  | .st e f => Sys2Proof.Machine.execSt e f s
  | .postedWriteDelivery e => Sys2Proof.Machine.execPostedWriteDelivery e s
  | .br e f => Sys2Proof.Machine.execBr e f s
  | .loop e f => Sys2Proof.Machine.execLoop e f s
  | .call e f => Sys2Proof.Machine.execCall e f s
  | .jr e f => Sys2Proof.Machine.execJr e f s
  | .fend e f => Sys2Proof.Machine.execFend e f s
  | .pub e f => Sys2Proof.Machine.execPub e f s
  | .rcv e f => Sys2Proof.Machine.execRcv e f s
  | .time e f => Sys2Proof.Machine.execTime e f s
  | .cap e f => Sys2Proof.Machine.execCap e f s
  | .trq e f => Sys2Proof.Machine.execTrq e f s
  | .bsw e f => Sys2Proof.Machine.execBsw e f s
  | .cwr e f => Sys2Proof.Machine.execCwr e f s
  | .div e f => Sys2Proof.Machine.execDiv e f s
  | .sqrt e f => Sys2Proof.Machine.execSqrt e f s
  | .sincos e f => Sys2Proof.Machine.execSincos e f s
  | .atan2 e f => Sys2Proof.Machine.execAtan2 e f s
  | .xfmClarke e f => Sys2Proof.Machine.execXfmClarke e f s
  | .xfmPark e f => Sys2Proof.Machine.execXfmPark e f s
  | .xfmInversePark e f => Sys2Proof.Machine.execXfmInversePark e f s
  | .xfmInverseClarke e f => Sys2Proof.Machine.execXfmInverseClarke e f s
  | .pi e f => Sys2Proof.Machine.execPi e f s
  | .pr e f => Sys2Proof.Machine.execPr e f s
  | .biq e f => Sys2Proof.Machine.execBiq e f s
  | .limScalar e f => Sys2Proof.Machine.execLimScalar e f s
  | .limCircle e f => Sys2Proof.Machine.execLimCircle e f s
  | .pll e f => Sys2Proof.Machine.execPll e f s
  | .obs e f => Sys2Proof.Machine.execObs e f s
  | .svmSvpwm e f => Sys2Proof.Machine.execSvmSvpwm e f s
  | .svmSinusoidal e f => Sys2Proof.Machine.execSvmSinusoidal e f s
  | .svmThreeLevel e f => Sys2Proof.Machine.execSvmThreeLevel e f s
  | .svmDiscontinuous e f => Sys2Proof.Machine.execSvmDiscontinuous e f s
  | .dtc e f => Sys2Proof.Machine.execDtc e f s
  | .vsm e f => Sys2Proof.Machine.execVsm e f s
  | .illegalOpcode e op fetch => Sys2Proof.Machine.execIllegalOpcode e op fetch s
  | .frameStart e => Sys2Proof.Machine.execFrameStart e s
  | .frameComplete e => Sys2Proof.Machine.execFrameComplete e s
  | .frameDeadline e => Sys2Proof.Machine.execFrameDeadline e s
  | .engineStart m e => Sys2Proof.Machine.execEngineStart m e s
  | .engineStop m e => Sys2Proof.Machine.execEngineStop m e s
  | .engineWatchdog e => Sys2Proof.Machine.execEngineWatchdog e s
  | .leMbxPost m e v => Sys2Proof.Machine.execLeMbxPost m e v s
  | .cwDataWrite m e v same => Sys2Proof.Machine.execCwDataWrite m e v same s
  | .cwDataRead m e data => Sys2Proof.Machine.execCwDataRead m e data s
  | .bankReq m e v => Sys2Proof.Machine.execBankReq m e v s
  | .reload g => Sys2Proof.Machine.execReload g s
  | .dutyShadowWrite m g k v => Sys2Proof.Machine.execDutyShadowWrite m g k v s
  | .edgeEvent g k on => Sys2Proof.Machine.execEdgeEvent g k on s
  | .deadTimeExpiry g k high => Sys2Proof.Machine.execDeadTimeExpiry g k high s
  | .start m g => Sys2Proof.Machine.execStart m g s
  | .stop m g => Sys2Proof.Machine.execStop m g s
  | .stopNow m g => Sys2Proof.Machine.execStopNow m g s
  | .gstart m v => Sys2Proof.Machine.execGstart m v s
  | .gstop m v => Sys2Proof.Machine.execGstop m v s
  | .groupOff g => Sys2Proof.Machine.execGroupOff g s
  | .dlLock g => Sys2Proof.Machine.execDlLock g s
  | .dlUnlock g => Sys2Proof.Machine.execDlUnlock g s
  | .syncInPulse ticks => Sys2Proof.Machine.execSyncInPulse ticks s
  | .syncLost => Sys2Proof.Machine.execSyncLost s
  | .syncOutPulse => Sys2Proof.Machine.execSyncOutPulse s
  | .tripNow m g => Sys2Proof.Machine.execTripNow m g s
  | .tripClr m g => Sys2Proof.Machine.execTripClr m g s
  | .gclr m v => Sys2Proof.Machine.execGclr m v s
  | .tripInput k level clocks => Sys2Proof.Machine.execTripInput k level clocks s
  | .ascLowSideOn g => Sys2Proof.Machine.execAscLowSideOn g s
  | .sloeAscLowSideOn g => Sys2Proof.Machine.execSloeAscLowSideOn g s
  | .forceShWrite m g v => Sys2Proof.Machine.execForceShWrite m g v s
  | .commutationEvent g => Sys2Proof.Machine.execCommutationEvent g s
  | .alignmentFrameSend n => Sys2Proof.Machine.execAlignmentFrameSend n s
  | .edgeFrameSend n => Sys2Proof.Machine.execEdgeFrameSend n s
  | .edgeFrameRepeat n => Sys2Proof.Machine.execEdgeFrameRepeat n s
  | .edgeSendDeadline n => Sys2Proof.Machine.execEdgeSendDeadline n s
  | .stateFrameSend n => Sys2Proof.Machine.execStateFrameSend n s
  | .measurementStart n => Sys2Proof.Machine.execMeasurementStart n s
  | .pingSend n => Sys2Proof.Machine.execPingSend n s
  | .pingReplyReceive n frame tap => Sys2Proof.Machine.execPingReplyReceive n frame tap s
  | .upstreamAlignmentReceive n frame => Sys2Proof.Machine.execUpstreamAlignmentReceive n frame s
  | .upstreamStateReceive n frame => Sys2Proof.Machine.execUpstreamStateReceive n frame s
  | .teleFrameReceive n frame => Sys2Proof.Machine.execTeleFrameReceive n frame s
  | .invalidFrameReceive n alignment => Sys2Proof.Machine.execInvalidFrameReceive n alignment s
  | .laneSilence n => Sys2Proof.Machine.execLaneSilence n s
  | .stateFrameTimeout n => Sys2Proof.Machine.execStateFrameTimeout n s
  | .alignmentMissed n => Sys2Proof.Machine.execAlignmentMissed n s
  | .triggerFire c k => Sys2Proof.Machine.execTriggerFire c k s
  | .gridConversion c => Sys2Proof.Machine.execGridConversion c s
  | .conversionSample c code => Sys2Proof.Machine.execConversionSample c code s
  | .conversionResult c => Sys2Proof.Machine.execConversionResult c s
  | .snapshotReplace g => Sys2Proof.Machine.execSnapshotReplace g s
  | .refReady h => Sys2Proof.Machine.execRefReady h s
  | .refDrop h => Sys2Proof.Machine.execRefDrop h s
  | .calZero m v => Sys2Proof.Machine.execCalZero m v s
  | .calFull m v => Sys2Proof.Machine.execCalFull m v s
  | .calCalc m v => Sys2Proof.Machine.execCalCalc m v s
  | .calAbort m v => Sys2Proof.Machine.execCalAbort m v s
  | .calStepDone => Sys2Proof.Machine.execCalStepDone s
  | .trimUpdate => Sys2Proof.Machine.execTrimUpdate s
  | .sdOutput c bits => Sys2Proof.Machine.execSdOutput c bits s
  | .sdFastFilterDecision c bits => Sys2Proof.Machine.execSdFastFilterDecision c bits s
  | .modFault c bits => Sys2Proof.Machine.execModFault c bits s
  | .comparatorCrossing j x => Sys2Proof.Machine.execComparatorCrossing j x s
  | .abzEdge n a b ns => Sys2Proof.Machine.execAbzEdge n a b ns s
  | .index n a b ns => Sys2Proof.Machine.execIndex n a b ns s
  | .zhome m n => Sys2Proof.Machine.execZhome m n s
  | .hallChange n code ns => Sys2Proof.Machine.execHallChange n code ns s
  | .serialRequest n => Sys2Proof.Machine.execSerialRequest n s
  | .serCmdReq m n => Sys2Proof.Machine.execSerCmdReq m n s
  | .serialTransferDone n bits => Sys2Proof.Machine.execSerialTransferDone n bits s
  | .serTimeout n => Sys2Proof.Machine.execSerTimeout n s
  | .serialRecoveryDone n => Sys2Proof.Machine.execSerialRecoveryDone n s
  | .speedWindowClose n => Sys2Proof.Machine.execSpeedWindowClose n s
  | .standstillTimeout n => Sys2Proof.Machine.execStandstillTimeout n s
  | .emulatorEdge n => Sys2Proof.Machine.execEmulatorEdge n s
  | .cmpPosWrite m n v => Sys2Proof.Machine.execCmpPosWrite m n v s
  | .cmpPulseEnd n => Sys2Proof.Machine.execCmpPulseEnd n s
  | .mcRun m n => Sys2Proof.Machine.execMcRun m n s
  | .mcStop m n => Sys2Proof.Machine.execMcStop m n s
  | .resetFault m n => Sys2Proof.Machine.execResetFault m n s
  | .obsReport m n v => Sys2Proof.Machine.execObsReport m n v s
  | .obsReportTimeout n => Sys2Proof.Machine.execObsReportTimeout n s
  | .zeroCrossing n => Sys2Proof.Machine.execZeroCrossing n s
  | .rowChange n => Sys2Proof.Machine.execRowChange n s
  | .zcMiss n => Sys2Proof.Machine.execZcMiss n s
  | .forcedStep n => Sys2Proof.Machine.execForcedStep n s
  | .cmdinCycle k high ns => Sys2Proof.Machine.execCmdinCycle k high ns s
  | .cmdinTimeout k => Sys2Proof.Machine.execCmdinTimeout k s
  | .triadTcmAccess c addr bytes store bad => Sys2Proof.Machine.execTriadTcmAccess c addr bytes store bad s
  | .votedStore st => Sys2Proof.Machine.execVotedStore st s
  | .exchangeDelivery k addr bytes x => Sys2Proof.Machine.execExchangeDelivery k addr bytes x s
  | .exchangeTimeout k addr bytes x => Sys2Proof.Machine.execExchangeTimeout k addr bytes x s
  | .xlwMedS rd rs1 imm x => Sys2Proof.Machine.execXlwMedS rd rs1 imm x s
  | .xlwMedU rd rs1 imm x => Sys2Proof.Machine.execXlwMedU rd rs1 imm x s
  | .xflwMed rd rs1 imm x => Sys2Proof.Machine.execXflwMed rd rs1 imm x s
  | .syncPoint va vb => Sys2Proof.Machine.execSyncPoint va vb s
  | .triadMbxPost m v => Sys2Proof.Machine.execTriadMbxPost m v s
  | .mbxAck m v => Sys2Proof.Machine.execMbxAck m v s
  | .mbxOutSeq m v => Sys2Proof.Machine.execMbxOutSeq m v s
  | .safetyInputChange k level ns => Sys2Proof.Machine.execSafetyInputChange k level ns s
  | .testPulse x => Sys2Proof.Machine.execTestPulse x s
  | .ossdToleranceExpiry k => Sys2Proof.Machine.execOssdToleranceExpiry k s
  | .discrepancyTimeout k => Sys2Proof.Machine.execDiscrepancyTimeout k s
  | .resetPulse k => Sys2Proof.Machine.execResetPulse k s
  | .ss1TimerExpiry => Sys2Proof.Machine.execSs1TimerExpiry s
  | .speedAWindowClose => Sys2Proof.Machine.execSpeedAWindowClose s
  | .spdBWrite m v => Sys2Proof.Machine.execSpdBWrite m v s
  | .stoCloseStart => Sys2Proof.Machine.execStoCloseStart s
  | .stoTestPhaseEnd => Sys2Proof.Machine.execStoTestPhaseEnd s
  | .stoFeedbackChange fb0 fb1 => Sys2Proof.Machine.execStoFeedbackChange fb0 fb1 s
  | .stoFeedbackTimeout => Sys2Proof.Machine.execStoFeedbackTimeout s
  | .stoAgeHour => Sys2Proof.Machine.execStoAgeHour s
  | .trespWrite m v => Sys2Proof.Machine.execTrespWrite m v s
  | .tpermitWindowExpiry => Sys2Proof.Machine.execTpermitWindowExpiry s
  | .treqWrite m v => Sys2Proof.Machine.execTreqWrite m v s
  | .faultClear m v => Sys2Proof.Machine.execFaultClear m v s
  | .rwsWrite m addr v => Sys2Proof.Machine.execRwsWrite m addr v s
  | .open_ m => Sys2Proof.Machine.execOpen m s
  | .close m => Sys2Proof.Machine.execClose m s
  | .scommit m => Sys2Proof.Machine.execScommit m s
  | .safetyCrcDone => Sys2Proof.Machine.execSafetyCrcDone s
  | .safeReset m => Sys2Proof.Machine.execSafeReset m s
  | .sessionTimeout => Sys2Proof.Machine.execSessionTimeout s
  | .pwLockExpiry => Sys2Proof.Machine.execPwLockExpiry s
  | .logAck m v => Sys2Proof.Machine.execLogAck m v s
  | .init m n => Sys2Proof.Machine.execInit m n s
  | .normal m n => Sys2Proof.Machine.execNormal m n s
  | .listen m n => Sys2Proof.Machine.execListen m n s
  | .loopback m n => Sys2Proof.Machine.execLoopback m n s
  | .canFrameReceive n p f => Sys2Proof.Machine.execCanFrameReceive n p f s
  | .txreq m n w v => Sys2Proof.Machine.execTxreq m n w v s
  | .txabt m n w v => Sys2Proof.Machine.execTxabt m n w v s
  | .rxRelease m n w v => Sys2Proof.Machine.execRxRelease m n w v s
  | .canTxEnd n o tdcv => Sys2Proof.Machine.execCanTxEnd n o tdcv s
  | .canBusError n e c dataPhase => Sys2Proof.Machine.execCanBusError n e c dataPhase s
  | .recover m n => Sys2Proof.Machine.execRecover m n s
  | .recovered n => Sys2Proof.Machine.execRecovered n s
  | .bufCfgWrite m n b v => Sys2Proof.Machine.execBufCfgWrite m n b v s
  | .filterWrite m n f maskWord v => Sys2Proof.Machine.execFilterWrite m n f maskWord v s
  | .windowSelect m n w v => Sys2Proof.Machine.execWindowSelect m n w v s
  | .tsWrap n => Sys2Proof.Machine.execTsWrap n s
  | .crcInit m n => Sys2Proof.Machine.execCrcInit m n s
  | .crcStart m n => Sys2Proof.Machine.execCrcStart m n s
  | .crcAbort m n => Sys2Proof.Machine.execCrcAbort m n s
  | .check m n => Sys2Proof.Machine.execCheck m n s
  | .crcDmaDone n => Sys2Proof.Machine.execCrcDmaDone n s
  | .crcDmaRefused n => Sys2Proof.Machine.execCrcDmaRefused n s
  | .din m n v => Sys2Proof.Machine.execDin m n v s
  | .dinB m n v => Sys2Proof.Machine.execDinB m n v s
  | .crcRunWrite m n v => Sys2Proof.Machine.execCrcRunWrite m n v s
  | .claim m n v => Sys2Proof.Machine.execClaim m n v s
  | .medlarWatchdog => Sys2Proof.Machine.execMedlarWatchdog s
  | .captureRecordWrite => Sys2Proof.Machine.execCaptureRecordWrite s
  | .restart m => Sys2Proof.Machine.execRestart m s
  | .trigger m => Sys2Proof.Machine.execTrigger m s
  | .freeze m => Sys2Proof.Machine.execFreeze m s
  | .eventLogEntry k => Sys2Proof.Machine.execEventLogEntry k s
  | .sramScrubPass f => Sys2Proof.Machine.execSramScrubPass f s
  | .dramScrubPass f => Sys2Proof.Machine.execDramScrubPass f s
  | .journalCompaction flashOk => Sys2Proof.Machine.execJournalCompaction flashOk s
  | .safetyLogTransfer readBackOk => Sys2Proof.Machine.execSafetyLogTransfer readBackOk s
  | .telemetrySample => Sys2Proof.Machine.execTelemetrySample s
  | .mark m seq => Sys2Proof.Machine.execMark m seq s
  | .logRead m seq => Sys2Proof.Machine.execLogRead m seq s
  | .journalRead m seq => Sys2Proof.Machine.execJournalRead m seq s
  | .imageWrite m seq flashOk => Sys2Proof.Machine.execImageWrite m seq flashOk s
  | .teleRead m seq => Sys2Proof.Machine.execTeleRead m seq s
  | .spiRead ns addr count crc late ecc same => Sys2Proof.Machine.execSpiRead ns addr count crc late ecc same s
  | .spiWrite ns addr words crc => Sys2Proof.Machine.execSpiWrite ns addr words crc s
  | .spiNop ns addr count crc => Sys2Proof.Machine.execSpiNop ns addr count crc s
  | .spiReset ns reach count crc => Sys2Proof.Machine.execSpiReset ns reach count crc s
  | .spiUnknownCommand ns cmd addr count crc => Sys2Proof.Machine.execSpiUnknownCommand ns cmd addr count crc s
  | .frameAbort ns => Sys2Proof.Machine.execFrameAbort ns s
  | .hostWriteIssue => Sys2Proof.Machine.execHostWriteIssue s
  | .ethRead n p seq count addr len ecc same => Sys2Proof.Machine.execEthRead n p seq count addr len ecc same s
  | .ethWrite n p seq count addr words => Sys2Proof.Machine.execEthWrite n p seq count addr words s
  | .ethReset n p seq reach len => Sys2Proof.Machine.execEthReset n p seq reach len s
  | .beacon => Sys2Proof.Machine.execBeacon s
  | .heartbeat => Sys2Proof.Machine.execHeartbeat s
  | .ethLinkChange n up => Sys2Proof.Machine.execEthLinkChange n up s
  | .ptpSync x => Sys2Proof.Machine.execPtpSync x s
  | .servoCommit => Sys2Proof.Machine.execServoCommit s
  | .timeLoRead m lane bytes => Sys2Proof.Machine.execTimeLoRead m lane bytes s
  | .modbusReadInput start count => Sys2Proof.Machine.execModbusReadInput start count s
  | .modbusReadHolding start count => Sys2Proof.Machine.execModbusReadHolding start count s
  | .modbusWriteMultiple start words => Sys2Proof.Machine.execModbusWriteMultiple start words s
  | .sdoRequest index sub write => Sys2Proof.Machine.execSdoRequest index sub write s
  | .channelObjectWrite c target v => Sys2Proof.Machine.execChannelObjectWrite c target v s
  | .nmt cmd node => Sys2Proof.Machine.execNmt cmd node s
  | .syncConsumer => Sys2Proof.Machine.execSyncConsumer s
  | .outSet m v same => Sys2Proof.Machine.execOutSet m v same s
  | .outClr m v same => Sys2Proof.Machine.execOutClr m v same s
  | .gpioEdge k level ns => Sys2Proof.Machine.execGpioEdge k level ns s
  | .supplyRise r mv => Sys2Proof.Machine.execSupplyRise r mv s
  | .pingReplyTimeout n => Sys2Proof.Machine.execPingReplyTimeout n s
  | .lockPlausTimeout k => Sys2Proof.Machine.execLockPlausTimeout k s
  | .busIntegrated n => Sys2Proof.Machine.execBusIntegrated n s
  | .transmissionStart n => Sys2Proof.Machine.execTransmissionStart n s
  | .ethFrameReceive n kind => Sys2Proof.Machine.execEthFrameReceive n kind s
  | .vddqOutOfRange => Sys2Proof.Machine.execVddqOutOfRange s

end Sys2Proof.Machine
end

