-- ==== Sys2Proof/Machine/Tick.lean ====
section
/-!
DEFINITION. The passage of one model tick of 2.5 ns (R11, R27): device time under RATE (R639) and the activity counts (R129).
-/

namespace Sys2Proof.Machine

/-- One tick of device time in units of RATE: 256 × 10⁹ of them (R639). -/
def rateUnit : Int := 256000000000

/-- Device time advances: by one tick, and by 0 or 2 where the accumulated fraction has reached a whole tick (R639). -/
def Dev.deviceTick (d : Dev) : Dev :=
  let acc := d.rateAcc + (d.reg Reg.TS_RATE).toInt
  if rateUnit ≤ acc then (Dev.putRateAcc (acc - rateUnit) (Dev.putDevTime (d.devTime + 2) d))
  else if acc ≤ -rateUnit then (Dev.putRateAcc (acc + rateUnit) d)
  else (Dev.putRateAcc acc (Dev.putDevTime (d.devTime + 1) d))

/-- The pages whose block is ACTIVE now, added to those of the running microsecond (R129). -/
def Dev.noteActive (d : Dev) : Dev :=
  (Dev.putActiveSeen (d.activeSeen ++ allPages.filter (fun p => d.pstate p == 3 && !d.activeSeen.contains p)) d)

/-- A microsecond of device time ends: ACT_CNT of every block that was ACTIVE in it steps and wraps (R129). -/
def Dev.countActive (d : Dev) : Dev :=
  let ps := d.activeSeen
  each ps (fun p d => d.bumpWrap (Reg.pwr p) 31 8) (Dev.putActiveSeen [] d)

/-- The engine's watchdogs count a microsecond of device time (R215). -/
def Dev.countWatchdogs (d : Dev) : Dev :=
  each (twelve.filter d.wdtRuns) (fun e d => d.modEngine e (fun x => { x with wdtUs := x.wdtUs + 1 })) d

/-- The groups whose next reload is one tick away take its sample (R277, R280, R327). -/
def Dev.sampleGroups (d : Dev) : Dev :=
  each (twelve.filter (fun g => d.reloadAt g == some (d.now + 1))) Dev.takeSample d

/-- What starts with a page's release stands at the present while the page is held: the scrub passes (R607, R616, R618), the Medlar
watchdog (R606) and the host port (R669). -/
def Dev.heldStarts (d : Dev) : Dev :=
  let d := d.when (d.pageHeld 0xA1) (fun d => Dev.putMgmt { d.mgmt with sramAt := d.now, dramPassAt := d.now } d)
  let d := d.when (d.pageHeld 0x98) (fun d => Dev.putMgmt { d.mgmt with wdtAt := d.now } d)
  d.when (d.pageHeld 0x99) (fun d => Dev.putHost { d.host with upAt := d.now } d)

/-- One tick; a FAB cycle begins with it. Device time stands while its page is held in reset. -/
def Dev.tick (d : Dev) : Dev :=
  let d := { d.noteActive.sampleGroups.judgeSlots.newCycle with now := d.now + 1 }.startPending.checksDue.cmpTick.heldStarts
  if d.pageHeld 5 then d
  else
    let was := d.devTime / 400
    let d := d.deviceTick
    d.when (d.devTime / 400 != was) (fun d => d.countActive.countWatchdogs)

end Sys2Proof.Machine
end

