-- ==== Sys2Proof/Machine/Balls.lean ====
section
/-!
DEFINITION. The levels of the balls, as functions of the state (R105, R292, R297, R449, R664, R667). No command takes its effect
from here: what a command does stands in State, and this file says what it shows outside.
-/

namespace Sys2Proof.Machine

/-- What an output ball shows: high impedance, a level, or the bits of a transfer that the model holds whole. -/
inductive BallLevel where
  | hiZ | low | high | data
  deriving DecidableEq, Repr

/-- A level driven. -/
def BallLevel.of (x : Bool) : BallLevel := if x then .high else .low

/-- The bank of a ball has its supply, and so has the logic behind it (R649, R652). -/
def Dev.bankOn (d : Dev) (b : Fin 5) : Bool := d.supplies.vdd && (d.supplies.vio.get b).up

/-- A cold reset stands: its release sequence has not begun (R93, R105). -/
def Dev.coldHeld (d : Dev) : Bool := d.reset.episode == some .cold && !d.reset.releasing

/-- A ball of a bank: of high impedance unpowered, at a level of its own in a cold reset, else as its unit drives it (R105). -/
def Dev.ball (d : Dev) (bank : Fin 5) (cold live : BallLevel) : BallLevel :=
  if !d.bankOn bank then .hiZ else if d.coldHeld then cold else live

/-- The slew step of a group's gate pins adds this delay, in hundredths of a unit of 1/32 tick (R131). The spec states the figures of
the 3.3 V class; those of the 1.8 V class are free. -/
def Dev.gateDelay (d : Dev) (g : Nat) : Nat :=
  let step := d.fld Reg.PWMSYS_SLEW (2 * g + 1) (2 * g)
  if (d.supplies.vio.get 0).class33 = some false then Config.gateDelay18 step
  else match step with
    | 0 => 2560
    | 1 => 3328
    | 2 => 4864
    | _ => 7936

/-- The command of a leg that its gate balls show in this tick: the one of 10 ticks and the slew delay before (R131, R132), 0 OFF,
1 HIGH, 2 LOW. -/
def Dev.gateShown (d : Dev) (g k : Nat) : Nat :=
  match (d.leg g k).hist.find? (fun e => decide (100 * e.pin + 32000 + d.gateDelay g ≤ 3200 * (d.now : Int))) with
  | some e => legKind e.h e.l
  | none => 0

/-- GH(4g+k), and GL(4g+k) where `high` is false (R105, R297): low with OUT = 1. -/
def Dev.gateBall (d : Dev) (g k : Nat) (high : Bool) : BallLevel :=
  d.ball 0 .low (.of (!d.laneGroup g && d.gateShown g k == (if high then 1 else 2)))

/-- What FLn transmits in this tick (R104, R105, R334): dark without power and in a cold reset; the frame of the slot in progress, the
trip symbol, or the idle fill. -/
def Dev.laneShown (d : Dev) (n : Nat) : LaneTx :=
  if !d.supplies.vdd || !d.supplies.vdda || d.coldHeld || !d.qualified .pwm then .none else
  match (d.lane n).tx with
  | .frame f => if (d.lane n).slotAt.any (fun t => decide (d.ltick n < t + 16)) then .frame f else .idle
  | x => x

/-- The switch of STO_HS, and of STO_LS where `hs` is false, is closed (R105, R532): open without power and in a cold reset. -/
def Dev.stoClosed (d : Dev) (hs : Bool) : Bool :=
  d.bankOn 4 && !d.coldHeld && d.bit Reg.SLOE_STO (if hs then 0 else 1)

/-- STPx (R105, R515): high but in its test pulses; low with EN = 0 (log entry 107). -/
def Dev.stpBall (d : Dev) (x : Nat) : BallLevel :=
  d.ball 4 .low (.of (bitAt 31 (d.act Reg.SAFE_STP_CFG) &&
    !(d.stpPhase x d.now).any (fun p => decide (p < d.stpWidth))))

/-- CAN TX of MBn (R105, R557): recessive, which is high, until the page is enabled and while the controller is off the bus. -/
def Dev.canTxBall (d : Dev) (n : Nat) : BallLevel :=
  d.ball 2 .high (if d.canOnBus n && (d.ctl n).sending.isSome then .data else .high)

/-- TXD and TX_CTL of ETHn (R105): low until the page is enabled. -/
def Dev.rgmiiBall (d : Dev) (n : Nat) : BallLevel :=
  d.ball 3 .low (if d.bit (Reg.ETH_CTRL n) 0 && !d.pageHeld (0x9A + n) then .data else .low)

/-- The data outputs of host SPI (R105): a transfer is one command, and they are driven only within it. -/
def Dev.spiBall (_ : Dev) : BallLevel := .hiZ

/-- IRQ_N (R73, R97, R105). -/
def Dev.irqBall (d : Dev) : BallLevel := d.ball 4 (.of (!d.clocks.xtalFault)) (.of (!d.irqLow))

/-- The chip select of the flash (R105): the boot ROM and the loader drive it while they read, and Medlar for its journal. -/
def Dev.flashCsBall (d : Dev) : BallLevel :=
  d.ball 2 .high (if d.pageHeld 0x98 then .high else .data)

/-- GPIOi (R105, R664, R667): the level and direction that apply; an open-drain output drives low only. -/
def Dev.gpioBall (d : Dev) (i : Nat) : BallLevel :=
  let out := bitAt i (d.padApplied Reg.GPIO_OUT)
  d.ball 2 .hiZ (if !bitAt i (d.padApplied Reg.GPIO_DIR) then .hiZ
    else if out && bitAt 20 (d.padApplied (Reg.GPIO_CFG i)) then .hiZ
    else .of out)

/-- EA, EB and EZ of PFn (R105, R444). -/
def Dev.emuBalls (d : Dev) (n : Nat) : BallLevel × BallLevel × BallLevel :=
  let p := d.emuPins n
  (d.ball 1 .low (.of p.1), d.ball 1 .low (.of p.2.1), d.ball 1 .low (.of p.2.2))

/-- The SSI or BiSS clock PFn_MA (R105, R419), and PFn_CMP (R419, R449). -/
def Dev.maBall (d : Dev) (n : Nat) : BallLevel := d.ball 1 .low (.of (d.maPin n))
def Dev.cmpBall (d : Dev) (n : Nat) : BallLevel := d.ball 1 .low (.of (d.cmpPin n))

/-- The modulator clock SD_CKk (R105, R399): 50 % duty from the edge of EN on, low until then. -/
def Dev.sdckBall (d : Dev) (k : Nat) : BallLevel :=
  let t := d.sdPeriod k
  let from_ := vget 0 d.acq.sdck k
  d.ball 4 .low (.of (d.bit (Reg.ADCSYS_SDCK k) 31 && !d.pageHeld 0x58 && decide (from_ ≤ d.now ∧ (d.now - from_) % t < t / 2)))

/-- SYNC_OUT (R105, R292): high for 16 ticks from each pulse's rise. -/
def Dev.syncOutBall (d : Dev) : BallLevel :=
  d.ball 0 .low (.of (d.bit Reg.PWMSYS_SYNC_OUT 31 && d.syncOutAt.any (fun t => decide (d.now < t + 16))))

end Sys2Proof.Machine
end

