-- ==== Sys2Proof/Safety.lean ====
section
/-!
DEFINITION. What holds of a safe run: the stores stand in canonical form, and no leg has both of its switches on (R275). Every
step keeps both, from every state that has them.
-/

namespace Sys2Proof.Machine

/-- Registers, shadows and memories are in canonical form. -/
def Dev.Wf (d : Dev) : Prop :=
  canonical resetWord d.regs = true ∧ canonical resetWord d.shadow = true ∧ Memory.wf d = true

/-- No leg of the group has both of its switches on. -/
abbrev Group.NoShoot (x : Group) : Prop := ∀ k, ((vget {} x.legs k).onH && (vget {} x.legs k).onL) = false

/-- No leg of any group has both of its switches on: the two sides of a half bridge never conduct together. -/
def Dev.NoShootThrough (d : Dev) : Prop := ∀ g, (d.group g).NoShoot

/-- A safe state. -/
def State.Safe (s : State) : Prop := s.dev.Wf ∧ s.dev.NoShootThrough

end Sys2Proof.Machine
end

