-- ==== Sys2Proof/Certificates/Slice0/Obligations.lean ====
section
/-!
DEFINITION. The statements for the provers. A statement of completion says what a command leaves where the conditions of its rule
hold; its conditions speak of the state and the operands alone.
-/

open Sys2Proof Sys2Proof.Machine

/-- The command `c`, executed in `s`, answers a next state: the device is `d`, and the queue stands as it stood. -/
abbrev Sys2Proof.Machine.Goes (c : Instr) (s : State) (d : Dev) : Prop := exec c s = .next { s with dev := d }

/-- The page of the register at key `k` is not held, and the access table lets `m` write it (R43, R81). -/
abbrev Sys2Proof.Machine.Dev.Reaches (d : Dev) (m : Master) (k : Nat) : Prop :=
  d.pageHeld (k / 0x1000) = false ∧ d.mayWrite m (k / 0x1000) (k % 0x1000) = true

/-- The same, with the page unlocked (R61). -/
abbrev Sys2Proof.Machine.Dev.Unlocked (d : Dev) (m : Master) (k : Nat) : Prop := d.Reaches m k ∧ d.kstate (k / 0x1000) = 2

/-- Engine `e` issues the instruction `op`: its word is good and stands at PC, in the mode of the form `u`, it names only fields of
that form, and its destinations exist. -/
abbrev Sys2Proof.Machine.Dev.Issues (d : Dev) (e op : Nat) (u : Form) (f : EngFields) : Prop :=
  d.canIssue e = true ∧ f.fetch = .ok ∧ d.insnAt e = insnOf op f ∧ f.m.val % u.modes = u.mode ∧ u.ok f = true ∧ f.d.val + u.outs ≤ 64

/-- The FAB cycle in which an instruction issues: the one in progress, or one of its own. -/
abbrev Sys2Proof.Machine.Dev.begun (d : Dev) (f : EngFields) : Dev := if f.same then d else d.newCycle

/-- Where the instruction `op` of form `u` issues, its command `c` leaves the device `d`. -/
abbrev Sys2Proof.Machine.Runs (s : State) (e op : Nat) (u : Form) (f : EngFields) (c : Instr) (d : Dev) : Prop :=
  s.dev.Issues e op u f → Goes c s d

/-- One result of an engine instruction: the destination, its flags, and the pointer on its way. -/
abbrev Sys2Proof.Machine.Dev.Result (d : Dev) (e : Nat) (f : EngFields) (o : FpOut) : Dev :=
  ((d.setV e f.d.val o.val).fpFlags e o.flags).advance e

/-- The form of an invocation of a control-law unit, in one of `modes` modes. -/
abbrev Sys2Proof.Machine.Form.unit (modes mode outs : Nat) : Form :=
  { d := true, a := true, b := true, cMax := allReg, mMax := 3, imm := 15, outs := outs, modes := modes, mode := mode }

/-- Where an instance that exists is invoked and its coefficients read without an error, the command `c` leaves the device `d`. -/
abbrev Sys2Proof.Machine.RunsUnit (s : State) (e unit modes mode outs : Nat) (f : EngFields) (c : Instr) (d : Dev) : Prop :=
  f.data = .ok → (unitInfo unit).any (fun i => Machine.fld 3 0 f.imm < i.1) = true →
    Runs s e (0x2C + unit) (.unit modes mode outs) f c d

/-- One refused access, logged (R44, R78, R79): ACCESS_ERR of the page that logs, and the SYS record of the first address and master
and of the number; no other register changes, and of the rest of
the device at most the FAB cycle's record of what it set and what the latest read returned. -/
def Sys2Proof.Machine.Dev.Logged (a b : Dev) (page : Nat) (m : Master) (addr : Nat) (write : Bool) (data : Word) : Prop :=
  b.bit (Reg.evtRaw page) 31 = true ∧ (∀ i, i ≠ 31 → b.bit (Reg.evtRaw page) i = a.bit (Reg.evtRaw page) i) ∧
    b.fld Reg.SYS_AERR_CNT 15 0 = min 65535 (a.fld Reg.SYS_AERR_CNT 15 0 + 1) ∧
    (a.bit Reg.SYS_AERR_INFO 31 = false → b.reg Reg.SYS_AERR_ADDR = word addr ∧ b.bit Reg.SYS_AERR_INFO 31 = true ∧
      b.fld Reg.SYS_AERR_INFO 15 8 = masterCode m ∧ b.bit Reg.SYS_AERR_INFO 0 = write) ∧
    (a.bit Reg.SYS_AERR_INFO 31 = true → b.reg Reg.SYS_AERR_ADDR = a.reg Reg.SYS_AERR_ADDR ∧
      b.reg Reg.SYS_AERR_INFO = a.reg Reg.SYS_AERR_INFO) ∧
    (∀ k, k ∉ [Reg.evtRaw page, Reg.SYS_AERR_ADDR, Reg.SYS_AERR_INFO, Reg.SYS_AERR_CNT] → b.reg k = a.reg k) ∧
    b = { a with regs := b.regs, cyc := b.cyc, readData := data }

/-- Every byte of memory reads in `b` as it reads in `a`. -/
abbrev Sys2Proof.Machine.Dev.SameMemory (a b : Dev) : Prop := ∀ x, b.byteAt x = a.byteAt x

/-- Every register and every shadow of a page outside `ps` stands in `b` as it stands in `a`. -/
abbrev Sys2Proof.Machine.Dev.SameOutside (ps : List Nat) (a b : Dev) : Prop :=
  ∀ k, k / 0x1000 ∉ ps → b.reg k = a.reg k ∧ b.sh k = a.sh k

/-- Every instruction but ILLEGAL_OPCODE with its opcode and its form (R175, R177). -/
def Sys2Proof.Machine.instructionForms (e : Fin 12) (f : EngFields) : List (Instr × Nat × Form) :=
  let xfm (mode outs : Nat) : Form := { d := true, a := true, b := true, cMax := allReg, mMax := 3, outs := outs, modes := 4, mode := mode }
  [(.nop e f, 0x00, ({} : Form)), (.fadd e f, 0x01, .dabi), (.fsub e f, 0x02, .dabi), (.fmul e f, 0x03, .dabi), (.fma e f, 0x04, .dabic),
    (.fms e f, 0x05, .dabic), (.fmin e f, 0x06, .dabi), (.fmax e f, 0x07, .dabi), (.fabs e f, 0x08, .da), (.fneg e f, 0x09, .da),
    (.fcmp e f, 0x0A, .cond), (.fsel e f, 0x0B, { d := true, a := true, b := true, cMax := allReg, outs := 1 }),
    (.cvtfi e f, 0x0C, { Form.da with mMax := 3 }), (.cvtif e f, 0x0D, .da), (.mov e f, 0x0E, .dbi), (.iadd e f, 0x0F, .dabi),
    (.isub e f, 0x10, .dabi), (.iand e f, 0x11, .dabi), (.ior e f, 0x12, .dabi), (.ishl e f, 0x13, .dabi)] ++
  [(.ishr e f, 0x14, .shiftRight), (.icmp e f, 0x15, .cond),
    (.ld e f, 0x18, { d := true, a := true, imm := allImm, mMax := 1, outs := 1 + f.m.val % 2 }),
    (.st e f, 0x19, { a := true, b := true, imm := allImm, mMax := 1 }), (.br e f, 0x1A, { a := true, imm := allImm, mMax := 3 }),
    (.loop e f, 0x1B, { a := true, imm := allImm, mMax := 1 }), (.call e f, 0x1C, { imm := allImm }), (.jr e f, 0x1D, { a := true }),
    (.fend e f, 0x1E, ({} : Form)), (.pub e f, 0x1F, { a := true, imm := allImm }), (.rcv e f, 0x20, { d := true, imm := allImm, outs := 1 }),
    (.time e f, 0x21, { d := true, mMax := 1, outs := 1 }), (.cap e f, 0x22, { a := true, b := true, cMax := allReg, imm := allImm }),
    (.trq e f, 0x23, { imm := allImm }), (.bsw e f, 0x24, { imm := allImm }), (.cwr e f, 0x25, { a := true, imm := allImm, mMax := 1 }),
    (.div e f, 0x28, { d := true, a := true, b := true, outs := 1 }), (.sqrt e f, 0x29, .da),
    (.sincos e f, 0x2A, { d := true, a := true, outs := 2 }), (.atan2 e f, 0x2B, { d := true, a := true, b := true, outs := 2 })] ++
  [(.xfmClarke e f, 0x2C, xfm 0 2), (.xfmPark e f, 0x2C, xfm 1 2), (.xfmInversePark e f, 0x2C, xfm 2 2),
    (.xfmInverseClarke e f, 0x2C, xfm 3 3), (.pi e f, 0x2D, .unit 1 0 1), (.pr e f, 0x2E, .unit 1 0 1), (.biq e f, 0x2F, .unit 1 0 1),
    (.limScalar e f, 0x30, .unit 2 0 1), (.limCircle e f, 0x30, .unit 2 1 2), (.pll e f, 0x31, .unit 1 0 3), (.obs e f, 0x32, .unit 1 0 3),
    (.svmSvpwm e f, 0x33, .unit 4 0 3), (.svmSinusoidal e f, 0x33, .unit 4 1 3), (.svmThreeLevel e f, 0x33, .unit 4 2 3),
    (.svmDiscontinuous e f, 0x33, .unit 4 3 3), (.dtc e f, 0x34, .unit 1 0 1), (.vsm e f, 0x35, .unit 1 0 3)]

/-! ### Registers, keys, shadows and events (chapter 2) -/

/-- COMPLETION of REGISTER_WRITE, KEY_WRITE, KEY_WINDOW_EXPIRY, UNLOCK_TIMEOUT, SHADOW_WRITE, RWS_WRITE, EVENT_DELIVERY. -/
def Obligations.RegisterCommandsComplete : Prop :=
  -- REGISTER_WRITE to SRAM: the low `n` bytes of the value, the least significant at the lowest address
  (∀ (s : State) (m : Master) (a : BitVec 32) (n : Nat) (v : Word) (same : Bool), regionOf a.toNat = .sram →
    s.dev.mayAccess m true a.toNat = true →
    Goes (.registerWrite m a n v same) s ((s.dev.enterCycle m same).setBytes a.toNat ((wordBytes v).take n))) ∧
  -- REGISTER_WRITE of a register whose fields are RW or RO, on a page whose registers have no operation of their own
  (∀ (s : State) (m : Master) (a : BitVec 32) (v : Word) (same : Bool) (p off i j : Nat) (k : PageKind) (r : RegDesc),
    regionOf a.toNat = .page p off → 0x40 ≤ off → off < 0x800 → off % 4 = 0 → s.dev.Reaches m (p * 0x1000 + off) →
    regAt (p * 0x1000 + off) = some (k, i, r, j) → k ∈ [PageKind.rst, .clk, .evt, .ts, .fl, .ac, .acc, .mmx, .cmp, .sd, .eth, .scrub, .pad] →
    r.rwc = 0 → r.rws = 0 → r.w1c = 0 → r.w1s = 0 → keyedWrite (p * 0x1000 + off) v = false →
    Goes (.registerWrite m a 4 v same) s ((s.dev.enterCycle m same).setReg (p * 0x1000 + off)
      ((s.dev.reg (p * 0x1000 + off) &&& ~~~ word r.rw) ||| (v &&& word r.rw)))) ∧
  -- KEY_WRITE: the first word to a locked page, the second to a page that waits for it
  (∀ (s : State) (m : Master) (p : Nat), (pageKind? p).isSome = true → s.dev.Reaches m (Reg.key p) → s.dev.kstate p = 0 →
    Goes (.keyWrite m p (word (0x5A000000 + p))) s ((s.dev.enterCycle m false).setKstate p 1)) ∧
  (∀ (s : State) (m : Master) (p : Nat), (pageKind? p).isSome = true → s.dev.Reaches m (Reg.key p) → s.dev.kstate p = 1 →
    Goes (.keyWrite m p (word (0xA5000000 + p))) s ((s.dev.enterCycle m false).setKstate p 2)) ∧
  -- KEY_WINDOW_EXPIRY: no second word came; UNLOCK_TIMEOUT: no keyed write came
  (∀ (s : State) (p : Nat), s.dev.kstate p = 1 → Goes (.keyWindowExpiry p) s (s.dev.setKstate p 0)) ∧
  (∀ (s : State) (p : Nat), s.dev.kstate p = 2 → Goes (.unlockTimeout p) s (s.dev.setKstate p 0)) ∧
  -- SHADOW_WRITE: the RWC fields of the shadow take the value outside a commit, and the first leaves UNCONFIGURED
  (∀ (s : State) (m : Master) (p off : Nat) (v : Word), (pageKind? p).isSome = true → off < 0x800 → off % 4 = 0 →
    s.dev.Reaches m (p * 0x1000 + 0x800 + off) → rwcMask (p * 0x1000 + off) ≠ 0 → s.dev.commitBusy = false → s.dev.rwcBarred m = false →
    Goes (.shadowWrite m p off v) s ((s.dev.enterCycle m false).setSh (p * 0x1000 + off)
      ((s.dev.sh (p * 0x1000 + off) &&& ~~~ rwcMask (p * 0x1000 + off)) |||
        (storedValue (p * 0x1000 + off) v &&& rwcMask (p * 0x1000 + off)))).rwcAccepted) ∧
  -- RWS_WRITE by the owner of the open session to a register of the safety configuration
  (∀ (s : State) (m : Master) (a : BitVec 32) (v : Word) (off i j : Nat) (k : PageKind) (r : RegDesc),
    regionOf a.toNat = .page 0x92 off → 0x54 ≤ off → off < 0x110 → off % 4 = 0 → s.dev.Reaches m (0x92000 + off) →
    regAt (0x92000 + off) = some (k, i, r, j) → r.rw = 0 → r.w1c = 0 → r.w1s = 0 → r.rwc = 0 → r.rws ≠ 0 → r.keyed = 0 →
    s.dev.ownsSession m = true → s.dev.sloe.crcRun = false → s.dev.logFull = false →
    ∃ d, d = (s.dev.enterCycle m false).setReg (0x92000 + off)
        ((s.dev.reg (0x92000 + off) &&& ~~~ word r.rws) ||| (v &&& word r.rws)) ∧
      Goes (.rwsWrite m a v) s
        (((d.logEntry (originOf m) 1 (0x1000 + off) s.dev.safetyCrc d.safetyCrc).setBit Reg.SAFE_STAT 0 false).touchSession.evaluate)) ∧
  -- EVENT_DELIVERY of an event routed to Sloe: the event demand
  (∀ (s : State) (p : Nat) (differ : BitVec 3), s.dev.routedToSloe p = true → s.dev.pageHeld 0x91 = false →
    ∃ d, d = (s.dev.demandSet 9).evaluate ∧ Goes (.eventDelivery p differ) s
      (d.when d.triadRuns (Dev.triadEvents (allPages.any (fun q => d.routedTo q 2)) differ))) ∧
  -- EVENT_DELIVERY at a running triad, the cores alike: each latches the pending state, and where it is pending and most cores enable
  -- the machine external interrupt, every core takes it
  (∀ (s : State) (p : Nat) (level : Bool), s.dev.triadRuns = true → s.dev.routedToSloe p = false →
    level = allPages.any (fun q => s.dev.routedTo q 2) →
    ∃ t : Triad, Goes (.eventDelivery p 0) s (s.dev.modTriad (fun _ => t)) ∧ t.events = level ∧
      ∀ c : Fin 3, vget {} t.cores c.val =
        let k : TriadCore := { vget {} s.dev.triad.cores c.val with eip := level }
        if level && s.dev.mostCores (fun k => bitAt 3 k.mstatus && bitAt 11 k.mie) then k.trap (2 ^ 31 + 11) 0 else k)

/-! ### Resets and supplies (chapters 3 and 20) -/

/-- COMPLETION of PORST_PIN, RESET_PIN, BALL_SOURCE_RELEASE, SWRST_COLD, SWRST_WARM, SOFTWARE_SOURCE_RELEASE,
INTERNAL_SOURCE_RELEASE, SUPPLY_BROWN_OUT, SUPPLY_RISE, VIO_CLASS_TAKE, POWER_ON_RELEASE, VDDQ_OUT_OF_RANGE. -/
def Obligations.ResetSourcesComplete : Prop :=
  -- a low pulse of 5 µs or longer on PORST_N or RESET_N
  (∀ (s : State) (ns : Nat), 5000 ≤ ns → Goes (.porstPin ns) s (s.dev.assertSource .porstPin .cold)) ∧
  (∀ (s : State) (ns : Nat), 5000 ≤ ns → Goes (.resetPin ns) s (s.dev.assertSource .resetPin .warm)) ∧
  -- the release of a ball, of a software source and of an internal source
  (∀ (s : State) (x : Source), x ∈ [Source.porstPin, .resetPin] → Goes (.ballSourceRelease x) s (s.dev.releaseSource x)) ∧
  (∀ (s : State) (x : Source), x ∈ [Source.swCold, .swWarm, .cmdHost, .cmdEth, .cmdCan] →
    Goes (.softwareSourceRelease x) s (s.dev.releaseSource x)) ∧
  (∀ (s : State) (x : Source), x ∈ [Source.mgtWdt, .triadFatal, .clkMon] →
    Goes (.internalSourceRelease x) s (s.dev.releaseSource x)) ∧
  -- a write of SYS.SWRST that its page takes unlocked: COLD wins where both bits are 1
  (∀ (s : State) (m : Master) (both : Bool), s.dev.Unlocked m Reg.SYS_SWRST →
    Goes (.swrstCold m both) s ((s.dev.setKstate 0 0).assertSource .swCold .cold)) ∧
  (∀ (s : State) (m : Master), s.dev.Unlocked m Reg.SYS_SWRST →
    Goes (.swrstWarm m) s ((s.dev.setKstate 0 0).assertSource .swWarm .warm)) ∧
  -- the supplies: a dip below the falling threshold of 500 ns or longer; a rise of VDD to 0.72 V and of VDDA to 1.62 V
  (∀ (s : State) (r : Rail) (mv ns : Nat), s.dev.belowFloor r mv = true → 500 ≤ ns →
    Goes (.supplyBrownOut r mv ns) s ((s.dev.supplyFall r mv).assertSource (railSource r) .cold)) ∧
  (∀ (s : State) (mv : Nat), 720 ≤ mv → ∃ x, Goes (.supplyRise .vdd mv) s (Dev.putSupplies x s.dev) ∧ x.vdd = true ∧
    x.vdda = s.dev.supplies.vdda ∧ x.vio = s.dev.supplies.vio) ∧
  (∀ (s : State) (mv : Nat), 1620 ≤ mv → ∃ x, Goes (.supplyRise .vdda mv) s (Dev.putSupplies x s.dev) ∧ x.vdda = true ∧
    x.vdd = s.dev.supplies.vdd ∧ x.vio = s.dev.supplies.vio) ∧
  -- a VIO bank that has passed 1.55 V and rises to 2.85 V within 20 ms takes the 3.3 V class then; one that has not takes the 1.8 V
  -- class at their end; the other banks stand
  (∀ (s : State) (b : Fin 5) (mv : Nat), (s.dev.supplies.vio.get b).up = true → (s.dev.supplies.vio.get b).class33 = none →
    2850 ≤ mv → s.dev.now ≤ (s.dev.supplies.vio.get b).since + 8000000 →
    ∃ x, Goes (.supplyRise (.vio b) mv) s (Dev.putSupplies x s.dev) ∧ (x.vio.get b).class33 = some true ∧
      ∀ c, c ≠ b → x.vio.get c = s.dev.supplies.vio.get c) ∧
  (∀ (s : State) (b : Fin 5), (s.dev.supplies.vio.get b).up = true → (s.dev.supplies.vio.get b).class33 = none →
    (s.dev.supplies.vio.get b).high = false → (s.dev.supplies.vio.get b).since + 8000000 ≤ s.dev.now →
    ∃ x, Goes (.vioClassTake b) s (Dev.putSupplies x s.dev) ∧ (x.vio.get b).class33 = some false ∧
      ∀ c, c ≠ b → x.vio.get c = s.dev.supplies.vio.get c) ∧
  -- 200 µs after all three supplies are above threshold the power-on sources release, that of VIO once every bank has its class
  (∀ s : State, s.dev.suppliesUp = true → s.dev.vioClassed = true →
    Goes .powerOnRelease s (((s.dev.releaseSource .porVdd).releaseSource .porVdda).releaseSource .porVio)) ∧
  (∀ s : State, s.dev.suppliesUp = true → s.dev.vioClassed = false →
    Goes .powerOnRelease s ((s.dev.releaseSource .porVdd).releaseSource .porVdda)) ∧
  (∀ s : State, s.dev.supplies.vdd = true → Goes .vddqOutOfRange s s.dev.loseDram)

/-- COMPLETION of SRST, BLOCK_RESET_RELEASE, JTAG_RESET, SELF_REFRESH_TIMEOUT, RELEASE_SEQUENCE, MEMORY_INIT_DONE, DRAM_INIT_DONE,
MEDLAR_WATCHDOG, ENGINE_WATCHDOG. -/
def Obligations.ResetStepsComplete : Prop :=
  -- SRST of an unlocked page that takes a block reset
  (∀ (s : State) (m : Master) (p : Nat), (pageKind? p).isSome = true → s.dev.Unlocked m (Reg.ctrl p) → p ≠ 0x91 → p ≠ 0x92 →
    (p = 0x90 → s.dev.cstate ≠ 3) → p / 4 ≠ 0x22 → Goes (.srst m p) s ((s.dev.setKstate p 0).blockReset 0 p).commitRelease) ∧
  -- the release of a page whose block reset has joined no episode: its clock qualified, or deferred until it is
  (∀ (s : State) (p : Nat), s.dev.reset.blockHeld.contains p = true → s.dev.joinsEpisode p = false → p ≠ 0x98 →
    ∃ d, Goes (.blockResetRelease p) s d ∧ d.reset.blockHeld = s.dev.reset.blockHeld.filter (· != p) ∧
      (s.dev.pageQualified p = false → p ∈ d.reset.deferred)) ∧
  -- one that has joined: the release sequence of the episode takes the page
  (∀ (s : State) (p : Nat), s.dev.reset.blockHeld.contains p = true → s.dev.joinsEpisode p = true →
    Goes (.blockResetRelease p) s (Dev.putReset { s.dev.reset with
      blockHeld := s.dev.reset.blockHeld.filter (· != p), seqStart := s.dev.now } s.dev)) ∧
  -- JTAG resets, with the device OFF and not ARMED
  (∀ (s : State) (e : Fin 12), s.dev.deviceOff = true → s.dev.cstate ≠ 3 →
    Goes (.jtagReset (.engine e)) s (s.dev.blockReset 2 (0x10 + e.val)).commitRelease) ∧
  (∀ s : State, s.dev.deviceOff = true → s.dev.cstate ≠ 3 → Goes (.jtagReset .triad) s (s.dev.blockReset 2 0x90)) ∧
  (∀ s : State, s.dev.deviceOff = true → s.dev.cstate ≠ 3 → Goes (.jtagReset .medlar) s
    (Dev.putMgmt { (s.dev.blockReset 2 0x98).mgmt with halted := true } (s.dev.blockReset 2 0x98))) ∧
  -- the episode: self-refresh lost, the release of all pages but MGT, the end
  (∀ s : State, s.dev.reset.episode = some .warm ∨ s.dev.reset.episode = some .plane →
    Goes .selfRefreshTimeout s
      (Dev.putReset { s.dev.reset with dramInit := true, dramLost := true } s.dev.loseDram)) ∧
  (∀ (s : State) (r : Reach), s.dev.reset.episode = some r → s.dev.sourcesStand = false → s.dev.reset.releasing = false →
    s.dev.clocks.pllsOn = true → s.dev.clocks.xtalFault = false →
    Goes .releaseSequence s (each (s.dev.reset.held.filter (· != 0x98)) Dev.releasePage
      (Dev.putReset { s.dev.reset with releasing := true } s.dev))) ∧
  (∀ s : State, s.dev.reset.episode = some .plane → s.dev.reset.releasing = true →
    Goes .memoryInitDone s (Dev.romAfter s.dev ((s.dev.releasePage 0x98).endEpisode .plane)).afterRelease) ∧
  (∀ (s : State) (r : Reach), s.dev.reset.episode = some r → r ≠ .plane → s.dev.reset.releasing = true →
    Goes .memoryInitDone s
      (Dev.romAfter s.dev.initMemories ((s.dev.initMemories.releasePage 0x98).endEpisode r)).afterRelease) ∧
  -- the DRAM is zeroed where its contents were lost or the reset was cold, and kept where it was not
  (∀ s : State, s.dev.pageHeld 0xA0 = false → s.dev.reset.dramInit = true →
    Goes .dramInitDone s ((Dev.putReset { s.dev.reset with dramInit := false } s.dev.zeroDram).setFld Reg.DRAM_STAT 2 0 3)) ∧
  (∀ s : State, s.dev.pageHeld 0xA0 = false → s.dev.reset.dramInit = false →
    Goes .dramInitDone s (s.dev.setFld Reg.DRAM_STAT 2 0 3)) ∧
  -- the watchdogs
  (∀ (s : State) (e : Fin 12), s.dev.wdtRuns e.val = true → s.dev.fld (Reg.LE_WDT e.val) 15 0 ≤ (s.dev.engine e.val).wdtUs →
    Goes (.engineWatchdog e) s (s.dev.blockReset 1 (0x10 + e.val)).commitRelease) ∧
  (∀ s : State, s.dev.pageHeld 0x98 = false → s.dev.mgmt.wdtAt + 100000000 ≤ s.dev.now →
    Goes .medlarWatchdog s (s.dev.assertSource .mgtWdt .plane))

/-! ### Clocks and pins (chapters 3, 4 and 20) -/

/-- COMPLETION of XTAL_VALID, XTAL_TIMEOUT, PLL_LOCK, CLOCK_QUALIFY, QUALIFICATION_TIMEOUT, MONITOR_GATE, CLOCK_EDGE_TIMEOUT,
XTAL_RC_MISMATCH, SSC_APPLY. -/
def Obligations.ClockCommandsComplete : Prop :=
  (∀ s : State, s.dev.clocks.pllsOn = false → s.dev.clocks.xtalFault = false → ∃ d, Goes .xtalValid s d ∧
    d.clocks.pllsOn = true ∧ d.bit Reg.CLK_QUAL 16 = true ∧ ∀ k, k ≠ Reg.CLK_QUAL → d.reg k = s.dev.reg k) ∧
  (∀ s : State, s.dev.clocks.pllsOn = false → ∃ d, Goes .xtalTimeout s d ∧ d.clocks.xtalFault = true ∧ d.clocks.pllsOn = false ∧
    d.bit Reg.CLK_MON_FAIL 16 = true ∧ d.bit (Reg.evtRaw 2) 0 = true) ∧
  (∀ (s : State) (p : Fin 6), s.dev.clocks.pllsOn = true → Goes (.pllLock p) s (s.dev.setBit Reg.CLK_LOCK p.val true)) ∧
  -- a locked PLL and a count within 2 % of nominal qualify the domain, and its deferred pages are released
  (∀ (s : State) (x : Domain) (n : Nat), s.dev.bit Reg.CLK_LOCK (pllOf x) = true → countWithin 2 x n = true →
    ∃ d, Goes (.clockQualify x n) s d ∧ d.bit Reg.CLK_QUAL (domainBit x) = true ∧
      d.reset.deferred = s.dev.reset.deferred.filter (fun p => pageDomain p != some x) ∧
      (x ≠ .mgt → ∀ k, k ≠ Reg.CLK_QUAL → d.reg k = s.dev.reg k)) ∧
  (∀ (s : State) (x : Domain), s.dev.reset.deferred.any (fun p => pageDomain p == some x) = true →
    Goes (.qualificationTimeout x) s (s.dev.raise 2 0)) ∧
  -- the second gate in turn outside 5 %, a clock without edges, and a crystal against the RC oscillator
  (∀ (s : State) (x : Domain) (n : Nat), s.dev.qualified x = true → countWithin 5 x n = false →
    vget 0 s.dev.clocks.badGates (domainBit x) = 1 → Goes (.monitorGate x n) s ((s.dev.noteCount x n 2).failDomains [x])) ∧
  (∀ (s : State) (x : Domain) (n : Nat), s.dev.qualified x = true → countWithin 5 x n = true →
    Goes (.monitorGate x n) s (s.dev.noteCount x n 0)) ∧
  (∀ (s : State) (x : Domain), s.dev.qualified x = true → Goes (.clockEdgeTimeout x) s (s.dev.failDomains [x])) ∧
  (∀ s : State, allDomains.any s.dev.qualified = true → Goes .xtalRcMismatch s
    ((s.dev.setBit Reg.CLK_MON_FAIL 17 true).failDomains (allDomains.filter s.dev.qualified))) ∧
  (∀ s : State, allDomains.any s.dev.qualified = false → Goes .xtalRcMismatch s (s.dev.setBit Reg.CLK_MON_FAIL 17 true)) ∧
  (∀ (s : State) (p : SscPll), s.dev.sscMay p = true →
    s.dev.fld Reg.CLK_SSC_STAT (sscLow p + 1) (sscLow p) ≠ s.dev.fld Reg.CLK_SSC (sscLow p + 1) (sscLow p) →
    Goes (.sscApply p) s ((s.dev.setFld Reg.CLK_SSC_STAT (sscLow p + 1) (sscLow p)
      (s.dev.fld Reg.CLK_SSC (sscLow p + 1) (sscLow p))).raise 2 2))

/-- COMPLETION of PAD_ENABLE, OUT_SET, OUT_CLR, GPIO_EDGE. -/
def Obligations.PinCommandsComplete : Prop :=
  (∀ (s : State) (m : Master), s.dev.Reaches m Reg.PAD_CTRL → Goes (.padEnable m) s
    (Dev.putPadHeld [] ((s.dev.setBit Reg.PAD_CTRL 0 true).setBit Reg.PAD_STAT 0 false))) ∧
  (∀ (s : State) (m : Master) (v : Word) (same : Bool), s.dev.Reaches m Reg.GPIO_OUT_SET →
    Goes (.outSet m v same) s ((s.dev.enterCycle m same).setReg Reg.GPIO_OUT (s.dev.reg Reg.GPIO_OUT ||| v))) ∧
  (∀ (s : State) (m : Master) (v : Word) (same : Bool), s.dev.Reaches m Reg.GPIO_OUT_CLR →
    Goes (.outClr m v same) s ((s.dev.enterCycle m same).setReg Reg.GPIO_OUT (s.dev.reg Reg.GPIO_OUT &&& ~~~ v))) ∧
  -- an edge that EDGE_CFG names on a ball, whose new level has stood for the length of its filter, sets its bit and the event
  (∀ (s : State) (i : Fin 32) (up : Bool) (ns : Nat), 20 * Machine.fld 15 8 (s.dev.padApplied (Reg.GPIO_CFG i.val)) ≤ ns → natBit i.val s.dev.gpioIn.toNat = !up → natBit (if up then 0 else 1) (s.dev.edgeCfg i.val) = true →
    s.dev.pageHeld 0xA9 = false → ∃ d, Goes (.gpioEdge i up ns) s d ∧ natBit i.val d.gpioIn.toNat = up ∧
      d.bit Reg.GPIO_EDGE_RAW i.val = true ∧ d.bit (Reg.evtRaw 0xA9) 0 = true) ∧
  -- a level that its filter suppresses changes nothing
  (∀ (s : State) (i : Fin 32) (up : Bool) (ns : Nat), ns < 20 * Machine.fld 15 8 (s.dev.padApplied (Reg.GPIO_CFG i.val)) →
    Goes (.gpioEdge i up ns) s s.dev)

/-! ### Boot, loads and commits (chapters 3 and 5) -/

/-- COMPLETION of BOOT_VERIFY, HOST_BOOT_GO, FLASH_TIMEOUT, FIRMWARE_START_LOAD, LOAD_NEWEST, LOAD_A, LOAD_B, LOAD_SRAM,
LOAD_COMPLETE. -/
def Obligations.BootAndLoadComplete : Prop :=
  -- flash boot with a good signature copies the firmware and starts it
  (∀ s : State, s.dev.flashBooting = true → s.dev.bootHeader.valid = true → s.dev.bootHeader.fwLen ≤ 0x100000 →
    Goes (.bootVerify true) s
      (Dev.firmwareStart 0 (s.dev.setBytes firmwareBase (s.dev.flashBytes s.dev.bootHeader.fw s.dev.bootHeader.fwLen)))) ∧
  -- the host starts what it has placed while the ROM waits for it
  (∀ (s : State) (m : Master) (n : Nat), s.dev.Reaches m Reg.HOST_BOOT → s.dev.fld Reg.SYS_BOOT 3 0 = 3 → s.dev.pageHeld 0x98 = false →
    s.dev.mgmt.halted = false → n ≤ 0x100000 → Goes (.hostBootGo m n true) s (s.dev.firmwareStart 1)) ∧
  -- the flash does not answer for 10 ms: flash boot fails, and a load from a slot ends
  (∀ (s : State) (t : Nat), s.dev.flashBooting = true → s.dev.romAt = some t → t + 4000000 ≤ s.dev.now → Goes .flashTimeout s (s.dev.flashBootFail 2)) ∧
  (∀ (s : State) (l : Load), s.dev.flashBooting = false → s.dev.loader.load = some l → l.source ≠ .sram →
    l.startAt + 4000000 ≤ s.dev.now →
    Goes .flashTimeout s (s.dev.loadEnd l.code 17 0x1FF)) ∧
  -- loads: by Medlar at its start in UNCONFIGURED, and by command outside ARMED and SAFE, with no command in progress
  (∀ s : State, s.dev.medlarUp = true → s.dev.cstate = 0 → s.dev.cfgBusy = false → s.dev.crcBarred .loader 0 = false →
    Goes .firmwareStartLoad s (s.dev.loadNewest (s.dev.fld Reg.CFG_RESULT 31 24))) ∧
  (∀ (s : State) (m : Master), s.dev.Unlocked m Reg.CFG_CMD → s.dev.cfgBusy = false → s.dev.cstate ≤ 1 →
    Goes (.loadNewest m) s (Dev.loadRun 1 (Dev.loadNewest 1) ((s.dev.setKstate 3 0).cfgResult 1 0 0)) ∧
    Goes (.loadA m) s (Dev.loadRun 2 (Dev.loadSlot false 2) ((s.dev.setKstate 3 0).cfgResult 2 0 0)) ∧
    Goes (.loadB m) s (Dev.loadRun 3 (Dev.loadSlot true 3) ((s.dev.setKstate 3 0).cfgResult 3 0 0)) ∧
    Goes (.loadSram m) s (Dev.loadRun 4 (Dev.loadSram 4) ((s.dev.setKstate 3 0).cfgResult 4 0 0))) ∧
  -- in SEALED the triad cores go into reset and the state is LOADED first
  (∀ (s : State) (m : Master), s.dev.Unlocked m Reg.CFG_CMD → s.dev.cfgBusy = false → s.dev.cstate = 2 →
    Goes (.loadSram m) s (Dev.loadRun 4 (Dev.loadSram 4) (Dev.setCstate 1 (Dev.triadHold ((s.dev.setKstate 3 0).cfgResult 4 0 0))))) ∧
  (∀ (s : State) (l : Load), s.dev.loader.load = some l →
    Goes .loadComplete s (Dev.applySections l 0 none (imageSections l.image) s.dev))

/-- COMPLETION of COMMIT, COMMIT_CRC_DONE, ARM, DISARM, ACK_SAFE, BURN_KEY, BURN_SIGREQ. -/
def Obligations.CommitCommandsComplete : Prop :=
  (∀ (s : State) (m : Master), s.dev.Unlocked m Reg.CFG_CMD → s.dev.cfgBusy = false →
    (s.dev.cstate ≠ 0 → Goes (.commit m) s (Dev.commitStart ((s.dev.setKstate 3 0).cfgResult 0x10 0 0))) ∧
    (∀ r, s.dev.armError m r = 0 → Goes (.arm m r) s (Dev.setCstate 3 ((s.dev.setKstate 3 0).cfgResult 0x20 0 0))) ∧
    (s.dev.cstate = 3 → s.dev.deviceOff = true → Goes (.disarm m) s (Dev.setCstate 2 ((s.dev.setKstate 3 0).cfgResult 0x21 0 0))) ∧
    (s.dev.cstate = 4 → s.dev.deviceOff = true → s.dev.demands = 0 → s.dev.faults = 0 →
      Goes (.ackSafe m) s (Dev.setCstate 2 ((s.dev.setKstate 3 0).cfgResult 0x30 0 0))) ∧
    (m = .host → s.dev.cstate = 0 → s.dev.fuses.keyHash = none → s.dev.keyPlaceOk = true → Goes (.burnKey m) s
      (Dev.burnHash (sha256 (s.dev.bytesAt (s.dev.reg Reg.CFG_IMG_ADDR).toNat 64)) ((s.dev.setKstate 3 0).cfgResult 0x40 0 0))) ∧
    (m = .host → s.dev.cstate = 0 → s.dev.fuses.sigRequired = false → s.dev.fuses.keyHash.isSome = true →
      Goes (.burnSigreq m) s (Dev.burnSig ((s.dev.setKstate 3 0).cfgResult 0x41 0 0)))) ∧
  -- the CRC step: a mismatch, a live gate, or the transfer
  (∀ s : State, s.dev.loader.crcStep = true → s.dev.commitCrc ≠ s.dev.reg Reg.CFG_COMMIT_EXP →
    Goes .commitCrcDone s (Dev.commitFail 9 (Dev.setReg Reg.CFG_COMMIT_CALC s.dev.commitCrc
      (Dev.putLoader { s.dev.loader with crcStep := false } s.dev)))) ∧
  (∀ s : State, s.dev.loader.crcStep = true → Goes .commitCrcDone s s.dev.commitCrcEnd)

/-! ### Engine instructions (chapters 6 and 7) -/

/-- COMPLETION of FADD, FSUB, FMUL, FMA, FMS, FMIN, FMAX, FABS, FNEG, FCMP, FSEL, CVTFI, CVTIF, DIV, SQRT: the result, its flags, and
the pointer; of MOV, IADD, ISUB, IAND, IOR, ISHL, ISHR, ICMP, NOP, BR, LOOP, CALL, JR, FEND, TIME, ILLEGAL_OPCODE. -/
def Obligations.ArithmeticAndControlComplete : Prop :=
  ∀ (s : State) (e : Fin 12) (f : EngFields) (d : Dev) (a b c i : Word) (n : Nat), d = s.dev.begun f → a = d.v e.val f.a.val →
    b = d.v e.val f.b.val → c = d.v e.val f.c.val → i = d.opBi e.val f →
    n = (if f.m.val = 1 then fld 31 16 f.imm else a.toNat) →
    Runs s e.val 0x01 .dabi f (.fadd e f) (d.Result e.val f (fpAdd a i)) ∧
    Runs s e.val 0x02 .dabi f (.fsub e f) (d.Result e.val f (fpSub a i)) ∧
    Runs s e.val 0x03 .dabi f (.fmul e f) (d.Result e.val f (fpMul a i)) ∧
    Runs s e.val 0x04 .dabic f (.fma e f) (d.Result e.val f (fpFma a i c)) ∧
    Runs s e.val 0x05 .dabic f (.fms e f) (d.Result e.val f (fpFms a i c)) ∧
    Runs s e.val 0x06 .dabi f (.fmin e f) (d.Result e.val f (fpMin a i)) ∧
    Runs s e.val 0x07 .dabi f (.fmax e f) (d.Result e.val f (fpMax a i)) ∧
    Runs s e.val 0x08 .da f (.fabs e f) (d.Result e.val f (fpAbs a)) ∧
    Runs s e.val 0x09 .da f (.fneg e f) (d.Result e.val f (fpNeg a)) ∧
    Runs s e.val 0x0A .cond f (.fcmp e f) (d.Result e.val f (fpCompare f.c.val a i)) ∧
    Runs s e.val 0x0B { d := true, a := true, b := true, cMax := allReg, outs := 1 } f (.fsel e f)
      (d.Result e.val f (plain (if c = 0 then b else a))) ∧
    Runs s e.val 0x0C { Form.da with mMax := 3 } f (.cvtfi e f) (d.Result e.val f (fpToInt f.m.val a)) ∧
    Runs s e.val 0x0D .da f (.cvtif e f) (d.Result e.val f (plain (fpOfInt a))) ∧
    Runs s e.val 0x28 { d := true, a := true, b := true, outs := 1 } f (.div e f) (d.Result e.val f (fpDiv a b)) ∧
    Runs s e.val 0x29 .da f (.sqrt e f) (d.Result e.val f (fpSqrt a)) ∧
    Runs s e.val 0x0E .dbi f (.mov e f) (d.Result e.val f (plain i)) ∧
    Runs s e.val 0x0F .dabi f (.iadd e f) (d.Result e.val f (plain (a + i))) ∧
    Runs s e.val 0x10 .dabi f (.isub e f) (d.Result e.val f (plain (a - i))) ∧
    Runs s e.val 0x11 .dabi f (.iand e f) (d.Result e.val f (plain (a &&& i))) ∧
    Runs s e.val 0x12 .dabi f (.ior e f) (d.Result e.val f (plain (a ||| i))) ∧
    Runs s e.val 0x13 .dabi f (.ishl e f) (d.Result e.val f (plain (a <<< fld 4 0 i))) ∧
    Runs s e.val 0x14 .shiftRight f (.ishr e f) (d.Result e.val f
      (plain (if 2 ≤ f.m.val then a.sshiftRight (fld 4 0 i) else a >>> fld 4 0 i))) ∧
    Runs s e.val 0x15 .cond f (.icmp e f) (d.Result e.val f (plain (word (b2n (condHolds f.c.val (a == i) (a.slt i)))))) ∧
    Runs s e.val 0x00 {} f (.nop e f) (d.advance e.val) ∧
    -- BR: taken as M says of the register, else on
    Runs s e.val 0x1A { a := true, imm := allImm, mMax := 3 } f (.br e f)
      (if branchTaken f.m.val a then d.setPc e.val (fld 11 0 f.imm) else d.advance e.val) ∧
    -- LOOP: a count of 0 skips the body, any other pushes the loop where fewer than four are active
    (n = 0 → Runs s e.val 0x1B { a := true, imm := allImm, mMax := 1 } f (.loop e f) (d.setPc e.val (fld 11 0 f.imm + 1))) ∧
    (n ≠ 0 → (d.engine e.val).loops.length < 4 → Runs s e.val 0x1B { a := true, imm := allImm, mMax := 1 } f (.loop e f)
      ((d.modEngine e.val (fun x => { x with
        loops := { first := (d.pc e.val + 1) % 4096, last := fld 11 0 f.imm, left := n } :: x.loops })).setPc e.val
          ((d.pc e.val + 1) % 4096))) ∧
    Runs s e.val 0x1C { imm := allImm } f (.call e f) ((d.setV e.val 63 (word (d.pc e.val + 1))).setPc e.val (fld 11 0 f.imm)) ∧
    Runs s e.val 0x1D { a := true } f (.jr e f) (d.setPc e.val (fld 11 0 a)) ∧
    Runs s e.val 0x1E {} f (.fend e f)
      ((d.modEngine e.val (fun x => { x with loops := [], fend := true })).setPc e.val (d.pc e.val + 1)) ∧
    Runs s e.val 0x21 { d := true, mMax := 1, outs := 1 } f (.time e f) (d.Result e.val f
      (plain (if f.m.val = 1 then word d.devTime else word (d.sectionCycles e.val)))) ∧
    -- an opcode that R177 does not assign faults the engine
    (∀ op : BitVec 6, s.dev.canIssue e.val = true → illegalOp op.toNat = true → (s.dev.insnAt e.val).op.val = op.toNat →
      Goes (.illegalOpcode e op .ok) s (s.dev.newCycle.engineFault e.val 1))

/-- COMPLETION of LD, LD_DATA_RETURN, ST, POSTED_WRITE_DELIVERY, PUB, RCV, CAP, TRQ, BSW, CWR. -/
def Obligations.MemoryInstructionsComplete : Prop :=
  ∀ (s : State) (e : Fin 12) (f : EngFields) (d : Dev) (a : Nat) (ld st cw : Form), d = s.dev.begun f → a = d.memAddr e.val f →
    ld = { d := true, a := true, imm := allImm, mMax := 1, outs := 1 + f.m.val % 2 } →
    st = { a := true, b := true, imm := allImm, mMax := 1 } → cw = { a := true, imm := allImm, mMax := 1 } →
    -- LD of a word and of a pair of the engine's own TCM, and a load from elsewhere
    (misaligned e.val a f.m.val = false → f.data = .ok →
      (ownTcm e.val a = true → f.m.val = 0 →
        Runs s e.val 0x18 ld f (.ld e f) ((d.setV e.val f.d.val (d.wordAt a)).advance e.val)) ∧
      (ownTcm e.val a = true → f.m.val = 1 → Runs s e.val 0x18 ld f (.ld e f)
        (((d.setV e.val f.d.val (d.wordAt a)).setV e.val (f.d.val + 1) (d.wordAt (a + 4))).advance e.val)) ∧
      (ownTcm e.val a = false → Runs s e.val 0x18 ld f (.ld e f)
        ((d.modEngine e.val (fun x => { x with loadWait := some (f.d, a) })).advance e.val))) ∧
    (∀ r n, (s.dev.engine e.val).loadWait = some (r, n) → (s.dev.engine e.val).queue = [] → Goes (.ldDataReturn e) s
      (((s.dev.busRead (.le e) n 4).2.modEngine e.val (fun x => { x with loadWait := none })).setV e.val r.val
        (s.dev.busRead (.le e) n 4).1)) ∧
    -- ST to the engine's own TCM, and one that joins the queue
    (misaligned e.val a f.m.val = false →
      (ownTcm e.val a = true → f.m.val = 0 → Runs s e.val 0x19 st f (.st e f)
        ((d.setBytes a (wordBytes (d.v e.val f.b.val))).advance e.val)) ∧
      (ownTcm e.val a = false → (d.engine e.val).queue.length < 16 → Runs s e.val 0x19 st f (.st e f)
        ((d.modEngine e.val (fun x => { x with
          queue := x.queue ++ [{ addr := a, data := d.v e.val f.b.val, gen := d.capturedGen e.val a }] })).advance e.val))) ∧
    (∀ p rest, (s.dev.engine e.val).queue = p :: rest → p.gen = none → Goes (.postedWriteDelivery e) s
      (Dev.busWrite (.le e) p.addr 4 p.data (s.dev.modEngine e.val (fun x => { x with queue := rest })))) ∧
    (d.bit (Reg.LE_BR_SLOT e.val (fld 2 0 f.imm)) 8 = true → Runs s e.val 0x1F { a := true, imm := allImm } f (.pub e f)
      ((d.modEngine e.val (fun x => { x with
        slots := vmod {} x.slots (fld 2 0 f.imm) (fun y => { y with pending := some (d.v e.val f.a.val) }) })).advance e.val)) ∧
    (∀ w, w = d.rcvOp e.val (fld 11 8 f.imm) (fld 2 0 f.imm) →
      Runs s e.val 0x20 { d := true, imm := allImm, outs := 1 } f (.rcv e f) ((w.2.setV e.val f.d.val w.1).advance e.val)) ∧
    Runs s e.val 0x22 { a := true, b := true, cMax := allReg, imm := allImm } f (.cap e f) ((d.capOp e.val f).advance e.val) ∧
    Runs s e.val 0x23 { imm := allImm } f (.trq e f)
      ((each (twelve.filter (fun g => bitAt g f.imm && natBit g (d.owned e.val))) (Dev.trip 8) d).advance e.val) ∧
    Runs s e.val 0x24 { imm := allImm } f (.bsw e f) ((d.requestSwap e.val f.imm).advance e.val) ∧
    -- CWR: the word it names, in the bank that R235 leaves it, and its place noted for the cycle (R226)
    (∀ unit inst index active, unit = fld 31 28 f.imm → inst = fld 23 16 f.imm → index = fld 15 8 f.imm → active = (f.m.val == 1) →
      d.coefWriteOk e.val unit inst index active = true → Runs s e.val 0x25 cw f (.cwr e f)
        (((d.coefWrite e.val unit inst index active (d.v e.val f.a.val)).noteCwr e.val
          (d.coefPlace e.val unit inst index active)).advance e.val))

/-- COMPLETION of SINCOS, ATAN2, XFM_CLARKE, XFM_PARK, XFM_INVERSE_PARK, XFM_INVERSE_CLARKE, PI, PR, BIQ, LIM_SCALAR, LIM_CIRCLE, PLL,
OBS, SVM_SVPWM, SVM_SINUSOIDAL, SVM_THREE_LEVEL, SVM_DISCONTINUOUS, DTC, VSM. -/
def Obligations.UnitInstructionsComplete : Prop :=
  ∀ (s : State) (e : Fin 12) (f : EngFields) (d : Dev) (a b c : FpOut) (n : Nat) (xfm : Nat → Nat → Form), d = s.dev.begun f →
    a = rd (d.v e.val f.a.val) → b = rd (d.v e.val f.b.val) → c = rd (d.v e.val f.c.val) → n = fld 3 0 f.imm →
    xfm = (fun mode outs =>
      { d := true, a := true, b := true, cMax := allReg, mMax := 3, outs := outs, modes := 4, mode := mode }) →
    Runs s e.val 0x2A { d := true, a := true, outs := 2 } f (.sincos e f)
      ((d.setOuts e.val f.d.val [a.sin, a.cos]).advance e.val) ∧
    Runs s e.val 0x2B { d := true, a := true, b := true, outs := 2 } f (.atan2 e f) ((d.setOuts e.val f.d.val
      [fpAngle (d.v e.val f.a.val) (d.v e.val f.b.val), fpHypot (d.v e.val f.a.val) (d.v e.val f.b.val)]).advance e.val) ∧
    Runs s e.val 0x2C (xfm 0 2) f (.xfmClarke e f) ((d.setOuts e.val f.d.val (clarke a b c)).advance e.val) ∧
    Runs s e.val 0x2C (xfm 1 2) f (.xfmPark e f) ((d.setOuts e.val f.d.val (park a b c)).advance e.val) ∧
    Runs s e.val 0x2C (xfm 2 2) f (.xfmInversePark e f) ((d.setOuts e.val f.d.val (inversePark a b c)).advance e.val) ∧
    Runs s e.val 0x2C (xfm 3 3) f (.xfmInverseClarke e f)
      ((d.setOuts e.val f.d.val (inverseClarke ⟨fpFlush a.val, a.flags⟩ b)).advance e.val) ∧
    -- the control-law units: equations over operands, coefficients and state of the instance
    RunsUnit s e.val 1 1 0 1 f (.pi e f) (((d.putUnit e.val 1 n f.d.val (piCalc a b f0 (d.coefIn e.val 1 n))).modEngine e.val
      (fun x => { x with piInvoked := x.piInvoked ||| BitVec.ofNat 16 (2 ^ n) })).advance e.val) ∧
    RunsUnit s e.val 2 1 0 1 f (.pr e f) ((d.putUnit e.val 2 n f.d.val (prCalc a b c (d.coefIn e.val 2 n))).advance e.val) ∧
    RunsUnit s e.val 3 1 0 1 f (.biq e f) ((d.putUnit e.val 3 n f.d.val (biqCalc a b c (d.coefIn e.val 3 n))).advance e.val) ∧
    RunsUnit s e.val 4 2 0 1 f (.limScalar e f)
      ((d.putUnit e.val 4 n f.d.val (limScalarCalc a b c (d.coefIn e.val 4 n))).advance e.val) ∧
    (∀ mode o acts p, mode = d.coefWord e.val 4 n 3 true → mode = 0 ∨ mode = 1 →
      o = limCircleOuts a b (d.coefIn e.val 4 n 0) mode 0 0 → acts = (o.1.ne a || o.2.ne b) →
      p = d.putUnit e.val 4 n f.d.val { outs := [o.1, o.2], flags := if acts then [2] else [] } →
      RunsUnit s e.val 4 2 1 2 f (.limCircle e f)
        ((if acts then p.freezePi e.val (p.coefWord e.val 4 n 2 true) else p).advance e.val)) ∧
    RunsUnit s e.val 5 1 0 3 f (.pll e f) ((d.putUnit e.val 5 n f.d.val (pllCalc a b c (d.coefIn e.val 5 n))).advance e.val) ∧
    (f.a.val < 63 → f.b.val < 63 → RunsUnit s e.val 6 1 0 3 f (.obs e f) ((d.putUnit e.val 6 n f.d.val
      (obsCalc a (rd (d.v e.val (f.a.val + 1))) b (rd (d.v e.val (f.b.val + 1))) (d.coefIn e.val 6 n))).advance e.val)) ∧
    RunsUnit s e.val 7 4 0 3 f (.svmSvpwm e f) ((d.putUnit e.val 7 n f.d.val (svmCalc 0 a b c (d.coefIn e.val 7 n))).advance e.val) ∧
    RunsUnit s e.val 7 4 1 3 f (.svmSinusoidal e f)
      ((d.putUnit e.val 7 n f.d.val (svmCalc 1 a b c (d.coefIn e.val 7 n))).advance e.val) ∧
    RunsUnit s e.val 7 4 2 3 f (.svmThreeLevel e f)
      ((d.putUnit e.val 7 n f.d.val (svmCalc 2 a b c (d.coefIn e.val 7 n))).advance e.val) ∧
    RunsUnit s e.val 7 4 3 3 f (.svmDiscontinuous e f)
      ((d.putUnit e.val 7 n f.d.val (svmCalc 3 a b c (d.coefIn e.val 7 n))).advance e.val) ∧
    RunsUnit s e.val 8 1 0 1 f (.dtc e f) ((d.dtcOp e.val n f.d.val a b).advance e.val) ∧
    (f.b.val < 63 → RunsUnit s e.val 9 1 0 3 f (.vsm e f) ((d.putUnit e.val 9 n f.d.val
      (vsmCalc a b (rd (d.v e.val (f.b.val + 1))) (d.coefIn e.val 9 n))).advance e.val))

/-! ### Frames, engine commands and the coefficient store (chapters 6 and 7) -/

/-- COMPLETION of FRAME_START, FRAME_COMPLETE, FRAME_DEADLINE, ENGINE_START, ENGINE_STOP, LE_MBX_POST, CW_DATA_WRITE, CW_DATA_READ,
BANK_REQ. -/
def Obligations.FrameCommandsComplete : Prop :=
  ∀ (s : State) (m : Master) (e : Fin 12) (v : Word) (d : Dev) (a : Word) (unit inst index : Nat) (active same : Bool), d = s.dev →
    a = d.reg (Reg.LE_CW_ADDR e.val) → unit = fld 31 28 a → inst = fld 23 16 a → index = fld 15 8 a → active = bitAt 0 a →
    -- an IDLE engine starts the frame of its sample event at its instant; a section that is done ends; a frame still running at its
    -- deadline overruns
    (d.estate e.val = 2 → (d.engine e.val).trigger ≠ 0 → (d.engine e.val).frameAt = d.now → d.pageHeld (0x10 + e.val) = false →
      Goes (.frameStart e) s (d.frameStart e)) ∧
    (d.sectionDone e.val = true → (d.engine e.val).inInit = true →
      Goes (.frameComplete e) s (((d.dropPending e.val).modEngine e.val (fun x => { x with wdtUs := 0 })).sectionEnd e.val)) ∧
    (d.sectionDone e.val = true → (d.engine e.val).inInit = false → d.now ≤ (d.engine e.val).deadline →
      Goes (.frameComplete e) s (d.frameDone e.val)) ∧
    (d.inFrame e.val = true → (d.engine e.val).overran = false → (d.engine e.val).deadline ≤ d.now →
      Goes (.frameDeadline e) s (d.frameOverrun e.val)) ∧
    -- START at HALTED with EN = 1; STOP in IDLE and in a section, no owned group barring it
    (d.Reaches m (Reg.LE_CMD e.val) → d.estate e.val = 0 → d.bit (Reg.LE_CTRL e.val) 0 = true →
      Goes (.engineStart m e) s (d.enterInitSection e.val)) ∧
    (d.Reaches m (Reg.LE_CMD e.val) → twelve.any (fun g => natBit g (d.owned e.val) && d.barsStop g) = false →
      (d.estate e.val = 2 → Goes (.engineStop m e) s (d.enterHalted e.val)) ∧
      (d.estate e.val = 1 ∨ d.estate e.val = 3 → Goes (.engineStop m e) s ((d.setEstate e.val 4).dropEvents e.val))) ∧
    -- a post with POST = 1 while no message waits
    (d.Reaches m (Reg.LE_MBX_POST e.val) → d.bit (Reg.LE_MBX_STAT e.val) 0 = false → bitAt 16 v = true →
      Goes (.leMbxPost m e v) s
        ((d.setBit (Reg.LE_MBX_STAT e.val) 0 true).modEngine e.val (fun x => { x with
          mbxGen := fld 15 0 v, mbxTick := d.now }))) ∧
    -- the coefficient window: one word, then INDEX steps as INC says
    (d.Reaches m (Reg.LE_CW_DATA e.val) → d.bit (Reg.LE_CLU_CTRL e.val) 0 = false ∨ d.estate e.val = 0 ∨ d.estate e.val = 5 →
      ∀ b, b = d.enterCycle m same → b.coefWriteOk e.val unit inst index active = true →
      ((e.val, b.coefPlace e.val unit inst index active) ∉ b.cyc.cwr →
        Goes (.cwDataWrite m e v same) s ((b.coefWrite e.val unit inst index active v).cwInc e.val)) ∧
      -- a CWR wrote the word in the same FAB cycle: the write is discarded (R226)
      ((e.val, b.coefPlace e.val unit inst index active) ∈ b.cyc.cwr →
        Goes (.cwDataWrite m e v same) s (((b.discard m (Reg.LE_CW_DATA e.val)).cluFlag e.val 12).cwInc e.val))) ∧
    (d.pageHeld (0x10 + e.val) = false → d.mayRead m (0x10 + e.val) 0x214 = true → coefValid unit inst index = true →
      Goes (.cwDataRead m e .ok) s (Dev.putReadData (d.coefWord e.val unit inst index active) (d.cwInc e.val))) ∧
    (d.Reaches m (Reg.LE_BANK_REQ e.val) → Goes (.bankReq m e v) s (d.requestSwap e.val v))

/-! ### PWM groups (chapter 8) -/

/-- COMPLETION of RELOAD, SNAPSHOT_REPLACE, DUTY_SHADOW_WRITE, EDGE_EVENT, DEAD_TIME_EXPIRY, FORCE_SH_WRITE, COMMUTATION_EVENT. -/
def Obligations.ReloadAndEdgesComplete : Prop :=
  ∀ (s : State) (m : Master) (g : Fin 12) (k : Fin 4) (v : Word) (d : Dev), d = s.dev →
    (d.pageHeld (0x20 + g.val) = false → d.reloadDue g.val = true → d.followStops g.val = false → Goes (.reload g) s (d.reloadGroup g.val)) ∧
    (d.pageHeld (0x20 + g.val) = false → d.reloadDue g.val = true → d.followStops g.val = true →
      Goes (.reload g) s (d.holdTimebase g.val).commitRelease) ∧
    -- 80 ticks after a reload the snapshots change
    ((d.group g.val).winDue = true → (d.group g.val).winAt + 80 = d.now → Goes (.snapshotReplace g) s (d.replaceSnapshots g.val)) ∧
    -- a direct write of a duty shadow leaves the field 24:0 of the value, unless the engine has written it in the same tick; one that
    -- lands in the ticks before a reload is LATE
    (d.Reaches m (Reg.PG_DUTY_SH g.val k.val) → (∀ e, m ≠ .le e) →
      ∀ t, t = (if vget none (d.group g.val).engAt k.val = some d.now then d
          else d.setReg (Reg.PG_DUTY_SH g.val k.val) (v &&& fieldMask 24 0)) →
        (d.group g.val).running = false ∨ (d.group g.val).perStart ≠ d.now →
        (t.reloadAt g.val = none → Goes (.dutyShadowWrite m g k v) s t) ∧
        (∀ r, t.reloadAt g.val = some r → (d.now + 8 < r → Goes (.dutyShadowWrite m g k v) s t) ∧
          (r ≤ d.now + 8 → Goes (.dutyShadowWrite m g k v) s ((t.raise (0x20 + g.val) 0).setReg (Reg.PG_LATE g.val)
            (bitMask 31 ||| place 30 30 (b2n (decide (r ≤ d.now + 1))) ||| place 15 0
              (t.fld (Reg.PG_WIN_CNT g.val) 15 0 + b2n (t.group g.val).winDue + (if r ≤ d.now + 1 then 2 else 1))))))) ∧
    -- the on-interval of a leg's duty begins or ends in this tick, inside the period: the command changes, and where no force rules
    -- the leg its switches with it; so does a forced pulse that ends
    ((d.group g.val).running = true → ∀ iv start p, iv = d.onInterval g.val k.val → start = 32 * (d.group g.val).perStart →
      p = 32 * d.periodLen g.val →
      (∀ u, iv.1 < iv.2 → 0 < iv.1 → u = d.placeEdge g.val (start + iv.1) → u / 32 = d.now →
        ∀ t, t = d.modLeg g.val k.val (fun l => { l with duty := true }) →
          (t.forceOn g.val k.val = false → Goes (.edgeEvent g k true) s (t.settleLegAt g.val u k.val)) ∧
          (t.forceOn g.val k.val = true → Goes (.edgeEvent g k true) s t)) ∧
      (∀ u, iv.1 < iv.2 → iv.2 < p → u = d.placeEdge g.val (start + iv.2) → u / 32 = d.now → d.forceOn g.val k.val = false →
        ∀ t, t = d.modLeg g.val k.val (fun l => { l with duty := false }) → t.forceOn g.val k.val = false →
          Goes (.edgeEvent g k false) s (t.settleLegAt g.val u k.val)) ∧
      (∀ u w, w = d.fld (Reg.PG_FORCE_WIDTH g.val) 23 0 → 0 < w → w < p → d.forceOn g.val k.val = true → iv.2 ≤ iv.1 ∨ p ≤ iv.2 →
        u = d.placeEdge g.val (start + w) → u / 32 = d.now →
        ∀ t, t = d.modLeg g.val k.val (fun l => { l with forced := false }) → t.forceOn g.val k.val = true →
          Goes (.edgeEvent g k false) s (t.settleLegAt g.val u k.val))) ∧
    -- a switch that waits turns on in the tick in which DT has elapsed since the later turn-off of its leg
    (∀ high u, d.deadEnd g.val k.val = some u → d.mayTurnOn g.val k.val high = true → u / 32 = d.now →
      Goes (.deadTimeExpiry g k high) s (d.driveAt g.val k.val high (!high) u)) ∧
    -- FORCE_SH: page unlocked, FORCE_CFG.EN = 1; never by an engine
    (d.Unlocked m (Reg.PG_FORCE_SH g.val) → (∀ e, m ≠ .le e) → d.bit (Reg.PG_FORCE_CFG g.val) 0 = true → Goes (.forceShWrite m g v) s
      ((((d.setKstate (0x20 + g.val) 0).setReg (Reg.PG_FORCE_SH g.val) (v &&& fieldMask 8 0)).modGroup g.val
        (fun x => { x with forceNew := true })).noteLate g.val)) ∧
    (∀ e, d.pageHeld (0x20 + g.val) = false →
      Goes (.forceShWrite (.le e) g v) s (d.discard (.le e) (Reg.PG_FORCE_SH g.val))) ∧
    -- the mask that MCn posted, counted where it differs
    (d.bit (Reg.PG_CMASK_CFG g.val) 0 = true → ∀ w, w = (List.range 4).foldl (fun a k => a + vget 0 (d.mcu g.val).maskOut k * 4 ^ k) 0 →
      (d.fld (Reg.PG_CMASK g.val) 7 0 = w → Goes (.commutationEvent g) s ((d.setFld (Reg.PG_CMASK g.val) 7 0 w).settle g.val)) ∧
      (d.fld (Reg.PG_CMASK g.val) 7 0 ≠ w → Goes (.commutationEvent g) s
        (((d.bumpSat (Reg.PG_CMASK_CNT g.val) 15 0).setFld (Reg.PG_CMASK g.val) 7 0 w).settle g.val)))

/-- COMPLETION of START, STOP, STOP_NOW, GSTART, GSTOP, GROUP_OFF, DL_LOCK, DL_UNLOCK, SYNC_IN_PULSE, SYNC_LOST, SYNC_OUT_PULSE. -/
def Obligations.GroupCommandsComplete : Prop :=
  ∀ (s : State) (m : Master) (g : Fin 12) (v : Word) (n : Nat) (d : Dev), d = s.dev →
    -- an accepted START counts 2 + SETTLE reloads, and Sloe's hold ends; a refused one names its cause
    (d.Reaches m (Reg.PG_CMD g.val) → d.startCause g.val = 0 → Goes (.start m g) s
      ((((d.setReg (Reg.PG_START_RES g.val) (bitMask 31)).modGroup g.val (fun x => { x with
        startLeft := 2 + d.fld (Reg.PG_CARRIER g.val) 15 8, stopAtReload := false, stateSentAt := none })).setGstate g.val 1).holdEnd g.val)) ∧
    (d.Reaches m (Reg.PG_CMD g.val) → ∀ c, c = d.startCause g.val → c ≠ 0 → Goes (.start m g) s
      ((d.setReg (Reg.PG_START_RES g.val) (bitMask 31 ||| place 15 8 c)).raise (0x20 + g.val) (if c = 2 then 2 else 1))) ∧
    -- STOP from RUN lasts to the reload; every other one, and STOP_NOW, ends the commands at once; a trip action whose latch is
    -- clear ends with TRIPPED
    (d.Reaches m (Reg.PG_CMD g.val) → ∀ now c, c = (if now then .stopNow m g else .stop m g) →
      (d.gstate g.val = 1 ∨ d.gstate g.val = 2 → Goes c s (((d.modGroup g.val (fun x => { x with
        stopAtReload := d.gstate g.val == 2 && !now, clearPending := false, stateSentAt := none
        cmdsOffAt := d.now })).setGstate g.val 3).settle g.val)) ∧
      (d.gstate g.val = 4 → ∀ t, t = d.modGroup g.val (fun x => { x with
          stopAtReload := false, clearPending := false, stateSentAt := none, cmdsOffAt := d.now }) →
        (d.latched g.val = true → Goes c s ((t.setGstate g.val 3).settle g.val)) ∧
        (d.latched g.val = false → Goes c s (((t.setFld (Reg.PG_TRIP_ACT g.val) 17 16 0).setGstate g.val 3).settle g.val))) ∧
      (d.gstate g.val = 0 ∨ d.gstate g.val = 3 → Goes c s (d.raise (0x20 + g.val) 3))) ∧
    -- GSTART and GSTOP act on the groups that the mask names, in ascending order
    (d.Reaches m Reg.PWMSYS_GSTART → Goes (.gstart m v) s (each (groupsOf v) Dev.startGroup d)) ∧
    (d.Reaches m Reg.PWMSYS_GSTOP → Goes (.gstop m v) s (each (groupsOf v) (Dev.stopGroup false) d)) ∧
    -- OFF comes in the tick after the commands went off, on a lane 400 ns after a STATE frame has left the balls
    (d.gstate g.val = 3 → (d.group g.val).stopAtReload = false →
      (d.laneGroup g.val = false → (d.group g.val).cmdsOffAt < d.now → Goes (.groupOff g) s (d.setGstate g.val 0)) ∧
      (∀ t, d.laneGroup g.val = true → (d.group g.val).stateSentAt = some t → t + 176 ≤ d.now →
        Goes (.groupOff g) s (d.setGstate g.val 0))) ∧
    (d.groupEn g.val = true → Goes (.dlLock g) s (d.setBit (Reg.PG_STAT g.val) 6 true)) ∧
    (d.bit (Reg.PG_STAT g.val) 6 = true →
      (d.laneGroup g.val = false → Goes (.dlUnlock g) s ((d.setBit (Reg.PG_STAT g.val) 6 false).raise (0x20 + g.val) 5)) ∧
      (d.laneGroup g.val = true → Goes (.dlUnlock g) s (d.setBit (Reg.PG_STAT g.val) 6 false))) ∧
    -- SYNC_IN: the first pulse sets the start of G0; a later one corrects a FOLLOW G0 by at most SLEW and counts toward SYNC_LOCK
    (4 ≤ n → d.groupEn 0 = true → d.syncMode 0 ≠ 0 → (d.group 0).running = false → (d.group 0).starts = [] →
      Goes (.syncInPulse n) s ((d.setStart 0 (d.now + d.syncPhase) 0).modGroup 0 (fun x => { x with pulsed := true, syncLost := false }))) ∧
    (4 ≤ n → d.groupEn 0 = true → d.syncMode 0 = 1 → (d.group 0).running = true →
      ∀ err good, err = d.syncError (d.now + d.syncPhase) →
        good = (if err.natAbs ≤ d.syncSlew then (d.group 0).syncGood + 1 else 0) →
        Goes (.syncInPulse n) s ((((d.modGroup 0 (fun x => { x with
          pulsed := true, syncLost := false, syncGood := good
          corr := if d.upDown 0 then 2 * ((clampInt (-(d.syncSlew : Int)) d.syncSlew err).tdiv 2)
            else clampInt (-(d.syncSlew : Int)) d.syncSlew err })).setFld (Reg.PG_SYNC_ERR 0) 15 0 (unsignedOf 16 err)).setBit
          (Reg.PG_STAT 0) 7 (8 ≤ good)))) ∧
    -- a pulse under 4 ticks is none
    (n < 4 → Goes (.syncInPulse n) s d) ∧
    -- LOSS carriers without a pulse
    (d.syncMode 0 = 1 → (d.group 0).running = true → (d.group 0).syncLost = false →
      max 1 (d.fld Reg.PWMSYS_SYNC_IN 15 8) ≤ (d.group 0).quiet → Goes .syncLost s
        (((d.modGroup 0 (fun x => { x with syncGood := 0, corr := 0, syncLost := true })).setBit (Reg.PG_STAT 0) 7 false).raise 0x20 4)) ∧
    -- the pulse rises ADV ticks before the next carrier start of SEL
    (∀ p, d.bit Reg.PWMSYS_SYNC_OUT 31 = true → d.fld Reg.PWMSYS_SYNC_OUT 19 16 < 12 →
      d.nextStart (d.fld Reg.PWMSYS_SYNC_OUT 19 16) = some p → p.1 = d.now + d.fld Reg.PWMSYS_SYNC_OUT 7 0 →
      Goes .syncOutPulse s (Dev.putSyncOutAt (some d.now) d))

/-! ### Trips and lanes (chapters 9 and 10) -/

/-- COMPLETION of TRIP_NOW, TRIP_CLR, GCLR, TRIP_INPUT, ASC_LOW_SIDE_ON, SLOE_ASC_LOW_SIDE_ON. -/
def Obligations.TripCommandsComplete : Prop :=
  ∀ (s : State) (m : Master) (g : Fin 12) (i : Fin 13) (v : Word) (n : Nat) (d : Dev), d = s.dev →
    (d.Reaches m (Reg.PG_CMD g.val) → Goes (.tripNow m g) s (d.trip 7 g.val)) ∧
    -- a clear that nothing blocks: the latch goes, and TRIPPED waits for its reload, with the instant the lane announces
    (d.Reaches m (Reg.PG_CMD g.val) → d.clearBlock g.val 0 = 0 →
      (d.gstate g.val ≠ 4 → Goes (.tripClr m g) s
        ((((d.setBit (Reg.PG_TRIP_STAT g.val) 31 false).raise (0x20 + g.val) 18).setFld (Reg.PG_TRIP_ACT g.val) 17 16 0).settle g.val)) ∧
      (d.gstate g.val = 4 → ∀ t, t = (d.setBit (Reg.PG_TRIP_STAT g.val) 31 false).raise (0x20 + g.val) 18 →
        Goes (.tripClr m g) s (t.modGroup g.val (fun x => { x with clearPending := true, runAt := 32 * t.nextReload g.val })))) ∧
    -- a clear that something blocks names it
    (d.Reaches m (Reg.PG_CMD g.val) → ∀ b, b = d.clearBlock g.val 0 → b ≠ 0 → Goes (.tripClr m g) s
      ((d.setReg (Reg.PG_CLR_RES g.val) (bitMask 31 ||| word b)).raise (0x20 + g.val) 17)) ∧
    (d.Reaches m Reg.PWMSYS_GCLR → Goes (.gclr m v) s
      (each (groupsOf v) (Dev.clearGroup (d.acceptedClears 12 (v &&& 0xFFF).toNat)) d)) ∧
    -- an input that its filter shows active trips the groups it names, with cause PIN or TRIP_ALL; a level that it leaves trips
    -- none, and one that has not stood for the filter's length is none
    (d.pageHeld 0x2C = false → d.tripFilter i.val ≤ n → natBit i.val d.tripIn.toNat = false →
      ∀ level, level = d.bit (Reg.PWMSYS_TRIP_IN i.val) 31 →
        ∃ t, t = (Dev.putTripIn (d.tripIn ||| BitVec.ofNat 13 (2 ^ i.val)) d).raise 0x2C i.val ∧
          (i.val = 12 → Goes (.tripInput i level n) s (each twelve (Dev.trip 2) t)) ∧
          (i.val < 12 → Goes (.tripInput i level n) s
            (each (twelve.filter (fun h => t.bit (Reg.PWMSYS_TRIP_IN i.val) (16 + h))) (Dev.trip 1) t))) ∧
    (d.pageHeld 0x2C = false → d.tripFilter i.val ≤ n → ∀ level, level ≠ d.bit (Reg.PWMSYS_TRIP_IN i.val) 31 →
      Goes (.tripInput i level n) s (Dev.putTripIn (d.tripIn &&& ~~~ BitVec.ofNat 13 (2 ^ i.val)) d)) ∧
    (∀ level, n < d.tripFilter i.val → Goes (.tripInput i level n) s d) ∧
    -- the ASC low sides turn on DT after the instant from which ASC applies, in Sloe's hold SDT AON cycles after its decision
    (∀ u, u = (d.group g.val).ascAt + d.deadTime g.val → d.tripApplied g.val = 2 → d.sloeHolds g.val = false → u / 32 = d.now →
      Goes (.ascLowSideOn g) s (d.ascOn g.val u)) ∧
    (d.sloeHolds g.val = true → vget 0 d.sloe.holdAt g.val + 10 * d.sdt g.val = d.now →
      Goes (.sloeAscLowSideOn g) s (d.ascOn g.val (32 * d.now)))

/-- COMPLETION of ALIGNMENT_FRAME_SEND, EDGE_FRAME_SEND, EDGE_FRAME_REPEAT, EDGE_SEND_DEADLINE, STATE_FRAME_SEND, MEASUREMENT_START,
PING_SEND. -/
def Obligations.LaneSendsComplete : Prop :=
  ∀ (s : State) (n : Fin 12) (d : Dev) (l : Lane), d = s.dev → l = d.lane n.val →
    -- slot 0 of a cycle carries an alignment frame
    (d.lstate n.val ≠ 0 → d.slotFree n.val true = true → Goes (.alignmentFrameSend n) s
      ((d.sendFrame n.val (d.alignFrame n.val)).modLane n.val (fun x => { x with
        owdSent := if d.lstate n.val = 3 then x.owdSent + 1 else x.owdSent }))) ∧
    -- one or two eligible events leave in a frame with the next sequence number, are counted, and wait to be sent once more
    (∀ es, es = d.edgeEvents n.val → es ≠ [] → es.any (pastDeadline (d.ltime n.val)) = false → d.slotFree n.val false = true →
      ∀ f, f = edgeFrame l.seq es → Goes (.edgeFrameSend n) s
        ((((d.setReg (Reg.FL_EDGE_CNT n.val) (d.reg (Reg.FL_EDGE_CNT n.val) + word es.length)).sendFrame n.val f).laneBusy n.val).modLane
          n.val (fun x => { x with
            seq := (x.seq + 1) % 32, inSlot := some (f, es), repeats := x.repeats ++ [(repeatOf f, es)]
            events := x.events.filter (fun e => !es.contains e)
            ahead := x.ahead ++ es.filter (fun e => !x.events.contains e) }))) ∧
    (∀ f rest, d.repeatsLeft n.val = f :: rest → d.edgeEvents n.val = [] → d.slotFree n.val false = true →
      Goes (.edgeFrameRepeat n) s (((d.sendFrame n.val f.1).laneBusy n.val).modLane n.val (fun x => { x with
        inSlot := some f, repeats := rest }))) ∧
    -- an event that could not start by its deadline loses the lane
    (d.edgesFlow n.val = true → (d.edgeEvents n.val).any (pastDeadline (d.ltime n.val)) = true →
      Goes (.edgeSendDeadline n) s ((d.raise (0x30 + n.val) 4).laneLoss n.val 10)) ∧
    -- a STATE frame, on a lane that is enabled or that Sloe lights; the first since the commands went off is noted
    ((d.lstate n.val ≠ 0 ∨ l.safeTx = true) → d.slotFree n.val false = true → d.edgesIdle n.val = true → d.stateDue n.val = true →
      ∀ t, t = ((d.sendFrame n.val (d.stateFrame n.val)).laneBusy n.val).modLane n.val
          (fun x => { x with stateCycle := some (d.ltick n.val / 1024) }) →
        (d.gstate n.val ≠ 3 → Goes (.stateFrameSend n) s t) ∧
        (d.gstate n.val = 3 → (d.group n.val).stopAtReload = false → (d.group n.val).stateSentAt = none →
          Goes (.stateFrameSend n) s (t.modGroup n.val (fun x => { x with stateSentAt := some d.now })))) ∧
    (2 ≤ d.lstate n.val → l.measuring = false → l.measAt = none ∨ (∃ t, l.measAt = some t ∧ t + 4000000 ≤ d.now) →
      Goes (.measurementStart n) s (d.modLane n.val (fun x => { x with
        measuring := true, pings := 0, rtts := [], pingOut := false, measAt := some d.now }))) ∧
    (l.measuring = true → l.pings < 8 → l.pingOut = false → (∀ t, l.pingAt = some t → t / 1024 ≠ d.ltick n.val / 1024) →
      d.lstate n.val ≠ 4 ∨ d.laneMode n.val < 2 → l.stateCycle = some (d.ltick n.val / 1024) → d.slotFree n.val false = true →
      d.edgesIdle n.val = true → Goes (.pingSend n) s
        ((d.sendFrame n.val (linkFrame 0x80 (bytesOfNatBE 3 (d.ltime n.val) ++ [BitVec.ofNat 8 l.pid] ++ [0, 0, 0, 0]))).modLane n.val
          (fun x => { x with pings := x.pings + 1, pingOut := true, pingAt := some (d.ltick n.val) })))

/-- COMPLETION of PING_REPLY_RECEIVE, PING_REPLY_TIMEOUT, UPSTREAM_ALIGNMENT_RECEIVE, UPSTREAM_STATE_RECEIVE, TELE_FRAME_RECEIVE,
INVALID_FRAME_RECEIVE, LANE_SILENCE, STATE_FRAME_TIMEOUT, ALIGNMENT_MISSED. -/
def Obligations.LaneReceivesComplete : Prop :=
  ∀ (s : State) (n : Fin 12) (f : List Byte) (d : Dev) (l : Lane), d = s.dev → l = d.lane n.val → d.lstate n.val ≠ 0 →
    -- a reply to the ping that is out, within 4 slots of it, adds T4 + 2^25 − T1 − TA modulo 2^24
    (∀ tap : Fin 32, ∀ t4, t4 = d.ltime n.val - 512 + tap.val → frameType f = some 2 → l.measuring = true → l.pingOut = true →
      (∃ t, l.pingAt = some t ∧ t4 ≤ 32 * (t + 64)) → (nth 0 f 4).toNat = l.pid →
      ∀ rtts t, rtts = l.rtts ++ [(t4 + 2 * 2 ^ 24 - natOfBytesBE ((f.drop 1).take 3) - natOfBytesBE ((f.drop 5).take 3)) % 2 ^ 24] →
        t = (d.validUp n.val).modLane n.val (fun x => { x with rtts := rtts, pingOut := false, pid := (x.pid + 1) % 256 }) →
        (rtts.length < 8 → Goes (.pingReplyReceive n f tap) s t) ∧
        -- the eighth ends the measurement: accepted with a spread of at most 8 units
        (∀ w, 8 ≤ rtts.length → w = rtts.foldl max 0 - rtts.foldl min (2 ^ 24) →
          (w ≤ 8 → Goes (.pingReplyReceive n f tap) s (t.measureAccepted n.val rtts w)) ∧
          (8 < w → Goes (.pingReplyReceive n f tap) s ((t.setFld (Reg.FL_MEAS n.val) 23 16 (min w 255)).measureRejected n.val)))) ∧
    (∀ t, l.measuring = true → l.pingOut = true → l.pingAt = some t → t + 80 < d.ltick n.val → Goes (.pingReplyTimeout n) s
      ((d.modLane n.val (fun x => { x with pid := (x.pid + 1) % 256 })).measureRejected n.val)) ∧
    -- a good alignment frame is recorded; the fourth in a row ends TRAIN
    (f.length = 10 → nth 0 f 0 = commaByte → crcByte8 ((f.drop 1).take 8) = nth 0 f 9 →
      ∃ t, t = ((d.setReg (Reg.FL_FE_ID n.val) (place 31 16 (natOfBytesBE ((f.drop 1).take 2)) |||
          place 15 8 (nth 0 f 3).toNat ||| place 3 0 (nth 0 f 4).toNat)).validUp n.val).modLane n.val
            (fun x => { x with missed := 0, aligned := x.aligned + 1, alignRx := some d.now }) ∧
        (t.lstate n.val ≠ 1 ∨ (t.lane n.val).aligned < 4 → Goes (.upstreamAlignmentReceive n f) s t) ∧
        (t.lstate n.val = 1 → 4 ≤ (t.lane n.val).aligned → Goes (.upstreamAlignmentReceive n f) s
          ((t.setFld (Reg.FL_STAT n.val) 2 0 2).modLane n.val (fun x => { x with rejects := 0, stateRx := some d.now })))) ∧
    -- a STATE frame: the far end's state, its error count, its fault; LOSS, and TRIPPED that nothing here explains, lose the lane, and
    -- RUN readies a lane in SYNC that has sent two alignment frames
    (frameType f = some 1 → ∀ b fe, b = (nth 0 f 1).toNat → fe = b / 32 →
      ∃ t u, t = (((d.validUp n.val).modLane n.val (fun x => { x with stateRx := some d.now })).setFld (Reg.FL_STAT n.val) 10 8 fe).setFld
          (Reg.FL_ERR_CNT n.val) 31 16 (natOfBytesBE ((f.drop 2).take 2)) ∧
        u = (if b / 4 % 8 = 0 then t else t.raise (0x30 + n.val) 3) ∧
        (fe = 4 → Goes (.upstreamStateReceive n f) s (u.laneLoss n.val 5)) ∧
        (fe = 3 → u.latched n.val = false → u.sloeHolds n.val = false → Goes (.upstreamStateReceive n f) s (u.laneLoss n.val 6)) ∧
        (fe = 2 → u.lstate n.val = 3 → 2 ≤ (u.lane n.val).owdSent →
          Goes (.upstreamStateReceive n f) s ((u.setFld (Reg.FL_STAT n.val) 2 0 4).raise (0x30 + n.val) 1)) ∧
        (fe < 2 ∨ 4 < fe ∨ (fe = 3 ∧ (u.latched n.val = true ∨ u.sloeHolds n.val = true)) ∨
          (fe = 2 ∧ (u.lstate n.val ≠ 3 ∨ (u.lane n.val).owdSent < 2)) → Goes (.upstreamStateReceive n f) s u)) ∧
    -- a TELE frame: delays and figures of the leg; a fault of a lane group's leg trips it
    (frameType f = some 3 → ∀ b k, b = (nth 0 f 1).toNat → k = b / 64 →
      ∃ key ton toff v t u, key = (if natBit 5 b then Reg.FL_DLY_L n.val k else Reg.FL_DLY_H n.val k) ∧
        ton = natOfBytesBE ((f.drop 2).take 2) ∧ toff = natOfBytesBE ((f.drop 4).take 2) ∧
        v = (d.validUp n.val).laneBusy n.val ∧
        t = v.setReg key (place 31 16 (keepDelay toff (v.fld key 31 16)) ||| place 15 0 (keepDelay ton (v.fld key 15 0))) ∧
        u = t.setReg (Reg.FL_FE_LEG n.val k) (place 31 24 (nth 0 f 7).toNat ||| place 23 16 (nth 0 f 6).toNat |||
          place 15 8 (if ton = 0xFFFF ∧ toff = 0xFFFF then t.fld (Reg.FL_FE_LEG n.val k) 15 8 else 0) |||
          place 1 1 (b2n (natBit 3 b)) ||| place 0 0 (b2n (natBit 4 b))) ∧
        ((natBit 3 b = false ∧ natBit 4 b = false) ∨ u.laneGroup n.val = false → Goes (.teleFrameReceive n f) s u) ∧
        (natBit 3 b = true ∨ natBit 4 b = true → u.laneGroup n.val = true → Goes (.teleFrameReceive n f) s (u.trip 5 n.val))) ∧
    (Goes (.invalidFrameReceive n false) s (d.invalidUp n.val false) ∧ Goes (.invalidFrameReceive n true) s (d.invalidUp n.val true)) ∧
    (l.rxAt + 80 ≤ d.now → Goes (.laneSilence n) s (d.laneLoss n.val 1)) ∧
    (∀ t, l.stateRx = some t → t + 2048 ≤ d.now → Goes (.stateFrameTimeout n) s (d.laneLoss n.val 4)) ∧
    -- a cycle without an alignment frame; the second in a row loses the lane
    (∀ t r, l.alignRx = some t → t + 1024 < d.now →
      r = d.modLane n.val (fun x => { x with missed := x.missed + 1, aligned := 0, alignRx := some (t + 1024) }) →
      (l.missed = 0 → Goes (.alignmentMissed n) s r) ∧ (1 ≤ l.missed → Goes (.alignmentMissed n) s (r.laneLoss n.val 2)))

/-! ### Analogue acquisition (chapter 11) -/

/-- COMPLETION of TRIGGER_FIRE, GRID_CONVERSION, CONVERSION_SAMPLE, CONVERSION_RESULT, REF_READY, REF_DROP, TRIM_UPDATE. -/
def Obligations.ConversionCommandsComplete : Prop :=
  ∀ (s : State) (c : Fin 24) (d : Dev) (code : Int), d = s.dev →
    -- an entry that fires is noted, and starts the sequence, or waits for the running one, or is discarded
    (∀ i : Fin 8, d.trigFires c.val i.val = true →
      ∀ t, t = d.modConv c.val (fun x => { x with fired := vset x.fired i.val (some d.now) }) →
        (t.calOn c.val = false → (t.converter c.val).pending = false →
          (t.seqRuns c.val = false → Goes (.triggerFire c i) s (t.startSeq c.val)) ∧
          (t.seqRuns c.val = true → Goes (.triggerFire c i) s (t.modConv c.val (fun x => { x with pending := true })))) ∧
        (t.calOn c.val = true ∨ (t.converter c.val).pending = true → Goes (.triggerFire c i) s
          ((t.raise (0x40 + c.val) 0).bumpSat (Reg.AC_DROP_CNT c.val) 15 0))) ∧
    -- an instant of the grid starts one conversion, which samples 8 ticks after the ADC cycle
    (∀ lead x, d.convLive c.val = true → d.convMode c.val ≠ 0 → d.calOn c.val = false → d.onGrid c.val = true →
      lead = d.convLead c.val → x = { src := 4 * lead, slot := d.reg (Reg.AC_SLOT lead 0), at_ := evenTick d.now + 8 } →
      (d.converter c.val).due.any (fun y => y.at_ == x.at_) = false →
      Goes (.gridConversion c) s (d.modConv c.val (fun v => { v with due := v.due ++ [x] }))) ∧
    -- the sampling instant of a started conversion, and of a calibration step
    (∀ x, d.convLive c.val = true → d.calOn c.val = false → (d.converter c.val).due.find? (fun y => y.at_ == d.now) = some x →
      Goes (.conversionSample c code) s
        ((d.modConv c.val (fun v => { v with due := v.due.filter (fun y => decide (d.now < y.at_)) })).sampleSlot c.val x code)) ∧
    (∀ k i : Nat, ∀ r : CalStep, d.convLive c.val = true → d.calOn c.val = true → d.cal = some r → k < 4096 → r.n < 4096 →
      r.input = i → r.start + 8 + 40 * k = d.now → d.muxError c.val i = false →
      ∀ t v, t = d.bumpWrap (Reg.AC_CONV_CNT c.val) 31 0 → v = t.codeOf i code →
        (t.refReady (c.val / 12) = false → Goes (.conversionSample c code) s (t.refMissing c.val)) ∧
        (t.refReady (c.val / 12) = true → t.endCode i v = true → Goes (.conversionSample c code) s (t.calEnd.calFail 6)) ∧
        (t.refReady (c.val / 12) = true → t.endCode i v = false → Goes (.conversionSample c code) s
          (Dev.putCal (some { r with n := r.n + 1, sum := r.sum + 256 * v }) t))) ∧
    -- a result, 52 ticks after its sampling instant, enters the windows that were open then; the odd half of a pair corrected
    (∀ r, (d.converter c.val).pipeline.find? (fun q => q.at_ + 52 == d.now) = some r →
      ∀ x t, x = (if r.pair && c.val % 2 == 1 then (d.trim (c.val / 2)).correct r.code else 256 * r.code) →
        t = d.modConv c.val (fun v => { v with pipeline := v.pipeline.filter (fun q => decide (r.at_ < q.at_)) }) →
        Goes (.conversionResult c) s (each r.mmxNo (fun p => Dev.enterMmx p.1 p.2 r.at_ (Window.take x r.clip))
          (each r.accNo (fun p => Dev.enterAcc p.1 p.2 (Window.take x r.clip))
            (if r.pair then t.modTrim (c.val / 2) (TrimPair.gather (c.val % 2 == 1) r.code) else t)))) ∧
    -- a reference buffer is ready 400 000 ADC cycles after its enable; its comparators follow it
    (∀ h : Fin 2, d.bit Reg.ADCSYS_REF h.val = true → d.pageHeld 0x58 = false → vget 0 d.acq.refAt h.val + 800000 ≤ d.now →
      Goes (.refReady h) s
        (each ((List.range 32).map (fun i => 32 * h.val + i)) Dev.cmpSettle (d.setBit Reg.ADCSYS_STAT h.val true))) ∧
    (∀ h : Fin 2, d.refReady h.val = true → Goes (.refDrop h) s
      (each ((List.range 32).map (fun i => 32 * h.val + i)) Dev.cmpSettle ((d.setBit Reg.ADCSYS_STAT h.val false).raise 0x58 h.val))) ∧
    -- the pairs whose interval of 40 000 000 ticks ends take their estimate
    Goes .trimUpdate s (each (twelve.filter (fun k => d.interleaving k && (d.trim k).since + 40000000 == d.now))
      (fun k x => x.modTrim k (fun t => { t with
        since := x.now, next := if t.nE = 0 ∨ t.nO = 0 then t.next else some t.estimate
        nE := 0, sumE := 0, sqE := 0, nO := 0, sumO := 0, sqO := 0 })) d)

/-- COMPLETION of CAL_ZERO, CAL_FULL, CAL_CALC, CAL_ABORT, CAL_STEP_DONE, SD_OUTPUT, SD_FAST_FILTER_DECISION, MOD_FAULT,
COMPARATOR_CROSSING. -/
def Obligations.CalibrationAndFiltersComplete : Prop :=
  ∀ (s : State) (m : Master) (v : Word) (d : Dev) (i k : Nat), d = s.dev → i = fld 22 16 v → k = fld 12 8 v →
    (d.Reaches m Reg.ADCSYS_CAL_CMD → d.calError 1 i k = 0 →
      Goes (.calZero m v) s ((d.setFld Reg.ADCSYS_CAL_STAT 31 24 0).calStart false i k)) ∧
    (d.Reaches m Reg.ADCSYS_CAL_CMD → d.calError 2 i k = 0 →
      Goes (.calFull m v) s ((d.setFld Reg.ADCSYS_CAL_STAT 31 24 0).calStart true i k)) ∧
    (d.Reaches m Reg.ADCSYS_CAL_CMD → d.calError 3 i k = 0 →
      Goes (.calCalc m v) s ((d.setFld Reg.ADCSYS_CAL_STAT 31 24 0).calCalc i)) ∧
    (d.Reaches m Reg.ADCSYS_CAL_CMD → d.calError 4 i k = 0 → d.cal.isSome = true → Goes (.calAbort m v) s
      ((d.setFld Reg.ADCSYS_CAL_STAT 31 24 0).calEnd.calFail 9)) ∧
    -- a refused command leaves its error
    (d.Reaches m Reg.ADCSYS_CAL_CMD → ∀ e, e ≠ 0 →
      (e = d.calError 1 i k → Goes (.calZero m v) s (d.calFail e)) ∧ (e = d.calError 2 i k → Goes (.calFull m v) s (d.calFail e)) ∧
      (e = d.calError 3 i k → Goes (.calCalc m v) s (d.calFail e)) ∧ (e = d.calError 4 i k → Goes (.calAbort m v) s (d.calFail e))) ∧
    -- the mean of the 4096 values of a step
    (∀ x, d.cal = some x → 4096 ≤ x.n → Goes .calStepDone s
      ((((d.calEnd.setReg (if x.full then Reg.ADCSYS_CAL_MF else Reg.ADCSYS_CAL_MZ)
        (fpOfRatio x.sum (4096 * 256))).setFld Reg.ADCSYS_CAL_STAT 6 0 x.input).setBit Reg.ADCSYS_CAL_STAT
          (if x.full then 17 else 16) true).raise 0x58 3)) ∧
    -- the levels of the data input at the channel's sampling instants enter it, the last of them now: with it a decimation cycle ends,
    -- the fast filter decides anew, or MOD_FAULT changes
    (∀ (c : Fin 24) (bits : List Bool) (j : Nat), d.sdOn c.val = true → d.sdClocked c.val = true → bits ≠ [] →
      j = d.sdIndex c.val (d.sdChan c.val).fromT → bits.length = d.sdIndex c.val (d.now + 1) - j →
      d.sdEdge c.val (j + bits.length - 1) + d.sdDelay c.val = d.now →
      ∀ t, t = (Dev.sdBits c.val j bits d).modSd c.val (fun x => { x with fromT := d.now + 1 }) →
        ((t.sdChan c.val).phase = 0 → Goes (.sdOutput c bits) s t) ∧
        ((t.sdChan c.val).own ≠ (d.sdChan c.val).own → Goes (.sdFastFilterDecision c bits) s t) ∧
        (t.sdFault c.val ≠ d.sdFault c.val → Goes (.modFault c bits) s t)) ∧
    -- a comparator's input takes a level, or none and its filter has run
    (∀ (j : Fin 64) (x : Int), Goes (.comparatorCrossing j (some x)) s
      ((Dev.putCmps (vset d.cmps j.val { d.cmpRaw j.val with x := some x }) d).cmpSettle j.val)) ∧
    (∀ j : Fin 64, Goes (.comparatorCrossing j none) s (d.cmpSettle j.val))

/-! ### Position feedback and machine control (chapters 12 and 13) -/

/-- COMPLETION of ABZ_EDGE, INDEX, ZHOME, HALL_CHANGE, SPEED_WINDOW_CLOSE, STANDSTILL_TIMEOUT, EMULATOR_EDGE, CMP_POS_WRITE,
CMP_PULSE_END. -/
def Obligations.PositionCommandsComplete : Prop :=
  ∀ (s : State) (m : Master) (n : Fin 8) (a b : Bool) (ns : Nat) (v : Word) (d : Dev) (p : PosUnit), d = s.dev → p = d.pf n.val →
    -- an edge of A or B that its filter takes steps POS and REV, and what hangs on the position follows; A and B together are an error;
    -- a pulse that the filter drops reaches Sloe's own source at most
    (∀ u, u = d.sloeLevels n.val a b ns → u.filtered (Reg.PAD_GRP n.val) ns = true →
      (∀ fwd, (u.abzLevels n.val a b).1 = some fwd → ∃ t old st, t = (u.abzLevels n.val a b).2 ∧
        old = (t.reg (Reg.PF_POS n.val)).toNat ∧ st = stepPos (t.cpr n.val) old (t.fld (Reg.PF_REV n.val) 15 0) fwd ∧
        Goes (.abzEdge n a b ns) s ((((((t.setReg (Reg.PF_POS n.val) (word st.1)).setFld (Reg.PF_REV n.val) 15 0 st.2).modPf n.val
          (fun x => { x with lastAbz := some (t.now, !fwd) })).speedEdge n.val 0 (if fwd then 1 else -1)).cmpStep n.val 0 old 1
            (!fwd)).emuFollow n.val)) ∧
      (u.pfUnit n.val (Reg.PF_ABZ_CFG n.val) = true → (u.pf n.val).a = !a → (u.pf n.val).b = !b → Goes (.abzEdge n a b ns) s
        (((u.modPf n.val (fun x => { x with a := a, b := b })).raise (0x68 + n.val) 0).bumpSat (Reg.PF_QERR_CNT n.val) 15 0))) ∧
    (∀ u, u = d.sloeLevels n.val a b ns → u.filtered (Reg.PAD_GRP n.val) ns = false →
      Goes (.abzEdge n a b ns) s u ∧ Goes (.index n a b ns) s u) ∧
    -- an index without an edge: the event, the latch of POS unless it only counts, and in mode 3 a reset to ZPOS
    (∀ u mode, u = d.sloeLevels n.val a b ns → u.filtered (Reg.PAD_GRP n.val) ns = true → (u.pf n.val).a = a → (u.pf n.val).b = b →
      u.pfUnit n.val (Reg.PF_ABZ_CFG n.val) = true → u.bit (Reg.PF_ABZ_CFG n.val) 27 = false →
      mode = u.fld (Reg.PF_ABZ_CFG n.val) 29 28 →
      ∃ t x, t = (u.modPf n.val (fun x => { x with a := a, b := b })).raise (0x68 + n.val) 11 ∧
        x = t.setReg (Reg.PF_ZLATCH n.val) (word (u.reg (Reg.PF_POS n.val)).toNat) ∧
        (mode = 0 → Goes (.index n a b ns) s (t.emuFollow n.val)) ∧
        (mode = 1 → Goes (.index n a b ns) s (x.emuFollow n.val)) ∧
        (mode = 3 → Goes (.index n a b ns) s
          ((x.setReg (Reg.PF_POS n.val) (word (x.fld (Reg.PF_ZPOS n.val) 23 0))).emuFollow n.val))) ∧
    (d.Reaches m (Reg.PF_ABZ_CMD n.val) → Goes (.zhome m n) s (d.setBit (Reg.PF_ABZ_CMD n.val) 0 true)) ∧
    -- a change of the Hall code reaches the decoder
    (∀ (code : Fin 8) u, u = d.sloeCode n.val code.val ns → (u.pf n.val).hall ≠ code.val → u.filtered (Reg.PAD_GRP n.val) ns = true →
      u.pfUnit n.val (Reg.PF_HALL_CFG n.val) = true →
      Goes (.hallChange n code ns) s ((u.modPf n.val (fun x => { x with hall := code.val })).hallOp n.val code.val)) ∧
    -- a window closes at its end: its count, shown with SPD_SCALE where the unit runs, and the next window
    (d.pfUnit n.val (Reg.PF_SPD_CFG n.val) = true → p.winEnd = d.now →
      ∀ c runs rev t u, c = clampInt (-8388607) 8388607 p.count.net →
        runs = (d.spdState n.val == 0 || d.spdState n.val == 3 || (d.spdState n.val == 2 && p.winFresh)) →
        rev = (runs && p.count.fwd && p.count.bwd) →
        t = ((((d.modPf n.val (fun x => { x with
          count := p.next, next := {}, winAt := d.now, winEnd := d.now + 400 * d.spdWin_ n.val, winFresh := true })).setFld
          (Reg.PF_SPD_STAT n.val) 23 0 (unsignedOf 24 c)).bumpWrap (Reg.PF_SPD_WINS n.val) 31 0).setBit (Reg.PF_SPD_STAT n.val) 29 rev) →
        u = (if rev then t.raise (0x68 + n.val) 10 else t) →
        (runs = false → Goes (.speedWindowClose n) s u) ∧
        (runs = true → Goes (.speedWindowClose n) s
          (u.showSpeed n.val 3 (fpMul (fpOfIntZ c) (u.reg (Reg.PF_SPD_SCALE n.val))).val))) ∧
    (d.pfUnit n.val (Reg.PF_SPD_CFG n.val) = true → d.spdState n.val ≠ 1 → p.stillAt = d.now →
      Goes (.standstillTimeout n) s (((d.modPf n.val (fun x => { x with undo := some {
        cycle := d.fbk, state := d.spdState n.val, speed := d.reg (Reg.PF_SPEED n.val)
        event := d.bit (Reg.evtRaw (0x68 + n.val)) 9 } })).showSpeed n.val 1 0).raise (0x68 + n.val) 9)) ∧
    -- the emulated count goes one state the shorter way
    (d.pfUnit n.val (Reg.PF_EMU_CFG n.val) = true → d.emuValid n.val = true → d.emuDue n.val ≤ d.now →
      ∀ k c : Nat, ∀ t, k = d.emuStates n.val → c = (d.reg (Reg.PF_EMU_CNT n.val)).toNat % k → 2 * (d.emuDist n.val).natAbs ≠ k →
      t = d.modPf n.val (fun x => { x with emuAt := some d.now }) →
      (0 < d.emuDist n.val → Goes (.emulatorEdge n) s (Dev.emuOne n.val (t.setReg (Reg.PF_EMU_CNT n.val) (word ((c + 1) % k))))) ∧
      (d.emuDist n.val < 0 →
        Goes (.emulatorEdge n) s (Dev.emuOne n.val (t.setReg (Reg.PF_EMU_CNT n.val) (word ((c + k - 1) % k)))))) ∧
    (d.Reaches m (Reg.PF_CMP_POS n.val) → Goes (.cmpPosWrite m n v) s (d.cmpPosOp n.val v)) ∧
    -- a pulse lasts PW cycles of 5 ns
    (p.cmpPulse = true → p.pulseAt + 2 * max 1 (d.fld (Reg.PF_CMP_CFG n.val) 15 0) = d.now →
      Goes (.cmpPulseEnd n) s (d.modPf n.val (fun x => { x with cmpOut := false, cmpPulse := false })))

/-- COMPLETION of SERIAL_REQUEST, SER_CMD_REQ, SERIAL_TRANSFER_DONE, SER_TIMEOUT, SERIAL_RECOVERY_DONE. -/
def Obligations.SerialSensorsComplete : Prop :=
  ∀ (s : State) (m : Master) (n : Fin 8) (bits : List Bool) (d : Dev) (p : PosUnit), d = s.dev → p = d.pf n.val →
    -- a request starts a transfer under the settings in force; one during a transfer or its recovery is counted
    (∀ t : Dev, d.serAsked n.val = true → t = d.modPf n.val (fun x => { x with serLast := some d.now }) →
      (p.busy = false → p.recovering = false → Goes (.serialRequest n) s
        ((t.modPf n.val (fun x => { x with
          busy := true, reqTime := t.devTime, reqTick := t.now, serCfg := t.reg (Reg.PF_SER_CFG n.val)
          serTim := t.reg (Reg.PF_SER_TIM n.val) })).setBit (Reg.PF_STAT n.val) 4 true)) ∧
      (p.busy = true ∨ p.recovering = true →
        Goes (.serialRequest n) s ((t.raise (0x68 + n.val) 7).bumpSat (Reg.PF_SER_OVR n.val) 15 0))) ∧
    (d.pfUnit n.val (Reg.PF_SER_CFG n.val) = true → d.serSource n.val = 2 → d.Reaches m (Reg.PF_SER_CMD n.val) →
      (p.busy = false → p.recovering = false → Goes (.serCmdReq m n) s
        ((d.modPf n.val (fun x => { x with
          busy := true, reqTime := d.devTime, reqTick := d.now, serCfg := d.reg (Reg.PF_SER_CFG n.val)
          serTim := d.reg (Reg.PF_SER_TIM n.val) })).setBit (Reg.PF_STAT n.val) 4 true)) ∧
      (p.busy = true ∨ p.recovering = true →
        Goes (.serCmdReq m n) s ((d.raise (0x68 + n.val) 7).bumpSat (Reg.PF_SER_OVR n.val) 15 0))) ∧
    -- a transfer ends with its last bit. BiSS-C: start, CDS, position, nE, nW, check
    (d.pfUnit n.val (Reg.PF_SER_CFG n.val) = true → p.busy = true → p.serEnds d.now = true → bits.length = xferBits p.serCfg →
      ∀ len pos t, len = xferLen p.serCfg → t = d.serEnd n.val →
      (bitAt 30 p.serCfg = true → bits.headD false = true →
        ∀ check, check = bitsMsb (bits.drop (len + 4)) → pos = bitsMsb ((bits.drop 2).take len) →
        (check = bissCrc ((bits.drop 2).take (len + 2)) → bits[len + 2]? = some true → bits[len + 3]? = some true →
          Goes (.serialTransferDone n bits) s (t.serValid n.val pos)) ∧
        (check = bissCrc ((bits.drop 2).take (len + 2)) → bits[len + 2]? = some false → bits[len + 3]? = some true →
          Goes (.serialTransferDone n bits) s ((t.raise (0x68 + n.val) 4).serFail n.val)) ∧
        (check ≠ bissCrc ((bits.drop 2).take (len + 2)) → bits[len + 2]? = some true → bits[len + 3]? = some true →
          Goes (.serialTransferDone n bits) s ((t.raise (0x68 + n.val) 3).serFail n.val))) ∧
      -- SSI without an error bit
      (bitAt 30 p.serCfg = false → bitAt 28 p.serCfg = false →
        pos = (if bitAt 29 p.serCfg then grayToBin 32 (bitsMsb (bits.take len)) else bitsMsb (bits.take len)) →
        Goes (.serialTransferDone n bits) s (t.serValid n.val pos))) ∧
    -- TIMEOUT µs after the first edge of MA
    (d.pfUnit n.val (Reg.PF_SER_CFG n.val) = true → p.busy = true → p.serLimit = d.now → bitAt 30 p.serCfg = true ∨ d.now < p.lastBit →
      Goes (.serTimeout n) s (((d.serEnd n.val).raise (0x68 + n.val) 6).serFail n.val)) ∧
    (p.recovering = true → p.serEndAt + 400 * max 1 (d.fld (Reg.PF_SER_TIM n.val) 23 16) ≤ d.now → Goes (.serialRecoveryDone n) s
      ((d.modPf n.val (fun x => { x with recovering := false })).setBit (Reg.PF_STAT n.val) 4 false))

/-- COMPLETION of MC_RUN, MC_STOP, RESET_FAULT, OBS_REPORT, OBS_REPORT_TIMEOUT, ZERO_CROSSING, ROW_CHANGE, ZC_MISS, FORCED_STEP,
CMDIN_CYCLE, CMDIN_TIMEOUT. -/
def Obligations.MachineControlComplete : Prop :=
  ∀ (s : State) (m : Master) (n : Fin 12) (v : Word) (d : Dev) (u : McUnit), d = s.dev → u = d.mcu n.val →
    -- RUN of an idle unit whose group has started; STOP of a driven one; RESET_FAULT in LOCKOUT without MC_ASC
    (d.Reaches m (Reg.MC_CMD n.val) → d.mstate n.val = 0 ∨ d.mstate n.val = 7 →
      (d.gstate n.val = 1 ∨ d.gstate n.val = 2 → d.mcOn n.val = true → d.bit (Reg.PG_CMASK_CFG n.val) 0 = true →
        Goes (.mcRun m n) s ((d.mcResult n.val 1 0).runStart n.val)) ∧
      (d.gstate n.val = 3 → Goes (.mcRun m n) s (d.mcResult n.val 1 2)) ∧
      (d.gstate n.val = 0 ∨ d.gstate n.val = 4 → Goes (.mcRun m n) s (d.mcResult n.val 1 1))) ∧
    (d.Reaches m (Reg.MC_CMD n.val) →
      (d.mstate n.val = 2 ∨ d.mstate n.val = 3 → Goes (.mcStop m n) s ((d.mcResult n.val 2 0).setMstate n.val 4)) ∧
      (d.mstate n.val = 1 ∨ d.mstate n.val = 6 ∨ d.mstate n.val = 7 → Goes (.mcStop m n) s
        ((((d.mcResult n.val 2 0).setMstate n.val 0).mcBlock n.val).modMc n.val (fun x => { x with est := {} }))) ∧
      (d.mstate n.val = 4 → Goes (.mcStop m n) s (d.mcResult n.val 2 0)) ∧
      (d.mstate n.val = 5 → Goes (.mcStop m n) s ((d.mcResult n.val 2 0).setBit (Reg.MC_STAT n.val) 9 true)) ∧
      (d.mstate n.val = 0 ∨ d.mstate n.val = 8 → Goes (.mcStop m n) s (d.mcResult n.val 2 5))) ∧
    (d.Reaches m (Reg.MC_CMD n.val) →
      (d.mstate n.val = 8 → d.bit (Reg.MC_STAT n.val) 11 = false → Goes (.resetFault m n) s
        (((d.mcResult n.val 3 0).setMstate n.val 0).setBit (Reg.MC_STAT n.val) 10 false)) ∧
      (d.mstate n.val ≠ 8 ∨ d.bit (Reg.MC_STAT n.val) 11 = true → Goes (.resetFault m n) s (d.mcResult n.val 3 5))) ∧
    (d.Reaches m (Reg.MC_OBS_CONF n.val) → Goes (.obsReport m n v) s (d.obsReport n.val v)) ∧
    (d.mcJudged n.val = true → d.obsOverdue n.val = true → Goes (.obsReportTimeout n) s (d.rotorLost n.val)) ∧
    -- six-step: a crossing that the row expects, the row that it scheduled at its instant, a miss 2I after the row change, a forced step
    (∀ t, d.mcOn n.val = true → d.mcMode n.val = 3 → u.row ≠ 0 → d.expectedCrossing n.val = some t →
      (d.mstate n.val = 6 → Goes (.zeroCrossing n) s (d.alignCrossing n.val t)) ∧
      (d.mcDriven n.val = true → u.nextRow = none → Goes (.zeroCrossing n) s (d.crossing n.val t))) ∧
    (∀ r, u.nextRow = some r → d.mcDriven n.val = true → u.rowDue = d.now →
      Goes (.rowChange n) s (d.postRow n.val r (d.refBackward n.val))) ∧
    (d.mcDriven n.val = true → d.mcMode n.val = 3 → u.row ≠ 0 → u.nextRow = none → u.rowAt + 2 * u.interval * (u.misses + 1) = d.now →
      ∀ t, t = (d.raise (0x70 + n.val) 3).modMc n.val (fun x => { x with misses := u.misses + 1 }) →
      (u.misses + 1 < max 1 (t.fld (Reg.MC_ZC_TIM n.val) 7 0) → Goes (.zcMiss n) s t) ∧
      (max 1 (t.fld (Reg.MC_ZC_TIM n.val) 7 0) ≤ u.misses + 1 → Goes (.zcMiss n) s (t.rotorLost n.val))) ∧
    (∀ made crossed, d.mcOn n.val = true → d.mstate n.val = 6 → d.forcedDue n.val = true →
      made = (match u.steps with | some k => k + 1 | none => 0) → crossed = u.crossAt.any (fun t => decide (u.rowAt ≤ t)) →
      (made < d.fld (Reg.MC_OBS_CNT n.val) 15 8 → Goes (.forcedStep n) s
        ((d.postRow n.val (nextSector u.row (d.targetBackward n.val)) (d.targetBackward n.val)).modMc n.val
          (fun x => { x with steps := some made, locked := if crossed then u.locked else 0 }))) ∧
      (d.fld (Reg.MC_OBS_CNT n.val) 15 8 ≤ made → Goes (.forcedStep n) s (d.lockout n.val 5))) ∧
    -- command pins: an edge of a digital one, the snapshot of an analog one, a pin without edges for TIMEOUT ms
    (∀ (k : Fin 4) (high ns kind : Nat), d.cmdinKind k.val = some kind →
      (kind = 0 → Goes (.cmdinCycle k high ns) s (d.cmdinAnalog k.val)) ∧
      (kind = 1 ∨ kind = 2 → d.filtered (Reg.PAD_GRP 10) ns = true →
        (d.cmdPin k.val).edges.all (fun t => decide (t < d.now)) = true →
        Goes (.cmdinCycle k high ns) s (d.cmdinEdge k.val high)) ∧
      (kind = 1 ∨ kind = 2 → (d.cmdPin k.val).since + max 1 (d.fld (Reg.MC_CMDIN_CFG 0 k.val) 15 0) * 400000 = d.now →
        Goes (.cmdinTimeout k) s ((d.cmdinLost k.val).modPin k.val (fun x => { x with edges := [] }))))

/-! ### The triad (chapter 14) -/

/-- COMPLETION of TRIAD_TCM_ACCESS, VOTED_STORE, EXCHANGE_DELIVERY, EXCHANGE_TIMEOUT, XLW.MED.S, XLW.MED.U, XFLW.MED, SYNC_POINT,
TRIAD_MBX_POST, MBX_ACK, MBX_OUT_SEQ. -/
def Obligations.TriadCommandsComplete : Prop :=
  ∀ (s : State) (m : Master) (v : Word) (x : Exchange) (d : Dev), d = s.dev →
    -- up to four bytes of a core's own memory, loaded and stored
    (∀ (c : Fin 3) (a : BitVec 32) (n : Nat), d.triadRuns = true → 0 < n → n ≤ 4 → regionOf a.toNat = .triad →
      regionOf (a.toNat + n - 1) = .triad →
      Goes (.triadTcmAccess c a n none 0) s (Dev.putReadData (wordOfBytes (d.copyBytes c.val a.toNat n)) d) ∧
      Goes (.triadTcmAccess c a n (some v) 0) s (d.coreStore c.val a.toNat ((wordBytes v).take n))) ∧
    -- three copies that agree store once; no disagreement is recorded
    (∀ c : StoreCopy, d.triadRuns = true → c.store = true →
      Goes (.votedStore { t0 := c, t1 := c, t2 := c, vaVbDiff := false }) s
        (Dev.votedWrite (voteStore { t0 := c, t1 := c, t2 := c, vaVbDiff := false }) d)) ∧
    -- an exchange with every awaited sample delivers the value of the samples; one that waits in vain marks the silent core and goes
    -- on with two samples that agree
    (∀ (k : LoadKind) (a : BitVec 32) (n : Nat), d.triadRuns = true → exchanged k a.toNat n = true →
      ∀ r, r = d.samples (fun _ => a.toNat) n x →
      (d.exchangeReady x = true → Goes (.exchangeDelivery k a n x) s (r.2.deliver k r.1 x)) ∧
      (∀ y t, x.present = 3 → r.1 = [y, y] → t = (r.2.addSat Reg.TRIAD_XCHG_STAT 31 16 1).markOdd 2 5 → t.triadRuns = true →
        Goes (.exchangeTimeout k a n x) s (t.deliver k [y, y] x))) ∧
    -- the exchange loads: the samples of the cores that do not trap reach the exchange, each at its own address, and every core takes
    -- what is delivered, or its exception; where all trap there is no exchange
    (∀ (rd a : Fin 32) (i : BitVec 12), d.triadRuns = true →
      ([0, 1, 2].all (fun c => (d.core c).traps a.val i) = false → ∀ z r, z = d.loadSamples a.val i x → d.exchangeReady z = true →
        r = d.samples (fun c => ((d.core c).loadAddr a.val i).toNat) 4 z →
        (∀ t, t = r.2.deliver .medianSigned r.1 z → t.triadRuns = true →
          Goes (.xlwMedS rd a i x) s (each [0, 1, 2] (fun c => Dev.modCore c (TriadCore.exchangeLoad false rd.val a.val i
            t.triad.delivered (Config.freeWord t.freeCount))) (t.skipFree 1))) ∧
        (∀ t, t = r.2.deliver .medianUnsigned r.1 z → t.triadRuns = true →
          Goes (.xlwMedU rd a i x) s (each [0, 1, 2] (fun c => Dev.modCore c (TriadCore.exchangeLoad false rd.val a.val i
            t.triad.delivered (Config.freeWord t.freeCount))) (t.skipFree 1))) ∧
        (∀ t, t = r.2.deliver .medianFloat r.1 z → t.triadRuns = true →
          Goes (.xflwMed rd a i x) s (each [0, 1, 2] (fun c => Dev.modCore c (TriadCore.exchangeLoad true rd.val a.val i
            t.triad.delivered (Config.freeWord t.freeCount))) (t.skipFree 1)))) ∧
      ([0, 1, 2].all (fun c => (d.core c).traps a.val i) = true →
        Goes (.xlwMedS rd a i x) s (each [0, 1, 2] (fun c => Dev.modCore c (TriadCore.exchangeLoad false rd.val a.val i
          d.triad.delivered (Config.freeWord (d.skipFree 1).freeCount))) ((d.skipFree 1).skipFree 1)))) ∧
    -- a sync point, each millisecond, at which the voters pass, no copy is odd and the three digests agree: digests and lines start again
    (∀ g va vb, d.triadRuns = true → d.triad.nextSync ≤ d.now → d.voterPasses va = true → d.voterPasses vb = true →
      (∀ c, c < 3 → d.odd c = false ∧ (d.core c).finish = g) →
      ∃ t u, t = ((d.modTriad (fun t => { t with nextSync := t.nextSync + 400000 })).bumpWrap Reg.TRIAD_DIGEST_STAT 31 16).bumpWrap
          Reg.TRIAD_VTEST 31 16 ∧
        u = (((t.setReg (Reg.TRIAD_DIGEST 0) g).setReg (Reg.TRIAD_DIGEST 1) g).setReg (Reg.TRIAD_DIGEST 2) g).setFld
          Reg.TRIAD_DIGEST_STAT 2 0 7 ∧
        Goes (.syncPoint va vb) s (each [0, 1, 2] (fun c => Dev.modCore c (fun k => { k with digest := 0xFFFFFFFF, lines := [] })) u)) ∧
    -- mailboxes: a post with the page's GEN while none waits, the triad's acknowledge, and its outbound sequence
    (d.Reaches m Reg.TRIAD_MBX_POST → d.bit Reg.TRIAD_MBX_STAT 0 = false → bitAt 16 v = true →
      (fld 15 0 v = d.fld (Reg.gen 0x90) 15 0 → Goes (.triadMbxPost m v) s (d.setBit Reg.TRIAD_MBX_STAT 0 true)) ∧
      (fld 15 0 v ≠ d.fld (Reg.gen 0x90) 15 0 → Goes (.triadMbxPost m v) s (d.raise 0x90 30))) ∧
    (d.Reaches .triad Reg.TRIAD_MBX_ACK → d.bit Reg.TRIAD_MBX_STAT 0 = true → bitAt 0 v = true → Goes (.mbxAck .triad v) s
      (((d.setBit Reg.TRIAD_MBX_STAT 0 false).bumpWrap Reg.TRIAD_MBX_STAT 31 16).raise 0x90 8)) ∧
    (d.Reaches .triad Reg.TRIAD_MBX_OUT_SEQ → Goes (.mbxOutSeq .triad v) s
      ((d.setReg Reg.TRIAD_MBX_OUT_SEQ (v &&& 0xFFFF)).raise 0x90 9))

/-! ### Safety (chapter 15) -/

/-- COMPLETION of SAFETY_INPUT_CHANGE, TEST_PULSE, OSSD_TOLERANCE_EXPIRY, DISCREPANCY_TIMEOUT, LOCK_PLAUS_TIMEOUT, RESET_PULSE,
SS1_TIMER_EXPIRY, SPEED_A_WINDOW_CLOSE, SPD_B_WRITE. -/
def Obligations.SafetyInputsComplete : Prop :=
  ∀ (s : State) (i : Fin 16) (k : Fin 8) (v : Word) (d : Dev), d = s.dev →
    -- BALL shows the level; the run state of an enabled input follows what its filter sees once that has stood for FILT
    (∀ (level : Bool) (ns : Nat) (t : Dev) (run : Bool),
      t = (d.setBit Reg.SAFE_SIN_STAT (16 + i.val) level).inputSeen i.val level ns →
      run = (natBit i.val t.sloe.seen.toNat != bitAt 30 (d.act (Reg.SAFE_SIN_CFG i.val))) →
      (bitAt 31 (d.act (Reg.SAFE_SIN_CFG i.val)) = true → run ≠ t.bit Reg.SAFE_SIN_STAT i.val →
        t.sinFilt i.val + vget 0 t.sloe.seenAt i.val ≤ t.now → Goes (.safetyInputChange i level ns) s (t.runChange i.val run)) ∧
      (bitAt 31 (d.act (Reg.SAFE_SIN_CFG i.val)) = false ∨ run = t.bit Reg.SAFE_SIN_STAT i.val ∨
        t.now < t.sinFilt i.val + vget 0 t.sloe.seenAt i.val → Goes (.safetyInputChange i level ns) s t)) ∧
    -- the last quarter of a test pulse
    (∀ (x : Fin 4) p, d.stpPhase x.val d.now = some p → 3 * d.stpWidth ≤ 4 * p → p < d.stpWidth → Goes (.testPulse x) s
      (each ((List.range 16).filter (fun i => bitAt 31 (d.act (Reg.SAFE_SIN_CFG i)) && d.testedBy i == some x.val && d.ballRuns i))
        (fun i d => d.faultSet 1 i) d)) ∧
    (d.ossdTol i.val ≠ 0 → d.bit Reg.SAFE_SIN_STAT i.val = false → vget 0 d.sloe.fallAt i.val + d.ossdTol i.val < d.now →
      Goes (.ossdToleranceExpiry i) s
        (d.modSloe (fun x => { x with evalRun := x.evalRun &&& ~~~ BitVec.ofNat 16 (2 ^ i.val) })).inputsChanged) ∧
    (∀ t, vget none d.sloe.discAt k.val = some t → t + d.discTicks k.val < d.now →
      Goes (.discrepancyTimeout k) s (d.faultSet 0 k.val)) ∧
    (∀ t, vget none d.sloe.lockAt k.val = some t → t + d.discTicks k.val < d.now →
      Goes (.lockPlausTimeout k) s (d.faultSet 2 k.val)) ∧
    -- the trailing edge of a pulse of 100 ms to 5 s clears the functions that it resets and that have not just demanded
    (bitAt 31 (d.act (Reg.SAFE_SIN_CFG i.val)) = true → d.pulseEnds i.val = true → Goes (.resetPulse i) s
      ((each ((List.range 8).filter (fun k => d.actFld (Reg.SAFE_FUNC_A k) 25 24 == 1 &&
        d.actFld (Reg.SAFE_FUNC_B k) 15 12 == i.val && d.clearable k && !d.demandNow k)) Dev.funcClear d).evaluate)) ∧
    (d.bit Reg.SLOE_STAT 19 = true → d.sloe.ss1End = d.now → Goes .ss1TimerExpiry s
      (((((d.setBit Reg.SLOE_STAT 19 false).raise 0x91 5).modSloe (fun x => { x with ss1Done := true })).evaluate).evaluate)) ∧
    -- a window of source A without SLS in force counts and shows; source B is stale from the third window without it
    (bitAt 31 (d.act Reg.SLOE_SPD_A) = true → bitAt 31 (d.act Reg.SAFE_SLS_CFG) = false → d.sloe.winEnd = d.now →
      ∀ t, t = ((d.setReg Reg.SLOE_SPD_A_CNT (word (unsignedOf 24 d.sloe.count))).modSloe (fun x => { x with
        count := 0, winEnd := d.now + 400000 * d.spdWin, spdBWins := x.spdBWins + 1, oneAt := none })).evaluate →
      (t.sloe.spdBWins < 3 → Goes .speedAWindowClose s t) ∧ (3 ≤ t.sloe.spdBWins → Goes .speedAWindowClose s (t.faultSet 6 0))) ∧
    (d.Reaches .triad Reg.SAFE_SPD_B → Goes (.spdBWrite .triad v) s
      ((d.setReg Reg.SAFE_SPD_B v).modSloe (fun x => { x with spdBWins := 0 }))) ∧
    -- any other master's write of source B is discarded
    (∀ m, m ≠ .triad → d.Reaches m Reg.SAFE_SPD_B → Goes (.spdBWrite m v) s (d.discard m Reg.SAFE_SPD_B))

/-- COMPLETION of STO_CLOSE_START, STO_TEST_PHASE_END, STO_FEEDBACK_CHANGE, STO_FEEDBACK_TIMEOUT, STO_AGE_HOUR, TRESP_WRITE,
TPERMIT_WINDOW_EXPIRY, TREQ_WRITE, FAULT_CLEAR. -/
def Obligations.TorqueOffComplete : Prop :=
  ∀ (s : State) (m : Master) (v : Word) (d : Dev), d = s.dev →
    -- the close sequence: a test where one is due, its two phases of TEST_T, and the closing of both switches
    (d.stoState = 0 → d.closeOk = true → d.testMax ≤ d.fld Reg.SLOE_STO_AGE 15 0 →
      Goes .stoCloseStart s ((d.setSto 1 true false).modSloe (fun x => { x with testPhase2 := false }))) ∧
    (d.stoState = 0 → d.closeOk = true → d.fld Reg.SLOE_STO_AGE 15 0 < d.testMax →
      Goes .stoCloseStart s (d.setSto 2 true true).evaluate) ∧
    (d.stoState = 1 → d.sloe.stoAt + 400000 * max 1 (d.actFld Reg.SLOE_STO_CFG 31 24) = d.now →
      (d.feedbackOk = false → Goes .stoTestPhaseEnd s (d.faultSet 3 0)) ∧
      (d.feedbackOk = true → d.sloe.testPhase2 = false → Goes .stoTestPhaseEnd s
        ((d.setSto 1 false true).modSloe (fun x => { x with testPhase2 := true }))) ∧
      (d.feedbackOk = true → d.sloe.testPhase2 = true → Goes .stoTestPhaseEnd s
        (((d.setReg Reg.SLOE_STO_AGE 0).modSloe (fun x => { x with ageAt := d.now })).setSto 2 true true).evaluate)) ∧
    (∀ a b, Goes (.stoFeedbackChange a b) s ((((d.modSloe (fun x => { x with fb0 := a, fb1 := b })).setBit Reg.SLOE_STO 4 a).setBit
      Reg.SLOE_STO 5 b).fbCheck.stoSettle.evaluate)) ∧
    -- a feedback that has disagreed for longer than FB_T, or one that CLOSING or OPENING awaits for FB_T
    (∀ t, d.sloe.fbAt0 = some t ∨ d.sloe.fbAt1 = some t → t + d.fbTicks < d.now → Goes .stoFeedbackTimeout s (d.faultSet 3 0)) ∧
    (d.settleEnds = true → Goes .stoFeedbackTimeout s (d.faultSet 3 0)) ∧
    -- a whole hour since the latest passed test; the one that reaches TEST_MAX while CLOSED is an event
    (d.sloe.ageAt < d.now → (d.now - d.sloe.ageAt) % 1440000000000 = 0 → ∀ t, t = d.bumpSat Reg.SLOE_STO_AGE 15 0 →
      (t.stoState ≠ 3 ∨ d.fld Reg.SLOE_STO_AGE 15 0 + 1 ≠ t.testMax → Goes .stoAgeHour s t) ∧
      (t.stoState = 3 → d.fld Reg.SLOE_STO_AGE 15 0 + 1 = t.testMax → Goes .stoAgeHour s (t.raise 0x91 6))) ∧
    -- the run permit: a correct answer in time steps the challenge, a wrong one and the end of the window set TPERMIT
    (d.Reaches .triad Reg.SLOE_TRESP → d.permitLate = false →
      (fld 15 0 v = 65535 - d.fld Reg.SLOE_TCHAL 15 0 → Goes (.trespWrite .triad v) s
        ((((d.setBit Reg.SLOE_STAT 17 true).setFld Reg.SLOE_TCHAL 15 0 (nextChallenge (d.fld Reg.SLOE_TCHAL 15 0))).modSloe
          (fun x => { x with permitOk := true, tpAt := d.now })).evaluate)) ∧
      (fld 15 0 v ≠ 65535 - d.fld Reg.SLOE_TCHAL 15 0 → Goes (.trespWrite .triad v) s (d.faultSet 4 0))) ∧
    (d.permitLate = true →
      Goes .tpermitWindowExpiry s ((d.modSloe (fun x => { x with permitOk := false })).faultSet 4 0)) ∧
    -- the triad's demand, set and withdrawn
    (d.Reaches .triad Reg.SLOE_TREQ →
      (v &&& 0x30FFF = 0 → (d.setReg Reg.SLOE_TREQ 0).demandNow 10 = false →
        Goes (.treqWrite .triad v) s (((d.setReg Reg.SLOE_TREQ 0).setBit Reg.SLOE_DEMAND 10 false).evaluate)) ∧
      (v &&& 0x30FFF ≠ 0 → Goes (.treqWrite .triad v) s (((d.setReg Reg.SLOE_TREQ (v &&& 0x30FFF)).demandSet 10).evaluate))) ∧
    -- the owner of the session clears one fault latch whose condition is absent
    (∀ b, d.Reaches m Reg.SLOE_FAULT → d.ownsSession m = true → d.sloe.crcRun = false → d.logFull = false → b < 7 → v = word (2 ^ b) →
      natBit b d.faults = true → d.faultAbsent b = true → d.faultNow b = false → ∃ t, t = d.setBit Reg.SLOE_FAULT b false ∧
        Goes (.faultClear m v) s ((t.logEntry (originOf m) 6 (2 ^ b) t.safetyCrc t.safetyCrc).touchSession.evaluate))

/-- COMPLETION of OPEN, CLOSE, SCOMMIT, SAFETY_CRC_DONE, RESET, SESSION_TIMEOUT, PW_LOCK_EXPIRY, LOG_ACK. -/
def Obligations.SafetySessionComplete : Prop :=
  ∀ (s : State) (m : Master) (v : Word) (d : Dev), d = s.dev →
    (d.Unlocked m Reg.SAFE_CMD → ∀ t, t = d.setKstate 0x92 0 → d.sloe.crcRun = false →
      -- OPEN: the password is compared and consumed, the owner recorded, the session logged
      ((m = .host ∨ m = .medlar) → d.sessionOpen = false → d.deviceOff = true → d.cstate ≠ 3 → d.bit Reg.SAFE_STAT 11 = false →
        (d.sloe.pwIn = d.sloe.password.getD 0 → d.logFull = false →
          ∃ u, u = (t.modSloe (fun x => { x with pwIn := 0 })).setFld Reg.SAFE_PW_FAIL 7 0 0 ∧
            Goes (.open_ m) s ((((((u.setBit Reg.SAFE_STAT 8 true).setFld Reg.SAFE_STAT 10 9 (if m = .host then 1 else 2)).raise
              0x92 1).logEntry (originOf m) 8 0 u.safetyCrc u.safetyCrc).safeResult 1 0 0).touchSession.evaluate)) ∧
        (d.sloe.pwIn ≠ d.sloe.password.getD 0 →
          Goes (.open_ m) s (((t.modSloe (fun x => { x with pwIn := 0 })).passwordWrong m).safeResult 1 3 0))) ∧
      (d.ownsSession m = true →
        Goes (.close m) s ((t.closeSession.safeResult 2 0 0).evaluate) ∧
        (d.logFull = false → Goes (.scommit m) s
          ((t.modSloe (fun x => { x with crcRun := true, crcAt := d.now })).safeResult 3 0 0).touchSession) ∧
        (d.logFull = true → Goes (.scommit m) s (t.safeResult 3 8 0))) ∧
      (d.sessionOpen = false → Goes (.close m) s (t.safeResult 2 5 0) ∧ Goes (.scommit m) s (t.safeResult 3 5 0)) ∧
      -- RESET clears the latches that a HOST reset clears, SLS, and EVT where no routed event is pending
      (∃ u w, u = t.safeResult 0x10 0 0 ∧
        w = each ((List.range 8).filter (fun k => 2 ≤ u.actFld (Reg.SAFE_FUNC_A k) 25 24 && u.clearable k && !u.demandNow k))
          Dev.funcClear u ∧
        (allPages.any w.routedToSloe = true → w.demandNow 8 = true → Goes (.safeReset m) s w.evaluate) ∧
        (w.demandNow 8 = false → allPages.any (w.setBit Reg.SLOE_DEMAND 8 false).routedToSloe = true →
          Goes (.safeReset m) s (w.setBit Reg.SLOE_DEMAND 8 false).evaluate))) ∧
    -- within 10 µs the safety CRC ends: the configuration is accepted or not
    (d.sloe.crcRun = true → d.now ≤ d.sloe.crcAt + 4000 → ∀ t r, t = d.modSloe (fun x => { x with crcRun := false }) →
      r = t.safetyCommit (t.reg Reg.SAFE_SCRC_EXP) t.safetyCrc (if t.fld Reg.SAFE_STAT 10 9 = 1 then 1 else 2) 2 3 3 →
      (r.1 = true → Goes .safetyCrcDone s r.2.closeSession.evaluate) ∧ (r.1 = false → Goes .safetyCrcDone s r.2)) ∧
    -- 600 s after the owner's latest write, 60 s after the lock of the password
    (d.sessionOpen = true → d.sloe.sessAt + 240000000000 = d.now → Goes .sessionTimeout s d.closeSession.evaluate) ∧
    (d.sloe.pwLockAt + 24000000000 = d.now → Goes .pwLockExpiry s (d.setBit Reg.SAFE_STAT 11 false)) ∧
    (∀ e rest, d.Reaches m Reg.SAFE_LOG_ACK → d.sloe.log = e :: rest →
      (m = .medlar → wordIn e 0 = v → Goes (.logAck m v) s ((d.modSloe (fun x => { x with log := rest })).logShown)) ∧
      (m ≠ .medlar ∨ wordIn e 0 ≠ v → Goes (.logAck m v) s (d.discard m Reg.SAFE_LOG_ACK)))

/-! ### Message buses (chapter 16) -/

/-- COMPLETION of INIT, NORMAL, LISTEN, LOOPBACK, BUS_INTEGRATED, RECOVER, RECOVERED, CAN_BUS_ERROR, TS_WRAP. -/
def Obligations.BusModesComplete : Prop :=
  ∀ (s : State) (m : Master) (n : Fin 4) (d t : Dev), d = s.dev → t = d.setBit (Reg.MB_CTRL n.val) 20 (d.bit (Reg.MB_CTRL n.val) 20) →
    -- out of INIT into a mode, where the settings permit it: the controller integrates
    (d.Reaches m (Reg.MB_CTRL n.val) → d.bit (Reg.MB_CTRL n.val) 1 = false → d.canMode n.val = 0 → d.canCfgBad n.val = false →
      d.canTec n.val ≤ 255 → ∀ k, k = 1 ∨ k = 2 ∨ k = 3 →
      ∃ u, u = (((t.setFld (Reg.MB_CTRL n.val) 18 16 k).setBit (Reg.MB_STAT n.val) 7 false).setCanState n.val 1).modCtl n.val
          (fun c => { c with since := d.now }) ∧
        (k = 1 → Goes (.normal m n) s u) ∧ (k = 2 → Goes (.listen m n) s u) ∧ (k = 3 → Goes (.loopback m n) s u)) ∧
    -- settings out of bounds leave it in INIT, and show
    (d.Reaches m (Reg.MB_CTRL n.val) → d.bit (Reg.MB_CTRL n.val) 1 = false → d.canMode n.val = 0 → d.canCfgBad n.val = true →
      ∃ u, u = (t.setBit (Reg.MB_STAT n.val) 7 true).raise (0x80 + n.val) 11 ∧
        Goes (.normal m n) s u ∧ Goes (.listen m n) s u ∧ Goes (.loopback m n) s u) ∧
    -- back to INIT: at once with no frame on the bus, else at the end of the frame
    (d.Reaches m (Reg.MB_CTRL n.val) → d.bit (Reg.MB_CTRL n.val) 1 = false → d.canMode n.val ≠ 0 →
      ((d.ctl n.val).sending = none → d.receiving n.val = false → Goes (.init m n) s (t.enterInit n.val)) ∧
      (((d.ctl n.val).sending ≠ none ∨ d.receiving n.val = true) → d.canState n.val = 2 ∨ d.canState n.val = 3 →
        Goes (.init m n) s (t.modCtl n.val (fun c => { c with initPend := true })))) ∧
    (d.canState n.val = 1 → d.bit (Reg.MB_CTRL n.val) 0 = true → d.pageHeld (0x80 + n.val) = false →
      d.bitsPassed n.val (d.ctl n.val).since 11 = true → Goes (.busIntegrated n) s (d.setCanState n.val (d.canClass n.val))) ∧
    (d.Reaches m (Reg.MB_CMD n.val) →
      (d.canState n.val = 4 →
        Goes (.recover m n) s ((d.setCanState n.val 5).modCtl n.val (fun c => { c with since := d.now }))) ∧
      (d.canState n.val ≠ 4 → Goes (.recover m n) s (d.raise (0x80 + n.val) 15))) ∧
    (d.canState n.val = 5 → d.pageHeld (0x80 + n.val) = false → d.bitsPassed n.val (d.ctl n.val).since 1408 = true →
      Goes (.recovered n) s (((d.setReg (Reg.MB_ECNT n.val) 0).setCanState n.val 2).raise (0x80 + n.val) 4)) ∧
    -- an error is logged, counted outside LISTEN, and ends a frame of another node
    (∀ e c data, d.canOnBus n.val = true → c.detected = true → ∃ u w,
      u = ((((d.raise (0x80 + n.val) 2).setBit (Reg.MB_ERRLOG n.val) 31 true).setFld
        (Reg.MB_ERRLOG n.val) 26 24 (CanError.code e)).setBit (Reg.MB_ERRLOG n.val) 20 data).bumpSat (Reg.MB_ERRLOG n.val) 15 0 ∧
      w = (if (u.ctl n.val).sending.isSome then u.addSat (Reg.MB_ECNT n.val) 24 16 (c.adds true)
        else u.addSat (Reg.MB_ECNT n.val) 7 0 (c.adds false)).canJudge n.val ∧
      (u.canMode n.val = 2 → (u.ctl n.val).sending = none → u.canOnBus n.val = true →
        Goes (.canBusError n e c data) s (u.frameOver n.val 17)) ∧
      (u.canMode n.val ≠ 2 →
        ((w.ctl n.val).sending ≠ none → Goes (.canBusError n e c data) s w) ∧
        ((w.ctl n.val).sending = none → w.canOnBus n.val = true → Goes (.canBusError n e c data) s (w.frameOver n.val 17)))) ∧
    (d.pageHeld (0x80 + n.val) = false → d.tscWraps n.val = true → Goes (.tsWrap n) s (d.raise (0x80 + n.val) 12))

/-- COMPLETION of CAN_FRAME_RECEIVE, RX_RELEASE, TXREQ, TXABT, TRANSMISSION_START, CAN_TX_END, BUF_CFG_WRITE, FILTER_WRITE,
WINDOW_SELECT. -/
def Obligations.BusBuffersComplete : Prop :=
  ∀ (s : State) (m : Master) (n : Fin 4) (b : Fin 64) (v : Word) (d : Dev), d = s.dev →
    -- a frame: its SOF gives the timestamp, its arbitration field the target, and where it is valid it enters that buffer
    (∀ f : CanFrame, d.canOnBus n.val = true → d.canMode n.val ≠ 3 →
      (d.receiving n.val = false → (d.ctl n.val).sending = none → Goes (.canFrameReceive n .sof f) s
        ((d.modCtl n.val (fun c => { c with sofTs := d.tsc n.val, rxHead := none })).setBit (Reg.MB_STAT n.val) 2 true)) ∧
      (d.receiving n.val = true → (d.ctl n.val).rxHead = none → Goes (.canFrameReceive n .arbitration f) s
        (d.modCtl n.val (fun c => { c with rxHead := some { ide := f.ide, id := f.id, target := d.decideTarget n.val f } }))) ∧
      (∀ h, d.receiving n.val = true → (d.ctl n.val).rxHead = some h → h.ide = f.ide → h.id = f.id → f.fdf = false →
        d.canMode n.val = 2 →
        (∀ g, h.target = some { buf := Fin.ofNat 65 b.val, gen := g } → d.targetGen n.val b.val = g.toNat →
          d.rxFull n.val b.val = false → ∃ t u, t = d.noteRx n.val b.val (f.stored (d.ctl n.val).sofTs) ∧
          u = ((t.setBuf n.val b.val (f.stored (d.ctl n.val).sofTs)).setRxFull n.val b.val true).raise (0x80 + n.val) 7 ∧
          (u.resetCommand n.val f = false → Goes (.canFrameReceive n .valid f) s (u.frameOver n.val 4)) ∧
          (u.resetCommand n.val f = true → Goes (.canFrameReceive n .valid f) s ((u.frameOver n.val 4).resetFrame n.val))) ∧
        -- a target whose role changed since, and no target
        (∀ g, h.target = some { buf := Fin.ofNat 65 b.val, gen := g } → d.targetGen n.val b.val ≠ g.toNat →
          ∃ u, u = (d.raise (0x80 + n.val) 13).bumpSat (Reg.MB_ORPHAN_CNT n.val) 15 0 ∧
          (u.resetCommand n.val f = false → Goes (.canFrameReceive n .valid f) s (u.frameOver n.val 4))) ∧
        (h.target = none → ∃ u, u = d.bumpSat (Reg.MB_NOMATCH_CNT n.val) 15 0 ∧
          (u.resetCommand n.val f = false → Goes (.canFrameReceive n .valid f) s (u.frameOver n.val 4))))) ∧
    -- the master of a buffer releases it; a shadow follows
    (∀ w : Fin 3, w.val = b.val / 32 → d.Reaches m (releaseKey n.val w.val) → d.mayUseBuf m n.val b.val = true →
      Goes (.rxRelease m n w (word (2 ^ (b.val % 32)))) s (d.releaseBuf n.val b.val)) ∧
    -- a request of a TX buffer, and its abort
    (∀ w : Fin 2, w.val = b.val / 32 → d.mayUseBuf m n.val b.val = true →
      (d.Reaches m (pairKey (Reg.MB_TXREQ0 n.val) (Reg.MB_TXREQ1 n.val) (32 * w.val)) → d.bufRole n.val b.val = 2 →
        d.txPending n.val b.val = false →
        Goes (.txreq m n w (word (2 ^ (b.val % 32)))) s (d.setTxPending n.val b.val true)) ∧
      (d.Reaches m (pairKey (Reg.MB_TXABT0 n.val) (Reg.MB_TXABT1 n.val) (32 * w.val)) → d.txPending n.val b.val = true →
        d.isSending n.val b.val = true →
        Goes (.txabt m n w (word (2 ^ (b.val % 32)))) s (d.setTxAborting n.val b.val true)) ∧
      (d.Reaches m (pairKey (Reg.MB_TXABT0 n.val) (Reg.MB_TXABT1 n.val) (32 * w.val)) → d.txPending n.val b.val = true →
        d.isSending n.val b.val = false →
        Goes (.txabt m n w (word (2 ^ (b.val % 32)))) s (d.endRequest n.val b.val 8))) ∧
    -- the request of lowest arbitration value goes out, and its frame ends well
    (d.canOnBus n.val = true → d.canMode n.val ≠ 2 → d.canFree n.val = true → d.txSelect n.val = some b.val →
      Goes (.transmissionStart n) s
        ((d.modCtl n.val (fun c => { c with sending := some b, sofTs := d.tsc n.val })).setBit (Reg.MB_STAT n.val) 3 true)) ∧
    ((d.ctl n.val).sending = some b → d.canMode n.val = 1 → (d.txFrame n.val b.val).fdf = false → d.txAborting n.val b.val = false →
      vget none (d.ctl n.val).held b.val = none → ∀ tdcv,
      (d.bufBit n.val b.val 28 = false → Goes (.canTxEnd n .arbLost tdcv) s
        (((d.stopSending n.val).setFld (Reg.MB_BUF_STAT n.val b.val) 31 28 2).attemptOver n.val .arbLost)) ∧
      (d.canTec n.val = 0 → d.canRec n.val < 128 → d.canState n.val = 2 → Goes (.canTxEnd n .done tdcv) s
        (((((d.stopSending n.val).setFld (Reg.MB_ECNT n.val) 24 16 0).setBuf n.val b.val
          { d.buf n.val b.val with ts := (d.ctl n.val).sofTs }).endRequest n.val b.val 1).attemptOver n.val .done))) ∧
    -- configuration of buffers, filters and windows
    (d.Reaches m (Reg.MB_BUF_CFG n.val b.val) → d.bufBit n.val b.val 29 = false → d.bufRole n.val b.val ≠ 2 →
      Goes (.bufCfgWrite m n b v) s (d.setBufCfg n.val b.val v)) ∧
    (∀ (f : Fin 32) (k o : Nat), k = Reg.MB_FLT_ID n.val f.val → o = d.fld (Reg.MB_FLT_MASK n.val f.val) 31 26 → d.Reaches m k →
      d.mayUseBuf m n.val o = true →
      (v &&& 0xDFFFFFFF = d.reg k → Goes (.filterWrite m n f false v) s (d.setReg k (v &&& 0xDFFFFFFF))) ∧
      (v &&& 0xDFFFFFFF ≠ d.reg k → Goes (.filterWrite m n f false v) s ((d.setReg k (v &&& 0xDFFFFFFF)).bufRoleChange n.val o))) ∧
    (∀ w : Fin 2, d.Reaches m (winKey n.val w.val 0) → w.val = 0 ∨ m = .medlar →
      Goes (.windowSelect m n w v) s (d.setReg (winKey n.val w.val 0) (v &&& 0x7F)))

/-! ### Check values, management and capture (chapters 17 and 18) -/

/-- COMPLETION of CRC_INIT, CRC_START, CRC_ABORT, CHECK, CRC_DMA_DONE, CRC_DMA_REFUSED, DIN, DIN_B, CRC_RUN_WRITE, CLAIM. -/
def Obligations.CheckUnitsComplete : Prop :=
  ∀ (s : State) (m : Master) (n : Fin 4) (v : Word) (d : Dev), d = s.dev → d.crcBarred m n.val = false →
    (d.Reaches m (Reg.CRC_CMD n.val) → d.crcOn n.val = true → d.crcBusy n.val = false →
      Goes (.crcInit m n) s ((((d.setReg (Reg.CRC_RUN n.val) (word (Machine.crcInit (d.crcParams n.val)))).setReg (Reg.CRC_BYTES n.val)
        0).setBit (Reg.CRC_STAT n.val) 3 false).setBit (Reg.CRC_STAT n.val) 2 false) ∧
      (d.fld (Reg.CRC_LEN n.val) 23 0 ≠ 0 → Goes (.crcStart m n) s
        ((d.setBit (Reg.CRC_STAT n.val) 0 true).modCrc n.val (fun x => { x with startAt := d.now }))) ∧
      (d.fld (Reg.CRC_LEN n.val) 23 0 = 0 → Goes (.crcStart m n) s (d.crcComplete n.val)) ∧
      Goes (.check m n) s (d.crcCompare n.val)) ∧
    -- ABORT keeps what the run has fed; a command while one is under way is refused
    (∀ t, d.Reaches m (Reg.CRC_CMD n.val) → d.crcOn n.val = true → d.crcBusy n.val = true →
      t = d.touchAt (d.reg (Reg.CRC_SRC n.val)).toNat →
      Goes (.crcAbort m n) s (((t.crcFeed n.val (t.bytesAt (d.reg (Reg.CRC_SRC n.val)).toNat (t.crcFed n))).setBit
        (Reg.CRC_STAT n.val) 0 false).raise (0x88 + n.val) 1) ∧
      Goes (.crcInit m n) s (d.raise (0x88 + n.val) 4) ∧ Goes (.crcStart m n) s (d.raise (0x88 + n.val) 4) ∧
      Goes (.check m n) s (d.raise (0x88 + n.val) 4)) ∧
    -- a run that reads all its bytes, and one that meets a byte it may not read
    (∀ t, d.crcBusy n.val = true → d.pageHeld (0x88 + n.val) = false →
      t = (d.touchAt (d.reg (Reg.CRC_SRC n.val)).toNat).crcFeed n.val
        (d.bytesAt (d.reg (Reg.CRC_SRC n.val)).toNat (d.crcReadable n)) →
      (d.crcReadable n = d.fld (Reg.CRC_LEN n.val) 23 0 → Goes (.crcDmaDone n) s (t.crcComplete n.val)) ∧
      (d.crcReadable n ≠ d.fld (Reg.CRC_LEN n.val) 23 0 → regionOf ((d.reg (Reg.CRC_SRC n.val)).toNat + d.crcReadable n) = .unmapped →
        Goes (.crcDmaRefused n) s ((((t.refuseSys (.crc n) ((d.reg (Reg.CRC_SRC n.val)).toNat + d.crcReadable n) false).setBit
          (Reg.CRC_STAT n.val) 0 false).setBit (Reg.CRC_STAT n.val) 2 true).raise (0x88 + n.val) 2))) ∧
    -- data writes: four bytes, the least significant first, or one
    (d.crcOn n.val = true → d.crcBusy n.val = false →
      (d.Reaches m (Reg.CRC_DIN n.val) → Goes (.din m n v) s
        ((d.crcFeed n.val (wordBytes v)).modCrc n.val (fun x => { x with fedAt := some d.now }))) ∧
      (d.Reaches m (Reg.CRC_DIN_B n.val) → Goes (.dinB m n v) s
        ((d.crcFeed n.val [v.setWidth 8]).modCrc n.val (fun x => { x with fedAt := some d.now })))) ∧
    -- with the unit disabled or a run under way a data write is discarded
    (d.crcOn n.val = false ∨ d.crcBusy n.val = true → d.Reaches m (Reg.CRC_DIN n.val) →
      Goes (.din m n v) s (d.discard m (Reg.CRC_DIN n.val))) ∧
    (d.Reaches m (Reg.CRC_RUN n.val) → d.crcBusy n.val = false → Goes (.crcRunWrite m n v) s
      (d.setReg (Reg.CRC_RUN n.val) (word (v.toNat % 2 ^ (d.crcParams n.val).width)))) ∧
    (d.Reaches m (Reg.CRC_CLAIM n.val) →
      (bitAt 0 v = true → d.bit (Reg.CRC_CLAIM n.val) 0 = false → Goes (.claim m n v) s
        ((d.setReg (Reg.CRC_CLAIM n.val) (place 15 8 (masterCode m) ||| 1)).setBit (Reg.CRC_STAT n.val) 1 true)) ∧
      (bitAt 0 v = false → d.bit (Reg.CRC_CLAIM n.val) 0 = true → Goes (.claim m n v) s
        ((d.setBit (Reg.CRC_CLAIM n.val) 0 false).setBit (Reg.CRC_STAT n.val) 1 false)))

/-- COMPLETION of CAPTURE_RECORD_WRITE, RESTART, TRIGGER, FREEZE, EVENT_LOG_ENTRY, SRAM_SCRUB_PASS, DRAM_SCRUB_PASS. -/
def Obligations.CaptureAndScrubComplete : Prop :=
  ∀ (s : State) (m : Master) (d : Dev), d = s.dev →
    -- the oldest record goes to CAP_WPTR, which steps by 32 and wraps with the region
    (∀ r rest n t, d.capture.fifo = r :: rest → d.capMode ≠ 0 → d.bit Reg.DRAM_STAT 8 = false → d.dramReady = true →
      d.capture.postLeft = none → n = d.fld Reg.DRAM_CAP_WPTR 25 0 →
      t = Dev.setBytes (0x80000000 + n) r (Dev.touchDram (Dev.putCapture { d.capture with fifo := rest } d)) →
      Goes .captureRecordWrite s (t.setFld Reg.DRAM_CAP_WPTR 25 0 (if d.partition.1 * 0x100000 ≤ n + 32 then 0 else n + 32))) ∧
    (d.Reaches m Reg.DRAM_CAP_CMD →
      Goes (.restart m) s ((((Dev.putCapture { d.capture with postLeft := none } d).setReg Reg.DRAM_CAP_WPTR 0).setReg
        Reg.DRAM_CAP_TRIG_PTR 0xFFFFFFFF).setBit Reg.DRAM_STAT 8 false) ∧
      (d.fld Reg.DRAM_CAP_CTRL 1 0 = 2 → d.bit Reg.DRAM_STAT 8 = false → d.capture.postLeft = none →
        d.reg Reg.DRAM_CAP_TRIG_PTR = 0xFFFFFFFF → d.fld Reg.DRAM_CAP_POST 23 0 ≠ 0 →
        ∃ t, t = (d.setReg Reg.DRAM_CAP_TRIG_PTR (d.reg Reg.DRAM_CAP_WPTR)).raise 0xA0 0 ∧ Goes (.trigger m) s
          (Dev.putCapture { t.capture with postLeft := some (d.fld Reg.DRAM_CAP_POST 23 0) } t)) ∧
      Goes (.freeze m) s ((((Dev.putCapture { d.capture with postLeft := none } d).setBit Reg.DRAM_STAT 8 true).raise 0xA0 1).noteFreeze)) ∧
    -- log entries: newly pending bits, the commit state, the reset cause
    (d.medlarUp = true → d.dramReady = true →
      (∀ p bits, (pageKind? p).isSome = true → bits = d.pendMedlar p &&& ~~~ d.recordedBits p → bits ≠ 0 → ∃ t,
        t = d.setRecorded p (d.pendMedlar p) ∧ Goes (.eventLogEntry (.event p)) s (t.logWrite p 1 bits (d.view .medlar p 8))) ∧
      (∀ c rest r, d.mgmt.states = c :: rest → r = Dev.free (Dev.putMgmt { d.mgmt with states := rest } d) →
        Goes (.eventLogEntry .state) s (r.2.logWrite 0xFFFF 3 (word c) r.1)) ∧
      (d.mgmt.startDue = true → Goes (.eventLogEntry .reset) s
        ((Dev.putMgmt { d.mgmt with startDue := false } d).logWrite 0xFFFF 2 (d.reg Reg.RST_CAUSE) (d.reg Reg.RST_SEQ)))) ∧
    -- a pass of the scrub engine, that ends in its interval or after it
    (∀ (f : ScrubFindings) (t u w : Dev), d.pageHeld 0xA1 = false →
      (d.mgmt.sramAt ≤ d.now →
        t = Dev.putMgmt { d.mgmt with sramAt := nextInterval d.mgmt.sramAt sramPeriod d.now } d →
        u = (if d.mgmt.sramAt + 400000000 < d.now then (t.setBit Reg.SCRUB_SRAM_STAT 31 true).raise 0xA1 4
          else t.bumpWrap Reg.SCRUB_SRAM_STAT 15 0) →
        w = u.scrubPass (f.fixed.filter inSramPass) (f.bad.filter inSramPass) Reg.SCRUB_SRAM_CORR Reg.SCRUB_SRAM_UNC
          Reg.SCRUB_SRAM_UNC_ADDR 0 →
        Goes (.sramScrubPass f) s (Dev.scrubL2 f.l2Fixed f.l2Bad (each f.triadBad
          (fun t d => (d.scrubUnc Reg.SCRUB_SRAM_UNC Reg.SCRUB_SRAM_UNC_ADDR 1 [t.1]).eccRepair t.1 t.2)
          (each (f.bad.filter inSramPass) Dev.tcmUnc (each (f.fixed.filter inSramPass) Dev.tcmCorrected w))))) ∧
      (d.mgmt.dramPassAt ≤ d.now →
        t = Dev.putMgmt { d.mgmt with dramPassAt := nextInterval d.mgmt.dramPassAt dramPeriod d.now } d →
        (d.now ≤ d.mgmt.dramPassAt + 24000000000 → t.dramReady = true → d.dramReady = true →
          Goes (.dramScrubPass f) s (Dev.scrubPass (f.fixed.filter inDramPass) (f.bad.filter inDramPass) Reg.SCRUB_DRAM_CORR
            Reg.SCRUB_DRAM_UNC Reg.SCRUB_DRAM_UNC_ADDR 2 (t.bumpWrap Reg.SCRUB_DRAM_STAT 15 0).touchDram)) ∧
        (d.mgmt.dramPassAt + 24000000000 < d.now → d.dramReady = false →
          Goes (.dramScrubPass f) s ((t.setBit Reg.SCRUB_DRAM_STAT 31 true).raise 0xA1 4))))

/-- COMPLETION of JOURNAL_COMPACTION, SAFETY_LOG_TRANSFER, TELEMETRY_SAMPLE, MARK, LOG_READ, JOURNAL_READ, IMAGE_WRITE, TELE_READ. -/
def Obligations.MedlarServicesComplete : Prop :=
  ∀ (s : State) (m : Master) (q : BitVec 8) (d : Dev), d = s.dev →
    -- compaction at most once per 10 s: where the flash fails, the journal fails and its records stay
    (d.medlarUp = true → (∀ t, d.mgmt.compactAt = some t → t + 4000000000 ≤ d.now) → d.bit Reg.MGT_JOURNAL_STAT 30 = false →
      Goes (.journalCompaction true) s
        (Dev.journalStat (Dev.putMgmt { d.mgmt with journal := liveRecords d.mgmt.journal, compactAt := some d.now } d)) ∧
      Goes (.journalCompaction false) s ((d.setBit Reg.MGT_JOURNAL_STAT 30 true).raise 0x98 1)) ∧
    (∀ e rest, d.sloe.log = e :: rest → d.medlarUp = true → d.bit Reg.MGT_JOURNAL_STAT 30 = false →
      ∃ t, t = d.journalAppend 1 e ∧ (t.Reaches .medlar Reg.SAFE_LOG_ACK → Goes (.safetyLogTransfer true) s
        ((t.modSloe (fun x => { x with log := rest })).logShown))) ∧
    -- a set of the telemetry list is taken in its period, or skipped with OVERRUN
    (∀ x t, d.mgmt.service = some x → d.medlarUp = true → d.mgmt.teleAt ≤ d.now →
      t = Dev.putMgmt { d.mgmt with teleAt := nextInterval d.mgmt.teleAt d.telePeriod d.now } d →
      (d.mgmt.teleAt + d.telePeriod < d.now → Goes .telemetrySample s ((t.setBit Reg.MGT_TELE_STAT 31 true).raise 0x98 2)) ∧
      (d.now ≤ d.mgmt.teleAt + d.telePeriod → ∀ (r : List Word × Dev) (u : Dev), r = (x.telemetry.take 64).foldl
          (fun p a => (p.1 ++ [(p.2.busRead .medlar a 4).1], (p.2.busRead .medlar a 4).2)) ([], t) →
        u = (Dev.putMgmt { r.2.mgmt with tele := r.1 } r.2).bumpWrap Reg.MGT_TELE_STAT 15 0 →
        Goes .telemetrySample s (each ((Config.teleStore (u.fld Reg.MGT_TELE_STAT 15 0) r.1).filter
          (fun c => u.serviceStart ≤ c.1 && c.1 < 0x84000000)) (fun c => Dev.setByte c.1 c.2) u.touchDram))) ∧
    -- a command of the mailbox while none is under way
    (∀ (code : Nat) (f : Bool) (op : Dev → Dev) (c : Instr),
      (code, f, op, c) ∈ [(0x01, true, Dev.mgtMark q.toNat, .mark m q), (0x02, true, Dev.mgtLogRead q.toNat, .logRead m q),
        (0x03, true, Dev.mgtJournalRead q.toNat, .journalRead m q), (0x10, true, Dev.mgtImageWrite q.toNat true, .imageWrite m q true),
        (0x10, false, Dev.mgtImageWrite q.toNat false, .imageWrite m q false), (0x20, true, Dev.mgtTeleRead q.toNat, .teleRead m q)] →
      d.Reaches m Reg.MGT_MBX_CMD → d.bit Reg.MGT_MBX_STAT 0 = false → d.medlarUp = true → Goes c s
        (op ((d.setReg Reg.MGT_MBX_CMD (place 31 24 q.toNat ||| place 7 0 code)).setBit Reg.MGT_MBX_STAT 0 true)))

/-! ### Host port and network (chapter 19) -/

/-- COMPLETION of SPI_READ, SPI_WRITE, SPI_NOP, SPI_RESET, SPI_UNKNOWN_COMMAND, FRAME_ABORT, HOST_WRITE_ISSUE. -/
def Obligations.HostFramesComplete : Prop :=
  ∀ (s : State) (ns : Nat) (a : Word) (d : Dev), d = s.dev →
    (d.hostTakes ns = true →
      -- READ: every queued write first, then the words, each zero where it is late
      (∀ (k : Fin 64) (l : BitVec 64) (ecc : List (Fin 64 × Ecc)) (same : Bool) (t : Dev),
        t = Dev.hostDrain d.host.queue.length d → t.hostUp = true →
        ∀ r, r = Dev.readWords .host (readSlots a.toNat k.val l ecc same) t →
        Goes (.spiRead ns a k (hostCrc 1 a (BitVec.ofNat 8 k.val) []) l ecc same) s
          (r.2.hostAnswer r.1.1 r.1.2.2 r.1.2.1 false true)) ∧
      -- WRITE: queued whole, and issued oldest first; discarded whole where its words do not all fit
      (∀ (ws : List Word) (c : BitVec 16), c = hostCrc 2 a (BitVec.ofNat 8 (ws.length - 1)) ws →
        (d.host.queue.length + ws.length ≤ 64 → Goes (.spiWrite ns a ws c) s
          (Dev.hostAnswer [] false false false true (Dev.putHost { d.host with queue := d.host.queue ++ hostEntries a.toNat ws } d))) ∧
        (64 < d.host.queue.length + ws.length → Goes (.spiWrite ns a ws c) s ((d.raise 0x99 2).hostAnswer [] false false true true))) ∧
      (∀ c : Byte, Goes (.spiNop ns a c (hostCrc 3 a c [])) s (d.hostAnswer [] false false false true)) ∧
      -- RESET: its answer is sent, then the source of the host's command asserts; any other reach word is answered with ACC_ERR
      (∀ c : Byte, (∀ (r : Reach), reachOfWord a = some r → ∃ t, t = d.hostAnswer [] false false false true ∧
          Goes (.spiReset ns a c (hostCrc 0x10 a c [])) s (Dev.putHost { response := t.host.response } (t.assertSource .cmdHost r))) ∧
        (reachOfWord a = none → Goes (.spiReset ns a c (hostCrc 0x10 a c [])) s (d.hostAnswer [] false true false true))) ∧
      (∀ cmd c : Byte, Goes (.spiUnknownCommand ns cmd a c (hostCrc cmd a c [])) s (d.hostAnswer [] false true false true)) ∧
      -- a CRC that does not match: counted, and nothing executes
      (∀ (c : Byte) (x : BitVec 16), ∃ t, t = ((d.raise 0x99 1).bumpSat Reg.HOST_CNT 31 16).hostAnswer [] false false false false ∧
        (x ≠ hostCrc 3 a c [] → Goes (.spiNop ns a c x) s t) ∧ (x ≠ hostCrc 0x10 a c [] → Goes (.spiReset ns a c x) s t) ∧
        (∀ ws, x ≠ hostCrc 2 a (BitVec.ofNat 8 (ws.length - 1)) ws → Goes (.spiWrite ns a ws x) s t)) ∧
      Goes (.frameAbort ns) s ((d.raise 0x99 0).bumpSat Reg.HOST_CNT 15 0)) ∧
    (∀ w v rest, d.host.queue = (w, v) :: rest →
      Goes .hostWriteIssue s (Dev.busWrite .host w 4 v (Dev.putHost { d.host with queue := rest } d)))

/-- COMPLETION of ETH_READ, ETH_WRITE, ETH_RESET, ETH_FRAME_RECEIVE, ETH_LINK_CHANGE, BEACON. -/
def Obligations.EthernetComplete : Prop :=
  ∀ (s : State) (n : Fin 2) (p : EthPeer) (q a : Word) (k : Fin 64) (ecc : List (Fin 64 × Ecc)) (same : Bool) (d t : Dev), d = s.dev →
    (d.portUp n.val = true → d.ethTake n.val = (true, t) →
      (t.medlarUp = true → t.permitsSource p.ip = true →
        -- a new request of a permitted source
        (t.net.last = none →
          (∀ r, r = Dev.readWords .medlar (readSlots a.toNat k.val 0 ecc same) t →
            Goes (.ethRead n p q k a 12 ecc same) s (r.2.ethAnswer n.val p q (ethReply 0x01 r.1.2.1 q a r.1.1))) ∧
          (∀ (ws : List Word) (u : Dev), ws.length = k.val + 1 →
            u = each (hostEntries a.toNat ws) (fun e d => if d.medlarUp then Dev.busWrite .medlar e.1 4 e.2 d else d) t →
            u.portUp n.val = true → u.medlarUp = true →
            Goes (.ethWrite n p q k a ws) s (u.ethAnswer n.val p q (ethReply 0x02 false q a []))) ∧
          (∀ r, reachOfWord a = some r → ∃ u, u = t.ethAnswer n.val p q (ethReply 0x10 false q a []) ∧
            Goes (.ethReset n p q a 12) s (Dev.putNet { sent := u.net.sent } (u.assertSource .cmdEth r))) ∧
          (reachOfWord a = none → Goes (.ethReset n p q a 12) s (t.ethAnswer n.val p q (ethReply 0x10 true q a [])))) ∧
        -- the request answered last is answered from the stored reply
        (∀ r, t.net.last = some r → r.peer = p → r.seq = q →
          Goes (.ethRead n p q k a 12 ecc same) s (t.ethSend n.val r.reply) ∧
          (∀ ws : List Word, ws.length = k.val + 1 → Goes (.ethWrite n p q k a ws) s (t.ethSend n.val r.reply)) ∧
          Goes (.ethReset n p q a 12) s (t.ethSend n.val r.reply))) ∧
      -- no reply to another source, or to a datagram of another length
      (t.permitsSource p.ip = false → Goes (.ethRead n p q k a 12 ecc same) s t ∧ Goes (.ethReset n p q a 12) s t) ∧
      (∀ len, len ≠ 12 → Goes (.ethRead n p q k a len ecc same) s t ∧ Goes (.ethReset n p q a len) s t) ∧
      (∀ ws : List Word, ws.length ≠ k.val + 1 → Goes (.ethWrite n p q k a ws) s t) ∧
      -- frames of the subset: answered while Medlar runs
      (d.medlarUp = true → Goes (.ethFrameReceive n .arpRequest) s (t.ethSent n.val) ∧
        Goes (.ethFrameReceive n .icmpEcho) s (t.ethSent n.val)) ∧
      Goes (.ethFrameReceive n .other) s t) ∧
    -- beyond 20 000 frames in a second the excess is dropped and counted
    (d.portUp n.val = true → ∀ second, second = d.now / 400000000 → ∀ c, vget (0, 0) d.net.taken n.val = (second, c) → 20000 ≤ c →
      ∀ kind, Goes (.ethFrameReceive n kind) s ((d.ethReceived n.val).bumpSat (Reg.ETH_DROP n.val) 31 0)) ∧
    (∀ up, d.pageHeld (0x9A + n.val) = false → d.bit (Reg.ETH_STAT n.val) 0 ≠ up →
      Goes (.ethLinkChange n up) s ((d.setBit (Reg.ETH_STAT n.val) 0 up).raise (0x9A + n.val) (if up then 0 else 1))) ∧
    -- the beacon, once per period, on each port with a link
    (d.medlarUp = true → (∀ x, d.mgmt.beaconAt = some x → x + 400000 * d.beaconMs ≤ d.now) → Goes .beacon s
      (each [0, 1] (fun n d => d.when (d.portUp n) (fun d => d.ethSend n (d.beaconPayload n)))
        (Dev.putMgmt { d.mgmt with beaconAt := some d.now } d)))

/-- COMPLETION of PTP_SYNC, SERVO_COMMIT, TIME_LO_READ, MODBUS_READ_INPUT, MODBUS_READ_HOLDING, MODBUS_WRITE_MULTIPLE. -/
def Obligations.TimeAndModbusComplete : Prop :=
  ∀ (s : State) (m : Master) (i c : BitVec 16) (d : Dev), d = s.dev →
    (∀ x, d.ptpSlave = true → d.pageHeld 5 = false → Goes (.ptpSync x) s ((d.syncOffset x).2.ptpOffset (d.syncOffset x).1)) ∧
    (∀ g o, d.loader.goodSet = some g → d.net.offset = some o → d.servoReady = true → Goes .servoCommit s (d.servoCommit g o)) ∧
    -- TIME_LO reads the low word, and keeps the high word for its reader; a barred read is refused
    (d.pageHeld 5 = false →
      (d.mayAccess m false 0x40005040 = true → Goes (.timeLoRead m 0 4) s (Dev.putReadData (word d.devTime) (d.latchTime m))) ∧
      (d.mayAccess m false 0x40005040 = false →
        Goes (.timeLoRead m 0 4) s (Dev.putReadData 0 (d.refuse m 5 0x40005040 false)))) ∧
    (d.modbusOn = true →
      (c ≠ 0 → c.toNat ≤ 125 → i.toNat + c.toNat ≤ 128 → Goes (.modbusReadInput i c) s
        ((d.skipFree 64).modbusAnswer ([0x04, BitVec.ofNat 8 (2 * c.toNat)] ++
          (List.range c.toNat).flatMap (fun k => bytesOfNatBE 2 (d.halfOf d.mgmt.tele (i.toNat + k)))))) ∧
      (c ≠ 0 → 0x1000 ≤ i.toNat → i.toNat + c.toNat ≤ 0x1010 → Goes (.modbusReadHolding i c) s
        ((d.skipFree 8).modbusAnswer ([0x03, BitVec.ofNat 8 (2 * c.toNat)] ++
          (List.range c.toNat).flatMap (fun k => bytesOfNatBE 2 (d.halfOf d.net.posted (i.toNat - 0x1000 + k)))))) ∧
      -- outside the map, and with a quantity out of range, the exceptions ILLEGAL DATA ADDRESS and ILLEGAL DATA VALUE
      (c ≠ 0 → c.toNat ≤ 125 → 128 < i.toNat + c.toNat → Goes (.modbusReadInput i c) s (d.modbusAnswer [0x84, 2])) ∧
      (c = 0 → Goes (.modbusReadInput i c) s (d.modbusAnswer [0x84, 3]) ∧ Goes (.modbusReadHolding i c) s (d.modbusAnswer [0x83, 3])) ∧
      (∀ hs t, hs.length = 16 →
        (d.bit (Reg.LE_MBX_STAT d.modbusEngine) 0 = false → t = Dev.postToEngine d.modbusEngine (wordsOfHalves hs) d →
          Goes (.modbusWriteMultiple 0x1000 hs) s (Dev.modbusAnswer [0x10, 0x10, 0x00, 0x00, 0x10]
            (Dev.putNet { t.net with posted := wordsOfHalves hs } t))) ∧
        (d.bit (Reg.LE_MBX_STAT d.modbusEngine) 0 = true → Goes (.modbusWriteMultiple 0x1000 hs) s (d.modbusAnswer [0x90, 6]))))

/-- COMPLETION of HEARTBEAT, SDO_REQUEST, CHANNEL_OBJECT_WRITE, NMT, SYNC_CONSUMER. -/
def Obligations.CanOpenComplete : Prop :=
  ∀ (s : State) (d : Dev), d = s.dev → d.medlarUp = true →
    -- the heartbeat, once per period
    ((∀ x, d.mgmt.beatAt = some x → x + 400000 * d.beatMs ≤ d.now) → d.mgmt.rejoin = false →
      Goes .heartbeat s ((Dev.putMgmt { d.mgmt with beatAt := some d.now } d).sendBeat (BitVec.ofNat 8 d.canopen.nmt))) ∧
    (d.canopen.nmt ≠ 4 →
      -- the announcement object: entries, commit state, error, sequence
      Goes (.sdoRequest 0x2000 0 none) s (d.sdoAnswer (sdoRead 0x2000 0 1 3)) ∧
      Goes (.sdoRequest 0x2000 1 none) s (d.sdoAnswer (sdoRead 0x2000 1 4 d.cstate)) ∧
      Goes (.sdoRequest 0x2000 2 none) s (d.sdoAnswer (sdoRead 0x2000 2 4 (d.fld Reg.CFG_RESULT 23 16))) ∧
      Goes (.sdoRequest 0x2000 3 none) s (d.sdoAnswer (sdoRead 0x2000 3 4 d.loader.appliedSeq.toNat)) ∧
      -- a channel's controlword or target: posted to its engine where the mailbox is free, aborted where it is pending; an
      -- unbound channel has no object
      (∀ (c : Fin 8) (target : Bool) (v index : BitVec 16),
        index = BitVec.ofNat 16 ((if target then 0x6042 else 0x6040) + 0x800 * c.val) →
        (∀ (n e : Fin 12), d.channel c.val = some (n, e) →
          (d.bit (Reg.LE_MBX_STAT e.val) 0 = false → ∀ (o : CanOpen) (t : Dev),
            o = (if target then { d.canopen with target := vset d.canopen.target c.val v }
              else { d.canopen with ctrl := vset d.canopen.ctrl c.val v }) →
            t = Dev.postToEngine e.val (channelWords c.val (d.polePairs n.val) (vget 0 o.ctrl c.val) (vget 0 o.target c.val))
              (Dev.putCanopen o d) →
            Goes (.channelObjectWrite c target v) s (t.sdoAnswer (sdoWritten index 0))) ∧
          (d.bit (Reg.LE_MBX_STAT e.val) 0 = true →
            Goes (.channelObjectWrite c target v) s (d.sdoAnswer (sdoAbort index 0 0x08000020)))) ∧
        (d.channel c.val = none → Goes (.channelObjectWrite c target v) s (d.sdoAnswer (sdoAbort index 0 0x06020000)))) ∧
      Goes .syncConsumer s (Dev.putCanopen { d.canopen with syncs := d.canopen.syncs + 1 } d)) ∧
    -- stopped, it serves no object and consumes no SYNC
    (d.canopen.nmt = 4 → Goes .syncConsumer s d ∧ ∀ i b w, Goes (.sdoRequest i b w) s d) ∧
    -- NMT to all nodes
    (Goes (.nmt 1 0) s (d.setNmt 5) ∧ Goes (.nmt 2 0) s (d.setNmt 4) ∧ Goes (.nmt 0x80 0) s (d.setNmt 127) ∧
      Goes (.nmt 0x82 0) s ((d.setNmt 127).sendBeat 0))

/-! ### Rules of the bus and the pages -/

/-- R15, R44, R79 and R81: a write that the map, the table, a hold or its width turns away changes nothing but the record of access
errors: by the page where the page refuses it, by SYS where no page does; a read so refused returns zero. -/
def Obligations.RefusedAccessesAreLogged : Prop :=
  (∀ (s : State) (m : Master) (a : BitVec 32) (n : Nat) (v : Word) (same : Bool) (d : Dev), d = s.dev.enterCycle m same → 1 ≤ n → n ≤ 4 →
    (∀ p off, regionOf a.toNat = .page p off →
      (d.pageHeld p = true → ∃ t, Goes (.registerWrite m a n v same) s t ∧ d.Logged t 0 m a.toNat true d.readData) ∧
      (d.pageHeld p = false → n < 4 ∨ d.mayWrite m p off = false →
        ∃ t, Goes (.registerWrite m a n v same) s t ∧ d.Logged t p m a.toNat true d.readData)) ∧
    ((∀ p off, regionOf a.toNat ≠ .page p off) → d.mayAccess m true a.toNat = false →
      ∃ t, Goes (.registerWrite m a n v same) s t ∧ d.Logged t 0 m a.toNat true d.readData)) ∧
  (∀ (d : Dev) (m : Master) (a n : Nat), a % 4 = 0 →
    (∀ p off, regionOf a = .page p off → d.mayRead m p off = false → d.pageHeld p = false →
      (d.busRead m a n).1 = 0 ∧ d.Logged (d.busRead m a n).2 p m a false 0) ∧
    (∀ p off, regionOf a = .page p off → d.pageHeld p = true → off ≠ 0 →
      (d.busRead m a n).1 = 0 ∧ d.Logged (d.busRead m a n).2 0 m a false 0) ∧
    ((∀ p off, regionOf a ≠ .page p off) → d.mayAccess m false a = false →
      (d.busRead m a n).1 = 0 ∧ d.Logged (d.busRead m a n).2 0 m a false 0))

/-- R61: a write to a keyed field of a locked page, and a KEY write that does not continue the sequence; the latter leaves the page
locked. -/
def Obligations.LockedPagesRefuseKeyedWrites : Prop :=
  ∀ (s : State) (m : Master) (a : BitVec 32) (p off : Nat) (v : Word) (same : Bool) (d : Dev), d = s.dev.enterCycle m same →
    regionOf a.toNat = .page p off → off % 4 = 0 → off < 0x800 → d.Reaches m (p * 0x1000 + off) →
    (keyedWrite (p * 0x1000 + off) v = true → d.kstate p ≠ 2 →
      ∃ t, Goes (.registerWrite m a 4 v same) s t ∧ d.Logged t p m a.toNat true d.readData) ∧
    (off = 0x1C → (d.kstate p = 0 → v ≠ word (0x5A000000 + p)) → (d.kstate p = 1 → v ≠ word (0xA5000000 + p)) →
      ∃ t, Goes (.registerWrite m a 4 v same) s t ∧ t.kstate p = 0 ∧
        (d.setKstate p 0).Logged t p m a.toNat true d.readData)

/-! ### Rules of the engines -/

/-- R169: V0 reads as zero as an operand, and a result that names it is discarded. The instructions are those with one result. -/
def Obligations.VZeroReadsZero : Prop :=
  ∀ (s : State) (e : Fin 12) (f : EngFields) (d : Dev), d = s.dev →
    (∀ r, d.v e.val 0 = 0 ∧ d.setV e.val 0 r = d) ∧
    (f.d = 0 → ∀ (c : Instr) (op : Nat) (u : Form), (c, op, u) ∈ instructionForms e f → op ≤ 0x15 ∨ op = 0x28 ∨ op = 0x29 →
      d.Issues e.val op u f → ∃ t, Goes c s t ∧ ∀ n r, vget 0 (t.engine n).v r = vget 0 (d.engine n).v r)

/-- R175, R180 and R216: an instruction at PC with a nonzero field that it does not name faults the engine with FIELD; one with a
destination beyond V63, with RANGE; one whose word cannot be corrected, with ECC_PROG. -/
def Obligations.InstructionFormFaults : Prop :=
  ∀ (s : State) (e : Fin 12) (f : EngFields) (d : Dev) (c : Instr) (op : Nat) (u : Form), d = s.dev → (c, op, u) ∈ instructionForms e f →
    d.canIssue e.val = true → f.m.val % u.modes = u.mode →
    (f.fetch ≠ .uncorrectable → d.insnAt e.val = insnOf op f →
      ∀ t, t = (d.begun f).when (f.fetch == .corrected) (Dev.eccCorrected e.val) →
      (u.ok f = false → Goes c s (t.engineFault e.val 2)) ∧
      (u.ok f = true → 64 < f.d.val + u.outs → Goes c s (t.engineFault e.val 3))) ∧
    (f.fetch = .uncorrectable → Goes c s (((d.begun f).eccUnc e.val (d.pc e.val)).engineFault e.val 5))

/-- R174: the fields of an instruction stand in its 64-bit word as the table has them, no bit of the word is dropped, and instruction
number PC is the 8 bytes at program TCM offset 8 × PC, the least significant first. The last clause is the first example of R176. -/
def Obligations.InstructionWordsRoundTrip : Prop :=
  (∀ (w : Nat) (i : Insn), i = decodeInsn w → i.op.val = w / 2 ^ 58 % 64 ∧ i.d.val = w / 2 ^ 52 % 64 ∧ i.a.val = w / 2 ^ 46 % 64 ∧
    i.b.val = w / 2 ^ 40 % 64 ∧ i.c.val = w / 2 ^ 34 % 64 ∧ i.m.val = w / 2 ^ 32 % 4 ∧ i.imm.toNat = w % 2 ^ 32) ∧
  (∀ i : Insn, decodeInsn (encodeInsn i) = i) ∧ (∀ w, w < 2 ^ 64 → encodeInsn (decodeInsn w) = w) ∧
  (∀ (d : Dev) (e : Fin 12), d.pc e.val < 4096 →
    d.insnAt e.val = decodeInsn (natOfBytes (d.bytesAt (0x18000000 + e.val * 0x100000 + 8 * d.pc e.val) 8))) ∧
  decodeInsn 0x10C0C43000000000 = { op := 4, d := 12, a := 3, b := 4, c := 12, m := 0, imm := 0 }

/-- R188: a load or store off its alignment, or a paired one outside the engine's own 128 KB, faults the engine with ALIGN. -/
def Obligations.MisalignedAccessFaults : Prop :=
  ∀ (s : State) (e : Fin 12) (f : EngFields) (d : Dev) (a base : Nat), d = s.dev → a = (d.v e.val f.a.val + f.imm).toNat →
    base = 0x18000000 + e.val * 0x100000 →
    (a % 4 ≠ 0 ∨ f.m.val = 1 ∧ (a % 8 ≠ 0 ∨ a < base ∨ base + 0x20000 ≤ a)) → ∀ t, t = (d.begun f).engineFault e.val 4 →
    t.fld (Reg.LE_STAT e.val) 23 16 = 4 ∧ t.estate e.val = 5 ∧ t.bit (Reg.evtRaw (0x10 + e.val)) 2 = true ∧
    (d.Issues e.val 0x18 { d := true, a := true, imm := allImm, mMax := 1, outs := 1 + f.m.val % 2 } f → Goes (.ld e f) s t) ∧
    (d.Issues e.val 0x19 { a := true, b := true, imm := allImm, mMax := 1 } f → Goes (.st e f) s t)

/-- R207: EN of an engine is cleared in HALTED and in FAULT, and in no other state. -/
def Obligations.EngineEnableHeldWhileRunning : Prop :=
  ∀ (s : State) (m : Master) (e : Fin 12) (a : BitVec 32) (v : Word) (same : Bool) (d : Dev), d = s.dev.enterCycle m same →
    a.toNat = 0x40010004 + e.val * 0x1000 → d.Reaches m (Reg.LE_CTRL e.val) → bitAt 0 v = false → bitAt 1 v = false →
    (d.estate e.val = 0 ∨ d.estate e.val = 5 → Goes (.registerWrite m a 4 v same) s (d.setBit (Reg.LE_CTRL e.val) 0 false)) ∧
    (d.estate e.val ≠ 0 → d.estate e.val ≠ 5 →
      ∃ t, Goes (.registerWrite m a 4 v same) s t ∧ d.Logged t (0x10 + e.val) m a.toNat true d.readData)

/-! ### Rules of the groups, their legs and the position interfaces -/

/-- R305: an enabled cause latches in every group state and whatever EN is; a group that is OFF stays OFF, one in STARTING, RUN or
STOPPING is TRIPPED. The cause that TRIP_NOW gives is one of them. -/
def Obligations.CausesLatchInEveryState : Prop :=
  ∀ (d : Dev) (g : Fin 12) (c : Fin 16), tripFixed c.val = true ∨ d.bit (Reg.PG_TRIP_EN g.val) c.val = true → d.latched g.val = false →
    (d.trip c.val g.val).latched g.val = true ∧ (d.trip c.val g.val).fld (Reg.PG_TRIP_STAT g.val) 27 24 = c.val ∧
    (d.trip c.val g.val).bit (Reg.PG_TRIP_STAT g.val) c.val = true ∧
    (d.gstate g.val = 0 → (d.trip c.val g.val).gstate g.val = 0) ∧
    (d.gstate g.val = 1 ∨ d.gstate g.val = 2 ∨ d.gstate g.val = 3 → (d.trip c.val g.val).gstate g.val = 4) ∧
    (∀ (s : State) (m : Master), d = s.dev → c = 7 → d.Reaches m (Reg.PG_CMD g.val) → Goes (.tripNow m g) s (d.trip c.val g.val))

/-- A leg that its group drives (R275): a switch is on only under its command, turns off at once where its command is off, and turns
on only where both switches have been off for the dead time. -/
def Obligations.SwitchesKeepDeadTime : Prop :=
  ∀ (d : Dev) (g : Fin 12) (k : Fin 4) (now : Nat) (o n : Leg), o = d.leg g.val k.val → n = (d.settleLegAt g.val now k.val).leg g.val k.val →
    (n.onH = true → (d.want g.val k.val).1 = true) ∧ (n.onL = true → (d.want g.val k.val).2 = true) ∧
    ((o.onH = true ∧ (d.want g.val k.val).1 = false) ∨ (o.onL = true ∧ (d.want g.val k.val).2 = false) → n.offAt = some now) ∧
    (n.onH = true ∧ o.onH = false ∨ n.onL = true ∧ o.onL = false →
      (o.onH = true ∨ o.onL = true → d.deadTime g.val = 0) ∧
      (o.onH = false → o.onL = false → ∀ t, o.offAt = some t → t + d.deadTime g.val ≤ now))

/-- GSTATE under the commands of groups and trips (R282): each change is one of the table, and sets STATE_CHANGE. -/
def Obligations.GroupStateChangesRaiseEvents : Prop :=
  ∀ (s : State) (m : Master) (g : Fin 12) (i : Fin 13) (v : Word) (b : Bool) (k : Nat) (c : Instr), (∀ h, s.dev.gstate h ≤ 4) →
    c ∈ [Instr.start m g, .stop m g, .stopNow m g, .tripNow m g, .tripClr m g, .gstart m v, .gstop m v, .gclr m v, .groupOff g,
      .tripInput i b k] →
    ∃ t, Goes c s t ∧ ∀ h : Fin 12, t.gstate h.val ≠ s.dev.gstate h.val → t.bit (Reg.evtRaw (0x20 + h.val)) 7 = true ∧
      (s.dev.gstate h.val, t.gstate h.val) ∈ [(0, 1), (1, 3), (2, 3), (4, 3), (3, 0), (1, 4), (2, 4), (3, 4)]

/-- R421 and R423: a transition of A or of B that their filter accepts is one edge, forward where A leads B, the other way with INV; POS
and REV follow it; two transitions in one cycle are no edge but an error. -/
def Obligations.EdgesMovePosition : Prop :=
  ∀ (s : State) (n : Fin 8) (a b fwd : Bool) (ns c pos rev : Nat) (d : Dev), d = s.dev →
    d.filtered (Reg.PAD_GRP n.val) ns = true → d.pfUnit n.val (Reg.PF_ABZ_CFG n.val) = true →
    c = d.fld (Reg.PF_ABZ_CFG n.val) 23 0 → pos = (d.reg (Reg.PF_POS n.val)).toNat → rev = d.fld (Reg.PF_REV n.val) 15 0 →
    ((a ≠ (d.pf n.val).a ∧ b = (d.pf n.val).b ∧ fwd = ((a != b) != d.bit (Reg.PF_ABZ_CFG n.val) 30)) ∨
      (a = (d.pf n.val).a ∧ b ≠ (d.pf n.val).b ∧ fwd = ((a == b) != d.bit (Reg.PF_ABZ_CFG n.val) 30)) →
      ∃ t p r, Goes (.abzEdge n a b ns) s t ∧ p = (t.reg (Reg.PF_POS n.val)).toNat ∧ r = t.fld (Reg.PF_REV n.val) 15 0 ∧
        (c = 0 → p = (if fwd then pos + 1 else pos + 0xFFFFFFFF) % 2 ^ 32 ∧ r = rev) ∧
        (c ≠ 0 → pos < c → fwd = true → (pos = c - 1 → p = 0 ∧ r = (rev + 1) % 2 ^ 16) ∧ (pos ≠ c - 1 → p = pos + 1 ∧ r = rev)) ∧
        (c ≠ 0 → pos < c → fwd = false → (pos = 0 → p = c - 1 ∧ r = (rev + 0xFFFF) % 2 ^ 16) ∧ (pos ≠ 0 → p = pos - 1 ∧ r = rev))) ∧
    (a ≠ (d.pf n.val).a → b ≠ (d.pf n.val).b → ∃ t, Goes (.abzEdge n a b ns) s t ∧ t.bit (Reg.evtRaw (0x68 + n.val)) 0 = true ∧
      t.fld (Reg.PF_QERR_CNT n.val) 15 0 = min 0xFFFF (d.fld (Reg.PF_QERR_CNT n.val) 15 0 + 1) ∧
      t.reg (Reg.PF_POS n.val) = d.reg (Reg.PF_POS n.val) ∧ t.reg (Reg.PF_REV n.val) = d.reg (Reg.PF_REV n.val))

/-- What balls show (R105, R292, R297, R299): unpowered they are of high impedance, and low in a cold reset; the gate pins of a leg are
never both high, and those of a group on a lane are low; SYNC_OUT is high for the 16 ticks from its pulse on; SKEW moves an edge of
the group's own commands and no other, and no edge before the one before it. -/
def Obligations.BallsShowTheState : Prop :=
  (∀ (d : Dev) (g : Fin 12) (k : Fin 4) (h : Bool),
    (d.bankOn 0 = false → d.gateBall g.val k.val h = .hiZ ∧ d.syncOutBall = .hiZ) ∧
    (d.bankOn 0 = true → d.coldHeld = true → d.gateBall g.val k.val h = .low ∧ d.syncOutBall = .low) ∧
    (d.gateBall g.val k.val h = .high → d.gateBall g.val k.val (!h) ≠ .high) ∧
    (d.laneGroup g.val = true → d.gateBall g.val k.val h ≠ .high)) ∧
  (∀ (s : State) (sel adv : Nat) (d : Dev), d = s.dev → sel = d.fld Reg.PWMSYS_SYNC_OUT 19 16 → adv = d.fld Reg.PWMSYS_SYNC_OUT 7 0 →
    sel < 12 → d.bit Reg.PWMSYS_SYNC_OUT 31 = true → d.bankOn 0 = true → d.coldHeld = false →
    (∃ x, d.nextStart sel = some (d.now + adv, x)) →
    ∃ t, Goes .syncOutPulse s t ∧ (∀ i, i < 16 → ({ t with now := t.now + i } : Dev).syncOutBall = .high) ∧
      ({ t with now := t.now + 16 } : Dev).syncOutBall = .low) ∧
  (∀ (d t : Dev) (own : Bool) (g : Fin 12) (k : Fin 4) (h l : Bool) (u : Nat) (x : LegEdge) (skew : Int),
    t = d.driveFrom own g.val k.val h l u → skew = signedOf 12 (d.fld (Reg.PG_SKEW g.val k.val) 11 0) →
    ((d.leg g.val k.val).onH ≠ h ∨ (d.leg g.val k.val).onL ≠ l) → (d.leg g.val k.val).hist.head? = some x →
    (own = true → ∃ rest, (t.leg g.val k.val).hist = { at_ := u, pin := max ((u : Int) + skew) x.pin, h := h, l := l } :: rest) ∧
    (own = false → x.pin ≤ u → ∃ rest, (t.leg g.val k.val).hist = { at_ := u, pin := u, h := h, l := l } :: rest))

/-! ### Rules of the triad, of safety, of the buses and of the planes -/

/-- R494: a disagreement of the three copies of a store is that of the copy from which the other two agree to differ, of kind DLY_OUT
where its delay stage failed its parity and OUTVOTED otherwise; where no two copies agree it is a triad fatal. -/
def Obligations.StoreDisagreementAttributed : Prop :=
  ∀ (s : State) (x : StoreSet) (d w : Dev), d = s.dev → d.triadRuns = true → x.vaVbDiff = false →
    w = d.when (voteStore x).store (Dev.votedWrite (voteStore x)) →
    (∀ (c : Nat) (copy p q : StoreCopy), (c, copy, p, q) ∈ [(0, x.t0, x.t1, x.t2), (1, x.t1, x.t0, x.t2), (2, x.t2, x.t0, x.t1)] →
      votedPart p = votedPart q → votedPart copy ≠ votedPart p →
      votedPart (voteStore x) = votedPart p ∧
      Goes (.votedStore x) s ((w.bumpSat Reg.TRIAD_OUTVOTE (10 * c + 9) (10 * c)).markOdd c (if copy.parityErr then 3 else 2))) ∧
    (votedPart x.t0 ≠ votedPart x.t1 → votedPart x.t0 ≠ votedPart x.t2 → votedPart x.t1 ≠ votedPart x.t2 →
      Goes (.votedStore x) s (w.triadFatal 6))

/-- Wrong passwords (R543): both counts step, the entry is logged or counted as dropped, the third in a row locks, and the lock
refuses OPEN without a comparison; its end leaves the count. -/
def Obligations.WrongPasswordsLock : Prop :=
  ∀ (s : State) (m : Master) (d : Dev), d = s.dev → d.Unlocked m Reg.SAFE_CMD → m = .host ∨ m = .medlar → d.sloe.crcRun = false →
    d.sessionOpen = false → d.deviceOff = true → d.cstate ≠ 3 →
    (d.bit Reg.SAFE_STAT 11 = false → d.sloe.pwIn ≠ d.sloe.password.getD 0 → ∃ t, Goes (.open_ m) s t ∧ t.sessionOpen = false ∧
      t.reg Reg.SAFE_RESULT = word 0x01030000 ∧ t.bit (Reg.evtRaw 0x92) 0 = true ∧
      t.fld Reg.SAFE_PW_FAIL 7 0 = min 0xFF (d.fld Reg.SAFE_PW_FAIL 7 0 + 1) ∧
      t.fld Reg.SAFE_PW_FAIL 31 16 = min 0xFFFF (d.fld Reg.SAFE_PW_FAIL 31 16 + 1) ∧
      t.bit Reg.SAFE_STAT 11 = decide (3 ≤ d.fld Reg.SAFE_PW_FAIL 7 0 + 1) ∧
      (d.logFull = false → ∃ e, t.sloe.log = d.sloe.log ++ [e] ∧ nth 0 e 13 = 7) ∧
      (d.logFull = true → t.sloe.log = d.sloe.log ∧
        t.fld Reg.SAFE_LOG_STAT 23 16 = min 0xFF (d.fld Reg.SAFE_LOG_STAT 23 16 + 1))) ∧
    (d.bit Reg.SAFE_STAT 11 = true → ∃ t, Goes (.open_ m) s t ∧ t.sessionOpen = false ∧ t.reg Reg.SAFE_RESULT = word 0x01040000 ∧
      t.reg Reg.SAFE_PW_FAIL = d.reg Reg.SAFE_PW_FAIL ∧ t.sloe.log = d.sloe.log) ∧
    (d.sloe.pwLockAt + 24000000000 = d.now → ∃ t, Goes .pwLockExpiry s t ∧ t.bit Reg.SAFE_STAT 11 = false ∧ t.reg Reg.SAFE_PW_FAIL = d.reg Reg.SAFE_PW_FAIL)

/-- R571: a 1 written to the bit of a buffer requests its transmission where the buffer is a TX buffer of the writer's with no request
pending; otherwise that bit is discarded, with ACCESS_ERR. -/
def Obligations.TransmissionRequestsAreAccepted : Prop :=
  ∀ (s : State) (m : Master) (n : Fin 4) (w : Fin 2) (v : Word) (d : Dev) (ok : Nat → Bool), d = s.dev →
    d.Reaches m (pairKey (Reg.MB_TXREQ0 n.val) (Reg.MB_TXREQ1 n.val) (32 * w.val)) →
    (∀ b, ok b = (d.bufRole n.val b == 2 && d.mayUseBuf m n.val b && !d.txPending n.val b)) →
    ∃ t, Goes (.txreq m n w v) s t ∧
      (∀ i : Fin 32, t.txPending n.val (32 * w.val + i.val) =
        (d.txPending n.val (32 * w.val + i.val) || (bitAt i.val v && ok (32 * w.val + i.val)))) ∧
      ((∃ i : Fin 32, bitAt i.val v = true ∧ ok (32 * w.val + i.val) = false) →
        t.bit (Reg.evtRaw (0x80 + n.val)) 31 = true ∧
        t.fld Reg.SYS_AERR_CNT 15 0 = min 0xFFFF (d.fld Reg.SYS_AERR_CNT 15 0 + 1)) ∧
      ((∀ i : Fin 32, bitAt i.val v = true → ok (32 * w.val + i.val) = true) → ∀ k,
        k ≠ pairKey (Reg.MB_TXREQ0 n.val) (Reg.MB_TXREQ1 n.val) (32 * w.val) → t.reg k = d.reg k)

/-- R592: DIN feeds four bytes, the least significant first, and DIN_B one; BYTES counts each; both take data only while the unit is
enabled and not busy, and are discarded with ACCESS_ERR at any other time. -/
def Obligations.DataWritesFeedBytes : Prop :=
  ∀ (s : State) (m : Master) (n : Fin 4) (v : Word) (d : Dev) (fed : Dev → Dev), d = s.dev → d.crcBarred m n.val = false →
    fed = Dev.modCrc n.val (fun x => { x with fedAt := some d.now }) →
    (∀ bs : List Byte, (d.crcFeed n.val bs).reg (Reg.CRC_BYTES n.val) = d.reg (Reg.CRC_BYTES n.val) + word bs.length) ∧
    (∀ (b : Byte) (bs : List Byte), (d.crcFeed n.val (b :: bs)).reg (Reg.CRC_RUN n.val) =
      ((d.crcFeed n.val [b]).crcFeed n.val bs).reg (Reg.CRC_RUN n.val)) ∧
    (d.Reaches m (Reg.CRC_DIN n.val) →
      (d.crcOn n.val = true → d.crcBusy n.val = false → Goes (.din m n v) s (fed
        (d.crcFeed n.val [v.extractLsb' 0 8, v.extractLsb' 8 8, v.extractLsb' 16 8, v.extractLsb' 24 8]))) ∧
      (d.crcOn n.val = false ∨ d.crcBusy n.val = true → ∃ t, Goes (.din m n v) s t ∧
        d.Logged t (0x88 + n.val) m (0x4008805C + n.val * 0x1000) true d.readData)) ∧
    (d.Reaches m (Reg.CRC_DIN_B n.val) →
      (d.crcOn n.val = true → d.crcBusy n.val = false → Goes (.dinB m n v) s (fed (d.crcFeed n.val [v.extractLsb' 0 8]))) ∧
      (d.crcOn n.val = false ∨ d.crcBusy n.val = true → ∃ t, Goes (.dinB m n v) s t ∧
        d.Logged t (0x88 + n.val) m (0x40088060 + n.val * 0x1000) true d.readData))

/-- R30: a plane reset, of Medlar's watchdog or of a RESET frame, changes neither the commit state nor the state of any group. The
run permit reads as R536 gives it. -/
def Obligations.PlaneResetLeavesControl : Prop :=
  ∀ (s : State) (ns : Nat) (count : Byte) (crc : BitVec 16) (c : Instr) (d : Dev), d = s.dev →
    d.reset.episode = none ∨ d.reset.episode = some .plane → d.bit Reg.SLOE_STAT 16 = d.runPermit →
    (c = .medlarWatchdog ∧ d.pageHeld 0x98 = false ∧ d.mgmt.wdtAt + 100000000 ≤ d.now) ∨
      (c = .spiReset ns 0x52530001 count crc ∧ d.hostTakes ns = true ∧ crc = hostCrc 0x10 0x52530001 count []) →
    ∃ t, Goes c s t ∧ t.reset.episode = some .plane ∧ t.pageHeld 0x98 = true ∧ t.cstate = d.cstate ∧
      ∀ g : Fin 12, t.gstate g.val = d.gstate g.val ∧ t.group g.val = d.group g.val

/-! ### What commands leave unchanged -/

/-- The frame of the instructions with one result: the destination apart, every register of every engine, every byte of memory, and
every register and shadow outside the engine's own page stand. -/
def Obligations.ArithmeticLeavesTheRest : Prop :=
  ∀ (s : State) (e : Fin 12) (f : EngFields) (d : Dev) (c : Instr) (op : Nat) (u : Form), d = s.dev → (c, op, u) ∈ instructionForms e f →
    op ≤ 0x15 ∨ op = 0x21 ∨ op = 0x28 ∨ op = 0x29 → d.Issues e.val op u f → ∃ t, Goes c s t ∧ d.SameMemory t ∧
      d.SameOutside [0x10 + e.val] t ∧ (∀ r, r ≠ f.d.val → t.v e.val r = d.v e.val r) ∧ (∀ n, n ≠ e.val → t.engine n = d.engine n) ∧
      t = { d with regs := t.regs, engines := t.engines, cyc := t.cyc }

/-- The frame of ST: a store to the engine's own memory writes its four or eight bytes and no other; a store that joins the queue
writes none. -/
def Obligations.StoresWriteTheirBytesAlone : Prop :=
  ∀ (s : State) (e : Fin 12) (f : EngFields) (d : Dev) (a : Nat), d = s.dev → a = d.memAddr e.val f →
    d.Issues e.val 0x19 { a := true, b := true, imm := allImm, mMax := 1 } f → misaligned e.val a f.m.val = false →
    ∃ t, Goes (.st e f) s t ∧ d.SameOutside [0x10 + e.val] t ∧ (∀ n r, t.v n r = d.v n r) ∧
      (ownTcm e.val a = false → d.SameMemory t) ∧
      (ownTcm e.val a = true → t.wordAt a = d.v e.val f.b.val ∧
        (f.m.val = 1 → f.b.val < 63 → t.wordAt (a + 4) = d.v e.val (f.b.val + 1)) ∧
        ∀ x, x < a ∨ a + 4 * (1 + f.m.val) ≤ x → t.byteAt x = d.byteAt x)

/-- A permitted write to memory stores its bytes, the least significant at the lowest address; every other byte, every register and
every shadow stands. -/
def Obligations.MemoryWritesStoreTheirBytes : Prop :=
  ∀ (s : State) (m : Master) (a : BitVec 32) (n : Nat) (v : Word) (same : Bool) (d : Dev) (r : Region), d = s.dev → 1 ≤ n → n ≤ 4 → n ≠ 3 →
    a.toNat % n = 0 → r ∈ Region.sram :: .triad :: .dram :: ((List.range 12).map .leProg ++ (List.range 12).map .leData) →
    regionOf a.toNat = r → d.mayAccess m true a.toNat = true →
    ∃ t, Goes (.registerWrite m a n v same) s t ∧
      (∀ i, i < n → t.byteAt (a.toNat + i) = v.extractLsb' (8 * i) 8) ∧
      (∀ x, x < a.toNat ∨ a.toNat + n ≤ x → t.byteAt x = d.byteAt x) ∧ (∀ k, t.reg k = d.reg k ∧ t.sh k = d.sh k)

/-- The frame of keys, of the check-value units and of the message buses: every byte of memory stands, every register and shadow outside
the command's own page and the record of access errors, and every other controller. -/
def Obligations.CommandsStayInTheirPage : Prop :=
  (∀ (s : State) (m : Master) (p : Nat) (n : Fin 4) (v : Word) (c : Instr) (page : Nat), (pageKind? p).isSome = true →
    (c, page) ∈ [(Instr.keyWrite m p v, p), (.keyWindowExpiry p, p), (.unlockTimeout p, p), (.crcInit m n, 0x88 + n.val),
      (.crcStart m n, 0x88 + n.val), (.crcAbort m n, 0x88 + n.val), (.check m n, 0x88 + n.val), (.din m n v, 0x88 + n.val), (.dinB m n v, 0x88 + n.val), (.crcRunWrite m n v, 0x88 + n.val), (.claim m n v, 0x88 + n.val)] ∨
      (c = .crcDmaDone n ∧ page = 0x88 + n.val ∧ s.dev.crcReadable n = s.dev.fld (Reg.CRC_LEN n.val) 23 0) →
    ∃ t, Goes c s t ∧ s.dev.SameMemory t ∧ s.dev.SameOutside [page, 0] t ∧
      t = { s.dev with regs := t.regs, crcs := t.crcs, cyc := t.cyc, dramAt := t.dramAt }) ∧
  (∀ (s : State) (m : Master) (n : Fin 4) (w : Fin 2) (w3 : Fin 3) (b : Fin 64) (k : Fin 32) (v : Word) (x : Bool) (o : TxOutcome) (tdcv : BitVec 7)
    (e : CanError) (i : CanErrorCase) (f : CanFrame) (c : Instr),
    c ∈ [Instr.init m n, .normal m n, .listen m n, .loopback m n, .busIntegrated n, .recover m n, .recovered n, .canBusError n e i x,
      .canFrameReceive n .sof f, .canFrameReceive n .arbitration f, .tsWrap n, .rxRelease m n w3 v, .txreq m n w v, .txabt m n w v, .transmissionStart n, .canTxEnd n o tdcv, .bufCfgWrite m n b v,
      .filterWrite m n k x v, .windowSelect m n w v] →
    ∃ t, Goes c s t ∧ s.dev.SameMemory t ∧ s.dev.SameOutside [0x80 + n.val, 0] t ∧ (∀ q, q ≠ n.val → t.ctl q = s.dev.ctl q) ∧
      t = { s.dev with regs := t.regs, can := t.can, cyc := t.cyc })

/-! ### The machine -/

/-- A step takes the command at the front and is its effect with the queue's rest; on an empty queue it is one tick of 2.5 ns
(the model's choice, notes/assumptions/2.md). -/
def Obligations.StepRunsTheFrontCommand : Prop :=
  (∀ (s : State) (c : Instr) (rest : List Instr), s.pending = c :: rest → step s = exec c { s with pending := rest }) ∧
  (∀ s : State, s.pending = [] → ∃ t, step s = .next t ∧ t.pending = [] ∧ t.dev.now = s.dev.now + 1)

/-- What reset leaves, by the values that the spec states. -/
def Obligations.ResetLeavesEverythingOff : Prop :=
  ∀ d, d = State.reset.dev → State.reset.pending = [] ∧ d.deviceOff = true ∧ d.cstate = 0 ∧ d.commitBusy = false ∧ d.stoState = 0 ∧
    d.sessionOpen = false ∧ d.faults = 0 ∧ d.triadHeld = true ∧ d.bit Reg.SLOE_STAT 16 = false ∧
    (∀ g : Fin 12, d.gstate g.val = 0 ∧ d.latched g.val = false ∧ d.estate g.val = 0 ∧ d.owned g.val = 2 ^ g.val ∧ d.lstate g.val = 0 ∧
      (d.group g.val).legs = Vector.replicate 4 {}) ∧
    (∀ n : Fin 4, d.canMode n.val = 0) ∧ (∀ p : Fin 256, (pageKind? p.val).isSome = true → d.kstate p.val = 0) ∧
    d.mem = [] ∧ d.dram = [] ∧ d.host.queue = []

/-- The state after reset is safe. -/
def Obligations.ResetIsSafe : Prop := State.reset.Safe

/-- Every step from a safe state leaves a safe state: stores and memories in canonical form, and no leg with both switches on (R275),
whatever the command, and through every tick. -/
def Obligations.StepKeepsSafe : Prop := ∀ s t : State, s.Safe → step s = .next t → t.Safe

/-- Every command has an effect in every state: it answers a next state with the queue as it stood. No command unburns a fuse or
changes the device's address, none advances time, and the stream of free values only moves on. -/
def Obligations.EveryCommandAnswers : Prop :=
  ∀ (c : Instr) (s : State), ∃ d, Goes c s d ∧ d.now = s.dev.now ∧ d.fuses.mac = s.dev.fuses.mac ∧
    (s.dev.fuses.sigRequired = true → d.fuses.sigRequired = true) ∧ (∀ h, s.dev.fuses.keyHash = some h → d.fuses.keyHash = some h) ∧
    s.dev.freeCount ≤ d.freeCount
end

