-- ==== Sys2Proof/Laws/Bits.lean ====
section
/-!
SUPPORT. Fields and bits of words: what a read gives after a write of the same field, and that other fields stand.
-/

namespace Sys2Proof.Machine

theorem bitAt_bitMask {i j : Nat} : bitAt j (bitMask i) = (decide (i = j) && decide (j < 32)) := by
  rw [bitAt, bitMask, BitVec.getLsbD_ofNat, Nat.testBit_two_pow, Bool.and_comm]

@[simp] theorem bitAt_setBit_same {i : Nat} (h : i < 32) (b : Bool) (w : Word) : bitAt i (setBit i b w) = b := by
  unfold setBit
  have := @bitAt_bitMask i i
  unfold bitAt at *
  cases b <;> simp [this, h]

theorem bitAt_setBit_ne {i j : Nat} (h : j ≠ i) (b : Bool) (w : Word) : bitAt j (setBit i b w) = bitAt j w := by
  unfold setBit
  have := @bitAt_bitMask i j
  unfold bitAt at *
  cases b
  · by_cases hj : j < 32
    · rw [if_neg (by simp), BitVec.getLsbD_and, BitVec.getLsbD_not, this]
      simp [h.symm, hj]
    · simp [BitVec.getLsbD_of_ge w j (by omega)]
  · simp [this, h.symm]

theorem bitAt_fieldMask {hi lo i : Nat} : bitAt i (fieldMask hi lo) = (decide (i < 32) && decide (lo ≤ i) && decide (i - lo < hi - lo + 1)) := by
  rw [bitAt, fieldMask, BitVec.getLsbD_ofNat, Nat.testBit_mul_two_pow, Nat.testBit_two_pow_sub_one, Bool.and_assoc]

theorem bitAt_place {hi lo v i : Nat} : bitAt i (place hi lo v) =
    (decide (i < 32) && decide (lo ≤ i) && decide (i - lo < hi - lo + 1) && v.testBit (i - lo)) := by
  rw [bitAt, place, BitVec.getLsbD_ofNat, Nat.testBit_mul_two_pow, Nat.testBit_mod_two_pow]
  simp only [Bool.and_assoc]

/-- A field of a word, bit by bit. -/
theorem testBit_fld {hi lo i : Nat} {w : Word} : (fld hi lo w).testBit i = (decide (i < hi - lo + 1) && bitAt (lo + i) w) := by
  simp [fld, bitAt, Nat.testBit_mod_two_pow, Nat.testBit_shiftRight, BitVec.getLsbD]

theorem bitAt_put {hi lo v i : Nat} {w : Word} : bitAt i (put hi lo v w) =
    (if lo ≤ i ∧ i - lo < hi - lo + 1 then decide (i < 32) && v.testBit (i - lo) else bitAt i w) := by
  have h1 := @bitAt_fieldMask hi lo i
  have h2 := @bitAt_place hi lo v i
  unfold put bitAt at *
  rw [BitVec.getLsbD_or, BitVec.getLsbD_and, BitVec.getLsbD_not, h1, h2]
  by_cases hi32 : i < 32
  · by_cases ha : lo ≤ i
    · by_cases hb : i - lo < hi - lo + 1 <;> simp [hi32, ha, hb]
    · simp [hi32, ha]
  · simp [hi32, BitVec.getLsbD_of_ge w i (by omega)]

/-- A field just written reads as what was written, cut to the field. -/
@[simp] theorem fld_put_same {hi lo v : Nat} (h : hi < 32) (hl : lo ≤ hi) (w : Word) : fld hi lo (put hi lo v w) = v % 2 ^ (hi - lo + 1) := by
  apply Nat.eq_of_testBit_eq
  intro i
  rw [testBit_fld, bitAt_put, Nat.testBit_mod_two_pow]
  by_cases hb : i < hi - lo + 1
  · have : lo + i < 32 := by omega
    simp [hb, this]
  · simp [hb]

/-- A field apart from the one written stands. -/
theorem fld_put_disjoint {hi lo hi' lo' v : Nat} (h : hi' < lo ∨ hi < lo') (hl : lo ≤ hi) (hl' : lo' ≤ hi') (w : Word) :
    fld hi' lo' (put hi lo v w) = fld hi' lo' w := by
  apply Nat.eq_of_testBit_eq
  intro i
  rw [testBit_fld, testBit_fld, bitAt_put]
  by_cases hb : i < hi' - lo' + 1
  · have : ¬ (lo ≤ lo' + i ∧ lo' + i - lo < hi - lo + 1) := by omega
    simp only [hb, if_neg this]
  · simp [hb]

theorem bitAt_put_outside {hi lo v i : Nat} (h : i < lo ∨ hi < i) (hl : lo ≤ hi) (w : Word) : bitAt i (put hi lo v w) = bitAt i w := by
  rw [bitAt_put, if_neg (by omega)]

theorem fld_setBit_outside {hi lo i : Nat} {b : Bool} (h : i < lo ∨ hi < i) (hl : lo ≤ hi) (w : Word) : fld hi lo (setBit i b w) = fld hi lo w := by
  apply Nat.eq_of_testBit_eq
  intro j
  rw [testBit_fld, testBit_fld]
  by_cases hb : j < hi - lo + 1
  · rw [bitAt_setBit_ne (by omega)]
  · simp [hb]

/-- A word is what its bits are. -/
theorem word_ext {a b : Word} (h : ∀ i < 32, bitAt i a = bitAt i b) : a = b := BitVec.eq_of_getLsbD_eq h

@[simp] theorem fld_zero (hi lo : Nat) : fld hi lo 0 = 0 := by
  unfold fld
  simp

end Sys2Proof.Machine
end

