-- ==== Sys2Proof/Laws/State.lean ====
section
/-!
SUPPORT. What each update of the device leaves in each of its fields: one lemma per field per update, true by unfolding.
-/

namespace Sys2Proof.Machine

/-! ### A register or a shadow written -/

@[simp] theorem Dev.setReg_regs (k : Nat) (v : Word) (d : Dev) : (d.setReg k v).regs = store resetWord k v d.regs := rfl
@[simp] theorem Dev.setReg_shadow (k : Nat) (v : Word) (d : Dev) : (d.setReg k v).shadow = d.shadow := rfl
@[simp] theorem Dev.setReg_mem (k : Nat) (v : Word) (d : Dev) : (d.setReg k v).mem = d.mem := rfl
@[simp] theorem Dev.setReg_triadMem (k : Nat) (v : Word) (d : Dev) : (d.setReg k v).triadMem = d.triadMem := rfl
@[simp] theorem Dev.setReg_dram (k : Nat) (v : Word) (d : Dev) : (d.setReg k v).dram = d.dram := rfl
@[simp] theorem Dev.setReg_flash (k : Nat) (v : Word) (d : Dev) : (d.setReg k v).flash = d.flash := rfl
@[simp] theorem Dev.setReg_dramEpoch (k : Nat) (v : Word) (d : Dev) : (d.setReg k v).dramEpoch = d.dramEpoch := rfl
@[simp] theorem Dev.setReg_now (k : Nat) (v : Word) (d : Dev) : (d.setReg k v).now = d.now := rfl
@[simp] theorem Dev.setReg_devTime (k : Nat) (v : Word) (d : Dev) : (d.setReg k v).devTime = d.devTime := rfl
@[simp] theorem Dev.setReg_rateAcc (k : Nat) (v : Word) (d : Dev) : (d.setReg k v).rateAcc = d.rateAcc := rfl
@[simp] theorem Dev.setReg_cyc (k : Nat) (v : Word) (d : Dev) : (d.setReg k v).cyc = d.cyc := rfl
@[simp] theorem Dev.setReg_readData (k : Nat) (v : Word) (d : Dev) : (d.setReg k v).readData = d.readData := rfl
@[simp] theorem Dev.setReg_freeCount (k : Nat) (v : Word) (d : Dev) : (d.setReg k v).freeCount = d.freeCount := rfl
@[simp] theorem Dev.setReg_timeHi (k : Nat) (v : Word) (d : Dev) : (d.setReg k v).timeHi = d.timeHi := rfl
@[simp] theorem Dev.setReg_activeSeen (k : Nat) (v : Word) (d : Dev) : (d.setReg k v).activeSeen = d.activeSeen := rfl
@[simp] theorem Dev.setReg_dramAt (k : Nat) (v : Word) (d : Dev) : (d.setReg k v).dramAt = d.dramAt := rfl
@[simp] theorem Dev.setReg_romAt (k : Nat) (v : Word) (d : Dev) : (d.setReg k v).romAt = d.romAt := rfl
@[simp] theorem Dev.setReg_flashSize (k : Nat) (v : Word) (d : Dev) : (d.setReg k v).flashSize = d.flashSize := rfl
@[simp] theorem Dev.setReg_syncOutAt (k : Nat) (v : Word) (d : Dev) : (d.setReg k v).syncOutAt = d.syncOutAt := rfl
@[simp] theorem Dev.setReg_reset (k : Nat) (v : Word) (d : Dev) : (d.setReg k v).reset = d.reset := rfl
@[simp] theorem Dev.setReg_supplies (k : Nat) (v : Word) (d : Dev) : (d.setReg k v).supplies = d.supplies := rfl
@[simp] theorem Dev.setReg_clocks (k : Nat) (v : Word) (d : Dev) : (d.setReg k v).clocks = d.clocks := rfl
@[simp] theorem Dev.setReg_loader (k : Nat) (v : Word) (d : Dev) : (d.setReg k v).loader = d.loader := rfl
@[simp] theorem Dev.setReg_fuses (k : Nat) (v : Word) (d : Dev) : (d.setReg k v).fuses = d.fuses := rfl
@[simp] theorem Dev.setReg_bootsel (k : Nat) (v : Word) (d : Dev) : (d.setReg k v).bootsel = d.bootsel := rfl
@[simp] theorem Dev.setReg_engines (k : Nat) (v : Word) (d : Dev) : (d.setReg k v).engines = d.engines := rfl
@[simp] theorem Dev.setReg_groups (k : Nat) (v : Word) (d : Dev) : (d.setReg k v).groups = d.groups := rfl
@[simp] theorem Dev.setReg_tripIn (k : Nat) (v : Word) (d : Dev) : (d.setReg k v).tripIn = d.tripIn := rfl
@[simp] theorem Dev.setReg_lanes (k : Nat) (v : Word) (d : Dev) : (d.setReg k v).lanes = d.lanes := rfl
@[simp] theorem Dev.setReg_conv (k : Nat) (v : Word) (d : Dev) : (d.setReg k v).conv = d.conv := rfl
@[simp] theorem Dev.setReg_acc (k : Nat) (v : Word) (d : Dev) : (d.setReg k v).acc = d.acc := rfl
@[simp] theorem Dev.setReg_mmx (k : Nat) (v : Word) (d : Dev) : (d.setReg k v).mmx = d.mmx := rfl
@[simp] theorem Dev.setReg_trims (k : Nat) (v : Word) (d : Dev) : (d.setReg k v).trims = d.trims := rfl
@[simp] theorem Dev.setReg_cmps (k : Nat) (v : Word) (d : Dev) : (d.setReg k v).cmps = d.cmps := rfl
@[simp] theorem Dev.setReg_cal (k : Nat) (v : Word) (d : Dev) : (d.setReg k v).cal = d.cal := rfl
@[simp] theorem Dev.setReg_acq (k : Nat) (v : Word) (d : Dev) : (d.setReg k v).acq = d.acq := rfl
@[simp] theorem Dev.setReg_pos (k : Nat) (v : Word) (d : Dev) : (d.setReg k v).pos = d.pos := rfl
@[simp] theorem Dev.setReg_mc (k : Nat) (v : Word) (d : Dev) : (d.setReg k v).mc = d.mc := rfl
@[simp] theorem Dev.setReg_triad (k : Nat) (v : Word) (d : Dev) : (d.setReg k v).triad = d.triad := rfl
@[simp] theorem Dev.setReg_sloe (k : Nat) (v : Word) (d : Dev) : (d.setReg k v).sloe = d.sloe := rfl
@[simp] theorem Dev.setReg_can (k : Nat) (v : Word) (d : Dev) : (d.setReg k v).can = d.can := rfl
@[simp] theorem Dev.setReg_crcs (k : Nat) (v : Word) (d : Dev) : (d.setReg k v).crcs = d.crcs := rfl
@[simp] theorem Dev.setReg_capture (k : Nat) (v : Word) (d : Dev) : (d.setReg k v).capture = d.capture := rfl
@[simp] theorem Dev.setReg_mgmt (k : Nat) (v : Word) (d : Dev) : (d.setReg k v).mgmt = d.mgmt := rfl
@[simp] theorem Dev.setReg_host (k : Nat) (v : Word) (d : Dev) : (d.setReg k v).host = d.host := rfl
@[simp] theorem Dev.setReg_net (k : Nat) (v : Word) (d : Dev) : (d.setReg k v).net = d.net := rfl
@[simp] theorem Dev.setReg_canopen (k : Nat) (v : Word) (d : Dev) : (d.setReg k v).canopen = d.canopen := rfl
@[simp] theorem Dev.setReg_gpioIn (k : Nat) (v : Word) (d : Dev) : (d.setReg k v).gpioIn = d.gpioIn := rfl
@[simp] theorem Dev.setReg_padHeld (k : Nat) (v : Word) (d : Dev) : (d.setReg k v).padHeld = d.padHeld := rfl

@[simp] theorem Dev.setSh_regs (k : Nat) (v : Word) (d : Dev) : (d.setSh k v).regs = d.regs := rfl
@[simp] theorem Dev.setSh_shadow (k : Nat) (v : Word) (d : Dev) : (d.setSh k v).shadow = store resetWord k v d.shadow := rfl
@[simp] theorem Dev.setSh_mem (k : Nat) (v : Word) (d : Dev) : (d.setSh k v).mem = d.mem := rfl
@[simp] theorem Dev.setSh_triadMem (k : Nat) (v : Word) (d : Dev) : (d.setSh k v).triadMem = d.triadMem := rfl
@[simp] theorem Dev.setSh_dram (k : Nat) (v : Word) (d : Dev) : (d.setSh k v).dram = d.dram := rfl
@[simp] theorem Dev.setSh_flash (k : Nat) (v : Word) (d : Dev) : (d.setSh k v).flash = d.flash := rfl
@[simp] theorem Dev.setSh_dramEpoch (k : Nat) (v : Word) (d : Dev) : (d.setSh k v).dramEpoch = d.dramEpoch := rfl
@[simp] theorem Dev.setSh_now (k : Nat) (v : Word) (d : Dev) : (d.setSh k v).now = d.now := rfl
@[simp] theorem Dev.setSh_devTime (k : Nat) (v : Word) (d : Dev) : (d.setSh k v).devTime = d.devTime := rfl
@[simp] theorem Dev.setSh_rateAcc (k : Nat) (v : Word) (d : Dev) : (d.setSh k v).rateAcc = d.rateAcc := rfl
@[simp] theorem Dev.setSh_cyc (k : Nat) (v : Word) (d : Dev) : (d.setSh k v).cyc = d.cyc := rfl
@[simp] theorem Dev.setSh_readData (k : Nat) (v : Word) (d : Dev) : (d.setSh k v).readData = d.readData := rfl
@[simp] theorem Dev.setSh_freeCount (k : Nat) (v : Word) (d : Dev) : (d.setSh k v).freeCount = d.freeCount := rfl
@[simp] theorem Dev.setSh_timeHi (k : Nat) (v : Word) (d : Dev) : (d.setSh k v).timeHi = d.timeHi := rfl
@[simp] theorem Dev.setSh_activeSeen (k : Nat) (v : Word) (d : Dev) : (d.setSh k v).activeSeen = d.activeSeen := rfl
@[simp] theorem Dev.setSh_dramAt (k : Nat) (v : Word) (d : Dev) : (d.setSh k v).dramAt = d.dramAt := rfl
@[simp] theorem Dev.setSh_romAt (k : Nat) (v : Word) (d : Dev) : (d.setSh k v).romAt = d.romAt := rfl
@[simp] theorem Dev.setSh_flashSize (k : Nat) (v : Word) (d : Dev) : (d.setSh k v).flashSize = d.flashSize := rfl
@[simp] theorem Dev.setSh_syncOutAt (k : Nat) (v : Word) (d : Dev) : (d.setSh k v).syncOutAt = d.syncOutAt := rfl
@[simp] theorem Dev.setSh_reset (k : Nat) (v : Word) (d : Dev) : (d.setSh k v).reset = d.reset := rfl
@[simp] theorem Dev.setSh_supplies (k : Nat) (v : Word) (d : Dev) : (d.setSh k v).supplies = d.supplies := rfl
@[simp] theorem Dev.setSh_clocks (k : Nat) (v : Word) (d : Dev) : (d.setSh k v).clocks = d.clocks := rfl
@[simp] theorem Dev.setSh_loader (k : Nat) (v : Word) (d : Dev) : (d.setSh k v).loader = d.loader := rfl
@[simp] theorem Dev.setSh_fuses (k : Nat) (v : Word) (d : Dev) : (d.setSh k v).fuses = d.fuses := rfl
@[simp] theorem Dev.setSh_bootsel (k : Nat) (v : Word) (d : Dev) : (d.setSh k v).bootsel = d.bootsel := rfl
@[simp] theorem Dev.setSh_engines (k : Nat) (v : Word) (d : Dev) : (d.setSh k v).engines = d.engines := rfl
@[simp] theorem Dev.setSh_groups (k : Nat) (v : Word) (d : Dev) : (d.setSh k v).groups = d.groups := rfl
@[simp] theorem Dev.setSh_tripIn (k : Nat) (v : Word) (d : Dev) : (d.setSh k v).tripIn = d.tripIn := rfl
@[simp] theorem Dev.setSh_lanes (k : Nat) (v : Word) (d : Dev) : (d.setSh k v).lanes = d.lanes := rfl
@[simp] theorem Dev.setSh_conv (k : Nat) (v : Word) (d : Dev) : (d.setSh k v).conv = d.conv := rfl
@[simp] theorem Dev.setSh_acc (k : Nat) (v : Word) (d : Dev) : (d.setSh k v).acc = d.acc := rfl
@[simp] theorem Dev.setSh_mmx (k : Nat) (v : Word) (d : Dev) : (d.setSh k v).mmx = d.mmx := rfl
@[simp] theorem Dev.setSh_trims (k : Nat) (v : Word) (d : Dev) : (d.setSh k v).trims = d.trims := rfl
@[simp] theorem Dev.setSh_cmps (k : Nat) (v : Word) (d : Dev) : (d.setSh k v).cmps = d.cmps := rfl
@[simp] theorem Dev.setSh_cal (k : Nat) (v : Word) (d : Dev) : (d.setSh k v).cal = d.cal := rfl
@[simp] theorem Dev.setSh_acq (k : Nat) (v : Word) (d : Dev) : (d.setSh k v).acq = d.acq := rfl
@[simp] theorem Dev.setSh_pos (k : Nat) (v : Word) (d : Dev) : (d.setSh k v).pos = d.pos := rfl
@[simp] theorem Dev.setSh_mc (k : Nat) (v : Word) (d : Dev) : (d.setSh k v).mc = d.mc := rfl
@[simp] theorem Dev.setSh_triad (k : Nat) (v : Word) (d : Dev) : (d.setSh k v).triad = d.triad := rfl
@[simp] theorem Dev.setSh_sloe (k : Nat) (v : Word) (d : Dev) : (d.setSh k v).sloe = d.sloe := rfl
@[simp] theorem Dev.setSh_can (k : Nat) (v : Word) (d : Dev) : (d.setSh k v).can = d.can := rfl
@[simp] theorem Dev.setSh_crcs (k : Nat) (v : Word) (d : Dev) : (d.setSh k v).crcs = d.crcs := rfl
@[simp] theorem Dev.setSh_capture (k : Nat) (v : Word) (d : Dev) : (d.setSh k v).capture = d.capture := rfl
@[simp] theorem Dev.setSh_mgmt (k : Nat) (v : Word) (d : Dev) : (d.setSh k v).mgmt = d.mgmt := rfl
@[simp] theorem Dev.setSh_host (k : Nat) (v : Word) (d : Dev) : (d.setSh k v).host = d.host := rfl
@[simp] theorem Dev.setSh_net (k : Nat) (v : Word) (d : Dev) : (d.setSh k v).net = d.net := rfl
@[simp] theorem Dev.setSh_canopen (k : Nat) (v : Word) (d : Dev) : (d.setSh k v).canopen = d.canopen := rfl
@[simp] theorem Dev.setSh_gpioIn (k : Nat) (v : Word) (d : Dev) : (d.setSh k v).gpioIn = d.gpioIn := rfl
@[simp] theorem Dev.setSh_padHeld (k : Nat) (v : Word) (d : Dev) : (d.setSh k v).padHeld = d.padHeld := rfl

/-! ### The stream of free values -/

@[simp] theorem Dev.free_regs (d : Dev) : (d.free.2).regs = d.regs := rfl
@[simp] theorem Dev.free_shadow (d : Dev) : (d.free.2).shadow = d.shadow := rfl
@[simp] theorem Dev.free_mem (d : Dev) : (d.free.2).mem = d.mem := rfl
@[simp] theorem Dev.free_triadMem (d : Dev) : (d.free.2).triadMem = d.triadMem := rfl
@[simp] theorem Dev.free_dram (d : Dev) : (d.free.2).dram = d.dram := rfl
@[simp] theorem Dev.free_flash (d : Dev) : (d.free.2).flash = d.flash := rfl
@[simp] theorem Dev.free_dramEpoch (d : Dev) : (d.free.2).dramEpoch = d.dramEpoch := rfl
@[simp] theorem Dev.free_now (d : Dev) : (d.free.2).now = d.now := rfl
@[simp] theorem Dev.free_devTime (d : Dev) : (d.free.2).devTime = d.devTime := rfl
@[simp] theorem Dev.free_rateAcc (d : Dev) : (d.free.2).rateAcc = d.rateAcc := rfl
@[simp] theorem Dev.free_cyc (d : Dev) : (d.free.2).cyc = d.cyc := rfl
@[simp] theorem Dev.free_readData (d : Dev) : (d.free.2).readData = d.readData := rfl
@[simp] theorem Dev.free_freeCount (d : Dev) : (d.free.2).freeCount = d.freeCount + 1 := rfl
@[simp] theorem Dev.free_timeHi (d : Dev) : (d.free.2).timeHi = d.timeHi := rfl
@[simp] theorem Dev.free_activeSeen (d : Dev) : (d.free.2).activeSeen = d.activeSeen := rfl
@[simp] theorem Dev.free_dramAt (d : Dev) : (d.free.2).dramAt = d.dramAt := rfl
@[simp] theorem Dev.free_romAt (d : Dev) : (d.free.2).romAt = d.romAt := rfl
@[simp] theorem Dev.free_flashSize (d : Dev) : (d.free.2).flashSize = d.flashSize := rfl
@[simp] theorem Dev.free_syncOutAt (d : Dev) : (d.free.2).syncOutAt = d.syncOutAt := rfl
@[simp] theorem Dev.free_reset (d : Dev) : (d.free.2).reset = d.reset := rfl
@[simp] theorem Dev.free_supplies (d : Dev) : (d.free.2).supplies = d.supplies := rfl
@[simp] theorem Dev.free_clocks (d : Dev) : (d.free.2).clocks = d.clocks := rfl
@[simp] theorem Dev.free_loader (d : Dev) : (d.free.2).loader = d.loader := rfl
@[simp] theorem Dev.free_fuses (d : Dev) : (d.free.2).fuses = d.fuses := rfl
@[simp] theorem Dev.free_bootsel (d : Dev) : (d.free.2).bootsel = d.bootsel := rfl
@[simp] theorem Dev.free_engines (d : Dev) : (d.free.2).engines = d.engines := rfl
@[simp] theorem Dev.free_groups (d : Dev) : (d.free.2).groups = d.groups := rfl
@[simp] theorem Dev.free_tripIn (d : Dev) : (d.free.2).tripIn = d.tripIn := rfl
@[simp] theorem Dev.free_lanes (d : Dev) : (d.free.2).lanes = d.lanes := rfl
@[simp] theorem Dev.free_conv (d : Dev) : (d.free.2).conv = d.conv := rfl
@[simp] theorem Dev.free_acc (d : Dev) : (d.free.2).acc = d.acc := rfl
@[simp] theorem Dev.free_mmx (d : Dev) : (d.free.2).mmx = d.mmx := rfl
@[simp] theorem Dev.free_trims (d : Dev) : (d.free.2).trims = d.trims := rfl
@[simp] theorem Dev.free_cmps (d : Dev) : (d.free.2).cmps = d.cmps := rfl
@[simp] theorem Dev.free_cal (d : Dev) : (d.free.2).cal = d.cal := rfl
@[simp] theorem Dev.free_acq (d : Dev) : (d.free.2).acq = d.acq := rfl
@[simp] theorem Dev.free_pos (d : Dev) : (d.free.2).pos = d.pos := rfl
@[simp] theorem Dev.free_mc (d : Dev) : (d.free.2).mc = d.mc := rfl
@[simp] theorem Dev.free_triad (d : Dev) : (d.free.2).triad = d.triad := rfl
@[simp] theorem Dev.free_sloe (d : Dev) : (d.free.2).sloe = d.sloe := rfl
@[simp] theorem Dev.free_can (d : Dev) : (d.free.2).can = d.can := rfl
@[simp] theorem Dev.free_crcs (d : Dev) : (d.free.2).crcs = d.crcs := rfl
@[simp] theorem Dev.free_capture (d : Dev) : (d.free.2).capture = d.capture := rfl
@[simp] theorem Dev.free_mgmt (d : Dev) : (d.free.2).mgmt = d.mgmt := rfl
@[simp] theorem Dev.free_host (d : Dev) : (d.free.2).host = d.host := rfl
@[simp] theorem Dev.free_net (d : Dev) : (d.free.2).net = d.net := rfl
@[simp] theorem Dev.free_canopen (d : Dev) : (d.free.2).canopen = d.canopen := rfl
@[simp] theorem Dev.free_gpioIn (d : Dev) : (d.free.2).gpioIn = d.gpioIn := rfl
@[simp] theorem Dev.free_padHeld (d : Dev) : (d.free.2).padHeld = d.padHeld := rfl

/-! ### One field replaced -/

@[simp] theorem Dev.putCyc_regs (x : FabCycle) (d : Dev) : (Dev.putCyc x d).regs = d.regs := rfl
@[simp] theorem Dev.putCyc_shadow (x : FabCycle) (d : Dev) : (Dev.putCyc x d).shadow = d.shadow := rfl
@[simp] theorem Dev.putCyc_mem (x : FabCycle) (d : Dev) : (Dev.putCyc x d).mem = d.mem := rfl
@[simp] theorem Dev.putCyc_triadMem (x : FabCycle) (d : Dev) : (Dev.putCyc x d).triadMem = d.triadMem := rfl
@[simp] theorem Dev.putCyc_dram (x : FabCycle) (d : Dev) : (Dev.putCyc x d).dram = d.dram := rfl
@[simp] theorem Dev.putCyc_flash (x : FabCycle) (d : Dev) : (Dev.putCyc x d).flash = d.flash := rfl
@[simp] theorem Dev.putCyc_dramEpoch (x : FabCycle) (d : Dev) : (Dev.putCyc x d).dramEpoch = d.dramEpoch := rfl
@[simp] theorem Dev.putCyc_now (x : FabCycle) (d : Dev) : (Dev.putCyc x d).now = d.now := rfl
@[simp] theorem Dev.putCyc_devTime (x : FabCycle) (d : Dev) : (Dev.putCyc x d).devTime = d.devTime := rfl
@[simp] theorem Dev.putCyc_rateAcc (x : FabCycle) (d : Dev) : (Dev.putCyc x d).rateAcc = d.rateAcc := rfl
@[simp] theorem Dev.putCyc_cyc (x : FabCycle) (d : Dev) : (Dev.putCyc x d).cyc = x := rfl
@[simp] theorem Dev.putCyc_readData (x : FabCycle) (d : Dev) : (Dev.putCyc x d).readData = d.readData := rfl
@[simp] theorem Dev.putCyc_freeCount (x : FabCycle) (d : Dev) : (Dev.putCyc x d).freeCount = d.freeCount := rfl
@[simp] theorem Dev.putCyc_timeHi (x : FabCycle) (d : Dev) : (Dev.putCyc x d).timeHi = d.timeHi := rfl
@[simp] theorem Dev.putCyc_activeSeen (x : FabCycle) (d : Dev) : (Dev.putCyc x d).activeSeen = d.activeSeen := rfl
@[simp] theorem Dev.putCyc_dramAt (x : FabCycle) (d : Dev) : (Dev.putCyc x d).dramAt = d.dramAt := rfl
@[simp] theorem Dev.putCyc_romAt (x : FabCycle) (d : Dev) : (Dev.putCyc x d).romAt = d.romAt := rfl
@[simp] theorem Dev.putCyc_flashSize (x : FabCycle) (d : Dev) : (Dev.putCyc x d).flashSize = d.flashSize := rfl
@[simp] theorem Dev.putCyc_syncOutAt (x : FabCycle) (d : Dev) : (Dev.putCyc x d).syncOutAt = d.syncOutAt := rfl
@[simp] theorem Dev.putCyc_reset (x : FabCycle) (d : Dev) : (Dev.putCyc x d).reset = d.reset := rfl
@[simp] theorem Dev.putCyc_supplies (x : FabCycle) (d : Dev) : (Dev.putCyc x d).supplies = d.supplies := rfl
@[simp] theorem Dev.putCyc_clocks (x : FabCycle) (d : Dev) : (Dev.putCyc x d).clocks = d.clocks := rfl
@[simp] theorem Dev.putCyc_loader (x : FabCycle) (d : Dev) : (Dev.putCyc x d).loader = d.loader := rfl
@[simp] theorem Dev.putCyc_fuses (x : FabCycle) (d : Dev) : (Dev.putCyc x d).fuses = d.fuses := rfl
@[simp] theorem Dev.putCyc_bootsel (x : FabCycle) (d : Dev) : (Dev.putCyc x d).bootsel = d.bootsel := rfl
@[simp] theorem Dev.putCyc_engines (x : FabCycle) (d : Dev) : (Dev.putCyc x d).engines = d.engines := rfl
@[simp] theorem Dev.putCyc_groups (x : FabCycle) (d : Dev) : (Dev.putCyc x d).groups = d.groups := rfl
@[simp] theorem Dev.putCyc_tripIn (x : FabCycle) (d : Dev) : (Dev.putCyc x d).tripIn = d.tripIn := rfl
@[simp] theorem Dev.putCyc_lanes (x : FabCycle) (d : Dev) : (Dev.putCyc x d).lanes = d.lanes := rfl
@[simp] theorem Dev.putCyc_conv (x : FabCycle) (d : Dev) : (Dev.putCyc x d).conv = d.conv := rfl
@[simp] theorem Dev.putCyc_acc (x : FabCycle) (d : Dev) : (Dev.putCyc x d).acc = d.acc := rfl
@[simp] theorem Dev.putCyc_mmx (x : FabCycle) (d : Dev) : (Dev.putCyc x d).mmx = d.mmx := rfl
@[simp] theorem Dev.putCyc_trims (x : FabCycle) (d : Dev) : (Dev.putCyc x d).trims = d.trims := rfl
@[simp] theorem Dev.putCyc_cmps (x : FabCycle) (d : Dev) : (Dev.putCyc x d).cmps = d.cmps := rfl
@[simp] theorem Dev.putCyc_cal (x : FabCycle) (d : Dev) : (Dev.putCyc x d).cal = d.cal := rfl
@[simp] theorem Dev.putCyc_acq (x : FabCycle) (d : Dev) : (Dev.putCyc x d).acq = d.acq := rfl
@[simp] theorem Dev.putCyc_pos (x : FabCycle) (d : Dev) : (Dev.putCyc x d).pos = d.pos := rfl
@[simp] theorem Dev.putCyc_mc (x : FabCycle) (d : Dev) : (Dev.putCyc x d).mc = d.mc := rfl
@[simp] theorem Dev.putCyc_triad (x : FabCycle) (d : Dev) : (Dev.putCyc x d).triad = d.triad := rfl
@[simp] theorem Dev.putCyc_sloe (x : FabCycle) (d : Dev) : (Dev.putCyc x d).sloe = d.sloe := rfl
@[simp] theorem Dev.putCyc_can (x : FabCycle) (d : Dev) : (Dev.putCyc x d).can = d.can := rfl
@[simp] theorem Dev.putCyc_crcs (x : FabCycle) (d : Dev) : (Dev.putCyc x d).crcs = d.crcs := rfl
@[simp] theorem Dev.putCyc_capture (x : FabCycle) (d : Dev) : (Dev.putCyc x d).capture = d.capture := rfl
@[simp] theorem Dev.putCyc_mgmt (x : FabCycle) (d : Dev) : (Dev.putCyc x d).mgmt = d.mgmt := rfl
@[simp] theorem Dev.putCyc_host (x : FabCycle) (d : Dev) : (Dev.putCyc x d).host = d.host := rfl
@[simp] theorem Dev.putCyc_net (x : FabCycle) (d : Dev) : (Dev.putCyc x d).net = d.net := rfl
@[simp] theorem Dev.putCyc_canopen (x : FabCycle) (d : Dev) : (Dev.putCyc x d).canopen = d.canopen := rfl
@[simp] theorem Dev.putCyc_gpioIn (x : FabCycle) (d : Dev) : (Dev.putCyc x d).gpioIn = d.gpioIn := rfl
@[simp] theorem Dev.putCyc_padHeld (x : FabCycle) (d : Dev) : (Dev.putCyc x d).padHeld = d.padHeld := rfl

@[simp] theorem Dev.putCyc_reg (x : FabCycle) (d : Dev) (k : Nat) : (Dev.putCyc x d).reg k = d.reg k := rfl
@[simp] theorem Dev.putCyc_sh (x : FabCycle) (d : Dev) (k : Nat) : (Dev.putCyc x d).sh k = d.sh k := rfl

@[simp] theorem Dev.putDevTime_regs (x : Nat) (d : Dev) : (Dev.putDevTime x d).regs = d.regs := rfl
@[simp] theorem Dev.putDevTime_shadow (x : Nat) (d : Dev) : (Dev.putDevTime x d).shadow = d.shadow := rfl
@[simp] theorem Dev.putDevTime_mem (x : Nat) (d : Dev) : (Dev.putDevTime x d).mem = d.mem := rfl
@[simp] theorem Dev.putDevTime_triadMem (x : Nat) (d : Dev) : (Dev.putDevTime x d).triadMem = d.triadMem := rfl
@[simp] theorem Dev.putDevTime_dram (x : Nat) (d : Dev) : (Dev.putDevTime x d).dram = d.dram := rfl
@[simp] theorem Dev.putDevTime_flash (x : Nat) (d : Dev) : (Dev.putDevTime x d).flash = d.flash := rfl
@[simp] theorem Dev.putDevTime_dramEpoch (x : Nat) (d : Dev) : (Dev.putDevTime x d).dramEpoch = d.dramEpoch := rfl
@[simp] theorem Dev.putDevTime_now (x : Nat) (d : Dev) : (Dev.putDevTime x d).now = d.now := rfl
@[simp] theorem Dev.putDevTime_devTime (x : Nat) (d : Dev) : (Dev.putDevTime x d).devTime = x := rfl
@[simp] theorem Dev.putDevTime_rateAcc (x : Nat) (d : Dev) : (Dev.putDevTime x d).rateAcc = d.rateAcc := rfl
@[simp] theorem Dev.putDevTime_cyc (x : Nat) (d : Dev) : (Dev.putDevTime x d).cyc = d.cyc := rfl
@[simp] theorem Dev.putDevTime_readData (x : Nat) (d : Dev) : (Dev.putDevTime x d).readData = d.readData := rfl
@[simp] theorem Dev.putDevTime_freeCount (x : Nat) (d : Dev) : (Dev.putDevTime x d).freeCount = d.freeCount := rfl
@[simp] theorem Dev.putDevTime_timeHi (x : Nat) (d : Dev) : (Dev.putDevTime x d).timeHi = d.timeHi := rfl
@[simp] theorem Dev.putDevTime_activeSeen (x : Nat) (d : Dev) : (Dev.putDevTime x d).activeSeen = d.activeSeen := rfl
@[simp] theorem Dev.putDevTime_dramAt (x : Nat) (d : Dev) : (Dev.putDevTime x d).dramAt = d.dramAt := rfl
@[simp] theorem Dev.putDevTime_romAt (x : Nat) (d : Dev) : (Dev.putDevTime x d).romAt = d.romAt := rfl
@[simp] theorem Dev.putDevTime_flashSize (x : Nat) (d : Dev) : (Dev.putDevTime x d).flashSize = d.flashSize := rfl
@[simp] theorem Dev.putDevTime_syncOutAt (x : Nat) (d : Dev) : (Dev.putDevTime x d).syncOutAt = d.syncOutAt := rfl
@[simp] theorem Dev.putDevTime_reset (x : Nat) (d : Dev) : (Dev.putDevTime x d).reset = d.reset := rfl
@[simp] theorem Dev.putDevTime_supplies (x : Nat) (d : Dev) : (Dev.putDevTime x d).supplies = d.supplies := rfl
@[simp] theorem Dev.putDevTime_clocks (x : Nat) (d : Dev) : (Dev.putDevTime x d).clocks = d.clocks := rfl
@[simp] theorem Dev.putDevTime_loader (x : Nat) (d : Dev) : (Dev.putDevTime x d).loader = d.loader := rfl
@[simp] theorem Dev.putDevTime_fuses (x : Nat) (d : Dev) : (Dev.putDevTime x d).fuses = d.fuses := rfl
@[simp] theorem Dev.putDevTime_bootsel (x : Nat) (d : Dev) : (Dev.putDevTime x d).bootsel = d.bootsel := rfl
@[simp] theorem Dev.putDevTime_engines (x : Nat) (d : Dev) : (Dev.putDevTime x d).engines = d.engines := rfl
@[simp] theorem Dev.putDevTime_groups (x : Nat) (d : Dev) : (Dev.putDevTime x d).groups = d.groups := rfl
@[simp] theorem Dev.putDevTime_tripIn (x : Nat) (d : Dev) : (Dev.putDevTime x d).tripIn = d.tripIn := rfl
@[simp] theorem Dev.putDevTime_lanes (x : Nat) (d : Dev) : (Dev.putDevTime x d).lanes = d.lanes := rfl
@[simp] theorem Dev.putDevTime_conv (x : Nat) (d : Dev) : (Dev.putDevTime x d).conv = d.conv := rfl
@[simp] theorem Dev.putDevTime_acc (x : Nat) (d : Dev) : (Dev.putDevTime x d).acc = d.acc := rfl
@[simp] theorem Dev.putDevTime_mmx (x : Nat) (d : Dev) : (Dev.putDevTime x d).mmx = d.mmx := rfl
@[simp] theorem Dev.putDevTime_trims (x : Nat) (d : Dev) : (Dev.putDevTime x d).trims = d.trims := rfl
@[simp] theorem Dev.putDevTime_cmps (x : Nat) (d : Dev) : (Dev.putDevTime x d).cmps = d.cmps := rfl
@[simp] theorem Dev.putDevTime_cal (x : Nat) (d : Dev) : (Dev.putDevTime x d).cal = d.cal := rfl
@[simp] theorem Dev.putDevTime_acq (x : Nat) (d : Dev) : (Dev.putDevTime x d).acq = d.acq := rfl
@[simp] theorem Dev.putDevTime_pos (x : Nat) (d : Dev) : (Dev.putDevTime x d).pos = d.pos := rfl
@[simp] theorem Dev.putDevTime_mc (x : Nat) (d : Dev) : (Dev.putDevTime x d).mc = d.mc := rfl
@[simp] theorem Dev.putDevTime_triad (x : Nat) (d : Dev) : (Dev.putDevTime x d).triad = d.triad := rfl
@[simp] theorem Dev.putDevTime_sloe (x : Nat) (d : Dev) : (Dev.putDevTime x d).sloe = d.sloe := rfl
@[simp] theorem Dev.putDevTime_can (x : Nat) (d : Dev) : (Dev.putDevTime x d).can = d.can := rfl
@[simp] theorem Dev.putDevTime_crcs (x : Nat) (d : Dev) : (Dev.putDevTime x d).crcs = d.crcs := rfl
@[simp] theorem Dev.putDevTime_capture (x : Nat) (d : Dev) : (Dev.putDevTime x d).capture = d.capture := rfl
@[simp] theorem Dev.putDevTime_mgmt (x : Nat) (d : Dev) : (Dev.putDevTime x d).mgmt = d.mgmt := rfl
@[simp] theorem Dev.putDevTime_host (x : Nat) (d : Dev) : (Dev.putDevTime x d).host = d.host := rfl
@[simp] theorem Dev.putDevTime_net (x : Nat) (d : Dev) : (Dev.putDevTime x d).net = d.net := rfl
@[simp] theorem Dev.putDevTime_canopen (x : Nat) (d : Dev) : (Dev.putDevTime x d).canopen = d.canopen := rfl
@[simp] theorem Dev.putDevTime_gpioIn (x : Nat) (d : Dev) : (Dev.putDevTime x d).gpioIn = d.gpioIn := rfl
@[simp] theorem Dev.putDevTime_padHeld (x : Nat) (d : Dev) : (Dev.putDevTime x d).padHeld = d.padHeld := rfl

@[simp] theorem Dev.putDevTime_reg (x : Nat) (d : Dev) (k : Nat) : (Dev.putDevTime x d).reg k = d.reg k := rfl
@[simp] theorem Dev.putDevTime_sh (x : Nat) (d : Dev) (k : Nat) : (Dev.putDevTime x d).sh k = d.sh k := rfl

@[simp] theorem Dev.putRateAcc_regs (x : Int) (d : Dev) : (Dev.putRateAcc x d).regs = d.regs := rfl
@[simp] theorem Dev.putRateAcc_shadow (x : Int) (d : Dev) : (Dev.putRateAcc x d).shadow = d.shadow := rfl
@[simp] theorem Dev.putRateAcc_mem (x : Int) (d : Dev) : (Dev.putRateAcc x d).mem = d.mem := rfl
@[simp] theorem Dev.putRateAcc_triadMem (x : Int) (d : Dev) : (Dev.putRateAcc x d).triadMem = d.triadMem := rfl
@[simp] theorem Dev.putRateAcc_dram (x : Int) (d : Dev) : (Dev.putRateAcc x d).dram = d.dram := rfl
@[simp] theorem Dev.putRateAcc_flash (x : Int) (d : Dev) : (Dev.putRateAcc x d).flash = d.flash := rfl
@[simp] theorem Dev.putRateAcc_dramEpoch (x : Int) (d : Dev) : (Dev.putRateAcc x d).dramEpoch = d.dramEpoch := rfl
@[simp] theorem Dev.putRateAcc_now (x : Int) (d : Dev) : (Dev.putRateAcc x d).now = d.now := rfl
@[simp] theorem Dev.putRateAcc_devTime (x : Int) (d : Dev) : (Dev.putRateAcc x d).devTime = d.devTime := rfl
@[simp] theorem Dev.putRateAcc_rateAcc (x : Int) (d : Dev) : (Dev.putRateAcc x d).rateAcc = x := rfl
@[simp] theorem Dev.putRateAcc_cyc (x : Int) (d : Dev) : (Dev.putRateAcc x d).cyc = d.cyc := rfl
@[simp] theorem Dev.putRateAcc_readData (x : Int) (d : Dev) : (Dev.putRateAcc x d).readData = d.readData := rfl
@[simp] theorem Dev.putRateAcc_freeCount (x : Int) (d : Dev) : (Dev.putRateAcc x d).freeCount = d.freeCount := rfl
@[simp] theorem Dev.putRateAcc_timeHi (x : Int) (d : Dev) : (Dev.putRateAcc x d).timeHi = d.timeHi := rfl
@[simp] theorem Dev.putRateAcc_activeSeen (x : Int) (d : Dev) : (Dev.putRateAcc x d).activeSeen = d.activeSeen := rfl
@[simp] theorem Dev.putRateAcc_dramAt (x : Int) (d : Dev) : (Dev.putRateAcc x d).dramAt = d.dramAt := rfl
@[simp] theorem Dev.putRateAcc_romAt (x : Int) (d : Dev) : (Dev.putRateAcc x d).romAt = d.romAt := rfl
@[simp] theorem Dev.putRateAcc_flashSize (x : Int) (d : Dev) : (Dev.putRateAcc x d).flashSize = d.flashSize := rfl
@[simp] theorem Dev.putRateAcc_syncOutAt (x : Int) (d : Dev) : (Dev.putRateAcc x d).syncOutAt = d.syncOutAt := rfl
@[simp] theorem Dev.putRateAcc_reset (x : Int) (d : Dev) : (Dev.putRateAcc x d).reset = d.reset := rfl
@[simp] theorem Dev.putRateAcc_supplies (x : Int) (d : Dev) : (Dev.putRateAcc x d).supplies = d.supplies := rfl
@[simp] theorem Dev.putRateAcc_clocks (x : Int) (d : Dev) : (Dev.putRateAcc x d).clocks = d.clocks := rfl
@[simp] theorem Dev.putRateAcc_loader (x : Int) (d : Dev) : (Dev.putRateAcc x d).loader = d.loader := rfl
@[simp] theorem Dev.putRateAcc_fuses (x : Int) (d : Dev) : (Dev.putRateAcc x d).fuses = d.fuses := rfl
@[simp] theorem Dev.putRateAcc_bootsel (x : Int) (d : Dev) : (Dev.putRateAcc x d).bootsel = d.bootsel := rfl
@[simp] theorem Dev.putRateAcc_engines (x : Int) (d : Dev) : (Dev.putRateAcc x d).engines = d.engines := rfl
@[simp] theorem Dev.putRateAcc_groups (x : Int) (d : Dev) : (Dev.putRateAcc x d).groups = d.groups := rfl
@[simp] theorem Dev.putRateAcc_tripIn (x : Int) (d : Dev) : (Dev.putRateAcc x d).tripIn = d.tripIn := rfl
@[simp] theorem Dev.putRateAcc_lanes (x : Int) (d : Dev) : (Dev.putRateAcc x d).lanes = d.lanes := rfl
@[simp] theorem Dev.putRateAcc_conv (x : Int) (d : Dev) : (Dev.putRateAcc x d).conv = d.conv := rfl
@[simp] theorem Dev.putRateAcc_acc (x : Int) (d : Dev) : (Dev.putRateAcc x d).acc = d.acc := rfl
@[simp] theorem Dev.putRateAcc_mmx (x : Int) (d : Dev) : (Dev.putRateAcc x d).mmx = d.mmx := rfl
@[simp] theorem Dev.putRateAcc_trims (x : Int) (d : Dev) : (Dev.putRateAcc x d).trims = d.trims := rfl
@[simp] theorem Dev.putRateAcc_cmps (x : Int) (d : Dev) : (Dev.putRateAcc x d).cmps = d.cmps := rfl
@[simp] theorem Dev.putRateAcc_cal (x : Int) (d : Dev) : (Dev.putRateAcc x d).cal = d.cal := rfl
@[simp] theorem Dev.putRateAcc_acq (x : Int) (d : Dev) : (Dev.putRateAcc x d).acq = d.acq := rfl
@[simp] theorem Dev.putRateAcc_pos (x : Int) (d : Dev) : (Dev.putRateAcc x d).pos = d.pos := rfl
@[simp] theorem Dev.putRateAcc_mc (x : Int) (d : Dev) : (Dev.putRateAcc x d).mc = d.mc := rfl
@[simp] theorem Dev.putRateAcc_triad (x : Int) (d : Dev) : (Dev.putRateAcc x d).triad = d.triad := rfl
@[simp] theorem Dev.putRateAcc_sloe (x : Int) (d : Dev) : (Dev.putRateAcc x d).sloe = d.sloe := rfl
@[simp] theorem Dev.putRateAcc_can (x : Int) (d : Dev) : (Dev.putRateAcc x d).can = d.can := rfl
@[simp] theorem Dev.putRateAcc_crcs (x : Int) (d : Dev) : (Dev.putRateAcc x d).crcs = d.crcs := rfl
@[simp] theorem Dev.putRateAcc_capture (x : Int) (d : Dev) : (Dev.putRateAcc x d).capture = d.capture := rfl
@[simp] theorem Dev.putRateAcc_mgmt (x : Int) (d : Dev) : (Dev.putRateAcc x d).mgmt = d.mgmt := rfl
@[simp] theorem Dev.putRateAcc_host (x : Int) (d : Dev) : (Dev.putRateAcc x d).host = d.host := rfl
@[simp] theorem Dev.putRateAcc_net (x : Int) (d : Dev) : (Dev.putRateAcc x d).net = d.net := rfl
@[simp] theorem Dev.putRateAcc_canopen (x : Int) (d : Dev) : (Dev.putRateAcc x d).canopen = d.canopen := rfl
@[simp] theorem Dev.putRateAcc_gpioIn (x : Int) (d : Dev) : (Dev.putRateAcc x d).gpioIn = d.gpioIn := rfl
@[simp] theorem Dev.putRateAcc_padHeld (x : Int) (d : Dev) : (Dev.putRateAcc x d).padHeld = d.padHeld := rfl

@[simp] theorem Dev.putRateAcc_reg (x : Int) (d : Dev) (k : Nat) : (Dev.putRateAcc x d).reg k = d.reg k := rfl
@[simp] theorem Dev.putRateAcc_sh (x : Int) (d : Dev) (k : Nat) : (Dev.putRateAcc x d).sh k = d.sh k := rfl

@[simp] theorem Dev.putReadData_regs (x : Word) (d : Dev) : (Dev.putReadData x d).regs = d.regs := rfl
@[simp] theorem Dev.putReadData_shadow (x : Word) (d : Dev) : (Dev.putReadData x d).shadow = d.shadow := rfl
@[simp] theorem Dev.putReadData_mem (x : Word) (d : Dev) : (Dev.putReadData x d).mem = d.mem := rfl
@[simp] theorem Dev.putReadData_triadMem (x : Word) (d : Dev) : (Dev.putReadData x d).triadMem = d.triadMem := rfl
@[simp] theorem Dev.putReadData_dram (x : Word) (d : Dev) : (Dev.putReadData x d).dram = d.dram := rfl
@[simp] theorem Dev.putReadData_flash (x : Word) (d : Dev) : (Dev.putReadData x d).flash = d.flash := rfl
@[simp] theorem Dev.putReadData_dramEpoch (x : Word) (d : Dev) : (Dev.putReadData x d).dramEpoch = d.dramEpoch := rfl
@[simp] theorem Dev.putReadData_now (x : Word) (d : Dev) : (Dev.putReadData x d).now = d.now := rfl
@[simp] theorem Dev.putReadData_devTime (x : Word) (d : Dev) : (Dev.putReadData x d).devTime = d.devTime := rfl
@[simp] theorem Dev.putReadData_rateAcc (x : Word) (d : Dev) : (Dev.putReadData x d).rateAcc = d.rateAcc := rfl
@[simp] theorem Dev.putReadData_cyc (x : Word) (d : Dev) : (Dev.putReadData x d).cyc = d.cyc := rfl
@[simp] theorem Dev.putReadData_readData (x : Word) (d : Dev) : (Dev.putReadData x d).readData = x := rfl
@[simp] theorem Dev.putReadData_freeCount (x : Word) (d : Dev) : (Dev.putReadData x d).freeCount = d.freeCount := rfl
@[simp] theorem Dev.putReadData_timeHi (x : Word) (d : Dev) : (Dev.putReadData x d).timeHi = d.timeHi := rfl
@[simp] theorem Dev.putReadData_activeSeen (x : Word) (d : Dev) : (Dev.putReadData x d).activeSeen = d.activeSeen := rfl
@[simp] theorem Dev.putReadData_dramAt (x : Word) (d : Dev) : (Dev.putReadData x d).dramAt = d.dramAt := rfl
@[simp] theorem Dev.putReadData_romAt (x : Word) (d : Dev) : (Dev.putReadData x d).romAt = d.romAt := rfl
@[simp] theorem Dev.putReadData_flashSize (x : Word) (d : Dev) : (Dev.putReadData x d).flashSize = d.flashSize := rfl
@[simp] theorem Dev.putReadData_syncOutAt (x : Word) (d : Dev) : (Dev.putReadData x d).syncOutAt = d.syncOutAt := rfl
@[simp] theorem Dev.putReadData_reset (x : Word) (d : Dev) : (Dev.putReadData x d).reset = d.reset := rfl
@[simp] theorem Dev.putReadData_supplies (x : Word) (d : Dev) : (Dev.putReadData x d).supplies = d.supplies := rfl
@[simp] theorem Dev.putReadData_clocks (x : Word) (d : Dev) : (Dev.putReadData x d).clocks = d.clocks := rfl
@[simp] theorem Dev.putReadData_loader (x : Word) (d : Dev) : (Dev.putReadData x d).loader = d.loader := rfl
@[simp] theorem Dev.putReadData_fuses (x : Word) (d : Dev) : (Dev.putReadData x d).fuses = d.fuses := rfl
@[simp] theorem Dev.putReadData_bootsel (x : Word) (d : Dev) : (Dev.putReadData x d).bootsel = d.bootsel := rfl
@[simp] theorem Dev.putReadData_engines (x : Word) (d : Dev) : (Dev.putReadData x d).engines = d.engines := rfl
@[simp] theorem Dev.putReadData_groups (x : Word) (d : Dev) : (Dev.putReadData x d).groups = d.groups := rfl
@[simp] theorem Dev.putReadData_tripIn (x : Word) (d : Dev) : (Dev.putReadData x d).tripIn = d.tripIn := rfl
@[simp] theorem Dev.putReadData_lanes (x : Word) (d : Dev) : (Dev.putReadData x d).lanes = d.lanes := rfl
@[simp] theorem Dev.putReadData_conv (x : Word) (d : Dev) : (Dev.putReadData x d).conv = d.conv := rfl
@[simp] theorem Dev.putReadData_acc (x : Word) (d : Dev) : (Dev.putReadData x d).acc = d.acc := rfl
@[simp] theorem Dev.putReadData_mmx (x : Word) (d : Dev) : (Dev.putReadData x d).mmx = d.mmx := rfl
@[simp] theorem Dev.putReadData_trims (x : Word) (d : Dev) : (Dev.putReadData x d).trims = d.trims := rfl
@[simp] theorem Dev.putReadData_cmps (x : Word) (d : Dev) : (Dev.putReadData x d).cmps = d.cmps := rfl
@[simp] theorem Dev.putReadData_cal (x : Word) (d : Dev) : (Dev.putReadData x d).cal = d.cal := rfl
@[simp] theorem Dev.putReadData_acq (x : Word) (d : Dev) : (Dev.putReadData x d).acq = d.acq := rfl
@[simp] theorem Dev.putReadData_pos (x : Word) (d : Dev) : (Dev.putReadData x d).pos = d.pos := rfl
@[simp] theorem Dev.putReadData_mc (x : Word) (d : Dev) : (Dev.putReadData x d).mc = d.mc := rfl
@[simp] theorem Dev.putReadData_triad (x : Word) (d : Dev) : (Dev.putReadData x d).triad = d.triad := rfl
@[simp] theorem Dev.putReadData_sloe (x : Word) (d : Dev) : (Dev.putReadData x d).sloe = d.sloe := rfl
@[simp] theorem Dev.putReadData_can (x : Word) (d : Dev) : (Dev.putReadData x d).can = d.can := rfl
@[simp] theorem Dev.putReadData_crcs (x : Word) (d : Dev) : (Dev.putReadData x d).crcs = d.crcs := rfl
@[simp] theorem Dev.putReadData_capture (x : Word) (d : Dev) : (Dev.putReadData x d).capture = d.capture := rfl
@[simp] theorem Dev.putReadData_mgmt (x : Word) (d : Dev) : (Dev.putReadData x d).mgmt = d.mgmt := rfl
@[simp] theorem Dev.putReadData_host (x : Word) (d : Dev) : (Dev.putReadData x d).host = d.host := rfl
@[simp] theorem Dev.putReadData_net (x : Word) (d : Dev) : (Dev.putReadData x d).net = d.net := rfl
@[simp] theorem Dev.putReadData_canopen (x : Word) (d : Dev) : (Dev.putReadData x d).canopen = d.canopen := rfl
@[simp] theorem Dev.putReadData_gpioIn (x : Word) (d : Dev) : (Dev.putReadData x d).gpioIn = d.gpioIn := rfl
@[simp] theorem Dev.putReadData_padHeld (x : Word) (d : Dev) : (Dev.putReadData x d).padHeld = d.padHeld := rfl

@[simp] theorem Dev.putReadData_reg (x : Word) (d : Dev) (k : Nat) : (Dev.putReadData x d).reg k = d.reg k := rfl
@[simp] theorem Dev.putReadData_sh (x : Word) (d : Dev) (k : Nat) : (Dev.putReadData x d).sh k = d.sh k := rfl

@[simp] theorem Dev.putTimeHi_regs (x : List (Master × Word)) (d : Dev) : (Dev.putTimeHi x d).regs = d.regs := rfl
@[simp] theorem Dev.putTimeHi_shadow (x : List (Master × Word)) (d : Dev) : (Dev.putTimeHi x d).shadow = d.shadow := rfl
@[simp] theorem Dev.putTimeHi_mem (x : List (Master × Word)) (d : Dev) : (Dev.putTimeHi x d).mem = d.mem := rfl
@[simp] theorem Dev.putTimeHi_triadMem (x : List (Master × Word)) (d : Dev) : (Dev.putTimeHi x d).triadMem = d.triadMem := rfl
@[simp] theorem Dev.putTimeHi_dram (x : List (Master × Word)) (d : Dev) : (Dev.putTimeHi x d).dram = d.dram := rfl
@[simp] theorem Dev.putTimeHi_flash (x : List (Master × Word)) (d : Dev) : (Dev.putTimeHi x d).flash = d.flash := rfl
@[simp] theorem Dev.putTimeHi_dramEpoch (x : List (Master × Word)) (d : Dev) : (Dev.putTimeHi x d).dramEpoch = d.dramEpoch := rfl
@[simp] theorem Dev.putTimeHi_now (x : List (Master × Word)) (d : Dev) : (Dev.putTimeHi x d).now = d.now := rfl
@[simp] theorem Dev.putTimeHi_devTime (x : List (Master × Word)) (d : Dev) : (Dev.putTimeHi x d).devTime = d.devTime := rfl
@[simp] theorem Dev.putTimeHi_rateAcc (x : List (Master × Word)) (d : Dev) : (Dev.putTimeHi x d).rateAcc = d.rateAcc := rfl
@[simp] theorem Dev.putTimeHi_cyc (x : List (Master × Word)) (d : Dev) : (Dev.putTimeHi x d).cyc = d.cyc := rfl
@[simp] theorem Dev.putTimeHi_readData (x : List (Master × Word)) (d : Dev) : (Dev.putTimeHi x d).readData = d.readData := rfl
@[simp] theorem Dev.putTimeHi_freeCount (x : List (Master × Word)) (d : Dev) : (Dev.putTimeHi x d).freeCount = d.freeCount := rfl
@[simp] theorem Dev.putTimeHi_timeHi (x : List (Master × Word)) (d : Dev) : (Dev.putTimeHi x d).timeHi = x := rfl
@[simp] theorem Dev.putTimeHi_activeSeen (x : List (Master × Word)) (d : Dev) : (Dev.putTimeHi x d).activeSeen = d.activeSeen := rfl
@[simp] theorem Dev.putTimeHi_dramAt (x : List (Master × Word)) (d : Dev) : (Dev.putTimeHi x d).dramAt = d.dramAt := rfl
@[simp] theorem Dev.putTimeHi_romAt (x : List (Master × Word)) (d : Dev) : (Dev.putTimeHi x d).romAt = d.romAt := rfl
@[simp] theorem Dev.putTimeHi_flashSize (x : List (Master × Word)) (d : Dev) : (Dev.putTimeHi x d).flashSize = d.flashSize := rfl
@[simp] theorem Dev.putTimeHi_syncOutAt (x : List (Master × Word)) (d : Dev) : (Dev.putTimeHi x d).syncOutAt = d.syncOutAt := rfl
@[simp] theorem Dev.putTimeHi_reset (x : List (Master × Word)) (d : Dev) : (Dev.putTimeHi x d).reset = d.reset := rfl
@[simp] theorem Dev.putTimeHi_supplies (x : List (Master × Word)) (d : Dev) : (Dev.putTimeHi x d).supplies = d.supplies := rfl
@[simp] theorem Dev.putTimeHi_clocks (x : List (Master × Word)) (d : Dev) : (Dev.putTimeHi x d).clocks = d.clocks := rfl
@[simp] theorem Dev.putTimeHi_loader (x : List (Master × Word)) (d : Dev) : (Dev.putTimeHi x d).loader = d.loader := rfl
@[simp] theorem Dev.putTimeHi_fuses (x : List (Master × Word)) (d : Dev) : (Dev.putTimeHi x d).fuses = d.fuses := rfl
@[simp] theorem Dev.putTimeHi_bootsel (x : List (Master × Word)) (d : Dev) : (Dev.putTimeHi x d).bootsel = d.bootsel := rfl
@[simp] theorem Dev.putTimeHi_engines (x : List (Master × Word)) (d : Dev) : (Dev.putTimeHi x d).engines = d.engines := rfl
@[simp] theorem Dev.putTimeHi_groups (x : List (Master × Word)) (d : Dev) : (Dev.putTimeHi x d).groups = d.groups := rfl
@[simp] theorem Dev.putTimeHi_tripIn (x : List (Master × Word)) (d : Dev) : (Dev.putTimeHi x d).tripIn = d.tripIn := rfl
@[simp] theorem Dev.putTimeHi_lanes (x : List (Master × Word)) (d : Dev) : (Dev.putTimeHi x d).lanes = d.lanes := rfl
@[simp] theorem Dev.putTimeHi_conv (x : List (Master × Word)) (d : Dev) : (Dev.putTimeHi x d).conv = d.conv := rfl
@[simp] theorem Dev.putTimeHi_acc (x : List (Master × Word)) (d : Dev) : (Dev.putTimeHi x d).acc = d.acc := rfl
@[simp] theorem Dev.putTimeHi_mmx (x : List (Master × Word)) (d : Dev) : (Dev.putTimeHi x d).mmx = d.mmx := rfl
@[simp] theorem Dev.putTimeHi_trims (x : List (Master × Word)) (d : Dev) : (Dev.putTimeHi x d).trims = d.trims := rfl
@[simp] theorem Dev.putTimeHi_cmps (x : List (Master × Word)) (d : Dev) : (Dev.putTimeHi x d).cmps = d.cmps := rfl
@[simp] theorem Dev.putTimeHi_cal (x : List (Master × Word)) (d : Dev) : (Dev.putTimeHi x d).cal = d.cal := rfl
@[simp] theorem Dev.putTimeHi_acq (x : List (Master × Word)) (d : Dev) : (Dev.putTimeHi x d).acq = d.acq := rfl
@[simp] theorem Dev.putTimeHi_pos (x : List (Master × Word)) (d : Dev) : (Dev.putTimeHi x d).pos = d.pos := rfl
@[simp] theorem Dev.putTimeHi_mc (x : List (Master × Word)) (d : Dev) : (Dev.putTimeHi x d).mc = d.mc := rfl
@[simp] theorem Dev.putTimeHi_triad (x : List (Master × Word)) (d : Dev) : (Dev.putTimeHi x d).triad = d.triad := rfl
@[simp] theorem Dev.putTimeHi_sloe (x : List (Master × Word)) (d : Dev) : (Dev.putTimeHi x d).sloe = d.sloe := rfl
@[simp] theorem Dev.putTimeHi_can (x : List (Master × Word)) (d : Dev) : (Dev.putTimeHi x d).can = d.can := rfl
@[simp] theorem Dev.putTimeHi_crcs (x : List (Master × Word)) (d : Dev) : (Dev.putTimeHi x d).crcs = d.crcs := rfl
@[simp] theorem Dev.putTimeHi_capture (x : List (Master × Word)) (d : Dev) : (Dev.putTimeHi x d).capture = d.capture := rfl
@[simp] theorem Dev.putTimeHi_mgmt (x : List (Master × Word)) (d : Dev) : (Dev.putTimeHi x d).mgmt = d.mgmt := rfl
@[simp] theorem Dev.putTimeHi_host (x : List (Master × Word)) (d : Dev) : (Dev.putTimeHi x d).host = d.host := rfl
@[simp] theorem Dev.putTimeHi_net (x : List (Master × Word)) (d : Dev) : (Dev.putTimeHi x d).net = d.net := rfl
@[simp] theorem Dev.putTimeHi_canopen (x : List (Master × Word)) (d : Dev) : (Dev.putTimeHi x d).canopen = d.canopen := rfl
@[simp] theorem Dev.putTimeHi_gpioIn (x : List (Master × Word)) (d : Dev) : (Dev.putTimeHi x d).gpioIn = d.gpioIn := rfl
@[simp] theorem Dev.putTimeHi_padHeld (x : List (Master × Word)) (d : Dev) : (Dev.putTimeHi x d).padHeld = d.padHeld := rfl

@[simp] theorem Dev.putTimeHi_reg (x : List (Master × Word)) (d : Dev) (k : Nat) : (Dev.putTimeHi x d).reg k = d.reg k := rfl
@[simp] theorem Dev.putTimeHi_sh (x : List (Master × Word)) (d : Dev) (k : Nat) : (Dev.putTimeHi x d).sh k = d.sh k := rfl

@[simp] theorem Dev.putActiveSeen_regs (x : List Nat) (d : Dev) : (Dev.putActiveSeen x d).regs = d.regs := rfl
@[simp] theorem Dev.putActiveSeen_shadow (x : List Nat) (d : Dev) : (Dev.putActiveSeen x d).shadow = d.shadow := rfl
@[simp] theorem Dev.putActiveSeen_mem (x : List Nat) (d : Dev) : (Dev.putActiveSeen x d).mem = d.mem := rfl
@[simp] theorem Dev.putActiveSeen_triadMem (x : List Nat) (d : Dev) : (Dev.putActiveSeen x d).triadMem = d.triadMem := rfl
@[simp] theorem Dev.putActiveSeen_dram (x : List Nat) (d : Dev) : (Dev.putActiveSeen x d).dram = d.dram := rfl
@[simp] theorem Dev.putActiveSeen_flash (x : List Nat) (d : Dev) : (Dev.putActiveSeen x d).flash = d.flash := rfl
@[simp] theorem Dev.putActiveSeen_dramEpoch (x : List Nat) (d : Dev) : (Dev.putActiveSeen x d).dramEpoch = d.dramEpoch := rfl
@[simp] theorem Dev.putActiveSeen_now (x : List Nat) (d : Dev) : (Dev.putActiveSeen x d).now = d.now := rfl
@[simp] theorem Dev.putActiveSeen_devTime (x : List Nat) (d : Dev) : (Dev.putActiveSeen x d).devTime = d.devTime := rfl
@[simp] theorem Dev.putActiveSeen_rateAcc (x : List Nat) (d : Dev) : (Dev.putActiveSeen x d).rateAcc = d.rateAcc := rfl
@[simp] theorem Dev.putActiveSeen_cyc (x : List Nat) (d : Dev) : (Dev.putActiveSeen x d).cyc = d.cyc := rfl
@[simp] theorem Dev.putActiveSeen_readData (x : List Nat) (d : Dev) : (Dev.putActiveSeen x d).readData = d.readData := rfl
@[simp] theorem Dev.putActiveSeen_freeCount (x : List Nat) (d : Dev) : (Dev.putActiveSeen x d).freeCount = d.freeCount := rfl
@[simp] theorem Dev.putActiveSeen_timeHi (x : List Nat) (d : Dev) : (Dev.putActiveSeen x d).timeHi = d.timeHi := rfl
@[simp] theorem Dev.putActiveSeen_activeSeen (x : List Nat) (d : Dev) : (Dev.putActiveSeen x d).activeSeen = x := rfl
@[simp] theorem Dev.putActiveSeen_dramAt (x : List Nat) (d : Dev) : (Dev.putActiveSeen x d).dramAt = d.dramAt := rfl
@[simp] theorem Dev.putActiveSeen_romAt (x : List Nat) (d : Dev) : (Dev.putActiveSeen x d).romAt = d.romAt := rfl
@[simp] theorem Dev.putActiveSeen_flashSize (x : List Nat) (d : Dev) : (Dev.putActiveSeen x d).flashSize = d.flashSize := rfl
@[simp] theorem Dev.putActiveSeen_syncOutAt (x : List Nat) (d : Dev) : (Dev.putActiveSeen x d).syncOutAt = d.syncOutAt := rfl
@[simp] theorem Dev.putActiveSeen_reset (x : List Nat) (d : Dev) : (Dev.putActiveSeen x d).reset = d.reset := rfl
@[simp] theorem Dev.putActiveSeen_supplies (x : List Nat) (d : Dev) : (Dev.putActiveSeen x d).supplies = d.supplies := rfl
@[simp] theorem Dev.putActiveSeen_clocks (x : List Nat) (d : Dev) : (Dev.putActiveSeen x d).clocks = d.clocks := rfl
@[simp] theorem Dev.putActiveSeen_loader (x : List Nat) (d : Dev) : (Dev.putActiveSeen x d).loader = d.loader := rfl
@[simp] theorem Dev.putActiveSeen_fuses (x : List Nat) (d : Dev) : (Dev.putActiveSeen x d).fuses = d.fuses := rfl
@[simp] theorem Dev.putActiveSeen_bootsel (x : List Nat) (d : Dev) : (Dev.putActiveSeen x d).bootsel = d.bootsel := rfl
@[simp] theorem Dev.putActiveSeen_engines (x : List Nat) (d : Dev) : (Dev.putActiveSeen x d).engines = d.engines := rfl
@[simp] theorem Dev.putActiveSeen_groups (x : List Nat) (d : Dev) : (Dev.putActiveSeen x d).groups = d.groups := rfl
@[simp] theorem Dev.putActiveSeen_tripIn (x : List Nat) (d : Dev) : (Dev.putActiveSeen x d).tripIn = d.tripIn := rfl
@[simp] theorem Dev.putActiveSeen_lanes (x : List Nat) (d : Dev) : (Dev.putActiveSeen x d).lanes = d.lanes := rfl
@[simp] theorem Dev.putActiveSeen_conv (x : List Nat) (d : Dev) : (Dev.putActiveSeen x d).conv = d.conv := rfl
@[simp] theorem Dev.putActiveSeen_acc (x : List Nat) (d : Dev) : (Dev.putActiveSeen x d).acc = d.acc := rfl
@[simp] theorem Dev.putActiveSeen_mmx (x : List Nat) (d : Dev) : (Dev.putActiveSeen x d).mmx = d.mmx := rfl
@[simp] theorem Dev.putActiveSeen_trims (x : List Nat) (d : Dev) : (Dev.putActiveSeen x d).trims = d.trims := rfl
@[simp] theorem Dev.putActiveSeen_cmps (x : List Nat) (d : Dev) : (Dev.putActiveSeen x d).cmps = d.cmps := rfl
@[simp] theorem Dev.putActiveSeen_cal (x : List Nat) (d : Dev) : (Dev.putActiveSeen x d).cal = d.cal := rfl
@[simp] theorem Dev.putActiveSeen_acq (x : List Nat) (d : Dev) : (Dev.putActiveSeen x d).acq = d.acq := rfl
@[simp] theorem Dev.putActiveSeen_pos (x : List Nat) (d : Dev) : (Dev.putActiveSeen x d).pos = d.pos := rfl
@[simp] theorem Dev.putActiveSeen_mc (x : List Nat) (d : Dev) : (Dev.putActiveSeen x d).mc = d.mc := rfl
@[simp] theorem Dev.putActiveSeen_triad (x : List Nat) (d : Dev) : (Dev.putActiveSeen x d).triad = d.triad := rfl
@[simp] theorem Dev.putActiveSeen_sloe (x : List Nat) (d : Dev) : (Dev.putActiveSeen x d).sloe = d.sloe := rfl
@[simp] theorem Dev.putActiveSeen_can (x : List Nat) (d : Dev) : (Dev.putActiveSeen x d).can = d.can := rfl
@[simp] theorem Dev.putActiveSeen_crcs (x : List Nat) (d : Dev) : (Dev.putActiveSeen x d).crcs = d.crcs := rfl
@[simp] theorem Dev.putActiveSeen_capture (x : List Nat) (d : Dev) : (Dev.putActiveSeen x d).capture = d.capture := rfl
@[simp] theorem Dev.putActiveSeen_mgmt (x : List Nat) (d : Dev) : (Dev.putActiveSeen x d).mgmt = d.mgmt := rfl
@[simp] theorem Dev.putActiveSeen_host (x : List Nat) (d : Dev) : (Dev.putActiveSeen x d).host = d.host := rfl
@[simp] theorem Dev.putActiveSeen_net (x : List Nat) (d : Dev) : (Dev.putActiveSeen x d).net = d.net := rfl
@[simp] theorem Dev.putActiveSeen_canopen (x : List Nat) (d : Dev) : (Dev.putActiveSeen x d).canopen = d.canopen := rfl
@[simp] theorem Dev.putActiveSeen_gpioIn (x : List Nat) (d : Dev) : (Dev.putActiveSeen x d).gpioIn = d.gpioIn := rfl
@[simp] theorem Dev.putActiveSeen_padHeld (x : List Nat) (d : Dev) : (Dev.putActiveSeen x d).padHeld = d.padHeld := rfl

@[simp] theorem Dev.putActiveSeen_reg (x : List Nat) (d : Dev) (k : Nat) : (Dev.putActiveSeen x d).reg k = d.reg k := rfl
@[simp] theorem Dev.putActiveSeen_sh (x : List Nat) (d : Dev) (k : Nat) : (Dev.putActiveSeen x d).sh k = d.sh k := rfl

@[simp] theorem Dev.putDramAt_regs (x : Option Nat) (d : Dev) : (Dev.putDramAt x d).regs = d.regs := rfl
@[simp] theorem Dev.putDramAt_shadow (x : Option Nat) (d : Dev) : (Dev.putDramAt x d).shadow = d.shadow := rfl
@[simp] theorem Dev.putDramAt_mem (x : Option Nat) (d : Dev) : (Dev.putDramAt x d).mem = d.mem := rfl
@[simp] theorem Dev.putDramAt_triadMem (x : Option Nat) (d : Dev) : (Dev.putDramAt x d).triadMem = d.triadMem := rfl
@[simp] theorem Dev.putDramAt_dram (x : Option Nat) (d : Dev) : (Dev.putDramAt x d).dram = d.dram := rfl
@[simp] theorem Dev.putDramAt_flash (x : Option Nat) (d : Dev) : (Dev.putDramAt x d).flash = d.flash := rfl
@[simp] theorem Dev.putDramAt_dramEpoch (x : Option Nat) (d : Dev) : (Dev.putDramAt x d).dramEpoch = d.dramEpoch := rfl
@[simp] theorem Dev.putDramAt_now (x : Option Nat) (d : Dev) : (Dev.putDramAt x d).now = d.now := rfl
@[simp] theorem Dev.putDramAt_devTime (x : Option Nat) (d : Dev) : (Dev.putDramAt x d).devTime = d.devTime := rfl
@[simp] theorem Dev.putDramAt_rateAcc (x : Option Nat) (d : Dev) : (Dev.putDramAt x d).rateAcc = d.rateAcc := rfl
@[simp] theorem Dev.putDramAt_cyc (x : Option Nat) (d : Dev) : (Dev.putDramAt x d).cyc = d.cyc := rfl
@[simp] theorem Dev.putDramAt_readData (x : Option Nat) (d : Dev) : (Dev.putDramAt x d).readData = d.readData := rfl
@[simp] theorem Dev.putDramAt_freeCount (x : Option Nat) (d : Dev) : (Dev.putDramAt x d).freeCount = d.freeCount := rfl
@[simp] theorem Dev.putDramAt_timeHi (x : Option Nat) (d : Dev) : (Dev.putDramAt x d).timeHi = d.timeHi := rfl
@[simp] theorem Dev.putDramAt_activeSeen (x : Option Nat) (d : Dev) : (Dev.putDramAt x d).activeSeen = d.activeSeen := rfl
@[simp] theorem Dev.putDramAt_dramAt (x : Option Nat) (d : Dev) : (Dev.putDramAt x d).dramAt = x := rfl
@[simp] theorem Dev.putDramAt_romAt (x : Option Nat) (d : Dev) : (Dev.putDramAt x d).romAt = d.romAt := rfl
@[simp] theorem Dev.putDramAt_flashSize (x : Option Nat) (d : Dev) : (Dev.putDramAt x d).flashSize = d.flashSize := rfl
@[simp] theorem Dev.putDramAt_syncOutAt (x : Option Nat) (d : Dev) : (Dev.putDramAt x d).syncOutAt = d.syncOutAt := rfl
@[simp] theorem Dev.putDramAt_reset (x : Option Nat) (d : Dev) : (Dev.putDramAt x d).reset = d.reset := rfl
@[simp] theorem Dev.putDramAt_supplies (x : Option Nat) (d : Dev) : (Dev.putDramAt x d).supplies = d.supplies := rfl
@[simp] theorem Dev.putDramAt_clocks (x : Option Nat) (d : Dev) : (Dev.putDramAt x d).clocks = d.clocks := rfl
@[simp] theorem Dev.putDramAt_loader (x : Option Nat) (d : Dev) : (Dev.putDramAt x d).loader = d.loader := rfl
@[simp] theorem Dev.putDramAt_fuses (x : Option Nat) (d : Dev) : (Dev.putDramAt x d).fuses = d.fuses := rfl
@[simp] theorem Dev.putDramAt_bootsel (x : Option Nat) (d : Dev) : (Dev.putDramAt x d).bootsel = d.bootsel := rfl
@[simp] theorem Dev.putDramAt_engines (x : Option Nat) (d : Dev) : (Dev.putDramAt x d).engines = d.engines := rfl
@[simp] theorem Dev.putDramAt_groups (x : Option Nat) (d : Dev) : (Dev.putDramAt x d).groups = d.groups := rfl
@[simp] theorem Dev.putDramAt_tripIn (x : Option Nat) (d : Dev) : (Dev.putDramAt x d).tripIn = d.tripIn := rfl
@[simp] theorem Dev.putDramAt_lanes (x : Option Nat) (d : Dev) : (Dev.putDramAt x d).lanes = d.lanes := rfl
@[simp] theorem Dev.putDramAt_conv (x : Option Nat) (d : Dev) : (Dev.putDramAt x d).conv = d.conv := rfl
@[simp] theorem Dev.putDramAt_acc (x : Option Nat) (d : Dev) : (Dev.putDramAt x d).acc = d.acc := rfl
@[simp] theorem Dev.putDramAt_mmx (x : Option Nat) (d : Dev) : (Dev.putDramAt x d).mmx = d.mmx := rfl
@[simp] theorem Dev.putDramAt_trims (x : Option Nat) (d : Dev) : (Dev.putDramAt x d).trims = d.trims := rfl
@[simp] theorem Dev.putDramAt_cmps (x : Option Nat) (d : Dev) : (Dev.putDramAt x d).cmps = d.cmps := rfl
@[simp] theorem Dev.putDramAt_cal (x : Option Nat) (d : Dev) : (Dev.putDramAt x d).cal = d.cal := rfl
@[simp] theorem Dev.putDramAt_acq (x : Option Nat) (d : Dev) : (Dev.putDramAt x d).acq = d.acq := rfl
@[simp] theorem Dev.putDramAt_pos (x : Option Nat) (d : Dev) : (Dev.putDramAt x d).pos = d.pos := rfl
@[simp] theorem Dev.putDramAt_mc (x : Option Nat) (d : Dev) : (Dev.putDramAt x d).mc = d.mc := rfl
@[simp] theorem Dev.putDramAt_triad (x : Option Nat) (d : Dev) : (Dev.putDramAt x d).triad = d.triad := rfl
@[simp] theorem Dev.putDramAt_sloe (x : Option Nat) (d : Dev) : (Dev.putDramAt x d).sloe = d.sloe := rfl
@[simp] theorem Dev.putDramAt_can (x : Option Nat) (d : Dev) : (Dev.putDramAt x d).can = d.can := rfl
@[simp] theorem Dev.putDramAt_crcs (x : Option Nat) (d : Dev) : (Dev.putDramAt x d).crcs = d.crcs := rfl
@[simp] theorem Dev.putDramAt_capture (x : Option Nat) (d : Dev) : (Dev.putDramAt x d).capture = d.capture := rfl
@[simp] theorem Dev.putDramAt_mgmt (x : Option Nat) (d : Dev) : (Dev.putDramAt x d).mgmt = d.mgmt := rfl
@[simp] theorem Dev.putDramAt_host (x : Option Nat) (d : Dev) : (Dev.putDramAt x d).host = d.host := rfl
@[simp] theorem Dev.putDramAt_net (x : Option Nat) (d : Dev) : (Dev.putDramAt x d).net = d.net := rfl
@[simp] theorem Dev.putDramAt_canopen (x : Option Nat) (d : Dev) : (Dev.putDramAt x d).canopen = d.canopen := rfl
@[simp] theorem Dev.putDramAt_gpioIn (x : Option Nat) (d : Dev) : (Dev.putDramAt x d).gpioIn = d.gpioIn := rfl
@[simp] theorem Dev.putDramAt_padHeld (x : Option Nat) (d : Dev) : (Dev.putDramAt x d).padHeld = d.padHeld := rfl

@[simp] theorem Dev.putDramAt_reg (x : Option Nat) (d : Dev) (k : Nat) : (Dev.putDramAt x d).reg k = d.reg k := rfl
@[simp] theorem Dev.putDramAt_sh (x : Option Nat) (d : Dev) (k : Nat) : (Dev.putDramAt x d).sh k = d.sh k := rfl

@[simp] theorem Dev.putRomAt_regs (x : Option Nat) (d : Dev) : (Dev.putRomAt x d).regs = d.regs := rfl
@[simp] theorem Dev.putRomAt_shadow (x : Option Nat) (d : Dev) : (Dev.putRomAt x d).shadow = d.shadow := rfl
@[simp] theorem Dev.putRomAt_mem (x : Option Nat) (d : Dev) : (Dev.putRomAt x d).mem = d.mem := rfl
@[simp] theorem Dev.putRomAt_triadMem (x : Option Nat) (d : Dev) : (Dev.putRomAt x d).triadMem = d.triadMem := rfl
@[simp] theorem Dev.putRomAt_dram (x : Option Nat) (d : Dev) : (Dev.putRomAt x d).dram = d.dram := rfl
@[simp] theorem Dev.putRomAt_flash (x : Option Nat) (d : Dev) : (Dev.putRomAt x d).flash = d.flash := rfl
@[simp] theorem Dev.putRomAt_dramEpoch (x : Option Nat) (d : Dev) : (Dev.putRomAt x d).dramEpoch = d.dramEpoch := rfl
@[simp] theorem Dev.putRomAt_now (x : Option Nat) (d : Dev) : (Dev.putRomAt x d).now = d.now := rfl
@[simp] theorem Dev.putRomAt_devTime (x : Option Nat) (d : Dev) : (Dev.putRomAt x d).devTime = d.devTime := rfl
@[simp] theorem Dev.putRomAt_rateAcc (x : Option Nat) (d : Dev) : (Dev.putRomAt x d).rateAcc = d.rateAcc := rfl
@[simp] theorem Dev.putRomAt_cyc (x : Option Nat) (d : Dev) : (Dev.putRomAt x d).cyc = d.cyc := rfl
@[simp] theorem Dev.putRomAt_readData (x : Option Nat) (d : Dev) : (Dev.putRomAt x d).readData = d.readData := rfl
@[simp] theorem Dev.putRomAt_freeCount (x : Option Nat) (d : Dev) : (Dev.putRomAt x d).freeCount = d.freeCount := rfl
@[simp] theorem Dev.putRomAt_timeHi (x : Option Nat) (d : Dev) : (Dev.putRomAt x d).timeHi = d.timeHi := rfl
@[simp] theorem Dev.putRomAt_activeSeen (x : Option Nat) (d : Dev) : (Dev.putRomAt x d).activeSeen = d.activeSeen := rfl
@[simp] theorem Dev.putRomAt_dramAt (x : Option Nat) (d : Dev) : (Dev.putRomAt x d).dramAt = d.dramAt := rfl
@[simp] theorem Dev.putRomAt_romAt (x : Option Nat) (d : Dev) : (Dev.putRomAt x d).romAt = x := rfl
@[simp] theorem Dev.putRomAt_flashSize (x : Option Nat) (d : Dev) : (Dev.putRomAt x d).flashSize = d.flashSize := rfl
@[simp] theorem Dev.putRomAt_syncOutAt (x : Option Nat) (d : Dev) : (Dev.putRomAt x d).syncOutAt = d.syncOutAt := rfl
@[simp] theorem Dev.putRomAt_reset (x : Option Nat) (d : Dev) : (Dev.putRomAt x d).reset = d.reset := rfl
@[simp] theorem Dev.putRomAt_supplies (x : Option Nat) (d : Dev) : (Dev.putRomAt x d).supplies = d.supplies := rfl
@[simp] theorem Dev.putRomAt_clocks (x : Option Nat) (d : Dev) : (Dev.putRomAt x d).clocks = d.clocks := rfl
@[simp] theorem Dev.putRomAt_loader (x : Option Nat) (d : Dev) : (Dev.putRomAt x d).loader = d.loader := rfl
@[simp] theorem Dev.putRomAt_fuses (x : Option Nat) (d : Dev) : (Dev.putRomAt x d).fuses = d.fuses := rfl
@[simp] theorem Dev.putRomAt_bootsel (x : Option Nat) (d : Dev) : (Dev.putRomAt x d).bootsel = d.bootsel := rfl
@[simp] theorem Dev.putRomAt_engines (x : Option Nat) (d : Dev) : (Dev.putRomAt x d).engines = d.engines := rfl
@[simp] theorem Dev.putRomAt_groups (x : Option Nat) (d : Dev) : (Dev.putRomAt x d).groups = d.groups := rfl
@[simp] theorem Dev.putRomAt_tripIn (x : Option Nat) (d : Dev) : (Dev.putRomAt x d).tripIn = d.tripIn := rfl
@[simp] theorem Dev.putRomAt_lanes (x : Option Nat) (d : Dev) : (Dev.putRomAt x d).lanes = d.lanes := rfl
@[simp] theorem Dev.putRomAt_conv (x : Option Nat) (d : Dev) : (Dev.putRomAt x d).conv = d.conv := rfl
@[simp] theorem Dev.putRomAt_acc (x : Option Nat) (d : Dev) : (Dev.putRomAt x d).acc = d.acc := rfl
@[simp] theorem Dev.putRomAt_mmx (x : Option Nat) (d : Dev) : (Dev.putRomAt x d).mmx = d.mmx := rfl
@[simp] theorem Dev.putRomAt_trims (x : Option Nat) (d : Dev) : (Dev.putRomAt x d).trims = d.trims := rfl
@[simp] theorem Dev.putRomAt_cmps (x : Option Nat) (d : Dev) : (Dev.putRomAt x d).cmps = d.cmps := rfl
@[simp] theorem Dev.putRomAt_cal (x : Option Nat) (d : Dev) : (Dev.putRomAt x d).cal = d.cal := rfl
@[simp] theorem Dev.putRomAt_acq (x : Option Nat) (d : Dev) : (Dev.putRomAt x d).acq = d.acq := rfl
@[simp] theorem Dev.putRomAt_pos (x : Option Nat) (d : Dev) : (Dev.putRomAt x d).pos = d.pos := rfl
@[simp] theorem Dev.putRomAt_mc (x : Option Nat) (d : Dev) : (Dev.putRomAt x d).mc = d.mc := rfl
@[simp] theorem Dev.putRomAt_triad (x : Option Nat) (d : Dev) : (Dev.putRomAt x d).triad = d.triad := rfl
@[simp] theorem Dev.putRomAt_sloe (x : Option Nat) (d : Dev) : (Dev.putRomAt x d).sloe = d.sloe := rfl
@[simp] theorem Dev.putRomAt_can (x : Option Nat) (d : Dev) : (Dev.putRomAt x d).can = d.can := rfl
@[simp] theorem Dev.putRomAt_crcs (x : Option Nat) (d : Dev) : (Dev.putRomAt x d).crcs = d.crcs := rfl
@[simp] theorem Dev.putRomAt_capture (x : Option Nat) (d : Dev) : (Dev.putRomAt x d).capture = d.capture := rfl
@[simp] theorem Dev.putRomAt_mgmt (x : Option Nat) (d : Dev) : (Dev.putRomAt x d).mgmt = d.mgmt := rfl
@[simp] theorem Dev.putRomAt_host (x : Option Nat) (d : Dev) : (Dev.putRomAt x d).host = d.host := rfl
@[simp] theorem Dev.putRomAt_net (x : Option Nat) (d : Dev) : (Dev.putRomAt x d).net = d.net := rfl
@[simp] theorem Dev.putRomAt_canopen (x : Option Nat) (d : Dev) : (Dev.putRomAt x d).canopen = d.canopen := rfl
@[simp] theorem Dev.putRomAt_gpioIn (x : Option Nat) (d : Dev) : (Dev.putRomAt x d).gpioIn = d.gpioIn := rfl
@[simp] theorem Dev.putRomAt_padHeld (x : Option Nat) (d : Dev) : (Dev.putRomAt x d).padHeld = d.padHeld := rfl

@[simp] theorem Dev.putRomAt_reg (x : Option Nat) (d : Dev) (k : Nat) : (Dev.putRomAt x d).reg k = d.reg k := rfl
@[simp] theorem Dev.putRomAt_sh (x : Option Nat) (d : Dev) (k : Nat) : (Dev.putRomAt x d).sh k = d.sh k := rfl

@[simp] theorem Dev.putSyncOutAt_regs (x : Option Nat) (d : Dev) : (Dev.putSyncOutAt x d).regs = d.regs := rfl
@[simp] theorem Dev.putSyncOutAt_shadow (x : Option Nat) (d : Dev) : (Dev.putSyncOutAt x d).shadow = d.shadow := rfl
@[simp] theorem Dev.putSyncOutAt_mem (x : Option Nat) (d : Dev) : (Dev.putSyncOutAt x d).mem = d.mem := rfl
@[simp] theorem Dev.putSyncOutAt_triadMem (x : Option Nat) (d : Dev) : (Dev.putSyncOutAt x d).triadMem = d.triadMem := rfl
@[simp] theorem Dev.putSyncOutAt_dram (x : Option Nat) (d : Dev) : (Dev.putSyncOutAt x d).dram = d.dram := rfl
@[simp] theorem Dev.putSyncOutAt_flash (x : Option Nat) (d : Dev) : (Dev.putSyncOutAt x d).flash = d.flash := rfl
@[simp] theorem Dev.putSyncOutAt_dramEpoch (x : Option Nat) (d : Dev) : (Dev.putSyncOutAt x d).dramEpoch = d.dramEpoch := rfl
@[simp] theorem Dev.putSyncOutAt_now (x : Option Nat) (d : Dev) : (Dev.putSyncOutAt x d).now = d.now := rfl
@[simp] theorem Dev.putSyncOutAt_devTime (x : Option Nat) (d : Dev) : (Dev.putSyncOutAt x d).devTime = d.devTime := rfl
@[simp] theorem Dev.putSyncOutAt_rateAcc (x : Option Nat) (d : Dev) : (Dev.putSyncOutAt x d).rateAcc = d.rateAcc := rfl
@[simp] theorem Dev.putSyncOutAt_cyc (x : Option Nat) (d : Dev) : (Dev.putSyncOutAt x d).cyc = d.cyc := rfl
@[simp] theorem Dev.putSyncOutAt_readData (x : Option Nat) (d : Dev) : (Dev.putSyncOutAt x d).readData = d.readData := rfl
@[simp] theorem Dev.putSyncOutAt_freeCount (x : Option Nat) (d : Dev) : (Dev.putSyncOutAt x d).freeCount = d.freeCount := rfl
@[simp] theorem Dev.putSyncOutAt_timeHi (x : Option Nat) (d : Dev) : (Dev.putSyncOutAt x d).timeHi = d.timeHi := rfl
@[simp] theorem Dev.putSyncOutAt_activeSeen (x : Option Nat) (d : Dev) : (Dev.putSyncOutAt x d).activeSeen = d.activeSeen := rfl
@[simp] theorem Dev.putSyncOutAt_dramAt (x : Option Nat) (d : Dev) : (Dev.putSyncOutAt x d).dramAt = d.dramAt := rfl
@[simp] theorem Dev.putSyncOutAt_romAt (x : Option Nat) (d : Dev) : (Dev.putSyncOutAt x d).romAt = d.romAt := rfl
@[simp] theorem Dev.putSyncOutAt_flashSize (x : Option Nat) (d : Dev) : (Dev.putSyncOutAt x d).flashSize = d.flashSize := rfl
@[simp] theorem Dev.putSyncOutAt_syncOutAt (x : Option Nat) (d : Dev) : (Dev.putSyncOutAt x d).syncOutAt = x := rfl
@[simp] theorem Dev.putSyncOutAt_reset (x : Option Nat) (d : Dev) : (Dev.putSyncOutAt x d).reset = d.reset := rfl
@[simp] theorem Dev.putSyncOutAt_supplies (x : Option Nat) (d : Dev) : (Dev.putSyncOutAt x d).supplies = d.supplies := rfl
@[simp] theorem Dev.putSyncOutAt_clocks (x : Option Nat) (d : Dev) : (Dev.putSyncOutAt x d).clocks = d.clocks := rfl
@[simp] theorem Dev.putSyncOutAt_loader (x : Option Nat) (d : Dev) : (Dev.putSyncOutAt x d).loader = d.loader := rfl
@[simp] theorem Dev.putSyncOutAt_fuses (x : Option Nat) (d : Dev) : (Dev.putSyncOutAt x d).fuses = d.fuses := rfl
@[simp] theorem Dev.putSyncOutAt_bootsel (x : Option Nat) (d : Dev) : (Dev.putSyncOutAt x d).bootsel = d.bootsel := rfl
@[simp] theorem Dev.putSyncOutAt_engines (x : Option Nat) (d : Dev) : (Dev.putSyncOutAt x d).engines = d.engines := rfl
@[simp] theorem Dev.putSyncOutAt_groups (x : Option Nat) (d : Dev) : (Dev.putSyncOutAt x d).groups = d.groups := rfl
@[simp] theorem Dev.putSyncOutAt_tripIn (x : Option Nat) (d : Dev) : (Dev.putSyncOutAt x d).tripIn = d.tripIn := rfl
@[simp] theorem Dev.putSyncOutAt_lanes (x : Option Nat) (d : Dev) : (Dev.putSyncOutAt x d).lanes = d.lanes := rfl
@[simp] theorem Dev.putSyncOutAt_conv (x : Option Nat) (d : Dev) : (Dev.putSyncOutAt x d).conv = d.conv := rfl
@[simp] theorem Dev.putSyncOutAt_acc (x : Option Nat) (d : Dev) : (Dev.putSyncOutAt x d).acc = d.acc := rfl
@[simp] theorem Dev.putSyncOutAt_mmx (x : Option Nat) (d : Dev) : (Dev.putSyncOutAt x d).mmx = d.mmx := rfl
@[simp] theorem Dev.putSyncOutAt_trims (x : Option Nat) (d : Dev) : (Dev.putSyncOutAt x d).trims = d.trims := rfl
@[simp] theorem Dev.putSyncOutAt_cmps (x : Option Nat) (d : Dev) : (Dev.putSyncOutAt x d).cmps = d.cmps := rfl
@[simp] theorem Dev.putSyncOutAt_cal (x : Option Nat) (d : Dev) : (Dev.putSyncOutAt x d).cal = d.cal := rfl
@[simp] theorem Dev.putSyncOutAt_acq (x : Option Nat) (d : Dev) : (Dev.putSyncOutAt x d).acq = d.acq := rfl
@[simp] theorem Dev.putSyncOutAt_pos (x : Option Nat) (d : Dev) : (Dev.putSyncOutAt x d).pos = d.pos := rfl
@[simp] theorem Dev.putSyncOutAt_mc (x : Option Nat) (d : Dev) : (Dev.putSyncOutAt x d).mc = d.mc := rfl
@[simp] theorem Dev.putSyncOutAt_triad (x : Option Nat) (d : Dev) : (Dev.putSyncOutAt x d).triad = d.triad := rfl
@[simp] theorem Dev.putSyncOutAt_sloe (x : Option Nat) (d : Dev) : (Dev.putSyncOutAt x d).sloe = d.sloe := rfl
@[simp] theorem Dev.putSyncOutAt_can (x : Option Nat) (d : Dev) : (Dev.putSyncOutAt x d).can = d.can := rfl
@[simp] theorem Dev.putSyncOutAt_crcs (x : Option Nat) (d : Dev) : (Dev.putSyncOutAt x d).crcs = d.crcs := rfl
@[simp] theorem Dev.putSyncOutAt_capture (x : Option Nat) (d : Dev) : (Dev.putSyncOutAt x d).capture = d.capture := rfl
@[simp] theorem Dev.putSyncOutAt_mgmt (x : Option Nat) (d : Dev) : (Dev.putSyncOutAt x d).mgmt = d.mgmt := rfl
@[simp] theorem Dev.putSyncOutAt_host (x : Option Nat) (d : Dev) : (Dev.putSyncOutAt x d).host = d.host := rfl
@[simp] theorem Dev.putSyncOutAt_net (x : Option Nat) (d : Dev) : (Dev.putSyncOutAt x d).net = d.net := rfl
@[simp] theorem Dev.putSyncOutAt_canopen (x : Option Nat) (d : Dev) : (Dev.putSyncOutAt x d).canopen = d.canopen := rfl
@[simp] theorem Dev.putSyncOutAt_gpioIn (x : Option Nat) (d : Dev) : (Dev.putSyncOutAt x d).gpioIn = d.gpioIn := rfl
@[simp] theorem Dev.putSyncOutAt_padHeld (x : Option Nat) (d : Dev) : (Dev.putSyncOutAt x d).padHeld = d.padHeld := rfl

@[simp] theorem Dev.putSyncOutAt_reg (x : Option Nat) (d : Dev) (k : Nat) : (Dev.putSyncOutAt x d).reg k = d.reg k := rfl
@[simp] theorem Dev.putSyncOutAt_sh (x : Option Nat) (d : Dev) (k : Nat) : (Dev.putSyncOutAt x d).sh k = d.sh k := rfl

@[simp] theorem Dev.putReset_regs (x : ResetCtl) (d : Dev) : (Dev.putReset x d).regs = d.regs := rfl
@[simp] theorem Dev.putReset_shadow (x : ResetCtl) (d : Dev) : (Dev.putReset x d).shadow = d.shadow := rfl
@[simp] theorem Dev.putReset_mem (x : ResetCtl) (d : Dev) : (Dev.putReset x d).mem = d.mem := rfl
@[simp] theorem Dev.putReset_triadMem (x : ResetCtl) (d : Dev) : (Dev.putReset x d).triadMem = d.triadMem := rfl
@[simp] theorem Dev.putReset_dram (x : ResetCtl) (d : Dev) : (Dev.putReset x d).dram = d.dram := rfl
@[simp] theorem Dev.putReset_flash (x : ResetCtl) (d : Dev) : (Dev.putReset x d).flash = d.flash := rfl
@[simp] theorem Dev.putReset_dramEpoch (x : ResetCtl) (d : Dev) : (Dev.putReset x d).dramEpoch = d.dramEpoch := rfl
@[simp] theorem Dev.putReset_now (x : ResetCtl) (d : Dev) : (Dev.putReset x d).now = d.now := rfl
@[simp] theorem Dev.putReset_devTime (x : ResetCtl) (d : Dev) : (Dev.putReset x d).devTime = d.devTime := rfl
@[simp] theorem Dev.putReset_rateAcc (x : ResetCtl) (d : Dev) : (Dev.putReset x d).rateAcc = d.rateAcc := rfl
@[simp] theorem Dev.putReset_cyc (x : ResetCtl) (d : Dev) : (Dev.putReset x d).cyc = d.cyc := rfl
@[simp] theorem Dev.putReset_readData (x : ResetCtl) (d : Dev) : (Dev.putReset x d).readData = d.readData := rfl
@[simp] theorem Dev.putReset_freeCount (x : ResetCtl) (d : Dev) : (Dev.putReset x d).freeCount = d.freeCount := rfl
@[simp] theorem Dev.putReset_timeHi (x : ResetCtl) (d : Dev) : (Dev.putReset x d).timeHi = d.timeHi := rfl
@[simp] theorem Dev.putReset_activeSeen (x : ResetCtl) (d : Dev) : (Dev.putReset x d).activeSeen = d.activeSeen := rfl
@[simp] theorem Dev.putReset_dramAt (x : ResetCtl) (d : Dev) : (Dev.putReset x d).dramAt = d.dramAt := rfl
@[simp] theorem Dev.putReset_romAt (x : ResetCtl) (d : Dev) : (Dev.putReset x d).romAt = d.romAt := rfl
@[simp] theorem Dev.putReset_flashSize (x : ResetCtl) (d : Dev) : (Dev.putReset x d).flashSize = d.flashSize := rfl
@[simp] theorem Dev.putReset_syncOutAt (x : ResetCtl) (d : Dev) : (Dev.putReset x d).syncOutAt = d.syncOutAt := rfl
@[simp] theorem Dev.putReset_reset (x : ResetCtl) (d : Dev) : (Dev.putReset x d).reset = x := rfl
@[simp] theorem Dev.putReset_supplies (x : ResetCtl) (d : Dev) : (Dev.putReset x d).supplies = d.supplies := rfl
@[simp] theorem Dev.putReset_clocks (x : ResetCtl) (d : Dev) : (Dev.putReset x d).clocks = d.clocks := rfl
@[simp] theorem Dev.putReset_loader (x : ResetCtl) (d : Dev) : (Dev.putReset x d).loader = d.loader := rfl
@[simp] theorem Dev.putReset_fuses (x : ResetCtl) (d : Dev) : (Dev.putReset x d).fuses = d.fuses := rfl
@[simp] theorem Dev.putReset_bootsel (x : ResetCtl) (d : Dev) : (Dev.putReset x d).bootsel = d.bootsel := rfl
@[simp] theorem Dev.putReset_engines (x : ResetCtl) (d : Dev) : (Dev.putReset x d).engines = d.engines := rfl
@[simp] theorem Dev.putReset_groups (x : ResetCtl) (d : Dev) : (Dev.putReset x d).groups = d.groups := rfl
@[simp] theorem Dev.putReset_tripIn (x : ResetCtl) (d : Dev) : (Dev.putReset x d).tripIn = d.tripIn := rfl
@[simp] theorem Dev.putReset_lanes (x : ResetCtl) (d : Dev) : (Dev.putReset x d).lanes = d.lanes := rfl
@[simp] theorem Dev.putReset_conv (x : ResetCtl) (d : Dev) : (Dev.putReset x d).conv = d.conv := rfl
@[simp] theorem Dev.putReset_acc (x : ResetCtl) (d : Dev) : (Dev.putReset x d).acc = d.acc := rfl
@[simp] theorem Dev.putReset_mmx (x : ResetCtl) (d : Dev) : (Dev.putReset x d).mmx = d.mmx := rfl
@[simp] theorem Dev.putReset_trims (x : ResetCtl) (d : Dev) : (Dev.putReset x d).trims = d.trims := rfl
@[simp] theorem Dev.putReset_cmps (x : ResetCtl) (d : Dev) : (Dev.putReset x d).cmps = d.cmps := rfl
@[simp] theorem Dev.putReset_cal (x : ResetCtl) (d : Dev) : (Dev.putReset x d).cal = d.cal := rfl
@[simp] theorem Dev.putReset_acq (x : ResetCtl) (d : Dev) : (Dev.putReset x d).acq = d.acq := rfl
@[simp] theorem Dev.putReset_pos (x : ResetCtl) (d : Dev) : (Dev.putReset x d).pos = d.pos := rfl
@[simp] theorem Dev.putReset_mc (x : ResetCtl) (d : Dev) : (Dev.putReset x d).mc = d.mc := rfl
@[simp] theorem Dev.putReset_triad (x : ResetCtl) (d : Dev) : (Dev.putReset x d).triad = d.triad := rfl
@[simp] theorem Dev.putReset_sloe (x : ResetCtl) (d : Dev) : (Dev.putReset x d).sloe = d.sloe := rfl
@[simp] theorem Dev.putReset_can (x : ResetCtl) (d : Dev) : (Dev.putReset x d).can = d.can := rfl
@[simp] theorem Dev.putReset_crcs (x : ResetCtl) (d : Dev) : (Dev.putReset x d).crcs = d.crcs := rfl
@[simp] theorem Dev.putReset_capture (x : ResetCtl) (d : Dev) : (Dev.putReset x d).capture = d.capture := rfl
@[simp] theorem Dev.putReset_mgmt (x : ResetCtl) (d : Dev) : (Dev.putReset x d).mgmt = d.mgmt := rfl
@[simp] theorem Dev.putReset_host (x : ResetCtl) (d : Dev) : (Dev.putReset x d).host = d.host := rfl
@[simp] theorem Dev.putReset_net (x : ResetCtl) (d : Dev) : (Dev.putReset x d).net = d.net := rfl
@[simp] theorem Dev.putReset_canopen (x : ResetCtl) (d : Dev) : (Dev.putReset x d).canopen = d.canopen := rfl
@[simp] theorem Dev.putReset_gpioIn (x : ResetCtl) (d : Dev) : (Dev.putReset x d).gpioIn = d.gpioIn := rfl
@[simp] theorem Dev.putReset_padHeld (x : ResetCtl) (d : Dev) : (Dev.putReset x d).padHeld = d.padHeld := rfl

@[simp] theorem Dev.putReset_reg (x : ResetCtl) (d : Dev) (k : Nat) : (Dev.putReset x d).reg k = d.reg k := rfl
@[simp] theorem Dev.putReset_sh (x : ResetCtl) (d : Dev) (k : Nat) : (Dev.putReset x d).sh k = d.sh k := rfl

@[simp] theorem Dev.putSupplies_regs (x : Supplies) (d : Dev) : (Dev.putSupplies x d).regs = d.regs := rfl
@[simp] theorem Dev.putSupplies_shadow (x : Supplies) (d : Dev) : (Dev.putSupplies x d).shadow = d.shadow := rfl
@[simp] theorem Dev.putSupplies_mem (x : Supplies) (d : Dev) : (Dev.putSupplies x d).mem = d.mem := rfl
@[simp] theorem Dev.putSupplies_triadMem (x : Supplies) (d : Dev) : (Dev.putSupplies x d).triadMem = d.triadMem := rfl
@[simp] theorem Dev.putSupplies_dram (x : Supplies) (d : Dev) : (Dev.putSupplies x d).dram = d.dram := rfl
@[simp] theorem Dev.putSupplies_flash (x : Supplies) (d : Dev) : (Dev.putSupplies x d).flash = d.flash := rfl
@[simp] theorem Dev.putSupplies_dramEpoch (x : Supplies) (d : Dev) : (Dev.putSupplies x d).dramEpoch = d.dramEpoch := rfl
@[simp] theorem Dev.putSupplies_now (x : Supplies) (d : Dev) : (Dev.putSupplies x d).now = d.now := rfl
@[simp] theorem Dev.putSupplies_devTime (x : Supplies) (d : Dev) : (Dev.putSupplies x d).devTime = d.devTime := rfl
@[simp] theorem Dev.putSupplies_rateAcc (x : Supplies) (d : Dev) : (Dev.putSupplies x d).rateAcc = d.rateAcc := rfl
@[simp] theorem Dev.putSupplies_cyc (x : Supplies) (d : Dev) : (Dev.putSupplies x d).cyc = d.cyc := rfl
@[simp] theorem Dev.putSupplies_readData (x : Supplies) (d : Dev) : (Dev.putSupplies x d).readData = d.readData := rfl
@[simp] theorem Dev.putSupplies_freeCount (x : Supplies) (d : Dev) : (Dev.putSupplies x d).freeCount = d.freeCount := rfl
@[simp] theorem Dev.putSupplies_timeHi (x : Supplies) (d : Dev) : (Dev.putSupplies x d).timeHi = d.timeHi := rfl
@[simp] theorem Dev.putSupplies_activeSeen (x : Supplies) (d : Dev) : (Dev.putSupplies x d).activeSeen = d.activeSeen := rfl
@[simp] theorem Dev.putSupplies_dramAt (x : Supplies) (d : Dev) : (Dev.putSupplies x d).dramAt = d.dramAt := rfl
@[simp] theorem Dev.putSupplies_romAt (x : Supplies) (d : Dev) : (Dev.putSupplies x d).romAt = d.romAt := rfl
@[simp] theorem Dev.putSupplies_flashSize (x : Supplies) (d : Dev) : (Dev.putSupplies x d).flashSize = d.flashSize := rfl
@[simp] theorem Dev.putSupplies_syncOutAt (x : Supplies) (d : Dev) : (Dev.putSupplies x d).syncOutAt = d.syncOutAt := rfl
@[simp] theorem Dev.putSupplies_reset (x : Supplies) (d : Dev) : (Dev.putSupplies x d).reset = d.reset := rfl
@[simp] theorem Dev.putSupplies_supplies (x : Supplies) (d : Dev) : (Dev.putSupplies x d).supplies = x := rfl
@[simp] theorem Dev.putSupplies_clocks (x : Supplies) (d : Dev) : (Dev.putSupplies x d).clocks = d.clocks := rfl
@[simp] theorem Dev.putSupplies_loader (x : Supplies) (d : Dev) : (Dev.putSupplies x d).loader = d.loader := rfl
@[simp] theorem Dev.putSupplies_fuses (x : Supplies) (d : Dev) : (Dev.putSupplies x d).fuses = d.fuses := rfl
@[simp] theorem Dev.putSupplies_bootsel (x : Supplies) (d : Dev) : (Dev.putSupplies x d).bootsel = d.bootsel := rfl
@[simp] theorem Dev.putSupplies_engines (x : Supplies) (d : Dev) : (Dev.putSupplies x d).engines = d.engines := rfl
@[simp] theorem Dev.putSupplies_groups (x : Supplies) (d : Dev) : (Dev.putSupplies x d).groups = d.groups := rfl
@[simp] theorem Dev.putSupplies_tripIn (x : Supplies) (d : Dev) : (Dev.putSupplies x d).tripIn = d.tripIn := rfl
@[simp] theorem Dev.putSupplies_lanes (x : Supplies) (d : Dev) : (Dev.putSupplies x d).lanes = d.lanes := rfl
@[simp] theorem Dev.putSupplies_conv (x : Supplies) (d : Dev) : (Dev.putSupplies x d).conv = d.conv := rfl
@[simp] theorem Dev.putSupplies_acc (x : Supplies) (d : Dev) : (Dev.putSupplies x d).acc = d.acc := rfl
@[simp] theorem Dev.putSupplies_mmx (x : Supplies) (d : Dev) : (Dev.putSupplies x d).mmx = d.mmx := rfl
@[simp] theorem Dev.putSupplies_trims (x : Supplies) (d : Dev) : (Dev.putSupplies x d).trims = d.trims := rfl
@[simp] theorem Dev.putSupplies_cmps (x : Supplies) (d : Dev) : (Dev.putSupplies x d).cmps = d.cmps := rfl
@[simp] theorem Dev.putSupplies_cal (x : Supplies) (d : Dev) : (Dev.putSupplies x d).cal = d.cal := rfl
@[simp] theorem Dev.putSupplies_acq (x : Supplies) (d : Dev) : (Dev.putSupplies x d).acq = d.acq := rfl
@[simp] theorem Dev.putSupplies_pos (x : Supplies) (d : Dev) : (Dev.putSupplies x d).pos = d.pos := rfl
@[simp] theorem Dev.putSupplies_mc (x : Supplies) (d : Dev) : (Dev.putSupplies x d).mc = d.mc := rfl
@[simp] theorem Dev.putSupplies_triad (x : Supplies) (d : Dev) : (Dev.putSupplies x d).triad = d.triad := rfl
@[simp] theorem Dev.putSupplies_sloe (x : Supplies) (d : Dev) : (Dev.putSupplies x d).sloe = d.sloe := rfl
@[simp] theorem Dev.putSupplies_can (x : Supplies) (d : Dev) : (Dev.putSupplies x d).can = d.can := rfl
@[simp] theorem Dev.putSupplies_crcs (x : Supplies) (d : Dev) : (Dev.putSupplies x d).crcs = d.crcs := rfl
@[simp] theorem Dev.putSupplies_capture (x : Supplies) (d : Dev) : (Dev.putSupplies x d).capture = d.capture := rfl
@[simp] theorem Dev.putSupplies_mgmt (x : Supplies) (d : Dev) : (Dev.putSupplies x d).mgmt = d.mgmt := rfl
@[simp] theorem Dev.putSupplies_host (x : Supplies) (d : Dev) : (Dev.putSupplies x d).host = d.host := rfl
@[simp] theorem Dev.putSupplies_net (x : Supplies) (d : Dev) : (Dev.putSupplies x d).net = d.net := rfl
@[simp] theorem Dev.putSupplies_canopen (x : Supplies) (d : Dev) : (Dev.putSupplies x d).canopen = d.canopen := rfl
@[simp] theorem Dev.putSupplies_gpioIn (x : Supplies) (d : Dev) : (Dev.putSupplies x d).gpioIn = d.gpioIn := rfl
@[simp] theorem Dev.putSupplies_padHeld (x : Supplies) (d : Dev) : (Dev.putSupplies x d).padHeld = d.padHeld := rfl

@[simp] theorem Dev.putSupplies_reg (x : Supplies) (d : Dev) (k : Nat) : (Dev.putSupplies x d).reg k = d.reg k := rfl
@[simp] theorem Dev.putSupplies_sh (x : Supplies) (d : Dev) (k : Nat) : (Dev.putSupplies x d).sh k = d.sh k := rfl

@[simp] theorem Dev.putClocks_regs (x : Clocks) (d : Dev) : (Dev.putClocks x d).regs = d.regs := rfl
@[simp] theorem Dev.putClocks_shadow (x : Clocks) (d : Dev) : (Dev.putClocks x d).shadow = d.shadow := rfl
@[simp] theorem Dev.putClocks_mem (x : Clocks) (d : Dev) : (Dev.putClocks x d).mem = d.mem := rfl
@[simp] theorem Dev.putClocks_triadMem (x : Clocks) (d : Dev) : (Dev.putClocks x d).triadMem = d.triadMem := rfl
@[simp] theorem Dev.putClocks_dram (x : Clocks) (d : Dev) : (Dev.putClocks x d).dram = d.dram := rfl
@[simp] theorem Dev.putClocks_flash (x : Clocks) (d : Dev) : (Dev.putClocks x d).flash = d.flash := rfl
@[simp] theorem Dev.putClocks_dramEpoch (x : Clocks) (d : Dev) : (Dev.putClocks x d).dramEpoch = d.dramEpoch := rfl
@[simp] theorem Dev.putClocks_now (x : Clocks) (d : Dev) : (Dev.putClocks x d).now = d.now := rfl
@[simp] theorem Dev.putClocks_devTime (x : Clocks) (d : Dev) : (Dev.putClocks x d).devTime = d.devTime := rfl
@[simp] theorem Dev.putClocks_rateAcc (x : Clocks) (d : Dev) : (Dev.putClocks x d).rateAcc = d.rateAcc := rfl
@[simp] theorem Dev.putClocks_cyc (x : Clocks) (d : Dev) : (Dev.putClocks x d).cyc = d.cyc := rfl
@[simp] theorem Dev.putClocks_readData (x : Clocks) (d : Dev) : (Dev.putClocks x d).readData = d.readData := rfl
@[simp] theorem Dev.putClocks_freeCount (x : Clocks) (d : Dev) : (Dev.putClocks x d).freeCount = d.freeCount := rfl
@[simp] theorem Dev.putClocks_timeHi (x : Clocks) (d : Dev) : (Dev.putClocks x d).timeHi = d.timeHi := rfl
@[simp] theorem Dev.putClocks_activeSeen (x : Clocks) (d : Dev) : (Dev.putClocks x d).activeSeen = d.activeSeen := rfl
@[simp] theorem Dev.putClocks_dramAt (x : Clocks) (d : Dev) : (Dev.putClocks x d).dramAt = d.dramAt := rfl
@[simp] theorem Dev.putClocks_romAt (x : Clocks) (d : Dev) : (Dev.putClocks x d).romAt = d.romAt := rfl
@[simp] theorem Dev.putClocks_flashSize (x : Clocks) (d : Dev) : (Dev.putClocks x d).flashSize = d.flashSize := rfl
@[simp] theorem Dev.putClocks_syncOutAt (x : Clocks) (d : Dev) : (Dev.putClocks x d).syncOutAt = d.syncOutAt := rfl
@[simp] theorem Dev.putClocks_reset (x : Clocks) (d : Dev) : (Dev.putClocks x d).reset = d.reset := rfl
@[simp] theorem Dev.putClocks_supplies (x : Clocks) (d : Dev) : (Dev.putClocks x d).supplies = d.supplies := rfl
@[simp] theorem Dev.putClocks_clocks (x : Clocks) (d : Dev) : (Dev.putClocks x d).clocks = x := rfl
@[simp] theorem Dev.putClocks_loader (x : Clocks) (d : Dev) : (Dev.putClocks x d).loader = d.loader := rfl
@[simp] theorem Dev.putClocks_fuses (x : Clocks) (d : Dev) : (Dev.putClocks x d).fuses = d.fuses := rfl
@[simp] theorem Dev.putClocks_bootsel (x : Clocks) (d : Dev) : (Dev.putClocks x d).bootsel = d.bootsel := rfl
@[simp] theorem Dev.putClocks_engines (x : Clocks) (d : Dev) : (Dev.putClocks x d).engines = d.engines := rfl
@[simp] theorem Dev.putClocks_groups (x : Clocks) (d : Dev) : (Dev.putClocks x d).groups = d.groups := rfl
@[simp] theorem Dev.putClocks_tripIn (x : Clocks) (d : Dev) : (Dev.putClocks x d).tripIn = d.tripIn := rfl
@[simp] theorem Dev.putClocks_lanes (x : Clocks) (d : Dev) : (Dev.putClocks x d).lanes = d.lanes := rfl
@[simp] theorem Dev.putClocks_conv (x : Clocks) (d : Dev) : (Dev.putClocks x d).conv = d.conv := rfl
@[simp] theorem Dev.putClocks_acc (x : Clocks) (d : Dev) : (Dev.putClocks x d).acc = d.acc := rfl
@[simp] theorem Dev.putClocks_mmx (x : Clocks) (d : Dev) : (Dev.putClocks x d).mmx = d.mmx := rfl
@[simp] theorem Dev.putClocks_trims (x : Clocks) (d : Dev) : (Dev.putClocks x d).trims = d.trims := rfl
@[simp] theorem Dev.putClocks_cmps (x : Clocks) (d : Dev) : (Dev.putClocks x d).cmps = d.cmps := rfl
@[simp] theorem Dev.putClocks_cal (x : Clocks) (d : Dev) : (Dev.putClocks x d).cal = d.cal := rfl
@[simp] theorem Dev.putClocks_acq (x : Clocks) (d : Dev) : (Dev.putClocks x d).acq = d.acq := rfl
@[simp] theorem Dev.putClocks_pos (x : Clocks) (d : Dev) : (Dev.putClocks x d).pos = d.pos := rfl
@[simp] theorem Dev.putClocks_mc (x : Clocks) (d : Dev) : (Dev.putClocks x d).mc = d.mc := rfl
@[simp] theorem Dev.putClocks_triad (x : Clocks) (d : Dev) : (Dev.putClocks x d).triad = d.triad := rfl
@[simp] theorem Dev.putClocks_sloe (x : Clocks) (d : Dev) : (Dev.putClocks x d).sloe = d.sloe := rfl
@[simp] theorem Dev.putClocks_can (x : Clocks) (d : Dev) : (Dev.putClocks x d).can = d.can := rfl
@[simp] theorem Dev.putClocks_crcs (x : Clocks) (d : Dev) : (Dev.putClocks x d).crcs = d.crcs := rfl
@[simp] theorem Dev.putClocks_capture (x : Clocks) (d : Dev) : (Dev.putClocks x d).capture = d.capture := rfl
@[simp] theorem Dev.putClocks_mgmt (x : Clocks) (d : Dev) : (Dev.putClocks x d).mgmt = d.mgmt := rfl
@[simp] theorem Dev.putClocks_host (x : Clocks) (d : Dev) : (Dev.putClocks x d).host = d.host := rfl
@[simp] theorem Dev.putClocks_net (x : Clocks) (d : Dev) : (Dev.putClocks x d).net = d.net := rfl
@[simp] theorem Dev.putClocks_canopen (x : Clocks) (d : Dev) : (Dev.putClocks x d).canopen = d.canopen := rfl
@[simp] theorem Dev.putClocks_gpioIn (x : Clocks) (d : Dev) : (Dev.putClocks x d).gpioIn = d.gpioIn := rfl
@[simp] theorem Dev.putClocks_padHeld (x : Clocks) (d : Dev) : (Dev.putClocks x d).padHeld = d.padHeld := rfl

@[simp] theorem Dev.putClocks_reg (x : Clocks) (d : Dev) (k : Nat) : (Dev.putClocks x d).reg k = d.reg k := rfl
@[simp] theorem Dev.putClocks_sh (x : Clocks) (d : Dev) (k : Nat) : (Dev.putClocks x d).sh k = d.sh k := rfl

@[simp] theorem Dev.putLoader_regs (x : Loader) (d : Dev) : (Dev.putLoader x d).regs = d.regs := rfl
@[simp] theorem Dev.putLoader_shadow (x : Loader) (d : Dev) : (Dev.putLoader x d).shadow = d.shadow := rfl
@[simp] theorem Dev.putLoader_mem (x : Loader) (d : Dev) : (Dev.putLoader x d).mem = d.mem := rfl
@[simp] theorem Dev.putLoader_triadMem (x : Loader) (d : Dev) : (Dev.putLoader x d).triadMem = d.triadMem := rfl
@[simp] theorem Dev.putLoader_dram (x : Loader) (d : Dev) : (Dev.putLoader x d).dram = d.dram := rfl
@[simp] theorem Dev.putLoader_flash (x : Loader) (d : Dev) : (Dev.putLoader x d).flash = d.flash := rfl
@[simp] theorem Dev.putLoader_dramEpoch (x : Loader) (d : Dev) : (Dev.putLoader x d).dramEpoch = d.dramEpoch := rfl
@[simp] theorem Dev.putLoader_now (x : Loader) (d : Dev) : (Dev.putLoader x d).now = d.now := rfl
@[simp] theorem Dev.putLoader_devTime (x : Loader) (d : Dev) : (Dev.putLoader x d).devTime = d.devTime := rfl
@[simp] theorem Dev.putLoader_rateAcc (x : Loader) (d : Dev) : (Dev.putLoader x d).rateAcc = d.rateAcc := rfl
@[simp] theorem Dev.putLoader_cyc (x : Loader) (d : Dev) : (Dev.putLoader x d).cyc = d.cyc := rfl
@[simp] theorem Dev.putLoader_readData (x : Loader) (d : Dev) : (Dev.putLoader x d).readData = d.readData := rfl
@[simp] theorem Dev.putLoader_freeCount (x : Loader) (d : Dev) : (Dev.putLoader x d).freeCount = d.freeCount := rfl
@[simp] theorem Dev.putLoader_timeHi (x : Loader) (d : Dev) : (Dev.putLoader x d).timeHi = d.timeHi := rfl
@[simp] theorem Dev.putLoader_activeSeen (x : Loader) (d : Dev) : (Dev.putLoader x d).activeSeen = d.activeSeen := rfl
@[simp] theorem Dev.putLoader_dramAt (x : Loader) (d : Dev) : (Dev.putLoader x d).dramAt = d.dramAt := rfl
@[simp] theorem Dev.putLoader_romAt (x : Loader) (d : Dev) : (Dev.putLoader x d).romAt = d.romAt := rfl
@[simp] theorem Dev.putLoader_flashSize (x : Loader) (d : Dev) : (Dev.putLoader x d).flashSize = d.flashSize := rfl
@[simp] theorem Dev.putLoader_syncOutAt (x : Loader) (d : Dev) : (Dev.putLoader x d).syncOutAt = d.syncOutAt := rfl
@[simp] theorem Dev.putLoader_reset (x : Loader) (d : Dev) : (Dev.putLoader x d).reset = d.reset := rfl
@[simp] theorem Dev.putLoader_supplies (x : Loader) (d : Dev) : (Dev.putLoader x d).supplies = d.supplies := rfl
@[simp] theorem Dev.putLoader_clocks (x : Loader) (d : Dev) : (Dev.putLoader x d).clocks = d.clocks := rfl
@[simp] theorem Dev.putLoader_loader (x : Loader) (d : Dev) : (Dev.putLoader x d).loader = x := rfl
@[simp] theorem Dev.putLoader_fuses (x : Loader) (d : Dev) : (Dev.putLoader x d).fuses = d.fuses := rfl
@[simp] theorem Dev.putLoader_bootsel (x : Loader) (d : Dev) : (Dev.putLoader x d).bootsel = d.bootsel := rfl
@[simp] theorem Dev.putLoader_engines (x : Loader) (d : Dev) : (Dev.putLoader x d).engines = d.engines := rfl
@[simp] theorem Dev.putLoader_groups (x : Loader) (d : Dev) : (Dev.putLoader x d).groups = d.groups := rfl
@[simp] theorem Dev.putLoader_tripIn (x : Loader) (d : Dev) : (Dev.putLoader x d).tripIn = d.tripIn := rfl
@[simp] theorem Dev.putLoader_lanes (x : Loader) (d : Dev) : (Dev.putLoader x d).lanes = d.lanes := rfl
@[simp] theorem Dev.putLoader_conv (x : Loader) (d : Dev) : (Dev.putLoader x d).conv = d.conv := rfl
@[simp] theorem Dev.putLoader_acc (x : Loader) (d : Dev) : (Dev.putLoader x d).acc = d.acc := rfl
@[simp] theorem Dev.putLoader_mmx (x : Loader) (d : Dev) : (Dev.putLoader x d).mmx = d.mmx := rfl
@[simp] theorem Dev.putLoader_trims (x : Loader) (d : Dev) : (Dev.putLoader x d).trims = d.trims := rfl
@[simp] theorem Dev.putLoader_cmps (x : Loader) (d : Dev) : (Dev.putLoader x d).cmps = d.cmps := rfl
@[simp] theorem Dev.putLoader_cal (x : Loader) (d : Dev) : (Dev.putLoader x d).cal = d.cal := rfl
@[simp] theorem Dev.putLoader_acq (x : Loader) (d : Dev) : (Dev.putLoader x d).acq = d.acq := rfl
@[simp] theorem Dev.putLoader_pos (x : Loader) (d : Dev) : (Dev.putLoader x d).pos = d.pos := rfl
@[simp] theorem Dev.putLoader_mc (x : Loader) (d : Dev) : (Dev.putLoader x d).mc = d.mc := rfl
@[simp] theorem Dev.putLoader_triad (x : Loader) (d : Dev) : (Dev.putLoader x d).triad = d.triad := rfl
@[simp] theorem Dev.putLoader_sloe (x : Loader) (d : Dev) : (Dev.putLoader x d).sloe = d.sloe := rfl
@[simp] theorem Dev.putLoader_can (x : Loader) (d : Dev) : (Dev.putLoader x d).can = d.can := rfl
@[simp] theorem Dev.putLoader_crcs (x : Loader) (d : Dev) : (Dev.putLoader x d).crcs = d.crcs := rfl
@[simp] theorem Dev.putLoader_capture (x : Loader) (d : Dev) : (Dev.putLoader x d).capture = d.capture := rfl
@[simp] theorem Dev.putLoader_mgmt (x : Loader) (d : Dev) : (Dev.putLoader x d).mgmt = d.mgmt := rfl
@[simp] theorem Dev.putLoader_host (x : Loader) (d : Dev) : (Dev.putLoader x d).host = d.host := rfl
@[simp] theorem Dev.putLoader_net (x : Loader) (d : Dev) : (Dev.putLoader x d).net = d.net := rfl
@[simp] theorem Dev.putLoader_canopen (x : Loader) (d : Dev) : (Dev.putLoader x d).canopen = d.canopen := rfl
@[simp] theorem Dev.putLoader_gpioIn (x : Loader) (d : Dev) : (Dev.putLoader x d).gpioIn = d.gpioIn := rfl
@[simp] theorem Dev.putLoader_padHeld (x : Loader) (d : Dev) : (Dev.putLoader x d).padHeld = d.padHeld := rfl

@[simp] theorem Dev.putLoader_reg (x : Loader) (d : Dev) (k : Nat) : (Dev.putLoader x d).reg k = d.reg k := rfl
@[simp] theorem Dev.putLoader_sh (x : Loader) (d : Dev) (k : Nat) : (Dev.putLoader x d).sh k = d.sh k := rfl

@[simp] theorem Dev.putTripIn_regs (x : BitVec 13) (d : Dev) : (Dev.putTripIn x d).regs = d.regs := rfl
@[simp] theorem Dev.putTripIn_shadow (x : BitVec 13) (d : Dev) : (Dev.putTripIn x d).shadow = d.shadow := rfl
@[simp] theorem Dev.putTripIn_mem (x : BitVec 13) (d : Dev) : (Dev.putTripIn x d).mem = d.mem := rfl
@[simp] theorem Dev.putTripIn_triadMem (x : BitVec 13) (d : Dev) : (Dev.putTripIn x d).triadMem = d.triadMem := rfl
@[simp] theorem Dev.putTripIn_dram (x : BitVec 13) (d : Dev) : (Dev.putTripIn x d).dram = d.dram := rfl
@[simp] theorem Dev.putTripIn_flash (x : BitVec 13) (d : Dev) : (Dev.putTripIn x d).flash = d.flash := rfl
@[simp] theorem Dev.putTripIn_dramEpoch (x : BitVec 13) (d : Dev) : (Dev.putTripIn x d).dramEpoch = d.dramEpoch := rfl
@[simp] theorem Dev.putTripIn_now (x : BitVec 13) (d : Dev) : (Dev.putTripIn x d).now = d.now := rfl
@[simp] theorem Dev.putTripIn_devTime (x : BitVec 13) (d : Dev) : (Dev.putTripIn x d).devTime = d.devTime := rfl
@[simp] theorem Dev.putTripIn_rateAcc (x : BitVec 13) (d : Dev) : (Dev.putTripIn x d).rateAcc = d.rateAcc := rfl
@[simp] theorem Dev.putTripIn_cyc (x : BitVec 13) (d : Dev) : (Dev.putTripIn x d).cyc = d.cyc := rfl
@[simp] theorem Dev.putTripIn_readData (x : BitVec 13) (d : Dev) : (Dev.putTripIn x d).readData = d.readData := rfl
@[simp] theorem Dev.putTripIn_freeCount (x : BitVec 13) (d : Dev) : (Dev.putTripIn x d).freeCount = d.freeCount := rfl
@[simp] theorem Dev.putTripIn_timeHi (x : BitVec 13) (d : Dev) : (Dev.putTripIn x d).timeHi = d.timeHi := rfl
@[simp] theorem Dev.putTripIn_activeSeen (x : BitVec 13) (d : Dev) : (Dev.putTripIn x d).activeSeen = d.activeSeen := rfl
@[simp] theorem Dev.putTripIn_dramAt (x : BitVec 13) (d : Dev) : (Dev.putTripIn x d).dramAt = d.dramAt := rfl
@[simp] theorem Dev.putTripIn_romAt (x : BitVec 13) (d : Dev) : (Dev.putTripIn x d).romAt = d.romAt := rfl
@[simp] theorem Dev.putTripIn_flashSize (x : BitVec 13) (d : Dev) : (Dev.putTripIn x d).flashSize = d.flashSize := rfl
@[simp] theorem Dev.putTripIn_syncOutAt (x : BitVec 13) (d : Dev) : (Dev.putTripIn x d).syncOutAt = d.syncOutAt := rfl
@[simp] theorem Dev.putTripIn_reset (x : BitVec 13) (d : Dev) : (Dev.putTripIn x d).reset = d.reset := rfl
@[simp] theorem Dev.putTripIn_supplies (x : BitVec 13) (d : Dev) : (Dev.putTripIn x d).supplies = d.supplies := rfl
@[simp] theorem Dev.putTripIn_clocks (x : BitVec 13) (d : Dev) : (Dev.putTripIn x d).clocks = d.clocks := rfl
@[simp] theorem Dev.putTripIn_loader (x : BitVec 13) (d : Dev) : (Dev.putTripIn x d).loader = d.loader := rfl
@[simp] theorem Dev.putTripIn_fuses (x : BitVec 13) (d : Dev) : (Dev.putTripIn x d).fuses = d.fuses := rfl
@[simp] theorem Dev.putTripIn_bootsel (x : BitVec 13) (d : Dev) : (Dev.putTripIn x d).bootsel = d.bootsel := rfl
@[simp] theorem Dev.putTripIn_engines (x : BitVec 13) (d : Dev) : (Dev.putTripIn x d).engines = d.engines := rfl
@[simp] theorem Dev.putTripIn_groups (x : BitVec 13) (d : Dev) : (Dev.putTripIn x d).groups = d.groups := rfl
@[simp] theorem Dev.putTripIn_tripIn (x : BitVec 13) (d : Dev) : (Dev.putTripIn x d).tripIn = x := rfl
@[simp] theorem Dev.putTripIn_lanes (x : BitVec 13) (d : Dev) : (Dev.putTripIn x d).lanes = d.lanes := rfl
@[simp] theorem Dev.putTripIn_conv (x : BitVec 13) (d : Dev) : (Dev.putTripIn x d).conv = d.conv := rfl
@[simp] theorem Dev.putTripIn_acc (x : BitVec 13) (d : Dev) : (Dev.putTripIn x d).acc = d.acc := rfl
@[simp] theorem Dev.putTripIn_mmx (x : BitVec 13) (d : Dev) : (Dev.putTripIn x d).mmx = d.mmx := rfl
@[simp] theorem Dev.putTripIn_trims (x : BitVec 13) (d : Dev) : (Dev.putTripIn x d).trims = d.trims := rfl
@[simp] theorem Dev.putTripIn_cmps (x : BitVec 13) (d : Dev) : (Dev.putTripIn x d).cmps = d.cmps := rfl
@[simp] theorem Dev.putTripIn_cal (x : BitVec 13) (d : Dev) : (Dev.putTripIn x d).cal = d.cal := rfl
@[simp] theorem Dev.putTripIn_acq (x : BitVec 13) (d : Dev) : (Dev.putTripIn x d).acq = d.acq := rfl
@[simp] theorem Dev.putTripIn_pos (x : BitVec 13) (d : Dev) : (Dev.putTripIn x d).pos = d.pos := rfl
@[simp] theorem Dev.putTripIn_mc (x : BitVec 13) (d : Dev) : (Dev.putTripIn x d).mc = d.mc := rfl
@[simp] theorem Dev.putTripIn_triad (x : BitVec 13) (d : Dev) : (Dev.putTripIn x d).triad = d.triad := rfl
@[simp] theorem Dev.putTripIn_sloe (x : BitVec 13) (d : Dev) : (Dev.putTripIn x d).sloe = d.sloe := rfl
@[simp] theorem Dev.putTripIn_can (x : BitVec 13) (d : Dev) : (Dev.putTripIn x d).can = d.can := rfl
@[simp] theorem Dev.putTripIn_crcs (x : BitVec 13) (d : Dev) : (Dev.putTripIn x d).crcs = d.crcs := rfl
@[simp] theorem Dev.putTripIn_capture (x : BitVec 13) (d : Dev) : (Dev.putTripIn x d).capture = d.capture := rfl
@[simp] theorem Dev.putTripIn_mgmt (x : BitVec 13) (d : Dev) : (Dev.putTripIn x d).mgmt = d.mgmt := rfl
@[simp] theorem Dev.putTripIn_host (x : BitVec 13) (d : Dev) : (Dev.putTripIn x d).host = d.host := rfl
@[simp] theorem Dev.putTripIn_net (x : BitVec 13) (d : Dev) : (Dev.putTripIn x d).net = d.net := rfl
@[simp] theorem Dev.putTripIn_canopen (x : BitVec 13) (d : Dev) : (Dev.putTripIn x d).canopen = d.canopen := rfl
@[simp] theorem Dev.putTripIn_gpioIn (x : BitVec 13) (d : Dev) : (Dev.putTripIn x d).gpioIn = d.gpioIn := rfl
@[simp] theorem Dev.putTripIn_padHeld (x : BitVec 13) (d : Dev) : (Dev.putTripIn x d).padHeld = d.padHeld := rfl

@[simp] theorem Dev.putTripIn_reg (x : BitVec 13) (d : Dev) (k : Nat) : (Dev.putTripIn x d).reg k = d.reg k := rfl
@[simp] theorem Dev.putTripIn_sh (x : BitVec 13) (d : Dev) (k : Nat) : (Dev.putTripIn x d).sh k = d.sh k := rfl

@[simp] theorem Dev.putLanes_regs (x : Vector Lane 12) (d : Dev) : (Dev.putLanes x d).regs = d.regs := rfl
@[simp] theorem Dev.putLanes_shadow (x : Vector Lane 12) (d : Dev) : (Dev.putLanes x d).shadow = d.shadow := rfl
@[simp] theorem Dev.putLanes_mem (x : Vector Lane 12) (d : Dev) : (Dev.putLanes x d).mem = d.mem := rfl
@[simp] theorem Dev.putLanes_triadMem (x : Vector Lane 12) (d : Dev) : (Dev.putLanes x d).triadMem = d.triadMem := rfl
@[simp] theorem Dev.putLanes_dram (x : Vector Lane 12) (d : Dev) : (Dev.putLanes x d).dram = d.dram := rfl
@[simp] theorem Dev.putLanes_flash (x : Vector Lane 12) (d : Dev) : (Dev.putLanes x d).flash = d.flash := rfl
@[simp] theorem Dev.putLanes_dramEpoch (x : Vector Lane 12) (d : Dev) : (Dev.putLanes x d).dramEpoch = d.dramEpoch := rfl
@[simp] theorem Dev.putLanes_now (x : Vector Lane 12) (d : Dev) : (Dev.putLanes x d).now = d.now := rfl
@[simp] theorem Dev.putLanes_devTime (x : Vector Lane 12) (d : Dev) : (Dev.putLanes x d).devTime = d.devTime := rfl
@[simp] theorem Dev.putLanes_rateAcc (x : Vector Lane 12) (d : Dev) : (Dev.putLanes x d).rateAcc = d.rateAcc := rfl
@[simp] theorem Dev.putLanes_cyc (x : Vector Lane 12) (d : Dev) : (Dev.putLanes x d).cyc = d.cyc := rfl
@[simp] theorem Dev.putLanes_readData (x : Vector Lane 12) (d : Dev) : (Dev.putLanes x d).readData = d.readData := rfl
@[simp] theorem Dev.putLanes_freeCount (x : Vector Lane 12) (d : Dev) : (Dev.putLanes x d).freeCount = d.freeCount := rfl
@[simp] theorem Dev.putLanes_timeHi (x : Vector Lane 12) (d : Dev) : (Dev.putLanes x d).timeHi = d.timeHi := rfl
@[simp] theorem Dev.putLanes_activeSeen (x : Vector Lane 12) (d : Dev) : (Dev.putLanes x d).activeSeen = d.activeSeen := rfl
@[simp] theorem Dev.putLanes_dramAt (x : Vector Lane 12) (d : Dev) : (Dev.putLanes x d).dramAt = d.dramAt := rfl
@[simp] theorem Dev.putLanes_romAt (x : Vector Lane 12) (d : Dev) : (Dev.putLanes x d).romAt = d.romAt := rfl
@[simp] theorem Dev.putLanes_flashSize (x : Vector Lane 12) (d : Dev) : (Dev.putLanes x d).flashSize = d.flashSize := rfl
@[simp] theorem Dev.putLanes_syncOutAt (x : Vector Lane 12) (d : Dev) : (Dev.putLanes x d).syncOutAt = d.syncOutAt := rfl
@[simp] theorem Dev.putLanes_reset (x : Vector Lane 12) (d : Dev) : (Dev.putLanes x d).reset = d.reset := rfl
@[simp] theorem Dev.putLanes_supplies (x : Vector Lane 12) (d : Dev) : (Dev.putLanes x d).supplies = d.supplies := rfl
@[simp] theorem Dev.putLanes_clocks (x : Vector Lane 12) (d : Dev) : (Dev.putLanes x d).clocks = d.clocks := rfl
@[simp] theorem Dev.putLanes_loader (x : Vector Lane 12) (d : Dev) : (Dev.putLanes x d).loader = d.loader := rfl
@[simp] theorem Dev.putLanes_fuses (x : Vector Lane 12) (d : Dev) : (Dev.putLanes x d).fuses = d.fuses := rfl
@[simp] theorem Dev.putLanes_bootsel (x : Vector Lane 12) (d : Dev) : (Dev.putLanes x d).bootsel = d.bootsel := rfl
@[simp] theorem Dev.putLanes_engines (x : Vector Lane 12) (d : Dev) : (Dev.putLanes x d).engines = d.engines := rfl
@[simp] theorem Dev.putLanes_groups (x : Vector Lane 12) (d : Dev) : (Dev.putLanes x d).groups = d.groups := rfl
@[simp] theorem Dev.putLanes_tripIn (x : Vector Lane 12) (d : Dev) : (Dev.putLanes x d).tripIn = d.tripIn := rfl
@[simp] theorem Dev.putLanes_lanes (x : Vector Lane 12) (d : Dev) : (Dev.putLanes x d).lanes = x := rfl
@[simp] theorem Dev.putLanes_conv (x : Vector Lane 12) (d : Dev) : (Dev.putLanes x d).conv = d.conv := rfl
@[simp] theorem Dev.putLanes_acc (x : Vector Lane 12) (d : Dev) : (Dev.putLanes x d).acc = d.acc := rfl
@[simp] theorem Dev.putLanes_mmx (x : Vector Lane 12) (d : Dev) : (Dev.putLanes x d).mmx = d.mmx := rfl
@[simp] theorem Dev.putLanes_trims (x : Vector Lane 12) (d : Dev) : (Dev.putLanes x d).trims = d.trims := rfl
@[simp] theorem Dev.putLanes_cmps (x : Vector Lane 12) (d : Dev) : (Dev.putLanes x d).cmps = d.cmps := rfl
@[simp] theorem Dev.putLanes_cal (x : Vector Lane 12) (d : Dev) : (Dev.putLanes x d).cal = d.cal := rfl
@[simp] theorem Dev.putLanes_acq (x : Vector Lane 12) (d : Dev) : (Dev.putLanes x d).acq = d.acq := rfl
@[simp] theorem Dev.putLanes_pos (x : Vector Lane 12) (d : Dev) : (Dev.putLanes x d).pos = d.pos := rfl
@[simp] theorem Dev.putLanes_mc (x : Vector Lane 12) (d : Dev) : (Dev.putLanes x d).mc = d.mc := rfl
@[simp] theorem Dev.putLanes_triad (x : Vector Lane 12) (d : Dev) : (Dev.putLanes x d).triad = d.triad := rfl
@[simp] theorem Dev.putLanes_sloe (x : Vector Lane 12) (d : Dev) : (Dev.putLanes x d).sloe = d.sloe := rfl
@[simp] theorem Dev.putLanes_can (x : Vector Lane 12) (d : Dev) : (Dev.putLanes x d).can = d.can := rfl
@[simp] theorem Dev.putLanes_crcs (x : Vector Lane 12) (d : Dev) : (Dev.putLanes x d).crcs = d.crcs := rfl
@[simp] theorem Dev.putLanes_capture (x : Vector Lane 12) (d : Dev) : (Dev.putLanes x d).capture = d.capture := rfl
@[simp] theorem Dev.putLanes_mgmt (x : Vector Lane 12) (d : Dev) : (Dev.putLanes x d).mgmt = d.mgmt := rfl
@[simp] theorem Dev.putLanes_host (x : Vector Lane 12) (d : Dev) : (Dev.putLanes x d).host = d.host := rfl
@[simp] theorem Dev.putLanes_net (x : Vector Lane 12) (d : Dev) : (Dev.putLanes x d).net = d.net := rfl
@[simp] theorem Dev.putLanes_canopen (x : Vector Lane 12) (d : Dev) : (Dev.putLanes x d).canopen = d.canopen := rfl
@[simp] theorem Dev.putLanes_gpioIn (x : Vector Lane 12) (d : Dev) : (Dev.putLanes x d).gpioIn = d.gpioIn := rfl
@[simp] theorem Dev.putLanes_padHeld (x : Vector Lane 12) (d : Dev) : (Dev.putLanes x d).padHeld = d.padHeld := rfl

@[simp] theorem Dev.putLanes_reg (x : Vector Lane 12) (d : Dev) (k : Nat) : (Dev.putLanes x d).reg k = d.reg k := rfl
@[simp] theorem Dev.putLanes_sh (x : Vector Lane 12) (d : Dev) (k : Nat) : (Dev.putLanes x d).sh k = d.sh k := rfl

@[simp] theorem Dev.putConv_regs (x : Vector Converter 24) (d : Dev) : (Dev.putConv x d).regs = d.regs := rfl
@[simp] theorem Dev.putConv_shadow (x : Vector Converter 24) (d : Dev) : (Dev.putConv x d).shadow = d.shadow := rfl
@[simp] theorem Dev.putConv_mem (x : Vector Converter 24) (d : Dev) : (Dev.putConv x d).mem = d.mem := rfl
@[simp] theorem Dev.putConv_triadMem (x : Vector Converter 24) (d : Dev) : (Dev.putConv x d).triadMem = d.triadMem := rfl
@[simp] theorem Dev.putConv_dram (x : Vector Converter 24) (d : Dev) : (Dev.putConv x d).dram = d.dram := rfl
@[simp] theorem Dev.putConv_flash (x : Vector Converter 24) (d : Dev) : (Dev.putConv x d).flash = d.flash := rfl
@[simp] theorem Dev.putConv_dramEpoch (x : Vector Converter 24) (d : Dev) : (Dev.putConv x d).dramEpoch = d.dramEpoch := rfl
@[simp] theorem Dev.putConv_now (x : Vector Converter 24) (d : Dev) : (Dev.putConv x d).now = d.now := rfl
@[simp] theorem Dev.putConv_devTime (x : Vector Converter 24) (d : Dev) : (Dev.putConv x d).devTime = d.devTime := rfl
@[simp] theorem Dev.putConv_rateAcc (x : Vector Converter 24) (d : Dev) : (Dev.putConv x d).rateAcc = d.rateAcc := rfl
@[simp] theorem Dev.putConv_cyc (x : Vector Converter 24) (d : Dev) : (Dev.putConv x d).cyc = d.cyc := rfl
@[simp] theorem Dev.putConv_readData (x : Vector Converter 24) (d : Dev) : (Dev.putConv x d).readData = d.readData := rfl
@[simp] theorem Dev.putConv_freeCount (x : Vector Converter 24) (d : Dev) : (Dev.putConv x d).freeCount = d.freeCount := rfl
@[simp] theorem Dev.putConv_timeHi (x : Vector Converter 24) (d : Dev) : (Dev.putConv x d).timeHi = d.timeHi := rfl
@[simp] theorem Dev.putConv_activeSeen (x : Vector Converter 24) (d : Dev) : (Dev.putConv x d).activeSeen = d.activeSeen := rfl
@[simp] theorem Dev.putConv_dramAt (x : Vector Converter 24) (d : Dev) : (Dev.putConv x d).dramAt = d.dramAt := rfl
@[simp] theorem Dev.putConv_romAt (x : Vector Converter 24) (d : Dev) : (Dev.putConv x d).romAt = d.romAt := rfl
@[simp] theorem Dev.putConv_flashSize (x : Vector Converter 24) (d : Dev) : (Dev.putConv x d).flashSize = d.flashSize := rfl
@[simp] theorem Dev.putConv_syncOutAt (x : Vector Converter 24) (d : Dev) : (Dev.putConv x d).syncOutAt = d.syncOutAt := rfl
@[simp] theorem Dev.putConv_reset (x : Vector Converter 24) (d : Dev) : (Dev.putConv x d).reset = d.reset := rfl
@[simp] theorem Dev.putConv_supplies (x : Vector Converter 24) (d : Dev) : (Dev.putConv x d).supplies = d.supplies := rfl
@[simp] theorem Dev.putConv_clocks (x : Vector Converter 24) (d : Dev) : (Dev.putConv x d).clocks = d.clocks := rfl
@[simp] theorem Dev.putConv_loader (x : Vector Converter 24) (d : Dev) : (Dev.putConv x d).loader = d.loader := rfl
@[simp] theorem Dev.putConv_fuses (x : Vector Converter 24) (d : Dev) : (Dev.putConv x d).fuses = d.fuses := rfl
@[simp] theorem Dev.putConv_bootsel (x : Vector Converter 24) (d : Dev) : (Dev.putConv x d).bootsel = d.bootsel := rfl
@[simp] theorem Dev.putConv_engines (x : Vector Converter 24) (d : Dev) : (Dev.putConv x d).engines = d.engines := rfl
@[simp] theorem Dev.putConv_groups (x : Vector Converter 24) (d : Dev) : (Dev.putConv x d).groups = d.groups := rfl
@[simp] theorem Dev.putConv_tripIn (x : Vector Converter 24) (d : Dev) : (Dev.putConv x d).tripIn = d.tripIn := rfl
@[simp] theorem Dev.putConv_lanes (x : Vector Converter 24) (d : Dev) : (Dev.putConv x d).lanes = d.lanes := rfl
@[simp] theorem Dev.putConv_conv (x : Vector Converter 24) (d : Dev) : (Dev.putConv x d).conv = x := rfl
@[simp] theorem Dev.putConv_acc (x : Vector Converter 24) (d : Dev) : (Dev.putConv x d).acc = d.acc := rfl
@[simp] theorem Dev.putConv_mmx (x : Vector Converter 24) (d : Dev) : (Dev.putConv x d).mmx = d.mmx := rfl
@[simp] theorem Dev.putConv_trims (x : Vector Converter 24) (d : Dev) : (Dev.putConv x d).trims = d.trims := rfl
@[simp] theorem Dev.putConv_cmps (x : Vector Converter 24) (d : Dev) : (Dev.putConv x d).cmps = d.cmps := rfl
@[simp] theorem Dev.putConv_cal (x : Vector Converter 24) (d : Dev) : (Dev.putConv x d).cal = d.cal := rfl
@[simp] theorem Dev.putConv_acq (x : Vector Converter 24) (d : Dev) : (Dev.putConv x d).acq = d.acq := rfl
@[simp] theorem Dev.putConv_pos (x : Vector Converter 24) (d : Dev) : (Dev.putConv x d).pos = d.pos := rfl
@[simp] theorem Dev.putConv_mc (x : Vector Converter 24) (d : Dev) : (Dev.putConv x d).mc = d.mc := rfl
@[simp] theorem Dev.putConv_triad (x : Vector Converter 24) (d : Dev) : (Dev.putConv x d).triad = d.triad := rfl
@[simp] theorem Dev.putConv_sloe (x : Vector Converter 24) (d : Dev) : (Dev.putConv x d).sloe = d.sloe := rfl
@[simp] theorem Dev.putConv_can (x : Vector Converter 24) (d : Dev) : (Dev.putConv x d).can = d.can := rfl
@[simp] theorem Dev.putConv_crcs (x : Vector Converter 24) (d : Dev) : (Dev.putConv x d).crcs = d.crcs := rfl
@[simp] theorem Dev.putConv_capture (x : Vector Converter 24) (d : Dev) : (Dev.putConv x d).capture = d.capture := rfl
@[simp] theorem Dev.putConv_mgmt (x : Vector Converter 24) (d : Dev) : (Dev.putConv x d).mgmt = d.mgmt := rfl
@[simp] theorem Dev.putConv_host (x : Vector Converter 24) (d : Dev) : (Dev.putConv x d).host = d.host := rfl
@[simp] theorem Dev.putConv_net (x : Vector Converter 24) (d : Dev) : (Dev.putConv x d).net = d.net := rfl
@[simp] theorem Dev.putConv_canopen (x : Vector Converter 24) (d : Dev) : (Dev.putConv x d).canopen = d.canopen := rfl
@[simp] theorem Dev.putConv_gpioIn (x : Vector Converter 24) (d : Dev) : (Dev.putConv x d).gpioIn = d.gpioIn := rfl
@[simp] theorem Dev.putConv_padHeld (x : Vector Converter 24) (d : Dev) : (Dev.putConv x d).padHeld = d.padHeld := rfl

@[simp] theorem Dev.putConv_reg (x : Vector Converter 24) (d : Dev) (k : Nat) : (Dev.putConv x d).reg k = d.reg k := rfl
@[simp] theorem Dev.putConv_sh (x : Vector Converter 24) (d : Dev) (k : Nat) : (Dev.putConv x d).sh k = d.sh k := rfl

@[simp] theorem Dev.putAcc_regs (x : Vector AcqUnit 128) (d : Dev) : (Dev.putAcc x d).regs = d.regs := rfl
@[simp] theorem Dev.putAcc_shadow (x : Vector AcqUnit 128) (d : Dev) : (Dev.putAcc x d).shadow = d.shadow := rfl
@[simp] theorem Dev.putAcc_mem (x : Vector AcqUnit 128) (d : Dev) : (Dev.putAcc x d).mem = d.mem := rfl
@[simp] theorem Dev.putAcc_triadMem (x : Vector AcqUnit 128) (d : Dev) : (Dev.putAcc x d).triadMem = d.triadMem := rfl
@[simp] theorem Dev.putAcc_dram (x : Vector AcqUnit 128) (d : Dev) : (Dev.putAcc x d).dram = d.dram := rfl
@[simp] theorem Dev.putAcc_flash (x : Vector AcqUnit 128) (d : Dev) : (Dev.putAcc x d).flash = d.flash := rfl
@[simp] theorem Dev.putAcc_dramEpoch (x : Vector AcqUnit 128) (d : Dev) : (Dev.putAcc x d).dramEpoch = d.dramEpoch := rfl
@[simp] theorem Dev.putAcc_now (x : Vector AcqUnit 128) (d : Dev) : (Dev.putAcc x d).now = d.now := rfl
@[simp] theorem Dev.putAcc_devTime (x : Vector AcqUnit 128) (d : Dev) : (Dev.putAcc x d).devTime = d.devTime := rfl
@[simp] theorem Dev.putAcc_rateAcc (x : Vector AcqUnit 128) (d : Dev) : (Dev.putAcc x d).rateAcc = d.rateAcc := rfl
@[simp] theorem Dev.putAcc_cyc (x : Vector AcqUnit 128) (d : Dev) : (Dev.putAcc x d).cyc = d.cyc := rfl
@[simp] theorem Dev.putAcc_readData (x : Vector AcqUnit 128) (d : Dev) : (Dev.putAcc x d).readData = d.readData := rfl
@[simp] theorem Dev.putAcc_freeCount (x : Vector AcqUnit 128) (d : Dev) : (Dev.putAcc x d).freeCount = d.freeCount := rfl
@[simp] theorem Dev.putAcc_timeHi (x : Vector AcqUnit 128) (d : Dev) : (Dev.putAcc x d).timeHi = d.timeHi := rfl
@[simp] theorem Dev.putAcc_activeSeen (x : Vector AcqUnit 128) (d : Dev) : (Dev.putAcc x d).activeSeen = d.activeSeen := rfl
@[simp] theorem Dev.putAcc_dramAt (x : Vector AcqUnit 128) (d : Dev) : (Dev.putAcc x d).dramAt = d.dramAt := rfl
@[simp] theorem Dev.putAcc_romAt (x : Vector AcqUnit 128) (d : Dev) : (Dev.putAcc x d).romAt = d.romAt := rfl
@[simp] theorem Dev.putAcc_flashSize (x : Vector AcqUnit 128) (d : Dev) : (Dev.putAcc x d).flashSize = d.flashSize := rfl
@[simp] theorem Dev.putAcc_syncOutAt (x : Vector AcqUnit 128) (d : Dev) : (Dev.putAcc x d).syncOutAt = d.syncOutAt := rfl
@[simp] theorem Dev.putAcc_reset (x : Vector AcqUnit 128) (d : Dev) : (Dev.putAcc x d).reset = d.reset := rfl
@[simp] theorem Dev.putAcc_supplies (x : Vector AcqUnit 128) (d : Dev) : (Dev.putAcc x d).supplies = d.supplies := rfl
@[simp] theorem Dev.putAcc_clocks (x : Vector AcqUnit 128) (d : Dev) : (Dev.putAcc x d).clocks = d.clocks := rfl
@[simp] theorem Dev.putAcc_loader (x : Vector AcqUnit 128) (d : Dev) : (Dev.putAcc x d).loader = d.loader := rfl
@[simp] theorem Dev.putAcc_fuses (x : Vector AcqUnit 128) (d : Dev) : (Dev.putAcc x d).fuses = d.fuses := rfl
@[simp] theorem Dev.putAcc_bootsel (x : Vector AcqUnit 128) (d : Dev) : (Dev.putAcc x d).bootsel = d.bootsel := rfl
@[simp] theorem Dev.putAcc_engines (x : Vector AcqUnit 128) (d : Dev) : (Dev.putAcc x d).engines = d.engines := rfl
@[simp] theorem Dev.putAcc_groups (x : Vector AcqUnit 128) (d : Dev) : (Dev.putAcc x d).groups = d.groups := rfl
@[simp] theorem Dev.putAcc_tripIn (x : Vector AcqUnit 128) (d : Dev) : (Dev.putAcc x d).tripIn = d.tripIn := rfl
@[simp] theorem Dev.putAcc_lanes (x : Vector AcqUnit 128) (d : Dev) : (Dev.putAcc x d).lanes = d.lanes := rfl
@[simp] theorem Dev.putAcc_conv (x : Vector AcqUnit 128) (d : Dev) : (Dev.putAcc x d).conv = d.conv := rfl
@[simp] theorem Dev.putAcc_acc (x : Vector AcqUnit 128) (d : Dev) : (Dev.putAcc x d).acc = x := rfl
@[simp] theorem Dev.putAcc_mmx (x : Vector AcqUnit 128) (d : Dev) : (Dev.putAcc x d).mmx = d.mmx := rfl
@[simp] theorem Dev.putAcc_trims (x : Vector AcqUnit 128) (d : Dev) : (Dev.putAcc x d).trims = d.trims := rfl
@[simp] theorem Dev.putAcc_cmps (x : Vector AcqUnit 128) (d : Dev) : (Dev.putAcc x d).cmps = d.cmps := rfl
@[simp] theorem Dev.putAcc_cal (x : Vector AcqUnit 128) (d : Dev) : (Dev.putAcc x d).cal = d.cal := rfl
@[simp] theorem Dev.putAcc_acq (x : Vector AcqUnit 128) (d : Dev) : (Dev.putAcc x d).acq = d.acq := rfl
@[simp] theorem Dev.putAcc_pos (x : Vector AcqUnit 128) (d : Dev) : (Dev.putAcc x d).pos = d.pos := rfl
@[simp] theorem Dev.putAcc_mc (x : Vector AcqUnit 128) (d : Dev) : (Dev.putAcc x d).mc = d.mc := rfl
@[simp] theorem Dev.putAcc_triad (x : Vector AcqUnit 128) (d : Dev) : (Dev.putAcc x d).triad = d.triad := rfl
@[simp] theorem Dev.putAcc_sloe (x : Vector AcqUnit 128) (d : Dev) : (Dev.putAcc x d).sloe = d.sloe := rfl
@[simp] theorem Dev.putAcc_can (x : Vector AcqUnit 128) (d : Dev) : (Dev.putAcc x d).can = d.can := rfl
@[simp] theorem Dev.putAcc_crcs (x : Vector AcqUnit 128) (d : Dev) : (Dev.putAcc x d).crcs = d.crcs := rfl
@[simp] theorem Dev.putAcc_capture (x : Vector AcqUnit 128) (d : Dev) : (Dev.putAcc x d).capture = d.capture := rfl
@[simp] theorem Dev.putAcc_mgmt (x : Vector AcqUnit 128) (d : Dev) : (Dev.putAcc x d).mgmt = d.mgmt := rfl
@[simp] theorem Dev.putAcc_host (x : Vector AcqUnit 128) (d : Dev) : (Dev.putAcc x d).host = d.host := rfl
@[simp] theorem Dev.putAcc_net (x : Vector AcqUnit 128) (d : Dev) : (Dev.putAcc x d).net = d.net := rfl
@[simp] theorem Dev.putAcc_canopen (x : Vector AcqUnit 128) (d : Dev) : (Dev.putAcc x d).canopen = d.canopen := rfl
@[simp] theorem Dev.putAcc_gpioIn (x : Vector AcqUnit 128) (d : Dev) : (Dev.putAcc x d).gpioIn = d.gpioIn := rfl
@[simp] theorem Dev.putAcc_padHeld (x : Vector AcqUnit 128) (d : Dev) : (Dev.putAcc x d).padHeld = d.padHeld := rfl

@[simp] theorem Dev.putAcc_reg (x : Vector AcqUnit 128) (d : Dev) (k : Nat) : (Dev.putAcc x d).reg k = d.reg k := rfl
@[simp] theorem Dev.putAcc_sh (x : Vector AcqUnit 128) (d : Dev) (k : Nat) : (Dev.putAcc x d).sh k = d.sh k := rfl

@[simp] theorem Dev.putMmx_regs (x : Vector AcqUnit 64) (d : Dev) : (Dev.putMmx x d).regs = d.regs := rfl
@[simp] theorem Dev.putMmx_shadow (x : Vector AcqUnit 64) (d : Dev) : (Dev.putMmx x d).shadow = d.shadow := rfl
@[simp] theorem Dev.putMmx_mem (x : Vector AcqUnit 64) (d : Dev) : (Dev.putMmx x d).mem = d.mem := rfl
@[simp] theorem Dev.putMmx_triadMem (x : Vector AcqUnit 64) (d : Dev) : (Dev.putMmx x d).triadMem = d.triadMem := rfl
@[simp] theorem Dev.putMmx_dram (x : Vector AcqUnit 64) (d : Dev) : (Dev.putMmx x d).dram = d.dram := rfl
@[simp] theorem Dev.putMmx_flash (x : Vector AcqUnit 64) (d : Dev) : (Dev.putMmx x d).flash = d.flash := rfl
@[simp] theorem Dev.putMmx_dramEpoch (x : Vector AcqUnit 64) (d : Dev) : (Dev.putMmx x d).dramEpoch = d.dramEpoch := rfl
@[simp] theorem Dev.putMmx_now (x : Vector AcqUnit 64) (d : Dev) : (Dev.putMmx x d).now = d.now := rfl
@[simp] theorem Dev.putMmx_devTime (x : Vector AcqUnit 64) (d : Dev) : (Dev.putMmx x d).devTime = d.devTime := rfl
@[simp] theorem Dev.putMmx_rateAcc (x : Vector AcqUnit 64) (d : Dev) : (Dev.putMmx x d).rateAcc = d.rateAcc := rfl
@[simp] theorem Dev.putMmx_cyc (x : Vector AcqUnit 64) (d : Dev) : (Dev.putMmx x d).cyc = d.cyc := rfl
@[simp] theorem Dev.putMmx_readData (x : Vector AcqUnit 64) (d : Dev) : (Dev.putMmx x d).readData = d.readData := rfl
@[simp] theorem Dev.putMmx_freeCount (x : Vector AcqUnit 64) (d : Dev) : (Dev.putMmx x d).freeCount = d.freeCount := rfl
@[simp] theorem Dev.putMmx_timeHi (x : Vector AcqUnit 64) (d : Dev) : (Dev.putMmx x d).timeHi = d.timeHi := rfl
@[simp] theorem Dev.putMmx_activeSeen (x : Vector AcqUnit 64) (d : Dev) : (Dev.putMmx x d).activeSeen = d.activeSeen := rfl
@[simp] theorem Dev.putMmx_dramAt (x : Vector AcqUnit 64) (d : Dev) : (Dev.putMmx x d).dramAt = d.dramAt := rfl
@[simp] theorem Dev.putMmx_romAt (x : Vector AcqUnit 64) (d : Dev) : (Dev.putMmx x d).romAt = d.romAt := rfl
@[simp] theorem Dev.putMmx_flashSize (x : Vector AcqUnit 64) (d : Dev) : (Dev.putMmx x d).flashSize = d.flashSize := rfl
@[simp] theorem Dev.putMmx_syncOutAt (x : Vector AcqUnit 64) (d : Dev) : (Dev.putMmx x d).syncOutAt = d.syncOutAt := rfl
@[simp] theorem Dev.putMmx_reset (x : Vector AcqUnit 64) (d : Dev) : (Dev.putMmx x d).reset = d.reset := rfl
@[simp] theorem Dev.putMmx_supplies (x : Vector AcqUnit 64) (d : Dev) : (Dev.putMmx x d).supplies = d.supplies := rfl
@[simp] theorem Dev.putMmx_clocks (x : Vector AcqUnit 64) (d : Dev) : (Dev.putMmx x d).clocks = d.clocks := rfl
@[simp] theorem Dev.putMmx_loader (x : Vector AcqUnit 64) (d : Dev) : (Dev.putMmx x d).loader = d.loader := rfl
@[simp] theorem Dev.putMmx_fuses (x : Vector AcqUnit 64) (d : Dev) : (Dev.putMmx x d).fuses = d.fuses := rfl
@[simp] theorem Dev.putMmx_bootsel (x : Vector AcqUnit 64) (d : Dev) : (Dev.putMmx x d).bootsel = d.bootsel := rfl
@[simp] theorem Dev.putMmx_engines (x : Vector AcqUnit 64) (d : Dev) : (Dev.putMmx x d).engines = d.engines := rfl
@[simp] theorem Dev.putMmx_groups (x : Vector AcqUnit 64) (d : Dev) : (Dev.putMmx x d).groups = d.groups := rfl
@[simp] theorem Dev.putMmx_tripIn (x : Vector AcqUnit 64) (d : Dev) : (Dev.putMmx x d).tripIn = d.tripIn := rfl
@[simp] theorem Dev.putMmx_lanes (x : Vector AcqUnit 64) (d : Dev) : (Dev.putMmx x d).lanes = d.lanes := rfl
@[simp] theorem Dev.putMmx_conv (x : Vector AcqUnit 64) (d : Dev) : (Dev.putMmx x d).conv = d.conv := rfl
@[simp] theorem Dev.putMmx_acc (x : Vector AcqUnit 64) (d : Dev) : (Dev.putMmx x d).acc = d.acc := rfl
@[simp] theorem Dev.putMmx_mmx (x : Vector AcqUnit 64) (d : Dev) : (Dev.putMmx x d).mmx = x := rfl
@[simp] theorem Dev.putMmx_trims (x : Vector AcqUnit 64) (d : Dev) : (Dev.putMmx x d).trims = d.trims := rfl
@[simp] theorem Dev.putMmx_cmps (x : Vector AcqUnit 64) (d : Dev) : (Dev.putMmx x d).cmps = d.cmps := rfl
@[simp] theorem Dev.putMmx_cal (x : Vector AcqUnit 64) (d : Dev) : (Dev.putMmx x d).cal = d.cal := rfl
@[simp] theorem Dev.putMmx_acq (x : Vector AcqUnit 64) (d : Dev) : (Dev.putMmx x d).acq = d.acq := rfl
@[simp] theorem Dev.putMmx_pos (x : Vector AcqUnit 64) (d : Dev) : (Dev.putMmx x d).pos = d.pos := rfl
@[simp] theorem Dev.putMmx_mc (x : Vector AcqUnit 64) (d : Dev) : (Dev.putMmx x d).mc = d.mc := rfl
@[simp] theorem Dev.putMmx_triad (x : Vector AcqUnit 64) (d : Dev) : (Dev.putMmx x d).triad = d.triad := rfl
@[simp] theorem Dev.putMmx_sloe (x : Vector AcqUnit 64) (d : Dev) : (Dev.putMmx x d).sloe = d.sloe := rfl
@[simp] theorem Dev.putMmx_can (x : Vector AcqUnit 64) (d : Dev) : (Dev.putMmx x d).can = d.can := rfl
@[simp] theorem Dev.putMmx_crcs (x : Vector AcqUnit 64) (d : Dev) : (Dev.putMmx x d).crcs = d.crcs := rfl
@[simp] theorem Dev.putMmx_capture (x : Vector AcqUnit 64) (d : Dev) : (Dev.putMmx x d).capture = d.capture := rfl
@[simp] theorem Dev.putMmx_mgmt (x : Vector AcqUnit 64) (d : Dev) : (Dev.putMmx x d).mgmt = d.mgmt := rfl
@[simp] theorem Dev.putMmx_host (x : Vector AcqUnit 64) (d : Dev) : (Dev.putMmx x d).host = d.host := rfl
@[simp] theorem Dev.putMmx_net (x : Vector AcqUnit 64) (d : Dev) : (Dev.putMmx x d).net = d.net := rfl
@[simp] theorem Dev.putMmx_canopen (x : Vector AcqUnit 64) (d : Dev) : (Dev.putMmx x d).canopen = d.canopen := rfl
@[simp] theorem Dev.putMmx_gpioIn (x : Vector AcqUnit 64) (d : Dev) : (Dev.putMmx x d).gpioIn = d.gpioIn := rfl
@[simp] theorem Dev.putMmx_padHeld (x : Vector AcqUnit 64) (d : Dev) : (Dev.putMmx x d).padHeld = d.padHeld := rfl

@[simp] theorem Dev.putMmx_reg (x : Vector AcqUnit 64) (d : Dev) (k : Nat) : (Dev.putMmx x d).reg k = d.reg k := rfl
@[simp] theorem Dev.putMmx_sh (x : Vector AcqUnit 64) (d : Dev) (k : Nat) : (Dev.putMmx x d).sh k = d.sh k := rfl

@[simp] theorem Dev.putTrims_regs (x : Vector TrimPair 12) (d : Dev) : (Dev.putTrims x d).regs = d.regs := rfl
@[simp] theorem Dev.putTrims_shadow (x : Vector TrimPair 12) (d : Dev) : (Dev.putTrims x d).shadow = d.shadow := rfl
@[simp] theorem Dev.putTrims_mem (x : Vector TrimPair 12) (d : Dev) : (Dev.putTrims x d).mem = d.mem := rfl
@[simp] theorem Dev.putTrims_triadMem (x : Vector TrimPair 12) (d : Dev) : (Dev.putTrims x d).triadMem = d.triadMem := rfl
@[simp] theorem Dev.putTrims_dram (x : Vector TrimPair 12) (d : Dev) : (Dev.putTrims x d).dram = d.dram := rfl
@[simp] theorem Dev.putTrims_flash (x : Vector TrimPair 12) (d : Dev) : (Dev.putTrims x d).flash = d.flash := rfl
@[simp] theorem Dev.putTrims_dramEpoch (x : Vector TrimPair 12) (d : Dev) : (Dev.putTrims x d).dramEpoch = d.dramEpoch := rfl
@[simp] theorem Dev.putTrims_now (x : Vector TrimPair 12) (d : Dev) : (Dev.putTrims x d).now = d.now := rfl
@[simp] theorem Dev.putTrims_devTime (x : Vector TrimPair 12) (d : Dev) : (Dev.putTrims x d).devTime = d.devTime := rfl
@[simp] theorem Dev.putTrims_rateAcc (x : Vector TrimPair 12) (d : Dev) : (Dev.putTrims x d).rateAcc = d.rateAcc := rfl
@[simp] theorem Dev.putTrims_cyc (x : Vector TrimPair 12) (d : Dev) : (Dev.putTrims x d).cyc = d.cyc := rfl
@[simp] theorem Dev.putTrims_readData (x : Vector TrimPair 12) (d : Dev) : (Dev.putTrims x d).readData = d.readData := rfl
@[simp] theorem Dev.putTrims_freeCount (x : Vector TrimPair 12) (d : Dev) : (Dev.putTrims x d).freeCount = d.freeCount := rfl
@[simp] theorem Dev.putTrims_timeHi (x : Vector TrimPair 12) (d : Dev) : (Dev.putTrims x d).timeHi = d.timeHi := rfl
@[simp] theorem Dev.putTrims_activeSeen (x : Vector TrimPair 12) (d : Dev) : (Dev.putTrims x d).activeSeen = d.activeSeen := rfl
@[simp] theorem Dev.putTrims_dramAt (x : Vector TrimPair 12) (d : Dev) : (Dev.putTrims x d).dramAt = d.dramAt := rfl
@[simp] theorem Dev.putTrims_romAt (x : Vector TrimPair 12) (d : Dev) : (Dev.putTrims x d).romAt = d.romAt := rfl
@[simp] theorem Dev.putTrims_flashSize (x : Vector TrimPair 12) (d : Dev) : (Dev.putTrims x d).flashSize = d.flashSize := rfl
@[simp] theorem Dev.putTrims_syncOutAt (x : Vector TrimPair 12) (d : Dev) : (Dev.putTrims x d).syncOutAt = d.syncOutAt := rfl
@[simp] theorem Dev.putTrims_reset (x : Vector TrimPair 12) (d : Dev) : (Dev.putTrims x d).reset = d.reset := rfl
@[simp] theorem Dev.putTrims_supplies (x : Vector TrimPair 12) (d : Dev) : (Dev.putTrims x d).supplies = d.supplies := rfl
@[simp] theorem Dev.putTrims_clocks (x : Vector TrimPair 12) (d : Dev) : (Dev.putTrims x d).clocks = d.clocks := rfl
@[simp] theorem Dev.putTrims_loader (x : Vector TrimPair 12) (d : Dev) : (Dev.putTrims x d).loader = d.loader := rfl
@[simp] theorem Dev.putTrims_fuses (x : Vector TrimPair 12) (d : Dev) : (Dev.putTrims x d).fuses = d.fuses := rfl
@[simp] theorem Dev.putTrims_bootsel (x : Vector TrimPair 12) (d : Dev) : (Dev.putTrims x d).bootsel = d.bootsel := rfl
@[simp] theorem Dev.putTrims_engines (x : Vector TrimPair 12) (d : Dev) : (Dev.putTrims x d).engines = d.engines := rfl
@[simp] theorem Dev.putTrims_groups (x : Vector TrimPair 12) (d : Dev) : (Dev.putTrims x d).groups = d.groups := rfl
@[simp] theorem Dev.putTrims_tripIn (x : Vector TrimPair 12) (d : Dev) : (Dev.putTrims x d).tripIn = d.tripIn := rfl
@[simp] theorem Dev.putTrims_lanes (x : Vector TrimPair 12) (d : Dev) : (Dev.putTrims x d).lanes = d.lanes := rfl
@[simp] theorem Dev.putTrims_conv (x : Vector TrimPair 12) (d : Dev) : (Dev.putTrims x d).conv = d.conv := rfl
@[simp] theorem Dev.putTrims_acc (x : Vector TrimPair 12) (d : Dev) : (Dev.putTrims x d).acc = d.acc := rfl
@[simp] theorem Dev.putTrims_mmx (x : Vector TrimPair 12) (d : Dev) : (Dev.putTrims x d).mmx = d.mmx := rfl
@[simp] theorem Dev.putTrims_trims (x : Vector TrimPair 12) (d : Dev) : (Dev.putTrims x d).trims = x := rfl
@[simp] theorem Dev.putTrims_cmps (x : Vector TrimPair 12) (d : Dev) : (Dev.putTrims x d).cmps = d.cmps := rfl
@[simp] theorem Dev.putTrims_cal (x : Vector TrimPair 12) (d : Dev) : (Dev.putTrims x d).cal = d.cal := rfl
@[simp] theorem Dev.putTrims_acq (x : Vector TrimPair 12) (d : Dev) : (Dev.putTrims x d).acq = d.acq := rfl
@[simp] theorem Dev.putTrims_pos (x : Vector TrimPair 12) (d : Dev) : (Dev.putTrims x d).pos = d.pos := rfl
@[simp] theorem Dev.putTrims_mc (x : Vector TrimPair 12) (d : Dev) : (Dev.putTrims x d).mc = d.mc := rfl
@[simp] theorem Dev.putTrims_triad (x : Vector TrimPair 12) (d : Dev) : (Dev.putTrims x d).triad = d.triad := rfl
@[simp] theorem Dev.putTrims_sloe (x : Vector TrimPair 12) (d : Dev) : (Dev.putTrims x d).sloe = d.sloe := rfl
@[simp] theorem Dev.putTrims_can (x : Vector TrimPair 12) (d : Dev) : (Dev.putTrims x d).can = d.can := rfl
@[simp] theorem Dev.putTrims_crcs (x : Vector TrimPair 12) (d : Dev) : (Dev.putTrims x d).crcs = d.crcs := rfl
@[simp] theorem Dev.putTrims_capture (x : Vector TrimPair 12) (d : Dev) : (Dev.putTrims x d).capture = d.capture := rfl
@[simp] theorem Dev.putTrims_mgmt (x : Vector TrimPair 12) (d : Dev) : (Dev.putTrims x d).mgmt = d.mgmt := rfl
@[simp] theorem Dev.putTrims_host (x : Vector TrimPair 12) (d : Dev) : (Dev.putTrims x d).host = d.host := rfl
@[simp] theorem Dev.putTrims_net (x : Vector TrimPair 12) (d : Dev) : (Dev.putTrims x d).net = d.net := rfl
@[simp] theorem Dev.putTrims_canopen (x : Vector TrimPair 12) (d : Dev) : (Dev.putTrims x d).canopen = d.canopen := rfl
@[simp] theorem Dev.putTrims_gpioIn (x : Vector TrimPair 12) (d : Dev) : (Dev.putTrims x d).gpioIn = d.gpioIn := rfl
@[simp] theorem Dev.putTrims_padHeld (x : Vector TrimPair 12) (d : Dev) : (Dev.putTrims x d).padHeld = d.padHeld := rfl

@[simp] theorem Dev.putTrims_reg (x : Vector TrimPair 12) (d : Dev) (k : Nat) : (Dev.putTrims x d).reg k = d.reg k := rfl
@[simp] theorem Dev.putTrims_sh (x : Vector TrimPair 12) (d : Dev) (k : Nat) : (Dev.putTrims x d).sh k = d.sh k := rfl

@[simp] theorem Dev.putCmps_regs (x : Vector CompRaw 64) (d : Dev) : (Dev.putCmps x d).regs = d.regs := rfl
@[simp] theorem Dev.putCmps_shadow (x : Vector CompRaw 64) (d : Dev) : (Dev.putCmps x d).shadow = d.shadow := rfl
@[simp] theorem Dev.putCmps_mem (x : Vector CompRaw 64) (d : Dev) : (Dev.putCmps x d).mem = d.mem := rfl
@[simp] theorem Dev.putCmps_triadMem (x : Vector CompRaw 64) (d : Dev) : (Dev.putCmps x d).triadMem = d.triadMem := rfl
@[simp] theorem Dev.putCmps_dram (x : Vector CompRaw 64) (d : Dev) : (Dev.putCmps x d).dram = d.dram := rfl
@[simp] theorem Dev.putCmps_flash (x : Vector CompRaw 64) (d : Dev) : (Dev.putCmps x d).flash = d.flash := rfl
@[simp] theorem Dev.putCmps_dramEpoch (x : Vector CompRaw 64) (d : Dev) : (Dev.putCmps x d).dramEpoch = d.dramEpoch := rfl
@[simp] theorem Dev.putCmps_now (x : Vector CompRaw 64) (d : Dev) : (Dev.putCmps x d).now = d.now := rfl
@[simp] theorem Dev.putCmps_devTime (x : Vector CompRaw 64) (d : Dev) : (Dev.putCmps x d).devTime = d.devTime := rfl
@[simp] theorem Dev.putCmps_rateAcc (x : Vector CompRaw 64) (d : Dev) : (Dev.putCmps x d).rateAcc = d.rateAcc := rfl
@[simp] theorem Dev.putCmps_cyc (x : Vector CompRaw 64) (d : Dev) : (Dev.putCmps x d).cyc = d.cyc := rfl
@[simp] theorem Dev.putCmps_readData (x : Vector CompRaw 64) (d : Dev) : (Dev.putCmps x d).readData = d.readData := rfl
@[simp] theorem Dev.putCmps_freeCount (x : Vector CompRaw 64) (d : Dev) : (Dev.putCmps x d).freeCount = d.freeCount := rfl
@[simp] theorem Dev.putCmps_timeHi (x : Vector CompRaw 64) (d : Dev) : (Dev.putCmps x d).timeHi = d.timeHi := rfl
@[simp] theorem Dev.putCmps_activeSeen (x : Vector CompRaw 64) (d : Dev) : (Dev.putCmps x d).activeSeen = d.activeSeen := rfl
@[simp] theorem Dev.putCmps_dramAt (x : Vector CompRaw 64) (d : Dev) : (Dev.putCmps x d).dramAt = d.dramAt := rfl
@[simp] theorem Dev.putCmps_romAt (x : Vector CompRaw 64) (d : Dev) : (Dev.putCmps x d).romAt = d.romAt := rfl
@[simp] theorem Dev.putCmps_flashSize (x : Vector CompRaw 64) (d : Dev) : (Dev.putCmps x d).flashSize = d.flashSize := rfl
@[simp] theorem Dev.putCmps_syncOutAt (x : Vector CompRaw 64) (d : Dev) : (Dev.putCmps x d).syncOutAt = d.syncOutAt := rfl
@[simp] theorem Dev.putCmps_reset (x : Vector CompRaw 64) (d : Dev) : (Dev.putCmps x d).reset = d.reset := rfl
@[simp] theorem Dev.putCmps_supplies (x : Vector CompRaw 64) (d : Dev) : (Dev.putCmps x d).supplies = d.supplies := rfl
@[simp] theorem Dev.putCmps_clocks (x : Vector CompRaw 64) (d : Dev) : (Dev.putCmps x d).clocks = d.clocks := rfl
@[simp] theorem Dev.putCmps_loader (x : Vector CompRaw 64) (d : Dev) : (Dev.putCmps x d).loader = d.loader := rfl
@[simp] theorem Dev.putCmps_fuses (x : Vector CompRaw 64) (d : Dev) : (Dev.putCmps x d).fuses = d.fuses := rfl
@[simp] theorem Dev.putCmps_bootsel (x : Vector CompRaw 64) (d : Dev) : (Dev.putCmps x d).bootsel = d.bootsel := rfl
@[simp] theorem Dev.putCmps_engines (x : Vector CompRaw 64) (d : Dev) : (Dev.putCmps x d).engines = d.engines := rfl
@[simp] theorem Dev.putCmps_groups (x : Vector CompRaw 64) (d : Dev) : (Dev.putCmps x d).groups = d.groups := rfl
@[simp] theorem Dev.putCmps_tripIn (x : Vector CompRaw 64) (d : Dev) : (Dev.putCmps x d).tripIn = d.tripIn := rfl
@[simp] theorem Dev.putCmps_lanes (x : Vector CompRaw 64) (d : Dev) : (Dev.putCmps x d).lanes = d.lanes := rfl
@[simp] theorem Dev.putCmps_conv (x : Vector CompRaw 64) (d : Dev) : (Dev.putCmps x d).conv = d.conv := rfl
@[simp] theorem Dev.putCmps_acc (x : Vector CompRaw 64) (d : Dev) : (Dev.putCmps x d).acc = d.acc := rfl
@[simp] theorem Dev.putCmps_mmx (x : Vector CompRaw 64) (d : Dev) : (Dev.putCmps x d).mmx = d.mmx := rfl
@[simp] theorem Dev.putCmps_trims (x : Vector CompRaw 64) (d : Dev) : (Dev.putCmps x d).trims = d.trims := rfl
@[simp] theorem Dev.putCmps_cmps (x : Vector CompRaw 64) (d : Dev) : (Dev.putCmps x d).cmps = x := rfl
@[simp] theorem Dev.putCmps_cal (x : Vector CompRaw 64) (d : Dev) : (Dev.putCmps x d).cal = d.cal := rfl
@[simp] theorem Dev.putCmps_acq (x : Vector CompRaw 64) (d : Dev) : (Dev.putCmps x d).acq = d.acq := rfl
@[simp] theorem Dev.putCmps_pos (x : Vector CompRaw 64) (d : Dev) : (Dev.putCmps x d).pos = d.pos := rfl
@[simp] theorem Dev.putCmps_mc (x : Vector CompRaw 64) (d : Dev) : (Dev.putCmps x d).mc = d.mc := rfl
@[simp] theorem Dev.putCmps_triad (x : Vector CompRaw 64) (d : Dev) : (Dev.putCmps x d).triad = d.triad := rfl
@[simp] theorem Dev.putCmps_sloe (x : Vector CompRaw 64) (d : Dev) : (Dev.putCmps x d).sloe = d.sloe := rfl
@[simp] theorem Dev.putCmps_can (x : Vector CompRaw 64) (d : Dev) : (Dev.putCmps x d).can = d.can := rfl
@[simp] theorem Dev.putCmps_crcs (x : Vector CompRaw 64) (d : Dev) : (Dev.putCmps x d).crcs = d.crcs := rfl
@[simp] theorem Dev.putCmps_capture (x : Vector CompRaw 64) (d : Dev) : (Dev.putCmps x d).capture = d.capture := rfl
@[simp] theorem Dev.putCmps_mgmt (x : Vector CompRaw 64) (d : Dev) : (Dev.putCmps x d).mgmt = d.mgmt := rfl
@[simp] theorem Dev.putCmps_host (x : Vector CompRaw 64) (d : Dev) : (Dev.putCmps x d).host = d.host := rfl
@[simp] theorem Dev.putCmps_net (x : Vector CompRaw 64) (d : Dev) : (Dev.putCmps x d).net = d.net := rfl
@[simp] theorem Dev.putCmps_canopen (x : Vector CompRaw 64) (d : Dev) : (Dev.putCmps x d).canopen = d.canopen := rfl
@[simp] theorem Dev.putCmps_gpioIn (x : Vector CompRaw 64) (d : Dev) : (Dev.putCmps x d).gpioIn = d.gpioIn := rfl
@[simp] theorem Dev.putCmps_padHeld (x : Vector CompRaw 64) (d : Dev) : (Dev.putCmps x d).padHeld = d.padHeld := rfl

@[simp] theorem Dev.putCmps_reg (x : Vector CompRaw 64) (d : Dev) (k : Nat) : (Dev.putCmps x d).reg k = d.reg k := rfl
@[simp] theorem Dev.putCmps_sh (x : Vector CompRaw 64) (d : Dev) (k : Nat) : (Dev.putCmps x d).sh k = d.sh k := rfl

@[simp] theorem Dev.putCal_regs (x : Option CalStep) (d : Dev) : (Dev.putCal x d).regs = d.regs := rfl
@[simp] theorem Dev.putCal_shadow (x : Option CalStep) (d : Dev) : (Dev.putCal x d).shadow = d.shadow := rfl
@[simp] theorem Dev.putCal_mem (x : Option CalStep) (d : Dev) : (Dev.putCal x d).mem = d.mem := rfl
@[simp] theorem Dev.putCal_triadMem (x : Option CalStep) (d : Dev) : (Dev.putCal x d).triadMem = d.triadMem := rfl
@[simp] theorem Dev.putCal_dram (x : Option CalStep) (d : Dev) : (Dev.putCal x d).dram = d.dram := rfl
@[simp] theorem Dev.putCal_flash (x : Option CalStep) (d : Dev) : (Dev.putCal x d).flash = d.flash := rfl
@[simp] theorem Dev.putCal_dramEpoch (x : Option CalStep) (d : Dev) : (Dev.putCal x d).dramEpoch = d.dramEpoch := rfl
@[simp] theorem Dev.putCal_now (x : Option CalStep) (d : Dev) : (Dev.putCal x d).now = d.now := rfl
@[simp] theorem Dev.putCal_devTime (x : Option CalStep) (d : Dev) : (Dev.putCal x d).devTime = d.devTime := rfl
@[simp] theorem Dev.putCal_rateAcc (x : Option CalStep) (d : Dev) : (Dev.putCal x d).rateAcc = d.rateAcc := rfl
@[simp] theorem Dev.putCal_cyc (x : Option CalStep) (d : Dev) : (Dev.putCal x d).cyc = d.cyc := rfl
@[simp] theorem Dev.putCal_readData (x : Option CalStep) (d : Dev) : (Dev.putCal x d).readData = d.readData := rfl
@[simp] theorem Dev.putCal_freeCount (x : Option CalStep) (d : Dev) : (Dev.putCal x d).freeCount = d.freeCount := rfl
@[simp] theorem Dev.putCal_timeHi (x : Option CalStep) (d : Dev) : (Dev.putCal x d).timeHi = d.timeHi := rfl
@[simp] theorem Dev.putCal_activeSeen (x : Option CalStep) (d : Dev) : (Dev.putCal x d).activeSeen = d.activeSeen := rfl
@[simp] theorem Dev.putCal_dramAt (x : Option CalStep) (d : Dev) : (Dev.putCal x d).dramAt = d.dramAt := rfl
@[simp] theorem Dev.putCal_romAt (x : Option CalStep) (d : Dev) : (Dev.putCal x d).romAt = d.romAt := rfl
@[simp] theorem Dev.putCal_flashSize (x : Option CalStep) (d : Dev) : (Dev.putCal x d).flashSize = d.flashSize := rfl
@[simp] theorem Dev.putCal_syncOutAt (x : Option CalStep) (d : Dev) : (Dev.putCal x d).syncOutAt = d.syncOutAt := rfl
@[simp] theorem Dev.putCal_reset (x : Option CalStep) (d : Dev) : (Dev.putCal x d).reset = d.reset := rfl
@[simp] theorem Dev.putCal_supplies (x : Option CalStep) (d : Dev) : (Dev.putCal x d).supplies = d.supplies := rfl
@[simp] theorem Dev.putCal_clocks (x : Option CalStep) (d : Dev) : (Dev.putCal x d).clocks = d.clocks := rfl
@[simp] theorem Dev.putCal_loader (x : Option CalStep) (d : Dev) : (Dev.putCal x d).loader = d.loader := rfl
@[simp] theorem Dev.putCal_fuses (x : Option CalStep) (d : Dev) : (Dev.putCal x d).fuses = d.fuses := rfl
@[simp] theorem Dev.putCal_bootsel (x : Option CalStep) (d : Dev) : (Dev.putCal x d).bootsel = d.bootsel := rfl
@[simp] theorem Dev.putCal_engines (x : Option CalStep) (d : Dev) : (Dev.putCal x d).engines = d.engines := rfl
@[simp] theorem Dev.putCal_groups (x : Option CalStep) (d : Dev) : (Dev.putCal x d).groups = d.groups := rfl
@[simp] theorem Dev.putCal_tripIn (x : Option CalStep) (d : Dev) : (Dev.putCal x d).tripIn = d.tripIn := rfl
@[simp] theorem Dev.putCal_lanes (x : Option CalStep) (d : Dev) : (Dev.putCal x d).lanes = d.lanes := rfl
@[simp] theorem Dev.putCal_conv (x : Option CalStep) (d : Dev) : (Dev.putCal x d).conv = d.conv := rfl
@[simp] theorem Dev.putCal_acc (x : Option CalStep) (d : Dev) : (Dev.putCal x d).acc = d.acc := rfl
@[simp] theorem Dev.putCal_mmx (x : Option CalStep) (d : Dev) : (Dev.putCal x d).mmx = d.mmx := rfl
@[simp] theorem Dev.putCal_trims (x : Option CalStep) (d : Dev) : (Dev.putCal x d).trims = d.trims := rfl
@[simp] theorem Dev.putCal_cmps (x : Option CalStep) (d : Dev) : (Dev.putCal x d).cmps = d.cmps := rfl
@[simp] theorem Dev.putCal_cal (x : Option CalStep) (d : Dev) : (Dev.putCal x d).cal = x := rfl
@[simp] theorem Dev.putCal_acq (x : Option CalStep) (d : Dev) : (Dev.putCal x d).acq = d.acq := rfl
@[simp] theorem Dev.putCal_pos (x : Option CalStep) (d : Dev) : (Dev.putCal x d).pos = d.pos := rfl
@[simp] theorem Dev.putCal_mc (x : Option CalStep) (d : Dev) : (Dev.putCal x d).mc = d.mc := rfl
@[simp] theorem Dev.putCal_triad (x : Option CalStep) (d : Dev) : (Dev.putCal x d).triad = d.triad := rfl
@[simp] theorem Dev.putCal_sloe (x : Option CalStep) (d : Dev) : (Dev.putCal x d).sloe = d.sloe := rfl
@[simp] theorem Dev.putCal_can (x : Option CalStep) (d : Dev) : (Dev.putCal x d).can = d.can := rfl
@[simp] theorem Dev.putCal_crcs (x : Option CalStep) (d : Dev) : (Dev.putCal x d).crcs = d.crcs := rfl
@[simp] theorem Dev.putCal_capture (x : Option CalStep) (d : Dev) : (Dev.putCal x d).capture = d.capture := rfl
@[simp] theorem Dev.putCal_mgmt (x : Option CalStep) (d : Dev) : (Dev.putCal x d).mgmt = d.mgmt := rfl
@[simp] theorem Dev.putCal_host (x : Option CalStep) (d : Dev) : (Dev.putCal x d).host = d.host := rfl
@[simp] theorem Dev.putCal_net (x : Option CalStep) (d : Dev) : (Dev.putCal x d).net = d.net := rfl
@[simp] theorem Dev.putCal_canopen (x : Option CalStep) (d : Dev) : (Dev.putCal x d).canopen = d.canopen := rfl
@[simp] theorem Dev.putCal_gpioIn (x : Option CalStep) (d : Dev) : (Dev.putCal x d).gpioIn = d.gpioIn := rfl
@[simp] theorem Dev.putCal_padHeld (x : Option CalStep) (d : Dev) : (Dev.putCal x d).padHeld = d.padHeld := rfl

@[simp] theorem Dev.putCal_reg (x : Option CalStep) (d : Dev) (k : Nat) : (Dev.putCal x d).reg k = d.reg k := rfl
@[simp] theorem Dev.putCal_sh (x : Option CalStep) (d : Dev) (k : Nat) : (Dev.putCal x d).sh k = d.sh k := rfl

@[simp] theorem Dev.putTriad_regs (x : Triad) (d : Dev) : (Dev.putTriad x d).regs = d.regs := rfl
@[simp] theorem Dev.putTriad_shadow (x : Triad) (d : Dev) : (Dev.putTriad x d).shadow = d.shadow := rfl
@[simp] theorem Dev.putTriad_mem (x : Triad) (d : Dev) : (Dev.putTriad x d).mem = d.mem := rfl
@[simp] theorem Dev.putTriad_triadMem (x : Triad) (d : Dev) : (Dev.putTriad x d).triadMem = d.triadMem := rfl
@[simp] theorem Dev.putTriad_dram (x : Triad) (d : Dev) : (Dev.putTriad x d).dram = d.dram := rfl
@[simp] theorem Dev.putTriad_flash (x : Triad) (d : Dev) : (Dev.putTriad x d).flash = d.flash := rfl
@[simp] theorem Dev.putTriad_dramEpoch (x : Triad) (d : Dev) : (Dev.putTriad x d).dramEpoch = d.dramEpoch := rfl
@[simp] theorem Dev.putTriad_now (x : Triad) (d : Dev) : (Dev.putTriad x d).now = d.now := rfl
@[simp] theorem Dev.putTriad_devTime (x : Triad) (d : Dev) : (Dev.putTriad x d).devTime = d.devTime := rfl
@[simp] theorem Dev.putTriad_rateAcc (x : Triad) (d : Dev) : (Dev.putTriad x d).rateAcc = d.rateAcc := rfl
@[simp] theorem Dev.putTriad_cyc (x : Triad) (d : Dev) : (Dev.putTriad x d).cyc = d.cyc := rfl
@[simp] theorem Dev.putTriad_readData (x : Triad) (d : Dev) : (Dev.putTriad x d).readData = d.readData := rfl
@[simp] theorem Dev.putTriad_freeCount (x : Triad) (d : Dev) : (Dev.putTriad x d).freeCount = d.freeCount := rfl
@[simp] theorem Dev.putTriad_timeHi (x : Triad) (d : Dev) : (Dev.putTriad x d).timeHi = d.timeHi := rfl
@[simp] theorem Dev.putTriad_activeSeen (x : Triad) (d : Dev) : (Dev.putTriad x d).activeSeen = d.activeSeen := rfl
@[simp] theorem Dev.putTriad_dramAt (x : Triad) (d : Dev) : (Dev.putTriad x d).dramAt = d.dramAt := rfl
@[simp] theorem Dev.putTriad_romAt (x : Triad) (d : Dev) : (Dev.putTriad x d).romAt = d.romAt := rfl
@[simp] theorem Dev.putTriad_flashSize (x : Triad) (d : Dev) : (Dev.putTriad x d).flashSize = d.flashSize := rfl
@[simp] theorem Dev.putTriad_syncOutAt (x : Triad) (d : Dev) : (Dev.putTriad x d).syncOutAt = d.syncOutAt := rfl
@[simp] theorem Dev.putTriad_reset (x : Triad) (d : Dev) : (Dev.putTriad x d).reset = d.reset := rfl
@[simp] theorem Dev.putTriad_supplies (x : Triad) (d : Dev) : (Dev.putTriad x d).supplies = d.supplies := rfl
@[simp] theorem Dev.putTriad_clocks (x : Triad) (d : Dev) : (Dev.putTriad x d).clocks = d.clocks := rfl
@[simp] theorem Dev.putTriad_loader (x : Triad) (d : Dev) : (Dev.putTriad x d).loader = d.loader := rfl
@[simp] theorem Dev.putTriad_fuses (x : Triad) (d : Dev) : (Dev.putTriad x d).fuses = d.fuses := rfl
@[simp] theorem Dev.putTriad_bootsel (x : Triad) (d : Dev) : (Dev.putTriad x d).bootsel = d.bootsel := rfl
@[simp] theorem Dev.putTriad_engines (x : Triad) (d : Dev) : (Dev.putTriad x d).engines = d.engines := rfl
@[simp] theorem Dev.putTriad_groups (x : Triad) (d : Dev) : (Dev.putTriad x d).groups = d.groups := rfl
@[simp] theorem Dev.putTriad_tripIn (x : Triad) (d : Dev) : (Dev.putTriad x d).tripIn = d.tripIn := rfl
@[simp] theorem Dev.putTriad_lanes (x : Triad) (d : Dev) : (Dev.putTriad x d).lanes = d.lanes := rfl
@[simp] theorem Dev.putTriad_conv (x : Triad) (d : Dev) : (Dev.putTriad x d).conv = d.conv := rfl
@[simp] theorem Dev.putTriad_acc (x : Triad) (d : Dev) : (Dev.putTriad x d).acc = d.acc := rfl
@[simp] theorem Dev.putTriad_mmx (x : Triad) (d : Dev) : (Dev.putTriad x d).mmx = d.mmx := rfl
@[simp] theorem Dev.putTriad_trims (x : Triad) (d : Dev) : (Dev.putTriad x d).trims = d.trims := rfl
@[simp] theorem Dev.putTriad_cmps (x : Triad) (d : Dev) : (Dev.putTriad x d).cmps = d.cmps := rfl
@[simp] theorem Dev.putTriad_cal (x : Triad) (d : Dev) : (Dev.putTriad x d).cal = d.cal := rfl
@[simp] theorem Dev.putTriad_acq (x : Triad) (d : Dev) : (Dev.putTriad x d).acq = d.acq := rfl
@[simp] theorem Dev.putTriad_pos (x : Triad) (d : Dev) : (Dev.putTriad x d).pos = d.pos := rfl
@[simp] theorem Dev.putTriad_mc (x : Triad) (d : Dev) : (Dev.putTriad x d).mc = d.mc := rfl
@[simp] theorem Dev.putTriad_triad (x : Triad) (d : Dev) : (Dev.putTriad x d).triad = x := rfl
@[simp] theorem Dev.putTriad_sloe (x : Triad) (d : Dev) : (Dev.putTriad x d).sloe = d.sloe := rfl
@[simp] theorem Dev.putTriad_can (x : Triad) (d : Dev) : (Dev.putTriad x d).can = d.can := rfl
@[simp] theorem Dev.putTriad_crcs (x : Triad) (d : Dev) : (Dev.putTriad x d).crcs = d.crcs := rfl
@[simp] theorem Dev.putTriad_capture (x : Triad) (d : Dev) : (Dev.putTriad x d).capture = d.capture := rfl
@[simp] theorem Dev.putTriad_mgmt (x : Triad) (d : Dev) : (Dev.putTriad x d).mgmt = d.mgmt := rfl
@[simp] theorem Dev.putTriad_host (x : Triad) (d : Dev) : (Dev.putTriad x d).host = d.host := rfl
@[simp] theorem Dev.putTriad_net (x : Triad) (d : Dev) : (Dev.putTriad x d).net = d.net := rfl
@[simp] theorem Dev.putTriad_canopen (x : Triad) (d : Dev) : (Dev.putTriad x d).canopen = d.canopen := rfl
@[simp] theorem Dev.putTriad_gpioIn (x : Triad) (d : Dev) : (Dev.putTriad x d).gpioIn = d.gpioIn := rfl
@[simp] theorem Dev.putTriad_padHeld (x : Triad) (d : Dev) : (Dev.putTriad x d).padHeld = d.padHeld := rfl

@[simp] theorem Dev.putTriad_reg (x : Triad) (d : Dev) (k : Nat) : (Dev.putTriad x d).reg k = d.reg k := rfl
@[simp] theorem Dev.putTriad_sh (x : Triad) (d : Dev) (k : Nat) : (Dev.putTriad x d).sh k = d.sh k := rfl

@[simp] theorem Dev.putCapture_regs (x : Capture) (d : Dev) : (Dev.putCapture x d).regs = d.regs := rfl
@[simp] theorem Dev.putCapture_shadow (x : Capture) (d : Dev) : (Dev.putCapture x d).shadow = d.shadow := rfl
@[simp] theorem Dev.putCapture_mem (x : Capture) (d : Dev) : (Dev.putCapture x d).mem = d.mem := rfl
@[simp] theorem Dev.putCapture_triadMem (x : Capture) (d : Dev) : (Dev.putCapture x d).triadMem = d.triadMem := rfl
@[simp] theorem Dev.putCapture_dram (x : Capture) (d : Dev) : (Dev.putCapture x d).dram = d.dram := rfl
@[simp] theorem Dev.putCapture_flash (x : Capture) (d : Dev) : (Dev.putCapture x d).flash = d.flash := rfl
@[simp] theorem Dev.putCapture_dramEpoch (x : Capture) (d : Dev) : (Dev.putCapture x d).dramEpoch = d.dramEpoch := rfl
@[simp] theorem Dev.putCapture_now (x : Capture) (d : Dev) : (Dev.putCapture x d).now = d.now := rfl
@[simp] theorem Dev.putCapture_devTime (x : Capture) (d : Dev) : (Dev.putCapture x d).devTime = d.devTime := rfl
@[simp] theorem Dev.putCapture_rateAcc (x : Capture) (d : Dev) : (Dev.putCapture x d).rateAcc = d.rateAcc := rfl
@[simp] theorem Dev.putCapture_cyc (x : Capture) (d : Dev) : (Dev.putCapture x d).cyc = d.cyc := rfl
@[simp] theorem Dev.putCapture_readData (x : Capture) (d : Dev) : (Dev.putCapture x d).readData = d.readData := rfl
@[simp] theorem Dev.putCapture_freeCount (x : Capture) (d : Dev) : (Dev.putCapture x d).freeCount = d.freeCount := rfl
@[simp] theorem Dev.putCapture_timeHi (x : Capture) (d : Dev) : (Dev.putCapture x d).timeHi = d.timeHi := rfl
@[simp] theorem Dev.putCapture_activeSeen (x : Capture) (d : Dev) : (Dev.putCapture x d).activeSeen = d.activeSeen := rfl
@[simp] theorem Dev.putCapture_dramAt (x : Capture) (d : Dev) : (Dev.putCapture x d).dramAt = d.dramAt := rfl
@[simp] theorem Dev.putCapture_romAt (x : Capture) (d : Dev) : (Dev.putCapture x d).romAt = d.romAt := rfl
@[simp] theorem Dev.putCapture_flashSize (x : Capture) (d : Dev) : (Dev.putCapture x d).flashSize = d.flashSize := rfl
@[simp] theorem Dev.putCapture_syncOutAt (x : Capture) (d : Dev) : (Dev.putCapture x d).syncOutAt = d.syncOutAt := rfl
@[simp] theorem Dev.putCapture_reset (x : Capture) (d : Dev) : (Dev.putCapture x d).reset = d.reset := rfl
@[simp] theorem Dev.putCapture_supplies (x : Capture) (d : Dev) : (Dev.putCapture x d).supplies = d.supplies := rfl
@[simp] theorem Dev.putCapture_clocks (x : Capture) (d : Dev) : (Dev.putCapture x d).clocks = d.clocks := rfl
@[simp] theorem Dev.putCapture_loader (x : Capture) (d : Dev) : (Dev.putCapture x d).loader = d.loader := rfl
@[simp] theorem Dev.putCapture_fuses (x : Capture) (d : Dev) : (Dev.putCapture x d).fuses = d.fuses := rfl
@[simp] theorem Dev.putCapture_bootsel (x : Capture) (d : Dev) : (Dev.putCapture x d).bootsel = d.bootsel := rfl
@[simp] theorem Dev.putCapture_engines (x : Capture) (d : Dev) : (Dev.putCapture x d).engines = d.engines := rfl
@[simp] theorem Dev.putCapture_groups (x : Capture) (d : Dev) : (Dev.putCapture x d).groups = d.groups := rfl
@[simp] theorem Dev.putCapture_tripIn (x : Capture) (d : Dev) : (Dev.putCapture x d).tripIn = d.tripIn := rfl
@[simp] theorem Dev.putCapture_lanes (x : Capture) (d : Dev) : (Dev.putCapture x d).lanes = d.lanes := rfl
@[simp] theorem Dev.putCapture_conv (x : Capture) (d : Dev) : (Dev.putCapture x d).conv = d.conv := rfl
@[simp] theorem Dev.putCapture_acc (x : Capture) (d : Dev) : (Dev.putCapture x d).acc = d.acc := rfl
@[simp] theorem Dev.putCapture_mmx (x : Capture) (d : Dev) : (Dev.putCapture x d).mmx = d.mmx := rfl
@[simp] theorem Dev.putCapture_trims (x : Capture) (d : Dev) : (Dev.putCapture x d).trims = d.trims := rfl
@[simp] theorem Dev.putCapture_cmps (x : Capture) (d : Dev) : (Dev.putCapture x d).cmps = d.cmps := rfl
@[simp] theorem Dev.putCapture_cal (x : Capture) (d : Dev) : (Dev.putCapture x d).cal = d.cal := rfl
@[simp] theorem Dev.putCapture_acq (x : Capture) (d : Dev) : (Dev.putCapture x d).acq = d.acq := rfl
@[simp] theorem Dev.putCapture_pos (x : Capture) (d : Dev) : (Dev.putCapture x d).pos = d.pos := rfl
@[simp] theorem Dev.putCapture_mc (x : Capture) (d : Dev) : (Dev.putCapture x d).mc = d.mc := rfl
@[simp] theorem Dev.putCapture_triad (x : Capture) (d : Dev) : (Dev.putCapture x d).triad = d.triad := rfl
@[simp] theorem Dev.putCapture_sloe (x : Capture) (d : Dev) : (Dev.putCapture x d).sloe = d.sloe := rfl
@[simp] theorem Dev.putCapture_can (x : Capture) (d : Dev) : (Dev.putCapture x d).can = d.can := rfl
@[simp] theorem Dev.putCapture_crcs (x : Capture) (d : Dev) : (Dev.putCapture x d).crcs = d.crcs := rfl
@[simp] theorem Dev.putCapture_capture (x : Capture) (d : Dev) : (Dev.putCapture x d).capture = x := rfl
@[simp] theorem Dev.putCapture_mgmt (x : Capture) (d : Dev) : (Dev.putCapture x d).mgmt = d.mgmt := rfl
@[simp] theorem Dev.putCapture_host (x : Capture) (d : Dev) : (Dev.putCapture x d).host = d.host := rfl
@[simp] theorem Dev.putCapture_net (x : Capture) (d : Dev) : (Dev.putCapture x d).net = d.net := rfl
@[simp] theorem Dev.putCapture_canopen (x : Capture) (d : Dev) : (Dev.putCapture x d).canopen = d.canopen := rfl
@[simp] theorem Dev.putCapture_gpioIn (x : Capture) (d : Dev) : (Dev.putCapture x d).gpioIn = d.gpioIn := rfl
@[simp] theorem Dev.putCapture_padHeld (x : Capture) (d : Dev) : (Dev.putCapture x d).padHeld = d.padHeld := rfl

@[simp] theorem Dev.putCapture_reg (x : Capture) (d : Dev) (k : Nat) : (Dev.putCapture x d).reg k = d.reg k := rfl
@[simp] theorem Dev.putCapture_sh (x : Capture) (d : Dev) (k : Nat) : (Dev.putCapture x d).sh k = d.sh k := rfl

@[simp] theorem Dev.putMgmt_regs (x : Mgmt) (d : Dev) : (Dev.putMgmt x d).regs = d.regs := rfl
@[simp] theorem Dev.putMgmt_shadow (x : Mgmt) (d : Dev) : (Dev.putMgmt x d).shadow = d.shadow := rfl
@[simp] theorem Dev.putMgmt_mem (x : Mgmt) (d : Dev) : (Dev.putMgmt x d).mem = d.mem := rfl
@[simp] theorem Dev.putMgmt_triadMem (x : Mgmt) (d : Dev) : (Dev.putMgmt x d).triadMem = d.triadMem := rfl
@[simp] theorem Dev.putMgmt_dram (x : Mgmt) (d : Dev) : (Dev.putMgmt x d).dram = d.dram := rfl
@[simp] theorem Dev.putMgmt_flash (x : Mgmt) (d : Dev) : (Dev.putMgmt x d).flash = d.flash := rfl
@[simp] theorem Dev.putMgmt_dramEpoch (x : Mgmt) (d : Dev) : (Dev.putMgmt x d).dramEpoch = d.dramEpoch := rfl
@[simp] theorem Dev.putMgmt_now (x : Mgmt) (d : Dev) : (Dev.putMgmt x d).now = d.now := rfl
@[simp] theorem Dev.putMgmt_devTime (x : Mgmt) (d : Dev) : (Dev.putMgmt x d).devTime = d.devTime := rfl
@[simp] theorem Dev.putMgmt_rateAcc (x : Mgmt) (d : Dev) : (Dev.putMgmt x d).rateAcc = d.rateAcc := rfl
@[simp] theorem Dev.putMgmt_cyc (x : Mgmt) (d : Dev) : (Dev.putMgmt x d).cyc = d.cyc := rfl
@[simp] theorem Dev.putMgmt_readData (x : Mgmt) (d : Dev) : (Dev.putMgmt x d).readData = d.readData := rfl
@[simp] theorem Dev.putMgmt_freeCount (x : Mgmt) (d : Dev) : (Dev.putMgmt x d).freeCount = d.freeCount := rfl
@[simp] theorem Dev.putMgmt_timeHi (x : Mgmt) (d : Dev) : (Dev.putMgmt x d).timeHi = d.timeHi := rfl
@[simp] theorem Dev.putMgmt_activeSeen (x : Mgmt) (d : Dev) : (Dev.putMgmt x d).activeSeen = d.activeSeen := rfl
@[simp] theorem Dev.putMgmt_dramAt (x : Mgmt) (d : Dev) : (Dev.putMgmt x d).dramAt = d.dramAt := rfl
@[simp] theorem Dev.putMgmt_romAt (x : Mgmt) (d : Dev) : (Dev.putMgmt x d).romAt = d.romAt := rfl
@[simp] theorem Dev.putMgmt_flashSize (x : Mgmt) (d : Dev) : (Dev.putMgmt x d).flashSize = d.flashSize := rfl
@[simp] theorem Dev.putMgmt_syncOutAt (x : Mgmt) (d : Dev) : (Dev.putMgmt x d).syncOutAt = d.syncOutAt := rfl
@[simp] theorem Dev.putMgmt_reset (x : Mgmt) (d : Dev) : (Dev.putMgmt x d).reset = d.reset := rfl
@[simp] theorem Dev.putMgmt_supplies (x : Mgmt) (d : Dev) : (Dev.putMgmt x d).supplies = d.supplies := rfl
@[simp] theorem Dev.putMgmt_clocks (x : Mgmt) (d : Dev) : (Dev.putMgmt x d).clocks = d.clocks := rfl
@[simp] theorem Dev.putMgmt_loader (x : Mgmt) (d : Dev) : (Dev.putMgmt x d).loader = d.loader := rfl
@[simp] theorem Dev.putMgmt_fuses (x : Mgmt) (d : Dev) : (Dev.putMgmt x d).fuses = d.fuses := rfl
@[simp] theorem Dev.putMgmt_bootsel (x : Mgmt) (d : Dev) : (Dev.putMgmt x d).bootsel = d.bootsel := rfl
@[simp] theorem Dev.putMgmt_engines (x : Mgmt) (d : Dev) : (Dev.putMgmt x d).engines = d.engines := rfl
@[simp] theorem Dev.putMgmt_groups (x : Mgmt) (d : Dev) : (Dev.putMgmt x d).groups = d.groups := rfl
@[simp] theorem Dev.putMgmt_tripIn (x : Mgmt) (d : Dev) : (Dev.putMgmt x d).tripIn = d.tripIn := rfl
@[simp] theorem Dev.putMgmt_lanes (x : Mgmt) (d : Dev) : (Dev.putMgmt x d).lanes = d.lanes := rfl
@[simp] theorem Dev.putMgmt_conv (x : Mgmt) (d : Dev) : (Dev.putMgmt x d).conv = d.conv := rfl
@[simp] theorem Dev.putMgmt_acc (x : Mgmt) (d : Dev) : (Dev.putMgmt x d).acc = d.acc := rfl
@[simp] theorem Dev.putMgmt_mmx (x : Mgmt) (d : Dev) : (Dev.putMgmt x d).mmx = d.mmx := rfl
@[simp] theorem Dev.putMgmt_trims (x : Mgmt) (d : Dev) : (Dev.putMgmt x d).trims = d.trims := rfl
@[simp] theorem Dev.putMgmt_cmps (x : Mgmt) (d : Dev) : (Dev.putMgmt x d).cmps = d.cmps := rfl
@[simp] theorem Dev.putMgmt_cal (x : Mgmt) (d : Dev) : (Dev.putMgmt x d).cal = d.cal := rfl
@[simp] theorem Dev.putMgmt_acq (x : Mgmt) (d : Dev) : (Dev.putMgmt x d).acq = d.acq := rfl
@[simp] theorem Dev.putMgmt_pos (x : Mgmt) (d : Dev) : (Dev.putMgmt x d).pos = d.pos := rfl
@[simp] theorem Dev.putMgmt_mc (x : Mgmt) (d : Dev) : (Dev.putMgmt x d).mc = d.mc := rfl
@[simp] theorem Dev.putMgmt_triad (x : Mgmt) (d : Dev) : (Dev.putMgmt x d).triad = d.triad := rfl
@[simp] theorem Dev.putMgmt_sloe (x : Mgmt) (d : Dev) : (Dev.putMgmt x d).sloe = d.sloe := rfl
@[simp] theorem Dev.putMgmt_can (x : Mgmt) (d : Dev) : (Dev.putMgmt x d).can = d.can := rfl
@[simp] theorem Dev.putMgmt_crcs (x : Mgmt) (d : Dev) : (Dev.putMgmt x d).crcs = d.crcs := rfl
@[simp] theorem Dev.putMgmt_capture (x : Mgmt) (d : Dev) : (Dev.putMgmt x d).capture = d.capture := rfl
@[simp] theorem Dev.putMgmt_mgmt (x : Mgmt) (d : Dev) : (Dev.putMgmt x d).mgmt = x := rfl
@[simp] theorem Dev.putMgmt_host (x : Mgmt) (d : Dev) : (Dev.putMgmt x d).host = d.host := rfl
@[simp] theorem Dev.putMgmt_net (x : Mgmt) (d : Dev) : (Dev.putMgmt x d).net = d.net := rfl
@[simp] theorem Dev.putMgmt_canopen (x : Mgmt) (d : Dev) : (Dev.putMgmt x d).canopen = d.canopen := rfl
@[simp] theorem Dev.putMgmt_gpioIn (x : Mgmt) (d : Dev) : (Dev.putMgmt x d).gpioIn = d.gpioIn := rfl
@[simp] theorem Dev.putMgmt_padHeld (x : Mgmt) (d : Dev) : (Dev.putMgmt x d).padHeld = d.padHeld := rfl

@[simp] theorem Dev.putMgmt_reg (x : Mgmt) (d : Dev) (k : Nat) : (Dev.putMgmt x d).reg k = d.reg k := rfl
@[simp] theorem Dev.putMgmt_sh (x : Mgmt) (d : Dev) (k : Nat) : (Dev.putMgmt x d).sh k = d.sh k := rfl

@[simp] theorem Dev.putHost_regs (x : HostPort) (d : Dev) : (Dev.putHost x d).regs = d.regs := rfl
@[simp] theorem Dev.putHost_shadow (x : HostPort) (d : Dev) : (Dev.putHost x d).shadow = d.shadow := rfl
@[simp] theorem Dev.putHost_mem (x : HostPort) (d : Dev) : (Dev.putHost x d).mem = d.mem := rfl
@[simp] theorem Dev.putHost_triadMem (x : HostPort) (d : Dev) : (Dev.putHost x d).triadMem = d.triadMem := rfl
@[simp] theorem Dev.putHost_dram (x : HostPort) (d : Dev) : (Dev.putHost x d).dram = d.dram := rfl
@[simp] theorem Dev.putHost_flash (x : HostPort) (d : Dev) : (Dev.putHost x d).flash = d.flash := rfl
@[simp] theorem Dev.putHost_dramEpoch (x : HostPort) (d : Dev) : (Dev.putHost x d).dramEpoch = d.dramEpoch := rfl
@[simp] theorem Dev.putHost_now (x : HostPort) (d : Dev) : (Dev.putHost x d).now = d.now := rfl
@[simp] theorem Dev.putHost_devTime (x : HostPort) (d : Dev) : (Dev.putHost x d).devTime = d.devTime := rfl
@[simp] theorem Dev.putHost_rateAcc (x : HostPort) (d : Dev) : (Dev.putHost x d).rateAcc = d.rateAcc := rfl
@[simp] theorem Dev.putHost_cyc (x : HostPort) (d : Dev) : (Dev.putHost x d).cyc = d.cyc := rfl
@[simp] theorem Dev.putHost_readData (x : HostPort) (d : Dev) : (Dev.putHost x d).readData = d.readData := rfl
@[simp] theorem Dev.putHost_freeCount (x : HostPort) (d : Dev) : (Dev.putHost x d).freeCount = d.freeCount := rfl
@[simp] theorem Dev.putHost_timeHi (x : HostPort) (d : Dev) : (Dev.putHost x d).timeHi = d.timeHi := rfl
@[simp] theorem Dev.putHost_activeSeen (x : HostPort) (d : Dev) : (Dev.putHost x d).activeSeen = d.activeSeen := rfl
@[simp] theorem Dev.putHost_dramAt (x : HostPort) (d : Dev) : (Dev.putHost x d).dramAt = d.dramAt := rfl
@[simp] theorem Dev.putHost_romAt (x : HostPort) (d : Dev) : (Dev.putHost x d).romAt = d.romAt := rfl
@[simp] theorem Dev.putHost_flashSize (x : HostPort) (d : Dev) : (Dev.putHost x d).flashSize = d.flashSize := rfl
@[simp] theorem Dev.putHost_syncOutAt (x : HostPort) (d : Dev) : (Dev.putHost x d).syncOutAt = d.syncOutAt := rfl
@[simp] theorem Dev.putHost_reset (x : HostPort) (d : Dev) : (Dev.putHost x d).reset = d.reset := rfl
@[simp] theorem Dev.putHost_supplies (x : HostPort) (d : Dev) : (Dev.putHost x d).supplies = d.supplies := rfl
@[simp] theorem Dev.putHost_clocks (x : HostPort) (d : Dev) : (Dev.putHost x d).clocks = d.clocks := rfl
@[simp] theorem Dev.putHost_loader (x : HostPort) (d : Dev) : (Dev.putHost x d).loader = d.loader := rfl
@[simp] theorem Dev.putHost_fuses (x : HostPort) (d : Dev) : (Dev.putHost x d).fuses = d.fuses := rfl
@[simp] theorem Dev.putHost_bootsel (x : HostPort) (d : Dev) : (Dev.putHost x d).bootsel = d.bootsel := rfl
@[simp] theorem Dev.putHost_engines (x : HostPort) (d : Dev) : (Dev.putHost x d).engines = d.engines := rfl
@[simp] theorem Dev.putHost_groups (x : HostPort) (d : Dev) : (Dev.putHost x d).groups = d.groups := rfl
@[simp] theorem Dev.putHost_tripIn (x : HostPort) (d : Dev) : (Dev.putHost x d).tripIn = d.tripIn := rfl
@[simp] theorem Dev.putHost_lanes (x : HostPort) (d : Dev) : (Dev.putHost x d).lanes = d.lanes := rfl
@[simp] theorem Dev.putHost_conv (x : HostPort) (d : Dev) : (Dev.putHost x d).conv = d.conv := rfl
@[simp] theorem Dev.putHost_acc (x : HostPort) (d : Dev) : (Dev.putHost x d).acc = d.acc := rfl
@[simp] theorem Dev.putHost_mmx (x : HostPort) (d : Dev) : (Dev.putHost x d).mmx = d.mmx := rfl
@[simp] theorem Dev.putHost_trims (x : HostPort) (d : Dev) : (Dev.putHost x d).trims = d.trims := rfl
@[simp] theorem Dev.putHost_cmps (x : HostPort) (d : Dev) : (Dev.putHost x d).cmps = d.cmps := rfl
@[simp] theorem Dev.putHost_cal (x : HostPort) (d : Dev) : (Dev.putHost x d).cal = d.cal := rfl
@[simp] theorem Dev.putHost_acq (x : HostPort) (d : Dev) : (Dev.putHost x d).acq = d.acq := rfl
@[simp] theorem Dev.putHost_pos (x : HostPort) (d : Dev) : (Dev.putHost x d).pos = d.pos := rfl
@[simp] theorem Dev.putHost_mc (x : HostPort) (d : Dev) : (Dev.putHost x d).mc = d.mc := rfl
@[simp] theorem Dev.putHost_triad (x : HostPort) (d : Dev) : (Dev.putHost x d).triad = d.triad := rfl
@[simp] theorem Dev.putHost_sloe (x : HostPort) (d : Dev) : (Dev.putHost x d).sloe = d.sloe := rfl
@[simp] theorem Dev.putHost_can (x : HostPort) (d : Dev) : (Dev.putHost x d).can = d.can := rfl
@[simp] theorem Dev.putHost_crcs (x : HostPort) (d : Dev) : (Dev.putHost x d).crcs = d.crcs := rfl
@[simp] theorem Dev.putHost_capture (x : HostPort) (d : Dev) : (Dev.putHost x d).capture = d.capture := rfl
@[simp] theorem Dev.putHost_mgmt (x : HostPort) (d : Dev) : (Dev.putHost x d).mgmt = d.mgmt := rfl
@[simp] theorem Dev.putHost_host (x : HostPort) (d : Dev) : (Dev.putHost x d).host = x := rfl
@[simp] theorem Dev.putHost_net (x : HostPort) (d : Dev) : (Dev.putHost x d).net = d.net := rfl
@[simp] theorem Dev.putHost_canopen (x : HostPort) (d : Dev) : (Dev.putHost x d).canopen = d.canopen := rfl
@[simp] theorem Dev.putHost_gpioIn (x : HostPort) (d : Dev) : (Dev.putHost x d).gpioIn = d.gpioIn := rfl
@[simp] theorem Dev.putHost_padHeld (x : HostPort) (d : Dev) : (Dev.putHost x d).padHeld = d.padHeld := rfl

@[simp] theorem Dev.putHost_reg (x : HostPort) (d : Dev) (k : Nat) : (Dev.putHost x d).reg k = d.reg k := rfl
@[simp] theorem Dev.putHost_sh (x : HostPort) (d : Dev) (k : Nat) : (Dev.putHost x d).sh k = d.sh k := rfl

@[simp] theorem Dev.putNet_regs (x : Network) (d : Dev) : (Dev.putNet x d).regs = d.regs := rfl
@[simp] theorem Dev.putNet_shadow (x : Network) (d : Dev) : (Dev.putNet x d).shadow = d.shadow := rfl
@[simp] theorem Dev.putNet_mem (x : Network) (d : Dev) : (Dev.putNet x d).mem = d.mem := rfl
@[simp] theorem Dev.putNet_triadMem (x : Network) (d : Dev) : (Dev.putNet x d).triadMem = d.triadMem := rfl
@[simp] theorem Dev.putNet_dram (x : Network) (d : Dev) : (Dev.putNet x d).dram = d.dram := rfl
@[simp] theorem Dev.putNet_flash (x : Network) (d : Dev) : (Dev.putNet x d).flash = d.flash := rfl
@[simp] theorem Dev.putNet_dramEpoch (x : Network) (d : Dev) : (Dev.putNet x d).dramEpoch = d.dramEpoch := rfl
@[simp] theorem Dev.putNet_now (x : Network) (d : Dev) : (Dev.putNet x d).now = d.now := rfl
@[simp] theorem Dev.putNet_devTime (x : Network) (d : Dev) : (Dev.putNet x d).devTime = d.devTime := rfl
@[simp] theorem Dev.putNet_rateAcc (x : Network) (d : Dev) : (Dev.putNet x d).rateAcc = d.rateAcc := rfl
@[simp] theorem Dev.putNet_cyc (x : Network) (d : Dev) : (Dev.putNet x d).cyc = d.cyc := rfl
@[simp] theorem Dev.putNet_readData (x : Network) (d : Dev) : (Dev.putNet x d).readData = d.readData := rfl
@[simp] theorem Dev.putNet_freeCount (x : Network) (d : Dev) : (Dev.putNet x d).freeCount = d.freeCount := rfl
@[simp] theorem Dev.putNet_timeHi (x : Network) (d : Dev) : (Dev.putNet x d).timeHi = d.timeHi := rfl
@[simp] theorem Dev.putNet_activeSeen (x : Network) (d : Dev) : (Dev.putNet x d).activeSeen = d.activeSeen := rfl
@[simp] theorem Dev.putNet_dramAt (x : Network) (d : Dev) : (Dev.putNet x d).dramAt = d.dramAt := rfl
@[simp] theorem Dev.putNet_romAt (x : Network) (d : Dev) : (Dev.putNet x d).romAt = d.romAt := rfl
@[simp] theorem Dev.putNet_flashSize (x : Network) (d : Dev) : (Dev.putNet x d).flashSize = d.flashSize := rfl
@[simp] theorem Dev.putNet_syncOutAt (x : Network) (d : Dev) : (Dev.putNet x d).syncOutAt = d.syncOutAt := rfl
@[simp] theorem Dev.putNet_reset (x : Network) (d : Dev) : (Dev.putNet x d).reset = d.reset := rfl
@[simp] theorem Dev.putNet_supplies (x : Network) (d : Dev) : (Dev.putNet x d).supplies = d.supplies := rfl
@[simp] theorem Dev.putNet_clocks (x : Network) (d : Dev) : (Dev.putNet x d).clocks = d.clocks := rfl
@[simp] theorem Dev.putNet_loader (x : Network) (d : Dev) : (Dev.putNet x d).loader = d.loader := rfl
@[simp] theorem Dev.putNet_fuses (x : Network) (d : Dev) : (Dev.putNet x d).fuses = d.fuses := rfl
@[simp] theorem Dev.putNet_bootsel (x : Network) (d : Dev) : (Dev.putNet x d).bootsel = d.bootsel := rfl
@[simp] theorem Dev.putNet_engines (x : Network) (d : Dev) : (Dev.putNet x d).engines = d.engines := rfl
@[simp] theorem Dev.putNet_groups (x : Network) (d : Dev) : (Dev.putNet x d).groups = d.groups := rfl
@[simp] theorem Dev.putNet_tripIn (x : Network) (d : Dev) : (Dev.putNet x d).tripIn = d.tripIn := rfl
@[simp] theorem Dev.putNet_lanes (x : Network) (d : Dev) : (Dev.putNet x d).lanes = d.lanes := rfl
@[simp] theorem Dev.putNet_conv (x : Network) (d : Dev) : (Dev.putNet x d).conv = d.conv := rfl
@[simp] theorem Dev.putNet_acc (x : Network) (d : Dev) : (Dev.putNet x d).acc = d.acc := rfl
@[simp] theorem Dev.putNet_mmx (x : Network) (d : Dev) : (Dev.putNet x d).mmx = d.mmx := rfl
@[simp] theorem Dev.putNet_trims (x : Network) (d : Dev) : (Dev.putNet x d).trims = d.trims := rfl
@[simp] theorem Dev.putNet_cmps (x : Network) (d : Dev) : (Dev.putNet x d).cmps = d.cmps := rfl
@[simp] theorem Dev.putNet_cal (x : Network) (d : Dev) : (Dev.putNet x d).cal = d.cal := rfl
@[simp] theorem Dev.putNet_acq (x : Network) (d : Dev) : (Dev.putNet x d).acq = d.acq := rfl
@[simp] theorem Dev.putNet_pos (x : Network) (d : Dev) : (Dev.putNet x d).pos = d.pos := rfl
@[simp] theorem Dev.putNet_mc (x : Network) (d : Dev) : (Dev.putNet x d).mc = d.mc := rfl
@[simp] theorem Dev.putNet_triad (x : Network) (d : Dev) : (Dev.putNet x d).triad = d.triad := rfl
@[simp] theorem Dev.putNet_sloe (x : Network) (d : Dev) : (Dev.putNet x d).sloe = d.sloe := rfl
@[simp] theorem Dev.putNet_can (x : Network) (d : Dev) : (Dev.putNet x d).can = d.can := rfl
@[simp] theorem Dev.putNet_crcs (x : Network) (d : Dev) : (Dev.putNet x d).crcs = d.crcs := rfl
@[simp] theorem Dev.putNet_capture (x : Network) (d : Dev) : (Dev.putNet x d).capture = d.capture := rfl
@[simp] theorem Dev.putNet_mgmt (x : Network) (d : Dev) : (Dev.putNet x d).mgmt = d.mgmt := rfl
@[simp] theorem Dev.putNet_host (x : Network) (d : Dev) : (Dev.putNet x d).host = d.host := rfl
@[simp] theorem Dev.putNet_net (x : Network) (d : Dev) : (Dev.putNet x d).net = x := rfl
@[simp] theorem Dev.putNet_canopen (x : Network) (d : Dev) : (Dev.putNet x d).canopen = d.canopen := rfl
@[simp] theorem Dev.putNet_gpioIn (x : Network) (d : Dev) : (Dev.putNet x d).gpioIn = d.gpioIn := rfl
@[simp] theorem Dev.putNet_padHeld (x : Network) (d : Dev) : (Dev.putNet x d).padHeld = d.padHeld := rfl

@[simp] theorem Dev.putNet_reg (x : Network) (d : Dev) (k : Nat) : (Dev.putNet x d).reg k = d.reg k := rfl
@[simp] theorem Dev.putNet_sh (x : Network) (d : Dev) (k : Nat) : (Dev.putNet x d).sh k = d.sh k := rfl

@[simp] theorem Dev.putCanopen_regs (x : CanOpen) (d : Dev) : (Dev.putCanopen x d).regs = d.regs := rfl
@[simp] theorem Dev.putCanopen_shadow (x : CanOpen) (d : Dev) : (Dev.putCanopen x d).shadow = d.shadow := rfl
@[simp] theorem Dev.putCanopen_mem (x : CanOpen) (d : Dev) : (Dev.putCanopen x d).mem = d.mem := rfl
@[simp] theorem Dev.putCanopen_triadMem (x : CanOpen) (d : Dev) : (Dev.putCanopen x d).triadMem = d.triadMem := rfl
@[simp] theorem Dev.putCanopen_dram (x : CanOpen) (d : Dev) : (Dev.putCanopen x d).dram = d.dram := rfl
@[simp] theorem Dev.putCanopen_flash (x : CanOpen) (d : Dev) : (Dev.putCanopen x d).flash = d.flash := rfl
@[simp] theorem Dev.putCanopen_dramEpoch (x : CanOpen) (d : Dev) : (Dev.putCanopen x d).dramEpoch = d.dramEpoch := rfl
@[simp] theorem Dev.putCanopen_now (x : CanOpen) (d : Dev) : (Dev.putCanopen x d).now = d.now := rfl
@[simp] theorem Dev.putCanopen_devTime (x : CanOpen) (d : Dev) : (Dev.putCanopen x d).devTime = d.devTime := rfl
@[simp] theorem Dev.putCanopen_rateAcc (x : CanOpen) (d : Dev) : (Dev.putCanopen x d).rateAcc = d.rateAcc := rfl
@[simp] theorem Dev.putCanopen_cyc (x : CanOpen) (d : Dev) : (Dev.putCanopen x d).cyc = d.cyc := rfl
@[simp] theorem Dev.putCanopen_readData (x : CanOpen) (d : Dev) : (Dev.putCanopen x d).readData = d.readData := rfl
@[simp] theorem Dev.putCanopen_freeCount (x : CanOpen) (d : Dev) : (Dev.putCanopen x d).freeCount = d.freeCount := rfl
@[simp] theorem Dev.putCanopen_timeHi (x : CanOpen) (d : Dev) : (Dev.putCanopen x d).timeHi = d.timeHi := rfl
@[simp] theorem Dev.putCanopen_activeSeen (x : CanOpen) (d : Dev) : (Dev.putCanopen x d).activeSeen = d.activeSeen := rfl
@[simp] theorem Dev.putCanopen_dramAt (x : CanOpen) (d : Dev) : (Dev.putCanopen x d).dramAt = d.dramAt := rfl
@[simp] theorem Dev.putCanopen_romAt (x : CanOpen) (d : Dev) : (Dev.putCanopen x d).romAt = d.romAt := rfl
@[simp] theorem Dev.putCanopen_flashSize (x : CanOpen) (d : Dev) : (Dev.putCanopen x d).flashSize = d.flashSize := rfl
@[simp] theorem Dev.putCanopen_syncOutAt (x : CanOpen) (d : Dev) : (Dev.putCanopen x d).syncOutAt = d.syncOutAt := rfl
@[simp] theorem Dev.putCanopen_reset (x : CanOpen) (d : Dev) : (Dev.putCanopen x d).reset = d.reset := rfl
@[simp] theorem Dev.putCanopen_supplies (x : CanOpen) (d : Dev) : (Dev.putCanopen x d).supplies = d.supplies := rfl
@[simp] theorem Dev.putCanopen_clocks (x : CanOpen) (d : Dev) : (Dev.putCanopen x d).clocks = d.clocks := rfl
@[simp] theorem Dev.putCanopen_loader (x : CanOpen) (d : Dev) : (Dev.putCanopen x d).loader = d.loader := rfl
@[simp] theorem Dev.putCanopen_fuses (x : CanOpen) (d : Dev) : (Dev.putCanopen x d).fuses = d.fuses := rfl
@[simp] theorem Dev.putCanopen_bootsel (x : CanOpen) (d : Dev) : (Dev.putCanopen x d).bootsel = d.bootsel := rfl
@[simp] theorem Dev.putCanopen_engines (x : CanOpen) (d : Dev) : (Dev.putCanopen x d).engines = d.engines := rfl
@[simp] theorem Dev.putCanopen_groups (x : CanOpen) (d : Dev) : (Dev.putCanopen x d).groups = d.groups := rfl
@[simp] theorem Dev.putCanopen_tripIn (x : CanOpen) (d : Dev) : (Dev.putCanopen x d).tripIn = d.tripIn := rfl
@[simp] theorem Dev.putCanopen_lanes (x : CanOpen) (d : Dev) : (Dev.putCanopen x d).lanes = d.lanes := rfl
@[simp] theorem Dev.putCanopen_conv (x : CanOpen) (d : Dev) : (Dev.putCanopen x d).conv = d.conv := rfl
@[simp] theorem Dev.putCanopen_acc (x : CanOpen) (d : Dev) : (Dev.putCanopen x d).acc = d.acc := rfl
@[simp] theorem Dev.putCanopen_mmx (x : CanOpen) (d : Dev) : (Dev.putCanopen x d).mmx = d.mmx := rfl
@[simp] theorem Dev.putCanopen_trims (x : CanOpen) (d : Dev) : (Dev.putCanopen x d).trims = d.trims := rfl
@[simp] theorem Dev.putCanopen_cmps (x : CanOpen) (d : Dev) : (Dev.putCanopen x d).cmps = d.cmps := rfl
@[simp] theorem Dev.putCanopen_cal (x : CanOpen) (d : Dev) : (Dev.putCanopen x d).cal = d.cal := rfl
@[simp] theorem Dev.putCanopen_acq (x : CanOpen) (d : Dev) : (Dev.putCanopen x d).acq = d.acq := rfl
@[simp] theorem Dev.putCanopen_pos (x : CanOpen) (d : Dev) : (Dev.putCanopen x d).pos = d.pos := rfl
@[simp] theorem Dev.putCanopen_mc (x : CanOpen) (d : Dev) : (Dev.putCanopen x d).mc = d.mc := rfl
@[simp] theorem Dev.putCanopen_triad (x : CanOpen) (d : Dev) : (Dev.putCanopen x d).triad = d.triad := rfl
@[simp] theorem Dev.putCanopen_sloe (x : CanOpen) (d : Dev) : (Dev.putCanopen x d).sloe = d.sloe := rfl
@[simp] theorem Dev.putCanopen_can (x : CanOpen) (d : Dev) : (Dev.putCanopen x d).can = d.can := rfl
@[simp] theorem Dev.putCanopen_crcs (x : CanOpen) (d : Dev) : (Dev.putCanopen x d).crcs = d.crcs := rfl
@[simp] theorem Dev.putCanopen_capture (x : CanOpen) (d : Dev) : (Dev.putCanopen x d).capture = d.capture := rfl
@[simp] theorem Dev.putCanopen_mgmt (x : CanOpen) (d : Dev) : (Dev.putCanopen x d).mgmt = d.mgmt := rfl
@[simp] theorem Dev.putCanopen_host (x : CanOpen) (d : Dev) : (Dev.putCanopen x d).host = d.host := rfl
@[simp] theorem Dev.putCanopen_net (x : CanOpen) (d : Dev) : (Dev.putCanopen x d).net = d.net := rfl
@[simp] theorem Dev.putCanopen_canopen (x : CanOpen) (d : Dev) : (Dev.putCanopen x d).canopen = x := rfl
@[simp] theorem Dev.putCanopen_gpioIn (x : CanOpen) (d : Dev) : (Dev.putCanopen x d).gpioIn = d.gpioIn := rfl
@[simp] theorem Dev.putCanopen_padHeld (x : CanOpen) (d : Dev) : (Dev.putCanopen x d).padHeld = d.padHeld := rfl

@[simp] theorem Dev.putCanopen_reg (x : CanOpen) (d : Dev) (k : Nat) : (Dev.putCanopen x d).reg k = d.reg k := rfl
@[simp] theorem Dev.putCanopen_sh (x : CanOpen) (d : Dev) (k : Nat) : (Dev.putCanopen x d).sh k = d.sh k := rfl

@[simp] theorem Dev.putGpioIn_regs (x : BitVec 32) (d : Dev) : (Dev.putGpioIn x d).regs = d.regs := rfl
@[simp] theorem Dev.putGpioIn_shadow (x : BitVec 32) (d : Dev) : (Dev.putGpioIn x d).shadow = d.shadow := rfl
@[simp] theorem Dev.putGpioIn_mem (x : BitVec 32) (d : Dev) : (Dev.putGpioIn x d).mem = d.mem := rfl
@[simp] theorem Dev.putGpioIn_triadMem (x : BitVec 32) (d : Dev) : (Dev.putGpioIn x d).triadMem = d.triadMem := rfl
@[simp] theorem Dev.putGpioIn_dram (x : BitVec 32) (d : Dev) : (Dev.putGpioIn x d).dram = d.dram := rfl
@[simp] theorem Dev.putGpioIn_flash (x : BitVec 32) (d : Dev) : (Dev.putGpioIn x d).flash = d.flash := rfl
@[simp] theorem Dev.putGpioIn_dramEpoch (x : BitVec 32) (d : Dev) : (Dev.putGpioIn x d).dramEpoch = d.dramEpoch := rfl
@[simp] theorem Dev.putGpioIn_now (x : BitVec 32) (d : Dev) : (Dev.putGpioIn x d).now = d.now := rfl
@[simp] theorem Dev.putGpioIn_devTime (x : BitVec 32) (d : Dev) : (Dev.putGpioIn x d).devTime = d.devTime := rfl
@[simp] theorem Dev.putGpioIn_rateAcc (x : BitVec 32) (d : Dev) : (Dev.putGpioIn x d).rateAcc = d.rateAcc := rfl
@[simp] theorem Dev.putGpioIn_cyc (x : BitVec 32) (d : Dev) : (Dev.putGpioIn x d).cyc = d.cyc := rfl
@[simp] theorem Dev.putGpioIn_readData (x : BitVec 32) (d : Dev) : (Dev.putGpioIn x d).readData = d.readData := rfl
@[simp] theorem Dev.putGpioIn_freeCount (x : BitVec 32) (d : Dev) : (Dev.putGpioIn x d).freeCount = d.freeCount := rfl
@[simp] theorem Dev.putGpioIn_timeHi (x : BitVec 32) (d : Dev) : (Dev.putGpioIn x d).timeHi = d.timeHi := rfl
@[simp] theorem Dev.putGpioIn_activeSeen (x : BitVec 32) (d : Dev) : (Dev.putGpioIn x d).activeSeen = d.activeSeen := rfl
@[simp] theorem Dev.putGpioIn_dramAt (x : BitVec 32) (d : Dev) : (Dev.putGpioIn x d).dramAt = d.dramAt := rfl
@[simp] theorem Dev.putGpioIn_romAt (x : BitVec 32) (d : Dev) : (Dev.putGpioIn x d).romAt = d.romAt := rfl
@[simp] theorem Dev.putGpioIn_flashSize (x : BitVec 32) (d : Dev) : (Dev.putGpioIn x d).flashSize = d.flashSize := rfl
@[simp] theorem Dev.putGpioIn_syncOutAt (x : BitVec 32) (d : Dev) : (Dev.putGpioIn x d).syncOutAt = d.syncOutAt := rfl
@[simp] theorem Dev.putGpioIn_reset (x : BitVec 32) (d : Dev) : (Dev.putGpioIn x d).reset = d.reset := rfl
@[simp] theorem Dev.putGpioIn_supplies (x : BitVec 32) (d : Dev) : (Dev.putGpioIn x d).supplies = d.supplies := rfl
@[simp] theorem Dev.putGpioIn_clocks (x : BitVec 32) (d : Dev) : (Dev.putGpioIn x d).clocks = d.clocks := rfl
@[simp] theorem Dev.putGpioIn_loader (x : BitVec 32) (d : Dev) : (Dev.putGpioIn x d).loader = d.loader := rfl
@[simp] theorem Dev.putGpioIn_fuses (x : BitVec 32) (d : Dev) : (Dev.putGpioIn x d).fuses = d.fuses := rfl
@[simp] theorem Dev.putGpioIn_bootsel (x : BitVec 32) (d : Dev) : (Dev.putGpioIn x d).bootsel = d.bootsel := rfl
@[simp] theorem Dev.putGpioIn_engines (x : BitVec 32) (d : Dev) : (Dev.putGpioIn x d).engines = d.engines := rfl
@[simp] theorem Dev.putGpioIn_groups (x : BitVec 32) (d : Dev) : (Dev.putGpioIn x d).groups = d.groups := rfl
@[simp] theorem Dev.putGpioIn_tripIn (x : BitVec 32) (d : Dev) : (Dev.putGpioIn x d).tripIn = d.tripIn := rfl
@[simp] theorem Dev.putGpioIn_lanes (x : BitVec 32) (d : Dev) : (Dev.putGpioIn x d).lanes = d.lanes := rfl
@[simp] theorem Dev.putGpioIn_conv (x : BitVec 32) (d : Dev) : (Dev.putGpioIn x d).conv = d.conv := rfl
@[simp] theorem Dev.putGpioIn_acc (x : BitVec 32) (d : Dev) : (Dev.putGpioIn x d).acc = d.acc := rfl
@[simp] theorem Dev.putGpioIn_mmx (x : BitVec 32) (d : Dev) : (Dev.putGpioIn x d).mmx = d.mmx := rfl
@[simp] theorem Dev.putGpioIn_trims (x : BitVec 32) (d : Dev) : (Dev.putGpioIn x d).trims = d.trims := rfl
@[simp] theorem Dev.putGpioIn_cmps (x : BitVec 32) (d : Dev) : (Dev.putGpioIn x d).cmps = d.cmps := rfl
@[simp] theorem Dev.putGpioIn_cal (x : BitVec 32) (d : Dev) : (Dev.putGpioIn x d).cal = d.cal := rfl
@[simp] theorem Dev.putGpioIn_acq (x : BitVec 32) (d : Dev) : (Dev.putGpioIn x d).acq = d.acq := rfl
@[simp] theorem Dev.putGpioIn_pos (x : BitVec 32) (d : Dev) : (Dev.putGpioIn x d).pos = d.pos := rfl
@[simp] theorem Dev.putGpioIn_mc (x : BitVec 32) (d : Dev) : (Dev.putGpioIn x d).mc = d.mc := rfl
@[simp] theorem Dev.putGpioIn_triad (x : BitVec 32) (d : Dev) : (Dev.putGpioIn x d).triad = d.triad := rfl
@[simp] theorem Dev.putGpioIn_sloe (x : BitVec 32) (d : Dev) : (Dev.putGpioIn x d).sloe = d.sloe := rfl
@[simp] theorem Dev.putGpioIn_can (x : BitVec 32) (d : Dev) : (Dev.putGpioIn x d).can = d.can := rfl
@[simp] theorem Dev.putGpioIn_crcs (x : BitVec 32) (d : Dev) : (Dev.putGpioIn x d).crcs = d.crcs := rfl
@[simp] theorem Dev.putGpioIn_capture (x : BitVec 32) (d : Dev) : (Dev.putGpioIn x d).capture = d.capture := rfl
@[simp] theorem Dev.putGpioIn_mgmt (x : BitVec 32) (d : Dev) : (Dev.putGpioIn x d).mgmt = d.mgmt := rfl
@[simp] theorem Dev.putGpioIn_host (x : BitVec 32) (d : Dev) : (Dev.putGpioIn x d).host = d.host := rfl
@[simp] theorem Dev.putGpioIn_net (x : BitVec 32) (d : Dev) : (Dev.putGpioIn x d).net = d.net := rfl
@[simp] theorem Dev.putGpioIn_canopen (x : BitVec 32) (d : Dev) : (Dev.putGpioIn x d).canopen = d.canopen := rfl
@[simp] theorem Dev.putGpioIn_gpioIn (x : BitVec 32) (d : Dev) : (Dev.putGpioIn x d).gpioIn = x := rfl
@[simp] theorem Dev.putGpioIn_padHeld (x : BitVec 32) (d : Dev) : (Dev.putGpioIn x d).padHeld = d.padHeld := rfl

@[simp] theorem Dev.putGpioIn_reg (x : BitVec 32) (d : Dev) (k : Nat) : (Dev.putGpioIn x d).reg k = d.reg k := rfl
@[simp] theorem Dev.putGpioIn_sh (x : BitVec 32) (d : Dev) (k : Nat) : (Dev.putGpioIn x d).sh k = d.sh k := rfl

@[simp] theorem Dev.putPadHeld_regs (x : List (Nat × Word)) (d : Dev) : (Dev.putPadHeld x d).regs = d.regs := rfl
@[simp] theorem Dev.putPadHeld_shadow (x : List (Nat × Word)) (d : Dev) : (Dev.putPadHeld x d).shadow = d.shadow := rfl
@[simp] theorem Dev.putPadHeld_mem (x : List (Nat × Word)) (d : Dev) : (Dev.putPadHeld x d).mem = d.mem := rfl
@[simp] theorem Dev.putPadHeld_triadMem (x : List (Nat × Word)) (d : Dev) : (Dev.putPadHeld x d).triadMem = d.triadMem := rfl
@[simp] theorem Dev.putPadHeld_dram (x : List (Nat × Word)) (d : Dev) : (Dev.putPadHeld x d).dram = d.dram := rfl
@[simp] theorem Dev.putPadHeld_flash (x : List (Nat × Word)) (d : Dev) : (Dev.putPadHeld x d).flash = d.flash := rfl
@[simp] theorem Dev.putPadHeld_dramEpoch (x : List (Nat × Word)) (d : Dev) : (Dev.putPadHeld x d).dramEpoch = d.dramEpoch := rfl
@[simp] theorem Dev.putPadHeld_now (x : List (Nat × Word)) (d : Dev) : (Dev.putPadHeld x d).now = d.now := rfl
@[simp] theorem Dev.putPadHeld_devTime (x : List (Nat × Word)) (d : Dev) : (Dev.putPadHeld x d).devTime = d.devTime := rfl
@[simp] theorem Dev.putPadHeld_rateAcc (x : List (Nat × Word)) (d : Dev) : (Dev.putPadHeld x d).rateAcc = d.rateAcc := rfl
@[simp] theorem Dev.putPadHeld_cyc (x : List (Nat × Word)) (d : Dev) : (Dev.putPadHeld x d).cyc = d.cyc := rfl
@[simp] theorem Dev.putPadHeld_readData (x : List (Nat × Word)) (d : Dev) : (Dev.putPadHeld x d).readData = d.readData := rfl
@[simp] theorem Dev.putPadHeld_freeCount (x : List (Nat × Word)) (d : Dev) : (Dev.putPadHeld x d).freeCount = d.freeCount := rfl
@[simp] theorem Dev.putPadHeld_timeHi (x : List (Nat × Word)) (d : Dev) : (Dev.putPadHeld x d).timeHi = d.timeHi := rfl
@[simp] theorem Dev.putPadHeld_activeSeen (x : List (Nat × Word)) (d : Dev) : (Dev.putPadHeld x d).activeSeen = d.activeSeen := rfl
@[simp] theorem Dev.putPadHeld_dramAt (x : List (Nat × Word)) (d : Dev) : (Dev.putPadHeld x d).dramAt = d.dramAt := rfl
@[simp] theorem Dev.putPadHeld_romAt (x : List (Nat × Word)) (d : Dev) : (Dev.putPadHeld x d).romAt = d.romAt := rfl
@[simp] theorem Dev.putPadHeld_flashSize (x : List (Nat × Word)) (d : Dev) : (Dev.putPadHeld x d).flashSize = d.flashSize := rfl
@[simp] theorem Dev.putPadHeld_syncOutAt (x : List (Nat × Word)) (d : Dev) : (Dev.putPadHeld x d).syncOutAt = d.syncOutAt := rfl
@[simp] theorem Dev.putPadHeld_reset (x : List (Nat × Word)) (d : Dev) : (Dev.putPadHeld x d).reset = d.reset := rfl
@[simp] theorem Dev.putPadHeld_supplies (x : List (Nat × Word)) (d : Dev) : (Dev.putPadHeld x d).supplies = d.supplies := rfl
@[simp] theorem Dev.putPadHeld_clocks (x : List (Nat × Word)) (d : Dev) : (Dev.putPadHeld x d).clocks = d.clocks := rfl
@[simp] theorem Dev.putPadHeld_loader (x : List (Nat × Word)) (d : Dev) : (Dev.putPadHeld x d).loader = d.loader := rfl
@[simp] theorem Dev.putPadHeld_fuses (x : List (Nat × Word)) (d : Dev) : (Dev.putPadHeld x d).fuses = d.fuses := rfl
@[simp] theorem Dev.putPadHeld_bootsel (x : List (Nat × Word)) (d : Dev) : (Dev.putPadHeld x d).bootsel = d.bootsel := rfl
@[simp] theorem Dev.putPadHeld_engines (x : List (Nat × Word)) (d : Dev) : (Dev.putPadHeld x d).engines = d.engines := rfl
@[simp] theorem Dev.putPadHeld_groups (x : List (Nat × Word)) (d : Dev) : (Dev.putPadHeld x d).groups = d.groups := rfl
@[simp] theorem Dev.putPadHeld_tripIn (x : List (Nat × Word)) (d : Dev) : (Dev.putPadHeld x d).tripIn = d.tripIn := rfl
@[simp] theorem Dev.putPadHeld_lanes (x : List (Nat × Word)) (d : Dev) : (Dev.putPadHeld x d).lanes = d.lanes := rfl
@[simp] theorem Dev.putPadHeld_conv (x : List (Nat × Word)) (d : Dev) : (Dev.putPadHeld x d).conv = d.conv := rfl
@[simp] theorem Dev.putPadHeld_acc (x : List (Nat × Word)) (d : Dev) : (Dev.putPadHeld x d).acc = d.acc := rfl
@[simp] theorem Dev.putPadHeld_mmx (x : List (Nat × Word)) (d : Dev) : (Dev.putPadHeld x d).mmx = d.mmx := rfl
@[simp] theorem Dev.putPadHeld_trims (x : List (Nat × Word)) (d : Dev) : (Dev.putPadHeld x d).trims = d.trims := rfl
@[simp] theorem Dev.putPadHeld_cmps (x : List (Nat × Word)) (d : Dev) : (Dev.putPadHeld x d).cmps = d.cmps := rfl
@[simp] theorem Dev.putPadHeld_cal (x : List (Nat × Word)) (d : Dev) : (Dev.putPadHeld x d).cal = d.cal := rfl
@[simp] theorem Dev.putPadHeld_acq (x : List (Nat × Word)) (d : Dev) : (Dev.putPadHeld x d).acq = d.acq := rfl
@[simp] theorem Dev.putPadHeld_pos (x : List (Nat × Word)) (d : Dev) : (Dev.putPadHeld x d).pos = d.pos := rfl
@[simp] theorem Dev.putPadHeld_mc (x : List (Nat × Word)) (d : Dev) : (Dev.putPadHeld x d).mc = d.mc := rfl
@[simp] theorem Dev.putPadHeld_triad (x : List (Nat × Word)) (d : Dev) : (Dev.putPadHeld x d).triad = d.triad := rfl
@[simp] theorem Dev.putPadHeld_sloe (x : List (Nat × Word)) (d : Dev) : (Dev.putPadHeld x d).sloe = d.sloe := rfl
@[simp] theorem Dev.putPadHeld_can (x : List (Nat × Word)) (d : Dev) : (Dev.putPadHeld x d).can = d.can := rfl
@[simp] theorem Dev.putPadHeld_crcs (x : List (Nat × Word)) (d : Dev) : (Dev.putPadHeld x d).crcs = d.crcs := rfl
@[simp] theorem Dev.putPadHeld_capture (x : List (Nat × Word)) (d : Dev) : (Dev.putPadHeld x d).capture = d.capture := rfl
@[simp] theorem Dev.putPadHeld_mgmt (x : List (Nat × Word)) (d : Dev) : (Dev.putPadHeld x d).mgmt = d.mgmt := rfl
@[simp] theorem Dev.putPadHeld_host (x : List (Nat × Word)) (d : Dev) : (Dev.putPadHeld x d).host = d.host := rfl
@[simp] theorem Dev.putPadHeld_net (x : List (Nat × Word)) (d : Dev) : (Dev.putPadHeld x d).net = d.net := rfl
@[simp] theorem Dev.putPadHeld_canopen (x : List (Nat × Word)) (d : Dev) : (Dev.putPadHeld x d).canopen = d.canopen := rfl
@[simp] theorem Dev.putPadHeld_gpioIn (x : List (Nat × Word)) (d : Dev) : (Dev.putPadHeld x d).gpioIn = d.gpioIn := rfl
@[simp] theorem Dev.putPadHeld_padHeld (x : List (Nat × Word)) (d : Dev) : (Dev.putPadHeld x d).padHeld = x := rfl

@[simp] theorem Dev.putPadHeld_reg (x : List (Nat × Word)) (d : Dev) (k : Nat) : (Dev.putPadHeld x d).reg k = d.reg k := rfl
@[simp] theorem Dev.putPadHeld_sh (x : List (Nat × Word)) (d : Dev) (k : Nat) : (Dev.putPadHeld x d).sh k = d.sh k := rfl

/-! ### One unit changed -/

@[simp] theorem Dev.modAcq_regs (f : AcqSys → AcqSys) (d : Dev) : (Dev.modAcq f d).regs = d.regs := rfl
@[simp] theorem Dev.modAcq_shadow (f : AcqSys → AcqSys) (d : Dev) : (Dev.modAcq f d).shadow = d.shadow := rfl
@[simp] theorem Dev.modAcq_mem (f : AcqSys → AcqSys) (d : Dev) : (Dev.modAcq f d).mem = d.mem := rfl
@[simp] theorem Dev.modAcq_triadMem (f : AcqSys → AcqSys) (d : Dev) : (Dev.modAcq f d).triadMem = d.triadMem := rfl
@[simp] theorem Dev.modAcq_dram (f : AcqSys → AcqSys) (d : Dev) : (Dev.modAcq f d).dram = d.dram := rfl
@[simp] theorem Dev.modAcq_flash (f : AcqSys → AcqSys) (d : Dev) : (Dev.modAcq f d).flash = d.flash := rfl
@[simp] theorem Dev.modAcq_dramEpoch (f : AcqSys → AcqSys) (d : Dev) : (Dev.modAcq f d).dramEpoch = d.dramEpoch := rfl
@[simp] theorem Dev.modAcq_now (f : AcqSys → AcqSys) (d : Dev) : (Dev.modAcq f d).now = d.now := rfl
@[simp] theorem Dev.modAcq_devTime (f : AcqSys → AcqSys) (d : Dev) : (Dev.modAcq f d).devTime = d.devTime := rfl
@[simp] theorem Dev.modAcq_rateAcc (f : AcqSys → AcqSys) (d : Dev) : (Dev.modAcq f d).rateAcc = d.rateAcc := rfl
@[simp] theorem Dev.modAcq_cyc (f : AcqSys → AcqSys) (d : Dev) : (Dev.modAcq f d).cyc = d.cyc := rfl
@[simp] theorem Dev.modAcq_readData (f : AcqSys → AcqSys) (d : Dev) : (Dev.modAcq f d).readData = d.readData := rfl
@[simp] theorem Dev.modAcq_freeCount (f : AcqSys → AcqSys) (d : Dev) : (Dev.modAcq f d).freeCount = d.freeCount := rfl
@[simp] theorem Dev.modAcq_timeHi (f : AcqSys → AcqSys) (d : Dev) : (Dev.modAcq f d).timeHi = d.timeHi := rfl
@[simp] theorem Dev.modAcq_activeSeen (f : AcqSys → AcqSys) (d : Dev) : (Dev.modAcq f d).activeSeen = d.activeSeen := rfl
@[simp] theorem Dev.modAcq_dramAt (f : AcqSys → AcqSys) (d : Dev) : (Dev.modAcq f d).dramAt = d.dramAt := rfl
@[simp] theorem Dev.modAcq_romAt (f : AcqSys → AcqSys) (d : Dev) : (Dev.modAcq f d).romAt = d.romAt := rfl
@[simp] theorem Dev.modAcq_flashSize (f : AcqSys → AcqSys) (d : Dev) : (Dev.modAcq f d).flashSize = d.flashSize := rfl
@[simp] theorem Dev.modAcq_syncOutAt (f : AcqSys → AcqSys) (d : Dev) : (Dev.modAcq f d).syncOutAt = d.syncOutAt := rfl
@[simp] theorem Dev.modAcq_reset (f : AcqSys → AcqSys) (d : Dev) : (Dev.modAcq f d).reset = d.reset := rfl
@[simp] theorem Dev.modAcq_supplies (f : AcqSys → AcqSys) (d : Dev) : (Dev.modAcq f d).supplies = d.supplies := rfl
@[simp] theorem Dev.modAcq_clocks (f : AcqSys → AcqSys) (d : Dev) : (Dev.modAcq f d).clocks = d.clocks := rfl
@[simp] theorem Dev.modAcq_loader (f : AcqSys → AcqSys) (d : Dev) : (Dev.modAcq f d).loader = d.loader := rfl
@[simp] theorem Dev.modAcq_fuses (f : AcqSys → AcqSys) (d : Dev) : (Dev.modAcq f d).fuses = d.fuses := rfl
@[simp] theorem Dev.modAcq_bootsel (f : AcqSys → AcqSys) (d : Dev) : (Dev.modAcq f d).bootsel = d.bootsel := rfl
@[simp] theorem Dev.modAcq_engines (f : AcqSys → AcqSys) (d : Dev) : (Dev.modAcq f d).engines = d.engines := rfl
@[simp] theorem Dev.modAcq_groups (f : AcqSys → AcqSys) (d : Dev) : (Dev.modAcq f d).groups = d.groups := rfl
@[simp] theorem Dev.modAcq_tripIn (f : AcqSys → AcqSys) (d : Dev) : (Dev.modAcq f d).tripIn = d.tripIn := rfl
@[simp] theorem Dev.modAcq_lanes (f : AcqSys → AcqSys) (d : Dev) : (Dev.modAcq f d).lanes = d.lanes := rfl
@[simp] theorem Dev.modAcq_conv (f : AcqSys → AcqSys) (d : Dev) : (Dev.modAcq f d).conv = d.conv := rfl
@[simp] theorem Dev.modAcq_acc (f : AcqSys → AcqSys) (d : Dev) : (Dev.modAcq f d).acc = d.acc := rfl
@[simp] theorem Dev.modAcq_mmx (f : AcqSys → AcqSys) (d : Dev) : (Dev.modAcq f d).mmx = d.mmx := rfl
@[simp] theorem Dev.modAcq_trims (f : AcqSys → AcqSys) (d : Dev) : (Dev.modAcq f d).trims = d.trims := rfl
@[simp] theorem Dev.modAcq_cmps (f : AcqSys → AcqSys) (d : Dev) : (Dev.modAcq f d).cmps = d.cmps := rfl
@[simp] theorem Dev.modAcq_cal (f : AcqSys → AcqSys) (d : Dev) : (Dev.modAcq f d).cal = d.cal := rfl
@[simp] theorem Dev.modAcq_acq (f : AcqSys → AcqSys) (d : Dev) : (Dev.modAcq f d).acq = f d.acq := rfl
@[simp] theorem Dev.modAcq_pos (f : AcqSys → AcqSys) (d : Dev) : (Dev.modAcq f d).pos = d.pos := rfl
@[simp] theorem Dev.modAcq_mc (f : AcqSys → AcqSys) (d : Dev) : (Dev.modAcq f d).mc = d.mc := rfl
@[simp] theorem Dev.modAcq_triad (f : AcqSys → AcqSys) (d : Dev) : (Dev.modAcq f d).triad = d.triad := rfl
@[simp] theorem Dev.modAcq_sloe (f : AcqSys → AcqSys) (d : Dev) : (Dev.modAcq f d).sloe = d.sloe := rfl
@[simp] theorem Dev.modAcq_can (f : AcqSys → AcqSys) (d : Dev) : (Dev.modAcq f d).can = d.can := rfl
@[simp] theorem Dev.modAcq_crcs (f : AcqSys → AcqSys) (d : Dev) : (Dev.modAcq f d).crcs = d.crcs := rfl
@[simp] theorem Dev.modAcq_capture (f : AcqSys → AcqSys) (d : Dev) : (Dev.modAcq f d).capture = d.capture := rfl
@[simp] theorem Dev.modAcq_mgmt (f : AcqSys → AcqSys) (d : Dev) : (Dev.modAcq f d).mgmt = d.mgmt := rfl
@[simp] theorem Dev.modAcq_host (f : AcqSys → AcqSys) (d : Dev) : (Dev.modAcq f d).host = d.host := rfl
@[simp] theorem Dev.modAcq_net (f : AcqSys → AcqSys) (d : Dev) : (Dev.modAcq f d).net = d.net := rfl
@[simp] theorem Dev.modAcq_canopen (f : AcqSys → AcqSys) (d : Dev) : (Dev.modAcq f d).canopen = d.canopen := rfl
@[simp] theorem Dev.modAcq_gpioIn (f : AcqSys → AcqSys) (d : Dev) : (Dev.modAcq f d).gpioIn = d.gpioIn := rfl
@[simp] theorem Dev.modAcq_padHeld (f : AcqSys → AcqSys) (d : Dev) : (Dev.modAcq f d).padHeld = d.padHeld := rfl

@[simp] theorem Dev.modAcq_reg (f : AcqSys → AcqSys) (d : Dev) (k : Nat) : (Dev.modAcq f d).reg k = d.reg k := rfl
@[simp] theorem Dev.modAcq_sh (f : AcqSys → AcqSys) (d : Dev) (k : Nat) : (Dev.modAcq f d).sh k = d.sh k := rfl

@[simp] theorem Dev.modCrc_regs (n : Nat) (f : CrcRun → CrcRun) (d : Dev) : (Dev.modCrc n f d).regs = d.regs := rfl
@[simp] theorem Dev.modCrc_shadow (n : Nat) (f : CrcRun → CrcRun) (d : Dev) : (Dev.modCrc n f d).shadow = d.shadow := rfl
@[simp] theorem Dev.modCrc_mem (n : Nat) (f : CrcRun → CrcRun) (d : Dev) : (Dev.modCrc n f d).mem = d.mem := rfl
@[simp] theorem Dev.modCrc_triadMem (n : Nat) (f : CrcRun → CrcRun) (d : Dev) : (Dev.modCrc n f d).triadMem = d.triadMem := rfl
@[simp] theorem Dev.modCrc_dram (n : Nat) (f : CrcRun → CrcRun) (d : Dev) : (Dev.modCrc n f d).dram = d.dram := rfl
@[simp] theorem Dev.modCrc_flash (n : Nat) (f : CrcRun → CrcRun) (d : Dev) : (Dev.modCrc n f d).flash = d.flash := rfl
@[simp] theorem Dev.modCrc_dramEpoch (n : Nat) (f : CrcRun → CrcRun) (d : Dev) : (Dev.modCrc n f d).dramEpoch = d.dramEpoch := rfl
@[simp] theorem Dev.modCrc_now (n : Nat) (f : CrcRun → CrcRun) (d : Dev) : (Dev.modCrc n f d).now = d.now := rfl
@[simp] theorem Dev.modCrc_devTime (n : Nat) (f : CrcRun → CrcRun) (d : Dev) : (Dev.modCrc n f d).devTime = d.devTime := rfl
@[simp] theorem Dev.modCrc_rateAcc (n : Nat) (f : CrcRun → CrcRun) (d : Dev) : (Dev.modCrc n f d).rateAcc = d.rateAcc := rfl
@[simp] theorem Dev.modCrc_cyc (n : Nat) (f : CrcRun → CrcRun) (d : Dev) : (Dev.modCrc n f d).cyc = d.cyc := rfl
@[simp] theorem Dev.modCrc_readData (n : Nat) (f : CrcRun → CrcRun) (d : Dev) : (Dev.modCrc n f d).readData = d.readData := rfl
@[simp] theorem Dev.modCrc_freeCount (n : Nat) (f : CrcRun → CrcRun) (d : Dev) : (Dev.modCrc n f d).freeCount = d.freeCount := rfl
@[simp] theorem Dev.modCrc_timeHi (n : Nat) (f : CrcRun → CrcRun) (d : Dev) : (Dev.modCrc n f d).timeHi = d.timeHi := rfl
@[simp] theorem Dev.modCrc_activeSeen (n : Nat) (f : CrcRun → CrcRun) (d : Dev) : (Dev.modCrc n f d).activeSeen = d.activeSeen := rfl
@[simp] theorem Dev.modCrc_dramAt (n : Nat) (f : CrcRun → CrcRun) (d : Dev) : (Dev.modCrc n f d).dramAt = d.dramAt := rfl
@[simp] theorem Dev.modCrc_romAt (n : Nat) (f : CrcRun → CrcRun) (d : Dev) : (Dev.modCrc n f d).romAt = d.romAt := rfl
@[simp] theorem Dev.modCrc_flashSize (n : Nat) (f : CrcRun → CrcRun) (d : Dev) : (Dev.modCrc n f d).flashSize = d.flashSize := rfl
@[simp] theorem Dev.modCrc_syncOutAt (n : Nat) (f : CrcRun → CrcRun) (d : Dev) : (Dev.modCrc n f d).syncOutAt = d.syncOutAt := rfl
@[simp] theorem Dev.modCrc_reset (n : Nat) (f : CrcRun → CrcRun) (d : Dev) : (Dev.modCrc n f d).reset = d.reset := rfl
@[simp] theorem Dev.modCrc_supplies (n : Nat) (f : CrcRun → CrcRun) (d : Dev) : (Dev.modCrc n f d).supplies = d.supplies := rfl
@[simp] theorem Dev.modCrc_clocks (n : Nat) (f : CrcRun → CrcRun) (d : Dev) : (Dev.modCrc n f d).clocks = d.clocks := rfl
@[simp] theorem Dev.modCrc_loader (n : Nat) (f : CrcRun → CrcRun) (d : Dev) : (Dev.modCrc n f d).loader = d.loader := rfl
@[simp] theorem Dev.modCrc_fuses (n : Nat) (f : CrcRun → CrcRun) (d : Dev) : (Dev.modCrc n f d).fuses = d.fuses := rfl
@[simp] theorem Dev.modCrc_bootsel (n : Nat) (f : CrcRun → CrcRun) (d : Dev) : (Dev.modCrc n f d).bootsel = d.bootsel := rfl
@[simp] theorem Dev.modCrc_engines (n : Nat) (f : CrcRun → CrcRun) (d : Dev) : (Dev.modCrc n f d).engines = d.engines := rfl
@[simp] theorem Dev.modCrc_groups (n : Nat) (f : CrcRun → CrcRun) (d : Dev) : (Dev.modCrc n f d).groups = d.groups := rfl
@[simp] theorem Dev.modCrc_tripIn (n : Nat) (f : CrcRun → CrcRun) (d : Dev) : (Dev.modCrc n f d).tripIn = d.tripIn := rfl
@[simp] theorem Dev.modCrc_lanes (n : Nat) (f : CrcRun → CrcRun) (d : Dev) : (Dev.modCrc n f d).lanes = d.lanes := rfl
@[simp] theorem Dev.modCrc_conv (n : Nat) (f : CrcRun → CrcRun) (d : Dev) : (Dev.modCrc n f d).conv = d.conv := rfl
@[simp] theorem Dev.modCrc_acc (n : Nat) (f : CrcRun → CrcRun) (d : Dev) : (Dev.modCrc n f d).acc = d.acc := rfl
@[simp] theorem Dev.modCrc_mmx (n : Nat) (f : CrcRun → CrcRun) (d : Dev) : (Dev.modCrc n f d).mmx = d.mmx := rfl
@[simp] theorem Dev.modCrc_trims (n : Nat) (f : CrcRun → CrcRun) (d : Dev) : (Dev.modCrc n f d).trims = d.trims := rfl
@[simp] theorem Dev.modCrc_cmps (n : Nat) (f : CrcRun → CrcRun) (d : Dev) : (Dev.modCrc n f d).cmps = d.cmps := rfl
@[simp] theorem Dev.modCrc_cal (n : Nat) (f : CrcRun → CrcRun) (d : Dev) : (Dev.modCrc n f d).cal = d.cal := rfl
@[simp] theorem Dev.modCrc_acq (n : Nat) (f : CrcRun → CrcRun) (d : Dev) : (Dev.modCrc n f d).acq = d.acq := rfl
@[simp] theorem Dev.modCrc_pos (n : Nat) (f : CrcRun → CrcRun) (d : Dev) : (Dev.modCrc n f d).pos = d.pos := rfl
@[simp] theorem Dev.modCrc_mc (n : Nat) (f : CrcRun → CrcRun) (d : Dev) : (Dev.modCrc n f d).mc = d.mc := rfl
@[simp] theorem Dev.modCrc_triad (n : Nat) (f : CrcRun → CrcRun) (d : Dev) : (Dev.modCrc n f d).triad = d.triad := rfl
@[simp] theorem Dev.modCrc_sloe (n : Nat) (f : CrcRun → CrcRun) (d : Dev) : (Dev.modCrc n f d).sloe = d.sloe := rfl
@[simp] theorem Dev.modCrc_can (n : Nat) (f : CrcRun → CrcRun) (d : Dev) : (Dev.modCrc n f d).can = d.can := rfl
@[simp] theorem Dev.modCrc_crcs (n : Nat) (f : CrcRun → CrcRun) (d : Dev) : (Dev.modCrc n f d).crcs = vmod {} d.crcs n f := rfl
@[simp] theorem Dev.modCrc_capture (n : Nat) (f : CrcRun → CrcRun) (d : Dev) : (Dev.modCrc n f d).capture = d.capture := rfl
@[simp] theorem Dev.modCrc_mgmt (n : Nat) (f : CrcRun → CrcRun) (d : Dev) : (Dev.modCrc n f d).mgmt = d.mgmt := rfl
@[simp] theorem Dev.modCrc_host (n : Nat) (f : CrcRun → CrcRun) (d : Dev) : (Dev.modCrc n f d).host = d.host := rfl
@[simp] theorem Dev.modCrc_net (n : Nat) (f : CrcRun → CrcRun) (d : Dev) : (Dev.modCrc n f d).net = d.net := rfl
@[simp] theorem Dev.modCrc_canopen (n : Nat) (f : CrcRun → CrcRun) (d : Dev) : (Dev.modCrc n f d).canopen = d.canopen := rfl
@[simp] theorem Dev.modCrc_gpioIn (n : Nat) (f : CrcRun → CrcRun) (d : Dev) : (Dev.modCrc n f d).gpioIn = d.gpioIn := rfl
@[simp] theorem Dev.modCrc_padHeld (n : Nat) (f : CrcRun → CrcRun) (d : Dev) : (Dev.modCrc n f d).padHeld = d.padHeld := rfl

@[simp] theorem Dev.modCrc_reg (n : Nat) (f : CrcRun → CrcRun) (d : Dev) (k : Nat) : (Dev.modCrc n f d).reg k = d.reg k := rfl
@[simp] theorem Dev.modCrc_sh (n : Nat) (f : CrcRun → CrcRun) (d : Dev) (k : Nat) : (Dev.modCrc n f d).sh k = d.sh k := rfl

@[simp] theorem Dev.modEngine_regs (e : Nat) (f : Engine → Engine) (d : Dev) : (Dev.modEngine e f d).regs = d.regs := rfl
@[simp] theorem Dev.modEngine_shadow (e : Nat) (f : Engine → Engine) (d : Dev) : (Dev.modEngine e f d).shadow = d.shadow := rfl
@[simp] theorem Dev.modEngine_mem (e : Nat) (f : Engine → Engine) (d : Dev) : (Dev.modEngine e f d).mem = d.mem := rfl
@[simp] theorem Dev.modEngine_triadMem (e : Nat) (f : Engine → Engine) (d : Dev) : (Dev.modEngine e f d).triadMem = d.triadMem := rfl
@[simp] theorem Dev.modEngine_dram (e : Nat) (f : Engine → Engine) (d : Dev) : (Dev.modEngine e f d).dram = d.dram := rfl
@[simp] theorem Dev.modEngine_flash (e : Nat) (f : Engine → Engine) (d : Dev) : (Dev.modEngine e f d).flash = d.flash := rfl
@[simp] theorem Dev.modEngine_dramEpoch (e : Nat) (f : Engine → Engine) (d : Dev) : (Dev.modEngine e f d).dramEpoch = d.dramEpoch := rfl
@[simp] theorem Dev.modEngine_now (e : Nat) (f : Engine → Engine) (d : Dev) : (Dev.modEngine e f d).now = d.now := rfl
@[simp] theorem Dev.modEngine_devTime (e : Nat) (f : Engine → Engine) (d : Dev) : (Dev.modEngine e f d).devTime = d.devTime := rfl
@[simp] theorem Dev.modEngine_rateAcc (e : Nat) (f : Engine → Engine) (d : Dev) : (Dev.modEngine e f d).rateAcc = d.rateAcc := rfl
@[simp] theorem Dev.modEngine_cyc (e : Nat) (f : Engine → Engine) (d : Dev) : (Dev.modEngine e f d).cyc = d.cyc := rfl
@[simp] theorem Dev.modEngine_readData (e : Nat) (f : Engine → Engine) (d : Dev) : (Dev.modEngine e f d).readData = d.readData := rfl
@[simp] theorem Dev.modEngine_freeCount (e : Nat) (f : Engine → Engine) (d : Dev) : (Dev.modEngine e f d).freeCount = d.freeCount := rfl
@[simp] theorem Dev.modEngine_timeHi (e : Nat) (f : Engine → Engine) (d : Dev) : (Dev.modEngine e f d).timeHi = d.timeHi := rfl
@[simp] theorem Dev.modEngine_activeSeen (e : Nat) (f : Engine → Engine) (d : Dev) : (Dev.modEngine e f d).activeSeen = d.activeSeen := rfl
@[simp] theorem Dev.modEngine_dramAt (e : Nat) (f : Engine → Engine) (d : Dev) : (Dev.modEngine e f d).dramAt = d.dramAt := rfl
@[simp] theorem Dev.modEngine_romAt (e : Nat) (f : Engine → Engine) (d : Dev) : (Dev.modEngine e f d).romAt = d.romAt := rfl
@[simp] theorem Dev.modEngine_flashSize (e : Nat) (f : Engine → Engine) (d : Dev) : (Dev.modEngine e f d).flashSize = d.flashSize := rfl
@[simp] theorem Dev.modEngine_syncOutAt (e : Nat) (f : Engine → Engine) (d : Dev) : (Dev.modEngine e f d).syncOutAt = d.syncOutAt := rfl
@[simp] theorem Dev.modEngine_reset (e : Nat) (f : Engine → Engine) (d : Dev) : (Dev.modEngine e f d).reset = d.reset := rfl
@[simp] theorem Dev.modEngine_supplies (e : Nat) (f : Engine → Engine) (d : Dev) : (Dev.modEngine e f d).supplies = d.supplies := rfl
@[simp] theorem Dev.modEngine_clocks (e : Nat) (f : Engine → Engine) (d : Dev) : (Dev.modEngine e f d).clocks = d.clocks := rfl
@[simp] theorem Dev.modEngine_loader (e : Nat) (f : Engine → Engine) (d : Dev) : (Dev.modEngine e f d).loader = d.loader := rfl
@[simp] theorem Dev.modEngine_fuses (e : Nat) (f : Engine → Engine) (d : Dev) : (Dev.modEngine e f d).fuses = d.fuses := rfl
@[simp] theorem Dev.modEngine_bootsel (e : Nat) (f : Engine → Engine) (d : Dev) : (Dev.modEngine e f d).bootsel = d.bootsel := rfl
@[simp] theorem Dev.modEngine_engines (e : Nat) (f : Engine → Engine) (d : Dev) : (Dev.modEngine e f d).engines = vmod {} d.engines e f := rfl
@[simp] theorem Dev.modEngine_groups (e : Nat) (f : Engine → Engine) (d : Dev) : (Dev.modEngine e f d).groups = d.groups := rfl
@[simp] theorem Dev.modEngine_tripIn (e : Nat) (f : Engine → Engine) (d : Dev) : (Dev.modEngine e f d).tripIn = d.tripIn := rfl
@[simp] theorem Dev.modEngine_lanes (e : Nat) (f : Engine → Engine) (d : Dev) : (Dev.modEngine e f d).lanes = d.lanes := rfl
@[simp] theorem Dev.modEngine_conv (e : Nat) (f : Engine → Engine) (d : Dev) : (Dev.modEngine e f d).conv = d.conv := rfl
@[simp] theorem Dev.modEngine_acc (e : Nat) (f : Engine → Engine) (d : Dev) : (Dev.modEngine e f d).acc = d.acc := rfl
@[simp] theorem Dev.modEngine_mmx (e : Nat) (f : Engine → Engine) (d : Dev) : (Dev.modEngine e f d).mmx = d.mmx := rfl
@[simp] theorem Dev.modEngine_trims (e : Nat) (f : Engine → Engine) (d : Dev) : (Dev.modEngine e f d).trims = d.trims := rfl
@[simp] theorem Dev.modEngine_cmps (e : Nat) (f : Engine → Engine) (d : Dev) : (Dev.modEngine e f d).cmps = d.cmps := rfl
@[simp] theorem Dev.modEngine_cal (e : Nat) (f : Engine → Engine) (d : Dev) : (Dev.modEngine e f d).cal = d.cal := rfl
@[simp] theorem Dev.modEngine_acq (e : Nat) (f : Engine → Engine) (d : Dev) : (Dev.modEngine e f d).acq = d.acq := rfl
@[simp] theorem Dev.modEngine_pos (e : Nat) (f : Engine → Engine) (d : Dev) : (Dev.modEngine e f d).pos = d.pos := rfl
@[simp] theorem Dev.modEngine_mc (e : Nat) (f : Engine → Engine) (d : Dev) : (Dev.modEngine e f d).mc = d.mc := rfl
@[simp] theorem Dev.modEngine_triad (e : Nat) (f : Engine → Engine) (d : Dev) : (Dev.modEngine e f d).triad = d.triad := rfl
@[simp] theorem Dev.modEngine_sloe (e : Nat) (f : Engine → Engine) (d : Dev) : (Dev.modEngine e f d).sloe = d.sloe := rfl
@[simp] theorem Dev.modEngine_can (e : Nat) (f : Engine → Engine) (d : Dev) : (Dev.modEngine e f d).can = d.can := rfl
@[simp] theorem Dev.modEngine_crcs (e : Nat) (f : Engine → Engine) (d : Dev) : (Dev.modEngine e f d).crcs = d.crcs := rfl
@[simp] theorem Dev.modEngine_capture (e : Nat) (f : Engine → Engine) (d : Dev) : (Dev.modEngine e f d).capture = d.capture := rfl
@[simp] theorem Dev.modEngine_mgmt (e : Nat) (f : Engine → Engine) (d : Dev) : (Dev.modEngine e f d).mgmt = d.mgmt := rfl
@[simp] theorem Dev.modEngine_host (e : Nat) (f : Engine → Engine) (d : Dev) : (Dev.modEngine e f d).host = d.host := rfl
@[simp] theorem Dev.modEngine_net (e : Nat) (f : Engine → Engine) (d : Dev) : (Dev.modEngine e f d).net = d.net := rfl
@[simp] theorem Dev.modEngine_canopen (e : Nat) (f : Engine → Engine) (d : Dev) : (Dev.modEngine e f d).canopen = d.canopen := rfl
@[simp] theorem Dev.modEngine_gpioIn (e : Nat) (f : Engine → Engine) (d : Dev) : (Dev.modEngine e f d).gpioIn = d.gpioIn := rfl
@[simp] theorem Dev.modEngine_padHeld (e : Nat) (f : Engine → Engine) (d : Dev) : (Dev.modEngine e f d).padHeld = d.padHeld := rfl

@[simp] theorem Dev.modEngine_reg (e : Nat) (f : Engine → Engine) (d : Dev) (k : Nat) : (Dev.modEngine e f d).reg k = d.reg k := rfl
@[simp] theorem Dev.modEngine_sh (e : Nat) (f : Engine → Engine) (d : Dev) (k : Nat) : (Dev.modEngine e f d).sh k = d.sh k := rfl

@[simp] theorem Dev.modGroup_regs (g : Nat) (f : Group → Group) (d : Dev) : (Dev.modGroup g f d).regs = d.regs := rfl
@[simp] theorem Dev.modGroup_shadow (g : Nat) (f : Group → Group) (d : Dev) : (Dev.modGroup g f d).shadow = d.shadow := rfl
@[simp] theorem Dev.modGroup_mem (g : Nat) (f : Group → Group) (d : Dev) : (Dev.modGroup g f d).mem = d.mem := rfl
@[simp] theorem Dev.modGroup_triadMem (g : Nat) (f : Group → Group) (d : Dev) : (Dev.modGroup g f d).triadMem = d.triadMem := rfl
@[simp] theorem Dev.modGroup_dram (g : Nat) (f : Group → Group) (d : Dev) : (Dev.modGroup g f d).dram = d.dram := rfl
@[simp] theorem Dev.modGroup_flash (g : Nat) (f : Group → Group) (d : Dev) : (Dev.modGroup g f d).flash = d.flash := rfl
@[simp] theorem Dev.modGroup_dramEpoch (g : Nat) (f : Group → Group) (d : Dev) : (Dev.modGroup g f d).dramEpoch = d.dramEpoch := rfl
@[simp] theorem Dev.modGroup_now (g : Nat) (f : Group → Group) (d : Dev) : (Dev.modGroup g f d).now = d.now := rfl
@[simp] theorem Dev.modGroup_devTime (g : Nat) (f : Group → Group) (d : Dev) : (Dev.modGroup g f d).devTime = d.devTime := rfl
@[simp] theorem Dev.modGroup_rateAcc (g : Nat) (f : Group → Group) (d : Dev) : (Dev.modGroup g f d).rateAcc = d.rateAcc := rfl
@[simp] theorem Dev.modGroup_cyc (g : Nat) (f : Group → Group) (d : Dev) : (Dev.modGroup g f d).cyc = d.cyc := rfl
@[simp] theorem Dev.modGroup_readData (g : Nat) (f : Group → Group) (d : Dev) : (Dev.modGroup g f d).readData = d.readData := rfl
@[simp] theorem Dev.modGroup_freeCount (g : Nat) (f : Group → Group) (d : Dev) : (Dev.modGroup g f d).freeCount = d.freeCount := rfl
@[simp] theorem Dev.modGroup_timeHi (g : Nat) (f : Group → Group) (d : Dev) : (Dev.modGroup g f d).timeHi = d.timeHi := rfl
@[simp] theorem Dev.modGroup_activeSeen (g : Nat) (f : Group → Group) (d : Dev) : (Dev.modGroup g f d).activeSeen = d.activeSeen := rfl
@[simp] theorem Dev.modGroup_dramAt (g : Nat) (f : Group → Group) (d : Dev) : (Dev.modGroup g f d).dramAt = d.dramAt := rfl
@[simp] theorem Dev.modGroup_romAt (g : Nat) (f : Group → Group) (d : Dev) : (Dev.modGroup g f d).romAt = d.romAt := rfl
@[simp] theorem Dev.modGroup_flashSize (g : Nat) (f : Group → Group) (d : Dev) : (Dev.modGroup g f d).flashSize = d.flashSize := rfl
@[simp] theorem Dev.modGroup_syncOutAt (g : Nat) (f : Group → Group) (d : Dev) : (Dev.modGroup g f d).syncOutAt = d.syncOutAt := rfl
@[simp] theorem Dev.modGroup_reset (g : Nat) (f : Group → Group) (d : Dev) : (Dev.modGroup g f d).reset = d.reset := rfl
@[simp] theorem Dev.modGroup_supplies (g : Nat) (f : Group → Group) (d : Dev) : (Dev.modGroup g f d).supplies = d.supplies := rfl
@[simp] theorem Dev.modGroup_clocks (g : Nat) (f : Group → Group) (d : Dev) : (Dev.modGroup g f d).clocks = d.clocks := rfl
@[simp] theorem Dev.modGroup_loader (g : Nat) (f : Group → Group) (d : Dev) : (Dev.modGroup g f d).loader = d.loader := rfl
@[simp] theorem Dev.modGroup_fuses (g : Nat) (f : Group → Group) (d : Dev) : (Dev.modGroup g f d).fuses = d.fuses := rfl
@[simp] theorem Dev.modGroup_bootsel (g : Nat) (f : Group → Group) (d : Dev) : (Dev.modGroup g f d).bootsel = d.bootsel := rfl
@[simp] theorem Dev.modGroup_engines (g : Nat) (f : Group → Group) (d : Dev) : (Dev.modGroup g f d).engines = d.engines := rfl
@[simp] theorem Dev.modGroup_groups (g : Nat) (f : Group → Group) (d : Dev) : (Dev.modGroup g f d).groups = vmod {} d.groups g f := rfl
@[simp] theorem Dev.modGroup_tripIn (g : Nat) (f : Group → Group) (d : Dev) : (Dev.modGroup g f d).tripIn = d.tripIn := rfl
@[simp] theorem Dev.modGroup_lanes (g : Nat) (f : Group → Group) (d : Dev) : (Dev.modGroup g f d).lanes = d.lanes := rfl
@[simp] theorem Dev.modGroup_conv (g : Nat) (f : Group → Group) (d : Dev) : (Dev.modGroup g f d).conv = d.conv := rfl
@[simp] theorem Dev.modGroup_acc (g : Nat) (f : Group → Group) (d : Dev) : (Dev.modGroup g f d).acc = d.acc := rfl
@[simp] theorem Dev.modGroup_mmx (g : Nat) (f : Group → Group) (d : Dev) : (Dev.modGroup g f d).mmx = d.mmx := rfl
@[simp] theorem Dev.modGroup_trims (g : Nat) (f : Group → Group) (d : Dev) : (Dev.modGroup g f d).trims = d.trims := rfl
@[simp] theorem Dev.modGroup_cmps (g : Nat) (f : Group → Group) (d : Dev) : (Dev.modGroup g f d).cmps = d.cmps := rfl
@[simp] theorem Dev.modGroup_cal (g : Nat) (f : Group → Group) (d : Dev) : (Dev.modGroup g f d).cal = d.cal := rfl
@[simp] theorem Dev.modGroup_acq (g : Nat) (f : Group → Group) (d : Dev) : (Dev.modGroup g f d).acq = d.acq := rfl
@[simp] theorem Dev.modGroup_pos (g : Nat) (f : Group → Group) (d : Dev) : (Dev.modGroup g f d).pos = d.pos := rfl
@[simp] theorem Dev.modGroup_mc (g : Nat) (f : Group → Group) (d : Dev) : (Dev.modGroup g f d).mc = d.mc := rfl
@[simp] theorem Dev.modGroup_triad (g : Nat) (f : Group → Group) (d : Dev) : (Dev.modGroup g f d).triad = d.triad := rfl
@[simp] theorem Dev.modGroup_sloe (g : Nat) (f : Group → Group) (d : Dev) : (Dev.modGroup g f d).sloe = d.sloe := rfl
@[simp] theorem Dev.modGroup_can (g : Nat) (f : Group → Group) (d : Dev) : (Dev.modGroup g f d).can = d.can := rfl
@[simp] theorem Dev.modGroup_crcs (g : Nat) (f : Group → Group) (d : Dev) : (Dev.modGroup g f d).crcs = d.crcs := rfl
@[simp] theorem Dev.modGroup_capture (g : Nat) (f : Group → Group) (d : Dev) : (Dev.modGroup g f d).capture = d.capture := rfl
@[simp] theorem Dev.modGroup_mgmt (g : Nat) (f : Group → Group) (d : Dev) : (Dev.modGroup g f d).mgmt = d.mgmt := rfl
@[simp] theorem Dev.modGroup_host (g : Nat) (f : Group → Group) (d : Dev) : (Dev.modGroup g f d).host = d.host := rfl
@[simp] theorem Dev.modGroup_net (g : Nat) (f : Group → Group) (d : Dev) : (Dev.modGroup g f d).net = d.net := rfl
@[simp] theorem Dev.modGroup_canopen (g : Nat) (f : Group → Group) (d : Dev) : (Dev.modGroup g f d).canopen = d.canopen := rfl
@[simp] theorem Dev.modGroup_gpioIn (g : Nat) (f : Group → Group) (d : Dev) : (Dev.modGroup g f d).gpioIn = d.gpioIn := rfl
@[simp] theorem Dev.modGroup_padHeld (g : Nat) (f : Group → Group) (d : Dev) : (Dev.modGroup g f d).padHeld = d.padHeld := rfl

@[simp] theorem Dev.modGroup_reg (g : Nat) (f : Group → Group) (d : Dev) (k : Nat) : (Dev.modGroup g f d).reg k = d.reg k := rfl
@[simp] theorem Dev.modGroup_sh (g : Nat) (f : Group → Group) (d : Dev) (k : Nat) : (Dev.modGroup g f d).sh k = d.sh k := rfl

@[simp] theorem Dev.modLane_regs (n : Nat) (f : Lane → Lane) (d : Dev) : (Dev.modLane n f d).regs = d.regs := rfl
@[simp] theorem Dev.modLane_shadow (n : Nat) (f : Lane → Lane) (d : Dev) : (Dev.modLane n f d).shadow = d.shadow := rfl
@[simp] theorem Dev.modLane_mem (n : Nat) (f : Lane → Lane) (d : Dev) : (Dev.modLane n f d).mem = d.mem := rfl
@[simp] theorem Dev.modLane_triadMem (n : Nat) (f : Lane → Lane) (d : Dev) : (Dev.modLane n f d).triadMem = d.triadMem := rfl
@[simp] theorem Dev.modLane_dram (n : Nat) (f : Lane → Lane) (d : Dev) : (Dev.modLane n f d).dram = d.dram := rfl
@[simp] theorem Dev.modLane_flash (n : Nat) (f : Lane → Lane) (d : Dev) : (Dev.modLane n f d).flash = d.flash := rfl
@[simp] theorem Dev.modLane_dramEpoch (n : Nat) (f : Lane → Lane) (d : Dev) : (Dev.modLane n f d).dramEpoch = d.dramEpoch := rfl
@[simp] theorem Dev.modLane_now (n : Nat) (f : Lane → Lane) (d : Dev) : (Dev.modLane n f d).now = d.now := rfl
@[simp] theorem Dev.modLane_devTime (n : Nat) (f : Lane → Lane) (d : Dev) : (Dev.modLane n f d).devTime = d.devTime := rfl
@[simp] theorem Dev.modLane_rateAcc (n : Nat) (f : Lane → Lane) (d : Dev) : (Dev.modLane n f d).rateAcc = d.rateAcc := rfl
@[simp] theorem Dev.modLane_cyc (n : Nat) (f : Lane → Lane) (d : Dev) : (Dev.modLane n f d).cyc = d.cyc := rfl
@[simp] theorem Dev.modLane_readData (n : Nat) (f : Lane → Lane) (d : Dev) : (Dev.modLane n f d).readData = d.readData := rfl
@[simp] theorem Dev.modLane_freeCount (n : Nat) (f : Lane → Lane) (d : Dev) : (Dev.modLane n f d).freeCount = d.freeCount := rfl
@[simp] theorem Dev.modLane_timeHi (n : Nat) (f : Lane → Lane) (d : Dev) : (Dev.modLane n f d).timeHi = d.timeHi := rfl
@[simp] theorem Dev.modLane_activeSeen (n : Nat) (f : Lane → Lane) (d : Dev) : (Dev.modLane n f d).activeSeen = d.activeSeen := rfl
@[simp] theorem Dev.modLane_dramAt (n : Nat) (f : Lane → Lane) (d : Dev) : (Dev.modLane n f d).dramAt = d.dramAt := rfl
@[simp] theorem Dev.modLane_romAt (n : Nat) (f : Lane → Lane) (d : Dev) : (Dev.modLane n f d).romAt = d.romAt := rfl
@[simp] theorem Dev.modLane_flashSize (n : Nat) (f : Lane → Lane) (d : Dev) : (Dev.modLane n f d).flashSize = d.flashSize := rfl
@[simp] theorem Dev.modLane_syncOutAt (n : Nat) (f : Lane → Lane) (d : Dev) : (Dev.modLane n f d).syncOutAt = d.syncOutAt := rfl
@[simp] theorem Dev.modLane_reset (n : Nat) (f : Lane → Lane) (d : Dev) : (Dev.modLane n f d).reset = d.reset := rfl
@[simp] theorem Dev.modLane_supplies (n : Nat) (f : Lane → Lane) (d : Dev) : (Dev.modLane n f d).supplies = d.supplies := rfl
@[simp] theorem Dev.modLane_clocks (n : Nat) (f : Lane → Lane) (d : Dev) : (Dev.modLane n f d).clocks = d.clocks := rfl
@[simp] theorem Dev.modLane_loader (n : Nat) (f : Lane → Lane) (d : Dev) : (Dev.modLane n f d).loader = d.loader := rfl
@[simp] theorem Dev.modLane_fuses (n : Nat) (f : Lane → Lane) (d : Dev) : (Dev.modLane n f d).fuses = d.fuses := rfl
@[simp] theorem Dev.modLane_bootsel (n : Nat) (f : Lane → Lane) (d : Dev) : (Dev.modLane n f d).bootsel = d.bootsel := rfl
@[simp] theorem Dev.modLane_engines (n : Nat) (f : Lane → Lane) (d : Dev) : (Dev.modLane n f d).engines = d.engines := rfl
@[simp] theorem Dev.modLane_groups (n : Nat) (f : Lane → Lane) (d : Dev) : (Dev.modLane n f d).groups = d.groups := rfl
@[simp] theorem Dev.modLane_tripIn (n : Nat) (f : Lane → Lane) (d : Dev) : (Dev.modLane n f d).tripIn = d.tripIn := rfl
@[simp] theorem Dev.modLane_lanes (n : Nat) (f : Lane → Lane) (d : Dev) : (Dev.modLane n f d).lanes = vmod {} d.lanes n f := rfl
@[simp] theorem Dev.modLane_conv (n : Nat) (f : Lane → Lane) (d : Dev) : (Dev.modLane n f d).conv = d.conv := rfl
@[simp] theorem Dev.modLane_acc (n : Nat) (f : Lane → Lane) (d : Dev) : (Dev.modLane n f d).acc = d.acc := rfl
@[simp] theorem Dev.modLane_mmx (n : Nat) (f : Lane → Lane) (d : Dev) : (Dev.modLane n f d).mmx = d.mmx := rfl
@[simp] theorem Dev.modLane_trims (n : Nat) (f : Lane → Lane) (d : Dev) : (Dev.modLane n f d).trims = d.trims := rfl
@[simp] theorem Dev.modLane_cmps (n : Nat) (f : Lane → Lane) (d : Dev) : (Dev.modLane n f d).cmps = d.cmps := rfl
@[simp] theorem Dev.modLane_cal (n : Nat) (f : Lane → Lane) (d : Dev) : (Dev.modLane n f d).cal = d.cal := rfl
@[simp] theorem Dev.modLane_acq (n : Nat) (f : Lane → Lane) (d : Dev) : (Dev.modLane n f d).acq = d.acq := rfl
@[simp] theorem Dev.modLane_pos (n : Nat) (f : Lane → Lane) (d : Dev) : (Dev.modLane n f d).pos = d.pos := rfl
@[simp] theorem Dev.modLane_mc (n : Nat) (f : Lane → Lane) (d : Dev) : (Dev.modLane n f d).mc = d.mc := rfl
@[simp] theorem Dev.modLane_triad (n : Nat) (f : Lane → Lane) (d : Dev) : (Dev.modLane n f d).triad = d.triad := rfl
@[simp] theorem Dev.modLane_sloe (n : Nat) (f : Lane → Lane) (d : Dev) : (Dev.modLane n f d).sloe = d.sloe := rfl
@[simp] theorem Dev.modLane_can (n : Nat) (f : Lane → Lane) (d : Dev) : (Dev.modLane n f d).can = d.can := rfl
@[simp] theorem Dev.modLane_crcs (n : Nat) (f : Lane → Lane) (d : Dev) : (Dev.modLane n f d).crcs = d.crcs := rfl
@[simp] theorem Dev.modLane_capture (n : Nat) (f : Lane → Lane) (d : Dev) : (Dev.modLane n f d).capture = d.capture := rfl
@[simp] theorem Dev.modLane_mgmt (n : Nat) (f : Lane → Lane) (d : Dev) : (Dev.modLane n f d).mgmt = d.mgmt := rfl
@[simp] theorem Dev.modLane_host (n : Nat) (f : Lane → Lane) (d : Dev) : (Dev.modLane n f d).host = d.host := rfl
@[simp] theorem Dev.modLane_net (n : Nat) (f : Lane → Lane) (d : Dev) : (Dev.modLane n f d).net = d.net := rfl
@[simp] theorem Dev.modLane_canopen (n : Nat) (f : Lane → Lane) (d : Dev) : (Dev.modLane n f d).canopen = d.canopen := rfl
@[simp] theorem Dev.modLane_gpioIn (n : Nat) (f : Lane → Lane) (d : Dev) : (Dev.modLane n f d).gpioIn = d.gpioIn := rfl
@[simp] theorem Dev.modLane_padHeld (n : Nat) (f : Lane → Lane) (d : Dev) : (Dev.modLane n f d).padHeld = d.padHeld := rfl

@[simp] theorem Dev.modLane_reg (n : Nat) (f : Lane → Lane) (d : Dev) (k : Nat) : (Dev.modLane n f d).reg k = d.reg k := rfl
@[simp] theorem Dev.modLane_sh (n : Nat) (f : Lane → Lane) (d : Dev) (k : Nat) : (Dev.modLane n f d).sh k = d.sh k := rfl

@[simp] theorem Dev.modMc_regs (n : Nat) (f : McUnit → McUnit) (d : Dev) : (Dev.modMc n f d).regs = d.regs := rfl
@[simp] theorem Dev.modMc_shadow (n : Nat) (f : McUnit → McUnit) (d : Dev) : (Dev.modMc n f d).shadow = d.shadow := rfl
@[simp] theorem Dev.modMc_mem (n : Nat) (f : McUnit → McUnit) (d : Dev) : (Dev.modMc n f d).mem = d.mem := rfl
@[simp] theorem Dev.modMc_triadMem (n : Nat) (f : McUnit → McUnit) (d : Dev) : (Dev.modMc n f d).triadMem = d.triadMem := rfl
@[simp] theorem Dev.modMc_dram (n : Nat) (f : McUnit → McUnit) (d : Dev) : (Dev.modMc n f d).dram = d.dram := rfl
@[simp] theorem Dev.modMc_flash (n : Nat) (f : McUnit → McUnit) (d : Dev) : (Dev.modMc n f d).flash = d.flash := rfl
@[simp] theorem Dev.modMc_dramEpoch (n : Nat) (f : McUnit → McUnit) (d : Dev) : (Dev.modMc n f d).dramEpoch = d.dramEpoch := rfl
@[simp] theorem Dev.modMc_now (n : Nat) (f : McUnit → McUnit) (d : Dev) : (Dev.modMc n f d).now = d.now := rfl
@[simp] theorem Dev.modMc_devTime (n : Nat) (f : McUnit → McUnit) (d : Dev) : (Dev.modMc n f d).devTime = d.devTime := rfl
@[simp] theorem Dev.modMc_rateAcc (n : Nat) (f : McUnit → McUnit) (d : Dev) : (Dev.modMc n f d).rateAcc = d.rateAcc := rfl
@[simp] theorem Dev.modMc_cyc (n : Nat) (f : McUnit → McUnit) (d : Dev) : (Dev.modMc n f d).cyc = d.cyc := rfl
@[simp] theorem Dev.modMc_readData (n : Nat) (f : McUnit → McUnit) (d : Dev) : (Dev.modMc n f d).readData = d.readData := rfl
@[simp] theorem Dev.modMc_freeCount (n : Nat) (f : McUnit → McUnit) (d : Dev) : (Dev.modMc n f d).freeCount = d.freeCount := rfl
@[simp] theorem Dev.modMc_timeHi (n : Nat) (f : McUnit → McUnit) (d : Dev) : (Dev.modMc n f d).timeHi = d.timeHi := rfl
@[simp] theorem Dev.modMc_activeSeen (n : Nat) (f : McUnit → McUnit) (d : Dev) : (Dev.modMc n f d).activeSeen = d.activeSeen := rfl
@[simp] theorem Dev.modMc_dramAt (n : Nat) (f : McUnit → McUnit) (d : Dev) : (Dev.modMc n f d).dramAt = d.dramAt := rfl
@[simp] theorem Dev.modMc_romAt (n : Nat) (f : McUnit → McUnit) (d : Dev) : (Dev.modMc n f d).romAt = d.romAt := rfl
@[simp] theorem Dev.modMc_flashSize (n : Nat) (f : McUnit → McUnit) (d : Dev) : (Dev.modMc n f d).flashSize = d.flashSize := rfl
@[simp] theorem Dev.modMc_syncOutAt (n : Nat) (f : McUnit → McUnit) (d : Dev) : (Dev.modMc n f d).syncOutAt = d.syncOutAt := rfl
@[simp] theorem Dev.modMc_reset (n : Nat) (f : McUnit → McUnit) (d : Dev) : (Dev.modMc n f d).reset = d.reset := rfl
@[simp] theorem Dev.modMc_supplies (n : Nat) (f : McUnit → McUnit) (d : Dev) : (Dev.modMc n f d).supplies = d.supplies := rfl
@[simp] theorem Dev.modMc_clocks (n : Nat) (f : McUnit → McUnit) (d : Dev) : (Dev.modMc n f d).clocks = d.clocks := rfl
@[simp] theorem Dev.modMc_loader (n : Nat) (f : McUnit → McUnit) (d : Dev) : (Dev.modMc n f d).loader = d.loader := rfl
@[simp] theorem Dev.modMc_fuses (n : Nat) (f : McUnit → McUnit) (d : Dev) : (Dev.modMc n f d).fuses = d.fuses := rfl
@[simp] theorem Dev.modMc_bootsel (n : Nat) (f : McUnit → McUnit) (d : Dev) : (Dev.modMc n f d).bootsel = d.bootsel := rfl
@[simp] theorem Dev.modMc_engines (n : Nat) (f : McUnit → McUnit) (d : Dev) : (Dev.modMc n f d).engines = d.engines := rfl
@[simp] theorem Dev.modMc_groups (n : Nat) (f : McUnit → McUnit) (d : Dev) : (Dev.modMc n f d).groups = d.groups := rfl
@[simp] theorem Dev.modMc_tripIn (n : Nat) (f : McUnit → McUnit) (d : Dev) : (Dev.modMc n f d).tripIn = d.tripIn := rfl
@[simp] theorem Dev.modMc_lanes (n : Nat) (f : McUnit → McUnit) (d : Dev) : (Dev.modMc n f d).lanes = d.lanes := rfl
@[simp] theorem Dev.modMc_conv (n : Nat) (f : McUnit → McUnit) (d : Dev) : (Dev.modMc n f d).conv = d.conv := rfl
@[simp] theorem Dev.modMc_acc (n : Nat) (f : McUnit → McUnit) (d : Dev) : (Dev.modMc n f d).acc = d.acc := rfl
@[simp] theorem Dev.modMc_mmx (n : Nat) (f : McUnit → McUnit) (d : Dev) : (Dev.modMc n f d).mmx = d.mmx := rfl
@[simp] theorem Dev.modMc_trims (n : Nat) (f : McUnit → McUnit) (d : Dev) : (Dev.modMc n f d).trims = d.trims := rfl
@[simp] theorem Dev.modMc_cmps (n : Nat) (f : McUnit → McUnit) (d : Dev) : (Dev.modMc n f d).cmps = d.cmps := rfl
@[simp] theorem Dev.modMc_cal (n : Nat) (f : McUnit → McUnit) (d : Dev) : (Dev.modMc n f d).cal = d.cal := rfl
@[simp] theorem Dev.modMc_acq (n : Nat) (f : McUnit → McUnit) (d : Dev) : (Dev.modMc n f d).acq = d.acq := rfl
@[simp] theorem Dev.modMc_pos (n : Nat) (f : McUnit → McUnit) (d : Dev) : (Dev.modMc n f d).pos = d.pos := rfl
@[simp] theorem Dev.modMc_mc (n : Nat) (f : McUnit → McUnit) (d : Dev) : (Dev.modMc n f d).mc = vmod {} d.mc n f := rfl
@[simp] theorem Dev.modMc_triad (n : Nat) (f : McUnit → McUnit) (d : Dev) : (Dev.modMc n f d).triad = d.triad := rfl
@[simp] theorem Dev.modMc_sloe (n : Nat) (f : McUnit → McUnit) (d : Dev) : (Dev.modMc n f d).sloe = d.sloe := rfl
@[simp] theorem Dev.modMc_can (n : Nat) (f : McUnit → McUnit) (d : Dev) : (Dev.modMc n f d).can = d.can := rfl
@[simp] theorem Dev.modMc_crcs (n : Nat) (f : McUnit → McUnit) (d : Dev) : (Dev.modMc n f d).crcs = d.crcs := rfl
@[simp] theorem Dev.modMc_capture (n : Nat) (f : McUnit → McUnit) (d : Dev) : (Dev.modMc n f d).capture = d.capture := rfl
@[simp] theorem Dev.modMc_mgmt (n : Nat) (f : McUnit → McUnit) (d : Dev) : (Dev.modMc n f d).mgmt = d.mgmt := rfl
@[simp] theorem Dev.modMc_host (n : Nat) (f : McUnit → McUnit) (d : Dev) : (Dev.modMc n f d).host = d.host := rfl
@[simp] theorem Dev.modMc_net (n : Nat) (f : McUnit → McUnit) (d : Dev) : (Dev.modMc n f d).net = d.net := rfl
@[simp] theorem Dev.modMc_canopen (n : Nat) (f : McUnit → McUnit) (d : Dev) : (Dev.modMc n f d).canopen = d.canopen := rfl
@[simp] theorem Dev.modMc_gpioIn (n : Nat) (f : McUnit → McUnit) (d : Dev) : (Dev.modMc n f d).gpioIn = d.gpioIn := rfl
@[simp] theorem Dev.modMc_padHeld (n : Nat) (f : McUnit → McUnit) (d : Dev) : (Dev.modMc n f d).padHeld = d.padHeld := rfl

@[simp] theorem Dev.modMc_reg (n : Nat) (f : McUnit → McUnit) (d : Dev) (k : Nat) : (Dev.modMc n f d).reg k = d.reg k := rfl
@[simp] theorem Dev.modMc_sh (n : Nat) (f : McUnit → McUnit) (d : Dev) (k : Nat) : (Dev.modMc n f d).sh k = d.sh k := rfl

@[simp] theorem Dev.modPf_regs (n : Nat) (f : PosUnit → PosUnit) (d : Dev) : (Dev.modPf n f d).regs = d.regs := rfl
@[simp] theorem Dev.modPf_shadow (n : Nat) (f : PosUnit → PosUnit) (d : Dev) : (Dev.modPf n f d).shadow = d.shadow := rfl
@[simp] theorem Dev.modPf_mem (n : Nat) (f : PosUnit → PosUnit) (d : Dev) : (Dev.modPf n f d).mem = d.mem := rfl
@[simp] theorem Dev.modPf_triadMem (n : Nat) (f : PosUnit → PosUnit) (d : Dev) : (Dev.modPf n f d).triadMem = d.triadMem := rfl
@[simp] theorem Dev.modPf_dram (n : Nat) (f : PosUnit → PosUnit) (d : Dev) : (Dev.modPf n f d).dram = d.dram := rfl
@[simp] theorem Dev.modPf_flash (n : Nat) (f : PosUnit → PosUnit) (d : Dev) : (Dev.modPf n f d).flash = d.flash := rfl
@[simp] theorem Dev.modPf_dramEpoch (n : Nat) (f : PosUnit → PosUnit) (d : Dev) : (Dev.modPf n f d).dramEpoch = d.dramEpoch := rfl
@[simp] theorem Dev.modPf_now (n : Nat) (f : PosUnit → PosUnit) (d : Dev) : (Dev.modPf n f d).now = d.now := rfl
@[simp] theorem Dev.modPf_devTime (n : Nat) (f : PosUnit → PosUnit) (d : Dev) : (Dev.modPf n f d).devTime = d.devTime := rfl
@[simp] theorem Dev.modPf_rateAcc (n : Nat) (f : PosUnit → PosUnit) (d : Dev) : (Dev.modPf n f d).rateAcc = d.rateAcc := rfl
@[simp] theorem Dev.modPf_cyc (n : Nat) (f : PosUnit → PosUnit) (d : Dev) : (Dev.modPf n f d).cyc = d.cyc := rfl
@[simp] theorem Dev.modPf_readData (n : Nat) (f : PosUnit → PosUnit) (d : Dev) : (Dev.modPf n f d).readData = d.readData := rfl
@[simp] theorem Dev.modPf_freeCount (n : Nat) (f : PosUnit → PosUnit) (d : Dev) : (Dev.modPf n f d).freeCount = d.freeCount := rfl
@[simp] theorem Dev.modPf_timeHi (n : Nat) (f : PosUnit → PosUnit) (d : Dev) : (Dev.modPf n f d).timeHi = d.timeHi := rfl
@[simp] theorem Dev.modPf_activeSeen (n : Nat) (f : PosUnit → PosUnit) (d : Dev) : (Dev.modPf n f d).activeSeen = d.activeSeen := rfl
@[simp] theorem Dev.modPf_dramAt (n : Nat) (f : PosUnit → PosUnit) (d : Dev) : (Dev.modPf n f d).dramAt = d.dramAt := rfl
@[simp] theorem Dev.modPf_romAt (n : Nat) (f : PosUnit → PosUnit) (d : Dev) : (Dev.modPf n f d).romAt = d.romAt := rfl
@[simp] theorem Dev.modPf_flashSize (n : Nat) (f : PosUnit → PosUnit) (d : Dev) : (Dev.modPf n f d).flashSize = d.flashSize := rfl
@[simp] theorem Dev.modPf_syncOutAt (n : Nat) (f : PosUnit → PosUnit) (d : Dev) : (Dev.modPf n f d).syncOutAt = d.syncOutAt := rfl
@[simp] theorem Dev.modPf_reset (n : Nat) (f : PosUnit → PosUnit) (d : Dev) : (Dev.modPf n f d).reset = d.reset := rfl
@[simp] theorem Dev.modPf_supplies (n : Nat) (f : PosUnit → PosUnit) (d : Dev) : (Dev.modPf n f d).supplies = d.supplies := rfl
@[simp] theorem Dev.modPf_clocks (n : Nat) (f : PosUnit → PosUnit) (d : Dev) : (Dev.modPf n f d).clocks = d.clocks := rfl
@[simp] theorem Dev.modPf_loader (n : Nat) (f : PosUnit → PosUnit) (d : Dev) : (Dev.modPf n f d).loader = d.loader := rfl
@[simp] theorem Dev.modPf_fuses (n : Nat) (f : PosUnit → PosUnit) (d : Dev) : (Dev.modPf n f d).fuses = d.fuses := rfl
@[simp] theorem Dev.modPf_bootsel (n : Nat) (f : PosUnit → PosUnit) (d : Dev) : (Dev.modPf n f d).bootsel = d.bootsel := rfl
@[simp] theorem Dev.modPf_engines (n : Nat) (f : PosUnit → PosUnit) (d : Dev) : (Dev.modPf n f d).engines = d.engines := rfl
@[simp] theorem Dev.modPf_groups (n : Nat) (f : PosUnit → PosUnit) (d : Dev) : (Dev.modPf n f d).groups = d.groups := rfl
@[simp] theorem Dev.modPf_tripIn (n : Nat) (f : PosUnit → PosUnit) (d : Dev) : (Dev.modPf n f d).tripIn = d.tripIn := rfl
@[simp] theorem Dev.modPf_lanes (n : Nat) (f : PosUnit → PosUnit) (d : Dev) : (Dev.modPf n f d).lanes = d.lanes := rfl
@[simp] theorem Dev.modPf_conv (n : Nat) (f : PosUnit → PosUnit) (d : Dev) : (Dev.modPf n f d).conv = d.conv := rfl
@[simp] theorem Dev.modPf_acc (n : Nat) (f : PosUnit → PosUnit) (d : Dev) : (Dev.modPf n f d).acc = d.acc := rfl
@[simp] theorem Dev.modPf_mmx (n : Nat) (f : PosUnit → PosUnit) (d : Dev) : (Dev.modPf n f d).mmx = d.mmx := rfl
@[simp] theorem Dev.modPf_trims (n : Nat) (f : PosUnit → PosUnit) (d : Dev) : (Dev.modPf n f d).trims = d.trims := rfl
@[simp] theorem Dev.modPf_cmps (n : Nat) (f : PosUnit → PosUnit) (d : Dev) : (Dev.modPf n f d).cmps = d.cmps := rfl
@[simp] theorem Dev.modPf_cal (n : Nat) (f : PosUnit → PosUnit) (d : Dev) : (Dev.modPf n f d).cal = d.cal := rfl
@[simp] theorem Dev.modPf_acq (n : Nat) (f : PosUnit → PosUnit) (d : Dev) : (Dev.modPf n f d).acq = d.acq := rfl
@[simp] theorem Dev.modPf_pos (n : Nat) (f : PosUnit → PosUnit) (d : Dev) : (Dev.modPf n f d).pos = vmod {} d.pos n f := rfl
@[simp] theorem Dev.modPf_mc (n : Nat) (f : PosUnit → PosUnit) (d : Dev) : (Dev.modPf n f d).mc = d.mc := rfl
@[simp] theorem Dev.modPf_triad (n : Nat) (f : PosUnit → PosUnit) (d : Dev) : (Dev.modPf n f d).triad = d.triad := rfl
@[simp] theorem Dev.modPf_sloe (n : Nat) (f : PosUnit → PosUnit) (d : Dev) : (Dev.modPf n f d).sloe = d.sloe := rfl
@[simp] theorem Dev.modPf_can (n : Nat) (f : PosUnit → PosUnit) (d : Dev) : (Dev.modPf n f d).can = d.can := rfl
@[simp] theorem Dev.modPf_crcs (n : Nat) (f : PosUnit → PosUnit) (d : Dev) : (Dev.modPf n f d).crcs = d.crcs := rfl
@[simp] theorem Dev.modPf_capture (n : Nat) (f : PosUnit → PosUnit) (d : Dev) : (Dev.modPf n f d).capture = d.capture := rfl
@[simp] theorem Dev.modPf_mgmt (n : Nat) (f : PosUnit → PosUnit) (d : Dev) : (Dev.modPf n f d).mgmt = d.mgmt := rfl
@[simp] theorem Dev.modPf_host (n : Nat) (f : PosUnit → PosUnit) (d : Dev) : (Dev.modPf n f d).host = d.host := rfl
@[simp] theorem Dev.modPf_net (n : Nat) (f : PosUnit → PosUnit) (d : Dev) : (Dev.modPf n f d).net = d.net := rfl
@[simp] theorem Dev.modPf_canopen (n : Nat) (f : PosUnit → PosUnit) (d : Dev) : (Dev.modPf n f d).canopen = d.canopen := rfl
@[simp] theorem Dev.modPf_gpioIn (n : Nat) (f : PosUnit → PosUnit) (d : Dev) : (Dev.modPf n f d).gpioIn = d.gpioIn := rfl
@[simp] theorem Dev.modPf_padHeld (n : Nat) (f : PosUnit → PosUnit) (d : Dev) : (Dev.modPf n f d).padHeld = d.padHeld := rfl

@[simp] theorem Dev.modPf_reg (n : Nat) (f : PosUnit → PosUnit) (d : Dev) (k : Nat) : (Dev.modPf n f d).reg k = d.reg k := rfl
@[simp] theorem Dev.modPf_sh (n : Nat) (f : PosUnit → PosUnit) (d : Dev) (k : Nat) : (Dev.modPf n f d).sh k = d.sh k := rfl

@[simp] theorem Dev.modCtl_regs (n : Nat) (f : CanCtl → CanCtl) (d : Dev) : (Dev.modCtl n f d).regs = d.regs := rfl
@[simp] theorem Dev.modCtl_shadow (n : Nat) (f : CanCtl → CanCtl) (d : Dev) : (Dev.modCtl n f d).shadow = d.shadow := rfl
@[simp] theorem Dev.modCtl_mem (n : Nat) (f : CanCtl → CanCtl) (d : Dev) : (Dev.modCtl n f d).mem = d.mem := rfl
@[simp] theorem Dev.modCtl_triadMem (n : Nat) (f : CanCtl → CanCtl) (d : Dev) : (Dev.modCtl n f d).triadMem = d.triadMem := rfl
@[simp] theorem Dev.modCtl_dram (n : Nat) (f : CanCtl → CanCtl) (d : Dev) : (Dev.modCtl n f d).dram = d.dram := rfl
@[simp] theorem Dev.modCtl_flash (n : Nat) (f : CanCtl → CanCtl) (d : Dev) : (Dev.modCtl n f d).flash = d.flash := rfl
@[simp] theorem Dev.modCtl_dramEpoch (n : Nat) (f : CanCtl → CanCtl) (d : Dev) : (Dev.modCtl n f d).dramEpoch = d.dramEpoch := rfl
@[simp] theorem Dev.modCtl_now (n : Nat) (f : CanCtl → CanCtl) (d : Dev) : (Dev.modCtl n f d).now = d.now := rfl
@[simp] theorem Dev.modCtl_devTime (n : Nat) (f : CanCtl → CanCtl) (d : Dev) : (Dev.modCtl n f d).devTime = d.devTime := rfl
@[simp] theorem Dev.modCtl_rateAcc (n : Nat) (f : CanCtl → CanCtl) (d : Dev) : (Dev.modCtl n f d).rateAcc = d.rateAcc := rfl
@[simp] theorem Dev.modCtl_cyc (n : Nat) (f : CanCtl → CanCtl) (d : Dev) : (Dev.modCtl n f d).cyc = d.cyc := rfl
@[simp] theorem Dev.modCtl_readData (n : Nat) (f : CanCtl → CanCtl) (d : Dev) : (Dev.modCtl n f d).readData = d.readData := rfl
@[simp] theorem Dev.modCtl_freeCount (n : Nat) (f : CanCtl → CanCtl) (d : Dev) : (Dev.modCtl n f d).freeCount = d.freeCount := rfl
@[simp] theorem Dev.modCtl_timeHi (n : Nat) (f : CanCtl → CanCtl) (d : Dev) : (Dev.modCtl n f d).timeHi = d.timeHi := rfl
@[simp] theorem Dev.modCtl_activeSeen (n : Nat) (f : CanCtl → CanCtl) (d : Dev) : (Dev.modCtl n f d).activeSeen = d.activeSeen := rfl
@[simp] theorem Dev.modCtl_dramAt (n : Nat) (f : CanCtl → CanCtl) (d : Dev) : (Dev.modCtl n f d).dramAt = d.dramAt := rfl
@[simp] theorem Dev.modCtl_romAt (n : Nat) (f : CanCtl → CanCtl) (d : Dev) : (Dev.modCtl n f d).romAt = d.romAt := rfl
@[simp] theorem Dev.modCtl_flashSize (n : Nat) (f : CanCtl → CanCtl) (d : Dev) : (Dev.modCtl n f d).flashSize = d.flashSize := rfl
@[simp] theorem Dev.modCtl_syncOutAt (n : Nat) (f : CanCtl → CanCtl) (d : Dev) : (Dev.modCtl n f d).syncOutAt = d.syncOutAt := rfl
@[simp] theorem Dev.modCtl_reset (n : Nat) (f : CanCtl → CanCtl) (d : Dev) : (Dev.modCtl n f d).reset = d.reset := rfl
@[simp] theorem Dev.modCtl_supplies (n : Nat) (f : CanCtl → CanCtl) (d : Dev) : (Dev.modCtl n f d).supplies = d.supplies := rfl
@[simp] theorem Dev.modCtl_clocks (n : Nat) (f : CanCtl → CanCtl) (d : Dev) : (Dev.modCtl n f d).clocks = d.clocks := rfl
@[simp] theorem Dev.modCtl_loader (n : Nat) (f : CanCtl → CanCtl) (d : Dev) : (Dev.modCtl n f d).loader = d.loader := rfl
@[simp] theorem Dev.modCtl_fuses (n : Nat) (f : CanCtl → CanCtl) (d : Dev) : (Dev.modCtl n f d).fuses = d.fuses := rfl
@[simp] theorem Dev.modCtl_bootsel (n : Nat) (f : CanCtl → CanCtl) (d : Dev) : (Dev.modCtl n f d).bootsel = d.bootsel := rfl
@[simp] theorem Dev.modCtl_engines (n : Nat) (f : CanCtl → CanCtl) (d : Dev) : (Dev.modCtl n f d).engines = d.engines := rfl
@[simp] theorem Dev.modCtl_groups (n : Nat) (f : CanCtl → CanCtl) (d : Dev) : (Dev.modCtl n f d).groups = d.groups := rfl
@[simp] theorem Dev.modCtl_tripIn (n : Nat) (f : CanCtl → CanCtl) (d : Dev) : (Dev.modCtl n f d).tripIn = d.tripIn := rfl
@[simp] theorem Dev.modCtl_lanes (n : Nat) (f : CanCtl → CanCtl) (d : Dev) : (Dev.modCtl n f d).lanes = d.lanes := rfl
@[simp] theorem Dev.modCtl_conv (n : Nat) (f : CanCtl → CanCtl) (d : Dev) : (Dev.modCtl n f d).conv = d.conv := rfl
@[simp] theorem Dev.modCtl_acc (n : Nat) (f : CanCtl → CanCtl) (d : Dev) : (Dev.modCtl n f d).acc = d.acc := rfl
@[simp] theorem Dev.modCtl_mmx (n : Nat) (f : CanCtl → CanCtl) (d : Dev) : (Dev.modCtl n f d).mmx = d.mmx := rfl
@[simp] theorem Dev.modCtl_trims (n : Nat) (f : CanCtl → CanCtl) (d : Dev) : (Dev.modCtl n f d).trims = d.trims := rfl
@[simp] theorem Dev.modCtl_cmps (n : Nat) (f : CanCtl → CanCtl) (d : Dev) : (Dev.modCtl n f d).cmps = d.cmps := rfl
@[simp] theorem Dev.modCtl_cal (n : Nat) (f : CanCtl → CanCtl) (d : Dev) : (Dev.modCtl n f d).cal = d.cal := rfl
@[simp] theorem Dev.modCtl_acq (n : Nat) (f : CanCtl → CanCtl) (d : Dev) : (Dev.modCtl n f d).acq = d.acq := rfl
@[simp] theorem Dev.modCtl_pos (n : Nat) (f : CanCtl → CanCtl) (d : Dev) : (Dev.modCtl n f d).pos = d.pos := rfl
@[simp] theorem Dev.modCtl_mc (n : Nat) (f : CanCtl → CanCtl) (d : Dev) : (Dev.modCtl n f d).mc = d.mc := rfl
@[simp] theorem Dev.modCtl_triad (n : Nat) (f : CanCtl → CanCtl) (d : Dev) : (Dev.modCtl n f d).triad = d.triad := rfl
@[simp] theorem Dev.modCtl_sloe (n : Nat) (f : CanCtl → CanCtl) (d : Dev) : (Dev.modCtl n f d).sloe = d.sloe := rfl
@[simp] theorem Dev.modCtl_can (n : Nat) (f : CanCtl → CanCtl) (d : Dev) : (Dev.modCtl n f d).can = vmod {} d.can n f := rfl
@[simp] theorem Dev.modCtl_crcs (n : Nat) (f : CanCtl → CanCtl) (d : Dev) : (Dev.modCtl n f d).crcs = d.crcs := rfl
@[simp] theorem Dev.modCtl_capture (n : Nat) (f : CanCtl → CanCtl) (d : Dev) : (Dev.modCtl n f d).capture = d.capture := rfl
@[simp] theorem Dev.modCtl_mgmt (n : Nat) (f : CanCtl → CanCtl) (d : Dev) : (Dev.modCtl n f d).mgmt = d.mgmt := rfl
@[simp] theorem Dev.modCtl_host (n : Nat) (f : CanCtl → CanCtl) (d : Dev) : (Dev.modCtl n f d).host = d.host := rfl
@[simp] theorem Dev.modCtl_net (n : Nat) (f : CanCtl → CanCtl) (d : Dev) : (Dev.modCtl n f d).net = d.net := rfl
@[simp] theorem Dev.modCtl_canopen (n : Nat) (f : CanCtl → CanCtl) (d : Dev) : (Dev.modCtl n f d).canopen = d.canopen := rfl
@[simp] theorem Dev.modCtl_gpioIn (n : Nat) (f : CanCtl → CanCtl) (d : Dev) : (Dev.modCtl n f d).gpioIn = d.gpioIn := rfl
@[simp] theorem Dev.modCtl_padHeld (n : Nat) (f : CanCtl → CanCtl) (d : Dev) : (Dev.modCtl n f d).padHeld = d.padHeld := rfl

@[simp] theorem Dev.modCtl_reg (n : Nat) (f : CanCtl → CanCtl) (d : Dev) (k : Nat) : (Dev.modCtl n f d).reg k = d.reg k := rfl
@[simp] theorem Dev.modCtl_sh (n : Nat) (f : CanCtl → CanCtl) (d : Dev) (k : Nat) : (Dev.modCtl n f d).sh k = d.sh k := rfl

@[simp] theorem Dev.modSloe_regs (f : Sloe → Sloe) (d : Dev) : (Dev.modSloe f d).regs = d.regs := rfl
@[simp] theorem Dev.modSloe_shadow (f : Sloe → Sloe) (d : Dev) : (Dev.modSloe f d).shadow = d.shadow := rfl
@[simp] theorem Dev.modSloe_mem (f : Sloe → Sloe) (d : Dev) : (Dev.modSloe f d).mem = d.mem := rfl
@[simp] theorem Dev.modSloe_triadMem (f : Sloe → Sloe) (d : Dev) : (Dev.modSloe f d).triadMem = d.triadMem := rfl
@[simp] theorem Dev.modSloe_dram (f : Sloe → Sloe) (d : Dev) : (Dev.modSloe f d).dram = d.dram := rfl
@[simp] theorem Dev.modSloe_flash (f : Sloe → Sloe) (d : Dev) : (Dev.modSloe f d).flash = d.flash := rfl
@[simp] theorem Dev.modSloe_dramEpoch (f : Sloe → Sloe) (d : Dev) : (Dev.modSloe f d).dramEpoch = d.dramEpoch := rfl
@[simp] theorem Dev.modSloe_now (f : Sloe → Sloe) (d : Dev) : (Dev.modSloe f d).now = d.now := rfl
@[simp] theorem Dev.modSloe_devTime (f : Sloe → Sloe) (d : Dev) : (Dev.modSloe f d).devTime = d.devTime := rfl
@[simp] theorem Dev.modSloe_rateAcc (f : Sloe → Sloe) (d : Dev) : (Dev.modSloe f d).rateAcc = d.rateAcc := rfl
@[simp] theorem Dev.modSloe_cyc (f : Sloe → Sloe) (d : Dev) : (Dev.modSloe f d).cyc = d.cyc := rfl
@[simp] theorem Dev.modSloe_readData (f : Sloe → Sloe) (d : Dev) : (Dev.modSloe f d).readData = d.readData := rfl
@[simp] theorem Dev.modSloe_freeCount (f : Sloe → Sloe) (d : Dev) : (Dev.modSloe f d).freeCount = d.freeCount := rfl
@[simp] theorem Dev.modSloe_timeHi (f : Sloe → Sloe) (d : Dev) : (Dev.modSloe f d).timeHi = d.timeHi := rfl
@[simp] theorem Dev.modSloe_activeSeen (f : Sloe → Sloe) (d : Dev) : (Dev.modSloe f d).activeSeen = d.activeSeen := rfl
@[simp] theorem Dev.modSloe_dramAt (f : Sloe → Sloe) (d : Dev) : (Dev.modSloe f d).dramAt = d.dramAt := rfl
@[simp] theorem Dev.modSloe_romAt (f : Sloe → Sloe) (d : Dev) : (Dev.modSloe f d).romAt = d.romAt := rfl
@[simp] theorem Dev.modSloe_flashSize (f : Sloe → Sloe) (d : Dev) : (Dev.modSloe f d).flashSize = d.flashSize := rfl
@[simp] theorem Dev.modSloe_syncOutAt (f : Sloe → Sloe) (d : Dev) : (Dev.modSloe f d).syncOutAt = d.syncOutAt := rfl
@[simp] theorem Dev.modSloe_reset (f : Sloe → Sloe) (d : Dev) : (Dev.modSloe f d).reset = d.reset := rfl
@[simp] theorem Dev.modSloe_supplies (f : Sloe → Sloe) (d : Dev) : (Dev.modSloe f d).supplies = d.supplies := rfl
@[simp] theorem Dev.modSloe_clocks (f : Sloe → Sloe) (d : Dev) : (Dev.modSloe f d).clocks = d.clocks := rfl
@[simp] theorem Dev.modSloe_loader (f : Sloe → Sloe) (d : Dev) : (Dev.modSloe f d).loader = d.loader := rfl
@[simp] theorem Dev.modSloe_fuses (f : Sloe → Sloe) (d : Dev) : (Dev.modSloe f d).fuses = d.fuses := rfl
@[simp] theorem Dev.modSloe_bootsel (f : Sloe → Sloe) (d : Dev) : (Dev.modSloe f d).bootsel = d.bootsel := rfl
@[simp] theorem Dev.modSloe_engines (f : Sloe → Sloe) (d : Dev) : (Dev.modSloe f d).engines = d.engines := rfl
@[simp] theorem Dev.modSloe_groups (f : Sloe → Sloe) (d : Dev) : (Dev.modSloe f d).groups = d.groups := rfl
@[simp] theorem Dev.modSloe_tripIn (f : Sloe → Sloe) (d : Dev) : (Dev.modSloe f d).tripIn = d.tripIn := rfl
@[simp] theorem Dev.modSloe_lanes (f : Sloe → Sloe) (d : Dev) : (Dev.modSloe f d).lanes = d.lanes := rfl
@[simp] theorem Dev.modSloe_conv (f : Sloe → Sloe) (d : Dev) : (Dev.modSloe f d).conv = d.conv := rfl
@[simp] theorem Dev.modSloe_acc (f : Sloe → Sloe) (d : Dev) : (Dev.modSloe f d).acc = d.acc := rfl
@[simp] theorem Dev.modSloe_mmx (f : Sloe → Sloe) (d : Dev) : (Dev.modSloe f d).mmx = d.mmx := rfl
@[simp] theorem Dev.modSloe_trims (f : Sloe → Sloe) (d : Dev) : (Dev.modSloe f d).trims = d.trims := rfl
@[simp] theorem Dev.modSloe_cmps (f : Sloe → Sloe) (d : Dev) : (Dev.modSloe f d).cmps = d.cmps := rfl
@[simp] theorem Dev.modSloe_cal (f : Sloe → Sloe) (d : Dev) : (Dev.modSloe f d).cal = d.cal := rfl
@[simp] theorem Dev.modSloe_acq (f : Sloe → Sloe) (d : Dev) : (Dev.modSloe f d).acq = d.acq := rfl
@[simp] theorem Dev.modSloe_pos (f : Sloe → Sloe) (d : Dev) : (Dev.modSloe f d).pos = d.pos := rfl
@[simp] theorem Dev.modSloe_mc (f : Sloe → Sloe) (d : Dev) : (Dev.modSloe f d).mc = d.mc := rfl
@[simp] theorem Dev.modSloe_triad (f : Sloe → Sloe) (d : Dev) : (Dev.modSloe f d).triad = d.triad := rfl
@[simp] theorem Dev.modSloe_sloe (f : Sloe → Sloe) (d : Dev) : (Dev.modSloe f d).sloe = f d.sloe := rfl
@[simp] theorem Dev.modSloe_can (f : Sloe → Sloe) (d : Dev) : (Dev.modSloe f d).can = d.can := rfl
@[simp] theorem Dev.modSloe_crcs (f : Sloe → Sloe) (d : Dev) : (Dev.modSloe f d).crcs = d.crcs := rfl
@[simp] theorem Dev.modSloe_capture (f : Sloe → Sloe) (d : Dev) : (Dev.modSloe f d).capture = d.capture := rfl
@[simp] theorem Dev.modSloe_mgmt (f : Sloe → Sloe) (d : Dev) : (Dev.modSloe f d).mgmt = d.mgmt := rfl
@[simp] theorem Dev.modSloe_host (f : Sloe → Sloe) (d : Dev) : (Dev.modSloe f d).host = d.host := rfl
@[simp] theorem Dev.modSloe_net (f : Sloe → Sloe) (d : Dev) : (Dev.modSloe f d).net = d.net := rfl
@[simp] theorem Dev.modSloe_canopen (f : Sloe → Sloe) (d : Dev) : (Dev.modSloe f d).canopen = d.canopen := rfl
@[simp] theorem Dev.modSloe_gpioIn (f : Sloe → Sloe) (d : Dev) : (Dev.modSloe f d).gpioIn = d.gpioIn := rfl
@[simp] theorem Dev.modSloe_padHeld (f : Sloe → Sloe) (d : Dev) : (Dev.modSloe f d).padHeld = d.padHeld := rfl

@[simp] theorem Dev.modSloe_reg (f : Sloe → Sloe) (d : Dev) (k : Nat) : (Dev.modSloe f d).reg k = d.reg k := rfl
@[simp] theorem Dev.modSloe_sh (f : Sloe → Sloe) (d : Dev) (k : Nat) : (Dev.modSloe f d).sh k = d.sh k := rfl

@[simp] theorem Dev.modTriad_regs (f : Triad → Triad) (d : Dev) : (Dev.modTriad f d).regs = d.regs := rfl
@[simp] theorem Dev.modTriad_shadow (f : Triad → Triad) (d : Dev) : (Dev.modTriad f d).shadow = d.shadow := rfl
@[simp] theorem Dev.modTriad_mem (f : Triad → Triad) (d : Dev) : (Dev.modTriad f d).mem = d.mem := rfl
@[simp] theorem Dev.modTriad_triadMem (f : Triad → Triad) (d : Dev) : (Dev.modTriad f d).triadMem = d.triadMem := rfl
@[simp] theorem Dev.modTriad_dram (f : Triad → Triad) (d : Dev) : (Dev.modTriad f d).dram = d.dram := rfl
@[simp] theorem Dev.modTriad_flash (f : Triad → Triad) (d : Dev) : (Dev.modTriad f d).flash = d.flash := rfl
@[simp] theorem Dev.modTriad_dramEpoch (f : Triad → Triad) (d : Dev) : (Dev.modTriad f d).dramEpoch = d.dramEpoch := rfl
@[simp] theorem Dev.modTriad_now (f : Triad → Triad) (d : Dev) : (Dev.modTriad f d).now = d.now := rfl
@[simp] theorem Dev.modTriad_devTime (f : Triad → Triad) (d : Dev) : (Dev.modTriad f d).devTime = d.devTime := rfl
@[simp] theorem Dev.modTriad_rateAcc (f : Triad → Triad) (d : Dev) : (Dev.modTriad f d).rateAcc = d.rateAcc := rfl
@[simp] theorem Dev.modTriad_cyc (f : Triad → Triad) (d : Dev) : (Dev.modTriad f d).cyc = d.cyc := rfl
@[simp] theorem Dev.modTriad_readData (f : Triad → Triad) (d : Dev) : (Dev.modTriad f d).readData = d.readData := rfl
@[simp] theorem Dev.modTriad_freeCount (f : Triad → Triad) (d : Dev) : (Dev.modTriad f d).freeCount = d.freeCount := rfl
@[simp] theorem Dev.modTriad_timeHi (f : Triad → Triad) (d : Dev) : (Dev.modTriad f d).timeHi = d.timeHi := rfl
@[simp] theorem Dev.modTriad_activeSeen (f : Triad → Triad) (d : Dev) : (Dev.modTriad f d).activeSeen = d.activeSeen := rfl
@[simp] theorem Dev.modTriad_dramAt (f : Triad → Triad) (d : Dev) : (Dev.modTriad f d).dramAt = d.dramAt := rfl
@[simp] theorem Dev.modTriad_romAt (f : Triad → Triad) (d : Dev) : (Dev.modTriad f d).romAt = d.romAt := rfl
@[simp] theorem Dev.modTriad_flashSize (f : Triad → Triad) (d : Dev) : (Dev.modTriad f d).flashSize = d.flashSize := rfl
@[simp] theorem Dev.modTriad_syncOutAt (f : Triad → Triad) (d : Dev) : (Dev.modTriad f d).syncOutAt = d.syncOutAt := rfl
@[simp] theorem Dev.modTriad_reset (f : Triad → Triad) (d : Dev) : (Dev.modTriad f d).reset = d.reset := rfl
@[simp] theorem Dev.modTriad_supplies (f : Triad → Triad) (d : Dev) : (Dev.modTriad f d).supplies = d.supplies := rfl
@[simp] theorem Dev.modTriad_clocks (f : Triad → Triad) (d : Dev) : (Dev.modTriad f d).clocks = d.clocks := rfl
@[simp] theorem Dev.modTriad_loader (f : Triad → Triad) (d : Dev) : (Dev.modTriad f d).loader = d.loader := rfl
@[simp] theorem Dev.modTriad_fuses (f : Triad → Triad) (d : Dev) : (Dev.modTriad f d).fuses = d.fuses := rfl
@[simp] theorem Dev.modTriad_bootsel (f : Triad → Triad) (d : Dev) : (Dev.modTriad f d).bootsel = d.bootsel := rfl
@[simp] theorem Dev.modTriad_engines (f : Triad → Triad) (d : Dev) : (Dev.modTriad f d).engines = d.engines := rfl
@[simp] theorem Dev.modTriad_groups (f : Triad → Triad) (d : Dev) : (Dev.modTriad f d).groups = d.groups := rfl
@[simp] theorem Dev.modTriad_tripIn (f : Triad → Triad) (d : Dev) : (Dev.modTriad f d).tripIn = d.tripIn := rfl
@[simp] theorem Dev.modTriad_lanes (f : Triad → Triad) (d : Dev) : (Dev.modTriad f d).lanes = d.lanes := rfl
@[simp] theorem Dev.modTriad_conv (f : Triad → Triad) (d : Dev) : (Dev.modTriad f d).conv = d.conv := rfl
@[simp] theorem Dev.modTriad_acc (f : Triad → Triad) (d : Dev) : (Dev.modTriad f d).acc = d.acc := rfl
@[simp] theorem Dev.modTriad_mmx (f : Triad → Triad) (d : Dev) : (Dev.modTriad f d).mmx = d.mmx := rfl
@[simp] theorem Dev.modTriad_trims (f : Triad → Triad) (d : Dev) : (Dev.modTriad f d).trims = d.trims := rfl
@[simp] theorem Dev.modTriad_cmps (f : Triad → Triad) (d : Dev) : (Dev.modTriad f d).cmps = d.cmps := rfl
@[simp] theorem Dev.modTriad_cal (f : Triad → Triad) (d : Dev) : (Dev.modTriad f d).cal = d.cal := rfl
@[simp] theorem Dev.modTriad_acq (f : Triad → Triad) (d : Dev) : (Dev.modTriad f d).acq = d.acq := rfl
@[simp] theorem Dev.modTriad_pos (f : Triad → Triad) (d : Dev) : (Dev.modTriad f d).pos = d.pos := rfl
@[simp] theorem Dev.modTriad_mc (f : Triad → Triad) (d : Dev) : (Dev.modTriad f d).mc = d.mc := rfl
@[simp] theorem Dev.modTriad_triad (f : Triad → Triad) (d : Dev) : (Dev.modTriad f d).triad = f d.triad := rfl
@[simp] theorem Dev.modTriad_sloe (f : Triad → Triad) (d : Dev) : (Dev.modTriad f d).sloe = d.sloe := rfl
@[simp] theorem Dev.modTriad_can (f : Triad → Triad) (d : Dev) : (Dev.modTriad f d).can = d.can := rfl
@[simp] theorem Dev.modTriad_crcs (f : Triad → Triad) (d : Dev) : (Dev.modTriad f d).crcs = d.crcs := rfl
@[simp] theorem Dev.modTriad_capture (f : Triad → Triad) (d : Dev) : (Dev.modTriad f d).capture = d.capture := rfl
@[simp] theorem Dev.modTriad_mgmt (f : Triad → Triad) (d : Dev) : (Dev.modTriad f d).mgmt = d.mgmt := rfl
@[simp] theorem Dev.modTriad_host (f : Triad → Triad) (d : Dev) : (Dev.modTriad f d).host = d.host := rfl
@[simp] theorem Dev.modTriad_net (f : Triad → Triad) (d : Dev) : (Dev.modTriad f d).net = d.net := rfl
@[simp] theorem Dev.modTriad_canopen (f : Triad → Triad) (d : Dev) : (Dev.modTriad f d).canopen = d.canopen := rfl
@[simp] theorem Dev.modTriad_gpioIn (f : Triad → Triad) (d : Dev) : (Dev.modTriad f d).gpioIn = d.gpioIn := rfl
@[simp] theorem Dev.modTriad_padHeld (f : Triad → Triad) (d : Dev) : (Dev.modTriad f d).padHeld = d.padHeld := rfl

@[simp] theorem Dev.modTriad_reg (f : Triad → Triad) (d : Dev) (k : Nat) : (Dev.modTriad f d).reg k = d.reg k := rfl
@[simp] theorem Dev.modTriad_sh (f : Triad → Triad) (d : Dev) (k : Nat) : (Dev.modTriad f d).sh k = d.sh k := rfl

end Sys2Proof.Machine
end

