-- ==== Sys2Proof/Laws/Store.lean ====
section
/-!
SUPPORT. Sparse stores: what a read gives after a write, and that every write keeps the canonical form.
-/

namespace Sys2Proof.Machine

variable {α : Type} {dflt : Nat → α}

/-! ### Reads after writes -/

theorem lookup_filter_ne (k j : Nat) (h : j ≠ k) (l : List (Nat × α)) :
    lookup dflt j (l.filter (fun e => e.1 != k)) = lookup dflt j l := by
  induction l with
  | nil => rfl
  | cons e rest ih =>
    obtain ⟨a, v⟩ := e
    by_cases hak : a = k
    · have : a ≠ j := fun q => h (q.symm.trans hak)
      simp [hak, lookup]
      rw [ih, if_neg (fun q => h q.symm)]
    · simp [hak, lookup, ih]

theorem lookup_filter_same (k : Nat) (l : List (Nat × α)) :
    lookup dflt k (l.filter (fun e => e.1 != k)) = dflt k := by
  induction l with
  | nil => rfl
  | cons e rest ih =>
    obtain ⟨a, v⟩ := e
    by_cases hak : a = k <;> simp [hak, lookup, ih]

theorem lookup_insertKey_same (k : Nat) (v : α) (l : List (Nat × α)) (h : ∀ e ∈ l, e.1 ≠ k) :
    lookup dflt k (insertKey k v l) = v := by
  induction l with
  | nil => simp [insertKey, lookup]
  | cons e rest ih =>
    obtain ⟨a, w⟩ := e
    have ha : a ≠ k := h (a, w) (by simp)
    by_cases hl : a < k
    · simp [insertKey, hl, lookup, ha, ih (fun e he => h e (by simp [he]))]
    · simp [insertKey, hl, lookup]

theorem lookup_insertKey_ne (k j : Nat) (hj : j ≠ k) (v : α) (l : List (Nat × α)) :
    lookup dflt j (insertKey k v l) = lookup dflt j l := by
  induction l with
  | nil => simp [insertKey, lookup, Ne.symm hj]
  | cons e rest ih =>
    obtain ⟨a, w⟩ := e
    by_cases hl : a < k
    · simp [insertKey, hl, lookup, ih]
    · simp [insertKey, hl, lookup, Ne.symm hj]

/-- A key reads as what was written there last. -/
@[simp] theorem lookup_store_same [DecidableEq α] (k : Nat) (v : α) (l : List (Nat × α)) : lookup dflt k (store dflt k v l) = v := by
  unfold store
  by_cases hv : v = dflt k
  · simp [hv, lookup_filter_same]
  · simp only [hv, if_false]
    exact lookup_insertKey_same k v _ (fun e he => by simpa using (List.mem_filter.1 he).2)

/-- A write leaves every other key alone. -/
theorem lookup_store_ne [DecidableEq α] {k j : Nat} (h : j ≠ k) (v : α) (l : List (Nat × α)) :
    lookup dflt j (store dflt k v l) = lookup dflt j l := by
  unfold store
  by_cases hv : v = dflt k
  · simp [hv, lookup_filter_ne k j h]
  · simp [hv, lookup_insertKey_ne k j h, lookup_filter_ne k j h]

theorem filter_insertKey (k : Nat) (v : α) (l : List (Nat × α)) :
    (insertKey k v l).filter (fun e => e.1 != k) = l.filter (fun e => e.1 != k) := by
  induction l with
  | nil => simp [insertKey]
  | cons e rest ih =>
    obtain ⟨a, w⟩ := e
    by_cases hl : a < k
    · simp [insertKey, hl, List.filter_cons, ih]
    · simp [insertKey, hl]

/-- Of two writes to one key the later counts. -/
theorem store_store [DecidableEq α] (k : Nat) (v w : α) (l : List (Nat × α)) :
    store dflt k v (store dflt k w l) = store dflt k v l := by
  have h : (store dflt k w l).filter (fun e => e.1 != k) = l.filter (fun e => e.1 != k) := by
    unfold store
    by_cases hw : w = dflt k
    · simp [hw]
    · simp [hw, filter_insertKey]
  unfold store at *
  simp only [h]

/-! ### The canonical form -/

variable [DecidableEq α]

theorem canonicalAbove_mono {b c : Nat} (h : b ≤ c) {l : List (Nat × α)} (hl : canonicalAbove dflt c l = true) :
    canonicalAbove dflt b l = true := by
  cases l with
  | nil => rfl
  | cons e rest =>
    obtain ⟨a, v⟩ := e
    simp [canonicalAbove] at hl ⊢
    exact ⟨⟨by omega, hl.1.2⟩, hl.2⟩

theorem canonicalAbove_filter (p : Nat × α → Bool) {b : Nat} {l : List (Nat × α)} (hl : canonicalAbove dflt b l = true) :
    canonicalAbove dflt b (l.filter p) = true := by
  induction l generalizing b with
  | nil => rfl
  | cons e rest ih =>
    obtain ⟨a, v⟩ := e
    simp [canonicalAbove] at hl
    by_cases hp : p (a, v) = true
    · simp [hp, canonicalAbove, hl.1.1, hl.1.2, ih hl.2]
    · simp [hp]
      exact canonicalAbove_mono (by omega) (ih hl.2)

theorem canonicalAbove_insertKey {k : Nat} {v : α} (hv : v ≠ dflt k) {b : Nat} {l : List (Nat × α)} (hb : b ≤ k)
    (hne : ∀ e ∈ l, e.1 ≠ k) (hl : canonicalAbove dflt b l = true) : canonicalAbove dflt b (insertKey k v l) = true := by
  induction l generalizing b with
  | nil => simp [insertKey, canonicalAbove, hb, hv]
  | cons e rest ih =>
    obtain ⟨a, w⟩ := e
    have ha : a ≠ k := hne (a, w) (by simp)
    simp [canonicalAbove] at hl
    by_cases hl2 : a < k
    · simp [insertKey, hl2, canonicalAbove, hl.1.1, hl.1.2]
      exact ih (by omega) (fun e he => hne e (by simp [he])) hl.2
    · simp [insertKey, hl2, canonicalAbove, hb, hv, hl.1.2, hl.2]
      omega

/-- Every write keeps the canonical form. -/
theorem canonical_store (k : Nat) (v : α) {l : List (Nat × α)} (hl : canonical dflt l = true) :
    canonical dflt (store dflt k v l) = true := by
  unfold store
  have hf := canonicalAbove_filter (fun e => e.1 != k) (b := 0) hl
  by_cases hv : v = dflt k
  · simpa [hv, canonical] using hf
  · simp only [hv, if_false]
    exact canonicalAbove_insertKey hv (Nat.zero_le k) (fun e he => by simpa using (List.mem_filter.1 he).2) hf

/-- Dropping entries keeps the canonical form. -/
theorem canonical_filter (p : Nat × α → Bool) {l : List (Nat × α)} (hl : canonical dflt l = true) :
    canonical dflt (l.filter p) = true := canonicalAbove_filter p hl

/-- Replacing or dropping entries in place keeps the canonical form where no entry becomes the default. -/
theorem canonical_filterMap (f : Nat × α → Option (Nat × α)) (hf : ∀ e e', f e = some e' → e'.1 = e.1 ∧ (e.2 ≠ dflt e.1 → e'.2 ≠ dflt e.1))
    {l : List (Nat × α)} (hl : canonical dflt l = true) : canonical dflt (l.filterMap f) = true := by
  unfold canonical at *
  suffices ∀ b, canonicalAbove dflt b l = true → canonicalAbove dflt b (l.filterMap f) = true from this 0 hl
  clear hl
  induction l with
  | nil => intro b _; rfl
  | cons e rest ih =>
    intro b h
    obtain ⟨a, v⟩ := e
    simp [canonicalAbove] at h
    cases hfe : f (a, v) with
    | none =>
      simp [List.filterMap, hfe]
      exact canonicalAbove_mono (by omega) (ih _ h.2)
    | some e' =>
      obtain ⟨a', v'⟩ := e'
      have := hf _ _ hfe
      simp at this
      simp [List.filterMap, hfe, canonicalAbove, this.1, h.1.1]
      exact ⟨this.2 h.1.2, ih _ h.2⟩

end Sys2Proof.Machine
end

