-- ==== Sys2Proof/Laws/Ops.lean ====
section
/-!
SUPPORT. What each operation on registers, shadows and memories does and leaves: one lemma per question.
-/

namespace Sys2Proof.Machine

/-! ### Registers and shadows -/

@[simp] theorem Dev.reg_setReg_same (k : Nat) (v : Word) (d : Dev) : (d.setReg k v).reg k = v := lookup_store_same k v d.regs

theorem Dev.reg_setReg_ne {k j : Nat} (h : j ≠ k) (v : Word) (d : Dev) : (d.setReg k v).reg j = d.reg j := lookup_store_ne h v d.regs

/-- What a register reads after a write to one of them. -/
theorem Dev.reg_setReg (k j : Nat) (v : Word) (d : Dev) : (d.setReg k v).reg j = if j = k then v else d.reg j := by
  split
  · next h => rw [h, Dev.reg_setReg_same]
  · next h => exact Dev.reg_setReg_ne h v d

@[simp] theorem Dev.sh_setSh_same (k : Nat) (v : Word) (d : Dev) : (d.setSh k v).sh k = v := lookup_store_same k v d.shadow

theorem Dev.sh_setSh_ne {k j : Nat} (h : j ≠ k) (v : Word) (d : Dev) : (d.setSh k v).sh j = d.sh j := lookup_store_ne h v d.shadow

/-- What a shadow reads after a write to one of them. -/
theorem Dev.sh_setSh (k j : Nat) (v : Word) (d : Dev) : (d.setSh k v).sh j = if j = k then v else d.sh j := by
  split
  · next h => rw [h, Dev.sh_setSh_same]
  · next h => exact Dev.sh_setSh_ne h v d

@[simp] theorem Dev.sh_setReg (k j : Nat) (v : Word) (d : Dev) : (d.setReg k v).sh j = d.sh j := rfl

@[simp] theorem Dev.reg_setSh (k j : Nat) (v : Word) (d : Dev) : (d.setSh k v).reg j = d.reg j := rfl

/-- A write changes no register, no shadow and no other part where it writes what stands. -/
theorem Dev.reg_setReg_self (k j : Nat) (d : Dev) : (d.setReg k (d.reg k)).reg j = d.reg j := by
  rw [Dev.reg_setReg]
  split
  · next h => rw [h]
  · rfl

/-- Of two writes to one register the later counts. -/
@[simp] theorem Dev.setReg_setReg (k : Nat) (v w : Word) (d : Dev) : (d.setReg k w).setReg k v = d.setReg k v := by
  simp only [Dev.setReg, store_store]

/-! ### Fields and bits -/

@[simp] theorem Dev.fld_setFld_same {k hi lo v : Nat} (h : hi < 32) (hl : lo ≤ hi) (d : Dev) :
    (d.setFld k hi lo v).fld k hi lo = v % 2 ^ (hi - lo + 1) := by
  unfold Dev.fld Dev.setFld
  rw [Dev.reg_setReg_same, fld_put_same h hl]

theorem Dev.fld_setFld_disjoint {k hi lo hi' lo' v : Nat} (h : hi' < lo ∨ hi < lo') (hl : lo ≤ hi) (hl' : lo' ≤ hi') (d : Dev) :
    (d.setFld k hi lo v).fld k hi' lo' = d.fld k hi' lo' := by
  unfold Dev.fld Dev.setFld
  rw [Dev.reg_setReg_same, fld_put_disjoint h hl hl']

theorem Dev.reg_setFld_ne {k j hi lo v : Nat} (h : j ≠ k) (d : Dev) : (d.setFld k hi lo v).reg j = d.reg j := Dev.reg_setReg_ne h _ d

theorem Dev.fld_setFld_ne {k j hi lo hi' lo' v : Nat} (h : j ≠ k) (d : Dev) : (d.setFld k hi lo v).fld j hi' lo' = d.fld j hi' lo' := by
  unfold Dev.fld
  rw [Dev.reg_setFld_ne h]

@[simp] theorem Dev.bit_setBit_same {k i : Nat} (h : i < 32) (b : Bool) (d : Dev) : (d.setBit k i b).bit k i = b := by
  unfold Dev.bit Dev.setBit
  rw [Dev.reg_setReg_same, bitAt_setBit_same h]

theorem Dev.bit_setBit_other {k i j : Nat} (h : j ≠ i) (b : Bool) (d : Dev) : (d.setBit k i b).bit k j = d.bit k j := by
  unfold Dev.bit Dev.setBit
  rw [Dev.reg_setReg_same, bitAt_setBit_ne h]

theorem Dev.reg_setBit_ne {k j i : Nat} (h : j ≠ k) (b : Bool) (d : Dev) : (d.setBit k i b).reg j = d.reg j := Dev.reg_setReg_ne h _ d

theorem Dev.bit_setBit_ne {k j i l : Nat} (h : j ≠ k) (b : Bool) (d : Dev) : (d.setBit k i b).bit j l = d.bit j l := by
  unfold Dev.bit
  rw [Dev.reg_setBit_ne h]

@[simp] theorem Dev.sh_setFld (k hi lo v j : Nat) (d : Dev) : (d.setFld k hi lo v).sh j = d.sh j := rfl

@[simp] theorem Dev.sh_setBit (k i j : Nat) (b : Bool) (d : Dev) : (d.setBit k i b).sh j = d.sh j := rfl

/-! ### Events and counters -/

/-- What the hardware has set in a cycle is noted beside the registers. -/
@[simp] theorem Dev.reg_noteSet (key k : Nat) (m : Word) (d : Dev) : (d.noteSet key m).reg k = d.reg k := rfl

@[simp] theorem Dev.sh_noteSet (key k : Nat) (m : Word) (d : Dev) : (d.noteSet key m).sh k = d.sh k := rfl

/-- A source sets its bit of EVT_RAW (R71). -/
@[simp] theorem Dev.bit_raise_same {p i : Nat} (h : i < 32) (d : Dev) : (d.raise p i).bit (Reg.evtRaw p) i = true := by
  unfold Dev.bit Dev.raise Dev.raiseMask
  rw [Dev.reg_noteSet, Dev.reg_setReg_same, bitAt, BitVec.getLsbD_or, ← bitAt, ← bitAt, bitAt_bitMask]
  simp [h]

/-- The other bits stand: no source clears a bit (R71). -/
theorem Dev.bit_raise_other {p i j : Nat} (h : j ≠ i) (d : Dev) : (d.raise p i).bit (Reg.evtRaw p) j = d.bit (Reg.evtRaw p) j := by
  unfold Dev.bit Dev.raise Dev.raiseMask
  rw [Dev.reg_noteSet, Dev.reg_setReg_same, bitAt, BitVec.getLsbD_or, ← bitAt, ← bitAt, bitAt_bitMask]
  simp [h.symm]

theorem Dev.reg_raise_ne {p i k : Nat} (h : k ≠ Reg.evtRaw p) (d : Dev) : (d.raise p i).reg k = d.reg k := Dev.reg_setReg_ne h _ d

@[simp] theorem Dev.sh_raise (p i k : Nat) (d : Dev) : (d.raise p i).sh k = d.sh k := rfl

theorem Dev.reg_bumpSat_ne {k j hi lo : Nat} (h : j ≠ k) (d : Dev) : (d.bumpSat k hi lo).reg j = d.reg j := Dev.reg_setFld_ne h d

theorem Dev.reg_bumpWrap_ne {k j hi lo : Nat} (h : j ≠ k) (d : Dev) : (d.bumpWrap k hi lo).reg j = d.reg j := Dev.reg_setFld_ne h d

/-! ### Conditional changes -/

@[simp] theorem Dev.when_true (f : Dev → Dev) (d : Dev) : Dev.when true f d = f d := rfl

@[simp] theorem Dev.when_false (f : Dev → Dev) (d : Dev) : Dev.when false f d = d := rfl

/-- The one thing a conditional change does. -/
theorem Dev.when_cases (b : Bool) (f : Dev → Dev) (d : Dev) : Dev.when b f d = f d ∧ b = true ∨ Dev.when b f d = d ∧ b = false := by
  cases b
  · exact .inr ⟨rfl, rfl⟩
  · exact .inl ⟨rfl, rfl⟩

/-! ### KSTATE (R59, R61) -/

/-- KSTATE changes no register but KEY. -/
theorem Dev.reg_setKstate {p v k : Nat} (h : k % 0x1000 ≠ 0x1C) (d : Dev) : (d.setKstate p v).reg k = d.reg k := by
  unfold Dev.setKstate
  apply Dev.reg_setReg_ne
  show k ≠ p * 0x1000 + 0x1C
  omega

theorem Dev.fld_setKstate {p v k hi lo : Nat} (h : k % 0x1000 ≠ 0x1C) (d : Dev) : (d.setKstate p v).fld k hi lo = d.fld k hi lo := by
  unfold Dev.fld
  rw [Dev.reg_setKstate h]

theorem Dev.bit_setKstate {p v k i : Nat} (h : k % 0x1000 ≠ 0x1C) (d : Dev) : (d.setKstate p v).bit k i = d.bit k i := by
  unfold Dev.bit
  rw [Dev.reg_setKstate h]

/-- KSTATE reads as what was set. -/
theorem Dev.kstate_setKstate {p v : Nat} (h : v < 4) (d : Dev) : (d.setKstate p v).kstate p = v := by
  unfold Dev.kstate Dev.fld Dev.setKstate
  rw [Dev.reg_setReg_same]
  have : v = 0 ∨ v = 1 ∨ v = 2 ∨ v = 3 := by omega
  rcases this with rfl | rfl | rfl | rfl <;> rfl

/-! ### Refused accesses (R44, R78, R79) -/

theorem Dev.reg_logAccess_ne {m : Master} {a k : Nat} {w : Bool} (h1 : k ≠ Reg.SYS_AERR_ADDR) (h2 : k ≠ Reg.SYS_AERR_INFO)
    (h3 : k ≠ Reg.SYS_AERR_CNT) (d : Dev) : (d.logAccess m a w).reg k = d.reg k := by
  unfold Dev.logAccess
  dsimp only
  rw [Dev.reg_bumpSat_ne h3]
  split
  · rfl
  · rw [Dev.reg_setReg_ne h2, Dev.reg_setReg_ne h1]

/-- A refusal changes the page's EVT_RAW and the SYS record of access errors, and no other register. -/
theorem Dev.reg_refuse_ne {m : Master} {p a k : Nat} {w : Bool} (h0 : k ≠ Reg.evtRaw p) (h1 : k ≠ Reg.SYS_AERR_ADDR)
    (h2 : k ≠ Reg.SYS_AERR_INFO) (h3 : k ≠ Reg.SYS_AERR_CNT) (d : Dev) : (d.refuse m p a w).reg k = d.reg k := by
  unfold Dev.refuse
  rw [Dev.reg_logAccess_ne h1 h2 h3, Dev.reg_raise_ne h0]

/-! ### Writes over the bus to a register (R44, R61, R81) -/

/-- A register without keyed fields takes no keyed write. -/
theorem keyedWrite_false {key : Nat} {v : Word} (h : (regAt key).elim 0 (fun r => r.2.2.1.keyed) = 0) : keyedWrite key v = false := by
  unfold keyedWrite
  cases hr : regAt key with
  | none => rfl
  | some r =>
    rw [hr] at h
    simp only [Option.elim] at h
    simp [h]


theorem Dev.accessWrite_held {m : Master} {key : Nat} {v : Word} {op : Dev → Dev} {d : Dev} (h : d.pageHeld (key / 0x1000) = true) :
    d.accessWrite m key v op = d.refuseSys m (keyAddr key) true := by
  unfold Dev.accessWrite
  simp [h]

theorem Dev.accessWrite_barred {m : Master} {key : Nat} {v : Word} {op : Dev → Dev} {d : Dev} (h : d.pageHeld (key / 0x1000) = false)
    (hm : d.mayWrite m (key / 0x1000) (key % 0x1000) = false) :
    d.accessWrite m key v op = d.refuse m (key / 0x1000) (keyAddr key) true := by
  unfold Dev.accessWrite
  simp [h, hm]

theorem Dev.accessWrite_locked {m : Master} {key : Nat} {v : Word} {op : Dev → Dev} {d : Dev} (h : d.pageHeld (key / 0x1000) = false)
    (hm : d.mayWrite m (key / 0x1000) (key % 0x1000) = true) (hk : keyedWrite key v = true) (hs : d.kstate (key / 0x1000) ≠ 2) :
    d.accessWrite m key v op = d.refuse m (key / 0x1000) (keyAddr key) true := by
  unfold Dev.accessWrite
  simp [h, hm, hk, hs]

theorem Dev.accessWrite_unlocked {m : Master} {key : Nat} {v : Word} {op : Dev → Dev} {d : Dev} (h : d.pageHeld (key / 0x1000) = false)
    (hm : d.mayWrite m (key / 0x1000) (key % 0x1000) = true) (hk : keyedWrite key v = true) (hs : d.kstate (key / 0x1000) = 2) :
    d.accessWrite m key v op = op (d.setKstate (key / 0x1000) 0) := by
  unfold Dev.accessWrite
  simp [h, hm, hk, hs]

theorem Dev.accessWrite_plain {m : Master} {key : Nat} {v : Word} {op : Dev → Dev} {d : Dev} (h : d.pageHeld (key / 0x1000) = false)
    (hm : d.mayWrite m (key / 0x1000) (key % 0x1000) = true) (hk : keyedWrite key v = false) : d.accessWrite m key v op = op d := by
  unfold Dev.accessWrite
  simp [h, hm, hk]

/-! ### Memory (R39) -/

theorem Dev.byteAt_setByte_ne {a b : Nat} (h : b ≠ a) (v : Byte) (d : Dev) : (d.setByte a v).byteAt b = d.byteAt b := by
  unfold Dev.setByte
  split
  · unfold Dev.byteAt; split <;> first | rfl | exact lookup_store_ne h v _
  · unfold Dev.byteAt; split <;> first | rfl | exact lookup_store_ne h v _
  · unfold Dev.byteAt; split <;> first | rfl | exact lookup_store_ne h v _
  · unfold Dev.byteAt Dev.triadByte
    split <;> first | rfl | simp [vget, lookup_store_ne h]
  · unfold Dev.byteAt; split <;> first | rfl | exact lookup_store_ne h v _
  all_goals rfl

/-- A region that holds memory which can be written. -/
def Region.writable : Region → Bool
  | .sram | .leProg _ | .leData _ | .triad | .dram => true
  | .rom | .page _ _ | .unmapped => false

theorem vote8_self (b : Byte) : vote8 b b b = b := by
  simp [vote8]

/-- A byte just written reads as what was written. -/
theorem Dev.byteAt_setByte_same {a : Nat} (h : (regionOf a).writable = true) (v : Byte) (d : Dev) : (d.setByte a v).byteAt a = v := by
  unfold Dev.setByte Dev.byteAt
  cases hr : regionOf a <;> simp [hr, Region.writable, Dev.triadByte, vget, vote8_self] at h ⊢

/-- Bytes written upward from an address change no byte outside them. -/
theorem Dev.byteAt_setBytes_ne {a b : Nat} (bs : List Byte) (h : b < a ∨ a + bs.length ≤ b) (d : Dev) :
    (Dev.setBytes a bs d).byteAt b = d.byteAt b := by
  induction bs generalizing a d with
  | nil => rfl
  | cons x rest ih =>
    unfold Dev.setBytes
    simp only [List.length_cons] at h
    rw [ih (by omega), Dev.byteAt_setByte_ne (by omega)]

@[simp] theorem Dev.reg_setByte (a k : Nat) (b : Byte) (d : Dev) : (d.setByte a b).reg k = d.reg k := by
  unfold Dev.setByte
  split <;> rfl

@[simp] theorem Dev.reg_setBytes (a k : Nat) (bs : List Byte) (d : Dev) : (Dev.setBytes a bs d).reg k = d.reg k := by
  induction bs generalizing a d with
  | nil => rfl
  | cons x rest ih =>
    unfold Dev.setBytes
    rw [ih, Dev.reg_setByte]

/-! ### Outcomes -/

/-- A command's outcome is always a next state, with the queue as it stands. -/
@[simp] theorem State.onDev_eq (s : State) (f : Dev → Dev) : s.onDev f = .next { s with dev := f s.dev } := rfl

end Sys2Proof.Machine
end

