-- ==== Sys2Proof/Laws/Bus.lean ====
section
/-!
SUPPORT. Addresses of registers, and what a write that lands does where the map and the table permit it and where they do not.
-/

namespace Sys2Proof.Machine

/-- An assigned page lies below 0x100. -/
theorem pageKind_lt {p : Nat} (h : (pageKind? p).isSome = true) : p < 0x100 := by
  by_cases q : p < 0x100
  · exact q
  · exfalso
    revert h
    unfold pageKind?
    repeat rw [if_neg (by omega)]
    simp

/-- A register's address lies on its page, at its offset. -/
theorem regionOf_keyAddr {p off : Nat} (h : (pageKind? p).isSome = true) (ho : off < 0x1000) :
    regionOf (keyAddr (p * 0x1000 + off)) = .page p off := by
  have hp := pageKind_lt h
  unfold regionOf keyAddr
  rw [if_neg (by omega), if_neg (by omega), if_neg (by omega), if_neg (by omega), if_pos (by omega)]
  have h1 : (0x40000000 + (p * 0x1000 + off) - 0x40000000) / 0x1000 = p := by omega
  have h2 : (0x40000000 + (p * 0x1000 + off) - 0x40000000) % 0x1000 = off := by omega
  simp only [h1, h2, h, if_true]

/-- A 32-bit write that the page takes. -/
theorem Dev.landWrite_page {m : Master} {a p off : Nat} {v : Word} {d : Dev} (hr : regionOf a = .page p off)
    (hh : d.pageHeld p = false) (hm : d.mayWrite m p off = true) : d.landWrite m a 4 v = d.pageWrite m p (off - off % 4) v := by
  unfold Dev.landWrite
  rw [hr]
  simp [hh, hm]

/-- A write to a page held in reset: the SYS record alone (R81). -/
theorem Dev.landWrite_held {m : Master} {a p off n : Nat} {v : Word} {d : Dev} (hr : regionOf a = .page p off)
    (hh : d.pageHeld p = true) : d.landWrite m a n v = d.refuseSys m a true := by
  unfold Dev.landWrite
  rw [hr]
  simp [hh]

/-- A write that the table of R43 does not permit, or that is narrower than the register, sets ACCESS_ERR (R15, R44). -/
theorem Dev.landWrite_refused {m : Master} {a p off n : Nat} {v : Word} {d : Dev} (hr : regionOf a = .page p off)
    (hh : d.pageHeld p = false) (hm : d.mayWrite m p off = false ∨ n ≠ 4) : d.landWrite m a n v = d.refuse m p a true := by
  unfold Dev.landWrite
  rw [hr]
  rcases hm with hm | hm <;> simp [hh, hm]

/-- A write to memory that the table permits; one to DRAM is traffic of the DRAM (R127). -/
theorem Dev.landWrite_memory {m : Master} {a n : Nat} {v : Word} {d : Dev} (hr : (regionOf a).writable = true)
    (hm : d.mayAccess m true a = true) :
    d.landWrite m a n v = (if regionOf a = .dram then d.touchDram else d).setBytes a ((wordBytes v).take n) := by
  unfold Dev.landWrite
  cases h : regionOf a <;> simp [h, Region.writable] at hr <;> simp [hm]

/-- What stands on the bus: a write in a FAB cycle of its own lands there. -/
theorem Dev.busWrite_lands (m : Master) (a n : Nat) (v : Word) (d : Dev) :
    d.busWrite m a n v = (d.enterCycle m false).landWrite m a n v := rfl

/-- The cycle in which a write lands changes nothing but what stands beside the registers for a cycle. -/
theorem Dev.enterCycle_eq (m : Master) (same : Bool) (d : Dev) : ∃ x, d.enterCycle m same = Dev.putCyc x d := by
  unfold Dev.enterCycle Dev.newCycle
  split
  · exact ⟨_, rfl⟩
  · exact ⟨_, rfl⟩

/-- No register and no reset, then. -/
@[simp] theorem Dev.reg_enterCycle (m : Master) (same : Bool) (d : Dev) (k : Nat) : (d.enterCycle m same).reg k = d.reg k := by
  unfold Dev.enterCycle
  split <;> rfl

@[simp] theorem Dev.sh_enterCycle (m : Master) (same : Bool) (d : Dev) (k : Nat) : (d.enterCycle m same).sh k = d.sh k := by
  unfold Dev.enterCycle
  split <;> rfl

/-- Nor does it change what the access table permits. -/
@[simp] theorem Dev.mayWrite_enterCycle (m n : Master) (same : Bool) (d : Dev) (p off : Nat) :
    (d.enterCycle m same).mayWrite n p off = d.mayWrite n p off := by
  unfold Dev.enterCycle
  split <;> rfl

@[simp] theorem Dev.mayAccess_enterCycle (m n : Master) (same write : Bool) (d : Dev) (a : Nat) :
    (d.enterCycle m same).mayAccess n write a = d.mayAccess n write a := by
  unfold Dev.enterCycle
  split <;> rfl

@[simp] theorem Dev.kstate_enterCycle (m : Master) (same : Bool) (d : Dev) (p : Nat) :
    (d.enterCycle m same).kstate p = d.kstate p := by
  unfold Dev.enterCycle
  split <;> rfl

@[simp] theorem Dev.pageHeld_enterCycle (m : Master) (same : Bool) (d : Dev) (p : Nat) :
    (d.enterCycle m same).pageHeld p = d.pageHeld p := by
  unfold Dev.enterCycle
  split <;> rfl

end Sys2Proof.Machine
end

