-- ==== Sys2Proof/Laws/Wf.lean ====
section
/-!
SUPPORT. The canonical form of registers, shadows and memories: what it says, and that every operation on a memory keeps it.
-/

namespace Sys2Proof.Machine

theorem Memory.wf_iff {d : Dev} : Memory.wf d = true ↔
    canonical zeroByte d.mem = true ∧ (∀ i (h : i < 3), canonical zeroByte d.triadMem[i] = true) ∧
      canonical (dramByte d.dramEpoch) d.dram = true ∧ canonical erasedByte d.flash = true := by
  unfold Memory.wf
  have : d.triadMem.toList.all (canonical zeroByte) = true ↔ ∀ i (h : i < 3), canonical zeroByte d.triadMem[i] = true := by
    rw [List.all_eq_true]
    constructor
    · intro h i hi
      exact h _ (by simp [Vector.toList])
    · intro h x hx
      rw [Vector.mem_toList_iff, Vector.mem_iff_getElem] at hx
      obtain ⟨i, hi, rfl⟩ := hx
      exact h i hi
  simp only [Bool.and_eq_true, this, and_assoc]

/-- The memories of one copy of the triad TCM, changed by an operation that keeps the form. -/
theorem canonical_vmod {v : Vector (List Host.Cell) 3} (h : ∀ i (hi : i < 3), canonical zeroByte v[i] = true) (c : Nat)
    (f : List Host.Cell → List Host.Cell) (hf : ∀ l, canonical zeroByte l = true → canonical zeroByte (f l) = true) :
    ∀ i (hi : i < 3), canonical zeroByte (vmod [] v c f)[i] = true := by
  intro i hi
  unfold vmod vset
  rw [Vector.getElem_setIfInBounds]
  split
  · next q =>
    subst q
    apply hf
    simpa [vget, hi] using h c hi
  · exact h i hi

theorem canonical_foldl_store {β : Type} {dflt : Nat → Byte} (key : β → Nat) (val : β → Byte) (bs : List β) {l : List Host.Cell}
    (h : canonical dflt l = true) : canonical dflt (bs.foldl (fun l p => store dflt (key p) (val p) l) l) = true := by
  induction bs generalizing l with
  | nil => exact h
  | cons b rest ih => exact ih (canonical_store _ _ h)

theorem Dev.Wf.setByte {d : Dev} (h : d.Wf) (a : Nat) (b : Byte) : (d.setByte a b).Wf := by
  obtain ⟨hr, hs, hm⟩ := h
  have hm := Memory.wf_iff.1 hm
  unfold Dev.setByte
  split
  all_goals refine ⟨hr, hs, Memory.wf_iff.2 ?_⟩
  case h_4 =>
    refine ⟨hm.1, ?_, hm.2.2.1, hm.2.2.2⟩
    intro i hi
    simp only [Vector.getElem_map]
    exact canonical_store a b (hm.2.1 i hi)
  case h_5 => exact ⟨hm.1, hm.2.1, canonical_store a b hm.2.2.1, hm.2.2.2⟩
  all_goals first | exact hm | exact ⟨canonical_store a b hm.1, hm.2⟩

theorem Dev.Wf.setFlash {d : Dev} (h : d.Wf) (a : Nat) (bs : List Byte) : (Dev.setFlash a bs d).Wf := by
  obtain ⟨hr, hs, hm⟩ := h
  have hm := Memory.wf_iff.1 hm
  exact ⟨hr, hs, Memory.wf_iff.2 ⟨hm.1, hm.2.1, hm.2.2.1, canonical_foldl_store _ _ _ hm.2.2.2⟩⟩

theorem Dev.Wf.setCopy {d : Dev} (h : d.Wf) (c a : Nat) (bs : List Byte) : (Dev.setCopy c a bs d).Wf := by
  obtain ⟨hr, hs, hm⟩ := h
  have hm := Memory.wf_iff.1 hm
  exact ⟨hr, hs, Memory.wf_iff.2 ⟨hm.1, canonical_vmod hm.2.1 c _ (fun l hl => canonical_foldl_store _ _ _ hl), hm.2.2.1, hm.2.2.2⟩⟩

theorem Dev.Wf.eraseFlash {d : Dev} (h : d.Wf) (a n : Nat) : (Dev.eraseFlash a n d).Wf := by
  obtain ⟨hr, hs, hm⟩ := h
  have hm := Memory.wf_iff.1 hm
  exact ⟨hr, hs, Memory.wf_iff.2 ⟨hm.1, hm.2.1, hm.2.2.1, canonical_filter _ hm.2.2.2⟩⟩

theorem Dev.Wf.initMemories {d : Dev} (h : d.Wf) : (Dev.initMemories d).Wf := by
  obtain ⟨hr, hs, hm⟩ := h
  have hm := Memory.wf_iff.1 hm
  exact ⟨hr, hs, Memory.wf_iff.2 ⟨rfl, fun i hi => by simp [Dev.initMemories, canonical, canonicalAbove], hm.2.2.1, hm.2.2.2⟩⟩

theorem Dev.Wf.clearPages {d : Dev} (h : d.Wf) (ps : List Nat) : (Dev.clearPages ps d).Wf := by
  obtain ⟨hr, hs, hm⟩ := h
  refine ⟨canonical_filterMap _ ?_ hr, canonical_filter _ hs, hm⟩
  intro e e' q
  split at q
  · unfold clearedReg at q
    dsimp only at q
    split at q
    · next c =>
      simp only [Bool.and_eq_true, bne_iff_ne, ne_eq] at c
      simp only [Option.some.injEq] at q
      subst q
      exact ⟨rfl, fun _ => c.2⟩
    · simp at q
  · simp only [Option.some.injEq] at q
    subst q
    exact ⟨rfl, id⟩

theorem Dev.Wf.loseDram {d : Dev} (h : d.Wf) : (Dev.loseDram d).Wf := by
  obtain ⟨hr, hs, hm⟩ := h
  have hm := Memory.wf_iff.1 hm
  exact ⟨hr, hs, Memory.wf_iff.2 ⟨hm.1, hm.2.1, rfl, hm.2.2.2⟩⟩

theorem Dev.Wf.zeroDram {d : Dev} (h : d.Wf) : ({ d with dram := [], dramEpoch := 0 } : Dev).Wf := by
  obtain ⟨hr, hs, hm⟩ := h
  have hm := Memory.wf_iff.1 hm
  exact ⟨hr, hs, Memory.wf_iff.2 ⟨hm.1, hm.2.1, rfl, hm.2.2.2⟩⟩

/-- The state after reset is in canonical form. -/
theorem reset_wf : State.reset.dev.Wf := ⟨by decide, rfl, rfl⟩

end Sys2Proof.Machine
end

