-- ==== Sys2Proof/Laws/Keeps.lean ====
section
/-!
SUPPORT. What every command keeps, whatever it does: the canonical form of every store, the fuses once burnt, that no leg has
both of its switches on, and the clock of the model, which only a tick advances. This file says it of the primitive operations; the files Keeps* say it of every
operation built on them.
-/

namespace Sys2Proof.Machine

/-- What holds of the device `b` that a command leaves, of the device `a` that it found. -/
structure Keeps (a b : Dev) : Prop where
  wf    : a.Wf → b.Wf
  sig   : a.fuses.sigRequired = true → b.fuses.sigRequired = true
  hash  : ∀ h, a.fuses.keyHash = some h → b.fuses.keyHash = some h
  mac   : b.fuses.mac = a.fuses.mac
  now   : b.now = a.now
  count : a.freeCount ≤ b.freeCount
  legs  : a.NoShootThrough → b.NoShootThrough

theorem Keeps.refl (a : Dev) : Keeps a a := ⟨id, id, fun _ => id, rfl, rfl, Nat.le_refl _, id⟩

/-- A device that differs in no store, fuse, clock or count. -/
theorem keeps_mk {a d : Dev} (h : Keeps a d) {devTime' rateAcc' cyc' readData' timeHi' activeSeen' dramAt' romAt' flashSize'
    syncOutAt' reset' supplies' clocks' loader' bootsel' engines' tripIn' lanes' conv' acc' mmx' trims' cmps' cal' acq' pos'
    mc' triad' sloe' can' crcs' capture' mgmt' host' net' canopen' gpioIn' padHeld'} :
        Keeps a (Dev.mk d.regs d.shadow d.mem d.triadMem d.dram d.flash d.dramEpoch d.now devTime' rateAcc' cyc' readData'
      d.freeCount timeHi' activeSeen' dramAt' romAt' flashSize' syncOutAt' reset' supplies' clocks' loader' d.fuses bootsel'
      engines' d.groups tripIn' lanes' conv' acc' mmx' trims' cmps' cal' acq' pos' mc' triad' sloe' can' crcs' capture' mgmt'
      host' net' canopen' gpioIn' padHeld') :=
  ⟨h.wf, h.sig, h.hash, h.mac, h.now, h.count, h.legs⟩

/-- A device that differs in its groups, none of which turns both switches of a leg on. -/
theorem keeps_groups {a d : Dev} {gs : Vector Group 12} (h : Keeps a d)
    (hg : d.NoShootThrough → ∀ g, (vget {} gs g).NoShoot) : Keeps a { d with groups := gs } :=
  ⟨h.wf, h.sig, h.hash, h.mac, h.now, h.count, fun q => hg (h.legs q)⟩

/-- An element of a vector after one of them changed. -/
theorem vget_vmod {α : Type} {n : Nat} (x : α) (v : Vector α n) (i j : Nat) (f : α → α) :
    vget x (vmod x v i f) j = if i = j ∧ j < n then f (vget x v i) else vget x v j := by
  unfold vmod vset
  by_cases hj : j < n
  · by_cases hij : i = j
    · subst hij; simp [vget, hj]
    · simp [vget, hj, hij]
  · simp [vget, hj]

theorem vget_map {α β : Type} {n : Nat} {x : α} {y : β} (f : α → β) (h : f x = y) (v : Vector α n) (i : Nat) :
    vget y (v.map f) i = f (vget x v i) := by
  by_cases hi : i < n
  · simp [vget, hi]
  · simp [vget, hi, h]

theorem noShoot_fresh (g : Nat) : (vget ({} : Group) (Vector.replicate 12 {}) g).NoShoot := by
  intro k
  have : vget ({} : Group) (Vector.replicate 12 {}) g = {} := by
    by_cases hg : g < 12 <;> simp [vget, hg]
  rw [this]
  by_cases hk : k < 4 <;> simp [vget, hk]

/-- A group cleared of all but what stands at its pins. -/
theorem noShoot_clear {x : Group} (h : x.NoShoot) :
    Group.NoShoot { legs := x.legs.map (fun l => { onH := l.onH, onL := l.onL, offAt := l.offAt, hist := l.hist }) } := by
  intro k
  dsimp only
  rw [vget_map (x := ({} : Leg)) (fun l : Leg => ({ onH := l.onH, onL := l.onL, offAt := l.offAt, hist := l.hist } : Leg)) rfl]
  exact h k

/-! ### Ways to build an operation -/

theorem keeps_ite {a : Dev} {c : Prop} [Decidable c] {x y : Dev} (hx : Keeps a x) (hy : Keeps a y) : Keeps a (if c then x else y) := by
  split <;> assumption

theorem keeps_ite_snd {α : Type} {a : Dev} {c : Prop} [Decidable c] {x y : α × Dev} (hx : Keeps a x.2) (hy : Keeps a y.2) :
    Keeps a (if c then x else y).2 := by
  split <;> assumption

theorem keeps_pair {α : Type} {a d : Dev} {x : α} (h : Keeps a d) : Keeps a ((x, d) : α × Dev).2 := h

theorem keeps_id {a d : Dev} (h : Keeps a d) : Keeps a (id d) := h

theorem keeps_ite_snd2 {α β : Type} {a : Dev} {c : Prop} [Decidable c] {x y : α × β × Dev} (hx : Keeps a x.2.2) (hy : Keeps a y.2.2) :
    Keeps a (if c then x else y).2.2 := by
  split <;> assumption

theorem keeps_triple {α β : Type} {a d : Dev} {x : α} {y : β} (h : Keeps a d) : Keeps a ((x, y, d) : α × β × Dev).2.2 := h

theorem keeps_foldl {α : Type} {a : Dev} {f : Dev → α → Dev} (hf : ∀ d x, Keeps a d → Keeps a (f d x)) {l : List α} {d : Dev}
    (h : Keeps a d) : Keeps a (l.foldl f d) := by
  induction l generalizing d with
  | nil => exact h
  | cons x rest ih => exact ih (hf d x h)

theorem keeps_foldl_snd {α β : Type} {a : Dev} {f : β × Dev → α → β × Dev} (hf : ∀ p x, Keeps a p.2 → Keeps a (f p x).2) {l : List α}
    {p : β × Dev} (h : Keeps a p.2) : Keeps a (l.foldl f p).2 := by
  induction l generalizing p with
  | nil => exact h
  | cons x rest ih => exact ih (hf p x h)

theorem keeps_each {α : Type} {a : Dev} {f : α → Dev → Dev} (hf : ∀ x d, Keeps a d → Keeps a (f x d)) {l : List α} {d : Dev}
    (h : Keeps a d) : Keeps a (each l f d) := keeps_foldl (fun d x => hf x d) h

theorem keeps_each_snd {α β : Type} {a : Dev} {f : α → β × Dev → β × Dev} (hf : ∀ x p, Keeps a p.2 → Keeps a (f x p).2) {l : List α}
    {p : β × Dev} (h : Keeps a p.2) : Keeps a (each l f p).2 := keeps_foldl_snd (fun p x => hf x p) h

theorem Dev.when_keeps {a : Dev} {b : Bool} {f : Dev → Dev} {d : Dev} (hf : ∀ d, Keeps a d → Keeps a (f d)) (h : Keeps a d) :
    Keeps a (Dev.when b f d) := by
  unfold Dev.when
  split
  · exact hf d h
  · exact h

/-! ### Primitive operations -/

theorem Dev.setReg_keeps {a d : Dev} {k : Nat} {v : Word} (h : Keeps a d) : Keeps a (d.setReg k v) :=
  ⟨fun ha => ⟨canonical_store k v (h.wf ha).1, (h.wf ha).2⟩, h.sig, h.hash, h.mac, h.now, h.count, h.legs⟩

theorem Dev.setSh_keeps {a d : Dev} {k : Nat} {v : Word} (h : Keeps a d) : Keeps a (d.setSh k v) :=
  ⟨fun ha => ⟨(h.wf ha).1, canonical_store k v (h.wf ha).2.1, (h.wf ha).2.2⟩, h.sig, h.hash, h.mac, h.now, h.count, h.legs⟩

theorem Dev.free_keeps {a d : Dev} (h : Keeps a d) : Keeps a d.free.2 :=
  ⟨h.wf, h.sig, h.hash, h.mac, h.now, Nat.le_succ_of_le h.count, h.legs⟩

/-- An outcome that goes on, with the queue as it stands and a device that keeps what every command keeps. -/
def Kept (s : State) (o : Host.Outcome State Fault Refusal) : Prop := ∃ d, o = .next { s with dev := d } ∧ Keeps s.dev d

theorem onDev_kept {s : State} {f : Dev → Dev} (hf : ∀ d, Keeps s.dev d → Keeps s.dev (f d)) : Kept s (s.onDev f) :=
  ⟨f s.dev, rfl, hf s.dev (Keeps.refl _)⟩

/-- A device out of a pair that an operation answered. -/
theorem keeps_of_eq {α : Type} {a d : Dev} {x : α} {p : α × Dev} (e : p = (x, d)) (h : Keeps a p.2) : Keeps a d := by
  subst e
  exact h

end Sys2Proof.Machine
end

