-- ==== Sys2Proof/Laws/KeepsOps.lean ====
section
/-!
SUPPORT. What the operations of Machine/Ops.lean keep: see Keeps.lean.
-/

namespace Sys2Proof.Machine

theorem Dev.setFld_keeps {dev0 : Dev} {k : Nat} {hi : Nat} {lo : Nat} {v : Nat} {d : Dev} (hk : Keeps dev0 d) : Keeps dev0
    (Dev.setFld k hi lo v d) := by
  unfold Dev.setFld
  with_reducible repeat' first
    | assumption | intro _ | apply Dev.setReg_keeps | apply keeps_ite | apply keeps_ite_snd | apply keeps_each
    | apply keeps_foldl | apply keeps_each_snd | apply keeps_foldl_snd | apply keeps_id
    | refine keeps_of_eq (by assumption) ?_ | split | dsimp only

theorem Dev.setBit_keeps {dev0 : Dev} {k : Nat} {i : Nat} {b : Bool} {d : Dev} (hk : Keeps dev0 d) : Keeps dev0 (Dev.setBit k i
    b d) := by
  unfold Dev.setBit
  with_reducible repeat' first
    | assumption | intro _ | apply Dev.setReg_keeps | apply keeps_ite | apply keeps_ite_snd | apply keeps_each
    | apply keeps_foldl | apply keeps_each_snd | apply keeps_foldl_snd | apply keeps_id
    | refine keeps_of_eq (by assumption) ?_ | split | dsimp only

theorem Dev.addSat_keeps {dev0 : Dev} {k : Nat} {hi : Nat} {lo : Nat} {n : Nat} {d : Dev} (hk : Keeps dev0 d) : Keeps dev0
    (Dev.addSat k hi lo n d) := by
  unfold Dev.addSat
  with_reducible repeat' first
    | assumption | intro _ | apply Dev.setFld_keeps | apply keeps_ite | apply keeps_ite_snd | apply keeps_each
    | apply keeps_foldl | apply keeps_each_snd | apply keeps_foldl_snd | apply keeps_id
    | refine keeps_of_eq (by assumption) ?_ | split | dsimp only

theorem Dev.bumpSat_keeps {dev0 : Dev} {k : Nat} {hi : Nat} {lo : Nat} {d : Dev} (hk : Keeps dev0 d) : Keeps dev0 (Dev.bumpSat k
    hi lo d) := by
  unfold Dev.bumpSat
  with_reducible repeat' first
    | assumption | intro _ | apply Dev.addSat_keeps | apply keeps_ite | apply keeps_ite_snd | apply keeps_each
    | apply keeps_foldl | apply keeps_each_snd | apply keeps_foldl_snd | apply keeps_id
    | refine keeps_of_eq (by assumption) ?_ | split | dsimp only

theorem Dev.bumpWrap_keeps {dev0 : Dev} {k : Nat} {hi : Nat} {lo : Nat} {d : Dev} (hk : Keeps dev0 d) : Keeps dev0 (Dev.bumpWrap
    k hi lo d) := by
  unfold Dev.bumpWrap
  with_reducible repeat' first
    | assumption | intro _ | apply Dev.setFld_keeps | apply keeps_ite | apply keeps_ite_snd | apply keeps_each
    | apply keeps_foldl | apply keeps_each_snd | apply keeps_foldl_snd | apply keeps_id
    | refine keeps_of_eq (by assumption) ?_ | split | dsimp only

theorem Dev.skipFree_keeps {dev0 : Dev} {n : Nat} {d : Dev} (hk : Keeps dev0 d) : Keeps dev0 (d.skipFree n) :=
  ⟨hk.wf, hk.sig, hk.hash, hk.mac, hk.now, Nat.le_trans hk.count (Nat.le_add_right _ _), hk.legs⟩

theorem Dev.putCyc_keeps {dev0 : Dev} {x : FabCycle} {d : Dev} (hk : Keeps dev0 d) : Keeps dev0 (Dev.putCyc x d) := keeps_mk hk

theorem Dev.newCycle_keeps {dev0 : Dev} {d : Dev} (hk : Keeps dev0 d) : Keeps dev0 (Dev.newCycle d) := by
  unfold Dev.newCycle
  with_reducible repeat' first
    | assumption | intro _ | apply Dev.putCyc_keeps | apply keeps_ite | apply keeps_ite_snd | apply keeps_each
    | apply keeps_foldl | apply keeps_each_snd | apply keeps_foldl_snd | apply keeps_id
    | refine keeps_of_eq (by assumption) ?_ | split | dsimp only

theorem Dev.noteSet_keeps {dev0 : Dev} {key : Nat} {m : Word} {d : Dev} (hk : Keeps dev0 d) : Keeps dev0 (Dev.noteSet key m d)
    := by
  unfold Dev.noteSet
  with_reducible repeat' first
    | assumption | intro _ | apply Dev.putCyc_keeps | apply keeps_ite | apply keeps_ite_snd | apply keeps_each
    | apply keeps_foldl | apply keeps_each_snd | apply keeps_foldl_snd | apply keeps_id
    | refine keeps_of_eq (by assumption) ?_ | split | dsimp only

theorem Dev.noteCwr_keeps {dev0 : Dev} {e : Nat} {word : Nat} {d : Dev} (hk : Keeps dev0 d) : Keeps dev0 (Dev.noteCwr e word d)
    := by
  unfold Dev.noteCwr
  with_reducible repeat' first
    | assumption | intro _ | apply Dev.putCyc_keeps | apply keeps_ite | apply keeps_ite_snd | apply keeps_each
    | apply keeps_foldl | apply keeps_each_snd | apply keeps_foldl_snd | apply keeps_id
    | refine keeps_of_eq (by assumption) ?_ | split | dsimp only

theorem Dev.noteSwap_keeps {dev0 : Dev} {e : Nat} {units : Nat} {d : Dev} (hk : Keeps dev0 d) : Keeps dev0 (Dev.noteSwap e units
    d) := by
  unfold Dev.noteSwap
  with_reducible repeat' first
    | assumption | intro _ | apply Dev.putCyc_keeps | apply keeps_ite | apply keeps_ite_snd | apply keeps_each
    | apply keeps_foldl | apply keeps_each_snd | apply keeps_foldl_snd | apply keeps_id
    | refine keeps_of_eq (by assumption) ?_ | split | dsimp only

theorem Dev.noteCommit_keeps {dev0 : Dev} {page : Nat} {d : Dev} (hk : Keeps dev0 d) : Keeps dev0 (Dev.noteCommit page d) := by
  unfold Dev.noteCommit
  with_reducible repeat' first
    | assumption | intro _ | apply Dev.putCyc_keeps | apply keeps_ite | apply keeps_ite_snd | apply keeps_each
    | apply keeps_foldl | apply keeps_each_snd | apply keeps_foldl_snd | apply keeps_id
    | refine keeps_of_eq (by assumption) ?_ | split | dsimp only

theorem Dev.noteFreeze_keeps {dev0 : Dev} {d : Dev} (hk : Keeps dev0 d) : Keeps dev0 (Dev.noteFreeze d) := by
  unfold Dev.noteFreeze
  with_reducible repeat' first
    | assumption | intro _ | apply Dev.putCyc_keeps | apply keeps_ite | apply keeps_ite_snd | apply keeps_each
    | apply keeps_foldl | apply keeps_each_snd | apply keeps_foldl_snd | apply keeps_id
    | refine keeps_of_eq (by assumption) ?_ | split | dsimp only

theorem Dev.raiseMask_keeps {dev0 : Dev} {page : Nat} {m : Word} {d : Dev} (hk : Keeps dev0 d) : Keeps dev0 (Dev.raiseMask page
    m d) := by
  unfold Dev.raiseMask
  with_reducible repeat' first
    | assumption | intro _ | apply Dev.noteSet_keeps | apply Dev.setReg_keeps | apply keeps_ite | apply keeps_ite_snd
    | apply keeps_each | apply keeps_foldl | apply keeps_each_snd | apply keeps_foldl_snd | apply keeps_id
    | refine keeps_of_eq (by assumption) ?_ | split | dsimp only

theorem Dev.raise_keeps {dev0 : Dev} {page : Nat} {i : Nat} {d : Dev} (hk : Keeps dev0 d) : Keeps dev0 (Dev.raise page i d) :=
    by
  unfold Dev.raise
  with_reducible repeat' first
    | assumption | intro _ | apply Dev.raiseMask_keeps | apply keeps_ite | apply keeps_ite_snd | apply keeps_each
    | apply keeps_foldl | apply keeps_each_snd | apply keeps_foldl_snd | apply keeps_id
    | refine keeps_of_eq (by assumption) ?_ | split | dsimp only

theorem Dev.bumpGen_keeps {dev0 : Dev} {page : Nat} {d : Dev} (hk : Keeps dev0 d) : Keeps dev0 (Dev.bumpGen page d) := by
  unfold Dev.bumpGen
  with_reducible repeat' first
    | assumption | intro _ | apply Dev.setFld_keeps | apply keeps_ite | apply keeps_ite_snd | apply keeps_each
    | apply keeps_foldl | apply keeps_each_snd | apply keeps_foldl_snd | apply keeps_id
    | refine keeps_of_eq (by assumption) ?_ | split | dsimp only

theorem Dev.putDevTime_keeps {dev0 : Dev} {x : Nat} {d : Dev} (hk : Keeps dev0 d) : Keeps dev0 (Dev.putDevTime x d) := keeps_mk
    hk

theorem Dev.putRateAcc_keeps {dev0 : Dev} {x : Int} {d : Dev} (hk : Keeps dev0 d) : Keeps dev0 (Dev.putRateAcc x d) := keeps_mk
    hk

theorem Dev.putReadData_keeps {dev0 : Dev} {x : Word} {d : Dev} (hk : Keeps dev0 d) : Keeps dev0 (Dev.putReadData x d) :=
    keeps_mk hk

theorem Dev.putTimeHi_keeps {dev0 : Dev} {x : List (Master × Word)} {d : Dev} (hk : Keeps dev0 d) : Keeps dev0 (Dev.putTimeHi x
    d) := keeps_mk hk

theorem Dev.putActiveSeen_keeps {dev0 : Dev} {x : List Nat} {d : Dev} (hk : Keeps dev0 d) : Keeps dev0 (Dev.putActiveSeen x d)
    := keeps_mk hk

theorem Dev.putDramAt_keeps {dev0 : Dev} {x : Option Nat} {d : Dev} (hk : Keeps dev0 d) : Keeps dev0 (Dev.putDramAt x d) :=
    keeps_mk hk

theorem Dev.putRomAt_keeps {dev0 : Dev} {x : Option Nat} {d : Dev} (hk : Keeps dev0 d) : Keeps dev0 (Dev.putRomAt x d) :=
    keeps_mk hk

theorem Dev.putSyncOutAt_keeps {dev0 : Dev} {x : Option Nat} {d : Dev} (hk : Keeps dev0 d) : Keeps dev0 (Dev.putSyncOutAt x d)
    := keeps_mk hk

theorem Dev.putReset_keeps {dev0 : Dev} {x : ResetCtl} {d : Dev} (hk : Keeps dev0 d) : Keeps dev0 (Dev.putReset x d) := keeps_mk
    hk

theorem Dev.putSupplies_keeps {dev0 : Dev} {x : Supplies} {d : Dev} (hk : Keeps dev0 d) : Keeps dev0 (Dev.putSupplies x d) :=
    keeps_mk hk

theorem Dev.putClocks_keeps {dev0 : Dev} {x : Clocks} {d : Dev} (hk : Keeps dev0 d) : Keeps dev0 (Dev.putClocks x d) := keeps_mk
    hk

theorem Dev.putLoader_keeps {dev0 : Dev} {x : Loader} {d : Dev} (hk : Keeps dev0 d) : Keeps dev0 (Dev.putLoader x d) := keeps_mk
    hk

theorem Dev.putTripIn_keeps {dev0 : Dev} {x : BitVec 13} {d : Dev} (hk : Keeps dev0 d) : Keeps dev0 (Dev.putTripIn x d) :=
    keeps_mk hk

theorem Dev.putLanes_keeps {dev0 : Dev} {x : Vector Lane 12} {d : Dev} (hk : Keeps dev0 d) : Keeps dev0 (Dev.putLanes x d) :=
    keeps_mk hk

theorem Dev.putConv_keeps {dev0 : Dev} {x : Vector Converter 24} {d : Dev} (hk : Keeps dev0 d) : Keeps dev0 (Dev.putConv x d) :=
    keeps_mk hk

theorem Dev.putAcc_keeps {dev0 : Dev} {x : Vector AcqUnit 128} {d : Dev} (hk : Keeps dev0 d) : Keeps dev0 (Dev.putAcc x d) :=
    keeps_mk hk

theorem Dev.putMmx_keeps {dev0 : Dev} {x : Vector AcqUnit 64} {d : Dev} (hk : Keeps dev0 d) : Keeps dev0 (Dev.putMmx x d) :=
    keeps_mk hk

theorem Dev.putTrims_keeps {dev0 : Dev} {x : Vector TrimPair 12} {d : Dev} (hk : Keeps dev0 d) : Keeps dev0 (Dev.putTrims x d)
    := keeps_mk hk

theorem Dev.putCmps_keeps {dev0 : Dev} {x : Vector CompRaw 64} {d : Dev} (hk : Keeps dev0 d) : Keeps dev0 (Dev.putCmps x d) :=
    keeps_mk hk

theorem Dev.putCal_keeps {dev0 : Dev} {x : Option CalStep} {d : Dev} (hk : Keeps dev0 d) : Keeps dev0 (Dev.putCal x d) :=
    keeps_mk hk

theorem Dev.modAcq_keeps {dev0 : Dev} {f : AcqSys → AcqSys} {d : Dev} (hk : Keeps dev0 d) : Keeps dev0 (Dev.modAcq f d) :=
    keeps_mk hk

theorem Dev.putTriad_keeps {dev0 : Dev} {x : Triad} {d : Dev} (hk : Keeps dev0 d) : Keeps dev0 (Dev.putTriad x d) := keeps_mk hk

theorem Dev.putCapture_keeps {dev0 : Dev} {x : Capture} {d : Dev} (hk : Keeps dev0 d) : Keeps dev0 (Dev.putCapture x d) :=
    keeps_mk hk

theorem Dev.modCrc_keeps {dev0 : Dev} {n : Nat} {f : CrcRun → CrcRun} {d : Dev} (hk : Keeps dev0 d) : Keeps dev0 (Dev.modCrc n f
    d) := keeps_mk hk

theorem Dev.putMgmt_keeps {dev0 : Dev} {x : Mgmt} {d : Dev} (hk : Keeps dev0 d) : Keeps dev0 (Dev.putMgmt x d) := keeps_mk hk

theorem Dev.putHost_keeps {dev0 : Dev} {x : HostPort} {d : Dev} (hk : Keeps dev0 d) : Keeps dev0 (Dev.putHost x d) := keeps_mk
    hk

theorem Dev.putNet_keeps {dev0 : Dev} {x : Network} {d : Dev} (hk : Keeps dev0 d) : Keeps dev0 (Dev.putNet x d) := keeps_mk hk

theorem Dev.putCanopen_keeps {dev0 : Dev} {x : CanOpen} {d : Dev} (hk : Keeps dev0 d) : Keeps dev0 (Dev.putCanopen x d) :=
    keeps_mk hk

theorem Dev.putGpioIn_keeps {dev0 : Dev} {x : BitVec 32} {d : Dev} (hk : Keeps dev0 d) : Keeps dev0 (Dev.putGpioIn x d) :=
    keeps_mk hk

theorem Dev.putPadHeld_keeps {dev0 : Dev} {x : List (Nat × Word)} {d : Dev} (hk : Keeps dev0 d) : Keeps dev0 (Dev.putPadHeld x
    d) := keeps_mk hk

theorem Dev.touchDram_keeps {dev0 : Dev} {d : Dev} (hk : Keeps dev0 d) : Keeps dev0 (Dev.touchDram d) := by
  unfold Dev.touchDram
  with_reducible repeat' first
    | assumption | intro _ | apply Dev.putDramAt_keeps | apply keeps_ite | apply keeps_ite_snd | apply keeps_each
    | apply keeps_foldl | apply keeps_each_snd | apply keeps_foldl_snd | apply keeps_id
    | refine keeps_of_eq (by assumption) ?_ | split | dsimp only

theorem Dev.touchAt_keeps {dev0 : Dev} {a0 : Nat} {d : Dev} (hk : Keeps dev0 d) : Keeps dev0 (Dev.touchAt a0 d) := by
  unfold Dev.touchAt
  with_reducible repeat' first
    | assumption | intro _ | apply Dev.touchDram_keeps | apply keeps_ite | apply keeps_ite_snd | apply keeps_each
    | apply keeps_foldl | apply keeps_each_snd | apply keeps_foldl_snd | apply keeps_id
    | refine keeps_of_eq (by assumption) ?_ | split | dsimp only

theorem Dev.modEngine_keeps {dev0 : Dev} {e : Nat} {f : Engine → Engine} {d : Dev} (hk : Keeps dev0 d) : Keeps dev0
    (Dev.modEngine e f d) := keeps_mk hk

theorem Dev.modGroup_keeps {dev0 : Dev} {g : Nat} {f : Group → Group} {d : Dev} (hf : ∀ x, x.NoShoot → (f x).NoShoot)
    (hk : Keeps dev0 d) : Keeps dev0 (Dev.modGroup g f d) := by
  refine keeps_groups hk (fun h i => ?_)
  rw [vget_vmod]
  split
  · exact hf _ (h g)
  · exact h i

theorem Dev.modLane_keeps {dev0 : Dev} {n : Nat} {f : Lane → Lane} {d : Dev} (hk : Keeps dev0 d) : Keeps dev0 (Dev.modLane n f
    d) := keeps_mk hk

theorem Dev.modMc_keeps {dev0 : Dev} {n : Nat} {f : McUnit → McUnit} {d : Dev} (hk : Keeps dev0 d) : Keeps dev0 (Dev.modMc n f
    d) := keeps_mk hk

theorem Dev.modPf_keeps {dev0 : Dev} {n : Nat} {f : PosUnit → PosUnit} {d : Dev} (hk : Keeps dev0 d) : Keeps dev0 (Dev.modPf n f
    d) := keeps_mk hk

theorem Dev.modCtl_keeps {dev0 : Dev} {n : Nat} {f : CanCtl → CanCtl} {d : Dev} (hk : Keeps dev0 d) : Keeps dev0 (Dev.modCtl n f
    d) := keeps_mk hk

theorem Dev.modSloe_keeps {dev0 : Dev} {f : Sloe → Sloe} {d : Dev} (hk : Keeps dev0 d) : Keeps dev0 (Dev.modSloe f d) :=
    keeps_mk hk

theorem Dev.modTriad_keeps {dev0 : Dev} {f : Triad → Triad} {d : Dev} (hk : Keeps dev0 d) : Keeps dev0 (Dev.modTriad f d) :=
    keeps_mk hk

theorem Dev.enterCycle_keeps {dev0 : Dev} {m : Master} {same : Bool} {d : Dev} (hk : Keeps dev0 d) : Keeps dev0 (Dev.enterCycle
    m same d) := by
  unfold Dev.enterCycle
  with_reducible repeat' first
    | assumption | intro _ | apply Dev.newCycle_keeps | apply Dev.putCyc_keeps | apply keeps_ite | apply keeps_ite_snd
    | apply keeps_each | apply keeps_foldl | apply keeps_each_snd | apply keeps_foldl_snd | apply keeps_id
    | refine keeps_of_eq (by assumption) ?_ | split | dsimp only

theorem Dev.logAccess_keeps {dev0 : Dev} {m : Master} {addr : Nat} {write : Bool} {d : Dev} (hk : Keeps dev0 d) : Keeps dev0
    (Dev.logAccess m addr write d) := by
  unfold Dev.logAccess
  with_reducible repeat' first
    | assumption | intro _ | apply Dev.setReg_keeps | apply Dev.bumpSat_keeps | apply keeps_ite | apply keeps_ite_snd
    | apply keeps_each | apply keeps_foldl | apply keeps_each_snd | apply keeps_foldl_snd | apply keeps_id
    | refine keeps_of_eq (by assumption) ?_ | split | dsimp only

theorem Dev.refuse_keeps {dev0 : Dev} {m : Master} {page : Nat} {addr : Nat} {write : Bool} {d : Dev} (hk : Keeps dev0 d) :
    Keeps dev0 (Dev.refuse m page addr write d) := by
  unfold Dev.refuse
  with_reducible repeat' first
    | assumption | intro _ | apply Dev.logAccess_keeps | apply Dev.raise_keeps | apply keeps_ite | apply keeps_ite_snd
    | apply keeps_each | apply keeps_foldl | apply keeps_each_snd | apply keeps_foldl_snd | apply keeps_id
    | refine keeps_of_eq (by assumption) ?_ | split | dsimp only

theorem Dev.refuseSys_keeps {dev0 : Dev} {m : Master} {addr : Nat} {write : Bool} {d : Dev} (hk : Keeps dev0 d) : Keeps dev0
    (Dev.refuseSys m addr write d) := by
  unfold Dev.refuseSys
  with_reducible repeat' first
    | assumption | intro _ | apply Dev.logAccess_keeps | apply Dev.raise_keeps | apply keeps_ite | apply keeps_ite_snd
    | apply keeps_each | apply keeps_foldl | apply keeps_each_snd | apply keeps_foldl_snd | apply keeps_id
    | refine keeps_of_eq (by assumption) ?_ | split | dsimp only

theorem Dev.discard_keeps {dev0 : Dev} {m : Master} {key : Nat} {d : Dev} (hk : Keeps dev0 d) : Keeps dev0 (Dev.discard m key d)
    := by
  unfold Dev.discard
  with_reducible repeat' first
    | assumption | intro _ | apply Dev.refuse_keeps | apply keeps_ite | apply keeps_ite_snd | apply keeps_each
    | apply keeps_foldl | apply keeps_each_snd | apply keeps_foldl_snd | apply keeps_id
    | refine keeps_of_eq (by assumption) ?_ | split | dsimp only

theorem Dev.setKstate_keeps {dev0 : Dev} {page : Nat} {v : Nat} {d : Dev} (hk : Keeps dev0 d) : Keeps dev0 (Dev.setKstate page v
    d) := by
  unfold Dev.setKstate
  with_reducible repeat' first
    | assumption | intro _ | apply Dev.setReg_keeps | apply keeps_ite | apply keeps_ite_snd | apply keeps_each
    | apply keeps_foldl | apply keeps_each_snd | apply keeps_foldl_snd | apply keeps_id
    | refine keeps_of_eq (by assumption) ?_ | split | dsimp only

theorem Dev.accessWrite_keeps {dev0 : Dev} {m : Master} {key : Nat} {v : Word} {op : Dev → Dev} {d : Dev} (hop : ∀ d, Keeps dev0
    d → Keeps dev0 (op d)) (hk : Keeps dev0 d) : Keeps dev0 (Dev.accessWrite m key v op d) := by
  unfold Dev.accessWrite
  with_reducible repeat' first
    | assumption | intro _ | apply hop | apply Dev.refuseSys_keeps | apply Dev.refuse_keeps | apply Dev.setKstate_keeps
    | apply keeps_ite | apply keeps_ite_snd | apply keeps_each | apply keeps_foldl | apply keeps_each_snd
    | apply keeps_foldl_snd | apply keeps_id | refine keeps_of_eq (by assumption) ?_ | split | dsimp only

theorem Dev.setByte_keeps {dev0 : Dev} {x : Nat} {b : Byte} {d : Dev} (hk : Keeps dev0 d) : Keeps dev0 (Dev.setByte x b d) := by
  refine ⟨fun ha => ?_, ?_, ?_, ?_, ?_, ?_, ?_⟩
  · exact (hk.wf ha).setByte x b
  all_goals
    unfold Dev.setByte
    split <;> first | exact hk.sig | exact hk.hash | exact hk.mac | exact hk.now | exact hk.count | exact hk.legs

theorem Dev.setBytes_keeps {dev0 : Dev} {x : Nat} {bs : List Byte} {d : Dev} (hk : Keeps dev0 d) :
    Keeps dev0 (Dev.setBytes x bs d) := by
  induction bs generalizing x d with
  | nil => exact hk
  | cons b rest ih => exact ih (Dev.setByte_keeps hk)

theorem Dev.setFlash_keeps {dev0 : Dev} {x : Nat} {bs : List Byte} {d : Dev} (hk : Keeps dev0 d) : Keeps dev0 (Dev.setFlash x bs d) :=
  ⟨fun ha => (hk.wf ha).setFlash x bs, hk.sig, hk.hash, hk.mac, hk.now, hk.count, hk.legs⟩

end Sys2Proof.Machine
end

