-- ==== Sys2Proof/Laws/KeepsPermit.lean ====
section
/-!
SUPPORT. What the operations of Machine/Permit.lean keep: see Keeps.lean.
-/

namespace Sys2Proof.Machine

theorem Dev.triadRelease_keeps {dev0 : Dev} {d : Dev} (hk : Keeps dev0 d) : Keeps dev0 (Dev.triadRelease d) := by
  unfold Dev.triadRelease
  with_reducible repeat' first
    | assumption | intro _ | apply Dev.bumpGen_keeps | apply Dev.setFld_keeps | apply Dev.setBit_keeps
    | apply Dev.modTriad_keeps | apply keeps_ite | apply keeps_ite_snd | apply keeps_each | apply keeps_foldl
    | apply keeps_each_snd | apply keeps_foldl_snd | apply keeps_id | refine keeps_of_eq (by assumption) ?_ | split
    | dsimp only

theorem Dev.sendEmcy_keeps {dev0 : Dev} {d : Dev} (hk : Keeps dev0 d) : Keeps dev0 (Dev.sendEmcy d) := by
  unfold Dev.sendEmcy
  with_reducible repeat' first
    | assumption | intro _ | apply Dev.free_keeps | apply Dev.putCanopen_keeps | apply keeps_ite | apply keeps_ite_snd
    | apply keeps_each | apply keeps_foldl | apply keeps_each_snd | apply keeps_foldl_snd | apply keeps_id
    | refine keeps_of_eq (by assumption) ?_ | split | dsimp only

theorem Dev.setCstate_keeps {dev0 : Dev} {v : Nat} {d : Dev} (hk : Keeps dev0 d) : Keeps dev0 (Dev.setCstate v d) := by
  unfold Dev.setCstate
  with_reducible repeat' first
    | assumption | intro _ | apply Dev.raise_keeps | apply Dev.setFld_keeps | apply Dev.putMgmt_keeps | apply Dev.when_keeps
    | apply Dev.sendEmcy_keeps | apply Dev.triadRelease_keeps | apply keeps_ite | apply keeps_ite_snd | apply keeps_each
    | apply keeps_foldl | apply keeps_each_snd | apply keeps_foldl_snd | apply keeps_id
    | refine keeps_of_eq (by assumption) ?_ | split | dsimp only

theorem Dev.rwcAccepted_keeps {dev0 : Dev} {d : Dev} (hk : Keeps dev0 d) : Keeps dev0 (Dev.rwcAccepted d) := by
  unfold Dev.rwcAccepted
  with_reducible repeat' first
    | assumption | intro _ | apply Dev.when_keeps | apply Dev.setCstate_keeps | apply keeps_ite | apply keeps_ite_snd
    | apply keeps_each | apply keeps_foldl | apply keeps_each_snd | apply keeps_foldl_snd | apply keeps_id
    | refine keeps_of_eq (by assumption) ?_ | split | dsimp only

theorem Dev.enterSafe_keeps {dev0 : Dev} {d : Dev} (hk : Keeps dev0 d) : Keeps dev0 (Dev.enterSafe d) := by
  unfold Dev.enterSafe
  with_reducible repeat' first
    | assumption | intro _ | apply Dev.when_keeps | apply Dev.setCstate_keeps | apply keeps_ite | apply keeps_ite_snd
    | apply keeps_each | apply keeps_foldl | apply keeps_each_snd | apply keeps_foldl_snd | apply keeps_id
    | refine keeps_of_eq (by assumption) ?_ | split | dsimp only

theorem Dev.permitUpdate_keeps {dev0 : Dev} {d : Dev} (hk : Keeps dev0 d) : Keeps dev0 (Dev.permitUpdate d) := by
  unfold Dev.permitUpdate
  with_reducible repeat' first
    | assumption | intro _ | apply Dev.raise_keeps | apply Dev.setBit_keeps | apply Dev.enterSafe_keeps | apply keeps_ite
    | apply keeps_ite_snd | apply keeps_each | apply keeps_foldl | apply keeps_each_snd | apply keeps_foldl_snd
    | apply keeps_id | refine keeps_of_eq (by assumption) ?_ | split | dsimp only

theorem Dev.triadHold_keeps {dev0 : Dev} {d : Dev} (hk : Keeps dev0 d) : Keeps dev0 (Dev.triadHold d) := by
  unfold Dev.triadHold
  with_reducible repeat' first
    | assumption | intro _ | apply Dev.putLoader_keeps | apply Dev.putTriad_keeps | apply Dev.setBit_keeps
    | apply Dev.setFld_keeps | apply Dev.permitUpdate_keeps | apply Dev.modSloe_keeps | apply keeps_ite
    | apply keeps_ite_snd | apply keeps_each | apply keeps_foldl | apply keeps_each_snd | apply keeps_foldl_snd
    | apply keeps_id | refine keeps_of_eq (by assumption) ?_ | split | dsimp only

theorem Dev.closeSession_keeps {dev0 : Dev} {d : Dev} (hk : Keeps dev0 d) : Keeps dev0 (Dev.closeSession d) := by
  unfold Dev.closeSession
  with_reducible repeat' first
    | assumption | intro _ | apply Dev.raise_keeps | apply Dev.setFld_keeps | apply Dev.setBit_keeps
    | apply Dev.permitUpdate_keeps | apply Dev.modSloe_keeps | apply keeps_ite | apply keeps_ite_snd | apply keeps_each
    | apply keeps_foldl | apply keeps_each_snd | apply keeps_foldl_snd | apply keeps_id
    | refine keeps_of_eq (by assumption) ?_ | split | dsimp only

end Sys2Proof.Machine
end

