-- ==== Sys2Proof/Laws/KeepsOwn.lean ====
section
/-!
SUPPORT. What the operations of Machine/Own.lean keep: see Keeps.lean.
-/

namespace Sys2Proof.Machine

theorem Dev.swapNow_keeps {dev0 : Dev} {e : Nat} {d : Dev} (hk : Keeps dev0 d) : Keeps dev0 (Dev.swapNow e d) := by
  unfold Dev.swapNow
  with_reducible repeat' first
    | assumption | intro _ | apply Dev.noteSwap_keeps | apply Dev.setReg_keeps | apply keeps_ite | apply keeps_ite_snd
    | apply keeps_each | apply keeps_foldl | apply keeps_each_snd | apply keeps_foldl_snd | apply keeps_id
    | refine keeps_of_eq (by assumption) ?_ | split | dsimp only

theorem Dev.swapIdle_keeps {dev0 : Dev} {e : Nat} {d : Dev} (hk : Keeps dev0 d) : Keeps dev0 (Dev.swapIdle e d) := by
  unfold Dev.swapIdle
  with_reducible repeat' first
    | assumption | intro _ | apply Dev.when_keeps | apply Dev.swapNow_keeps | apply keeps_ite | apply keeps_ite_snd
    | apply keeps_each | apply keeps_foldl | apply keeps_each_snd | apply keeps_foldl_snd | apply keeps_id
    | refine keeps_of_eq (by assumption) ?_ | split | dsimp only

theorem Dev.requestSwap_keeps {dev0 : Dev} {e : Nat} {units : Word} {d : Dev} (hk : Keeps dev0 d) : Keeps dev0 (Dev.requestSwap
    e units d) := by
  unfold Dev.requestSwap
  with_reducible repeat' first
    | assumption | intro _ | apply Dev.swapIdle_keeps | apply Dev.setReg_keeps | apply keeps_ite | apply keeps_ite_snd
    | apply keeps_each | apply keeps_foldl | apply keeps_each_snd | apply keeps_foldl_snd | apply keeps_id
    | refine keeps_of_eq (by assumption) ?_ | split | dsimp only

theorem Dev.resolveOwners_keeps {dev0 : Dev} {d : Dev} (hk : Keeps dev0 d) : Keeps dev0 (Dev.resolveOwners d) := by
  unfold Dev.resolveOwners
  with_reducible repeat' first
    | assumption | intro _ | apply Dev.setReg_keeps | apply Dev.raise_keeps | apply Dev.bumpGen_keeps
    | apply Dev.swapIdle_keeps | apply keeps_ite | apply keeps_ite_snd | apply keeps_each | apply keeps_foldl
    | apply keeps_each_snd | apply keeps_foldl_snd | apply keeps_id | refine keeps_of_eq (by assumption) ?_ | split
    | dsimp only

end Sys2Proof.Machine
end

