-- ==== Sys2Proof/Laws/KeepsLegs.lean ====
section
/-!
SUPPORT. What the operations of Machine/Legs.lean keep: see Keeps.lean.
-/

namespace Sys2Proof.Machine

theorem Dev.modLeg_keeps {dev0 : Dev} {g k : Nat} {f : Leg → Leg} {d : Dev}
    (hf : ∀ l, (l.onH && l.onL) = false → ((f l).onH && (f l).onL) = false) (hk : Keeps dev0 d) :
    Keeps dev0 (Dev.modLeg g k f d) := by
  refine Dev.modGroup_keeps (fun x hx i => ?_) hk
  dsimp only
  rw [vget_vmod]
  split
  · exact hf _ (hx k)
  · exact hx i

theorem Dev.pushEdge_keeps {dev0 : Dev} {g : Nat} {k : Nat} {kind : Nat} {pin : Int} {d : Dev} (hk : Keeps dev0 d) : Keeps dev0
    (Dev.pushEdge g k kind pin d) := by
  unfold Dev.pushEdge
  with_reducible repeat' first
    | assumption | intro _ | apply Dev.when_keeps | apply Dev.modLane_keeps | apply keeps_ite | apply keeps_ite_snd
    | apply keeps_each | apply keeps_foldl | apply keeps_each_snd | apply keeps_foldl_snd | apply keeps_id
    | refine keeps_of_eq (by assumption) ?_ | split | dsimp only

theorem Dev.driveFrom_keeps {dev0 : Dev} {own : Bool} {g k at_ : Nat} {h l : Bool} {d : Dev} (hp : (h && l) = false)
    (hk : Keeps dev0 d) : Keeps dev0 (Dev.driveFrom own g k h l at_ d) := by
  unfold Dev.driveFrom
  apply keeps_ite hk
  exact Dev.when_keeps (fun d hd => Dev.pushEdge_keeps hd) (Dev.modLeg_keeps (fun _ _ => hp) hk)

theorem Dev.driveAt_keeps {dev0 : Dev} {g k at_ : Nat} {h l : Bool} {d : Dev} (hp : (h && l) = false) (hk : Keeps dev0 d) :
    Keeps dev0 (Dev.driveAt g k h l at_ d) := Dev.driveFrom_keeps hp hk

theorem Dev.ownWant_excl (d : Dev) (g k : Nat) (l : Leg) : ((d.ownWant g k l).1 && (d.ownWant g k l).2) = false := by
  unfold Dev.ownWant
  repeat' split
  all_goals simp

/-- No source of R302 ever commands both switches of a leg on. -/
theorem Dev.want_excl (d : Dev) (g k : Nat) : ((d.want g k).1 && (d.want g k).2) = false := by
  unfold Dev.want
  repeat' split
  all_goals first | exact Dev.ownWant_excl d g k _ | simp

/-- A leg follows no further than its command. -/
theorem Leg.follow_excl {o : Leg} {dt at_ : Nat} {on : Bool} {w : Bool × Bool} (h : (w.1 && w.2) = false) :
    ((o.follow dt at_ on w).1 && (o.follow dt at_ on w).2) = false := by
  obtain ⟨x, y⟩ := w
  unfold Leg.follow
  cases x <;> cases y <;> simp_all

theorem Dev.settleLegAt_keeps {dev0 : Dev} {g at_ k : Nat} {d : Dev} (hk : Keeps dev0 d) :
    Keeps dev0 (Dev.settleLegAt g at_ k d) :=
  Dev.driveAt_keeps (Leg.follow_excl (Dev.want_excl d g k)) hk

theorem Dev.settle_keeps {dev0 : Dev} {g : Nat} {d : Dev} (hk : Keeps dev0 d) : Keeps dev0 (Dev.settle g d) := by
  unfold Dev.settle
  with_reducible repeat' first
    | assumption | intro _ | apply Dev.settleLegAt_keeps | apply keeps_ite | apply keeps_ite_snd | apply keeps_each
    | apply keeps_foldl | apply keeps_each_snd | apply keeps_foldl_snd | apply keeps_id
    | refine keeps_of_eq (by assumption) ?_ | split | dsimp only

theorem Dev.ascOn_keeps {dev0 : Dev} {g : Nat} {at_ : Nat} {d : Dev} (hk : Keeps dev0 d) : Keeps dev0 (Dev.ascOn g at_ d) := by
  unfold Dev.ascOn
  with_reducible repeat' first
    | assumption | intro _ | apply Dev.when_keeps | apply Dev.driveAt_keeps | apply keeps_ite | apply keeps_ite_snd
    | apply keeps_each | apply keeps_foldl | apply keeps_each_snd | apply keeps_foldl_snd | apply keeps_id
    | exact Bool.false_and _ | refine keeps_of_eq (by assumption) ?_ | split | dsimp only

theorem Dev.mcMask_keeps {dev0 : Dev} {g : Nat} {d : Dev} (hk : Keeps dev0 d) : Keeps dev0 (Dev.mcMask g d) := by
  unfold Dev.mcMask
  with_reducible repeat' first
    | assumption | intro _ | apply Dev.when_keeps | apply Dev.bumpSat_keeps | apply Dev.settle_keeps
    | apply Dev.setFld_keeps | apply keeps_ite | apply keeps_ite_snd | apply keeps_each | apply keeps_foldl
    | apply keeps_each_snd | apply keeps_foldl_snd | apply keeps_id | refine keeps_of_eq (by assumption) ?_ | split
    | dsimp only

theorem Dev.brakeUpdate_keeps {dev0 : Dev} {n : Nat} {d : Dev} (hk : Keeps dev0 d) : Keeps dev0 (Dev.brakeUpdate n d) := by
  unfold Dev.brakeUpdate
  with_reducible repeat' first
    | assumption | intro _ | apply Dev.setBit_keeps | apply Dev.modMc_keeps | apply keeps_ite | apply keeps_ite_snd
    | apply keeps_each | apply keeps_foldl | apply keeps_each_snd | apply keeps_foldl_snd | apply keeps_id
    | refine keeps_of_eq (by assumption) ?_ | split | dsimp only

theorem Dev.setMstate_keeps {dev0 : Dev} {n : Nat} {v : Nat} {d : Dev} (hk : Keeps dev0 d) : Keeps dev0 (Dev.setMstate n v d) :=
    by
  unfold Dev.setMstate
  with_reducible repeat' first
    | assumption | intro _ | apply Dev.when_keeps | apply Dev.raise_keeps | apply Dev.setBit_keeps | apply Dev.setFld_keeps
    | apply keeps_ite | apply keeps_ite_snd | apply keeps_each | apply keeps_foldl | apply keeps_each_snd
    | apply keeps_foldl_snd | apply keeps_id | refine keeps_of_eq (by assumption) ?_ | split | dsimp only

theorem Dev.mcLeaveRun_keeps {dev0 : Dev} {n : Nat} {d : Dev} (hk : Keeps dev0 d) : Keeps dev0 (Dev.mcLeaveRun n d) := by
  unfold Dev.mcLeaveRun
  with_reducible repeat' first
    | assumption | intro _ | apply Dev.modMc_keeps | apply Dev.setBit_keeps | apply Dev.setFld_keeps
    | apply Dev.setMstate_keeps | apply Dev.mcMask_keeps | apply keeps_ite | apply keeps_ite_snd | apply keeps_each
    | apply keeps_foldl | apply keeps_each_snd | apply keeps_foldl_snd | apply keeps_id
    | refine keeps_of_eq (by assumption) ?_ | split | dsimp only

theorem Dev.forceDrop_keeps {dev0 : Dev} {g : Nat} {d : Dev} (hk : Keeps dev0 d) : Keeps dev0 (Dev.forceDrop g d) := by
  unfold Dev.forceDrop
  with_reducible repeat' first
    | assumption | exact fun _ h => h | intro _ | apply Dev.when_keeps | apply Dev.raise_keeps | apply Dev.setReg_keeps
    | apply Dev.modGroup_keeps | apply keeps_ite | apply keeps_ite_snd | apply keeps_each | apply keeps_foldl
    | apply keeps_each_snd | apply keeps_foldl_snd | apply keeps_id | exact ‹Group.NoShoot _› _
    | refine keeps_of_eq (by assumption) ?_ | split | dsimp only

theorem Dev.captureFreeze_keeps {dev0 : Dev} {d : Dev} (hk : Keeps dev0 d) : Keeps dev0 (Dev.captureFreeze d) := by
  unfold Dev.captureFreeze
  with_reducible repeat' first
    | assumption | intro _ | apply Dev.putCapture_keeps | apply Dev.noteFreeze_keeps | apply Dev.raise_keeps
    | apply Dev.setBit_keeps | apply keeps_ite | apply keeps_ite_snd | apply keeps_each | apply keeps_foldl
    | apply keeps_each_snd | apply keeps_foldl_snd | apply keeps_id | refine keeps_of_eq (by assumption) ?_ | split
    | dsimp only

theorem Dev.captureTrigger_keeps {dev0 : Dev} {d : Dev} (hk : Keeps dev0 d) : Keeps dev0 (Dev.captureTrigger d) := by
  unfold Dev.captureTrigger
  with_reducible repeat' first
    | assumption | intro _ | apply Dev.raise_keeps | apply Dev.setReg_keeps | apply Dev.captureFreeze_keeps
    | apply Dev.putCapture_keeps | apply keeps_ite | apply keeps_ite_snd | apply keeps_each | apply keeps_foldl
    | apply keeps_each_snd | apply keeps_foldl_snd | apply keeps_id | refine keeps_of_eq (by assumption) ?_ | split
    | dsimp only

theorem Dev.setGstate_keeps {dev0 : Dev} {g : Nat} {v : Nat} {d : Dev} (hk : Keeps dev0 d) : Keeps dev0 (Dev.setGstate g v d) :=
    by
  unfold Dev.setGstate
  with_reducible repeat' first
    | assumption | intro _ | apply Dev.raise_keeps | apply Dev.setFld_keeps | apply Dev.when_keeps
    | apply Dev.mcLeaveRun_keeps | apply Dev.forceDrop_keeps | apply Dev.brakeUpdate_keeps | apply Dev.resolveOwners_keeps
    | apply Dev.closeSession_keeps | apply keeps_ite | apply keeps_ite_snd | apply keeps_each | apply keeps_foldl
    | apply keeps_each_snd | apply keeps_foldl_snd | apply keeps_id | refine keeps_of_eq (by assumption) ?_ | split
    | dsimp only

theorem Dev.applyAction_keeps {dev0 : Dev} {g : Nat} {a1 : Nat} {d : Dev} (hk : Keeps dev0 d) : Keeps dev0 (Dev.applyAction g a1
    d) := by
  unfold Dev.applyAction
  with_reducible repeat' first
    | assumption | exact fun _ h => h | intro _ | apply Dev.when_keeps | apply Dev.modGroup_keeps | apply Dev.raise_keeps
    | apply Dev.settle_keeps | apply Dev.setFld_keeps | apply keeps_ite | apply keeps_ite_snd | apply keeps_each
    | apply keeps_foldl | apply keeps_each_snd | apply keeps_foldl_snd | apply keeps_id | exact ‹Group.NoShoot _› _
    | refine keeps_of_eq (by assumption) ?_ | split | dsimp only

theorem Dev.laneTrip_keeps {dev0 : Dev} {g : Nat} {d : Dev} (hk : Keeps dev0 d) : Keeps dev0 (Dev.laneTrip g d) := by
  unfold Dev.laneTrip
  with_reducible repeat' first
    | assumption | intro _ | apply Dev.when_keeps | apply Dev.modLane_keeps | apply keeps_ite | apply keeps_ite_snd
    | apply keeps_each | apply keeps_foldl | apply keeps_each_snd | apply keeps_foldl_snd | apply keeps_id
    | refine keeps_of_eq (by assumption) ?_ | split | dsimp only

theorem Dev.tripOne_keeps {dev0 : Dev} {c : Nat} {g : Nat} {d : Dev} (hk : Keeps dev0 d) : Keeps dev0 (Dev.tripOne c g d).2 :=
    by
  unfold Dev.tripOne
  with_reducible repeat' first
    | assumption | exact fun _ h => h | intro _ | apply Dev.setBit_keeps | apply Dev.when_keeps
    | apply Dev.applyAction_keeps | apply Dev.setReg_keeps | apply Dev.raise_keeps | apply Dev.bumpSat_keeps
    | apply Dev.captureTrigger_keeps | apply Dev.modGroup_keeps | apply Dev.laneTrip_keeps | apply Dev.setGstate_keeps
    | apply keeps_ite | apply keeps_ite_snd | apply keeps_each | apply keeps_foldl | apply keeps_each_snd
    | apply keeps_foldl_snd | apply keeps_id | exact ‹Group.NoShoot _› _ | refine keeps_of_eq (by assumption) ?_ | split
    | dsimp only

theorem Dev.tripChain_keeps {dev0 : Dev} {fuel c g : Nat} {d : Dev} (hk : Keeps dev0 d) : Keeps dev0 (Dev.tripChain fuel c g d) := by
  induction fuel generalizing c g d with
  | zero => exact hk
  | succ fuel ih =>
    unfold Dev.tripChain
    apply keeps_ite
    · exact keeps_each (fun h d hd => ih hd) (Dev.tripOne_keeps hk)
    · exact Dev.tripOne_keeps hk

theorem Dev.trip_keeps {dev0 : Dev} {c : Nat} {g : Nat} {d : Dev} (hk : Keeps dev0 d) : Keeps dev0 (Dev.trip c g d) := by
  unfold Dev.trip
  with_reducible repeat' first
    | assumption | intro _ | apply Dev.tripChain_keeps | apply keeps_ite | apply keeps_ite_snd | apply keeps_each
    | apply keeps_foldl | apply keeps_each_snd | apply keeps_foldl_snd | apply keeps_id
    | refine keeps_of_eq (by assumption) ?_ | split | dsimp only

theorem Dev.holdPins_keeps {dev0 : Dev} {g : Nat} {off : Bool} {d : Dev} (hk : Keeps dev0 d) : Keeps dev0 (Dev.holdPins g off d)
    := by
  unfold Dev.holdPins
  with_reducible repeat' first
    | assumption | intro _ | apply Dev.modSloe_keeps | apply Dev.laneTrip_keeps | apply Dev.settle_keeps | apply keeps_ite
    | apply keeps_ite_snd | apply keeps_each | apply keeps_foldl | apply keeps_each_snd | apply keeps_foldl_snd
    | apply keeps_id | refine keeps_of_eq (by assumption) ?_ | split | dsimp only

theorem Dev.holdEnd_keeps {dev0 : Dev} {g : Nat} {d : Dev} (hk : Keeps dev0 d) : Keeps dev0 (Dev.holdEnd g d) := by
  unfold Dev.holdEnd
  with_reducible repeat' first
    | assumption | intro _ | apply Dev.driveFrom_keeps | apply Dev.modLane_keeps | apply Dev.settle_keeps
    | apply Dev.modSloe_keeps | apply keeps_ite | apply keeps_ite_snd | apply keeps_each | apply keeps_foldl
    | apply keeps_each_snd | apply keeps_foldl_snd | apply keeps_id | exact Bool.false_and _
    | refine keeps_of_eq (by assumption) ?_ | split | dsimp only

end Sys2Proof.Machine
end

