-- ==== Sys2Proof/Laws/KeepsCapture.lean ====
section
/-!
SUPPORT. What the operations of Machine/Capture.lean keep: see Keeps.lean.
-/

namespace Sys2Proof.Machine

theorem Dev.pushCapture_keeps {dev0 : Dev} {r : List Byte} {d : Dev} (hk : Keeps dev0 d) : Keeps dev0 (Dev.pushCapture r d) :=
    by
  unfold Dev.pushCapture
  with_reducible repeat' first
    | assumption | intro _ | apply Dev.raise_keeps | apply Dev.bumpSat_keeps | apply Dev.putCapture_keeps | apply keeps_ite
    | apply keeps_ite_snd | apply keeps_each | apply keeps_foldl | apply keeps_each_snd | apply keeps_foldl_snd
    | apply keeps_id | refine keeps_of_eq (by assumption) ?_ | split | dsimp only

theorem Dev.captureRestart_keeps {dev0 : Dev} {d : Dev} (hk : Keeps dev0 d) : Keeps dev0 (Dev.captureRestart d) := by
  unfold Dev.captureRestart
  with_reducible repeat' first
    | assumption | intro _ | apply Dev.putCapture_keeps | apply Dev.setBit_keeps | apply Dev.setReg_keeps | apply keeps_ite
    | apply keeps_ite_snd | apply keeps_each | apply keeps_foldl | apply keeps_each_snd | apply keeps_foldl_snd
    | apply keeps_id | refine keeps_of_eq (by assumption) ?_ | split | dsimp only

theorem execCaptureRecordWrite_keeps {s : State} : Kept s (execCaptureRecordWrite s) := by
  unfold execCaptureRecordWrite
  with_reducible repeat' first
    | assumption | intro _ | apply Dev.putCapture_keeps | apply Dev.raise_keeps | apply Dev.bumpSat_keeps
    | apply Dev.setBytes_keeps | apply Dev.touchDram_keeps | apply Dev.setFld_keeps | apply Dev.captureFreeze_keeps
    | apply onDev_kept | apply keeps_ite | apply keeps_ite_snd | apply keeps_each | apply keeps_foldl | apply keeps_each_snd
    | apply keeps_foldl_snd | apply keeps_id | refine keeps_of_eq (by assumption) ?_ | split | dsimp only

theorem Dev.capCmdOp_keeps {dev0 : Dev} {code : Nat} {d : Dev} (hk : Keeps dev0 d) : Keeps dev0 (Dev.capCmdOp code d) := by
  unfold Dev.capCmdOp
  with_reducible repeat' first
    | assumption | intro _ | apply Dev.captureRestart_keeps | apply Dev.captureTrigger_keeps | apply Dev.captureFreeze_keeps
    | apply keeps_ite | apply keeps_ite_snd | apply keeps_each | apply keeps_foldl | apply keeps_each_snd
    | apply keeps_foldl_snd | apply keeps_id | refine keeps_of_eq (by assumption) ?_ | split | dsimp only

theorem execRestart_keeps {m : Master} {s : State} : Kept s (execRestart m s) := by
  unfold execRestart
  with_reducible repeat' first
    | assumption | intro _ | apply Dev.accessWrite_keeps | apply Dev.capCmdOp_keeps | apply onDev_kept | apply keeps_ite
    | apply keeps_ite_snd | apply keeps_each | apply keeps_foldl | apply keeps_each_snd | apply keeps_foldl_snd
    | apply keeps_id | refine keeps_of_eq (by assumption) ?_ | split | dsimp only

theorem execTrigger_keeps {m : Master} {s : State} : Kept s (execTrigger m s) := by
  unfold execTrigger
  with_reducible repeat' first
    | assumption | intro _ | apply Dev.accessWrite_keeps | apply Dev.capCmdOp_keeps | apply onDev_kept | apply keeps_ite
    | apply keeps_ite_snd | apply keeps_each | apply keeps_foldl | apply keeps_each_snd | apply keeps_foldl_snd
    | apply keeps_id | refine keeps_of_eq (by assumption) ?_ | split | dsimp only

theorem execFreeze_keeps {m : Master} {s : State} : Kept s (execFreeze m s) := by
  unfold execFreeze
  with_reducible repeat' first
    | assumption | intro _ | apply Dev.accessWrite_keeps | apply Dev.capCmdOp_keeps | apply onDev_kept | apply keeps_ite
    | apply keeps_ite_snd | apply keeps_each | apply keeps_foldl | apply keeps_each_snd | apply keeps_foldl_snd
    | apply keeps_id | refine keeps_of_eq (by assumption) ?_ | split | dsimp only

end Sys2Proof.Machine
end

