-- ==== Sys2Proof/Laws/KeepsAcq.lean ====
section
/-!
SUPPORT. What the operations of Machine/Acq.lean keep: see Keeps.lean.
-/

namespace Sys2Proof.Machine

theorem Dev.modAcc_keeps {dev0 : Dev} {m : Nat} {f : AcqUnit → AcqUnit} {d : Dev} (hk : Keeps dev0 d) : Keeps dev0 (Dev.modAcc m
    f d) := by
  unfold Dev.modAcc
  with_reducible repeat' first
    | assumption | intro _ | apply Dev.putAcc_keeps | apply keeps_ite | apply keeps_ite_snd | apply keeps_each
    | apply keeps_foldl | apply keeps_each_snd | apply keeps_foldl_snd | apply keeps_id
    | refine keeps_of_eq (by assumption) ?_ | split | dsimp only

theorem Dev.modMmx_keeps {dev0 : Dev} {m : Nat} {f : AcqUnit → AcqUnit} {d : Dev} (hk : Keeps dev0 d) : Keeps dev0 (Dev.modMmx m
    f d) := by
  unfold Dev.modMmx
  with_reducible repeat' first
    | assumption | intro _ | apply Dev.putMmx_keeps | apply keeps_ite | apply keeps_ite_snd | apply keeps_each
    | apply keeps_foldl | apply keeps_each_snd | apply keeps_foldl_snd | apply keeps_id
    | refine keeps_of_eq (by assumption) ?_ | split | dsimp only

theorem Dev.acqBoundary_keeps {dev0 : Dev} {g : Nat} {d : Dev} (hk : Keeps dev0 d) : Keeps dev0 (Dev.acqBoundary g d) := by
  unfold Dev.acqBoundary
  with_reducible repeat' first
    | assumption | intro _ | apply Dev.modAcc_keeps | apply Dev.modMmx_keeps | apply keeps_ite | apply keeps_ite_snd
    | apply keeps_each | apply keeps_foldl | apply keeps_each_snd | apply keeps_foldl_snd | apply keeps_id
    | refine keeps_of_eq (by assumption) ?_ | split | dsimp only

theorem Dev.captureAcc_keeps {dev0 : Dev} {m : Nat} {d : Dev} (hk : Keeps dev0 d) : Keeps dev0 (Dev.captureAcc m d) := by
  unfold Dev.captureAcc
  with_reducible repeat' first
    | assumption | intro _ | apply Dev.pushCapture_keeps | apply Dev.putCapture_keeps | apply keeps_ite
    | apply keeps_ite_snd | apply keeps_each | apply keeps_foldl | apply keeps_each_snd | apply keeps_foldl_snd
    | apply keeps_id | refine keeps_of_eq (by assumption) ?_ | split | dsimp only

theorem Dev.cmdinTake_keeps {dev0 : Dev} {k : Nat} {x : Word} {d : Dev} (hk : Keeps dev0 d) : Keeps dev0 (Dev.cmdinTake k x d)
    := by
  unfold Dev.cmdinTake
  with_reducible repeat' first
    | assumption | intro _ | apply Dev.setBit_keeps | apply Dev.setReg_keeps | apply keeps_ite | apply keeps_ite_snd
    | apply keeps_each | apply keeps_foldl | apply keeps_each_snd | apply keeps_foldl_snd | apply keeps_id
    | refine keeps_of_eq (by assumption) ?_ | split | dsimp only

theorem Dev.cmdinLost_keeps {dev0 : Dev} {k : Nat} {d : Dev} (hk : Keeps dev0 d) : Keeps dev0 (Dev.cmdinLost k d) := by
  unfold Dev.cmdinLost
  with_reducible repeat' first
    | assumption | intro _ | apply Dev.raise_keeps | apply Dev.setBit_keeps | apply Dev.setReg_keeps | apply keeps_ite
    | apply keeps_ite_snd | apply keeps_each | apply keeps_foldl | apply keeps_each_snd | apply keeps_foldl_snd
    | apply keeps_id | refine keeps_of_eq (by assumption) ?_ | split | dsimp only

theorem Dev.cmdinAnalog_keeps {dev0 : Dev} {k : Nat} {d : Dev} (hk : Keeps dev0 d) : Keeps dev0 (Dev.cmdinAnalog k d) := by
  unfold Dev.cmdinAnalog
  with_reducible repeat' first
    | assumption | intro _ | apply Dev.cmdinLost_keeps | apply Dev.cmdinTake_keeps | apply keeps_ite | apply keeps_ite_snd
    | apply keeps_each | apply keeps_foldl | apply keeps_each_snd | apply keeps_foldl_snd | apply keeps_id
    | refine keeps_of_eq (by assumption) ?_ | split | dsimp only

theorem Dev.cmdinFollow_keeps {dev0 : Dev} {m : Nat} {d : Dev} (hk : Keeps dev0 d) : Keeps dev0 (Dev.cmdinFollow m d) := by
  unfold Dev.cmdinFollow
  with_reducible repeat' first
    | assumption | intro _ | apply Dev.cmdinAnalog_keeps | apply keeps_ite | apply keeps_ite_snd | apply keeps_each
    | apply keeps_foldl | apply keeps_each_snd | apply keeps_foldl_snd | apply keeps_id
    | refine keeps_of_eq (by assumption) ?_ | split | dsimp only

theorem Dev.publishAcc_keeps {dev0 : Dev} {m : Nat} {w : Window} {d : Dev} (hk : Keeps dev0 d) : Keeps dev0 (Dev.publishAcc m w
    d) := by
  unfold Dev.publishAcc
  with_reducible repeat' first
    | assumption | intro _ | apply Dev.modAcc_keeps | apply Dev.when_keeps | apply Dev.setReg_keeps | apply Dev.raise_keeps
    | apply Dev.cmdinFollow_keeps | apply Dev.captureAcc_keeps | apply keeps_ite | apply keeps_ite_snd | apply keeps_each
    | apply keeps_foldl | apply keeps_each_snd | apply keeps_foldl_snd | apply keeps_id
    | refine keeps_of_eq (by assumption) ?_ | split | dsimp only

theorem Dev.publishMmx_keeps {dev0 : Dev} {m : Nat} {w : Window} {d : Dev} (hk : Keeps dev0 d) : Keeps dev0 (Dev.publishMmx m w
    d) := by
  unfold Dev.publishMmx
  with_reducible repeat' first
    | assumption | intro _ | apply Dev.modMmx_keeps | apply Dev.setReg_keeps | apply Dev.when_keeps | apply Dev.raise_keeps
    | apply keeps_ite | apply keeps_ite_snd | apply keeps_each | apply keeps_foldl | apply keeps_each_snd
    | apply keeps_foldl_snd | apply keeps_id | refine keeps_of_eq (by assumption) ?_ | split | dsimp only

theorem Dev.closeCountAcc_keeps {dev0 : Dev} {m : Nat} {d : Dev} (hk : Keeps dev0 d) : Keeps dev0 (Dev.closeCountAcc m d) := by
  unfold Dev.closeCountAcc
  with_reducible repeat' first
    | assumption | intro _ | apply Dev.publishAcc_keeps | apply Dev.modAcc_keeps | apply keeps_ite | apply keeps_ite_snd
    | apply keeps_each | apply keeps_foldl | apply keeps_each_snd | apply keeps_foldl_snd | apply keeps_id
    | refine keeps_of_eq (by assumption) ?_ | split | dsimp only

theorem Dev.enterAcc_keeps {dev0 : Dev} {m : Nat} {no : Nat} {f : Window → Window} {d : Dev} (hk : Keeps dev0 d) : Keeps dev0
    (Dev.enterAcc m no f d) := by
  unfold Dev.enterAcc
  with_reducible repeat' first
    | assumption | intro _ | apply Dev.closeCountAcc_keeps | apply Dev.modAcc_keeps | apply keeps_ite | apply keeps_ite_snd
    | apply keeps_each | apply keeps_foldl | apply keeps_each_snd | apply keeps_foldl_snd | apply keeps_id
    | refine keeps_of_eq (by assumption) ?_ | split | dsimp only

end Sys2Proof.Machine
end

