-- ==== Sys2Proof/Laws/KeepsFlags.lean ====
section
/-!
SUPPORT. What the operations of Machine/Flags.lean keep: see Keeps.lean.
-/

namespace Sys2Proof.Machine

theorem Dev.fpFlags_keeps {dev0 : Dev} {e : Nat} {fl : FpFlags} {d : Dev} (hk : Keeps dev0 d) : Keeps dev0 (Dev.fpFlags e fl d)
    := by
  unfold Dev.fpFlags
  with_reducible repeat' first
    | assumption | intro _ | apply Dev.raise_keeps | apply Dev.setFld_keeps | apply keeps_ite | apply keeps_ite_snd
    | apply keeps_each | apply keeps_foldl | apply keeps_each_snd | apply keeps_foldl_snd | apply keeps_id
    | refine keeps_of_eq (by assumption) ?_ | split | dsimp only

theorem Dev.cluFlag_keeps {dev0 : Dev} {e : Nat} {i : Nat} {d : Dev} (hk : Keeps dev0 d) : Keeps dev0 (Dev.cluFlag e i d) := by
  unfold Dev.cluFlag
  with_reducible repeat' first
    | assumption | intro _ | apply Dev.setBit_keeps | apply keeps_ite | apply keeps_ite_snd | apply keeps_each
    | apply keeps_foldl | apply keeps_each_snd | apply keeps_foldl_snd | apply keeps_id
    | refine keeps_of_eq (by assumption) ?_ | split | dsimp only

theorem Dev.cluFlags_keeps {dev0 : Dev} {e : Nat} {l : List Nat} {d : Dev} (hk : Keeps dev0 d) : Keeps dev0 (Dev.cluFlags e l d)
    := by
  unfold Dev.cluFlags
  with_reducible repeat' first
    | assumption | intro _ | apply Dev.cluFlag_keeps | apply keeps_ite | apply keeps_ite_snd | apply keeps_each
    | apply keeps_foldl | apply keeps_each_snd | apply keeps_foldl_snd | apply keeps_id
    | refine keeps_of_eq (by assumption) ?_ | split | dsimp only

theorem Dev.eccCorrected_keeps {dev0 : Dev} {e : Nat} {d : Dev} (hk : Keeps dev0 d) : Keeps dev0 (Dev.eccCorrected e d) := by
  unfold Dev.eccCorrected
  with_reducible repeat' first
    | assumption | intro _ | apply Dev.raise_keeps | apply Dev.bumpSat_keeps | apply keeps_ite | apply keeps_ite_snd
    | apply keeps_each | apply keeps_foldl | apply keeps_each_snd | apply keeps_foldl_snd | apply keeps_id
    | refine keeps_of_eq (by assumption) ?_ | split | dsimp only

theorem Dev.eccUnc_keeps {dev0 : Dev} {e : Nat} {word64 : Nat} {d : Dev} (hk : Keeps dev0 d) : Keeps dev0 (Dev.eccUnc e word64
    d) := by
  unfold Dev.eccUnc
  with_reducible repeat' first
    | assumption | intro _ | apply Dev.setFld_keeps | apply keeps_ite | apply keeps_ite_snd | apply keeps_each
    | apply keeps_foldl | apply keeps_each_snd | apply keeps_foldl_snd | apply keeps_id
    | refine keeps_of_eq (by assumption) ?_ | split | dsimp only

theorem Dev.engineTrip_keeps {dev0 : Dev} {e : Nat} {cause : Nat} {trip : Nat → Nat → Dev → Dev} {d : Dev} (htrip : ∀ y0 y1 d,
    Keeps dev0 d → Keeps dev0 (trip y0 y1 d)) (hk : Keeps dev0 d) : Keeps dev0 (Dev.engineTrip e cause trip d) := by
  unfold Dev.engineTrip
  with_reducible repeat' first
    | assumption | intro _ | apply htrip | apply keeps_ite | apply keeps_ite_snd | apply keeps_each | apply keeps_foldl
    | apply keeps_each_snd | apply keeps_foldl_snd | apply keeps_id | refine keeps_of_eq (by assumption) ?_ | split
    | dsimp only

end Sys2Proof.Machine
end

