-- ==== Sys2Proof/Laws/KeepsOperands.lean ====
section
/-!
SUPPORT. What the operations of Machine/Operands.lean keep: see Keeps.lean.
-/

namespace Sys2Proof.Machine

theorem Dev.setV_keeps {dev0 : Dev} {e : Nat} {r : Nat} {w : Word} {d : Dev} (hk : Keeps dev0 d) : Keeps dev0 (Dev.setV e r w d)
    := by
  unfold Dev.setV
  with_reducible repeat' first
    | assumption | intro _ | apply Dev.modEngine_keeps | apply keeps_ite | apply keeps_ite_snd | apply keeps_each
    | apply keeps_foldl | apply keeps_each_snd | apply keeps_foldl_snd | apply keeps_id
    | refine keeps_of_eq (by assumption) ?_ | split | dsimp only

theorem Dev.vNext_keeps {dev0 : Dev} {d : Dev} {e : Nat} {r : Nat} (hk : Keeps dev0 d) : Keeps dev0 (Dev.vNext d e r).2 := by
  unfold Dev.vNext
  with_reducible repeat' first
    | assumption | intro _ | apply Dev.free_keeps | apply keeps_ite | apply keeps_ite_snd | apply keeps_each
    | apply keeps_foldl | apply keeps_each_snd | apply keeps_foldl_snd | apply keeps_id
    | refine keeps_of_eq (by assumption) ?_ | split | dsimp only

theorem Dev.setPc_keeps {dev0 : Dev} {e : Nat} {pc : Nat} {d : Dev} (hk : Keeps dev0 d) : Keeps dev0 (Dev.setPc e pc d) := by
  unfold Dev.setPc
  with_reducible repeat' first
    | assumption | intro _ | apply Dev.setFld_keeps | apply keeps_ite | apply keeps_ite_snd | apply keeps_each
    | apply keeps_foldl | apply keeps_each_snd | apply keeps_foldl_snd | apply keeps_id
    | refine keeps_of_eq (by assumption) ?_ | split | dsimp only

theorem Dev.dropPending_keeps {dev0 : Dev} {e : Nat} {d : Dev} (hk : Keeps dev0 d) : Keeps dev0 (Dev.dropPending e d) := by
  unfold Dev.dropPending
  with_reducible repeat' first
    | assumption | intro _ | apply Dev.modEngine_keeps | apply keeps_ite | apply keeps_ite_snd | apply keeps_each
    | apply keeps_foldl | apply keeps_each_snd | apply keeps_foldl_snd | apply keeps_id
    | refine keeps_of_eq (by assumption) ?_ | split | dsimp only

theorem Dev.engineFault_keeps {dev0 : Dev} {e : Nat} {cause : Nat} {d : Dev} (hk : Keeps dev0 d) : Keeps dev0 (Dev.engineFault e
    cause d) := by
  unfold Dev.engineFault
  with_reducible repeat' first
    | assumption | intro _ | apply Dev.setFld_keeps | apply Dev.raise_keeps | apply Dev.modEngine_keeps
    | apply Dev.swapIdle_keeps | apply Dev.engineTrip_keeps | apply Dev.trip_keeps | apply Dev.dropPending_keeps
    | apply keeps_ite | apply keeps_ite_snd | apply keeps_each | apply keeps_foldl | apply keeps_each_snd
    | apply keeps_foldl_snd | apply keeps_id | refine keeps_of_eq (by assumption) ?_ | split | dsimp only

theorem Dev.advance_keeps {dev0 : Dev} {e : Nat} {d : Dev} (hk : Keeps dev0 d) : Keeps dev0 (Dev.advance e d) := by
  unfold Dev.advance
  with_reducible repeat' first
    | assumption | intro _ | apply Dev.setPc_keeps | apply Dev.modEngine_keeps | apply keeps_ite | apply keeps_ite_snd
    | apply keeps_each | apply keeps_foldl | apply keeps_each_snd | apply keeps_foldl_snd | apply keeps_id
    | refine keeps_of_eq (by assumption) ?_ | split | dsimp only

theorem Dev.fetched_keeps {dev0 : Dev} {e : Nat} {ecc : Ecc} {act : Dev → Dev} {d : Dev} (hact : ∀ d, Keeps dev0 d → Keeps dev0
    (act d)) (hk : Keeps dev0 d) : Keeps dev0 (Dev.fetched e ecc act d) := by
  unfold Dev.fetched
  with_reducible repeat' first
    | assumption | intro _ | apply hact | apply Dev.engineFault_keeps | apply Dev.eccUnc_keeps | apply Dev.when_keeps
    | apply Dev.eccCorrected_keeps | apply keeps_ite | apply keeps_ite_snd | apply keeps_each | apply keeps_foldl
    | apply keeps_each_snd | apply keeps_foldl_snd | apply keeps_id | refine keeps_of_eq (by assumption) ?_ | split
    | dsimp only

theorem Dev.issue_keeps {dev0 : Dev} {e : Nat} {op : Nat} {u : Form} {f : EngFields} {act : Dev → Dev} {d : Dev} (hact : ∀ d,
    Keeps dev0 d → Keeps dev0 (act d)) (hk : Keeps dev0 d) : Keeps dev0 (Dev.issue e op u f act d) := by
  unfold Dev.issue
  with_reducible repeat' first
    | assumption | intro _ | apply hact | apply Dev.fetched_keeps | apply Dev.engineFault_keeps | apply Dev.newCycle_keeps
    | apply keeps_ite | apply keeps_ite_snd | apply keeps_each | apply keeps_foldl | apply keeps_each_snd
    | apply keeps_foldl_snd | apply keeps_id | refine keeps_of_eq (by assumption) ?_ | split | dsimp only

theorem Dev.issueOp_keeps {dev0 : Dev} {e : Nat} {op : Nat} {u : Form} {f : EngFields} {g : Dev → FpOut} {d : Dev} (hk : Keeps
    dev0 d) : Keeps dev0 (Dev.issueOp e op u f g d) := by
  unfold Dev.issueOp
  with_reducible repeat' first
    | assumption | intro _ | apply Dev.issue_keeps | apply Dev.advance_keeps | apply Dev.fpFlags_keeps
    | apply Dev.setV_keeps | apply keeps_ite | apply keeps_ite_snd | apply keeps_each | apply keeps_foldl
    | apply keeps_each_snd | apply keeps_foldl_snd | apply keeps_id | refine keeps_of_eq (by assumption) ?_ | split
    | dsimp only

end Sys2Proof.Machine
end

