-- ==== Sys2Proof/Laws/KeepsEngineM.lean ====
section
/-!
SUPPORT. What the operations of Machine/EngineM.lean keep: see Keeps.lean.
-/

namespace Sys2Proof.Machine

theorem Dev.modCoef_keeps {dev0 : Dev} {e : Nat} {unit : Nat} {inst : Nat} {f : Coef → Coef} {d : Dev} (hk : Keeps dev0 d) :
    Keeps dev0 (Dev.modCoef e unit inst f d) := by
  unfold Dev.modCoef
  with_reducible repeat' first
    | assumption | intro _ | apply Dev.modEngine_keeps | apply keeps_ite | apply keeps_ite_snd | apply keeps_each
    | apply keeps_foldl | apply keeps_each_snd | apply keeps_foldl_snd | apply keeps_id
    | refine keeps_of_eq (by assumption) ?_ | split | dsimp only

theorem Dev.setCoef_keeps {dev0 : Dev} {e : Nat} {unit : Nat} {inst : Nat} {index : Nat} {active : Bool} {w : Word} {d : Dev}
    (hk : Keeps dev0 d) : Keeps dev0 (Dev.setCoef e unit inst index active w d) := by
  unfold Dev.setCoef
  with_reducible repeat' first
    | assumption | intro _ | apply Dev.modCoef_keeps | apply keeps_ite | apply keeps_ite_snd | apply keeps_each
    | apply keeps_foldl | apply keeps_each_snd | apply keeps_foldl_snd | apply keeps_id
    | refine keeps_of_eq (by assumption) ?_ | split | dsimp only

theorem execBr_keeps {e : Fin 12} {f : EngFields} {s : State} : Kept s (execBr e f s) := by
  unfold execBr
  with_reducible repeat' first
    | assumption | intro _ | apply Dev.issue_keeps | apply Dev.setPc_keeps | apply Dev.advance_keeps | apply onDev_kept
    | apply keeps_ite | apply keeps_ite_snd | apply keeps_each | apply keeps_foldl | apply keeps_each_snd
    | apply keeps_foldl_snd | apply keeps_id | refine keeps_of_eq (by assumption) ?_ | split | dsimp only

theorem Dev.loopOp_keeps {dev0 : Dev} {e : Nat} {f : EngFields} {d : Dev} (hk : Keeps dev0 d) : Keeps dev0 (Dev.loopOp e f d) :=
    by
  unfold Dev.loopOp
  with_reducible repeat' first
    | assumption | intro _ | apply Dev.setPc_keeps | apply Dev.engineFault_keeps | apply Dev.modEngine_keeps
    | apply keeps_ite | apply keeps_ite_snd | apply keeps_each | apply keeps_foldl | apply keeps_each_snd
    | apply keeps_foldl_snd | apply keeps_id | refine keeps_of_eq (by assumption) ?_ | split | dsimp only

theorem execLoop_keeps {e : Fin 12} {f : EngFields} {s : State} : Kept s (execLoop e f s) := by
  unfold execLoop
  with_reducible repeat' first
    | assumption | intro _ | apply Dev.issue_keeps | apply Dev.loopOp_keeps | apply onDev_kept | apply keeps_ite
    | apply keeps_ite_snd | apply keeps_each | apply keeps_foldl | apply keeps_each_snd | apply keeps_foldl_snd
    | apply keeps_id | refine keeps_of_eq (by assumption) ?_ | split | dsimp only

theorem execCall_keeps {e : Fin 12} {f : EngFields} {s : State} : Kept s (execCall e f s) := by
  unfold execCall
  with_reducible repeat' first
    | assumption | intro _ | apply Dev.issue_keeps | apply Dev.setPc_keeps | apply Dev.setV_keeps | apply onDev_kept
    | apply keeps_ite | apply keeps_ite_snd | apply keeps_each | apply keeps_foldl | apply keeps_each_snd
    | apply keeps_foldl_snd | apply keeps_id | refine keeps_of_eq (by assumption) ?_ | split | dsimp only

theorem execJr_keeps {e : Fin 12} {f : EngFields} {s : State} : Kept s (execJr e f s) := by
  unfold execJr
  with_reducible repeat' first
    | assumption | intro _ | apply Dev.issue_keeps | apply Dev.setPc_keeps | apply onDev_kept | apply keeps_ite
    | apply keeps_ite_snd | apply keeps_each | apply keeps_foldl | apply keeps_each_snd | apply keeps_foldl_snd
    | apply keeps_id | refine keeps_of_eq (by assumption) ?_ | split | dsimp only

theorem execFend_keeps {e : Fin 12} {f : EngFields} {s : State} : Kept s (execFend e f s) := by
  unfold execFend
  with_reducible repeat' first
    | assumption | intro _ | apply Dev.issue_keeps | apply Dev.setPc_keeps | apply Dev.modEngine_keeps | apply onDev_kept
    | apply keeps_ite | apply keeps_ite_snd | apply keeps_each | apply keeps_foldl | apply keeps_each_snd
    | apply keeps_foldl_snd | apply keeps_id | refine keeps_of_eq (by assumption) ?_ | split | dsimp only

theorem Dev.loadOp_keeps {dev0 : Dev} {e : Nat} {f : EngFields} {d : Dev} (hk : Keeps dev0 d) : Keeps dev0 (Dev.loadOp e f d) :=
    by
  unfold Dev.loadOp
  with_reducible repeat' first
    | assumption | intro _ | apply Dev.engineFault_keeps | apply Dev.eccUnc_keeps | apply Dev.when_keeps
    | apply Dev.eccCorrected_keeps | apply Dev.advance_keeps | apply Dev.setV_keeps | apply Dev.modEngine_keeps
    | apply keeps_ite | apply keeps_ite_snd | apply keeps_each | apply keeps_foldl | apply keeps_each_snd
    | apply keeps_foldl_snd | apply keeps_id | refine keeps_of_eq (by assumption) ?_ | split | dsimp only

theorem execLd_keeps {e : Fin 12} {f : EngFields} {s : State} : Kept s (execLd e f s) := by
  unfold execLd
  with_reducible repeat' first
    | assumption | intro _ | apply Dev.issue_keeps | apply Dev.loadOp_keeps | apply onDev_kept | apply keeps_ite
    | apply keeps_ite_snd | apply keeps_each | apply keeps_foldl | apply keeps_each_snd | apply keeps_foldl_snd
    | apply keeps_id | refine keeps_of_eq (by assumption) ?_ | split | dsimp only

theorem Dev.storeOp_keeps {dev0 : Dev} {e : Nat} {f : EngFields} {d : Dev} (hk : Keeps dev0 d) : Keeps dev0 (Dev.storeOp e f d)
    := by
  unfold Dev.storeOp
  with_reducible repeat' first
    | assumption | intro _ | apply Dev.engineFault_keeps | apply Dev.setBytes_keeps | apply Dev.advance_keeps
    | apply Dev.vNext_keeps | apply Dev.modEngine_keeps | apply keeps_ite | apply keeps_ite_snd | apply keeps_each
    | apply keeps_foldl | apply keeps_each_snd | apply keeps_foldl_snd | apply keeps_id
    | refine keeps_of_eq (by assumption) ?_ | split | dsimp only

theorem execSt_keeps {e : Fin 12} {f : EngFields} {s : State} : Kept s (execSt e f s) := by
  unfold execSt
  with_reducible repeat' first
    | assumption | intro _ | apply Dev.issue_keeps | apply Dev.storeOp_keeps | apply onDev_kept | apply keeps_ite
    | apply keeps_ite_snd | apply keeps_each | apply keeps_foldl | apply keeps_each_snd | apply keeps_foldl_snd
    | apply keeps_id | refine keeps_of_eq (by assumption) ?_ | split | dsimp only

theorem Dev.pubOp_keeps {dev0 : Dev} {e : Nat} {j : Nat} {w : Word} {d : Dev} (hk : Keeps dev0 d) : Keeps dev0 (Dev.pubOp e j w
    d) := by
  unfold Dev.pubOp
  with_reducible repeat' first
    | assumption | intro _ | apply Dev.modEngine_keeps | apply Dev.cluFlag_keeps | apply keeps_ite | apply keeps_ite_snd
    | apply keeps_each | apply keeps_foldl | apply keeps_each_snd | apply keeps_foldl_snd | apply keeps_id
    | refine keeps_of_eq (by assumption) ?_ | split | dsimp only

theorem execPub_keeps {e : Fin 12} {f : EngFields} {s : State} : Kept s (execPub e f s) := by
  unfold execPub
  with_reducible repeat' first
    | assumption | intro _ | apply Dev.issue_keeps | apply Dev.advance_keeps | apply Dev.pubOp_keeps | apply onDev_kept
    | apply keeps_ite | apply keeps_ite_snd | apply keeps_each | apply keeps_foldl | apply keeps_each_snd
    | apply keeps_foldl_snd | apply keeps_id | refine keeps_of_eq (by assumption) ?_ | split | dsimp only

theorem Dev.rcvOp_keeps {dev0 : Dev} {e : Nat} {m : Nat} {j : Nat} {d : Dev} (hk : Keeps dev0 d) : Keeps dev0 (Dev.rcvOp e m j
    d).2 := by
  unfold Dev.rcvOp
  with_reducible repeat' first
    | assumption | intro _ | apply Dev.bumpSat_keeps | apply Dev.raise_keeps | apply keeps_ite | apply keeps_ite_snd
    | apply keeps_each | apply keeps_foldl | apply keeps_each_snd | apply keeps_foldl_snd | apply keeps_id
    | refine keeps_of_eq (by assumption) ?_ | split | dsimp only

theorem execRcv_keeps {e : Fin 12} {f : EngFields} {s : State} : Kept s (execRcv e f s) := by
  unfold execRcv
  with_reducible repeat' first
    | assumption | intro _ | apply Dev.issue_keeps | apply Dev.rcvOp_keeps | apply Dev.advance_keeps | apply Dev.setV_keeps
    | apply onDev_kept | apply keeps_ite | apply keeps_ite_snd | apply keeps_each | apply keeps_foldl | apply keeps_each_snd
    | apply keeps_foldl_snd | apply keeps_id | refine keeps_of_eq (by assumption) ?_ | split | dsimp only

theorem execTime_keeps {e : Fin 12} {f : EngFields} {s : State} : Kept s (execTime e f s) := by
  unfold execTime
  with_reducible repeat' first
    | assumption | intro _ | apply Dev.issueOp_keeps | apply onDev_kept | apply keeps_ite | apply keeps_ite_snd
    | apply keeps_each | apply keeps_foldl | apply keeps_each_snd | apply keeps_foldl_snd | apply keeps_id
    | refine keeps_of_eq (by assumption) ?_ | split | dsimp only

theorem Dev.capOp_keeps {dev0 : Dev} {e : Nat} {f : EngFields} {d : Dev} (hk : Keeps dev0 d) : Keeps dev0 (Dev.capOp e f d) :=
    by
  unfold Dev.capOp
  with_reducible repeat' first
    | assumption | intro _ | apply Dev.pushCapture_keeps | apply Dev.modEngine_keeps | apply keeps_ite | apply keeps_ite_snd
    | apply keeps_each | apply keeps_foldl | apply keeps_each_snd | apply keeps_foldl_snd | apply keeps_id
    | refine keeps_of_eq (by assumption) ?_ | split | dsimp only

theorem execCap_keeps {e : Fin 12} {f : EngFields} {s : State} : Kept s (execCap e f s) := by
  unfold execCap
  with_reducible repeat' first
    | assumption | intro _ | apply Dev.issue_keeps | apply Dev.advance_keeps | apply Dev.capOp_keeps | apply onDev_kept
    | apply keeps_ite | apply keeps_ite_snd | apply keeps_each | apply keeps_foldl | apply keeps_each_snd
    | apply keeps_foldl_snd | apply keeps_id | refine keeps_of_eq (by assumption) ?_ | split | dsimp only

theorem execTrq_keeps {e : Fin 12} {f : EngFields} {s : State} : Kept s (execTrq e f s) := by
  unfold execTrq
  with_reducible repeat' first
    | assumption | intro _ | apply Dev.issue_keeps | apply Dev.advance_keeps | apply Dev.trip_keeps | apply onDev_kept
    | apply keeps_ite | apply keeps_ite_snd | apply keeps_each | apply keeps_foldl | apply keeps_each_snd
    | apply keeps_foldl_snd | apply keeps_id | refine keeps_of_eq (by assumption) ?_ | split | dsimp only

theorem execBsw_keeps {e : Fin 12} {f : EngFields} {s : State} : Kept s (execBsw e f s) := by
  unfold execBsw
  with_reducible repeat' first
    | assumption | intro _ | apply Dev.issue_keeps | apply Dev.advance_keeps | apply Dev.requestSwap_keeps
    | apply onDev_kept | apply keeps_ite | apply keeps_ite_snd | apply keeps_each | apply keeps_foldl | apply keeps_each_snd
    | apply keeps_foldl_snd | apply keeps_id | refine keeps_of_eq (by assumption) ?_ | split | dsimp only

theorem Dev.coefWrite_keeps {dev0 : Dev} {e : Nat} {unit : Nat} {inst : Nat} {index : Nat} {active : Bool} {w : Word} {d : Dev}
    (hk : Keeps dev0 d) : Keeps dev0 (Dev.coefWrite e unit inst index active w d) := by
  unfold Dev.coefWrite
  with_reducible repeat' first
    | assumption | intro _ | apply Dev.cluFlag_keeps | apply Dev.setCoef_keeps | apply keeps_ite | apply keeps_ite_snd
    | apply keeps_each | apply keeps_foldl | apply keeps_each_snd | apply keeps_foldl_snd | apply keeps_id
    | refine keeps_of_eq (by assumption) ?_ | split | dsimp only

theorem Dev.cwrOp_keeps {dev0 : Dev} {e : Nat} {w : Word} {imm : Word} {active : Bool} {d : Dev} (hk : Keeps dev0 d) : Keeps
    dev0 (Dev.cwrOp e w imm active d) := by
  unfold Dev.cwrOp
  with_reducible repeat' first
    | assumption | intro _ | apply Dev.noteCwr_keeps | apply Dev.coefWrite_keeps | apply Dev.cluFlag_keeps | apply keeps_ite
    | apply keeps_ite_snd | apply keeps_each | apply keeps_foldl | apply keeps_each_snd | apply keeps_foldl_snd
    | apply keeps_id | refine keeps_of_eq (by assumption) ?_ | split | dsimp only

theorem execCwr_keeps {e : Fin 12} {f : EngFields} {s : State} : Kept s (execCwr e f s) := by
  unfold execCwr
  with_reducible repeat' first
    | assumption | intro _ | apply Dev.issue_keeps | apply Dev.advance_keeps | apply Dev.cwrOp_keeps | apply onDev_kept
    | apply keeps_ite | apply keeps_ite_snd | apply keeps_each | apply keeps_foldl | apply keeps_each_snd
    | apply keeps_foldl_snd | apply keeps_id | refine keeps_of_eq (by assumption) ?_ | split | dsimp only

theorem Dev.cwInc_keeps {dev0 : Dev} {e : Nat} {d : Dev} (hk : Keeps dev0 d) : Keeps dev0 (Dev.cwInc e d) := by
  unfold Dev.cwInc
  with_reducible repeat' first
    | assumption | intro _ | apply Dev.when_keeps | apply Dev.setFld_keeps | apply keeps_ite | apply keeps_ite_snd
    | apply keeps_each | apply keeps_foldl | apply keeps_each_snd | apply keeps_foldl_snd | apply keeps_id
    | refine keeps_of_eq (by assumption) ?_ | split | dsimp only

theorem Dev.cwDataOp_keeps {dev0 : Dev} {m : Master} {e : Nat} {w : Word} {d : Dev} (hk : Keeps dev0 d) : Keeps dev0
    (Dev.cwDataOp m e w d) := by
  unfold Dev.cwDataOp
  with_reducible repeat' first
    | assumption | intro _ | apply Dev.discard_keeps | apply Dev.coefWrite_keeps | apply Dev.cluFlag_keeps
    | apply Dev.cwInc_keeps | apply keeps_ite | apply keeps_ite_snd | apply keeps_each | apply keeps_foldl
    | apply keeps_each_snd | apply keeps_foldl_snd | apply keeps_id | refine keeps_of_eq (by assumption) ?_ | split
    | dsimp only

theorem execCwDataWrite_keeps {m : Master} {e : Fin 12} {v : Word} {same : Bool} {s : State} : Kept s (execCwDataWrite m e v
    same s) := by
  unfold execCwDataWrite
  with_reducible repeat' first
    | assumption | intro _ | apply Dev.accessWrite_keeps | apply Dev.cwDataOp_keeps | apply Dev.enterCycle_keeps
    | apply onDev_kept | apply keeps_ite | apply keeps_ite_snd | apply keeps_each | apply keeps_foldl | apply keeps_each_snd
    | apply keeps_foldl_snd | apply keeps_id | refine keeps_of_eq (by assumption) ?_ | split | dsimp only

theorem Dev.coefUnc_keeps {dev0 : Dev} {e : Nat} {unit : Nat} {inst : Nat} {index : Nat} {bankB : Bool} {d : Dev} (hk : Keeps
    dev0 d) : Keeps dev0 (Dev.coefUnc e unit inst index bankB d) := by
  unfold Dev.coefUnc
  with_reducible repeat' first
    | assumption | intro _ | apply Dev.cluFlag_keeps | apply Dev.setReg_keeps | apply keeps_ite | apply keeps_ite_snd
    | apply keeps_each | apply keeps_foldl | apply keeps_each_snd | apply keeps_foldl_snd | apply keeps_id
    | refine keeps_of_eq (by assumption) ?_ | split | dsimp only

theorem Dev.cwReadOp_keeps {dev0 : Dev} {m : Master} {e : Nat} {ecc : Ecc} {d : Dev} (hk : Keeps dev0 d) : Keeps dev0
    (Dev.cwReadOp m e ecc d).2 := by
  unfold Dev.cwReadOp
  with_reducible repeat' first
    | assumption | intro _ | apply Dev.cluFlag_keeps | apply Dev.refuse_keeps | apply Dev.coefUnc_keeps
    | apply Dev.eccCorrected_keeps | apply Dev.cwInc_keeps | apply keeps_ite | apply keeps_ite_snd | apply keeps_each
    | apply keeps_foldl | apply keeps_each_snd | apply keeps_foldl_snd | apply keeps_id
    | refine keeps_of_eq (by assumption) ?_ | split | dsimp only

theorem execCwDataRead_keeps {m : Master} {e : Fin 12} {data : Ecc} {s : State} : Kept s (execCwDataRead m e data s) := by
  unfold execCwDataRead
  with_reducible repeat' first
    | assumption | intro _ | apply Dev.putReadData_keeps | apply Dev.refuseSys_keeps | apply Dev.refuse_keeps
    | apply Dev.cwReadOp_keeps | apply onDev_kept | apply keeps_ite | apply keeps_ite_snd | apply keeps_each
    | apply keeps_foldl | apply keeps_each_snd | apply keeps_foldl_snd | apply keeps_id
    | refine keeps_of_eq (by assumption) ?_ | split | dsimp only

theorem execBankReq_keeps {m : Master} {e : Fin 12} {v : Word} {s : State} : Kept s (execBankReq m e v s) := by
  unfold execBankReq
  with_reducible repeat' first
    | assumption | intro _ | apply Dev.accessWrite_keeps | apply Dev.requestSwap_keeps | apply onDev_kept | apply keeps_ite
    | apply keeps_ite_snd | apply keeps_each | apply keeps_foldl | apply keeps_each_snd | apply keeps_foldl_snd
    | apply keeps_id | refine keeps_of_eq (by assumption) ?_ | split | dsimp only

end Sys2Proof.Machine
end

