-- ==== Sys2Proof/Laws/KeepsEngineU.lean ====
section
/-!
SUPPORT. What the operations of Machine/EngineU.lean keep: see Keeps.lean.
-/

namespace Sys2Proof.Machine

theorem execDiv_keeps {e : Fin 12} {f : EngFields} {s : State} : Kept s (execDiv e f s) := by
  unfold execDiv
  with_reducible repeat' first
    | assumption | intro _ | apply Dev.issueOp_keeps | apply onDev_kept | apply keeps_ite | apply keeps_ite_snd
    | apply keeps_each | apply keeps_foldl | apply keeps_each_snd | apply keeps_foldl_snd | apply keeps_id
    | refine keeps_of_eq (by assumption) ?_ | split | dsimp only

theorem execSqrt_keeps {e : Fin 12} {f : EngFields} {s : State} : Kept s (execSqrt e f s) := by
  unfold execSqrt
  with_reducible repeat' first
    | assumption | intro _ | apply Dev.issueOp_keeps | apply onDev_kept | apply keeps_ite | apply keeps_ite_snd
    | apply keeps_each | apply keeps_foldl | apply keeps_each_snd | apply keeps_foldl_snd | apply keeps_id
    | refine keeps_of_eq (by assumption) ?_ | split | dsimp only

theorem Dev.setOuts_keeps {dev0 : Dev} {e r : Nat} {os : List FpOut} {d : Dev} (hk : Keeps dev0 d) :
    Keeps dev0 (Dev.setOuts e r os d) := by
  induction os generalizing r d with
  | nil => exact hk
  | cons o rest ih => exact ih (Dev.fpFlags_keeps (Dev.setV_keeps hk))

theorem execSincos_keeps {e : Fin 12} {f : EngFields} {s : State} : Kept s (execSincos e f s) := by
  unfold execSincos
  with_reducible repeat' first
    | assumption | intro _ | apply Dev.issue_keeps | apply Dev.advance_keeps | apply Dev.setOuts_keeps | apply onDev_kept
    | apply keeps_ite | apply keeps_ite_snd | apply keeps_each | apply keeps_foldl | apply keeps_each_snd
    | apply keeps_foldl_snd | apply keeps_id | refine keeps_of_eq (by assumption) ?_ | split | dsimp only

theorem execAtan2_keeps {e : Fin 12} {f : EngFields} {s : State} : Kept s (execAtan2 e f s) := by
  unfold execAtan2
  with_reducible repeat' first
    | assumption | intro _ | apply Dev.issue_keeps | apply Dev.advance_keeps | apply Dev.setOuts_keeps | apply onDev_kept
    | apply keeps_ite | apply keeps_ite_snd | apply keeps_each | apply keeps_foldl | apply keeps_each_snd
    | apply keeps_foldl_snd | apply keeps_id | refine keeps_of_eq (by assumption) ?_ | split | dsimp only

theorem Dev.xfm_keeps {dev0 : Dev} {e : Nat} {mode : Nat} {outs : Nat} {f : EngFields} {eqs : FpOut → FpOut → FpOut → List
    FpOut} {d : Dev} (hk : Keeps dev0 d) : Keeps dev0 (Dev.xfm e mode outs f eqs d) := by
  unfold Dev.xfm
  with_reducible repeat' first
    | assumption | intro _ | apply Dev.issue_keeps | apply Dev.advance_keeps | apply Dev.setOuts_keeps | apply keeps_ite
    | apply keeps_ite_snd | apply keeps_each | apply keeps_foldl | apply keeps_each_snd | apply keeps_foldl_snd
    | apply keeps_id | refine keeps_of_eq (by assumption) ?_ | split | dsimp only

theorem execXfmClarke_keeps {e : Fin 12} {f : EngFields} {s : State} : Kept s (execXfmClarke e f s) := by
  unfold execXfmClarke
  with_reducible repeat' first
    | assumption | intro _ | apply Dev.xfm_keeps | apply onDev_kept | apply keeps_ite | apply keeps_ite_snd
    | apply keeps_each | apply keeps_foldl | apply keeps_each_snd | apply keeps_foldl_snd | apply keeps_id
    | refine keeps_of_eq (by assumption) ?_ | split | dsimp only

theorem execXfmPark_keeps {e : Fin 12} {f : EngFields} {s : State} : Kept s (execXfmPark e f s) := by
  unfold execXfmPark
  with_reducible repeat' first
    | assumption | intro _ | apply Dev.xfm_keeps | apply onDev_kept | apply keeps_ite | apply keeps_ite_snd
    | apply keeps_each | apply keeps_foldl | apply keeps_each_snd | apply keeps_foldl_snd | apply keeps_id
    | refine keeps_of_eq (by assumption) ?_ | split | dsimp only

theorem execXfmInversePark_keeps {e : Fin 12} {f : EngFields} {s : State} : Kept s (execXfmInversePark e f s) := by
  unfold execXfmInversePark
  with_reducible repeat' first
    | assumption | intro _ | apply Dev.xfm_keeps | apply onDev_kept | apply keeps_ite | apply keeps_ite_snd
    | apply keeps_each | apply keeps_foldl | apply keeps_each_snd | apply keeps_foldl_snd | apply keeps_id
    | refine keeps_of_eq (by assumption) ?_ | split | dsimp only

theorem execXfmInverseClarke_keeps {e : Fin 12} {f : EngFields} {s : State} : Kept s (execXfmInverseClarke e f s) := by
  unfold execXfmInverseClarke
  with_reducible repeat' first
    | assumption | intro _ | apply Dev.xfm_keeps | apply onDev_kept | apply keeps_ite | apply keeps_ite_snd
    | apply keeps_each | apply keeps_foldl | apply keeps_each_snd | apply keeps_foldl_snd | apply keeps_id
    | refine keeps_of_eq (by assumption) ?_ | split | dsimp only

theorem Dev.putUnit_keeps {dev0 : Dev} {e : Nat} {unit : Nat} {inst : Nat} {r : Nat} {u : UnitOut} {d : Dev} (hk : Keeps dev0 d)
    : Keeps dev0 (Dev.putUnit e unit inst r u d) := by
  unfold Dev.putUnit
  with_reducible repeat' first
    | assumption | intro _ | apply Dev.fpFlags_keeps | apply Dev.setCoef_keeps | apply Dev.cluFlags_keeps
    | apply Dev.setOuts_keeps | apply keeps_ite | apply keeps_ite_snd | apply keeps_each | apply keeps_foldl
    | apply keeps_each_snd | apply keeps_foldl_snd | apply keeps_id | refine keeps_of_eq (by assumption) ?_ | split
    | dsimp only

theorem Dev.invoke_keeps {dev0 : Dev} {e : Nat} {unit : Nat} {modes : Nat} {mode : Nat} {outs : Nat} {f : EngFields} {act : Nat
    → Dev → Dev} {d : Dev} (hact : ∀ y0 d, Keeps dev0 d → Keeps dev0 (act y0 d)) (hk : Keeps dev0 d) : Keeps dev0 (Dev.invoke e
    unit modes mode outs f act d) := by
  unfold Dev.invoke
  with_reducible repeat' first
    | assumption | intro _ | apply hact | apply Dev.issue_keeps | apply Dev.advance_keeps | apply Dev.cluFlag_keeps
    | apply Dev.setOuts_keeps | apply Dev.engineTrip_keeps | apply Dev.trip_keeps | apply Dev.coefUnc_keeps
    | apply Dev.when_keeps | apply Dev.eccCorrected_keeps | apply keeps_ite | apply keeps_ite_snd | apply keeps_each
    | apply keeps_foldl | apply keeps_each_snd | apply keeps_foldl_snd | apply keeps_id
    | refine keeps_of_eq (by assumption) ?_ | split | dsimp only

theorem Dev.unitOp_keeps {dev0 : Dev} {e : Nat} {unit : Nat} {modes : Nat} {mode : Nat} {outs : Nat} {f : EngFields} {eqs :
    FpOut → FpOut → FpOut → (Nat → FpOut) → UnitOut} {d : Dev} (hk : Keeps dev0 d) : Keeps dev0 (Dev.unitOp e unit modes mode
    outs f eqs d) := by
  unfold Dev.unitOp
  with_reducible repeat' first
    | assumption | intro _ | apply Dev.invoke_keeps | apply Dev.putUnit_keeps | apply keeps_ite | apply keeps_ite_snd
    | apply keeps_each | apply keeps_foldl | apply keeps_each_snd | apply keeps_foldl_snd | apply keeps_id
    | refine keeps_of_eq (by assumption) ?_ | split | dsimp only

theorem execPi_keeps {e : Fin 12} {f : EngFields} {s : State} : Kept s (execPi e f s) := by
  unfold execPi
  with_reducible repeat' first
    | assumption | intro _ | apply Dev.invoke_keeps | apply Dev.modEngine_keeps | apply Dev.putUnit_keeps | apply onDev_kept
    | apply keeps_ite | apply keeps_ite_snd | apply keeps_each | apply keeps_foldl | apply keeps_each_snd
    | apply keeps_foldl_snd | apply keeps_id | refine keeps_of_eq (by assumption) ?_ | split | dsimp only

theorem execPr_keeps {e : Fin 12} {f : EngFields} {s : State} : Kept s (execPr e f s) := by
  unfold execPr
  with_reducible repeat' first
    | assumption | intro _ | apply Dev.unitOp_keeps | apply onDev_kept | apply keeps_ite | apply keeps_ite_snd
    | apply keeps_each | apply keeps_foldl | apply keeps_each_snd | apply keeps_foldl_snd | apply keeps_id
    | refine keeps_of_eq (by assumption) ?_ | split | dsimp only

theorem execBiq_keeps {e : Fin 12} {f : EngFields} {s : State} : Kept s (execBiq e f s) := by
  unfold execBiq
  with_reducible repeat' first
    | assumption | intro _ | apply Dev.unitOp_keeps | apply onDev_kept | apply keeps_ite | apply keeps_ite_snd
    | apply keeps_each | apply keeps_foldl | apply keeps_each_snd | apply keeps_foldl_snd | apply keeps_id
    | refine keeps_of_eq (by assumption) ?_ | split | dsimp only

theorem execLimScalar_keeps {e : Fin 12} {f : EngFields} {s : State} : Kept s (execLimScalar e f s) := by
  unfold execLimScalar
  with_reducible repeat' first
    | assumption | intro _ | apply Dev.unitOp_keeps | apply onDev_kept | apply keeps_ite | apply keeps_ite_snd
    | apply keeps_each | apply keeps_foldl | apply keeps_each_snd | apply keeps_foldl_snd | apply keeps_id
    | refine keeps_of_eq (by assumption) ?_ | split | dsimp only

theorem Dev.freezePi_keeps {dev0 : Dev} {e : Nat} {bind : Word} {d : Dev} (hk : Keeps dev0 d) : Keeps dev0 (Dev.freezePi e bind
    d) := by
  unfold Dev.freezePi
  with_reducible repeat' first
    | assumption | intro _ | apply Dev.when_keeps | apply Dev.setCoef_keeps | apply keeps_ite | apply keeps_ite_snd
    | apply keeps_each | apply keeps_foldl | apply keeps_each_snd | apply keeps_foldl_snd | apply keeps_id
    | refine keeps_of_eq (by assumption) ?_ | split | dsimp only

theorem execLimCircle_keeps {e : Fin 12} {f : EngFields} {s : State} : Kept s (execLimCircle e f s) := by
  unfold execLimCircle
  with_reducible repeat' first
    | assumption | intro _ | apply Dev.invoke_keeps | apply Dev.free_keeps | apply Dev.putUnit_keeps | apply Dev.when_keeps
    | apply Dev.freezePi_keeps | apply onDev_kept | apply keeps_ite | apply keeps_ite_snd | apply keeps_each
    | apply keeps_foldl | apply keeps_each_snd | apply keeps_foldl_snd | apply keeps_id
    | refine keeps_of_eq (by assumption) ?_ | split | dsimp only

theorem execPll_keeps {e : Fin 12} {f : EngFields} {s : State} : Kept s (execPll e f s) := by
  unfold execPll
  with_reducible repeat' first
    | assumption | intro _ | apply Dev.unitOp_keeps | apply onDev_kept | apply keeps_ite | apply keeps_ite_snd
    | apply keeps_each | apply keeps_foldl | apply keeps_each_snd | apply keeps_foldl_snd | apply keeps_id
    | refine keeps_of_eq (by assumption) ?_ | split | dsimp only

theorem execObs_keeps {e : Fin 12} {f : EngFields} {s : State} : Kept s (execObs e f s) := by
  unfold execObs
  with_reducible repeat' first
    | assumption | intro _ | apply Dev.invoke_keeps | apply Dev.vNext_keeps | apply Dev.putUnit_keeps | apply onDev_kept
    | apply keeps_ite | apply keeps_ite_snd | apply keeps_each | apply keeps_foldl | apply keeps_each_snd
    | apply keeps_foldl_snd | apply keeps_id | refine keeps_of_eq (by assumption) ?_ | split | dsimp only

theorem execSvmSvpwm_keeps {e : Fin 12} {f : EngFields} {s : State} : Kept s (execSvmSvpwm e f s) := by
  unfold execSvmSvpwm
  with_reducible repeat' first
    | assumption | intro _ | apply Dev.unitOp_keeps | apply onDev_kept | apply keeps_ite | apply keeps_ite_snd
    | apply keeps_each | apply keeps_foldl | apply keeps_each_snd | apply keeps_foldl_snd | apply keeps_id
    | refine keeps_of_eq (by assumption) ?_ | split | dsimp only

theorem execSvmSinusoidal_keeps {e : Fin 12} {f : EngFields} {s : State} : Kept s (execSvmSinusoidal e f s) := by
  unfold execSvmSinusoidal
  with_reducible repeat' first
    | assumption | intro _ | apply Dev.unitOp_keeps | apply onDev_kept | apply keeps_ite | apply keeps_ite_snd
    | apply keeps_each | apply keeps_foldl | apply keeps_each_snd | apply keeps_foldl_snd | apply keeps_id
    | refine keeps_of_eq (by assumption) ?_ | split | dsimp only

theorem execSvmThreeLevel_keeps {e : Fin 12} {f : EngFields} {s : State} : Kept s (execSvmThreeLevel e f s) := by
  unfold execSvmThreeLevel
  with_reducible repeat' first
    | assumption | intro _ | apply Dev.unitOp_keeps | apply onDev_kept | apply keeps_ite | apply keeps_ite_snd
    | apply keeps_each | apply keeps_foldl | apply keeps_each_snd | apply keeps_foldl_snd | apply keeps_id
    | refine keeps_of_eq (by assumption) ?_ | split | dsimp only

theorem execSvmDiscontinuous_keeps {e : Fin 12} {f : EngFields} {s : State} : Kept s (execSvmDiscontinuous e f s) := by
  unfold execSvmDiscontinuous
  with_reducible repeat' first
    | assumption | intro _ | apply Dev.unitOp_keeps | apply onDev_kept | apply keeps_ite | apply keeps_ite_snd
    | apply keeps_each | apply keeps_foldl | apply keeps_each_snd | apply keeps_foldl_snd | apply keeps_id
    | refine keeps_of_eq (by assumption) ?_ | split | dsimp only

theorem Dev.dtcOp_keeps {dev0 : Dev} {e : Nat} {inst : Nat} {r : Nat} {a3 : FpOut} {b : FpOut} {d : Dev} (hk : Keeps dev0 d) :
    Keeps dev0 (Dev.dtcOp e inst r a3 b d) := by
  unfold Dev.dtcOp
  with_reducible repeat' first
    | assumption | intro _ | apply Dev.cluFlag_keeps | apply Dev.setV_keeps | apply Dev.free_keeps | apply Dev.when_keeps
    | apply Dev.setOuts_keeps | apply keeps_ite | apply keeps_ite_snd | apply keeps_each | apply keeps_foldl
    | apply keeps_each_snd | apply keeps_foldl_snd | apply keeps_id | refine keeps_of_eq (by assumption) ?_ | split
    | dsimp only

theorem execDtc_keeps {e : Fin 12} {f : EngFields} {s : State} : Kept s (execDtc e f s) := by
  unfold execDtc
  with_reducible repeat' first
    | assumption | intro _ | apply Dev.invoke_keeps | apply Dev.dtcOp_keeps | apply onDev_kept | apply keeps_ite
    | apply keeps_ite_snd | apply keeps_each | apply keeps_foldl | apply keeps_each_snd | apply keeps_foldl_snd
    | apply keeps_id | refine keeps_of_eq (by assumption) ?_ | split | dsimp only

theorem execVsm_keeps {e : Fin 12} {f : EngFields} {s : State} : Kept s (execVsm e f s) := by
  unfold execVsm
  with_reducible repeat' first
    | assumption | intro _ | apply Dev.invoke_keeps | apply Dev.vNext_keeps | apply Dev.putUnit_keeps | apply onDev_kept
    | apply keeps_ite | apply keeps_ite_snd | apply keeps_each | apply keeps_foldl | apply keeps_each_snd
    | apply keeps_foldl_snd | apply keeps_id | refine keeps_of_eq (by assumption) ?_ | split | dsimp only

end Sys2Proof.Machine
end

