-- ==== Sys2Proof/Laws/KeepsGroup.lean ====
section
/-!
SUPPORT. What the operations of Machine/Group.lean keep: see Keeps.lean.
-/

namespace Sys2Proof.Machine

theorem Dev.fixNext_keeps {dev0 : Dev} {g : Nat} {d : Dev} (hk : Keeps dev0 d) : Keeps dev0 (Dev.fixNext g d) := by
  unfold Dev.fixNext
  with_reducible repeat' first
    | assumption | exact fun _ h => h | intro _ | apply Dev.modGroup_keeps | apply keeps_ite | apply keeps_ite_snd
    | apply keeps_each | apply keeps_foldl | apply keeps_each_snd | apply keeps_foldl_snd | apply keeps_id
    | exact ‹Group.NoShoot _› _ | refine keeps_of_eq (by assumption) ?_ | split | dsimp only

theorem Dev.showLens_keeps {dev0 : Dev} {g : Nat} {d : Dev} (hk : Keeps dev0 d) : Keeps dev0 (Dev.showLens g d) := by
  unfold Dev.showLens
  with_reducible repeat' first
    | assumption | intro _ | apply Dev.setFld_keeps | apply keeps_ite | apply keeps_ite_snd | apply keeps_each
    | apply keeps_foldl | apply keeps_each_snd | apply keeps_foldl_snd | apply keeps_id
    | refine keeps_of_eq (by assumption) ?_ | split | dsimp only

theorem Dev.takeSample_keeps {dev0 : Dev} {g : Nat} {d : Dev} (hk : Keeps dev0 d) : Keeps dev0 (Dev.takeSample g d) := by
  unfold Dev.takeSample
  with_reducible repeat' first
    | assumption | exact fun _ h => h | intro _ | apply Dev.modGroup_keeps | apply keeps_ite | apply keeps_ite_snd
    | apply keeps_each | apply keeps_foldl | apply keeps_each_snd | apply keeps_foldl_snd | apply keeps_id
    | exact ‹Group.NoShoot _› _ | refine keeps_of_eq (by assumption) ?_ | split | dsimp only

theorem Dev.setStart_keeps {dev0 : Dev} {g : Nat} {t : Nat} {len : Nat} {d : Dev} (hk : Keeps dev0 d) : Keeps dev0 (Dev.setStart
    g t len d) := by
  unfold Dev.setStart
  with_reducible repeat' first
    | assumption | exact fun _ h => h | intro _ | apply Dev.modGroup_keeps | apply Dev.when_keeps
    | apply Dev.takeSample_keeps | apply keeps_ite | apply keeps_ite_snd | apply keeps_each | apply keeps_foldl
    | apply keeps_each_snd | apply keeps_foldl_snd | apply keeps_id | exact ‹Group.NoShoot _› _
    | refine keeps_of_eq (by assumption) ?_ | split | dsimp only

theorem Dev.passStart_keeps {dev0 : Dev} {g : Nat} {len : Nat} {d : Dev} (hk : Keeps dev0 d) : Keeps dev0 (Dev.passStart g len
    d) := by
  unfold Dev.passStart
  with_reducible repeat' first
    | assumption | intro _ | apply Dev.when_keeps | apply Dev.setStart_keeps | apply keeps_ite | apply keeps_ite_snd
    | apply keeps_each | apply keeps_foldl | apply keeps_each_snd | apply keeps_foldl_snd | apply keeps_id
    | refine keeps_of_eq (by assumption) ?_ | split | dsimp only

theorem Dev.dropStarts_keeps {dev0 : Dev} {g : Nat} {d : Dev} (hk : Keeps dev0 d) : Keeps dev0 (Dev.dropStarts g d) := by
  unfold Dev.dropStarts
  with_reducible repeat' first
    | assumption | exact fun _ h => h | intro _ | apply Dev.when_keeps | apply Dev.modGroup_keeps | apply keeps_ite
    | apply keeps_ite_snd | apply keeps_each | apply keeps_foldl | apply keeps_each_snd | apply keeps_foldl_snd
    | apply keeps_id | exact ‹Group.NoShoot _› _ | refine keeps_of_eq (by assumption) ?_ | split | dsimp only

theorem Dev.countQuiet_keeps {dev0 : Dev} {g : Nat} {d : Dev} (hk : Keeps dev0 d) : Keeps dev0 (Dev.countQuiet g d) := by
  unfold Dev.countQuiet
  with_reducible repeat' first
    | assumption | exact fun _ h => h | intro _ | apply Dev.when_keeps | apply Dev.modGroup_keeps | apply keeps_ite
    | apply keeps_ite_snd | apply keeps_each | apply keeps_foldl | apply keeps_each_snd | apply keeps_foldl_snd
    | apply keeps_id | exact ‹Group.NoShoot _› _ | refine keeps_of_eq (by assumption) ?_ | split | dsimp only

theorem Dev.carrierStep_keeps {dev0 : Dev} {peak : Bool} {g : Nat} {d : Dev} (hk : Keeps dev0 d) : Keeps dev0 (Dev.carrierStep
    peak g d) := by
  unfold Dev.carrierStep
  with_reducible repeat' first
    | assumption | exact fun _ h => h | intro _ | apply Dev.showLens_keeps | apply Dev.fixNext_keeps
    | apply Dev.modGroup_keeps | apply Dev.countQuiet_keeps | apply Dev.passStart_keeps | apply Dev.setBit_keeps
    | apply keeps_ite | apply keeps_ite_snd | apply keeps_each | apply keeps_foldl | apply keeps_each_snd
    | apply keeps_foldl_snd | apply keeps_id | exact ‹Group.NoShoot _› _ | refine keeps_of_eq (by assumption) ?_ | split
    | dsimp only

theorem Dev.startLegs_keeps {dev0 : Dev} {g : Nat} {d : Dev} (hk : Keeps dev0 d) : Keeps dev0 (Dev.startLegs g d) := by
  unfold Dev.startLegs
  with_reducible repeat' first
    | assumption | exact fun _ h => h | intro _ | apply Dev.modLeg_keeps | apply keeps_ite | apply keeps_ite_snd
    | apply keeps_each | apply keeps_foldl | apply keeps_each_snd | apply keeps_foldl_snd | apply keeps_id
    | exact ‹Group.NoShoot _› _ | refine keeps_of_eq (by assumption) ?_ | split | dsimp only

theorem Dev.transferDuties_keeps {dev0 : Dev} {g : Nat} {d : Dev} (hk : Keeps dev0 d) : Keeps dev0 (Dev.transferDuties g d) :=
    by
  unfold Dev.transferDuties
  with_reducible repeat' first
    | assumption | intro _ | apply Dev.setReg_keeps | apply keeps_ite | apply keeps_ite_snd | apply keeps_each
    | apply keeps_foldl | apply keeps_each_snd | apply keeps_foldl_snd | apply keeps_id
    | refine keeps_of_eq (by assumption) ?_ | split | dsimp only

theorem Dev.transferForce_keeps {dev0 : Dev} {g : Nat} {d : Dev} (hk : Keeps dev0 d) : Keeps dev0 (Dev.transferForce g d) := by
  unfold Dev.transferForce
  with_reducible repeat' first
    | assumption | exact fun _ h => h | intro _ | apply Dev.modGroup_keeps | apply Dev.setReg_keeps | apply keeps_ite
    | apply keeps_ite_snd | apply keeps_each | apply keeps_foldl | apply keeps_each_snd | apply keeps_foldl_snd
    | apply keeps_id | exact ‹Group.NoShoot _› _ | refine keeps_of_eq (by assumption) ?_ | split | dsimp only

theorem Dev.skipTransfer_keeps {dev0 : Dev} {g : Nat} {d : Dev} (hk : Keeps dev0 d) : Keeps dev0 (Dev.skipTransfer g d) := by
  unfold Dev.skipTransfer
  with_reducible repeat' first
    | assumption | exact fun _ h => h | intro _ | apply Dev.raise_keeps | apply Dev.bumpSat_keeps | apply Dev.when_keeps
    | apply Dev.modGroup_keeps | apply Dev.setReg_keeps | apply keeps_ite | apply keeps_ite_snd | apply keeps_each
    | apply keeps_foldl | apply keeps_each_snd | apply keeps_foldl_snd | apply keeps_id | exact ‹Group.NoShoot _› _
    | refine keeps_of_eq (by assumption) ?_ | split | dsimp only

theorem Dev.stateAtReload_keeps {dev0 : Dev} {g : Nat} {d : Dev} (hk : Keeps dev0 d) : Keeps dev0 (Dev.stateAtReload g d) := by
  unfold Dev.stateAtReload
  with_reducible repeat' first
    | assumption | exact fun _ h => h | intro _ | apply Dev.setGstate_keeps | apply Dev.modGroup_keeps
    | apply Dev.setFld_keeps | apply keeps_ite | apply keeps_ite_snd | apply keeps_each | apply keeps_foldl
    | apply keeps_each_snd | apply keeps_foldl_snd | apply keeps_id | exact ‹Group.NoShoot _› _
    | refine keeps_of_eq (by assumption) ?_ | split | dsimp only

theorem Dev.ageLegs_keeps {dev0 : Dev} {g : Nat} {d : Dev} (hk : Keeps dev0 d) : Keeps dev0 (Dev.ageLegs g d) := by
  unfold Dev.ageLegs
  with_reducible repeat' first
    | assumption | intro _ | apply Dev.bumpSat_keeps | apply keeps_ite | apply keeps_ite_snd | apply keeps_each
    | apply keeps_foldl | apply keeps_each_snd | apply keeps_foldl_snd | apply keeps_id
    | refine keeps_of_eq (by assumption) ?_ | split | dsimp only

theorem Dev.winCount_keeps {dev0 : Dev} {g : Nat} {d : Dev} (hk : Keeps dev0 d) : Keeps dev0 (Dev.winCount g d) := by
  unfold Dev.winCount
  with_reducible repeat' first
    | assumption | exact fun _ h => h | intro _ | apply Dev.modGroup_keeps | apply Dev.setReg_keeps | apply keeps_ite
    | apply keeps_ite_snd | apply keeps_each | apply keeps_foldl | apply keeps_each_snd | apply keeps_foldl_snd
    | apply keeps_id | exact ‹Group.NoShoot _› _ | refine keeps_of_eq (by assumption) ?_ | split | dsimp only

theorem Dev.reloadTake_keeps {dev0 : Dev} {g : Nat} {d : Dev} (hk : Keeps dev0 d) : Keeps dev0 (Dev.reloadTake g d) := by
  unfold Dev.reloadTake
  with_reducible repeat' first
    | assumption | exact fun _ h => h | intro _ | apply Dev.modGroup_keeps | apply Dev.when_keeps
    | apply Dev.takeSample_keeps | apply Dev.skipTransfer_keeps | apply Dev.transferForce_keeps
    | apply Dev.transferDuties_keeps | apply Dev.stateAtReload_keeps | apply keeps_ite | apply keeps_ite_snd
    | apply keeps_each | apply keeps_foldl | apply keeps_each_snd | apply keeps_foldl_snd | apply keeps_id
    | exact ‹Group.NoShoot _› _ | refine keeps_of_eq (by assumption) ?_ | split | dsimp only

theorem Dev.reloadPeriod_keeps {dev0 : Dev} {peak : Bool} {g : Nat} {d : Dev} (hk : Keeps dev0 d) : Keeps dev0 (Dev.reloadPeriod
    peak g d) := by
  unfold Dev.reloadPeriod
  with_reducible repeat' first
    | assumption | intro _ | apply Dev.ageLegs_keeps | apply Dev.settle_keeps | apply Dev.startLegs_keeps
    | apply Dev.carrierStep_keeps | apply keeps_ite | apply keeps_ite_snd | apply keeps_each | apply keeps_foldl
    | apply keeps_each_snd | apply keeps_foldl_snd | apply keeps_id | refine keeps_of_eq (by assumption) ?_ | split
    | dsimp only

theorem Dev.holdTimebase_keeps {dev0 : Dev} {g : Nat} {d : Dev} (hk : Keeps dev0 d) : Keeps dev0 (Dev.holdTimebase g d) := by
  unfold Dev.holdTimebase
  with_reducible repeat' first
    | assumption | exact fun _ h => h | intro _ | apply Dev.dropStarts_keeps | apply Dev.setBit_keeps
    | apply Dev.modGroup_keeps | apply keeps_ite | apply keeps_ite_snd | apply keeps_each | apply keeps_foldl
    | apply keeps_each_snd | apply keeps_foldl_snd | apply keeps_id | exact ‹Group.NoShoot _› _
    | refine keeps_of_eq (by assumption) ?_ | split | dsimp only

theorem Dev.awaitStart_keeps {dev0 : Dev} {g : Nat} {d : Dev} (hk : Keeps dev0 d) : Keeps dev0 (Dev.awaitStart g d) := by
  unfold Dev.awaitStart
  with_reducible repeat' first
    | assumption | exact fun _ h => h | intro _ | apply Dev.setBit_keeps | apply Dev.modGroup_keeps | apply Dev.when_keeps
    | apply Dev.setStart_keeps | apply keeps_ite | apply keeps_ite_snd | apply keeps_each | apply keeps_foldl
    | apply keeps_each_snd | apply keeps_foldl_snd | apply keeps_id | exact ‹Group.NoShoot _› _
    | refine keeps_of_eq (by assumption) ?_ | split | dsimp only

theorem Dev.groupEnable_keeps {dev0 : Dev} {g : Nat} {en : Bool} {d : Dev} (hk : Keeps dev0 d) : Keeps dev0 (Dev.groupEnable g
    en d) := by
  unfold Dev.groupEnable
  with_reducible repeat' first
    | assumption | exact fun _ h => h | intro _ | apply Dev.setReg_keeps | apply Dev.modGroup_keeps
    | apply Dev.awaitStart_keeps | apply Dev.setBit_keeps | apply Dev.dropStarts_keeps | apply Dev.settle_keeps
    | apply keeps_ite | apply keeps_ite_snd | apply keeps_each | apply keeps_foldl | apply keeps_each_snd
    | apply keeps_foldl_snd | apply keeps_id | exact ‹Group.NoShoot _› _ | refine keeps_of_eq (by assumption) ?_ | split
    | dsimp only

theorem Dev.ditherRestart_keeps {dev0 : Dev} {g : Nat} {d : Dev} (hk : Keeps dev0 d) : Keeps dev0 (Dev.ditherRestart g d) := by
  unfold Dev.ditherRestart
  with_reducible repeat' first
    | assumption | exact fun _ h => h | intro _ | apply Dev.modGroup_keeps | apply keeps_ite | apply keeps_ite_snd
    | apply keeps_each | apply keeps_foldl | apply keeps_each_snd | apply keeps_foldl_snd | apply keeps_id
    | exact ‹Group.NoShoot _› _ | refine keeps_of_eq (by assumption) ?_ | split | dsimp only

theorem Dev.noteLate_keeps {dev0 : Dev} {g : Nat} {d : Dev} (hk : Keeps dev0 d) : Keeps dev0 (Dev.noteLate g d) := by
  unfold Dev.noteLate
  with_reducible repeat' first
    | assumption | intro _ | apply Dev.setReg_keeps | apply Dev.raise_keeps | apply keeps_ite | apply keeps_ite_snd
    | apply keeps_each | apply keeps_foldl | apply keeps_each_snd | apply keeps_foldl_snd | apply keeps_id
    | refine keeps_of_eq (by assumption) ?_ | split | dsimp only

theorem Dev.dutyOp_keeps {dev0 : Dev} {m : Master} {g : Nat} {k : Nat} {v : Word} {d : Dev} (hk : Keeps dev0 d) : Keeps dev0
    (Dev.dutyOp m g k v d) := by
  unfold Dev.dutyOp
  with_reducible repeat' first
    | assumption | exact fun _ h => h | intro _ | apply Dev.setReg_keeps | apply Dev.noteLate_keeps | apply Dev.when_keeps
    | apply Dev.modGroup_keeps | apply keeps_ite | apply keeps_ite_snd | apply keeps_each | apply keeps_foldl
    | apply keeps_each_snd | apply keeps_foldl_snd | apply keeps_id | exact ‹Group.NoShoot _› _
    | refine keeps_of_eq (by assumption) ?_ | split | dsimp only

theorem execDutyShadowWrite_keeps {m : Master} {g : Fin 12} {k : Fin 4} {v : Word} {s : State} : Kept s (execDutyShadowWrite m g
    k v s) := by
  unfold execDutyShadowWrite
  with_reducible repeat' first
    | assumption | intro _ | apply Dev.accessWrite_keeps | apply Dev.dutyOp_keeps | apply onDev_kept | apply keeps_ite
    | apply keeps_ite_snd | apply keeps_each | apply keeps_foldl | apply keeps_each_snd | apply keeps_foldl_snd
    | apply keeps_id | refine keeps_of_eq (by assumption) ?_ | split | dsimp only

theorem execEdgeEvent_keeps {g : Fin 12} {k : Fin 4} {on : Bool} {s : State} : Kept s (execEdgeEvent g k on s) := by
  unfold execEdgeEvent
  with_reducible repeat' first
    | assumption | exact fun _ h => h | intro _ | apply Dev.modLeg_keeps | apply Dev.settleLegAt_keeps | apply onDev_kept
    | apply keeps_ite | apply keeps_ite_snd | apply keeps_each | apply keeps_foldl | apply keeps_each_snd
    | apply keeps_foldl_snd | apply keeps_id | exact ‹Group.NoShoot _› _ | refine keeps_of_eq (by assumption) ?_ | split
    | dsimp only

theorem execDeadTimeExpiry_keeps {g : Fin 12} {k : Fin 4} {high : Bool} {s : State} :
    Kept s (execDeadTimeExpiry g k high s) := by
  refine onDev_kept (fun d hd => ?_)
  split
  · exact Dev.when_keeps (fun _ h => Dev.driveAt_keeps (by cases high <;> rfl) h) hd
  · exact hd

theorem Dev.startGroup_keeps {dev0 : Dev} {g : Nat} {d : Dev} (hk : Keeps dev0 d) : Keeps dev0 (Dev.startGroup g d) := by
  unfold Dev.startGroup
  with_reducible repeat' first
    | assumption | exact fun _ h => h | intro _ | apply Dev.setReg_keeps | apply Dev.modGroup_keeps
    | apply Dev.holdEnd_keeps | apply Dev.setGstate_keeps | apply Dev.raise_keeps | apply keeps_ite | apply keeps_ite_snd
    | apply keeps_each | apply keeps_foldl | apply keeps_each_snd | apply keeps_foldl_snd | apply keeps_id
    | exact ‹Group.NoShoot _› _ | refine keeps_of_eq (by assumption) ?_ | split | dsimp only

theorem Dev.stopGroup_keeps {dev0 : Dev} {now : Bool} {g : Nat} {d : Dev} (hk : Keeps dev0 d) : Keeps dev0 (Dev.stopGroup now g
    d) := by
  unfold Dev.stopGroup
  with_reducible repeat' first
    | assumption | exact fun _ h => h | intro _ | apply Dev.modGroup_keeps | apply Dev.when_keeps | apply Dev.setFld_keeps
    | apply Dev.setGstate_keeps | apply Dev.settle_keeps | apply Dev.raise_keeps | apply keeps_ite | apply keeps_ite_snd
    | apply keeps_each | apply keeps_foldl | apply keeps_each_snd | apply keeps_foldl_snd | apply keeps_id
    | exact ‹Group.NoShoot _› _ | refine keeps_of_eq (by assumption) ?_ | split | dsimp only

theorem execStart_keeps {m : Master} {g : Fin 12} {s : State} : Kept s (execStart m g s) := by
  unfold execStart
  with_reducible repeat' first
    | assumption | intro _ | apply Dev.accessWrite_keeps | apply Dev.startGroup_keeps | apply onDev_kept | apply keeps_ite
    | apply keeps_ite_snd | apply keeps_each | apply keeps_foldl | apply keeps_each_snd | apply keeps_foldl_snd
    | apply keeps_id | refine keeps_of_eq (by assumption) ?_ | split | dsimp only

theorem execStop_keeps {m : Master} {g : Fin 12} {s : State} : Kept s (execStop m g s) := by
  unfold execStop
  with_reducible repeat' first
    | assumption | intro _ | apply Dev.accessWrite_keeps | apply Dev.stopGroup_keeps | apply onDev_kept | apply keeps_ite
    | apply keeps_ite_snd | apply keeps_each | apply keeps_foldl | apply keeps_each_snd | apply keeps_foldl_snd
    | apply keeps_id | refine keeps_of_eq (by assumption) ?_ | split | dsimp only

theorem execStopNow_keeps {m : Master} {g : Fin 12} {s : State} : Kept s (execStopNow m g s) := by
  unfold execStopNow
  with_reducible repeat' first
    | assumption | intro _ | apply Dev.accessWrite_keeps | apply Dev.stopGroup_keeps | apply onDev_kept | apply keeps_ite
    | apply keeps_ite_snd | apply keeps_each | apply keeps_foldl | apply keeps_each_snd | apply keeps_foldl_snd
    | apply keeps_id | refine keeps_of_eq (by assumption) ?_ | split | dsimp only

theorem execGstart_keeps {m : Master} {v : Word} {s : State} : Kept s (execGstart m v s) := by
  unfold execGstart
  with_reducible repeat' first
    | assumption | intro _ | apply Dev.accessWrite_keeps | apply Dev.startGroup_keeps | apply onDev_kept | apply keeps_ite
    | apply keeps_ite_snd | apply keeps_each | apply keeps_foldl | apply keeps_each_snd | apply keeps_foldl_snd
    | apply keeps_id | refine keeps_of_eq (by assumption) ?_ | split | dsimp only

theorem execGstop_keeps {m : Master} {v : Word} {s : State} : Kept s (execGstop m v s) := by
  unfold execGstop
  with_reducible repeat' first
    | assumption | intro _ | apply Dev.accessWrite_keeps | apply Dev.stopGroup_keeps | apply onDev_kept | apply keeps_ite
    | apply keeps_ite_snd | apply keeps_each | apply keeps_foldl | apply keeps_each_snd | apply keeps_foldl_snd
    | apply keeps_id | refine keeps_of_eq (by assumption) ?_ | split | dsimp only

theorem execGroupOff_keeps {g : Fin 12} {s : State} : Kept s (execGroupOff g s) := by
  unfold execGroupOff
  with_reducible repeat' first
    | assumption | intro _ | apply Dev.when_keeps | apply Dev.setGstate_keeps | apply onDev_kept | apply keeps_ite
    | apply keeps_ite_snd | apply keeps_each | apply keeps_foldl | apply keeps_each_snd | apply keeps_foldl_snd
    | apply keeps_id | refine keeps_of_eq (by assumption) ?_ | split | dsimp only

theorem execDlLock_keeps {g : Fin 12} {s : State} : Kept s (execDlLock g s) := by
  unfold execDlLock
  with_reducible repeat' first
    | assumption | intro _ | apply Dev.when_keeps | apply Dev.setBit_keeps | apply onDev_kept | apply keeps_ite
    | apply keeps_ite_snd | apply keeps_each | apply keeps_foldl | apply keeps_each_snd | apply keeps_foldl_snd
    | apply keeps_id | refine keeps_of_eq (by assumption) ?_ | split | dsimp only

theorem execDlUnlock_keeps {g : Fin 12} {s : State} : Kept s (execDlUnlock g s) := by
  unfold execDlUnlock
  with_reducible repeat' first
    | assumption | intro _ | apply Dev.when_keeps | apply Dev.raise_keeps | apply Dev.setBit_keeps | apply onDev_kept
    | apply keeps_ite | apply keeps_ite_snd | apply keeps_each | apply keeps_foldl | apply keeps_each_snd
    | apply keeps_foldl_snd | apply keeps_id | refine keeps_of_eq (by assumption) ?_ | split | dsimp only

theorem execSyncInPulse_keeps {ticks : Nat} {s : State} : Kept s (execSyncInPulse ticks s) := by
  unfold execSyncInPulse
  with_reducible repeat' first
    | assumption | exact fun _ h => h | intro _ | apply Dev.modGroup_keeps | apply Dev.setStart_keeps
    | apply Dev.setBit_keeps | apply Dev.setFld_keeps | apply onDev_kept | apply keeps_ite | apply keeps_ite_snd
    | apply keeps_each | apply keeps_foldl | apply keeps_each_snd | apply keeps_foldl_snd | apply keeps_id
    | exact ‹Group.NoShoot _› _ | refine keeps_of_eq (by assumption) ?_ | split | dsimp only

theorem execSyncLost_keeps {s : State} : Kept s (execSyncLost s) := by
  unfold execSyncLost
  with_reducible repeat' first
    | assumption | exact fun _ h => h | intro _ | apply Dev.raise_keeps | apply Dev.setBit_keeps | apply Dev.modGroup_keeps
    | apply onDev_kept | apply keeps_ite | apply keeps_ite_snd | apply keeps_each | apply keeps_foldl | apply keeps_each_snd
    | apply keeps_foldl_snd | apply keeps_id | exact ‹Group.NoShoot _› _ | refine keeps_of_eq (by assumption) ?_ | split
    | dsimp only

theorem execSyncOutPulse_keeps {s : State} : Kept s (execSyncOutPulse s) := by
  unfold execSyncOutPulse
  with_reducible repeat' first
    | assumption | intro _ | apply Dev.putSyncOutAt_keeps | apply onDev_kept | apply keeps_ite | apply keeps_ite_snd
    | apply keeps_each | apply keeps_foldl | apply keeps_each_snd | apply keeps_foldl_snd | apply keeps_id
    | refine keeps_of_eq (by assumption) ?_ | split | dsimp only

theorem execCommutationEvent_keeps {g : Fin 12} {s : State} : Kept s (execCommutationEvent g s) := by
  unfold execCommutationEvent
  with_reducible repeat' first
    | assumption | intro _ | apply Dev.mcMask_keeps | apply onDev_kept | apply keeps_ite | apply keeps_ite_snd
    | apply keeps_each | apply keeps_foldl | apply keeps_each_snd | apply keeps_foldl_snd | apply keeps_id
    | refine keeps_of_eq (by assumption) ?_ | split | dsimp only

end Sys2Proof.Machine
end

