-- ==== Sys2Proof/Laws/KeepsAdc.lean ====
section
/-!
SUPPORT. What the operations of Machine/Adc.lean keep: see Keeps.lean.
-/

namespace Sys2Proof.Machine

theorem Dev.plausCfg_keeps {dev0 : Dev} {d : Dev} (hk : Keeps dev0 d) : Keeps dev0 (Dev.plausCfg d) := by
  unfold Dev.plausCfg
  with_reducible repeat' first
    | assumption | intro _ | apply Dev.setBit_keeps | apply keeps_ite | apply keeps_ite_snd | apply keeps_each
    | apply keeps_foldl | apply keeps_each_snd | apply keeps_foldl_snd | apply keeps_id
    | refine keeps_of_eq (by assumption) ?_ | split | dsimp only

theorem Dev.plausFinding_keeps {dev0 : Dev} {kind : Nat} {dir : Nat} {j : Nat} {d : Dev} (hk : Keeps dev0 d) : Keeps dev0
    (Dev.plausFinding kind dir j d) := by
  unfold Dev.plausFinding
  with_reducible repeat' first
    | assumption | intro _ | apply Dev.bumpSat_keeps | apply Dev.raise_keeps | apply Dev.when_keeps | apply Dev.setReg_keeps
    | apply keeps_ite | apply keeps_ite_snd | apply keeps_each | apply keeps_foldl | apply keeps_each_snd
    | apply keeps_foldl_snd | apply keeps_id | refine keeps_of_eq (by assumption) ?_ | split | dsimp only

theorem Dev.plausSide_keeps {dev0 : Dev} {j : Nat} {dir : Nat} {from_ : Nat} {close : Nat} {long : Nat} {x : CompSide} {level :
    Int} {extreme : Int} {d : Dev} (hk : Keeps dev0 d) : Keeps dev0 (Dev.plausSide j dir from_ close long x level extreme d) :=
    by
  unfold Dev.plausSide
  with_reducible repeat' first
    | assumption | intro _ | apply Dev.when_keeps | apply Dev.plausFinding_keeps | apply keeps_ite | apply keeps_ite_snd
    | apply keeps_each | apply keeps_foldl | apply keeps_each_snd | apply keeps_foldl_snd | apply keeps_id
    | refine keeps_of_eq (by assumption) ?_ | split | dsimp only

theorem Dev.plausCheck_keeps {dev0 : Dev} {from_ : Nat} {close : Nat} {w : Window} {j : Nat} {d : Dev} (hk : Keeps dev0 d) :
    Keeps dev0 (Dev.plausCheck from_ close w j d) := by
  unfold Dev.plausCheck
  with_reducible repeat' first
    | assumption | intro _ | apply Dev.plausSide_keeps | apply Dev.putCmps_keeps | apply keeps_ite | apply keeps_ite_snd
    | apply keeps_each | apply keeps_foldl | apply keeps_each_snd | apply keeps_foldl_snd | apply keeps_id
    | refine keeps_of_eq (by assumption) ?_ | split | dsimp only

theorem Dev.checkWindow_keeps {dev0 : Dev} {x : WindowCheck} {d : Dev} (hk : Keeps dev0 d) : Keeps dev0 (Dev.checkWindow x d) :=
    by
  unfold Dev.checkWindow
  with_reducible repeat' first
    | assumption | intro _ | apply Dev.plausCheck_keeps | apply keeps_ite | apply keeps_ite_snd | apply keeps_each
    | apply keeps_foldl | apply keeps_each_snd | apply keeps_foldl_snd | apply keeps_id
    | refine keeps_of_eq (by assumption) ?_ | split | dsimp only

theorem Dev.checksDue_keeps {dev0 : Dev} {d : Dev} (hk : Keeps dev0 d) : Keeps dev0 (Dev.checksDue d) := by
  unfold Dev.checksDue
  with_reducible repeat' first
    | assumption | intro _ | apply Dev.checkWindow_keeps | apply Dev.modAcq_keeps | apply keeps_ite | apply keeps_ite_snd
    | apply keeps_each | apply keeps_foldl | apply keeps_each_snd | apply keeps_foldl_snd | apply keeps_id
    | refine keeps_of_eq (by assumption) ?_ | split | dsimp only

theorem Dev.closeCountMmx_keeps {dev0 : Dev} {m : Nat} {close : Nat} {d : Dev} (hk : Keeps dev0 d) : Keeps dev0
    (Dev.closeCountMmx m close d) := by
  unfold Dev.closeCountMmx
  with_reducible repeat' first
    | assumption | intro _ | apply Dev.publishMmx_keeps | apply Dev.modMmx_keeps | apply Dev.modAcq_keeps | apply keeps_ite
    | apply keeps_ite_snd | apply keeps_each | apply keeps_foldl | apply keeps_each_snd | apply keeps_foldl_snd
    | apply keeps_id | refine keeps_of_eq (by assumption) ?_ | split | dsimp only

theorem Dev.enterMmx_keeps {dev0 : Dev} {m : Nat} {no : Nat} {at_ : Nat} {f : Window → Window} {d : Dev} (hk : Keeps dev0 d) :
    Keeps dev0 (Dev.enterMmx m no at_ f d) := by
  unfold Dev.enterMmx
  with_reducible repeat' first
    | assumption | intro _ | apply Dev.closeCountMmx_keeps | apply Dev.modMmx_keeps | apply keeps_ite | apply keeps_ite_snd
    | apply keeps_each | apply keeps_foldl | apply keeps_each_snd | apply keeps_foldl_snd | apply keeps_id
    | refine keeps_of_eq (by assumption) ?_ | split | dsimp only

theorem Dev.publishGroup_keeps {dev0 : Dev} {g : Nat} {d : Dev} (hk : Keeps dev0 d) : Keeps dev0 (Dev.publishGroup g d) := by
  unfold Dev.publishGroup
  with_reducible repeat' first
    | assumption | intro _ | apply Dev.publishAcc_keeps | apply Dev.modAcc_keeps | apply Dev.checkWindow_keeps
    | apply Dev.publishMmx_keeps | apply Dev.modMmx_keeps | apply keeps_ite | apply keeps_ite_snd | apply keeps_each
    | apply keeps_foldl | apply keeps_each_snd | apply keeps_foldl_snd | apply keeps_id
    | refine keeps_of_eq (by assumption) ?_ | split | dsimp only

theorem Dev.modConv_keeps {dev0 : Dev} {c : Nat} {f : Converter → Converter} {d : Dev} (hk : Keeps dev0 d) : Keeps dev0
    (Dev.modConv c f d) := by
  unfold Dev.modConv
  with_reducible repeat' first
    | assumption | intro _ | apply Dev.putConv_keeps | apply keeps_ite | apply keeps_ite_snd | apply keeps_each
    | apply keeps_foldl | apply keeps_each_snd | apply keeps_foldl_snd | apply keeps_id
    | refine keeps_of_eq (by assumption) ?_ | split | dsimp only

theorem Dev.startSeq_keeps {dev0 : Dev} {c : Nat} {d : Dev} (hk : Keeps dev0 d) : Keeps dev0 (Dev.startSeq c d) := by
  unfold Dev.startSeq
  with_reducible repeat' first
    | assumption | intro _ | apply Dev.modConv_keeps | apply keeps_ite | apply keeps_ite_snd | apply keeps_each
    | apply keeps_foldl | apply keeps_each_snd | apply keeps_foldl_snd | apply keeps_id
    | refine keeps_of_eq (by assumption) ?_ | split | dsimp only

theorem Dev.startPending_keeps {dev0 : Dev} {d : Dev} (hk : Keeps dev0 d) : Keeps dev0 (Dev.startPending d) := by
  unfold Dev.startPending
  with_reducible repeat' first
    | assumption | intro _ | apply Dev.when_keeps | apply Dev.startSeq_keeps | apply Dev.modConv_keeps | apply keeps_ite
    | apply keeps_ite_snd | apply keeps_each | apply keeps_foldl | apply keeps_each_snd | apply keeps_foldl_snd
    | apply keeps_id | refine keeps_of_eq (by assumption) ?_ | split | dsimp only

theorem Dev.dropTrigger_keeps {dev0 : Dev} {c : Nat} {d : Dev} (hk : Keeps dev0 d) : Keeps dev0 (Dev.dropTrigger c d) := by
  unfold Dev.dropTrigger
  with_reducible repeat' first
    | assumption | intro _ | apply Dev.bumpSat_keeps | apply Dev.raise_keeps | apply keeps_ite | apply keeps_ite_snd
    | apply keeps_each | apply keeps_foldl | apply keeps_each_snd | apply keeps_foldl_snd | apply keeps_id
    | refine keeps_of_eq (by assumption) ?_ | split | dsimp only

theorem Dev.trigger_keeps {dev0 : Dev} {c : Nat} {d : Dev} (hk : Keeps dev0 d) : Keeps dev0 (Dev.trigger c d) := by
  unfold Dev.trigger
  with_reducible repeat' first
    | assumption | intro _ | apply Dev.dropTrigger_keeps | apply Dev.modConv_keeps | apply Dev.startSeq_keeps
    | apply keeps_ite | apply keeps_ite_snd | apply keeps_each | apply keeps_foldl | apply keeps_each_snd
    | apply keeps_foldl_snd | apply keeps_id | refine keeps_of_eq (by assumption) ?_ | split | dsimp only

theorem execTriggerFire_keeps {c : Fin 24} {i : Fin 8} {s : State} : Kept s (execTriggerFire c i s) := by
  unfold execTriggerFire
  with_reducible repeat' first
    | assumption | intro _ | apply Dev.when_keeps | apply Dev.trigger_keeps | apply Dev.modConv_keeps | apply onDev_kept
    | apply keeps_ite | apply keeps_ite_snd | apply keeps_each | apply keeps_foldl | apply keeps_each_snd
    | apply keeps_foldl_snd | apply keeps_id | refine keeps_of_eq (by assumption) ?_ | split | dsimp only

theorem execGridConversion_keeps {c : Fin 24} {s : State} : Kept s (execGridConversion c s) := by
  unfold execGridConversion
  with_reducible repeat' first
    | assumption | intro _ | apply Dev.when_keeps | apply Dev.modConv_keeps | apply onDev_kept | apply keeps_ite
    | apply keeps_ite_snd | apply keeps_each | apply keeps_foldl | apply keeps_each_snd | apply keeps_foldl_snd
    | apply keeps_id | refine keeps_of_eq (by assumption) ?_ | split | dsimp only

theorem Dev.skipAcc_keeps {dev0 : Dev} {c : Nat} {m : Nat} {d : Dev} (hk : Keeps dev0 d) : Keeps dev0 (Dev.skipAcc c m d) := by
  unfold Dev.skipAcc
  with_reducible repeat' first
    | assumption | intro _ | apply Dev.enterAcc_keeps | apply keeps_ite | apply keeps_ite_snd | apply keeps_each
    | apply keeps_foldl | apply keeps_each_snd | apply keeps_foldl_snd | apply keeps_id
    | refine keeps_of_eq (by assumption) ?_ | split | dsimp only

theorem Dev.judgeSlots_keeps {dev0 : Dev} {d : Dev} (hk : Keeps dev0 d) : Keeps dev0 (Dev.judgeSlots d) := by
  unfold Dev.judgeSlots
  with_reducible repeat' first
    | assumption | intro _ | apply Dev.modConv_keeps | apply keeps_ite | apply keeps_ite_snd | apply keeps_each
    | apply keeps_foldl | apply keeps_each_snd | apply keeps_foldl_snd | apply keeps_id
    | refine keeps_of_eq (by assumption) ?_ | split | dsimp only

theorem Dev.refMissing_keeps {dev0 : Dev} {c : Nat} {d : Dev} (hk : Keeps dev0 d) : Keeps dev0 (Dev.refMissing c d) := by
  unfold Dev.refMissing
  with_reducible repeat' first
    | assumption | intro _ | apply Dev.bumpSat_keeps | apply Dev.raise_keeps | apply keeps_ite | apply keeps_ite_snd
    | apply keeps_each | apply keeps_foldl | apply keeps_each_snd | apply keeps_foldl_snd | apply keeps_id
    | refine keeps_of_eq (by assumption) ?_ | split | dsimp only

theorem Dev.sampleSlot_keeps {dev0 : Dev} {c : Nat} {x : Started} {code : Int} {d : Dev} (hk : Keeps dev0 d) : Keeps dev0
    (Dev.sampleSlot c x code d) := by
  unfold Dev.sampleSlot
  with_reducible repeat' first
    | assumption | intro _ | apply Dev.raise_keeps | apply Dev.skipAcc_keeps | apply Dev.bumpSat_keeps
    | apply Dev.bumpWrap_keeps | apply Dev.enterAcc_keeps | apply Dev.refMissing_keeps | apply Dev.enterMmx_keeps
    | apply Dev.modConv_keeps | apply keeps_ite | apply keeps_ite_snd | apply keeps_each | apply keeps_foldl
    | apply keeps_each_snd | apply keeps_foldl_snd | apply keeps_id | refine keeps_of_eq (by assumption) ?_ | split
    | dsimp only

theorem Dev.calFail_keeps {dev0 : Dev} {err : Nat} {d : Dev} (hk : Keeps dev0 d) : Keeps dev0 (Dev.calFail err d) := by
  unfold Dev.calFail
  with_reducible repeat' first
    | assumption | intro _ | apply Dev.raise_keeps | apply Dev.setFld_keeps | apply keeps_ite | apply keeps_ite_snd
    | apply keeps_each | apply keeps_foldl | apply keeps_each_snd | apply keeps_foldl_snd | apply keeps_id
    | refine keeps_of_eq (by assumption) ?_ | split | dsimp only

theorem Dev.calEnd_keeps {dev0 : Dev} {d : Dev} (hk : Keeps dev0 d) : Keeps dev0 (Dev.calEnd d) := by
  unfold Dev.calEnd
  with_reducible repeat' first
    | assumption | intro _ | apply Dev.putCal_keeps | apply Dev.setBit_keeps | apply keeps_ite | apply keeps_ite_snd
    | apply keeps_each | apply keeps_foldl | apply keeps_each_snd | apply keeps_foldl_snd | apply keeps_id
    | refine keeps_of_eq (by assumption) ?_ | split | dsimp only

theorem Dev.calTake_keeps {dev0 : Dev} {k : CalStep} {x : Int} {d : Dev} (hk : Keeps dev0 d) : Keeps dev0 (Dev.calTake k x d) :=
    by
  unfold Dev.calTake
  with_reducible repeat' first
    | assumption | intro _ | apply Dev.when_keeps | apply Dev.putCal_keeps | apply keeps_ite | apply keeps_ite_snd
    | apply keeps_each | apply keeps_foldl | apply keeps_each_snd | apply keeps_foldl_snd | apply keeps_id
    | refine keeps_of_eq (by assumption) ?_ | split | dsimp only

theorem Dev.calSample_keeps {dev0 : Dev} {c : Nat} {k : CalStep} {code : Int} {d : Dev} (hk : Keeps dev0 d) : Keeps dev0
    (Dev.calSample c k code d) := by
  unfold Dev.calSample
  with_reducible repeat' first
    | assumption | intro _ | apply Dev.raise_keeps | apply Dev.bumpWrap_keeps | apply Dev.refMissing_keeps
    | apply Dev.calFail_keeps | apply Dev.calEnd_keeps | apply Dev.calTake_keeps | apply keeps_ite | apply keeps_ite_snd
    | apply keeps_each | apply keeps_foldl | apply keeps_each_snd | apply keeps_foldl_snd | apply keeps_id
    | refine keeps_of_eq (by assumption) ?_ | split | dsimp only

theorem Dev.sampleDue_keeps {dev0 : Dev} {c : Nat} {code : Int} {d : Dev} (hk : Keeps dev0 d) : Keeps dev0 (Dev.sampleDue c code
    d) := by
  unfold Dev.sampleDue
  with_reducible repeat' first
    | assumption | intro _ | apply Dev.sampleSlot_keeps | apply Dev.modConv_keeps | apply keeps_ite | apply keeps_ite_snd
    | apply keeps_each | apply keeps_foldl | apply keeps_each_snd | apply keeps_foldl_snd | apply keeps_id
    | refine keeps_of_eq (by assumption) ?_ | split | dsimp only

theorem execConversionSample_keeps {c : Fin 24} {code : Int} {s : State} : Kept s (execConversionSample c code s) := by
  unfold execConversionSample
  with_reducible repeat' first
    | assumption | intro _ | apply Dev.calSample_keeps | apply Dev.sampleDue_keeps | apply onDev_kept | apply keeps_ite
    | apply keeps_ite_snd | apply keeps_each | apply keeps_foldl | apply keeps_each_snd | apply keeps_foldl_snd
    | apply keeps_id | refine keeps_of_eq (by assumption) ?_ | split | dsimp only

theorem Dev.modTrim_keeps {dev0 : Dev} {k : Nat} {f : TrimPair → TrimPair} {d : Dev} (hk : Keeps dev0 d) : Keeps dev0
    (Dev.modTrim k f d) := by
  unfold Dev.modTrim
  with_reducible repeat' first
    | assumption | intro _ | apply Dev.putTrims_keeps | apply keeps_ite | apply keeps_ite_snd | apply keeps_each
    | apply keeps_foldl | apply keeps_each_snd | apply keeps_foldl_snd | apply keeps_id
    | refine keeps_of_eq (by assumption) ?_ | split | dsimp only

theorem execConversionResult_keeps {c : Fin 24} {s : State} : Kept s (execConversionResult c s) := by
  unfold execConversionResult
  with_reducible repeat' first
    | assumption | intro _ | apply Dev.modConv_keeps | apply Dev.when_keeps | apply Dev.modTrim_keeps
    | apply Dev.enterAcc_keeps | apply Dev.enterMmx_keeps | apply onDev_kept | apply keeps_ite | apply keeps_ite_snd
    | apply keeps_each | apply keeps_foldl | apply keeps_each_snd | apply keeps_foldl_snd | apply keeps_id
    | refine keeps_of_eq (by assumption) ?_ | split | dsimp only

theorem execTrimUpdate_keeps {s : State} : Kept s (execTrimUpdate s) := by
  unfold execTrimUpdate
  with_reducible repeat' first
    | assumption | intro _ | apply Dev.modTrim_keeps | apply onDev_kept | apply keeps_ite | apply keeps_ite_snd
    | apply keeps_each | apply keeps_foldl | apply keeps_each_snd | apply keeps_foldl_snd | apply keeps_id
    | refine keeps_of_eq (by assumption) ?_ | split | dsimp only

theorem Dev.applyTrim_keeps {dev0 : Dev} {k : Nat} {d : Dev} (hk : Keeps dev0 d) : Keeps dev0 (Dev.applyTrim k d) := by
  unfold Dev.applyTrim
  with_reducible repeat' first
    | assumption | intro _ | apply Dev.modTrim_keeps | apply Dev.bumpWrap_keeps | apply Dev.raise_keeps
    | apply Dev.setReg_keeps | apply Dev.setBit_keeps | apply Dev.when_keeps | apply keeps_ite | apply keeps_ite_snd
    | apply keeps_each | apply keeps_foldl | apply keeps_each_snd | apply keeps_foldl_snd | apply keeps_id
    | refine keeps_of_eq (by assumption) ?_ | split | dsimp only

theorem Dev.trimReload_keeps {dev0 : Dev} {g : Nat} {d : Dev} (hk : Keeps dev0 d) : Keeps dev0 (Dev.trimReload g d) := by
  unfold Dev.trimReload
  with_reducible repeat' first
    | assumption | intro _ | apply Dev.applyTrim_keeps | apply keeps_ite | apply keeps_ite_snd | apply keeps_each
    | apply keeps_foldl | apply keeps_each_snd | apply keeps_foldl_snd | apply keeps_id
    | refine keeps_of_eq (by assumption) ?_ | split | dsimp only

theorem Dev.trimStart_keeps {dev0 : Dev} {k : Nat} {d : Dev} (hk : Keeps dev0 d) : Keeps dev0 (Dev.trimStart k d) := by
  unfold Dev.trimStart
  with_reducible repeat' first
    | assumption | intro _ | apply Dev.setBit_keeps | apply Dev.setReg_keeps | apply Dev.modTrim_keeps | apply keeps_ite
    | apply keeps_ite_snd | apply keeps_each | apply keeps_foldl | apply keeps_each_snd | apply keeps_foldl_snd
    | apply keeps_id | refine keeps_of_eq (by assumption) ?_ | split | dsimp only

theorem Dev.calStart_keeps {dev0 : Dev} {full : Bool} {input : Nat} {conv : Nat} {d : Dev} (hk : Keeps dev0 d) : Keeps dev0
    (Dev.calStart full input conv d) := by
  unfold Dev.calStart
  with_reducible repeat' first
    | assumption | intro _ | apply Dev.when_keeps | apply Dev.setFld_keeps | apply Dev.modConv_keeps
    | apply Dev.putCal_keeps | apply Dev.setBit_keeps | apply keeps_ite | apply keeps_ite_snd | apply keeps_each
    | apply keeps_foldl | apply keeps_each_snd | apply keeps_foldl_snd | apply keeps_id
    | refine keeps_of_eq (by assumption) ?_ | split | dsimp only

theorem Dev.setBoth_keeps {dev0 : Dev} {key : Nat} {v : Word} {d : Dev} (hk : Keeps dev0 d) : Keeps dev0 (Dev.setBoth key v d)
    := by
  unfold Dev.setBoth
  with_reducible repeat' first
    | assumption | intro _ | apply Dev.setSh_keeps | apply Dev.setReg_keeps | apply keeps_ite | apply keeps_ite_snd
    | apply keeps_each | apply keeps_foldl | apply keeps_each_snd | apply keeps_foldl_snd | apply keeps_id
    | refine keeps_of_eq (by assumption) ?_ | split | dsimp only

theorem Dev.calCalc_keeps {dev0 : Dev} {input : Nat} {d : Dev} (hk : Keeps dev0 d) : Keeps dev0 (Dev.calCalc input d) := by
  unfold Dev.calCalc
  with_reducible repeat' first
    | assumption | intro _ | apply Dev.calFail_keeps | apply Dev.rwcAccepted_keeps | apply Dev.setBoth_keeps
    | apply Dev.raise_keeps | apply keeps_ite | apply keeps_ite_snd | apply keeps_each | apply keeps_foldl
    | apply keeps_each_snd | apply keeps_foldl_snd | apply keeps_id | refine keeps_of_eq (by assumption) ?_ | split
    | dsimp only

theorem Dev.calOp_keeps {dev0 : Dev} {v : Word} {d : Dev} (hk : Keeps dev0 d) : Keeps dev0 (Dev.calOp v d) := by
  unfold Dev.calOp
  with_reducible repeat' first
    | assumption | intro _ | apply Dev.skipFree_keeps | apply Dev.calFail_keeps | apply Dev.setFld_keeps
    | apply Dev.calCalc_keeps | apply Dev.calEnd_keeps | apply Dev.calStart_keeps | apply keeps_ite | apply keeps_ite_snd
    | apply keeps_each | apply keeps_foldl | apply keeps_each_snd | apply keeps_foldl_snd | apply keeps_id
    | refine keeps_of_eq (by assumption) ?_ | split | dsimp only

theorem execCalZero_keeps {m : Master} {v : Word} {s : State} : Kept s (execCalZero m v s) := by
  unfold execCalZero
  with_reducible repeat' first
    | assumption | intro _ | apply Dev.accessWrite_keeps | apply Dev.calOp_keeps | apply onDev_kept | apply keeps_ite
    | apply keeps_ite_snd | apply keeps_each | apply keeps_foldl | apply keeps_each_snd | apply keeps_foldl_snd
    | apply keeps_id | refine keeps_of_eq (by assumption) ?_ | split | dsimp only

theorem execCalFull_keeps {m : Master} {v : Word} {s : State} : Kept s (execCalFull m v s) := by
  unfold execCalFull
  with_reducible repeat' first
    | assumption | intro _ | apply Dev.accessWrite_keeps | apply Dev.calOp_keeps | apply onDev_kept | apply keeps_ite
    | apply keeps_ite_snd | apply keeps_each | apply keeps_foldl | apply keeps_each_snd | apply keeps_foldl_snd
    | apply keeps_id | refine keeps_of_eq (by assumption) ?_ | split | dsimp only

theorem execCalCalc_keeps {m : Master} {v : Word} {s : State} : Kept s (execCalCalc m v s) := by
  unfold execCalCalc
  with_reducible repeat' first
    | assumption | intro _ | apply Dev.accessWrite_keeps | apply Dev.calOp_keeps | apply onDev_kept | apply keeps_ite
    | apply keeps_ite_snd | apply keeps_each | apply keeps_foldl | apply keeps_each_snd | apply keeps_foldl_snd
    | apply keeps_id | refine keeps_of_eq (by assumption) ?_ | split | dsimp only

theorem execCalAbort_keeps {m : Master} {v : Word} {s : State} : Kept s (execCalAbort m v s) := by
  unfold execCalAbort
  with_reducible repeat' first
    | assumption | intro _ | apply Dev.accessWrite_keeps | apply Dev.calOp_keeps | apply onDev_kept | apply keeps_ite
    | apply keeps_ite_snd | apply keeps_each | apply keeps_foldl | apply keeps_each_snd | apply keeps_foldl_snd
    | apply keeps_id | refine keeps_of_eq (by assumption) ?_ | split | dsimp only

theorem execCalStepDone_keeps {s : State} : Kept s (execCalStepDone s) := by
  unfold execCalStepDone
  with_reducible repeat' first
    | assumption | intro _ | apply Dev.setReg_keeps | apply Dev.calEnd_keeps | apply Dev.raise_keeps
    | apply Dev.setBit_keeps | apply Dev.setFld_keeps | apply onDev_kept | apply keeps_ite | apply keeps_ite_snd
    | apply keeps_each | apply keeps_foldl | apply keeps_each_snd | apply keeps_foldl_snd | apply keeps_id
    | refine keeps_of_eq (by assumption) ?_ | split | dsimp only

theorem Dev.modSd_keeps {dev0 : Dev} {c : Nat} {f : SdChannel → SdChannel} {d : Dev} (hk : Keeps dev0 d) : Keeps dev0 (Dev.modSd
    c f d) := by
  unfold Dev.modSd
  with_reducible repeat' first
    | assumption | intro _ | apply Dev.modAcq_keeps | apply keeps_ite | apply keeps_ite_snd | apply keeps_each
    | apply keeps_foldl | apply keeps_each_snd | apply keeps_foldl_snd | apply keeps_id
    | refine keeps_of_eq (by assumption) ?_ | split | dsimp only

theorem Dev.sdReload_keeps {dev0 : Dev} {g : Nat} {d : Dev} (hk : Keeps dev0 d) : Keeps dev0 (Dev.sdReload g d) := by
  unfold Dev.sdReload
  with_reducible repeat' first
    | assumption | intro _ | apply Dev.modSd_keeps | apply keeps_ite | apply keeps_ite_snd | apply keeps_each
    | apply keeps_foldl | apply keeps_each_snd | apply keeps_foldl_snd | apply keeps_id
    | refine keeps_of_eq (by assumption) ?_ | split | dsimp only

theorem Dev.sdDeliver_keeps {dev0 : Dev} {c : Nat} {x : Int} {d : Dev} (hk : Keeps dev0 d) : Keeps dev0 (Dev.sdDeliver c x d) :=
    by
  unfold Dev.sdDeliver
  with_reducible repeat' first
    | assumption | intro _ | apply Dev.when_keeps | apply Dev.calTake_keeps | apply Dev.enterAcc_keeps
    | apply Dev.enterMmx_keeps | apply keeps_ite | apply keeps_ite_snd | apply keeps_each | apply keeps_foldl
    | apply keeps_each_snd | apply keeps_foldl_snd | apply keeps_id | refine keeps_of_eq (by assumption) ?_ | split
    | dsimp only

theorem Dev.sdDecide_keeps {dev0 : Dev} {c : Nat} {d : Dev} (hk : Keeps dev0 d) : Keeps dev0 (Dev.sdDecide c d) := by
  unfold Dev.sdDecide
  with_reducible repeat' first
    | assumption | intro _ | apply Dev.setBit_keeps | apply Dev.trip_keeps | apply Dev.raise_keeps | apply keeps_ite
    | apply keeps_ite_snd | apply keeps_each | apply keeps_foldl | apply keeps_each_snd | apply keeps_foldl_snd
    | apply keeps_id | refine keeps_of_eq (by assumption) ?_ | split | dsimp only

theorem Dev.modFaultSet_keeps {dev0 : Dev} {c : Nat} {holds : Bool} {d : Dev} (hk : Keeps dev0 d) : Keeps dev0 (Dev.modFaultSet
    c holds d) := by
  unfold Dev.modFaultSet
  with_reducible repeat' first
    | assumption | intro _ | apply Dev.setBit_keeps | apply Dev.raise_keeps | apply Dev.enterAcc_keeps
    | apply Dev.enterMmx_keeps | apply Dev.sdDecide_keeps | apply keeps_ite | apply keeps_ite_snd | apply keeps_each
    | apply keeps_foldl | apply keeps_each_snd | apply keeps_foldl_snd | apply keeps_id
    | refine keeps_of_eq (by assumption) ?_ | split | dsimp only

theorem Dev.sdBit_keeps {dev0 : Dev} {c : Nat} {i : Nat} {b : Bool} {d : Dev} (hk : Keeps dev0 d) : Keeps dev0 (Dev.sdBit c i b
    d) := by
  unfold Dev.sdBit
  with_reducible repeat' first
    | assumption | intro _ | apply Dev.modFaultSet_keeps | apply Dev.modSd_keeps | apply Dev.when_keeps
    | apply Dev.sdDeliver_keeps | apply keeps_ite | apply keeps_ite_snd | apply keeps_each | apply keeps_foldl
    | apply keeps_each_snd | apply keeps_foldl_snd | apply keeps_id | refine keeps_of_eq (by assumption) ?_ | split
    | dsimp only

theorem Dev.sdBits_keeps {dev0 : Dev} {c i : Nat} {bs : List Bool} {d : Dev} (hk : Keeps dev0 d) :
    Keeps dev0 (Dev.sdBits c i bs d) := by
  induction bs generalizing i d with
  | nil => exact hk
  | cons b rest ih => exact ih (Dev.sdBit_keeps hk)

theorem Dev.sdTake_keeps {dev0 : Dev} {c : Nat} {bits : List Bool} {d : Dev} (hk : Keeps dev0 d) : Keeps dev0 (Dev.sdTake c bits
    d) := by
  unfold Dev.sdTake
  with_reducible repeat' first
    | assumption | intro _ | apply Dev.modSd_keeps | apply Dev.sdBits_keeps | apply keeps_ite | apply keeps_ite_snd
    | apply keeps_each | apply keeps_foldl | apply keeps_each_snd | apply keeps_foldl_snd | apply keeps_id
    | refine keeps_of_eq (by assumption) ?_ | split | dsimp only

theorem execSdOutput_keeps {c : Fin 24} {bits : List Bool} {s : State} : Kept s (execSdOutput c bits s) := by
  unfold execSdOutput
  with_reducible repeat' first
    | assumption | intro _ | apply Dev.sdTake_keeps | apply onDev_kept | apply keeps_ite | apply keeps_ite_snd
    | apply keeps_each | apply keeps_foldl | apply keeps_each_snd | apply keeps_foldl_snd | apply keeps_id
    | refine keeps_of_eq (by assumption) ?_ | split | dsimp only

theorem execSdFastFilterDecision_keeps {c : Fin 24} {bits : List Bool} {s : State} : Kept s (execSdFastFilterDecision c bits s)
    := by
  unfold execSdFastFilterDecision
  with_reducible repeat' first
    | assumption | intro _ | apply Dev.sdTake_keeps | apply onDev_kept | apply keeps_ite | apply keeps_ite_snd
    | apply keeps_each | apply keeps_foldl | apply keeps_each_snd | apply keeps_foldl_snd | apply keeps_id
    | refine keeps_of_eq (by assumption) ?_ | split | dsimp only

theorem execModFault_keeps {c : Fin 24} {bits : List Bool} {s : State} : Kept s (execModFault c bits s) := by
  unfold execModFault
  with_reducible repeat' first
    | assumption | intro _ | apply Dev.sdTake_keeps | apply onDev_kept | apply keeps_ite | apply keeps_ite_snd
    | apply keeps_each | apply keeps_foldl | apply keeps_each_snd | apply keeps_foldl_snd | apply keeps_id
    | refine keeps_of_eq (by assumption) ?_ | split | dsimp only

theorem Dev.sdConfigured_keeps {dev0 : Dev} {c : Nat} {d : Dev} (hk : Keeps dev0 d) : Keeps dev0 (Dev.sdConfigured c d) := by
  unfold Dev.sdConfigured
  with_reducible repeat' first
    | assumption | intro _ | apply Dev.modSd_keeps | apply Dev.modFaultSet_keeps | apply keeps_ite | apply keeps_ite_snd
    | apply keeps_each | apply keeps_foldl | apply keeps_each_snd | apply keeps_foldl_snd | apply keeps_id
    | refine keeps_of_eq (by assumption) ?_ | split | dsimp only

theorem Dev.sdckStart_keeps {dev0 : Dev} {k : Nat} {d : Dev} (hk : Keeps dev0 d) : Keeps dev0 (Dev.sdckStart k d) := by
  unfold Dev.sdckStart
  with_reducible repeat' first
    | assumption | intro _ | apply Dev.modAcq_keeps | apply keeps_ite | apply keeps_ite_snd | apply keeps_each
    | apply keeps_foldl | apply keeps_each_snd | apply keeps_foldl_snd | apply keeps_id
    | refine keeps_of_eq (by assumption) ?_ | split | dsimp only

end Sys2Proof.Machine
end

