-- ==== Sys2Proof/Laws/KeepsEngineCtl.lean ====
section
/-!
SUPPORT. What the operations of Machine/EngineCtl.lean keep: see Keeps.lean.
-/

namespace Sys2Proof.Machine

theorem Dev.setEstate_keeps {dev0 : Dev} {e : Nat} {v : Nat} {d : Dev} (hk : Keeps dev0 d) : Keeps dev0 (Dev.setEstate e v d) :=
    by
  unfold Dev.setEstate
  with_reducible repeat' first
    | assumption | intro _ | apply Dev.setFld_keeps | apply keeps_ite | apply keeps_ite_snd | apply keeps_each
    | apply keeps_foldl | apply keeps_each_snd | apply keeps_foldl_snd | apply keeps_id
    | refine keeps_of_eq (by assumption) ?_ | split | dsimp only

theorem Dev.dropEvents_keeps {dev0 : Dev} {e : Nat} {d : Dev} (hk : Keeps dev0 d) : Keeps dev0 (Dev.dropEvents e d) := by
  unfold Dev.dropEvents
  with_reducible repeat' first
    | assumption | intro _ | apply Dev.modEngine_keeps | apply keeps_ite | apply keeps_ite_snd | apply keeps_each
    | apply keeps_foldl | apply keeps_each_snd | apply keeps_foldl_snd | apply keeps_id
    | refine keeps_of_eq (by assumption) ?_ | split | dsimp only

theorem Dev.enterHalted_keeps {dev0 : Dev} {e : Nat} {d : Dev} (hk : Keeps dev0 d) : Keeps dev0 (Dev.enterHalted e d) := by
  unfold Dev.enterHalted
  with_reducible repeat' first
    | assumption | intro _ | apply Dev.swapIdle_keeps | apply Dev.dropEvents_keeps | apply Dev.setEstate_keeps
    | apply keeps_ite | apply keeps_ite_snd | apply keeps_each | apply keeps_foldl | apply keeps_each_snd
    | apply keeps_foldl_snd | apply keeps_id | refine keeps_of_eq (by assumption) ?_ | split | dsimp only

theorem Dev.enterInitSection_keeps {dev0 : Dev} {e : Nat} {d : Dev} (hk : Keeps dev0 d) : Keeps dev0 (Dev.enterInitSection e d)
    := by
  unfold Dev.enterInitSection
  with_reducible repeat' first
    | assumption | intro _ | apply Dev.setPc_keeps | apply Dev.setEstate_keeps | apply Dev.modEngine_keeps
    | apply Dev.dropEvents_keeps | apply keeps_ite | apply keeps_ite_snd | apply keeps_each | apply keeps_foldl
    | apply keeps_each_snd | apply keeps_foldl_snd | apply keeps_id | refine keeps_of_eq (by assumption) ?_ | split
    | dsimp only

theorem Dev.engineStart_keeps {dev0 : Dev} {e : Nat} {d : Dev} (hk : Keeps dev0 d) : Keeps dev0 (Dev.engineStart e d) := by
  unfold Dev.engineStart
  with_reducible repeat' first
    | assumption | intro _ | apply Dev.enterInitSection_keeps | apply Dev.raise_keeps | apply keeps_ite
    | apply keeps_ite_snd | apply keeps_each | apply keeps_foldl | apply keeps_each_snd | apply keeps_foldl_snd
    | apply keeps_id | refine keeps_of_eq (by assumption) ?_ | split | dsimp only

theorem Dev.engineStop_keeps {dev0 : Dev} {e : Nat} {d : Dev} (hk : Keeps dev0 d) : Keeps dev0 (Dev.engineStop e d) := by
  unfold Dev.engineStop
  with_reducible repeat' first
    | assumption | intro _ | apply Dev.raise_keeps | apply Dev.dropEvents_keeps | apply Dev.setEstate_keeps
    | apply Dev.enterHalted_keeps | apply keeps_ite | apply keeps_ite_snd | apply keeps_each | apply keeps_foldl
    | apply keeps_each_snd | apply keeps_foldl_snd | apply keeps_id | refine keeps_of_eq (by assumption) ?_ | split
    | dsimp only

theorem Dev.leCmdOp_keeps {dev0 : Dev} {e : Nat} {code : Nat} {d : Dev} (hk : Keeps dev0 d) : Keeps dev0 (Dev.leCmdOp e code d)
    := by
  unfold Dev.leCmdOp
  with_reducible repeat' first
    | assumption | intro _ | apply Dev.engineStart_keeps | apply Dev.engineStop_keeps | apply Dev.raise_keeps
    | apply keeps_ite | apply keeps_ite_snd | apply keeps_each | apply keeps_foldl | apply keeps_each_snd
    | apply keeps_foldl_snd | apply keeps_id | refine keeps_of_eq (by assumption) ?_ | split | dsimp only

theorem execEngineStart_keeps {m : Master} {e : Fin 12} {s : State} : Kept s (execEngineStart m e s) := by
  unfold execEngineStart
  with_reducible repeat' first
    | assumption | intro _ | apply Dev.accessWrite_keeps | apply Dev.engineStart_keeps | apply onDev_kept | apply keeps_ite
    | apply keeps_ite_snd | apply keeps_each | apply keeps_foldl | apply keeps_each_snd | apply keeps_foldl_snd
    | apply keeps_id | refine keeps_of_eq (by assumption) ?_ | split | dsimp only

theorem execEngineStop_keeps {m : Master} {e : Fin 12} {s : State} : Kept s (execEngineStop m e s) := by
  unfold execEngineStop
  with_reducible repeat' first
    | assumption | intro _ | apply Dev.accessWrite_keeps | apply Dev.engineStop_keeps | apply onDev_kept | apply keeps_ite
    | apply keeps_ite_snd | apply keeps_each | apply keeps_foldl | apply keeps_each_snd | apply keeps_foldl_snd
    | apply keeps_id | refine keeps_of_eq (by assumption) ?_ | split | dsimp only

theorem Dev.leEnOp_keeps {dev0 : Dev} {m : Master} {e : Nat} {v : Word} {d : Dev} (hk : Keeps dev0 d) : Keeps dev0 (Dev.leEnOp m
    e v d) := by
  unfold Dev.leEnOp
  with_reducible repeat' first
    | assumption | intro _ | apply Dev.setBit_keeps | apply Dev.discard_keeps | apply keeps_ite | apply keeps_ite_snd
    | apply keeps_each | apply keeps_foldl | apply keeps_each_snd | apply keeps_foldl_snd | apply keeps_id
    | refine keeps_of_eq (by assumption) ?_ | split | dsimp only

theorem Dev.leMbxPost_keeps {dev0 : Dev} {m : Master} {e : Nat} {v : Word} {d : Dev} (hk : Keeps dev0 d) : Keeps dev0
    (Dev.leMbxPost m e v d) := by
  unfold Dev.leMbxPost
  with_reducible repeat' first
    | assumption | intro _ | apply Dev.discard_keeps | apply Dev.modEngine_keeps | apply Dev.setBit_keeps | apply keeps_ite
    | apply keeps_ite_snd | apply keeps_each | apply keeps_foldl | apply keeps_each_snd | apply keeps_foldl_snd
    | apply keeps_id | refine keeps_of_eq (by assumption) ?_ | split | dsimp only

theorem execLeMbxPost_keeps {m : Master} {e : Fin 12} {v : Word} {s : State} : Kept s (execLeMbxPost m e v s) := by
  unfold execLeMbxPost
  with_reducible repeat' first
    | assumption | intro _ | apply Dev.accessWrite_keeps | apply Dev.leMbxPost_keeps | apply onDev_kept | apply keeps_ite
    | apply keeps_ite_snd | apply keeps_each | apply keeps_foldl | apply keeps_each_snd | apply keeps_foldl_snd
    | apply keeps_id | refine keeps_of_eq (by assumption) ?_ | split | dsimp only

theorem Dev.leMbxIn_keeps {dev0 : Dev} {m : Master} {e : Nat} {j : Nat} {v : Word} {d : Dev} (hk : Keeps dev0 d) : Keeps dev0
    (Dev.leMbxIn m e j v d) := by
  unfold Dev.leMbxIn
  with_reducible repeat' first
    | assumption | intro _ | apply Dev.discard_keeps | apply Dev.setReg_keeps | apply keeps_ite | apply keeps_ite_snd
    | apply keeps_each | apply keeps_foldl | apply keeps_each_snd | apply keeps_foldl_snd | apply keeps_id
    | refine keeps_of_eq (by assumption) ?_ | split | dsimp only

end Sys2Proof.Machine
end

