-- ==== Sys2Proof/Laws/KeepsSloe.lean ====
section
/-!
SUPPORT. What the operations of Machine/Sloe.lean keep: see Keeps.lean.
-/

namespace Sys2Proof.Machine

theorem Dev.fbCheck_keeps {dev0 : Dev} {d : Dev} (hk : Keeps dev0 d) : Keeps dev0 (Dev.fbCheck d) := by
  unfold Dev.fbCheck
  with_reducible repeat' first
    | assumption | intro _ | apply Dev.modSloe_keeps | apply keeps_ite | apply keeps_ite_snd | apply keeps_each
    | apply keeps_foldl | apply keeps_each_snd | apply keeps_foldl_snd | apply keeps_id
    | refine keeps_of_eq (by assumption) ?_ | split | dsimp only

theorem Dev.setSto_keeps {dev0 : Dev} {st : Nat} {hs : Bool} {ls : Bool} {d : Dev} (hk : Keeps dev0 d) : Keeps dev0 (Dev.setSto
    st hs ls d) := by
  unfold Dev.setSto
  with_reducible repeat' first
    | assumption | intro _ | apply Dev.setBit_keeps | apply Dev.setFld_keeps | apply Dev.fbCheck_keeps
    | apply Dev.modSloe_keeps | apply keeps_ite | apply keeps_ite_snd | apply keeps_each | apply keeps_foldl
    | apply keeps_each_snd | apply keeps_foldl_snd | apply keeps_id | refine keeps_of_eq (by assumption) ?_ | split
    | dsimp only

theorem Dev.stoSettle_keeps {dev0 : Dev} {d : Dev} (hk : Keeps dev0 d) : Keeps dev0 (Dev.stoSettle d) := by
  unfold Dev.stoSettle
  with_reducible repeat' first
    | assumption | intro _ | apply Dev.setSto_keeps | apply keeps_ite | apply keeps_ite_snd | apply keeps_each
    | apply keeps_foldl | apply keeps_each_snd | apply keeps_foldl_snd | apply keeps_id
    | refine keeps_of_eq (by assumption) ?_ | split | dsimp only

theorem Dev.applySto_keeps {dev0 : Dev} {d : Dev} (hk : Keeps dev0 d) : Keeps dev0 (Dev.applySto d) := by
  unfold Dev.applySto
  with_reducible repeat' first
    | assumption | intro _ | apply Dev.setBit_keeps | apply Dev.modSloe_keeps | apply Dev.holdPins_keeps
    | apply Dev.setSto_keeps | apply keeps_ite | apply keeps_ite_snd | apply keeps_each | apply keeps_foldl
    | apply keeps_each_snd | apply keeps_foldl_snd | apply keeps_id | refine keeps_of_eq (by assumption) ?_ | split
    | dsimp only

theorem Dev.evaluate_keeps {dev0 : Dev} {d : Dev} (hk : Keeps dev0 d) : Keeps dev0 (Dev.evaluate d) := by
  unfold Dev.evaluate
  with_reducible repeat' first
    | assumption | intro _ | apply Dev.modSloe_keeps | apply Dev.when_keeps | apply Dev.raise_keeps | apply Dev.setBit_keeps
    | apply Dev.applySto_keeps | apply Dev.trip_keeps | apply Dev.holdPins_keeps | apply Dev.enterSafe_keeps
    | apply Dev.setSto_keeps | apply Dev.stoSettle_keeps | apply Dev.permitUpdate_keeps | apply keeps_ite
    | apply keeps_ite_snd | apply keeps_each | apply keeps_foldl | apply keeps_each_snd | apply keeps_foldl_snd
    | apply keeps_id | refine keeps_of_eq (by assumption) ?_ | split | dsimp only

theorem Dev.demandSet_keeps {dev0 : Dev} {b : Nat} {d : Dev} (hk : Keeps dev0 d) : Keeps dev0 (Dev.demandSet b d) := by
  unfold Dev.demandSet
  with_reducible repeat' first
    | assumption | intro _ | apply Dev.modSloe_keeps | apply Dev.when_keeps | apply Dev.raise_keeps | apply Dev.setBit_keeps
    | apply keeps_ite | apply keeps_ite_snd | apply keeps_each | apply keeps_foldl | apply keeps_each_snd
    | apply keeps_foldl_snd | apply keeps_id | refine keeps_of_eq (by assumption) ?_ | split | dsimp only

theorem Dev.faultSet_keeps {dev0 : Dev} {b : Nat} {unit : Nat} {d : Dev} (hk : Keeps dev0 d) : Keeps dev0 (Dev.faultSet b unit
    d) := by
  unfold Dev.faultSet
  with_reducible repeat' first
    | assumption | intro _ | apply Dev.modSloe_keeps | apply Dev.when_keeps | apply Dev.raise_keeps | apply Dev.setBit_keeps
    | apply Dev.setReg_keeps | apply Dev.evaluate_keeps | apply keeps_ite | apply keeps_ite_snd | apply keeps_each
    | apply keeps_foldl | apply keeps_each_snd | apply keeps_foldl_snd | apply keeps_id
    | refine keeps_of_eq (by assumption) ?_ | split | dsimp only

theorem Dev.funcTimes_keeps {dev0 : Dev} {k : Nat} {d : Dev} (hk : Keeps dev0 d) : Keeps dev0 (Dev.funcTimes k d) := by
  unfold Dev.funcTimes
  with_reducible repeat' first
    | assumption | intro _ | apply Dev.modSloe_keeps | apply keeps_ite | apply keeps_ite_snd | apply keeps_each
    | apply keeps_foldl | apply keeps_each_snd | apply keeps_foldl_snd | apply keeps_id
    | refine keeps_of_eq (by assumption) ?_ | split | dsimp only

theorem Dev.funcClear_keeps {dev0 : Dev} {k : Nat} {d : Dev} (hk : Keeps dev0 d) : Keeps dev0 (Dev.funcClear k d) := by
  unfold Dev.funcClear
  with_reducible repeat' first
    | assumption | intro _ | apply Dev.modSloe_keeps | apply Dev.setBit_keeps | apply keeps_ite | apply keeps_ite_snd
    | apply keeps_each | apply keeps_foldl | apply keeps_each_snd | apply keeps_foldl_snd | apply keeps_id
    | refine keeps_of_eq (by assumption) ?_ | split | dsimp only

theorem Dev.funcUpdate_keeps {dev0 : Dev} {k : Nat} {d : Dev} (hk : Keeps dev0 d) : Keeps dev0 (Dev.funcUpdate k d) := by
  unfold Dev.funcUpdate
  with_reducible repeat' first
    | assumption | intro _ | apply Dev.funcTimes_keeps | apply Dev.when_keeps | apply Dev.modSloe_keeps
    | apply Dev.demandSet_keeps | apply Dev.funcClear_keeps | apply keeps_ite | apply keeps_ite_snd | apply keeps_each
    | apply keeps_foldl | apply keeps_each_snd | apply keeps_foldl_snd | apply keeps_id
    | refine keeps_of_eq (by assumption) ?_ | split | dsimp only

theorem Dev.inputsChanged_keeps {dev0 : Dev} {d : Dev} (hk : Keeps dev0 d) : Keeps dev0 (Dev.inputsChanged d) := by
  unfold Dev.inputsChanged
  with_reducible repeat' first
    | assumption | intro _ | apply Dev.evaluate_keeps | apply Dev.funcUpdate_keeps | apply keeps_ite | apply keeps_ite_snd
    | apply keeps_each | apply keeps_foldl | apply keeps_each_snd | apply keeps_foldl_snd | apply keeps_id
    | refine keeps_of_eq (by assumption) ?_ | split | dsimp only

theorem Dev.spdStart_keeps {dev0 : Dev} {d : Dev} (hk : Keeps dev0 d) : Keeps dev0 (Dev.spdStart d) := by
  unfold Dev.spdStart
  with_reducible repeat' first
    | assumption | intro _ | apply Dev.modSloe_keeps | apply keeps_ite | apply keeps_ite_snd | apply keeps_each
    | apply keeps_foldl | apply keeps_each_snd | apply keeps_foldl_snd | apply keeps_id
    | refine keeps_of_eq (by assumption) ?_ | split | dsimp only

theorem Dev.inputStart_keeps {dev0 : Dev} {i : Nat} {d : Dev} (hk : Keeps dev0 d) : Keeps dev0 (Dev.inputStart i d) := by
  unfold Dev.inputStart
  with_reducible repeat' first
    | assumption | intro _ | apply Dev.modSloe_keeps | apply Dev.setBit_keeps | apply keeps_ite | apply keeps_ite_snd
    | apply keeps_each | apply keeps_foldl | apply keeps_each_snd | apply keeps_foldl_snd | apply keeps_id
    | refine keeps_of_eq (by assumption) ?_ | split | dsimp only

theorem Dev.takeActive_keeps {dev0 : Dev} {d : Dev} (hk : Keeps dev0 d) : Keeps dev0 (Dev.takeActive d) := by
  unfold Dev.takeActive
  with_reducible repeat' first
    | assumption | intro _ | apply Dev.modSloe_keeps | apply Dev.inputStart_keeps | apply Dev.when_keeps
    | apply Dev.spdStart_keeps | apply keeps_ite | apply keeps_ite_snd | apply keeps_each | apply keeps_foldl
    | apply keeps_each_snd | apply keeps_foldl_snd | apply keeps_id | refine keeps_of_eq (by assumption) ?_ | split
    | dsimp only

theorem Dev.logShown_keeps {dev0 : Dev} {d : Dev} (hk : Keeps dev0 d) : Keeps dev0 (Dev.logShown d) := by
  unfold Dev.logShown
  with_reducible repeat' first
    | assumption | intro _ | apply Dev.setFld_keeps | apply Dev.setBit_keeps | apply keeps_ite | apply keeps_ite_snd
    | apply keeps_each | apply keeps_foldl | apply keeps_each_snd | apply keeps_foldl_snd | apply keeps_id
    | refine keeps_of_eq (by assumption) ?_ | split | dsimp only

theorem Dev.logEntry_keeps {dev0 : Dev} {origin : Nat} {kind : Nat} {item : Nat} {old : Word} {new : Word} {d : Dev} (hk : Keeps
    dev0 d) : Keeps dev0 (Dev.logEntry origin kind item old new d) := by
  unfold Dev.logEntry
  with_reducible repeat' first
    | assumption | intro _ | apply Dev.modSloe_keeps | apply Dev.raise_keeps | apply Dev.logShown_keeps | apply keeps_ite
    | apply keeps_ite_snd | apply keeps_each | apply keeps_foldl | apply keeps_each_snd | apply keeps_foldl_snd
    | apply keeps_id | refine keeps_of_eq (by assumption) ?_ | split | dsimp only

theorem Dev.safeResult_keeps {dev0 : Dev} {code : Nat} {err : Nat} {item : Nat} {d : Dev} (hk : Keeps dev0 d) : Keeps dev0
    (Dev.safeResult code err item d) := by
  unfold Dev.safeResult
  with_reducible repeat' first
    | assumption | intro _ | apply Dev.setReg_keeps | apply keeps_ite | apply keeps_ite_snd | apply keeps_each
    | apply keeps_foldl | apply keeps_each_snd | apply keeps_foldl_snd | apply keeps_id
    | refine keeps_of_eq (by assumption) ?_ | split | dsimp only

theorem Dev.safeErr_keeps {dev0 : Dev} {err : Nat} {d : Dev} (hk : Keeps dev0 d) : Keeps dev0 (Dev.safeErr err d) := by
  unfold Dev.safeErr
  with_reducible repeat' first
    | assumption | intro _ | apply Dev.setFld_keeps | apply keeps_ite | apply keeps_ite_snd | apply keeps_each
    | apply keeps_foldl | apply keeps_each_snd | apply keeps_foldl_snd | apply keeps_id
    | refine keeps_of_eq (by assumption) ?_ | split | dsimp only

theorem Dev.touchSession_keeps {dev0 : Dev} {d : Dev} (hk : Keeps dev0 d) : Keeps dev0 (Dev.touchSession d) := by
  unfold Dev.touchSession
  with_reducible repeat' first
    | assumption | intro _ | apply Dev.modSloe_keeps | apply keeps_ite | apply keeps_ite_snd | apply keeps_each
    | apply keeps_foldl | apply keeps_each_snd | apply keeps_foldl_snd | apply keeps_id
    | refine keeps_of_eq (by assumption) ?_ | split | dsimp only

theorem Dev.rwsApply_keeps {dev0 : Dev} {m : Master} {key : Nat} {v : Word} {d : Dev} (hk : Keeps dev0 d) : Keeps dev0
    (Dev.rwsApply m key v d) := by
  unfold Dev.rwsApply
  with_reducible repeat' first
    | assumption | intro _ | apply Dev.discard_keeps | apply Dev.safeErr_keeps | apply Dev.modSloe_keeps
    | apply Dev.setReg_keeps | apply Dev.logEntry_keeps | apply Dev.evaluate_keeps | apply Dev.touchSession_keeps
    | apply Dev.setBit_keeps | apply keeps_ite | apply keeps_ite_snd | apply keeps_each | apply keeps_foldl
    | apply keeps_each_snd | apply keeps_foldl_snd | apply keeps_id | refine keeps_of_eq (by assumption) ?_ | split
    | dsimp only

theorem Dev.scrcExpOp_keeps {dev0 : Dev} {m : Master} {v : Word} {d : Dev} (hk : Keeps dev0 d) : Keeps dev0 (Dev.scrcExpOp m v
    d) := by
  unfold Dev.scrcExpOp
  with_reducible repeat' first
    | assumption | intro _ | apply Dev.discard_keeps | apply Dev.safeErr_keeps | apply Dev.touchSession_keeps
    | apply Dev.setReg_keeps | apply keeps_ite | apply keeps_ite_snd | apply keeps_each | apply keeps_foldl
    | apply keeps_each_snd | apply keeps_foldl_snd | apply keeps_id | refine keeps_of_eq (by assumption) ?_ | split
    | dsimp only

theorem Dev.safetyCommit_keeps {dev0 : Dev} {expected old : Word} {origin kindOk kindFail code : Nat} {d : Dev}
    (hk : Keeps dev0 d) : Keeps dev0 (Dev.safetyCommit expected old origin kindOk kindFail code d).2 := by
  unfold Dev.safetyCommit
  extract_lets crc d1 d2
  split
  · exact keeps_pair (Dev.evaluate_keeps (Dev.raise_keeps (Dev.logEntry_keeps (Dev.safeResult_keeps (Dev.setBit_keeps hk)))))
  · split
    · refine keeps_pair (Dev.inputsChanged_keeps (Dev.raise_keeps (Dev.logEntry_keeps (Dev.safeResult_keeps ?_))))
      have h1 : Keeps dev0 d1 := Dev.takeActive_keeps (Dev.setReg_keeps (Dev.setBit_keeps hk))
      unfold d2
      split
      · exact Dev.setBit_keeps (Dev.modSloe_keeps h1)
      · exact h1
    · exact keeps_pair (Dev.evaluate_keeps (Dev.raise_keeps (Dev.logEntry_keeps (Dev.safeResult_keeps (Dev.setBit_keeps hk)))))

theorem Dev.safetySection_keeps {dev0 : Dev} {bs : List Byte} {d : Dev} (hk : Keeps dev0 d) : Keeps dev0 (Dev.safetySection bs
    d).2 := by
  unfold Dev.safetySection
  with_reducible repeat' first
    | assumption | intro _ | apply Dev.safeErr_keeps | apply Dev.logEntry_keeps | apply Dev.setFld_keeps
    | apply Dev.setReg_keeps | apply Dev.modSloe_keeps | apply Dev.safetyCommit_keeps | apply keeps_ite
    | apply keeps_ite_snd | apply keeps_each | apply keeps_foldl | apply keeps_each_snd | apply keeps_foldl_snd
    | apply keeps_id | refine keeps_of_eq (by assumption) ?_ | split | dsimp only

theorem Dev.inputSeen_keeps {dev0 : Dev} {i : Nat} {level : Bool} {ns : Nat} {d : Dev} (hk : Keeps dev0 d) : Keeps dev0
    (Dev.inputSeen i level ns d) := by
  unfold Dev.inputSeen
  with_reducible repeat' first
    | assumption | intro _ | apply Dev.modSloe_keeps | apply keeps_ite | apply keeps_ite_snd | apply keeps_each
    | apply keeps_foldl | apply keeps_each_snd | apply keeps_foldl_snd | apply keeps_id
    | refine keeps_of_eq (by assumption) ?_ | split | dsimp only

theorem Dev.runChange_keeps {dev0 : Dev} {i : Nat} {run : Bool} {d : Dev} (hk : Keeps dev0 d) : Keeps dev0 (Dev.runChange i run
    d) := by
  unfold Dev.runChange
  with_reducible repeat' first
    | assumption | intro _ | apply Dev.modSloe_keeps | apply Dev.setBit_keeps | apply Dev.inputsChanged_keeps
    | apply keeps_ite | apply keeps_ite_snd | apply keeps_each | apply keeps_foldl | apply keeps_each_snd
    | apply keeps_foldl_snd | apply keeps_id | refine keeps_of_eq (by assumption) ?_ | split | dsimp only

theorem execSafetyInputChange_keeps {i : Fin 16} {level : Bool} {ns : Nat} {s : State} : Kept s (execSafetyInputChange i level
    ns s) := by
  unfold execSafetyInputChange
  with_reducible repeat' first
    | assumption | intro _ | apply Dev.inputSeen_keeps | apply Dev.setBit_keeps | apply Dev.when_keeps
    | apply Dev.runChange_keeps | apply onDev_kept | apply keeps_ite | apply keeps_ite_snd | apply keeps_each
    | apply keeps_foldl | apply keeps_each_snd | apply keeps_foldl_snd | apply keeps_id
    | refine keeps_of_eq (by assumption) ?_ | split | dsimp only

theorem execOssdToleranceExpiry_keeps {i : Fin 16} {s : State} : Kept s (execOssdToleranceExpiry i s) := by
  unfold execOssdToleranceExpiry
  with_reducible repeat' first
    | assumption | intro _ | apply Dev.inputsChanged_keeps | apply Dev.modSloe_keeps | apply onDev_kept | apply keeps_ite
    | apply keeps_ite_snd | apply keeps_each | apply keeps_foldl | apply keeps_each_snd | apply keeps_foldl_snd
    | apply keeps_id | refine keeps_of_eq (by assumption) ?_ | split | dsimp only

theorem execTestPulse_keeps {x : Fin 4} {s : State} : Kept s (execTestPulse x s) := by
  unfold execTestPulse
  with_reducible repeat' first
    | assumption | intro _ | apply Dev.faultSet_keeps | apply onDev_kept | apply keeps_ite | apply keeps_ite_snd
    | apply keeps_each | apply keeps_foldl | apply keeps_each_snd | apply keeps_foldl_snd | apply keeps_id
    | refine keeps_of_eq (by assumption) ?_ | split | dsimp only

theorem execDiscrepancyTimeout_keeps {k : Fin 8} {s : State} : Kept s (execDiscrepancyTimeout k s) := by
  unfold execDiscrepancyTimeout
  with_reducible repeat' first
    | assumption | intro _ | apply Dev.when_keeps | apply Dev.faultSet_keeps | apply onDev_kept | apply keeps_ite
    | apply keeps_ite_snd | apply keeps_each | apply keeps_foldl | apply keeps_each_snd | apply keeps_foldl_snd
    | apply keeps_id | refine keeps_of_eq (by assumption) ?_ | split | dsimp only

theorem execLockPlausTimeout_keeps {k : Fin 8} {s : State} : Kept s (execLockPlausTimeout k s) := by
  unfold execLockPlausTimeout
  with_reducible repeat' first
    | assumption | intro _ | apply Dev.when_keeps | apply Dev.faultSet_keeps | apply onDev_kept | apply keeps_ite
    | apply keeps_ite_snd | apply keeps_each | apply keeps_foldl | apply keeps_each_snd | apply keeps_foldl_snd
    | apply keeps_id | refine keeps_of_eq (by assumption) ?_ | split | dsimp only

theorem execResetPulse_keeps {i : Fin 16} {s : State} : Kept s (execResetPulse i s) := by
  unfold execResetPulse
  with_reducible repeat' first
    | assumption | intro _ | apply Dev.evaluate_keeps | apply Dev.funcClear_keeps | apply onDev_kept | apply keeps_ite
    | apply keeps_ite_snd | apply keeps_each | apply keeps_foldl | apply keeps_each_snd | apply keeps_foldl_snd
    | apply keeps_id | refine keeps_of_eq (by assumption) ?_ | split | dsimp only

theorem execSs1TimerExpiry_keeps {s : State} : Kept s (execSs1TimerExpiry s) := by
  unfold execSs1TimerExpiry
  with_reducible repeat' first
    | assumption | intro _ | apply Dev.raise_keeps | apply Dev.setBit_keeps | apply Dev.evaluate_keeps
    | apply Dev.modSloe_keeps | apply onDev_kept | apply keeps_ite | apply keeps_ite_snd | apply keeps_each
    | apply keeps_foldl | apply keeps_each_snd | apply keeps_foldl_snd | apply keeps_id
    | refine keeps_of_eq (by assumption) ?_ | split | dsimp only

theorem execSpeedAWindowClose_keeps {s : State} : Kept s (execSpeedAWindowClose s) := by
  unfold execSpeedAWindowClose
  with_reducible repeat' first
    | assumption | intro _ | apply Dev.setReg_keeps | apply Dev.modSloe_keeps | apply Dev.when_keeps
    | apply Dev.demandSet_keeps | apply Dev.evaluate_keeps | apply Dev.faultSet_keeps | apply onDev_kept | apply keeps_ite
    | apply keeps_ite_snd | apply keeps_each | apply keeps_foldl | apply keeps_each_snd | apply keeps_foldl_snd
    | apply keeps_id | refine keeps_of_eq (by assumption) ?_ | split | dsimp only

theorem Dev.spdBOp_keeps {dev0 : Dev} {m : Master} {v : Word} {d : Dev} (hk : Keeps dev0 d) : Keeps dev0 (Dev.spdBOp m v d) :=
    by
  unfold Dev.spdBOp
  with_reducible repeat' first
    | assumption | intro _ | apply Dev.modSloe_keeps | apply Dev.setReg_keeps | apply Dev.discard_keeps | apply keeps_ite
    | apply keeps_ite_snd | apply keeps_each | apply keeps_foldl | apply keeps_each_snd | apply keeps_foldl_snd
    | apply keeps_id | refine keeps_of_eq (by assumption) ?_ | split | dsimp only

theorem execSpdBWrite_keeps {m : Master} {v : Word} {s : State} : Kept s (execSpdBWrite m v s) := by
  unfold execSpdBWrite
  with_reducible repeat' first
    | assumption | intro _ | apply Dev.accessWrite_keeps | apply Dev.spdBOp_keeps | apply onDev_kept | apply keeps_ite
    | apply keeps_ite_snd | apply keeps_each | apply keeps_foldl | apply keeps_each_snd | apply keeps_foldl_snd
    | apply keeps_id | refine keeps_of_eq (by assumption) ?_ | split | dsimp only

theorem execStoCloseStart_keeps {s : State} : Kept s (execStoCloseStart s) := by
  unfold execStoCloseStart
  with_reducible repeat' first
    | assumption | intro _ | apply Dev.modSloe_keeps | apply Dev.setSto_keeps | apply Dev.evaluate_keeps | apply onDev_kept
    | apply keeps_ite | apply keeps_ite_snd | apply keeps_each | apply keeps_foldl | apply keeps_each_snd
    | apply keeps_foldl_snd | apply keeps_id | refine keeps_of_eq (by assumption) ?_ | split | dsimp only

theorem execStoTestPhaseEnd_keeps {s : State} : Kept s (execStoTestPhaseEnd s) := by
  unfold execStoTestPhaseEnd
  with_reducible repeat' first
    | assumption | intro _ | apply Dev.faultSet_keeps | apply Dev.modSloe_keeps | apply Dev.setSto_keeps
    | apply Dev.evaluate_keeps | apply Dev.setReg_keeps | apply onDev_kept | apply keeps_ite | apply keeps_ite_snd
    | apply keeps_each | apply keeps_foldl | apply keeps_each_snd | apply keeps_foldl_snd | apply keeps_id
    | refine keeps_of_eq (by assumption) ?_ | split | dsimp only

theorem execStoFeedbackChange_keeps {fb0 : Bool} {fb1 : Bool} {s : State} : Kept s (execStoFeedbackChange fb0 fb1 s) := by
  unfold execStoFeedbackChange
  with_reducible repeat' first
    | assumption | intro _ | apply Dev.modSloe_keeps | apply Dev.setBit_keeps | apply Dev.evaluate_keeps
    | apply Dev.stoSettle_keeps | apply Dev.fbCheck_keeps | apply onDev_kept | apply keeps_ite | apply keeps_ite_snd
    | apply keeps_each | apply keeps_foldl | apply keeps_each_snd | apply keeps_foldl_snd | apply keeps_id
    | refine keeps_of_eq (by assumption) ?_ | split | dsimp only

theorem execStoFeedbackTimeout_keeps {s : State} : Kept s (execStoFeedbackTimeout s) := by
  unfold execStoFeedbackTimeout
  with_reducible repeat' first
    | assumption | intro _ | apply Dev.when_keeps | apply Dev.faultSet_keeps | apply onDev_kept | apply keeps_ite
    | apply keeps_ite_snd | apply keeps_each | apply keeps_foldl | apply keeps_each_snd | apply keeps_foldl_snd
    | apply keeps_id | refine keeps_of_eq (by assumption) ?_ | split | dsimp only

theorem execStoAgeHour_keeps {s : State} : Kept s (execStoAgeHour s) := by
  unfold execStoAgeHour
  with_reducible repeat' first
    | assumption | intro _ | apply Dev.bumpSat_keeps | apply Dev.when_keeps | apply Dev.raise_keeps | apply onDev_kept
    | apply keeps_ite | apply keeps_ite_snd | apply keeps_each | apply keeps_foldl | apply keeps_each_snd
    | apply keeps_foldl_snd | apply keeps_id | refine keeps_of_eq (by assumption) ?_ | split | dsimp only

theorem Dev.permitExpire_keeps {dev0 : Dev} {d : Dev} (hk : Keeps dev0 d) : Keeps dev0 (Dev.permitExpire d) := by
  unfold Dev.permitExpire
  with_reducible repeat' first
    | assumption | intro _ | apply Dev.faultSet_keeps | apply Dev.modSloe_keeps | apply keeps_ite | apply keeps_ite_snd
    | apply keeps_each | apply keeps_foldl | apply keeps_each_snd | apply keeps_foldl_snd | apply keeps_id
    | refine keeps_of_eq (by assumption) ?_ | split | dsimp only

theorem Dev.trespOp_keeps {dev0 : Dev} {m : Master} {v : Word} {d : Dev} (hk : Keeps dev0 d) : Keeps dev0 (Dev.trespOp m v d) :=
    by
  unfold Dev.trespOp
  with_reducible repeat' first
    | assumption | intro _ | apply Dev.discard_keeps | apply Dev.when_keeps | apply Dev.permitExpire_keeps
    | apply Dev.setFld_keeps | apply Dev.setBit_keeps | apply Dev.evaluate_keeps | apply Dev.modSloe_keeps
    | apply Dev.faultSet_keeps | apply keeps_ite | apply keeps_ite_snd | apply keeps_each | apply keeps_foldl
    | apply keeps_each_snd | apply keeps_foldl_snd | apply keeps_id | refine keeps_of_eq (by assumption) ?_ | split
    | dsimp only

theorem execTrespWrite_keeps {m : Master} {v : Word} {s : State} : Kept s (execTrespWrite m v s) := by
  unfold execTrespWrite
  with_reducible repeat' first
    | assumption | intro _ | apply Dev.accessWrite_keeps | apply Dev.trespOp_keeps | apply onDev_kept | apply keeps_ite
    | apply keeps_ite_snd | apply keeps_each | apply keeps_foldl | apply keeps_each_snd | apply keeps_foldl_snd
    | apply keeps_id | refine keeps_of_eq (by assumption) ?_ | split | dsimp only

theorem execTpermitWindowExpiry_keeps {s : State} : Kept s (execTpermitWindowExpiry s) := by
  unfold execTpermitWindowExpiry
  with_reducible repeat' first
    | assumption | intro _ | apply Dev.when_keeps | apply Dev.permitExpire_keeps | apply onDev_kept | apply keeps_ite
    | apply keeps_ite_snd | apply keeps_each | apply keeps_foldl | apply keeps_each_snd | apply keeps_foldl_snd
    | apply keeps_id | refine keeps_of_eq (by assumption) ?_ | split | dsimp only

theorem Dev.treqOp_keeps {dev0 : Dev} {m : Master} {v : Word} {d : Dev} (hk : Keeps dev0 d) : Keeps dev0 (Dev.treqOp m v d) :=
    by
  unfold Dev.treqOp
  with_reducible repeat' first
    | assumption | intro _ | apply Dev.discard_keeps | apply Dev.setReg_keeps | apply Dev.evaluate_keeps
    | apply Dev.when_keeps | apply Dev.setBit_keeps | apply Dev.demandSet_keeps | apply keeps_ite | apply keeps_ite_snd
    | apply keeps_each | apply keeps_foldl | apply keeps_each_snd | apply keeps_foldl_snd | apply keeps_id
    | refine keeps_of_eq (by assumption) ?_ | split | dsimp only

theorem execTreqWrite_keeps {m : Master} {v : Word} {s : State} : Kept s (execTreqWrite m v s) := by
  unfold execTreqWrite
  with_reducible repeat' first
    | assumption | intro _ | apply Dev.accessWrite_keeps | apply Dev.treqOp_keeps | apply onDev_kept | apply keeps_ite
    | apply keeps_ite_snd | apply keeps_each | apply keeps_foldl | apply keeps_each_snd | apply keeps_foldl_snd
    | apply keeps_id | refine keeps_of_eq (by assumption) ?_ | split | dsimp only

theorem Dev.faultClearOp_keeps {dev0 : Dev} {m : Master} {v : Word} {d : Dev} (hk : Keeps dev0 d) : Keeps dev0 (Dev.faultClearOp
    m v d) := by
  unfold Dev.faultClearOp
  with_reducible repeat' first
    | assumption | intro _ | apply Dev.discard_keeps | apply Dev.safeErr_keeps | apply Dev.setBit_keeps
    | apply Dev.when_keeps | apply Dev.setFld_keeps | apply Dev.logEntry_keeps | apply Dev.evaluate_keeps
    | apply Dev.touchSession_keeps | apply keeps_ite | apply keeps_ite_snd | apply keeps_each | apply keeps_foldl
    | apply keeps_each_snd | apply keeps_foldl_snd | apply keeps_id | refine keeps_of_eq (by assumption) ?_ | split
    | dsimp only

theorem execFaultClear_keeps {m : Master} {v : Word} {s : State} : Kept s (execFaultClear m v s) := by
  unfold execFaultClear
  with_reducible repeat' first
    | assumption | intro _ | apply Dev.accessWrite_keeps | apply Dev.faultClearOp_keeps | apply onDev_kept | apply keeps_ite
    | apply keeps_ite_snd | apply keeps_each | apply keeps_foldl | apply keeps_each_snd | apply keeps_foldl_snd
    | apply keeps_id | refine keeps_of_eq (by assumption) ?_ | split | dsimp only

theorem Dev.passwordWrong_keeps {dev0 : Dev} {m : Master} {d : Dev} (hk : Keeps dev0 d) : Keeps dev0 (Dev.passwordWrong m d) :=
    by
  unfold Dev.passwordWrong
  with_reducible repeat' first
    | assumption | intro _ | apply Dev.bumpSat_keeps | apply Dev.logEntry_keeps | apply Dev.raise_keeps
    | apply Dev.when_keeps | apply Dev.modSloe_keeps | apply Dev.setBit_keeps | apply keeps_ite | apply keeps_ite_snd
    | apply keeps_each | apply keeps_foldl | apply keeps_each_snd | apply keeps_foldl_snd | apply keeps_id
    | refine keeps_of_eq (by assumption) ?_ | split | dsimp only

theorem Dev.openOp_keeps {dev0 : Dev} {m : Master} {d : Dev} (hk : Keeps dev0 d) : Keeps dev0 (Dev.openOp m d) := by
  unfold Dev.openOp
  with_reducible repeat' first
    | assumption | intro _ | apply Dev.modSloe_keeps | apply Dev.safeResult_keeps | apply Dev.discard_keeps
    | apply Dev.passwordWrong_keeps | apply Dev.setFld_keeps | apply Dev.setBit_keeps | apply Dev.logEntry_keeps
    | apply Dev.raise_keeps | apply Dev.evaluate_keeps | apply Dev.touchSession_keeps | apply keeps_ite
    | apply keeps_ite_snd | apply keeps_each | apply keeps_foldl | apply keeps_each_snd | apply keeps_foldl_snd
    | apply keeps_id | refine keeps_of_eq (by assumption) ?_ | split | dsimp only

theorem execOpen_keeps {m : Master} {s : State} : Kept s (execOpen m s) := by
  unfold execOpen
  with_reducible repeat' first
    | assumption | intro _ | apply Dev.accessWrite_keeps | apply Dev.openOp_keeps | apply onDev_kept | apply keeps_ite
    | apply keeps_ite_snd | apply keeps_each | apply keeps_foldl | apply keeps_each_snd | apply keeps_foldl_snd
    | apply keeps_id | refine keeps_of_eq (by assumption) ?_ | split | dsimp only

theorem Dev.sessionCommand_keeps {dev0 : Dev} {m : Master} {code : Nat} {op : Dev → Dev} {d : Dev} (hop : ∀ d, Keeps dev0 d →
    Keeps dev0 (op d)) (hk : Keeps dev0 d) : Keeps dev0 (Dev.sessionCommand m code op d) := by
  unfold Dev.sessionCommand
  with_reducible repeat' first
    | assumption | intro _ | apply hop | apply Dev.safeResult_keeps | apply Dev.discard_keeps | apply keeps_ite
    | apply keeps_ite_snd | apply keeps_each | apply keeps_foldl | apply keeps_each_snd | apply keeps_foldl_snd
    | apply keeps_id | refine keeps_of_eq (by assumption) ?_ | split | dsimp only

theorem Dev.closeOp_keeps {dev0 : Dev} {m : Master} {d : Dev} (hk : Keeps dev0 d) : Keeps dev0 (Dev.closeOp m d) := by
  unfold Dev.closeOp
  with_reducible repeat' first
    | assumption | intro _ | apply Dev.sessionCommand_keeps | apply Dev.evaluate_keeps | apply Dev.safeResult_keeps
    | apply Dev.closeSession_keeps | apply keeps_ite | apply keeps_ite_snd | apply keeps_each | apply keeps_foldl
    | apply keeps_each_snd | apply keeps_foldl_snd | apply keeps_id | refine keeps_of_eq (by assumption) ?_ | split
    | dsimp only

theorem execClose_keeps {m : Master} {s : State} : Kept s (execClose m s) := by
  unfold execClose
  with_reducible repeat' first
    | assumption | intro _ | apply Dev.accessWrite_keeps | apply Dev.closeOp_keeps | apply onDev_kept | apply keeps_ite
    | apply keeps_ite_snd | apply keeps_each | apply keeps_foldl | apply keeps_each_snd | apply keeps_foldl_snd
    | apply keeps_id | refine keeps_of_eq (by assumption) ?_ | split | dsimp only

theorem Dev.scommitOp_keeps {dev0 : Dev} {m : Master} {d : Dev} (hk : Keeps dev0 d) : Keeps dev0 (Dev.scommitOp m d) := by
  unfold Dev.scommitOp
  with_reducible repeat' first
    | assumption | intro _ | apply Dev.sessionCommand_keeps | apply Dev.safeResult_keeps | apply Dev.touchSession_keeps
    | apply Dev.modSloe_keeps | apply keeps_ite | apply keeps_ite_snd | apply keeps_each | apply keeps_foldl
    | apply keeps_each_snd | apply keeps_foldl_snd | apply keeps_id | refine keeps_of_eq (by assumption) ?_ | split
    | dsimp only

theorem execScommit_keeps {m : Master} {s : State} : Kept s (execScommit m s) := by
  unfold execScommit
  with_reducible repeat' first
    | assumption | intro _ | apply Dev.accessWrite_keeps | apply Dev.scommitOp_keeps | apply onDev_kept | apply keeps_ite
    | apply keeps_ite_snd | apply keeps_each | apply keeps_foldl | apply keeps_each_snd | apply keeps_foldl_snd
    | apply keeps_id | refine keeps_of_eq (by assumption) ?_ | split | dsimp only

theorem execSafetyCrcDone_keeps {s : State} : Kept s (execSafetyCrcDone s) := by
  unfold execSafetyCrcDone
  with_reducible repeat' first
    | assumption | intro _ | apply Dev.modSloe_keeps | apply Dev.safetyCommit_keeps | apply Dev.evaluate_keeps
    | apply Dev.closeSession_keeps | apply onDev_kept | apply keeps_ite | apply keeps_ite_snd | apply keeps_each
    | apply keeps_foldl | apply keeps_each_snd | apply keeps_foldl_snd | apply keeps_id
    | refine keeps_of_eq (by assumption) ?_ | split | dsimp only

theorem Dev.safeResetOp_keeps {dev0 : Dev} {d : Dev} (hk : Keeps dev0 d) : Keeps dev0 (Dev.safeResetOp d) := by
  unfold Dev.safeResetOp
  with_reducible repeat' first
    | assumption | intro _ | apply Dev.safeResult_keeps | apply Dev.funcClear_keeps | apply Dev.when_keeps
    | apply Dev.setBit_keeps | apply Dev.evaluate_keeps | apply keeps_ite | apply keeps_ite_snd | apply keeps_each
    | apply keeps_foldl | apply keeps_each_snd | apply keeps_foldl_snd | apply keeps_id
    | refine keeps_of_eq (by assumption) ?_ | split | dsimp only

theorem execSafeReset_keeps {m : Master} {s : State} : Kept s (execSafeReset m s) := by
  unfold execSafeReset
  with_reducible repeat' first
    | assumption | intro _ | apply Dev.accessWrite_keeps | apply Dev.safeResetOp_keeps | apply onDev_kept | apply keeps_ite
    | apply keeps_ite_snd | apply keeps_each | apply keeps_foldl | apply keeps_each_snd | apply keeps_foldl_snd
    | apply keeps_id | refine keeps_of_eq (by assumption) ?_ | split | dsimp only

theorem execSessionTimeout_keeps {s : State} : Kept s (execSessionTimeout s) := by
  unfold execSessionTimeout
  with_reducible repeat' first
    | assumption | intro _ | apply Dev.when_keeps | apply Dev.evaluate_keeps | apply Dev.closeSession_keeps
    | apply onDev_kept | apply keeps_ite | apply keeps_ite_snd | apply keeps_each | apply keeps_foldl | apply keeps_each_snd
    | apply keeps_foldl_snd | apply keeps_id | refine keeps_of_eq (by assumption) ?_ | split | dsimp only

theorem execPwLockExpiry_keeps {s : State} : Kept s (execPwLockExpiry s) := by
  unfold execPwLockExpiry
  with_reducible repeat' first
    | assumption | intro _ | apply Dev.when_keeps | apply Dev.setBit_keeps | apply onDev_kept | apply keeps_ite
    | apply keeps_ite_snd | apply keeps_each | apply keeps_foldl | apply keeps_each_snd | apply keeps_foldl_snd
    | apply keeps_id | refine keeps_of_eq (by assumption) ?_ | split | dsimp only

theorem Dev.logAckOp_keeps {dev0 : Dev} {m : Master} {v : Word} {d : Dev} (hk : Keeps dev0 d) : Keeps dev0 (Dev.logAckOp m v d)
    := by
  unfold Dev.logAckOp
  with_reducible repeat' first
    | assumption | intro _ | apply Dev.logShown_keeps | apply Dev.modSloe_keeps | apply Dev.discard_keeps | apply keeps_ite
    | apply keeps_ite_snd | apply keeps_each | apply keeps_foldl | apply keeps_each_snd | apply keeps_foldl_snd
    | apply keeps_id | refine keeps_of_eq (by assumption) ?_ | split | dsimp only

theorem execLogAck_keeps {m : Master} {v : Word} {s : State} : Kept s (execLogAck m v s) := by
  unfold execLogAck
  with_reducible repeat' first
    | assumption | intro _ | apply Dev.accessWrite_keeps | apply Dev.logAckOp_keeps | apply onDev_kept | apply keeps_ite
    | apply keeps_ite_snd | apply keeps_each | apply keeps_foldl | apply keeps_each_snd | apply keeps_foldl_snd
    | apply keeps_id | refine keeps_of_eq (by assumption) ?_ | split | dsimp only

theorem Dev.triadFatalLatch_keeps {dev0 : Dev} {cause : Nat} {d : Dev} (hk : Keeps dev0 d) : Keeps dev0 (Dev.triadFatalLatch
    cause d) := by
  unfold Dev.triadFatalLatch
  with_reducible repeat' first
    | assumption | intro _ | apply Dev.faultSet_keeps | apply Dev.setFld_keeps | apply keeps_ite | apply keeps_ite_snd
    | apply keeps_each | apply keeps_foldl | apply keeps_each_snd | apply keeps_foldl_snd | apply keeps_id
    | refine keeps_of_eq (by assumption) ?_ | split | dsimp only

end Sys2Proof.Machine
end

