-- ==== Sys2Proof/Laws/KeepsPins.lean ====
section
/-!
SUPPORT. What the operations of Machine/Pins.lean keep: see Keeps.lean.
-/

namespace Sys2Proof.Machine

theorem Dev.padCtrlOp_keeps {dev0 : Dev} {v : Word} {d : Dev} (hk : Keeps dev0 d) : Keeps dev0 (Dev.padCtrlOp v d) := by
  unfold Dev.padCtrlOp
  with_reducible repeat' first
    | assumption | intro _ | apply Dev.putPadHeld_keeps | apply Dev.setBit_keeps | apply keeps_ite | apply keeps_ite_snd
    | apply keeps_each | apply keeps_foldl | apply keeps_each_snd | apply keeps_foldl_snd | apply keeps_id
    | refine keeps_of_eq (by assumption) ?_ | split | dsimp only

theorem execPadEnable_keeps {m : Master} {s : State} : Kept s (execPadEnable m s) := by
  unfold execPadEnable
  with_reducible repeat' first
    | assumption | intro _ | apply Dev.accessWrite_keeps | apply Dev.padCtrlOp_keeps | apply onDev_kept | apply keeps_ite
    | apply keeps_ite_snd | apply keeps_each | apply keeps_foldl | apply keeps_each_snd | apply keeps_foldl_snd
    | apply keeps_id | refine keeps_of_eq (by assumption) ?_ | split | dsimp only

theorem Dev.outSetOp_keeps {dev0 : Dev} {v : Word} {d : Dev} (hk : Keeps dev0 d) : Keeps dev0 (Dev.outSetOp v d) := by
  unfold Dev.outSetOp
  with_reducible repeat' first
    | assumption | intro _ | apply Dev.setReg_keeps | apply keeps_ite | apply keeps_ite_snd | apply keeps_each
    | apply keeps_foldl | apply keeps_each_snd | apply keeps_foldl_snd | apply keeps_id
    | refine keeps_of_eq (by assumption) ?_ | split | dsimp only

theorem Dev.outClrOp_keeps {dev0 : Dev} {v : Word} {d : Dev} (hk : Keeps dev0 d) : Keeps dev0 (Dev.outClrOp v d) := by
  unfold Dev.outClrOp
  with_reducible repeat' first
    | assumption | intro _ | apply Dev.setReg_keeps | apply keeps_ite | apply keeps_ite_snd | apply keeps_each
    | apply keeps_foldl | apply keeps_each_snd | apply keeps_foldl_snd | apply keeps_id
    | refine keeps_of_eq (by assumption) ?_ | split | dsimp only

theorem execOutSet_keeps {m : Master} {v : Word} {same : Bool} {s : State} : Kept s (execOutSet m v same s) := by
  unfold execOutSet
  with_reducible repeat' first
    | assumption | intro _ | apply Dev.accessWrite_keeps | apply Dev.outSetOp_keeps | apply Dev.enterCycle_keeps
    | apply onDev_kept | apply keeps_ite | apply keeps_ite_snd | apply keeps_each | apply keeps_foldl | apply keeps_each_snd
    | apply keeps_foldl_snd | apply keeps_id | refine keeps_of_eq (by assumption) ?_ | split | dsimp only

theorem execOutClr_keeps {m : Master} {v : Word} {same : Bool} {s : State} : Kept s (execOutClr m v same s) := by
  unfold execOutClr
  with_reducible repeat' first
    | assumption | intro _ | apply Dev.accessWrite_keeps | apply Dev.outClrOp_keeps | apply Dev.enterCycle_keeps
    | apply onDev_kept | apply keeps_ite | apply keeps_ite_snd | apply keeps_each | apply keeps_foldl | apply keeps_each_snd
    | apply keeps_foldl_snd | apply keeps_id | refine keeps_of_eq (by assumption) ?_ | split | dsimp only

theorem execGpioEdge_keeps {i : Fin 32} {level : Bool} {ns : Nat} {s : State} : Kept s (execGpioEdge i level ns s) := by
  unfold execGpioEdge
  with_reducible repeat' first
    | assumption | intro _ | apply Dev.putGpioIn_keeps | apply Dev.raise_keeps | apply Dev.noteSet_keeps
    | apply Dev.setBit_keeps | apply onDev_kept | apply keeps_ite | apply keeps_ite_snd | apply keeps_each
    | apply keeps_foldl | apply keeps_each_snd | apply keeps_foldl_snd | apply keeps_id
    | refine keeps_of_eq (by assumption) ?_ | split | dsimp only

end Sys2Proof.Machine
end

