-- ==== Sys2Proof/Laws/KeepsTrip.lean ====
section
/-!
SUPPORT. What the operations of Machine/Trip.lean keep: see Keeps.lean.
-/

namespace Sys2Proof.Machine

theorem Dev.clearGroup_keeps {dev0 : Dev} {except : Nat} {g : Nat} {d : Dev} (hk : Keeps dev0 d) : Keeps dev0 (Dev.clearGroup
    except g d) := by
  unfold Dev.clearGroup
  with_reducible repeat' first
    | assumption | exact fun _ h => h | intro _ | apply Dev.raise_keeps | apply Dev.setReg_keeps | apply Dev.setBit_keeps
    | apply Dev.modGroup_keeps | apply Dev.settle_keeps | apply Dev.setFld_keeps | apply keeps_ite | apply keeps_ite_snd
    | apply keeps_each | apply keeps_foldl | apply keeps_each_snd | apply keeps_foldl_snd | apply keeps_id
    | exact ‹Group.NoShoot _› _ | refine keeps_of_eq (by assumption) ?_ | split | dsimp only

theorem execTripNow_keeps {m : Master} {g : Fin 12} {s : State} : Kept s (execTripNow m g s) := by
  unfold execTripNow
  with_reducible repeat' first
    | assumption | intro _ | apply Dev.accessWrite_keeps | apply Dev.trip_keeps | apply onDev_kept | apply keeps_ite
    | apply keeps_ite_snd | apply keeps_each | apply keeps_foldl | apply keeps_each_snd | apply keeps_foldl_snd
    | apply keeps_id | refine keeps_of_eq (by assumption) ?_ | split | dsimp only

theorem execTripClr_keeps {m : Master} {g : Fin 12} {s : State} : Kept s (execTripClr m g s) := by
  unfold execTripClr
  with_reducible repeat' first
    | assumption | intro _ | apply Dev.accessWrite_keeps | apply Dev.clearGroup_keeps | apply onDev_kept | apply keeps_ite
    | apply keeps_ite_snd | apply keeps_each | apply keeps_foldl | apply keeps_each_snd | apply keeps_foldl_snd
    | apply keeps_id | refine keeps_of_eq (by assumption) ?_ | split | dsimp only

theorem Dev.gclrOp_keeps {dev0 : Dev} {v : Word} {d : Dev} (hk : Keeps dev0 d) : Keeps dev0 (Dev.gclrOp v d) := by
  unfold Dev.gclrOp
  with_reducible repeat' first
    | assumption | intro _ | apply Dev.clearGroup_keeps | apply keeps_ite | apply keeps_ite_snd | apply keeps_each
    | apply keeps_foldl | apply keeps_each_snd | apply keeps_foldl_snd | apply keeps_id
    | refine keeps_of_eq (by assumption) ?_ | split | dsimp only

theorem execGclr_keeps {m : Master} {v : Word} {s : State} : Kept s (execGclr m v s) := by
  unfold execGclr
  with_reducible repeat' first
    | assumption | intro _ | apply Dev.accessWrite_keeps | apply Dev.gclrOp_keeps | apply onDev_kept | apply keeps_ite
    | apply keeps_ite_snd | apply keeps_each | apply keeps_foldl | apply keeps_each_snd | apply keeps_foldl_snd
    | apply keeps_id | refine keeps_of_eq (by assumption) ?_ | split | dsimp only

theorem Dev.pgCmdOp_keeps {dev0 : Dev} {g : Nat} {code : Nat} {d : Dev} (hk : Keeps dev0 d) : Keeps dev0 (Dev.pgCmdOp g code d)
    := by
  unfold Dev.pgCmdOp
  with_reducible repeat' first
    | assumption | intro _ | apply Dev.startGroup_keeps | apply Dev.stopGroup_keeps | apply Dev.trip_keeps
    | apply Dev.clearGroup_keeps | apply Dev.raise_keeps | apply keeps_ite | apply keeps_ite_snd | apply keeps_each
    | apply keeps_foldl | apply keeps_each_snd | apply keeps_foldl_snd | apply keeps_id
    | refine keeps_of_eq (by assumption) ?_ | split | dsimp only

theorem Dev.tripFromInput_keeps {dev0 : Dev} {i : Nat} {d : Dev} (hk : Keeps dev0 d) : Keeps dev0 (Dev.tripFromInput i d) := by
  unfold Dev.tripFromInput
  with_reducible repeat' first
    | assumption | intro _ | apply Dev.trip_keeps | apply keeps_ite | apply keeps_ite_snd | apply keeps_each
    | apply keeps_foldl | apply keeps_each_snd | apply keeps_foldl_snd | apply keeps_id
    | refine keeps_of_eq (by assumption) ?_ | split | dsimp only

theorem Dev.tripInputSet_keeps {dev0 : Dev} {i : Nat} {active : Bool} {d : Dev} (hk : Keeps dev0 d) : Keeps dev0
    (Dev.tripInputSet i active d) := by
  unfold Dev.tripInputSet
  with_reducible repeat' first
    | assumption | intro _ | apply Dev.putTripIn_keeps | apply Dev.tripFromInput_keeps | apply Dev.raise_keeps
    | apply keeps_ite | apply keeps_ite_snd | apply keeps_each | apply keeps_foldl | apply keeps_each_snd
    | apply keeps_foldl_snd | apply keeps_id | refine keeps_of_eq (by assumption) ?_ | split | dsimp only

theorem execTripInput_keeps {i : Fin 13} {level : Bool} {clocks : Nat} {s : State} : Kept s (execTripInput i level clocks s) :=
    by
  unfold execTripInput
  with_reducible repeat' first
    | assumption | intro _ | apply Dev.tripInputSet_keeps | apply onDev_kept | apply keeps_ite | apply keeps_ite_snd
    | apply keeps_each | apply keeps_foldl | apply keeps_each_snd | apply keeps_foldl_snd | apply keeps_id
    | refine keeps_of_eq (by assumption) ?_ | split | dsimp only

theorem execAscLowSideOn_keeps {g : Fin 12} {s : State} : Kept s (execAscLowSideOn g s) := by
  unfold execAscLowSideOn
  with_reducible repeat' first
    | assumption | intro _ | apply Dev.when_keeps | apply Dev.ascOn_keeps | apply onDev_kept | apply keeps_ite
    | apply keeps_ite_snd | apply keeps_each | apply keeps_foldl | apply keeps_each_snd | apply keeps_foldl_snd
    | apply keeps_id | refine keeps_of_eq (by assumption) ?_ | split | dsimp only

theorem execSloeAscLowSideOn_keeps {g : Fin 12} {s : State} : Kept s (execSloeAscLowSideOn g s) := by
  unfold execSloeAscLowSideOn
  with_reducible repeat' first
    | assumption | intro _ | apply Dev.when_keeps | apply Dev.ascOn_keeps | apply onDev_kept | apply keeps_ite
    | apply keeps_ite_snd | apply keeps_each | apply keeps_foldl | apply keeps_each_snd | apply keeps_foldl_snd
    | apply keeps_id | refine keeps_of_eq (by assumption) ?_ | split | dsimp only

theorem Dev.forceOp_keeps {dev0 : Dev} {g : Nat} {v : Word} {d : Dev} (hk : Keeps dev0 d) : Keeps dev0 (Dev.forceOp g v d) := by
  unfold Dev.forceOp
  with_reducible repeat' first
    | assumption | exact fun _ h => h | intro _ | apply Dev.noteLate_keeps | apply Dev.modGroup_keeps
    | apply Dev.setReg_keeps | apply keeps_ite | apply keeps_ite_snd | apply keeps_each | apply keeps_foldl
    | apply keeps_each_snd | apply keeps_foldl_snd | apply keeps_id | exact ‹Group.NoShoot _› _
    | refine keeps_of_eq (by assumption) ?_ | split | dsimp only

theorem Dev.forceShWrite_keeps {dev0 : Dev} {m : Master} {g : Nat} {v : Word} {op : Dev → Dev} {d : Dev} (hop : ∀ d, Keeps dev0
    d → Keeps dev0 (op d)) (hk : Keeps dev0 d) : Keeps dev0 (Dev.forceShWrite m g v op d) := by
  unfold Dev.forceShWrite
  with_reducible repeat' first
    | assumption | intro _ | apply hop | apply Dev.refuseSys_keeps | apply Dev.discard_keeps | apply Dev.accessWrite_keeps
    | apply keeps_ite | apply keeps_ite_snd | apply keeps_each | apply keeps_foldl | apply keeps_each_snd
    | apply keeps_foldl_snd | apply keeps_id | refine keeps_of_eq (by assumption) ?_ | split | dsimp only

theorem execForceShWrite_keeps {m : Master} {g : Fin 12} {v : Word} {s : State} : Kept s (execForceShWrite m g v s) := by
  unfold execForceShWrite
  with_reducible repeat' first
    | assumption | intro _ | apply Dev.forceShWrite_keeps | apply Dev.forceOp_keeps | apply onDev_kept | apply keeps_ite
    | apply keeps_ite_snd | apply keeps_each | apply keeps_foldl | apply keeps_each_snd | apply keeps_foldl_snd
    | apply keeps_id | refine keeps_of_eq (by assumption) ?_ | split | dsimp only

theorem Dev.tripLevels_keeps {dev0 : Dev} {g : Nat} {d : Dev} (hk : Keeps dev0 d) : Keeps dev0 (Dev.tripLevels g d) := by
  unfold Dev.tripLevels
  with_reducible repeat' first
    | assumption | intro _ | apply Dev.trip_keeps | apply keeps_ite | apply keeps_ite_snd | apply keeps_each
    | apply keeps_foldl | apply keeps_each_snd | apply keeps_foldl_snd | apply keeps_id
    | refine keeps_of_eq (by assumption) ?_ | split | dsimp only

end Sys2Proof.Machine
end

