-- ==== Sys2Proof/Laws/KeepsMc.lean ====
section
/-!
SUPPORT. What the operations of Machine/Mc.lean keep: see Keeps.lean.
-/

namespace Sys2Proof.Machine

theorem Dev.postLegs_keeps {dev0 : Dev} {n : Nat} {a1 : Nat} {b : Nat} {c : Nat} {d : Dev} (hk : Keeps dev0 d) : Keeps dev0
    (Dev.postLegs n a1 b c d) := by
  unfold Dev.postLegs
  with_reducible repeat' first
    | assumption | intro _ | apply Dev.modMc_keeps | apply keeps_ite | apply keeps_ite_snd | apply keeps_each
    | apply keeps_foldl | apply keeps_each_snd | apply keeps_foldl_snd | apply keeps_id
    | refine keeps_of_eq (by assumption) ?_ | split | dsimp only

theorem Dev.postRow_keeps {dev0 : Dev} {n : Nat} {s : Nat} {backward : Bool} {d : Dev} (hk : Keeps dev0 d) : Keeps dev0
    (Dev.postRow n s backward d) := by
  unfold Dev.postRow
  with_reducible repeat' first
    | assumption | intro _ | apply Dev.modMc_keeps | apply Dev.setFld_keeps | apply Dev.postLegs_keeps | apply keeps_ite
    | apply keeps_ite_snd | apply keeps_each | apply keeps_foldl | apply keeps_each_snd | apply keeps_foldl_snd
    | apply keeps_id | refine keeps_of_eq (by assumption) ?_ | split | dsimp only

theorem Dev.mcBlock_keeps {dev0 : Dev} {n : Nat} {d : Dev} (hk : Keeps dev0 d) : Keeps dev0 (Dev.mcBlock n d) := by
  unfold Dev.mcBlock
  with_reducible repeat' first
    | assumption | intro _ | apply Dev.modMc_keeps | apply Dev.setFld_keeps | apply Dev.postLegs_keeps
    | apply Dev.mcMask_keeps | apply Dev.setReg_keeps | apply keeps_ite | apply keeps_ite_snd | apply keeps_each
    | apply keeps_foldl | apply keeps_each_snd | apply keeps_foldl_snd | apply keeps_id
    | refine keeps_of_eq (by assumption) ?_ | split | dsimp only

theorem Dev.ascAssert_keeps {dev0 : Dev} {n : Nat} {d : Dev} (hk : Keeps dev0 d) : Keeps dev0 (Dev.ascAssert n d) := by
  unfold Dev.ascAssert
  with_reducible repeat' first
    | assumption | intro _ | apply Dev.trip_keeps | apply Dev.modMc_keeps | apply Dev.raise_keeps | apply Dev.setBit_keeps
    | apply keeps_ite | apply keeps_ite_snd | apply keeps_each | apply keeps_foldl | apply keeps_each_snd
    | apply keeps_foldl_snd | apply keeps_id | refine keeps_of_eq (by assumption) ?_ | split | dsimp only

theorem Dev.ascCheck_keeps {dev0 : Dev} {n : Nat} {d : Dev} (hk : Keeps dev0 d) : Keeps dev0 (Dev.ascCheck n d) := by
  unfold Dev.ascCheck
  with_reducible repeat' first
    | assumption | intro _ | apply Dev.when_keeps | apply Dev.ascAssert_keeps | apply keeps_ite | apply keeps_ite_snd
    | apply keeps_each | apply keeps_foldl | apply keeps_each_snd | apply keeps_foldl_snd | apply keeps_id
    | refine keeps_of_eq (by assumption) ?_ | split | dsimp only

theorem Dev.ascBoundary_keeps {dev0 : Dev} {n : Nat} {d : Dev} (hk : Keeps dev0 d) : Keeps dev0 (Dev.ascBoundary n d) := by
  unfold Dev.ascBoundary
  with_reducible repeat' first
    | assumption | intro _ | apply Dev.ascCheck_keeps | apply Dev.when_keeps | apply Dev.setBit_keeps
    | apply Dev.modMc_keeps | apply keeps_ite | apply keeps_ite_snd | apply keeps_each | apply keeps_foldl
    | apply keeps_each_snd | apply keeps_foldl_snd | apply keeps_id | refine keeps_of_eq (by assumption) ?_ | split
    | dsimp only

theorem Dev.lockout_keeps {dev0 : Dev} {n : Nat} {cause : Nat} {d : Dev} (hk : Keeps dev0 d) : Keeps dev0 (Dev.lockout n cause
    d) := by
  unfold Dev.lockout
  with_reducible repeat' first
    | assumption | intro _ | apply Dev.mcBlock_keeps | apply Dev.setBit_keeps | apply Dev.setMstate_keeps
    | apply Dev.modMc_keeps | apply Dev.setReg_keeps | apply Dev.raise_keeps | apply Dev.ascCheck_keeps
    | apply Dev.trip_keeps | apply keeps_ite | apply keeps_ite_snd | apply keeps_each | apply keeps_foldl
    | apply keeps_each_snd | apply keeps_foldl_snd | apply keeps_id | refine keeps_of_eq (by assumption) ?_ | split
    | dsimp only

theorem Dev.overVoltCheck_keeps {dev0 : Dev} {n : Nat} {d : Dev} (hk : Keeps dev0 d) : Keeps dev0 (Dev.overVoltCheck n d) := by
  unfold Dev.overVoltCheck
  with_reducible repeat' first
    | assumption | intro _ | apply Dev.lockout_keeps | apply Dev.ascAssert_keeps | apply Dev.ascCheck_keeps
    | apply keeps_ite | apply keeps_ite_snd | apply keeps_each | apply keeps_foldl | apply keeps_each_snd
    | apply keeps_foldl_snd | apply keeps_id | refine keeps_of_eq (by assumption) ?_ | split | dsimp only

theorem Dev.rotorLost_keeps {dev0 : Dev} {n : Nat} {d : Dev} (hk : Keeps dev0 d) : Keeps dev0 (Dev.rotorLost n d) := by
  unfold Dev.rotorLost
  with_reducible repeat' first
    | assumption | intro _ | apply Dev.setBit_keeps | apply Dev.mcBlock_keeps | apply Dev.setMstate_keeps
    | apply Dev.raise_keeps | apply Dev.overVoltCheck_keeps | apply Dev.modMc_keeps | apply keeps_ite | apply keeps_ite_snd
    | apply keeps_each | apply keeps_foldl | apply keeps_each_snd | apply keeps_foldl_snd | apply keeps_id
    | refine keeps_of_eq (by assumption) ?_ | split | dsimp only

theorem Dev.declineCatch_keeps {dev0 : Dev} {n : Nat} {cause : Nat} {d : Dev} (hk : Keeps dev0 d) : Keeps dev0 (Dev.declineCatch
    n cause d) := by
  unfold Dev.declineCatch
  with_reducible repeat' first
    | assumption | intro _ | apply Dev.modMc_keeps | apply Dev.raise_keeps | apply Dev.setMstate_keeps
    | apply Dev.setReg_keeps | apply keeps_ite | apply keeps_ite_snd | apply keeps_each | apply keeps_foldl
    | apply keeps_each_snd | apply keeps_foldl_snd | apply keeps_id | refine keeps_of_eq (by assumption) ?_ | split
    | dsimp only

theorem Dev.engage_keeps {dev0 : Dev} {n : Nat} {f : Word} {th : Word} {e : Word} {still : Bool} {d : Dev} (hk : Keeps dev0 d) :
    Keeps dev0 (Dev.engage n f th e still d) := by
  unfold Dev.engage
  with_reducible repeat' first
    | assumption | intro _ | apply Dev.setReg_keeps | apply Dev.setBit_keeps | apply Dev.when_keeps | apply Dev.modMc_keeps
    | apply Dev.free_keeps | apply Dev.raise_keeps | apply Dev.setMstate_keeps | apply Dev.overVoltCheck_keeps
    | apply keeps_ite | apply keeps_ite_snd | apply keeps_each | apply keeps_foldl | apply keeps_each_snd
    | apply keeps_foldl_snd | apply keeps_id | refine keeps_of_eq (by assumption) ?_ | split | dsimp only

theorem Dev.engageStill_keeps {dev0 : Dev} {n : Nat} {d : Dev} (hk : Keeps dev0 d) : Keeps dev0 (Dev.engageStill n d) := by
  unfold Dev.engageStill
  with_reducible repeat' first
    | assumption | intro _ | apply Dev.free_keeps | apply Dev.engage_keeps | apply keeps_ite | apply keeps_ite_snd
    | apply keeps_each | apply keeps_foldl | apply keeps_each_snd | apply keeps_foldl_snd | apply keeps_id
    | refine keeps_of_eq (by assumption) ?_ | split | dsimp only

theorem Dev.alignStart_keeps {dev0 : Dev} {n : Nat} {backward : Bool} {d : Dev} (hk : Keeps dev0 d) : Keeps dev0 (Dev.alignStart
    n backward d) := by
  unfold Dev.alignStart
  with_reducible repeat' first
    | assumption | intro _ | apply Dev.modMc_keeps | apply Dev.setMstate_keeps | apply Dev.postRow_keeps | apply keeps_ite
    | apply keeps_ite_snd | apply keeps_each | apply keeps_foldl | apply keeps_each_snd | apply keeps_foldl_snd
    | apply keeps_id | refine keeps_of_eq (by assumption) ?_ | split | dsimp only

theorem Dev.estWindow_keeps {dev0 : Dev} {n : Nat} {key : Nat} {d : Dev} (hk : Keeps dev0 d) : Keeps dev0 (Dev.estWindow n key
    d) := by
  unfold Dev.estWindow
  with_reducible repeat' first
    | assumption | intro _ | apply Dev.modMc_keeps | apply keeps_ite | apply keeps_ite_snd | apply keeps_each
    | apply keeps_foldl | apply keeps_each_snd | apply keeps_foldl_snd | apply keeps_id
    | refine keeps_of_eq (by assumption) ?_ | split | dsimp only

theorem Dev.estShow_keeps {dev0 : Dev} {n : Nat} {d : Dev} (hk : Keeps dev0 d) : Keeps dev0 (Dev.estShow n d) := by
  unfold Dev.estShow
  with_reducible repeat' first
    | assumption | intro _ | apply Dev.setBit_keeps | apply Dev.setReg_keeps | apply keeps_ite | apply keeps_ite_snd
    | apply keeps_each | apply keeps_foldl | apply keeps_each_snd | apply keeps_foldl_snd | apply keeps_id
    | refine keeps_of_eq (by assumption) ?_ | split | dsimp only

theorem Dev.engageEst_keeps {dev0 : Dev} {n : Nat} {d : Dev} (hk : Keeps dev0 d) : Keeps dev0 (Dev.engageEst n d) := by
  unfold Dev.engageEst
  with_reducible repeat' first
    | assumption | intro _ | apply Dev.engage_keeps | apply keeps_ite | apply keeps_ite_snd | apply keeps_each
    | apply keeps_foldl | apply keeps_each_snd | apply keeps_foldl_snd | apply keeps_id
    | refine keeps_of_eq (by assumption) ?_ | split | dsimp only

theorem Dev.catchBoundary_keeps {dev0 : Dev} {n : Nat} {d : Dev} (hk : Keeps dev0 d) : Keeps dev0 (Dev.catchBoundary n d) := by
  unfold Dev.catchBoundary
  with_reducible repeat' first
    | assumption | intro _ | apply Dev.when_keeps | apply Dev.estShow_keeps | apply Dev.estWindow_keeps
    | apply Dev.declineCatch_keeps | apply Dev.engageEst_keeps | apply Dev.alignStart_keeps | apply Dev.engageStill_keeps
    | apply keeps_ite | apply keeps_ite_snd | apply keeps_each | apply keeps_foldl | apply keeps_each_snd
    | apply keeps_foldl_snd | apply keeps_id | refine keeps_of_eq (by assumption) ?_ | split | dsimp only

theorem Dev.reacqBoundary_keeps {dev0 : Dev} {n : Nat} {d : Dev} (hk : Keeps dev0 d) : Keeps dev0 (Dev.reacqBoundary n d) := by
  unfold Dev.reacqBoundary
  with_reducible repeat' first
    | assumption | intro _ | apply Dev.estShow_keeps | apply Dev.estWindow_keeps | apply Dev.modMc_keeps
    | apply Dev.lockout_keeps | apply Dev.bumpSat_keeps | apply Dev.engageEst_keeps | apply keeps_ite | apply keeps_ite_snd
    | apply keeps_each | apply keeps_foldl | apply keeps_each_snd | apply keeps_foldl_snd | apply keeps_id
    | refine keeps_of_eq (by assumption) ?_ | split | dsimp only

theorem Dev.lockoutBoundary_keeps {dev0 : Dev} {n : Nat} {d : Dev} (hk : Keeps dev0 d) : Keeps dev0 (Dev.lockoutBoundary n d) :=
    by
  unfold Dev.lockoutBoundary
  with_reducible repeat' first
    | assumption | intro _ | apply Dev.when_keeps | apply Dev.modMc_keeps | apply Dev.estWindow_keeps
    | apply Dev.setReg_keeps | apply Dev.ascBoundary_keeps | apply keeps_ite | apply keeps_ite_snd | apply keeps_each
    | apply keeps_foldl | apply keeps_each_snd | apply keeps_foldl_snd | apply keeps_id
    | refine keeps_of_eq (by assumption) ?_ | split | dsimp only

theorem Dev.sensorFrac_keeps {dev0 : Dev} {d : Dev} {n : Nat} (hk : Keeps dev0 d) : Keeps dev0 (Dev.sensorFrac d n).2.2 := by
  unfold Dev.sensorFrac
  with_reducible repeat' first
    | assumption | intro _ | apply Dev.free_keeps | apply keeps_ite | apply keeps_ite_snd | apply keeps_each
    | apply keeps_foldl | apply keeps_each_snd | apply keeps_foldl_snd | apply keeps_id
    | refine keeps_of_eq (by assumption) ?_ | split | dsimp only

theorem Dev.mcSense_keeps {dev0 : Dev} {n : Nat} {d : Dev} (hk : Keeps dev0 d) : Keeps dev0 (Dev.mcSense n d) := by
  unfold Dev.mcSense
  with_reducible repeat' first
    | assumption | intro _ | apply Dev.setBit_keeps | apply Dev.setReg_keeps | apply Dev.sensorFrac_keeps | apply keeps_ite
    | apply keeps_ite_snd | apply keeps_each | apply keeps_foldl | apply keeps_each_snd | apply keeps_foldl_snd
    | apply keeps_id | refine keeps_of_eq (by assumption) ?_ | split | dsimp only

theorem Dev.mcTorque_keeps {dev0 : Dev} {n : Nat} {d : Dev} (hk : Keeps dev0 d) : Keeps dev0 (Dev.mcTorque n d) := by
  unfold Dev.mcTorque
  with_reducible repeat' first
    | assumption | intro _ | apply Dev.modMc_keeps | apply Dev.setReg_keeps | apply Dev.setMstate_keeps
    | apply Dev.setBit_keeps | apply keeps_ite | apply keeps_ite_snd | apply keeps_each | apply keeps_foldl
    | apply keeps_each_snd | apply keeps_foldl_snd | apply keeps_id | refine keeps_of_eq (by assumption) ?_ | split
    | dsimp only

theorem Dev.mcRef_keeps {dev0 : Dev} {n : Nat} {d : Dev} (hk : Keeps dev0 d) : Keeps dev0 (Dev.mcRef n d) := by
  unfold Dev.mcRef
  with_reducible repeat' first
    | assumption | intro _ | apply Dev.setReg_keeps | apply keeps_ite | apply keeps_ite_snd | apply keeps_each
    | apply keeps_foldl | apply keeps_each_snd | apply keeps_foldl_snd | apply keeps_id
    | refine keeps_of_eq (by assumption) ?_ | split | dsimp only

theorem Dev.stopDone_keeps {dev0 : Dev} {n : Nat} {d : Dev} (hk : Keeps dev0 d) : Keeps dev0 (Dev.stopDone n d) := by
  unfold Dev.stopDone
  with_reducible repeat' first
    | assumption | intro _ | apply Dev.mcBlock_keeps | apply Dev.setBit_keeps | apply Dev.setMstate_keeps
    | apply Dev.when_keeps | apply Dev.stopGroup_keeps | apply keeps_ite | apply keeps_ite_snd | apply keeps_each
    | apply keeps_foldl | apply keeps_each_snd | apply keeps_foldl_snd | apply keeps_id
    | refine keeps_of_eq (by assumption) ?_ | split | dsimp only

theorem Dev.stopCheck_keeps {dev0 : Dev} {n : Nat} {d : Dev} (hk : Keeps dev0 d) : Keeps dev0 (Dev.stopCheck n d) := by
  unfold Dev.stopCheck
  with_reducible repeat' first
    | assumption | intro _ | apply Dev.modMc_keeps | apply Dev.when_keeps | apply Dev.stopDone_keeps | apply keeps_ite
    | apply keeps_ite_snd | apply keeps_each | apply keeps_foldl | apply keeps_each_snd | apply keeps_foldl_snd
    | apply keeps_id | refine keeps_of_eq (by assumption) ?_ | split | dsimp only

theorem Dev.mcPredict_keeps {dev0 : Dev} {n : Nat} {d : Dev} (hk : Keeps dev0 d) : Keeps dev0 (Dev.mcPredict n d) := by
  unfold Dev.mcPredict
  with_reducible repeat' first
    | assumption | intro _ | apply Dev.when_keeps | apply Dev.modMc_keeps | apply keeps_ite | apply keeps_ite_snd
    | apply keeps_each | apply keeps_foldl | apply keeps_each_snd | apply keeps_foldl_snd | apply keeps_id
    | refine keeps_of_eq (by assumption) ?_ | split | dsimp only

theorem Dev.startBoundary_keeps {dev0 : Dev} {n : Nat} {d : Dev} (hk : Keeps dev0 d) : Keeps dev0 (Dev.startBoundary n d) := by
  unfold Dev.startBoundary
  with_reducible repeat' first
    | assumption | intro _ | apply Dev.modMc_keeps | apply Dev.overVoltCheck_keeps | apply Dev.setMstate_keeps
    | apply Dev.engage_keeps | apply Dev.engageStill_keeps | apply keeps_ite | apply keeps_ite_snd | apply keeps_each
    | apply keeps_foldl | apply keeps_each_snd | apply keeps_foldl_snd | apply keeps_id
    | refine keeps_of_eq (by assumption) ?_ | split | dsimp only

theorem Dev.rowDirection_keeps {dev0 : Dev} {n : Nat} {d : Dev} (hk : Keeps dev0 d) : Keeps dev0 (Dev.rowDirection n d) := by
  unfold Dev.rowDirection
  with_reducible repeat' first
    | assumption | intro _ | apply Dev.modMc_keeps | apply Dev.postRow_keeps | apply keeps_ite | apply keeps_ite_snd
    | apply keeps_each | apply keeps_foldl | apply keeps_each_snd | apply keeps_foldl_snd | apply keeps_id
    | refine keeps_of_eq (by assumption) ?_ | split | dsimp only

theorem Dev.mcBoundary_keeps {dev0 : Dev} {n : Nat} {d : Dev} (hk : Keeps dev0 d) : Keeps dev0 (Dev.mcBoundary n d) := by
  unfold Dev.mcBoundary
  with_reducible repeat' first
    | assumption | intro _ | apply Dev.setFld_keeps | apply Dev.setBit_keeps | apply Dev.setReg_keeps
    | apply Dev.mcSense_keeps | apply Dev.startBoundary_keeps | apply Dev.catchBoundary_keeps
    | apply Dev.reacqBoundary_keeps | apply Dev.lockoutBoundary_keeps | apply Dev.mcTorque_keeps | apply Dev.mcRef_keeps
    | apply Dev.stopCheck_keeps | apply Dev.mcPredict_keeps | apply Dev.rowDirection_keeps | apply keeps_ite
    | apply keeps_ite_snd | apply keeps_each | apply keeps_foldl | apply keeps_each_snd | apply keeps_foldl_snd
    | apply keeps_id | refine keeps_of_eq (by assumption) ?_ | split | dsimp only

theorem Dev.mcReload_keeps {dev0 : Dev} {n : Nat} {d : Dev} (hk : Keeps dev0 d) : Keeps dev0 (Dev.mcReload n d) := by
  unfold Dev.mcReload
  with_reducible repeat' first
    | assumption | intro _ | apply Dev.modMc_keeps | apply Dev.postLegs_keeps | apply Dev.postRow_keeps
    | apply Dev.mcMask_keeps | apply keeps_ite | apply keeps_ite_snd | apply keeps_each | apply keeps_foldl
    | apply keeps_each_snd | apply keeps_foldl_snd | apply keeps_id | refine keeps_of_eq (by assumption) ?_ | split
    | dsimp only

theorem Dev.mcResult_keeps {dev0 : Dev} {n : Nat} {code : Nat} {cause : Nat} {d : Dev} (hk : Keeps dev0 d) : Keeps dev0
    (Dev.mcResult n code cause d) := by
  unfold Dev.mcResult
  with_reducible repeat' first
    | assumption | intro _ | apply Dev.setReg_keeps | apply Dev.raise_keeps | apply keeps_ite | apply keeps_ite_snd
    | apply keeps_each | apply keeps_foldl | apply keeps_each_snd | apply keeps_foldl_snd | apply keeps_id
    | refine keeps_of_eq (by assumption) ?_ | split | dsimp only

theorem Dev.runStart_keeps {dev0 : Dev} {n : Nat} {d : Dev} (hk : Keeps dev0 d) : Keeps dev0 (Dev.runStart n d) := by
  unfold Dev.runStart
  with_reducible repeat' first
    | assumption | intro _ | apply Dev.when_keeps | apply Dev.modMc_keeps | apply Dev.lockout_keeps
    | apply Dev.alignStart_keeps | apply keeps_ite | apply keeps_ite_snd | apply keeps_each | apply keeps_foldl
    | apply keeps_each_snd | apply keeps_foldl_snd | apply keeps_id | refine keeps_of_eq (by assumption) ?_ | split
    | dsimp only

theorem Dev.mcRunOp_keeps {dev0 : Dev} {n : Nat} {d : Dev} (hk : Keeps dev0 d) : Keeps dev0 (Dev.mcRunOp n d) := by
  unfold Dev.mcRunOp
  with_reducible repeat' first
    | assumption | intro _ | apply Dev.mcResult_keeps | apply Dev.runStart_keeps | apply Dev.setBit_keeps
    | apply Dev.setMstate_keeps | apply Dev.modMc_keeps | apply keeps_ite | apply keeps_ite_snd | apply keeps_each
    | apply keeps_foldl | apply keeps_each_snd | apply keeps_foldl_snd | apply keeps_id
    | refine keeps_of_eq (by assumption) ?_ | split | dsimp only

theorem Dev.mcStopOp_keeps {dev0 : Dev} {n : Nat} {d : Dev} (hk : Keeps dev0 d) : Keeps dev0 (Dev.mcStopOp n d) := by
  unfold Dev.mcStopOp
  with_reducible repeat' first
    | assumption | intro _ | apply Dev.setMstate_keeps | apply Dev.mcResult_keeps | apply Dev.setBit_keeps
    | apply Dev.modMc_keeps | apply Dev.mcBlock_keeps | apply keeps_ite | apply keeps_ite_snd | apply keeps_each
    | apply keeps_foldl | apply keeps_each_snd | apply keeps_foldl_snd | apply keeps_id
    | refine keeps_of_eq (by assumption) ?_ | split | dsimp only

theorem Dev.mcResetOp_keeps {dev0 : Dev} {n : Nat} {d : Dev} (hk : Keeps dev0 d) : Keeps dev0 (Dev.mcResetOp n d) := by
  unfold Dev.mcResetOp
  with_reducible repeat' first
    | assumption | intro _ | apply Dev.setBit_keeps | apply Dev.setMstate_keeps | apply Dev.mcResult_keeps | apply keeps_ite
    | apply keeps_ite_snd | apply keeps_each | apply keeps_foldl | apply keeps_each_snd | apply keeps_foldl_snd
    | apply keeps_id | refine keeps_of_eq (by assumption) ?_ | split | dsimp only

theorem Dev.mcCmdOp_keeps {dev0 : Dev} {n : Nat} {code : Nat} {d : Dev} (hk : Keeps dev0 d) : Keeps dev0 (Dev.mcCmdOp n code d)
    := by
  unfold Dev.mcCmdOp
  with_reducible repeat' first
    | assumption | intro _ | apply Dev.mcRunOp_keeps | apply Dev.mcStopOp_keeps | apply Dev.mcResetOp_keeps
    | apply Dev.mcResult_keeps | apply keeps_ite | apply keeps_ite_snd | apply keeps_each | apply keeps_foldl
    | apply keeps_each_snd | apply keeps_foldl_snd | apply keeps_id | refine keeps_of_eq (by assumption) ?_ | split
    | dsimp only

theorem execMcRun_keeps {m : Master} {n : Fin 12} {s : State} : Kept s (execMcRun m n s) := by
  unfold execMcRun
  with_reducible repeat' first
    | assumption | intro _ | apply Dev.accessWrite_keeps | apply Dev.mcRunOp_keeps | apply onDev_kept | apply keeps_ite
    | apply keeps_ite_snd | apply keeps_each | apply keeps_foldl | apply keeps_each_snd | apply keeps_foldl_snd
    | apply keeps_id | refine keeps_of_eq (by assumption) ?_ | split | dsimp only

theorem execMcStop_keeps {m : Master} {n : Fin 12} {s : State} : Kept s (execMcStop m n s) := by
  unfold execMcStop
  with_reducible repeat' first
    | assumption | intro _ | apply Dev.accessWrite_keeps | apply Dev.mcStopOp_keeps | apply onDev_kept | apply keeps_ite
    | apply keeps_ite_snd | apply keeps_each | apply keeps_foldl | apply keeps_each_snd | apply keeps_foldl_snd
    | apply keeps_id | refine keeps_of_eq (by assumption) ?_ | split | dsimp only

theorem execResetFault_keeps {m : Master} {n : Fin 12} {s : State} : Kept s (execResetFault m n s) := by
  unfold execResetFault
  with_reducible repeat' first
    | assumption | intro _ | apply Dev.accessWrite_keeps | apply Dev.mcResetOp_keeps | apply onDev_kept | apply keeps_ite
    | apply keeps_ite_snd | apply keeps_each | apply keeps_foldl | apply keeps_each_snd | apply keeps_foldl_snd
    | apply keeps_id | refine keeps_of_eq (by assumption) ?_ | split | dsimp only

theorem Dev.obsReport_keeps {dev0 : Dev} {n : Nat} {v : Word} {d : Dev} (hk : Keeps dev0 d) : Keeps dev0 (Dev.obsReport n v d)
    := by
  unfold Dev.obsReport
  with_reducible repeat' first
    | assumption | intro _ | apply Dev.setReg_keeps | apply Dev.modMc_keeps | apply Dev.when_keeps
    | apply Dev.rotorLost_keeps | apply keeps_ite | apply keeps_ite_snd | apply keeps_each | apply keeps_foldl
    | apply keeps_each_snd | apply keeps_foldl_snd | apply keeps_id | refine keeps_of_eq (by assumption) ?_ | split
    | dsimp only

theorem execObsReport_keeps {m : Master} {n : Fin 12} {v : Word} {s : State} : Kept s (execObsReport m n v s) := by
  unfold execObsReport
  with_reducible repeat' first
    | assumption | intro _ | apply Dev.accessWrite_keeps | apply Dev.obsReport_keeps | apply onDev_kept | apply keeps_ite
    | apply keeps_ite_snd | apply keeps_each | apply keeps_foldl | apply keeps_each_snd | apply keeps_foldl_snd
    | apply keeps_id | refine keeps_of_eq (by assumption) ?_ | split | dsimp only

theorem execObsReportTimeout_keeps {n : Fin 12} {s : State} : Kept s (execObsReportTimeout n s) := by
  unfold execObsReportTimeout
  with_reducible repeat' first
    | assumption | intro _ | apply Dev.when_keeps | apply Dev.rotorLost_keeps | apply onDev_kept | apply keeps_ite
    | apply keeps_ite_snd | apply keeps_each | apply keeps_foldl | apply keeps_each_snd | apply keeps_foldl_snd
    | apply keeps_id | refine keeps_of_eq (by assumption) ?_ | split | dsimp only

theorem Dev.crossing_keeps {dev0 : Dev} {n : Nat} {t : Nat} {d : Dev} (hk : Keeps dev0 d) : Keeps dev0 (Dev.crossing n t d) :=
    by
  unfold Dev.crossing
  with_reducible repeat' first
    | assumption | intro _ | apply Dev.modMc_keeps | apply Dev.setReg_keeps | apply keeps_ite | apply keeps_ite_snd
    | apply keeps_each | apply keeps_foldl | apply keeps_each_snd | apply keeps_foldl_snd | apply keeps_id
    | refine keeps_of_eq (by assumption) ?_ | split | dsimp only

theorem Dev.alignCrossing_keeps {dev0 : Dev} {n : Nat} {t : Nat} {d : Dev} (hk : Keeps dev0 d) : Keeps dev0 (Dev.alignCrossing n
    t d) := by
  unfold Dev.alignCrossing
  with_reducible repeat' first
    | assumption | intro _ | apply Dev.modMc_keeps | apply Dev.setMstate_keeps | apply Dev.crossing_keeps | apply keeps_ite
    | apply keeps_ite_snd | apply keeps_each | apply keeps_foldl | apply keeps_each_snd | apply keeps_foldl_snd
    | apply keeps_id | refine keeps_of_eq (by assumption) ?_ | split | dsimp only

theorem execZeroCrossing_keeps {n : Fin 12} {s : State} : Kept s (execZeroCrossing n s) := by
  unfold execZeroCrossing
  with_reducible repeat' first
    | assumption | intro _ | apply Dev.alignCrossing_keeps | apply Dev.when_keeps | apply Dev.crossing_keeps
    | apply onDev_kept | apply keeps_ite | apply keeps_ite_snd | apply keeps_each | apply keeps_foldl | apply keeps_each_snd
    | apply keeps_foldl_snd | apply keeps_id | refine keeps_of_eq (by assumption) ?_ | split | dsimp only

theorem execRowChange_keeps {n : Fin 12} {s : State} : Kept s (execRowChange n s) := by
  unfold execRowChange
  with_reducible repeat' first
    | assumption | intro _ | apply Dev.when_keeps | apply Dev.postRow_keeps | apply onDev_kept | apply keeps_ite
    | apply keeps_ite_snd | apply keeps_each | apply keeps_foldl | apply keeps_each_snd | apply keeps_foldl_snd
    | apply keeps_id | refine keeps_of_eq (by assumption) ?_ | split | dsimp only

theorem execZcMiss_keeps {n : Fin 12} {s : State} : Kept s (execZcMiss n s) := by
  unfold execZcMiss
  with_reducible repeat' first
    | assumption | intro _ | apply Dev.when_keeps | apply Dev.modMc_keeps | apply Dev.raise_keeps
    | apply Dev.rotorLost_keeps | apply onDev_kept | apply keeps_ite | apply keeps_ite_snd | apply keeps_each
    | apply keeps_foldl | apply keeps_each_snd | apply keeps_foldl_snd | apply keeps_id
    | refine keeps_of_eq (by assumption) ?_ | split | dsimp only

theorem execForcedStep_keeps {n : Fin 12} {s : State} : Kept s (execForcedStep n s) := by
  unfold execForcedStep
  with_reducible repeat' first
    | assumption | intro _ | apply Dev.lockout_keeps | apply Dev.postRow_keeps | apply Dev.modMc_keeps | apply onDev_kept
    | apply keeps_ite | apply keeps_ite_snd | apply keeps_each | apply keeps_foldl | apply keeps_each_snd
    | apply keeps_foldl_snd | apply keeps_id | refine keeps_of_eq (by assumption) ?_ | split | dsimp only

theorem Dev.mcHallEdge_keeps {dev0 : Dev} {p : Nat} {d : Dev} (hk : Keeps dev0 d) : Keeps dev0 (Dev.mcHallEdge p d) := by
  unfold Dev.mcHallEdge
  with_reducible repeat' first
    | assumption | intro _ | apply Dev.postRow_keeps | apply keeps_ite | apply keeps_ite_snd | apply keeps_each
    | apply keeps_foldl | apply keeps_each_snd | apply keeps_foldl_snd | apply keeps_id
    | refine keeps_of_eq (by assumption) ?_ | split | dsimp only

theorem Dev.mcHallError_keeps {dev0 : Dev} {p : Nat} {d : Dev} (hk : Keeps dev0 d) : Keeps dev0 (Dev.mcHallError p d) := by
  unfold Dev.mcHallError
  with_reducible repeat' first
    | assumption | intro _ | apply Dev.lockout_keeps | apply keeps_ite | apply keeps_ite_snd | apply keeps_each
    | apply keeps_foldl | apply keeps_each_snd | apply keeps_foldl_snd | apply keeps_id
    | refine keeps_of_eq (by assumption) ?_ | split | dsimp only

theorem Dev.mcFbLost_keeps {dev0 : Dev} {p : Nat} {d : Dev} (hk : Keeps dev0 d) : Keeps dev0 (Dev.mcFbLost p d) := by
  unfold Dev.mcFbLost
  with_reducible repeat' first
    | assumption | intro _ | apply Dev.rotorLost_keeps | apply Dev.modMc_keeps | apply Dev.lockout_keeps | apply keeps_ite
    | apply keeps_ite_snd | apply keeps_each | apply keeps_foldl | apply keeps_each_snd | apply keeps_foldl_snd
    | apply keeps_id | refine keeps_of_eq (by assumption) ?_ | split | dsimp only

theorem Dev.mcConfigured_keeps {dev0 : Dev} {n : Nat} {d : Dev} (hk : Keeps dev0 d) : Keeps dev0 (Dev.mcConfigured n d) := by
  unfold Dev.mcConfigured
  with_reducible repeat' first
    | assumption | intro _ | apply Dev.modMc_keeps | apply Dev.brakeUpdate_keeps | apply Dev.mcBlock_keeps
    | apply Dev.setBit_keeps | apply Dev.setMstate_keeps | apply keeps_ite | apply keeps_ite_snd | apply keeps_each
    | apply keeps_foldl | apply keeps_each_snd | apply keeps_foldl_snd | apply keeps_id
    | refine keeps_of_eq (by assumption) ?_ | split | dsimp only

theorem Dev.modPin_keeps {dev0 : Dev} {k : Nat} {f : CmdPin → CmdPin} {d : Dev} (hk : Keeps dev0 d) : Keeps dev0 (Dev.modPin k f
    d) := by
  unfold Dev.modPin
  with_reducible repeat' first
    | assumption | intro _ | apply Dev.modMc_keeps | apply keeps_ite | apply keeps_ite_snd | apply keeps_each
    | apply keeps_foldl | apply keeps_each_snd | apply keeps_foldl_snd | apply keeps_id
    | refine keeps_of_eq (by assumption) ?_ | split | dsimp only

theorem Dev.cmdinEdge_keeps {dev0 : Dev} {k : Nat} {high : Nat} {d : Dev} (hk : Keeps dev0 d) : Keeps dev0 (Dev.cmdinEdge k high
    d) := by
  unfold Dev.cmdinEdge
  with_reducible repeat' first
    | assumption | intro _ | apply Dev.modPin_keeps | apply Dev.cmdinTake_keeps | apply keeps_ite | apply keeps_ite_snd
    | apply keeps_each | apply keeps_foldl | apply keeps_each_snd | apply keeps_foldl_snd | apply keeps_id
    | refine keeps_of_eq (by assumption) ?_ | split | dsimp only

theorem execCmdinCycle_keeps {k : Fin 4} {high : Nat} {ns : Nat} {s : State} : Kept s (execCmdinCycle k high ns s) := by
  unfold execCmdinCycle
  with_reducible repeat' first
    | assumption | intro _ | apply Dev.cmdinAnalog_keeps | apply Dev.when_keeps | apply Dev.cmdinEdge_keeps
    | apply onDev_kept | apply keeps_ite | apply keeps_ite_snd | apply keeps_each | apply keeps_foldl | apply keeps_each_snd
    | apply keeps_foldl_snd | apply keeps_id | refine keeps_of_eq (by assumption) ?_ | split | dsimp only

theorem execCmdinTimeout_keeps {k : Fin 4} {s : State} : Kept s (execCmdinTimeout k s) := by
  unfold execCmdinTimeout
  with_reducible repeat' first
    | assumption | intro _ | apply Dev.when_keeps | apply Dev.modPin_keeps | apply Dev.cmdinLost_keeps | apply onDev_kept
    | apply keeps_ite | apply keeps_ite_snd | apply keeps_each | apply keeps_foldl | apply keeps_each_snd
    | apply keeps_foldl_snd | apply keeps_id | refine keeps_of_eq (by assumption) ?_ | split | dsimp only

theorem Dev.cmdinConfigured_keeps {dev0 : Dev} {old : Dev} {d : Dev} (hk : Keeps dev0 d) : Keeps dev0 (Dev.cmdinConfigured old
    d) := by
  unfold Dev.cmdinConfigured
  with_reducible repeat' first
    | assumption | intro _ | apply Dev.when_keeps | apply Dev.modPin_keeps | apply Dev.cmdinAnalog_keeps | apply keeps_ite
    | apply keeps_ite_snd | apply keeps_each | apply keeps_foldl | apply keeps_each_snd | apply keeps_foldl_snd
    | apply keeps_id | refine keeps_of_eq (by assumption) ?_ | split | dsimp only

end Sys2Proof.Machine
end

