-- ==== Sys2Proof/Laws/KeepsCmp.lean ====
section
/-!
SUPPORT. What the operations of Machine/Cmp.lean keep: see Keeps.lean.
-/

namespace Sys2Proof.Machine

theorem Dev.cmpFollow_keeps {dev0 : Dev} {j : Nat} {d : Dev} (hk : Keeps dev0 d) : Keeps dev0 (Dev.cmpFollow j d) := by
  unfold Dev.cmpFollow
  with_reducible repeat' first
    | assumption | intro _ | apply Dev.brakeUpdate_keeps | apply Dev.overVoltCheck_keeps | apply keeps_ite
    | apply keeps_ite_snd | apply keeps_each | apply keeps_foldl | apply keeps_each_snd | apply keeps_foldl_snd
    | apply keeps_id | refine keeps_of_eq (by assumption) ?_ | split | dsimp only

theorem Dev.cmpFiltered_keeps {dev0 : Dev} {j : Nat} {low : Bool} {active : Bool} {d : Dev} (hk : Keeps dev0 d) : Keeps dev0
    (Dev.cmpFiltered j low active d) := by
  unfold Dev.cmpFiltered
  with_reducible repeat' first
    | assumption | intro _ | apply Dev.setBit_keeps | apply Dev.when_keeps | apply Dev.putCmps_keeps | apply Dev.raise_keeps
    | apply Dev.trip_keeps | apply Dev.cmpFollow_keeps | apply keeps_ite | apply keeps_ite_snd | apply keeps_each
    | apply keeps_foldl | apply keeps_each_snd | apply keeps_foldl_snd | apply keeps_id
    | refine keeps_of_eq (by assumption) ?_ | split | dsimp only

theorem Dev.cmpUnfiltered_keeps {dev0 : Dev} {j : Nat} {d : Dev} (hk : Keeps dev0 d) : Keeps dev0 (Dev.cmpUnfiltered j d) := by
  unfold Dev.cmpUnfiltered
  with_reducible repeat' first
    | assumption | intro _ | apply Dev.putCmps_keeps | apply keeps_ite | apply keeps_ite_snd | apply keeps_each
    | apply keeps_foldl | apply keeps_each_snd | apply keeps_foldl_snd | apply keeps_id
    | refine keeps_of_eq (by assumption) ?_ | split | dsimp only

theorem Dev.cmpFilter_keeps {dev0 : Dev} {j : Nat} {low : Bool} {d : Dev} (hk : Keeps dev0 d) : Keeps dev0 (Dev.cmpFilter j low
    d) := by
  unfold Dev.cmpFilter
  with_reducible repeat' first
    | assumption | intro _ | apply Dev.when_keeps | apply Dev.cmpFiltered_keeps | apply keeps_ite | apply keeps_ite_snd
    | apply keeps_each | apply keeps_foldl | apply keeps_each_snd | apply keeps_foldl_snd | apply keeps_id
    | refine keeps_of_eq (by assumption) ?_ | split | dsimp only

theorem Dev.cmpSettle_keeps {dev0 : Dev} {j : Nat} {d : Dev} (hk : Keeps dev0 d) : Keeps dev0 (Dev.cmpSettle j d) := by
  unfold Dev.cmpSettle
  with_reducible repeat' first
    | assumption | intro _ | apply Dev.cmpFilter_keeps | apply Dev.cmpUnfiltered_keeps | apply keeps_ite
    | apply keeps_ite_snd | apply keeps_each | apply keeps_foldl | apply keeps_each_snd | apply keeps_foldl_snd
    | apply keeps_id | refine keeps_of_eq (by assumption) ?_ | split | dsimp only

theorem Dev.cmpConfigured_keeps {dev0 : Dev} {d : Dev} (hk : Keeps dev0 d) : Keeps dev0 (Dev.cmpConfigured d) := by
  unfold Dev.cmpConfigured
  with_reducible repeat' first
    | assumption | intro _ | apply Dev.plausCfg_keeps | apply Dev.cmpSettle_keeps | apply keeps_ite | apply keeps_ite_snd
    | apply keeps_each | apply keeps_foldl | apply keeps_each_snd | apply keeps_foldl_snd | apply keeps_id
    | refine keeps_of_eq (by assumption) ?_ | split | dsimp only

theorem execComparatorCrossing_keeps {j : Fin 64} {x : Option Int} {s : State} : Kept s (execComparatorCrossing j x s) := by
  unfold execComparatorCrossing
  with_reducible repeat' first
    | assumption | intro _ | apply Dev.putCmps_keeps | apply Dev.cmpSettle_keeps | apply onDev_kept | apply keeps_ite
    | apply keeps_ite_snd | apply keeps_each | apply keeps_foldl | apply keeps_each_snd | apply keeps_foldl_snd
    | apply keeps_id | refine keeps_of_eq (by assumption) ?_ | split | dsimp only

theorem execRefReady_keeps {h : Fin 2} {s : State} : Kept s (execRefReady h s) := by
  unfold execRefReady
  with_reducible repeat' first
    | assumption | intro _ | apply Dev.cmpSettle_keeps | apply Dev.setBit_keeps | apply onDev_kept | apply keeps_ite
    | apply keeps_ite_snd | apply keeps_each | apply keeps_foldl | apply keeps_each_snd | apply keeps_foldl_snd
    | apply keeps_id | refine keeps_of_eq (by assumption) ?_ | split | dsimp only

theorem Dev.refDrop_keeps {dev0 : Dev} {h : Nat} {d : Dev} (hk : Keeps dev0 d) : Keeps dev0 (Dev.refDrop h d) := by
  unfold Dev.refDrop
  with_reducible repeat' first
    | assumption | intro _ | apply Dev.cmpSettle_keeps | apply Dev.raise_keeps | apply Dev.setBit_keeps | apply keeps_ite
    | apply keeps_ite_snd | apply keeps_each | apply keeps_foldl | apply keeps_each_snd | apply keeps_foldl_snd
    | apply keeps_id | refine keeps_of_eq (by assumption) ?_ | split | dsimp only

theorem execRefDrop_keeps {h : Fin 2} {s : State} : Kept s (execRefDrop h s) := by
  unfold execRefDrop
  with_reducible repeat' first
    | assumption | intro _ | apply Dev.refDrop_keeps | apply onDev_kept | apply keeps_ite | apply keeps_ite_snd
    | apply keeps_each | apply keeps_foldl | apply keeps_each_snd | apply keeps_foldl_snd | apply keeps_id
    | refine keeps_of_eq (by assumption) ?_ | split | dsimp only

end Sys2Proof.Machine
end

