-- ==== Sys2Proof/Laws/KeepsLane.lean ====
section
/-!
SUPPORT. What the operations of Machine/Lane.lean keep: see Keeps.lean.
-/

namespace Sys2Proof.Machine

theorem Dev.sendFrame_keeps {dev0 : Dev} {n : Nat} {f : List Byte} {d : Dev} (hk : Keeps dev0 d) : Keeps dev0 (Dev.sendFrame n f
    d) := by
  unfold Dev.sendFrame
  with_reducible repeat' first
    | assumption | intro _ | apply Dev.modLane_keeps | apply keeps_ite | apply keeps_ite_snd | apply keeps_each
    | apply keeps_foldl | apply keeps_each_snd | apply keeps_foldl_snd | apply keeps_id
    | refine keeps_of_eq (by assumption) ?_ | split | dsimp only

theorem Dev.laneBusy_keeps {dev0 : Dev} {n : Nat} {d : Dev} (hk : Keeps dev0 d) : Keeps dev0 (Dev.laneBusy n d) := by
  unfold Dev.laneBusy
  with_reducible repeat' first
    | assumption | intro _ | apply Dev.modLane_keeps | apply keeps_ite | apply keeps_ite_snd | apply keeps_each
    | apply keeps_foldl | apply keeps_each_snd | apply keeps_foldl_snd | apply keeps_id
    | refine keeps_of_eq (by assumption) ?_ | split | dsimp only

theorem Dev.laneTrain_keeps {dev0 : Dev} {n : Nat} {d : Dev} (hk : Keeps dev0 d) : Keeps dev0 (Dev.laneTrain n d) := by
  unfold Dev.laneTrain
  with_reducible repeat' first
    | assumption | intro _ | apply Dev.setFld_keeps | apply Dev.modLane_keeps | apply keeps_ite | apply keeps_ite_snd
    | apply keeps_each | apply keeps_foldl | apply keeps_each_snd | apply keeps_foldl_snd | apply keeps_id
    | refine keeps_of_eq (by assumption) ?_ | split | dsimp only

theorem Dev.laneLoss_keeps {dev0 : Dev} {n : Nat} {cause : Nat} {d : Dev} (hk : Keeps dev0 d) : Keeps dev0 (Dev.laneLoss n cause
    d) := by
  unfold Dev.laneLoss
  with_reducible repeat' first
    | assumption | intro _ | apply Dev.laneTrain_keeps | apply Dev.setReg_keeps | apply Dev.raise_keeps
    | apply Dev.when_keeps | apply Dev.trip_keeps | apply keeps_ite | apply keeps_ite_snd | apply keeps_each
    | apply keeps_foldl | apply keeps_each_snd | apply keeps_foldl_snd | apply keeps_id
    | refine keeps_of_eq (by assumption) ?_ | split | dsimp only

theorem Dev.laneEnable_keeps {dev0 : Dev} {n : Nat} {en : Bool} {d : Dev} (hk : Keeps dev0 d) : Keeps dev0 (Dev.laneEnable n en
    d) := by
  unfold Dev.laneEnable
  with_reducible repeat' first
    | assumption | intro _ | apply Dev.setFld_keeps | apply Dev.setBit_keeps | apply Dev.modLane_keeps
    | apply Dev.when_keeps | apply Dev.trip_keeps | apply keeps_ite | apply keeps_ite_snd | apply keeps_each
    | apply keeps_foldl | apply keeps_each_snd | apply keeps_foldl_snd | apply keeps_id
    | refine keeps_of_eq (by assumption) ?_ | split | dsimp only

theorem execAlignmentFrameSend_keeps {n : Fin 12} {s : State} : Kept s (execAlignmentFrameSend n s) := by
  unfold execAlignmentFrameSend
  with_reducible repeat' first
    | assumption | intro _ | apply Dev.when_keeps | apply Dev.modLane_keeps | apply Dev.sendFrame_keeps | apply onDev_kept
    | apply keeps_ite | apply keeps_ite_snd | apply keeps_each | apply keeps_foldl | apply keeps_each_snd
    | apply keeps_foldl_snd | apply keeps_id | refine keeps_of_eq (by assumption) ?_ | split | dsimp only

theorem execEdgeFrameSend_keeps {n : Fin 12} {s : State} : Kept s (execEdgeFrameSend n s) := by
  unfold execEdgeFrameSend
  with_reducible repeat' first
    | assumption | intro _ | apply Dev.setReg_keeps | apply Dev.modLane_keeps | apply Dev.laneBusy_keeps
    | apply Dev.sendFrame_keeps | apply onDev_kept | apply keeps_ite | apply keeps_ite_snd | apply keeps_each
    | apply keeps_foldl | apply keeps_each_snd | apply keeps_foldl_snd | apply keeps_id
    | refine keeps_of_eq (by assumption) ?_ | split | dsimp only

theorem execEdgeFrameRepeat_keeps {n : Fin 12} {s : State} : Kept s (execEdgeFrameRepeat n s) := by
  unfold execEdgeFrameRepeat
  with_reducible repeat' first
    | assumption | intro _ | apply Dev.modLane_keeps | apply Dev.laneBusy_keeps | apply Dev.sendFrame_keeps
    | apply onDev_kept | apply keeps_ite | apply keeps_ite_snd | apply keeps_each | apply keeps_foldl | apply keeps_each_snd
    | apply keeps_foldl_snd | apply keeps_id | refine keeps_of_eq (by assumption) ?_ | split | dsimp only

theorem execEdgeSendDeadline_keeps {n : Fin 12} {s : State} : Kept s (execEdgeSendDeadline n s) := by
  unfold execEdgeSendDeadline
  with_reducible repeat' first
    | assumption | intro _ | apply Dev.laneLoss_keeps | apply Dev.raise_keeps | apply onDev_kept | apply keeps_ite
    | apply keeps_ite_snd | apply keeps_each | apply keeps_foldl | apply keeps_each_snd | apply keeps_foldl_snd
    | apply keeps_id | refine keeps_of_eq (by assumption) ?_ | split | dsimp only

theorem execStateFrameSend_keeps {n : Fin 12} {s : State} : Kept s (execStateFrameSend n s) := by
  unfold execStateFrameSend
  with_reducible repeat' first
    | assumption | exact fun _ h => h | intro _ | apply Dev.modLane_keeps | apply Dev.laneBusy_keeps
    | apply Dev.sendFrame_keeps | apply Dev.when_keeps | apply Dev.modGroup_keeps | apply onDev_kept | apply keeps_ite
    | apply keeps_ite_snd | apply keeps_each | apply keeps_foldl | apply keeps_each_snd | apply keeps_foldl_snd
    | apply keeps_id | exact ‹Group.NoShoot _› _ | refine keeps_of_eq (by assumption) ?_ | split | dsimp only

theorem execMeasurementStart_keeps {n : Fin 12} {s : State} : Kept s (execMeasurementStart n s) := by
  unfold execMeasurementStart
  with_reducible repeat' first
    | assumption | intro _ | apply Dev.when_keeps | apply Dev.modLane_keeps | apply onDev_kept | apply keeps_ite
    | apply keeps_ite_snd | apply keeps_each | apply keeps_foldl | apply keeps_each_snd | apply keeps_foldl_snd
    | apply keeps_id | refine keeps_of_eq (by assumption) ?_ | split | dsimp only

theorem execPingSend_keeps {n : Fin 12} {s : State} : Kept s (execPingSend n s) := by
  unfold execPingSend
  with_reducible repeat' first
    | assumption | intro _ | apply Dev.modLane_keeps | apply Dev.sendFrame_keeps | apply onDev_kept | apply keeps_ite
    | apply keeps_ite_snd | apply keeps_each | apply keeps_foldl | apply keeps_each_snd | apply keeps_foldl_snd
    | apply keeps_id | refine keeps_of_eq (by assumption) ?_ | split | dsimp only

theorem Dev.measureRejected_keeps {dev0 : Dev} {n : Nat} {d : Dev} (hk : Keeps dev0 d) : Keeps dev0 (Dev.measureRejected n d) :=
    by
  unfold Dev.measureRejected
  with_reducible repeat' first
    | assumption | intro _ | apply Dev.raise_keeps | apply Dev.bumpSat_keeps | apply Dev.modLane_keeps
    | apply Dev.when_keeps | apply Dev.laneLoss_keeps | apply keeps_ite | apply keeps_ite_snd | apply keeps_each
    | apply keeps_foldl | apply keeps_each_snd | apply keeps_foldl_snd | apply keeps_id
    | refine keeps_of_eq (by assumption) ?_ | split | dsimp only

theorem Dev.measureAccepted_keeps {dev0 : Dev} {n : Nat} {rtts : List Nat} {spread : Nat} {d : Dev} (hk : Keeps dev0 d) : Keeps
    dev0 (Dev.measureAccepted n rtts spread d) := by
  unfold Dev.measureAccepted
  with_reducible repeat' first
    | assumption | intro _ | apply Dev.free_keeps | apply Dev.setReg_keeps | apply Dev.raise_keeps | apply Dev.setFld_keeps
    | apply Dev.modLane_keeps | apply Dev.laneLoss_keeps | apply keeps_ite | apply keeps_ite_snd | apply keeps_each
    | apply keeps_foldl | apply keeps_each_snd | apply keeps_foldl_snd | apply keeps_id
    | refine keeps_of_eq (by assumption) ?_ | split | dsimp only

theorem Dev.invalidUp_keeps {dev0 : Dev} {n : Nat} {alignment : Bool} {d : Dev} (hk : Keeps dev0 d) : Keeps dev0 (Dev.invalidUp
    n alignment d) := by
  unfold Dev.invalidUp
  with_reducible repeat' first
    | assumption | intro _ | apply Dev.raise_keeps | apply Dev.bumpSat_keeps | apply Dev.modLane_keeps
    | apply Dev.laneLoss_keeps | apply Dev.when_keeps | apply keeps_ite | apply keeps_ite_snd | apply keeps_each
    | apply keeps_foldl | apply keeps_each_snd | apply keeps_foldl_snd | apply keeps_id
    | refine keeps_of_eq (by assumption) ?_ | split | dsimp only

theorem Dev.validUp_keeps {dev0 : Dev} {n : Nat} {d : Dev} (hk : Keeps dev0 d) : Keeps dev0 (Dev.validUp n d) := by
  unfold Dev.validUp
  with_reducible repeat' first
    | assumption | intro _ | apply Dev.modLane_keeps | apply keeps_ite | apply keeps_ite_snd | apply keeps_each
    | apply keeps_foldl | apply keeps_each_snd | apply keeps_foldl_snd | apply keeps_id
    | refine keeps_of_eq (by assumption) ?_ | split | dsimp only

theorem execPingReplyReceive_keeps {n : Fin 12} {frame : List Byte} {tap : Fin 32} {s : State} : Kept s (execPingReplyReceive n
    frame tap s) := by
  unfold execPingReplyReceive
  with_reducible repeat' first
    | assumption | intro _ | apply Dev.invalidUp_keeps | apply Dev.validUp_keeps | apply Dev.modLane_keeps
    | apply Dev.measureAccepted_keeps | apply Dev.measureRejected_keeps | apply Dev.setFld_keeps | apply onDev_kept
    | apply keeps_ite | apply keeps_ite_snd | apply keeps_each | apply keeps_foldl | apply keeps_each_snd
    | apply keeps_foldl_snd | apply keeps_id | refine keeps_of_eq (by assumption) ?_ | split | dsimp only

theorem execPingReplyTimeout_keeps {n : Fin 12} {s : State} : Kept s (execPingReplyTimeout n s) := by
  unfold execPingReplyTimeout
  with_reducible repeat' first
    | assumption | intro _ | apply Dev.measureRejected_keeps | apply Dev.modLane_keeps | apply onDev_kept | apply keeps_ite
    | apply keeps_ite_snd | apply keeps_each | apply keeps_foldl | apply keeps_each_snd | apply keeps_foldl_snd
    | apply keeps_id | refine keeps_of_eq (by assumption) ?_ | split | dsimp only

theorem execUpstreamAlignmentReceive_keeps {n : Fin 12} {frame : List Byte} {s : State} : Kept s (execUpstreamAlignmentReceive n
    frame s) := by
  unfold execUpstreamAlignmentReceive
  with_reducible repeat' first
    | assumption | intro _ | apply Dev.invalidUp_keeps | apply Dev.setReg_keeps | apply Dev.modLane_keeps
    | apply Dev.validUp_keeps | apply Dev.setFld_keeps | apply onDev_kept | apply keeps_ite | apply keeps_ite_snd
    | apply keeps_each | apply keeps_foldl | apply keeps_each_snd | apply keeps_foldl_snd | apply keeps_id
    | refine keeps_of_eq (by assumption) ?_ | split | dsimp only

theorem execUpstreamStateReceive_keeps {n : Fin 12} {frame : List Byte} {s : State} : Kept s (execUpstreamStateReceive n frame
    s) := by
  unfold execUpstreamStateReceive
  with_reducible repeat' first
    | assumption | intro _ | apply Dev.invalidUp_keeps | apply Dev.setFld_keeps | apply Dev.modLane_keeps
    | apply Dev.validUp_keeps | apply Dev.when_keeps | apply Dev.raise_keeps | apply Dev.laneLoss_keeps | apply onDev_kept
    | apply keeps_ite | apply keeps_ite_snd | apply keeps_each | apply keeps_foldl | apply keeps_each_snd
    | apply keeps_foldl_snd | apply keeps_id | refine keeps_of_eq (by assumption) ?_ | split | dsimp only

theorem execTeleFrameReceive_keeps {n : Fin 12} {frame : List Byte} {s : State} : Kept s (execTeleFrameReceive n frame s) := by
  unfold execTeleFrameReceive
  with_reducible repeat' first
    | assumption | intro _ | apply Dev.invalidUp_keeps | apply Dev.laneBusy_keeps | apply Dev.validUp_keeps
    | apply Dev.setReg_keeps | apply Dev.when_keeps | apply Dev.trip_keeps | apply onDev_kept | apply keeps_ite
    | apply keeps_ite_snd | apply keeps_each | apply keeps_foldl | apply keeps_each_snd | apply keeps_foldl_snd
    | apply keeps_id | refine keeps_of_eq (by assumption) ?_ | split | dsimp only

theorem execInvalidFrameReceive_keeps {n : Fin 12} {alignment : Bool} {s : State} : Kept s (execInvalidFrameReceive n alignment
    s) := by
  unfold execInvalidFrameReceive
  with_reducible repeat' first
    | assumption | intro _ | apply Dev.invalidUp_keeps | apply onDev_kept | apply keeps_ite | apply keeps_ite_snd
    | apply keeps_each | apply keeps_foldl | apply keeps_each_snd | apply keeps_foldl_snd | apply keeps_id
    | refine keeps_of_eq (by assumption) ?_ | split | dsimp only

theorem execLaneSilence_keeps {n : Fin 12} {s : State} : Kept s (execLaneSilence n s) := by
  unfold execLaneSilence
  with_reducible repeat' first
    | assumption | intro _ | apply Dev.when_keeps | apply Dev.laneLoss_keeps | apply onDev_kept | apply keeps_ite
    | apply keeps_ite_snd | apply keeps_each | apply keeps_foldl | apply keeps_each_snd | apply keeps_foldl_snd
    | apply keeps_id | refine keeps_of_eq (by assumption) ?_ | split | dsimp only

theorem execStateFrameTimeout_keeps {n : Fin 12} {s : State} : Kept s (execStateFrameTimeout n s) := by
  unfold execStateFrameTimeout
  with_reducible repeat' first
    | assumption | intro _ | apply Dev.when_keeps | apply Dev.laneLoss_keeps | apply onDev_kept | apply keeps_ite
    | apply keeps_ite_snd | apply keeps_each | apply keeps_foldl | apply keeps_each_snd | apply keeps_foldl_snd
    | apply keeps_id | refine keeps_of_eq (by assumption) ?_ | split | dsimp only

theorem execAlignmentMissed_keeps {n : Fin 12} {s : State} : Kept s (execAlignmentMissed n s) := by
  unfold execAlignmentMissed
  with_reducible repeat' first
    | assumption | intro _ | apply Dev.modLane_keeps | apply Dev.when_keeps | apply Dev.laneLoss_keeps | apply onDev_kept
    | apply keeps_ite | apply keeps_ite_snd | apply keeps_each | apply keeps_foldl | apply keeps_each_snd
    | apply keeps_foldl_snd | apply keeps_id | refine keeps_of_eq (by assumption) ?_ | split | dsimp only

end Sys2Proof.Machine
end

