-- ==== Sys2Proof/Laws/KeepsReset.lean ====
section
/-!
SUPPORT. What the operations of Machine/Reset.lean keep: see Keeps.lean.
-/

namespace Sys2Proof.Machine

theorem Dev.clearPages_keeps {dev0 : Dev} {ps : List Nat} {d : Dev} (hk : Keeps dev0 d) : Keeps dev0 (Dev.clearPages ps d) :=
  ⟨fun ha => (hk.wf ha).clearPages ps, hk.sig, hk.hash, hk.mac, hk.now, hk.count, hk.legs⟩

theorem Dev.loseDram_keeps {dev0 : Dev} {d : Dev} (hk : Keeps dev0 d) : Keeps dev0 (Dev.loseDram d) :=
  ⟨fun ha => (hk.wf ha).loseDram, hk.sig, hk.hash, hk.mac, hk.now, Nat.le_trans hk.count (Nat.le_add_right _ _), hk.legs⟩

theorem Dev.initDram_keeps {dev0 : Dev} {d : Dev} (hk : Keeps dev0 d) : Keeps dev0 (Dev.initDram d) := by
  unfold Dev.initDram
  with_reducible repeat' first
    | assumption | intro _ | apply Dev.putReset_keeps | apply keeps_ite | apply keeps_ite_snd | apply keeps_each
    | apply keeps_foldl | apply keeps_each_snd | apply keeps_foldl_snd | apply keeps_id
    | refine keeps_of_eq (by assumption) ?_ | split | dsimp only

theorem Dev.holdPads_keeps {dev0 : Dev} {d : Dev} (hk : Keeps dev0 d) : Keeps dev0 (Dev.holdPads d) := by
  unfold Dev.holdPads
  with_reducible repeat' first
    | assumption | intro _ | apply Dev.putPadHeld_keeps | apply keeps_ite | apply keeps_ite_snd | apply keeps_each
    | apply keeps_foldl | apply keeps_each_snd | apply keeps_foldl_snd | apply keeps_id
    | refine keeps_of_eq (by assumption) ?_ | split | dsimp only

theorem Dev.clearConversions_keeps {dev0 : Dev} {d : Dev} (hk : Keeps dev0 d) : Keeps dev0 (Dev.clearConversions d) := keeps_mk
    hk

theorem Dev.clearPlaneParts_keeps {dev0 : Dev} {padHeld : List (Nat × Word)} {d : Dev} (hk : Keeps dev0 d) : Keeps dev0
    (Dev.clearPlaneParts padHeld d) := keeps_mk hk

theorem Dev.clearPlane_keeps {dev0 : Dev} {d : Dev} (hk : Keeps dev0 d) : Keeps dev0 (Dev.clearPlane d) := by
  unfold Dev.clearPlane
  with_reducible repeat' first
    | assumption | intro _ | apply Dev.holdPads_keeps | apply Dev.clearPlaneParts_keeps | apply Dev.clearPages_keeps
    | apply Dev.setBit_keeps | apply keeps_ite | apply keeps_ite_snd | apply keeps_each | apply keeps_foldl
    | apply keeps_each_snd | apply keeps_foldl_snd | apply keeps_id | refine keeps_of_eq (by assumption) ?_ | split
    | dsimp only

theorem Dev.abortLoad_keeps {dev0 : Dev} {d : Dev} (hk : Keeps dev0 d) : Keeps dev0 (Dev.abortLoad d) := by
  unfold Dev.abortLoad
  with_reducible repeat' first
    | assumption | intro _ | apply Dev.putLoader_keeps | apply Dev.setFld_keeps | apply Dev.setBit_keeps
    | apply Dev.raise_keeps | apply keeps_ite | apply keeps_ite_snd | apply keeps_each | apply keeps_foldl
    | apply keeps_each_snd | apply keeps_foldl_snd | apply keeps_id | refine keeps_of_eq (by assumption) ?_ | split
    | dsimp only

theorem Dev.clearData_keeps {dev0 : Dev} {d : Dev} (hk : Keeps dev0 d) : Keeps dev0 (Dev.clearData d) := by
  refine ⟨hk.wf, hk.sig, hk.hash, hk.mac, hk.now, hk.count, fun q g => ?_⟩
  show Group.NoShoot (vget ({} : Group) (d.groups.map _) g)
  rw [vget_map (x := ({} : Group)) (y := ({} : Group)) (fun x : Group => ({ legs := x.legs.map (fun l => { onH := l.onH, onL := l.onL, offAt := l.offAt, hist := l.hist }) } : Group)) (by simp)]
  exact noShoot_clear (hk.legs q g)

theorem Dev.warmSloe_keeps {dev0 : Dev} {d : Dev} (hk : Keeps dev0 d) : Keeps dev0 (Dev.warmSloe d) := by
  unfold Dev.warmSloe
  with_reducible repeat' first
    | assumption | intro _ | apply Dev.closeSession_keeps | apply Dev.setBit_keeps | apply Dev.permitUpdate_keeps
    | apply Dev.modSloe_keeps | apply keeps_ite | apply keeps_ite_snd | apply keeps_each | apply keeps_foldl
    | apply keeps_each_snd | apply keeps_foldl_snd | apply keeps_id | refine keeps_of_eq (by assumption) ?_ | split
    | dsimp only

theorem Dev.clearWarm_keeps {dev0 : Dev} {d : Dev} (hk : Keeps dev0 d) : Keeps dev0 (Dev.clearWarm d) := by
  unfold Dev.clearWarm
  with_reducible repeat' first
    | assumption | intro _ | apply Dev.holdPins_keeps | apply Dev.putLanes_keeps | apply Dev.clearPlane_keeps
    | apply Dev.warmSloe_keeps | apply Dev.clearData_keeps | apply Dev.clearPages_keeps | apply keeps_ite
    | apply keeps_ite_snd | apply keeps_each | apply keeps_foldl | apply keeps_each_snd | apply keeps_foldl_snd
    | apply keeps_id | refine keeps_of_eq (by assumption) ?_ | split | dsimp only

theorem Dev.clearRegs_keeps {dev0 : Dev} {d : Dev} (hk : Keeps dev0 d) : Keeps dev0 (Dev.clearRegs d) :=
  ⟨fun ha => ⟨rfl, rfl, (hk.wf ha).2.2⟩, hk.sig, hk.hash, hk.mac, hk.now, hk.count, hk.legs⟩

theorem Dev.clearAon_keeps {dev0 : Dev} {d : Dev} (hk : Keeps dev0 d) : Keeps dev0 (Dev.clearAon d) :=
  ⟨hk.wf, hk.sig, hk.hash, hk.mac, hk.now, hk.count, fun _ => noShoot_fresh⟩

theorem Dev.clearCold_keeps {dev0 : Dev} {d : Dev} (hk : Keeps dev0 d) : Keeps dev0 (Dev.clearCold d) := by
  unfold Dev.clearCold
  with_reducible repeat' first
    | assumption | intro _ | apply Dev.clearAon_keeps | apply Dev.clearRegs_keeps | apply Dev.clearData_keeps
    | apply Dev.initDram_keeps | apply Dev.loseDram_keeps | apply Dev.clearPlane_keeps | apply keeps_ite
    | apply keeps_ite_snd | apply keeps_each | apply keeps_foldl | apply keeps_each_snd | apply keeps_foldl_snd
    | apply keeps_id | refine keeps_of_eq (by assumption) ?_ | split | dsimp only

theorem Dev.dramLoss_keeps {dev0 : Dev} {d : Dev} (hk : Keeps dev0 d) : Keeps dev0 (Dev.dramLoss d) := by
  unfold Dev.dramLoss
  with_reducible repeat' first
    | assumption | intro _ | apply Dev.initDram_keeps | apply Dev.loseDram_keeps | apply Dev.putReset_keeps
    | apply keeps_ite | apply keeps_ite_snd | apply keeps_each | apply keeps_foldl | apply keeps_each_snd
    | apply keeps_foldl_snd | apply keeps_id | refine keeps_of_eq (by assumption) ?_ | split | dsimp only

theorem Dev.enterSelfRefresh_keeps {dev0 : Dev} {d : Dev} (hk : Keeps dev0 d) : Keeps dev0 (Dev.enterSelfRefresh d) := by
  unfold Dev.enterSelfRefresh
  with_reducible repeat' first
    | assumption | intro _ | apply Dev.dramLoss_keeps | apply keeps_ite | apply keeps_ite_snd | apply keeps_each
    | apply keeps_foldl | apply keeps_each_snd | apply keeps_foldl_snd | apply keeps_id
    | refine keeps_of_eq (by assumption) ?_ | split | dsimp only

theorem Dev.holdReach_keeps {dev0 : Dev} {r : Reach} {d : Dev} (hk : Keeps dev0 d) : Keeps dev0 (Dev.holdReach r d) := by
  unfold Dev.holdReach
  with_reducible repeat' first
    | assumption | intro _ | apply Dev.putReset_keeps | apply keeps_ite | apply keeps_ite_snd | apply keeps_each
    | apply keeps_foldl | apply keeps_each_snd | apply keeps_foldl_snd | apply keeps_id
    | refine keeps_of_eq (by assumption) ?_ | split | dsimp only

theorem Dev.assertSource_keeps {dev0 : Dev} {src : Source} {r : Reach} {d : Dev} (hk : Keeps dev0 d) : Keeps dev0
    (Dev.assertSource src r d) := by
  unfold Dev.assertSource
  with_reducible repeat' first
    | assumption | intro _ | apply Dev.putReset_keeps | apply Dev.when_keeps | apply Dev.closeSession_keeps
    | apply Dev.clearPlane_keeps | apply Dev.abortLoad_keeps | apply Dev.clearWarm_keeps | apply Dev.clearCold_keeps
    | apply Dev.enterSelfRefresh_keeps | apply Dev.holdReach_keeps | apply keeps_ite | apply keeps_ite_snd
    | apply keeps_each | apply keeps_foldl | apply keeps_each_snd | apply keeps_foldl_snd | apply keeps_id
    | refine keeps_of_eq (by assumption) ?_ | split | dsimp only

theorem Dev.releaseSource_keeps {dev0 : Dev} {src : Source} {d : Dev} (hk : Keeps dev0 d) : Keeps dev0 (Dev.releaseSource src d)
    := by
  unfold Dev.releaseSource
  with_reducible repeat' first
    | assumption | intro _ | apply Dev.putReset_keeps | apply keeps_ite | apply keeps_ite_snd | apply keeps_each
    | apply keeps_foldl | apply keeps_each_snd | apply keeps_foldl_snd | apply keeps_id
    | refine keeps_of_eq (by assumption) ?_ | split | dsimp only

theorem Dev.releasePage_keeps {dev0 : Dev} {page : Nat} {d : Dev} (hk : Keeps dev0 d) : Keeps dev0 (Dev.releasePage page d) :=
    by
  unfold Dev.releasePage
  with_reducible repeat' first
    | assumption | intro _ | apply Dev.putReset_keeps | apply Dev.setBit_keeps | apply keeps_ite | apply keeps_ite_snd
    | apply keeps_each | apply keeps_foldl | apply keeps_each_snd | apply keeps_foldl_snd | apply keeps_id
    | refine keeps_of_eq (by assumption) ?_ | split | dsimp only

theorem Dev.afterRelease_keeps {dev0 : Dev} {d : Dev} (hk : Keeps dev0 d) : Keeps dev0 (Dev.afterRelease d) := by
  unfold Dev.afterRelease
  with_reducible repeat' first
    | assumption | intro _ | apply Dev.evaluate_keeps | apply keeps_ite | apply keeps_ite_snd | apply keeps_each
    | apply keeps_foldl | apply keeps_each_snd | apply keeps_foldl_snd | apply keeps_id
    | refine keeps_of_eq (by assumption) ?_ | split | dsimp only

theorem execReleaseSequence_keeps {s : State} : Kept s (execReleaseSequence s) := by
  unfold execReleaseSequence
  with_reducible repeat' first
    | assumption | intro _ | apply Dev.putReset_keeps | apply Dev.releasePage_keeps | apply onDev_kept | apply keeps_ite
    | apply keeps_ite_snd | apply keeps_each | apply keeps_foldl | apply keeps_each_snd | apply keeps_foldl_snd
    | apply keeps_id | refine keeps_of_eq (by assumption) ?_ | split | dsimp only

theorem Dev.initMemories_keeps {dev0 : Dev} {d : Dev} (hk : Keeps dev0 d) : Keeps dev0 (Dev.initMemories d) :=
  ⟨fun ha => (hk.wf ha).initMemories, hk.sig, hk.hash, hk.mac, hk.now, hk.count, hk.legs⟩

theorem Dev.endEpisode_keeps {dev0 : Dev} {reach : Reach} {d : Dev} (hk : Keeps dev0 d) : Keeps dev0 (Dev.endEpisode reach d) :=
    by
  unfold Dev.endEpisode
  with_reducible repeat' first
    | assumption | intro _ | apply Dev.setReg_keeps | apply Dev.bumpSat_keeps | apply Dev.when_keeps | apply Dev.raise_keeps
    | apply Dev.putReset_keeps | apply keeps_ite | apply keeps_ite_snd | apply keeps_each | apply keeps_foldl
    | apply keeps_each_snd | apply keeps_foldl_snd | apply keeps_id | refine keeps_of_eq (by assumption) ?_ | split
    | dsimp only

theorem Dev.romStart_keeps {dev0 : Dev} {d : Dev} (hk : Keeps dev0 d) : Keeps dev0 (Dev.romStart d) := by
  unfold Dev.romStart
  with_reducible repeat' first
    | assumption | intro _ | apply Dev.putRomAt_keeps | apply Dev.setReg_keeps | apply Dev.raise_keeps
    | apply Dev.setBit_keeps | apply Dev.setFld_keeps | apply keeps_ite | apply keeps_ite_snd | apply keeps_each
    | apply keeps_foldl | apply keeps_each_snd | apply keeps_foldl_snd | apply keeps_id
    | refine keeps_of_eq (by assumption) ?_ | split | dsimp only

theorem Dev.romAfter_keeps {dev0 : Dev} {old : Dev} {d : Dev} (hk : Keeps dev0 d) : Keeps dev0 (Dev.romAfter old d) := by
  unfold Dev.romAfter
  with_reducible repeat' first
    | assumption | intro _ | apply Dev.when_keeps | apply Dev.romStart_keeps | apply keeps_ite | apply keeps_ite_snd
    | apply keeps_each | apply keeps_foldl | apply keeps_each_snd | apply keeps_foldl_snd | apply keeps_id
    | refine keeps_of_eq (by assumption) ?_ | split | dsimp only

theorem execMemoryInitDone_keeps {s : State} : Kept s (execMemoryInitDone s) := by
  unfold execMemoryInitDone
  with_reducible repeat' first
    | assumption | intro _ | apply Dev.when_keeps | apply Dev.initMemories_keeps | apply Dev.afterRelease_keeps
    | apply Dev.romAfter_keeps | apply Dev.endEpisode_keeps | apply Dev.releasePage_keeps | apply onDev_kept
    | apply keeps_ite | apply keeps_ite_snd | apply keeps_each | apply keeps_foldl | apply keeps_each_snd
    | apply keeps_foldl_snd | apply keeps_id | refine keeps_of_eq (by assumption) ?_ | split | dsimp only

theorem Dev.zeroDram_keeps {dev0 : Dev} {d : Dev} (hk : Keeps dev0 d) : Keeps dev0 (Dev.zeroDram d) :=
  ⟨fun ha => (hk.wf ha).zeroDram, hk.sig, hk.hash, hk.mac, hk.now, hk.count, hk.legs⟩

theorem execDramInitDone_keeps {s : State} : Kept s (execDramInitDone s) := by
  unfold execDramInitDone
  with_reducible repeat' first
    | assumption | intro _ | apply Dev.putReset_keeps | apply Dev.zeroDram_keeps | apply Dev.setFld_keeps | apply onDev_kept
    | apply keeps_ite | apply keeps_ite_snd | apply keeps_each | apply keeps_foldl | apply keeps_each_snd
    | apply keeps_foldl_snd | apply keeps_id | refine keeps_of_eq (by assumption) ?_ | split | dsimp only

theorem execSelfRefreshTimeout_keeps {s : State} : Kept s (execSelfRefreshTimeout s) := by
  unfold execSelfRefreshTimeout
  with_reducible repeat' first
    | assumption | intro _ | apply Dev.dramLoss_keeps | apply onDev_kept | apply keeps_ite | apply keeps_ite_snd
    | apply keeps_each | apply keeps_foldl | apply keeps_each_snd | apply keeps_foldl_snd | apply keeps_id
    | refine keeps_of_eq (by assumption) ?_ | split | dsimp only

theorem execPorstPin_keeps {lowNs : Nat} {s : State} : Kept s (execPorstPin lowNs s) := by
  unfold execPorstPin
  with_reducible repeat' first
    | assumption | intro _ | apply Dev.when_keeps | apply Dev.assertSource_keeps | apply onDev_kept | apply keeps_ite
    | apply keeps_ite_snd | apply keeps_each | apply keeps_foldl | apply keeps_each_snd | apply keeps_foldl_snd
    | apply keeps_id | refine keeps_of_eq (by assumption) ?_ | split | dsimp only

theorem execResetPin_keeps {lowNs : Nat} {s : State} : Kept s (execResetPin lowNs s) := by
  unfold execResetPin
  with_reducible repeat' first
    | assumption | intro _ | apply Dev.when_keeps | apply Dev.assertSource_keeps | apply onDev_kept | apply keeps_ite
    | apply keeps_ite_snd | apply keeps_each | apply keeps_foldl | apply keeps_each_snd | apply keeps_foldl_snd
    | apply keeps_id | refine keeps_of_eq (by assumption) ?_ | split | dsimp only

theorem execBallSourceRelease_keeps {src : Source} {s : State} : Kept s (execBallSourceRelease src s) := by
  unfold execBallSourceRelease
  with_reducible repeat' first
    | assumption | intro _ | apply Dev.when_keeps | apply Dev.releaseSource_keeps | apply onDev_kept | apply keeps_ite
    | apply keeps_ite_snd | apply keeps_each | apply keeps_foldl | apply keeps_each_snd | apply keeps_foldl_snd
    | apply keeps_id | refine keeps_of_eq (by assumption) ?_ | split | dsimp only

theorem Dev.swrstOp_keeps {dev0 : Dev} {v : Word} {d : Dev} (hk : Keeps dev0 d) : Keeps dev0 (Dev.swrstOp v d) := by
  unfold Dev.swrstOp
  with_reducible repeat' first
    | assumption | intro _ | apply Dev.assertSource_keeps | apply keeps_ite | apply keeps_ite_snd | apply keeps_each
    | apply keeps_foldl | apply keeps_each_snd | apply keeps_foldl_snd | apply keeps_id
    | refine keeps_of_eq (by assumption) ?_ | split | dsimp only

theorem execSwrstCold_keeps {m : Master} {alsoWarm : Bool} {s : State} : Kept s (execSwrstCold m alsoWarm s) := by
  unfold execSwrstCold
  with_reducible repeat' first
    | assumption | intro _ | apply Dev.accessWrite_keeps | apply Dev.swrstOp_keeps | apply onDev_kept | apply keeps_ite
    | apply keeps_ite_snd | apply keeps_each | apply keeps_foldl | apply keeps_each_snd | apply keeps_foldl_snd
    | apply keeps_id | refine keeps_of_eq (by assumption) ?_ | split | dsimp only

theorem execSwrstWarm_keeps {m : Master} {s : State} : Kept s (execSwrstWarm m s) := by
  unfold execSwrstWarm
  with_reducible repeat' first
    | assumption | intro _ | apply Dev.accessWrite_keeps | apply Dev.swrstOp_keeps | apply onDev_kept | apply keeps_ite
    | apply keeps_ite_snd | apply keeps_each | apply keeps_foldl | apply keeps_each_snd | apply keeps_foldl_snd
    | apply keeps_id | refine keeps_of_eq (by assumption) ?_ | split | dsimp only

theorem execSoftwareSourceRelease_keeps {src : Source} {s : State} : Kept s (execSoftwareSourceRelease src s) := by
  unfold execSoftwareSourceRelease
  with_reducible repeat' first
    | assumption | intro _ | apply Dev.when_keeps | apply Dev.releaseSource_keeps | apply onDev_kept | apply keeps_ite
    | apply keeps_ite_snd | apply keeps_each | apply keeps_foldl | apply keeps_each_snd | apply keeps_foldl_snd
    | apply keeps_id | refine keeps_of_eq (by assumption) ?_ | split | dsimp only

theorem execInternalSourceRelease_keeps {src : Source} {s : State} : Kept s (execInternalSourceRelease src s) := by
  unfold execInternalSourceRelease
  with_reducible repeat' first
    | assumption | intro _ | apply Dev.when_keeps | apply Dev.releaseSource_keeps | apply onDev_kept | apply keeps_ite
    | apply keeps_ite_snd | apply keeps_each | apply keeps_foldl | apply keeps_each_snd | apply keeps_foldl_snd
    | apply keeps_id | refine keeps_of_eq (by assumption) ?_ | split | dsimp only

theorem Dev.noteBlock_keeps {dev0 : Dev} {src : Nat} {page : Nat} {d : Dev} (hk : Keeps dev0 d) : Keeps dev0 (Dev.noteBlock src
    page d) := by
  unfold Dev.noteBlock
  with_reducible repeat' first
    | assumption | intro _ | apply Dev.setReg_keeps | apply keeps_ite | apply keeps_ite_snd | apply keeps_each
    | apply keeps_foldl | apply keeps_each_snd | apply keeps_foldl_snd | apply keeps_id
    | refine keeps_of_eq (by assumption) ?_ | split | dsimp only

theorem Dev.beforeBlock_keeps {dev0 : Dev} {page : Nat} {d : Dev} (hk : Keeps dev0 d) : Keeps dev0 (Dev.beforeBlock page d) :=
    by
  unfold Dev.beforeBlock
  with_reducible repeat' first
    | assumption | intro _ | apply Dev.trip_keeps | apply Dev.setGstate_keeps | apply Dev.holdPins_keeps
    | apply Dev.laneEnable_keeps | apply keeps_ite | apply keeps_ite_snd | apply keeps_each | apply keeps_foldl
    | apply keeps_each_snd | apply keeps_foldl_snd | apply keeps_id | refine keeps_of_eq (by assumption) ?_ | split
    | dsimp only

theorem Dev.clearMedlar_keeps {dev0 : Dev} {d : Dev} (hk : Keeps dev0 d) : Keeps dev0 (Dev.clearMedlar d) := by
  unfold Dev.clearMedlar
  with_reducible repeat' first
    | assumption | intro _ | apply Dev.putMgmt_keeps | apply Dev.putCanopen_keeps | apply Dev.putNet_keeps | apply keeps_ite
    | apply keeps_ite_snd | apply keeps_each | apply keeps_foldl | apply keeps_each_snd | apply keeps_foldl_snd
    | apply keeps_id | refine keeps_of_eq (by assumption) ?_ | split | dsimp only

theorem Dev.clearBlockState_keeps {dev0 : Dev} {page : Nat} {d : Dev} (hk : Keeps dev0 d) : Keeps dev0 (Dev.clearBlockState page
    d) := by
  unfold Dev.clearBlockState
  with_reducible repeat' first
    | assumption | exact fun _ h => h | exact fun _ => noShoot_clear | intro _ | apply Dev.modEngine_keeps
    | apply Dev.modGroup_keeps | apply Dev.putSyncOutAt_keeps | apply Dev.putTripIn_keeps | apply Dev.modLane_keeps
    | apply Dev.putRomAt_keeps | apply Dev.clearMedlar_keeps | apply Dev.putConv_keeps | apply Dev.cmpConfigured_keeps
    | apply Dev.sdConfigured_keeps | apply Dev.clearConversions_keeps | apply Dev.putAcc_keeps | apply Dev.putMmx_keeps
    | apply Dev.brakeUpdate_keeps | apply Dev.putCmps_keeps | apply Dev.modSd_keeps | apply Dev.modPf_keeps
    | apply Dev.modMc_keeps | apply Dev.modCtl_keeps | apply Dev.triadHold_keeps | apply Dev.putHost_keeps
    | apply Dev.putNet_keeps | apply Dev.putCapture_keeps | apply Dev.putLoader_keeps | apply keeps_ite
    | apply keeps_ite_snd | apply keeps_each | apply keeps_foldl | apply keeps_each_snd | apply keeps_foldl_snd
    | apply keeps_id | exact ‹Group.NoShoot _› _ | refine keeps_of_eq (by assumption) ?_ | split | dsimp only

theorem Dev.clearAgain_keeps {dev0 : Dev} {d : Dev} (hk : Keeps dev0 d) : Keeps dev0 (Dev.clearAgain d) := by
  unfold Dev.clearAgain
  with_reducible repeat' first
    | assumption | intro _ | apply Dev.clearPlane_keeps | apply Dev.clearWarm_keeps | apply keeps_ite | apply keeps_ite_snd
    | apply keeps_each | apply keeps_foldl | apply keeps_each_snd | apply keeps_foldl_snd | apply keeps_id
    | refine keeps_of_eq (by assumption) ?_ | split | dsimp only

theorem Dev.joinEpisode_keeps {dev0 : Dev} {page : Nat} {d : Dev} (hk : Keeps dev0 d) : Keeps dev0 (Dev.joinEpisode page d) :=
    by
  unfold Dev.joinEpisode
  with_reducible repeat' first
    | assumption | intro _ | apply Dev.holdReach_keeps | apply Dev.clearAgain_keeps | apply keeps_ite | apply keeps_ite_snd
    | apply keeps_each | apply keeps_foldl | apply keeps_each_snd | apply keeps_foldl_snd | apply keeps_id
    | refine keeps_of_eq (by assumption) ?_ | split | dsimp only

theorem Dev.clearBlockPage_keeps {dev0 : Dev} {page : Nat} {d : Dev} (hk : Keeps dev0 d) : Keeps dev0 (Dev.clearBlockPage page
    d) := by
  unfold Dev.clearBlockPage
  with_reducible repeat' first
    | assumption | intro _ | apply Dev.holdPads_keeps | apply Dev.clearBlockState_keeps | apply Dev.clearPages_keeps
    | apply Dev.setBit_keeps | apply Dev.putPadHeld_keeps | apply keeps_ite | apply keeps_ite_snd | apply keeps_each
    | apply keeps_foldl | apply keeps_each_snd | apply keeps_foldl_snd | apply keeps_id
    | refine keeps_of_eq (by assumption) ?_ | split | dsimp only

theorem Dev.blockReset_keeps {dev0 : Dev} {src : Nat} {page : Nat} {d : Dev} (hk : Keeps dev0 d) : Keeps dev0 (Dev.blockReset
    src page d) := by
  unfold Dev.blockReset
  with_reducible repeat' first
    | assumption | intro _ | apply Dev.beforeBlock_keeps | apply Dev.noteBlock_keeps | apply Dev.clearBlockPage_keeps
    | apply Dev.setFld_keeps | apply Dev.when_keeps | apply Dev.resolveOwners_keeps | apply Dev.joinEpisode_keeps
    | apply Dev.putReset_keeps | apply keeps_ite | apply keeps_ite_snd | apply keeps_each | apply keeps_foldl
    | apply keeps_each_snd | apply keeps_foldl_snd | apply keeps_id | refine keeps_of_eq (by assumption) ?_ | split
    | dsimp only

theorem Dev.srstOp_keeps {dev0 : Dev} {m : Master} {page : Nat} {d : Dev} (hk : Keeps dev0 d) : Keeps dev0 (Dev.srstOp m page d)
    := by
  unfold Dev.srstOp
  with_reducible repeat' first
    | assumption | intro _ | apply Dev.discard_keeps | apply Dev.blockReset_keeps | apply keeps_ite | apply keeps_ite_snd
    | apply keeps_each | apply keeps_foldl | apply keeps_each_snd | apply keeps_foldl_snd | apply keeps_id
    | refine keeps_of_eq (by assumption) ?_ | split | dsimp only

theorem execBlockResetRelease_keeps {page : Nat} {s : State} : Kept s (execBlockResetRelease page s) := by
  unfold execBlockResetRelease
  with_reducible repeat' first
    | assumption | intro _ | apply Dev.putReset_keeps | apply Dev.romAfter_keeps | apply Dev.releasePage_keeps
    | apply onDev_kept | apply keeps_ite | apply keeps_ite_snd | apply keeps_each | apply keeps_foldl | apply keeps_each_snd
    | apply keeps_foldl_snd | apply keeps_id | refine keeps_of_eq (by assumption) ?_ | split | dsimp only

theorem Dev.changeSupplies_keeps {dev0 : Dev} {dip : Bool} {x : Supplies} {d : Dev} (hk : Keeps dev0 d) : Keeps dev0
    (Dev.changeSupplies dip x d) := by
  unfold Dev.changeSupplies
  with_reducible repeat' first
    | assumption | intro _ | apply Dev.putSupplies_keeps | apply keeps_ite | apply keeps_ite_snd | apply keeps_each
    | apply keeps_foldl | apply keeps_each_snd | apply keeps_foldl_snd | apply keeps_id
    | refine keeps_of_eq (by assumption) ?_ | split | dsimp only

theorem Dev.supplyFall_keeps {dev0 : Dev} {r : Rail} {mv : Nat} {d : Dev} (hk : Keeps dev0 d) : Keeps dev0 (Dev.supplyFall r mv
    d) := by
  unfold Dev.supplyFall
  with_reducible repeat' first
    | assumption | intro _ | apply Dev.changeSupplies_keeps | apply keeps_ite | apply keeps_ite_snd | apply keeps_each
    | apply keeps_foldl | apply keeps_each_snd | apply keeps_foldl_snd | apply keeps_id
    | refine keeps_of_eq (by assumption) ?_ | split | dsimp only

theorem Dev.supplyRise_keeps {dev0 : Dev} {r : Rail} {mv : Nat} {d : Dev} (hk : Keeps dev0 d) : Keeps dev0 (Dev.supplyRise r mv
    d) := by
  unfold Dev.supplyRise
  with_reducible repeat' first
    | assumption | intro _ | apply Dev.changeSupplies_keeps | apply keeps_ite | apply keeps_ite_snd | apply keeps_each
    | apply keeps_foldl | apply keeps_each_snd | apply keeps_foldl_snd | apply keeps_id
    | refine keeps_of_eq (by assumption) ?_ | split | dsimp only

theorem execSupplyBrownOut_keeps {r : Rail} {mv : Nat} {ns : Nat} {s : State} : Kept s (execSupplyBrownOut r mv ns s) := by
  unfold execSupplyBrownOut
  with_reducible repeat' first
    | assumption | intro _ | apply Dev.when_keeps | apply Dev.assertSource_keeps | apply Dev.supplyFall_keeps
    | apply onDev_kept | apply keeps_ite | apply keeps_ite_snd | apply keeps_each | apply keeps_foldl | apply keeps_each_snd
    | apply keeps_foldl_snd | apply keeps_id | refine keeps_of_eq (by assumption) ?_ | split | dsimp only

theorem execSupplyRise_keeps {r : Rail} {mv : Nat} {s : State} : Kept s (execSupplyRise r mv s) := by
  unfold execSupplyRise
  with_reducible repeat' first
    | assumption | intro _ | apply Dev.supplyRise_keeps | apply onDev_kept | apply keeps_ite | apply keeps_ite_snd
    | apply keeps_each | apply keeps_foldl | apply keeps_each_snd | apply keeps_foldl_snd | apply keeps_id
    | refine keeps_of_eq (by assumption) ?_ | split | dsimp only

theorem execVioClassTake_keeps {bank : Fin 5} {s : State} : Kept s (execVioClassTake bank s) := by
  unfold execVioClassTake
  with_reducible repeat' first
    | assumption | intro _ | apply Dev.putSupplies_keeps | apply onDev_kept | apply keeps_ite | apply keeps_ite_snd
    | apply keeps_each | apply keeps_foldl | apply keeps_each_snd | apply keeps_foldl_snd | apply keeps_id
    | refine keeps_of_eq (by assumption) ?_ | split | dsimp only

theorem execPowerOnRelease_keeps {s : State} : Kept s (execPowerOnRelease s) := by
  unfold execPowerOnRelease
  with_reducible repeat' first
    | assumption | intro _ | apply Dev.when_keeps | apply Dev.releaseSource_keeps | apply onDev_kept | apply keeps_ite
    | apply keeps_ite_snd | apply keeps_each | apply keeps_foldl | apply keeps_each_snd | apply keeps_foldl_snd
    | apply keeps_id | refine keeps_of_eq (by assumption) ?_ | split | dsimp only

theorem execVddqOutOfRange_keeps {s : State} : Kept s (execVddqOutOfRange s) := by
  unfold execVddqOutOfRange
  with_reducible repeat' first
    | assumption | intro _ | apply Dev.when_keeps | apply Dev.loseDram_keeps | apply onDev_kept | apply keeps_ite
    | apply keeps_ite_snd | apply keeps_each | apply keeps_foldl | apply keeps_each_snd | apply keeps_foldl_snd
    | apply keeps_id | refine keeps_of_eq (by assumption) ?_ | split | dsimp only

end Sys2Proof.Machine
end

