-- ==== Sys2Proof/Laws/KeepsCan.lean ====
section
/-!
SUPPORT. What the operations of Machine/Can.lean keep: see Keeps.lean.
-/

namespace Sys2Proof.Machine

theorem Dev.canQuiet_keeps {dev0 : Dev} {n : Nat} {bits : Nat} {d : Dev} (hk : Keeps dev0 d) : Keeps dev0 (Dev.canQuiet n bits
    d) := by
  unfold Dev.canQuiet
  with_reducible repeat' first
    | assumption | intro _ | apply Dev.modCtl_keeps | apply keeps_ite | apply keeps_ite_snd | apply keeps_each
    | apply keeps_foldl | apply keeps_each_snd | apply keeps_foldl_snd | apply keeps_id
    | refine keeps_of_eq (by assumption) ?_ | split | dsimp only

theorem Dev.stopReceiving_keeps {dev0 : Dev} {n : Nat} {d : Dev} (hk : Keeps dev0 d) : Keeps dev0 (Dev.stopReceiving n d) := by
  unfold Dev.stopReceiving
  with_reducible repeat' first
    | assumption | intro _ | apply Dev.setBit_keeps | apply Dev.modCtl_keeps | apply keeps_ite | apply keeps_ite_snd
    | apply keeps_each | apply keeps_foldl | apply keeps_each_snd | apply keeps_foldl_snd | apply keeps_id
    | refine keeps_of_eq (by assumption) ?_ | split | dsimp only

theorem Dev.setTxPending_keeps {dev0 : Dev} {n : Nat} {b : Nat} {v : Bool} {d : Dev} (hk : Keeps dev0 d) : Keeps dev0
    (Dev.setTxPending n b v d) := by
  unfold Dev.setTxPending
  with_reducible repeat' first
    | assumption | intro _ | apply Dev.setBit_keeps | apply keeps_ite | apply keeps_ite_snd | apply keeps_each
    | apply keeps_foldl | apply keeps_each_snd | apply keeps_foldl_snd | apply keeps_id
    | refine keeps_of_eq (by assumption) ?_ | split | dsimp only

theorem Dev.setTxAborting_keeps {dev0 : Dev} {n : Nat} {b : Nat} {v : Bool} {d : Dev} (hk : Keeps dev0 d) : Keeps dev0
    (Dev.setTxAborting n b v d) := by
  unfold Dev.setTxAborting
  with_reducible repeat' first
    | assumption | intro _ | apply Dev.setBit_keeps | apply keeps_ite | apply keeps_ite_snd | apply keeps_each
    | apply keeps_foldl | apply keeps_each_snd | apply keeps_foldl_snd | apply keeps_id
    | refine keeps_of_eq (by assumption) ?_ | split | dsimp only

theorem Dev.setRxFull_keeps {dev0 : Dev} {n : Nat} {b : Nat} {v : Bool} {d : Dev} (hk : Keeps dev0 d) : Keeps dev0
    (Dev.setRxFull n b v d) := by
  unfold Dev.setRxFull
  with_reducible repeat' first
    | assumption | intro _ | apply Dev.setBit_keeps | apply keeps_ite | apply keeps_ite_snd | apply keeps_each
    | apply keeps_foldl | apply keeps_each_snd | apply keeps_foldl_snd | apply keeps_id
    | refine keeps_of_eq (by assumption) ?_ | split | dsimp only

theorem Dev.setBuf_keeps {dev0 : Dev} {n : Nat} {b : Nat} {x : CanBuf} {d : Dev} (hk : Keeps dev0 d) : Keeps dev0 (Dev.setBuf n
    b x d) := by
  unfold Dev.setBuf
  with_reducible repeat' first
    | assumption | intro _ | apply Dev.modCtl_keeps | apply keeps_ite | apply keeps_ite_snd | apply keeps_each
    | apply keeps_foldl | apply keeps_each_snd | apply keeps_foldl_snd | apply keeps_id
    | refine keeps_of_eq (by assumption) ?_ | split | dsimp only

theorem Dev.setShadow_keeps {dev0 : Dev} {n : Nat} {b : Nat} {x : Option CanBuf} {d : Dev} (hk : Keeps dev0 d) : Keeps dev0
    (Dev.setShadow n b x d) := by
  unfold Dev.setShadow
  with_reducible repeat' first
    | assumption | intro _ | apply Dev.modCtl_keeps | apply Dev.setBit_keeps | apply keeps_ite | apply keeps_ite_snd
    | apply keeps_each | apply keeps_foldl | apply keeps_each_snd | apply keeps_foldl_snd | apply keeps_id
    | refine keeps_of_eq (by assumption) ?_ | split | dsimp only

theorem Dev.bufRoleChange_keeps {dev0 : Dev} {n : Nat} {b : Nat} {d : Dev} (hk : Keeps dev0 d) : Keeps dev0 (Dev.bufRoleChange n
    b d) := by
  unfold Dev.bufRoleChange
  with_reducible repeat' first
    | assumption | intro _ | apply Dev.bumpGen_keeps | apply Dev.setFld_keeps | apply keeps_ite | apply keeps_ite_snd
    | apply keeps_each | apply keeps_foldl | apply keeps_each_snd | apply keeps_foldl_snd | apply keeps_id
    | refine keeps_of_eq (by assumption) ?_ | split | dsimp only

theorem Dev.setBufCfg_keeps {dev0 : Dev} {n : Nat} {b : Nat} {v : Word} {d : Dev} (hk : Keeps dev0 d) : Keeps dev0
    (Dev.setBufCfg n b v d) := by
  unfold Dev.setBufCfg
  with_reducible repeat' first
    | assumption | intro _ | apply Dev.when_keeps | apply Dev.bufRoleChange_keeps | apply Dev.setReg_keeps | apply keeps_ite
    | apply keeps_ite_snd | apply keeps_each | apply keeps_foldl | apply keeps_each_snd | apply keeps_foldl_snd
    | apply keeps_id | refine keeps_of_eq (by assumption) ?_ | split | dsimp only

theorem Dev.rxEvent_keeps {dev0 : Dev} {n : Nat} {b : Nat} {d : Dev} (hk : Keeps dev0 d) : Keeps dev0 (Dev.rxEvent n b d) := by
  unfold Dev.rxEvent
  with_reducible repeat' first
    | assumption | intro _ | apply Dev.raise_keeps | apply keeps_ite | apply keeps_ite_snd | apply keeps_each
    | apply keeps_foldl | apply keeps_each_snd | apply keeps_foldl_snd | apply keeps_id
    | refine keeps_of_eq (by assumption) ?_ | split | dsimp only

theorem Dev.rxLost_keeps {dev0 : Dev} {n : Nat} {b : Nat} {d : Dev} (hk : Keeps dev0 d) : Keeps dev0 (Dev.rxLost n b d) := by
  unfold Dev.rxLost
  with_reducible repeat' first
    | assumption | intro _ | apply Dev.bumpSat_keeps | apply Dev.raise_keeps | apply Dev.when_keeps | apply keeps_ite
    | apply keeps_ite_snd | apply keeps_each | apply keeps_foldl | apply keeps_each_snd | apply keeps_foldl_snd
    | apply keeps_id | refine keeps_of_eq (by assumption) ?_ | split | dsimp only

theorem Dev.noteRx_keeps {dev0 : Dev} {n : Nat} {b : Nat} {x : CanBuf} {d : Dev} (hk : Keeps dev0 d) : Keeps dev0 (Dev.noteRx n
    b x d) := by
  unfold Dev.noteRx
  with_reducible repeat' first
    | assumption | intro _ | apply Dev.modCtl_keeps | apply keeps_ite | apply keeps_ite_snd | apply keeps_each
    | apply keeps_foldl | apply keeps_each_snd | apply keeps_foldl_snd | apply keeps_id
    | refine keeps_of_eq (by assumption) ?_ | split | dsimp only

theorem Dev.storeFrame_keeps {dev0 : Dev} {n : Nat} {b : Nat} {x : CanBuf} {d : Dev} (hk : Keeps dev0 d) : Keeps dev0
    (Dev.storeFrame n b x d) := by
  unfold Dev.storeFrame
  with_reducible repeat' first
    | assumption | intro _ | apply Dev.noteRx_keeps | apply Dev.rxEvent_keeps | apply Dev.setRxFull_keeps
    | apply Dev.setBuf_keeps | apply Dev.setShadow_keeps | apply Dev.rxLost_keeps | apply keeps_ite | apply keeps_ite_snd
    | apply keeps_each | apply keeps_foldl | apply keeps_each_snd | apply keeps_foldl_snd | apply keeps_id
    | refine keeps_of_eq (by assumption) ?_ | split | dsimp only

theorem Dev.acceptFrame_keeps {dev0 : Dev} {n : Nat} {f : CanFrame} {decided : Option CanTarget} {d : Dev} (hk : Keeps dev0 d) :
    Keeps dev0 (Dev.acceptFrame n f decided d) := by
  unfold Dev.acceptFrame
  with_reducible repeat' first
    | assumption | intro _ | apply Dev.bumpSat_keeps | apply Dev.raise_keeps | apply Dev.storeFrame_keeps | apply keeps_ite
    | apply keeps_ite_snd | apply keeps_each | apply keeps_foldl | apply keeps_each_snd | apply keeps_foldl_snd
    | apply keeps_id | refine keeps_of_eq (by assumption) ?_ | split | dsimp only

theorem Dev.resetFrame_keeps {dev0 : Dev} {n : Nat} {d : Dev} (hk : Keeps dev0 d) : Keeps dev0 (Dev.resetFrame n d) := by
  unfold Dev.resetFrame
  with_reducible repeat' first
    | assumption | intro _ | apply Dev.bumpSat_keeps | apply Dev.raise_keeps | apply Dev.assertSource_keeps
    | apply keeps_ite | apply keeps_ite_snd | apply keeps_each | apply keeps_foldl | apply keeps_each_snd
    | apply keeps_foldl_snd | apply keeps_id | refine keeps_of_eq (by assumption) ?_ | split | dsimp only

theorem Dev.setCanState_keeps {dev0 : Dev} {n : Nat} {v : Nat} {d : Dev} (hk : Keeps dev0 d) : Keeps dev0 (Dev.setCanState n v
    d) := by
  unfold Dev.setCanState
  with_reducible repeat' first
    | assumption | intro _ | apply Dev.setFld_keeps | apply keeps_ite | apply keeps_ite_snd | apply keeps_each
    | apply keeps_foldl | apply keeps_each_snd | apply keeps_foldl_snd | apply keeps_id
    | refine keeps_of_eq (by assumption) ?_ | split | dsimp only

theorem Dev.stopSending_keeps {dev0 : Dev} {n : Nat} {d : Dev} (hk : Keeps dev0 d) : Keeps dev0 (Dev.stopSending n d) := by
  unfold Dev.stopSending
  with_reducible repeat' first
    | assumption | intro _ | apply Dev.setBit_keeps | apply Dev.modCtl_keeps | apply keeps_ite | apply keeps_ite_snd
    | apply keeps_each | apply keeps_foldl | apply keeps_each_snd | apply keeps_foldl_snd | apply keeps_id
    | refine keeps_of_eq (by assumption) ?_ | split | dsimp only

theorem Dev.endRequest_keeps {dev0 : Dev} {n : Nat} {b : Nat} {result : Nat} {d : Dev} (hk : Keeps dev0 d) : Keeps dev0
    (Dev.endRequest n b result d) := by
  unfold Dev.endRequest
  with_reducible repeat' first
    | assumption | intro _ | apply Dev.setTxPending_keeps | apply Dev.setFld_keeps | apply Dev.setBit_keeps
    | apply Dev.setTxAborting_keeps | apply Dev.raise_keeps | apply keeps_ite | apply keeps_ite_snd | apply keeps_each
    | apply keeps_foldl | apply keeps_each_snd | apply keeps_foldl_snd | apply keeps_id
    | refine keeps_of_eq (by assumption) ?_ | split | dsimp only

theorem Dev.enterBusOff_keeps {dev0 : Dev} {n : Nat} {d : Dev} (hk : Keeps dev0 d) : Keeps dev0 (Dev.enterBusOff n d) := by
  unfold Dev.enterBusOff
  with_reducible repeat' first
    | assumption | intro _ | apply Dev.stopReceiving_keeps | apply Dev.setCanState_keeps | apply Dev.raise_keeps
    | apply Dev.modCtl_keeps | apply Dev.endRequest_keeps | apply Dev.when_keeps | apply Dev.stopSending_keeps
    | apply keeps_ite | apply keeps_ite_snd | apply keeps_each | apply keeps_foldl | apply keeps_each_snd
    | apply keeps_foldl_snd | apply keeps_id | refine keeps_of_eq (by assumption) ?_ | split | dsimp only

theorem Dev.canJudge_keeps {dev0 : Dev} {n : Nat} {d : Dev} (hk : Keeps dev0 d) : Keeps dev0 (Dev.canJudge n d) := by
  unfold Dev.canJudge
  with_reducible repeat' first
    | assumption | intro _ | apply Dev.enterBusOff_keeps | apply Dev.when_keeps | apply Dev.raise_keeps
    | apply Dev.setCanState_keeps | apply keeps_ite | apply keeps_ite_snd | apply keeps_each | apply keeps_foldl
    | apply keeps_each_snd | apply keeps_foldl_snd | apply keeps_id | refine keeps_of_eq (by assumption) ?_ | split
    | dsimp only

theorem Dev.recGood_keeps {dev0 : Dev} {n : Nat} {d : Dev} (hk : Keeps dev0 d) : Keeps dev0 (Dev.recGood n d) := by
  unfold Dev.recGood
  with_reducible repeat' first
    | assumption | intro _ | apply Dev.canJudge_keeps | apply Dev.setFld_keeps | apply keeps_ite | apply keeps_ite_snd
    | apply keeps_each | apply keeps_foldl | apply keeps_each_snd | apply keeps_foldl_snd | apply keeps_id
    | refine keeps_of_eq (by assumption) ?_ | split | dsimp only

theorem Dev.enterInit_keeps {dev0 : Dev} {n : Nat} {d : Dev} (hk : Keeps dev0 d) : Keeps dev0 (Dev.enterInit n d) := by
  unfold Dev.enterInit
  with_reducible repeat' first
    | assumption | intro _ | apply Dev.modCtl_keeps | apply Dev.stopReceiving_keeps | apply Dev.stopSending_keeps
    | apply Dev.setCanState_keeps | apply Dev.setFld_keeps | apply keeps_ite | apply keeps_ite_snd | apply keeps_each
    | apply keeps_foldl | apply keeps_each_snd | apply keeps_foldl_snd | apply keeps_id
    | refine keeps_of_eq (by assumption) ?_ | split | dsimp only

theorem Dev.frameOver_keeps {dev0 : Dev} {n : Nat} {bits : Nat} {d : Dev} (hk : Keeps dev0 d) : Keeps dev0 (Dev.frameOver n bits
    d) := by
  unfold Dev.frameOver
  with_reducible repeat' first
    | assumption | intro _ | apply Dev.when_keeps | apply Dev.enterInit_keeps | apply Dev.canQuiet_keeps
    | apply Dev.stopReceiving_keeps | apply keeps_ite | apply keeps_ite_snd | apply keeps_each | apply keeps_foldl
    | apply keeps_each_snd | apply keeps_foldl_snd | apply keeps_id | refine keeps_of_eq (by assumption) ?_ | split
    | dsimp only

theorem Dev.frameValid_keeps {dev0 : Dev} {n : Nat} {f : CanFrame} {t : Option CanTarget} {d : Dev} (hk : Keeps dev0 d) : Keeps
    dev0 (Dev.frameValid n f t d) := by
  unfold Dev.frameValid
  with_reducible repeat' first
    | assumption | intro _ | apply Dev.when_keeps | apply Dev.recGood_keeps | apply Dev.acceptFrame_keeps
    | apply Dev.resetFrame_keeps | apply Dev.frameOver_keeps | apply keeps_ite | apply keeps_ite_snd | apply keeps_each
    | apply keeps_foldl | apply keeps_each_snd | apply keeps_foldl_snd | apply keeps_id
    | refine keeps_of_eq (by assumption) ?_ | split | dsimp only

theorem execCanFrameReceive_keeps {n : Fin 4} {p : CanRxPhase} {f : CanFrame} {s : State} : Kept s (execCanFrameReceive n p f s)
    := by
  unfold execCanFrameReceive
  with_reducible repeat' first
    | assumption | intro _ | apply Dev.setBit_keeps | apply Dev.modCtl_keeps | apply Dev.frameValid_keeps | apply onDev_kept
    | apply keeps_ite | apply keeps_ite_snd | apply keeps_each | apply keeps_foldl | apply keeps_each_snd
    | apply keeps_foldl_snd | apply keeps_id | refine keeps_of_eq (by assumption) ?_ | split | dsimp only

theorem Dev.releaseNow_keeps {dev0 : Dev} {n : Nat} {b : Nat} {d : Dev} (hk : Keeps dev0 d) : Keeps dev0 (Dev.releaseNow n b d)
    := by
  unfold Dev.releaseNow
  with_reducible repeat' first
    | assumption | intro _ | apply Dev.rxEvent_keeps | apply Dev.setShadow_keeps | apply Dev.setBuf_keeps
    | apply Dev.setRxFull_keeps | apply keeps_ite | apply keeps_ite_snd | apply keeps_each | apply keeps_foldl
    | apply keeps_each_snd | apply keeps_foldl_snd | apply keeps_id | refine keeps_of_eq (by assumption) ?_ | split
    | dsimp only

theorem Dev.undoRx_keeps {dev0 : Dev} {n : Nat} {r : RxNote} {d : Dev} (hk : Keeps dev0 d) : Keeps dev0 (Dev.undoRx n r d) := by
  unfold Dev.undoRx
  with_reducible repeat' first
    | assumption | intro _ | apply Dev.setBit_keeps | apply Dev.setRxFull_keeps | apply Dev.setShadow_keeps
    | apply Dev.setBuf_keeps | apply Dev.setReg_keeps | apply Dev.when_keeps | apply Dev.setFld_keeps | apply keeps_ite
    | apply keeps_ite_snd | apply keeps_each | apply keeps_foldl | apply keeps_each_snd | apply keeps_foldl_snd
    | apply keeps_id | refine keeps_of_eq (by assumption) ?_ | split | dsimp only

theorem Dev.releaseBuf_keeps {dev0 : Dev} {n : Nat} {b : Nat} {d : Dev} (hk : Keeps dev0 d) : Keeps dev0 (Dev.releaseBuf n b d)
    := by
  unfold Dev.releaseBuf
  with_reducible repeat' first
    | assumption | intro _ | apply Dev.storeFrame_keeps | apply Dev.releaseNow_keeps | apply Dev.undoRx_keeps
    | apply keeps_ite | apply keeps_ite_snd | apply keeps_each | apply keeps_foldl | apply keeps_each_snd
    | apply keeps_foldl_snd | apply keeps_id | refine keeps_of_eq (by assumption) ?_ | split | dsimp only

theorem Dev.bufBits_keeps {dev0 : Dev} {m : Master} {n : Nat} {key : Nat} {w : Nat} {v : Word} {ok : Nat → Bool} {act : Nat →
    Dev → Dev} {d : Dev} (hact : ∀ y0 d, Keeps dev0 d → Keeps dev0 (act y0 d)) (hk : Keeps dev0 d) : Keeps dev0 (Dev.bufBits m n
    key w v ok act d) := by
  unfold Dev.bufBits
  with_reducible repeat' first
    | assumption | intro _ | apply hact | apply Dev.when_keeps | apply Dev.discard_keeps | apply keeps_ite
    | apply keeps_ite_snd | apply keeps_each | apply keeps_foldl | apply keeps_each_snd | apply keeps_foldl_snd
    | apply keeps_id | refine keeps_of_eq (by assumption) ?_ | split | dsimp only

theorem Dev.rxReleaseOp_keeps {dev0 : Dev} {m : Master} {n : Nat} {w : Nat} {v : Word} {d : Dev} (hk : Keeps dev0 d) : Keeps
    dev0 (Dev.rxReleaseOp m n w v d) := by
  unfold Dev.rxReleaseOp
  with_reducible repeat' first
    | assumption | intro _ | apply Dev.bufBits_keeps | apply Dev.releaseBuf_keeps | apply Dev.when_keeps | apply keeps_ite
    | apply keeps_ite_snd | apply keeps_each | apply keeps_foldl | apply keeps_each_snd | apply keeps_foldl_snd
    | apply keeps_id | refine keeps_of_eq (by assumption) ?_ | split | dsimp only

theorem execRxRelease_keeps {m : Master} {n : Fin 4} {w : Fin 3} {v : Word} {s : State} : Kept s (execRxRelease m n w v s) := by
  unfold execRxRelease
  with_reducible repeat' first
    | assumption | intro _ | apply Dev.accessWrite_keeps | apply Dev.rxReleaseOp_keeps | apply onDev_kept | apply keeps_ite
    | apply keeps_ite_snd | apply keeps_each | apply keeps_foldl | apply keeps_each_snd | apply keeps_foldl_snd
    | apply keeps_id | refine keeps_of_eq (by assumption) ?_ | split | dsimp only

theorem Dev.txReqOp_keeps {dev0 : Dev} {m : Master} {n : Nat} {w : Nat} {v : Word} {d : Dev} (hk : Keeps dev0 d) : Keeps dev0
    (Dev.txReqOp m n w v d) := by
  unfold Dev.txReqOp
  with_reducible repeat' first
    | assumption | intro _ | apply Dev.bufBits_keeps | apply Dev.setTxPending_keeps | apply keeps_ite | apply keeps_ite_snd
    | apply keeps_each | apply keeps_foldl | apply keeps_each_snd | apply keeps_foldl_snd | apply keeps_id
    | refine keeps_of_eq (by assumption) ?_ | split | dsimp only

theorem execTxreq_keeps {m : Master} {n : Fin 4} {w : Fin 2} {v : Word} {s : State} : Kept s (execTxreq m n w v s) := by
  unfold execTxreq
  with_reducible repeat' first
    | assumption | intro _ | apply Dev.accessWrite_keeps | apply Dev.txReqOp_keeps | apply onDev_kept | apply keeps_ite
    | apply keeps_ite_snd | apply keeps_each | apply keeps_foldl | apply keeps_each_snd | apply keeps_foldl_snd
    | apply keeps_id | refine keeps_of_eq (by assumption) ?_ | split | dsimp only

theorem Dev.abortTx_keeps {dev0 : Dev} {n : Nat} {b : Nat} {d : Dev} (hk : Keeps dev0 d) : Keeps dev0 (Dev.abortTx n b d) := by
  unfold Dev.abortTx
  with_reducible repeat' first
    | assumption | intro _ | apply Dev.setTxAborting_keeps | apply Dev.endRequest_keeps | apply keeps_ite
    | apply keeps_ite_snd | apply keeps_each | apply keeps_foldl | apply keeps_each_snd | apply keeps_foldl_snd
    | apply keeps_id | refine keeps_of_eq (by assumption) ?_ | split | dsimp only

theorem Dev.txAbtOp_keeps {dev0 : Dev} {m : Master} {n : Nat} {w : Nat} {v : Word} {d : Dev} (hk : Keeps dev0 d) : Keeps dev0
    (Dev.txAbtOp m n w v d) := by
  unfold Dev.txAbtOp
  with_reducible repeat' first
    | assumption | intro _ | apply Dev.bufBits_keeps | apply Dev.abortTx_keeps | apply keeps_ite | apply keeps_ite_snd
    | apply keeps_each | apply keeps_foldl | apply keeps_each_snd | apply keeps_foldl_snd | apply keeps_id
    | refine keeps_of_eq (by assumption) ?_ | split | dsimp only

theorem execTxabt_keeps {m : Master} {n : Fin 4} {w : Fin 2} {v : Word} {s : State} : Kept s (execTxabt m n w v s) := by
  unfold execTxabt
  with_reducible repeat' first
    | assumption | intro _ | apply Dev.accessWrite_keeps | apply Dev.txAbtOp_keeps | apply onDev_kept | apply keeps_ite
    | apply keeps_ite_snd | apply keeps_each | apply keeps_foldl | apply keeps_each_snd | apply keeps_foldl_snd
    | apply keeps_id | refine keeps_of_eq (by assumption) ?_ | split | dsimp only

theorem execTransmissionStart_keeps {n : Fin 4} {s : State} : Kept s (execTransmissionStart n s) := by
  unfold execTransmissionStart
  with_reducible repeat' first
    | assumption | intro _ | apply Dev.setBit_keeps | apply Dev.modCtl_keeps | apply onDev_kept | apply keeps_ite
    | apply keeps_ite_snd | apply keeps_each | apply keeps_foldl | apply keeps_each_snd | apply keeps_foldl_snd
    | apply keeps_id | refine keeps_of_eq (by assumption) ?_ | split | dsimp only

theorem Dev.applyHeld_keeps {dev0 : Dev} {n : Nat} {b : Nat} {d : Dev} (hk : Keeps dev0 d) : Keeps dev0 (Dev.applyHeld n b d) :=
    by
  unfold Dev.applyHeld
  with_reducible repeat' first
    | assumption | intro _ | apply Dev.setBufCfg_keeps | apply Dev.setBit_keeps | apply Dev.modCtl_keeps | apply keeps_ite
    | apply keeps_ite_snd | apply keeps_each | apply keeps_foldl | apply keeps_each_snd | apply keeps_foldl_snd
    | apply keeps_id | refine keeps_of_eq (by assumption) ?_ | split | dsimp only

theorem Dev.tecGood_keeps {dev0 : Dev} {n : Nat} {d : Dev} (hk : Keeps dev0 d) : Keeps dev0 (Dev.tecGood n d) := by
  unfold Dev.tecGood
  with_reducible repeat' first
    | assumption | intro _ | apply Dev.canJudge_keeps | apply Dev.setFld_keeps | apply keeps_ite | apply keeps_ite_snd
    | apply keeps_each | apply keeps_foldl | apply keeps_each_snd | apply keeps_foldl_snd | apply keeps_id
    | refine keeps_of_eq (by assumption) ?_ | split | dsimp only

theorem Dev.attemptOver_keeps {dev0 : Dev} {n : Nat} {o : TxOutcome} {d : Dev} (hk : Keeps dev0 d) : Keeps dev0 (Dev.attemptOver
    n o d) := by
  unfold Dev.attemptOver
  with_reducible repeat' first
    | assumption | intro _ | apply Dev.setBit_keeps | apply Dev.frameOver_keeps | apply keeps_ite | apply keeps_ite_snd
    | apply keeps_each | apply keeps_foldl | apply keeps_each_snd | apply keeps_foldl_snd | apply keeps_id
    | refine keeps_of_eq (by assumption) ?_ | split | dsimp only

theorem execCanTxEnd_keeps {n : Fin 4} {o : TxOutcome} {tdcv : BitVec 7} {s : State} : Kept s (execCanTxEnd n o tdcv s) := by
  unfold execCanTxEnd
  with_reducible repeat' first
    | assumption | intro _ | apply Dev.stopSending_keeps | apply Dev.when_keeps | apply Dev.setFld_keeps
    | apply Dev.tecGood_keeps | apply Dev.setBuf_keeps | apply Dev.endRequest_keeps | apply Dev.acceptFrame_keeps
    | apply Dev.attemptOver_keeps | apply Dev.applyHeld_keeps | apply onDev_kept | apply keeps_ite | apply keeps_ite_snd
    | apply keeps_each | apply keeps_foldl | apply keeps_each_snd | apply keeps_foldl_snd | apply keeps_id
    | refine keeps_of_eq (by assumption) ?_ | split | dsimp only

theorem Dev.countError_keeps {dev0 : Dev} {n : Nat} {c : CanErrorCase} {d : Dev} (hk : Keeps dev0 d) : Keeps dev0
    (Dev.countError n c d) := by
  unfold Dev.countError
  with_reducible repeat' first
    | assumption | intro _ | apply Dev.canJudge_keeps | apply Dev.addSat_keeps | apply keeps_ite | apply keeps_ite_snd
    | apply keeps_each | apply keeps_foldl | apply keeps_each_snd | apply keeps_foldl_snd | apply keeps_id
    | refine keeps_of_eq (by assumption) ?_ | split | dsimp only

theorem Dev.logError_keeps {dev0 : Dev} {n : Nat} {e : CanError} {dataPhase : Bool} {d : Dev} (hk : Keeps dev0 d) : Keeps dev0
    (Dev.logError n e dataPhase d) := by
  unfold Dev.logError
  with_reducible repeat' first
    | assumption | intro _ | apply Dev.bumpSat_keeps | apply Dev.setBit_keeps | apply Dev.setFld_keeps
    | apply Dev.raise_keeps | apply keeps_ite | apply keeps_ite_snd | apply keeps_each | apply keeps_foldl
    | apply keeps_each_snd | apply keeps_foldl_snd | apply keeps_id | refine keeps_of_eq (by assumption) ?_ | split
    | dsimp only

theorem execCanBusError_keeps {n : Fin 4} {e : CanError} {c : CanErrorCase} {dataPhase : Bool} {s : State} : Kept s
    (execCanBusError n e c dataPhase s) := by
  unfold execCanBusError
  with_reducible repeat' first
    | assumption | intro _ | apply Dev.when_keeps | apply Dev.logError_keeps | apply Dev.countError_keeps
    | apply Dev.frameOver_keeps | apply onDev_kept | apply keeps_ite | apply keeps_ite_snd | apply keeps_each
    | apply keeps_foldl | apply keeps_each_snd | apply keeps_foldl_snd | apply keeps_id
    | refine keeps_of_eq (by assumption) ?_ | split | dsimp only

theorem Dev.canCmdOp_keeps {dev0 : Dev} {n : Nat} {v : Word} {d : Dev} (hk : Keeps dev0 d) : Keeps dev0 (Dev.canCmdOp n v d) :=
    by
  unfold Dev.canCmdOp
  with_reducible repeat' first
    | assumption | intro _ | apply Dev.modCtl_keeps | apply Dev.setCanState_keeps | apply Dev.raise_keeps | apply keeps_ite
    | apply keeps_ite_snd | apply keeps_each | apply keeps_foldl | apply keeps_each_snd | apply keeps_foldl_snd
    | apply keeps_id | refine keeps_of_eq (by assumption) ?_ | split | dsimp only

theorem execRecover_keeps {m : Master} {n : Fin 4} {s : State} : Kept s (execRecover m n s) := by
  unfold execRecover
  with_reducible repeat' first
    | assumption | intro _ | apply Dev.accessWrite_keeps | apply Dev.canCmdOp_keeps | apply onDev_kept | apply keeps_ite
    | apply keeps_ite_snd | apply keeps_each | apply keeps_foldl | apply keeps_each_snd | apply keeps_foldl_snd
    | apply keeps_id | refine keeps_of_eq (by assumption) ?_ | split | dsimp only

theorem execRecovered_keeps {n : Fin 4} {s : State} : Kept s (execRecovered n s) := by
  unfold execRecovered
  with_reducible repeat' first
    | assumption | intro _ | apply Dev.raise_keeps | apply Dev.setCanState_keeps | apply Dev.setReg_keeps | apply onDev_kept
    | apply keeps_ite | apply keeps_ite_snd | apply keeps_each | apply keeps_foldl | apply keeps_each_snd
    | apply keeps_foldl_snd | apply keeps_id | refine keeps_of_eq (by assumption) ?_ | split | dsimp only

theorem Dev.canSetMode_keeps {dev0 : Dev} {m : Master} {n : Nat} {new : Nat} {d : Dev} (hk : Keeps dev0 d) : Keeps dev0
    (Dev.canSetMode m n new d) := by
  unfold Dev.canSetMode
  with_reducible repeat' first
    | assumption | intro _ | apply Dev.setFld_keeps | apply Dev.raise_keeps | apply Dev.setBit_keeps
    | apply Dev.modCtl_keeps | apply Dev.setCanState_keeps | apply Dev.discard_keeps | apply Dev.enterInit_keeps
    | apply keeps_ite | apply keeps_ite_snd | apply keeps_each | apply keeps_foldl | apply keeps_each_snd
    | apply keeps_foldl_snd | apply keeps_id | refine keeps_of_eq (by assumption) ?_ | split | dsimp only

theorem Dev.canCtrlOp_keeps {dev0 : Dev} {m : Master} {n : Nat} {v : Word} {d : Dev} (hk : Keeps dev0 d) : Keeps dev0
    (Dev.canCtrlOp m n v d) := by
  unfold Dev.canCtrlOp
  with_reducible repeat' first
    | assumption | intro _ | apply Dev.setBit_keeps | apply Dev.discard_keeps | apply Dev.modCtl_keeps
    | apply Dev.canSetMode_keeps | apply keeps_ite | apply keeps_ite_snd | apply keeps_each | apply keeps_foldl
    | apply keeps_each_snd | apply keeps_foldl_snd | apply keeps_id | refine keeps_of_eq (by assumption) ?_ | split
    | dsimp only

theorem Dev.canTimingOp_keeps {dev0 : Dev} {m : Master} {n : Nat} {key : Nat} {v : Word} {mask : Word} {d : Dev} (hk : Keeps
    dev0 d) : Keeps dev0 (Dev.canTimingOp m n key v mask d) := by
  unfold Dev.canTimingOp
  with_reducible repeat' first
    | assumption | intro _ | apply Dev.setReg_keeps | apply Dev.discard_keeps | apply keeps_ite | apply keeps_ite_snd
    | apply keeps_each | apply keeps_foldl | apply keeps_each_snd | apply keeps_foldl_snd | apply keeps_id
    | refine keeps_of_eq (by assumption) ?_ | split | dsimp only

theorem Dev.canModeCmd_keeps {dev0 : Dev} {m : Master} {n : Nat} {mode : Nat} {d : Dev} (hk : Keeps dev0 d) : Keeps dev0
    (Dev.canModeCmd m n mode d) := by
  unfold Dev.canModeCmd
  with_reducible repeat' first
    | assumption | intro _ | apply Dev.accessWrite_keeps | apply Dev.canCtrlOp_keeps | apply keeps_ite | apply keeps_ite_snd
    | apply keeps_each | apply keeps_foldl | apply keeps_each_snd | apply keeps_foldl_snd | apply keeps_id
    | refine keeps_of_eq (by assumption) ?_ | split | dsimp only

theorem execInit_keeps {m : Master} {n : Fin 4} {s : State} : Kept s (execInit m n s) := by
  unfold execInit
  with_reducible repeat' first
    | assumption | intro _ | apply Dev.canModeCmd_keeps | apply onDev_kept | apply keeps_ite | apply keeps_ite_snd
    | apply keeps_each | apply keeps_foldl | apply keeps_each_snd | apply keeps_foldl_snd | apply keeps_id
    | refine keeps_of_eq (by assumption) ?_ | split | dsimp only

theorem execNormal_keeps {m : Master} {n : Fin 4} {s : State} : Kept s (execNormal m n s) := by
  unfold execNormal
  with_reducible repeat' first
    | assumption | intro _ | apply Dev.canModeCmd_keeps | apply onDev_kept | apply keeps_ite | apply keeps_ite_snd
    | apply keeps_each | apply keeps_foldl | apply keeps_each_snd | apply keeps_foldl_snd | apply keeps_id
    | refine keeps_of_eq (by assumption) ?_ | split | dsimp only

theorem execListen_keeps {m : Master} {n : Fin 4} {s : State} : Kept s (execListen m n s) := by
  unfold execListen
  with_reducible repeat' first
    | assumption | intro _ | apply Dev.canModeCmd_keeps | apply onDev_kept | apply keeps_ite | apply keeps_ite_snd
    | apply keeps_each | apply keeps_foldl | apply keeps_each_snd | apply keeps_foldl_snd | apply keeps_id
    | refine keeps_of_eq (by assumption) ?_ | split | dsimp only

theorem execLoopback_keeps {m : Master} {n : Fin 4} {s : State} : Kept s (execLoopback m n s) := by
  unfold execLoopback
  with_reducible repeat' first
    | assumption | intro _ | apply Dev.canModeCmd_keeps | apply onDev_kept | apply keeps_ite | apply keeps_ite_snd
    | apply keeps_each | apply keeps_foldl | apply keeps_each_snd | apply keeps_foldl_snd | apply keeps_id
    | refine keeps_of_eq (by assumption) ?_ | split | dsimp only

theorem execBusIntegrated_keeps {n : Fin 4} {s : State} : Kept s (execBusIntegrated n s) := by
  unfold execBusIntegrated
  with_reducible repeat' first
    | assumption | intro _ | apply Dev.when_keeps | apply Dev.setCanState_keeps | apply onDev_kept | apply keeps_ite
    | apply keeps_ite_snd | apply keeps_each | apply keeps_foldl | apply keeps_each_snd | apply keeps_foldl_snd
    | apply keeps_id | refine keeps_of_eq (by assumption) ?_ | split | dsimp only

theorem Dev.bufCfgOp_keeps {dev0 : Dev} {m : Master} {n : Nat} {b : Nat} {v : Word} {d : Dev} (hk : Keeps dev0 d) : Keeps dev0
    (Dev.bufCfgOp m n b v d) := by
  unfold Dev.bufCfgOp
  with_reducible repeat' first
    | assumption | intro _ | apply Dev.discard_keeps | apply Dev.setBit_keeps | apply Dev.modCtl_keeps
    | apply Dev.endRequest_keeps | apply Dev.setBufCfg_keeps | apply keeps_ite | apply keeps_ite_snd | apply keeps_each
    | apply keeps_foldl | apply keeps_each_snd | apply keeps_foldl_snd | apply keeps_id
    | refine keeps_of_eq (by assumption) ?_ | split | dsimp only

theorem execBufCfgWrite_keeps {m : Master} {n : Fin 4} {b : Fin 64} {v : Word} {s : State} : Kept s (execBufCfgWrite m n b v s)
    := by
  unfold execBufCfgWrite
  with_reducible repeat' first
    | assumption | intro _ | apply Dev.accessWrite_keeps | apply Dev.bufCfgOp_keeps | apply onDev_kept | apply keeps_ite
    | apply keeps_ite_snd | apply keeps_each | apply keeps_foldl | apply keeps_each_snd | apply keeps_foldl_snd
    | apply keeps_id | refine keeps_of_eq (by assumption) ?_ | split | dsimp only

theorem Dev.filterOp_keeps {dev0 : Dev} {m : Master} {n : Nat} {f : Nat} {maskWord : Bool} {v : Word} {d : Dev} (hk : Keeps dev0
    d) : Keeps dev0 (Dev.filterOp m n f maskWord v d) := by
  unfold Dev.filterOp
  with_reducible repeat' first
    | assumption | intro _ | apply Dev.discard_keeps | apply Dev.setReg_keeps | apply Dev.when_keeps
    | apply Dev.bufRoleChange_keeps | apply keeps_ite | apply keeps_ite_snd | apply keeps_each | apply keeps_foldl
    | apply keeps_each_snd | apply keeps_foldl_snd | apply keeps_id | refine keeps_of_eq (by assumption) ?_ | split
    | dsimp only

theorem execFilterWrite_keeps {m : Master} {n : Fin 4} {f : Fin 32} {maskWord : Bool} {v : Word} {s : State} : Kept s
    (execFilterWrite m n f maskWord v s) := by
  unfold execFilterWrite
  with_reducible repeat' first
    | assumption | intro _ | apply Dev.accessWrite_keeps | apply Dev.filterOp_keeps | apply onDev_kept | apply keeps_ite
    | apply keeps_ite_snd | apply keeps_each | apply keeps_foldl | apply keeps_each_snd | apply keeps_foldl_snd
    | apply keeps_id | refine keeps_of_eq (by assumption) ?_ | split | dsimp only

theorem Dev.winSelOp_keeps {dev0 : Dev} {m : Master} {n : Nat} {w : Nat} {v : Word} {d : Dev} (hk : Keeps dev0 d) : Keeps dev0
    (Dev.winSelOp m n w v d) := by
  unfold Dev.winSelOp
  with_reducible repeat' first
    | assumption | intro _ | apply Dev.setReg_keeps | apply Dev.discard_keeps | apply keeps_ite | apply keeps_ite_snd
    | apply keeps_each | apply keeps_foldl | apply keeps_each_snd | apply keeps_foldl_snd | apply keeps_id
    | refine keeps_of_eq (by assumption) ?_ | split | dsimp only

theorem execWindowSelect_keeps {m : Master} {n : Fin 4} {w : Fin 2} {v : Word} {s : State} : Kept s (execWindowSelect m n w v s)
    := by
  unfold execWindowSelect
  with_reducible repeat' first
    | assumption | intro _ | apply Dev.accessWrite_keeps | apply Dev.winSelOp_keeps | apply onDev_kept | apply keeps_ite
    | apply keeps_ite_snd | apply keeps_each | apply keeps_foldl | apply keeps_each_snd | apply keeps_foldl_snd
    | apply keeps_id | refine keeps_of_eq (by assumption) ?_ | split | dsimp only

theorem Dev.winWriteOp_keeps {dev0 : Dev} {m : Master} {n : Nat} {w : Nat} {off : Nat} {v : Word} {d : Dev} (hk : Keeps dev0 d)
    : Keeps dev0 (Dev.winWriteOp m n w off v d) := by
  unfold Dev.winWriteOp
  with_reducible repeat' first
    | assumption | intro _ | apply Dev.discard_keeps | apply Dev.setBuf_keeps | apply keeps_ite | apply keeps_ite_snd
    | apply keeps_each | apply keeps_foldl | apply keeps_each_snd | apply keeps_foldl_snd | apply keeps_id
    | refine keeps_of_eq (by assumption) ?_ | split | dsimp only

theorem execTsWrap_keeps {n : Fin 4} {s : State} : Kept s (execTsWrap n s) := by
  unfold execTsWrap
  with_reducible repeat' first
    | assumption | intro _ | apply Dev.when_keeps | apply Dev.raise_keeps | apply onDev_kept | apply keeps_ite
    | apply keeps_ite_snd | apply keeps_each | apply keeps_foldl | apply keeps_each_snd | apply keeps_foldl_snd
    | apply keeps_id | refine keeps_of_eq (by assumption) ?_ | split | dsimp only

end Sys2Proof.Machine
end

