-- ==== Sys2Proof/Laws/KeepsCrcUnit.lean ====
section
/-!
SUPPORT. What the operations of Machine/CrcUnit.lean keep: see Keeps.lean.
-/

namespace Sys2Proof.Machine

theorem Dev.crcFeed_keeps {dev0 : Dev} {n : Nat} {bs : List Byte} {d : Dev} (hk : Keeps dev0 d) : Keeps dev0 (Dev.crcFeed n bs
    d) := by
  unfold Dev.crcFeed
  with_reducible repeat' first
    | assumption | intro _ | apply Dev.setReg_keeps | apply keeps_ite | apply keeps_ite_snd | apply keeps_each
    | apply keeps_foldl | apply keeps_each_snd | apply keeps_foldl_snd | apply keeps_id
    | refine keeps_of_eq (by assumption) ?_ | split | dsimp only

theorem Dev.crcCompare_keeps {dev0 : Dev} {n : Nat} {d : Dev} (hk : Keeps dev0 d) : Keeps dev0 (Dev.crcCompare n d) := by
  unfold Dev.crcCompare
  with_reducible repeat' first
    | assumption | intro _ | apply Dev.when_keeps | apply Dev.raise_keeps | apply Dev.setBit_keeps | apply keeps_ite
    | apply keeps_ite_snd | apply keeps_each | apply keeps_foldl | apply keeps_each_snd | apply keeps_foldl_snd
    | apply keeps_id | refine keeps_of_eq (by assumption) ?_ | split | dsimp only

theorem Dev.crcComplete_keeps {dev0 : Dev} {n : Nat} {d : Dev} (hk : Keeps dev0 d) : Keeps dev0 (Dev.crcComplete n d) := by
  unfold Dev.crcComplete
  with_reducible repeat' first
    | assumption | intro _ | apply Dev.when_keeps | apply Dev.crcCompare_keeps | apply Dev.raise_keeps
    | apply Dev.setBit_keeps | apply keeps_ite | apply keeps_ite_snd | apply keeps_each | apply keeps_foldl
    | apply keeps_each_snd | apply keeps_foldl_snd | apply keeps_id | refine keeps_of_eq (by assumption) ?_ | split
    | dsimp only

theorem Dev.crcRefuse_keeps {dev0 : Dev} {n : Nat} {d : Dev} (hk : Keeps dev0 d) : Keeps dev0 (Dev.crcRefuse n d) := by
  unfold Dev.crcRefuse
  with_reducible repeat' first
    | assumption | intro _ | apply Dev.raise_keeps | apply keeps_ite | apply keeps_ite_snd | apply keeps_each
    | apply keeps_foldl | apply keeps_each_snd | apply keeps_foldl_snd | apply keeps_id
    | refine keeps_of_eq (by assumption) ?_ | split | dsimp only

theorem Dev.crcInitNow_keeps {dev0 : Dev} {n : Nat} {d : Dev} (hk : Keeps dev0 d) : Keeps dev0 (Dev.crcInitNow n d) := by
  unfold Dev.crcInitNow
  with_reducible repeat' first
    | assumption | intro _ | apply Dev.setReg_keeps | apply Dev.setBit_keeps | apply keeps_ite | apply keeps_ite_snd
    | apply keeps_each | apply keeps_foldl | apply keeps_each_snd | apply keeps_foldl_snd | apply keeps_id
    | refine keeps_of_eq (by assumption) ?_ | split | dsimp only

theorem Dev.crcNow_keeps {dev0 : Dev} {n : Fin 4} {d : Dev} (hk : Keeps dev0 d) : Keeps dev0 (Dev.crcNow n d) := by
  unfold Dev.crcNow
  with_reducible repeat' first
    | assumption | intro _ | apply Dev.crcFeed_keeps | apply keeps_ite | apply keeps_ite_snd | apply keeps_each
    | apply keeps_foldl | apply keeps_each_snd | apply keeps_foldl_snd | apply keeps_id
    | refine keeps_of_eq (by assumption) ?_ | split | dsimp only

theorem Dev.crcAbortNow_keeps {dev0 : Dev} {n : Fin 4} {d : Dev} (hk : Keeps dev0 d) : Keeps dev0 (Dev.crcAbortNow n d) := by
  unfold Dev.crcAbortNow
  with_reducible repeat' first
    | assumption | intro _ | apply Dev.raise_keeps | apply Dev.setBit_keeps | apply Dev.crcNow_keeps
    | apply Dev.touchAt_keeps | apply keeps_ite | apply keeps_ite_snd | apply keeps_each | apply keeps_foldl
    | apply keeps_each_snd | apply keeps_foldl_snd | apply keeps_id | refine keeps_of_eq (by assumption) ?_ | split
    | dsimp only

theorem Dev.crcCmdOp_keeps {dev0 : Dev} {n : Fin 4} {code : Nat} {d : Dev} (hk : Keeps dev0 d) : Keeps dev0 (Dev.crcCmdOp n code
    d) := by
  unfold Dev.crcCmdOp
  with_reducible repeat' first
    | assumption | intro _ | apply Dev.crcRefuse_keeps | apply Dev.crcInitNow_keeps | apply Dev.crcComplete_keeps
    | apply Dev.modCrc_keeps | apply Dev.setBit_keeps | apply Dev.crcAbortNow_keeps | apply Dev.crcCompare_keeps
    | apply keeps_ite | apply keeps_ite_snd | apply keeps_each | apply keeps_foldl | apply keeps_each_snd
    | apply keeps_foldl_snd | apply keeps_id | refine keeps_of_eq (by assumption) ?_ | split | dsimp only

theorem Dev.crcGuard_keeps {dev0 : Dev} {m : Master} {n : Nat} {key : Nat} {op : Dev → Dev} {d : Dev} (hop : ∀ d, Keeps dev0 d →
    Keeps dev0 (op d)) (hk : Keeps dev0 d) : Keeps dev0 (Dev.crcGuard m n key op d) := by
  unfold Dev.crcGuard
  with_reducible repeat' first
    | assumption | intro _ | apply hop | apply Dev.discard_keeps | apply keeps_ite | apply keeps_ite_snd | apply keeps_each
    | apply keeps_foldl | apply keeps_each_snd | apply keeps_foldl_snd | apply keeps_id
    | refine keeps_of_eq (by assumption) ?_ | split | dsimp only

theorem Dev.crcClaimOp_keeps {dev0 : Dev} {m : Master} {n : Nat} {v : Word} {d : Dev} (hk : Keeps dev0 d) : Keeps dev0
    (Dev.crcClaimOp m n v d) := by
  unfold Dev.crcClaimOp
  with_reducible repeat' first
    | assumption | intro _ | apply Dev.setBit_keeps | apply Dev.setReg_keeps | apply keeps_ite | apply keeps_ite_snd
    | apply keeps_each | apply keeps_foldl | apply keeps_each_snd | apply keeps_foldl_snd | apply keeps_id
    | refine keeps_of_eq (by assumption) ?_ | split | dsimp only

theorem Dev.crcCommand_keeps {dev0 : Dev} {m : Master} {n : Fin 4} {code : Nat} {d : Dev} (hk : Keeps dev0 d) : Keeps dev0
    (Dev.crcCommand m n code d) := by
  unfold Dev.crcCommand
  with_reducible repeat' first
    | assumption | intro _ | apply Dev.accessWrite_keeps | apply Dev.crcGuard_keeps | apply Dev.crcCmdOp_keeps
    | apply keeps_ite | apply keeps_ite_snd | apply keeps_each | apply keeps_foldl | apply keeps_each_snd
    | apply keeps_foldl_snd | apply keeps_id | refine keeps_of_eq (by assumption) ?_ | split | dsimp only

theorem execCrcInit_keeps {m : Master} {n : Fin 4} {s : State} : Kept s (execCrcInit m n s) := by
  unfold execCrcInit
  with_reducible repeat' first
    | assumption | intro _ | apply Dev.crcCommand_keeps | apply onDev_kept | apply keeps_ite | apply keeps_ite_snd
    | apply keeps_each | apply keeps_foldl | apply keeps_each_snd | apply keeps_foldl_snd | apply keeps_id
    | refine keeps_of_eq (by assumption) ?_ | split | dsimp only

theorem execCrcStart_keeps {m : Master} {n : Fin 4} {s : State} : Kept s (execCrcStart m n s) := by
  unfold execCrcStart
  with_reducible repeat' first
    | assumption | intro _ | apply Dev.crcCommand_keeps | apply onDev_kept | apply keeps_ite | apply keeps_ite_snd
    | apply keeps_each | apply keeps_foldl | apply keeps_each_snd | apply keeps_foldl_snd | apply keeps_id
    | refine keeps_of_eq (by assumption) ?_ | split | dsimp only

theorem execCrcAbort_keeps {m : Master} {n : Fin 4} {s : State} : Kept s (execCrcAbort m n s) := by
  unfold execCrcAbort
  with_reducible repeat' first
    | assumption | intro _ | apply Dev.crcCommand_keeps | apply onDev_kept | apply keeps_ite | apply keeps_ite_snd
    | apply keeps_each | apply keeps_foldl | apply keeps_each_snd | apply keeps_foldl_snd | apply keeps_id
    | refine keeps_of_eq (by assumption) ?_ | split | dsimp only

theorem execCheck_keeps {m : Master} {n : Fin 4} {s : State} : Kept s (execCheck m n s) := by
  unfold execCheck
  with_reducible repeat' first
    | assumption | intro _ | apply Dev.crcCommand_keeps | apply onDev_kept | apply keeps_ite | apply keeps_ite_snd
    | apply keeps_each | apply keeps_foldl | apply keeps_each_snd | apply keeps_foldl_snd | apply keeps_id
    | refine keeps_of_eq (by assumption) ?_ | split | dsimp only

theorem Dev.crcRunEnd_keeps {dev0 : Dev} {n : Fin 4} {d : Dev} (hk : Keeps dev0 d) : Keeps dev0 (Dev.crcRunEnd n d) := by
  unfold Dev.crcRunEnd
  with_reducible repeat' first
    | assumption | intro _ | apply Dev.crcFeed_keeps | apply Dev.touchAt_keeps | apply Dev.crcComplete_keeps
    | apply Dev.refuseSys_keeps | apply Dev.refuse_keeps | apply Dev.raise_keeps | apply Dev.setBit_keeps | apply keeps_ite
    | apply keeps_ite_snd | apply keeps_each | apply keeps_foldl | apply keeps_each_snd | apply keeps_foldl_snd
    | apply keeps_id | refine keeps_of_eq (by assumption) ?_ | split | dsimp only

theorem execCrcDmaDone_keeps {n : Fin 4} {s : State} : Kept s (execCrcDmaDone n s) := by
  unfold execCrcDmaDone
  with_reducible repeat' first
    | assumption | intro _ | apply Dev.when_keeps | apply Dev.crcRunEnd_keeps | apply onDev_kept | apply keeps_ite
    | apply keeps_ite_snd | apply keeps_each | apply keeps_foldl | apply keeps_each_snd | apply keeps_foldl_snd
    | apply keeps_id | refine keeps_of_eq (by assumption) ?_ | split | dsimp only

theorem execCrcDmaRefused_keeps {n : Fin 4} {s : State} : Kept s (execCrcDmaRefused n s) := by
  unfold execCrcDmaRefused
  with_reducible repeat' first
    | assumption | intro _ | apply Dev.when_keeps | apply Dev.crcRunEnd_keeps | apply onDev_kept | apply keeps_ite
    | apply keeps_ite_snd | apply keeps_each | apply keeps_foldl | apply keeps_each_snd | apply keeps_foldl_snd
    | apply keeps_id | refine keeps_of_eq (by assumption) ?_ | split | dsimp only

theorem Dev.crcDataOp_keeps {dev0 : Dev} {m : Master} {n : Nat} {key : Nat} {bs : List Byte} {d : Dev} (hk : Keeps dev0 d) :
    Keeps dev0 (Dev.crcDataOp m n key bs d) := by
  unfold Dev.crcDataOp
  with_reducible repeat' first
    | assumption | intro _ | apply Dev.modCrc_keeps | apply Dev.crcFeed_keeps | apply Dev.discard_keeps | apply keeps_ite
    | apply keeps_ite_snd | apply keeps_each | apply keeps_foldl | apply keeps_each_snd | apply keeps_foldl_snd
    | apply keeps_id | refine keeps_of_eq (by assumption) ?_ | split | dsimp only

theorem execDin_keeps {m : Master} {n : Fin 4} {v : Word} {s : State} : Kept s (execDin m n v s) := by
  unfold execDin
  with_reducible repeat' first
    | assumption | intro _ | apply Dev.accessWrite_keeps | apply Dev.crcGuard_keeps | apply Dev.crcDataOp_keeps
    | apply onDev_kept | apply keeps_ite | apply keeps_ite_snd | apply keeps_each | apply keeps_foldl | apply keeps_each_snd
    | apply keeps_foldl_snd | apply keeps_id | refine keeps_of_eq (by assumption) ?_ | split | dsimp only

theorem execDinB_keeps {m : Master} {n : Fin 4} {v : Word} {s : State} : Kept s (execDinB m n v s) := by
  unfold execDinB
  with_reducible repeat' first
    | assumption | intro _ | apply Dev.accessWrite_keeps | apply Dev.crcGuard_keeps | apply Dev.crcDataOp_keeps
    | apply onDev_kept | apply keeps_ite | apply keeps_ite_snd | apply keeps_each | apply keeps_foldl | apply keeps_each_snd
    | apply keeps_foldl_snd | apply keeps_id | refine keeps_of_eq (by assumption) ?_ | split | dsimp only

theorem Dev.crcSetOp_keeps {dev0 : Dev} {m : Master} {n : Nat} {key : Nat} {v : Word} {d : Dev} (hk : Keeps dev0 d) : Keeps dev0
    (Dev.crcSetOp m n key v d) := by
  unfold Dev.crcSetOp
  with_reducible repeat' first
    | assumption | intro _ | apply Dev.discard_keeps | apply Dev.setReg_keeps | apply keeps_ite | apply keeps_ite_snd
    | apply keeps_each | apply keeps_foldl | apply keeps_each_snd | apply keeps_foldl_snd | apply keeps_id
    | refine keeps_of_eq (by assumption) ?_ | split | dsimp only

theorem Dev.crcRunOp_keeps {dev0 : Dev} {m : Master} {n : Nat} {v : Word} {d : Dev} (hk : Keeps dev0 d) : Keeps dev0
    (Dev.crcRunOp m n v d) := by
  unfold Dev.crcRunOp
  with_reducible repeat' first
    | assumption | intro _ | apply Dev.crcSetOp_keeps | apply keeps_ite | apply keeps_ite_snd | apply keeps_each
    | apply keeps_foldl | apply keeps_each_snd | apply keeps_foldl_snd | apply keeps_id
    | refine keeps_of_eq (by assumption) ?_ | split | dsimp only

theorem execCrcRunWrite_keeps {m : Master} {n : Fin 4} {v : Word} {s : State} : Kept s (execCrcRunWrite m n v s) := by
  unfold execCrcRunWrite
  with_reducible repeat' first
    | assumption | intro _ | apply Dev.accessWrite_keeps | apply Dev.crcGuard_keeps | apply Dev.crcRunOp_keeps
    | apply onDev_kept | apply keeps_ite | apply keeps_ite_snd | apply keeps_each | apply keeps_foldl | apply keeps_each_snd
    | apply keeps_foldl_snd | apply keeps_id | refine keeps_of_eq (by assumption) ?_ | split | dsimp only

theorem execClaim_keeps {m : Master} {n : Fin 4} {v : Word} {s : State} : Kept s (execClaim m n v s) := by
  unfold execClaim
  with_reducible repeat' first
    | assumption | intro _ | apply Dev.accessWrite_keeps | apply Dev.crcGuard_keeps | apply Dev.crcClaimOp_keeps
    | apply onDev_kept | apply keeps_ite | apply keeps_ite_snd | apply keeps_each | apply keeps_foldl | apply keeps_each_snd
    | apply keeps_foldl_snd | apply keeps_id | refine keeps_of_eq (by assumption) ?_ | split | dsimp only

theorem Dev.crcEnOp_keeps {dev0 : Dev} {m : Master} {n : Nat} {v : Word} {d : Dev} (hk : Keeps dev0 d) : Keeps dev0 (Dev.crcEnOp
    m n v d) := by
  unfold Dev.crcEnOp
  with_reducible repeat' first
    | assumption | intro _ | apply Dev.discard_keeps | apply Dev.setBit_keeps | apply keeps_ite | apply keeps_ite_snd
    | apply keeps_each | apply keeps_foldl | apply keeps_each_snd | apply keeps_foldl_snd | apply keeps_id
    | refine keeps_of_eq (by assumption) ?_ | split | dsimp only

end Sys2Proof.Machine
end

