-- ==== Sys2Proof/Laws/KeepsPos.lean ====
section
/-!
SUPPORT. What the operations of Machine/Pos.lean keep: see Keeps.lean.
-/

namespace Sys2Proof.Machine

theorem Dev.showSpeed_keeps {dev0 : Dev} {n : Nat} {st : Nat} {speed : Word} {d : Dev} (hk : Keeps dev0 d) : Keeps dev0
    (Dev.showSpeed n st speed d) := by
  unfold Dev.showSpeed
  with_reducible repeat' first
    | assumption | intro _ | apply Dev.setReg_keeps | apply Dev.setFld_keeps | apply keeps_ite | apply keeps_ite_snd
    | apply keeps_each | apply keeps_foldl | apply keeps_each_snd | apply keeps_foldl_snd | apply keeps_id
    | refine keeps_of_eq (by assumption) ?_ | split | dsimp only

theorem Dev.undoStill_keeps {dev0 : Dev} {n : Nat} {d : Dev} (hk : Keeps dev0 d) : Keeps dev0 (Dev.undoStill n d) := by
  unfold Dev.undoStill
  with_reducible repeat' first
    | assumption | intro _ | apply Dev.when_keeps | apply Dev.setBit_keeps | apply Dev.modPf_keeps
    | apply Dev.showSpeed_keeps | apply keeps_ite | apply keeps_ite_snd | apply keeps_each | apply keeps_foldl
    | apply keeps_each_snd | apply keeps_foldl_snd | apply keeps_id | refine keeps_of_eq (by assumption) ?_ | split
    | dsimp only

theorem Dev.speedEdge_keeps {dev0 : Dev} {n : Nat} {src : Nat} {step : Int} {d : Dev} (hk : Keeps dev0 d) : Keeps dev0
    (Dev.speedEdge n src step d) := by
  unfold Dev.speedEdge
  with_reducible repeat' first
    | assumption | intro _ | apply Dev.undoStill_keeps | apply Dev.modPf_keeps | apply Dev.setBit_keeps
    | apply Dev.showSpeed_keeps | apply keeps_ite | apply keeps_ite_snd | apply keeps_each | apply keeps_foldl
    | apply keeps_each_snd | apply keeps_foldl_snd | apply keeps_id | refine keeps_of_eq (by assumption) ?_ | split
    | dsimp only

theorem execSpeedWindowClose_keeps {n : Fin 8} {s : State} : Kept s (execSpeedWindowClose n s) := by
  unfold execSpeedWindowClose
  with_reducible repeat' first
    | assumption | intro _ | apply Dev.modPf_keeps | apply Dev.bumpWrap_keeps | apply Dev.setFld_keeps
    | apply Dev.when_keeps | apply Dev.raise_keeps | apply Dev.setBit_keeps | apply Dev.showSpeed_keeps | apply onDev_kept
    | apply keeps_ite | apply keeps_ite_snd | apply keeps_each | apply keeps_foldl | apply keeps_each_snd
    | apply keeps_foldl_snd | apply keeps_id | refine keeps_of_eq (by assumption) ?_ | split | dsimp only

theorem execStandstillTimeout_keeps {n : Fin 8} {s : State} : Kept s (execStandstillTimeout n s) := by
  unfold execStandstillTimeout
  with_reducible repeat' first
    | assumption | intro _ | apply Dev.raise_keeps | apply Dev.showSpeed_keeps | apply Dev.modPf_keeps | apply onDev_kept
    | apply keeps_ite | apply keeps_ite_snd | apply keeps_each | apply keeps_foldl | apply keeps_each_snd
    | apply keeps_foldl_snd | apply keeps_id | refine keeps_of_eq (by assumption) ?_ | split | dsimp only

theorem Dev.speedStart_keeps {dev0 : Dev} {n : Nat} {d : Dev} (hk : Keeps dev0 d) : Keeps dev0 (Dev.speedStart n d) := by
  unfold Dev.speedStart
  with_reducible repeat' first
    | assumption | intro _ | apply Dev.modPf_keeps | apply Dev.setBit_keeps | apply Dev.showSpeed_keeps | apply keeps_ite
    | apply keeps_ite_snd | apply keeps_each | apply keeps_foldl | apply keeps_each_snd | apply keeps_foldl_snd
    | apply keeps_id | refine keeps_of_eq (by assumption) ?_ | split | dsimp only

theorem Dev.speedRetimed_keeps {dev0 : Dev} {old : Dev} {n : Nat} {d : Dev} (hk : Keeps dev0 d) : Keeps dev0 (Dev.speedRetimed
    old n d) := by
  unfold Dev.speedRetimed
  with_reducible repeat' first
    | assumption | intro _ | apply Dev.modPf_keeps | apply keeps_ite | apply keeps_ite_snd | apply keeps_each
    | apply keeps_foldl | apply keeps_each_snd | apply keeps_foldl_snd | apply keeps_id
    | refine keeps_of_eq (by assumption) ?_ | split | dsimp only

theorem Dev.emuOne_keeps {dev0 : Dev} {n : Nat} {d : Dev} (hk : Keeps dev0 d) : Keeps dev0 (Dev.emuOne n d) := by
  unfold Dev.emuOne
  with_reducible repeat' first
    | assumption | intro _ | apply Dev.setReg_keeps | apply Dev.when_keeps | apply Dev.raise_keeps | apply keeps_ite
    | apply keeps_ite_snd | apply keeps_each | apply keeps_foldl | apply keeps_each_snd | apply keeps_foldl_snd
    | apply keeps_id | refine keeps_of_eq (by assumption) ?_ | split | dsimp only

theorem Dev.emuFollow_keeps {dev0 : Dev} {p : Nat} {d : Dev} (hk : Keeps dev0 d) : Keeps dev0 (Dev.emuFollow p d) := by
  unfold Dev.emuFollow
  with_reducible repeat' first
    | assumption | intro _ | apply Dev.emuOne_keeps | apply keeps_ite | apply keeps_ite_snd | apply keeps_each
    | apply keeps_foldl | apply keeps_each_snd | apply keeps_foldl_snd | apply keeps_id
    | refine keeps_of_eq (by assumption) ?_ | split | dsimp only

theorem Dev.emuTargeted_keeps {dev0 : Dev} {p : Nat} {span : Nat} {d : Dev} (hk : Keeps dev0 d) : Keeps dev0 (Dev.emuTargeted p
    span d) := by
  unfold Dev.emuTargeted
  with_reducible repeat' first
    | assumption | intro _ | apply Dev.modPf_keeps | apply Dev.emuFollow_keeps | apply keeps_ite | apply keeps_ite_snd
    | apply keeps_each | apply keeps_foldl | apply keeps_each_snd | apply keeps_foldl_snd | apply keeps_id
    | refine keeps_of_eq (by assumption) ?_ | split | dsimp only

theorem Dev.emuStart_keeps {dev0 : Dev} {n : Nat} {d : Dev} (hk : Keeps dev0 d) : Keeps dev0 (Dev.emuStart n d) := by
  unfold Dev.emuStart
  with_reducible repeat' first
    | assumption | intro _ | apply Dev.modPf_keeps | apply Dev.setReg_keeps | apply Dev.emuOne_keeps | apply keeps_ite
    | apply keeps_ite_snd | apply keeps_each | apply keeps_foldl | apply keeps_each_snd | apply keeps_foldl_snd
    | apply keeps_id | refine keeps_of_eq (by assumption) ?_ | split | dsimp only

theorem execEmulatorEdge_keeps {n : Fin 8} {s : State} : Kept s (execEmulatorEdge n s) := by
  unfold execEmulatorEdge
  with_reducible repeat' first
    | assumption | intro _ | apply Dev.free_keeps | apply Dev.modPf_keeps | apply Dev.emuOne_keeps | apply Dev.setReg_keeps
    | apply onDev_kept | apply keeps_ite | apply keeps_ite_snd | apply keeps_each | apply keeps_foldl | apply keeps_each_snd
    | apply keeps_foldl_snd | apply keeps_id | refine keeps_of_eq (by assumption) ?_ | split | dsimp only

theorem Dev.setArmed_keeps {dev0 : Dev} {n : Nat} {b : Bool} {d : Dev} (hk : Keeps dev0 d) : Keeps dev0 (Dev.setArmed n b d) :=
    by
  unfold Dev.setArmed
  with_reducible repeat' first
    | assumption | intro _ | apply Dev.setBit_keeps | apply keeps_ite | apply keeps_ite_snd | apply keeps_each
    | apply keeps_foldl | apply keeps_each_snd | apply keeps_foldl_snd | apply keeps_id
    | refine keeps_of_eq (by assumption) ?_ | split | dsimp only

theorem Dev.cmpFire_keeps {dev0 : Dev} {n : Nat} {hit : Word} {more : Nat} {d : Dev} (hk : Keeps dev0 d) : Keeps dev0
    (Dev.cmpFire n hit more d) := by
  unfold Dev.cmpFire
  with_reducible repeat' first
    | assumption | intro _ | apply Dev.raise_keeps | apply Dev.setReg_keeps | apply Dev.setArmed_keeps
    | apply Dev.bumpSat_keeps | apply Dev.modPf_keeps | apply Dev.when_keeps | apply Dev.setBit_keeps | apply keeps_ite
    | apply keeps_ite_snd | apply keeps_each | apply keeps_foldl | apply keeps_each_snd | apply keeps_foldl_snd
    | apply keeps_id | refine keeps_of_eq (by assumption) ?_ | split | dsimp only

theorem Dev.cmpBehind_keeps {dev0 : Dev} {n : Nat} {d : Dev} (hk : Keeps dev0 d) : Keeps dev0 (Dev.cmpBehind n d) := by
  unfold Dev.cmpBehind
  with_reducible repeat' first
    | assumption | intro _ | apply Dev.raise_keeps | apply Dev.setBit_keeps | apply Dev.when_keeps | apply Dev.modPf_keeps
    | apply keeps_ite | apply keeps_ite_snd | apply keeps_each | apply keeps_foldl | apply keeps_each_snd
    | apply keeps_foldl_snd | apply keeps_id | refine keeps_of_eq (by assumption) ?_ | split | dsimp only

theorem Dev.cmpStep_keeps {dev0 : Dev} {n : Nat} {kind : Nat} {p : Nat} {size : Nat} {back : Bool} {d : Dev} (hk : Keeps dev0 d)
    : Keeps dev0 (Dev.cmpStep n kind p size back d) := by
  unfold Dev.cmpStep
  with_reducible repeat' first
    | assumption | intro _ | apply Dev.when_keeps | apply Dev.modPf_keeps | apply Dev.cmpBehind_keeps
    | apply Dev.cmpFire_keeps | apply keeps_ite | apply keeps_ite_snd | apply keeps_each | apply keeps_foldl
    | apply keeps_each_snd | apply keeps_foldl_snd | apply keeps_id | refine keeps_of_eq (by assumption) ?_ | split
    | dsimp only

theorem Dev.cmpPosOp_keeps {dev0 : Dev} {n : Nat} {v : Word} {d : Dev} (hk : Keeps dev0 d) : Keeps dev0 (Dev.cmpPosOp n v d) :=
    by
  unfold Dev.cmpPosOp
  with_reducible repeat' first
    | assumption | intro _ | apply Dev.setReg_keeps | apply Dev.modPf_keeps | apply Dev.when_keeps
    | apply Dev.cmpBehind_keeps | apply Dev.setFld_keeps | apply Dev.setArmed_keeps | apply keeps_ite | apply keeps_ite_snd
    | apply keeps_each | apply keeps_foldl | apply keeps_each_snd | apply keeps_foldl_snd | apply keeps_id
    | refine keeps_of_eq (by assumption) ?_ | split | dsimp only

theorem execCmpPosWrite_keeps {m : Master} {n : Fin 8} {v : Word} {s : State} : Kept s (execCmpPosWrite m n v s) := by
  unfold execCmpPosWrite
  with_reducible repeat' first
    | assumption | intro _ | apply Dev.accessWrite_keeps | apply Dev.cmpPosOp_keeps | apply onDev_kept | apply keeps_ite
    | apply keeps_ite_snd | apply keeps_each | apply keeps_foldl | apply keeps_each_snd | apply keeps_foldl_snd
    | apply keeps_id | refine keeps_of_eq (by assumption) ?_ | split | dsimp only

theorem execCmpPulseEnd_keeps {n : Fin 8} {s : State} : Kept s (execCmpPulseEnd n s) := by
  unfold execCmpPulseEnd
  with_reducible repeat' first
    | assumption | intro _ | apply Dev.when_keeps | apply Dev.modPf_keeps | apply onDev_kept | apply keeps_ite
    | apply keeps_ite_snd | apply keeps_each | apply keeps_foldl | apply keeps_each_snd | apply keeps_foldl_snd
    | apply keeps_id | refine keeps_of_eq (by assumption) ?_ | split | dsimp only

theorem Dev.cmpTick_keeps {dev0 : Dev} {d : Dev} (hk : Keeps dev0 d) : Keeps dev0 (Dev.cmpTick d) := by
  unfold Dev.cmpTick
  with_reducible repeat' first
    | assumption | intro _ | apply Dev.when_keeps | apply Dev.modPf_keeps | apply Dev.setReg_keeps | apply Dev.setBit_keeps
    | apply Dev.cmpFire_keeps | apply keeps_ite | apply keeps_ite_snd | apply keeps_each | apply keeps_foldl
    | apply keeps_each_snd | apply keeps_foldl_snd | apply keeps_id | refine keeps_of_eq (by assumption) ?_ | split
    | dsimp only

theorem Dev.sloeQuad_keeps {dev0 : Dev} {n : Nat} {fwd : Bool} {d : Dev} (hk : Keeps dev0 d) : Keeps dev0 (Dev.sloeQuad n fwd d)
    := by
  unfold Dev.sloeQuad
  with_reducible repeat' first
    | assumption | intro _ | apply Dev.when_keeps | apply Dev.modSloe_keeps | apply keeps_ite | apply keeps_ite_snd
    | apply keeps_each | apply keeps_foldl | apply keeps_each_snd | apply keeps_foldl_snd | apply keeps_id
    | refine keeps_of_eq (by assumption) ?_ | split | dsimp only

theorem Dev.sloeLevels_keeps {dev0 : Dev} {n : Nat} {a1 : Bool} {b : Bool} {ns : Nat} {d : Dev} (hk : Keeps dev0 d) : Keeps dev0
    (Dev.sloeLevels n a1 b ns d) := by
  unfold Dev.sloeLevels
  with_reducible repeat' first
    | assumption | intro _ | apply Dev.modPf_keeps | apply Dev.sloeQuad_keeps | apply keeps_ite | apply keeps_ite_snd
    | apply keeps_each | apply keeps_foldl | apply keeps_each_snd | apply keeps_foldl_snd | apply keeps_id
    | refine keeps_of_eq (by assumption) ?_ | split | dsimp only

theorem Dev.sloeCode_keeps {dev0 : Dev} {n : Nat} {code : Nat} {ns : Nat} {d : Dev} (hk : Keeps dev0 d) : Keeps dev0
    (Dev.sloeCode n code ns d) := by
  unfold Dev.sloeCode
  with_reducible repeat' first
    | assumption | intro _ | apply Dev.when_keeps | apply Dev.modSloe_keeps | apply Dev.modPf_keeps | apply keeps_ite
    | apply keeps_ite_snd | apply keeps_each | apply keeps_foldl | apply keeps_each_snd | apply keeps_foldl_snd
    | apply keeps_id | refine keeps_of_eq (by assumption) ?_ | split | dsimp only

theorem Dev.abzLevels_keeps {dev0 : Dev} {n : Nat} {a1 : Bool} {b : Bool} {d : Dev} (hk : Keeps dev0 d) : Keeps dev0
    (Dev.abzLevels n a1 b d).2 := by
  unfold Dev.abzLevels
  with_reducible repeat' first
    | assumption | intro _ | apply Dev.modPf_keeps | apply Dev.bumpSat_keeps | apply Dev.raise_keeps | apply keeps_ite
    | apply keeps_ite_snd | apply keeps_each | apply keeps_foldl | apply keeps_each_snd | apply keeps_foldl_snd
    | apply keeps_id | refine keeps_of_eq (by assumption) ?_ | split | dsimp only

theorem execAbzEdge_keeps {n : Fin 8} {a1 : Bool} {b : Bool} {ns : Nat} {s : State} : Kept s (execAbzEdge n a1 b ns s) := by
  unfold execAbzEdge
  with_reducible repeat' first
    | assumption | intro _ | apply Dev.sloeLevels_keeps | apply Dev.abzLevels_keeps | apply Dev.setFld_keeps
    | apply Dev.setReg_keeps | apply Dev.modPf_keeps | apply Dev.emuFollow_keeps | apply Dev.cmpStep_keeps
    | apply Dev.speedEdge_keeps | apply onDev_kept | apply keeps_ite | apply keeps_ite_snd | apply keeps_each
    | apply keeps_foldl | apply keeps_each_snd | apply keeps_foldl_snd | apply keeps_id
    | refine keeps_of_eq (by assumption) ?_ | split | dsimp only

theorem execIndex_keeps {n : Fin 8} {a1 : Bool} {b : Bool} {ns : Nat} {s : State} : Kept s (execIndex n a1 b ns s) := by
  unfold execIndex
  with_reducible repeat' first
    | assumption | intro _ | apply Dev.sloeLevels_keeps | apply Dev.abzLevels_keeps | apply Dev.speedEdge_keeps
    | apply Dev.modPf_keeps | apply Dev.cmpStep_keeps | apply Dev.setFld_keeps | apply Dev.setReg_keeps
    | apply Dev.when_keeps | apply Dev.raise_keeps | apply Dev.setBit_keeps | apply Dev.emuFollow_keeps | apply onDev_kept
    | apply keeps_ite | apply keeps_ite_snd | apply keeps_each | apply keeps_foldl | apply keeps_each_snd
    | apply keeps_foldl_snd | apply keeps_id | refine keeps_of_eq (by assumption) ?_ | split | dsimp only

theorem execZhome_keeps {m : Master} {n : Fin 8} {s : State} : Kept s (execZhome m n s) := by
  unfold execZhome
  with_reducible repeat' first
    | assumption | intro _ | apply Dev.accessWrite_keeps | apply Dev.setBit_keeps | apply onDev_kept | apply keeps_ite
    | apply keeps_ite_snd | apply keeps_each | apply keeps_foldl | apply keeps_each_snd | apply keeps_foldl_snd
    | apply keeps_id | refine keeps_of_eq (by assumption) ?_ | split | dsimp only

theorem Dev.hallOp_keeps {dev0 : Dev} {n : Nat} {code : Nat} {d : Dev} (hk : Keeps dev0 d) : Keeps dev0 (Dev.hallOp n code d) :=
    by
  unfold Dev.hallOp
  with_reducible repeat' first
    | assumption | intro _ | apply Dev.setFld_keeps | apply Dev.mcHallError_keeps | apply Dev.raise_keeps
    | apply Dev.mcHallEdge_keeps | apply Dev.speedEdge_keeps | apply Dev.setReg_keeps | apply keeps_ite
    | apply keeps_ite_snd | apply keeps_each | apply keeps_foldl | apply keeps_each_snd | apply keeps_foldl_snd
    | apply keeps_id | refine keeps_of_eq (by assumption) ?_ | split | dsimp only

theorem execHallChange_keeps {n : Fin 8} {code : Fin 8} {ns : Nat} {s : State} : Kept s (execHallChange n code ns s) := by
  unfold execHallChange
  with_reducible repeat' first
    | assumption | intro _ | apply Dev.sloeCode_keeps | apply Dev.modPf_keeps | apply Dev.when_keeps
    | apply Dev.hallOp_keeps | apply onDev_kept | apply keeps_ite | apply keeps_ite_snd | apply keeps_each
    | apply keeps_foldl | apply keeps_each_snd | apply keeps_foldl_snd | apply keeps_id
    | refine keeps_of_eq (by assumption) ?_ | split | dsimp only

theorem Dev.hallStart_keeps {dev0 : Dev} {n : Nat} {d : Dev} (hk : Keeps dev0 d) : Keeps dev0 (Dev.hallStart n d) := by
  unfold Dev.hallStart
  with_reducible repeat' first
    | assumption | intro _ | apply Dev.setFld_keeps | apply keeps_ite | apply keeps_ite_snd | apply keeps_each
    | apply keeps_foldl | apply keeps_each_snd | apply keeps_foldl_snd | apply keeps_id
    | refine keeps_of_eq (by assumption) ?_ | split | dsimp only

theorem Dev.serRequest_keeps {dev0 : Dev} {n : Nat} {d : Dev} (hk : Keeps dev0 d) : Keeps dev0 (Dev.serRequest n d) := by
  unfold Dev.serRequest
  with_reducible repeat' first
    | assumption | intro _ | apply Dev.bumpSat_keeps | apply Dev.raise_keeps | apply Dev.setBit_keeps
    | apply Dev.modPf_keeps | apply keeps_ite | apply keeps_ite_snd | apply keeps_each | apply keeps_foldl
    | apply keeps_each_snd | apply keeps_foldl_snd | apply keeps_id | refine keeps_of_eq (by assumption) ?_ | split
    | dsimp only

theorem execSerialRequest_keeps {n : Fin 8} {s : State} : Kept s (execSerialRequest n s) := by
  unfold execSerialRequest
  with_reducible repeat' first
    | assumption | intro _ | apply Dev.when_keeps | apply Dev.serRequest_keeps | apply Dev.modPf_keeps | apply onDev_kept
    | apply keeps_ite | apply keeps_ite_snd | apply keeps_each | apply keeps_foldl | apply keeps_each_snd
    | apply keeps_foldl_snd | apply keeps_id | refine keeps_of_eq (by assumption) ?_ | split | dsimp only

theorem Dev.serCmdOp_keeps {dev0 : Dev} {n : Nat} {v : Word} {d : Dev} (hk : Keeps dev0 d) : Keeps dev0 (Dev.serCmdOp n v d) :=
    by
  unfold Dev.serCmdOp
  with_reducible repeat' first
    | assumption | intro _ | apply Dev.when_keeps | apply Dev.serRequest_keeps | apply keeps_ite | apply keeps_ite_snd
    | apply keeps_each | apply keeps_foldl | apply keeps_each_snd | apply keeps_foldl_snd | apply keeps_id
    | refine keeps_of_eq (by assumption) ?_ | split | dsimp only

theorem execSerCmdReq_keeps {m : Master} {n : Fin 8} {s : State} : Kept s (execSerCmdReq m n s) := by
  unfold execSerCmdReq
  with_reducible repeat' first
    | assumption | intro _ | apply Dev.accessWrite_keeps | apply Dev.serCmdOp_keeps | apply onDev_kept | apply keeps_ite
    | apply keeps_ite_snd | apply keeps_each | apply keeps_foldl | apply keeps_each_snd | apply keeps_foldl_snd
    | apply keeps_id | refine keeps_of_eq (by assumption) ?_ | split | dsimp only

theorem Dev.serEnd_keeps {dev0 : Dev} {n : Nat} {d : Dev} (hk : Keeps dev0 d) : Keeps dev0 (Dev.serEnd n d) := by
  unfold Dev.serEnd
  with_reducible repeat' first
    | assumption | intro _ | apply Dev.modPf_keeps | apply keeps_ite | apply keeps_ite_snd | apply keeps_each
    | apply keeps_foldl | apply keeps_each_snd | apply keeps_foldl_snd | apply keeps_id
    | refine keeps_of_eq (by assumption) ?_ | split | dsimp only

theorem Dev.serFail_keeps {dev0 : Dev} {n : Nat} {d : Dev} (hk : Keeps dev0 d) : Keeps dev0 (Dev.serFail n d) := by
  unfold Dev.serFail
  with_reducible repeat' first
    | assumption | intro _ | apply Dev.bumpSat_keeps | apply Dev.setBit_keeps | apply Dev.mcFbLost_keeps
    | apply Dev.raise_keeps | apply Dev.emuFollow_keeps | apply keeps_ite | apply keeps_ite_snd | apply keeps_each
    | apply keeps_foldl | apply keeps_each_snd | apply keeps_foldl_snd | apply keeps_id
    | refine keeps_of_eq (by assumption) ?_ | split | dsimp only

theorem Dev.serValid_keeps {dev0 : Dev} {n : Nat} {pos : Nat} {d : Dev} (hk : Keeps dev0 d) : Keeps dev0 (Dev.serValid n pos d)
    := by
  unfold Dev.serValid
  with_reducible repeat' first
    | assumption | intro _ | apply Dev.setReg_keeps | apply Dev.setFld_keeps | apply Dev.setBit_keeps
    | apply Dev.modPf_keeps | apply Dev.emuTargeted_keeps | apply Dev.cmpStep_keeps | apply Dev.speedEdge_keeps
    | apply keeps_ite | apply keeps_ite_snd | apply keeps_each | apply keeps_foldl | apply keeps_each_snd
    | apply keeps_foldl_snd | apply keeps_id | refine keeps_of_eq (by assumption) ?_ | split | dsimp only

theorem Dev.serTaken_keeps {dev0 : Dev} {n : Nat} {bits : List Bool} {d : Dev} (hk : Keeps dev0 d) : Keeps dev0 (Dev.serTaken n
    bits d) := by
  unfold Dev.serTaken
  with_reducible repeat' first
    | assumption | intro _ | apply Dev.serEnd_keeps | apply Dev.when_keeps | apply Dev.raise_keeps | apply Dev.serFail_keeps
    | apply Dev.serValid_keeps | apply keeps_ite | apply keeps_ite_snd | apply keeps_each | apply keeps_foldl
    | apply keeps_each_snd | apply keeps_foldl_snd | apply keeps_id | refine keeps_of_eq (by assumption) ?_ | split
    | dsimp only

theorem execSerialTransferDone_keeps {n : Fin 8} {bits : List Bool} {s : State} : Kept s (execSerialTransferDone n bits s) := by
  unfold execSerialTransferDone
  with_reducible repeat' first
    | assumption | intro _ | apply Dev.when_keeps | apply Dev.serTaken_keeps | apply onDev_kept | apply keeps_ite
    | apply keeps_ite_snd | apply keeps_each | apply keeps_foldl | apply keeps_each_snd | apply keeps_foldl_snd
    | apply keeps_id | refine keeps_of_eq (by assumption) ?_ | split | dsimp only

theorem execSerTimeout_keeps {n : Fin 8} {s : State} : Kept s (execSerTimeout n s) := by
  unfold execSerTimeout
  with_reducible repeat' first
    | assumption | intro _ | apply Dev.when_keeps | apply Dev.serFail_keeps | apply Dev.raise_keeps | apply Dev.serEnd_keeps
    | apply onDev_kept | apply keeps_ite | apply keeps_ite_snd | apply keeps_each | apply keeps_foldl | apply keeps_each_snd
    | apply keeps_foldl_snd | apply keeps_id | refine keeps_of_eq (by assumption) ?_ | split | dsimp only

theorem execSerialRecoveryDone_keeps {n : Fin 8} {s : State} : Kept s (execSerialRecoveryDone n s) := by
  unfold execSerialRecoveryDone
  with_reducible repeat' first
    | assumption | intro _ | apply Dev.when_keeps | apply Dev.setBit_keeps | apply Dev.modPf_keeps | apply onDev_kept
    | apply keeps_ite | apply keeps_ite_snd | apply keeps_each | apply keeps_foldl | apply keeps_each_snd
    | apply keeps_foldl_snd | apply keeps_id | refine keeps_of_eq (by assumption) ?_ | split | dsimp only

theorem Dev.serStart_keeps {dev0 : Dev} {n : Nat} {d : Dev} (hk : Keeps dev0 d) : Keeps dev0 (Dev.serStart n d) := by
  unfold Dev.serStart
  with_reducible repeat' first
    | assumption | intro _ | apply Dev.modPf_keeps | apply keeps_ite | apply keeps_ite_snd | apply keeps_each
    | apply keeps_foldl | apply keeps_each_snd | apply keeps_foldl_snd | apply keeps_id
    | refine keeps_of_eq (by assumption) ?_ | split | dsimp only

theorem Dev.serStop_keeps {dev0 : Dev} {n : Nat} {d : Dev} (hk : Keeps dev0 d) : Keeps dev0 (Dev.serStop n d) := by
  unfold Dev.serStop
  with_reducible repeat' first
    | assumption | intro _ | apply Dev.setBit_keeps | apply Dev.modPf_keeps | apply keeps_ite | apply keeps_ite_snd
    | apply keeps_each | apply keeps_foldl | apply keeps_each_snd | apply keeps_foldl_snd | apply keeps_id
    | refine keeps_of_eq (by assumption) ?_ | split | dsimp only

theorem Dev.posLatch_keeps {dev0 : Dev} {g : Nat} {d : Dev} (hk : Keeps dev0 d) : Keeps dev0 (Dev.posLatch g d) := by
  unfold Dev.posLatch
  with_reducible repeat' first
    | assumption | intro _ | apply Dev.modPf_keeps | apply keeps_ite | apply keeps_ite_snd | apply keeps_each
    | apply keeps_foldl | apply keeps_each_snd | apply keeps_foldl_snd | apply keeps_id
    | refine keeps_of_eq (by assumption) ?_ | split | dsimp only

theorem Dev.posReplace_keeps {dev0 : Dev} {g : Nat} {d : Dev} (hk : Keeps dev0 d) : Keeps dev0 (Dev.posReplace g d) := by
  unfold Dev.posReplace
  with_reducible repeat' first
    | assumption | intro _ | apply Dev.modPf_keeps | apply Dev.setReg_keeps | apply keeps_ite | apply keeps_ite_snd
    | apply keeps_each | apply keeps_foldl | apply keeps_each_snd | apply keeps_foldl_snd | apply keeps_id
    | refine keeps_of_eq (by assumption) ?_ | split | dsimp only

end Sys2Proof.Machine
end

