-- ==== Sys2Proof/Laws/KeepsTriad.lean ====
section
/-!
SUPPORT. What the operations of Machine/Triad.lean keep: see Keeps.lean.
-/

namespace Sys2Proof.Machine

theorem Dev.modCore_keeps {dev0 : Dev} {c : Nat} {f : TriadCore → TriadCore} {d : Dev} (hk : Keeps dev0 d) : Keeps dev0
    (Dev.modCore c f d) := by
  unfold Dev.modCore
  with_reducible repeat' first
    | assumption | intro _ | apply Dev.modTriad_keeps | apply keeps_ite | apply keeps_ite_snd | apply keeps_each
    | apply keeps_foldl | apply keeps_each_snd | apply keeps_foldl_snd | apply keeps_id
    | refine keeps_of_eq (by assumption) ?_ | split | dsimp only

theorem Dev.triadFatal_keeps {dev0 : Dev} {cause : Nat} {d : Dev} (hk : Keeps dev0 d) : Keeps dev0 (Dev.triadFatal cause d) :=
    by
  unfold Dev.triadFatal
  with_reducible repeat' first
    | assumption | intro _ | apply Dev.assertSource_keeps | apply Dev.triadFatalLatch_keeps | apply keeps_ite
    | apply keeps_ite_snd | apply keeps_each | apply keeps_foldl | apply keeps_each_snd | apply keeps_foldl_snd
    | apply keeps_id | refine keeps_of_eq (by assumption) ?_ | split | dsimp only

theorem Dev.markOdd_keeps {dev0 : Dev} {c : Nat} {kind : Nat} {d : Dev} (hk : Keeps dev0 d) : Keeps dev0 (Dev.markOdd c kind d)
    := by
  unfold Dev.markOdd
  with_reducible repeat' first
    | assumption | intro _ | apply Dev.raise_keeps | apply Dev.setBit_keeps | apply Dev.when_keeps | apply Dev.setReg_keeps
    | apply Dev.bumpSat_keeps | apply Dev.setFld_keeps | apply Dev.modTriad_keeps | apply Dev.triadFatal_keeps
    | apply keeps_ite | apply keeps_ite_snd | apply keeps_each | apply keeps_foldl | apply keeps_each_snd
    | apply keeps_foldl_snd | apply keeps_id | refine keeps_of_eq (by assumption) ?_ | split | dsimp only

theorem Dev.setCopy_keeps {dev0 : Dev} {c x : Nat} {bs : List Byte} {d : Dev} (hk : Keeps dev0 d) : Keeps dev0 (Dev.setCopy c x bs d) :=
  ⟨fun ha => (hk.wf ha).setCopy c x bs, hk.sig, hk.hash, hk.mac, hk.now, hk.count, hk.legs⟩

theorem Dev.eccRepair_keeps {dev0 : Dev} {a0 : Nat} {bad : BitVec 3} {d : Dev} (hk : Keeps dev0 d) : Keeps dev0 (Dev.eccRepair
    a0 bad d) := by
  unfold Dev.eccRepair
  with_reducible repeat' first
    | assumption | intro _ | apply Dev.bumpSat_keeps | apply Dev.raise_keeps | apply Dev.setCopy_keeps
    | apply Dev.triadFatal_keeps | apply keeps_ite | apply keeps_ite_snd | apply keeps_each | apply keeps_foldl
    | apply keeps_each_snd | apply keeps_foldl_snd | apply keeps_id | refine keeps_of_eq (by assumption) ?_ | split
    | dsimp only

theorem Dev.coreStore_keeps {dev0 : Dev} {c : Nat} {a1 : Nat} {bs : List Byte} {d : Dev} (hk : Keeps dev0 d) : Keeps dev0
    (Dev.coreStore c a1 bs d) := by
  unfold Dev.coreStore
  with_reducible repeat' first
    | assumption | intro _ | apply Dev.modCore_keeps | apply Dev.setCopy_keeps | apply keeps_ite | apply keeps_ite_snd
    | apply keeps_each | apply keeps_foldl | apply keeps_each_snd | apply keeps_foldl_snd | apply keeps_id
    | refine keeps_of_eq (by assumption) ?_ | split | dsimp only

theorem execTriadTcmAccess_keeps {c : Fin 3} {addr : BitVec 32} {bytes : Nat} {st : Option Word} {bad : BitVec 3} {s : State} :
    Kept s (execTriadTcmAccess c addr bytes st bad s) := by
  unfold execTriadTcmAccess
  with_reducible repeat' first
    | assumption | intro _ | apply Dev.eccRepair_keeps | apply Dev.putReadData_keeps | apply Dev.coreStore_keeps
    | apply onDev_kept | apply keeps_ite | apply keeps_ite_snd | apply keeps_each | apply keeps_foldl | apply keeps_each_snd
    | apply keeps_foldl_snd | apply keeps_id | refine keeps_of_eq (by assumption) ?_ | split | dsimp only

theorem Dev.triadEvents_keeps {dev0 : Dev} {level : Bool} {differ : BitVec 3} {d : Dev} (hk : Keeps dev0 d) : Keeps dev0
    (Dev.triadEvents level differ d) := by
  unfold Dev.triadEvents
  with_reducible repeat' first
    | assumption | intro _ | apply Dev.modCore_keeps | apply Dev.modTriad_keeps | apply Dev.when_keeps | apply keeps_ite
    | apply keeps_ite_snd | apply keeps_each | apply keeps_foldl | apply keeps_each_snd | apply keeps_foldl_snd
    | apply keeps_id | refine keeps_of_eq (by assumption) ?_ | split | dsimp only

theorem Dev.resync_keeps {dev0 : Dev} {wasOdd : List Nat} {d : Dev} (hk : Keeps dev0 d) : Keeps dev0 (Dev.resync wasOdd d) := by
  unfold Dev.resync
  with_reducible repeat' first
    | assumption | intro _ | apply Dev.modCore_keeps | apply Dev.setCopy_keeps | apply Dev.raise_keeps
    | apply Dev.setBit_keeps | apply Dev.setFld_keeps | apply keeps_ite | apply keeps_ite_snd | apply keeps_each
    | apply keeps_foldl | apply keeps_each_snd | apply keeps_foldl_snd | apply keeps_id
    | refine keeps_of_eq (by assumption) ?_ | split | dsimp only

theorem execSyncPoint_keeps {va : VoterTest} {vb : VoterTest} {s : State} : Kept s (execSyncPoint va vb s) := by
  unfold execSyncPoint
  with_reducible repeat' first
    | assumption | intro _ | apply Dev.bumpWrap_keeps | apply Dev.modTriad_keeps | apply Dev.triadFatal_keeps
    | apply Dev.setReg_keeps | apply Dev.setFld_keeps | apply Dev.markOdd_keeps | apply Dev.resync_keeps
    | apply Dev.modCore_keeps | apply onDev_kept | apply keeps_ite | apply keeps_ite_snd | apply keeps_each
    | apply keeps_foldl | apply keeps_each_snd | apply keeps_foldl_snd | apply keeps_id
    | refine keeps_of_eq (by assumption) ?_ | split | dsimp only

theorem Dev.mbxPostOp_keeps {dev0 : Dev} {m : Master} {v : Word} {d : Dev} (hk : Keeps dev0 d) : Keeps dev0 (Dev.mbxPostOp m v
    d) := by
  unfold Dev.mbxPostOp
  with_reducible repeat' first
    | assumption | intro _ | apply Dev.discard_keeps | apply Dev.setBit_keeps | apply Dev.raise_keeps | apply keeps_ite
    | apply keeps_ite_snd | apply keeps_each | apply keeps_foldl | apply keeps_each_snd | apply keeps_foldl_snd
    | apply keeps_id | refine keeps_of_eq (by assumption) ?_ | split | dsimp only

theorem execTriadMbxPost_keeps {m : Master} {v : Word} {s : State} : Kept s (execTriadMbxPost m v s) := by
  unfold execTriadMbxPost
  with_reducible repeat' first
    | assumption | intro _ | apply Dev.accessWrite_keeps | apply Dev.mbxPostOp_keeps | apply onDev_kept | apply keeps_ite
    | apply keeps_ite_snd | apply keeps_each | apply keeps_foldl | apply keeps_each_snd | apply keeps_foldl_snd
    | apply keeps_id | refine keeps_of_eq (by assumption) ?_ | split | dsimp only

theorem Dev.mbxInOp_keeps {dev0 : Dev} {m : Master} {k : Nat} {v : Word} {d : Dev} (hk : Keeps dev0 d) : Keeps dev0 (Dev.mbxInOp
    m k v d) := by
  unfold Dev.mbxInOp
  with_reducible repeat' first
    | assumption | intro _ | apply Dev.discard_keeps | apply Dev.setReg_keeps | apply keeps_ite | apply keeps_ite_snd
    | apply keeps_each | apply keeps_foldl | apply keeps_each_snd | apply keeps_foldl_snd | apply keeps_id
    | refine keeps_of_eq (by assumption) ?_ | split | dsimp only

theorem Dev.mbxAckOp_keeps {dev0 : Dev} {m : Master} {v : Word} {d : Dev} (hk : Keeps dev0 d) : Keeps dev0 (Dev.mbxAckOp m v d)
    := by
  unfold Dev.mbxAckOp
  with_reducible repeat' first
    | assumption | intro _ | apply Dev.discard_keeps | apply Dev.raise_keeps | apply Dev.bumpWrap_keeps
    | apply Dev.setBit_keeps | apply keeps_ite | apply keeps_ite_snd | apply keeps_each | apply keeps_foldl
    | apply keeps_each_snd | apply keeps_foldl_snd | apply keeps_id | refine keeps_of_eq (by assumption) ?_ | split
    | dsimp only

theorem execMbxAck_keeps {m : Master} {v : Word} {s : State} : Kept s (execMbxAck m v s) := by
  unfold execMbxAck
  with_reducible repeat' first
    | assumption | intro _ | apply Dev.accessWrite_keeps | apply Dev.mbxAckOp_keeps | apply onDev_kept | apply keeps_ite
    | apply keeps_ite_snd | apply keeps_each | apply keeps_foldl | apply keeps_each_snd | apply keeps_foldl_snd
    | apply keeps_id | refine keeps_of_eq (by assumption) ?_ | split | dsimp only

theorem Dev.mbxOutSeqOp_keeps {dev0 : Dev} {m : Master} {v : Word} {d : Dev} (hk : Keeps dev0 d) : Keeps dev0 (Dev.mbxOutSeqOp m
    v d) := by
  unfold Dev.mbxOutSeqOp
  with_reducible repeat' first
    | assumption | intro _ | apply Dev.raise_keeps | apply Dev.setReg_keeps | apply keeps_ite | apply keeps_ite_snd
    | apply keeps_each | apply keeps_foldl | apply keeps_each_snd | apply keeps_foldl_snd | apply keeps_id
    | refine keeps_of_eq (by assumption) ?_ | split | dsimp only

theorem Dev.mbxOutOp_keeps {dev0 : Dev} {m : Master} {k : Nat} {v : Word} {d : Dev} (hk : Keeps dev0 d) : Keeps dev0
    (Dev.mbxOutOp m k v d) := by
  unfold Dev.mbxOutOp
  with_reducible repeat' first
    | assumption | intro _ | apply Dev.setReg_keeps | apply keeps_ite | apply keeps_ite_snd | apply keeps_each
    | apply keeps_foldl | apply keeps_each_snd | apply keeps_foldl_snd | apply keeps_id
    | refine keeps_of_eq (by assumption) ?_ | split | dsimp only

theorem execMbxOutSeq_keeps {m : Master} {v : Word} {s : State} : Kept s (execMbxOutSeq m v s) := by
  unfold execMbxOutSeq
  with_reducible repeat' first
    | assumption | intro _ | apply Dev.accessWrite_keeps | apply Dev.mbxOutSeqOp_keeps | apply onDev_kept | apply keeps_ite
    | apply keeps_ite_snd | apply keeps_each | apply keeps_foldl | apply keeps_each_snd | apply keeps_foldl_snd
    | apply keeps_id | refine keeps_of_eq (by assumption) ?_ | split | dsimp only

end Sys2Proof.Machine
end

