-- ==== Sys2Proof/Laws/KeepsView.lean ====
section
/-!
SUPPORT. What the operations of Machine/View.lean keep: see Keeps.lean.
-/

namespace Sys2Proof.Machine

theorem Dev.latchTime_keeps {dev0 : Dev} {m : Master} {d : Dev} (hk : Keeps dev0 d) : Keeps dev0 (Dev.latchTime m d) := by
  unfold Dev.latchTime
  with_reducible repeat' first
    | assumption | intro _ | apply Dev.putTimeHi_keeps | apply keeps_ite | apply keeps_ite_snd | apply keeps_each
    | apply keeps_foldl | apply keeps_each_snd | apply keeps_foldl_snd | apply keeps_id
    | refine keeps_of_eq (by assumption) ?_ | split | dsimp only

theorem Dev.readEffect_keeps {dev0 : Dev} {m : Master} {page : Nat} {off : Nat} {d : Dev} (hk : Keeps dev0 d) : Keeps dev0
    (Dev.readEffect m page off d).2 := by
  unfold Dev.readEffect
  with_reducible repeat' first
    | assumption | intro _ | apply Dev.when_keeps | apply Dev.refuseSys_keeps | apply Dev.latchTime_keeps
    | apply Dev.cwReadOp_keeps | apply keeps_ite | apply keeps_ite_snd | apply keeps_each | apply keeps_foldl
    | apply keeps_each_snd | apply keeps_foldl_snd | apply keeps_id | refine keeps_of_eq (by assumption) ?_ | split
    | dsimp only

theorem Dev.busRead_keeps {dev0 : Dev} {m : Master} {a1 : Nat} {bytes : Nat} {d : Dev} (hk : Keeps dev0 d) : Keeps dev0
    (Dev.busRead m a1 bytes d).2 := by
  unfold Dev.busRead
  with_reducible repeat' first
    | assumption | intro _ | apply Dev.refuseSys_keeps | apply Dev.refuse_keeps | apply Dev.readEffect_keeps
    | apply Dev.touchDram_keeps | apply Dev.putReadData_keeps | apply keeps_ite | apply keeps_ite_snd | apply keeps_each
    | apply keeps_foldl | apply keeps_each_snd | apply keeps_foldl_snd | apply keeps_id
    | refine keeps_of_eq (by assumption) ?_ | split | dsimp only

theorem Dev.portRead_keeps {dev0 : Dev} {m : Master} {a1 : Nat} {ecc : Ecc} {same : Bool} {d : Dev} (hk : Keeps dev0 d) : Keeps
    dev0 (Dev.portRead m a1 ecc same d).2 := by
  unfold Dev.portRead
  with_reducible repeat' first
    | assumption | intro _ | apply Dev.busRead_keeps | apply Dev.eccCorrected_keeps | apply Dev.free_keeps
    | apply Dev.eccUnc_keeps | apply Dev.putReadData_keeps | apply keeps_ite | apply keeps_ite_snd | apply keeps_each
    | apply keeps_foldl | apply keeps_each_snd | apply keeps_foldl_snd | apply keeps_id
    | refine keeps_of_eq (by assumption) ?_ | split | dsimp only

theorem execTimeLoRead_keeps {m : Master} {lane : Fin 4} {bytes : Nat} {s : State} : Kept s (execTimeLoRead m lane bytes s) :=
    by
  unfold execTimeLoRead
  with_reducible repeat' first
    | assumption | intro _ | apply Dev.busRead_keeps | apply onDev_kept | apply keeps_ite | apply keeps_ite_snd
    | apply keeps_each | apply keeps_foldl | apply keeps_each_snd | apply keeps_foldl_snd | apply keeps_id
    | refine keeps_of_eq (by assumption) ?_ | split | dsimp only

end Sys2Proof.Machine
end

