-- ==== Sys2Proof/Laws/KeepsRoles.lean ====
section
/-!
SUPPORT. What the operations of Machine/Roles.lean keep: see Keeps.lean.
-/

namespace Sys2Proof.Machine

theorem Dev.leTaken_keeps {dev0 : Dev} {old : Dev} {e : Nat} {d : Dev} (hk : Keeps dev0 d) : Keeps dev0 (Dev.leTaken old e d) :=
    by
  unfold Dev.leTaken
  with_reducible repeat' first
    | assumption | intro _ | apply Dev.modEngine_keeps | apply Dev.bumpGen_keeps | apply Dev.swapIdle_keeps
    | apply keeps_ite | apply keeps_ite_snd | apply keeps_each | apply keeps_foldl | apply keeps_each_snd
    | apply keeps_foldl_snd | apply keeps_id | refine keeps_of_eq (by assumption) ?_ | split | dsimp only

theorem Dev.pgTaken_keeps {dev0 : Dev} {old : Dev} {hit : Nat → Bool} {g : Nat} {d : Dev} (hk : Keeps dev0 d) : Keeps dev0
    (Dev.pgTaken old hit g d) := by
  unfold Dev.pgTaken
  with_reducible repeat' first
    | assumption | intro _ | apply Dev.when_keeps | apply Dev.groupEnable_keeps | apply Dev.awaitStart_keeps
    | apply Dev.ditherRestart_keeps | apply Dev.tripLevels_keeps | apply Dev.settle_keeps | apply keeps_ite
    | apply keeps_ite_snd | apply keeps_each | apply keeps_foldl | apply keeps_each_snd | apply keeps_foldl_snd
    | apply keeps_id | refine keeps_of_eq (by assumption) ?_ | split | dsimp only

theorem Dev.tripInTaken_keeps {dev0 : Dev} {old : Dev} {i : Nat} {d : Dev} (hk : Keeps dev0 d) : Keeps dev0 (Dev.tripInTaken old
    i d) := by
  unfold Dev.tripInTaken
  with_reducible repeat' first
    | assumption | intro _ | apply Dev.when_keeps | apply Dev.tripInputSet_keeps | apply Dev.tripFromInput_keeps
    | apply keeps_ite | apply keeps_ite_snd | apply keeps_each | apply keeps_foldl | apply keeps_each_snd
    | apply keeps_foldl_snd | apply keeps_id | refine keeps_of_eq (by assumption) ?_ | split | dsimp only

theorem Dev.acTaken_keeps {dev0 : Dev} {old : Dev} {c : Nat} {d : Dev} (hk : Keeps dev0 d) : Keeps dev0 (Dev.acTaken old c d) :=
    by
  unfold Dev.acTaken
  with_reducible repeat' first
    | assumption | intro _ | apply Dev.when_keeps | apply Dev.modConv_keeps | apply Dev.trimStart_keeps | apply keeps_ite
    | apply keeps_ite_snd | apply keeps_each | apply keeps_foldl | apply keeps_each_snd | apply keeps_foldl_snd
    | apply keeps_id | refine keeps_of_eq (by assumption) ?_ | split | dsimp only

theorem Dev.adcsysTaken_keeps {dev0 : Dev} {old : Dev} {d : Dev} (hk : Keeps dev0 d) : Keeps dev0 (Dev.adcsysTaken old d) := by
  unfold Dev.adcsysTaken
  with_reducible repeat' first
    | assumption | intro _ | apply Dev.refDrop_keeps | apply Dev.when_keeps | apply Dev.modAcq_keeps
    | apply Dev.cmpConfigured_keeps | apply Dev.sdConfigured_keeps | apply Dev.sdckStart_keeps | apply keeps_ite
    | apply keeps_ite_snd | apply keeps_each | apply keeps_foldl | apply keeps_each_snd | apply keeps_foldl_snd
    | apply keeps_id | refine keeps_of_eq (by assumption) ?_ | split | dsimp only

theorem Dev.accTaken_keeps {dev0 : Dev} {old : Dev} {i : Nat} {d : Dev} (hk : Keeps dev0 d) : Keeps dev0 (Dev.accTaken old i d)
    := by
  unfold Dev.accTaken
  with_reducible repeat' first
    | assumption | intro _ | apply Dev.when_keeps | apply Dev.modAcc_keeps | apply keeps_ite | apply keeps_ite_snd
    | apply keeps_each | apply keeps_foldl | apply keeps_each_snd | apply keeps_foldl_snd | apply keeps_id
    | refine keeps_of_eq (by assumption) ?_ | split | dsimp only

theorem Dev.mmxTaken_keeps {dev0 : Dev} {old : Dev} {i : Nat} {d : Dev} (hk : Keeps dev0 d) : Keeps dev0 (Dev.mmxTaken old i d)
    := by
  unfold Dev.mmxTaken
  with_reducible repeat' first
    | assumption | intro _ | apply Dev.when_keeps | apply Dev.modMmx_keeps | apply keeps_ite | apply keeps_ite_snd
    | apply keeps_each | apply keeps_foldl | apply keeps_each_snd | apply keeps_foldl_snd | apply keeps_id
    | refine keeps_of_eq (by assumption) ?_ | split | dsimp only

theorem Dev.pfTaken_keeps {dev0 : Dev} {old : Dev} {n : Nat} {d : Dev} (hk : Keeps dev0 d) : Keeps dev0 (Dev.pfTaken old n d) :=
    by
  unfold Dev.pfTaken
  with_reducible repeat' first
    | assumption | intro _ | apply Dev.when_keeps | apply Dev.setBit_keeps | apply Dev.hallStart_keeps
    | apply Dev.serStop_keeps | apply Dev.serStart_keeps | apply Dev.speedStart_keeps | apply Dev.speedRetimed_keeps
    | apply Dev.modPf_keeps | apply Dev.emuFollow_keeps | apply Dev.emuStart_keeps | apply Dev.emuOne_keeps
    | apply keeps_ite | apply keeps_ite_snd | apply keeps_each | apply keeps_foldl | apply keeps_each_snd
    | apply keeps_foldl_snd | apply keeps_id | refine keeps_of_eq (by assumption) ?_ | split | dsimp only

theorem Dev.mcTaken_keeps {dev0 : Dev} {old : Dev} {n : Nat} {d : Dev} (hk : Keeps dev0 d) : Keeps dev0 (Dev.mcTaken old n d) :=
    by
  unfold Dev.mcTaken
  with_reducible repeat' first
    | assumption | intro _ | apply Dev.when_keeps | apply Dev.mcConfigured_keeps | apply Dev.overVoltCheck_keeps
    | apply Dev.brakeUpdate_keeps | apply Dev.setMstate_keeps | apply keeps_ite | apply keeps_ite_snd | apply keeps_each
    | apply keeps_foldl | apply keeps_each_snd | apply keeps_foldl_snd | apply keeps_id
    | refine keeps_of_eq (by assumption) ?_ | split | dsimp only

theorem Dev.partTaken_keeps {dev0 : Dev} {d : Dev} (hk : Keeps dev0 d) : Keeps dev0 (Dev.partTaken d) := by
  unfold Dev.partTaken
  with_reducible repeat' first
    | assumption | intro _ | apply Dev.setBit_keeps | apply keeps_ite | apply keeps_ite_snd | apply keeps_each
    | apply keeps_foldl | apply keeps_each_snd | apply keeps_foldl_snd | apply keeps_id
    | refine keeps_of_eq (by assumption) ?_ | split | dsimp only

theorem Dev.pageTaken_keeps {dev0 : Dev} {old : Dev} {hit : Nat → Bool} {page : Nat} {d : Dev} (hk : Keeps dev0 d) : Keeps dev0
    (Dev.pageTaken old hit page d) := by
  unfold Dev.pageTaken
  with_reducible repeat' first
    | assumption | intro _ | apply Dev.leTaken_keeps | apply Dev.pgTaken_keeps | apply Dev.tripInTaken_keeps
    | apply Dev.when_keeps | apply Dev.laneEnable_keeps | apply Dev.acTaken_keeps | apply Dev.adcsysTaken_keeps
    | apply Dev.accTaken_keeps | apply Dev.mmxTaken_keeps | apply Dev.cmpConfigured_keeps | apply Dev.sdConfigured_keeps
    | apply Dev.pfTaken_keeps | apply Dev.cmdinConfigured_keeps | apply Dev.mcTaken_keeps | apply Dev.partTaken_keeps
    | apply keeps_ite | apply keeps_ite_snd | apply keeps_each | apply keeps_foldl | apply keeps_each_snd
    | apply keeps_foldl_snd | apply keeps_id | refine keeps_of_eq (by assumption) ?_ | split | dsimp only

theorem Dev.taken_keeps {dev0 : Dev} {old : Dev} {hit : Nat → Bool} {pages : List Nat} {d : Dev} (hk : Keeps dev0 d) : Keeps
    dev0 (Dev.taken old hit pages d) := by
  unfold Dev.taken
  with_reducible repeat' first
    | assumption | intro _ | apply Dev.pageTaken_keeps | apply Dev.when_keeps | apply Dev.resolveOwners_keeps
    | apply keeps_ite | apply keeps_ite_snd | apply keeps_each | apply keeps_foldl | apply keeps_each_snd
    | apply keeps_foldl_snd | apply keeps_id | refine keeps_of_eq (by assumption) ?_ | split | dsimp only

end Sys2Proof.Machine
end

