-- ==== Sys2Proof/Laws/KeepsCommit.lean ====
section
/-!
SUPPORT. What the operations of Machine/Commit.lean keep: see Keeps.lean.
-/

namespace Sys2Proof.Machine

theorem Dev.transferPage_keeps {dev0 : Dev} {page : Nat} {d : Dev} (hk : Keeps dev0 d) : Keeps dev0 (Dev.transferPage page d) :=
    by
  unfold Dev.transferPage
  with_reducible repeat' first
    | assumption | intro _ | apply Dev.setReg_keeps | apply Dev.noteCommit_keeps | apply Dev.setBit_keeps | apply keeps_ite
    | apply keeps_ite_snd | apply keeps_each | apply keeps_foldl | apply keeps_each_snd | apply keeps_foldl_snd
    | apply keeps_id | refine keeps_of_eq (by assumption) ?_ | split | dsimp only

theorem Dev.transfer_keeps {dev0 : Dev} {pages : List Nat} {d : Dev} (hk : Keeps dev0 d) : Keeps dev0 (Dev.transfer pages d) :=
    by
  unfold Dev.transfer
  with_reducible repeat' first
    | assumption | intro _ | apply Dev.taken_keeps | apply Dev.transferPage_keeps | apply keeps_ite | apply keeps_ite_snd
    | apply keeps_each | apply keeps_foldl | apply keeps_each_snd | apply keeps_foldl_snd | apply keeps_id
    | refine keeps_of_eq (by assumption) ?_ | split | dsimp only

theorem Dev.servoEnd_keeps {dev0 : Dev} {done : Bool} {err : Nat} {d : Dev} (hk : Keeps dev0 d) : Keeps dev0 (Dev.servoEnd done
    err d) := by
  unfold Dev.servoEnd
  with_reducible repeat' first
    | assumption | intro _ | apply Dev.setBit_keeps | apply Dev.putNet_keeps | apply Dev.bumpSat_keeps | apply keeps_ite
    | apply keeps_ite_snd | apply keeps_each | apply keeps_foldl | apply keeps_each_snd | apply keeps_foldl_snd
    | apply keeps_id | refine keeps_of_eq (by assumption) ?_ | split | dsimp only

theorem Dev.commitSettle_keeps {dev0 : Dev} {d : Dev} (hk : Keeps dev0 d) : Keeps dev0 (Dev.commitSettle d) := by
  unfold Dev.commitSettle
  with_reducible repeat' first
    | assumption | intro _ | apply Dev.putLoader_keeps | apply Dev.servoEnd_keeps | apply Dev.raise_keeps
    | apply Dev.setBit_keeps | apply keeps_ite | apply keeps_ite_snd | apply keeps_each | apply keeps_foldl
    | apply keeps_each_snd | apply keeps_foldl_snd | apply keeps_id | refine keeps_of_eq (by assumption) ?_ | split
    | dsimp only

theorem Dev.commitRelease_keeps {dev0 : Dev} {d : Dev} (hk : Keeps dev0 d) : Keeps dev0 (Dev.commitRelease d) := by
  unfold Dev.commitRelease
  with_reducible repeat' first
    | assumption | intro _ | apply Dev.commitSettle_keeps | apply Dev.transfer_keeps | apply keeps_ite | apply keeps_ite_snd
    | apply keeps_each | apply keeps_foldl | apply keeps_each_snd | apply keeps_foldl_snd | apply keeps_id
    | refine keeps_of_eq (by assumption) ?_ | split | dsimp only

theorem Dev.commitBoundary_keeps {dev0 : Dev} {g : Nat} {d : Dev} (hk : Keeps dev0 d) : Keeps dev0 (Dev.commitBoundary g d) :=
    by
  unfold Dev.commitBoundary
  with_reducible repeat' first
    | assumption | intro _ | apply Dev.transfer_keeps | apply Dev.modEngine_keeps | apply Dev.commitSettle_keeps
    | apply Dev.commitRelease_keeps | apply keeps_ite | apply keeps_ite_snd | apply keeps_each | apply keeps_foldl
    | apply keeps_each_snd | apply keeps_foldl_snd | apply keeps_id | refine keeps_of_eq (by assumption) ?_ | split
    | dsimp only

theorem Dev.cfgResult_keeps {dev0 : Dev} {code : Nat} {err : Nat} {sect : Nat} {d : Dev} (hk : Keeps dev0 d) : Keeps dev0
    (Dev.cfgResult code err sect d) := by
  unfold Dev.cfgResult
  with_reducible repeat' first
    | assumption | intro _ | apply Dev.setReg_keeps | apply keeps_ite | apply keeps_ite_snd | apply keeps_each
    | apply keeps_foldl | apply keeps_each_snd | apply keeps_foldl_snd | apply keeps_id
    | refine keeps_of_eq (by assumption) ?_ | split | dsimp only

theorem Dev.cfgRefuse_keeps {dev0 : Dev} {code : Nat} {err : Nat} {d : Dev} (hk : Keeps dev0 d) : Keeps dev0 (Dev.cfgRefuse code
    err d) := by
  unfold Dev.cfgRefuse
  with_reducible repeat' first
    | assumption | intro _ | apply Dev.raise_keeps | apply Dev.cfgResult_keeps | apply keeps_ite | apply keeps_ite_snd
    | apply keeps_each | apply keeps_foldl | apply keeps_each_snd | apply keeps_foldl_snd | apply keeps_id
    | refine keeps_of_eq (by assumption) ?_ | split | dsimp only

theorem Dev.cfgCommand_keeps {dev0 : Dev} {code : Nat} {err : Nat} {op : Dev → Dev} {d : Dev} (hop : ∀ d, Keeps dev0 d → Keeps
    dev0 (op d)) (hk : Keeps dev0 d) : Keeps dev0 (Dev.cfgCommand code err op d) := by
  unfold Dev.cfgCommand
  with_reducible repeat' first
    | assumption | intro _ | apply hop | apply Dev.cfgRefuse_keeps | apply Dev.cfgResult_keeps | apply keeps_ite
    | apply keeps_ite_snd | apply keeps_each | apply keeps_foldl | apply keeps_each_snd | apply keeps_foldl_snd
    | apply keeps_id | refine keeps_of_eq (by assumption) ?_ | split | dsimp only

theorem Dev.commitStart_keeps {dev0 : Dev} {d : Dev} (hk : Keeps dev0 d) : Keeps dev0 (Dev.commitStart d) := by
  unfold Dev.commitStart
  with_reducible repeat' first
    | assumption | intro _ | apply Dev.setBit_keeps | apply Dev.putLoader_keeps | apply keeps_ite | apply keeps_ite_snd
    | apply keeps_each | apply keeps_foldl | apply keeps_each_snd | apply keeps_foldl_snd | apply keeps_id
    | refine keeps_of_eq (by assumption) ?_ | split | dsimp only

theorem Dev.commitOp_keeps {dev0 : Dev} {d : Dev} (hk : Keeps dev0 d) : Keeps dev0 (Dev.commitOp d) := by
  unfold Dev.commitOp
  with_reducible repeat' first
    | assumption | intro _ | apply Dev.cfgCommand_keeps | apply Dev.commitStart_keeps | apply keeps_ite
    | apply keeps_ite_snd | apply keeps_each | apply keeps_foldl | apply keeps_each_snd | apply keeps_foldl_snd
    | apply keeps_id | refine keeps_of_eq (by assumption) ?_ | split | dsimp only

theorem Dev.commitFail_keeps {dev0 : Dev} {err : Nat} {d : Dev} (hk : Keeps dev0 d) : Keeps dev0 (Dev.commitFail err d) := by
  unfold Dev.commitFail
  with_reducible repeat' first
    | assumption | intro _ | apply Dev.servoEnd_keeps | apply Dev.raise_keeps | apply Dev.cfgResult_keeps
    | apply Dev.setBit_keeps | apply keeps_ite | apply keeps_ite_snd | apply keeps_each | apply keeps_foldl
    | apply keeps_each_snd | apply keeps_foldl_snd | apply keeps_id | refine keeps_of_eq (by assumption) ?_ | split
    | dsimp only

theorem Dev.commitCrcEnd_keeps {dev0 : Dev} {d : Dev} (hk : Keeps dev0 d) : Keeps dev0 (Dev.commitCrcEnd d) := by
  unfold Dev.commitCrcEnd
  with_reducible repeat' first
    | assumption | intro _ | apply Dev.putLoader_keeps | apply Dev.setReg_keeps | apply Dev.commitFail_keeps
    | apply Dev.putMgmt_keeps | apply Dev.cfgResult_keeps | apply Dev.setCstate_keeps | apply Dev.setBit_keeps
    | apply Dev.commitSettle_keeps | apply Dev.commitRelease_keeps | apply Dev.transfer_keeps | apply keeps_ite
    | apply keeps_ite_snd | apply keeps_each | apply keeps_foldl | apply keeps_each_snd | apply keeps_foldl_snd
    | apply keeps_id | refine keeps_of_eq (by assumption) ?_ | split | dsimp only

theorem Dev.armOp_keeps {dev0 : Dev} {m : Master} {remote : Bool} {d : Dev} (hk : Keeps dev0 d) : Keeps dev0 (Dev.armOp m remote
    d) := by
  unfold Dev.armOp
  with_reducible repeat' first
    | assumption | intro _ | apply Dev.cfgCommand_keeps | apply Dev.setCstate_keeps | apply keeps_ite | apply keeps_ite_snd
    | apply keeps_each | apply keeps_foldl | apply keeps_each_snd | apply keeps_foldl_snd | apply keeps_id
    | refine keeps_of_eq (by assumption) ?_ | split | dsimp only

theorem Dev.disarmOp_keeps {dev0 : Dev} {d : Dev} (hk : Keeps dev0 d) : Keeps dev0 (Dev.disarmOp d) := by
  unfold Dev.disarmOp
  with_reducible repeat' first
    | assumption | intro _ | apply Dev.cfgCommand_keeps | apply Dev.setCstate_keeps | apply keeps_ite | apply keeps_ite_snd
    | apply keeps_each | apply keeps_foldl | apply keeps_each_snd | apply keeps_foldl_snd | apply keeps_id
    | refine keeps_of_eq (by assumption) ?_ | split | dsimp only

theorem Dev.ackSafeOp_keeps {dev0 : Dev} {d : Dev} (hk : Keeps dev0 d) : Keeps dev0 (Dev.ackSafeOp d) := by
  unfold Dev.ackSafeOp
  with_reducible repeat' first
    | assumption | intro _ | apply Dev.cfgCommand_keeps | apply Dev.setCstate_keeps | apply keeps_ite | apply keeps_ite_snd
    | apply keeps_each | apply keeps_foldl | apply keeps_each_snd | apply keeps_foldl_snd | apply keeps_id
    | refine keeps_of_eq (by assumption) ?_ | split | dsimp only

theorem Dev.burnHash_keeps {dev0 : Dev} {n : Nat} {d : Dev} (hk : Keeps dev0 d) : Keeps dev0 (Dev.burnHash n d) := by
  unfold Dev.burnHash
  split
  · exact hk
  · next q => exact ⟨hk.wf, hk.sig, fun h ha => by simp [hk.hash h ha] at q, hk.mac, hk.now, hk.count, hk.legs⟩

theorem Dev.burnKeyOp_keeps {dev0 : Dev} {m : Master} {d : Dev} (hk : Keeps dev0 d) : Keeps dev0 (Dev.burnKeyOp m d) := by
  unfold Dev.burnKeyOp
  with_reducible repeat' first
    | assumption | intro _ | apply Dev.cfgCommand_keeps | apply Dev.burnHash_keeps | apply keeps_ite | apply keeps_ite_snd
    | apply keeps_each | apply keeps_foldl | apply keeps_each_snd | apply keeps_foldl_snd | apply keeps_id
    | refine keeps_of_eq (by assumption) ?_ | split | dsimp only

theorem Dev.burnSig_keeps {dev0 : Dev} {d : Dev} (hk : Keeps dev0 d) : Keeps dev0 (Dev.burnSig d) :=
  ⟨hk.wf, fun _ => rfl, hk.hash, hk.mac, hk.now, hk.count, hk.legs⟩

theorem Dev.burnSigreqOp_keeps {dev0 : Dev} {m : Master} {d : Dev} (hk : Keeps dev0 d) : Keeps dev0 (Dev.burnSigreqOp m d) := by
  unfold Dev.burnSigreqOp
  with_reducible repeat' first
    | assumption | intro _ | apply Dev.cfgCommand_keeps | apply Dev.burnSig_keeps | apply keeps_ite | apply keeps_ite_snd
    | apply keeps_each | apply keeps_foldl | apply keeps_each_snd | apply keeps_foldl_snd | apply keeps_id
    | refine keeps_of_eq (by assumption) ?_ | split | dsimp only

theorem execCommit_keeps {m : Master} {s : State} : Kept s (execCommit m s) := by
  unfold execCommit
  with_reducible repeat' first
    | assumption | intro _ | apply Dev.accessWrite_keeps | apply Dev.commitOp_keeps | apply onDev_kept | apply keeps_ite
    | apply keeps_ite_snd | apply keeps_each | apply keeps_foldl | apply keeps_each_snd | apply keeps_foldl_snd
    | apply keeps_id | refine keeps_of_eq (by assumption) ?_ | split | dsimp only

theorem execCommitCrcDone_keeps {s : State} : Kept s (execCommitCrcDone s) := by
  unfold execCommitCrcDone
  with_reducible repeat' first
    | assumption | intro _ | apply Dev.when_keeps | apply Dev.commitCrcEnd_keeps | apply onDev_kept | apply keeps_ite
    | apply keeps_ite_snd | apply keeps_each | apply keeps_foldl | apply keeps_each_snd | apply keeps_foldl_snd
    | apply keeps_id | refine keeps_of_eq (by assumption) ?_ | split | dsimp only

theorem execArm_keeps {m : Master} {remote : Bool} {s : State} : Kept s (execArm m remote s) := by
  unfold execArm
  with_reducible repeat' first
    | assumption | intro _ | apply Dev.accessWrite_keeps | apply Dev.armOp_keeps | apply onDev_kept | apply keeps_ite
    | apply keeps_ite_snd | apply keeps_each | apply keeps_foldl | apply keeps_each_snd | apply keeps_foldl_snd
    | apply keeps_id | refine keeps_of_eq (by assumption) ?_ | split | dsimp only

theorem execDisarm_keeps {m : Master} {s : State} : Kept s (execDisarm m s) := by
  unfold execDisarm
  with_reducible repeat' first
    | assumption | intro _ | apply Dev.accessWrite_keeps | apply Dev.disarmOp_keeps | apply onDev_kept | apply keeps_ite
    | apply keeps_ite_snd | apply keeps_each | apply keeps_foldl | apply keeps_each_snd | apply keeps_foldl_snd
    | apply keeps_id | refine keeps_of_eq (by assumption) ?_ | split | dsimp only

theorem execAckSafe_keeps {m : Master} {s : State} : Kept s (execAckSafe m s) := by
  unfold execAckSafe
  with_reducible repeat' first
    | assumption | intro _ | apply Dev.accessWrite_keeps | apply Dev.ackSafeOp_keeps | apply onDev_kept | apply keeps_ite
    | apply keeps_ite_snd | apply keeps_each | apply keeps_foldl | apply keeps_each_snd | apply keeps_foldl_snd
    | apply keeps_id | refine keeps_of_eq (by assumption) ?_ | split | dsimp only

theorem execBurnKey_keeps {m : Master} {s : State} : Kept s (execBurnKey m s) := by
  unfold execBurnKey
  with_reducible repeat' first
    | assumption | intro _ | apply Dev.accessWrite_keeps | apply Dev.burnKeyOp_keeps | apply onDev_kept | apply keeps_ite
    | apply keeps_ite_snd | apply keeps_each | apply keeps_foldl | apply keeps_each_snd | apply keeps_foldl_snd
    | apply keeps_id | refine keeps_of_eq (by assumption) ?_ | split | dsimp only

theorem execBurnSigreq_keeps {m : Master} {s : State} : Kept s (execBurnSigreq m s) := by
  unfold execBurnSigreq
  with_reducible repeat' first
    | assumption | intro _ | apply Dev.accessWrite_keeps | apply Dev.burnSigreqOp_keeps | apply onDev_kept | apply keeps_ite
    | apply keeps_ite_snd | apply keeps_each | apply keeps_foldl | apply keeps_each_snd | apply keeps_foldl_snd
    | apply keeps_id | refine keeps_of_eq (by assumption) ?_ | split | dsimp only

theorem Dev.blockResetOp_keeps {dev0 : Dev} {m : Master} {page : Nat} {d : Dev} (hk : Keeps dev0 d) : Keeps dev0
    (Dev.blockResetOp m page d) := by
  unfold Dev.blockResetOp
  with_reducible repeat' first
    | assumption | intro _ | apply Dev.discard_keeps | apply Dev.commitRelease_keeps | apply Dev.srstOp_keeps
    | apply keeps_ite | apply keeps_ite_snd | apply keeps_each | apply keeps_foldl | apply keeps_each_snd
    | apply keeps_foldl_snd | apply keeps_id | refine keeps_of_eq (by assumption) ?_ | split | dsimp only

theorem execSrst_keeps {m : Master} {page : Nat} {s : State} : Kept s (execSrst m page s) := by
  unfold execSrst
  with_reducible repeat' first
    | assumption | intro _ | apply Dev.accessWrite_keeps | apply Dev.blockResetOp_keeps | apply onDev_kept | apply keeps_ite
    | apply keeps_ite_snd | apply keeps_each | apply keeps_foldl | apply keeps_each_snd | apply keeps_foldl_snd
    | apply keeps_id | refine keeps_of_eq (by assumption) ?_ | split | dsimp only

theorem execJtagReset_keeps {t : JtagTarget} {s : State} : Kept s (execJtagReset t s) := by
  unfold execJtagReset
  with_reducible repeat' first
    | assumption | intro _ | apply Dev.commitRelease_keeps | apply Dev.blockReset_keeps | apply Dev.putMgmt_keeps
    | apply onDev_kept | apply keeps_ite | apply keeps_ite_snd | apply keeps_each | apply keeps_foldl | apply keeps_each_snd
    | apply keeps_foldl_snd | apply keeps_id | refine keeps_of_eq (by assumption) ?_ | split | dsimp only

theorem execEngineWatchdog_keeps {e : Fin 12} {s : State} : Kept s (execEngineWatchdog e s) := by
  unfold execEngineWatchdog
  with_reducible repeat' first
    | assumption | intro _ | apply Dev.when_keeps | apply Dev.commitRelease_keeps | apply Dev.blockReset_keeps
    | apply onDev_kept | apply keeps_ite | apply keeps_ite_snd | apply keeps_each | apply keeps_foldl | apply keeps_each_snd
    | apply keeps_foldl_snd | apply keeps_id | refine keeps_of_eq (by assumption) ?_ | split | dsimp only

end Sys2Proof.Machine
end

