-- ==== Sys2Proof/Laws/KeepsMgmt.lean ====
section
/-!
SUPPORT. What the operations of Machine/Mgmt.lean keep: see Keeps.lean.
-/

namespace Sys2Proof.Machine

theorem Dev.logWrite_keeps {dev0 : Dev} {page : Nat} {kind : Nat} {bits : Word} {stat : Word} {d : Dev} (hk : Keeps dev0 d) :
    Keeps dev0 (Dev.logWrite page kind bits stat d) := by
  unfold Dev.logWrite
  with_reducible repeat' first
    | assumption | intro _ | apply Dev.setReg_keeps | apply Dev.setBytes_keeps | apply Dev.touchDram_keeps | apply keeps_ite
    | apply keeps_ite_snd | apply keeps_each | apply keeps_foldl | apply keeps_each_snd | apply keeps_foldl_snd
    | apply keeps_id | refine keeps_of_eq (by assumption) ?_ | split | dsimp only

theorem Dev.logRecover_keeps {dev0 : Dev} {d : Dev} (hk : Keeps dev0 d) : Keeps dev0 (Dev.logRecover d) := by
  unfold Dev.logRecover
  with_reducible repeat' first
    | assumption | intro _ | apply Dev.setReg_keeps | apply keeps_ite | apply keeps_ite_snd | apply keeps_each
    | apply keeps_foldl | apply keeps_each_snd | apply keeps_foldl_snd | apply keeps_id
    | refine keeps_of_eq (by assumption) ?_ | split | dsimp only

theorem Dev.setRecorded_keeps {dev0 : Dev} {page : Nat} {v : Word} {d : Dev} (hk : Keeps dev0 d) : Keeps dev0 (Dev.setRecorded
    page v d) := by
  unfold Dev.setRecorded
  with_reducible repeat' first
    | assumption | intro _ | apply Dev.putMgmt_keeps | apply keeps_ite | apply keeps_ite_snd | apply keeps_each
    | apply keeps_foldl | apply keeps_each_snd | apply keeps_foldl_snd | apply keeps_id
    | refine keeps_of_eq (by assumption) ?_ | split | dsimp only

theorem Dev.recordedTrim_keeps {dev0 : Dev} {page : Nat} {d : Dev} (hk : Keeps dev0 d) : Keeps dev0 (Dev.recordedTrim page d) :=
    by
  unfold Dev.recordedTrim
  with_reducible repeat' first
    | assumption | intro _ | apply Dev.setRecorded_keeps | apply keeps_ite | apply keeps_ite_snd | apply keeps_each
    | apply keeps_foldl | apply keeps_each_snd | apply keeps_foldl_snd | apply keeps_id
    | refine keeps_of_eq (by assumption) ?_ | split | dsimp only

theorem Dev.logEvent_keeps {dev0 : Dev} {page : Nat} {d : Dev} (hk : Keeps dev0 d) : Keeps dev0 (Dev.logEvent page d) := by
  unfold Dev.logEvent
  with_reducible repeat' first
    | assumption | intro _ | apply Dev.logWrite_keeps | apply Dev.setRecorded_keeps | apply keeps_ite | apply keeps_ite_snd
    | apply keeps_each | apply keeps_foldl | apply keeps_each_snd | apply keeps_foldl_snd | apply keeps_id
    | refine keeps_of_eq (by assumption) ?_ | split | dsimp only

theorem execEventLogEntry_keeps {k : LogKind} {s : State} : Kept s (execEventLogEntry k s) := by
  unfold execEventLogEntry
  with_reducible repeat' first
    | assumption | intro _ | apply Dev.logEvent_keeps | apply Dev.logWrite_keeps | apply Dev.putMgmt_keeps
    | apply Dev.free_keeps | apply onDev_kept | apply keeps_ite | apply keeps_ite_snd | apply keeps_each | apply keeps_foldl
    | apply keeps_each_snd | apply keeps_foldl_snd | apply keeps_id | refine keeps_of_eq (by assumption) ?_ | split
    | dsimp only

theorem Dev.scrubUnc_keeps {dev0 : Dev} {key : Nat} {keyAddr : Nat} {evt : Nat} {as : List Nat} {d : Dev} (hk : Keeps dev0 d) :
    Keeps dev0 (Dev.scrubUnc key keyAddr evt as d) := by
  unfold Dev.scrubUnc
  with_reducible repeat' first
    | assumption | intro _ | apply Dev.raise_keeps | apply Dev.bumpSat_keeps | apply Dev.setReg_keeps
    | apply Dev.setBit_keeps | apply keeps_ite | apply keeps_ite_snd | apply keeps_each | apply keeps_foldl
    | apply keeps_each_snd | apply keeps_foldl_snd | apply keeps_id | refine keeps_of_eq (by assumption) ?_ | split
    | dsimp only

theorem Dev.passEnds_keeps {dev0 : Dev} {late : Bool} {stat : Nat} {d : Dev} (hk : Keeps dev0 d) : Keeps dev0 (Dev.passEnds late
    stat d) := by
  unfold Dev.passEnds
  with_reducible repeat' first
    | assumption | intro _ | apply Dev.raise_keeps | apply Dev.setBit_keeps | apply Dev.bumpWrap_keeps | apply keeps_ite
    | apply keeps_ite_snd | apply keeps_each | apply keeps_foldl | apply keeps_each_snd | apply keeps_foldl_snd
    | apply keeps_id | refine keeps_of_eq (by assumption) ?_ | split | dsimp only

theorem Dev.scrubPass_keeps {dev0 : Dev} {fixed : List Nat} {bad : List Nat} {corr : Nat} {unc : Nat} {uncAddr : Nat} {evt :
    Nat} {d : Dev} (hk : Keeps dev0 d) : Keeps dev0 (Dev.scrubPass fixed bad corr unc uncAddr evt d) := by
  unfold Dev.scrubPass
  with_reducible repeat' first
    | assumption | intro _ | apply Dev.when_keeps | apply Dev.raise_keeps | apply Dev.addSat_keeps
    | apply Dev.scrubUnc_keeps | apply keeps_ite | apply keeps_ite_snd | apply keeps_each | apply keeps_foldl
    | apply keeps_each_snd | apply keeps_foldl_snd | apply keeps_id | refine keeps_of_eq (by assumption) ?_ | split
    | dsimp only

theorem Dev.scrubL2_keeps {dev0 : Dev} {fixed bad : Nat} {d : Dev} (hk : Keeps dev0 d) : Keeps dev0 (Dev.scrubL2 fixed bad d) := by
  unfold Dev.scrubL2
  with_reducible repeat' first
    | assumption | intro _ | apply Dev.when_keeps | apply Dev.raise_keeps | apply Dev.addSat_keeps
    | apply Dev.scrubUnc_keeps | apply Dev.free_keeps | apply keeps_ite | apply keeps_id
    | refine keeps_of_eq (by assumption) ?_ | split | dsimp only

theorem Dev.tcmCorrected_keeps {dev0 : Dev} {a0 : Nat} {d : Dev} (hk : Keeps dev0 d) : Keeps dev0 (Dev.tcmCorrected a0 d) := by
  unfold Dev.tcmCorrected
  with_reducible repeat' first
    | assumption | intro _ | apply Dev.eccCorrected_keeps | apply keeps_ite | apply keeps_ite_snd | apply keeps_each
    | apply keeps_foldl | apply keeps_each_snd | apply keeps_foldl_snd | apply keeps_id
    | refine keeps_of_eq (by assumption) ?_ | split | dsimp only

theorem Dev.tcmUnc_keeps {dev0 : Dev} {a0 : Nat} {d : Dev} (hk : Keeps dev0 d) : Keeps dev0 (Dev.tcmUnc a0 d) := by
  unfold Dev.tcmUnc
  with_reducible repeat' first
    | assumption | intro _ | apply Dev.eccUnc_keeps | apply keeps_ite | apply keeps_ite_snd | apply keeps_each
    | apply keeps_foldl | apply keeps_each_snd | apply keeps_foldl_snd | apply keeps_id
    | refine keeps_of_eq (by assumption) ?_ | split | dsimp only

theorem execSramScrubPass_keeps {f : ScrubFindings} {s : State} : Kept s (execSramScrubPass f s) := by
  unfold execSramScrubPass
  with_reducible repeat' first
    | assumption | intro _ | apply Dev.putMgmt_keeps | apply Dev.passEnds_keeps | apply Dev.scrubPass_keeps
    | apply Dev.tcmUnc_keeps | apply Dev.tcmCorrected_keeps | apply Dev.eccRepair_keeps | apply Dev.scrubUnc_keeps
    | apply Dev.scrubL2_keeps | apply onDev_kept | apply keeps_ite | apply keeps_ite_snd | apply keeps_each | apply keeps_foldl | apply keeps_each_snd
    | apply keeps_foldl_snd | apply keeps_id | refine keeps_of_eq (by assumption) ?_ | split | dsimp only

theorem execDramScrubPass_keeps {f : ScrubFindings} {s : State} : Kept s (execDramScrubPass f s) := by
  unfold execDramScrubPass
  with_reducible repeat' first
    | assumption | intro _ | apply Dev.putMgmt_keeps | apply Dev.passEnds_keeps | apply Dev.scrubPass_keeps
    | apply Dev.touchDram_keeps | apply onDev_kept | apply keeps_ite | apply keeps_ite_snd | apply keeps_each
    | apply keeps_foldl | apply keeps_each_snd | apply keeps_foldl_snd | apply keeps_id
    | refine keeps_of_eq (by assumption) ?_ | split | dsimp only

theorem Dev.journalFail_keeps {dev0 : Dev} {d : Dev} (hk : Keeps dev0 d) : Keeps dev0 (Dev.journalFail d) := by
  unfold Dev.journalFail
  with_reducible repeat' first
    | assumption | intro _ | apply Dev.raise_keeps | apply Dev.setBit_keeps | apply keeps_ite | apply keeps_ite_snd
    | apply keeps_each | apply keeps_foldl | apply keeps_each_snd | apply keeps_foldl_snd | apply keeps_id
    | refine keeps_of_eq (by assumption) ?_ | split | dsimp only

theorem Dev.journalStat_keeps {dev0 : Dev} {d : Dev} (hk : Keeps dev0 d) : Keeps dev0 (Dev.journalStat d) := by
  unfold Dev.journalStat
  with_reducible repeat' first
    | assumption | intro _ | apply Dev.free_keeps | apply Dev.setReg_keeps | apply keeps_ite | apply keeps_ite_snd
    | apply keeps_each | apply keeps_foldl | apply keeps_each_snd | apply keeps_foldl_snd | apply keeps_id
    | refine keeps_of_eq (by assumption) ?_ | split | dsimp only

theorem Dev.journalAppend_keeps {dev0 : Dev} {kind : Nat} {data : List Byte} {d : Dev} (hk : Keeps dev0 d) : Keeps dev0
    (Dev.journalAppend kind data d) := by
  unfold Dev.journalAppend
  with_reducible repeat' first
    | assumption | intro _ | apply Dev.putMgmt_keeps | apply Dev.journalStat_keeps | apply keeps_ite | apply keeps_ite_snd
    | apply keeps_each | apply keeps_foldl | apply keeps_each_snd | apply keeps_foldl_snd | apply keeps_id
    | refine keeps_of_eq (by assumption) ?_ | split | dsimp only

theorem execJournalCompaction_keeps {flashOk : Bool} {s : State} : Kept s (execJournalCompaction flashOk s) := by
  unfold execJournalCompaction
  with_reducible repeat' first
    | assumption | intro _ | apply Dev.journalFail_keeps | apply Dev.putMgmt_keeps | apply Dev.journalStat_keeps
    | apply onDev_kept | apply keeps_ite | apply keeps_ite_snd | apply keeps_each | apply keeps_foldl | apply keeps_each_snd
    | apply keeps_foldl_snd | apply keeps_id | refine keeps_of_eq (by assumption) ?_ | split | dsimp only

theorem execSafetyLogTransfer_keeps {readBackOk : Bool} {s : State} : Kept s (execSafetyLogTransfer readBackOk s) := by
  unfold execSafetyLogTransfer
  with_reducible repeat' first
    | assumption | intro _ | apply Dev.raise_keeps | apply Dev.journalAppend_keeps | apply Dev.accessWrite_keeps
    | apply Dev.logAckOp_keeps | apply onDev_kept | apply keeps_ite | apply keeps_ite_snd | apply keeps_each
    | apply keeps_foldl | apply keeps_each_snd | apply keeps_foldl_snd | apply keeps_id
    | refine keeps_of_eq (by assumption) ?_ | split | dsimp only

theorem Dev.teleTake_keeps {dev0 : Dev} {list : List Nat} {d : Dev} (hk : Keeps dev0 d) : Keeps dev0 (Dev.teleTake list d) := by
  unfold Dev.teleTake
  with_reducible repeat' first
    | assumption | intro _ | apply Dev.busRead_keeps | apply Dev.putMgmt_keeps | apply Dev.bumpWrap_keeps
    | apply Dev.setByte_keeps | apply Dev.touchDram_keeps | apply keeps_ite | apply keeps_ite_snd | apply keeps_each
    | apply keeps_foldl | apply keeps_each_snd | apply keeps_foldl_snd | apply keeps_id
    | refine keeps_of_eq (by assumption) ?_ | split | dsimp only

theorem execTelemetrySample_keeps {s : State} : Kept s (execTelemetrySample s) := by
  unfold execTelemetrySample
  with_reducible repeat' first
    | assumption | intro _ | apply Dev.putMgmt_keeps | apply Dev.raise_keeps | apply Dev.setBit_keeps
    | apply Dev.teleTake_keeps | apply onDev_kept | apply keeps_ite | apply keeps_ite_snd | apply keeps_each
    | apply keeps_foldl | apply keeps_each_snd | apply keeps_foldl_snd | apply keeps_id
    | refine keeps_of_eq (by assumption) ?_ | split | dsimp only

theorem Dev.mgtDone_keeps {dev0 : Dev} {seq : Nat} {status : Nat} {outs : List Word} {d : Dev} (hk : Keeps dev0 d) : Keeps dev0
    (Dev.mgtDone seq status outs d) := by
  unfold Dev.mgtDone
  with_reducible repeat' first
    | assumption | intro _ | apply Dev.setReg_keeps | apply Dev.free_keeps | apply Dev.raise_keeps | apply keeps_ite
    | apply keeps_ite_snd | apply keeps_each | apply keeps_foldl | apply keeps_each_snd | apply keeps_foldl_snd
    | apply keeps_id | refine keeps_of_eq (by assumption) ?_ | split | dsimp only

theorem Dev.mgtMark_keeps {dev0 : Dev} {seq : Nat} {d : Dev} (hk : Keeps dev0 d) : Keeps dev0 (Dev.mgtMark seq d) := by
  unfold Dev.mgtMark
  with_reducible repeat' first
    | assumption | intro _ | apply Dev.mgtDone_keeps | apply Dev.free_keeps | apply Dev.logWrite_keeps | apply keeps_ite
    | apply keeps_ite_snd | apply keeps_each | apply keeps_foldl | apply keeps_each_snd | apply keeps_foldl_snd
    | apply keeps_id | refine keeps_of_eq (by assumption) ?_ | split | dsimp only

theorem Dev.mgtLogRead_keeps {dev0 : Dev} {seq : Nat} {d : Dev} (hk : Keeps dev0 d) : Keeps dev0 (Dev.mgtLogRead seq d) := by
  unfold Dev.mgtLogRead
  with_reducible repeat' first
    | assumption | intro _ | apply Dev.mgtDone_keeps | apply Dev.touchDram_keeps | apply keeps_ite | apply keeps_ite_snd
    | apply keeps_each | apply keeps_foldl | apply keeps_each_snd | apply keeps_foldl_snd | apply keeps_id
    | refine keeps_of_eq (by assumption) ?_ | split | dsimp only

theorem Dev.mgtJournalRead_keeps {dev0 : Dev} {seq : Nat} {d : Dev} (hk : Keeps dev0 d) : Keeps dev0 (Dev.mgtJournalRead seq d)
    := by
  unfold Dev.mgtJournalRead
  with_reducible repeat' first
    | assumption | intro _ | apply Dev.mgtDone_keeps | apply keeps_ite | apply keeps_ite_snd | apply keeps_each
    | apply keeps_foldl | apply keeps_each_snd | apply keeps_foldl_snd | apply keeps_id
    | refine keeps_of_eq (by assumption) ?_ | split | dsimp only

theorem Dev.eraseFlash_keeps {dev0 : Dev} {x n : Nat} {d : Dev} (hk : Keeps dev0 d) : Keeps dev0 (Dev.eraseFlash x n d) :=
  ⟨fun ha => (hk.wf ha).eraseFlash x n, hk.sig, hk.hash, hk.mac, hk.now, hk.count, hk.legs⟩

theorem Dev.mgtImageWrite_keeps {dev0 : Dev} {seq : Nat} {flashOk : Bool} {d : Dev} (hk : Keeps dev0 d) : Keeps dev0
    (Dev.mgtImageWrite seq flashOk d) := by
  unfold Dev.mgtImageWrite
  with_reducible repeat' first
    | assumption | intro _ | apply Dev.mgtDone_keeps | apply Dev.free_keeps | apply Dev.touchAt_keeps
    | apply Dev.journalAppend_keeps | apply Dev.eraseFlash_keeps | apply Dev.skipFree_keeps | apply Dev.setFlash_keeps
    | apply keeps_ite | apply keeps_ite_snd | apply keeps_each | apply keeps_foldl | apply keeps_each_snd
    | apply keeps_foldl_snd | apply keeps_id | refine keeps_of_eq (by assumption) ?_ | split | dsimp only

theorem Dev.mgtTeleRead_keeps {dev0 : Dev} {seq : Nat} {d : Dev} (hk : Keeps dev0 d) : Keeps dev0 (Dev.mgtTeleRead seq d) := by
  unfold Dev.mgtTeleRead
  with_reducible repeat' first
    | assumption | intro _ | apply Dev.mgtDone_keeps | apply keeps_ite | apply keeps_ite_snd | apply keeps_each
    | apply keeps_foldl | apply keeps_each_snd | apply keeps_foldl_snd | apply keeps_id
    | refine keeps_of_eq (by assumption) ?_ | split | dsimp only

theorem Dev.mgtRun_keeps {dev0 : Dev} {code : Nat} {seq : Nat} {flashOk : Bool} {d : Dev} (hk : Keeps dev0 d) : Keeps dev0
    (Dev.mgtRun code seq flashOk d) := by
  unfold Dev.mgtRun
  with_reducible repeat' first
    | assumption | intro _ | apply Dev.mgtMark_keeps | apply Dev.mgtLogRead_keeps | apply Dev.mgtJournalRead_keeps
    | apply Dev.mgtImageWrite_keeps | apply Dev.mgtTeleRead_keeps | apply Dev.mgtDone_keeps | apply keeps_ite
    | apply keeps_ite_snd | apply keeps_each | apply keeps_foldl | apply keeps_each_snd | apply keeps_foldl_snd
    | apply keeps_id | refine keeps_of_eq (by assumption) ?_ | split | dsimp only

theorem Dev.mgtPost_keeps {dev0 : Dev} {m : Master} {v : Word} {flashOk : Bool} {d : Dev} (hk : Keeps dev0 d) : Keeps dev0
    (Dev.mgtPost m v flashOk d) := by
  unfold Dev.mgtPost
  with_reducible repeat' first
    | assumption | intro _ | apply Dev.discard_keeps | apply Dev.setBit_keeps | apply Dev.setReg_keeps
    | apply Dev.mgtRun_keeps | apply keeps_ite | apply keeps_ite_snd | apply keeps_each | apply keeps_foldl
    | apply keeps_each_snd | apply keeps_foldl_snd | apply keeps_id | refine keeps_of_eq (by assumption) ?_ | split
    | dsimp only

theorem Dev.mgtMbxIn_keeps {dev0 : Dev} {m : Master} {j : Nat} {v : Word} {d : Dev} (hk : Keeps dev0 d) : Keeps dev0
    (Dev.mgtMbxIn m j v d) := by
  unfold Dev.mgtMbxIn
  with_reducible repeat' first
    | assumption | intro _ | apply Dev.discard_keeps | apply Dev.setReg_keeps | apply keeps_ite | apply keeps_ite_snd
    | apply keeps_each | apply keeps_foldl | apply keeps_each_snd | apply keeps_foldl_snd | apply keeps_id
    | refine keeps_of_eq (by assumption) ?_ | split | dsimp only

theorem Dev.mgtCommand_keeps {dev0 : Dev} {m : Master} {code : Nat} {seq : BitVec 8} {flashOk : Bool} {d : Dev} (hk : Keeps dev0
    d) : Keeps dev0 (Dev.mgtCommand m code seq flashOk d) := by
  unfold Dev.mgtCommand
  with_reducible repeat' first
    | assumption | intro _ | apply Dev.accessWrite_keeps | apply Dev.mgtPost_keeps | apply keeps_ite | apply keeps_ite_snd
    | apply keeps_each | apply keeps_foldl | apply keeps_each_snd | apply keeps_foldl_snd | apply keeps_id
    | refine keeps_of_eq (by assumption) ?_ | split | dsimp only

theorem execMark_keeps {m : Master} {seq : BitVec 8} {s : State} : Kept s (execMark m seq s) := by
  unfold execMark
  with_reducible repeat' first
    | assumption | intro _ | apply Dev.mgtCommand_keeps | apply onDev_kept | apply keeps_ite | apply keeps_ite_snd
    | apply keeps_each | apply keeps_foldl | apply keeps_each_snd | apply keeps_foldl_snd | apply keeps_id
    | refine keeps_of_eq (by assumption) ?_ | split | dsimp only

theorem execLogRead_keeps {m : Master} {seq : BitVec 8} {s : State} : Kept s (execLogRead m seq s) := by
  unfold execLogRead
  with_reducible repeat' first
    | assumption | intro _ | apply Dev.mgtCommand_keeps | apply onDev_kept | apply keeps_ite | apply keeps_ite_snd
    | apply keeps_each | apply keeps_foldl | apply keeps_each_snd | apply keeps_foldl_snd | apply keeps_id
    | refine keeps_of_eq (by assumption) ?_ | split | dsimp only

theorem execJournalRead_keeps {m : Master} {seq : BitVec 8} {s : State} : Kept s (execJournalRead m seq s) := by
  unfold execJournalRead
  with_reducible repeat' first
    | assumption | intro _ | apply Dev.mgtCommand_keeps | apply onDev_kept | apply keeps_ite | apply keeps_ite_snd
    | apply keeps_each | apply keeps_foldl | apply keeps_each_snd | apply keeps_foldl_snd | apply keeps_id
    | refine keeps_of_eq (by assumption) ?_ | split | dsimp only

theorem execImageWrite_keeps {m : Master} {seq : BitVec 8} {flashOk : Bool} {s : State} : Kept s (execImageWrite m seq flashOk
    s) := by
  unfold execImageWrite
  with_reducible repeat' first
    | assumption | intro _ | apply Dev.mgtCommand_keeps | apply onDev_kept | apply keeps_ite | apply keeps_ite_snd
    | apply keeps_each | apply keeps_foldl | apply keeps_each_snd | apply keeps_foldl_snd | apply keeps_id
    | refine keeps_of_eq (by assumption) ?_ | split | dsimp only

theorem execTeleRead_keeps {m : Master} {seq : BitVec 8} {s : State} : Kept s (execTeleRead m seq s) := by
  unfold execTeleRead
  with_reducible repeat' first
    | assumption | intro _ | apply Dev.mgtCommand_keeps | apply onDev_kept | apply keeps_ite | apply keeps_ite_snd
    | apply keeps_each | apply keeps_foldl | apply keeps_each_snd | apply keeps_foldl_snd | apply keeps_id
    | refine keeps_of_eq (by assumption) ?_ | split | dsimp only

theorem execMedlarWatchdog_keeps {s : State} : Kept s (execMedlarWatchdog s) := by
  unfold execMedlarWatchdog
  with_reducible repeat' first
    | assumption | intro _ | apply Dev.when_keeps | apply Dev.assertSource_keeps | apply onDev_kept | apply keeps_ite
    | apply keeps_ite_snd | apply keeps_each | apply keeps_foldl | apply keeps_each_snd | apply keeps_foldl_snd
    | apply keeps_id | refine keeps_of_eq (by assumption) ?_ | split | dsimp only

end Sys2Proof.Machine
end

