-- ==== Sys2Proof/Laws/KeepsBoot.lean ====
section
/-!
SUPPORT. What the operations of Machine/Boot.lean keep: see Keeps.lean.
-/

namespace Sys2Proof.Machine

theorem Dev.claimServices_keeps {dev0 : Dev} {d : Dev} (hk : Keeps dev0 d) : Keeps dev0 (Dev.claimServices d) := by
  unfold Dev.claimServices
  with_reducible repeat' first
    | assumption | intro _ | apply Dev.crcClaimOp_keeps | apply keeps_ite | apply keeps_ite_snd | apply keeps_each
    | apply keeps_foldl | apply keeps_each_snd | apply keeps_foldl_snd | apply keeps_id
    | refine keeps_of_eq (by assumption) ?_ | split | dsimp only

theorem Dev.claimBuffers_keeps {dev0 : Dev} {n : Nat} {d : Dev} (hk : Keeps dev0 d) : Keeps dev0 (Dev.claimBuffers n d) := by
  unfold Dev.claimBuffers
  with_reducible repeat' first
    | assumption | intro _ | apply Dev.setBufCfg_keeps | apply Dev.setFld_keeps | apply keeps_ite | apply keeps_ite_snd
    | apply keeps_each | apply keeps_foldl | apply keeps_each_snd | apply keeps_foldl_snd | apply keeps_id
    | refine keeps_of_eq (by assumption) ?_ | split | dsimp only

theorem Dev.claimCan_keeps {dev0 : Dev} {d : Dev} (hk : Keeps dev0 d) : Keeps dev0 (Dev.claimCan d) := by
  unfold Dev.claimCan
  with_reducible repeat' first
    | assumption | intro _ | apply Dev.canSetMode_keeps | apply Dev.setReg_keeps | apply Dev.claimBuffers_keeps
    | apply Dev.canCtrlOp_keeps | apply Dev.putMgmt_keeps | apply keeps_ite | apply keeps_ite_snd | apply keeps_each
    | apply keeps_foldl | apply keeps_each_snd | apply keeps_foldl_snd | apply keeps_id
    | refine keeps_of_eq (by assumption) ?_ | split | dsimp only

theorem Dev.reapplyCapture_keeps {dev0 : Dev} {d : Dev} (hk : Keeps dev0 d) : Keeps dev0 (Dev.reapplyCapture d) := by
  unfold Dev.reapplyCapture
  with_reducible repeat' first
    | assumption | intro _ | apply Dev.setReg_keeps | apply Dev.when_keeps | apply Dev.captureRestart_keeps
    | apply keeps_ite | apply keeps_ite_snd | apply keeps_each | apply keeps_foldl | apply keeps_each_snd
    | apply keeps_foldl_snd | apply keeps_id | refine keeps_of_eq (by assumption) ?_ | split | dsimp only

theorem Dev.enablePorts_keeps {dev0 : Dev} {d : Dev} (hk : Keeps dev0 d) : Keeps dev0 (Dev.enablePorts d) := by
  unfold Dev.enablePorts
  with_reducible repeat' first
    | assumption | intro _ | apply Dev.when_keeps | apply Dev.setBit_keeps | apply keeps_ite | apply keeps_ite_snd
    | apply keeps_each | apply keeps_foldl | apply keeps_each_snd | apply keeps_foldl_snd | apply keeps_id
    | refine keeps_of_eq (by assumption) ?_ | split | dsimp only

theorem Dev.startServices_keeps {dev0 : Dev} {d : Dev} (hk : Keeps dev0 d) : Keeps dev0 (Dev.startServices d) := by
  unfold Dev.startServices
  with_reducible repeat' first
    | assumption | intro _ | apply Dev.claimServices_keeps | apply Dev.journalAppend_keeps | apply Dev.journalFail_keeps
    | apply Dev.enablePorts_keeps | apply Dev.claimCan_keeps | apply Dev.reapplyCapture_keeps | apply Dev.logRecover_keeps
    | apply Dev.putMgmt_keeps | apply Dev.free_keeps | apply Dev.mgtRun_keeps | apply keeps_ite | apply keeps_ite_snd
    | apply keeps_each | apply keeps_foldl | apply keeps_each_snd | apply keeps_foldl_snd | apply keeps_id
    | refine keeps_of_eq (by assumption) ?_ | split | dsimp only

theorem Dev.firmwareStart_keeps {dev0 : Dev} {source : Nat} {d : Dev} (hk : Keeps dev0 d) : Keeps dev0 (Dev.firmwareStart source
    d) := by
  unfold Dev.firmwareStart
  with_reducible repeat' first
    | assumption | intro _ | apply Dev.putRomAt_keeps | apply Dev.raise_keeps | apply Dev.setFld_keeps
    | apply Dev.startServices_keeps | apply Dev.setBit_keeps | apply keeps_ite | apply keeps_ite_snd | apply keeps_each
    | apply keeps_foldl | apply keeps_each_snd | apply keeps_foldl_snd | apply keeps_id
    | refine keeps_of_eq (by assumption) ?_ | split | dsimp only

theorem Dev.waitHost_keeps {dev0 : Dev} {d : Dev} (hk : Keeps dev0 d) : Keeps dev0 (Dev.waitHost d) := by
  unfold Dev.waitHost
  with_reducible repeat' first
    | assumption | intro _ | apply Dev.raise_keeps | apply Dev.setBit_keeps | apply Dev.setFld_keeps | apply keeps_ite
    | apply keeps_ite_snd | apply keeps_each | apply keeps_foldl | apply keeps_each_snd | apply keeps_foldl_snd
    | apply keeps_id | refine keeps_of_eq (by assumption) ?_ | split | dsimp only

theorem Dev.flashBootFail_keeps {dev0 : Dev} {err : Nat} {d : Dev} (hk : Keeps dev0 d) : Keeps dev0 (Dev.flashBootFail err d) :=
    by
  unfold Dev.flashBootFail
  with_reducible repeat' first
    | assumption | intro _ | apply Dev.putRomAt_keeps | apply Dev.setFld_keeps | apply Dev.raise_keeps
    | apply Dev.waitHost_keeps | apply keeps_ite | apply keeps_ite_snd | apply keeps_each | apply keeps_foldl
    | apply keeps_each_snd | apply keeps_foldl_snd | apply keeps_id | refine keeps_of_eq (by assumption) ?_ | split
    | dsimp only

theorem execBootVerify_keeps {signatureOk : Bool} {s : State} : Kept s (execBootVerify signatureOk s) := by
  unfold execBootVerify
  with_reducible repeat' first
    | assumption | intro _ | apply Dev.flashBootFail_keeps | apply Dev.setBytes_keeps | apply Dev.firmwareStart_keeps
    | apply onDev_kept | apply keeps_ite | apply keeps_ite_snd | apply keeps_each | apply keeps_foldl | apply keeps_each_snd
    | apply keeps_foldl_snd | apply keeps_id | refine keeps_of_eq (by assumption) ?_ | split | dsimp only

theorem Dev.hostBootOp_keeps {dev0 : Dev} {len : Nat} {signatureOk : Bool} {d : Dev} (hk : Keeps dev0 d) : Keeps dev0
    (Dev.hostBootOp len signatureOk d) := by
  unfold Dev.hostBootOp
  with_reducible repeat' first
    | assumption | intro _ | apply Dev.firmwareStart_keeps | apply Dev.waitHost_keeps | apply Dev.raise_keeps
    | apply Dev.setFld_keeps | apply keeps_ite | apply keeps_ite_snd | apply keeps_each | apply keeps_foldl
    | apply keeps_each_snd | apply keeps_foldl_snd | apply keeps_id | refine keeps_of_eq (by assumption) ?_ | split
    | dsimp only

theorem execHostBootGo_keeps {m : Master} {len : Nat} {signatureOk : Bool} {s : State} : Kept s (execHostBootGo m len
    signatureOk s) := by
  unfold execHostBootGo
  with_reducible repeat' first
    | assumption | intro _ | apply Dev.accessWrite_keeps | apply Dev.hostBootOp_keeps | apply onDev_kept | apply keeps_ite
    | apply keeps_ite_snd | apply keeps_each | apply keeps_foldl | apply keeps_each_snd | apply keeps_foldl_snd
    | apply keeps_id | refine keeps_of_eq (by assumption) ?_ | split | dsimp only

theorem Dev.loadEnd_keeps {dev0 : Dev} {code : Nat} {err : Nat} {sect : Nat} {d : Dev} (hk : Keeps dev0 d) : Keeps dev0
    (Dev.loadEnd code err sect d) := by
  unfold Dev.loadEnd
  with_reducible repeat' first
    | assumption | intro _ | apply Dev.putLoader_keeps | apply Dev.cfgResult_keeps | apply Dev.setBit_keeps
    | apply Dev.when_keeps | apply Dev.crcClaimOp_keeps | apply Dev.raise_keeps | apply keeps_ite | apply keeps_ite_snd
    | apply keeps_each | apply keeps_foldl | apply keeps_each_snd | apply keeps_foldl_snd | apply keeps_id
    | refine keeps_of_eq (by assumption) ?_ | split | dsimp only

theorem execFlashTimeout_keeps {s : State} : Kept s (execFlashTimeout s) := by
  unfold execFlashTimeout
  with_reducible repeat' first
    | assumption | intro _ | apply Dev.when_keeps | apply Dev.flashBootFail_keeps | apply Dev.loadEnd_keeps
    | apply onDev_kept | apply keeps_ite | apply keeps_ite_snd | apply keeps_each | apply keeps_foldl | apply keeps_each_snd
    | apply keeps_foldl_snd | apply keeps_id | refine keeps_of_eq (by assumption) ?_ | split | dsimp only

end Sys2Proof.Machine
end

