-- ==== Sys2Proof/Laws/KeepsLoad.lean ====
section
/-!
SUPPORT. What the operations of Machine/Load.lean keep: see Keeps.lean.
-/

namespace Sys2Proof.Machine

theorem Dev.noteSlot_keeps {dev0 : Dev} {slotB : Bool} {img : List Byte × Option (Nat × Nat)} {d : Dev} (hk : Keeps dev0 d) :
    Keeps dev0 (Dev.noteSlot slotB img d) := by
  unfold Dev.noteSlot
  with_reducible repeat' first
    | assumption | intro _ | apply Dev.setReg_keeps | apply Dev.setBit_keeps | apply keeps_ite | apply keeps_ite_snd
    | apply keeps_each | apply keeps_foldl | apply keeps_each_snd | apply keeps_foldl_snd | apply keeps_id
    | refine keeps_of_eq (by assumption) ?_ | split | dsimp only

theorem Dev.loadBegin_keeps {dev0 : Dev} {src : ImageSource} {code : Nat} {image : List Byte} {d : Dev} (hk : Keeps dev0 d) :
    Keeps dev0 (Dev.loadBegin src code image d) := by
  unfold Dev.loadBegin
  with_reducible repeat' first
    | assumption | intro _ | apply Dev.crcClaimOp_keeps | apply Dev.setBit_keeps | apply Dev.putLoader_keeps
    | apply keeps_ite | apply keeps_ite_snd | apply keeps_each | apply keeps_foldl | apply keeps_each_snd
    | apply keeps_foldl_snd | apply keeps_id | refine keeps_of_eq (by assumption) ?_ | split | dsimp only

theorem Dev.loadImage_keeps {dev0 : Dev} {src : ImageSource} {code : Nat} {img : List Byte × Option (Nat × Nat)} {d : Dev} (hk :
    Keeps dev0 d) : Keeps dev0 (Dev.loadImage src code img d) := by
  unfold Dev.loadImage
  with_reducible repeat' first
    | assumption | intro _ | apply Dev.loadBegin_keeps | apply Dev.loadEnd_keeps | apply keeps_ite | apply keeps_ite_snd
    | apply keeps_each | apply keeps_foldl | apply keeps_each_snd | apply keeps_foldl_snd | apply keeps_id
    | refine keeps_of_eq (by assumption) ?_ | split | dsimp only

theorem Dev.loadNewest_keeps {dev0 : Dev} {code : Nat} {d : Dev} (hk : Keeps dev0 d) : Keeps dev0 (Dev.loadNewest code d) := by
  unfold Dev.loadNewest
  with_reducible repeat' first
    | assumption | intro _ | apply Dev.noteSlot_keeps | apply Dev.loadEnd_keeps | apply Dev.loadBegin_keeps
    | apply keeps_ite | apply keeps_ite_snd | apply keeps_each | apply keeps_foldl | apply keeps_each_snd
    | apply keeps_foldl_snd | apply keeps_id | refine keeps_of_eq (by assumption) ?_ | split | dsimp only

theorem Dev.loadSlot_keeps {dev0 : Dev} {slotB : Bool} {code : Nat} {d : Dev} (hk : Keeps dev0 d) : Keeps dev0 (Dev.loadSlot
    slotB code d) := by
  unfold Dev.loadSlot
  with_reducible repeat' first
    | assumption | intro _ | apply Dev.loadImage_keeps | apply Dev.noteSlot_keeps | apply keeps_ite | apply keeps_ite_snd
    | apply keeps_each | apply keeps_foldl | apply keeps_each_snd | apply keeps_foldl_snd | apply keeps_id
    | refine keeps_of_eq (by assumption) ?_ | split | dsimp only

theorem Dev.loadSram_keeps {dev0 : Dev} {code : Nat} {d : Dev} (hk : Keeps dev0 d) : Keeps dev0 (Dev.loadSram code d) := by
  unfold Dev.loadSram
  with_reducible repeat' first
    | assumption | intro _ | apply Dev.loadEnd_keeps | apply Dev.loadImage_keeps | apply keeps_ite | apply keeps_ite_snd
    | apply keeps_each | apply keeps_foldl | apply keeps_each_snd | apply keeps_foldl_snd | apply keeps_id
    | refine keeps_of_eq (by assumption) ?_ | split | dsimp only

theorem Dev.loadRun_keeps {dev0 : Dev} {code : Nat} {op : Dev → Dev} {d : Dev} (hop : ∀ d, Keeps dev0 d → Keeps dev0 (op d)) (hk
    : Keeps dev0 d) : Keeps dev0 (Dev.loadRun code op d) := by
  unfold Dev.loadRun
  with_reducible repeat' first
    | assumption | intro _ | apply hop | apply Dev.loadEnd_keeps | apply keeps_ite | apply keeps_ite_snd | apply keeps_each
    | apply keeps_foldl | apply keeps_each_snd | apply keeps_foldl_snd | apply keeps_id
    | refine keeps_of_eq (by assumption) ?_ | split | dsimp only

theorem Dev.loadCommand_keeps {dev0 : Dev} {code : Nat} {op : Dev → Dev} {d : Dev} (hop : ∀ d, Keeps dev0 d → Keeps dev0 (op d))
    (hk : Keeps dev0 d) : Keeps dev0 (Dev.loadCommand code op d) := by
  unfold Dev.loadCommand
  with_reducible repeat' first
    | assumption | intro _ | apply hop | apply Dev.cfgCommand_keeps | apply Dev.loadRun_keeps | apply Dev.when_keeps
    | apply Dev.setCstate_keeps | apply Dev.triadHold_keeps | apply keeps_ite | apply keeps_ite_snd | apply keeps_each
    | apply keeps_foldl | apply keeps_each_snd | apply keeps_foldl_snd | apply keeps_id
    | refine keeps_of_eq (by assumption) ?_ | split | dsimp only

theorem Dev.cfgLoadOp_keeps {dev0 : Dev} {code : Nat} {d : Dev} (hk : Keeps dev0 d) : Keeps dev0 (Dev.cfgLoadOp code d) := by
  unfold Dev.cfgLoadOp
  with_reducible repeat' first
    | assumption | intro _ | apply Dev.loadCommand_keeps | apply Dev.loadNewest_keeps | apply Dev.loadSlot_keeps
    | apply Dev.loadSram_keeps | apply keeps_ite | apply keeps_ite_snd | apply keeps_each | apply keeps_foldl
    | apply keeps_each_snd | apply keeps_foldl_snd | apply keeps_id | refine keeps_of_eq (by assumption) ?_ | split
    | dsimp only

theorem Dev.cfgCmdOp_keeps {dev0 : Dev} {m : Master} {code : Nat} {d : Dev} (hk : Keeps dev0 d) : Keeps dev0 (Dev.cfgCmdOp m
    code d) := by
  unfold Dev.cfgCmdOp
  with_reducible repeat' first
    | assumption | intro _ | apply Dev.cfgLoadOp_keeps | apply Dev.commitOp_keeps | apply Dev.armOp_keeps
    | apply Dev.disarmOp_keeps | apply Dev.ackSafeOp_keeps | apply Dev.burnKeyOp_keeps | apply Dev.burnSigreqOp_keeps
    | apply Dev.cfgCommand_keeps | apply keeps_ite | apply keeps_ite_snd | apply keeps_each | apply keeps_foldl
    | apply keeps_each_snd | apply keeps_foldl_snd | apply keeps_id | refine keeps_of_eq (by assumption) ?_ | split
    | dsimp only

theorem execFirmwareStartLoad_keeps {s : State} : Kept s (execFirmwareStartLoad s) := by
  unfold execFirmwareStartLoad
  with_reducible repeat' first
    | assumption | intro _ | apply Dev.when_keeps | apply Dev.loadRun_keeps | apply Dev.loadNewest_keeps | apply onDev_kept
    | apply keeps_ite | apply keeps_ite_snd | apply keeps_each | apply keeps_foldl | apply keeps_each_snd
    | apply keeps_foldl_snd | apply keeps_id | refine keeps_of_eq (by assumption) ?_ | split | dsimp only

theorem execLoadNewest_keeps {m : Master} {s : State} : Kept s (execLoadNewest m s) := by
  unfold execLoadNewest
  with_reducible repeat' first
    | assumption | intro _ | apply Dev.accessWrite_keeps | apply Dev.cfgLoadOp_keeps | apply onDev_kept | apply keeps_ite
    | apply keeps_ite_snd | apply keeps_each | apply keeps_foldl | apply keeps_each_snd | apply keeps_foldl_snd
    | apply keeps_id | refine keeps_of_eq (by assumption) ?_ | split | dsimp only

theorem execLoadA_keeps {m : Master} {s : State} : Kept s (execLoadA m s) := by
  unfold execLoadA
  with_reducible repeat' first
    | assumption | intro _ | apply Dev.accessWrite_keeps | apply Dev.cfgLoadOp_keeps | apply onDev_kept | apply keeps_ite
    | apply keeps_ite_snd | apply keeps_each | apply keeps_foldl | apply keeps_each_snd | apply keeps_foldl_snd
    | apply keeps_id | refine keeps_of_eq (by assumption) ?_ | split | dsimp only

theorem execLoadB_keeps {m : Master} {s : State} : Kept s (execLoadB m s) := by
  unfold execLoadB
  with_reducible repeat' first
    | assumption | intro _ | apply Dev.accessWrite_keeps | apply Dev.cfgLoadOp_keeps | apply onDev_kept | apply keeps_ite
    | apply keeps_ite_snd | apply keeps_each | apply keeps_foldl | apply keeps_each_snd | apply keeps_foldl_snd
    | apply keeps_id | refine keeps_of_eq (by assumption) ?_ | split | dsimp only

theorem execLoadSram_keeps {m : Master} {s : State} : Kept s (execLoadSram m s) := by
  unfold execLoadSram
  with_reducible repeat' first
    | assumption | intro _ | apply Dev.accessWrite_keeps | apply Dev.cfgLoadOp_keeps | apply onDev_kept | apply keeps_ite
    | apply keeps_ite_snd | apply keeps_each | apply keeps_foldl | apply keeps_each_snd | apply keeps_foldl_snd
    | apply keeps_id | refine keeps_of_eq (by assumption) ?_ | split | dsimp only

end Sys2Proof.Machine
end

