-- ==== Sys2Proof/Laws/KeepsBus.lean ====
section
/-!
SUPPORT. What the operations of Machine/Bus.lean keep: see Keeps.lean.
-/

namespace Sys2Proof.Machine

theorem Dev.recordCleared_keeps {dev0 : Dev} {key : Nat} {d : Dev} (hk : Keeps dev0 d) : Keeps dev0 (Dev.recordCleared key d) :=
    by
  unfold Dev.recordCleared
  with_reducible repeat' first
    | assumption | intro _ | apply Dev.setReg_keeps | apply keeps_ite | apply keeps_ite_snd | apply keeps_each
    | apply keeps_foldl | apply keeps_each_snd | apply keeps_foldl_snd | apply keeps_id
    | refine keeps_of_eq (by assumption) ?_ | split | dsimp only

theorem Dev.plainFields_keeps {dev0 : Dev} {k : PageKind} {r : RegDesc} {key : Nat} {v : Word} {d : Dev} (hk : Keeps dev0 d) :
    Keeps dev0 (Dev.plainFields k r key v d) := by
  unfold Dev.plainFields
  with_reducible repeat' first
    | assumption | intro _ | apply Dev.when_keeps | apply Dev.recordCleared_keeps | apply Dev.setReg_keeps | apply keeps_ite
    | apply keeps_ite_snd | apply keeps_each | apply keeps_foldl | apply keeps_each_snd | apply keeps_foldl_snd
    | apply keeps_id | refine keeps_of_eq (by assumption) ?_ | split | dsimp only

theorem Dev.rwcFields_keeps {dev0 : Dev} {r : RegDesc} {key : Nat} {v : Word} {d : Dev} (hk : Keeps dev0 d) : Keeps dev0
    (Dev.rwcFields r key v d) := by
  unfold Dev.rwcFields
  with_reducible repeat' first
    | assumption | intro _ | apply Dev.setReg_keeps | apply Dev.rwcAccepted_keeps | apply Dev.setSh_keeps
    | apply Dev.taken_keeps | apply keeps_ite | apply keeps_ite_snd | apply keeps_each | apply keeps_foldl
    | apply keeps_each_snd | apply keeps_foldl_snd | apply keeps_id | refine keeps_of_eq (by assumption) ?_ | split
    | dsimp only

theorem Dev.eventLevels_keeps {dev0 : Dev} {page : Nat} {d : Dev} (hk : Keeps dev0 d) : Keeps dev0 (Dev.eventLevels page d) :=
    by
  unfold Dev.eventLevels
  with_reducible repeat' first
    | assumption | intro _ | apply Dev.when_keeps | apply Dev.raise_keeps | apply keeps_ite | apply keeps_ite_snd
    | apply keeps_each | apply keeps_foldl | apply keeps_each_snd | apply keeps_foldl_snd | apply keeps_id
    | refine keeps_of_eq (by assumption) ?_ | split | dsimp only

theorem Dev.plainWrite_keeps {dev0 : Dev} {m : Master} {key : Nat} {v : Word} {d : Dev} (hk : Keeps dev0 d) : Keeps dev0
    (Dev.plainWrite m key v d) := by
  unfold Dev.plainWrite
  with_reducible repeat' first
    | assumption | intro _ | apply Dev.plainFields_keeps | apply Dev.when_keeps | apply Dev.rwcFields_keeps
    | apply Dev.rwsApply_keeps | apply Dev.discard_keeps | apply Dev.recordedTrim_keeps | apply Dev.eventLevels_keeps
    | apply keeps_ite | apply keeps_ite_snd | apply keeps_each | apply keeps_foldl | apply keeps_each_snd
    | apply keeps_foldl_snd | apply keeps_id | refine keeps_of_eq (by assumption) ?_ | split | dsimp only

theorem Dev.ctrlWrite_keeps {dev0 : Dev} {m : Master} {page : Nat} {v : Word} {d : Dev} (hk : Keeps dev0 d) : Keeps dev0
    (Dev.ctrlWrite m page v d) := by
  unfold Dev.ctrlWrite
  with_reducible repeat' first
    | assumption | intro _ | apply Dev.leEnOp_keeps | apply Dev.canCtrlOp_keeps | apply Dev.crcGuard_keeps
    | apply Dev.crcEnOp_keeps | apply Dev.padCtrlOp_keeps | apply Dev.plainWrite_keeps | apply Dev.when_keeps
    | apply Dev.blockResetOp_keeps | apply keeps_ite | apply keeps_ite_snd | apply keeps_each | apply keeps_foldl
    | apply keeps_each_snd | apply keeps_foldl_snd | apply keeps_id | refine keeps_of_eq (by assumption) ?_ | split
    | dsimp only

theorem Dev.leWrite_keeps {dev0 : Dev} {m : Master} {e : Nat} {off : Nat} {key : Nat} {v : Word} {d : Dev} (hk : Keeps dev0 d) :
    Keeps dev0 (Dev.leWrite m e off key v d) := by
  unfold Dev.leWrite
  with_reducible repeat' first
    | assumption | intro _ | apply Dev.leCmdOp_keeps | apply Dev.leMbxPost_keeps | apply Dev.leMbxIn_keeps
    | apply Dev.requestSwap_keeps | apply Dev.cwDataOp_keeps | apply Dev.plainWrite_keeps | apply keeps_ite
    | apply keeps_ite_snd | apply keeps_each | apply keeps_foldl | apply keeps_each_snd | apply keeps_foldl_snd
    | apply keeps_id | refine keeps_of_eq (by assumption) ?_ | split | dsimp only

theorem Dev.pgWrite_keeps {dev0 : Dev} {m : Master} {g : Nat} {off : Nat} {key : Nat} {v : Word} {d : Dev} (hk : Keeps dev0 d) :
    Keeps dev0 (Dev.pgWrite m g off key v d) := by
  unfold Dev.pgWrite
  with_reducible repeat' first
    | assumption | intro _ | apply Dev.pgCmdOp_keeps | apply Dev.setBit_keeps | apply Dev.dutyOp_keeps
    | apply Dev.plainWrite_keeps | apply keeps_ite | apply keeps_ite_snd | apply keeps_each | apply keeps_foldl
    | apply keeps_each_snd | apply keeps_foldl_snd | apply keeps_id | refine keeps_of_eq (by assumption) ?_ | split
    | dsimp only

theorem Dev.pwmsysWrite_keeps {dev0 : Dev} {m : Master} {off : Nat} {key : Nat} {v : Word} {d : Dev} (hk : Keeps dev0 d) : Keeps
    dev0 (Dev.pwmsysWrite m off key v d) := by
  unfold Dev.pwmsysWrite
  with_reducible repeat' first
    | assumption | intro _ | apply Dev.startGroup_keeps | apply Dev.stopGroup_keeps | apply Dev.gclrOp_keeps
    | apply Dev.plainWrite_keeps | apply keeps_ite | apply keeps_ite_snd | apply keeps_each | apply keeps_foldl
    | apply keeps_each_snd | apply keeps_foldl_snd | apply keeps_id | refine keeps_of_eq (by assumption) ?_ | split
    | dsimp only

theorem Dev.mbWrite_keeps {dev0 : Dev} {m : Master} {n : Nat} {off : Nat} {key : Nat} {v : Word} {d : Dev} (hk : Keeps dev0 d) :
    Keeps dev0 (Dev.mbWrite m n off key v d) := by
  unfold Dev.mbWrite
  with_reducible repeat' first
    | assumption | intro _ | apply Dev.canTimingOp_keeps | apply Dev.txReqOp_keeps | apply Dev.txAbtOp_keeps
    | apply Dev.rxReleaseOp_keeps | apply Dev.canCmdOp_keeps | apply Dev.filterOp_keeps | apply Dev.bufCfgOp_keeps
    | apply Dev.winSelOp_keeps | apply Dev.winWriteOp_keeps | apply Dev.plainWrite_keeps | apply keeps_ite
    | apply keeps_ite_snd | apply keeps_each | apply keeps_foldl | apply keeps_each_snd | apply keeps_foldl_snd
    | apply keeps_id | refine keeps_of_eq (by assumption) ?_ | split | dsimp only

theorem Dev.crcRegs_keeps {dev0 : Dev} {m : Master} {n : Fin 4} {off : Nat} {key : Nat} {v : Word} {d : Dev} (hk : Keeps dev0 d)
    : Keeps dev0 (Dev.crcRegs m n off key v d) := by
  unfold Dev.crcRegs
  with_reducible repeat' first
    | assumption | intro _ | apply Dev.crcCmdOp_keeps | apply Dev.crcDataOp_keeps | apply Dev.crcRunOp_keeps
    | apply Dev.crcClaimOp_keeps | apply Dev.plainWrite_keeps | apply Dev.crcSetOp_keeps | apply keeps_ite
    | apply keeps_ite_snd | apply keeps_each | apply keeps_foldl | apply keeps_each_snd | apply keeps_foldl_snd
    | apply keeps_id | refine keeps_of_eq (by assumption) ?_ | split | dsimp only

theorem Dev.crcWrite_keeps {dev0 : Dev} {m : Master} {n : Nat} {off : Nat} {key : Nat} {v : Word} {d : Dev} (hk : Keeps dev0 d)
    : Keeps dev0 (Dev.crcWrite m n off key v d) := by
  unfold Dev.crcWrite
  with_reducible repeat' first
    | assumption | intro _ | apply Dev.crcGuard_keeps | apply Dev.crcRegs_keeps | apply Dev.plainWrite_keeps
    | apply keeps_ite | apply keeps_ite_snd | apply keeps_each | apply keeps_foldl | apply keeps_each_snd
    | apply keeps_foldl_snd | apply keeps_id | refine keeps_of_eq (by assumption) ?_ | split | dsimp only

theorem Dev.triadWrite_keeps {dev0 : Dev} {m : Master} {off : Nat} {key : Nat} {v : Word} {d : Dev} (hk : Keeps dev0 d) : Keeps
    dev0 (Dev.triadWrite m off key v d) := by
  unfold Dev.triadWrite
  with_reducible repeat' first
    | assumption | intro _ | apply Dev.mbxInOp_keeps | apply Dev.mbxPostOp_keeps | apply Dev.mbxAckOp_keeps
    | apply Dev.mbxOutOp_keeps | apply Dev.mbxOutSeqOp_keeps | apply Dev.plainWrite_keeps | apply keeps_ite
    | apply keeps_ite_snd | apply keeps_each | apply keeps_foldl | apply keeps_each_snd | apply keeps_foldl_snd
    | apply keeps_id | refine keeps_of_eq (by assumption) ?_ | split | dsimp only

theorem Dev.safeCmdOp_keeps {dev0 : Dev} {m : Master} {code : Nat} {d : Dev} (hk : Keeps dev0 d) : Keeps dev0 (Dev.safeCmdOp m
    code d) := by
  unfold Dev.safeCmdOp
  with_reducible repeat' first
    | assumption | intro _ | apply Dev.openOp_keeps | apply Dev.closeOp_keeps | apply Dev.scommitOp_keeps
    | apply Dev.safeResetOp_keeps | apply Dev.safeResult_keeps | apply keeps_ite | apply keeps_ite_snd | apply keeps_each
    | apply keeps_foldl | apply keeps_each_snd | apply keeps_foldl_snd | apply keeps_id
    | refine keeps_of_eq (by assumption) ?_ | split | dsimp only

theorem Dev.sloeWrite_keeps {dev0 : Dev} {m : Master} {off : Nat} {key : Nat} {v : Word} {d : Dev} (hk : Keeps dev0 d) : Keeps
    dev0 (Dev.sloeWrite m off key v d) := by
  unfold Dev.sloeWrite
  with_reducible repeat' first
    | assumption | intro _ | apply Dev.faultClearOp_keeps | apply Dev.trespOp_keeps | apply Dev.treqOp_keeps
    | apply Dev.plainWrite_keeps | apply keeps_ite | apply keeps_ite_snd | apply keeps_each | apply keeps_foldl
    | apply keeps_each_snd | apply keeps_foldl_snd | apply keeps_id | refine keeps_of_eq (by assumption) ?_ | split
    | dsimp only

theorem Dev.safeWrite_keeps {dev0 : Dev} {m : Master} {off : Nat} {key : Nat} {v : Word} {d : Dev} (hk : Keeps dev0 d) : Keeps
    dev0 (Dev.safeWrite m off key v d) := by
  unfold Dev.safeWrite
  with_reducible repeat' first
    | assumption | intro _ | apply Dev.modSloe_keeps | apply Dev.safeCmdOp_keeps | apply Dev.scrcExpOp_keeps
    | apply Dev.spdBOp_keeps | apply Dev.logAckOp_keeps | apply Dev.plainWrite_keeps | apply keeps_ite | apply keeps_ite_snd
    | apply keeps_each | apply keeps_foldl | apply keeps_each_snd | apply keeps_foldl_snd | apply keeps_id
    | refine keeps_of_eq (by assumption) ?_ | split | dsimp only

theorem Dev.mgtWrite_keeps {dev0 : Dev} {m : Master} {off : Nat} {key : Nat} {v : Word} {d : Dev} (hk : Keeps dev0 d) : Keeps
    dev0 (Dev.mgtWrite m off key v d) := by
  unfold Dev.mgtWrite
  with_reducible repeat' first
    | assumption | intro _ | apply Dev.free_keeps | apply Dev.mgtPost_keeps | apply Dev.mgtMbxIn_keeps
    | apply Dev.plainWrite_keeps | apply keeps_ite | apply keeps_ite_snd | apply keeps_each | apply keeps_foldl
    | apply keeps_each_snd | apply keeps_foldl_snd | apply keeps_id | refine keeps_of_eq (by assumption) ?_ | split
    | dsimp only

theorem Dev.regOp_keeps {dev0 : Dev} {m : Master} {key : Nat} {v : Word} {d : Dev} (hk : Keeps dev0 d) : Keeps dev0 (Dev.regOp m
    key v d) := by
  unfold Dev.regOp
  with_reducible repeat' first
    | assumption | intro _ | apply Dev.ctrlWrite_keeps | apply Dev.plainWrite_keeps | apply Dev.swrstOp_keeps
    | apply Dev.when_keeps | apply Dev.cfgCmdOp_keeps | apply Dev.leWrite_keeps | apply Dev.pgWrite_keeps
    | apply Dev.pwmsysWrite_keeps | apply Dev.calOp_keeps | apply Dev.serCmdOp_keeps | apply Dev.cmpPosOp_keeps
    | apply Dev.mcCmdOp_keeps | apply Dev.obsReport_keeps | apply Dev.mbWrite_keeps | apply Dev.crcWrite_keeps
    | apply Dev.triadWrite_keeps | apply Dev.sloeWrite_keeps | apply Dev.safeWrite_keeps | apply Dev.mgtWrite_keeps
    | apply Dev.capCmdOp_keeps | apply Dev.free_keeps | apply Dev.hostBootOp_keeps | apply Dev.outSetOp_keeps
    | apply Dev.outClrOp_keeps | apply keeps_ite | apply keeps_ite_snd | apply keeps_each | apply keeps_foldl
    | apply keeps_each_snd | apply keeps_foldl_snd | apply keeps_id | refine keeps_of_eq (by assumption) ?_ | split
    | dsimp only

theorem Dev.shadowOp_keeps {dev0 : Dev} {m : Master} {key : Nat} {v : Word} {d : Dev} (hk : Keeps dev0 d) : Keeps dev0
    (Dev.shadowOp m key v d) := by
  unfold Dev.shadowOp
  with_reducible repeat' first
    | assumption | intro _ | apply Dev.refuse_keeps | apply Dev.rwcAccepted_keeps | apply Dev.setSh_keeps | apply keeps_ite
    | apply keeps_ite_snd | apply keeps_each | apply keeps_foldl | apply keeps_each_snd | apply keeps_foldl_snd
    | apply keeps_id | refine keeps_of_eq (by assumption) ?_ | split | dsimp only

theorem Dev.keyOp_keeps {dev0 : Dev} {m : Master} {page : Nat} {v : Word} {d : Dev} (hk : Keeps dev0 d) : Keeps dev0 (Dev.keyOp
    m page v d) := by
  unfold Dev.keyOp
  with_reducible repeat' first
    | assumption | intro _ | apply Dev.setKstate_keeps | apply Dev.discard_keeps | apply keeps_ite | apply keeps_ite_snd
    | apply keeps_each | apply keeps_foldl | apply keeps_each_snd | apply keeps_foldl_snd | apply keeps_id
    | refine keeps_of_eq (by assumption) ?_ | split | dsimp only

theorem Dev.pageWrite_keeps {dev0 : Dev} {m : Master} {page : Nat} {off : Nat} {v : Word} {d : Dev} (hk : Keeps dev0 d) : Keeps
    dev0 (Dev.pageWrite m page off v d) := by
  unfold Dev.pageWrite
  with_reducible repeat' first
    | assumption | intro _ | apply Dev.shadowOp_keeps | apply Dev.keyOp_keeps | apply Dev.forceShWrite_keeps
    | apply Dev.forceOp_keeps | apply Dev.accessWrite_keeps | apply Dev.regOp_keeps | apply keeps_ite | apply keeps_ite_snd
    | apply keeps_each | apply keeps_foldl | apply keeps_each_snd | apply keeps_foldl_snd | apply keeps_id
    | refine keeps_of_eq (by assumption) ?_ | split | dsimp only

theorem Dev.landWrite_keeps {dev0 : Dev} {m : Master} {a1 : Nat} {bytes : Nat} {v : Word} {d : Dev} (hk : Keeps dev0 d) : Keeps
    dev0 (Dev.landWrite m a1 bytes v d) := by
  unfold Dev.landWrite
  with_reducible repeat' first
    | assumption | intro _ | apply Dev.refuseSys_keeps | apply Dev.refuse_keeps | apply Dev.pageWrite_keeps
    | apply Dev.setBytes_keeps | apply Dev.touchDram_keeps | apply keeps_ite | apply keeps_ite_snd | apply keeps_each
    | apply keeps_foldl | apply keeps_each_snd | apply keeps_foldl_snd | apply keeps_id
    | refine keeps_of_eq (by assumption) ?_ | split | dsimp only

theorem Dev.busWrite_keeps {dev0 : Dev} {m : Master} {a1 : Nat} {bytes : Nat} {v : Word} {d : Dev} (hk : Keeps dev0 d) : Keeps
    dev0 (Dev.busWrite m a1 bytes v d) := by
  unfold Dev.busWrite
  with_reducible repeat' first
    | assumption | intro _ | apply Dev.landWrite_keeps | apply Dev.enterCycle_keeps | apply keeps_ite | apply keeps_ite_snd
    | apply keeps_each | apply keeps_foldl | apply keeps_each_snd | apply keeps_foldl_snd | apply keeps_id
    | refine keeps_of_eq (by assumption) ?_ | split | dsimp only

theorem execRegisterWrite_keeps {m : Master} {addr : BitVec 32} {bytes : Nat} {v : Word} {same : Bool} {s : State} : Kept s
    (execRegisterWrite m addr bytes v same s) := by
  unfold execRegisterWrite
  with_reducible repeat' first
    | assumption | intro _ | apply Dev.landWrite_keeps | apply Dev.enterCycle_keeps | apply onDev_kept | apply keeps_ite
    | apply keeps_ite_snd | apply keeps_each | apply keeps_foldl | apply keeps_each_snd | apply keeps_foldl_snd
    | apply keeps_id | refine keeps_of_eq (by assumption) ?_ | split | dsimp only

theorem execKeyWrite_keeps {m : Master} {page : Nat} {v : Word} {s : State} : Kept s (execKeyWrite m page v s) := by
  unfold execKeyWrite
  with_reducible repeat' first
    | assumption | intro _ | apply Dev.busWrite_keeps | apply onDev_kept | apply keeps_ite | apply keeps_ite_snd
    | apply keeps_each | apply keeps_foldl | apply keeps_each_snd | apply keeps_foldl_snd | apply keeps_id
    | refine keeps_of_eq (by assumption) ?_ | split | dsimp only

theorem execKeyWindowExpiry_keeps {page : Nat} {s : State} : Kept s (execKeyWindowExpiry page s) := by
  unfold execKeyWindowExpiry
  with_reducible repeat' first
    | assumption | intro _ | apply Dev.when_keeps | apply Dev.setKstate_keeps | apply onDev_kept | apply keeps_ite
    | apply keeps_ite_snd | apply keeps_each | apply keeps_foldl | apply keeps_each_snd | apply keeps_foldl_snd
    | apply keeps_id | refine keeps_of_eq (by assumption) ?_ | split | dsimp only

theorem execUnlockTimeout_keeps {page : Nat} {s : State} : Kept s (execUnlockTimeout page s) := by
  unfold execUnlockTimeout
  with_reducible repeat' first
    | assumption | intro _ | apply Dev.when_keeps | apply Dev.setKstate_keeps | apply onDev_kept | apply keeps_ite
    | apply keeps_ite_snd | apply keeps_each | apply keeps_foldl | apply keeps_each_snd | apply keeps_foldl_snd
    | apply keeps_id | refine keeps_of_eq (by assumption) ?_ | split | dsimp only

theorem execShadowWrite_keeps {m : Master} {page : Nat} {off : Nat} {v : Word} {s : State} : Kept s (execShadowWrite m page off
    v s) := by
  unfold execShadowWrite
  with_reducible repeat' first
    | assumption | intro _ | apply Dev.busWrite_keeps | apply onDev_kept | apply keeps_ite | apply keeps_ite_snd
    | apply keeps_each | apply keeps_foldl | apply keeps_each_snd | apply keeps_foldl_snd | apply keeps_id
    | refine keeps_of_eq (by assumption) ?_ | split | dsimp only

theorem execRwsWrite_keeps {m : Master} {addr : BitVec 32} {v : Word} {s : State} : Kept s (execRwsWrite m addr v s) := by
  unfold execRwsWrite
  with_reducible repeat' first
    | assumption | intro _ | apply Dev.busWrite_keeps | apply onDev_kept | apply keeps_ite | apply keeps_ite_snd
    | apply keeps_each | apply keeps_foldl | apply keeps_each_snd | apply keeps_foldl_snd | apply keeps_id
    | refine keeps_of_eq (by assumption) ?_ | split | dsimp only

theorem execEventDelivery_keeps {page : Nat} {differ : BitVec 3} {s : State} : Kept s (execEventDelivery page differ s) := by
  unfold execEventDelivery
  with_reducible repeat' first
    | assumption | intro _ | apply Dev.when_keeps | apply Dev.evaluate_keeps | apply Dev.demandSet_keeps
    | apply Dev.triadEvents_keeps | apply onDev_kept | apply keeps_ite | apply keeps_ite_snd | apply keeps_each
    | apply keeps_foldl | apply keeps_each_snd | apply keeps_foldl_snd | apply keeps_id
    | refine keeps_of_eq (by assumption) ?_ | split | dsimp only

end Sys2Proof.Machine
end

