-- ==== Sys2Proof/Laws/KeepsApply.lean ====
section
/-!
SUPPORT. What the operations of Machine/Apply.lean keep: see Keeps.lean.
-/

namespace Sys2Proof.Machine

theorem Dev.loaderWrite_keeps {dev0 : Dev} {a0 : Nat} {v : Word} {d : Dev} (hk : Keeps dev0 d) : Keeps dev0 (Dev.loaderWrite a0
    v d).2 := by
  unfold Dev.loaderWrite
  with_reducible repeat' first
    | assumption | intro _ | apply Dev.busWrite_keeps | apply Dev.setReg_keeps | apply keeps_ite | apply keeps_ite_snd
    | apply keeps_each | apply keeps_foldl | apply keeps_each_snd | apply keeps_foldl_snd | apply keeps_id
    | refine keeps_of_eq (by assumption) ?_ | split | dsimp only

theorem Dev.loaderPairs_keeps {dev0 : Dev} {ps : List (Nat × Word)} {d : Dev} (hk : Keeps dev0 d) :
    Keeps dev0 (Dev.loaderPairs ps d).2 := by
  induction ps generalizing d with
  | nil => exact hk
  | cons p rest ih =>
    unfold Dev.loaderPairs
    apply keeps_ite_snd
    · exact hk
    · exact keeps_ite_snd (ih (Dev.loaderWrite_keeps hk)) (Dev.loaderWrite_keeps hk)

theorem Dev.sectionBegun_keeps {dev0 : Dev} {d : Dev} (hk : Keeps dev0 d) : Keeps dev0 (Dev.sectionBegun d) := by
  unfold Dev.sectionBegun
  with_reducible repeat' first
    | assumption | intro _ | apply Dev.rwcAccepted_keeps | apply keeps_ite | apply keeps_ite_snd | apply keeps_each
    | apply keeps_foldl | apply keeps_each_snd | apply keeps_foldl_snd | apply keeps_id
    | refine keeps_of_eq (by assumption) ?_ | split | dsimp only

theorem Dev.memorySection_keeps {dev0 : Dev} {s : Section} {d : Dev} (hk : Keeps dev0 d) : Keeps dev0 (Dev.memorySection s d).2
    := by
  unfold Dev.memorySection
  with_reducible repeat' first
    | assumption | intro _ | apply Dev.setBytes_keeps | apply Dev.refuseSys_keeps | apply keeps_ite | apply keeps_ite_snd
    | apply keeps_each | apply keeps_foldl | apply keeps_each_snd | apply keeps_foldl_snd | apply keeps_id
    | refine keeps_of_eq (by assumption) ?_ | split | dsimp only

theorem Dev.applySection_keeps {dev0 : Dev} {s : Section} {d : Dev} (hk : Keeps dev0 d) : Keeps dev0 (Dev.applySection s d).2.2
    := by
  unfold Dev.applySection
  with_reducible repeat' first
    | assumption | intro _ | apply Dev.loaderPairs_keeps | apply Dev.sectionBegun_keeps | apply Dev.memorySection_keeps
    | apply Dev.putLoader_keeps | apply Dev.safetySection_keeps | apply Dev.putMgmt_keeps | apply Dev.busWrite_keeps
    | apply keeps_ite | apply keeps_ite_snd | apply keeps_each | apply keeps_foldl | apply keeps_each_snd
    | apply keeps_foldl_snd | apply keeps_id | refine keeps_of_eq (by assumption) ?_ | split | dsimp only

theorem Dev.loadWritten_keeps {dev0 : Dev} {l : Load} {unsafeAt : Option Nat} {d : Dev} (hk : Keeps dev0 d) : Keeps dev0
    (Dev.loadWritten l unsafeAt d) := by
  unfold Dev.loadWritten
  with_reducible repeat' first
    | assumption | intro _ | apply Dev.busWrite_keeps | apply Dev.loadEnd_keeps | apply Dev.putLoader_keeps
    | apply Dev.setFld_keeps | apply Dev.when_keeps | apply Dev.commitStart_keeps | apply keeps_ite | apply keeps_ite_snd
    | apply keeps_each | apply keeps_foldl | apply keeps_each_snd | apply keeps_foldl_snd | apply keeps_id
    | refine keeps_of_eq (by assumption) ?_ | split | dsimp only

theorem Dev.applySections_keeps {dev0 : Dev} {l : Load} {i : Nat} {bad : Option Nat} {ss : List Section} {d : Dev}
    (hk : Keeps dev0 d) : Keeps dev0 (Dev.applySections l i bad ss d) := by
  induction ss generalizing i bad d with
  | nil =>
    unfold Dev.applySections
    exact keeps_ite hk (Dev.loadWritten_keeps hk)
  | cons s rest ih =>
    unfold Dev.applySections
    apply keeps_ite hk
    exact keeps_ite (ih (Dev.applySection_keeps hk)) (Dev.loadEnd_keeps (Dev.applySection_keeps hk))

theorem execLoadComplete_keeps {s : State} : Kept s (execLoadComplete s) := by
  unfold execLoadComplete
  with_reducible repeat' first
    | assumption | intro _ | apply Dev.applySections_keeps | apply onDev_kept | apply keeps_ite | apply keeps_ite_snd
    | apply keeps_each | apply keeps_foldl | apply keeps_each_snd | apply keeps_foldl_snd | apply keeps_id
    | refine keeps_of_eq (by assumption) ?_ | split | dsimp only

end Sys2Proof.Machine
end

