-- ==== Sys2Proof/Laws/KeepsHostPort.lean ====
section
/-!
SUPPORT. What the operations of Machine/HostPort.lean keep: see Keeps.lean.
-/

namespace Sys2Proof.Machine

theorem Dev.hostAnswer_keeps {dev0 : Dev} {rdata : List Word} {late : Bool} {accErr : Bool} {qfull : Bool} {crcOk : Bool} {d :
    Dev} (hk : Keeps dev0 d) : Keeps dev0 (Dev.hostAnswer rdata late accErr qfull crcOk d) := by
  unfold Dev.hostAnswer
  with_reducible repeat' first
    | assumption | intro _ | apply Dev.putHost_keeps | apply keeps_ite | apply keeps_ite_snd | apply keeps_each
    | apply keeps_foldl | apply keeps_each_snd | apply keeps_foldl_snd | apply keeps_id
    | refine keeps_of_eq (by assumption) ?_ | split | dsimp only

theorem Dev.hostCrcFail_keeps {dev0 : Dev} {rdata : List Word} {d : Dev} (hk : Keeps dev0 d) : Keeps dev0 (Dev.hostCrcFail rdata
    d) := by
  unfold Dev.hostCrcFail
  with_reducible repeat' first
    | assumption | intro _ | apply Dev.hostAnswer_keeps | apply Dev.bumpSat_keeps | apply Dev.raise_keeps | apply keeps_ite
    | apply keeps_ite_snd | apply keeps_each | apply keeps_foldl | apply keeps_each_snd | apply keeps_foldl_snd
    | apply keeps_id | refine keeps_of_eq (by assumption) ?_ | split | dsimp only

theorem Dev.hostFrame_keeps {dev0 : Dev} {ns : Nat} {ok : Bool} {zeros : List Word} {op : Dev → Dev} {d : Dev} (hop : ∀ d, Keeps
    dev0 d → Keeps dev0 (op d)) (hk : Keeps dev0 d) : Keeps dev0 (Dev.hostFrame ns ok zeros op d) := by
  unfold Dev.hostFrame
  with_reducible repeat' first
    | assumption | intro _ | apply hop | apply Dev.hostCrcFail_keeps | apply keeps_ite | apply keeps_ite_snd
    | apply keeps_each | apply keeps_foldl | apply keeps_each_snd | apply keeps_foldl_snd | apply keeps_id
    | refine keeps_of_eq (by assumption) ?_ | split | dsimp only

theorem Dev.hostIssue_keeps {dev0 : Dev} {d : Dev} (hk : Keeps dev0 d) : Keeps dev0 (Dev.hostIssue d) := by
  unfold Dev.hostIssue
  with_reducible repeat' first
    | assumption | intro _ | apply Dev.busWrite_keeps | apply Dev.putHost_keeps | apply keeps_ite | apply keeps_ite_snd
    | apply keeps_each | apply keeps_foldl | apply keeps_each_snd | apply keeps_foldl_snd | apply keeps_id
    | refine keeps_of_eq (by assumption) ?_ | split | dsimp only

theorem Dev.hostDrain_keeps {dev0 : Dev} {n : Nat} {d : Dev} (hk : Keeps dev0 d) : Keeps dev0 (Dev.hostDrain n d) := by
  induction n generalizing d with
  | zero => exact hk
  | succ n ih => exact ih (Dev.hostIssue_keeps hk)

theorem execHostWriteIssue_keeps {s : State} : Kept s (execHostWriteIssue s) := by
  unfold execHostWriteIssue
  with_reducible repeat' first
    | assumption | intro _ | apply Dev.hostIssue_keeps | apply onDev_kept | apply keeps_ite | apply keeps_ite_snd
    | apply keeps_each | apply keeps_foldl | apply keeps_each_snd | apply keeps_foldl_snd | apply keeps_id
    | refine keeps_of_eq (by assumption) ?_ | split | dsimp only

theorem Dev.hostQueue_keeps {dev0 : Dev} {addr : Nat} {ws : List Word} {d : Dev} (hk : Keeps dev0 d) : Keeps dev0 (Dev.hostQueue
    addr ws d) := by
  unfold Dev.hostQueue
  with_reducible repeat' first
    | assumption | intro _ | apply Dev.hostAnswer_keeps | apply Dev.putHost_keeps | apply Dev.raise_keeps | apply keeps_ite
    | apply keeps_ite_snd | apply keeps_each | apply keeps_foldl | apply keeps_each_snd | apply keeps_foldl_snd
    | apply keeps_id | refine keeps_of_eq (by assumption) ?_ | split | dsimp only

theorem execSpiWrite_keeps {ns : Nat} {addr : Word} {ws : List Word} {crc : BitVec 16} {s : State} : Kept s (execSpiWrite ns
    addr ws crc s) := by
  unfold execSpiWrite
  with_reducible repeat' first
    | assumption | intro _ | apply Dev.hostFrame_keeps | apply Dev.hostQueue_keeps | apply onDev_kept | apply keeps_ite
    | apply keeps_ite_snd | apply keeps_each | apply keeps_foldl | apply keeps_each_snd | apply keeps_foldl_snd
    | apply keeps_id | refine keeps_of_eq (by assumption) ?_ | split | dsimp only

theorem Dev.readWords_keeps {dev0 : Dev} {m : Master} {as : List ReadSlot} {d : Dev} (hk : Keeps dev0 d) :
    Keeps dev0 (Dev.readWords m as d).2 := by
  induction as generalizing d with
  | nil => exact hk
  | cons a rest ih => exact ih (Dev.portRead_keeps hk)

theorem Dev.hostRead_keeps {dev0 : Dev} {slots : List ReadSlot} {d : Dev} (hk : Keeps dev0 d) : Keeps dev0 (Dev.hostRead slots
    d) := by
  unfold Dev.hostRead
  with_reducible repeat' first
    | assumption | intro _ | apply Dev.hostDrain_keeps | apply Dev.readWords_keeps | apply Dev.hostAnswer_keeps
    | apply keeps_ite | apply keeps_ite_snd | apply keeps_each | apply keeps_foldl | apply keeps_each_snd
    | apply keeps_foldl_snd | apply keeps_id | refine keeps_of_eq (by assumption) ?_ | split | dsimp only

theorem execSpiRead_keeps {ns : Nat} {addr : Word} {count : Fin 64} {crc : BitVec 16} {late : BitVec 64} {ecc : List (Fin 64 ×
    Ecc)} {same : Bool} {s : State} : Kept s (execSpiRead ns addr count crc late ecc same s) := by
  unfold execSpiRead
  with_reducible repeat' first
    | assumption | intro _ | apply Dev.hostFrame_keeps | apply Dev.hostRead_keeps | apply onDev_kept | apply keeps_ite
    | apply keeps_ite_snd | apply keeps_each | apply keeps_foldl | apply keeps_each_snd | apply keeps_foldl_snd
    | apply keeps_id | refine keeps_of_eq (by assumption) ?_ | split | dsimp only

theorem execSpiNop_keeps {ns : Nat} {addr : Word} {count : Byte} {crc : BitVec 16} {s : State} : Kept s (execSpiNop ns addr
    count crc s) := by
  unfold execSpiNop
  with_reducible repeat' first
    | assumption | intro _ | apply Dev.hostFrame_keeps | apply Dev.hostAnswer_keeps | apply onDev_kept | apply keeps_ite
    | apply keeps_ite_snd | apply keeps_each | apply keeps_foldl | apply keeps_each_snd | apply keeps_foldl_snd
    | apply keeps_id | refine keeps_of_eq (by assumption) ?_ | split | dsimp only

theorem Dev.hostReset_keeps {dev0 : Dev} {w : Word} {d : Dev} (hk : Keeps dev0 d) : Keeps dev0 (Dev.hostReset w d) := by
  unfold Dev.hostReset
  with_reducible repeat' first
    | assumption | intro _ | apply Dev.hostAnswer_keeps | apply Dev.putHost_keeps | apply Dev.assertSource_keeps
    | apply keeps_ite | apply keeps_ite_snd | apply keeps_each | apply keeps_foldl | apply keeps_each_snd
    | apply keeps_foldl_snd | apply keeps_id | refine keeps_of_eq (by assumption) ?_ | split | dsimp only

theorem execSpiReset_keeps {ns : Nat} {reach : Word} {count : Byte} {crc : BitVec 16} {s : State} : Kept s (execSpiReset ns
    reach count crc s) := by
  unfold execSpiReset
  with_reducible repeat' first
    | assumption | intro _ | apply Dev.hostFrame_keeps | apply Dev.hostReset_keeps | apply onDev_kept | apply keeps_ite
    | apply keeps_ite_snd | apply keeps_each | apply keeps_foldl | apply keeps_each_snd | apply keeps_foldl_snd
    | apply keeps_id | refine keeps_of_eq (by assumption) ?_ | split | dsimp only

theorem execSpiUnknownCommand_keeps {ns : Nat} {cmd : Byte} {addr : Word} {count : Byte} {crc : BitVec 16} {s : State} : Kept s
    (execSpiUnknownCommand ns cmd addr count crc s) := by
  unfold execSpiUnknownCommand
  with_reducible repeat' first
    | assumption | intro _ | apply Dev.hostFrame_keeps | apply Dev.hostAnswer_keeps | apply onDev_kept | apply keeps_ite
    | apply keeps_ite_snd | apply keeps_each | apply keeps_foldl | apply keeps_each_snd | apply keeps_foldl_snd
    | apply keeps_id | refine keeps_of_eq (by assumption) ?_ | split | dsimp only

theorem execFrameAbort_keeps {ns : Nat} {s : State} : Kept s (execFrameAbort ns s) := by
  unfold execFrameAbort
  with_reducible repeat' first
    | assumption | intro _ | apply Dev.when_keeps | apply Dev.bumpSat_keeps | apply Dev.raise_keeps | apply onDev_kept
    | apply keeps_ite | apply keeps_ite_snd | apply keeps_each | apply keeps_foldl | apply keeps_each_snd
    | apply keeps_foldl_snd | apply keeps_id | refine keeps_of_eq (by assumption) ?_ | split | dsimp only

end Sys2Proof.Machine
end

