-- ==== Sys2Proof/Laws/KeepsNet.lean ====
section
/-!
SUPPORT. What the operations of Machine/Net.lean keep: see Keeps.lean.
-/

namespace Sys2Proof.Machine

theorem Dev.ethCarries_keeps {dev0 : Dev} {n : Nat} {d : Dev} (hk : Keeps dev0 d) : Keeps dev0 (Dev.ethCarries n d) := by
  unfold Dev.ethCarries
  with_reducible repeat' first
    | assumption | intro _ | apply Dev.putNet_keeps | apply keeps_ite | apply keeps_ite_snd | apply keeps_each
    | apply keeps_foldl | apply keeps_each_snd | apply keeps_foldl_snd | apply keeps_id
    | refine keeps_of_eq (by assumption) ?_ | split | dsimp only

theorem Dev.ethReceived_keeps {dev0 : Dev} {n : Nat} {d : Dev} (hk : Keeps dev0 d) : Keeps dev0 (Dev.ethReceived n d) := by
  unfold Dev.ethReceived
  with_reducible repeat' first
    | assumption | intro _ | apply Dev.ethCarries_keeps | apply Dev.bumpWrap_keeps | apply keeps_ite | apply keeps_ite_snd
    | apply keeps_each | apply keeps_foldl | apply keeps_each_snd | apply keeps_foldl_snd | apply keeps_id
    | refine keeps_of_eq (by assumption) ?_ | split | dsimp only

theorem Dev.ethSent_keeps {dev0 : Dev} {n : Nat} {d : Dev} (hk : Keeps dev0 d) : Keeps dev0 (Dev.ethSent n d) := by
  unfold Dev.ethSent
  with_reducible repeat' first
    | assumption | intro _ | apply Dev.ethCarries_keeps | apply Dev.bumpWrap_keeps | apply keeps_ite | apply keeps_ite_snd
    | apply keeps_each | apply keeps_foldl | apply keeps_each_snd | apply keeps_foldl_snd | apply keeps_id
    | refine keeps_of_eq (by assumption) ?_ | split | dsimp only

theorem Dev.ethSend_keeps {dev0 : Dev} {n : Nat} {payload : List Byte} {d : Dev} (hk : Keeps dev0 d) : Keeps dev0 (Dev.ethSend n
    payload d) := by
  unfold Dev.ethSend
  with_reducible repeat' first
    | assumption | intro _ | apply Dev.ethSent_keeps | apply Dev.putNet_keeps | apply keeps_ite | apply keeps_ite_snd
    | apply keeps_each | apply keeps_foldl | apply keeps_each_snd | apply keeps_foldl_snd | apply keeps_id
    | refine keeps_of_eq (by assumption) ?_ | split | dsimp only

theorem Dev.ethTake_keeps {dev0 : Dev} {n : Nat} {d : Dev} (hk : Keeps dev0 d) : Keeps dev0 (Dev.ethTake n d).2 := by
  unfold Dev.ethTake
  with_reducible repeat' first
    | assumption | intro _ | apply Dev.ethReceived_keeps | apply Dev.putNet_keeps | apply Dev.bumpSat_keeps
    | apply keeps_ite | apply keeps_ite_snd | apply keeps_each | apply keeps_foldl | apply keeps_each_snd
    | apply keeps_foldl_snd | apply keeps_id | refine keeps_of_eq (by assumption) ?_ | split | dsimp only

theorem execEthLinkChange_keeps {n : Fin 2} {up : Bool} {s : State} : Kept s (execEthLinkChange n up s) := by
  unfold execEthLinkChange
  with_reducible repeat' first
    | assumption | intro _ | apply Dev.raise_keeps | apply Dev.setBit_keeps | apply onDev_kept | apply keeps_ite
    | apply keeps_ite_snd | apply keeps_each | apply keeps_foldl | apply keeps_each_snd | apply keeps_foldl_snd
    | apply keeps_id | refine keeps_of_eq (by assumption) ?_ | split | dsimp only

theorem execEthFrameReceive_keeps {n : Fin 2} {kind : EthKind} {s : State} : Kept s (execEthFrameReceive n kind s) := by
  unfold execEthFrameReceive
  with_reducible repeat' first
    | assumption | intro _ | apply Dev.ethTake_keeps | apply Dev.when_keeps | apply Dev.ethSent_keeps | apply onDev_kept
    | apply keeps_ite | apply keeps_ite_snd | apply keeps_each | apply keeps_foldl | apply keeps_each_snd
    | apply keeps_foldl_snd | apply keeps_id | refine keeps_of_eq (by assumption) ?_ | split | dsimp only

theorem Dev.ethAnswer_keeps {dev0 : Dev} {n : Nat} {p : EthPeer} {seq : Word} {reply : List Byte} {d : Dev} (hk : Keeps dev0 d)
    : Keeps dev0 (Dev.ethAnswer n p seq reply d) := by
  unfold Dev.ethAnswer
  with_reducible repeat' first
    | assumption | intro _ | apply Dev.ethSend_keeps | apply Dev.putNet_keeps | apply keeps_ite | apply keeps_ite_snd
    | apply keeps_each | apply keeps_foldl | apply keeps_each_snd | apply keeps_foldl_snd | apply keeps_id
    | refine keeps_of_eq (by assumption) ?_ | split | dsimp only

theorem Dev.ethRequest_keeps {dev0 : Dev} {n : Nat} {p : EthPeer} {seq : Word} {lengthOk : Bool} {op : Dev → Dev} {d : Dev} (hop
    : ∀ d, Keeps dev0 d → Keeps dev0 (op d)) (hk : Keeps dev0 d) : Keeps dev0 (Dev.ethRequest n p seq lengthOk op d) := by
  unfold Dev.ethRequest
  with_reducible repeat' first
    | assumption | intro _ | apply hop | apply Dev.ethTake_keeps | apply Dev.ethSend_keeps | apply keeps_ite
    | apply keeps_ite_snd | apply keeps_each | apply keeps_foldl | apply keeps_each_snd | apply keeps_foldl_snd
    | apply keeps_id | refine keeps_of_eq (by assumption) ?_ | split | dsimp only

theorem execEthRead_keeps {n : Fin 2} {p : EthPeer} {seq : Word} {count : Fin 64} {addr : Word} {len : Nat} {ecc : List (Fin 64
    × Ecc)} {same : Bool} {s : State} : Kept s (execEthRead n p seq count addr len ecc same s) := by
  unfold execEthRead
  with_reducible repeat' first
    | assumption | intro _ | apply Dev.ethRequest_keeps | apply Dev.readWords_keeps | apply Dev.ethAnswer_keeps
    | apply onDev_kept | apply keeps_ite | apply keeps_ite_snd | apply keeps_each | apply keeps_foldl | apply keeps_each_snd
    | apply keeps_foldl_snd | apply keeps_id | refine keeps_of_eq (by assumption) ?_ | split | dsimp only

theorem execEthWrite_keeps {n : Fin 2} {p : EthPeer} {seq : Word} {count : Fin 64} {addr : Word} {ws : List Word} {s : State} :
    Kept s (execEthWrite n p seq count addr ws s) := by
  unfold execEthWrite
  with_reducible repeat' first
    | assumption | intro _ | apply Dev.ethRequest_keeps | apply Dev.busWrite_keeps | apply Dev.when_keeps
    | apply Dev.ethAnswer_keeps | apply onDev_kept | apply keeps_ite | apply keeps_ite_snd | apply keeps_each
    | apply keeps_foldl | apply keeps_each_snd | apply keeps_foldl_snd | apply keeps_id
    | refine keeps_of_eq (by assumption) ?_ | split | dsimp only

theorem execEthReset_keeps {n : Fin 2} {p : EthPeer} {seq : Word} {reach : Word} {len : Nat} {s : State} : Kept s (execEthReset
    n p seq reach len s) := by
  unfold execEthReset
  with_reducible repeat' first
    | assumption | intro _ | apply Dev.ethRequest_keeps | apply Dev.ethAnswer_keeps | apply Dev.putNet_keeps
    | apply Dev.assertSource_keeps | apply onDev_kept | apply keeps_ite | apply keeps_ite_snd | apply keeps_each
    | apply keeps_foldl | apply keeps_each_snd | apply keeps_foldl_snd | apply keeps_id
    | refine keeps_of_eq (by assumption) ?_ | split | dsimp only

theorem execBeacon_keeps {s : State} : Kept s (execBeacon s) := by
  unfold execBeacon
  with_reducible repeat' first
    | assumption | intro _ | apply Dev.when_keeps | apply Dev.putMgmt_keeps | apply Dev.ethSend_keeps | apply onDev_kept
    | apply keeps_ite | apply keeps_ite_snd | apply keeps_each | apply keeps_foldl | apply keeps_each_snd
    | apply keeps_foldl_snd | apply keeps_id | refine keeps_of_eq (by assumption) ?_ | split | dsimp only

theorem Dev.ptpOffset_keeps {dev0 : Dev} {offset : Int} {d : Dev} (hk : Keeps dev0 d) : Keeps dev0 (Dev.ptpOffset offset d) :=
    by
  unfold Dev.ptpOffset
  with_reducible repeat' first
    | assumption | intro _ | apply Dev.putNet_keeps | apply Dev.setFld_keeps | apply Dev.raise_keeps
    | apply Dev.setBit_keeps | apply keeps_ite | apply keeps_ite_snd | apply keeps_each | apply keeps_foldl
    | apply keeps_each_snd | apply keeps_foldl_snd | apply keeps_id | refine keeps_of_eq (by assumption) ?_ | split
    | dsimp only

theorem Dev.syncOffset_keeps {dev0 : Dev} {x : PtpExchange} {d : Dev} (hk : Keeps dev0 d) : Keeps dev0 (Dev.syncOffset x d).2 :=
    by
  unfold Dev.syncOffset
  with_reducible repeat' first
    | assumption | intro _ | apply Dev.free_keeps | apply keeps_ite | apply keeps_ite_snd | apply keeps_each
    | apply keeps_foldl | apply keeps_each_snd | apply keeps_foldl_snd | apply keeps_id
    | refine keeps_of_eq (by assumption) ?_ | split | dsimp only

theorem execPtpSync_keeps {x : PtpExchange} {s : State} : Kept s (execPtpSync x s) := by
  unfold execPtpSync
  with_reducible repeat' first
    | assumption | intro _ | apply Dev.when_keeps | apply Dev.syncOffset_keeps | apply Dev.ptpOffset_keeps
    | apply onDev_kept | apply keeps_ite | apply keeps_ite_snd | apply keeps_each | apply keeps_foldl | apply keeps_each_snd
    | apply keeps_foldl_snd | apply keeps_id | refine keeps_of_eq (by assumption) ?_ | split | dsimp only

theorem Dev.servoCommit_keeps {dev0 : Dev} {good : List (Nat × Word)} {offset : Int} {d : Dev} (hk : Keeps dev0 d) : Keeps dev0
    (Dev.servoCommit good offset d) := by
  unfold Dev.servoCommit
  with_reducible repeat' first
    | assumption | intro _ | apply Dev.setBit_keeps | apply Dev.putNet_keeps | apply Dev.busWrite_keeps | apply keeps_ite
    | apply keeps_ite_snd | apply keeps_each | apply keeps_foldl | apply keeps_each_snd | apply keeps_foldl_snd
    | apply keeps_id | refine keeps_of_eq (by assumption) ?_ | split | dsimp only

theorem execServoCommit_keeps {s : State} : Kept s (execServoCommit s) := by
  unfold execServoCommit
  with_reducible repeat' first
    | assumption | intro _ | apply Dev.when_keeps | apply Dev.servoCommit_keeps | apply onDev_kept | apply keeps_ite
    | apply keeps_ite_snd | apply keeps_each | apply keeps_foldl | apply keeps_each_snd | apply keeps_foldl_snd
    | apply keeps_id | refine keeps_of_eq (by assumption) ?_ | split | dsimp only

theorem Dev.postToEngine_keeps {dev0 : Dev} {e : Nat} {ws : List Word} {d : Dev} (hk : Keeps dev0 d) : Keeps dev0
    (Dev.postToEngine e ws d) := by
  unfold Dev.postToEngine
  with_reducible repeat' first
    | assumption | intro _ | apply Dev.busWrite_keeps | apply keeps_ite | apply keeps_ite_snd | apply keeps_each
    | apply keeps_foldl | apply keeps_each_snd | apply keeps_foldl_snd | apply keeps_id
    | refine keeps_of_eq (by assumption) ?_ | split | dsimp only

theorem Dev.modbusAnswer_keeps {dev0 : Dev} {bs : List Byte} {d : Dev} (hk : Keeps dev0 d) : Keeps dev0 (Dev.modbusAnswer bs d)
    := by
  unfold Dev.modbusAnswer
  with_reducible repeat' first
    | assumption | intro _ | apply Dev.putNet_keeps | apply keeps_ite | apply keeps_ite_snd | apply keeps_each
    | apply keeps_foldl | apply keeps_each_snd | apply keeps_foldl_snd | apply keeps_id
    | refine keeps_of_eq (by assumption) ?_ | split | dsimp only

theorem Dev.modbusError_keeps {dev0 : Dev} {fc : Byte} {code : Byte} {d : Dev} (hk : Keeps dev0 d) : Keeps dev0 (Dev.modbusError
    fc code d) := by
  unfold Dev.modbusError
  with_reducible repeat' first
    | assumption | intro _ | apply Dev.modbusAnswer_keeps | apply keeps_ite | apply keeps_ite_snd | apply keeps_each
    | apply keeps_foldl | apply keeps_each_snd | apply keeps_foldl_snd | apply keeps_id
    | refine keeps_of_eq (by assumption) ?_ | split | dsimp only

theorem Dev.modbusRead_keeps {dev0 : Dev} {fc : Byte} {base : Nat} {size : Nat} {ws : List Word} {start : Nat} {count : Nat} {d
    : Dev} (hk : Keeps dev0 d) : Keeps dev0 (Dev.modbusRead fc base size ws start count d) := by
  unfold Dev.modbusRead
  with_reducible repeat' first
    | assumption | intro _ | apply Dev.modbusError_keeps | apply Dev.modbusAnswer_keeps | apply Dev.skipFree_keeps
    | apply keeps_ite | apply keeps_ite_snd | apply keeps_each | apply keeps_foldl | apply keeps_each_snd
    | apply keeps_foldl_snd | apply keeps_id | refine keeps_of_eq (by assumption) ?_ | split | dsimp only

theorem execModbusReadInput_keeps {start : BitVec 16} {count : BitVec 16} {s : State} : Kept s (execModbusReadInput start count
    s) := by
  unfold execModbusReadInput
  with_reducible repeat' first
    | assumption | intro _ | apply Dev.when_keeps | apply Dev.modbusRead_keeps | apply onDev_kept | apply keeps_ite
    | apply keeps_ite_snd | apply keeps_each | apply keeps_foldl | apply keeps_each_snd | apply keeps_foldl_snd
    | apply keeps_id | refine keeps_of_eq (by assumption) ?_ | split | dsimp only

theorem execModbusReadHolding_keeps {start : BitVec 16} {count : BitVec 16} {s : State} : Kept s (execModbusReadHolding start
    count s) := by
  unfold execModbusReadHolding
  with_reducible repeat' first
    | assumption | intro _ | apply Dev.when_keeps | apply Dev.modbusRead_keeps | apply onDev_kept | apply keeps_ite
    | apply keeps_ite_snd | apply keeps_each | apply keeps_foldl | apply keeps_each_snd | apply keeps_foldl_snd
    | apply keeps_id | refine keeps_of_eq (by assumption) ?_ | split | dsimp only

theorem Dev.modbusPost_keeps {dev0 : Dev} {hs : List (BitVec 16)} {d : Dev} (hk : Keeps dev0 d) : Keeps dev0 (Dev.modbusPost hs
    d) := by
  unfold Dev.modbusPost
  with_reducible repeat' first
    | assumption | intro _ | apply Dev.modbusError_keeps | apply Dev.postToEngine_keeps | apply Dev.modbusAnswer_keeps
    | apply Dev.putNet_keeps | apply keeps_ite | apply keeps_ite_snd | apply keeps_each | apply keeps_foldl
    | apply keeps_each_snd | apply keeps_foldl_snd | apply keeps_id | refine keeps_of_eq (by assumption) ?_ | split
    | dsimp only

theorem execModbusWriteMultiple_keeps {start : BitVec 16} {hs : List (BitVec 16)} {s : State} : Kept s (execModbusWriteMultiple
    start hs s) := by
  unfold execModbusWriteMultiple
  with_reducible repeat' first
    | assumption | intro _ | apply Dev.when_keeps | apply Dev.modbusPost_keeps | apply Dev.modbusError_keeps
    | apply onDev_kept | apply keeps_ite | apply keeps_ite_snd | apply keeps_each | apply keeps_foldl | apply keeps_each_snd
    | apply keeps_foldl_snd | apply keeps_id | refine keeps_of_eq (by assumption) ?_ | split | dsimp only

end Sys2Proof.Machine
end

