-- ==== Sys2Proof/Laws/KeepsCanOpen.lean ====
section
/-!
SUPPORT. What the operations of Machine/CanOpen.lean keep: see Keeps.lean.
-/

namespace Sys2Proof.Machine

theorem Dev.sendBeat_keeps {dev0 : Dev} {state : Byte} {d : Dev} (hk : Keeps dev0 d) : Keeps dev0 (Dev.sendBeat state d) := by
  unfold Dev.sendBeat
  with_reducible repeat' first
    | assumption | intro _ | apply Dev.setBuf_keeps | apply Dev.txReqOp_keeps | apply Dev.putCanopen_keeps | apply keeps_ite
    | apply keeps_ite_snd | apply keeps_each | apply keeps_foldl | apply keeps_each_snd | apply keeps_foldl_snd
    | apply keeps_id | refine keeps_of_eq (by assumption) ?_ | split | dsimp only

theorem execHeartbeat_keeps {s : State} : Kept s (execHeartbeat s) := by
  unfold execHeartbeat
  with_reducible repeat' first
    | assumption | intro _ | apply Dev.when_keeps | apply Dev.putMgmt_keeps | apply Dev.claimCan_keeps
    | apply Dev.sendBeat_keeps | apply onDev_kept | apply keeps_ite | apply keeps_ite_snd | apply keeps_each
    | apply keeps_foldl | apply keeps_each_snd | apply keeps_foldl_snd | apply keeps_id
    | refine keeps_of_eq (by assumption) ?_ | split | dsimp only

theorem Dev.setNmt_keeps {dev0 : Dev} {v : Nat} {d : Dev} (hk : Keeps dev0 d) : Keeps dev0 (Dev.setNmt v d) := by
  unfold Dev.setNmt
  with_reducible repeat' first
    | assumption | intro _ | apply Dev.putCanopen_keeps | apply keeps_ite | apply keeps_ite_snd | apply keeps_each
    | apply keeps_foldl | apply keeps_each_snd | apply keeps_foldl_snd | apply keeps_id
    | refine keeps_of_eq (by assumption) ?_ | split | dsimp only

theorem Dev.nmtCommand_keeps {dev0 : Dev} {cmd : Nat} {d : Dev} (hk : Keeps dev0 d) : Keeps dev0 (Dev.nmtCommand cmd d) := by
  unfold Dev.nmtCommand
  with_reducible repeat' first
    | assumption | intro _ | apply Dev.setNmt_keeps | apply Dev.sendBeat_keeps | apply Dev.putCanopen_keeps
    | apply keeps_ite | apply keeps_ite_snd | apply keeps_each | apply keeps_foldl | apply keeps_each_snd
    | apply keeps_foldl_snd | apply keeps_id | refine keeps_of_eq (by assumption) ?_ | split | dsimp only

theorem execNmt_keeps {cmd : Byte} {node : Byte} {s : State} : Kept s (execNmt cmd node s) := by
  unfold execNmt
  with_reducible repeat' first
    | assumption | intro _ | apply Dev.when_keeps | apply Dev.nmtCommand_keeps | apply onDev_kept | apply keeps_ite
    | apply keeps_ite_snd | apply keeps_each | apply keeps_foldl | apply keeps_each_snd | apply keeps_foldl_snd
    | apply keeps_id | refine keeps_of_eq (by assumption) ?_ | split | dsimp only

theorem execSyncConsumer_keeps {s : State} : Kept s (execSyncConsumer s) := by
  unfold execSyncConsumer
  with_reducible repeat' first
    | assumption | intro _ | apply Dev.when_keeps | apply Dev.putCanopen_keeps | apply onDev_kept | apply keeps_ite
    | apply keeps_ite_snd | apply keeps_each | apply keeps_foldl | apply keeps_each_snd | apply keeps_foldl_snd
    | apply keeps_id | refine keeps_of_eq (by assumption) ?_ | split | dsimp only

theorem Dev.sdoAnswer_keeps {dev0 : Dev} {bs : List Byte} {d : Dev} (hk : Keeps dev0 d) : Keeps dev0 (Dev.sdoAnswer bs d) := by
  unfold Dev.sdoAnswer
  with_reducible repeat' first
    | assumption | intro _ | apply Dev.putCanopen_keeps | apply keeps_ite | apply keeps_ite_snd | apply keeps_each
    | apply keeps_foldl | apply keeps_each_snd | apply keeps_foldl_snd | apply keeps_id
    | refine keeps_of_eq (by assumption) ?_ | split | dsimp only

theorem Dev.channelWrite_keeps {dev0 : Dev} {c : Nat} {target : Bool} {v : BitVec 16} {d : Dev} (hk : Keeps dev0 d) : Keeps dev0
    (Dev.channelWrite c target v d) := by
  unfold Dev.channelWrite
  with_reducible repeat' first
    | assumption | intro _ | apply Dev.sdoAnswer_keeps | apply Dev.postToEngine_keeps | apply Dev.putCanopen_keeps
    | apply keeps_ite | apply keeps_ite_snd | apply keeps_each | apply keeps_foldl | apply keeps_each_snd
    | apply keeps_foldl_snd | apply keeps_id | refine keeps_of_eq (by assumption) ?_ | split | dsimp only

theorem execChannelObjectWrite_keeps {c : Fin 8} {target : Bool} {v : BitVec 16} {s : State} : Kept s (execChannelObjectWrite c
    target v s) := by
  unfold execChannelObjectWrite
  with_reducible repeat' first
    | assumption | intro _ | apply Dev.when_keeps | apply Dev.channelWrite_keeps | apply onDev_kept | apply keeps_ite
    | apply keeps_ite_snd | apply keeps_each | apply keeps_foldl | apply keeps_each_snd | apply keeps_foldl_snd
    | apply keeps_id | refine keeps_of_eq (by assumption) ?_ | split | dsimp only

theorem Dev.channelRequest_keeps {dev0 : Dev} {c : Nat} {k : Nat} {index : BitVec 16} {sub : Byte} {write : Option (List Byte)}
    {d : Dev} (hk : Keeps dev0 d) : Keeps dev0 (Dev.channelRequest c k index sub write d) := by
  unfold Dev.channelRequest
  with_reducible repeat' first
    | assumption | intro _ | apply Dev.sdoAnswer_keeps | apply Dev.channelWrite_keeps | apply Dev.skipFree_keeps
    | apply keeps_ite | apply keeps_ite_snd | apply keeps_each | apply keeps_foldl | apply keeps_each_snd
    | apply keeps_foldl_snd | apply keeps_id | refine keeps_of_eq (by assumption) ?_ | split | dsimp only

theorem Dev.announceRequest_keeps {dev0 : Dev} {index : BitVec 16} {sub : Byte} {write : Option (List Byte)} {d : Dev} (hk :
    Keeps dev0 d) : Keeps dev0 (Dev.announceRequest index sub write d) := by
  unfold Dev.announceRequest
  with_reducible repeat' first
    | assumption | intro _ | apply Dev.sdoAnswer_keeps | apply keeps_ite | apply keeps_ite_snd | apply keeps_each
    | apply keeps_foldl | apply keeps_each_snd | apply keeps_foldl_snd | apply keeps_id
    | refine keeps_of_eq (by assumption) ?_ | split | dsimp only

theorem Dev.openRequest_keeps {dev0 : Dev} {d : Dev} (hk : Keeps dev0 d) : Keeps dev0 (Dev.openRequest d) := by
  unfold Dev.openRequest
  with_reducible repeat' first
    | assumption | intro _ | apply Dev.sdoAnswer_keeps | apply Dev.skipFree_keeps | apply keeps_ite | apply keeps_ite_snd
    | apply keeps_each | apply keeps_foldl | apply keeps_each_snd | apply keeps_foldl_snd | apply keeps_id
    | refine keeps_of_eq (by assumption) ?_ | split | dsimp only

theorem Dev.sdoRequest_keeps {dev0 : Dev} {index : BitVec 16} {sub : Byte} {write : Option (List Byte)} {d : Dev} (hk : Keeps
    dev0 d) : Keeps dev0 (Dev.sdoRequest index sub write d) := by
  unfold Dev.sdoRequest
  with_reducible repeat' first
    | assumption | intro _ | apply Dev.announceRequest_keeps | apply Dev.channelRequest_keeps | apply Dev.openRequest_keeps
    | apply keeps_ite | apply keeps_ite_snd | apply keeps_each | apply keeps_foldl | apply keeps_each_snd
    | apply keeps_foldl_snd | apply keeps_id | refine keeps_of_eq (by assumption) ?_ | split | dsimp only

theorem execSdoRequest_keeps {index : BitVec 16} {sub : Byte} {write : Option (List Byte)} {s : State} : Kept s (execSdoRequest
    index sub write s) := by
  unfold execSdoRequest
  with_reducible repeat' first
    | assumption | intro _ | apply Dev.when_keeps | apply Dev.sdoRequest_keeps | apply onDev_kept | apply keeps_ite
    | apply keeps_ite_snd | apply keeps_each | apply keeps_foldl | apply keeps_each_snd | apply keeps_foldl_snd
    | apply keeps_id | refine keeps_of_eq (by assumption) ?_ | split | dsimp only

end Sys2Proof.Machine
end

