-- ==== Sys2Proof/Laws/KeepsClock.lean ====
section
/-!
SUPPORT. What the operations of Machine/Clock.lean keep: see Keeps.lean.
-/

namespace Sys2Proof.Machine

theorem Dev.noteCount_keeps {dev0 : Dev} {dom : Domain} {count : Nat} {bad : Nat} {d : Dev} (hk : Keeps dev0 d) : Keeps dev0
    (Dev.noteCount dom count bad d) := by
  unfold Dev.noteCount
  with_reducible repeat' first
    | assumption | intro _ | apply Dev.putClocks_keeps | apply keeps_ite | apply keeps_ite_snd | apply keeps_each
    | apply keeps_foldl | apply keeps_each_snd | apply keeps_foldl_snd | apply keeps_id
    | refine keeps_of_eq (by assumption) ?_ | split | dsimp only

theorem execXtalValid_keeps {s : State} : Kept s (execXtalValid s) := by
  unfold execXtalValid
  with_reducible repeat' first
    | assumption | intro _ | apply Dev.putClocks_keeps | apply Dev.setBit_keeps | apply onDev_kept | apply keeps_ite
    | apply keeps_ite_snd | apply keeps_each | apply keeps_foldl | apply keeps_each_snd | apply keeps_foldl_snd
    | apply keeps_id | refine keeps_of_eq (by assumption) ?_ | split | dsimp only

theorem execXtalTimeout_keeps {s : State} : Kept s (execXtalTimeout s) := by
  unfold execXtalTimeout
  with_reducible repeat' first
    | assumption | intro _ | apply Dev.putClocks_keeps | apply Dev.raise_keeps | apply Dev.setBit_keeps | apply onDev_kept
    | apply keeps_ite | apply keeps_ite_snd | apply keeps_each | apply keeps_foldl | apply keeps_each_snd
    | apply keeps_foldl_snd | apply keeps_id | refine keeps_of_eq (by assumption) ?_ | split | dsimp only

theorem execPllLock_keeps {p : Fin 6} {s : State} : Kept s (execPllLock p s) := by
  unfold execPllLock
  with_reducible repeat' first
    | assumption | intro _ | apply Dev.when_keeps | apply Dev.setBit_keeps | apply onDev_kept | apply keeps_ite
    | apply keeps_ite_snd | apply keeps_each | apply keeps_foldl | apply keeps_each_snd | apply keeps_foldl_snd
    | apply keeps_id | refine keeps_of_eq (by assumption) ?_ | split | dsimp only

theorem execClockQualify_keeps {dom : Domain} {count : Nat} {s : State} : Kept s (execClockQualify dom count s) := by
  unfold execClockQualify
  with_reducible repeat' first
    | assumption | intro _ | apply Dev.noteCount_keeps | apply Dev.setBit_keeps | apply Dev.romAfter_keeps
    | apply Dev.putReset_keeps | apply onDev_kept | apply keeps_ite | apply keeps_ite_snd | apply keeps_each
    | apply keeps_foldl | apply keeps_each_snd | apply keeps_foldl_snd | apply keeps_id
    | refine keeps_of_eq (by assumption) ?_ | split | dsimp only

theorem execQualificationTimeout_keeps {dom : Domain} {s : State} : Kept s (execQualificationTimeout dom s) := by
  unfold execQualificationTimeout
  with_reducible repeat' first
    | assumption | intro _ | apply Dev.when_keeps | apply Dev.raise_keeps | apply onDev_kept | apply keeps_ite
    | apply keeps_ite_snd | apply keeps_each | apply keeps_foldl | apply keeps_each_snd | apply keeps_foldl_snd
    | apply keeps_id | refine keeps_of_eq (by assumption) ?_ | split | dsimp only

theorem Dev.failDomains_keeps {dev0 : Dev} {doms : List Domain} {d : Dev} (hk : Keeps dev0 d) : Keeps dev0 (Dev.failDomains doms
    d) := by
  unfold Dev.failDomains
  with_reducible repeat' first
    | assumption | intro _ | apply Dev.setBit_keeps | apply Dev.raise_keeps | apply Dev.assertSource_keeps | apply keeps_ite
    | apply keeps_ite_snd | apply keeps_each | apply keeps_foldl | apply keeps_each_snd | apply keeps_foldl_snd
    | apply keeps_id | refine keeps_of_eq (by assumption) ?_ | split | dsimp only

theorem execMonitorGate_keeps {dom : Domain} {count : Nat} {s : State} : Kept s (execMonitorGate dom count s) := by
  unfold execMonitorGate
  with_reducible repeat' first
    | assumption | intro _ | apply Dev.noteCount_keeps | apply Dev.when_keeps | apply Dev.failDomains_keeps
    | apply onDev_kept | apply keeps_ite | apply keeps_ite_snd | apply keeps_each | apply keeps_foldl | apply keeps_each_snd
    | apply keeps_foldl_snd | apply keeps_id | refine keeps_of_eq (by assumption) ?_ | split | dsimp only

theorem execClockEdgeTimeout_keeps {dom : Domain} {s : State} : Kept s (execClockEdgeTimeout dom s) := by
  unfold execClockEdgeTimeout
  with_reducible repeat' first
    | assumption | intro _ | apply Dev.when_keeps | apply Dev.failDomains_keeps | apply onDev_kept | apply keeps_ite
    | apply keeps_ite_snd | apply keeps_each | apply keeps_foldl | apply keeps_each_snd | apply keeps_foldl_snd
    | apply keeps_id | refine keeps_of_eq (by assumption) ?_ | split | dsimp only

theorem execXtalRcMismatch_keeps {s : State} : Kept s (execXtalRcMismatch s) := by
  unfold execXtalRcMismatch
  with_reducible repeat' first
    | assumption | intro _ | apply Dev.setBit_keeps | apply Dev.when_keeps | apply Dev.failDomains_keeps | apply onDev_kept
    | apply keeps_ite | apply keeps_ite_snd | apply keeps_each | apply keeps_foldl | apply keeps_each_snd
    | apply keeps_foldl_snd | apply keeps_id | refine keeps_of_eq (by assumption) ?_ | split | dsimp only

theorem execSscApply_keeps {p : SscPll} {s : State} : Kept s (execSscApply p s) := by
  unfold execSscApply
  with_reducible repeat' first
    | assumption | intro _ | apply Dev.raise_keeps | apply Dev.setFld_keeps | apply onDev_kept | apply keeps_ite
    | apply keeps_ite_snd | apply keeps_each | apply keeps_foldl | apply keeps_each_snd | apply keeps_foldl_snd
    | apply keeps_id | refine keeps_of_eq (by assumption) ?_ | split | dsimp only

end Sys2Proof.Machine
end

