-- ==== Sys2Proof/Laws/KeepsEngineF.lean ====
section
/-!
SUPPORT. What the operations of Machine/EngineF.lean keep: see Keeps.lean.
-/

namespace Sys2Proof.Machine

theorem Dev.fpOp2_keeps {dev0 : Dev} {op : Nat} {g : Word → Word → FpOut} {e : Nat} {f : EngFields} {d : Dev} (hk : Keeps dev0
    d) : Keeps dev0 (Dev.fpOp2 op g e f d) := by
  unfold Dev.fpOp2
  with_reducible repeat' first
    | assumption | intro _ | apply Dev.issueOp_keeps | apply keeps_ite | apply keeps_ite_snd | apply keeps_each
    | apply keeps_foldl | apply keeps_each_snd | apply keeps_foldl_snd | apply keeps_id
    | refine keeps_of_eq (by assumption) ?_ | split | dsimp only

theorem Dev.intOp2_keeps {dev0 : Dev} {op : Nat} {g : Word → Word → Word} {e : Nat} {f : EngFields} {d : Dev} (hk : Keeps dev0
    d) : Keeps dev0 (Dev.intOp2 op g e f d) := by
  unfold Dev.intOp2
  with_reducible repeat' first
    | assumption | intro _ | apply Dev.issueOp_keeps | apply keeps_ite | apply keeps_ite_snd | apply keeps_each
    | apply keeps_foldl | apply keeps_each_snd | apply keeps_foldl_snd | apply keeps_id
    | refine keeps_of_eq (by assumption) ?_ | split | dsimp only

theorem execNop_keeps {e : Fin 12} {f : EngFields} {s : State} : Kept s (execNop e f s) := by
  unfold execNop
  with_reducible repeat' first
    | assumption | intro _ | apply Dev.issue_keeps | apply Dev.advance_keeps | apply onDev_kept | apply keeps_ite
    | apply keeps_ite_snd | apply keeps_each | apply keeps_foldl | apply keeps_each_snd | apply keeps_foldl_snd
    | apply keeps_id | refine keeps_of_eq (by assumption) ?_ | split | dsimp only

theorem execFadd_keeps {e : Fin 12} {f : EngFields} {s : State} : Kept s (execFadd e f s) := by
  unfold execFadd
  with_reducible repeat' first
    | assumption | intro _ | apply Dev.fpOp2_keeps | apply onDev_kept | apply keeps_ite | apply keeps_ite_snd
    | apply keeps_each | apply keeps_foldl | apply keeps_each_snd | apply keeps_foldl_snd | apply keeps_id
    | refine keeps_of_eq (by assumption) ?_ | split | dsimp only

theorem execFsub_keeps {e : Fin 12} {f : EngFields} {s : State} : Kept s (execFsub e f s) := by
  unfold execFsub
  with_reducible repeat' first
    | assumption | intro _ | apply Dev.fpOp2_keeps | apply onDev_kept | apply keeps_ite | apply keeps_ite_snd
    | apply keeps_each | apply keeps_foldl | apply keeps_each_snd | apply keeps_foldl_snd | apply keeps_id
    | refine keeps_of_eq (by assumption) ?_ | split | dsimp only

theorem execFmul_keeps {e : Fin 12} {f : EngFields} {s : State} : Kept s (execFmul e f s) := by
  unfold execFmul
  with_reducible repeat' first
    | assumption | intro _ | apply Dev.fpOp2_keeps | apply onDev_kept | apply keeps_ite | apply keeps_ite_snd
    | apply keeps_each | apply keeps_foldl | apply keeps_each_snd | apply keeps_foldl_snd | apply keeps_id
    | refine keeps_of_eq (by assumption) ?_ | split | dsimp only

theorem execFma_keeps {e : Fin 12} {f : EngFields} {s : State} : Kept s (execFma e f s) := by
  unfold execFma
  with_reducible repeat' first
    | assumption | intro _ | apply Dev.issueOp_keeps | apply onDev_kept | apply keeps_ite | apply keeps_ite_snd
    | apply keeps_each | apply keeps_foldl | apply keeps_each_snd | apply keeps_foldl_snd | apply keeps_id
    | refine keeps_of_eq (by assumption) ?_ | split | dsimp only

theorem execFms_keeps {e : Fin 12} {f : EngFields} {s : State} : Kept s (execFms e f s) := by
  unfold execFms
  with_reducible repeat' first
    | assumption | intro _ | apply Dev.issueOp_keeps | apply onDev_kept | apply keeps_ite | apply keeps_ite_snd
    | apply keeps_each | apply keeps_foldl | apply keeps_each_snd | apply keeps_foldl_snd | apply keeps_id
    | refine keeps_of_eq (by assumption) ?_ | split | dsimp only

theorem execFmin_keeps {e : Fin 12} {f : EngFields} {s : State} : Kept s (execFmin e f s) := by
  unfold execFmin
  with_reducible repeat' first
    | assumption | intro _ | apply Dev.fpOp2_keeps | apply onDev_kept | apply keeps_ite | apply keeps_ite_snd
    | apply keeps_each | apply keeps_foldl | apply keeps_each_snd | apply keeps_foldl_snd | apply keeps_id
    | refine keeps_of_eq (by assumption) ?_ | split | dsimp only

theorem execFmax_keeps {e : Fin 12} {f : EngFields} {s : State} : Kept s (execFmax e f s) := by
  unfold execFmax
  with_reducible repeat' first
    | assumption | intro _ | apply Dev.fpOp2_keeps | apply onDev_kept | apply keeps_ite | apply keeps_ite_snd
    | apply keeps_each | apply keeps_foldl | apply keeps_each_snd | apply keeps_foldl_snd | apply keeps_id
    | refine keeps_of_eq (by assumption) ?_ | split | dsimp only

theorem execFabs_keeps {e : Fin 12} {f : EngFields} {s : State} : Kept s (execFabs e f s) := by
  unfold execFabs
  with_reducible repeat' first
    | assumption | intro _ | apply Dev.issueOp_keeps | apply onDev_kept | apply keeps_ite | apply keeps_ite_snd
    | apply keeps_each | apply keeps_foldl | apply keeps_each_snd | apply keeps_foldl_snd | apply keeps_id
    | refine keeps_of_eq (by assumption) ?_ | split | dsimp only

theorem execFneg_keeps {e : Fin 12} {f : EngFields} {s : State} : Kept s (execFneg e f s) := by
  unfold execFneg
  with_reducible repeat' first
    | assumption | intro _ | apply Dev.issueOp_keeps | apply onDev_kept | apply keeps_ite | apply keeps_ite_snd
    | apply keeps_each | apply keeps_foldl | apply keeps_each_snd | apply keeps_foldl_snd | apply keeps_id
    | refine keeps_of_eq (by assumption) ?_ | split | dsimp only

theorem execFcmp_keeps {e : Fin 12} {f : EngFields} {s : State} : Kept s (execFcmp e f s) := by
  unfold execFcmp
  with_reducible repeat' first
    | assumption | intro _ | apply Dev.issueOp_keeps | apply onDev_kept | apply keeps_ite | apply keeps_ite_snd
    | apply keeps_each | apply keeps_foldl | apply keeps_each_snd | apply keeps_foldl_snd | apply keeps_id
    | refine keeps_of_eq (by assumption) ?_ | split | dsimp only

theorem execFsel_keeps {e : Fin 12} {f : EngFields} {s : State} : Kept s (execFsel e f s) := by
  unfold execFsel
  with_reducible repeat' first
    | assumption | intro _ | apply Dev.issueOp_keeps | apply onDev_kept | apply keeps_ite | apply keeps_ite_snd
    | apply keeps_each | apply keeps_foldl | apply keeps_each_snd | apply keeps_foldl_snd | apply keeps_id
    | refine keeps_of_eq (by assumption) ?_ | split | dsimp only

theorem execCvtfi_keeps {e : Fin 12} {f : EngFields} {s : State} : Kept s (execCvtfi e f s) := by
  unfold execCvtfi
  with_reducible repeat' first
    | assumption | intro _ | apply Dev.issueOp_keeps | apply onDev_kept | apply keeps_ite | apply keeps_ite_snd
    | apply keeps_each | apply keeps_foldl | apply keeps_each_snd | apply keeps_foldl_snd | apply keeps_id
    | refine keeps_of_eq (by assumption) ?_ | split | dsimp only

theorem execCvtif_keeps {e : Fin 12} {f : EngFields} {s : State} : Kept s (execCvtif e f s) := by
  unfold execCvtif
  with_reducible repeat' first
    | assumption | intro _ | apply Dev.issueOp_keeps | apply onDev_kept | apply keeps_ite | apply keeps_ite_snd
    | apply keeps_each | apply keeps_foldl | apply keeps_each_snd | apply keeps_foldl_snd | apply keeps_id
    | refine keeps_of_eq (by assumption) ?_ | split | dsimp only

theorem execMov_keeps {e : Fin 12} {f : EngFields} {s : State} : Kept s (execMov e f s) := by
  unfold execMov
  with_reducible repeat' first
    | assumption | intro _ | apply Dev.issueOp_keeps | apply onDev_kept | apply keeps_ite | apply keeps_ite_snd
    | apply keeps_each | apply keeps_foldl | apply keeps_each_snd | apply keeps_foldl_snd | apply keeps_id
    | refine keeps_of_eq (by assumption) ?_ | split | dsimp only

theorem execIadd_keeps {e : Fin 12} {f : EngFields} {s : State} : Kept s (execIadd e f s) := by
  unfold execIadd
  with_reducible repeat' first
    | assumption | intro _ | apply Dev.intOp2_keeps | apply onDev_kept | apply keeps_ite | apply keeps_ite_snd
    | apply keeps_each | apply keeps_foldl | apply keeps_each_snd | apply keeps_foldl_snd | apply keeps_id
    | refine keeps_of_eq (by assumption) ?_ | split | dsimp only

theorem execIsub_keeps {e : Fin 12} {f : EngFields} {s : State} : Kept s (execIsub e f s) := by
  unfold execIsub
  with_reducible repeat' first
    | assumption | intro _ | apply Dev.intOp2_keeps | apply onDev_kept | apply keeps_ite | apply keeps_ite_snd
    | apply keeps_each | apply keeps_foldl | apply keeps_each_snd | apply keeps_foldl_snd | apply keeps_id
    | refine keeps_of_eq (by assumption) ?_ | split | dsimp only

theorem execIand_keeps {e : Fin 12} {f : EngFields} {s : State} : Kept s (execIand e f s) := by
  unfold execIand
  with_reducible repeat' first
    | assumption | intro _ | apply Dev.intOp2_keeps | apply onDev_kept | apply keeps_ite | apply keeps_ite_snd
    | apply keeps_each | apply keeps_foldl | apply keeps_each_snd | apply keeps_foldl_snd | apply keeps_id
    | refine keeps_of_eq (by assumption) ?_ | split | dsimp only

theorem execIor_keeps {e : Fin 12} {f : EngFields} {s : State} : Kept s (execIor e f s) := by
  unfold execIor
  with_reducible repeat' first
    | assumption | intro _ | apply Dev.intOp2_keeps | apply onDev_kept | apply keeps_ite | apply keeps_ite_snd
    | apply keeps_each | apply keeps_foldl | apply keeps_each_snd | apply keeps_foldl_snd | apply keeps_id
    | refine keeps_of_eq (by assumption) ?_ | split | dsimp only

theorem execIshl_keeps {e : Fin 12} {f : EngFields} {s : State} : Kept s (execIshl e f s) := by
  unfold execIshl
  with_reducible repeat' first
    | assumption | intro _ | apply Dev.intOp2_keeps | apply onDev_kept | apply keeps_ite | apply keeps_ite_snd
    | apply keeps_each | apply keeps_foldl | apply keeps_each_snd | apply keeps_foldl_snd | apply keeps_id
    | refine keeps_of_eq (by assumption) ?_ | split | dsimp only

theorem execIshr_keeps {e : Fin 12} {f : EngFields} {s : State} : Kept s (execIshr e f s) := by
  unfold execIshr
  with_reducible repeat' first
    | assumption | intro _ | apply Dev.issueOp_keeps | apply onDev_kept | apply keeps_ite | apply keeps_ite_snd
    | apply keeps_each | apply keeps_foldl | apply keeps_each_snd | apply keeps_foldl_snd | apply keeps_id
    | refine keeps_of_eq (by assumption) ?_ | split | dsimp only

theorem execIcmp_keeps {e : Fin 12} {f : EngFields} {s : State} : Kept s (execIcmp e f s) := by
  unfold execIcmp
  with_reducible repeat' first
    | assumption | intro _ | apply Dev.issueOp_keeps | apply onDev_kept | apply keeps_ite | apply keeps_ite_snd
    | apply keeps_each | apply keeps_foldl | apply keeps_each_snd | apply keeps_foldl_snd | apply keeps_id
    | refine keeps_of_eq (by assumption) ?_ | split | dsimp only

theorem execIllegalOpcode_keeps {e : Fin 12} {op : BitVec 6} {fetch : Ecc} {s : State} : Kept s (execIllegalOpcode e op fetch s)
    := by
  unfold execIllegalOpcode
  with_reducible repeat' first
    | assumption | intro _ | apply Dev.when_keeps | apply Dev.fetched_keeps | apply Dev.engineFault_keeps
    | apply Dev.newCycle_keeps | apply onDev_kept | apply keeps_ite | apply keeps_ite_snd | apply keeps_each
    | apply keeps_foldl | apply keeps_each_snd | apply keeps_foldl_snd | apply keeps_id
    | refine keeps_of_eq (by assumption) ?_ | split | dsimp only

end Sys2Proof.Machine
end

