-- ==== Sys2Proof/Laws/KeepsFrame.lean ====
section
/-!
SUPPORT. What the operations of Machine/Frame.lean keep: see Keeps.lean.
-/

namespace Sys2Proof.Machine

theorem Dev.deliverPosted_keeps {dev0 : Dev} {e : Fin 12} {p : Posted} {d : Dev} (hk : Keeps dev0 d) : Keeps dev0
    (Dev.deliverPosted e p d) := by
  unfold Dev.deliverPosted
  with_reducible repeat' first
    | assumption | intro _ | apply Dev.bumpSat_keeps | apply Dev.raise_keeps | apply Dev.busWrite_keeps | apply keeps_ite
    | apply keeps_ite_snd | apply keeps_each | apply keeps_foldl | apply keeps_each_snd | apply keeps_foldl_snd
    | apply keeps_id | refine keeps_of_eq (by assumption) ?_ | split | dsimp only

theorem execPostedWriteDelivery_keeps {e : Fin 12} {s : State} : Kept s (execPostedWriteDelivery e s) := by
  unfold execPostedWriteDelivery
  with_reducible repeat' first
    | assumption | intro _ | apply Dev.deliverPosted_keeps | apply Dev.modEngine_keeps | apply onDev_kept | apply keeps_ite
    | apply keeps_ite_snd | apply keeps_each | apply keeps_foldl | apply keeps_each_snd | apply keeps_foldl_snd
    | apply keeps_id | refine keeps_of_eq (by assumption) ?_ | split | dsimp only

theorem execLdDataReturn_keeps {e : Fin 12} {s : State} : Kept s (execLdDataReturn e s) := by
  unfold execLdDataReturn
  with_reducible repeat' first
    | assumption | intro _ | apply Dev.busRead_keeps | apply Dev.setV_keeps | apply Dev.modEngine_keeps | apply onDev_kept
    | apply keeps_ite | apply keeps_ite_snd | apply keeps_each | apply keeps_foldl | apply keeps_each_snd
    | apply keeps_foldl_snd | apply keeps_id | refine keeps_of_eq (by assumption) ?_ | split | dsimp only

theorem Dev.header_keeps {dev0 : Dev} {e : Nat} {off : Nat} {w : Word} {d : Dev} (hk : Keeps dev0 d) : Keeps dev0 (Dev.header e
    off w d) := by
  unfold Dev.header
  with_reducible repeat' first
    | assumption | intro _ | apply Dev.setBytes_keeps | apply keeps_ite | apply keeps_ite_snd | apply keeps_each
    | apply keeps_foldl | apply keeps_each_snd | apply keeps_foldl_snd | apply keeps_id
    | refine keeps_of_eq (by assumption) ?_ | split | dsimp only

theorem Dev.inputCopy_keeps {dev0 : Dev} {e : Fin 12} {i : Nat} {d : Dev} (hk : Keeps dev0 d) : Keeps dev0 (Dev.inputCopy e i d)
    := by
  unfold Dev.inputCopy
  with_reducible repeat' first
    | assumption | intro _ | apply Dev.busRead_keeps | apply Dev.header_keeps | apply Dev.putReadData_keeps
    | apply keeps_ite | apply keeps_ite_snd | apply keeps_each | apply keeps_foldl | apply keeps_each_snd
    | apply keeps_foldl_snd | apply keeps_id | refine keeps_of_eq (by assumption) ?_ | split | dsimp only

theorem Dev.latchView_keeps {dev0 : Dev} {e : Nat} {d : Dev} (hk : Keeps dev0 d) : Keeps dev0 (Dev.latchView e d) := by
  unfold Dev.latchView
  with_reducible repeat' first
    | assumption | intro _ | apply Dev.modEngine_keeps | apply Dev.setReg_keeps | apply keeps_ite | apply keeps_ite_snd
    | apply keeps_each | apply keeps_foldl | apply keeps_each_snd | apply keeps_foldl_snd | apply keeps_id
    | refine keeps_of_eq (by assumption) ?_ | split | dsimp only

theorem Dev.takeMailbox_keeps {dev0 : Dev} {e : Nat} {d : Dev} (hk : Keeps dev0 d) : Keeps dev0 (Dev.takeMailbox e d).2 := by
  unfold Dev.takeMailbox
  with_reducible repeat' first
    | assumption | intro _ | apply Dev.setBit_keeps | apply Dev.header_keeps | apply Dev.raise_keeps
    | apply Dev.bumpWrap_keeps | apply Dev.bumpSat_keeps | apply keeps_ite | apply keeps_ite_snd | apply keeps_each
    | apply keeps_foldl | apply keeps_each_snd | apply keeps_foldl_snd | apply keeps_id
    | refine keeps_of_eq (by assumption) ?_ | split | dsimp only

theorem Dev.enterFrame_keeps {dev0 : Dev} {e : Nat} {d : Dev} (hk : Keeps dev0 d) : Keeps dev0 (Dev.enterFrame e d) := by
  unfold Dev.enterFrame
  with_reducible repeat' first
    | assumption | intro _ | apply Dev.modEngine_keeps | apply Dev.bumpWrap_keeps | apply Dev.setPc_keeps
    | apply Dev.setEstate_keeps | apply keeps_ite | apply keeps_ite_snd | apply keeps_each | apply keeps_foldl
    | apply keeps_each_snd | apply keeps_foldl_snd | apply keeps_id | refine keeps_of_eq (by assumption) ?_ | split
    | dsimp only

theorem Dev.frameHeader_keeps {dev0 : Dev} {e : Nat} {mbxNew : Bool} {d : Dev} (hk : Keeps dev0 d) : Keeps dev0 (Dev.frameHeader
    e mbxNew d) := by
  unfold Dev.frameHeader
  with_reducible repeat' first
    | assumption | intro _ | apply Dev.header_keeps | apply keeps_ite | apply keeps_ite_snd | apply keeps_each
    | apply keeps_foldl | apply keeps_each_snd | apply keeps_foldl_snd | apply keeps_id
    | refine keeps_of_eq (by assumption) ?_ | split | dsimp only

theorem Dev.frameStart_keeps {dev0 : Dev} {e : Fin 12} {d : Dev} (hk : Keeps dev0 d) : Keeps dev0 (Dev.frameStart e d) := by
  unfold Dev.frameStart
  with_reducible repeat' first
    | assumption | intro _ | apply Dev.inputCopy_keeps | apply Dev.latchView_keeps | apply Dev.enterFrame_keeps
    | apply Dev.takeMailbox_keeps | apply Dev.modEngine_keeps | apply Dev.frameHeader_keeps | apply keeps_ite
    | apply keeps_ite_snd | apply keeps_each | apply keeps_foldl | apply keeps_each_snd | apply keeps_foldl_snd
    | apply keeps_id | refine keeps_of_eq (by assumption) ?_ | split | dsimp only

theorem execFrameStart_keeps {e : Fin 12} {s : State} : Kept s (execFrameStart e s) := by
  unfold execFrameStart
  with_reducible repeat' first
    | assumption | intro _ | apply Dev.when_keeps | apply Dev.frameStart_keeps | apply onDev_kept | apply keeps_ite
    | apply keeps_ite_snd | apply keeps_each | apply keeps_foldl | apply keeps_each_snd | apply keeps_foldl_snd
    | apply keeps_id | refine keeps_of_eq (by assumption) ?_ | split | dsimp only

theorem Dev.skipEvent_keeps {dev0 : Dev} {e : Nat} {d : Dev} (hk : Keeps dev0 d) : Keeps dev0 (Dev.skipEvent e d) := by
  unfold Dev.skipEvent
  with_reducible repeat' first
    | assumption | intro _ | apply Dev.modEngine_keeps | apply Dev.bumpSat_keeps | apply Dev.raise_keeps | apply keeps_ite
    | apply keeps_ite_snd | apply keeps_each | apply keeps_foldl | apply keeps_each_snd | apply keeps_foldl_snd
    | apply keeps_id | refine keeps_of_eq (by assumption) ?_ | split | dsimp only

theorem Dev.takeHeld_keeps {dev0 : Dev} {e : Nat} {d : Dev} (hk : Keeps dev0 d) : Keeps dev0 (Dev.takeHeld e d) := by
  unfold Dev.takeHeld
  with_reducible repeat' first
    | assumption | intro _ | apply Dev.skipEvent_keeps | apply Dev.modEngine_keeps | apply keeps_ite | apply keeps_ite_snd
    | apply keeps_each | apply keeps_foldl | apply keeps_each_snd | apply keeps_foldl_snd | apply keeps_id
    | refine keeps_of_eq (by assumption) ?_ | split | dsimp only

theorem Dev.sectionEnd_keeps {dev0 : Dev} {e : Nat} {d : Dev} (hk : Keeps dev0 d) : Keeps dev0 (Dev.sectionEnd e d) := by
  unfold Dev.sectionEnd
  with_reducible repeat' first
    | assumption | intro _ | apply Dev.modEngine_keeps | apply Dev.enterHalted_keeps | apply Dev.takeHeld_keeps
    | apply Dev.setEstate_keeps | apply keeps_ite | apply keeps_ite_snd | apply keeps_each | apply keeps_foldl
    | apply keeps_each_snd | apply keeps_foldl_snd | apply keeps_id | refine keeps_of_eq (by assumption) ?_ | split
    | dsimp only

theorem Dev.frameOverrun_keeps {dev0 : Dev} {e : Nat} {d : Dev} (hk : Keeps dev0 d) : Keeps dev0 (Dev.frameOverrun e d) := by
  unfold Dev.frameOverrun
  with_reducible repeat' first
    | assumption | intro _ | apply Dev.raise_keeps | apply Dev.bumpSat_keeps | apply Dev.modEngine_keeps
    | apply Dev.setReg_keeps | apply Dev.dropPending_keeps | apply Dev.sectionEnd_keeps | apply Dev.when_keeps
    | apply Dev.engineTrip_keeps | apply Dev.trip_keeps | apply keeps_ite | apply keeps_ite_snd | apply keeps_each
    | apply keeps_foldl | apply keeps_each_snd | apply keeps_foldl_snd | apply keeps_id
    | refine keeps_of_eq (by assumption) ?_ | split | dsimp only

theorem execFrameDeadline_keeps {e : Fin 12} {s : State} : Kept s (execFrameDeadline e s) := by
  unfold execFrameDeadline
  with_reducible repeat' first
    | assumption | intro _ | apply Dev.when_keeps | apply Dev.frameOverrun_keeps | apply onDev_kept | apply keeps_ite
    | apply keeps_ite_snd | apply keeps_each | apply keeps_foldl | apply keeps_each_snd | apply keeps_foldl_snd
    | apply keeps_id | refine keeps_of_eq (by assumption) ?_ | split | dsimp only

theorem Dev.frameDone_keeps {dev0 : Dev} {e : Nat} {d : Dev} (hk : Keeps dev0 d) : Keeps dev0 (Dev.frameDone e d) := by
  unfold Dev.frameDone
  with_reducible repeat' first
    | assumption | intro _ | apply Dev.setFld_keeps | apply Dev.when_keeps | apply Dev.setReg_keeps
    | apply Dev.modEngine_keeps | apply Dev.sectionEnd_keeps | apply keeps_ite | apply keeps_ite_snd | apply keeps_each
    | apply keeps_foldl | apply keeps_each_snd | apply keeps_foldl_snd | apply keeps_id
    | refine keeps_of_eq (by assumption) ?_ | split | dsimp only

theorem execFrameComplete_keeps {e : Fin 12} {s : State} : Kept s (execFrameComplete e s) := by
  unfold execFrameComplete
  with_reducible repeat' first
    | assumption | intro _ | apply Dev.sectionEnd_keeps | apply Dev.modEngine_keeps | apply Dev.dropPending_keeps
    | apply Dev.when_keeps | apply Dev.frameOverrun_keeps | apply Dev.frameDone_keeps | apply onDev_kept | apply keeps_ite
    | apply keeps_ite_snd | apply keeps_each | apply keeps_foldl | apply keeps_each_snd | apply keeps_foldl_snd
    | apply keeps_id | refine keeps_of_eq (by assumption) ?_ | split | dsimp only

theorem Dev.sampleEvent_keeps {dev0 : Dev} {g : Nat} {e : Nat} {d : Dev} (hk : Keeps dev0 d) : Keeps dev0 (Dev.sampleEvent g e
    d) := by
  unfold Dev.sampleEvent
  with_reducible repeat' first
    | assumption | intro _ | apply Dev.when_keeps | apply Dev.skipEvent_keeps | apply Dev.modEngine_keeps | apply keeps_ite
    | apply keeps_ite_snd | apply keeps_each | apply keeps_foldl | apply keeps_each_snd | apply keeps_foldl_snd
    | apply keeps_id | refine keeps_of_eq (by assumption) ?_ | split | dsimp only

theorem Dev.publishSlots_keeps {dev0 : Dev} {e : Nat} {d : Dev} (hk : Keeps dev0 d) : Keeps dev0 (Dev.publishSlots e d) := by
  unfold Dev.publishSlots
  with_reducible repeat' first
    | assumption | intro _ | apply Dev.modEngine_keeps | apply Dev.when_keeps | apply keeps_ite | apply keeps_ite_snd
    | apply keeps_each | apply keeps_foldl | apply keeps_each_snd | apply keeps_foldl_snd | apply keeps_id
    | refine keeps_of_eq (by assumption) ?_ | split | dsimp only

theorem Dev.swapAtReload_keeps {dev0 : Dev} {e : Nat} {d : Dev} (hk : Keeps dev0 d) : Keeps dev0 (Dev.swapAtReload e d) := by
  unfold Dev.swapAtReload
  with_reducible repeat' first
    | assumption | intro _ | apply Dev.cluFlag_keeps | apply Dev.swapNow_keeps | apply keeps_ite | apply keeps_ite_snd
    | apply keeps_each | apply keeps_foldl | apply keeps_each_snd | apply keeps_foldl_snd | apply keeps_id
    | refine keeps_of_eq (by assumption) ?_ | split | dsimp only

theorem Dev.lockThrough_keeps {dev0 : Dev} {g : Nat} {e : Nat} {d : Dev} (hk : Keeps dev0 d) : Keeps dev0 (Dev.lockThrough g e
    d) := by
  unfold Dev.lockThrough
  with_reducible repeat' first
    | assumption | intro _ | apply Dev.modEngine_keeps | apply keeps_ite | apply keeps_ite_snd | apply keeps_each
    | apply keeps_foldl | apply keeps_each_snd | apply keeps_foldl_snd | apply keeps_id
    | refine keeps_of_eq (by assumption) ?_ | split | dsimp only

theorem Dev.engineBoundary_keeps {dev0 : Dev} {g : Nat} {d : Dev} (hk : Keeps dev0 d) : Keeps dev0 (Dev.engineBoundary g d) :=
    by
  unfold Dev.engineBoundary
  with_reducible repeat' first
    | assumption | intro _ | apply Dev.swapAtReload_keeps | apply Dev.publishSlots_keeps | apply keeps_ite
    | apply keeps_ite_snd | apply keeps_each | apply keeps_foldl | apply keeps_each_snd | apply keeps_foldl_snd
    | apply keeps_id | refine keeps_of_eq (by assumption) ?_ | split | dsimp only

theorem Dev.engineReload_keeps {dev0 : Dev} {g : Nat} {d : Dev} (hk : Keeps dev0 d) : Keeps dev0 (Dev.engineReload g d) := by
  unfold Dev.engineReload
  with_reducible repeat' first
    | assumption | intro _ | apply Dev.sampleEvent_keeps | apply Dev.lockThrough_keeps | apply keeps_ite
    | apply keeps_ite_snd | apply keeps_each | apply keeps_foldl | apply keeps_each_snd | apply keeps_foldl_snd
    | apply keeps_id | refine keeps_of_eq (by assumption) ?_ | split | dsimp only

end Sys2Proof.Machine
end

