-- ==== Sys2Proof/Laws/KeepsReload.lean ====
section
/-!
SUPPORT. What the operations of Machine/Reload.lean keep: see Keeps.lean.
-/

namespace Sys2Proof.Machine

theorem Dev.replaceSnapshots_keeps {dev0 : Dev} {g : Nat} {d : Dev} (hk : Keeps dev0 d) : Keeps dev0 (Dev.replaceSnapshots g d)
    := by
  unfold Dev.replaceSnapshots
  with_reducible repeat' first
    | assumption | intro _ | apply Dev.mcBoundary_keeps | apply Dev.posReplace_keeps | apply Dev.publishGroup_keeps
    | apply Dev.winCount_keeps | apply keeps_ite | apply keeps_ite_snd | apply keeps_each | apply keeps_foldl
    | apply keeps_each_snd | apply keeps_foldl_snd | apply keeps_id | refine keeps_of_eq (by assumption) ?_ | split
    | dsimp only

theorem Dev.reloadGroup_keeps {dev0 : Dev} {g : Nat} {d : Dev} (hk : Keeps dev0 d) : Keeps dev0 (Dev.reloadGroup g d) := by
  unfold Dev.reloadGroup
  with_reducible repeat' first
    | assumption | intro _ | apply Dev.when_keeps | apply Dev.replaceSnapshots_keeps | apply Dev.reloadTake_keeps
    | apply Dev.posLatch_keeps | apply Dev.sdReload_keeps | apply Dev.acqBoundary_keeps | apply Dev.reloadPeriod_keeps
    | apply Dev.commitBoundary_keeps | apply Dev.engineBoundary_keeps | apply Dev.trimReload_keeps
    | apply Dev.mcReload_keeps | apply Dev.engineReload_keeps | apply keeps_ite | apply keeps_ite_snd | apply keeps_each
    | apply keeps_foldl | apply keeps_each_snd | apply keeps_foldl_snd | apply keeps_id
    | refine keeps_of_eq (by assumption) ?_ | split | dsimp only

theorem execReload_keeps {g : Fin 12} {s : State} : Kept s (execReload g s) := by
  unfold execReload
  with_reducible repeat' first
    | assumption | intro _ | apply Dev.commitRelease_keeps | apply Dev.holdTimebase_keeps | apply Dev.reloadGroup_keeps
    | apply onDev_kept | apply keeps_ite | apply keeps_ite_snd | apply keeps_each | apply keeps_foldl | apply keeps_each_snd
    | apply keeps_foldl_snd | apply keeps_id | refine keeps_of_eq (by assumption) ?_ | split | dsimp only

theorem execSnapshotReplace_keeps {g : Fin 12} {s : State} : Kept s (execSnapshotReplace g s) := by
  unfold execSnapshotReplace
  with_reducible repeat' first
    | assumption | intro _ | apply Dev.when_keeps | apply Dev.replaceSnapshots_keeps | apply onDev_kept | apply keeps_ite
    | apply keeps_ite_snd | apply keeps_each | apply keeps_foldl | apply keeps_each_snd | apply keeps_foldl_snd
    | apply keeps_id | refine keeps_of_eq (by assumption) ?_ | split | dsimp only

end Sys2Proof.Machine
end

