-- ==== Sys2Proof/Laws/KeepsVote.lean ====
section
/-!
SUPPORT. What the operations of Machine/Vote.lean keep: see Keeps.lean.
-/

namespace Sys2Proof.Machine

theorem Dev.votedWrite_keeps {dev0 : Dev} {c : StoreCopy} {d : Dev} (hk : Keeps dev0 d) : Keeps dev0 (Dev.votedWrite c d) := by
  unfold Dev.votedWrite
  with_reducible repeat' first
    | assumption | intro _ | apply Dev.busWrite_keeps | apply Dev.setByte_keeps | apply Dev.refuseSys_keeps
    | apply keeps_ite | apply keeps_ite_snd | apply keeps_each | apply keeps_foldl | apply keeps_each_snd
    | apply keeps_foldl_snd | apply keeps_id | refine keeps_of_eq (by assumption) ?_ | split | dsimp only

theorem Dev.attribute_keeps {dev0 : Dev} {x : StoreSet} {d : Dev} (hk : Keeps dev0 d) : Keeps dev0 (Dev.attribute x d) := by
  unfold Dev.attribute
  with_reducible repeat' first
    | assumption | intro _ | apply Dev.markOdd_keeps | apply Dev.bumpSat_keeps | apply Dev.triadFatal_keeps
    | apply keeps_ite | apply keeps_ite_snd | apply keeps_each | apply keeps_foldl | apply keeps_each_snd
    | apply keeps_foldl_snd | apply keeps_id | refine keeps_of_eq (by assumption) ?_ | split | dsimp only

theorem Dev.votedStore_keeps {dev0 : Dev} {x : StoreSet} {d : Dev} (hk : Keeps dev0 d) : Keeps dev0 (Dev.votedStore x d) := by
  unfold Dev.votedStore
  with_reducible repeat' first
    | assumption | intro _ | apply Dev.when_keeps | apply Dev.votedWrite_keeps | apply Dev.attribute_keeps
    | apply Dev.triadFatal_keeps | apply keeps_ite | apply keeps_ite_snd | apply keeps_each | apply keeps_foldl
    | apply keeps_each_snd | apply keeps_foldl_snd | apply keeps_id | refine keeps_of_eq (by assumption) ?_ | split
    | dsimp only

theorem execVotedStore_keeps {x : StoreSet} {s : State} : Kept s (execVotedStore x s) := by
  unfold execVotedStore
  with_reducible repeat' first
    | assumption | intro _ | apply Dev.when_keeps | apply Dev.votedStore_keeps | apply onDev_kept | apply keeps_ite
    | apply keeps_ite_snd | apply keeps_each | apply keeps_foldl | apply keeps_each_snd | apply keeps_foldl_snd
    | apply keeps_id | refine keeps_of_eq (by assumption) ?_ | split | dsimp only

theorem Dev.sampleLoad_keeps {dev0 : Dev} {c : Nat} {a1 : Nat} {bytes : Nat} {x : Exchange} {d : Dev} (hk : Keeps dev0 d) :
    Keeps dev0 (Dev.sampleLoad c a1 bytes x d).2 := by
  unfold Dev.sampleLoad
  with_reducible repeat' first
    | assumption | intro _ | apply Dev.busRead_keeps | apply keeps_ite | apply keeps_ite_snd | apply keeps_each
    | apply keeps_foldl | apply keeps_each_snd | apply keeps_foldl_snd | apply keeps_id
    | refine keeps_of_eq (by assumption) ?_ | split | dsimp only

theorem Dev.samples_keeps {dev0 : Dev} {addr : Nat → Nat} {bytes : Nat} {x : Exchange} {d : Dev} (hk : Keeps dev0 d) : Keeps
    dev0 (Dev.samples addr bytes x d).2 := by
  unfold Dev.samples
  with_reducible repeat' first
    | assumption | intro _ | apply Dev.sampleLoad_keeps | apply keeps_ite | apply keeps_ite_snd | apply keeps_each
    | apply keeps_foldl | apply keeps_each_snd | apply keeps_foldl_snd | apply keeps_id
    | refine keeps_of_eq (by assumption) ?_ | split | dsimp only

theorem Dev.deliver_keeps {dev0 : Dev} {k : LoadKind} {l : List Word} {x : Exchange} {d : Dev} (hk : Keeps dev0 d) : Keeps dev0
    (Dev.deliver k l x d) := by
  unfold Dev.deliver
  with_reducible repeat' first
    | assumption | intro _ | apply Dev.modTriad_keeps | apply Dev.skipFree_keeps | apply Dev.setFld_keeps
    | apply Dev.markOdd_keeps | apply keeps_ite | apply keeps_ite_snd | apply keeps_each | apply keeps_foldl
    | apply keeps_each_snd | apply keeps_foldl_snd | apply keeps_id | refine keeps_of_eq (by assumption) ?_ | split
    | dsimp only

theorem execExchangeDelivery_keeps {k : LoadKind} {addr : BitVec 32} {bytes : Nat} {x : Exchange} {s : State} : Kept s
    (execExchangeDelivery k addr bytes x s) := by
  unfold execExchangeDelivery
  with_reducible repeat' first
    | assumption | intro _ | apply Dev.when_keeps | apply Dev.samples_keeps | apply Dev.deliver_keeps | apply onDev_kept
    | apply keeps_ite | apply keeps_ite_snd | apply keeps_each | apply keeps_foldl | apply keeps_each_snd
    | apply keeps_foldl_snd | apply keeps_id | refine keeps_of_eq (by assumption) ?_ | split | dsimp only

theorem execExchangeTimeout_keeps {k : LoadKind} {addr : BitVec 32} {bytes : Nat} {x : Exchange} {s : State} : Kept s
    (execExchangeTimeout k addr bytes x s) := by
  unfold execExchangeTimeout
  with_reducible repeat' first
    | assumption | intro _ | apply Dev.samples_keeps | apply Dev.addSat_keeps | apply Dev.markOdd_keeps
    | apply Dev.deliver_keeps | apply Dev.triadFatal_keeps | apply onDev_kept | apply keeps_ite | apply keeps_ite_snd
    | apply keeps_each | apply keeps_foldl | apply keeps_each_snd | apply keeps_foldl_snd | apply keeps_id
    | refine keeps_of_eq (by assumption) ?_ | split | dsimp only

theorem Dev.exchangeLoad_keeps {dev0 : Dev} {k : LoadKind} {rd : Nat} {rs1 : Nat} {imm : BitVec 12} {x : Exchange} {d : Dev} (hk
    : Keeps dev0 d) : Keeps dev0 (Dev.exchangeLoad k rd rs1 imm x d) := by
  unfold Dev.exchangeLoad
  with_reducible repeat' first
    | assumption | intro _ | apply Dev.samples_keeps | apply Dev.skipFree_keeps | apply Dev.deliver_keeps
    | apply Dev.modCore_keeps | apply keeps_ite | apply keeps_ite_snd | apply keeps_each | apply keeps_foldl
    | apply keeps_each_snd | apply keeps_foldl_snd | apply keeps_id | refine keeps_of_eq (by assumption) ?_ | split
    | dsimp only

theorem execXlwMedS_keeps {rd : Fin 32} {rs1 : Fin 32} {imm : BitVec 12} {x : Exchange} {s : State} : Kept s (execXlwMedS rd rs1
    imm x s) := by
  unfold execXlwMedS
  with_reducible repeat' first
    | assumption | intro _ | apply Dev.exchangeLoad_keeps | apply onDev_kept | apply keeps_ite | apply keeps_ite_snd
    | apply keeps_each | apply keeps_foldl | apply keeps_each_snd | apply keeps_foldl_snd | apply keeps_id
    | refine keeps_of_eq (by assumption) ?_ | split | dsimp only

theorem execXlwMedU_keeps {rd : Fin 32} {rs1 : Fin 32} {imm : BitVec 12} {x : Exchange} {s : State} : Kept s (execXlwMedU rd rs1
    imm x s) := by
  unfold execXlwMedU
  with_reducible repeat' first
    | assumption | intro _ | apply Dev.exchangeLoad_keeps | apply onDev_kept | apply keeps_ite | apply keeps_ite_snd
    | apply keeps_each | apply keeps_foldl | apply keeps_each_snd | apply keeps_foldl_snd | apply keeps_id
    | refine keeps_of_eq (by assumption) ?_ | split | dsimp only

theorem execXflwMed_keeps {rd : Fin 32} {rs1 : Fin 32} {imm : BitVec 12} {x : Exchange} {s : State} : Kept s (execXflwMed rd rs1
    imm x s) := by
  unfold execXflwMed
  with_reducible repeat' first
    | assumption | intro _ | apply Dev.exchangeLoad_keeps | apply onDev_kept | apply keeps_ite | apply keeps_ite_snd
    | apply keeps_each | apply keeps_foldl | apply keeps_each_snd | apply keeps_foldl_snd | apply keeps_id
    | refine keeps_of_eq (by assumption) ?_ | split | dsimp only

end Sys2Proof.Machine
end

