-- ==== Sys2Proof/Laws/KeepsTick.lean ====
section
/-!
SUPPORT. What the operations of Machine/Tick.lean keep: see Keeps.lean.
-/

namespace Sys2Proof.Machine

theorem Dev.deviceTick_keeps {dev0 : Dev} {d : Dev} (hk : Keeps dev0 d) : Keeps dev0 (Dev.deviceTick d) := by
  unfold Dev.deviceTick
  with_reducible repeat' first
    | assumption | intro _ | apply Dev.putRateAcc_keeps | apply Dev.putDevTime_keeps | apply keeps_ite | apply keeps_ite_snd
    | apply keeps_each | apply keeps_foldl | apply keeps_each_snd | apply keeps_foldl_snd | apply keeps_id
    | refine keeps_of_eq (by assumption) ?_ | split | dsimp only

theorem Dev.noteActive_keeps {dev0 : Dev} {d : Dev} (hk : Keeps dev0 d) : Keeps dev0 (Dev.noteActive d) := by
  unfold Dev.noteActive
  with_reducible repeat' first
    | assumption | intro _ | apply Dev.putActiveSeen_keeps | apply keeps_ite | apply keeps_ite_snd | apply keeps_each
    | apply keeps_foldl | apply keeps_each_snd | apply keeps_foldl_snd | apply keeps_id
    | refine keeps_of_eq (by assumption) ?_ | split | dsimp only

theorem Dev.countActive_keeps {dev0 : Dev} {d : Dev} (hk : Keeps dev0 d) : Keeps dev0 (Dev.countActive d) := by
  unfold Dev.countActive
  with_reducible repeat' first
    | assumption | intro _ | apply Dev.bumpWrap_keeps | apply Dev.putActiveSeen_keeps | apply keeps_ite
    | apply keeps_ite_snd | apply keeps_each | apply keeps_foldl | apply keeps_each_snd | apply keeps_foldl_snd
    | apply keeps_id | refine keeps_of_eq (by assumption) ?_ | split | dsimp only

theorem Dev.countWatchdogs_keeps {dev0 : Dev} {d : Dev} (hk : Keeps dev0 d) : Keeps dev0 (Dev.countWatchdogs d) := by
  unfold Dev.countWatchdogs
  with_reducible repeat' first
    | assumption | intro _ | apply Dev.modEngine_keeps | apply keeps_ite | apply keeps_ite_snd | apply keeps_each
    | apply keeps_foldl | apply keeps_each_snd | apply keeps_foldl_snd | apply keeps_id
    | refine keeps_of_eq (by assumption) ?_ | split | dsimp only

theorem Dev.sampleGroups_keeps {dev0 : Dev} {d : Dev} (hk : Keeps dev0 d) : Keeps dev0 (Dev.sampleGroups d) := by
  unfold Dev.sampleGroups
  with_reducible repeat' first
    | assumption | intro _ | apply Dev.takeSample_keeps | apply keeps_ite | apply keeps_ite_snd | apply keeps_each
    | apply keeps_foldl | apply keeps_each_snd | apply keeps_foldl_snd | apply keeps_id
    | refine keeps_of_eq (by assumption) ?_ | split | dsimp only

theorem Dev.heldStarts_keeps {dev0 : Dev} {d : Dev} (hk : Keeps dev0 d) : Keeps dev0 (Dev.heldStarts d) := by
  unfold Dev.heldStarts
  with_reducible repeat' first
    | assumption | intro _ | apply Dev.when_keeps | apply Dev.putMgmt_keeps | apply Dev.putHost_keeps | apply keeps_ite
    | apply keeps_ite_snd | apply keeps_each | apply keeps_foldl | apply keeps_each_snd | apply keeps_foldl_snd
    | apply keeps_id | refine keeps_of_eq (by assumption) ?_ | split | dsimp only

/-- A tick advances the clock of the model by one and keeps everything else that commands keep. -/
theorem Dev.tick_keeps (d : Dev) : Keeps { d with now := d.now + 1 } d.tick := by
  have h := Dev.newCycle_keeps (Dev.judgeSlots_keeps (Dev.sampleGroups_keeps (Dev.noteActive_keeps (Keeps.refl d))))
  have k : Keeps { d with now := d.now + 1 } { d.noteActive.sampleGroups.judgeSlots.newCycle with now := d.now + 1 } :=
    ⟨h.wf, h.sig, h.hash, h.mac, rfl, h.count, h.legs⟩
  have k := Dev.heldStarts_keeps (Dev.cmpTick_keeps (Dev.checksDue_keeps (Dev.startPending_keeps k)))
  unfold Dev.tick
  refine keeps_ite k (Dev.when_keeps (fun _ hd => ?_) (Dev.deviceTick_keeps k))
  exact Dev.countWatchdogs_keeps (Dev.countActive_keeps hd)

end Sys2Proof.Machine
end

