-- ==== Sys2Proof/WellFormed.lean ====
section
/-!
DEFINITION. Which commands are well formed: where an operand's type admits more than the spec lets the outside world send, the
check that rules the rest out. A command without a check of its own is well formed whatever its operands.
-/

namespace Sys2Proof

/-- A page number that the address map assigns (R56). -/
def pageOk (page : Nat) : Bool := (Machine.pageKind? page).isSome

/-- Data bytes that a DLC stands for (R565). -/
def dlcLength (fdf : Bool) (dlc : Nat) : Nat :=
  if dlc ≤ 8 then dlc
  else if !fdf then 8
  else match dlc with
    | 9 => 12 | 10 => 16 | 11 => 20 | 12 => 24 | 13 => 32 | 14 => 48 | _ => 64

/-- A well-formed command. -/
def Instr.wellFormed : Instr → Bool
  -- REGISTER_WRITE: an access of 8, 16 or 32 bits at an address aligned to its width (R43)
  | .registerWrite _ addr bytes _ _ => (bytes == 1 || bytes == 2 || bytes == 4) && addr.toNat % bytes == 0
  -- KEY_WRITE: a page that exists (R54)
  | .keyWrite _ page _ => pageOk page
  -- KEY_WINDOW_EXPIRY: a page that exists
  | .keyWindowExpiry page => pageOk page
  -- UNLOCK_TIMEOUT: a page that exists
  | .unlockTimeout page => pageOk page
  -- SHADOW_WRITE: a word offset of a page that exists, in the lower half of the page (R55)
  | .shadowWrite _ page off _ => pageOk page && off % 4 == 0 && off < 0x800
  -- EVENT_DELIVERY: a page that exists
  | .eventDelivery page _ => pageOk page
  -- SRST: a page that exists
  | .srst _ page => pageOk page
  -- BLOCK_RESET_RELEASE: a page that exists
  | .blockResetRelease page => pageOk page
  -- HOST_BOOT_GO: a length that the mailbox can carry
  | .hostBootGo _ len _ => len ≤ 0x400000
  -- XFM_CLARKE: the mode M0 (R179)
  | .xfmClarke _ f => f.m == 0
  -- XFM_PARK: the mode M1
  | .xfmPark _ f => f.m == 1
  -- XFM_INVERSE_PARK: the mode M2
  | .xfmInversePark _ f => f.m == 2
  -- XFM_INVERSE_CLARKE: the mode M3
  | .xfmInverseClarke _ f => f.m == 3
  -- LIM_SCALAR: the mode M0 (R179)
  | .limScalar _ f => f.m == 0
  -- LIM_CIRCLE: the mode M1
  | .limCircle _ f => f.m == 1
  -- SVM_SVPWM: the mode M0 (R247)
  | .svmSvpwm _ f => f.m == 0
  -- SVM_SINUSOIDAL: the mode M1
  | .svmSinusoidal _ f => f.m == 1
  -- SVM_THREE_LEVEL: the mode M2
  | .svmThreeLevel _ f => f.m == 2
  -- SVM_DISCONTINUOUS: the mode M3
  | .svmDiscontinuous _ f => f.m == 3
  -- ILLEGAL_OPCODE: an opcode that R177 does not assign
  | .illegalOpcode _ op _ => op == 0x16 || op == 0x17 || op == 0x26 || op == 0x27 || 0x36 ≤ op.toNat
  -- PING_REPLY_RECEIVE: a link frame of 10 bytes (R339)
  | .pingReplyReceive _ frame _ => frame.length == 10
  -- TRIAD_TCM_ACCESS: an aligned access inside the triad TCM (R39, R490)
  | .triadTcmAccess _ addr bytes _ _ => (bytes == 1 || bytes == 2 || bytes == 4) && addr.toNat % bytes == 0 && 0x20000000 ≤ addr.toNat && addr.toNat < 0x20040000
  -- RWS_WRITE: a word of the register pages (R39)
  | .rwsWrite _ addr _ => addr.toNat % 4 == 0 && 0x40000000 ≤ addr.toNat && addr.toNat < 0x40100000
  -- CAN_FRAME_RECEIVE: as many data bytes as the DLC says, and no remote frame in CAN FD (R556, R565)
  | .canFrameReceive _ _ f => f.data.length == dlcLength f.fdf f.dlc.val && !(f.fdf && f.rtr)
  -- SPI_WRITE: 1 to 64 words (R627)
  | .spiWrite _ _ words _ => 1 ≤ words.length && words.length ≤ 64
  -- ETH_WRITE: at most the words the header announces (R635)
  | .ethWrite _ _ _ count _ words => words.length ≤ count.val + 1
  -- MODBUS_WRITE_MULTIPLE: at most 123 words in a request (R642)
  | .modbusWriteMultiple _ words => words.length ≤ 123
  | .supplyBrownOut _ _ _ | .powerOnRelease | .vioClassTake _ | .porstPin _ | .resetPin _ | .ballSourceRelease _
  | .swrstCold _ _ | .swrstWarm _ | .softwareSourceRelease _ | .internalSourceRelease _ | .jtagReset _ | .selfRefreshTimeout
  | .xtalValid | .xtalTimeout | .pllLock _ | .clockQualify _ _ | .qualificationTimeout _ | .releaseSequence | .memoryInitDone
  | .dramInitDone | .monitorGate _ _ | .clockEdgeTimeout _ | .xtalRcMismatch | .sscApply _ | .flashTimeout | .bootVerify _
  | .padEnable _ | .firmwareStartLoad | .loadNewest _ | .loadA _ | .loadB _ | .loadSram _ | .loadComplete | .commit _
  | .commitCrcDone | .arm _ _ | .disarm _ | .ackSafe _ | .burnKey _ | .burnSigreq _ | .nop _ _ | .fadd _ _ | .fsub _ _
  | .fmul _ _ | .fma _ _ | .fms _ _ | .fmin _ _ | .fmax _ _ | .fabs _ _ | .fneg _ _ | .fcmp _ _ | .fsel _ _ | .cvtfi _ _
  | .cvtif _ _ | .mov _ _ | .iadd _ _ | .isub _ _ | .iand _ _ | .ior _ _ | .ishl _ _ | .ishr _ _ | .icmp _ _ | .ld _ _
  | .ldDataReturn _ | .st _ _ | .postedWriteDelivery _ | .br _ _ | .loop _ _ | .call _ _ | .jr _ _ | .fend _ _ | .pub _ _
  | .rcv _ _ | .time _ _ | .cap _ _ | .trq _ _ | .bsw _ _ | .cwr _ _ | .div _ _ | .sqrt _ _ | .sincos _ _ | .atan2 _ _
  | .pi _ _ | .pr _ _ | .biq _ _ | .pll _ _ | .obs _ _ | .dtc _ _ | .vsm _ _ | .frameStart _ | .frameComplete _
  | .frameDeadline _ | .engineStart _ _ | .engineStop _ _ | .engineWatchdog _ | .leMbxPost _ _ _ | .cwDataWrite _ _ _ _
  | .cwDataRead _ _ _ | .bankReq _ _ _ | .reload _ | .dutyShadowWrite _ _ _ _ | .edgeEvent _ _ _ | .deadTimeExpiry _ _ _
  | .start _ _ | .stop _ _ | .stopNow _ _ | .gstart _ _ | .gstop _ _ | .groupOff _ | .dlLock _ | .dlUnlock _ | .syncInPulse _
  | .syncLost | .syncOutPulse | .tripNow _ _ | .tripClr _ _ | .gclr _ _ | .tripInput _ _ _ | .ascLowSideOn _
  | .sloeAscLowSideOn _ | .forceShWrite _ _ _ | .commutationEvent _ | .alignmentFrameSend _ | .edgeFrameSend _
  | .edgeFrameRepeat _ | .edgeSendDeadline _ | .stateFrameSend _ | .measurementStart _ | .pingSend _
  | .upstreamAlignmentReceive _ _ | .upstreamStateReceive _ _ | .teleFrameReceive _ _ | .invalidFrameReceive _ _
  | .laneSilence _ | .stateFrameTimeout _ | .alignmentMissed _ | .triggerFire _ _ | .gridConversion _ | .conversionSample _ _
  | .conversionResult _ | .snapshotReplace _ | .refReady _ | .refDrop _ | .calZero _ _ | .calFull _ _ | .calCalc _ _
  | .calAbort _ _ | .calStepDone | .trimUpdate | .sdOutput _ _ | .sdFastFilterDecision _ _ | .modFault _ _
  | .comparatorCrossing _ _ | .abzEdge _ _ _ _ | .index _ _ _ _ | .zhome _ _ | .hallChange _ _ _ | .serialRequest _
  | .serCmdReq _ _ | .serialTransferDone _ _ | .serTimeout _ | .serialRecoveryDone _ | .speedWindowClose _
  | .standstillTimeout _ | .emulatorEdge _ | .cmpPosWrite _ _ _ | .cmpPulseEnd _ | .mcRun _ _ | .mcStop _ _ | .resetFault _ _
  | .obsReport _ _ _ | .obsReportTimeout _ | .zeroCrossing _ | .rowChange _ | .zcMiss _ | .forcedStep _ | .cmdinCycle _ _ _
  | .cmdinTimeout _ | .votedStore _ | .exchangeDelivery _ _ _ _ | .exchangeTimeout _ _ _ _ | .xlwMedS _ _ _ _
  | .xlwMedU _ _ _ _ | .xflwMed _ _ _ _ | .syncPoint _ _ | .triadMbxPost _ _ | .mbxAck _ _ | .mbxOutSeq _ _
  | .safetyInputChange _ _ _ | .testPulse _ | .ossdToleranceExpiry _ | .discrepancyTimeout _ | .resetPulse _
  | .ss1TimerExpiry | .speedAWindowClose | .spdBWrite _ _ | .stoCloseStart | .stoTestPhaseEnd | .stoFeedbackChange _ _
  | .stoFeedbackTimeout | .stoAgeHour | .trespWrite _ _ | .tpermitWindowExpiry | .treqWrite _ _ | .faultClear _ _ | .open_ _
  | .close _ | .scommit _ | .safetyCrcDone | .safeReset _ | .sessionTimeout | .pwLockExpiry | .logAck _ _ | .init _ _
  | .normal _ _ | .listen _ _ | .loopback _ _ | .txreq _ _ _ _ | .txabt _ _ _ _ | .rxRelease _ _ _ _ | .canTxEnd _ _ _
  | .canBusError _ _ _ _ | .recover _ _ | .recovered _ | .bufCfgWrite _ _ _ _ | .filterWrite _ _ _ _ _
  | .windowSelect _ _ _ _ | .tsWrap _ | .crcInit _ _ | .crcStart _ _ | .crcAbort _ _ | .check _ _ | .crcDmaDone _
  | .crcDmaRefused _ | .din _ _ _ | .dinB _ _ _ | .crcRunWrite _ _ _ | .claim _ _ _ | .medlarWatchdog | .captureRecordWrite
  | .restart _ | .trigger _ | .freeze _ | .eventLogEntry _ | .sramScrubPass _ | .dramScrubPass _ | .journalCompaction _
  | .safetyLogTransfer _ | .telemetrySample | .mark _ _ | .logRead _ _ | .journalRead _ _ | .imageWrite _ _ _ | .teleRead _ _
  | .spiRead _ _ _ _ _ _ _ | .spiNop _ _ _ _ | .spiReset _ _ _ _ | .spiUnknownCommand _ _ _ _ _ | .frameAbort _
  | .hostWriteIssue | .ethRead _ _ _ _ _ _ _ _ | .ethReset _ _ _ _ _ | .beacon | .heartbeat | .ethLinkChange _ _ | .ptpSync _
  | .servoCommit | .timeLoRead _ _ _ | .modbusReadInput _ _ | .modbusReadHolding _ _ | .sdoRequest _ _ _
  | .channelObjectWrite _ _ _ | .nmt _ _ | .syncConsumer | .outSet _ _ _ | .outClr _ _ _ | .gpioEdge _ _ _ | .supplyRise _ _
  | .pingReplyTimeout _ | .lockPlausTimeout _ | .busIntegrated _ | .transmissionStart _ | .ethFrameReceive _ _
  | .vddqOutOfRange => true

end Sys2Proof
end

