-- ==== Sys2Proof/Tests/Slice0.lean ====
section
/-!
SUPPORT. Tests: states and operands that meet the conditions of every statement, clause by clause; the ill-formed terms that
WellFormed refuses; and single steps checked against the spec.
-/

open Sys2Proof Sys2Proof.Machine

namespace Sys2Proof.Tests

-- each theorem is elaborated and checked before the next: the kernel evaluates many of them
set_option Elab.async false

/-! ### Small states -/

/-- The device after reset with some registers set. -/
def dev (ws : List (Nat × Word)) : Dev := ws.foldl (fun d w => d.setReg w.1 w.2) State.reset.dev

/-- The same, with a page unlocked (R59). -/
def open_ (p : Nat) (ws : List (Nat × Word)) : Dev := (dev ws).setKstate p 2

/-- The same, with registers in the active copy of the safety configuration (R673). -/
def active (ws : List (Nat × Word)) (d : Dev) : Dev := d.modSloe (fun x => { x with active := ws })

/-- Engine `e` in state `st`, changed by `f`. -/
def eng (e : Nat) (st : Word) (f : Engine → Engine) : Dev := (dev [(Reg.LE_STAT e, st)]).modEngine e f

/-- Group `g` changed by `f`, with some registers set. -/
def grp (g : Nat) (ws : List (Nat × Word)) (f : Group → Group) : Dev := (dev ws).modGroup g f

/-- The device at tick `n`. -/
def at_ (n : Nat) (d : Dev) : Dev := { d with now := n }

/-- Sloe holds no pins. -/
def unheld (d : Dev) : Dev := d.modSloe (fun x => { x with hold := 0 })

/-! ### The conditions of the statements of completion -/

/-- A session of the host stands open, and EVT of page 0x20 is routed to Sloe. -/
def dSession : Dev := active [(Reg.evtRoute 0x20, 8)] (dev [(Reg.SAFE_STAT, 0x300), (Reg.evtRoute 0x20, 8)])

/-- The triad released, in LOCKSTEP. -/
def dTriadOn : Dev := (dev [(Reg.TRIAD_STAT, 1)]).modTriad (fun t => { t with released := true })

theorem test_witness_RegisterCommandsComplete :
    (regionOf 0x10000000 = .sram ∧ regionOf 0x101FFFFF = .sram ∧ (dev []).mayAccess .host true 0x101FFFFF = true) ∧
    (regionOf 0x4003004C = .page 0x30 0x4C ∧ (dev []).Reaches .host 0x3004C ∧ keyedWrite 0x3004C 0xFFFFFFFF = false ∧
      (regAt 0x3004C).any (fun r => r.1 == .fl && r.2.2.1.rwc == 0 && r.2.2.1.rws == 0 && r.2.2.1.w1c == 0 && r.2.2.1.w1s == 0) = true) ∧
    ((pageKind? 0x20).isSome = true ∧ (dev []).Reaches .host (Reg.key 0x20) ∧ (dev []).kstate 0x20 = 0) ∧
    ((dev [(Reg.key 0x20, 1)]).kstate 0x20 = 1 ∧ (dev [(Reg.key 0x20, 1)]).Reaches .host (Reg.key 0x20)) ∧
    (dev [(Reg.key 0x20, 2)]).kstate 0x20 = 2 ∧
    ((dev []).Reaches .host (0x20800 + 0x48) ∧ rwcMask 0x20048 ≠ 0 ∧ (dev []).commitBusy = false ∧
      (dev []).rwcBarred .host = false) ∧
    (regionOf 0x40092054 = .page 0x92 0x54 ∧ dSession.Reaches .host 0x92054 ∧ dSession.ownsSession .host = true ∧
      dSession.sloe.crcRun = false ∧ dSession.logFull = false ∧
      (regAt 0x92054).any (fun r => r.2.2.1.rw == 0 && r.2.2.1.w1c == 0 && r.2.2.1.w1s == 0 && r.2.2.1.rwc == 0 && r.2.2.1.rws != 0 &&
        r.2.2.1.keyed == 0) = true) ∧
    ((dSession.setReg (Reg.evtEn 0x20) 1 |>.raise 0x20 0).routedToSloe 0x20 = true ∧ dSession.pageHeld 0x91 = false) ∧
    (dTriadOn.triadRuns = true ∧ dTriadOn.routedToSloe 0x20 = false) := by
  decide +kernel

/-- The device in a warm episode with every source released, as its sequence runs. -/
def dWarm : Dev := Dev.putReset { dev0.reset with episode := some .warm, releasing := true, held := [0x98] } dev0
  where dev0 := Dev.putClocks { pllsOn := true } (dev [])

/-- A VIO bank that rose to the 1.8 V level at tick 0, and the device `n` ticks after its supplies rose. -/
def dBank (n : Nat) : Dev :=
  { Dev.putSupplies { (dev []).supplies with vio := (dev []).supplies.vio.set 0 { high := false, class33 := none } } (dev []) with now := n }
def dSupplied (n : Nat) : Dev := { dev [] with now := n }

theorem test_witness_ResetSourcesComplete :
    (Source.porstPin ∈ [Source.porstPin, .resetPin] ∧ Source.resetPin ∈ [Source.porstPin, .resetPin]) ∧
    (Source.cmdCan ∈ [Source.swCold, .swWarm, .cmdHost, .cmdEth, .cmdCan] ∧ Source.clkMon ∈ [Source.mgtWdt, .triadFatal, .clkMon]) ∧
    (open_ 0 []).Unlocked .host Reg.SYS_SWRST ∧
    ((dev []).belowFloor .vdd 699 = true ∧ (dev []).belowFloor .vdd 700 = false ∧ (dev []).belowFloor .vdda 1579 = true ∧
      (dev []).belowFloor (.vio 4) 1000 = true) ∧
    ((dBank 8000000).supplies.vio.get 0 = { up := true, high := false, class33 := none, since := 0 } ∧
      (dBank 8000000).now = ((dBank 8000000).supplies.vio.get 0).since + 8000000 ∧ (dBank 8000000).vioClassed = false) ∧
    ((dSupplied 80000).suppliesUp = true ∧ (dSupplied 79999).suppliesUp = false ∧ (dev []).vioClassed = true ∧
      (dev []).supplies.vdd = true) := by
  decide +kernel

/-- Page 0x6A in a block reset, beside an episode or none. -/
def dBlock (r : Option Reach) : Dev := Dev.putReset { (dev []).reset with blockHeld := [0x6A], episode := r } (dev [])

/-- Engine 11 in WAIT, its watchdog of 1 µs run out. -/
def dDog : Dev := (dev [(Reg.LE_STAT 11, 4), (Reg.LE_WDT 11, 1)]).modEngine 11 (fun x => { x with wdtUs := 1 })

theorem test_witness_ResetStepsComplete :
    ((pageKind? 0x6A).isSome = true ∧ (open_ 0x6A []).Unlocked .host (Reg.ctrl 0x6A) ∧ 0x6A / 4 ≠ 0x22) ∧
    ((open_ 0x90 []).Unlocked .host (Reg.ctrl 0x90) ∧ (open_ 0x90 []).cstate ≠ 3) ∧
    ((dBlock none).reset.blockHeld.contains 0x6A = true ∧ (dBlock none).joinsEpisode 0x6A = false ∧
      (dBlock (some .plane)).joinsEpisode 0x6A = false ∧ (dBlock (some .warm)).joinsEpisode 0x6A = true) ∧
    ((dev []).deviceOff = true ∧ (dev []).cstate ≠ 3) ∧
    (dWarm.reset.episode = some .warm ∧ dWarm.reset.releasing = true ∧ Reach.warm ≠ .plane) ∧
    ((Dev.putReset { dWarm.reset with releasing := false } dWarm).sourcesStand = false ∧ dWarm.clocks.pllsOn = true ∧
      dWarm.clocks.xtalFault = false) ∧
    (Dev.putReset { dWarm.reset with episode := some .plane } dWarm).reset.episode = some .plane ∧
    ((dev []).pageHeld 0xA0 = false ∧ (dev []).pageHeld 0x98 = false ∧ (dev []).reset.dramInit = true ∧
      (Dev.putReset { (dev []).reset with dramInit := false } (dev [])).reset.dramInit = false) ∧
    (dDog.wdtRuns 11 = true ∧ dDog.fld (Reg.LE_WDT 11) 15 0 ≤ (dDog.engine 11).wdtUs) ∧
    (dev []).mgmt.wdtAt + 100000000 ≤ (dSupplied 100000000).now := by
  decide +kernel

theorem test_witness_ClockCommandsComplete :
    ((Dev.putClocks { pllsOn := false } (dev [])).clocks.pllsOn = false ∧ (Dev.putClocks { pllsOn := false } (dev [])).clocks.xtalFault = false ∧
      (dev []).clocks.pllsOn = true) ∧
    ((dev [(Reg.CLK_LOCK, 0x3F)]).bit Reg.CLK_LOCK (pllOf .mem) = true ∧ countWithin 2 .mem 6822 = true) ∧
    ((Dev.putReset { (dev []).reset with deferred := [0xA0] } (dev [])).reset.deferred.any (fun p => pageDomain p == some .mem) = true) ∧
    ((dev []).qualified .fab = true ∧ countWithin 5 .fab 0 = false ∧ countWithin 5 .fab 5120 = true ∧
      vget 0 (Dev.putClocks { badGates := Vector.replicate 9 1 } (dev [])).clocks.badGates (domainBit .fab) = 1) ∧
    ((dev [(Reg.CLK_SSC, 1)]).sscMay .fab = true ∧ (dev [(Reg.CLK_SSC, 1)]).fld Reg.CLK_SSC_STAT (sscLow .fab + 1) (sscLow .fab) ≠
      (dev [(Reg.CLK_SSC, 1)]).fld Reg.CLK_SSC (sscLow .fab + 1) (sscLow .fab)) := by
  decide +kernel

theorem test_witness_PinCommandsComplete :
    (dev []).Reaches .host Reg.PAD_CTRL ∧ (dev []).Reaches .medlar Reg.GPIO_OUT_SET ∧ (dev []).Reaches .host Reg.GPIO_OUT_CLR ∧
    (natBit 31 (dev [(Reg.GPIO_EDGE_CFG1, 0xC0000000)]).gpioIn.toNat = !true ∧
      natBit 0 ((dev [(Reg.GPIO_EDGE_CFG1, 0xC0000000)]).edgeCfg 31) = true ∧ (dev []).pageHeld 0xA9 = false) ∧
    (natBit 0 (Dev.putGpioIn 1 (dev [(Reg.GPIO_EDGE_CFG0, 2)])).gpioIn.toNat = !false ∧ natBit 1 ((dev [(Reg.GPIO_EDGE_CFG0, 2)]).edgeCfg 0) = true) := by
  decide +kernel

/-- The boot ROM reads the flash, which holds a header of a firmware of the greatest length. -/
def dBoot : Dev := (dev []).setFlash 0 header
  where header := [67, 88, 66, 72, 0, 0, 1, 0, 0, 0, 16, 0, 0, 0, 18, 0, 0, 0, 32, 0, 0, 0, 48, 0, 0, 0, 4, 0, 38, 196, 46, 6]

/-- A load of an image of no sections from SRAM. -/
def aLoad : Load := { image := [], source := .sram, code := 4, startAt := 0 }

/-- Medlar runs its firmware. -/
def dMedlar (ws : List (Nat × Word)) : Dev := { dev ((Reg.SYS_BOOT, 4) :: ws) with romAt := none }

theorem test_witness_BootAndLoadComplete :
    ((dBoot.flashBooting = true ∧ dBoot.romAt = some 0) ∧ dBoot.bootHeader.valid = true ∧ dBoot.bootHeader.fwLen = 0x100000) ∧
    ((dev [(Reg.SYS_BOOT, 3)]).Reaches .host Reg.HOST_BOOT ∧ (dev [(Reg.SYS_BOOT, 3)]).fld Reg.SYS_BOOT 3 0 = 3 ∧
      (dev []).pageHeld 0x98 = false ∧ (dev []).mgmt.halted = false) ∧
    ((dMedlar []).flashBooting = false ∧ (dMedlar []).medlarUp = true ∧ (dMedlar []).cstate = 0 ∧ (dMedlar []).cfgBusy = false ∧
      (dMedlar []).crcBarred .loader 0 = false) ∧
    (Dev.putLoader { load := some { aLoad with source := .slotA } } (dMedlar [])).loader.load = some { aLoad with source := .slotA } ∧
    (open_ 3 [(Reg.CFG_STATE, 1)]).Unlocked .host Reg.CFG_CMD ∧ (open_ 3 [(Reg.CFG_STATE, 1)]).cfgBusy = false ∧
    (open_ 3 [(Reg.CFG_STATE, 1)]).cstate ≤ 1 ∧
    ((open_ 3 [(Reg.CFG_STATE, 2)]).cfgBusy = false ∧ (open_ 3 [(Reg.CFG_STATE, 2)]).cstate = 2) ∧
    (Dev.putLoader { load := some aLoad } (dev [])).loader.load = some aLoad := by
  decide +kernel

/-- The host's session is with the commit commands: CFG unlocked. -/
def dCfg (cstate : Word) : Dev := open_ 3 [(Reg.CFG_STATE, cstate)]

theorem test_witness_CommitCommandsComplete :
    ((dCfg 1).Unlocked .host Reg.CFG_CMD ∧ (dCfg 1).cfgBusy = false ∧ (dCfg 1).cstate ≠ 0) ∧
    ((dCfg 3).cfgBusy = false ∧ (dCfg 3).cstate = 3 ∧ (dCfg 3).deviceOff = true) ∧
    ((dCfg 4).cfgBusy = false ∧ (dCfg 4).cstate = 4 ∧ (dCfg 4).deviceOff = true ∧ (dCfg 4).demands = 0 ∧ (dCfg 4).faults = 0) ∧
    ((dCfg 0).cfgBusy = false ∧ (dCfg 0).cstate = 0 ∧ (dCfg 0).fuses.keyHash = none ∧ (dCfg 0).fuses.sigRequired = false) ∧
    ({ dCfg 0 with fuses := { keyHash := some 0 } }.fuses.keyHash.isSome = true) ∧
    ((dCfg 0).setReg Reg.CFG_IMG_ADDR 0x10000000).keyPlaceOk = true ∧
    (Dev.putLoader { crcStep := true } (dev [])).loader.crcStep = true := by
  decide +kernel

/-- SEALED, with every condition of ARM met. -/
def dSealed : Dev :=
  (((dCfg 2).setReg Reg.SLOE_STAT 0x00010000).setReg Reg.SAFE_STAT 1).modTriad (fun t => { t with released := true })

theorem test_witness_arm : dSealed.Unlocked .host Reg.CFG_CMD ∧ dSealed.cfgBusy = false ∧ dSealed.armError .host false = 0 := by
  decide +kernel

/-- Engine 11 in a frame, with PC at the last word of its program TCM. -/
def dFrame : Dev := (eng 11 3 id).setReg (Reg.LE_PC 11) 4095

/-- Engine 11 of `d` with one register that holds an address. -/
def dAt (a : Word) : Dev := dFrame.setV 11 1 a

/-- The instruction `op` stands at PC of engine 11 of `d`. -/
def placed (d : Dev) (op : Nat) (f : EngFields) : Dev :=
  let n := encodeInsn (insnOf op f)
  d.setBytes (tcmBase 11 + 8 * d.pc 11) (wordBytes (word n) ++ wordBytes (word (n / 2 ^ 32)))

/-- The conditions under which the instruction `op` of form `u` runs on engine 11 of `d`, where its word stands at PC. -/
abbrev CanRun (d : Dev) (op : Nat) (u : Form) (f : EngFields) : Prop := (placed d op f).Issues 11 op u f

/-- The same of a unit's instruction. -/
abbrev CanRunUnit (d : Dev) (unit modes mode outs : Nat) (f : EngFields) : Prop :=
  f.data = .ok ∧ (unitInfo unit).any (fun i => Machine.fld 3 0 f.imm < i.1) = true ∧ CanRun d (0x2C + unit) (.unit modes mode outs) f

/-- Every field that an instruction of each form may name stands at its greatest value. -/
theorem test_witness_ArithmeticAndControlComplete_float :
    CanRun dFrame 0x01 .dabi { d := 63, a := 63, b := 63, m := 1, imm := 0xFFFFFFFF } ∧
    CanRun dFrame 0x04 .dabic { d := 63, a := 63, b := 63, c := 63, m := 1, imm := 0xFFFFFFFF } ∧
    CanRun dFrame 0x08 .da { d := 63, a := 63 } ∧
    CanRun dFrame 0x0A .cond { d := 63, a := 63, b := 63, c := 3, m := 1, imm := 0xFFFFFFFF } ∧
    CanRun dFrame 0x0B { d := true, a := true, b := true, cMax := allReg, outs := 1 } { d := 63, a := 63, b := 63, c := 63 } ∧
    CanRun dFrame 0x0C { Form.da with mMax := 3 } { d := 63, a := 63, m := 3 } ∧
    CanRun dFrame 0x28 { d := true, a := true, b := true, outs := 1 } { d := 63, a := 63, b := 63 } := by
  decide +kernel

theorem test_witness_ArithmeticAndControlComplete_integer :
    CanRun dFrame 0x0E .dbi { d := 63, b := 63, m := 1, imm := 0xFFFFFFFF } ∧
    CanRun dFrame 0x14 .shiftRight { d := 63, a := 63, b := 63, m := 3, imm := 0xFFFFFFFF } ∧
    CanRun dFrame 0x00 {} {} ∧
    CanRun dFrame 0x1A { a := true, imm := allImm, mMax := 3 } { a := 63, m := 3, imm := 0xFFFFFFFF } ∧
    CanRun dFrame 0x1B { a := true, imm := allImm, mMax := 1 } { a := 63, m := 1, imm := 0x00010FFF } ∧
    ((dFrame.v 11 63).toNat = 0 ∧ (dFrame.engine 11).loops.length < 4) ∧
    CanRun dFrame 0x1C { imm := allImm } { imm := 0xFFFFFFFF } ∧ CanRun dFrame 0x1D { a := true } { a := 63 } ∧
    CanRun dFrame 0x21 { d := true, mMax := 1, outs := 1 } { d := 63, m := 1 } ∧
    ((placed dFrame 0x3F {}).canIssue 11 = true ∧ illegalOp 0x3F = true ∧ ((placed dFrame 0x3F {}).insnAt 11).op.val = 0x3F ∧
      illegalOp 0x16 = true ∧ illegalOp 0x36 = true ∧ illegalOp 0x35 = false) := by
  decide +kernel

/-- An engine in a frame that waits for a load, one with a posted write, and one with fifteen. -/
def dLoad : Dev := eng 11 3 (fun x => { x with loadWait := some (63, 0x10000000) })
def dPosted : Dev := eng 11 3 (fun x => { x with queue := [{ addr := 0x10000000, data := 5, gen := none }] })
def dFull : Dev := dFrame.modEngine 11 (fun x => { x with queue := List.replicate 15 { addr := 0, data := 0, gen := none } })

theorem test_witness_MemoryInstructionsComplete :
    (CanRun (dAt (word (tcmBase 11 + 0x1FFF8))) 0x18 { d := true, a := true, imm := allImm, mMax := 1, outs := 2 }
        { d := 62, a := 1, m := 1 } ∧
      misaligned 11 ((dAt (word (tcmBase 11 + 0x1FFF8))).memAddr 11 { a := 1, m := 1 }) 1 = false ∧
      ownTcm 11 ((dAt (word (tcmBase 11 + 0x1FFF8))).memAddr 11 { a := 1, m := 1 }) = true) ∧
    (misaligned 11 (dFrame.memAddr 11 { imm := 0x101FFFFC }) 0 = false ∧ ownTcm 11 (dFrame.memAddr 11 { imm := 0x101FFFFC }) = false ∧
      CanRun dFrame 0x18 { d := true, a := true, imm := allImm, mMax := 1, outs := 1 } { d := 63, imm := 0x101FFFFC }) ∧
    ((dLoad.engine 11).loadWait = some (63, 0x10000000) ∧ (dLoad.engine 11).queue = []) ∧
    (CanRun dFull 0x19 { a := true, b := true, imm := allImm, mMax := 1 } { b := 63, imm := 0x101FFFFC } ∧
      (dFull.engine 11).queue.length < 16) ∧
    (dPosted.engine 11).queue = [{ addr := 0x10000000, data := 5, gen := none }] ∧
    (CanRun dFrame 0x1F { a := true, imm := allImm } { a := 63, imm := 7 } ∧
      (dev [(Reg.LE_BR_SLOT 11 7, 0x100)]).bit (Reg.LE_BR_SLOT 11 7) 8 = true) ∧
    CanRun dFrame 0x20 { d := true, imm := allImm, outs := 1 } { d := 63, imm := 0xB07 } ∧
    CanRun dFrame 0x22 { a := true, b := true, cMax := allReg, imm := allImm } { a := 63, b := 63, c := 63, imm := 3 } ∧
    CanRun dFrame 0x23 { imm := allImm } { imm := 0xFFF } ∧
    (CanRun dFrame 0x25 { a := true, imm := allImm, mMax := 1 } { a := 63, m := 1, imm := 0x90018200 } ∧
      dFrame.coefWriteOk 11 9 1 0x82 true = true ∧ dFrame.coefWriteOk 11 9 1 9 false = true) := by
  decide +kernel

/-- Each kind of unit has its greatest instance number. -/
theorem test_witness_UnitInstructionsComplete :
    CanRun dFrame 0x2A { d := true, a := true, outs := 2 } { d := 62, a := 63 } ∧
    CanRun dFrame 0x2B { d := true, a := true, b := true, outs := 2 } { d := 62, a := 63, b := 63 } ∧
    CanRun dFrame 0x2C { d := true, a := true, b := true, cMax := allReg, mMax := 3, outs := 2, modes := 4, mode := 2 }
      { d := 62, a := 63, b := 63, c := 63, m := 2 } ∧
    CanRun dFrame 0x2C { d := true, a := true, b := true, cMax := allReg, mMax := 3, outs := 3, modes := 4, mode := 3 }
      { d := 61, a := 63, b := 63, c := 63, m := 3 } := by
  decide +kernel

theorem test_witness_UnitInstructionsComplete_invoked :
    CanRunUnit dFrame 1 1 0 1 { d := 63, m := 3, imm := 15 } ∧ CanRunUnit dFrame 2 1 0 1 { d := 63, imm := 15 } ∧
    CanRunUnit dFrame 3 1 0 1 { d := 63, imm := 15 } ∧ CanRunUnit dFrame 4 2 0 1 { d := 63, m := 2, imm := 7 } := by
  decide +kernel

theorem test_witness_UnitInstructionsComplete_limited :
    (CanRunUnit dFrame 4 2 1 2 { d := 62, m := 3, imm := 7 } ∧ dFrame.coefWord 11 4 7 3 true = 0 ∧
      (limCircleOuts (rd 0) (rd 0) (dFrame.coefIn 11 4 7 0) 0 0 0).1.ne (rd 0) = false ∧
      (limCircleOuts (rd 0) (rd 0) (dFrame.coefIn 11 4 7 0) 0 0 0).2.ne (rd 0) = false) ∧
    CanRunUnit dFrame 5 1 0 3 { d := 61, imm := 1 } ∧ CanRunUnit dFrame 6 1 0 3 { d := 61, a := 62, b := 62, imm := 1 } ∧
    CanRunUnit dFrame 7 4 3 3 { d := 61, m := 3, imm := 3 } ∧ CanRunUnit dFrame 8 1 0 1 { d := 63, imm := 15 } ∧
    CanRunUnit dFrame 9 1 0 3 { d := 61, b := 62, imm := 1 } := by
  decide +kernel

theorem test_witness_FrameCommandsComplete :
    ((eng 11 2 (fun x => { x with trigger := 0x800 })).estate 11 = 2 ∧
      ((eng 11 2 (fun x => { x with trigger := 0x800 })).engine 11).trigger ≠ 0 ∧
      ((eng 11 2 (fun x => { x with trigger := 0x800 })).engine 11).frameAt =
        (at_ ((eng 11 2 id).engine 11).frameAt (eng 11 2 id)).now ∧ (dev []).pageHeld 0x1B = false) ∧
    ((eng 11 1 (fun x => { x with fend := true, inInit := true })).sectionDone 11 = true) ∧
    ((eng 11 3 (fun x => { x with fend := true })).sectionDone 11 = true ∧
      (eng 11 3 (fun x => { x with fend := true })).now ≤ ((eng 11 3 (fun x => { x with fend := true })).engine 11).deadline) ∧
    ((eng 11 4 id).inFrame 11 = true ∧ ((eng 11 4 id).engine 11).overran = false ∧ ((eng 11 4 id).engine 11).deadline ≤ (eng 11 4 id).now) ∧
    ((dev []).Reaches .host (Reg.LE_CMD 11) ∧ (dev [(Reg.LE_CTRL 11, 1)]).estate 11 = 0 ∧ (dev [(Reg.LE_CTRL 11, 1)]).bit (Reg.LE_CTRL 11) 0 = true) ∧
    twelve.any (fun g => natBit g ((eng 11 2 id).owned 11) && (eng 11 2 id).barsStop g) = false ∧
    ((dev []).Reaches .host (Reg.LE_MBX_POST 11) ∧ (dev []).bit (Reg.LE_MBX_STAT 11) 0 = false ∧ bitAt 16 0x1FFFF = true) ∧
    ((dev []).Reaches .host (Reg.LE_CW_DATA 11) ∧ (dev []).bit (Reg.LE_CLU_CTRL 11) 0 = false ∧
      (dev []).coefWriteOk 11 9 1 9 false = true ∧ (dev []).coefWriteOk 11 1 15 0x81 true = true ∧ (dev []).mayRead .host 0x1B 0x214 = true ∧
      coefValid 9 1 9 = true ∧ coefValid 9 1 0x82 = true) ∧
    ((11, (dev []).coefPlace 11 9 1 9 false) ∉ ((dev []).enterCycle .host false).cyc.cwr ∧
      (11, (dev []).coefPlace 11 9 1 9 false) ∈ ((Dev.noteCwr 11 ((dev []).coefPlace 11 9 1 9 false) (dev [])).enterCycle .host true).cyc.cwr) ∧
    ((dev [(Reg.LE_CLU_CTRL 11, 1)]).bit (Reg.LE_CLU_CTRL 11) 0 = true ∧ (dev [(Reg.LE_CLU_CTRL 11, 1), (Reg.LE_STAT 11, 5)]).estate 11 = 5) ∧
    (dev []).Reaches .host (Reg.LE_BANK_REQ 11) := by
  decide +kernel

/-- Group 11 runs with a carrier of 800 ticks, a down-counting one where `mode` is 1, and a duty of one tick on leg 3; tick `n`. -/
def dRun (mode : Word) (n : Nat) : Dev :=
  at_ n (grp 11 [(Reg.PG_CTRL 11, 1), (Reg.PG_CARRIER 11, mode), (Reg.PG_STAT 11, 0x42), (Reg.PG_DUTY_ACT 11 3, 32)]
    (fun x => { x with running := true, carLen := 800, nextCar := 800, carStart := 0, perStart := 0 }))

/-- The same in up-count with the pins released, leg 3 switched on by its duty and off since tick 0. -/
def dDriven : Dev := (unheld (dRun 0 0)).modLeg 11 3 (fun l => { l with duty := true, offAt := some 0 })

/-- The same with a forced pulse of all but one unit of the period, and no duty. -/
def dForced : Dev :=
  (dRun 0 799).setReg (Reg.PG_DUTY_ACT 11 3) 0 |>.setReg (Reg.PG_FORCE_ACT 11) 0x80 |>.setReg (Reg.PG_FORCE_WIDTH 11) 25599

/-- Group 11 follows group 10, whose timebase stands. -/
def dFollow : Dev :=
  at_ 800 (grp 11 [(Reg.PG_CTRL 11, 1), (Reg.PG_SYNC 11, 1)] (fun x => { x with running := true, carLen := 800 }))

theorem test_witness_ReloadAndEdgesComplete :
    ((dRun 0 800).pageHeld 0x2B = false ∧ (dRun 0 800).reloadDue 11 = true ∧ (dRun 0 799).reloadDue 11 = false ∧
      (dRun 0 800).followStops 11 = false) ∧
    (dFollow.pageHeld 0x2B = false ∧ dFollow.reloadDue 11 = true ∧ dFollow.followStops 11 = true) ∧
    ((grp 11 [] (fun x => { x with winDue := true, winAt := 0 })).group 11).winDue = true ∧
    ((dev []).Reaches .host (Reg.PG_DUTY_SH 11 3) ∧ ((dev []).group 11).running = false ∧ (dev []).reloadAt 11 = none ∧
      (dRun 0 791).reloadAt 11 = some 800 ∧ (dRun 0 792).reloadAt 11 = some 800 ∧ ((dRun 0 791).group 11).perStart ≠ 791 ∧
      vget none ((dRun 0 791).group 11).engAt 3 = none) ∧
    ((open_ 0x2B [(Reg.PG_FORCE_CFG 11, 1)]).Unlocked .host (Reg.PG_FORCE_SH 11) ∧ (∀ e, Master.host ≠ .le e) ∧
      (open_ 0x2B [(Reg.PG_FORCE_CFG 11, 1)]).bit (Reg.PG_FORCE_CFG 11) 0 = true ∧ (dev []).pageHeld 0x2B = false) ∧
    ((dev [(Reg.PG_CMASK_CFG 11, 1)]).bit (Reg.PG_CMASK_CFG 11) 0 = true ∧
      (dev [(Reg.PG_CMASK_CFG 11, 1)]).fld (Reg.PG_CMASK 11) 7 0 =
        (List.range 4).foldl (fun a k => a + vget 0 ((dev []).mcu 11).maskOut k * 4 ^ k) 0 ∧
      (dev [(Reg.PG_CMASK 11, 3)]).fld (Reg.PG_CMASK 11) 7 0 ≠
        (List.range 4).foldl (fun a k => a + vget 0 ((dev []).mcu 11).maskOut k * 4 ^ k) 0) := by
  decide +kernel

/-- The duty of one tick begins in tick 799 where it ends with the period, and ends in tick 1 where it begins with it; a forced pulse
ends in tick 799. -/
theorem test_witness_ReloadAndEdgesComplete_edges :
    (((dRun 1 799).group 11).running = true ∧ (dRun 1 799).onInterval 11 3 = (25568, 25600) ∧
      (dRun 1 799).placeEdge 11 25568 / 32 = (dRun 1 799).now ∧
      ((dRun 1 799).modLeg 11 3 (fun l => { l with duty := true })).forceOn 11 3 = false ∧ dForced.forceOn 11 3 = true) ∧
    ((dRun 0 1).onInterval 11 3 = (0, 32) ∧ 32 < 32 * (dRun 0 1).periodLen 11 ∧ (dRun 0 1).placeEdge 11 32 / 32 = (dRun 0 1).now ∧
      (dRun 0 1).forceOn 11 3 = false ∧ ((dRun 0 1).modLeg 11 3 (fun l => { l with duty := false })).forceOn 11 3 = false) ∧
    (dForced.fld (Reg.PG_FORCE_WIDTH 11) 23 0 = 25599 ∧ 25599 < 32 * dForced.periodLen 11 ∧ dForced.onInterval 11 3 = (0, 0) ∧
      dForced.placeEdge 11 25599 / 32 = dForced.now ∧ (dForced.modLeg 11 3 (fun l => { l with forced := false })).forceOn 11 3 = true) ∧
    (dDriven.deadEnd 11 3 = some (dDriven.deadTime 11) ∧ dDriven.mayTurnOn 11 3 true = true ∧
      (at_ (dDriven.deadTime 11 / 32) dDriven).deadEnd 11 3 = some (dDriven.deadTime 11) ∧
      (at_ (dDriven.deadTime 11 / 32) dDriven).mayTurnOn 11 3 true = true) := by
  decide +kernel

/-- A group that START takes: ARMED, its owner IDLE, its timebase set up, its delay line locked. -/
def dReady : Dev := dev [(Reg.CFG_STATE, 3), (Reg.LE_STAT 11, 2), (Reg.PG_CTRL 11, 1), (Reg.PG_STAT 11, 0x40)]

/-- Group 0 follows SYNC_IN. -/
def dSync (run : Bool) : Dev :=
  grp 0 [(Reg.PG_CTRL 0, 1), (Reg.PG_SYNC 0, 1), (Reg.PWMSYS_SYNC_OUT, 0x80000000)]
    (fun x => { x with running := run, carLen := 800, nextCar := 800, quiet := 1 })

/-- A group that stops, on a lane whose STATE frame has left or on pins. -/
def dStopping (ctrl : Word) : Dev := at_ 176 (grp 11 [(Reg.PG_STAT 11, 3), (Reg.PG_CTRL 11, ctrl)] (fun x => { x with stateSentAt := some 0 }))

theorem test_witness_GroupCommandsComplete :
    (dReady.Reaches .host (Reg.PG_CMD 11) ∧ dReady.startCause 11 = 0 ∧ (dev []).startCause 11 ≠ 0) ∧
    ((dRun 0 1).gstate 11 = 2 ∧ (dev [(Reg.PG_STAT 11, 1)]).gstate 11 = 1 ∧ (dev []).gstate 11 = 0) ∧
    ((dev [(Reg.PG_STAT 11, 4)]).gstate 11 = 4 ∧
      ((dev [(Reg.PG_STAT 11, 4), (Reg.PG_TRIP_STAT 11, 0x80000000)]).latched 11 = true) ∧ (dev [(Reg.PG_STAT 11, 4)]).latched 11 = false) ∧
    ((dev []).Reaches .host Reg.PWMSYS_GSTART ∧ (dev []).Reaches .host Reg.PWMSYS_GSTOP) ∧
    ((dStopping 0).gstate 11 = 3 ∧ ((dStopping 0).group 11).stopAtReload = false ∧ (dStopping 0).laneGroup 11 = false ∧
      ((dStopping 0).group 11).cmdsOffAt < (dStopping 0).now) ∧
    ((dStopping 0x20000).gstate 11 = 3 ∧ ((dStopping 0x20000).group 11).stopAtReload = false ∧ (dStopping 0x20000).laneGroup 11 = true ∧
      ((dStopping 0x20000).group 11).stateSentAt = some 0 ∧ 0 + 176 ≤ (dStopping 0x20000).now) ∧
    (dReady.groupEn 11 = true ∧ dReady.bit (Reg.PG_STAT 11) 6 = true ∧ dReady.laneGroup 11 = false ∧
      (dev [(Reg.PG_STAT 11, 0x40), (Reg.PG_CTRL 11, 0x20000)]).laneGroup 11 = true) := by
  decide +kernel

theorem test_witness_GroupCommandsComplete_sync :
    ((dSync false).groupEn 0 = true ∧ (dSync false).syncMode 0 = 1 ∧ ((dSync false).group 0).running = false ∧
      ((dSync false).group 0).starts = []) ∧
    ((dSync true).groupEn 0 = true ∧ (dSync true).syncMode 0 = 1 ∧ ((dSync true).group 0).running = true) ∧
    (((dSync true).group 0).syncLost = false ∧
      max 1 ((dSync true).fld Reg.PWMSYS_SYNC_IN 15 8) ≤ ((dSync true).modGroup 0 (fun x => { x with quiet := 255 }) |>.group 0).quiet) ∧
    ((dSync true).bit Reg.PWMSYS_SYNC_OUT 31 = true ∧ (dSync true).fld Reg.PWMSYS_SYNC_OUT 19 16 < 12 ∧
      (at_ 800 (dSync true)).nextStart ((at_ 800 (dSync true)).fld Reg.PWMSYS_SYNC_OUT 19 16) = some (800, 800) ∧
      800 = (at_ 800 (dSync true)).now + (dSync true).fld Reg.PWMSYS_SYNC_OUT 7 0) := by
  decide +kernel

theorem test_witness_TripCommandsComplete :
    (dev []).Reaches .host (Reg.PG_CMD 11) ∧
    ((unheld (dev [(Reg.PG_TRIP_STAT 11, 0x80000080), (Reg.LE_STAT 11, 2)])).modSloe (fun x => { x with cover := 0 })).clearBlock 11 0 = 0 ∧
    ((dev [(Reg.PG_STAT 11, 4), (Reg.CFG_STATE, 3), (Reg.LE_STAT 11, 2)]).modSloe (fun x => { x with cover := 0 })).clearBlock 11 0 = 0 ∧
    (dev [(Reg.PG_STAT 11, 4)]).gstate 11 = 4 ∧ (dev []).gstate 11 ≠ 4 ∧ (dev [(Reg.PG_STAT 11, 4)]).clearBlock 11 0 ≠ 0 ∧
    (dev []).Reaches .host Reg.PWMSYS_GCLR ∧
    ((dev []).pageHeld 0x2C = false ∧ (dev []).tripFilter 12 = 16 ∧ natBit 12 (dev []).tripIn.toNat = false ∧
      (dev [(Reg.PWMSYS_TRIP_IN 12, 0x3FF)]).tripFilter 12 = 512 ∧ (dev []).bit (Reg.PWMSYS_TRIP_IN 12) 31 = false) := by
  decide +kernel

/-- Group 11 in ASC, its pins its own or held by Sloe; tick `n`. -/
def dAsc (hold : BitVec 12) (n : Nat) : Dev :=
  at_ n ((dev [(Reg.PG_TRIP_ACT 11, 0x20000)]).modSloe (fun x => { x with hold := hold, holdAt := vset x.holdAt 11 3 }))

theorem test_witness_TripCommandsComplete_asc :
    (∀ n, n = ((dAsc 0 0).group 11).ascAt + (dAsc 0 0).deadTime 11 → (dAsc 0 (n / 32)).tripApplied 11 = 2 ∧
      (dAsc 0 (n / 32)).sloeHolds 11 = false ∧ (((dAsc 0 (n / 32)).group 11).ascAt + (dAsc 0 (n / 32)).deadTime 11) / 32 = (dAsc 0 (n / 32)).now) ∧
    (∀ n, n = 3 + 10 * (dAsc 0x800 0).sdt 11 → (dAsc 0x800 n).sloeHolds 11 = true ∧
      vget 0 (dAsc 0x800 n).sloe.holdAt 11 + 10 * (dAsc 0x800 n).sdt 11 = (dAsc 0x800 n).now) := by
  refine ⟨?_, ?_⟩ <;> rintro n rfl <;> decide +kernel

/-- Lane 11 in state `st` at tick `n`, changed by `f`, with its group on it; Sloe holds no pins. -/
def lan (st : Word) (n : Nat) (f : Lane → Lane) : Dev :=
  at_ n (((dev [(Reg.FL_STAT 11, st), (Reg.PG_CTRL 11, 0x20000)]).modLane 11 f).modSloe (fun x => { x with hold := 0 }))

/-- An event whose carrier instant is link time 0, at tick `n`. -/
def dEvent (n : Nat) : Dev := lan 4 n (fun l => { l with events := [{ leg := 3, kind := 2, carrier := 0 }] })

/-- A frame to be sent once more. -/
def dAgain : Dev := lan 4 16 (fun l => { l with repeats := [([0x1F], [])] })

theorem test_witness_LaneSendsComplete :
    ((lan 1 1024 id).lstate 11 ≠ 0 ∧ (lan 1 1024 id).slotFree 11 true = true ∧ (lan 3 0 id).lstate 11 = 3) ∧
    ((dEvent 112).edgeEvents 11 = [{ leg := 3, kind := 2, carrier := 0 }] ∧
      ((dEvent 112).edgeEvents 11).any (pastDeadline ((dEvent 112).ltime 11)) = false ∧ (dEvent 112).slotFree 11 false = true) ∧
    (dAgain.repeatsLeft 11 = [([0x1F], [])] ∧ dAgain.edgeEvents 11 = [] ∧ dAgain.slotFree 11 false = true) ∧
    ((dEvent 121).edgesFlow 11 = true ∧ ((dEvent 121).edgeEvents 11).any (pastDeadline ((dEvent 121).ltime 11)) = true) := by
  decide +kernel

/-- A group that stops on lane 11. -/
def dLast : Dev := (lan 4 16 id).setReg (Reg.PG_STAT 11) 3

/-- Lane 11 measures at slot 1 of a cycle whose STATE frame has left. -/
def dMeasuring : Dev := lan 2 16 (fun l => { l with measuring := true, pings := 7, stateCycle := some 0 })

theorem test_witness_LaneSendsComplete_state :
    ((lan 1 16 id).lstate 11 ≠ 0 ∧ (lan 1 16 id).slotFree 11 false = true ∧ (lan 1 16 id).edgesIdle 11 = true ∧
      (lan 1 16 id).stateDue 11 = true ∧ (lan 1 16 id).gstate 11 ≠ 3) ∧
    (((lan 0 16 (fun l => { l with safeTx := true })).lane 11).safeTx = true ∧
      (lan 0 16 (fun l => { l with safeTx := true })).stateDue 11 = true) ∧
    (dLast.gstate 11 = 3 ∧ (dLast.group 11).stopAtReload = false ∧ (dLast.group 11).stateSentAt = none ∧
      dLast.slotFree 11 false = true ∧ dLast.edgesIdle 11 = true ∧ dLast.stateDue 11 = true) ∧
    (2 ≤ (lan 2 0 id).lstate 11 ∧ ((lan 2 0 id).lane 11).measuring = false ∧ ((lan 2 0 id).lane 11).measAt = none ∧
      ((lan 2 4000000 (fun l => { l with measAt := some 0 })).lane 11).measAt = some 0) ∧
    ((dMeasuring.lane 11).measuring = true ∧ (dMeasuring.lane 11).pings < 8 ∧ (dMeasuring.lane 11).pingOut = false ∧
      (dMeasuring.lane 11).pingAt = none ∧ dMeasuring.lstate 11 ≠ 4 ∧
      (dMeasuring.lane 11).stateCycle = some (dMeasuring.ltick 11 / 1024) ∧ dMeasuring.slotFree 11 false = true ∧
      dMeasuring.edgesIdle 11 = true) := by
  decide +kernel

/-- A link frame with its check byte. -/
def linked (bs : List Byte) : List Byte := bs ++ [crcByte8 bs]

/-- A reply with T1 = 1, ping number 255 and TA = 2. -/
def reply : List Byte := linked [0x80, 0, 0, 1, 0xFF, 0, 0, 2, 0]

/-- The ping of slot 1 is out at tick `n`, with seven delays measured before. -/
def dPing (n : Nat) (rtts : List Nat) : Dev :=
  lan 2 n (fun l => { l with measuring := true, pingOut := true, pid := 255, pingAt := some 16, rtts := rtts })

theorem test_witness_LaneReceivesComplete :
    (dPing 96 []).lstate 11 ≠ 0 ∧
    (frameType reply = some 2 ∧ ((dPing 96 []).lane 11).measuring = true ∧ ((dPing 96 []).lane 11).pingOut = true ∧
      ((dPing 96 []).lane 11).pingAt = some 16 ∧ (dPing 96 []).ltime 11 - 512 + 0 ≤ 32 * (16 + 64) ∧ ((dPing 96 []).lane 11).pid = 255 ∧
      (nth 0 reply 4).toNat = 255) ∧
    ((dPing 96 []).ltime 11 - 512 + 0 + 2 * 2 ^ 24 - natOfBytesBE ((reply.drop 1).take 3) -
        natOfBytesBE ((reply.drop 5).take 3)) % 2 ^ 24 = 2557 ∧
    ((((dPing 96 (List.replicate 7 2549)).lane 11).rtts ++ [2557]).length = 8 ∧
      ((List.replicate 7 2549 ++ [2557]).foldl max 0 - (List.replicate 7 2549 ++ [2557]).foldl min (2 ^ 24)) = 8 ∧
      ((List.replicate 7 2548 ++ [2557]).foldl max 0 - (List.replicate 7 2548 ++ [2557]).foldl min (2 ^ 24)) = 9 ∧
      (List.replicate 6 2549 ++ [2557]).length < 8) ∧
    16 + 80 < (dPing 97 []).ltick 11 := by
  decide +kernel

/-- A good alignment frame, a STATE frame with the far end's state and fault `b`, and a TELE frame with leg and faults `b`. -/
def aligned : List Byte := commaByte :: linked [0, 1, 2, 0x10, 5, 6, 7, 8]
def upState (b : Byte) : List Byte := linked [0x40, b, 0, 0, 0, 0, 0, 0, 0]
def tele (b : Byte) : List Byte := linked [0xC0, b, 0xFF, 0xFF, 0xFF, 0xFF, 1, 2, 0]

theorem test_witness_LaneReceivesComplete_frames :
    (aligned.length = 10 ∧ nth 0 aligned 0 = commaByte ∧ crcByte8 ((aligned.drop 1).take 8) = nth 0 aligned 9) ∧
    ((lan 1 0 id).lstate 11 = 1 ∧ ((lan 1 0 (fun l => { l with aligned := 3 })).lane 11).aligned + 1 = 4 ∧
      ((lan 1 0 (fun l => { l with aligned := 2 })).lane 11).aligned + 1 < 4) ∧
    (frameType (upState 0x9C) = some 1 ∧ (nth 0 (upState 0x9C) 1).toNat / 32 = 4) ∧
    (frameType (upState 0x60) = some 1 ∧ (nth 0 (upState 0x60) 1).toNat / 32 = 3 ∧ (lan 4 0 id).latched 11 = false ∧
      (lan 4 0 id).sloeHolds 11 = false) ∧
    (frameType (upState 0x5F) = some 1 ∧ (nth 0 (upState 0x5F) 1).toNat / 32 = 2 ∧ (lan 3 0 id).lstate 11 = 3 ∧
      2 ≤ ((lan 3 0 (fun l => { l with owdSent := 2 })).lane 11).owdSent ∧ ((lan 3 0 (fun l => { l with owdSent := 1 })).lane 11).owdSent < 2) ∧
    (frameType (upState 0xE0) = some 1 ∧ 4 < (nth 0 (upState 0xE0) 1).toNat / 32) ∧
    (frameType (tele 0xE0) = some 3 ∧ natBit 3 (nth 0 (tele 0xE0) 1).toNat = false ∧ natBit 4 (nth 0 (tele 0xE0) 1).toNat = false) ∧
    (frameType (tele 0x10) = some 3 ∧ natBit 4 (nth 0 (tele 0x10) 1).toNat = true ∧ (lan 1 0 id).laneGroup 11 = true ∧
      ((lan 1 0 id).setReg (Reg.PG_CTRL 11) 0).laneGroup 11 = false) ∧
    ((lan 1 80 id).lane 11).rxAt + 80 ≤ (lan 1 80 id).now ∧
    (((lan 1 2048 (fun l => { l with stateRx := some 0 })).lane 11).stateRx = some 0 ∧ 0 + 2048 ≤ (lan 1 2048 id).now) ∧
    (((lan 1 1025 (fun l => { l with alignRx := some 0 })).lane 11).alignRx = some 0 ∧ 0 + 1024 < (lan 1 1025 id).now ∧
      ((lan 1 1025 id).lane 11).missed = 0 ∧ ((lan 1 1025 (fun l => { l with missed := 1 })).lane 11).missed = 1) := by
  decide +kernel

/-- Converter 23 at tick `n`, its half ready and its group running, in the mode that `cfg` gives, its entry 3 set at position 799. -/
def dConv (cfg : Word) (n : Nat) (f : Converter → Converter) : Dev :=
  at_ n ((grp 0 [(Reg.AC_CTRL 23, 1), (Reg.AC_CFG 23, cfg), (Reg.AC_TRIG 23 3, 0x8000031F), (Reg.ADCSYS_STAT, 3), (Reg.ADCSYS_REF, 2)]
    (fun x => { x with running := true, carLen := 800 })).modConv 23 f)

/-- A started conversion that samples at tick 8, and a sampled one. -/
def aStart : Started := { src := 0x5C, slot := 0x803F, at_ := 8 }
def aSample : Sampled := { at_ := 0, code := 65535, src := 0x5C, clip := true, pair := true, accNo := [(127, 0)], mmxNo := [(63, 0)] }

theorem test_witness_ConversionCommandsComplete :
    ((dConv 0 798 id).trigFires 23 3 = true ∧ (dConv 0 799 id).trigFires 23 3 = false ∧ (dConv 0 798 id).calOn 23 = false ∧
      ((dConv 0 798 id).converter 23).pending = false ∧ (dConv 0 798 id).seqRuns 23 = false ∧
      (dConv 0 798 (fun x => { x with endAt := 799 })).seqRuns 23 = true ∧
      ((dConv 0 798 (fun x => { x with pending := true })).converter 23).pending = true ∧
      (dConv 0 798 (fun x => { x with pending := true })).trigFires 23 3 = true) ∧
    ((dConv 1 40 id).convLive 23 = true ∧ (dConv 1 40 id).convMode 23 ≠ 0 ∧ (dConv 1 40 id).calOn 23 = false ∧
      (dConv 1 40 id).onGrid 23 = true ∧ (dConv 1 39 id).onGrid 23 = false ∧
      ((dConv 1 40 id).converter 23).due.any (fun y => y.at_ == 48) = false) ∧
    ((dConv 0 8 (fun x => { x with due := [aStart] })).convLive 23 = true ∧
      (dConv 0 8 (fun x => { x with due := [aStart] })).calOn 23 = false ∧
      ((dConv 0 8 (fun x => { x with due := [aStart] })).converter 23).due.find? (fun y => y.at_ == 8) = some aStart) ∧
    ((dConv 0 52 (fun x => { x with pipeline := [aSample] })).converter 23).pipeline.find? (fun q => q.at_ + 52 == 52) = some aSample ∧
    ((dConv 0 800000 id).bit Reg.ADCSYS_REF 1 = true ∧ (dConv 0 0 id).pageHeld 0x58 = false ∧
      vget 0 (dConv 0 800000 id).acq.refAt 1 + 800000 ≤ (dConv 0 800000 id).now ∧ (dConv 0 0 id).refReady 1 = true) := by
  decide +kernel

/-- The last conversion of a step on input 63, with the references as `stat` says. -/
def dStep (stat : Word) : Dev :=
  (Dev.putCal (some { full := true, input := 63, conv := 23, start := 0, n := 4095 }) (dConv 0 (8 + 40 * 4095) id)).setReg Reg.ADCSYS_STAT stat

theorem test_witness_ConversionCommandsComplete_step :
    ((dStep 3).convLive 23 = true ∧ (dStep 3).calOn 23 = true ∧
      (dStep 3).cal = some { full := true, input := 63, conv := 23, start := 0, n := 4095 } ∧ 0 + 8 + 40 * 4095 = (dStep 3).now ∧
      (dStep 3).muxError 23 63 = false) ∧
    (((dStep 0).bumpWrap (Reg.AC_CONV_CNT 23) 31 0).refReady 1 = false ∧ ((dStep 3).bumpWrap (Reg.AC_CONV_CNT 23) 31 0).refReady 1 = true) ∧
    (((dStep 3).bumpWrap (Reg.AC_CONV_CNT 23) 31 0).endCode 63 (((dStep 3).bumpWrap (Reg.AC_CONV_CNT 23) 31 0).codeOf 63 70000) = true ∧
      ((dStep 3).bumpWrap (Reg.AC_CONV_CNT 23) 31 0).endCode 63 (((dStep 3).bumpWrap (Reg.AC_CONV_CNT 23) 31 0).codeOf 63 100) = false) := by
  decide +kernel

/-- Sigma-delta channel 23 enabled and clocked, after many ones, changed by `f`; comparator 63 enabled. -/
def dSd (f : SdChannel → SdChannel) : Dev :=
  (dev [(Reg.SD_CTRL 2, 1), (Reg.SD_CFG 2 7, 0x85000000), (Reg.ADCSYS_SDCK 5, 0x80000000), (Reg.CMP_CTRL, 1),
    (Reg.CMP_CFG 63, 0x80000000), (Reg.ADCSYS_STAT, 3)]).modSd 23 (fun x => f { x with bits := List.replicate 63 true })

/-- A calibration step of channel 23 with all its values, and the means of one: zero and full scale measured on the same input. -/
def dCal : Dev := Dev.putCal (some { full := true, input := 87, conv := 0, n := 4096 }) (dSd id)
def dMeans : Dev := (dSd id).setReg Reg.ADCSYS_CAL_STAT 0x00030057

theorem test_witness_CalibrationAndFiltersComplete :
    ((dev []).Reaches .host Reg.ADCSYS_CAL_CMD ∧ (dSd id).calError 1 87 0 = 0 ∧ (dSd id).calError 2 87 0 = 0 ∧
      (dConv 0 0 id).calError 1 63 23 = 0 ∧ dCal.calError 4 87 0 = 0 ∧ dCal.cal.isSome = true) ∧
    (dMeans.calError 3 87 0 = 0 ∧ (dSd id).calError 3 87 0 = 8 ∧ (dSd id).calError 1 63 24 = 5 ∧ (dev []).calError 2 88 0 = 5 ∧
      (dev []).calError 4 0 0 ≠ 0) ∧
    dCal.cal = some { full := true, input := 87, conv := 0, n := 4096 } := by
  decide +kernel

/-- One level, of the first sampling instant, at tick 0: it ends a decimation cycle, raises the decision, and shows a fault. -/
theorem test_witness_CalibrationAndFiltersComplete_filters :
    ((dSd id).sdOn 23 = true ∧ (dSd id).sdClocked 23 = true ∧ (dSd id).sdIndex 23 ((dSd id).sdChan 23).fromT = 0 ∧
      [true].length = (dSd id).sdIndex 23 ((dSd id).now + 1) - 0 ∧ (dSd id).sdEdge 23 (0 + [true].length - 1) + (dSd id).sdDelay 23 = (dSd id).now) ∧
    (((Dev.sdBits 23 0 [true] (dSd (fun x => { x with phase := 15 }))).modSd 23 (fun x => { x with fromT := 1 })).sdChan 23).phase = 0 ∧
    (((Dev.sdBits 23 0 [true] (dSd id)).modSd 23 (fun x => { x with fromT := 1 })).sdChan 23).own ≠ ((dSd id).sdChan 23).own ∧
    ((Dev.sdBits 23 0 [true] (dSd (fun x => { x with still := 255 }))).modSd 23 (fun x => { x with fromT := 1 })).sdFault 23 ≠
      (dSd (fun x => { x with still := 255 })).sdFault 23 := by
  decide +kernel

/-- Position interface 7 with its decoder, its speed unit, its emulator and a BiSS-C sensor enabled. -/
def pos7 (ws : List (Nat × Word)) (f : PosUnit → PosUnit) : Dev :=
  (dev ([(Reg.PF_CTRL 7, 1), (Reg.PF_ABZ_CFG 7, 0x90000064), (Reg.PF_HALL_CFG 7, 0x80000000), (Reg.PF_SPD_CFG 7, 0x80000000),
    (Reg.PF_EMU_CFG 7, 0x87000010), (Reg.PF_SER_CFG 7, 0xC1000000)] ++ ws)).modPf 7 f

/-- The same with the longest filter, in force at the pads. -/
def dSlow : Dev := (pos7 [(Reg.PAD_GRP 7, 0xFF00)] id)

theorem test_witness_PositionCommandsComplete :
    (((pos7 [] id).sloeLevels 7 true false 0).filtered (Reg.PAD_GRP 7) 0 = true ∧
      ((pos7 [] id).abzLevels 7 true false).1 = some true ∧ ((pos7 [] id).abzLevels 7 false true).1 = some false) ∧
    ((pos7 [] id).pfUnit 7 (Reg.PF_ABZ_CFG 7) = true ∧ ((pos7 [] id).pf 7).a = !true ∧ ((pos7 [] id).pf 7).b = !true) ∧
    (dSlow.filtered (Reg.PAD_GRP 7) 5099 = false ∧ dSlow.filtered (Reg.PAD_GRP 7) 5100 = true) ∧
    (((pos7 [] id).pf 7).a = false ∧ ((pos7 [] id).pf 7).b = false ∧ (pos7 [] id).bit (Reg.PF_ABZ_CFG 7) 27 = false ∧
      (pos7 [] id).fld (Reg.PF_ABZ_CFG 7) 29 28 = 1 ∧ (pos7 [(Reg.PF_ABZ_CFG 7, 0xB0000064)] id).fld (Reg.PF_ABZ_CFG 7) 29 28 = 3) ∧
    ((dev []).Reaches .host (Reg.PF_ABZ_CMD 7) ∧ (dev []).Reaches .host (Reg.PF_CMP_POS 7)) ∧
    ((((pos7 [] id).sloeCode 7 7 0).pf 7).hall ≠ 7 ∧ ((pos7 [] id).sloeCode 7 7 0).filtered (Reg.PAD_GRP 7) 0 = true ∧
      ((pos7 [] id).sloeCode 7 7 0).pfUnit 7 (Reg.PF_HALL_CFG 7) = true) ∧
    ((pos7 [] (fun x => { x with cmpPulse := true })).pf 7).cmpPulse = true := by
  decide +kernel

theorem test_witness_PositionCommandsComplete_windows :
    ((pos7 [(Reg.PF_STAT 7, 3)] id).pfUnit 7 (Reg.PF_SPD_CFG 7) = true ∧ ((pos7 [] id).pf 7).winEnd = (pos7 [] id).now ∧
      (pos7 [(Reg.PF_STAT 7, 3)] id).spdState 7 = 3 ∧ (pos7 [(Reg.PF_STAT 7, 1)] id).spdState 7 = 1) ∧
    ((pos7 [(Reg.PF_STAT 7, 3)] id).spdState 7 ≠ 1 ∧ ((pos7 [] id).pf 7).stillAt = (pos7 [] id).now) ∧
    ((pos7 [(Reg.PF_POS 7, 99)] id).pfUnit 7 (Reg.PF_EMU_CFG 7) = true ∧ (pos7 [] id).emuValid 7 = true ∧
      (pos7 [] id).emuDue 7 ≤ (pos7 [] id).now ∧
      (pos7 [(Reg.PF_POS 7, 99)] id).emuDist 7 < 0 ∧ 2 * ((pos7 [(Reg.PF_POS 7, 99)] id).emuDist 7).natAbs ≠ (pos7 [] id).emuStates 7 ∧
      0 < (pos7 [(Reg.PF_POS 7, 2)] id).emuDist 7 ∧ 2 * ((pos7 [(Reg.PF_POS 7, 2)] id).emuDist 7).natAbs ≠ (pos7 [] id).emuStates 7) := by
  decide +kernel

/-- A transfer of 8 bits under SER_CFG `cfg`, at its last bit. -/
def dXfer (cfg : Word) : Dev :=
  let d := pos7 [] (fun x => { x with busy := true, serCfg := cfg, serTim := 0x02000000, reqTick := 0 })
  at_ (d.pf 7).lastBit d

/-- BiSS-C: start, CDS, eight bits of position, nE, nW and the CRC changed by `bad`. -/
def biss (nE : Bool) (bad : Nat) : List Bool :=
  let pos := [true, false, false, false, false, false, false, true, nE, true]
  [true, false] ++ pos ++ (List.range 6).reverse.map (fun k => natBit k (bissCrc pos ^^^ bad))

theorem test_witness_SerialSensorsComplete :
    ((at_ 400 (pos7 [] id)).serAsked 7 = true ∧ ((pos7 [] id).pf 7).busy = false ∧ ((pos7 [] id).pf 7).recovering = false) ∧
    ((pos7 [(Reg.PF_SER_CFG 7, 0xC2000000)] id).pfUnit 7 (Reg.PF_SER_CFG 7) = true ∧
      (pos7 [(Reg.PF_SER_CFG 7, 0xC2000000)] id).serSource 7 = 2 ∧ (dev []).Reaches .host (Reg.PF_SER_CMD 7)) ∧
    ((dXfer 0xC1000000).pfUnit 7 (Reg.PF_SER_CFG 7) = true ∧ ((dXfer 0xC1000000).pf 7).busy = true ∧
      ((dXfer 0xC1000000).pf 7).serEnds (dXfer 0xC1000000).now = true ∧
      ((dXfer 0x81000000).pf 7).serEnds (dXfer 0x81000000).now = true) ∧
    (((dXfer 0xC1000000).pf 7).serLimit = (at_ 800 (dXfer 0xC1000000)).now ∧ bitAt 30 ((dXfer 0xC1000000).pf 7).serCfg = true) ∧
    ((pos7 [] (fun x => { x with recovering := true })).pf 7).recovering = true := by
  decide +kernel

/-- The fields of a good frame, of one with the error bit, and of one with a bad CRC. -/
theorem test_witness_SerialSensorsComplete_frames :
    ((biss true 0).length = xferBits 0xC1000000 ∧ xferLen 0xC1000000 = 8 ∧ (biss true 0).headD false = true ∧
      bitsMsb ((biss true 0).drop 12) = bissCrc (((biss true 0).drop 2).take 10) ∧ bitsMsb (((biss true 0).drop 2).take 8) = 0x81 ∧
      (biss true 0)[10]? = some true ∧ (biss true 0)[11]? = some true) ∧
    ((biss false 0).length = 18 ∧ bitsMsb ((biss false 0).drop 12) = bissCrc (((biss false 0).drop 2).take 10) ∧
      (biss false 0)[10]? = some false ∧ (biss false 0)[11]? = some true) ∧
    bitsMsb ((biss true 1).drop 12) ≠ bissCrc (((biss true 1).drop 2).take 10) ∧
    ([true, false, false, false, false, false, false, true].length = xferBits 0x81000000 ∧
      bitAt 30 (0x81000000 : Word) = false ∧ bitAt 28 (0x81000000 : Word) = false) := by
  decide +kernel

/-- MC11 in state `st` and mode `mode`, its group in RUN; comparator 0 has just become active on both sides. -/
def mc11 (mode st : Word) (f : McUnit → McUnit) : Dev :=
  Dev.putCmps (vset (dev []).cmps 0 { hi := { rose := some 0 }, lo := { rose := some 0 } })
    ((dev [(Reg.MC_CTRL 11, 1), (Reg.MC_CFG 11, mode), (Reg.MC_STAT 11, st), (Reg.PG_STAT 11, 2), (Reg.PG_CMASK_CFG 11, 1),
      (Reg.MC_ZC_TIM 11, 2), (Reg.MC_OBS_CNT 11, 0x300), (Reg.MC_OL_T0 11, 0), (Reg.MC_OL_T1 11, 0)]).modMc 11 f)

/-- Six-step driving. -/
def six (f : McUnit → McUnit) : Dev := mc11 3 3 f

theorem test_witness_MachineControlComplete :
    ((dev []).Reaches .host (Reg.MC_CMD 11) ∧ (mc11 1 0 id).mstate 11 = 0 ∧ (mc11 1 0 id).gstate 11 = 2 ∧ (mc11 1 0 id).mcOn 11 = true ∧
      (mc11 1 0 id).bit (Reg.PG_CMASK_CFG 11) 0 = true ∧ (mc11 1 7 id).mstate 11 = 7 ∧ (dev [(Reg.PG_STAT 11, 3)]).gstate 11 = 3) ∧
    ((mc11 1 2 id).mstate 11 = 2 ∧ (mc11 1 3 id).mstate 11 = 3 ∧ (mc11 1 4 id).mstate 11 = 4 ∧ (mc11 1 5 id).mstate 11 = 5) ∧
    ((mc11 1 0x408 id).mstate 11 = 8 ∧ (mc11 1 0x408 id).bit (Reg.MC_STAT 11) 11 = false) ∧ (dev []).Reaches .host (Reg.MC_OBS_CONF 11) ∧
    ((mc11 1 3 (fun x => { x with released := true, quiet := 3 })).mcJudged 11 = true ∧
      (mc11 1 3 (fun x => { x with released := true, quiet := 3 })).obsOverdue 11 = true ∧
      (mc11 1 3 (fun x => { x with released := true, quiet := 1 })).obsOverdue 11 = false) ∧
    ((six (fun x => { x with row := 6 })).mcOn 11 = true ∧ (six id).mcMode 11 = 3 ∧ ((six (fun x => { x with row := 6 })).mcu 11).row ≠ 0 ∧
      (at_ 4 (six (fun x => { x with row := 6 }))).expectedCrossing 11 = some 0 ∧
      (at_ 5 (six (fun x => { x with row := 6 }))).expectedCrossing 11 = none ∧
      (mc11 3 6 id).mstate 11 = 6 ∧ (six id).mcDriven 11 = true ∧ ((six id).mcu 11).nextRow = none) ∧
    (((six (fun x => { x with nextRow := some 6 })).mcu 11).nextRow = some 6 ∧ ((six id).mcu 11).rowDue = (six id).now) ∧
    (((six id).mcu 11).rowAt + 2 * ((six id).mcu 11).interval * (((six id).mcu 11).misses + 1) = (six id).now ∧
      ((six id).mcu 11).misses + 1 < max 1 ((six id).fld (Reg.MC_ZC_TIM 11) 7 0) ∧
      max 1 ((six id).fld (Reg.MC_ZC_TIM 11) 7 0) ≤ ((six (fun x => { x with misses := 1 })).mcu 11).misses + 1) ∧
    ((mc11 3 6 (fun x => { x with steps := some 1 })).forcedDue 11 = true ∧ 1 + 1 < (mc11 3 6 id).fld (Reg.MC_OBS_CNT 11) 15 8 ∧
      (mc11 3 6 (fun x => { x with steps := some 2 })).forcedDue 11 = true ∧ (mc11 3 6 id).fld (Reg.MC_OBS_CNT 11) 15 8 ≤ 2 + 1) := by
  decide +kernel

/-- Command pin 3 with its configuration. -/
def dPin (cfg : Word) : Dev := dev [(Reg.MC_CMDIN_CFG 0 3, cfg)]

theorem test_witness_MachineControlComplete_pins :
    (dPin 0x807F0000).cmdinKind 3 = some 0 ∧
    ((dPin 0x90000000).cmdinKind 3 = some 1 ∧ (dPin 0xA0000000).cmdinKind 3 = some 2 ∧
      (dPin 0xA0000000).filtered (Reg.PAD_GRP 10) 0 = true ∧
      ((dPin 0xA0000000).cmdPin 3).edges.all (fun t => decide (t < (dPin 0xA0000000).now)) = true) ∧
    ((dPin 0xA000FFFF).cmdPin 3).since + max 1 ((dPin 0xA000FFFF).fld (Reg.MC_CMDIN_CFG 0 3) 15 0) * 400000 =
      (at_ (65535 * 400000) (dPin 0xA000FFFF)).now := by
  decide +kernel

/-- The triad runs; the same with register 1 of every core. -/
def dTriad : Dev := (dev [(Reg.TRIAD_STAT, 1)]).modTriad (fun t => { t with released := true })
def dCores (a : Word) : Dev := each [0, 1, 2] (fun c => Dev.modCore c (fun k => { k with x := vset k.x 1 a })) dTriad

/-- An exchange in which copy 2 is silent. -/
def xTwo : Exchange := { present := 3 }

theorem test_witness_TriadCommandsComplete :
    (dTriad.triadRuns = true ∧ regionOf 0x20000000 = .triad ∧ regionOf (0x2003FFFC + 3) = .triad) ∧
    (exchanged .medianSigned 0x10000000 4 = true ∧ exchanged .majority 0x10000001 1 = true ∧
      dTriad.exchangeReady { spread := 64 } = true) ∧
    (xTwo.present = 3 ∧ (dTriad.samples (fun _ => 0x10000000) 4 xTwo).1 = [0, 0] ∧
      (((dTriad.samples (fun _ => 0x10000000) 4 xTwo).2.addSat Reg.TRIAD_XCHG_STAT 31 16 1).markOdd 2 5).triadRuns = true) ∧
    (dTriad.Reaches .host Reg.TRIAD_MBX_POST ∧ dTriad.bit Reg.TRIAD_MBX_STAT 0 = false ∧ bitAt 16 (0x1FFFF : Word) = true ∧
      fld 15 0 (0x10000 : Word) = dTriad.fld (Reg.gen 0x90) 15 0 ∧ fld 15 0 (0x1FFFF : Word) ≠ dTriad.fld (Reg.gen 0x90) 15 0) ∧
    (dTriad.Reaches .triad Reg.TRIAD_MBX_ACK ∧ (dTriad.setReg Reg.TRIAD_MBX_STAT 1).bit Reg.TRIAD_MBX_STAT 0 = true) ∧
    dTriad.Reaches .triad Reg.TRIAD_MBX_OUT_SEQ := by
  decide +kernel

/-- All cores load the last word below 0x10000000 + 0x7FF, or trap at their own memory. -/
theorem test_witness_TriadCommandsComplete_loads :
    ([0, 1, 2].all (fun c => ((dCores 0x10000000).core c).traps 1 0x7FC) = false ∧
      (dCores 0x10000000).exchangeReady ((dCores 0x10000000).loadSamples 1 0x7FC {}) = true) ∧
    (∀ k, (((dCores 0x10000000).samples (fun c => (((dCores 0x10000000).core c).loadAddr 1 0x7FC).toNat) 4
      ((dCores 0x10000000).loadSamples 1 0x7FC {})).2.deliver k [0, 0, 0] {}).triadRuns = true) ∧
    [0, 1, 2].all (fun c => ((dCores 0x20000000).core c).traps 1 0) = true := by
  refine ⟨by decide +kernel, ?_, by decide +kernel⟩
  intro k
  cases k <;> decide +kernel

/-- The three cores stand alike, so the digests agree; the first sync point tests copy 0. -/
theorem test_witness_sync :
    (dTriad.triadRuns = true ∧ dTriad.triad.nextSync ≤ (at_ 400000 dTriad).now ∧ dTriad.voterPasses { blame := some 0 } = true) ∧
    (∀ c : Fin 3, dTriad.odd c.val = false) ∧ ∀ c : Fin 3, (dTriad.core c.val).finish = (dTriad.core 0).finish := by
  have h : ∀ c : Fin 3, dTriad.core c.val = dTriad.core 0 := by decide +kernel
  exact ⟨by decide +kernel, by decide +kernel, fun c => congrArg TriadCore.finish (h c)⟩

/-- Input 15 enabled as a static input, input 14 as an OSSD with a tolerance of 1 ms, input 13 as a test-pulse input of STP 3; function
7 resets by input 15, function 6 is a lock; speed source A runs. -/
def dInputs (n : Nat) : Dev :=
  at_ n (active [(Reg.SAFE_SIN_CFG 15, 0x80000000), (Reg.SAFE_SIN_CFG 14, 0xA8640000), (Reg.SAFE_SIN_CFG 13, 0xA0000000),
    (Reg.SAFE_STP_CFG, 0x80000000), (Reg.SAFE_FUNC_A 7, 0x210FE000), (Reg.SAFE_FUNC_B 7, 0xF000), (Reg.SAFE_FUNC_A 6, 0x400FE080),
    (Reg.SAFE_FUNC_B 6, 0), (Reg.SLOE_SPD_A, 0x80000000)] (dev []))

/-- A level of input 15 reaches its filter `ns` ns ago, seen in tick 10 000. -/
def dSeen (ns : Nat) : Dev := ((dInputs 10000).setBit Reg.SAFE_SIN_STAT 31 true).inputSeen 15 true ns

theorem test_witness_SafetyInputsComplete :
    (bitAt 31 ((dInputs 10000).act (Reg.SAFE_SIN_CFG 15)) = true ∧
      (natBit 15 (dSeen 25000).sloe.seen.toNat != bitAt 30 ((dInputs 10000).act (Reg.SAFE_SIN_CFG 15))) = true ∧
      (dSeen 25000).bit Reg.SAFE_SIN_STAT 15 = false ∧ (dSeen 25000).sinFilt 15 + vget 0 (dSeen 25000).sloe.seenAt 15 ≤ (dSeen 25000).now ∧
      (dSeen 24997).now < (dSeen 24997).sinFilt 15 + vget 0 (dSeen 24997).sloe.seenAt 15 ∧
      bitAt 31 ((dInputs 0).act (Reg.SAFE_SIN_CFG 0)) = false) ∧
    ((dInputs (3 * 1600000 / 4 + 6000)).stpPhase 3 (dInputs (3 * 1600000 / 4 + 6000)).now = some 6000 ∧
      3 * (dInputs 0).stpWidth ≤ 4 * 6000 ∧ (dInputs (3 * 1600000 / 4 + 7999)).stpPhase 3 (3 * 1600000 / 4 + 7999) = some 7999 ∧
      7999 < (dInputs 0).stpWidth) ∧
    ((dInputs 400001).ossdTol 14 ≠ 0 ∧ (dInputs 0).bit Reg.SAFE_SIN_STAT 14 = false ∧
      vget 0 (dInputs 400001).sloe.fallAt 14 + (dInputs 400001).ossdTol 14 < (dInputs 400001).now) ∧
    (vget none ((dInputs 4000001).modSloe (fun x => { x with discAt := vset x.discAt 7 (some 0) })).sloe.discAt 7 = some 0 ∧
      vget none ((dInputs 4000001).modSloe (fun x => { x with lockAt := vset x.lockAt 6 (some 0) })).sloe.lockAt 6 = some 0 ∧
      0 + (dInputs 4000001).discTicks 7 < (dInputs 4000001).now ∧ 0 + (dInputs 4000001).discTicks 6 < (dInputs 4000001).now) ∧
    (((dInputs 40000009).modSloe (fun x => { x with fallAt := vset x.fallAt 15 40000000 })).pulseEnds 15 = true ∧
      ((dInputs 40000010).modSloe (fun x => { x with fallAt := vset x.fallAt 15 40000000 })).pulseEnds 15 = false ∧
      ((dInputs 40000008).modSloe (fun x => { x with fallAt := vset x.fallAt 15 39999999 })).pulseEnds 15 = false) ∧
    ((dev [(Reg.SLOE_STAT, 0x80000)]).bit Reg.SLOE_STAT 19 = true ∧ (dev []).sloe.ss1End = (dev []).now) ∧
    (bitAt 31 ((dInputs 0).act Reg.SLOE_SPD_A) = true ∧ bitAt 31 ((dInputs 0).act Reg.SAFE_SLS_CFG) = false ∧
      (dInputs 0).sloe.winEnd = (dInputs 0).now ∧ (dInputs 0).sloe.spdBWins = 0) ∧
    ((dev []).Reaches .triad Reg.SAFE_SPD_B ∧ Master.host ≠ .triad ∧ (dev []).Reaches .host Reg.SAFE_SPD_B) := by
  decide +kernel

/-- Everything that closes the STO switches. -/
def dClose (age : Word) : Dev :=
  active [(Reg.SLOE_STO_CFG, 24)] (dev [(Reg.SAFE_STAT, 1), (Reg.SLOE_STAT, 0x20000), (Reg.SLOE_STO_AGE, age)])

/-- The switches in state `st`, entered at tick 0, at tick `n`. -/
def dSwitch (st : Word) (n : Nat) (f : Sloe → Sloe) : Dev :=
  at_ n ((active [(Reg.SLOE_STO_CFG, 24), (Reg.SLOE_TP_CFG, 0)] (dev [(Reg.SLOE_STAT, st), (Reg.SLOE_STO_AGE, 23)])).modSloe f)

/-- The owner's session, with one fault latched. -/
def dFault : Dev := dev [(Reg.SAFE_STAT, 0x300), (Reg.SLOE_FAULT, 0x40)]

theorem test_witness_TorqueOffComplete :
    ((dClose 24).stoState = 0 ∧ (dClose 24).closeOk = true ∧ (dClose 24).testMax ≤ (dClose 24).fld Reg.SLOE_STO_AGE 15 0) ∧
    ((dClose 23).closeOk = true ∧ (dClose 23).fld Reg.SLOE_STO_AGE 15 0 < (dClose 23).testMax) ∧
    ((dSwitch 1 400000 id).stoState = 1 ∧
      (dSwitch 1 400000 id).sloe.stoAt + 400000 * max 1 ((dSwitch 1 400000 id).actFld Reg.SLOE_STO_CFG 31 24) = 400000 ∧
      (dSwitch 1 400000 id).feedbackOk = true ∧ (dSwitch 1 400000 id).sloe.testPhase2 = false ∧
      (dSwitch 1 0 (fun x => { x with testPhase2 := true })).sloe.testPhase2 = true ∧ (dev [(Reg.SLOE_STO, 1)]).feedbackOk = false) ∧
    ((dSwitch 3 400001 (fun x => { x with fbAt1 := some 0 })).sloe.fbAt1 = some 0 ∧ 0 + (dSwitch 3 400001 id).fbTicks < 400001) ∧
    ((dSwitch 2 400000 id).settleEnds = true ∧ (dSwitch 2 399999 id).settleEnds = false ∧
      (dSwitch 4 400000 (fun x => { x with fb1 := true })).settleEnds = true) ∧
    ((dSwitch 3 1440000000000 id).sloe.ageAt < (dSwitch 3 1440000000000 id).now ∧
      ((dSwitch 3 1440000000000 id).now - (dSwitch 3 1440000000000 id).sloe.ageAt) % 1440000000000 = 0 ∧
      ((dSwitch 3 1440000000000 id).bumpSat Reg.SLOE_STO_AGE 15 0).stoState = 3 ∧ (dSwitch 3 0 id).fld Reg.SLOE_STO_AGE 15 0 + 1 =
        ((dSwitch 3 1440000000000 id).bumpSat Reg.SLOE_STO_AGE 15 0).testMax ∧
      ((dSwitch 0 1440000000000 id).bumpSat Reg.SLOE_STO_AGE 15 0).stoState ≠ 3) := by
  decide +kernel

theorem test_witness_TorqueOffComplete_permit :
    ((dev []).Reaches .triad Reg.SLOE_TRESP ∧ (dev []).permitLate = false ∧
      fld 15 0 (word (65535 - (dev []).fld Reg.SLOE_TCHAL 15 0)) = 65535 - (dev []).fld Reg.SLOE_TCHAL 15 0 ∧
      fld 15 0 (word ((dev []).fld Reg.SLOE_TCHAL 15 0)) ≠ 65535 - (dev []).fld Reg.SLOE_TCHAL 15 0) ∧
    ((dSwitch 0x20000 400010 (fun x => { x with permitOk := true })).permitLate = true ∧
      (dSwitch 0x20000 400009 (fun x => { x with permitOk := true })).permitLate = false) ∧
    ((dev []).Reaches .triad Reg.SLOE_TREQ ∧ (0 : Word) &&& 0x30FFF = 0 ∧ ((dev []).setReg Reg.SLOE_TREQ 0).demandNow 10 = false ∧
      (0xFFFFFFFF : Word) &&& 0x30FFF ≠ 0) ∧
    (dFault.Reaches .host Reg.SLOE_FAULT ∧ dFault.ownsSession .host = true ∧ dFault.sloe.crcRun = false ∧ dFault.logFull = false ∧
      natBit 6 dFault.faults = true ∧ dFault.faultAbsent 6 = true ∧ dFault.faultNow 6 = false) := by
  decide +kernel

/-- SAFE unlocked with no session, and with the host's. -/
def dSafe (stat : Word) : Dev := open_ 0x92 [(Reg.SAFE_STAT, stat)]

/-- The device whose RESET clears the functions of that kind: EVT of a routed event pending, its demand standing or not. -/
def dRouted (f : Sloe → Sloe) : Dev :=
  let u := (((active [(Reg.evtRoute 0x20, 8)] ((dSafe 0).setReg (Reg.evtEn 0x20) 1)).raise 0x20 0).setKstate 0x92 0).modSloe f
    |>.safeResult 0x10 0 0
  each ((List.range 8).filter (fun k => 2 ≤ u.actFld (Reg.SAFE_FUNC_A k) 25 24 && u.clearable k && !u.demandNow k)) Dev.funcClear u

theorem test_witness_SafetySessionComplete :
    ((dSafe 0).Unlocked .host Reg.SAFE_CMD ∧ (dSafe 0).sloe.crcRun = false ∧ (dSafe 0).sessionOpen = false ∧ (dSafe 0).deviceOff = true ∧
      (dSafe 0).cstate ≠ 3 ∧ (dSafe 0).bit Reg.SAFE_STAT 11 = false ∧ (dSafe 0).sloe.pwIn = (dSafe 0).sloe.password.getD 0 ∧
      (dSafe 0).logFull = false) ∧
    ((dSafe 0).modSloe (fun x => { x with pwIn := 1 })).sloe.pwIn ≠ (dSafe 0).sloe.password.getD 0 ∧
    ((dSafe 0x300).Unlocked .host Reg.SAFE_CMD ∧ (dSafe 0x300).ownsSession .host = true ∧ (dSafe 0x300).logFull = false ∧
      ((dSafe 0x300).modSloe (fun x => { x with log := List.replicate 16 [] })).logFull = true) ∧
    (allPages.any (dRouted (fun x => { x with demandCyc := vset x.demandCyc 8 (some 0) })).routedToSloe = true ∧
      (dRouted (fun x => { x with demandCyc := vset x.demandCyc 8 (some 0) })).demandNow 8 = true) ∧
    ((dRouted id).demandNow 8 = false ∧ allPages.any ((dRouted id).setBit Reg.SLOE_DEMAND 8 false).routedToSloe = true) ∧
    (((dev []).modSloe (fun x => { x with sessAt := 0 })).sloe.sessAt + 240000000000 = (at_ 240000000000 (dSafe 0x300)).now ∧
      (at_ 240000000000 (dSafe 0x300)).sessionOpen = true ∧ (dev []).sloe.pwLockAt + 24000000000 = (at_ 24000000000 (dev [])).now) ∧
    ((dev []).Reaches .medlar Reg.SAFE_LOG_ACK ∧ ((dev []).modSloe (fun x => { x with log := [[1, 0, 0, 0]] })).sloe.log = [[1, 0, 0, 0]] ∧
      wordIn [1, 0, 0, 0] 0 = 1 ∧ (dev []).Reaches .host Reg.SAFE_LOG_ACK) := by
  decide +kernel

/-- A running safety CRC at its last instant, with an expected value; and the same as it ends. -/
def dCrc (exp : Word) : Dev :=
  at_ 4000 (({ dev [] with regs := [(Reg.SAFE_SCRC_EXP, exp)] } : Dev).modSloe (fun x => { x with crcRun := true }))
def dCrcEnd (exp : Word) : Dev := (dCrc exp).modSloe (fun x => { x with crcRun := false })

/-- The safety CRC does not cover the expected value, so some expected value is the right one, and another is not. -/
theorem dCrcEnd_crc (exp : Word) : (dCrcEnd exp).safetyCrc = (dCrcEnd 0).safetyCrc := by
  have h : Reg.SAFE_SCRC_EXP ∉ safetyKeys := by decide +kernel
  refine congrArg crc32cWords (List.map_congr_left fun k hk => congrArg (· &&& safetyMask k) ?_)
  have hne : Reg.SAFE_SCRC_EXP ≠ k := fun e => h (e ▸ hk)
  simp [Dev.reg, dCrcEnd, dCrc, at_, Dev.modSloe, lookup, hne]

theorem test_witness_SafetySessionComplete_crc :
    ((dCrc 0).sloe.crcRun = true ∧ (dCrc 0).now ≤ (dCrc 0).sloe.crcAt + 4000) ∧
    (∃ e, (Dev.safetyCommit ((dCrcEnd e).reg Reg.SAFE_SCRC_EXP) (dCrcEnd e).safetyCrc 2 2 3 3 (dCrcEnd e)).1 = true) ∧
    ∃ e, (Dev.safetyCommit ((dCrcEnd e).reg Reg.SAFE_SCRC_EXP) (dCrcEnd e).safetyCrc 2 2 3 3 (dCrcEnd e)).1 = false := by
  have h1 : (dCrcEnd (dCrcEnd 0).safetyCrc).firstOffence = none := by decide +kernel
  have h2 : (dCrcEnd ((dCrcEnd 0).safetyCrc + 1)).firstOffence = none := by decide +kernel
  refine ⟨by decide +kernel, ⟨(dCrcEnd 0).safetyCrc, ?_⟩, ⟨(dCrcEnd 0).safetyCrc + 1, ?_⟩⟩
  · have he : (dCrcEnd (dCrcEnd 0).safetyCrc).safetyCrc = (dCrcEnd (dCrcEnd 0).safetyCrc).reg Reg.SAFE_SCRC_EXP := dCrcEnd_crc _
    simp only [Dev.safetyCommit, h1, he, if_true]
  · have he : (dCrcEnd ((dCrcEnd 0).safetyCrc + 1)).safetyCrc ≠ (dCrcEnd ((dCrcEnd 0).safetyCrc + 1)).reg Reg.SAFE_SCRC_EXP := by
      rw [dCrcEnd_crc]
      show (dCrcEnd 0).safetyCrc ≠ (dCrcEnd 0).safetyCrc + 1
      generalize (dCrcEnd 0).safetyCrc = x
      bv_omega
    simp only [Dev.safetyCommit, h2, if_neg he]

/-- Controller 3 with a good bit timing, enabled, in mode `mode` and state `st`. -/
def bus (mode st : Word) (f : CanCtl → CanCtl) (ws : List (Nat × Word)) : Dev :=
  (dev ([(Reg.MB_CTRL 3, mode <<< 16 ||| 1), (Reg.MB_STAT 3, st <<< 4), (Reg.MB_NBT 3, 0x4E <<< 10),
    (Reg.MB_BUF_CFG 3 63, 0x40000000)] ++ ws)).modCtl 3 f

/-- A controller that receives. -/
def hears (mode : Word) (f : CanCtl → CanCtl) (ws : List (Nat × Word)) : Dev := bus mode 2 f ((Reg.MB_STAT 3, 0x24) :: ws)

theorem test_witness_BusModesComplete :
    ((bus 0 0 id []).Reaches .host (Reg.MB_CTRL 3) ∧ (bus 0 0 id []).bit (Reg.MB_CTRL 3) 1 = false ∧ (bus 0 0 id []).canMode 3 = 0 ∧
      (bus 0 0 id []).canCfgBad 3 = false ∧ (bus 0 0 id []).canTec 3 ≤ 255 ∧ (bus 0 0 id [(Reg.MB_NBT 3, 0)]).canCfgBad 3 = true) ∧
    ((bus 1 2 id []).canMode 3 ≠ 0 ∧ ((bus 1 2 id []).ctl 3).sending = none ∧ (bus 1 2 id []).receiving 3 = false ∧
      (hears 1 id []).receiving 3 = true ∧ (hears 1 id []).canState 3 = 2 ∧ (bus 1 3 id []).canState 3 = 3) ∧
    ((at_ (11 * (bus 1 1 id []).canBit 3) (bus 1 1 id [])).bitsPassed 3 ((bus 1 1 id []).ctl 3).since 11 = true ∧
      (bus 1 1 id []).canState 3 = 1 ∧ (bus 1 1 id []).bit (Reg.MB_CTRL 3) 0 = true ∧ (bus 1 1 id []).pageHeld 0x83 = false) ∧
    ((bus 1 4 id []).Reaches .host (Reg.MB_CMD 3) ∧ (bus 1 4 id []).canState 3 = 4 ∧ (bus 1 5 id []).canState 3 = 5 ∧
      (at_ (1408 * (bus 1 5 id []).canBit 3) (bus 1 5 id [])).bitsPassed 3 ((bus 1 5 id []).ctl 3).since 1408 = true) ∧
    ((bus 1 3 id []).canOnBus 3 = true ∧ (bus 2 2 id []).canOnBus 3 = true ∧ (bus 2 2 id []).canMode 3 = 2 ∧ (bus 1 3 id []).canMode 3 ≠ 2 ∧
      CanErrorCase.plain.detected = true ∧ CanErrorCase.arbStuff.detected = true ∧ CanErrorCase.afterFlag.detected = false) ∧
    ((at_ (400 * 2 ^ 32) (bus 1 2 id [])).tscWraps 3 = true ∧ (at_ (400 * 2 ^ 32 - 1) (bus 1 2 id [])).tscWraps 3 = false) := by
  decide +kernel

/-- Buffer 63 receives what filter 31 names; buffer 62 sends. -/
def rxSettings : List (Nat × Word) :=
  [(Reg.MB_FLT_ID 3 31, 0x80000000), (Reg.MB_FLT_MASK 3 31, 0xFC000000), (Reg.MB_BUF_CFG 3 62, 0x80000000)]
def dBufs : Dev := bus 2 2 id rxSettings

/-- A frame of identifier 0 is being received, with buffer 63, another generation of it, or no target. -/
def dHead (t : Option CanTarget) : Dev := hears 2 (fun c => { c with rxHead := some { ide := false, id := 0, target := t } }) rxSettings

/-- On the bus in NORMAL, with the request of buffer 62 pending, and with its frame going out. -/
def dTx : Dev := bus 1 2 id [(Reg.MB_BUF_CFG 3 62, 0x80000000), (Reg.MB_TXREQ1 3, 0x40000000)]
def dSends : Dev := bus 1 2 (fun c => { c with sending := some 62 }) [(Reg.MB_BUF_CFG 3 62, 0x80000000), (Reg.MB_TXREQ1 3, 0x40000000)]

theorem test_witness_BusBuffersComplete_receive :
    (dBufs.canOnBus 3 = true ∧ dBufs.canMode 3 ≠ 3 ∧ dBufs.receiving 3 = false ∧ (dBufs.ctl 3).sending = none) ∧
    ((hears 2 id rxSettings).canOnBus 3 = true ∧ (hears 2 id rxSettings).receiving 3 = true ∧ ((hears 2 id rxSettings).ctl 3).rxHead = none ∧
      (hears 2 id rxSettings).decideTarget 3 {} = some { buf := 63, gen := 0 }) ∧
    (((dHead (some { buf := 63, gen := 0 })).ctl 3).rxHead = some { ide := false, id := 0, target := some { buf := 63, gen := 0 } } ∧
      (dHead (some { buf := 63, gen := 0 })).canMode 3 = 2 ∧ (Fin.ofNat 65 63) = 63 ∧ (dHead none).targetGen 3 63 = (0 : BitVec 8).toNat ∧
      (dHead none).rxFull 3 63 = false ∧ (dHead none).resetCommand 3 {} = false ∧ (dHead none).targetGen 3 63 ≠ (255 : BitVec 8).toNat ∧
      ((dHead (some { buf := 63, gen := 255 })).ctl 3).rxHead = some { ide := false, id := 0, target := some { buf := 63, gen := 255 } }) ∧
    ((dHead none).ctl 3).rxHead = some { ide := false, id := 0, target := none } ∧
    ((dHead none).setReg (Reg.MB_RCMD_CFG 3) 0x80000000).resetCommand 3 { dlc := 8, data := List.replicate 8 0 } = true := by
  decide +kernel

theorem test_witness_BusBuffersComplete :
    ((dev []).Reaches .host (releaseKey 3 1) ∧ dBufs.mayUseBuf .host 3 63 = true) ∧
    (dBufs.Reaches .host (pairKey (Reg.MB_TXREQ0 3) (Reg.MB_TXREQ1 3) 32) ∧ dBufs.bufRole 3 62 = 2 ∧ dBufs.txPending 3 62 = false) ∧
    (dTx.Reaches .host (pairKey (Reg.MB_TXABT0 3) (Reg.MB_TXABT1 3) 32) ∧ dTx.txPending 3 62 = true ∧ dTx.isSending 3 62 = false ∧
      dSends.isSending 3 62 = true) ∧
    (dTx.canOnBus 3 = true ∧ dTx.canMode 3 ≠ 2 ∧ dTx.canFree 3 = true ∧ dTx.txSelect 3 = some 62) ∧
    ((dSends.ctl 3).sending = some 62 ∧ dSends.canMode 3 = 1 ∧ (dSends.txFrame 3 62).fdf = false ∧ dSends.txAborting 3 62 = false ∧
      vget none (dSends.ctl 3).held 62 = none ∧ dSends.bufBit 3 62 28 = false ∧
      dSends.canTec 3 = 0 ∧ dSends.canRec 3 < 128 ∧ dSends.canState 3 = 2) ∧
    (dBufs.Reaches .host (Reg.MB_BUF_CFG 3 63) ∧ dBufs.bufBit 3 63 29 = false ∧ dBufs.bufRole 3 63 ≠ 2) ∧
    (dBufs.Reaches .host (Reg.MB_FLT_ID 3 31) ∧ dBufs.mayUseBuf .host 3 (dBufs.fld (Reg.MB_FLT_MASK 3 31) 31 26) = true ∧
      (0xA0000000 : Word) &&& 0xDFFFFFFF = dBufs.reg (Reg.MB_FLT_ID 3 31) ∧ (0 : Word) &&& 0xDFFFFFFF ≠ dBufs.reg (Reg.MB_FLT_ID 3 31)) ∧
    ((dev []).Reaches .host (winKey 3 0 0) ∧ (dev []).Reaches .medlar (winKey 3 1 0)) := by
  decide +kernel

/-- Check-value unit 3 enabled, with `ws`. -/
def crc3 (ws : List (Nat × Word)) : Dev := dev ((Reg.CRC_CTRL 3, 1) :: ws)

theorem test_witness_CheckUnitsComplete :
    ((crc3 []).crcBarred .host 3 = false ∧ (crc3 []).Reaches .host (Reg.CRC_CMD 3) ∧ (crc3 []).crcOn 3 = true ∧
      (crc3 []).crcBusy 3 = false ∧ (crc3 [(Reg.CRC_LEN 3, 0xFFFFFF)]).fld (Reg.CRC_LEN 3) 23 0 ≠ 0 ∧ (crc3 []).fld (Reg.CRC_LEN 3) 23 0 = 0) ∧
    ((crc3 [(Reg.CRC_STAT 3, 1)]).crcBusy 3 = true ∧ (crc3 []).pageHeld 0x8B = false ∧
      (crc3 [(Reg.CRC_LEN 3, 4), (Reg.CRC_SRC 3, 0x101FFFFC)]).crcReadable 3 = 4 ∧
      (crc3 [(Reg.CRC_LEN 3, 4), (Reg.CRC_SRC 3, 0x101FFFFD)]).crcReadable 3 = 3 ∧ regionOf (0x101FFFFD + 3) = .unmapped) ∧
    ((crc3 []).Reaches .host (Reg.CRC_DIN 3) ∧ (crc3 []).Reaches .host (Reg.CRC_DIN_B 3) ∧ (crc3 []).Reaches .host (Reg.CRC_RUN 3) ∧
      (dev []).crcOn 3 = false) ∧
    ((crc3 []).Reaches .host (Reg.CRC_CLAIM 3) ∧ (crc3 []).bit (Reg.CRC_CLAIM 3) 0 = false ∧
      (crc3 [(Reg.CRC_CLAIM 3, 1)]).bit (Reg.CRC_CLAIM 3) 0 = true ∧ (crc3 [(Reg.CRC_CLAIM 3, place 15 8 (masterCode .host) ||| 1)]).crcBarred .host 3 = false) := by
  decide +kernel

/-- Medlar runs, the DRAM is ready, and capture is in mode 2. -/
def dDram : Dev := dMedlar [(Reg.DRAM_STAT, 3), (Reg.DRAM_CAP_CTRL, 2), (Reg.DRAM_CAP_POST, 1)]

theorem test_witness_CaptureAndScrubComplete :
    ((Dev.putCapture { fifo := [[1]] } dDram).capture.fifo = [[1]] ∧ dDram.capMode ≠ 0 ∧ dDram.bit Reg.DRAM_STAT 8 = false ∧
      dDram.dramReady = true ∧ dDram.capture.postLeft = none) ∧
    (dDram.Reaches .host Reg.DRAM_CAP_CMD ∧ dDram.fld Reg.DRAM_CAP_CTRL 1 0 = 2 ∧ (dDram.setReg Reg.DRAM_CAP_TRIG_PTR 0xFFFFFFFF).reg
      Reg.DRAM_CAP_TRIG_PTR = 0xFFFFFFFF ∧ dDram.fld Reg.DRAM_CAP_POST 23 0 ≠ 0) ∧
    (dDram.medlarUp = true ∧ (pageKind? 0xA9).isSome = true ∧
      (((dDram.setReg (Reg.evtEn 0xA9) 1).setReg (Reg.evtRoute 0xA9) 2).raise 0xA9 0).pendMedlar 0xA9 &&& ~~~ dDram.recordedBits 0xA9 ≠ 0 ∧
      (Dev.putMgmt { states := [5, 0] } dDram).mgmt.states = [5, 0] ∧ (Dev.putMgmt { states := [5, 0] } dDram).medlarUp = true ∧
      (Dev.putMgmt { startDue := true } dDram).mgmt.startDue = true ∧ (Dev.putMgmt { startDue := true } dDram).dramReady = true) ∧
    (dDram.pageHeld 0xA1 = false ∧ dDram.mgmt.sramAt ≤ dDram.now ∧
      dDram.mgmt.sramAt + 400000000 < (at_ 400000001 dDram).now) ∧
    (dDram.mgmt.dramPassAt ≤ dDram.now ∧ (at_ 24000000000 dDram).now ≤ dDram.mgmt.dramPassAt + 24000000000 ∧
      (Dev.putMgmt { dDram.mgmt with dramPassAt := nextInterval 0 dramPeriod 0 } dDram).dramReady = true ∧
      (at_ 24000000001 (dMedlar [])).dramReady = false) := by
  decide +kernel

/-- Medlar runs with the default service, its first telemetry period begun. -/
def dTele (n : Nat) : Dev := at_ n (Dev.putMgmt { service := some {} } (dMedlar []))

theorem test_witness_MedlarServicesComplete :
    ((dMedlar []).medlarUp = true ∧ (dMedlar []).mgmt.compactAt = none ∧ (dMedlar []).bit Reg.MGT_JOURNAL_STAT 30 = false ∧
      (at_ 4000000000 (Dev.putMgmt { compactAt := some 0 } (dMedlar []))).medlarUp = true) ∧
    (((dMedlar []).modSloe (fun x => { x with log := [[1]] })).sloe.log = [[1]] ∧
      (Dev.journalAppend 1 [1] (dMedlar [])).Reaches .medlar Reg.SAFE_LOG_ACK) ∧
    ((dTele 0).mgmt.service = some {} ∧ (dTele 0).medlarUp = true ∧ (dTele 0).mgmt.teleAt ≤ (dTele 0).now ∧
      (dTele 0).now ≤ (dTele 0).mgmt.teleAt + (dTele 0).telePeriod ∧
      (dTele 4000000001).mgmt.teleAt + (dTele 4000000001).telePeriod < (dTele 4000000001).now) ∧
    ((dMedlar []).Reaches .host Reg.MGT_MBX_CMD ∧ (dMedlar []).bit Reg.MGT_MBX_STAT 0 = false) := by
  decide +kernel

/-- The host port at tick 2, with `k` words queued. -/
def dPort (k : Nat) : Dev := at_ 2 (Dev.putHost { queue := List.replicate k (0x10000000, 5) } (dev []))

theorem test_witness_HostFramesComplete :
    ((dPort 0).hostTakes 4 = true ∧ (dPort 0).hostTakes 5 = false ∧ (Dev.hostDrain (dPort 0).host.queue.length (dPort 0)).hostUp = true) ∧
    ((dPort 63).hostTakes 0 = true ∧ (dPort 63).host.queue.length + [(0 : Word)].length ≤ 64 ∧
      64 < (dPort 64).host.queue.length + [(0 : Word)].length) ∧
    (hostCrc 3 0 0 [] + 1 ≠ hostCrc 3 0 0 [] ∧ hostCrc 0x10 0 0 [] + 1 ≠ hostCrc 0x10 0 0 [] ∧ hostCrc 2 0 0 [0] + 1 ≠ hostCrc 2 0 0 [0]) ∧
    (dPort 1).host.queue = [(0x10000000, 5)] ∧ reachOfWord 0x52530001 = some .plane ∧ reachOfWord 0 = none := by
  decide +kernel

/-- Both ports up, Medlar running with every service. -/
def dNet : Dev :=
  Dev.putMgmt { service := some x } (dMedlar [(Reg.ETH_CTRL 0, 1), (Reg.ETH_STAT 0, 1), (Reg.ETH_CTRL 1, 1), (Reg.ETH_STAT 1, 1)])
  where x : Service := { permitted := [1, 2, 3, 4], modbus := true, modbusLe := 11, ptpPort := some 1, channels := [(11, 11)] }

/-- The same with a request answered, the latest. -/
def dAnswered : Dev := Dev.putNet { last := some { peer := { ip := 4, port := 0 }, seq := 9, reply := [] } } dNet

/-- The same after `c` frames of the second 0 at port 1. -/
def dBusy (c : Nat) : Dev := Dev.putNet { taken := vset dNet.net.taken 1 (0, c) } dNet

theorem test_witness_EthernetComplete :
    (dNet.portUp 1 = true ∧ (dNet.ethTake 1).1 = true ∧ ((dBusy 19999).ethTake 1).1 = true ∧ (dNet.ethTake 1).2.medlarUp = true ∧
      (dNet.ethTake 1).2.permitsSource 4 = true ∧ (dNet.ethTake 1).2.permitsSource 5 = false ∧ (dNet.ethTake 1).2.net.last = none) ∧
    ((each (hostEntries 0x10000000 [5]) (fun e d => if d.medlarUp then Dev.busWrite .medlar e.1 4 e.2 d else d) (dNet.ethTake 1).2).portUp 1 =
        true ∧
      (each (hostEntries 0x10000000 [5]) (fun e d => if d.medlarUp then Dev.busWrite .medlar e.1 4 e.2 d else d) (dNet.ethTake 1).2).medlarUp =
        true) ∧
    reachOfWord 0x52530002 = some .warm ∧
    ((dAnswered.ethTake 1).1 = true ∧
      (dAnswered.ethTake 1).2.net.last = some { peer := { ip := 4, port := 0 }, seq := 9, reply := [] }) ∧
    ((dBusy 20000).portUp 1 = true ∧ vget (0, 0) (dBusy 20000).net.taken 1 = ((dBusy 20000).now / 400000000, 20000)) ∧
    (dNet.pageHeld 0x9B = false ∧ dNet.bit (Reg.ETH_STAT 1) 0 ≠ false) ∧
    (dNet.medlarUp = true ∧ dNet.mgmt.beaconAt = none ∧ 0 + 400000 * dNet.beaconMs ≤ (at_ 400000000 dNet).now) := by
  decide +kernel

theorem test_witness_TimeAndModbusComplete :
    (dNet.ptpSlave = true ∧ dNet.pageHeld 5 = false) ∧
    ((Dev.putLoader { goodSet := some [] } dNet).loader.goodSet = some [] ∧ (Dev.putNet { offset := some (-1000) } dNet).net.offset = some (-1000) ∧
      dNet.servoReady = true) ∧
    ((dev []).mayAccess .host false 0x40005040 = true ∧ (dev []).mayAccess (.crc 3) false 0x40005040 = false) ∧
    (dNet.modbusOn = true ∧ (125 : BitVec 16) ≠ 0 ∧ (3 : BitVec 16).toNat + (125 : BitVec 16).toNat ≤ 128 ∧
      128 < (4 : BitVec 16).toNat + (125 : BitVec 16).toNat ∧ (0x1000 : BitVec 16).toNat + (16 : BitVec 16).toNat ≤ 0x1010) ∧
    (dNet.bit (Reg.LE_MBX_STAT dNet.modbusEngine) 0 = false ∧
      (dNet.setReg (Reg.LE_MBX_STAT dNet.modbusEngine) 1).bit (Reg.LE_MBX_STAT dNet.modbusEngine) 0 = true) := by
  decide +kernel

/-- The same stopped by NMT. -/
def dStopped : Dev := Dev.putCanopen { nmt := 4 } dNet

theorem test_witness_CanOpenComplete :
    (dNet.medlarUp = true ∧ dNet.mgmt.beatAt = none ∧ 0 + 400000 * dNet.beatMs ≤ (at_ 400000000 dNet).now ∧ dNet.mgmt.rejoin = false) ∧
    (dNet.canopen.nmt ≠ 4 ∧ dNet.channel 0 = some (11, 11) ∧ dNet.channel 7 = none ∧ dNet.bit (Reg.LE_MBX_STAT 11) 0 = false ∧
      (dNet.setReg (Reg.LE_MBX_STAT 11) 1).bit (Reg.LE_MBX_STAT 11) 0 = true) ∧
    (dStopped.medlarUp = true ∧ dStopped.canopen.nmt = 4) := by
  decide +kernel

/-! ### The conditions of the rules -/

/-- A narrow write, a held page, an address that the table bars, and one of no region. -/
theorem test_witness_RefusedAccessesAreLogged :
    (regionOf 0x40020000 = .page 0x20 0 ∧ (dev []).pageHeld 0x20 = false ∧ (dev []).mayWrite .triad 0x20 0 = false) ∧
    (Dev.putReset { held := [0x20] } (dev [])).pageHeld 0x20 = true ∧
    (regionOf 0x30000000 = .unmapped ∧ (dev []).mayAccess .host true 0x30000000 = false ∧ (dev []).mayAccess .host false 0x30000000 = false) ∧
    (regionOf 0x400A9FFC = .page 0xA9 0xFFC ∧ (dev []).mayRead (.le 11) 0xA9 0xFFC = false ∧ (dev []).pageHeld 0xA9 = false) := by
  decide +kernel

theorem test_witness_LockedPagesRefuseKeyedWrites :
    (regionOf 0x40003044 = .page 3 0x44 ∧ (dev []).Reaches .host (3 * 0x1000 + 0x44) ∧ keyedWrite (3 * 0x1000 + 0x44) 1 = true ∧
      (dev []).kstate 3 ≠ 2) ∧
    (regionOf 0x4000301C = .page 3 0x1C ∧ (dev []).Reaches .host (3 * 0x1000 + 0x1C) ∧ (dev []).kstate 3 = 0 ∧
      (0 : Word) ≠ word (0x5A000000 + 3)) ∧
    ((dev [(Reg.key 3, 1)]).kstate 3 = 1 ∧ (0 : Word) ≠ word (0xA5000000 + 3)) := by
  decide +kernel

theorem test_witness_VZeroReadsZero :
    CanRun dFrame 0x01 .dabi { a := 63, b := 63, m := 1, imm := 1 } ∧
    (Instr.fadd 11 { a := 63, b := 63, m := 1, imm := 1 }, 0x01, Form.dabi) ∈ instructionForms 11 { a := 63, b := 63, m := 1, imm := 1 } := by
  decide +kernel

/-- NOP with a destination, FADD with C, SINCOS with two results from V63, and a word that cannot be corrected. -/
theorem test_witness_InstructionFormFaults :
    ((placed dFrame 0x00 { d := 1 }).canIssue 11 = true ∧ (placed dFrame 0x00 { d := 1 }).insnAt 11 = insnOf 0x00 { d := 1 } ∧
      Form.ok {} { d := 1 } = false ∧ (Instr.nop 11 { d := 1 }, 0x00, ({} : Form)) ∈ instructionForms 11 { d := 1 }) ∧
    (Form.dabi.ok { c := 1 } = false ∧ (placed dFrame 0x01 { c := 1 }).insnAt 11 = insnOf 0x01 { c := 1 }) ∧
    ((placed dFrame 0x2A { d := 63 }).insnAt 11 = insnOf 0x2A { d := 63 } ∧ Form.ok { d := true, a := true, outs := 2 } { d := 63 } = true ∧
      64 < (63 : Fin 64).val + 2) ∧
    (dFrame.canIssue 11 = true ∧ ({ fetch := .uncorrectable } : EngFields).fetch = .uncorrectable) := by
  decide +kernel

theorem test_witness_InstructionWordsRoundTrip :
    (0xFFFFFFFFFFFFFFFF : Nat) < 2 ^ 64 ∧ dFrame.pc 11 = 4095 ∧ dFrame.pc 11 < 4096 := by
  decide +kernel

/-- An odd word, a pair on half its alignment, and a pair outside the engine's own memory. -/
theorem test_witness_MisalignedAccessFaults :
    CanRun (dAt 0x1FFFE) 0x18 { d := true, a := true, imm := allImm, mMax := 1, outs := 1 } { d := 63, a := 1 } ∧
    CanRun (dAt 0x18B00004) 0x19 { a := true, b := true, imm := allImm, mMax := 1 } { a := 1, m := 1 } ∧
    (((dAt 2).v 11 1 + 0).toNat % 4 ≠ 0) ∧ (((dAt 0x18B00004).v 11 1 + 0).toNat % 8 ≠ 0) ∧
    (((dAt 0x10000000).v 11 1 + 0).toNat < 0x18000000 + 11 * 0x100000) ∧
    (0x18000000 + 11 * 0x100000 + 0x20000 ≤ ((dAt 0x18B20000).v 11 1 + 0).toNat) := by
  decide +kernel

theorem test_witness_EngineEnableHeldWhileRunning :
    (0x4001B004 : BitVec 32).toNat = 0x40010004 + 11 * 0x1000 ∧ (dev []).Reaches .host (Reg.LE_CTRL 11) ∧ bitAt 0 0 = false ∧ bitAt 1 0 = false ∧
    ((dev []).estate 11 = 0 ∧ (eng 11 5 id).estate 11 = 5 ∧ (eng 11 4 id).estate 11 = 4) := by
  decide +kernel

theorem test_witness_CausesLatchInEveryState :
    tripFixed 14 = true ∧ (dev [(Reg.PG_TRIP_EN 11, 2)]).bit (Reg.PG_TRIP_EN 11) 1 = true ∧ (dev []).latched 11 = false ∧
    (dev []).gstate 11 = 0 ∧ (dRun 0 1).gstate 11 = 2 := by
  decide +kernel

/-- A leg with its high switch on whose command is off, and one off for the dead time whose command is on. -/
theorem test_witness_SwitchesKeepDeadTime :
    ((dev []).modLeg 11 3 (fun l => { l with onH := true })).leg 11 3 = { onH := true } ∧ ((dev []).want 11 3).1 = false ∧
    ((dDriven.settleLegAt 11 (dDriven.deadTime 11) 3).leg 11 3).onH = true ∧ ((dDriven.settleLegAt 11 (dDriven.deadTime 11 - 1) 3).leg 11 3).onH = false ∧
    (dDriven.leg 11 3).onH = false ∧ (dDriven.leg 11 3).onL = false ∧ (dDriven.leg 11 3).offAt = some 0 := by
  decide +kernel

theorem test_witness_GroupStateChangesRaiseEvents :
    (∀ h : Fin 12, (dRun 0 1).gstate h.val ≤ 4) ∧ ((dRun 0 1).trip 7 11).gstate 11 ≠ (dRun 0 1).gstate 11 := by
  decide +kernel

/-- A forward edge at the last state, a backward one at the first, and A and B together. -/
theorem test_witness_EdgesMovePosition :
    ((pos7 [] id).filtered (Reg.PAD_GRP 7) 0 = true ∧ (pos7 [(Reg.PF_POS 7, 99)] id).pfUnit 7 (Reg.PF_ABZ_CFG 7) = true ∧ (pos7 [] id).fld (Reg.PF_ABZ_CFG 7) 23 0 = 100 ∧
      ((pos7 [(Reg.PF_POS 7, 99)] id).reg (Reg.PF_POS 7)).toNat = 100 - 1) ∧
    (true ≠ ((pos7 [] id).pf 7).a ∧ false = ((pos7 [] id).pf 7).b ∧ true = ((true != false) != (pos7 [] id).bit (Reg.PF_ABZ_CFG 7) 30)) ∧
    (((pos7 [] id).reg (Reg.PF_POS 7)).toNat = 0 ∧ false = ((false == true) != (pos7 [] id).bit (Reg.PF_ABZ_CFG 7) 30)) ∧
    (pos7 [(Reg.PF_ABZ_CFG 7, 0)] id).fld (Reg.PF_ABZ_CFG 7) 23 0 = 0 := by
  decide +kernel

/-- One copy differs in its data; no two agree. -/
theorem test_witness_StoreDisagreementAttributed :
    dTriad.triadRuns = true ∧
    (votedPart { data := 1 } = votedPart { data := 1 } ∧ votedPart { data := 2 } ≠ votedPart { data := 1 }) ∧
    (votedPart { data := 1 } ≠ votedPart { data := 2 } ∧ votedPart { data := 1 } ≠ votedPart { data := 3 } ∧
      votedPart { data := 2 } ≠ votedPart { data := 3 }) := by
  decide +kernel

theorem test_witness_WrongPasswordsLock :
    ((dSafe 0).Unlocked .host Reg.SAFE_CMD ∧ (dSafe 0).sloe.crcRun = false ∧ (dSafe 0).sessionOpen = false ∧ (dSafe 0).deviceOff = true ∧
      (dSafe 0).cstate ≠ 3 ∧ (dSafe 0).bit Reg.SAFE_STAT 11 = false) ∧
    ((dSafe 0).modSloe (fun x => { x with pwIn := 1 })).sloe.pwIn ≠ ((dSafe 0).modSloe (fun x => { x with pwIn := 1 })).sloe.password.getD 0 ∧
    (dSafe 0x800).bit Reg.SAFE_STAT 11 = true ∧ (dSafe 0).logFull = false ∧
    ((dSafe 0).modSloe (fun x => { x with log := List.replicate 16 [] })).logFull = true := by
  decide +kernel

theorem test_witness_TransmissionRequestsAreAccepted :
    dBufs.Reaches .host (pairKey (Reg.MB_TXREQ0 3) (Reg.MB_TXREQ1 3) 32) ∧
    (dBufs.bufRole 3 62 == 2 && dBufs.mayUseBuf .host 3 62 && !dBufs.txPending 3 62) = true ∧
    (dBufs.bufRole 3 63 == 2 && dBufs.mayUseBuf .host 3 63 && !dBufs.txPending 3 63) = false := by
  decide +kernel

theorem test_witness_DataWritesFeedBytes :
    (crc3 []).crcBarred .host 3 = false ∧ (crc3 []).Reaches .host (Reg.CRC_DIN 3) ∧ (crc3 []).Reaches .host (Reg.CRC_DIN_B 3) ∧
    (crc3 []).crcOn 3 = true ∧ (crc3 []).crcBusy 3 = false ∧ (dev []).crcOn 3 = false ∧ (crc3 [(Reg.CRC_STAT 3, 1)]).crcBusy 3 = true := by
  decide +kernel

theorem test_witness_PlaneResetLeavesControl :
    ((dev []).reset.episode = none ∧ (dev []).bit Reg.SLOE_STAT 16 = (dev []).runPermit ∧ (dev []).pageHeld 0x98 = false ∧
      (dev []).mgmt.wdtAt + 100000000 ≤ (at_ 100000000 (dev [])).now) ∧
    ((dPort 0).hostTakes 4 = true ∧ (dPort 0).reset.episode = none ∧ (dPort 0).bit Reg.SLOE_STAT 16 = (dPort 0).runPermit) := by
  decide +kernel

theorem test_witness_ArithmeticLeavesTheRest :
    CanRun dFrame 0x01 .dabi { d := 63, a := 1 } ∧ CanRun dFrame 0x21 { d := true, mMax := 1, outs := 1 } { d := 63, m := 1 } ∧
    (Instr.time 11 { d := 63, m := 1 }, 0x21, ({ d := true, mMax := 1, outs := 1 } : Form)) ∈ instructionForms 11 { d := 63, m := 1 } := by
  decide +kernel

theorem test_witness_StoresWriteTheirBytesAlone :
    CanRun (dAt 0x18B1FFF8) 0x19 { a := true, b := true, imm := allImm, mMax := 1 } { a := 1, b := 62, m := 1 } ∧
    misaligned 11 ((dAt 0x18B1FFF8).memAddr 11 { a := 1 }) 1 = false ∧ ownTcm 11 ((dAt 0x18B1FFF8).memAddr 11 { a := 1 }) = true ∧
    misaligned 11 ((dAt 0x10000000).memAddr 11 { a := 1 }) 0 = false ∧ ownTcm 11 ((dAt 0x10000000).memAddr 11 { a := 1 }) = false := by
  decide +kernel

/-- The last bytes of the memories. -/
theorem test_witness_MemoryWritesStoreTheirBytes :
    (regionOf 0x101FFFFF = .sram ∧ (dev []).mayAccess .host true 0x101FFFFF = true) ∧
    (regionOf 0x18B00000 = .leProg 11 ∨ regionOf 0x18B00000 = .leData 11) ∧ (dev []).mayAccess .host true 0x18B00000 = true ∧
    (regionOf 0x83FFFFFE = .dram ∧ (dev [(Reg.DRAM_STAT, 3)]).mayAccess .host true 0x83FFFFFE = true) := by
  decide +kernel

theorem test_witness_CommandsStayInTheirPage :
    (pageKind? 0).isSome = true ∧ (pageKind? 0xA9).isSome = true ∧ Instr.tsWrap 3 ∈ [Instr.recovered 3, .tsWrap 3] ∧
    (crc3 [(Reg.CRC_LEN 3, 4), (Reg.CRC_SRC 3, 0x10000000)]).crcReadable 3 = (crc3 [(Reg.CRC_LEN 3, 4)]).fld (Reg.CRC_LEN 3) 23 0 := by
  decide +kernel

/-- A leg whose latest change has moved its pin to unit 40. -/
def dMoved : Dev := (dev []).modLeg 11 3 (fun l => { l with hist := [{ at_ := 32, pin := 40, h := true, l := false }] })

theorem test_witness_BallsShowTheState :
    ((dev []).bankOn 0 = true ∧ (dev []).coldHeld = false ∧ (dev []).laneGroup 11 = false) ∧
    (Dev.putSupplies { (dev []).supplies with vdd := false } (dev [])).bankOn 0 = false ∧
    (Dev.putReset { (dev []).reset with episode := some .cold } (dev [])).coldHeld = true ∧
    ((at_ 800 (dSync true)).bit Reg.PWMSYS_SYNC_OUT 31 = true ∧ (at_ 800 (dSync true)).bankOn 0 = true ∧
      (at_ 800 (dSync true)).coldHeld = false ∧ (at_ 800 (dSync true)).fld Reg.PWMSYS_SYNC_OUT 19 16 = 0 ∧
      (at_ 800 (dSync true)).fld Reg.PWMSYS_SYNC_OUT 7 0 = 0 ∧ (at_ 800 (dSync true)).nextStart 0 = some (800, 800)) ∧
    ((dMoved.leg 11 3).hist.head? = some { at_ := 32, pin := 40, h := true, l := false } ∧ (dMoved.leg 11 3).onH ≠ true ∧
      (40 : Int) ≤ 40) := by
  decide +kernel

theorem test_witness_StepRunsTheFrontCommand :
    ({ pending := [Instr.beacon] } : State).pending = Instr.beacon :: [] ∧ State.reset.pending = [] := by
  decide +kernel

/-- A safe state that steps: no register written, no command waiting. -/
theorem test_witness_StepKeepsSafe : ({} : State).Safe ∧ ∃ t, step {} = .next t :=
  ⟨⟨⟨by decide +kernel, by decide +kernel, by decide +kernel⟩, fun g => noShoot_fresh g⟩, _, rfl⟩

/-- A fuse that has burned. -/
theorem test_witness_EveryCommandAnswers :
    ({ sigRequired := true, keyHash := some 1 } : Fuses).sigRequired = true ∧ ({ sigRequired := true, keyHash := some 1 } : Fuses).keyHash = some 1 := by
  decide +kernel

/-! ### Ill-formed commands that WellFormed refuses -/

/-- A half-word at an odd address; the last word of a page. -/
theorem test_wf_access : (Instr.registerWrite .host 0x10000001 2 0 false).wellFormed = false ∧ (Instr.registerWrite .host 0x10000000 3 0 false).wellFormed = false ∧
    (Instr.registerWrite .host 0x40000FFC 4 0 true).wellFormed = true := by
  decide +kernel

/-- Pages that the address map leaves out, 0x0F among them (R56). -/
theorem test_wf_pages : (Instr.keyWrite .host 0x0F 0).wellFormed = false ∧ (Instr.keyWindowExpiry 0x0F).wellFormed = false ∧
    (Instr.unlockTimeout 0x0F).wellFormed = false ∧ (Instr.eventDelivery 0x0F 0).wellFormed = false ∧
    (Instr.srst .host 0x0F).wellFormed = false ∧ (Instr.blockResetRelease 0x0F).wellFormed = false ∧
    (Instr.keyWrite .host 0x1B 0).wellFormed = true := by
  decide +kernel

/-- A shadow of a page outside the map, off a word, and in the shadow half itself. -/
theorem test_wf_shadow : (Instr.shadowWrite .host 0x0F 0 0).wellFormed = false ∧ (Instr.shadowWrite .host 0x20 2 0).wellFormed = false ∧
    (Instr.shadowWrite .host 0x20 0x800 0).wellFormed = false ∧ (Instr.shadowWrite .host 0x20 0x7FC 0).wellFormed = true := by
  decide +kernel

theorem test_wf_boot : (Instr.hostBootGo .host 0x400001 true).wellFormed = false := by decide +kernel

/-- A mode field that is another unit's (R179, R247). -/
theorem test_wf_modes : (Instr.xfmClarke 0 { m := 1 }).wellFormed = false ∧ (Instr.xfmPark 0 {}).wellFormed = false ∧
    (Instr.xfmInversePark 0 {}).wellFormed = false ∧ (Instr.xfmInverseClarke 0 {}).wellFormed = false ∧
    (Instr.limScalar 0 { m := 1 }).wellFormed = false ∧ (Instr.limCircle 0 {}).wellFormed = false ∧
    (Instr.svmSvpwm 0 { m := 1 }).wellFormed = false ∧ (Instr.svmSinusoidal 0 {}).wellFormed = false ∧
    (Instr.svmThreeLevel 0 {}).wellFormed = false ∧ (Instr.svmDiscontinuous 0 {}).wellFormed = false := by
  decide +kernel

/-- An opcode of the table is no illegal opcode (R177). -/
theorem test_wf_opcode : (Instr.illegalOpcode 0 0x35 .ok).wellFormed = false ∧ (Instr.illegalOpcode 0 0x36 .ok).wellFormed = true := by
  decide +kernel

theorem test_wf_ping : (Instr.pingReplyReceive 0 [] 0).wellFormed = false := by decide +kernel

/-- Past the end of the triad's memory, and off a word. -/
theorem test_wf_tcm : (Instr.triadTcmAccess 0 0x20040000 4 none 0).wellFormed = false ∧
    (Instr.triadTcmAccess 0 0x20000002 4 none 0).wellFormed = false := by
  decide +kernel

theorem test_wf_rws : (Instr.rwsWrite .host 0x10000000 0).wellFormed = false := by decide +kernel

/-- Fewer bytes than the DLC says; a remote frame in CAN FD. -/
theorem test_wf_can : (Instr.canFrameReceive 0 .valid { dlc := 1 }).wellFormed = false ∧
    (Instr.canFrameReceive 0 .valid { fdf := true, rtr := true }).wellFormed = false := by
  decide +kernel

theorem test_wf_lengths : (Instr.spiWrite 0 0 [] 0).wellFormed = false ∧
    (Instr.ethWrite 0 { ip := 0, port := 0 } 0 0 0 [0, 0]).wellFormed = false ∧
    (Instr.modbusWriteMultiple 0 (List.replicate 124 0)).wellFormed = false := by
  decide +kernel

/-! ### Results that the spec states -/

/-- The device after one command. -/
def after (c : Instr) (d : Dev) : Dev :=
  match exec c { dev := d } with
  | .next t => t.dev
  | _ => d

/-- The digits 1 to 9 in ASCII. -/
def digits : List Byte := [0x31, 0x32, 0x33, 0x34, 0x35, 0x36, 0x37, 0x38, 0x39]

/-- The check values of the four presets (R588), and that of the link's CRC (R337). -/
theorem test_crc_presets : crcOf crc32Params digits = 0xCBF43926 ∧ crcOf crc32cParams digits = 0xE3069283 ∧
    crcOf crc16Params digits = 0x29B1 ∧ crcOf crc8Params digits = 0xDF ∧ crcByte8 digits = 0xDF := by
  decide +kernel

/-- The frame of the worked example of chapter 10. -/
theorem test_edge_frame : (edgeFrame 7 [{ leg := 0, kind := 0, carrier := 32 * 1016000 }, { leg := 1, kind := 1, carrier := 32 * 1016320 }]).take 9 =
    [0x07, 0x80, 0xF0, 0x2D, 0x40, 0xA8, 0xF0, 0x55, 0x40] := by
  decide +kernel

/-- The on-intervals of the worked example of chapter 8. -/
theorem test_on_intervals :
    let d := grp 0 [(Reg.PG_CTRL 0, 0x10001), (Reg.PG_CARRIER 0, 2), (Reg.PG_DUTY_ACT 0 0, 6710886), (Reg.PG_DUTY_ACT 0 1, 0x1000000)]
      (fun x => { x with running := true, carLen := 25000 })
    d.onInterval 0 0 = (240000, 560000) ∧ d.onInterval 0 1 = (0, 800000) := by
  decide +kernel

/-- The speed of step 7 of the worked example of chapter 12: 5 counts times 14.6484375 are 73.2421875 rpm. -/
theorem test_speed : (after (.speedWindowClose 1) ((dev [(Reg.PF_CTRL 1, 1), (Reg.PF_SPD_CFG 1, 0x80000000), (Reg.PF_SPD_SCALE 1, 0x416A6000),
    (Reg.PF_STAT 1, 3)]).modPf 1 (fun x => { x with count := { net := 5, fwd := true } }))).reg (Reg.PF_SPEED 1) = 0x42927C00 := by
  decide +kernel

/-- The instruction `op` runs on engine 11, which holds `x` in V1. -/
def ran (c : Instr) (op : Nat) (f : EngFields) (x : Word) : Dev := after c (placed (dAt x) op f)

/-- 1 + 2 = 3, and 3 into register 0 is discarded (R169). -/
theorem test_fadd : (ran (.fadd 11 { d := 5, a := 1, m := 1, imm := 0x40000000 }) 0x01 { d := 5, a := 1, m := 1, imm := 0x40000000 }
      0x3F800000).v 11 5 = 0x40400000 ∧
    (ran (.fadd 11 { d := 0, a := 1, m := 1, imm := 0x40000000 }) 0x01 { d := 0, a := 1, m := 1, imm := 0x40000000 } 0x3F800000).v 11 0 = 0 := by
  decide +kernel

/-- ICMP compares signed values (R176); IADD wraps. -/
theorem test_integer : (ran (.icmp 11 { d := 5, a := 1, c := 1, m := 1, imm := 1 }) 0x15 { d := 5, a := 1, c := 1, m := 1, imm := 1 }
      0xFFFFFFFF).v 11 5 = 1 ∧
    (ran (.iadd 11 { d := 5, a := 1, m := 1, imm := 2 }) 0x0F { d := 5, a := 1, m := 1, imm := 2 } 0xFFFFFFFF).v 11 5 = 1 := by
  decide +kernel

/-- The word of the first example of R176 (FMA V12, V3, V4, V12), bit by bit. -/
theorem test_instruction_word : encodeInsn (insnOf 0x04 { d := 12, a := 3, b := 4, c := 12 }) =
    0b000100_001100_000011_000100_001100_00_00000000000000000000000000000000 := by
  decide +kernel

/-- The two words of the key unlock a page (R61); a third word locks it. -/
theorem test_key : (after (.keyWrite .host 0x20 0xA5000020) (after (.keyWrite .host 0x20 0x5A000020) (dev []))).kstate 0x20 = 2 ∧
    (after (.keyWrite .host 0x20 0xA5000021) (after (.keyWrite .host 0x20 0x5A000020) (dev []))).kstate 0x20 = 0 := by
  decide +kernel

/-- A write of two bytes to a register is discarded, counted, and shows its master (R43, R79). -/
theorem test_narrow : let d := after (.registerWrite .host 0x40020024 2 0 false) (dev [])
    d.fld Reg.SYS_AERR_CNT 15 0 = 1 ∧ d.reg Reg.SYS_AERR_ADDR = 0x40020024 ∧ d.bit (Reg.evtRaw 0x20) 31 = true := by
  decide +kernel

/-- TRIP_NOW in RUN trips; in OFF it latches and the group stays OFF (R305). -/
theorem test_trip : (after (.tripNow .host 3) (dev [(Reg.PG_STAT 3, 2)])).gstate 3 = 4 ∧ (after (.tripNow .host 3) (dev [])).gstate 3 = 0 ∧
    (after (.tripNow .host 3) (dev [])).latched 3 = true := by
  decide +kernel

/-- Of three samples the median is delivered, by signed and by unsigned order (R496): all ones, 1 and 2, where memory holds 1. -/
theorem test_median :
    let x : Exchange := { differ := #v[0xFFFFFFFE, 0, 3] }
    let d := dTriad.setBytes 0x10000000 [1, 0, 0, 0]
    (after (.exchangeDelivery .medianSigned 0x10000000 4 x) d).triad.delivered = 1 ∧
      (after (.exchangeDelivery .medianUnsigned 0x10000000 4 x) d).triad.delivered = 2 := by
  decide +kernel

/-- Steps 1 and 4 of the worked example of chapter 16: success takes TEC from 250 to 249, a bit error of the next frame from there to bus off. -/
theorem test_can_errors :
    let d := after (.canTxEnd 2 .done 0) ((dev [(Reg.MB_CTRL 2, 0x10001), (Reg.MB_STAT 2, 0x30), (Reg.MB_ECNT 2, 250 * 0x10000),
      (Reg.MB_BUF_CFG 2 5, 0x80000000), (Reg.MB_TXREQ0 2, 0x20)]).modCtl 2 (fun c => { c with sending := some 5 }))
    d.canTec 2 = 249 ∧ d.txPending 2 5 = false ∧
      (after (.canBusError 2 .bit1 .plain false) (d.modCtl 2 (fun c => { c with sending := some 5 }))).canState 2 = 4 := by
  decide +kernel

/-- An edge at the last state wraps, and counts a turn (R423). -/
theorem test_wrap : let d := after (.abzEdge 7 true false 0) (pos7 [(Reg.PF_POS 7, 99)] id)
    d.reg (Reg.PF_POS 7) = 0 ∧ d.fld (Reg.PF_REV 7) 15 0 = 1 := by
  decide +kernel

/-- COLD wins where a write of SWRST sets both bits. -/
theorem test_swrst : (after (.swrstCold .host true) (open_ 0 [])).reset.episode = some .cold := by decide +kernel

end Sys2Proof.Tests
end

/-! SUPPORT. Refused accesses: the record that SYS keeps of them, and what a refusal leaves as it stands. -/

namespace Sys2Proof.Machine

/-! ### The record of access errors (R78) -/

/-- A master's code fits the field MASTER. -/
theorem masterCode_lt (m : Master) : masterCode m < 2 ^ 8 := by
  cases m with
  | le n => exact Nat.lt_trans n.isLt (by decide)
  | crc n => exact Nat.lt_trans (Nat.add_lt_add_left n.isLt 0x24) (by decide)
  | triad | medlar | host | loader | jtag => decide

/-- The bits of the word that SYS.AERR_INFO takes. -/
theorem bitAt_accessInfo (c i : Nat) (write : Bool) :
    bitAt i (bitMask 31 ||| place 15 8 c ||| place 0 0 (b2n write)) =
      (decide (i = 31) || (decide (8 ≤ i) && decide (i < 16) && c.testBit (i - 8)) || (decide (i = 0) && write)) := by
  have hw : (b2n write).testBit 0 = write := by cases write <;> rfl
  rw [bitAt, BitVec.getLsbD_or, BitVec.getLsbD_or, ← bitAt, ← bitAt, ← bitAt, bitAt_bitMask, bitAt_place, bitAt_place]
  by_cases h : i < 32
  · by_cases h0 : i = 0
    · subst h0
      simp [hw]
    · have hi : ¬ i < 1 := by omega
      have h8 : (i - 8 < 8) ↔ (i < 16) := by omega
      simp [h, h0, h8, eq_comm]
  · have h31 : i ≠ 31 := by omega
    have h0 : i ≠ 0 := by omega
    have h16 : ¬ i < 16 := by omega
    simp [h, h31, h0, h16]

/-- Its field MASTER. -/
theorem fld_accessInfo_master (m : Master) (write : Bool) :
    fld 15 8 (bitMask 31 ||| place 15 8 (masterCode m) ||| place 0 0 (b2n write)) = masterCode m := by
  apply Nat.eq_of_testBit_eq
  intro i
  rw [testBit_fld, bitAt_accessInfo]
  by_cases h : i < 8
  · have h16 : 8 + i < 16 := by omega
    have h31 : 8 + i ≠ 31 := by omega
    simp [h, h16, h31]
  · have hm : masterCode m < 2 ^ i := Nat.lt_of_lt_of_le (masterCode_lt m) (Nat.pow_le_pow_right (by decide) (by omega))
    simp [h, Nat.testBit_lt_two_pow hm]

/-- Every access error counts; the count saturates. -/
theorem Dev.fld_logAccess_count (m : Master) (a : Nat) (w : Bool) (d : Dev) :
    (d.logAccess m a w).fld Reg.SYS_AERR_CNT 15 0 = min 65535 (d.fld Reg.SYS_AERR_CNT 15 0 + 1) := by
  have hcnt : ∀ d' : Dev, d'.reg Reg.SYS_AERR_CNT = d.reg Reg.SYS_AERR_CNT →
      (d'.bumpSat Reg.SYS_AERR_CNT 15 0).fld Reg.SYS_AERR_CNT 15 0 = min 65535 (d.fld Reg.SYS_AERR_CNT 15 0 + 1) := by
    intro d' h
    unfold Dev.bumpSat Dev.addSat
    rw [Dev.fld_setFld_same (by decide) (by decide)]
    simp only [Dev.fld, h]
    omega
  unfold Dev.logAccess
  split
  · exact hcnt d rfl
  · exact hcnt _ (by rw [Dev.reg_setReg_ne (by decide), Dev.reg_setReg_ne (by decide)])

/-- The record holds the first access error: while it is VALID it stands. -/
theorem Dev.reg_logAccess_valid {m : Master} {a k : Nat} {w : Bool} {d : Dev} (hv : d.bit Reg.SYS_AERR_INFO 31 = true)
    (hk : k ≠ Reg.SYS_AERR_CNT) : (d.logAccess m a w).reg k = d.reg k := by
  unfold Dev.logAccess
  rw [if_pos hv, Dev.reg_bumpSat_ne hk]

/-- A record that is not VALID takes the address. -/
theorem Dev.reg_logAccess_addr {m : Master} {a : Nat} {w : Bool} {d : Dev} (hv : d.bit Reg.SYS_AERR_INFO 31 = false) :
    (d.logAccess m a w).reg Reg.SYS_AERR_ADDR = word a := by
  unfold Dev.logAccess
  rw [if_neg (by simp [hv]), Dev.reg_bumpSat_ne (by decide), Dev.reg_setReg_ne (by decide), Dev.reg_setReg_same]

/-- And the master and the direction. -/
theorem Dev.reg_logAccess_info {m : Master} {a : Nat} {w : Bool} {d : Dev} (hv : d.bit Reg.SYS_AERR_INFO 31 = false) :
    (d.logAccess m a w).reg Reg.SYS_AERR_INFO = bitMask 31 ||| place 15 8 (masterCode m) ||| place 0 0 (b2n w) := by
  unfold Dev.logAccess
  rw [if_neg (by simp [hv]), Dev.reg_bumpSat_ne (by decide), Dev.reg_setReg_same]

/-- Beside the registers the record changes nothing. -/
theorem Dev.logAccess_eq (m : Master) (a : Nat) (w : Bool) (d : Dev) : ∃ r, d.logAccess m a w = { d with regs := r } := by
  unfold Dev.logAccess
  split
  · exact ⟨_, rfl⟩
  · exact ⟨_, rfl⟩

/-! ### Refusals (R44, R79) -/

/-- EVT_RAW stands at one offset of its page; the record of SYS stands at others. -/
theorem evtRaw_ne_of_offset {p k : Nat} (h : k % 0x1000 ≠ 0xC) : Reg.evtRaw p ≠ k := by
  show p * 0x1000 + 0xC ≠ k
  omega

theorem Dev.reg_raise_of_offset {p i k : Nat} (h : k % 0x1000 ≠ 0xC) (d : Dev) : (d.raise p i).reg k = d.reg k :=
  Dev.reg_raise_ne (evtRaw_ne_of_offset h).symm d

/-- The record leaves every page's EVT_RAW as it stands. -/
theorem Dev.bit_logAccess_evtRaw (m : Master) (p a i : Nat) (w : Bool) (d : Dev) :
    (d.logAccess m a w).bit (Reg.evtRaw p) i = d.bit (Reg.evtRaw p) i := by
  unfold Dev.bit
  rw [Dev.reg_logAccess_ne (evtRaw_ne_of_offset (by decide)) (evtRaw_ne_of_offset (by decide)) (evtRaw_ne_of_offset (by decide))]

/-- SYS refuses as page 0 does: its own EVT_RAW stands there. -/
theorem Dev.refuseSys_eq (m : Master) (a : Nat) (w : Bool) (d : Dev) : d.refuseSys m a w = d.refuse m 0 a w := rfl

/-- Beside the registers and the cycle's record of what it set, a refusal changes nothing. -/
theorem Dev.refuse_eq (m : Master) (p a : Nat) (w : Bool) (d : Dev) :
    ∃ r c, d.refuse m p a w = { d with regs := r, cyc := c } := by
  obtain ⟨r, hr⟩ := (d.raise p 31).logAccess_eq m a w
  exact ⟨r, _, hr⟩

/-- A refusal logs its access, and does nothing else. -/
theorem Dev.logged_refuse (m : Master) (p a : Nat) (w : Bool) (d : Dev) : d.Logged (d.refuse m p a w) p m a w d.readData := by
  have hinfo : (d.raise p 31).reg Reg.SYS_AERR_INFO = d.reg Reg.SYS_AERR_INFO := Dev.reg_raise_of_offset (by decide) d
  have haddr : (d.raise p 31).reg Reg.SYS_AERR_ADDR = d.reg Reg.SYS_AERR_ADDR := Dev.reg_raise_of_offset (by decide) d
  have hcnt : (d.raise p 31).reg Reg.SYS_AERR_CNT = d.reg Reg.SYS_AERR_CNT := Dev.reg_raise_of_offset (by decide) d
  have hvalid : (d.raise p 31).bit Reg.SYS_AERR_INFO 31 = d.bit Reg.SYS_AERR_INFO 31 := congrArg (bitAt 31) hinfo
  refine ⟨?raised, ?others, ?count, ?first, ?later, ?registers, ?rest⟩
  case raised => exact (Dev.bit_logAccess_evtRaw ..).trans (Dev.bit_raise_same (by decide) d)
  case others => exact fun i hi => (Dev.bit_logAccess_evtRaw ..).trans (Dev.bit_raise_other hi d)
  case count =>
    refine (Dev.fld_logAccess_count ..).trans ?_
    unfold Dev.fld
    rw [hcnt]
  case first =>
    intro hv
    have hreg := Dev.reg_logAccess_info (m := m) (a := a) (w := w) (hvalid.trans hv)
    refine ⟨Dev.reg_logAccess_addr (hvalid.trans hv), ?_, ?_, ?_⟩
    · exact (congrArg (bitAt 31) hreg).trans (by simp [bitAt_accessInfo])
    · exact (congrArg (Machine.fld 15 8) hreg).trans (fld_accessInfo_master m w)
    · exact (congrArg (bitAt 0) hreg).trans (by simp [bitAt_accessInfo])
  case later =>
    intro hv
    exact ⟨(Dev.reg_logAccess_valid (hvalid.trans hv) (by decide)).trans haddr,
      (Dev.reg_logAccess_valid (hvalid.trans hv) (by decide)).trans hinfo⟩
  case registers =>
    intro k hk
    simp only [List.mem_cons, List.not_mem_nil, or_false, not_or] at hk
    obtain ⟨hraw, ha, hi, hc⟩ := hk
    exact Dev.reg_refuse_ne hraw ha hi hc d
  case rest =>
    obtain ⟨r, c, h⟩ := d.refuse_eq m p a w
    rw [h]

/-- The value that a read returns stands beside what is logged. -/
theorem Dev.Logged.putReadData {d t : Dev} {p a : Nat} {m : Master} {w : Bool} {x : Word} (h : d.Logged t p m a w x) (y : Word) :
    d.Logged (Dev.putReadData y t) p m a w y := by
  obtain ⟨hraised, hothers, hcount, hfirst, hlater, hregisters, hrest⟩ := h
  refine ⟨hraised, hothers, hcount, hfirst, hlater, hregisters, ?_⟩
  exact congrArg (Dev.putReadData y) hrest

/-! ### Refused writes over the bus -/

/-- A write that the map or the table of R43 turns away where no page stands is refused by SYS. -/
theorem Dev.landWrite_noPage {m : Master} {a n : Nat} {v : Word} {d : Dev} (hr : ∀ p off, regionOf a ≠ .page p off)
    (hm : d.mayAccess m true a = false) : d.landWrite m a n v = d.refuseSys m a true := by
  unfold Dev.landWrite
  cases h : regionOf a with
  | page p off => exact absurd h (hr p off)
  | unmapped => rfl
  | rom | sram | leProg | leData | triad | dram => simp [hm]

/-- REGISTER_WRITE lands in its FAB cycle. -/
theorem goes_registerWrite (m : Master) (a : BitVec 32) (n : Nat) (v : Word) (same : Bool) (s : State) :
    Goes (.registerWrite m a n v same) s ((s.dev.enterCycle m same).landWrite m a.toNat n v) := rfl

/-! ### Refused reads over the bus -/

/-- An address of a register is its page's base and its offset. -/
theorem eq_of_regionOf_page {a p off : Nat} (h : regionOf a = .page p off) : p * 0x1000 + off + 0x40000000 = a := by
  unfold regionOf at h
  dsimp only at h
  repeat' split at h
  all_goals simp only [reduceCtorEq, Region.page.injEq] at h
  omega

/-- Every byte of zero is zero. -/
@[simp] theorem lanesOf_zero (a n : Nat) : lanesOf a n 0#32 = 0#32 := by
  unfold lanesOf
  split <;> simp

/-- The table of R43 for an address of a page is the one for the page and the offset. -/
theorem Dev.mayAccess_page {m : Master} {a p off : Nat} {write : Bool} {d : Dev} (hr : regionOf a = .page p off) :
    d.mayAccess m write a = if write then d.mayWrite m p off else d.mayRead m p off := by
  unfold Dev.mayAccess
  cases m <;> simp [hr, Dev.mayWrite, Dev.mayRead]

/-- A page may bar a read that the table permits: window 1 of a message bus controller (R564). -/
theorem Dev.readOk_page {m : Master} {a p off : Nat} {d : Dev} (hr : regionOf a = .page p off) :
    d.readOk m a = (d.mayRead m p off && !readBarred m p off) := by
  unfold Dev.readOk
  simp [Dev.mayAccess_page hr, hr]

/-- A read that the access table bars on a page that is not held: the page refuses it (R44). -/
theorem Dev.busRead_barred {m : Master} {a n p off : Nat} {d : Dev} (ha : a % 4 = 0) (hr : regionOf a = .page p off)
    (hh : d.pageHeld p = false) (hm : d.mayRead m p off = false) :
    d.busRead m a n = (0, Dev.putReadData 0 (d.refuse m p a false)) := by
  unfold Dev.busRead
  simp [ha, hr, hh, Dev.readOk_page hr, hm]

/-- A read of a page held in reset, but for its ID: SYS refuses it, whatever the access table says (R81). -/
theorem Dev.busRead_held {m : Master} {a n p off : Nat} {d : Dev} (ha : a % 4 = 0) (hr : regionOf a = .page p off)
    (hh : d.pageHeld p = true) (ho : off ≠ 0) : d.busRead m a n = (0, Dev.putReadData 0 (d.refuseSys m a false)) := by
  have heffect : d.readEffect m p off = (0, d.refuseSys m a false) := by
    unfold Dev.readEffect Dev.pageRead
    simp [hh, ho, eq_of_regionOf_page hr, Dev.when]
  unfold Dev.busRead
  cases hok : d.readOk m a <;> simp [ha, hr, hh, hok, heffect]

/-- A read that the map or the table of R43 turns away where no page stands: SYS refuses it (R44). -/
theorem Dev.busRead_noPage {m : Master} {a n : Nat} {d : Dev} (ha : a % 4 = 0) (hr : ∀ p off, regionOf a ≠ .page p off)
    (hm : d.mayAccess m false a = false) : d.busRead m a n = (0, Dev.putReadData 0 (d.refuseSys m a false)) := by
  have hok : d.readOk m a = false := by simp [Dev.readOk, hm]
  unfold Dev.busRead
  cases h : regionOf a with
  | page p off => exact absurd h (hr p off)
  | rom | sram | leProg | leData | triad | dram | unmapped => simp [ha, h, hok]

/-! ### The obligation -/

/-- Settles O35: each refused access is a refusal of the page or of SYS, and a refusal does nothing but log it. -/
theorem refusedAccessesAreLogged : Obligations.RefusedAccessesAreLogged := by
  unfold Obligations.RefusedAccessesAreLogged
  refine ⟨?writes, ?reads⟩
  case writes =>
    rintro s m a n v same _ rfl _ _
    have hgoes := goes_registerWrite m a n v same s
    refine ⟨fun p off hr => ⟨fun hheld => ⟨_, hgoes, ?held⟩, fun hh hrefused => ⟨_, hgoes, ?barred⟩⟩,
      fun hr hm => ⟨_, hgoes, ?noPage⟩⟩
    case held =>
      rw [Dev.landWrite_held hr hheld, Dev.refuseSys_eq]
      exact Dev.logged_refuse ..
    case barred =>
      rw [Dev.landWrite_refused hr hh (hrefused.symm.imp_right Nat.ne_of_lt)]
      exact Dev.logged_refuse ..
    case noPage =>
      rw [Dev.landWrite_noPage hr hm, Dev.refuseSys_eq]
      exact Dev.logged_refuse ..
  case reads =>
    intro d m a n ha
    refine ⟨fun p off hr hm hh => ?barred, fun p off hr hh ho => ?held, fun hr hm => ?noPage⟩
    case barred =>
      rw [Dev.busRead_barred ha hr hh hm]
      exact ⟨rfl, (Dev.logged_refuse ..).putReadData 0⟩
    case held =>
      rw [Dev.busRead_held ha hr hh ho]
      exact ⟨rfl, (Dev.logged_refuse ..).putReadData 0⟩
    case noPage =>
      rw [Dev.busRead_noPage ha hr hm]
      exact ⟨rfl, (Dev.logged_refuse ..).putReadData 0⟩

end Sys2Proof.Machine

/-! SUPPORT. A plane reset: the pages in which each of its parts stays, and so what it leaves of the commit state and of the groups. -/

namespace Sys2Proof.Machine

/-! ### Changes that stay in some pages -/

/-- From `a` to `b` no register and no shadow changes outside of the pages `ps`, no leg of a group, and not the reach in force. -/
structure Dev.StaysIn (ps : List Nat) (a b : Dev) : Prop where
  outside : a.SameOutside ps b
  groups  : b.groups = a.groups
  episode : b.reset.episode = a.reset.episode

namespace Dev.StaysIn

variable {ps qs : List Nat} {a b c d : Dev}

theorem refl (ps : List Nat) (a : Dev) : StaysIn ps a a := ⟨fun _ _ => ⟨rfl, rfl⟩, rfl, rfl⟩

theorem trans (h : StaysIn ps a b) (h' : StaysIn ps b c) : StaysIn ps a c where
  outside k hk := ⟨(h'.outside k hk).1.trans (h.outside k hk).1, (h'.outside k hk).2.trans (h.outside k hk).2⟩
  groups := h'.groups.trans h.groups
  episode := h'.episode.trans h.episode

/-- More pages allow more changes. -/
theorem mono (h : StaysIn ps a b) (hsub : ps ⊆ qs) : StaysIn qs a b :=
  ⟨fun k hk => h.outside k (fun q => hk (hsub q)), h.groups, h.episode⟩

theorem fld (h : StaysIn ps a b) {k hi lo : Nat} (hk : k / 0x1000 ∉ ps) : b.fld k hi lo = a.fld k hi lo := by
  rw [Dev.fld, (h.outside k hk).1, Dev.fld]

theorem bit (h : StaysIn ps a b) {k i : Nat} (hk : k / 0x1000 ∉ ps) : b.bit k i = a.bit k i := by
  rw [Dev.bit, (h.outside k hk).1, Dev.bit]

theorem group (h : StaysIn ps a b) (g : Nat) : b.group g = a.group g := by
  rw [Dev.group, h.groups, Dev.group]

theorem gstate (h : StaysIn ps a b) (hps : ∀ g < 12, 0x20 + g ∉ ps) {g : Nat} (hg : g < 12) : b.gstate g = a.gstate g := by
  refine h.fld ?_
  have hpage : Reg.PG_STAT g / 0x1000 = 0x20 + g := by unfold Reg.PG_STAT; omega
  rw [hpage]
  exact hps g hg

/-! What each operation on registers adds, where its register lies in one of the pages. -/

theorem setReg (h : StaysIn ps a d) {k : Nat} (v : Word) (hk : k / 0x1000 ∈ ps) : StaysIn ps a (d.setReg k v) where
  outside j hj := ⟨(Dev.reg_setReg_ne (fun q : j = k => hj (q ▸ hk)) v d).trans (h.outside j hj).1, (h.outside j hj).2⟩
  groups := h.groups
  episode := h.episode

theorem setFld (h : StaysIn ps a d) {k hi lo v : Nat} (hk : k / 0x1000 ∈ ps) : StaysIn ps a (d.setFld k hi lo v) := h.setReg _ hk

theorem setBit (h : StaysIn ps a d) {k i : Nat} {x : Bool} (hk : k / 0x1000 ∈ ps) : StaysIn ps a (d.setBit k i x) := h.setReg _ hk

theorem raise (h : StaysIn ps a d) {p i : Nat} (hp : p ∈ ps) : StaysIn ps a (d.raise p i) := by
  have hk : Reg.evtRaw p / 0x1000 ∈ ps := by
    have hpage : Reg.evtRaw p / 0x1000 = p := by unfold Reg.evtRaw; omega
    rwa [hpage]
  obtain ⟨hout, hgroups, hepisode⟩ := h.setReg (d.reg (Reg.evtRaw p) ||| bitMask i) hk
  exact ⟨hout, hgroups, hepisode⟩

end Dev.StaysIn

/-! ### Pages cleared (R87 to R89) -/

/-- What a listed register becomes lies at its own key. -/
theorem clearedReg_key {e e' : Nat × Word} (h : clearedReg e = some e') : e'.1 = e.1 := by
  unfold clearedReg at h
  dsimp only at h
  split at h
  · cases h; rfl
  · cases h

/-- A key whose entries stand reads as before, whatever becomes of the entries at other keys. -/
theorem lookup_filterMap_of_stands {α : Type} {dflt : Nat → α} {k : Nat} {f : Nat × α → Option (Nat × α)}
    (hstands : ∀ v, f (k, v) = some (k, v)) (hkey : ∀ e e', f e = some e' → e'.1 = e.1) (l : List (Nat × α)) :
    lookup dflt k (l.filterMap f) = lookup dflt k l := by
  induction l with
  | nil => rfl
  | cons e rest ih =>
    obtain ⟨j, v⟩ := e
    by_cases hj : j = k
    · subst hj
      simp [hstands, lookup]
    · cases hf : f (j, v) with
      | none => simp [hf, lookup, hj, ih]
      | some e' =>
        have he : e'.1 ≠ k := fun q => hj ((hkey _ _ hf).symm.trans q)
        simp [hf, lookup, hj, he, ih]

theorem Dev.reg_clearPages {ps : List Nat} {k : Nat} (hk : k / 0x1000 ∉ ps) (d : Dev) : (d.clearPages ps).reg k = d.reg k := by
  refine lookup_filterMap_of_stands (fun v => by simp [hk]) (fun e e' h => ?_) d.regs
  split at h
  · exact clearedReg_key h
  · cases h; rfl

theorem Dev.sh_clearPages {ps : List Nat} {k : Nat} (hk : k / 0x1000 ∉ ps) (d : Dev) : (d.clearPages ps).sh k = d.sh k := by
  unfold Dev.sh Dev.clearPages
  dsimp only
  rw [← List.filterMap_eq_filter]
  refine lookup_filterMap_of_stands (fun v => by simp [Option.guard, hk]) (fun e e' h => ?_) d.shadow
  rw [← (Option.guard_eq_some_iff.mp h).1]

/-! ### The parts of a plane reset -/

/-- Pages cleared keep every other page. -/
theorem Dev.clearPages_staysIn (ps : List Nat) (d : Dev) : d.StaysIn ps (d.clearPages ps) :=
  ⟨fun _ hk => ⟨Dev.reg_clearPages hk d, Dev.sh_clearPages hk d⟩, rfl, rfl⟩

/-- The management plane is cleared in its own pages (R88). -/
theorem Dev.clearPlane_staysIn (d : Dev) : d.StaysIn planePages d.clearPlane := by
  obtain ⟨hout, hgroups, hepisode⟩ := d.clearPages_staysIn planePages
  have hparts : d.StaysIn planePages ((d.clearPages planePages).clearPlaneParts d.holdPads.padHeld) := ⟨hout, hgroups, hepisode⟩
  exact (hparts.setBit (by decide)).setBit (by decide)

/-- A loader operation is aborted in the page CFG (R88, R167). -/
theorem Dev.abortLoad_staysIn (d : Dev) : d.StaysIn [3] d.abortLoad := by
  unfold Dev.abortLoad
  split
  · have hload : d.StaysIn [3] (Dev.putLoader { d.loader with load := none } d) := ⟨fun _ _ => ⟨rfl, rfl⟩, rfl, rfl⟩
    exact ((((hload.setBit (by decide)).setFld (by decide)).setFld (by decide)).raise (by decide)).raise (by decide)
  · exact .refl ..

/-- The commit state stands through the abort of a loader operation. -/
theorem Dev.cstate_abortLoad (d : Dev) : d.abortLoad.cstate = d.cstate := by
  unfold Dev.abortLoad
  split
  · rw [Dev.cstate, Dev.fld, Dev.reg_raise_ne (by decide), Dev.reg_raise_ne (by decide), Dev.reg_setFld_ne (by decide),
      Dev.reg_setFld_ne (by decide), Dev.setBit, Dev.reg_setReg_same, fld_setBit_outside (by decide) (by decide)]
    rfl
  · rfl

/-- The run permit needs a closed session (R536). -/
theorem Dev.runPermit_of_sessionOpen {d : Dev} (h : d.sessionOpen = true) : d.runPermit = false := by
  simp [Dev.runPermit, h]

/-- A permit that reads low can only rise, and no commit state follows (R157, R536). -/
theorem Dev.permitUpdate_of_low {d : Dev} (h : d.bit Reg.SLOE_STAT 16 = false) :
    d.permitUpdate = d.when d.runPermit (fun d => (d.setBit Reg.SLOE_STAT 16 true).raise 0x91 3) := by
  unfold Dev.permitUpdate
  cases hp : d.runPermit <;> simp [h]

/-- A permit that reads low follows its conditions in the page SLOE. -/
theorem Dev.StaysIn.permitUpdate {ps : List Nat} {a d : Dev} (h : a.StaysIn ps d) (hlow : d.bit Reg.SLOE_STAT 16 = false)
    (hps : 0x91 ∈ ps) : a.StaysIn ps d.permitUpdate := by
  rw [Dev.permitUpdate_of_low hlow]
  cases d.runPermit with
  | true => exact (h.setBit hps).raise hps
  | false => exact h

/-- A session closes in the pages of Sloe where the permit reads low (R544). -/
theorem Dev.closeSession_staysIn {d : Dev} (hlow : d.bit Reg.SLOE_STAT 16 = false) : d.StaysIn [0x91, 0x92] d.closeSession := by
  unfold Dev.closeSession
  split
  · obtain ⟨hout, hgroups, hepisode⟩ : d.StaysIn [0x92] (((d.setBit Reg.SAFE_STAT 8 false).setFld Reg.SAFE_STAT 10 9 0).raise 0x92 1) :=
      (((Dev.StaysIn.refl _ d).setBit (by decide)).setFld (by decide)).raise (by decide)
    have hended : d.StaysIn [0x92] ((((d.setBit Reg.SAFE_STAT 8 false).setFld Reg.SAFE_STAT 10 9 0).raise 0x92 1).modSloe
      (fun s => { s with pwNew := none, crcRun := false })) := ⟨hout, hgroups, hepisode⟩
    exact (hended.mono (by simp)).permitUpdate ((hended.bit (by decide)).trans hlow) (by decide)
  · exact .refl ..

/-- The loss of the DRAM's contents touches no register. -/
theorem Dev.enterSelfRefresh_staysIn (d : Dev) : d.StaysIn [] d.enterSelfRefresh := by
  unfold Dev.enterSelfRefresh
  split
  · exact .refl ..
  · exact ⟨fun _ _ => ⟨rfl, rfl⟩, rfl, rfl⟩

/-! ### A plane reset (R88, R91, R93) -/

/-- The pages in which a plane reset stays, the abort of a load apart: its own, and those of Sloe, whose session may close. -/
def planeResetPages : List Nat := planePages ++ [0x91, 0x92]

/-- What a source of plane reach does while no wider reach is in force: the episode's record, and then its clearing and holding. -/
theorem Dev.assertSource_plane {src : Source} {d : Dev} (he : d.reset.episode = none ∨ d.reset.episode = some .plane) :
    ∃ x : ResetCtl, x.episode = some .plane ∧ d.assertSource src .plane =
      ((((Dev.putReset x d).abortLoad.clearPlane).when (d.sessionOpen && d.fld Reg.SAFE_STAT 10 9 == 2)
        Dev.closeSession).enterSelfRefresh).holdReach .plane := by
  have hreach : widest d.reset.episode .plane = .plane := by
    obtain he | he := he <;> rw [he] <;> rfl
  unfold Dev.assertSource
  rw [hreach]
  exact ⟨_, rfl, rfl⟩

/-- The clearing of a plane reset stays in its pages once the load is aborted, where the run permit reads as its conditions say. -/
theorem Dev.clearPlane_closeSession_staysIn {d : Dev} {owner : Bool} (hpermit : d.bit Reg.SLOE_STAT 16 = d.runPermit) :
    d.abortLoad.StaysIn planeResetPages
      ((d.abortLoad.clearPlane).when (d.sessionOpen && owner) Dev.closeSession).enterSelfRefresh := by
  have hplane := d.abortLoad.clearPlane_staysIn
  have hclear : d.abortLoad.StaysIn planeResetPages d.abortLoad.clearPlane := hplane.mono (by decide)
  refine .trans ?_ ((Dev.enterSelfRefresh_staysIn _).mono (by decide))
  cases hopen : d.sessionOpen && owner with
  | false => exact hclear
  | true =>
    have hlow : d.abortLoad.clearPlane.bit Reg.SLOE_STAT 16 = false := by
      rw [hplane.bit (by decide), d.abortLoad_staysIn.bit (by decide), hpermit,
        Dev.runPermit_of_sessionOpen (Bool.and_eq_true_iff.mp hopen).1]
    exact hclear.trans ((Dev.closeSession_staysIn hlow).mono (by decide))

/-- A source of plane reach holds the management plane, and leaves the commit state and every group (R30). -/
theorem Dev.assertSource_plane_leaves_control {src : Source} {d : Dev}
    (he : d.reset.episode = none ∨ d.reset.episode = some .plane) (hpermit : d.bit Reg.SLOE_STAT 16 = d.runPermit) :
    (d.assertSource src .plane).reset.episode = some .plane ∧ (d.assertSource src .plane).pageHeld 0x98 = true ∧
      (d.assertSource src .plane).cstate = d.cstate ∧ ∀ g : Fin 12, (d.assertSource src .plane).gstate g.val = d.gstate g.val ∧
        (d.assertSource src .plane).group g.val = d.group g.val := by
  obtain ⟨x, hx, hassert⟩ := Dev.assertSource_plane (src := src) he
  rw [hassert]
  have habort := (Dev.putReset x d).abortLoad_staysIn
  have hclear := Dev.clearPlane_closeSession_staysIn (d := Dev.putReset x d) (owner := d.fld Reg.SAFE_STAT 10 9 == 2) hpermit
  refine ⟨?episode, rfl, ?cstate, fun g => ⟨?gstate, ?group⟩⟩
  case episode => exact (hclear.episode.trans habort.episode).trans hx
  case cstate => exact (hclear.fld (by decide)).trans (Dev.cstate_abortLoad _)
  case gstate => exact (hclear.gstate (by decide) g.isLt).trans (habort.gstate (by decide) g.isLt)
  case group => exact (hclear.group g).trans (habort.group g)

/-! ### The obligation -/

/-- A watchdog that has run out asserts its source (R606). -/
theorem goes_medlarWatchdog {s : State} (hh : s.dev.pageHeld 0x98 = false) (ht : s.dev.mgmt.wdtAt + 100000000 ≤ s.dev.now) :
    Goes .medlarWatchdog s (s.dev.assertSource .mgtWdt .plane) := by
  show execMedlarWatchdog s = _
  simp [execMedlarWatchdog, hh, ht]

/-- A RESET frame with the plane's reach word is answered, and then asserts its source (R630). -/
theorem goes_spiReset_plane {ns : Nat} {count : Byte} {s : State} {d : Dev} (ht : s.dev.hostTakes ns = true)
    (hd : d = s.dev.hostAnswer [] false false false true) :
    Goes (.spiReset ns 0x52530001 count (hostCrc 0x10 0x52530001 count [])) s
      (Dev.putHost { response := d.host.response } (d.assertSource .cmdHost .plane)) := by
  subst hd
  show execSpiReset ns 0x52530001 count (hostCrc 0x10 0x52530001 count []) s = _
  rw [execSpiReset, State.onDev_eq, Dev.hostFrame, if_pos ht, beq_self_eq_true, if_pos rfl]
  rfl

/-- Settles O51: a plane reset clears its own pages, and at most closes Medlar's session, during which the run permit is low. -/
theorem planeResetLeavesControl : Obligations.PlaneResetLeavesControl := by
  unfold Obligations.PlaneResetLeavesControl
  rintro s ns count crc c _ rfl he hpermit (⟨rfl, hheld, hdue⟩ | ⟨rfl, htakes, rfl⟩)
  case inl => exact ⟨_, goes_medlarWatchdog hheld hdue, Dev.assertSource_plane_leaves_control he hpermit⟩
  case inr =>
    exact ⟨_, goes_spiReset_plane htakes rfl,
      Dev.assertSource_plane_leaves_control (d := s.dev.hostAnswer [] false false false true) he hpermit⟩

end Sys2Proof.Machine

/-! SUPPORT. Keyed writes: what a locked page discards, and what a write of KEY does that does not continue the sequence. -/

namespace Sys2Proof.Machine

/-! ### Discarded writes (R61) -/

/-- A page discards a write as it refuses one at the register's address. -/
theorem Dev.discard_of_regionOf {m : Master} {a p off : Nat} (hr : regionOf a = .page p off) (ho : off < 0x1000) (d : Dev) :
    d.discard m (p * 0x1000 + off) = d.refuse m p a true := by
  have hpage : (p * 0x1000 + off) / 0x1000 = p := by omega
  have haddr : keyAddr (p * 0x1000 + off) = a := (Nat.add_comm _ _).trans (eq_of_regionOf_page hr)
  rw [Dev.discard, hpage, haddr]

/-- A discarded write is logged, and does nothing else. -/
theorem Dev.logged_discard {m : Master} {a p off : Nat} (hr : regionOf a = .page p off) (ho : off < 0x1000) (d : Dev) :
    d.Logged (d.discard m (p * 0x1000 + off)) p m a true d.readData := by
  rw [Dev.discard_of_regionOf hr ho]
  exact Dev.logged_refuse ..

/-- KSTATE stands through a discarded write: the record of a refusal lies at other offsets than KEY. -/
@[simp] theorem Dev.kstate_discard (m : Master) (key p : Nat) (d : Dev) : (d.discard m key).kstate p = d.kstate p := by
  have hkey : Reg.key p % 0x1000 = 0x1C := by unfold Reg.key; omega
  have hne : ∀ {k : Nat}, k % 0x1000 ≠ 0x1C → Reg.key p ≠ k := fun hk q => hk (q ▸ hkey)
  have hraw : Reg.evtRaw (key / 0x1000) % 0x1000 ≠ 0x1C := by unfold Reg.evtRaw; omega
  unfold Dev.kstate Dev.fld Dev.discard
  rw [Dev.reg_refuse_ne (hne hraw) (hne (by decide)) (hne (by decide)) (hne (by decide))]

/-! ### Keyed writes to a locked page (R61, R668) -/

/-- The register map answers with the row of its page's kind that holds the offset. -/
theorem findDesc_of_regAt {key inst j : Nat} {k : PageKind} {r : RegDesc} (h : regAt key = some (k, inst, r, j)) :
    findDesc (key % 0x1000) (descsOf k) = some (r, j) := by
  unfold regAt at h
  split at h
  · cases h
  · split at h
    · cases h
    · split at h
      · cases h
      next hrow =>
        cases h
        exact hrow

/-- KEY itself holds no keyed field, on any kind of page. -/
theorem keyedWrite_key (p : Nat) (v : Word) : keyedWrite (p * 0x1000 + 0x1C) v = false := by
  have hoff : (p * 0x1000 + 0x1C) % 0x1000 = 0x1C := by omega
  have hkeyed : ∀ k : PageKind, (findDesc 0x1C (descsOf k)).elim 0 (fun r => r.1.keyed) = 0 := by
    intro k
    cases k <;> rfl
  apply keyedWrite_false
  cases hat : regAt (p * 0x1000 + 0x1C) with
  | none => rfl
  | some x =>
    obtain ⟨k, inst, r, j⟩ := x
    have hk := hkeyed k
    rwa [← hoff, findDesc_of_regAt hat] at hk

/-- FORCE_SH of a locked page: an engine's write is discarded whatever the key says (R326), any other for want of an unlock. -/
theorem Dev.forceShWrite_locked {m : Master} {g : Nat} {v : Word} {op : Dev → Dev} {d : Dev} (hreach : d.Reaches m (Reg.PG_FORCE_SH g))
    (hk : keyedWrite (Reg.PG_FORCE_SH g) v = true) (hs : d.kstate (Reg.PG_FORCE_SH g / 0x1000) ≠ 2) :
    d.forceShWrite m g v op = d.discard m (Reg.PG_FORCE_SH g) := by
  obtain ⟨hheld, hmay⟩ := hreach
  have hpage : Reg.PG_FORCE_SH g / 0x1000 = 0x20 + g := by unfold Reg.PG_FORCE_SH; omega
  have hg : d.pageHeld (0x20 + g) = false := hpage ▸ hheld
  unfold Dev.forceShWrite
  cases m with
  | le e => simp [hg]
  | triad | medlar | host | loader | crc n | jtag => exact Dev.accessWrite_locked hheld hmay hk hs

/-- A keyed write to a locked page is discarded, whichever operation the register has. -/
theorem Dev.pageWrite_locked {m : Master} {p off : Nat} {v : Word} {d : Dev} (ho : off < 0x800) (hreach : d.Reaches m (p * 0x1000 + off))
    (hk : keyedWrite (p * 0x1000 + off) v = true) (hs : d.kstate p ≠ 2) : d.pageWrite m p off v = d.discard m (p * 0x1000 + off) := by
  have hpage : (p * 0x1000 + off) / 0x1000 = p := by omega
  have hs' : d.kstate ((p * 0x1000 + off) / 0x1000) ≠ 2 := hpage.symm ▸ hs
  have hkey : off ≠ 0x1C := by
    rintro rfl
    rw [keyedWrite_key] at hk
    cases hk
  unfold Dev.pageWrite
  rw [if_neg (by omega), if_neg hkey]
  split
  next hforce =>
    obtain ⟨hlow, -, rfl⟩ := hforce
    have hreg : p * 0x1000 + 0x164 = Reg.PG_FORCE_SH (p - 0x20) := by unfold Reg.PG_FORCE_SH; omega
    rw [hreg] at hreach hk hs' ⊢
    exact Dev.forceShWrite_locked hreach hk hs'
  next => exact Dev.accessWrite_locked hreach.1 hreach.2 hk hs'

/-! ### Writes of KEY (R59, R61) -/

/-- A write at the offset of KEY is the key's operation. -/
theorem Dev.pageWrite_key (m : Master) (p : Nat) (v : Word) (d : Dev) : d.pageWrite m p 0x1C v = d.keyOp m p v := rfl

/-- A write of KEY that does not continue the sequence locks the page, and is discarded. -/
theorem Dev.keyOp_breaks {m : Master} {p : Nat} {v : Word} {d : Dev} (h0 : d.kstate p = 0 → v ≠ word (0x5A000000 + p))
    (h1 : d.kstate p = 1 → v ≠ word (0xA5000000 + p)) : d.keyOp m p v = (d.setKstate p 0).discard m (p * 0x1000 + 0x1C) := by
  unfold Dev.keyOp
  rw [if_neg (fun h => h0 h.1 h.2), if_neg (fun h => h1 h.1 h.2)]

/-! ### The obligation -/

/-- A 32-bit REGISTER_WRITE to a register that its master reaches is its page's write. -/
theorem goes_registerWrite_page {s : State} {m : Master} {a : BitVec 32} {p off : Nat} {v : Word} {same : Bool}
    (hr : regionOf a.toNat = .page p off) (halign : off % 4 = 0) (ho : off < 0x1000)
    (hreach : (s.dev.enterCycle m same).Reaches m (p * 0x1000 + off)) :
    Goes (.registerWrite m a 4 v same) s ((s.dev.enterCycle m same).pageWrite m p off v) := by
  obtain ⟨hheld, hmay⟩ := hreach
  have hpage : (p * 0x1000 + off) / 0x1000 = p := by omega
  have hoff : (p * 0x1000 + off) % 0x1000 = off := by omega
  rw [hpage] at hheld hmay
  rw [hoff] at hmay
  have hland := Dev.landWrite_page (v := v) hr hheld hmay
  rw [halign, Nat.sub_zero] at hland
  rw [← hland]
  exact goes_registerWrite m a 4 v same s

/-- Settles O36: the page's write is a discarded one; a broken sequence takes KSTATE to 0 before it. -/
theorem lockedPagesRefuseKeyedWrites : Obligations.LockedPagesRefuseKeyedWrites := by
  unfold Obligations.LockedPagesRefuseKeyedWrites
  rintro s m a p off v same _ rfl hr halign ho hreach
  have hin : off < 0x1000 := by omega
  have hgoes := goes_registerWrite_page (v := v) hr halign hin hreach
  refine ⟨?keyed, ?key⟩
  case keyed =>
    intro hk hs
    rw [Dev.pageWrite_locked ho hreach hk hs] at hgoes
    exact ⟨_, hgoes, Dev.logged_discard hr hin _⟩
  case key =>
    rintro rfl h0 h1
    rw [Dev.pageWrite_key, Dev.keyOp_breaks h0 h1] at hgoes
    refine ⟨_, hgoes, ?locked, Dev.logged_discard hr hin _⟩
    rw [Dev.kstate_discard, Dev.kstate_setKstate (by decide)]

end Sys2Proof.Machine

/-! SUPPORT. Instruction words (R174): bytes as numbers, and the fields of a word. -/

namespace Sys2Proof.Machine

/-! ### Words and numbers from bytes -/

/-- Bytes make a number below 256 to the power of how many they are. -/
theorem natOfBytes_lt (bs : List Byte) : natOfBytes bs < 256 ^ bs.length := by
  induction bs with
  | nil => simp [natOfBytes]
  | cons b rest ih =>
    have hb : b.toNat < 256 := b.isLt
    rw [natOfBytes, List.length_cons, Nat.pow_succ]
    omega

/-- Up to four bytes make the same number as a word. -/
theorem toNat_wordOfBytes {bs : List Byte} (h : bs.length ≤ 4) : (wordOfBytes bs).toNat = natOfBytes bs := by
  induction bs with
  | nil => rfl
  | cons b rest ih =>
    have hlen : rest.length ≤ 3 := Nat.le_of_succ_le_succ h
    have hrest : natOfBytes rest < 256 ^ 3 := Nat.lt_of_lt_of_le (natOfBytes_lt rest) (Nat.pow_le_pow_right (by decide) hlen)
    have hb : b.toNat < 2 ^ 8 := b.isLt
    rw [wordOfBytes, natOfBytes, BitVec.toNat_or, BitVec.toNat_shiftLeft, BitVec.toNat_setWidth, ih (by omega), Nat.shiftLeft_eq,
      Nat.mod_eq_of_lt (by omega), Nat.mod_eq_of_lt (by omega), Nat.or_comm, Nat.mul_comm, ← Nat.two_pow_add_eq_or_of_lt hb]
    omega

/-- The bytes of the first part of a number are its lower ones. -/
theorem natOfBytes_append (xs ys : List Byte) : natOfBytes (xs ++ ys) = natOfBytes xs + 256 ^ xs.length * natOfBytes ys := by
  induction xs with
  | nil => simp [natOfBytes]
  | cons b rest ih =>
    rw [List.cons_append, natOfBytes, natOfBytes, ih, List.length_cons, Nat.pow_succ', Nat.mul_add, Nat.mul_assoc, Nat.add_assoc]

theorem Dev.length_bytesAt (d : Dev) (a n : Nat) : (d.bytesAt a n).length = n := by simp [Dev.bytesAt]

/-- Bytes from an address upward, in two parts. -/
theorem Dev.bytesAt_add (d : Dev) (a m n : Nat) : d.bytesAt a (m + n) = d.bytesAt a m ++ d.bytesAt (a + m) n := by
  simp [Dev.bytesAt, List.range_add, Nat.add_assoc]

/-- A word of memory is the number of its four bytes. -/
theorem Dev.toNat_wordAt (d : Dev) (a : Nat) : (d.wordAt a).toNat = natOfBytes (d.bytesAt a 4) :=
  toNat_wordOfBytes (Nat.le_of_eq (d.length_bytesAt a 4))

/-- Two words in a row are the number of their eight bytes. -/
theorem Dev.toNat_wordAt_pair (d : Dev) (a : Nat) :
    (d.wordAt a).toNat + (d.wordAt (a + 4)).toNat * 2 ^ 32 = natOfBytes (d.bytesAt a 8) := by
  rw [d.bytesAt_add a 4 4, natOfBytes_append, d.length_bytesAt, ← d.toNat_wordAt, ← d.toNat_wordAt]
  omega

/-! ### The fields of an instruction word -/

/-- The word of an instruction decodes to it. -/
theorem decodeInsn_encodeInsn (i : Insn) : decodeInsn (encodeInsn i) = i := by
  obtain ⟨op, d, a, b, c, m, imm⟩ := i
  have himm := imm.isLt
  simp only [decodeInsn, encodeInsn, sixBits, Insn.mk.injEq, Fin.ext_iff, Fin.ofNat, BitVec.toNat_eq, BitVec.toNat_ofNat]
  omega

/-- No bit of a 64-bit word is dropped. -/
theorem encodeInsn_decodeInsn {w : Nat} (h : w < 2 ^ 64) : encodeInsn (decodeInsn w) = w := by
  simp only [decodeInsn, encodeInsn, sixBits, Fin.ofNat, BitVec.toNat_ofNat]
  omega

/-! ### The obligation -/

/-- Settles O39: a word's fields are its digits in the bases that their widths give, and eight bytes are two words. -/
theorem instructionWordsRoundTrip : Obligations.InstructionWordsRoundTrip := by
  unfold Obligations.InstructionWordsRoundTrip
  refine ⟨?fields, decodeInsn_encodeInsn, fun w => encodeInsn_decodeInsn, ?place, rfl⟩
  case fields =>
    rintro w _ rfl
    exact ⟨rfl, rfl, rfl, rfl, rfl, rfl, BitVec.toNat_ofNat w 32⟩
  case place =>
    intro d e _
    rw [← d.toNat_wordAt_pair]
    rfl

end Sys2Proof.Machine

/-! SUPPORT. The issue of an instruction: what each of its checks finds, and which action each command hands to it. -/

namespace Sys2Proof.Machine

/-! ### The checks before an instruction acts (R174, R175, R180, R216) -/

/-- A word that cannot be corrected faults the engine with ECC_PROG, whatever the command. -/
theorem Dev.issue_uncorrectable {e op : Nat} {u : Form} {f : EngFields} {act : Dev → Dev} {d : Dev} (hc : d.canIssue e = true)
    (hm : f.m.val % u.modes = u.mode) (hf : f.fetch = .uncorrectable) :
    d.issue e op u f act = ((d.begun f).eccUnc e (d.pc e)).engineFault e 5 := by
  have hpc : (d.begun f).pc e = d.pc e := by
    unfold Dev.begun
    split <;> rfl
  unfold Dev.issue Dev.fetches Dev.fetched
  simp [hc, hm, hf, ← hpc]

/-- A word that stands at PC and is good, or made good, comes to the checks of its fields. -/
theorem Dev.issue_fetched {e op : Nat} {u : Form} {f : EngFields} {act : Dev → Dev} {d : Dev} (hc : d.canIssue e = true)
    (hm : f.m.val % u.modes = u.mode) (hf : f.fetch ≠ .uncorrectable) (hw : d.insnAt e = insnOf op f) :
    d.issue e op u f act =
      if u.ok f = false then ((d.begun f).when (f.fetch == .corrected) (Dev.eccCorrected e)).engineFault e 2
      else if 64 < f.d.val + u.outs then ((d.begun f).when (f.fetch == .corrected) (Dev.eccCorrected e)).engineFault e 3
      else act ((d.begun f).when (f.fetch == .corrected) (Dev.eccCorrected e)) := by
  unfold Dev.issue Dev.fetches Dev.fetched
  simp [hc, hm, hf, hw]

/-- An instruction that passes every check acts, in its FAB cycle. -/
theorem Dev.issue_acts {e op : Nat} {u : Form} {f : EngFields} {act : Dev → Dev} {d : Dev} (h : d.Issues e op u f) :
    d.issue e op u f act = act (d.begun f) := by
  obtain ⟨hc, hf, hw, hm, hok, houts⟩ := h
  rw [Dev.issue_fetched hc hm (by simp [hf]) hw, if_neg (by simp [hok]), if_neg (by omega), hf]
  rfl

/-! ### The instructions by their opcodes and forms (R177) -/

/-- Each instruction is the issue of its opcode and form. -/
theorem exec_eq_issue (e : Fin 12) (f : EngFields) :
    ∀ x ∈ instructionForms e f, ∃ act, ∀ s, exec x.1 s = s.onDev (Dev.issue e.val x.2.1 x.2.2 f act) := by
  simp only [instructionForms, List.forall_mem_append, List.forall_mem_cons, List.not_mem_nil, false_implies, implies_true, and_true]
  repeat' apply And.intro
  all_goals exact ⟨_, fun _ => rfl⟩

/-- An instruction that writes one result and moves the pointer on, or moves the pointer on alone. -/
def OneResult (e : Nat) (f : EngFields) (act : Dev → Dev) : Prop :=
  act = Dev.advance e ∨ ∃ g : Dev → FpOut, act = fun d => d.Result e f (g d)

/-- NOP moves the pointer on; every other instruction up to ICMP, and TIME, DIV and SQRT, write one result. -/
theorem exec_eq_issue_oneResult (e : Fin 12) (f : EngFields) :
    ∀ x ∈ instructionForms e f, x.2.1 ≤ 0x15 ∨ x.2.1 = 0x21 ∨ x.2.1 = 0x28 ∨ x.2.1 = 0x29 →
      ∃ act, OneResult e.val f act ∧ ∀ s, exec x.1 s = s.onDev (Dev.issue e.val x.2.1 x.2.2 f act) := by
  simp only [instructionForms, List.forall_mem_append, List.forall_mem_cons, List.not_mem_nil, false_implies, implies_true, and_true,
    true_and, Nat.reduceLeDiff, Nat.reduceEqDiff, or_false, or_true, forall_const]
  refine ⟨⟨⟨_, .inl rfl, fun _ => rfl⟩, ?_⟩, ?_⟩
  all_goals repeat' apply And.intro
  all_goals exact ⟨_, .inr ⟨_, rfl⟩, fun _ => rfl⟩

/-! ### V registers (R169) -/

@[simp] theorem Dev.v_zero (d : Dev) (e : Nat) : d.v e 0 = 0 := rfl

@[simp] theorem Dev.setV_zero (d : Dev) (e : Nat) (w : Word) : d.setV e 0 w = d := rfl

/-- The flags of an operation are registers. -/
@[simp] theorem Dev.engine_fpFlags (e n : Nat) (fl : FpFlags) (d : Dev) : (d.fpFlags e fl).engine n = d.engine n := by
  unfold Dev.fpFlags
  dsimp only
  split <;> rfl

/-- An engine after a change of one of them. -/
theorem Dev.engine_modEngine (e n : Nat) (g : Engine → Engine) (d : Dev) :
    (d.modEngine e g).engine n = if e = n ∧ n < 12 then g (d.engine e) else d.engine n := vget_vmod ..

/-- A change of an engine that leaves its V registers leaves those of every engine. -/
theorem Dev.vregs_modEngine {g : Engine → Engine} (hg : ∀ x, (g x).v = x.v) (e n : Nat) (d : Dev) :
    ((d.modEngine e g).engine n).v = (d.engine n).v := by
  rw [Dev.engine_modEngine]
  split
  next h => rw [hg, h.1]
  next => rfl

/-- The pointer on its way changes no V register. -/
@[simp] theorem Dev.vregs_advance (e n : Nat) (d : Dev) : ((d.advance e).engine n).v = (d.engine n).v := by
  unfold Dev.advance
  dsimp only
  repeat' split
  case isTrue.isTrue => exact Dev.vregs_modEngine (by exact fun _ => rfl) e n d
  case isTrue.isFalse => exact Dev.vregs_modEngine (by exact fun _ => rfl) e n d
  all_goals rfl

/-- Nor does a FAB cycle that begins. -/
@[simp] theorem Dev.engine_begun (f : EngFields) (n : Nat) (d : Dev) : (d.begun f).engine n = d.engine n := by
  unfold Dev.begun
  split <;> rfl

/-- A result that names V0 changes no V register. -/
theorem OneResult.vregs {e : Nat} {f : EngFields} {act : Dev → Dev} (h : OneResult e f act) (hd : f.d = 0) (n : Nat) (d : Dev) :
    ((act d).engine n).v = (d.engine n).v := by
  obtain rfl | ⟨g, rfl⟩ := h
  · exact Dev.vregs_advance e n d
  · simp [hd]

/-! ### The obligations -/

/-- Settles O37: V0 is no register of the file, and of the other registers a result changes its destination alone. -/
theorem vZeroReadsZero : Obligations.VZeroReadsZero := by
  unfold Obligations.VZeroReadsZero
  rintro s e f _ rfl
  refine ⟨fun r => ⟨Dev.v_zero s.dev e.val, Dev.setV_zero s.dev e.val r⟩, fun hd c op u hmem hop hissues => ?_⟩
  obtain ⟨act, hact, hexec⟩ := exec_eq_issue_oneResult e f _ hmem (hop.imp_right .inr)
  refine ⟨act (s.dev.begun f), ?goes, fun n r => ?vregs⟩
  case goes => exact (hexec s).trans (by rw [State.onDev_eq, Dev.issue_acts hissues])
  case vregs => rw [hact.vregs hd, Dev.engine_begun]

/-- Settles O38: the checks of the issue, in their order. -/
theorem instructionFormFaults : Obligations.InstructionFormFaults := by
  unfold Obligations.InstructionFormFaults
  rintro s e f _ c op u rfl hmem hissue hmode
  obtain ⟨act, hexec⟩ := exec_eq_issue e f _ hmem
  have hgoes : Goes c s (s.dev.issue e.val op u f act) := hexec s
  refine ⟨fun hfetch hword t ht => ?_, fun hfetch => ?uncorrectable⟩
  case uncorrectable => rwa [Dev.issue_uncorrectable hissue hmode hfetch] at hgoes
  rw [Dev.issue_fetched hissue hmode hfetch hword, ← ht] at hgoes
  refine ⟨fun hok => ?field, fun hok houts => ?range⟩
  case field => rwa [if_pos hok] at hgoes
  case range => rwa [if_neg (by simp [hok]), if_pos houts] at hgoes

end Sys2Proof.Machine

/-! SUPPORT. Trips and faults: a trip leaves the registers of every engine, and so the record of the fault that requests it stands. -/

namespace Sys2Proof.Machine

/-! ### Changes outside the pages of the engines -/

/-- A register outside the pages LE0 to LE11. -/
abbrev OffEngines (k : Nat) : Prop := k < 0x10000 ∨ 0x1C000 ≤ k

/-- The registers of the groups' pages, and of those after them, are no engine's. -/
theorem offEngines_of_le {base : Nat} (h : 0x1C000 ≤ base) (i : Nat) : OffEngines (base + i) := .inr (Nat.le_add_right_of_le h)

theorem offEngines_evtRaw {p : Nat} (h : 0x1C ≤ p) : OffEngines (Reg.evtRaw p) := by
  unfold Reg.evtRaw
  omega

/-- From `a` to `b` no register of an engine changes. -/
def Dev.SameEngineRegs (a b : Dev) : Prop := ∀ k, ¬ OffEngines k → b.reg k = a.reg k

namespace Dev.SameEngineRegs

variable {a b d : Dev}

theorem refl (a : Dev) : a.SameEngineRegs a := fun _ _ => rfl

theorem of_regs (h : a.SameEngineRegs b) (hregs : d.regs = b.regs) : a.SameEngineRegs d := by
  intro k hk
  rw [← h k hk, Dev.reg, Dev.reg, hregs]

/-! What each operation on registers adds, where its register lies outside the engines' pages. -/

theorem setReg (h : a.SameEngineRegs d) {k : Nat} {v : Word} (hk : OffEngines k) : a.SameEngineRegs (d.setReg k v) := by
  intro j hj
  have hne : j ≠ k := fun q => hj (q ▸ hk)
  rw [Dev.reg_setReg_ne hne, h j hj]

theorem setFld (h : a.SameEngineRegs d) {k hi lo v : Nat} (hk : OffEngines k) : a.SameEngineRegs (d.setFld k hi lo v) := h.setReg hk

theorem setBit (h : a.SameEngineRegs d) {k i : Nat} {x : Bool} (hk : OffEngines k) : a.SameEngineRegs (d.setBit k i x) := h.setReg hk

theorem bumpSat (h : a.SameEngineRegs d) {k hi lo : Nat} (hk : OffEngines k) : a.SameEngineRegs (d.bumpSat k hi lo) := h.setFld hk

theorem raise (h : a.SameEngineRegs d) {p i : Nat} (hp : 0x1C ≤ p) : a.SameEngineRegs (d.raise p i) := h.setReg (offEngines_evtRaw hp)

theorem when (h : a.SameEngineRegs d) {c : Bool} {f : Dev → Dev} (hf : a.SameEngineRegs (f d)) : a.SameEngineRegs (d.when c f) := by
  cases c with
  | true => exact hf
  | false => exact h

theorem each {α : Type} {l : List α} {f : α → Dev → Dev} (h : a.SameEngineRegs d)
    (hf : ∀ x ∈ l, ∀ d, a.SameEngineRegs d → a.SameEngineRegs (f x d)) : a.SameEngineRegs (Machine.each l f d) := by
  induction l generalizing d with
  | nil => exact h
  | cons x rest ih => exact ih (hf x List.mem_cons_self d h) (fun y hy => hf y (List.mem_cons_of_mem x hy))

end Dev.SameEngineRegs

/-! ### The legs of a group and its lane, which stand beside the registers (R275, R302, R345) -/

@[simp] theorem Dev.regs_driveFrom (own : Bool) (g k : Nat) (hi lo : Bool) (t : Nat) (d : Dev) :
    (d.driveFrom own g k hi lo t).regs = d.regs := by
  unfold Dev.driveFrom Dev.pushEdge Dev.when
  dsimp only
  repeat' split
  all_goals rfl

@[simp] theorem Dev.regs_settle (g : Nat) (d : Dev) : (d.settle g).regs = d.regs := by
  simp [Dev.settle, each, Dev.settleLegAt, Dev.driveAt]

@[simp] theorem Dev.regs_laneTrip (g : Nat) (d : Dev) : (d.laneTrip g).regs = d.regs := by
  unfold Dev.laneTrip Dev.when
  split <;> rfl

/-- A trip action changes PG_TRIP_ACT of its group, and raises an event. -/
theorem Dev.reg_applyAction {g x k : Nat} (hact : k ≠ Reg.PG_TRIP_ACT g) (hraw : k ≠ Reg.evtRaw (0x20 + g)) (d : Dev) :
    (d.applyAction g x).reg k = d.reg k := by
  unfold Dev.applyAction Dev.when
  dsimp only
  rw [Dev.reg, Dev.regs_settle, ← Dev.reg, Dev.reg_setFld_ne hact]
  repeat' split
  all_goals simp [Dev.reg_raise_ne hraw]

/-- GSTATE stands, then. -/
@[simp] theorem Dev.gstate_applyAction (g x : Nat) (d : Dev) : (d.applyAction g x).gstate g = d.gstate g := by
  have hact : Reg.PG_STAT g ≠ Reg.PG_TRIP_ACT g := by unfold Reg.PG_STAT Reg.PG_TRIP_ACT; omega
  have hraw : Reg.PG_STAT g ≠ Reg.evtRaw (0x20 + g) := by unfold Reg.PG_STAT Reg.evtRaw; omega
  rw [Dev.gstate, Dev.fld, Dev.reg_applyAction hact hraw]
  rfl

/-! ### What a trip does at one group (R282, R309 to R313, R329, R459, R612) -/

namespace Dev.SameEngineRegs

variable {a d : Dev}

theorem forceDrop (h : a.SameEngineRegs d) (g : Nat) : a.SameEngineRegs (d.forceDrop g) :=
  of_regs (setReg (setReg (when h (raise h (by omega))) (offEngines_of_le (by decide) _)) (offEngines_of_le (by decide) _)) rfl

theorem setMstate (h : a.SameEngineRegs d) (n v : Nat) : a.SameEngineRegs (d.setMstate n v) :=
  setBit (setFld (when h (raise h (by omega))) (offEngines_of_le (by decide) _)) (offEngines_of_le (by decide) _)

theorem mcMask (h : a.SameEngineRegs d) (g : Nat) : a.SameEngineRegs (d.mcMask g) := by
  unfold Dev.mcMask
  dsimp only
  split
  · refine of_regs (setFld (when h ?_) (offEngines_of_le (by decide) _)) (Dev.regs_settle ..)
    exact bumpSat h (offEngines_of_le (by decide) _)
  · exact h

theorem mcLeaveRun (h : a.SameEngineRegs d) (n : Nat) : a.SameEngineRegs (d.mcLeaveRun n) := by
  unfold Dev.mcLeaveRun
  dsimp only
  split
  · exact h
  · apply mcMask
    split
    · exact setBit (of_regs h rfl) (offEngines_of_le (by decide) _)
    · refine setFld (setMstate (setBit ?_ (offEngines_of_le (by decide) _)) n 0) (offEngines_of_le (by decide) _)
      exact of_regs h rfl

theorem captureFreeze (h : a.SameEngineRegs d) : a.SameEngineRegs d.captureFreeze :=
  of_regs (raise (setBit (of_regs h rfl) (by decide)) (by decide)) rfl

theorem captureTrigger (h : a.SameEngineRegs d) : a.SameEngineRegs d.captureTrigger := by
  have hpointer : a.SameEngineRegs ((d.setReg Reg.DRAM_CAP_TRIG_PTR (d.reg Reg.DRAM_CAP_WPTR)).raise 0xA0 0) :=
    raise (setReg h (by decide)) (by decide)
  unfold Dev.captureTrigger
  dsimp only
  repeat' split
  · exact hpointer
  · exact hpointer.captureFreeze
  · exact hpointer.of_regs rfl
  · exact h

theorem applyAction (h : a.SameEngineRegs d) (g x : Nat) : a.SameEngineRegs (d.applyAction g x) := by
  have hasc : a.SameEngineRegs (d.when (d.tripApplied g != 2 && x == 2) (Dev.modGroup g (fun y => { y with ascAt := d.nowUnits }))) :=
    when h (of_regs h rfl)
  exact of_regs (setFld (when hasc (raise hasc (by omega))) (offEngines_of_le (by decide) _)) (Dev.regs_settle ..)

/-- A group that trips does not reach OFF, and the device was not OFF: no owner changes, and no session ends. -/
theorem setGstate_tripped (h : a.SameEngineRegs d) {g : Nat} (hg : g < 12) (hon : d.gstate g ≠ 0) : a.SameEngineRegs (d.setGstate g 4) := by
  have hoff : d.deviceOff = false := by
    rw [Dev.deviceOff, List.all_eq_false]
    exact ⟨g, List.mem_range.mpr hg, by simp [hon]⟩
  have hstate : a.SameEngineRegs ((d.setFld (Reg.PG_STAT g) 2 0 4).raise (0x20 + g) 7) :=
    raise (setFld h (offEngines_of_le (by decide) _)) (by omega)
  unfold Dev.setGstate
  dsimp only
  split
  · exact h
  · rw [hoff, Dev.when_false, show ((4 : Nat) == 0) = false from rfl, show ((4 : Nat) == 2) = false from rfl, Dev.when_false,
      Dev.when_false]
    exact when hstate ((hstate.forceDrop g).mcLeaveRun g)

theorem tripOne (h : a.SameEngineRegs d) (c : Nat) {g : Nat} (hg : g < 12) : a.SameEngineRegs (d.tripOne c g).2 := by
  have hlatch : ∀ w t : Word, a.SameEngineRegs
      ((((d.setReg (Reg.PG_TRIP_STAT g) w).raise (0x20 + g) 16).setReg (Reg.PG_TRIP_TIME g) t).bumpSat (Reg.PG_TRIP_CNT g) 15 0) :=
    fun w t => bumpSat (setReg (raise (setReg h (offEngines_of_le (by decide) _)) (by omega)) (offEngines_of_le (by decide) _))
      (offEngines_of_le (by decide) _)
  unfold Dev.tripOne
  dsimp only
  repeat' split
  · exact h
  · exact h
  · have hcause := h.setBit (k := Reg.PG_TRIP_STAT g) (i := c) (x := true) (offEngines_of_le (by decide) _)
    exact when hcause (hcause.applyAction g 2)
  · exact of_regs (when (hlatch _ _) (hlatch _ _).captureTrigger) rfl
  · refine of_regs (setGstate_tripped (applyAction (of_regs ?_ rfl) g _) hg ?_) (Dev.regs_laneTrip ..)
    · exact when (hlatch _ _) (hlatch _ _).captureTrigger
    · rwa [Dev.gstate_applyAction]

/-- A latch and its chain (R306): each group that trips is one of the twelve. -/
theorem tripChain (h : a.SameEngineRegs d) (fuel c : Nat) {g : Nat} (hg : g < 12) : a.SameEngineRegs (d.tripChain fuel c g) := by
  induction fuel generalizing c g d with
  | zero => exact h
  | succ fuel ih =>
    unfold Dev.tripChain
    dsimp only
    split
    · exact each (h.tripOne c hg) fun x hx d hd => ih hd 15 (List.mem_range.mp (List.mem_filter.mp hx).1)
    · exact h.tripOne c hg

/-- The engine's request for trips (R203, R216). -/
theorem engineTrip (h : a.SameEngineRegs d) (e c : Nat) : a.SameEngineRegs (d.engineTrip e c Dev.trip) :=
  each h fun _ hg _ hd => hd.tripChain 13 c (List.mem_range.mp (List.mem_filter.mp hg).1)

end Dev.SameEngineRegs

/-! ### Engine faults (R216) -/

/-- A fault's own record: its cause and PC, its event, and FAULT. -/
def Dev.faultRecord (e cause : Nat) (d : Dev) : Dev :=
  (((d.setFld (Reg.LE_STAT e) 23 16 cause).setFld (Reg.LE_PC e) 27 16 (d.pc e)).raise (0x10 + e) 2).setFld (Reg.LE_STAT e) 2 0 5

/-- A swap without delay touches BANK_ACT and BANK_REQ alone. -/
theorem Dev.reg_swapIdle_ne {e k : Nat} (hact : k ≠ Reg.LE_BANK_ACT e) (hreq : k ≠ Reg.LE_BANK_REQ e) (d : Dev) :
    (d.swapIdle e).reg k = d.reg k := by
  unfold Dev.swapIdle Dev.when
  split
  · exact (Dev.reg_setReg_ne hreq _ _).trans (Dev.reg_setReg_ne hact _ _)
  · rfl

/-- The record stands: neither the trips nor the swaps that a fault brings touch it. -/
theorem Dev.reg_engineFault {e c k : Nat} (hk : ¬ OffEngines k) (hact : k ≠ Reg.LE_BANK_ACT e) (hreq : k ≠ Reg.LE_BANK_REQ e) (d : Dev) :
    (d.engineFault e c).reg k = (d.faultRecord e c).reg k := by
  refine (Dev.reg_swapIdle_ne hact hreq _).trans (Dev.SameEngineRegs.engineTrip (a := d.faultRecord e c) ?_ e 10 k hk)
  exact .of_regs (.refl _) rfl

theorem Dev.reg_engineFault_stat (e : Fin 12) (c : Nat) (d : Dev) :
    (d.engineFault e.val c).reg (Reg.LE_STAT e.val) = (d.faultRecord e.val c).reg (Reg.LE_STAT e.val) :=
  Dev.reg_engineFault (by unfold OffEngines Reg.LE_STAT; omega) (by unfold Reg.LE_STAT Reg.LE_BANK_ACT; omega)
    (by unfold Reg.LE_STAT Reg.LE_BANK_REQ; omega) d

/-- STAT records the cause. -/
theorem Dev.fld_engineFault_cause (e : Fin 12) {c : Nat} (hc : c < 256) (d : Dev) :
    (d.engineFault e.val c).fld (Reg.LE_STAT e.val) 23 16 = c := by
  have hraw : Reg.LE_STAT e.val ≠ Reg.evtRaw (0x10 + e.val) := by unfold Reg.LE_STAT Reg.evtRaw; omega
  have hpc : Reg.LE_STAT e.val ≠ Reg.LE_PC e.val := by unfold Reg.LE_STAT Reg.LE_PC; omega
  rw [Dev.fld, Dev.reg_engineFault_stat, ← Dev.fld, Dev.faultRecord, Dev.fld_setFld_disjoint (by decide) (by decide) (by decide), Dev.fld,
    Dev.reg_raise_ne hraw, Dev.reg_setFld_ne hpc, ← Dev.fld, Dev.fld_setFld_same (by decide) (by decide)]
  exact Nat.mod_eq_of_lt hc

/-- ESTATE is FAULT. -/
theorem Dev.estate_engineFault (e : Fin 12) (c : Nat) (d : Dev) : (d.engineFault e.val c).estate e.val = 5 := by
  rw [Dev.estate, Dev.fld, Dev.reg_engineFault_stat, ← Dev.fld]
  exact Dev.fld_setFld_same (by decide) (by decide) _

/-- The page raises FAULT. -/
theorem Dev.bit_engineFault_raised (e : Fin 12) (c : Nat) (d : Dev) :
    (d.engineFault e.val c).bit (Reg.evtRaw (0x10 + e.val)) 2 = true := by
  have hstat : Reg.evtRaw (0x10 + e.val) ≠ Reg.LE_STAT e.val := by unfold Reg.LE_STAT Reg.evtRaw; omega
  rw [Dev.bit, Dev.reg_engineFault (by unfold OffEngines Reg.evtRaw; omega) (by unfold Reg.evtRaw Reg.LE_BANK_ACT; omega)
    (by unfold Reg.evtRaw Reg.LE_BANK_REQ; omega), Dev.faultRecord, Dev.reg_setFld_ne hstat]
  exact Dev.bit_raise_same (by decide) _

/-! ### Loads and stores off their alignment (R188) -/

/-- The address of a load or store is read before anything changes. -/
theorem Dev.memAddr_begun (e : Nat) (f : EngFields) (d : Dev) : (d.begun f).memAddr e f = d.memAddr e f := by
  unfold Dev.memAddr Dev.v
  rw [Dev.engine_begun]

theorem Dev.loadOp_misaligned {e : Nat} {f : EngFields} {d : Dev} (h : misaligned e (d.memAddr e f) f.m.val = true) :
    d.loadOp e f = d.engineFault e 4 := by
  unfold Dev.loadOp
  exact if_pos h

theorem Dev.storeOp_misaligned {e : Nat} {f : EngFields} {d : Dev} (h : misaligned e (d.memAddr e f) f.m.val = true) :
    d.storeOp e f = d.engineFault e 4 := by
  unfold Dev.storeOp
  exact if_pos h

/-- What breaks R188: no multiple of 4, or a pair off a multiple of 8 or outside the engine's own TCM. -/
theorem misaligned_iff {e a m : Nat} : misaligned e a m = true ↔
    a % 4 ≠ 0 ∨ m = 1 ∧ (a % 8 ≠ 0 ∨ a < tcmBase e ∨ tcmBase e + 0x20000 ≤ a) := by
  simp only [misaligned, ownTcm, Bool.or_eq_true, Bool.and_eq_true, bne_iff_ne, beq_iff_eq, Bool.not_eq_true', Bool.and_eq_false_iff,
    decide_eq_false_iff_not, Nat.not_le, Nat.not_lt]

/-! ### The obligation -/

/-- Settles O40: the access finds its address misaligned, and the fault's record stands through the trips that the fault requests. -/
theorem misalignedAccessFaults : Obligations.MisalignedAccessFaults := by
  unfold Obligations.MisalignedAccessFaults
  rintro s e f _ _ _ rfl rfl rfl hbad t rfl
  have hmis : misaligned e.val ((s.dev.begun f).memAddr e.val f) f.m.val = true := by
    rw [Dev.memAddr_begun, misaligned_iff]
    exact hbad
  refine ⟨Dev.fld_engineFault_cause e (by decide) _, Dev.estate_engineFault e 4 _, Dev.bit_engineFault_raised e 4 _,
    fun hissues => ?load, fun hissues => ?store⟩
  case load =>
    have hgoes : Goes (.ld e f) s (s.dev.issue e.val _ _ f (Dev.loadOp e.val f)) := rfl
    rwa [Dev.issue_acts hissues, Dev.loadOp_misaligned hmis] at hgoes
  case store =>
    have hgoes : Goes (.st e f) s (s.dev.issue e.val _ _ f (Dev.storeOp e.val f)) := rfl
    rwa [Dev.issue_acts hissues, Dev.storeOp_misaligned hmis] at hgoes

end Sys2Proof.Machine

/-! SUPPORT. Writes of an engine's CTRL: EN (R207). -/

namespace Sys2Proof.Machine

/-- The pages 0x10 to 0x1B are LE0 to LE11. -/
theorem pageKind_engine (e : Fin 12) : pageKind? (0x10 + e.val) = some (.le, e.val) := by
  revert e
  decide

/-- SRST is the one keyed field of an engine's CTRL, and it is only written. -/
theorem regAt_engineCtrl (e : Fin 12) : regAt (Reg.LE_CTRL e.val) = some (.le, e.val, { off := 0x4, rw := 0x1, wo := 0x2, keyed := 0x2 }, 0) := by
  revert e
  decide

/-- A write of an engine's CTRL without SRST is no keyed write. -/
theorem keyedWrite_engineCtrl (e : Fin 12) {v : Word} (hv : bitAt 1 v = false) : keyedWrite (Reg.LE_CTRL e.val) v = false := by
  have hbit : v.toNat.testBit 1 = false := hv
  have hsrst : v.toNat &&& 0x2 = 0 := by
    show v.toNat &&& 2 ^ 1 = 0
    apply Nat.eq_of_testBit_eq
    intro i
    rw [Nat.testBit_and, Nat.testBit_two_pow, Nat.zero_testBit]
    by_cases hi : 1 = i
    · rw [← hi, hbit, Bool.false_and]
    · rw [decide_eq_false hi, Bool.and_false]
  unfold keyedWrite
  rw [regAt_engineCtrl]
  simp [hsrst]

/-- A write of an engine's CTRL without SRST is a write of EN. -/
theorem Dev.pageWrite_engineCtrl {m : Master} {e : Fin 12} {v : Word} {d : Dev} (hreach : d.Reaches m (Reg.LE_CTRL e.val))
    (hv : bitAt 1 v = false) : d.pageWrite m (0x10 + e.val) 4 v = d.leEnOp m e.val v := by
  have hkey : (0x10 + e.val) * 0x1000 + 4 = Reg.LE_CTRL e.val := by unfold Reg.LE_CTRL; omega
  have hpage : Reg.LE_CTRL e.val / 0x1000 = 0x10 + e.val := by unfold Reg.LE_CTRL; omega
  have hoff : Reg.LE_CTRL e.val % 0x1000 = 4 := by unfold Reg.LE_CTRL; omega
  obtain ⟨hheld, hmay⟩ := hreach
  unfold Dev.pageWrite
  rw [if_neg (by decide), if_neg (by decide), if_neg (by omega), hkey,
    Dev.accessWrite_plain hheld hmay (keyedWrite_engineCtrl e hv)]
  unfold Dev.regOp Dev.ctrlWrite
  simp only [hpage, hoff, pageKind_engine, hv, if_true, Dev.when_false]

/-- A write of 0 to EN that R207 bars is discarded. -/
theorem Dev.leEnOp_barred {m : Master} {e : Nat} {v : Word} {d : Dev} (hv : bitAt 0 v = false) (hh : d.estate e ≠ 0) (hf : d.estate e ≠ 5) :
    d.leEnOp m e v = d.discard m (Reg.LE_CTRL e) := by
  simp [Dev.leEnOp, hv, hh, hf]

/-- In HALTED and in FAULT a write of 0 to EN clears it. -/
theorem Dev.leEnOp_clears {m : Master} {e : Nat} {v : Word} {d : Dev} (hv : bitAt 0 v = false) (hs : d.estate e = 0 ∨ d.estate e = 5) :
    d.leEnOp m e v = d.setBit (Reg.LE_CTRL e) 0 false := by
  simp [Dev.leEnOp, hv, hs]

/-! ### The obligation -/

/-- Settles O41: the write reaches the operation of EN, which asks for ESTATE. -/
theorem engineEnableHeldWhileRunning : Obligations.EngineEnableHeldWhileRunning := by
  unfold Obligations.EngineEnableHeldWhileRunning
  rintro s m e a v same _ rfl ha hreach hen hsrst
  have hkey : Reg.LE_CTRL e.val = (0x10 + e.val) * 0x1000 + 4 := by unfold Reg.LE_CTRL; omega
  have haddr : a.toNat = keyAddr ((0x10 + e.val) * 0x1000 + 4) := by
    unfold keyAddr
    omega
  have hr : regionOf a.toNat = .page (0x10 + e.val) 4 := by
    rw [haddr]
    exact regionOf_keyAddr (by rw [pageKind_engine]; rfl) (by decide)
  have hgoes := goes_registerWrite_page (v := v) hr (by decide) (by decide) (hkey ▸ hreach)
  rw [Dev.pageWrite_engineCtrl hreach hsrst] at hgoes
  refine ⟨fun hs => ?cleared, fun hh hf => ?discarded⟩
  case cleared => rwa [Dev.leEnOp_clears hen hs] at hgoes
  case discarded =>
    rw [Dev.leEnOp_barred hen hh hf, hkey] at hgoes
    exact ⟨_, hgoes, Dev.logged_discard hr (by decide) _⟩

end Sys2Proof.Machine

/-! SUPPORT. Trips: the latch of a group, its state, and the chain that a new latch starts (R282, R304 to R306). -/

namespace Sys2Proof.Machine

/-! ### General facts -/

/-- What each update of a fold keeps, the fold keeps. -/
theorem each_induction {α σ : Type} {P : σ → Prop} {l : List α} {f : α → σ → σ} {s : σ} (h : P s) (hf : ∀ x ∈ l, ∀ s, P s → P (f x s)) :
    P (each l f s) := List.foldlRecOn l (fun s x => f x s) h fun s hs x hx => hf x hx s hs

theorem Dev.reg_when {c : Bool} {f : Dev → Dev} {d : Dev} {k : Nat} (h : (f d).reg k = d.reg k) : (d.when c f).reg k = d.reg k := by
  obtain ⟨hwhen, -⟩ | ⟨hwhen, -⟩ := Dev.when_cases c f d
  · rw [hwhen, h]
  · rw [hwhen]

@[simp] theorem Dev.reg_settle (g k : Nat) (d : Dev) : (d.settle g).reg k = d.reg k := by rw [Dev.reg, Dev.regs_settle, Dev.reg]

@[simp] theorem Dev.reg_laneTrip (g k : Nat) (d : Dev) : (d.laneTrip g).reg k = d.reg k := by rw [Dev.reg, Dev.regs_laneTrip, Dev.reg]

/-! ### STAT and TRIP_STAT of the groups

Of the operations that a trip is made of, only the change of GSTATE writes STAT of a group and only the latch writes TRIP_STAT; their
registers are told from all others by their offsets, 0x008 and 0x114, and from those of MC and DRAM by their pages. -/

/-- `k` may be STAT or TRIP_STAT of a group, and is no register of a page from 0x70 on. -/
def StatusReg (k : Nat) : Prop := k < 0x70000 ∧ (k % 0x1000 = 0x008 ∨ k % 0x1000 = 0x114)

theorem statusReg_stat {g : Nat} (hg : g < 12) : StatusReg (Reg.PG_STAT g) := by
  unfold StatusReg Reg.PG_STAT
  omega

theorem statusReg_tripStat {g : Nat} (hg : g < 12) : StatusReg (Reg.PG_TRIP_STAT g) := by
  unfold StatusReg Reg.PG_TRIP_STAT
  omega

theorem stat_ne_tripStat (g h : Nat) : Reg.PG_STAT g ≠ Reg.PG_TRIP_STAT h := by
  unfold Reg.PG_STAT Reg.PG_TRIP_STAT
  omega

theorem stat_ne_stat {g h : Nat} (hne : g ≠ h) : Reg.PG_STAT g ≠ Reg.PG_STAT h := by
  unfold Reg.PG_STAT
  omega

theorem tripStat_ne_tripStat {g h : Nat} (hne : g ≠ h) : Reg.PG_TRIP_STAT g ≠ Reg.PG_TRIP_STAT h := by
  unfold Reg.PG_TRIP_STAT
  omega

namespace StatusReg

variable {k : Nat}

/-- A register at another offset of its page. -/
theorem ne_of_offset (hk : StatusReg k) {base : Nat} (h : base % 0x1000 ≠ 0x008 ∧ base % 0x1000 ≠ 0x114) (n : Nat) :
    k ≠ base + n * 0x1000 := by
  unfold StatusReg at hk
  omega

/-- A register of the pages from 0x70 on. -/
theorem ne_of_le (hk : StatusReg k) {base : Nat} (h : 0x70000 ≤ base) (i : Nat) : k ≠ base + i := by
  unfold StatusReg at hk
  omega

/-- EVT_RAW stands at 0x00C. -/
theorem offset_ne_evtRaw (hk : StatusReg k) : k % 0x1000 ≠ 0xC := by
  unfold StatusReg at hk
  omega

theorem reg_raise (hk : StatusReg k) (p i : Nat) (d : Dev) : (d.raise p i).reg k = d.reg k :=
  Dev.reg_raise_of_offset hk.offset_ne_evtRaw d

theorem reg_forceDrop (hk : StatusReg k) (g : Nat) (d : Dev) : (d.forceDrop g).reg k = d.reg k :=
  (Dev.reg_setReg_ne (hk.ne_of_offset (by decide) g) _ _).trans
    ((Dev.reg_setReg_ne (hk.ne_of_offset (by decide) g) _ _).trans (Dev.reg_when (hk.reg_raise _ _ _)))

theorem reg_setMstate (hk : StatusReg k) (n v : Nat) (d : Dev) : (d.setMstate n v).reg k = d.reg k :=
  (Dev.reg_setBit_ne (hk.ne_of_offset (by decide) n) _ _).trans
    ((Dev.reg_setFld_ne (hk.ne_of_le (by decide) _) _).trans (Dev.reg_when (hk.reg_raise _ _ _)))

theorem reg_mcMask (hk : StatusReg k) (g : Nat) (d : Dev) : (d.mcMask g).reg k = d.reg k := by
  unfold Dev.mcMask
  split
  · exact (Dev.reg_settle ..).trans ((Dev.reg_setFld_ne (hk.ne_of_offset (by decide) g) _).trans
      (Dev.reg_when (Dev.reg_bumpSat_ne (hk.ne_of_offset (by decide) g) _)))
  · rfl

theorem reg_mcLeaveRun (hk : StatusReg k) (n : Nat) (d : Dev) : (d.mcLeaveRun n).reg k = d.reg k := by
  have hstat : k ≠ Reg.MC_STAT n := hk.ne_of_le (by decide) _
  unfold Dev.mcLeaveRun
  dsimp only
  split
  · rfl
  · rw [hk.reg_mcMask]
    split
    · exact Dev.reg_setBit_ne hstat _ _
    · rw [Dev.reg_setFld_ne hstat, hk.reg_setMstate]
      exact Dev.reg_setBit_ne hstat _ _

theorem reg_captureFreeze (hk : StatusReg k) (d : Dev) : d.captureFreeze.reg k = d.reg k :=
  (hk.reg_raise 0xA0 1 _).trans (Dev.reg_setBit_ne (hk.ne_of_le (by decide) 0) _ _)

theorem reg_captureTrigger (hk : StatusReg k) (d : Dev) : d.captureTrigger.reg k = d.reg k := by
  have hpointer : ((d.setReg Reg.DRAM_CAP_TRIG_PTR (d.reg Reg.DRAM_CAP_WPTR)).raise 0xA0 0).reg k = d.reg k :=
    (hk.reg_raise 0xA0 0 _).trans (Dev.reg_setReg_ne (hk.ne_of_le (by decide) 0) _ _)
  unfold Dev.captureTrigger
  dsimp only
  repeat' split
  · exact hpointer
  · exact (hk.reg_captureFreeze _).trans hpointer
  · exact hpointer
  · rfl

theorem reg_applyAction (hk : StatusReg k) (g x : Nat) (d : Dev) : (d.applyAction g x).reg k = d.reg k :=
  Dev.reg_applyAction (hk.ne_of_offset (by decide) g) (evtRaw_ne_of_offset hk.offset_ne_evtRaw).symm d

end StatusReg

/-! ### The change to TRIPPED (R282) -/

theorem Dev.deviceOff_of_on {g : Nat} (hg : g < 12) {d : Dev} (hon : d.gstate g ≠ 0) : d.deviceOff = false :=
  List.all_eq_false.mpr ⟨g, List.mem_range.mpr hg, by simp [hon]⟩

/-- A group that trips enters neither RUN nor OFF, and the device was not OFF: what is left is what leaving RUN brings. -/
theorem Dev.setGstate_tripped_eq {g : Nat} (hg : g < 12) {d : Dev} (hon : d.gstate g ≠ 0) (hnew : d.gstate g ≠ 4) : d.setGstate g 4 =
    ((d.setFld (Reg.PG_STAT g) 2 0 4).raise (0x20 + g) 7).when (d.gstate g == 2) (fun d => (d.forceDrop g).mcLeaveRun g) := by
  unfold Dev.setGstate
  rw [if_neg hnew, Dev.deviceOff_of_on hg hon]
  rfl

theorem StatusReg.reg_setGstate_tripped {k g : Nat} (hk : StatusReg k) (hg : g < 12) {d : Dev} (hon : d.gstate g ≠ 0)
    (hnew : d.gstate g ≠ 4) : (d.setGstate g 4).reg k = (d.setFld (Reg.PG_STAT g) 2 0 4).reg k := by
  rw [Dev.setGstate_tripped_eq hg hon hnew, Dev.reg_when, hk.reg_raise]
  rw [hk.reg_mcLeaveRun, hk.reg_forceDrop]

theorem Dev.setGstate_same (g : Nat) (d : Dev) : d.setGstate g (d.gstate g) = d := if_pos rfl

theorem StatusReg.reg_setGstate_tripped_ne {k g : Nat} (hk : StatusReg k) (hne : k ≠ Reg.PG_STAT g) (hg : g < 12) {d : Dev}
    (hon : d.gstate g ≠ 0) : (d.setGstate g 4).reg k = d.reg k := by
  by_cases hold : d.gstate g = 4
  · rw [← hold, Dev.setGstate_same]
  · rw [hk.reg_setGstate_tripped hg hon hold, Dev.reg_setFld_ne hne]

theorem Dev.gstate_setGstate_tripped {g : Nat} (hg : g < 12) {d : Dev} (hon : d.gstate g ≠ 0) : (d.setGstate g 4).gstate g = 4 := by
  by_cases hold : d.gstate g = 4
  · rw [← hold, Dev.setGstate_same]
  · rw [Dev.gstate, Dev.fld, (statusReg_stat hg).reg_setGstate_tripped hg hon hold, ← Dev.fld]
    exact Dev.fld_setFld_same (by decide) (by decide) d

/-! ### A new latch (R305, R309 to R313) -/

/-- A cause that trips the group: it cannot be disabled, or it is enabled (R304). -/
abbrev Dev.tripEnabled (d : Dev) (g c : Nat) : Prop := tripFixed c = true ∨ d.bit (Reg.PG_TRIP_EN g) c = true

/-- TRIP_STAT of a group that cause `c` has latched: LATCH, FIRST, and the cause. -/
def latchWord (c : Nat) : Word := bitMask 31 ||| place 27 24 c ||| bitMask c

/-- The record of a new latch, before its action. -/
def Dev.latchTrip (c g : Nat) (d : Dev) : Dev :=
  let d := d.setReg (Reg.PG_TRIP_STAT g) (latchWord c)
  let d := ((d.raise (0x20 + g) 16).setReg (Reg.PG_TRIP_TIME g) (word d.devTime)).bumpSat (Reg.PG_TRIP_CNT g) 15 0
  let d := d.when (natBit g (d.fld Reg.DRAM_CAP_TRIG 11 0)) Dev.captureTrigger
  d.modGroup g (fun x => { x with clearPending := false, stopAtReload := false, tripAt := d.nowUnits })

/-- A new latch with its action, which a group that is OFF does not take. -/
def Dev.newTrip (c g : Nat) (d : Dev) : Dev :=
  let d := d.latchTrip c g
  if d.gstate g = 0 then d else ((d.applyAction g (d.tripActionOf g c)).setGstate g 4).laneTrip g

/-- An enabled cause at a group without a latch is a new latch. -/
theorem Dev.tripOne_new {c g : Nat} {d : Dev} (hen : d.tripEnabled g c) (hclear : d.latched g = false) :
    d.tripOne c g = (true, d.newTrip c g) := by
  unfold Dev.tripOne
  rw [(Bool.or_eq_true ..).mpr hen, if_neg (by decide), if_neg (by simp [hclear])]
  exact (apply_ite (Prod.mk true) _ _ _).symm

/-- Cause CHAIN at a group is a new latch or nothing (R306). -/
theorem Dev.tripOne_chain (g : Nat) (d : Dev) :
    d.tripOne 15 g = (false, d) ∨ d.latched g = false ∧ d.tripOne 15 g = (true, d.newTrip 15 g) := by
  by_cases hen : d.tripEnabled g 15
  · cases hlatch : d.latched g with
    | false => exact .inr ⟨rfl, Dev.tripOne_new hen hlatch⟩
    | true => exact .inl (by simp [Dev.tripOne, hlatch])
  · exact .inl (if_pos (by simpa using hen))

/-! What a new latch does to STAT and TRIP_STAT. -/

theorem StatusReg.reg_latchTrip {k : Nat} (hk : StatusReg k) (c g : Nat) (d : Dev) :
    (d.latchTrip c g).reg k = (d.setReg (Reg.PG_TRIP_STAT g) (latchWord c)).reg k :=
  (Dev.reg_when (hk.reg_captureTrigger _)).trans ((Dev.reg_bumpSat_ne (hk.ne_of_offset (by decide) g) _).trans
    ((Dev.reg_setReg_ne (hk.ne_of_offset (by decide) g) _ _).trans (hk.reg_raise _ _ _)))

theorem Dev.gstate_latchTrip (c : Nat) {g : Nat} (hg : g < 12) (d : Dev) : (d.latchTrip c g).gstate g = d.gstate g := by
  rw [Dev.gstate, Dev.fld, (statusReg_stat hg).reg_latchTrip, Dev.reg_setReg_ne (stat_ne_tripStat g g)]
  rfl

theorem Dev.newTrip_off (c : Nat) {g : Nat} (hg : g < 12) {d : Dev} (hoff : d.gstate g = 0) : d.newTrip c g = d.latchTrip c g :=
  if_pos ((Dev.gstate_latchTrip c hg d).trans hoff)

theorem Dev.newTrip_on (c : Nat) {g : Nat} (hg : g < 12) {d : Dev} (hon : d.gstate g ≠ 0) : d.newTrip c g =
    (((d.latchTrip c g).applyAction g ((d.latchTrip c g).tripActionOf g c)).setGstate g 4).laneTrip g :=
  if_neg (by rwa [Dev.gstate_latchTrip c hg])

/-- The group's action and its change of state leave the registers of the others, and TRIP_STAT, as the latch left them. -/
theorem StatusReg.reg_newTrip {k g : Nat} (hk : StatusReg k) (hne : k ≠ Reg.PG_STAT g) (c : Nat) (hg : g < 12) (d : Dev) :
    (d.newTrip c g).reg k = (d.setReg (Reg.PG_TRIP_STAT g) (latchWord c)).reg k := by
  rw [← hk.reg_latchTrip]
  by_cases hon : d.gstate g = 0
  · rw [Dev.newTrip_off c hg hon]
  · rw [Dev.newTrip_on c hg hon, Dev.reg_laneTrip, hk.reg_setGstate_tripped_ne hne hg, hk.reg_applyAction]
    rwa [Dev.gstate_applyAction, Dev.gstate_latchTrip c hg]

theorem Dev.reg_newTrip_tripStat (c : Nat) {g : Nat} (hg : g < 12) (d : Dev) : (d.newTrip c g).reg (Reg.PG_TRIP_STAT g) = latchWord c :=
  ((statusReg_tripStat hg).reg_newTrip (stat_ne_tripStat g g).symm c hg d).trans (Dev.reg_setReg_same ..)

theorem Dev.gstate_newTrip_off (c : Nat) {g : Nat} (hg : g < 12) {d : Dev} (hoff : d.gstate g = 0) : (d.newTrip c g).gstate g = 0 := by
  rw [Dev.newTrip_off c hg hoff, Dev.gstate_latchTrip c hg, hoff]

theorem Dev.gstate_newTrip_on (c : Nat) {g : Nat} (hg : g < 12) {d : Dev} (hon : d.gstate g ≠ 0) : (d.newTrip c g).gstate g = 4 := by
  rw [Dev.newTrip_on c hg hon, Dev.gstate, Dev.fld, Dev.reg_laneTrip]
  refine Dev.gstate_setGstate_tripped hg ?_
  rwa [Dev.gstate_applyAction, Dev.gstate_latchTrip c hg]

/-! ### The chain (R306) -/

/-- From `a` to `b` STAT and TRIP_STAT of the group stand. -/
structure Dev.SameTrip (g : Nat) (a b : Dev) : Prop where
  stat     : b.reg (Reg.PG_STAT g) = a.reg (Reg.PG_STAT g)
  tripStat : b.reg (Reg.PG_TRIP_STAT g) = a.reg (Reg.PG_TRIP_STAT g)

namespace Dev.SameTrip

variable {g : Nat} {a b : Dev}

theorem gstate (h : a.SameTrip g b) : b.gstate g = a.gstate g := by rw [Dev.gstate, Dev.fld, h.stat, Dev.gstate, Dev.fld]

theorem latched (h : a.SameTrip g b) : b.latched g = a.latched g := by rw [Dev.latched, Dev.bit, h.tripStat, Dev.latched, Dev.bit]

end Dev.SameTrip

/-- A new latch of another group leaves the group as it is. -/
theorem Dev.SameTrip.newTrip {g h : Nat} {a d : Dev} (hsame : a.SameTrip g d) (hne : g ≠ h) (c : Nat) (hg : g < 12) (hh : h < 12) :
    a.SameTrip g (d.newTrip c h) where
  stat := by
    rw [(statusReg_stat hg).reg_newTrip (stat_ne_stat hne) c hh, Dev.reg_setReg_ne (stat_ne_tripStat g h), hsame.stat]
  tripStat := by
    rw [(statusReg_tripStat hg).reg_newTrip (stat_ne_tripStat h g).symm c hh, Dev.reg_setReg_ne (tripStat_ne_tripStat hne), hsame.tripStat]

/-- A chain leaves a group that has its latch as it is, whether it comes back to the group or not. -/
theorem Dev.SameTrip.tripChain {g h : Nat} {a d : Dev} (hsame : a.SameTrip g d) (hlatch : a.latched g = true) (hg : g < 12) (hh : h < 12)
    (fuel : Nat) : a.SameTrip g (d.tripChain fuel 15 h) := by
  induction fuel generalizing h d with
  | zero => exact hsame
  | succ fuel ih =>
    unfold Dev.tripChain
    obtain hnone | ⟨hclear, hnew⟩ := Dev.tripOne_chain h d
    · rwa [hnone]
    · have hne : g ≠ h := by
        rintro rfl
        rw [hsame.latched, hlatch] at hclear
        cases hclear
      rw [hnew]
      exact each_induction (hsame.newTrip hne 15 hg hh) fun x hx d hd => ih hd (List.mem_range.mp (List.mem_filter.mp hx).1)

/-- What a new latch makes of its group stands through the chain. -/
theorem Dev.newTrip_sameTrip_trip {c g : Nat} {d : Dev} (hg : g < 12) (hen : d.tripEnabled g c) (hclear : d.latched g = false)
    (hlatch : (d.newTrip c g).latched g = true) : (d.newTrip c g).SameTrip g (d.trip c g) := by
  unfold Dev.trip Dev.tripChain
  rw [Dev.tripOne_new hen hclear]
  exact each_induction ⟨rfl, rfl⟩ fun x hx d hd => hd.tripChain hlatch hg (List.mem_range.mp (List.mem_filter.mp hx).1) 12

/-! ### The obligation -/

/-- LATCH is set, FIRST is the cause, and the cause's own bit is set. -/
theorem latchWord_reads (c : Fin 16) :
    bitAt 31 (latchWord c.val) = true ∧ fld 27 24 (latchWord c.val) = c.val ∧ bitAt c.val (latchWord c.val) = true := by
  revert c
  decide

/-- CMD of a group has no keyed field. -/
theorem keyedWrite_groupCmd (g : Fin 12) (v : Word) : keyedWrite (Reg.PG_CMD g.val) v = false := by
  apply keyedWrite_false
  revert g
  decide

/-- TRIP_NOW that its master's access table permits is cause 7. -/
theorem goes_tripNow {s : State} {m : Master} {g : Fin 12} (hreach : s.dev.Reaches m (Reg.PG_CMD g.val)) :
    Goes (.tripNow m g) s (s.dev.trip 7 g.val) := by
  obtain ⟨hheld, hmay⟩ := hreach
  show s.onDev (fun d => d.accessWrite m (Reg.PG_CMD g.val) 0x10 (Dev.trip 7 g.val)) = _
  rw [State.onDev, Dev.accessWrite_plain hheld hmay (keyedWrite_groupCmd g _)]

/-- Settles O42: the new latch writes TRIP_STAT and takes a group that is not OFF to TRIPPED, and the chain leaves both. -/
theorem causesLatchInEveryState : Obligations.CausesLatchInEveryState := by
  unfold Obligations.CausesLatchInEveryState
  intro d g c hen hclear
  obtain ⟨hlatch, hfirst, hcause⟩ := latchWord_reads c
  have hnew := Dev.reg_newTrip_tripStat c.val g.isLt d
  have hsame := Dev.newTrip_sameTrip_trip g.isLt hen hclear (by rw [Dev.latched, Dev.bit, hnew, hlatch])
  have hword : (d.trip c.val g.val).reg (Reg.PG_TRIP_STAT g.val) = latchWord c.val := hsame.tripStat.trans hnew
  refine ⟨?latched, ?first, ?cause, fun hoff => ?off, fun hon => ?tripped, ?tripNow⟩
  case latched => rw [Dev.latched, Dev.bit, hword, hlatch]
  case first => rw [Dev.fld, hword, hfirst]
  case cause => rw [Dev.bit, hword, hcause]
  case off => rw [hsame.gstate, Dev.gstate_newTrip_off c.val g.isLt hoff]
  case tripped => rw [hsame.gstate, Dev.gstate_newTrip_on c.val g.isLt (by omega)]
  case tripNow =>
    rintro s m rfl rfl hreach
    exact goes_tripNow hreach

end Sys2Proof.Machine

/-! SUPPORT. The incremental decoder: the edge that new levels of A and B make, POS and REV after it, and what the units that follow
the position leave of both (R421, R423). -/

namespace Sys2Proof.Machine

/-! ### Fields -/

theorem fld_lt (hi lo : Nat) (w : Word) : fld hi lo w < 2 ^ (hi - lo + 1) := Nat.mod_lt _ (Nat.two_pow_pos _)

/-- A count saturates at the largest value of its field. -/
theorem Dev.fld_bumpSat_same {k hi lo : Nat} (h : hi < 32) (hl : lo ≤ hi) (d : Dev) :
    (d.bumpSat k hi lo).fld k hi lo = min (2 ^ (hi - lo + 1) - 1) (d.fld k hi lo + 1) := by
  have hpos : 0 < 2 ^ (hi - lo + 1) := Nat.two_pow_pos _
  unfold Dev.bumpSat Dev.addSat
  rw [Dev.fld_setFld_same h hl, Nat.mod_eq_of_lt (by omega), Nat.min_comm]

/-! ### The edge and its count -/

/-- A transition of A alone is forward where A leads B. -/
theorem quadStep_a {a a' : Bool} (b : Bool) (h : a' ≠ a) : quadStep a b a' b = some (a' != b) := by
  simp [quadStep, h.symm]

/-- A transition of B alone is forward where B follows A. -/
theorem quadStep_b (a : Bool) {b b' : Bool} (h : b' ≠ b) : quadStep a b a b' = some (a == b') := by
  simp [quadStep, h.symm]

/-- A free-running count is modulo 2^32, and REV stands. -/
theorem stepPos_free (pos rev : Nat) (fwd : Bool) :
    stepPos 0 pos rev fwd = ((if fwd then pos + 1 else pos + 0xFFFFFFFF) % 2 ^ 32, rev) := by
  have hback : pos + 2 ^ 32 - 1 = pos + 0xFFFFFFFF := by omega
  rw [stepPos, if_pos rfl, hback]

theorem stepPos_forward {c : Nat} (hc : c ≠ 0) (pos rev : Nat) :
    stepPos c pos rev true = if pos = c - 1 then (0, rev + 1) else (pos + 1, rev) := if_neg hc

theorem stepPos_backward {c : Nat} (hc : c ≠ 0) (pos rev : Nat) :
    stepPos c pos rev false = if pos = 0 then (c - 1, rev + 0xFFFF) else (pos - 1, rev) := if_neg hc

/-- A count within its circle leaves POS a word. -/
theorem stepPos_lt {c pos : Nat} (hc : c < 2 ^ 32) (hpos : c = 0 ∨ pos < c) (rev : Nat) (fwd : Bool) :
    (stepPos c pos rev fwd).1 < 2 ^ 32 := by
  obtain rfl | hlt := hpos
  · rw [stepPos_free]
    exact Nat.mod_lt _ (by decide)
  · cases fwd with
    | true => rw [stepPos_forward (by omega)]; split <;> dsimp only <;> omega
    | false => rw [stepPos_backward (by omega)]; split <;> dsimp only <;> omega

/-! ### Registers other than POS and REV

POS and REV stand at 0x048 and 0x04C of their page; what follows a change of the position writes registers at other offsets. -/

/-- `k` may be POS or REV of an interface. -/
def PositionReg (k : Nat) : Prop := k % 0x1000 = 0x048 ∨ k % 0x1000 = 0x04C

theorem positionReg_pos (n : Nat) : PositionReg (Reg.PF_POS n) := by unfold PositionReg Reg.PF_POS; omega

theorem positionReg_rev (n : Nat) : PositionReg (Reg.PF_REV n) := by unfold PositionReg Reg.PF_REV; omega

theorem not_positionReg_of_offset {base : Nat} (h : base % 0x1000 ≠ 0x048 ∧ base % 0x1000 ≠ 0x04C) (n : Nat) :
    ¬ PositionReg (base + n * 0x1000) := by
  unfold PositionReg
  omega

theorem not_positionReg_evtRaw (p : Nat) : ¬ PositionReg (Reg.evtRaw p) := by
  unfold PositionReg Reg.evtRaw
  omega

/-- From `a` to `b` POS and REV of every interface stand. -/
def Dev.SamePosition (a b : Dev) : Prop := ∀ k, PositionReg k → b.reg k = a.reg k

namespace Dev.SamePosition

variable {a d : Dev}

theorem refl (a : Dev) : a.SamePosition a := fun _ _ => rfl

theorem modPf (h : a.SamePosition d) (n : Nat) (f : PosUnit → PosUnit) : a.SamePosition (d.modPf n f) := h

theorem setReg (h : a.SamePosition d) {k : Nat} {v : Word} (hk : ¬ PositionReg k) : a.SamePosition (d.setReg k v) := by
  intro j hj
  have hne : j ≠ k := fun q => hk (q ▸ hj)
  rw [Dev.reg_setReg_ne hne, h j hj]

theorem setFld (h : a.SamePosition d) {k hi lo v : Nat} (hk : ¬ PositionReg k) : a.SamePosition (d.setFld k hi lo v) := h.setReg hk

theorem setBit (h : a.SamePosition d) {k i : Nat} {x : Bool} (hk : ¬ PositionReg k) : a.SamePosition (d.setBit k i x) := h.setReg hk

theorem bumpSat (h : a.SamePosition d) {k hi lo : Nat} (hk : ¬ PositionReg k) : a.SamePosition (d.bumpSat k hi lo) := h.setFld hk

theorem raise (h : a.SamePosition d) (p i : Nat) : a.SamePosition (d.raise p i) := h.setReg (not_positionReg_evtRaw p)

theorem ite {c : Prop} [Decidable c] {x y : Dev} (hx : a.SamePosition x) (hy : a.SamePosition y) :
    a.SamePosition (if c then x else y) := by
  split
  · exact hx
  · exact hy

theorem when (h : a.SamePosition d) {c : Bool} {f : Dev → Dev} (hf : a.SamePosition (f d)) : a.SamePosition (d.when c f) :=
  ite hf h

/-! What follows the position: the speed unit, the compare and the emulators (R437 to R450). -/

theorem showSpeed (h : a.SamePosition d) (n st : Nat) (w : Word) : a.SamePosition (d.showSpeed n st w) :=
  setReg (setFld (setFld h (not_positionReg_of_offset (by decide) n)) (not_positionReg_of_offset (by decide) n))
    (not_positionReg_of_offset (by decide) n)

theorem undoStill (h : a.SamePosition d) (n : Nat) : a.SamePosition (d.undoStill n) := by
  unfold Dev.undoStill
  split
  · exact ite (modPf (showSpeed (when h (setBit h (not_positionReg_evtRaw _))) n _ _) n _) h
  · exact h

theorem speedEdge (h : a.SamePosition d) (n src : Nat) (step : Int) : a.SamePosition (d.speedEdge n src step) := by
  have hstat : ¬ PositionReg (Reg.PF_SPD_STAT n) := not_positionReg_of_offset (by decide) n
  have hcount (f : PosUnit → PosUnit) (x : Bool) : a.SamePosition (((d.undoStill n).modPf n f).setBit (Reg.PF_SPD_STAT n) 28 x) :=
    setBit (modPf (h.undoStill n) n f) hstat
  exact ite h (ite (showSpeed (modPf (hcount _ _) n _) n 2 0) (hcount _ _))

theorem setArmed (h : a.SamePosition d) (n : Nat) (x : Bool) : a.SamePosition (d.setArmed n x) :=
  setBit (setBit h (not_positionReg_of_offset (by decide) n)) (not_positionReg_of_offset (by decide) n)

theorem cmpFire (h : a.SamePosition d) (n : Nat) (hit : Word) (more : Nat) : a.SamePosition (d.cmpFire n hit more) := by
  have hstat : ¬ PositionReg (Reg.PF_CMP_STAT n) := not_positionReg_of_offset (by decide) n
  have hhit : ¬ PositionReg (Reg.PF_CMP_HIT n) := not_positionReg_of_offset (by decide) n
  have hpos : ¬ PositionReg (Reg.PF_CMP_POS n) := not_positionReg_of_offset (by decide) n
  have hfire (f : PosUnit → PosUnit) : a.SamePosition
      (((((d.setArmed n false).setReg (Reg.PF_CMP_HIT n) hit).raise (0x68 + n) 13).bumpSat (Reg.PF_CMP_STAT n) 15 0).modPf n f) :=
    modPf (bumpSat (raise (setReg (h.setArmed n false) hhit) _ _) hstat) n f
  have hnext (f : PosUnit → PosUnit) (t : Word) :=
    setBit (i := 30) (x := false) (setArmed (setReg (v := t) (hfire f) hpos) n true) hstat
  exact ite (hfire _) (when (hnext _ _) (setBit (hnext _ _) hstat))

theorem cmpBehind (h : a.SamePosition d) (n : Nat) : a.SamePosition (d.cmpBehind n) := by
  have hstat : ¬ PositionReg (Reg.PF_CMP_STAT n) := not_positionReg_of_offset (by decide) n
  have hraised := raise (setBit (i := 30) (x := true) h hstat) (0x68 + n) 14
  exact when hraised (modPf hraised n _)

theorem cmpStep (h : a.SamePosition d) (n kind p size : Nat) (back : Bool) : a.SamePosition (d.cmpStep n kind p size back) := by
  have hstep (f : PosUnit → PosUnit) : a.SamePosition (d.when (d.cmpKind n == kind) (Dev.modPf n f)) := when h (modPf h n f)
  refine ite h (ite (hstep _) ?_)
  dsimp only
  split
  · exact hstep _
  · exact ite (cmpBehind (hstep _) n) (ite (hstep _) (cmpFire (hstep _) n _ _))

theorem emuOne (h : a.SamePosition d) (n : Nat) : a.SamePosition (d.emuOne n) := by
  have hlag : a.SamePosition (d.setReg (Reg.PF_EMU_LAGV n) (word (unsignedOf 32 (d.emuDist n)))) :=
    h.setReg (not_positionReg_of_offset (by decide) n)
  exact ite h (when hlag (raise hlag _ _))

theorem emuFollow (h : a.SamePosition d) (p : Nat) : a.SamePosition (d.emuFollow p) :=
  each_induction h fun n _ _ hd => hd.emuOne n

end Dev.SamePosition

/-! ### Sloe's own samples, taken before the decoder's (R527) -/

/-- From `a` to `b` no register changes, nor what the decoders of the position interfaces read beside the registers. -/
structure Dev.SameDecoders (a b : Dev) : Prop where
  regs    : b.regs = a.regs
  padHeld : b.padHeld = a.padHeld
  reset   : b.reset = a.reset
  levels  : ∀ n, (b.pf n).a = (a.pf n).a ∧ (b.pf n).b = (a.pf n).b

/-- Sloe's samples are beside those of the decoder. -/
theorem Dev.sameDecoders_sloeSample (n : Nat) (x y : Bool) (d : Dev) :
    d.SameDecoders (d.modPf n (fun p => { p with sloeA := x, sloeB := y })) where
  regs := rfl
  padHeld := rfl
  reset := rfl
  levels j := by
    rw [Dev.pf, Dev.modPf_pos, vget_vmod]
    split
    · next h => rw [h.1]; exact ⟨rfl, rfl⟩
    · exact ⟨rfl, rfl⟩

theorem Dev.SameDecoders.when {a d : Dev} (h : a.SameDecoders d) {c : Bool} {f : Dev → Dev} (hf : a.SameDecoders (f d)) :
    a.SameDecoders (d.when c f) := by
  cases c with
  | true => exact hf
  | false => exact h

theorem Dev.SameDecoders.sloeQuad {a d : Dev} (h : a.SameDecoders d) (n : Nat) (fwd : Bool) : a.SameDecoders (d.sloeQuad n fwd) :=
  h.when ⟨h.regs, h.padHeld, h.reset, h.levels⟩

theorem Dev.sameDecoders_sloeLevels (n : Nat) (a b : Bool) (ns : Nat) (d : Dev) : d.SameDecoders (d.sloeLevels n a b ns) := by
  have hsample := d.sameDecoders_sloeSample n a b
  unfold Dev.sloeLevels
  split
  · exact ⟨rfl, rfl, rfl, fun _ => ⟨rfl, rfl⟩⟩
  · dsimp only
    split
    · exact hsample.sloeQuad n _
    · exact hsample

namespace Dev.SameDecoders

variable {a b : Dev}

theorem reg (h : a.SameDecoders b) (k : Nat) : b.reg k = a.reg k := by rw [Dev.reg, h.regs, Dev.reg]

theorem filtered (h : a.SameDecoders b) (k ns : Nat) : b.filtered k ns = a.filtered k ns := by
  have hpad : b.padApplied k = a.padApplied k := by rw [Dev.padApplied, Dev.bit, h.reg, h.reg, h.padHeld, Dev.padApplied, Dev.bit]
  rw [Dev.filtered, hpad, Dev.filtered]

theorem pfUnit (h : a.SameDecoders b) (n k : Nat) : b.pfUnit n k = a.pfUnit n k := by
  simp only [Dev.pfUnit, Dev.pfOn, Dev.pageHeld, Dev.bit, h.reg, h.reset]

end Dev.SameDecoders

/-! ### The decoder -/

theorem Dev.pfUnit_modPf (n m k : Nat) (f : PosUnit → PosUnit) (d : Dev) : (d.modPf m f).pfUnit n k = d.pfUnit n k := rfl

/-- One transition, at a decoder that works, is an edge; INV exchanges the directions. -/
theorem Dev.abzLevels_edge {n : Nat} {a b fwd : Bool} {d : Dev} (hunit : d.pfUnit n (Reg.PF_ABZ_CFG n) = true)
    (hq : quadStep (d.pf n).a (d.pf n).b a b = some fwd) :
    d.abzLevels n a b = (some (fwd != d.bit (Reg.PF_ABZ_CFG n) 30), d.modPf n (fun p => { p with a := a, b := b })) := by
  have hone : ((d.pf n).a != a && (d.pf n).b != b) = false := by
    rw [Bool.and_eq_false_iff, bne_eq_false_iff_eq, bne_eq_false_iff_eq]
    by_cases ha : (d.pf n).a = a
    · exact .inl ha
    · refine .inr (Decidable.byContradiction fun hb => ?_)
      rw [quadStep, beq_eq_false_iff_ne.mpr ha, beq_eq_false_iff_ne.mpr hb, if_pos (beq_self_eq_true false)] at hq
      cases hq
  unfold Dev.abzLevels
  dsimp only
  rw [pfUnit_modPf, hunit, hq, hone]
  rfl

/-- Two transitions in a cycle are QUAD_ERR and its count. -/
theorem Dev.abzLevels_both {n : Nat} {a b : Bool} {d : Dev} (hunit : d.pfUnit n (Reg.PF_ABZ_CFG n) = true)
    (ha : a ≠ (d.pf n).a) (hb : b ≠ (d.pf n).b) : d.abzLevels n a b =
    (none, ((d.modPf n (fun p => { p with a := a, b := b })).raise (0x68 + n) 0).bumpSat (Reg.PF_QERR_CNT n) 15 0) := by
  have hboth : ((d.pf n).a != a && (d.pf n).b != b) = true := by simp [ha.symm, hb.symm]
  unfold Dev.abzLevels
  dsimp only
  rw [pfUnit_modPf, hunit, hboth]
  rfl

/-- POS and REV after an edge. -/
def Dev.edgePos (d : Dev) (n : Nat) (fwd : Bool) : Nat × Nat :=
  stepPos (d.cpr n) (d.reg (Reg.PF_POS n)).toNat (d.fld (Reg.PF_REV n) 15 0) fwd

/-- Both are read from the registers alone. -/
theorem Dev.edgePos_congr {a b : Dev} (h : ∀ k, b.reg k = a.reg k) (n : Nat) (fwd : Bool) : b.edgePos n fwd = a.edgePos n fwd := by
  simp only [Dev.edgePos, Dev.cpr, Dev.fld, h]

/-- The count of an edge. -/
def Dev.countEdge (n : Nat) (fwd : Bool) (d : Dev) : Dev :=
  (d.setReg (Reg.PF_POS n) (word (d.edgePos n fwd).1)).setFld (Reg.PF_REV n) 15 0 (d.edgePos n fwd).2

/-- The count of an edge, and the units that follow the position. -/
def Dev.takeEdge (n : Nat) (fwd : Bool) (d : Dev) : Dev :=
  let t := d.countEdge n fwd
  let u := t.modPf n (fun p => { p with lastAbz := some (t.now, !fwd) })
  ((u.speedEdge n 0 (if fwd then 1 else -1)).cmpStep n 0 (d.reg (Reg.PF_POS n)).toNat 1 (!fwd)).emuFollow n

/-- ABZ_EDGE with levels that their filter accepts: what the decoder makes of them, and the count of its edge. -/
theorem goes_abzEdge {s : State} {n : Fin 8} {a b : Bool} {ns : Nat} {q : Option Bool} {t : Dev}
    (hfilter : s.dev.filtered (Reg.PAD_GRP n.val) ns = true) (hlevels : (s.dev.sloeLevels n.val a b ns).abzLevels n.val a b = (q, t)) :
    Goes (.abzEdge n a b ns) s (q.elim t fun fwd => t.takeEdge n.val fwd) := by
  rw [← (s.dev.sameDecoders_sloeLevels n.val a b ns).filtered] at hfilter
  show execAbzEdge n a b ns s = _
  unfold execAbzEdge State.onDev
  dsimp only
  rw [hfilter, hlevels]
  cases q <;> rfl

section Edge

variable (n : Nat) (fwd : Bool) (d : Dev)

/-- The units that follow leave the count. -/
theorem Dev.samePosition_takeEdge : (d.countEdge n fwd).SamePosition (d.takeEdge n fwd) :=
  ((((SamePosition.refl _).modPf n _).speedEdge n 0 _).cmpStep n 0 _ 1 _).emuFollow n

theorem Dev.reg_takeEdge_pos : (d.takeEdge n fwd).reg (Reg.PF_POS n) = word (d.edgePos n fwd).1 := by
  have hne : Reg.PF_POS n ≠ Reg.PF_REV n := by unfold Reg.PF_POS Reg.PF_REV; omega
  rw [d.samePosition_takeEdge n fwd _ (positionReg_pos n), Dev.countEdge, Dev.reg_setFld_ne hne, Dev.reg_setReg_same]

theorem Dev.fld_takeEdge_rev : (d.takeEdge n fwd).fld (Reg.PF_REV n) 15 0 = (d.edgePos n fwd).2 % 2 ^ 16 := by
  rw [Dev.fld, d.samePosition_takeEdge n fwd _ (positionReg_rev n)]
  exact Dev.fld_setFld_same (by decide) (by decide) _

end Edge

/-! ### The obligation -/

/-- One transition takes POS and REV to those of R423, in its direction. -/
theorem goes_abzEdge_one {s : State} {n : Fin 8} {a b f fwd : Bool} {ns : Nat} {d : Dev} (hd : d = s.dev)
    (hfilter : d.filtered (Reg.PAD_GRP n.val) ns = true) (hunit : d.pfUnit n.val (Reg.PF_ABZ_CFG n.val) = true)
    (hq : quadStep (d.pf n.val).a (d.pf n.val).b a b = some f) (hfwd : fwd = (f != d.bit (Reg.PF_ABZ_CFG n.val) 30)) :
    ∃ t, Goes (.abzEdge n a b ns) s t ∧ t.reg (Reg.PF_POS n.val) = word (d.edgePos n.val fwd).1 ∧
      t.fld (Reg.PF_REV n.val) 15 0 = (d.edgePos n.val fwd).2 % 2 ^ 16 := by
  subst hd
  have hsame := s.dev.sameDecoders_sloeLevels n.val a b ns
  obtain ⟨ha, hb⟩ := hsame.levels n.val
  have hlevels := Dev.abzLevels_edge ((hsame.pfUnit ..).trans hunit) (by rw [ha, hb]; exact hq)
  rw [Dev.bit, hsame.reg, ← Dev.bit, ← hfwd] at hlevels
  have hpos (g : PosUnit → PosUnit) : ((s.dev.sloeLevels n.val a b ns).modPf n.val g).edgePos n.val fwd = s.dev.edgePos n.val fwd :=
    Dev.edgePos_congr hsame.reg n.val fwd
  refine ⟨_, goes_abzEdge hfilter hlevels, ?pos, ?rev⟩
  case pos => rw [Option.elim_some, Dev.reg_takeEdge_pos, hpos]
  case rev => rw [Option.elim_some, Dev.fld_takeEdge_rev, hpos]

/-- Two transitions are an error, which POS and REV do not follow. -/
theorem goes_abzEdge_both {s : State} {n : Fin 8} {a b : Bool} {ns : Nat} {d : Dev} (hd : d = s.dev)
    (hfilter : d.filtered (Reg.PAD_GRP n.val) ns = true) (hunit : d.pfUnit n.val (Reg.PF_ABZ_CFG n.val) = true)
    (ha : a ≠ (d.pf n.val).a) (hb : b ≠ (d.pf n.val).b) :
    ∃ t, Goes (.abzEdge n a b ns) s t ∧ t.bit (Reg.evtRaw (0x68 + n.val)) 0 = true ∧
      t.fld (Reg.PF_QERR_CNT n.val) 15 0 = min 0xFFFF (d.fld (Reg.PF_QERR_CNT n.val) 15 0 + 1) ∧ d.SamePosition t := by
  subst hd
  have hsame := s.dev.sameDecoders_sloeLevels n.val a b ns
  obtain ⟨hla, hlb⟩ := hsame.levels n.val
  have hlevels := Dev.abzLevels_both ((hsame.pfUnit ..).trans hunit) (by rwa [hla]) (by rwa [hlb])
  have hoff : (Reg.PF_QERR_CNT n.val) % 0x1000 ≠ 0xC := by unfold Reg.PF_QERR_CNT; omega
  refine ⟨_, goes_abzEdge hfilter hlevels, ?event, ?count, ?position⟩
  case event =>
    rw [Option.elim_none, Dev.bit, Dev.reg_bumpSat_ne (evtRaw_ne_of_offset hoff)]
    exact Dev.bit_raise_same (by decide) _
  case count =>
    rw [Option.elim_none, Dev.fld_bumpSat_same (by decide) (by decide), Dev.fld, Dev.reg_raise_of_offset hoff, Dev.modPf_reg, hsame.reg]
    rfl
  case position =>
    have hlevelsame : s.dev.SamePosition (s.dev.sloeLevels n.val a b ns) := fun k _ => hsame.reg k
    exact ((hlevelsame.modPf n.val _).raise _ 0).bumpSat (not_positionReg_of_offset (by decide) n.val)

/-- Settles O45: the decoder counts one transition as the edge of its direction and takes two for an error, and the speed unit, the
compare and the emulators that follow write neither POS nor REV. -/
theorem edgesMovePosition : Obligations.EdgesMovePosition := by
  unfold Obligations.EdgesMovePosition
  intro s n a b fwd ns c pos rev d hd hfilter hunit hc hpos hrev
  refine ⟨fun hone => ?one, fun ha hb => ?both⟩
  case one =>
    have hedge : ∃ f, quadStep (d.pf n.val).a (d.pf n.val).b a b = some f ∧ fwd = (f != d.bit (Reg.PF_ABZ_CFG n.val) 30) := by
      obtain ⟨ha, rfl, hfwd⟩ | ⟨rfl, hb, hfwd⟩ := hone
      · exact ⟨_, quadStep_a _ ha, hfwd⟩
      · exact ⟨_, quadStep_b _ hb, hfwd⟩
    obtain ⟨f, hq, hfwd⟩ := hedge
    obtain ⟨t, hgoes, htpos, htrev⟩ := goes_abzEdge_one hd hfilter hunit hq hfwd
    have hc24 : c < 2 ^ 24 := hc ▸ fld_lt 23 0 _
    have hstands : rev % 65536 = rev := Nat.mod_eq_of_lt (hrev ▸ fld_lt 15 0 _)
    rw [Dev.edgePos, Dev.cpr, ← hc, ← hpos, ← hrev] at htpos htrev
    have hnat : c = 0 ∨ pos < c → (t.reg (Reg.PF_POS n.val)).toNat = (stepPos c pos rev fwd).1 := fun hcircle => by
      rw [htpos, word, BitVec.toNat_ofNat, Nat.mod_eq_of_lt (stepPos_lt (by omega) hcircle rev fwd)]
    refine ⟨t, _, _, hgoes, rfl, rfl, ?free, ?forward, ?backward⟩
    case free =>
      rintro rfl
      rw [hnat (.inl rfl), htrev, stepPos_free]
      exact ⟨rfl, hstands⟩
    case forward =>
      rintro hc0 hlt rfl
      rw [hnat (.inr hlt), htrev, stepPos_forward hc0]
      exact ⟨fun hlast => by simp [if_pos hlast], fun hlast => by simp [if_neg hlast, hstands]⟩
    case backward =>
      rintro hc0 hlt rfl
      rw [hnat (.inr hlt), htrev, stepPos_backward hc0]
      exact ⟨fun hfirst => by simp [if_pos hfirst], fun hfirst => by simp [if_neg hfirst, hstands]⟩
  case both =>
    obtain ⟨t, hgoes, hevent, hcount, hsame⟩ := goes_abzEdge_both hd hfilter hunit ha hb
    exact ⟨t, hgoes, hevent, hcount, hsame _ (positionReg_pos n.val), hsame _ (positionReg_rev n.val)⟩

end Sys2Proof.Machine

/-! SUPPORT. The voters: what they make of three copies of which two agree, and the copy that they name (R493, R494). -/

namespace Sys2Proof.Machine

/-! ### Two of three -/

/-- Two of `a`, `b` and `c` are `v`. -/
def TwoAre {α : Type} (v a b c : α) : Prop := b = v ∧ c = v ∨ a = v ∧ c = v ∨ a = v ∧ b = v

theorem TwoAre.map {α β : Type} {v a b c : α} (f : α → β) (h : TwoAre v a b c) : TwoAre (f v) (f a) (f b) (f c) := by
  obtain ⟨rfl, rfl⟩ | ⟨rfl, rfl⟩ | ⟨rfl, rfl⟩ := h
  · exact .inl ⟨rfl, rfl⟩
  · exact .inr (.inl ⟨rfl, rfl⟩)
  · exact .inr (.inr ⟨rfl, rfl⟩)

/-- The majority of three bits is the value of any two that agree. -/
theorem TwoAre.majority_bit {v a b c : Bool} (h : TwoAre v a b c) : (a && b || b && c || a && c) = v := by
  obtain ⟨hb, hc⟩ | ⟨ha, hc⟩ | ⟨ha, hb⟩ := h
  · rw [hb, hc]
    cases a <;> cases v <;> rfl
  · rw [ha, hc]
    cases b <;> cases v <;> rfl
  · rw [ha, hb]
    cases c <;> cases v <;> rfl

/-- The bitwise majority of three words is the value of any two that agree. -/
theorem TwoAre.majority {n : Nat} {v a b c : BitVec n} (h : TwoAre v a b c) : a &&& b ||| b &&& c ||| a &&& c = v := by
  refine BitVec.eq_of_getLsbD_eq fun i _ => ?_
  rw [BitVec.getLsbD_or, BitVec.getLsbD_or, BitVec.getLsbD_and, BitVec.getLsbD_and, BitVec.getLsbD_and]
  exact (h.map (·.getLsbD i)).majority_bit

section Store

variable {x : StoreSet} {c : Nat} {copy p q : StoreCopy}

/-! ### The vote of a store (R493) -/

/-- The vote of a store is what two of its copies ask for, in every part that the voters compare. -/
theorem votedPart_voteStore {v : Bool × Word × BitVec 4 × Word} (h : TwoAre v (votedPart x.t0) (votedPart x.t1) (votedPart x.t2)) :
    votedPart (voteStore x) = v := by
  have hstore := (h.map fun part => part.1).majority_bit
  have haddr := (h.map fun part => part.2.1).majority
  have henables := (h.map fun part => part.2.2.1).majority
  have hdata := (h.map fun part => part.2.2.2).majority
  exact Prod.ext hstore (Prod.ext haddr (Prod.ext henables hdata))

/-! ### The copy that differs (R494) -/

/-- A copy of a store with its core, beside the other two. -/
def storeSplits (x : StoreSet) : List (Nat × StoreCopy × StoreCopy × StoreCopy) :=
  [(0, x.t0, x.t1, x.t2), (1, x.t1, x.t0, x.t2), (2, x.t2, x.t0, x.t1)]

theorem mem_storeSplits : (c, copy, p, q) ∈ storeSplits x ↔ (c = 0 ∧ copy = x.t0 ∧ p = x.t1 ∧ q = x.t2) ∨
    (c = 1 ∧ copy = x.t1 ∧ p = x.t0 ∧ q = x.t2) ∨ (c = 2 ∧ copy = x.t2 ∧ p = x.t0 ∧ q = x.t1) := by
  simp [storeSplits]

/-- Two copies that agree are two of the three. -/
theorem twoAre_of_mem_storeSplits (hmem : (c, copy, p, q) ∈ storeSplits x) (hagree : votedPart p = votedPart q) :
    TwoAre (votedPart p) (votedPart x.t0) (votedPart x.t1) (votedPart x.t2) := by
  obtain ⟨-, -, rfl, rfl⟩ | ⟨-, -, rfl, rfl⟩ | ⟨-, -, rfl, rfl⟩ := mem_storeSplits.mp hmem
  · exact .inl ⟨rfl, hagree.symm⟩
  · exact .inr (.inl ⟨rfl, hagree.symm⟩)
  · exact .inr (.inr ⟨rfl, hagree.symm⟩)

/-- The voters name the copy from which the other two agree to differ. -/
theorem deviant_of_mem_storeSplits (hmem : (c, copy, p, q) ∈ storeSplits x) (hagree : votedPart p = votedPart q)
    (hdiffers : votedPart copy ≠ votedPart p) : deviant x = some (c, copy) := by
  unfold deviant
  obtain ⟨rfl, rfl, rfl, rfl⟩ | ⟨rfl, rfl, rfl, rfl⟩ | ⟨rfl, rfl, rfl, rfl⟩ := mem_storeSplits.mp hmem
  · rw [if_pos hagree]
  · rw [if_neg (hagree ▸ hdiffers), if_pos hagree]
  · rw [if_neg hdiffers.symm, if_neg (hagree ▸ hdiffers.symm), if_pos hagree]

/-- The voters name no copy of three that all differ. -/
theorem deviant_eq_none (h01 : votedPart x.t0 ≠ votedPart x.t1) (h02 : votedPart x.t0 ≠ votedPart x.t2)
    (h12 : votedPart x.t1 ≠ votedPart x.t2) : deviant x = none := by
  rw [deviant, if_neg h12, if_neg h02, if_neg h01]

theorem allAgree_iff : allAgree x = true ↔ votedPart x.t0 = votedPart x.t1 ∧ votedPart x.t1 = votedPart x.t2 := by
  simp [allAgree]

/-- Copies of which one differs from another do not all agree. -/
theorem allAgree_of_mem_storeSplits (hmem : (c, copy, p, q) ∈ storeSplits x) (hdiffers : votedPart copy ≠ votedPart p) : allAgree x = false := by
  refine Bool.eq_false_iff.mpr fun hall => hdiffers ?_
  obtain ⟨h01, h12⟩ := allAgree_iff.mp hall
  obtain ⟨-, rfl, rfl, -⟩ | ⟨-, rfl, rfl, -⟩ | ⟨-, rfl, rfl, -⟩ := mem_storeSplits.mp hmem
  · exact h01
  · exact h01.symm
  · exact (h01.trans h12).symm

/-! ### A disagreement of a running triad -/

/-- VOTED_STORE whose copies disagree and whose voters do not: the voted store takes place, and its disagreement is attributed. -/
theorem goes_votedStore_attribute {s : State} (hruns : s.dev.triadRuns = true) (hvoters : x.vaVbDiff = false)
    (hall : allAgree x = false) :
    Goes (.votedStore x) s ((s.dev.when (voteStore x).store (Dev.votedWrite (voteStore x))).attribute x) := by
  show execVotedStore x s = _
  rw [execVotedStore, State.onDev_eq, hruns, Dev.when_true, Dev.votedStore, hall, hvoters]
  rfl

theorem Dev.attribute_of_deviant {d : Dev} (h : deviant x = some (c, copy)) :
    d.attribute x = (d.bumpSat Reg.TRIAD_OUTVOTE (10 * c + 9) (10 * c)).markOdd c (if copy.parityErr then 3 else 2) := by
  rw [Dev.attribute, h]

theorem Dev.attribute_of_none {d : Dev} (h : deviant x = none) : d.attribute x = d.triadFatal 6 := by
  rw [Dev.attribute, h]

end Store

/-! ### The obligation -/

/-- Settles O47: two copies that agree carry the vote, and the third is the one that the voters name; of three that all differ they
name none. -/
theorem storeDisagreementAttributed : Obligations.StoreDisagreementAttributed := by
  unfold Obligations.StoreDisagreementAttributed
  rintro s x d w rfl hruns hvoters rfl
  refine ⟨fun c copy p q hmem hagree hdiffers => ⟨?vote, ?attributed⟩, fun h01 h02 h12 => ?fatal⟩
  case vote => exact votedPart_voteStore (twoAre_of_mem_storeSplits hmem hagree)
  case attributed =>
    rw [← Dev.attribute_of_deviant (deviant_of_mem_storeSplits hmem hagree hdiffers)]
    exact goes_votedStore_attribute hruns hvoters (allAgree_of_mem_storeSplits hmem hdiffers)
  case fatal =>
    rw [← Dev.attribute_of_none (deviant_eq_none h01 h02 h12)]
    refine goes_votedStore_attribute hruns hvoters (Bool.eq_false_iff.mpr fun hall => ?_)
    exact h01 (allAgree_iff.mp hall).1

end Sys2Proof.Machine

/-! SUPPORT. TXREQ of a message bus controller: the buffers that a write names, the requests that are pending after it, and what a
request and a discard leave of the registers (R571, R574). -/

namespace Sys2Proof.Machine

/-! ### The registers TXREQ0 and TXREQ1 -/

/-- The register that holds the request bit of a buffer. -/
abbrev txreqKey (n b : Nat) : Nat := pairKey (Reg.MB_TXREQ0 n) (Reg.MB_TXREQ1 n) b

/-- The buffers of a word of a pair share its register. -/
theorem pairKey_word (lo hi w : Nat) {i : Nat} (h : i < 32) : pairKey lo hi (32 * w + i) = pairKey lo hi (32 * w) := by
  unfold pairKey
  by_cases hw : w = 0
  · rw [if_pos (by omega), if_pos (by omega)]
  · rw [if_neg (by omega), if_neg (by omega)]

theorem txreqKey_offset {n b : Nat} : txreqKey n b % 0x1000 = 0x88 ∨ txreqKey n b % 0x1000 = 0x8C := by
  unfold txreqKey pairKey Reg.MB_TXREQ0 Reg.MB_TXREQ1
  split <;> omega

theorem txreqKey_page (n b : Nat) : txreqKey n b / 0x1000 = 0x80 + n := by
  unfold txreqKey pairKey Reg.MB_TXREQ0 Reg.MB_TXREQ1
  split <;> omega

/-- A register at another offset is neither of the two. -/
theorem ne_txreqKey_of_offset {n b k : Nat} (h : k % 0x1000 ≠ 0x88 ∧ k % 0x1000 ≠ 0x8C) : k ≠ txreqKey n b := by
  have := @txreqKey_offset n b
  omega

/-- TXREQ has no keyed field. -/
theorem keyedWrite_txreq (n : Fin 4) (w : Fin 2) (v : Word) : keyedWrite (txreqKey n.val (32 * w.val)) v = false := by
  apply keyedWrite_false
  revert n w
  decide

/-! ### The buffers that a written word names -/

theorem mem_wordBufs_iff {w b : Nat} {v : Word} : b ∈ wordBufs w v ↔ ∃ i : Fin 32, bitAt i.val v = true ∧ 32 * w + i.val = b := by
  simp [wordBufs, setBits, natBit, bitAt, BitVec.getLsbD, Fin.exists_iff, and_assoc, and_left_comm]

theorem mem_wordBufs {w : Nat} {v : Word} (i : Fin 32) : 32 * w + i.val ∈ wordBufs w v ↔ bitAt i.val v = true := by
  rw [mem_wordBufs_iff]
  constructor
  · rintro ⟨j, hbit, heq⟩
    rwa [show i = j by omega]
  · exact fun hbit => ⟨i, hbit, rfl⟩

/-! ### Requests set pending -/

/-- The requests of some buffers become pending. -/
def Dev.requestAll (n : Nat) (bs : List Nat) (d : Dev) : Dev := each bs (fun b d => d.setTxPending n b true) d

/-- A request bit is its buffer's own. -/
theorem Dev.txPending_setTxPending {n a b : Nat} (ha : a < 64) (hb : b < 64) (x : Bool) (d : Dev) :
    (d.setTxPending n a x).txPending n b = if b = a then x else d.txPending n b := by
  show (d.setBit (txreqKey n a) (a % 32) x).bit (txreqKey n b) (b % 32) = if b = a then x else d.bit (txreqKey n b) (b % 32)
  split
  · next h => rw [h, Dev.bit_setBit_same (Nat.mod_lt _ (by decide))]
  · next h =>
    by_cases hkey : txreqKey n b = txreqKey n a
    · have hbit : b % 32 ≠ a % 32 := by
        unfold txreqKey pairKey Reg.MB_TXREQ0 Reg.MB_TXREQ1 at hkey
        split at hkey <;> split at hkey <;> omega
      rw [hkey, Dev.bit_setBit_other hbit]
    · rw [Dev.bit_setBit_ne hkey]

theorem Dev.txPending_requestAll {n b : Nat} {bs : List Nat} {d : Dev} (hbs : ∀ a ∈ bs, a < 64) (hb : b < 64) :
    (d.requestAll n bs).txPending n b = (d.txPending n b || decide (b ∈ bs)) := by
  induction bs generalizing d with
  | nil => simp [Dev.requestAll, each]
  | cons a bs ih =>
    obtain ⟨ha, hrest⟩ := List.forall_mem_cons.mp hbs
    have hstep : d.requestAll n (a :: bs) = (d.setTxPending n a true).requestAll n bs := rfl
    rw [hstep, ih hrest, Dev.txPending_setTxPending ha hb]
    by_cases h : b = a <;> simp [h]

/-- Requests write the registers of their own bits alone. -/
theorem Dev.reg_requestAll_ne {n k : Nat} {bs : List Nat} {d : Dev} (h : ∀ b ∈ bs, k ≠ txreqKey n b) :
    (d.requestAll n bs).reg k = d.reg k :=
  each_induction (P := fun t : Dev => t.reg k = d.reg k) rfl fun b hb _ ht => (Dev.reg_setBit_ne (h b hb) _ _).trans ht

/-! ### A write of TXREQ -/

/-- The buffers that pass become pending; any other that is named makes the discard. -/
theorem Dev.txReqOp_eq {m : Master} {n : Nat} {d : Dev} {ok : Nat → Bool}
    (hok : ∀ b, ok b = (d.bufRole n b == 2 && d.mayUseBuf m n b && !d.txPending n b)) (w : Nat) (v : Word) :
    d.txReqOp m n w v = (d.requestAll n ((wordBufs w v).filter ok)).when ((wordBufs w v).any (fun b => !ok b))
      (Dev.discard m (txreqKey n (32 * w))) := by
  have hpass : ok = fun b => d.mayUseBuf m n b && (d.bufRole n b == 2 && !d.txPending n b) := by
    funext b
    rw [hok, Bool.and_assoc, Bool.and_left_comm]
  rw [hpass]
  rfl

/-- TXREQ that its master's access table permits. -/
theorem goes_txreq {s : State} {m : Master} {n : Fin 4} {w : Fin 2} (v : Word)
    (hreach : s.dev.Reaches m (txreqKey n.val (32 * w.val))) :
    Goes (.txreq m n w v) s (s.dev.txReqOp m n.val w.val v) := by
  obtain ⟨hheld, hmay⟩ := hreach
  show s.onDev (fun d => d.accessWrite m (txreqKey n.val (32 * w.val)) v (Dev.txReqOp m n.val w.val v)) = _
  rw [State.onDev, Dev.accessWrite_plain hheld hmay (keyedWrite_txreq n w v)]

/-- A discarded write leaves the requests as they stand. -/
theorem Dev.txPending_discard (m : Master) (key n b : Nat) (d : Dev) : (d.discard m key).txPending n b = d.txPending n b := by
  have hne : ∀ {k : Nat}, k % 0x1000 ≠ 0x88 ∧ k % 0x1000 ≠ 0x8C → txreqKey n b ≠ k := fun hk => (ne_txreqKey_of_offset hk).symm
  have hraw : Reg.evtRaw (key / 0x1000) % 0x1000 = 0xC := by unfold Reg.evtRaw; omega
  unfold Dev.txPending Dev.bit Dev.discard
  rw [Dev.reg_refuse_ne (hne (by omega)) (hne (by decide)) (hne (by decide)) (hne (by decide))]

theorem Dev.txPending_when_discard (c : Bool) (m : Master) (key n b : Nat) (d : Dev) :
    (d.when c (Dev.discard m key)).txPending n b = d.txPending n b := by
  cases c
  · rfl
  · exact Dev.txPending_discard m key n b d

/-! ### The obligation -/

/-- Settles O49: the bits that pass set their requests, and one discard, which leaves the requests, answers for the others. That each
bit is judged for itself and that several refused bits make one ACCESS_ERR is the model's choice (log entries 60 and 9). -/
theorem transmissionRequestsAreAccepted : Obligations.TransmissionRequestsAreAccepted := by
  unfold Obligations.TransmissionRequestsAreAccepted
  rintro s m n w v _ ok rfl hreach hok
  have hgoes := goes_txreq v hreach
  rw [Dev.txReqOp_eq hok] at hgoes
  have hnamed : ∀ b ∈ (wordBufs w.val v).filter ok, b < 64 ∧ txreqKey n.val b = txreqKey n.val (32 * w.val) := by
    intro b hb
    obtain ⟨i, -, rfl⟩ := mem_wordBufs_iff.mp (List.mem_filter.mp hb).1
    exact ⟨by omega, pairKey_word _ _ _ i.isLt⟩
  have hframe : ∀ k, k ≠ txreqKey n.val (32 * w.val) →
      (s.dev.requestAll n.val ((wordBufs w.val v).filter ok)).reg k = s.dev.reg k :=
    fun k hk => Dev.reg_requestAll_ne fun b hb => (hnamed b hb).2 ▸ hk
  refine ⟨_, hgoes, ?pending, ?refused, ?accepted⟩
  case pending =>
    intro i
    rw [Dev.txPending_when_discard, Dev.txPending_requestAll (fun b hb => (hnamed b hb).1) (by omega)]
    simp [List.mem_filter, mem_wordBufs]
  case refused =>
    rintro ⟨i, hbit, hno⟩
    have hany : (wordBufs w.val v).any (fun b => !ok b) = true :=
      List.any_eq_true.mpr ⟨_, (mem_wordBufs i).mpr hbit, by simp [hno]⟩
    obtain ⟨hraised, -, hcount, -⟩ := Dev.logged_refuse m (txreqKey n.val (32 * w.val) / 0x1000)
      (keyAddr (txreqKey n.val (32 * w.val))) true (s.dev.requestAll n.val ((wordBufs w.val v).filter ok))
    rw [hany, Dev.when_true, ← txreqKey_page n.val (32 * w.val)]
    refine ⟨hraised, hcount.trans ?_⟩
    rw [Dev.fld, hframe _ (ne_txreqKey_of_offset (by decide)), Dev.fld]
  case accepted =>
    intro hall k hk
    have hany : (wordBufs w.val v).any (fun b => !ok b) = false := by
      refine List.any_eq_false.mpr fun b hb => ?_
      obtain ⟨i, hbit, rfl⟩ := mem_wordBufs_iff.mp hb
      simp [hall i hbit]
    rw [hany, Dev.when_false, hframe k hk]

end Sys2Proof.Machine

/-! SUPPORT. The check-value units: the register of R590 stays in the width of its algorithm, so that bytes may be fed in parts, and
what a data write does (R588 to R592). -/

namespace Sys2Proof.Machine

/-! ### The register of a CRC (R590) -/

/-- The width of a unit's register holds at most a word, and the polynomial lies in it. -/
structure CrcParams.Fits (p : CrcParams) : Prop where
  width_le : p.width ≤ 32
  poly_lt  : p.poly < 2 ^ p.width

theorem bitReverse_lt (w n : Nat) : bitReverse w n < 2 ^ w := by
  induction w generalizing n with
  | zero => exact Nat.one_pos
  | succ w ih =>
    have hrest := ih (n / 2)
    have hbit : n % 2 * 2 ^ w ≤ 1 * 2 ^ w := Nat.mul_le_mul_right _ (by omega)
    rw [bitReverse, Nat.pow_succ]
    omega

theorem crcBitMsb_lt {w poly : Nat} (hpoly : poly < 2 ^ w) (r : Nat) (b : Bool) : crcBitMsb w poly r b < 2 ^ w := by
  have hshift : r * 2 % 2 ^ w < 2 ^ w := Nat.mod_lt _ (Nat.two_pow_pos w)
  unfold crcBitMsb
  dsimp only
  split
  · exact Nat.xor_lt_two_pow hshift hpoly
  · exact hshift

/-- A fold whose steps keep a number under a bound ends under it. -/
theorem foldl_lt {α : Type} {f : Nat → α → Nat} {bound r : Nat} (hf : ∀ r < bound, ∀ x, f r x < bound) (hr : r < bound) (l : List α) :
    l.foldl f r < bound :=
  List.foldlRecOn (motive := (· < bound)) l f hr fun r hr x _ => hf r hr x

/-- A byte keeps the register in its width, in either orientation of the input. -/
theorem crcByte_lt {p : CrcParams} (hp : p.Fits) {r : Nat} (hr : r < 2 ^ p.width) (b : Byte) : crcByte p r b < 2 ^ p.width := by
  unfold crcByte
  split
  case isTrue =>
    refine foldl_lt (fun r hr i => ?_) hr _
    have hshift : r / 2 < 2 ^ p.width := Nat.lt_of_le_of_lt (Nat.div_le_self r 2) hr
    split
    · exact Nat.xor_lt_two_pow hshift (bitReverse_lt ..)
    · exact hshift
  case isFalse => exact foldl_lt (fun _ _ _ => crcBitMsb_lt hp.poly_lt ..) hr _

theorem crcFeed_lt {p : CrcParams} (hp : p.Fits) {r : Nat} (hr : r < 2 ^ p.width) (bs : List Byte) : crcFeed p r bs < 2 ^ p.width :=
  foldl_lt (fun _ hr b => crcByte_lt hp hr b) hr bs

theorem crcFeed_append (p : CrcParams) (r : Nat) (bs cs : List Byte) : crcFeed p r (bs ++ cs) = crcFeed p (crcFeed p r bs) cs :=
  List.foldl_append

/-! ### Bytes fed to a unit (R592) -/

/-- The presets fit, and so does whatever CFG and POLY hold. -/
theorem Dev.crcParams_fits (d : Dev) (n : Nat) : (d.crcParams n).Fits := by
  unfold Dev.crcParams
  dsimp only
  split
  · exact ⟨by decide, by decide⟩
  · exact ⟨by decide, by decide⟩
  · exact ⟨by decide, by decide⟩
  · exact ⟨by decide, by decide⟩
  · exact ⟨Machine.fld_lt 28 24 _, Nat.mod_lt _ (Nat.two_pow_pos _)⟩

theorem Dev.reg_crcFeed_run (n : Nat) (bs : List Byte) (d : Dev) :
    (d.crcFeed n bs).reg (Reg.CRC_RUN n) = word (Machine.crcFeed (d.crcParams n) (d.crcRun n) bs) := by
  rw [Dev.crcFeed, Dev.reg_setReg_ne (by unfold Reg.CRC_RUN Reg.CRC_BYTES; omega), Dev.reg_setReg_same]

theorem Dev.reg_crcFeed_bytes (n : Nat) (bs : List Byte) (d : Dev) :
    (d.crcFeed n bs).reg (Reg.CRC_BYTES n) = d.reg (Reg.CRC_BYTES n) + word bs.length := by
  rw [Dev.crcFeed, Dev.reg_setReg_same]

/-- The unit's registers at other offsets stand. -/
theorem Dev.reg_crcFeed_of_offset {base : Nat} (hrun : base ≠ Reg.CRC_RUN 0) (hbytes : base ≠ Reg.CRC_BYTES 0) (n : Nat)
    (bs : List Byte) (d : Dev) : (d.crcFeed n bs).reg (base + n * 0x1000) = d.reg (base + n * 0x1000) := by
  unfold Reg.CRC_RUN at hrun
  unfold Reg.CRC_BYTES at hbytes
  rw [Dev.crcFeed, Dev.reg_setReg_ne (by unfold Reg.CRC_BYTES; omega), Dev.reg_setReg_ne (by unfold Reg.CRC_RUN; omega)]

/-- Feeding leaves the algorithm as it is selected. -/
theorem Dev.crcParams_crcFeed (n : Nat) (bs : List Byte) (d : Dev) : (d.crcFeed n bs).crcParams n = d.crcParams n := by
  have hcfg : (d.crcFeed n bs).reg (Reg.CRC_CFG n) = d.reg (Reg.CRC_CFG n) := Dev.reg_crcFeed_of_offset (by decide) (by decide) ..
  have hpoly : (d.crcFeed n bs).reg (Reg.CRC_POLY n) = d.reg (Reg.CRC_POLY n) := Dev.reg_crcFeed_of_offset (by decide) (by decide) ..
  have hinit : (d.crcFeed n bs).reg (Reg.CRC_INIT n) = d.reg (Reg.CRC_INIT n) := Dev.reg_crcFeed_of_offset (by decide) (by decide) ..
  have hxor : (d.crcFeed n bs).reg (Reg.CRC_XOROUT n) = d.reg (Reg.CRC_XOROUT n) := Dev.reg_crcFeed_of_offset (by decide) (by decide) ..
  unfold Dev.crcParams
  rw [hcfg, hpoly, hinit, hxor]

/-- RUN loses nothing of the register that feeding leaves. -/
theorem Dev.crcRun_crcFeed (n : Nat) (bs : List Byte) (d : Dev) :
    (d.crcFeed n bs).crcRun n = Machine.crcFeed (d.crcParams n) (d.crcRun n) bs := by
  have hfits := d.crcParams_fits n
  have hin : Machine.crcFeed (d.crcParams n) (d.crcRun n) bs < 2 ^ (d.crcParams n).width :=
    crcFeed_lt hfits (Nat.mod_lt _ (Nat.two_pow_pos _)) bs
  have hword : Machine.crcFeed (d.crcParams n) (d.crcRun n) bs < 2 ^ 32 :=
    Nat.lt_of_lt_of_le hin (Nat.pow_le_pow_right (by decide) hfits.width_le)
  rw [Dev.crcRun, Dev.reg_crcFeed_run, Dev.crcParams_crcFeed, word, BitVec.toNat_ofNat, Nat.mod_eq_of_lt hword, Nat.mod_eq_of_lt hin]

/-- Bytes may be fed in parts. -/
theorem Dev.reg_crcFeed_append (n : Nat) (bs cs : List Byte) (d : Dev) :
    (d.crcFeed n (bs ++ cs)).reg (Reg.CRC_RUN n) = ((d.crcFeed n bs).crcFeed n cs).reg (Reg.CRC_RUN n) := by
  rw [Dev.reg_crcFeed_run, Dev.reg_crcFeed_run, Dev.crcParams_crcFeed, Dev.crcRun_crcFeed, crcFeed_append]

/-! ### Data writes (R592, R598) -/

theorem keyedWrite_din (n : Fin 4) (v : Word) : keyedWrite (Reg.CRC_DIN n.val) v = false := by
  apply keyedWrite_false
  revert n
  decide

theorem keyedWrite_dinB (n : Fin 4) (v : Word) : keyedWrite (Reg.CRC_DIN_B n.val) v = false := by
  apply keyedWrite_false
  revert n
  decide

section

variable {m : Master} {s : State} {n : Fin 4} {v : Word}

/-- A write of DIN whose master reaches the register of a unit that no other has claimed. -/
theorem goes_din (hreach : s.dev.Reaches m (Reg.CRC_DIN n.val)) (hfree : s.dev.crcBarred m n.val = false) :
    Goes (.din m n v) s (s.dev.crcDataOp m n.val (Reg.CRC_DIN n.val) (wordBytes v)) := by
  obtain ⟨hheld, hmay⟩ := hreach
  show execDin m n v s = _
  rw [execDin, State.onDev_eq, Dev.accessWrite_plain hheld hmay (keyedWrite_din n v), Dev.crcGuard, if_neg (by simp [hfree])]

/-- The same of DIN_B. -/
theorem goes_dinB (hreach : s.dev.Reaches m (Reg.CRC_DIN_B n.val)) (hfree : s.dev.crcBarred m n.val = false) :
    Goes (.dinB m n v) s (s.dev.crcDataOp m n.val (Reg.CRC_DIN_B n.val) [v.extractLsb' 0 8]) := by
  obtain ⟨hheld, hmay⟩ := hreach
  show execDinB m n v s = _
  rw [execDinB, State.onDev_eq, Dev.accessWrite_plain hheld hmay (keyedWrite_dinB n v), Dev.crcGuard, if_neg (by simp [hfree]),
    BitVec.setWidth_eq_extractLsb' (by decide)]

end

section

variable {m : Master} {n key : Nat} {bs : List Byte} {d : Dev}

/-- Data are taken while the unit is enabled and no run is under way. -/
theorem Dev.crcDataOp_feeds (hon : d.crcOn n = true) (hidle : d.crcBusy n = false) :
    d.crcDataOp m n key bs = (d.crcFeed n bs).modCrc n (fun x => { x with fedAt := some d.now }) := by
  simp [Dev.crcDataOp, hon, hidle]

/-- At any other time they are discarded. -/
theorem Dev.crcDataOp_discards (h : d.crcOn n = false ∨ d.crcBusy n = true) : d.crcDataOp m n key bs = d.discard m key := by
  obtain hoff | hbusy := h
  · simp [Dev.crcDataOp, hoff]
  · simp [Dev.crcDataOp, hbusy]

/-- A data write that is not taken is logged, and does nothing else. -/
theorem Dev.logged_crcDataOp {off : Nat} (hoff : off < 0x1000) (h : d.crcOn n = false ∨ d.crcBusy n = true) :
    d.Logged (d.crcDataOp m n (0x88000 + off + n * 0x1000) bs) (0x88 + n) m (0x40088000 + off + n * 0x1000) true d.readData := by
  have hpage : (0x88000 + off + n * 0x1000) / 0x1000 = 0x88 + n := by omega
  have haddr : keyAddr (0x88000 + off + n * 0x1000) = 0x40088000 + off + n * 0x1000 := by unfold keyAddr; omega
  rw [Dev.crcDataOp_discards h, Dev.discard, hpage, haddr]
  exact Dev.logged_refuse ..

end

/-! ### The obligation -/

/-- Settles O50: feeding counts its bytes and may be done byte by byte, and a data write feeds the unit or is logged as a refusal. -/
theorem dataWritesFeedBytes : Obligations.DataWritesFeedBytes := by
  unfold Obligations.DataWritesFeedBytes
  rintro s m n v _ _ rfl hfree rfl
  refine ⟨fun bs => Dev.reg_crcFeed_bytes .., fun b bs => Dev.reg_crcFeed_append n.val [b] bs s.dev, fun hreach => ?din,
    fun hreach => ?dinB⟩
  case din =>
    have hgoes := goes_din (v := v) hreach hfree
    refine ⟨fun hon hidle => ?_, fun hrefused => ⟨_, hgoes, Dev.logged_crcDataOp (off := 0x5C) (by decide) hrefused⟩⟩
    rwa [Dev.crcDataOp_feeds hon hidle] at hgoes
  case dinB =>
    have hgoes := goes_dinB (v := v) hreach hfree
    refine ⟨fun hon hidle => ?_, fun hrefused => ⟨_, hgoes, Dev.logged_crcDataOp (off := 0x60) (by decide) hrefused⟩⟩
    rwa [Dev.crcDataOp_feeds hon hidle] at hgoes

end Sys2Proof.Machine

/-! SUPPORT. Safety: every command keeps what the laws of its meaning keep, and so does a step. -/

namespace Sys2Proof.Machine

/-- Every command answers a next state, and keeps what the laws of its own meaning say. -/
theorem exec_keeps (c : Instr) (s : State) : Kept s (exec c s) :=
  match c with
  | .registerWrite .. => execRegisterWrite_keeps | .keyWrite .. => execKeyWrite_keeps
  | .keyWindowExpiry .. => execKeyWindowExpiry_keeps | .unlockTimeout .. => execUnlockTimeout_keeps
  | .shadowWrite .. => execShadowWrite_keeps | .eventDelivery .. => execEventDelivery_keeps
  | .supplyBrownOut .. => execSupplyBrownOut_keeps | .powerOnRelease => execPowerOnRelease_keeps
  | .vioClassTake .. => execVioClassTake_keeps | .porstPin .. => execPorstPin_keeps | .resetPin .. => execResetPin_keeps
  | .ballSourceRelease .. => execBallSourceRelease_keeps | .swrstCold .. => execSwrstCold_keeps
  | .swrstWarm .. => execSwrstWarm_keeps | .softwareSourceRelease .. => execSoftwareSourceRelease_keeps
  | .internalSourceRelease .. => execInternalSourceRelease_keeps | .srst .. => execSrst_keeps
  | .blockResetRelease .. => execBlockResetRelease_keeps | .jtagReset .. => execJtagReset_keeps
  | .selfRefreshTimeout => execSelfRefreshTimeout_keeps | .xtalValid => execXtalValid_keeps
  | .xtalTimeout => execXtalTimeout_keeps | .pllLock .. => execPllLock_keeps | .clockQualify .. => execClockQualify_keeps
  | .qualificationTimeout .. => execQualificationTimeout_keeps | .releaseSequence => execReleaseSequence_keeps
  | .memoryInitDone => execMemoryInitDone_keeps | .dramInitDone => execDramInitDone_keeps
  | .monitorGate .. => execMonitorGate_keeps | .clockEdgeTimeout .. => execClockEdgeTimeout_keeps
  | .xtalRcMismatch => execXtalRcMismatch_keeps | .sscApply .. => execSscApply_keeps | .flashTimeout => execFlashTimeout_keeps
  | .bootVerify .. => execBootVerify_keeps | .hostBootGo .. => execHostBootGo_keeps | .padEnable .. => execPadEnable_keeps
  | .firmwareStartLoad => execFirmwareStartLoad_keeps | .loadNewest .. => execLoadNewest_keeps | .loadA .. => execLoadA_keeps
  | .loadB .. => execLoadB_keeps | .loadSram .. => execLoadSram_keeps | .loadComplete => execLoadComplete_keeps
  | .commit .. => execCommit_keeps | .commitCrcDone => execCommitCrcDone_keeps | .arm .. => execArm_keeps
  | .disarm .. => execDisarm_keeps | .ackSafe .. => execAckSafe_keeps | .burnKey .. => execBurnKey_keeps
  | .burnSigreq .. => execBurnSigreq_keeps | .nop .. => execNop_keeps | .fadd .. => execFadd_keeps | .fsub .. => execFsub_keeps
  | .fmul .. => execFmul_keeps | .fma .. => execFma_keeps | .fms .. => execFms_keeps | .fmin .. => execFmin_keeps
  | .fmax .. => execFmax_keeps | .fabs .. => execFabs_keeps | .fneg .. => execFneg_keeps | .fcmp .. => execFcmp_keeps
  | .fsel .. => execFsel_keeps | .cvtfi .. => execCvtfi_keeps | .cvtif .. => execCvtif_keeps | .mov .. => execMov_keeps
  | .iadd .. => execIadd_keeps | .isub .. => execIsub_keeps | .iand .. => execIand_keeps | .ior .. => execIor_keeps
  | .ishl .. => execIshl_keeps | .ishr .. => execIshr_keeps | .icmp .. => execIcmp_keeps | .ld .. => execLd_keeps
  | .ldDataReturn .. => execLdDataReturn_keeps | .st .. => execSt_keeps
  | .postedWriteDelivery .. => execPostedWriteDelivery_keeps | .br .. => execBr_keeps | .loop .. => execLoop_keeps
  | .call .. => execCall_keeps | .jr .. => execJr_keeps | .fend .. => execFend_keeps | .pub .. => execPub_keeps
  | .rcv .. => execRcv_keeps | .time .. => execTime_keeps | .cap .. => execCap_keeps | .trq .. => execTrq_keeps
  | .bsw .. => execBsw_keeps | .cwr .. => execCwr_keeps | .div .. => execDiv_keeps | .sqrt .. => execSqrt_keeps
  | .sincos .. => execSincos_keeps | .atan2 .. => execAtan2_keeps | .xfmClarke .. => execXfmClarke_keeps
  | .xfmPark .. => execXfmPark_keeps | .xfmInversePark .. => execXfmInversePark_keeps
  | .xfmInverseClarke .. => execXfmInverseClarke_keeps | .pi .. => execPi_keeps | .pr .. => execPr_keeps
  | .biq .. => execBiq_keeps | .limScalar .. => execLimScalar_keeps | .limCircle .. => execLimCircle_keeps
  | .pll .. => execPll_keeps | .obs .. => execObs_keeps | .svmSvpwm .. => execSvmSvpwm_keeps
  | .svmSinusoidal .. => execSvmSinusoidal_keeps | .svmThreeLevel .. => execSvmThreeLevel_keeps
  | .svmDiscontinuous .. => execSvmDiscontinuous_keeps | .dtc .. => execDtc_keeps | .vsm .. => execVsm_keeps
  | .illegalOpcode .. => execIllegalOpcode_keeps | .frameStart .. => execFrameStart_keeps
  | .frameComplete .. => execFrameComplete_keeps | .frameDeadline .. => execFrameDeadline_keeps
  | .engineStart .. => execEngineStart_keeps | .engineStop .. => execEngineStop_keeps
  | .engineWatchdog .. => execEngineWatchdog_keeps | .leMbxPost .. => execLeMbxPost_keeps
  | .cwDataWrite .. => execCwDataWrite_keeps | .cwDataRead .. => execCwDataRead_keeps | .bankReq .. => execBankReq_keeps
  | .reload .. => execReload_keeps | .dutyShadowWrite .. => execDutyShadowWrite_keeps | .edgeEvent .. => execEdgeEvent_keeps
  | .deadTimeExpiry .. => execDeadTimeExpiry_keeps | .start .. => execStart_keeps | .stop .. => execStop_keeps
  | .stopNow .. => execStopNow_keeps | .gstart .. => execGstart_keeps | .gstop .. => execGstop_keeps
  | .groupOff .. => execGroupOff_keeps | .dlLock .. => execDlLock_keeps | .dlUnlock .. => execDlUnlock_keeps
  | .syncInPulse .. => execSyncInPulse_keeps | .syncLost => execSyncLost_keeps | .syncOutPulse => execSyncOutPulse_keeps
  | .tripNow .. => execTripNow_keeps | .tripClr .. => execTripClr_keeps | .gclr .. => execGclr_keeps
  | .tripInput .. => execTripInput_keeps | .ascLowSideOn .. => execAscLowSideOn_keeps
  | .sloeAscLowSideOn .. => execSloeAscLowSideOn_keeps | .forceShWrite .. => execForceShWrite_keeps
  | .commutationEvent .. => execCommutationEvent_keeps | .alignmentFrameSend .. => execAlignmentFrameSend_keeps
  | .edgeFrameSend .. => execEdgeFrameSend_keeps | .edgeFrameRepeat .. => execEdgeFrameRepeat_keeps
  | .edgeSendDeadline .. => execEdgeSendDeadline_keeps | .stateFrameSend .. => execStateFrameSend_keeps
  | .measurementStart .. => execMeasurementStart_keeps | .pingSend .. => execPingSend_keeps
  | .pingReplyReceive .. => execPingReplyReceive_keeps | .upstreamAlignmentReceive .. => execUpstreamAlignmentReceive_keeps
  | .upstreamStateReceive .. => execUpstreamStateReceive_keeps | .teleFrameReceive .. => execTeleFrameReceive_keeps
  | .invalidFrameReceive .. => execInvalidFrameReceive_keeps | .laneSilence .. => execLaneSilence_keeps
  | .stateFrameTimeout .. => execStateFrameTimeout_keeps | .alignmentMissed .. => execAlignmentMissed_keeps
  | .triggerFire .. => execTriggerFire_keeps | .gridConversion .. => execGridConversion_keeps
  | .conversionSample .. => execConversionSample_keeps | .conversionResult .. => execConversionResult_keeps
  | .snapshotReplace .. => execSnapshotReplace_keeps | .refReady .. => execRefReady_keeps | .refDrop .. => execRefDrop_keeps
  | .calZero .. => execCalZero_keeps | .calFull .. => execCalFull_keeps | .calCalc .. => execCalCalc_keeps
  | .calAbort .. => execCalAbort_keeps | .calStepDone => execCalStepDone_keeps | .trimUpdate => execTrimUpdate_keeps
  | .sdOutput .. => execSdOutput_keeps | .sdFastFilterDecision .. => execSdFastFilterDecision_keeps
  | .modFault .. => execModFault_keeps | .comparatorCrossing .. => execComparatorCrossing_keeps
  | .abzEdge .. => execAbzEdge_keeps | .index .. => execIndex_keeps | .zhome .. => execZhome_keeps
  | .hallChange .. => execHallChange_keeps | .serialRequest .. => execSerialRequest_keeps
  | .serCmdReq .. => execSerCmdReq_keeps | .serialTransferDone .. => execSerialTransferDone_keeps
  | .serTimeout .. => execSerTimeout_keeps | .serialRecoveryDone .. => execSerialRecoveryDone_keeps
  | .speedWindowClose .. => execSpeedWindowClose_keeps | .standstillTimeout .. => execStandstillTimeout_keeps
  | .emulatorEdge .. => execEmulatorEdge_keeps | .cmpPosWrite .. => execCmpPosWrite_keeps
  | .cmpPulseEnd .. => execCmpPulseEnd_keeps | .mcRun .. => execMcRun_keeps | .mcStop .. => execMcStop_keeps
  | .resetFault .. => execResetFault_keeps | .obsReport .. => execObsReport_keeps
  | .obsReportTimeout .. => execObsReportTimeout_keeps | .zeroCrossing .. => execZeroCrossing_keeps
  | .rowChange .. => execRowChange_keeps | .zcMiss .. => execZcMiss_keeps | .forcedStep .. => execForcedStep_keeps
  | .cmdinCycle .. => execCmdinCycle_keeps | .cmdinTimeout .. => execCmdinTimeout_keeps
  | .triadTcmAccess .. => execTriadTcmAccess_keeps | .votedStore .. => execVotedStore_keeps
  | .exchangeDelivery .. => execExchangeDelivery_keeps | .exchangeTimeout .. => execExchangeTimeout_keeps
  | .xlwMedS .. => execXlwMedS_keeps | .xlwMedU .. => execXlwMedU_keeps | .xflwMed .. => execXflwMed_keeps
  | .syncPoint .. => execSyncPoint_keeps | .triadMbxPost .. => execTriadMbxPost_keeps | .mbxAck .. => execMbxAck_keeps
  | .mbxOutSeq .. => execMbxOutSeq_keeps | .safetyInputChange .. => execSafetyInputChange_keeps
  | .testPulse .. => execTestPulse_keeps | .ossdToleranceExpiry .. => execOssdToleranceExpiry_keeps
  | .discrepancyTimeout .. => execDiscrepancyTimeout_keeps | .resetPulse .. => execResetPulse_keeps
  | .ss1TimerExpiry => execSs1TimerExpiry_keeps | .speedAWindowClose => execSpeedAWindowClose_keeps
  | .spdBWrite .. => execSpdBWrite_keeps | .stoCloseStart => execStoCloseStart_keeps
  | .stoTestPhaseEnd => execStoTestPhaseEnd_keeps | .stoFeedbackChange .. => execStoFeedbackChange_keeps
  | .stoFeedbackTimeout => execStoFeedbackTimeout_keeps | .stoAgeHour => execStoAgeHour_keeps
  | .trespWrite .. => execTrespWrite_keeps | .tpermitWindowExpiry => execTpermitWindowExpiry_keeps
  | .treqWrite .. => execTreqWrite_keeps | .faultClear .. => execFaultClear_keeps | .rwsWrite .. => execRwsWrite_keeps
  | .open_ .. => execOpen_keeps | .close .. => execClose_keeps | .scommit .. => execScommit_keeps
  | .safetyCrcDone => execSafetyCrcDone_keeps | .safeReset .. => execSafeReset_keeps
  | .sessionTimeout => execSessionTimeout_keeps | .pwLockExpiry => execPwLockExpiry_keeps | .logAck .. => execLogAck_keeps
  | .init .. => execInit_keeps | .normal .. => execNormal_keeps | .listen .. => execListen_keeps
  | .loopback .. => execLoopback_keeps | .canFrameReceive .. => execCanFrameReceive_keeps | .txreq .. => execTxreq_keeps
  | .txabt .. => execTxabt_keeps | .rxRelease .. => execRxRelease_keeps | .canTxEnd .. => execCanTxEnd_keeps
  | .canBusError .. => execCanBusError_keeps | .recover .. => execRecover_keeps | .recovered .. => execRecovered_keeps
  | .bufCfgWrite .. => execBufCfgWrite_keeps | .filterWrite .. => execFilterWrite_keeps
  | .windowSelect .. => execWindowSelect_keeps | .tsWrap .. => execTsWrap_keeps | .crcInit .. => execCrcInit_keeps
  | .crcStart .. => execCrcStart_keeps | .crcAbort .. => execCrcAbort_keeps | .check .. => execCheck_keeps
  | .crcDmaDone .. => execCrcDmaDone_keeps | .crcDmaRefused .. => execCrcDmaRefused_keeps | .din .. => execDin_keeps
  | .dinB .. => execDinB_keeps | .crcRunWrite .. => execCrcRunWrite_keeps | .claim .. => execClaim_keeps
  | .medlarWatchdog => execMedlarWatchdog_keeps | .captureRecordWrite => execCaptureRecordWrite_keeps
  | .restart .. => execRestart_keeps | .trigger .. => execTrigger_keeps | .freeze .. => execFreeze_keeps
  | .eventLogEntry .. => execEventLogEntry_keeps | .sramScrubPass .. => execSramScrubPass_keeps
  | .dramScrubPass .. => execDramScrubPass_keeps | .journalCompaction .. => execJournalCompaction_keeps
  | .safetyLogTransfer .. => execSafetyLogTransfer_keeps | .telemetrySample => execTelemetrySample_keeps
  | .mark .. => execMark_keeps | .logRead .. => execLogRead_keeps | .journalRead .. => execJournalRead_keeps
  | .imageWrite .. => execImageWrite_keeps | .teleRead .. => execTeleRead_keeps | .spiRead .. => execSpiRead_keeps
  | .spiWrite .. => execSpiWrite_keeps | .spiNop .. => execSpiNop_keeps | .spiReset .. => execSpiReset_keeps
  | .spiUnknownCommand .. => execSpiUnknownCommand_keeps | .frameAbort .. => execFrameAbort_keeps
  | .hostWriteIssue => execHostWriteIssue_keeps | .ethRead .. => execEthRead_keeps | .ethWrite .. => execEthWrite_keeps
  | .ethReset .. => execEthReset_keeps | .beacon => execBeacon_keeps | .heartbeat => execHeartbeat_keeps
  | .ethLinkChange .. => execEthLinkChange_keeps | .ptpSync .. => execPtpSync_keeps | .servoCommit => execServoCommit_keeps
  | .timeLoRead .. => execTimeLoRead_keeps | .modbusReadInput .. => execModbusReadInput_keeps
  | .modbusReadHolding .. => execModbusReadHolding_keeps | .modbusWriteMultiple .. => execModbusWriteMultiple_keeps
  | .sdoRequest .. => execSdoRequest_keeps | .channelObjectWrite .. => execChannelObjectWrite_keeps | .nmt .. => execNmt_keeps
  | .syncConsumer => execSyncConsumer_keeps | .outSet .. => execOutSet_keeps | .outClr .. => execOutClr_keeps
  | .gpioEdge .. => execGpioEdge_keeps | .supplyRise .. => execSupplyRise_keeps
  | .pingReplyTimeout .. => execPingReplyTimeout_keeps | .lockPlausTimeout .. => execLockPlausTimeout_keeps
  | .busIntegrated .. => execBusIntegrated_keeps | .transmissionStart .. => execTransmissionStart_keeps
  | .ethFrameReceive .. => execEthFrameReceive_keeps | .vddqOutOfRange => execVddqOutOfRange_keeps

/-- What keeps the stores and the legs keeps safety. -/
theorem Keeps.safe {a b : Dev} {p q : List Instr} (h : Keeps a b) (hs : State.Safe ⟨a, p⟩) : State.Safe ⟨b, q⟩ :=
  ⟨h.wf hs.1, h.legs hs.2⟩

/-- What a command of a safe state leaves is safe. -/
theorem exec_keeps_safe {c : Instr} {s t : State} (hs : s.Safe) (h : exec c s = .next t) : t.Safe := by
  obtain ⟨d, hd, hk⟩ := exec_keeps c s
  obtain rfl := Host.Outcome.next.inj (hd.symm.trans h)
  exact hk.safe hs

/-- Safety says nothing of the clock. -/
theorem State.Safe.setNow {d : Dev} {q : List Instr} (hs : State.Safe ⟨d, q⟩) (n : Nat) : State.Safe ⟨{ d with now := n }, q⟩ := by
  obtain ⟨⟨hstores, hmems, hvectors⟩, hlegs⟩ := hs
  exact ⟨⟨hstores, hmems, hvectors⟩, hlegs⟩

/-- Settles O59: every command keeps safety by the laws of its meaning, and so does a tick, which moves only the clock besides. -/
theorem stepKeepsSafe : Obligations.StepKeepsSafe := by
  unfold Obligations.StepKeepsSafe
  rintro ⟨d, queue⟩ t hs h
  cases queue with
  | nil =>
    obtain rfl : ⟨d.tick, []⟩ = t := Host.Outcome.next.inj h
    exact d.tick_keeps.safe (hs.setNow _)
  | cons c rest => exact exec_keeps_safe (s := ⟨d, rest⟩) hs h

/-- Settles O60: what every command keeps holds the fuses, the clock and the count of free values. -/
theorem everyCommandAnswers : Obligations.EveryCommandAnswers := by
  unfold Obligations.EveryCommandAnswers
  intro c s
  obtain ⟨d, hd, hk⟩ := exec_keeps c s
  exact ⟨d, hd, hk.now, hk.mac, hk.sig, hk.hash, hk.count⟩

/-- Settles O58: the stores after reset are empty or canonical, and every leg stands off. -/
theorem resetIsSafe : Obligations.ResetIsSafe := by
  unfold Obligations.ResetIsSafe
  exact ⟨reset_wf, fun g => noShoot_fresh g⟩

end Sys2Proof.Machine

/-! SUPPORT. The step of the queue, and the state after reset. -/

namespace Sys2Proof.Machine

/-- The model's clock advances by one in a tick. -/
theorem Dev.now_tick (d : Dev) : d.tick.now = d.now + 1 := d.tick_keeps.now

/-- Settles O56: `step` is a match on the queue, and its tick keeps the queue. -/
theorem stepRunsTheFrontCommand : Obligations.StepRunsTheFrontCommand := by
  unfold Obligations.StepRunsTheFrontCommand
  refine ⟨fun s c rest hq => ?command, fun s hq => ⟨{ s with dev := s.dev.tick }, ?tick, hq, s.dev.now_tick⟩⟩
  case command => rw [step, hq]
  case tick => simp only [step, hq, State.onDev_eq]

/-- Every page is locked after reset: no KEY register is listed, and its cold value is 0. -/
theorem kstate_reset : ∀ p : Fin 256, (pageKind? p.val).isSome = true → State.reset.dev.kstate p.val = 0 := by
  decide +kernel

/-- Groups, engines and lanes after reset: OFF, HALTED, DARK, and each engine owns the group of its own number. -/
theorem planes_reset : ∀ g : Fin 12, State.reset.dev.gstate g.val = 0 ∧ State.reset.dev.latched g.val = false ∧
    State.reset.dev.estate g.val = 0 ∧ State.reset.dev.owned g.val = 2 ^ g.val ∧ State.reset.dev.lstate g.val = 0 ∧
    (State.reset.dev.group g.val).legs = Vector.replicate 4 {} := by
  decide +kernel

/-- Settles O57: each value is read off the registers that the power-on episode leaves and the cold values of the others. -/
theorem resetLeavesEverythingOff : Obligations.ResetLeavesEverythingOff := by
  unfold Obligations.ResetLeavesEverythingOff
  rintro d rfl
  have hsys : State.reset.dev.deviceOff = true ∧ State.reset.dev.cstate = 0 ∧ State.reset.dev.commitBusy = false ∧
      State.reset.dev.stoState = 0 ∧ State.reset.dev.sessionOpen = false ∧ State.reset.dev.faults = 0 ∧
      State.reset.dev.triadHeld = true ∧ State.reset.dev.bit Reg.SLOE_STAT 16 = false := by decide +kernel
  obtain ⟨hoff, hcstate, hbusy, hsto, hsession, hfaults, htriad, hpermit⟩ := hsys
  have hcan : ∀ n : Fin 4, State.reset.dev.canMode n.val = 0 := by decide +kernel
  exact ⟨rfl, hoff, hcstate, hbusy, hsto, hsession, hfaults, htriad, hpermit, planes_reset, hcan, kstate_reset, rfl, rfl, rfl⟩

end Sys2Proof.Machine

/-! SUPPORT. Legs: what a leg's switches are after they are driven, and after they follow their command (R275). -/

namespace Sys2Proof.Machine

/-- A leg that exists, changed. -/
theorem Dev.leg_modLeg_same {g k : Nat} (hg : g < 12) (hk : k < 4) (f : Leg → Leg) (d : Dev) :
    (d.modLeg g k f).leg g k = f (d.leg g k) := by
  simp [Dev.leg, Dev.modLeg, Dev.modGroup, Dev.group, vget_vmod, hg, hk]

/-- An event for the lane changes no leg. -/
@[simp] theorem Dev.leg_pushEdge (g k kind h j : Nat) (pin : Int) (d : Dev) : (d.pushEdge g k kind pin).leg h j = d.leg h j := by
  unfold Dev.pushEdge
  rcases Dev.when_cases .. with ⟨hw, -⟩ | ⟨hw, -⟩ <;> rw [hw]
  rfl

/-- A leg that is driven to another state stands in it, with the change noted; its turn-off is the instant where a switch turns off. -/
theorem Dev.leg_driveFrom_changes {own : Bool} {g k at_ : Nat} {h l : Bool} {d : Dev} (hg : g < 12) (hk : k < 4)
    (hne : (d.leg g k).onH ≠ h ∨ (d.leg g k).onL ≠ l) :
    (d.driveFrom own g k h l at_).leg g k = ({ d.leg g k with onH := h, onL := l, offAt :=
      if ((d.leg g k).onH && !h) || ((d.leg g k).onL && !l) then some at_ else (d.leg g k).offAt } : Leg).note own (d.skew g k) (at_, h, l) := by
  unfold Dev.driveFrom
  dsimp only
  have hother : ¬ ((d.leg g k).onH == h && (d.leg g k).onL == l) = true := by
    rw [Bool.and_eq_true, beq_iff_eq, beq_iff_eq]
    exact fun hsame => hne.elim (absurd hsame.1) (absurd hsame.2)
  rw [if_neg hother]
  rcases Dev.when_cases .. with ⟨hw, -⟩ | ⟨hw, -⟩ <;> rw [hw]
  · rw [Dev.leg_pushEdge, Dev.leg_modLeg_same hg hk]
  · rw [Dev.leg_modLeg_same hg hk]

/-- One that stands so already stays as it is. -/
theorem Dev.driveFrom_stands {own : Bool} {g k at_ : Nat} {h l : Bool} {d : Dev} (hh : (d.leg g k).onH = h) (hl : (d.leg g k).onL = l) :
    d.driveFrom own g k h l at_ = d := by
  unfold Dev.driveFrom
  dsimp only
  rw [if_pos (by simp [hh, hl])]

/-- Either way its switches are as they are driven, and a switch that turns off has turned off at the instant. -/
theorem Dev.leg_driveAt {g k at_ : Nat} {h l : Bool} {d : Dev} (hg : g < 12) (hk : k < 4) :
    ((d.driveAt g k h l at_).leg g k).onH = h ∧ ((d.driveAt g k h l at_).leg g k).onL = l ∧
      ((d.leg g k).onH = true ∧ h = false ∨ (d.leg g k).onL = true ∧ l = false → ((d.driveAt g k h l at_).leg g k).offAt = some at_) := by
  unfold Dev.driveAt
  by_cases hsame : (d.leg g k).onH = h ∧ (d.leg g k).onL = l
  · rw [Dev.driveFrom_stands hsame.1 hsame.2]
    refine ⟨hsame.1, hsame.2, fun hoff => ?_⟩
    grind
  · rw [Dev.leg_driveFrom_changes hg hk (by grind)]
    refine ⟨rfl, rfl, fun hoff => ?_⟩
    exact if_pos (by grind)

/-- The two switches of a leg that follows its command, as their rule says it: on stays on under the command, and turns on only where
both have been off for the dead time. -/
theorem Leg.follow_on {o : Leg} {dt at_ : Nat} {mayOn : Bool} {w r : Bool × Bool} (hr : r = o.follow dt at_ mayOn w) :
    (r.1 = true → w.1 = true) ∧ (r.2 = true → w.2 = true) ∧
      (r.1 = true ∧ o.onH = false ∨ r.2 = true ∧ o.onL = false → (o.onH = true ∨ o.onL = true → dt = 0) ∧
        (o.onH = false → o.onL = false → ∀ t, o.offAt = some t → t + dt ≤ at_)) := by
  subst hr
  unfold Leg.follow
  exact ⟨by grind, by grind, fun hon => ⟨by grind, by grind⟩⟩

/-- Settles O43: the leg is driven to what `follow` gives. -/
theorem switchesKeepDeadTime : Obligations.SwitchesKeepDeadTime := by
  unfold Obligations.SwitchesKeepDeadTime
  rintro d g k now o n rfl rfl
  obtain ⟨r, hr⟩ : ∃ r, r = (d.leg g.val k.val).follow (d.deadTime g.val) now (d.ownDrives g.val) (d.want g.val k.val) := ⟨_, rfl⟩
  have hsettle : d.settleLegAt g.val now k.val = d.driveAt g.val k.val r.1 r.2 now := by rw [hr]; rfl
  obtain ⟨hh, hl, hoff⟩ := Dev.leg_driveAt (at_ := now) (h := r.1) (l := r.2) (d := d) g.isLt k.isLt
  obtain ⟨hwantH, hwantL, hon⟩ := Leg.follow_on hr
  rw [hsettle, hh, hl]
  exact ⟨hwantH, hwantL, fun hq => hoff (by grind), hon⟩

end Sys2Proof.Machine

/-! SUPPORT. Changes of GSTATE: the operations that leave every group's state and its STATE_CHANGE event, and those that move groups to
one state (R282). -/

namespace Sys2Proof.Machine

/-! ### Operations that leave the states of the groups and their events -/

/-- The registers STAT and EVT_RAW of the groups' pages. -/
abbrev GroupStatus (k : Nat) : Prop := 0x20000 ≤ k ∧ k < 0x2C000 ∧ (k % 0x1000 = 0x008 ∨ k % 0x1000 = 0x00C)

theorem not_groupStatus_of_offset {base : Nat} (h : base % 0x1000 ≠ 0x008 ∧ base % 0x1000 ≠ 0x00C) (n : Nat) :
    ¬ GroupStatus (base + n * 0x1000) := by
  unfold GroupStatus
  omega

theorem not_groupStatus_gen (p : Nat) : ¬ GroupStatus (Reg.gen p) := by
  unfold GroupStatus Reg.gen
  omega

/-- A register above the groups' pages. -/
theorem not_groupStatus_of_le {base : Nat} (h : 0x2C000 ≤ base) (i : Nat) : ¬ GroupStatus (base + i) := by
  unfold GroupStatus
  omega

theorem groupStatus_stat {g : Nat} (hg : g < 12) : GroupStatus (Reg.PG_STAT g) := by
  unfold GroupStatus Reg.PG_STAT
  omega

theorem groupStatus_evtRaw {g : Nat} (hg : g < 12) : GroupStatus (Reg.evtRaw (0x20 + g)) := by
  unfold GroupStatus Reg.evtRaw
  omega

/-- The group has raised STATE_CHANGE. -/
abbrev Dev.stateChanged (d : Dev) (g : Nat) : Prop := d.bit (Reg.evtRaw (0x20 + g)) 7 = true

/-- From `a` to `b` no group changes its state, and no STATE_CHANGE is cleared. -/
def Dev.SameStates (a b : Dev) : Prop := ∀ g < 12, b.gstate g = a.gstate g ∧ (a.stateChanged g → b.stateChanged g)

namespace Dev.SameStates

variable {a b d : Dev}

theorem refl (a : Dev) : a.SameStates a := fun _ _ => ⟨rfl, id⟩

theorem of_regs (h : a.SameStates b) (hregs : d.regs = b.regs) : a.SameStates d := by
  have hreg (k : Nat) : d.reg k = b.reg k := by rw [Dev.reg, hregs, Dev.reg]
  intro g hg
  obtain ⟨hstate, hevent⟩ := h g hg
  exact ⟨(congrArg (Machine.fld 2 0) (hreg _)).trans hstate, fun q => (congrArg (bitAt 7) (hreg _)).trans (hevent q)⟩

theorem setReg (h : a.SameStates d) {k : Nat} {v : Word} (hk : ¬ GroupStatus k) : a.SameStates (d.setReg k v) := by
  intro g hg
  have hstat : Reg.PG_STAT g ≠ k := fun q => hk (q ▸ groupStatus_stat hg)
  have hraw : Reg.evtRaw (0x20 + g) ≠ k := fun q => hk (q ▸ groupStatus_evtRaw hg)
  obtain ⟨hstate, hevent⟩ := h g hg
  refine ⟨?_, fun q => ?_⟩
  · rwa [Dev.gstate, Dev.fld, Dev.reg_setReg_ne hstat]
  · rw [Dev.stateChanged, Dev.bit, Dev.reg_setReg_ne hraw]
    exact hevent q

theorem setFld (h : a.SameStates d) {k hi lo v : Nat} (hk : ¬ GroupStatus k) : a.SameStates (d.setFld k hi lo v) := h.setReg hk

theorem setBit (h : a.SameStates d) {k i : Nat} {x : Bool} (hk : ¬ GroupStatus k) : a.SameStates (d.setBit k i x) := h.setReg hk

theorem bumpSat (h : a.SameStates d) {k hi lo : Nat} (hk : ¬ GroupStatus k) : a.SameStates (d.bumpSat k hi lo) := h.setFld hk

theorem bumpGen (h : a.SameStates d) (p : Nat) : a.SameStates (d.bumpGen p) := h.setFld (not_groupStatus_gen p)

theorem setKstate (h : a.SameStates d) (p v : Nat) : a.SameStates (d.setKstate p v) := by
  refine h.setReg ?_
  unfold GroupStatus Reg.key
  omega

/-- A source sets bits of EVT_RAW and clears none (R71). -/
theorem raise (h : a.SameStates d) (p i : Nat) : a.SameStates (d.raise p i) := by
  intro g hg
  obtain ⟨hstate, hevent⟩ := h g hg
  constructor
  · rwa [Dev.gstate, Dev.fld, Dev.reg_raise_of_offset (by unfold Reg.PG_STAT; omega)]
  · intro ha
    have hd := hevent ha
    by_cases hp : Reg.evtRaw (0x20 + g) = Reg.evtRaw p
    · obtain rfl : 0x20 + g = p := by unfold Reg.evtRaw at hp; omega
      by_cases hi : 7 = i
      · subst hi
        exact Dev.bit_raise_same (by decide) d
      · rwa [Dev.stateChanged, Dev.bit_raise_other hi]
    · rwa [Dev.stateChanged, Dev.bit, Dev.reg_raise_ne hp]

theorem when (h : a.SameStates d) {c : Bool} {f : Dev → Dev} (hf : ∀ d, a.SameStates d → a.SameStates (f d)) :
    a.SameStates (d.when c f) := by
  cases c with
  | true => exact hf d h
  | false => exact h

theorem each {α : Type} {l : List α} {f : α → Dev → Dev} (h : a.SameStates d)
    (hf : ∀ x d, a.SameStates d → a.SameStates (f x d)) : a.SameStates (Machine.each l f d) :=
  each_induction h fun x _ d hd => hf x d hd

theorem refuse (h : a.SameStates d) (m : Master) (p x : Nat) (w : Bool) : a.SameStates (d.refuse m p x w) := by
  unfold Dev.refuse Dev.logAccess
  dsimp only
  refine bumpSat ?_ (by decide)
  split
  · exact h.raise p 31
  · exact ((h.raise p 31).setReg (by decide)).setReg (by decide)

/-! What leaving RUN, leaving OFF and a trip bring beside the change of state (R209, R309 to R313, R329, R459, R465, R544, R612). -/

theorem settle (h : a.SameStates d) (g : Nat) : a.SameStates (d.settle g) := h.of_regs (Dev.regs_settle g d)

theorem laneTrip (h : a.SameStates d) (g : Nat) : a.SameStates (d.laneTrip g) := h.of_regs (Dev.regs_laneTrip g d)

theorem forceDrop (h : a.SameStates d) (g : Nat) : a.SameStates (d.forceDrop g) :=
  of_regs (setReg (setReg (when h fun _ hd => raise hd _ _) (not_groupStatus_of_offset (by decide) g)) (not_groupStatus_of_offset (by decide) g)) rfl

theorem setMstate (h : a.SameStates d) (n v : Nat) : a.SameStates (d.setMstate n v) :=
  setBit (setFld (when h fun _ hd => raise hd _ _) (not_groupStatus_of_le (by decide) _)) (not_groupStatus_of_le (by decide) _)

theorem mcMask (h : a.SameStates d) (g : Nat) : a.SameStates (d.mcMask g) := by
  unfold Dev.mcMask
  dsimp only
  split
  · exact settle (setFld (when h fun _ hd => bumpSat hd (not_groupStatus_of_offset (by decide) g)) (not_groupStatus_of_offset (by decide) g)) g
  · exact h

theorem mcLeaveRun (h : a.SameStates d) (n : Nat) : a.SameStates (d.mcLeaveRun n) := by
  unfold Dev.mcLeaveRun
  dsimp only
  split
  · exact h
  · apply mcMask
    split
    · exact setBit (of_regs h rfl) (not_groupStatus_of_le (by decide) _)
    · refine setFld (setMstate (setBit ?_ (not_groupStatus_of_le (by decide) _)) n 0) (not_groupStatus_of_le (by decide) _)
      exact of_regs h rfl

theorem brakeUpdate (h : a.SameStates d) (n : Nat) : a.SameStates (d.brakeUpdate n) := by
  unfold Dev.brakeUpdate
  dsimp only
  split
  · exact setBit (of_regs h rfl) (not_groupStatus_of_le (by decide) _)
  · exact h

theorem swapIdle (h : a.SameStates d) (e : Nat) : a.SameStates (d.swapIdle e) :=
  when h fun _ hd => of_regs (setReg (setReg hd (not_groupStatus_of_offset (by decide) e)) (not_groupStatus_of_offset (by decide) e)) rfl

theorem resolveOwners (h : a.SameStates d) : a.SameStates d.resolveOwners := by
  unfold Dev.resolveOwners
  refine each (each (each (each h ?owned) ?moved) ?changed) fun e d hd => hd.swapIdle e
  case owned => exact fun e d hd => hd.setReg (not_groupStatus_of_offset (by decide) e)
  case moved => exact fun e d hd => (hd.bumpGen _).raise _ _
  case changed => exact fun g d hd => ((hd.bumpGen _).bumpGen _).bumpGen _

theorem sendEmcy (h : a.SameStates d) : a.SameStates d.sendEmcy := by
  unfold Dev.sendEmcy
  split
  · exact of_regs h rfl
  · exact h

theorem triadRelease (h : a.SameStates d) : a.SameStates d.triadRelease :=
  of_regs (setFld (setFld (setBit (bumpGen h 0x90) (by decide)) (by decide)) (by decide)) rfl

theorem setCstate (h : a.SameStates d) (v : Nat) : a.SameStates (d.setCstate v) := by
  unfold Dev.setCstate
  dsimp only
  split
  · exact h
  · have hnew : a.SameStates ((d.setFld Reg.CFG_STATE 2 0 v).raise 3 1) := raise (setFld h (by decide)) 3 1
    refine when (sendEmcy (when ?_ fun _ hd => raise hd 3 0)) fun _ hd => hd.triadRelease
    exact hnew.of_regs rfl

theorem permitUpdate (h : a.SameStates d) : a.SameStates d.permitUpdate := by
  unfold Dev.permitUpdate
  dsimp only
  repeat' split
  · exact h
  · exact raise (setBit h (by decide)) _ _
  · have hlost : a.SameStates ((d.setBit Reg.SLOE_STAT 16 false).raise 0x91 4) := raise (setBit h (by decide)) _ _
    exact when hlost fun _ hd => setCstate hd 4

theorem closeSession (h : a.SameStates d) : a.SameStates d.closeSession := by
  unfold Dev.closeSession
  split
  · exact permitUpdate (of_regs (raise (setFld (setBit h (by decide)) (by decide)) _ _) rfl)
  · exact h

theorem captureFreeze (h : a.SameStates d) : a.SameStates d.captureFreeze :=
  of_regs (raise (setBit (of_regs h rfl) (by decide)) _ _) rfl

theorem captureTrigger (h : a.SameStates d) : a.SameStates d.captureTrigger := by
  have hpointer : a.SameStates ((d.setReg Reg.DRAM_CAP_TRIG_PTR (d.reg Reg.DRAM_CAP_WPTR)).raise 0xA0 0) :=
    raise (setReg h (by decide)) _ _
  unfold Dev.captureTrigger
  dsimp only
  repeat' split
  · exact hpointer
  · exact hpointer.captureFreeze
  · exact hpointer.of_regs rfl
  · exact h

theorem applyAction (h : a.SameStates d) (g x : Nat) : a.SameStates (d.applyAction g x) := by
  have hasc : a.SameStates (d.when (d.tripApplied g != 2 && x == 2) (Dev.modGroup g (fun y => { y with ascAt := d.nowUnits }))) :=
    when h fun _ hd => of_regs hd rfl
  exact settle (setFld (when hasc fun _ hd => raise hd _ _) (not_groupStatus_of_offset (by decide) g)) g

theorem latchTrip (h : a.SameStates d) (c g : Nat) : a.SameStates (d.latchTrip c g) := by
  have hlatch : a.SameStates ((d.setReg (Reg.PG_TRIP_STAT g) (latchWord c)).raise (0x20 + g) 16) :=
    raise (setReg h (not_groupStatus_of_offset (by decide) g)) _ _
  unfold Dev.latchTrip
  exact of_regs (when (bumpSat (setReg hlatch (not_groupStatus_of_offset (by decide) g)) (not_groupStatus_of_offset (by decide) g))
    fun _ hd => hd.captureTrigger) rfl

theorem holdEnd (h : a.SameStates d) (g : Nat) : a.SameStates (d.holdEnd g) := by
  unfold Dev.holdEnd
  split
  · have hoff : a.SameStates (Machine.each [0, 1, 2, 3] (fun k d => d.driveFrom false g k false false d.nowUnits) d) :=
      each h fun k d hd => hd.of_regs (Dev.regs_driveFrom ..)
    exact settle (of_regs hoff (by rw [Dev.modSloe_regs, Dev.modLane_regs])) g
  · exact h

end Dev.SameStates

/-! ### Moves to one state (R282) -/

/-- From `a` to `b` every group stays in its state or goes from a state of `from_` to the state `v`, with STATE_CHANGE. -/
def Dev.Moves (from_ : List Nat) (v : Nat) (a b : Dev) : Prop :=
  ∀ g < 12, b.gstate g = a.gstate g ∨ a.gstate g ∈ from_ ∧ b.gstate g = v ∧ b.stateChanged g

/-- Another state of a group: STATE_CHANGE with it, and no other group's state. -/
theorem Dev.setGstate_changes {g v : Nat} {d : Dev} (hne : d.gstate g ≠ v) :
    ((d.setFld (Reg.PG_STAT g) 2 0 v).raise (0x20 + g) 7).SameStates (d.setGstate g v) := by
  unfold Dev.setGstate
  rw [if_neg hne]
  refine .when (.when (.when (.when (.refl _) ?leaveRun) ?enterRun) ?reachOff) ?leaveOff
  case leaveRun => exact fun _ hd => (hd.forceDrop g).mcLeaveRun g
  case enterRun => exact fun _ hd => hd.brakeUpdate g
  case reachOff => exact fun _ hd => hd.resolveOwners
  case leaveOff => exact fun _ hd => hd.closeSession

theorem Dev.gstate_setFld_raise {g v : Nat} (hv : v < 8) (d : Dev) :
    ((d.setFld (Reg.PG_STAT g) 2 0 v).raise (0x20 + g) 7).gstate g = v := by
  rw [Dev.gstate, Dev.fld, Dev.reg_raise_of_offset (by unfold Reg.PG_STAT; omega), ← Dev.fld, Dev.fld_setFld_same (by decide) (by decide)]
  exact Nat.mod_eq_of_lt hv

namespace Dev.Moves

variable {from_ : List Nat} {v : Nat} {a b d : Dev}

theorem refl (from_ : List Nat) (v : Nat) (a : Dev) : a.Moves from_ v a := fun _ _ => .inl rfl

/-- What leaves the states alone leaves the moves as they are. -/
theorem trans_same (h : a.Moves from_ v b) (hs : b.SameStates d) : a.Moves from_ v d := by
  intro g hg
  obtain ⟨hstate, hevent⟩ := hs g hg
  obtain hstay | ⟨hfrom, hto, hraised⟩ := h g hg
  · exact .inl (hstate.trans hstay)
  · exact .inr ⟨hfrom, hstate.trans hto, hevent hraised⟩

/-- A group in one of the states moves. -/
theorem setGstate (h : a.Moves from_ v d) {g : Nat} (hv : v ∉ from_) (hv8 : v < 8) (hfrom : d.gstate g ∈ from_ ∨ d.gstate g = v) :
    a.Moves from_ v (d.setGstate g v) := by
  obtain hfrom | rfl := hfrom
  case inr => rwa [Dev.setGstate_same]
  have hne : d.gstate g ≠ v := fun q => hv (q ▸ hfrom)
  refine trans_same (fun j hj => ?_) (Dev.setGstate_changes hne)
  obtain rfl | hother := Decidable.em (j = g)
  · refine .inr ⟨?_, Dev.gstate_setFld_raise hv8 d, Dev.bit_raise_same (by decide) _⟩
    obtain hstay | ⟨-, hto, -⟩ := h j hj
    · rwa [← hstay]
    · exact absurd hto hne
  · have hstat : Reg.PG_STAT j ≠ Reg.PG_STAT g := stat_ne_stat hother
    have hevt : Reg.evtRaw (0x20 + j) ≠ Reg.evtRaw (0x20 + g) := by unfold Reg.evtRaw; omega
    have hreg : ((d.setFld (Reg.PG_STAT g) 2 0 v).raise (0x20 + g) 7).reg (Reg.PG_STAT j) = d.reg (Reg.PG_STAT j) := by
      rw [Dev.reg_raise_of_offset (by unfold Reg.PG_STAT; omega), Dev.reg_setFld_ne hstat]
    have hraw : ((d.setFld (Reg.PG_STAT g) 2 0 v).raise (0x20 + g) 7).reg (Reg.evtRaw (0x20 + j)) = d.reg (Reg.evtRaw (0x20 + j)) := by
      rw [Dev.reg_raise_ne hevt, Dev.reg_setFld_ne (by unfold Reg.evtRaw Reg.PG_STAT; omega)]
    obtain hstay | ⟨hin, hto, hraised⟩ := h j hj
    · exact .inl ((congrArg (Machine.fld 2 0) hreg).trans hstay)
    · exact .inr ⟨hin, (congrArg (Machine.fld 2 0) hreg).trans hto, (congrArg (bitAt 7) hraw).trans hraised⟩

theorem each {l : List Nat} {f : Nat → Dev → Dev} (h : a.Moves from_ v d) (hl : ∀ g ∈ l, g < 12)
    (hf : ∀ g < 12, ∀ d, a.Moves from_ v d → a.Moves from_ v (f g d)) : a.Moves from_ v (Machine.each l f d) :=
  each_induction h fun g hg d hd => hf g (hl g hg) d hd

/-- A write of a command moves what its operation moves, or is refused. -/
theorem accessWrite {m : Master} {key : Nat} {w : Word} {op : Dev → Dev} (h : a.Moves from_ v d)
    (hop : ∀ d, a.Moves from_ v d → a.Moves from_ v (op d)) : a.Moves from_ v (d.accessWrite m key w op) := by
  unfold Dev.accessWrite
  dsimp only
  split
  · exact h.trans_same (.refuse (.refl d) _ _ _ _)
  split
  · exact h.trans_same (.refuse (.refl d) _ _ _ _)
  split
  · split
    · exact hop _ (h.trans_same (.setKstate (.refl d) _ _))
    · exact h.trans_same (.refuse (.refl d) _ _ _ _)
  · exact hop d h

/-- A group moves after a change that leaves the states alone. -/
theorem enter (h : a.Moves from_ v b) (hs : b.SameStates d) {g : Nat} (hg : g < 12) (hv : v ∉ from_) (hv8 : v < 8)
    (hfrom : b.gstate g ∈ from_ ∨ b.gstate g = v) : a.Moves from_ v (d.setGstate g v) := by
  rw [← (hs g hg).1] at hfrom
  exact (h.trans_same hs).setGstate hv hv8 hfrom

theorem startGroup (h : a.Moves [0] 1 d) {g : Nat} (hg : g < 12) : a.Moves [0] 1 (d.startGroup g) := by
  have hres : d.SameStates (d.setReg (Reg.PG_START_RES g) (bitMask 31 ||| place 15 8 (d.startCause g))) :=
    .setReg (.refl d) (not_groupStatus_of_offset (by decide) g)
  unfold Dev.startGroup
  dsimp only
  split
  · next hok =>
    have hoff : d.gstate g = 0 := by
      unfold Dev.startCause at hok
      grind
    refine trans_same (h.enter (hres.of_regs ?_) hg (by decide) (by decide) (.inl ?_)) (.holdEnd (.refl _) g)
    · rfl
    · exact List.mem_singleton.mpr hoff
  · exact h.trans_same (hres.raise _ _)

theorem stopGroup (h : a.Moves [1, 2, 4] 3 d) (now : Bool) {g : Nat} (hg : g < 12) : a.Moves [1, 2, 4] 3 (d.stopGroup now g) := by
  unfold Dev.stopGroup
  dsimp only
  split
  · next hst =>
    refine trans_same (h.enter (.when (.of_regs (.refl d) ?_) fun _ hd => ?_) hg (by decide) (by decide) (.inl ?_)) (.settle (.refl _) g)
    · rfl
    · exact hd.setFld (not_groupStatus_of_offset (by decide) g)
    · simpa using hst
  · exact h.trans_same (.raise (.refl d) _ _)

theorem newTrip (h : a.Moves [1, 2, 3] 4 d) (ha : ∀ g, a.gstate g ≤ 4) (c : Nat) {g : Nat} (hg : g < 12) : a.Moves [1, 2, 3] 4 (d.newTrip c g) := by
  have hlatch := SameStates.latchTrip (.refl d) c g
  by_cases hon : d.gstate g = 0
  · rw [Dev.newTrip_off c hg hon]
    exact h.trans_same hlatch
  · rw [Dev.newTrip_on c hg hon]
    have hle : d.gstate g ≤ 4 := by
      have := ha g
      have := h g hg
      omega
    refine trans_same (h.enter (hlatch.applyAction _ _) hg (by decide) (by decide) ?_) (.laneTrip (.refl _) g)
    simp only [List.mem_cons, List.not_mem_nil]
    omega

theorem tripOne (h : a.Moves [1, 2, 3] 4 d) (ha : ∀ g, a.gstate g ≤ 4) (c : Nat) {g : Nat} (hg : g < 12) :
    a.Moves [1, 2, 3] 4 (d.tripOne c g).2 := by
  by_cases hen : d.tripEnabled g c
  · cases hlatch : d.latched g with
    | false =>
      rw [Dev.tripOne_new hen hlatch]
      exact h.newTrip ha c hg
    | true =>
      unfold Dev.tripOne
      dsimp only
      split
      · exact h
      split
      · exact h
      · exact h.trans_same (.when (.setBit (.refl d) (not_groupStatus_of_offset (by decide) g)) fun _ hd => hd.applyAction g 2)
  · rwa [show d.tripOne c g = (false, d) from if_pos (by simpa using hen)]

theorem tripChain (h : a.Moves [1, 2, 3] 4 d) (ha : ∀ g, a.gstate g ≤ 4) (fuel c : Nat) {g : Nat} (hg : g < 12) :
    a.Moves [1, 2, 3] 4 (d.tripChain fuel c g) := by
  induction fuel generalizing c g d with
  | zero => exact h
  | succ fuel ih =>
    unfold Dev.tripChain
    dsimp only
    split
    · exact (h.tripOne ha c hg).each (fun x hx => List.mem_range.mp (List.mem_filter.mp hx).1) fun x hx d hd => ih hd 15 hx
    · exact h.tripOne ha c hg

theorem trip (h : a.Moves [1, 2, 3] 4 d) (ha : ∀ g, a.gstate g ≤ 4) (c : Nat) {g : Nat} (hg : g < 12) :
    a.Moves [1, 2, 3] 4 (d.trip c g) := h.tripChain ha 13 c hg

theorem tripInputSet (h : a.Moves [1, 2, 3] 4 d) (ha : ∀ g, a.gstate g ≤ 4) (i : Nat) (active : Bool) :
    a.Moves [1, 2, 3] 4 (d.tripInputSet i active) := by
  unfold Dev.tripInputSet
  dsimp only
  split
  · unfold Dev.tripFromInput
    have hset {x : BitVec 13} : a.Moves [1, 2, 3] 4 ((Dev.putTripIn x d).raise 0x2C i) := h.trans_same (.raise (.of_regs (.refl d) rfl) _ _)
    split
    · exact hset.each (fun g hg => List.mem_range.mp hg) fun g hg d hd => hd.trip ha 2 hg
    · exact hset.each (fun g hg => List.mem_range.mp (List.mem_filter.mp hg).1) fun g hg d hd => hd.trip ha 1 hg
  · exact h.trans_same (.of_regs (.refl d) rfl)

/-- A clear changes no state: TRIPPED ends at a reload (R316). -/
theorem clearGroup (h : a.Moves from_ v d) (except g : Nat) : a.Moves from_ v (d.clearGroup except g) := by
  unfold Dev.clearGroup
  dsimp only
  have hclear : d.SameStates ((d.setBit (Reg.PG_TRIP_STAT g) 31 false).raise (0x20 + g) 18) :=
    .raise (.setBit (.refl d) (not_groupStatus_of_offset (by decide) g)) _ _
  split
  · exact h.trans_same (.raise (.setReg (.refl d) (not_groupStatus_of_offset (by decide) g)) _ _)
  split
  · exact h.trans_same (hclear.of_regs rfl)
  · exact h.trans_same ((hclear.setFld (not_groupStatus_of_offset (by decide) g)).settle g)

/-- A stopping group goes off when its instant has come (R284). -/
theorem groupOff (h : a.Moves [3] 0 d) (g : Nat) : a.Moves [3] 0 (d.when (d.offDue g) (Dev.setGstate g 0)) := by
  obtain ⟨hw, hdue⟩ | ⟨hw, -⟩ := Dev.when_cases (d.offDue g) (Dev.setGstate g 0) d
  · have hstopping : d.gstate g = 3 := by
      unfold Dev.offDue at hdue
      grind
    rw [hw]
    exact h.setGstate (by decide) (by decide) (.inl (List.mem_singleton.mpr hstopping))
  · rwa [hw]

/-- A trip input acts where its page is not held and its filter passes the level (R307). -/
theorem tripInput (h : a.Moves [1, 2, 3] 4 d) (ha : ∀ g, a.gstate g ≤ 4) (i : Nat) (level : Bool) (clocks : Nat) :
    a.Moves [1, 2, 3] 4 (if d.pageHeld 0x2C ∨ clocks < d.tripFilter i then d
      else d.tripInputSet i (level == d.bit (Reg.PWMSYS_TRIP_IN i) 31)) := by
  split
  · exact h
  · exact h.tripInputSet ha i _

end Dev.Moves

/-! ### The obligation -/

/-- The changes of state that the commands of groups and trips make (R282). -/
def stateTable : List (Nat × Nat) := [(0, 1), (1, 3), (2, 3), (4, 3), (3, 0), (1, 4), (2, 4), (3, 4)]

/-- Moves along the table are what the obligation asks of a group. -/
theorem Dev.Moves.in_table {from_ : List Nat} {v : Nat} {a b : Dev} (h : a.Moves from_ v b) (hv : ∀ x ∈ from_, (x, v) ∈ stateTable) :
    ∀ g : Fin 12, b.gstate g.val ≠ a.gstate g.val → b.stateChanged g.val ∧ (a.gstate g.val, b.gstate g.val) ∈ stateTable := by
  intro g hne
  obtain hstay | ⟨hfrom, hto, hraised⟩ := h g.val g.isLt
  · exact absurd hstay hne
  · exact ⟨hraised, hto ▸ hv _ hfrom⟩

theorem mem_groupsOf {g : Nat} {v : Word} (h : g ∈ groupsOf v) : g < 12 := List.mem_range.mp (List.mem_filter.mp h).1

/-- Settles O44: each command moves groups to one state, and from states that the table allows. -/
theorem groupStateChangesRaiseEvents : Obligations.GroupStateChangesRaiseEvents := by
  unfold Obligations.GroupStateChangesRaiseEvents
  intro s m g i v b k c hle hc
  have hstart : ∀ x ∈ [0], (x, 1) ∈ stateTable := by decide
  have hstop : ∀ x ∈ [1, 2, 4], (x, 3) ∈ stateTable := by decide
  have hoff : ∀ x ∈ [3], (x, 0) ∈ stateTable := by decide
  have htrip : ∀ x ∈ [1, 2, 3], (x, 4) ∈ stateTable := by decide
  have hrefl (from_ : List Nat) (v : Nat) : s.dev.Moves from_ v s.dev := .refl from_ v s.dev
  simp only [List.mem_cons, List.not_mem_nil, or_false] at hc
  rcases hc with rfl | rfl | rfl | rfl | rfl | rfl | rfl | rfl | rfl | rfl
  · exact ⟨_, rfl, ((hrefl [0] 1).accessWrite fun _ hd => hd.startGroup g.isLt).in_table hstart⟩
  · exact ⟨_, rfl, ((hrefl [1, 2, 4] 3).accessWrite fun _ hd => hd.stopGroup false g.isLt).in_table hstop⟩
  · exact ⟨_, rfl, ((hrefl [1, 2, 4] 3).accessWrite fun _ hd => hd.stopGroup true g.isLt).in_table hstop⟩
  · exact ⟨_, rfl, ((hrefl [1, 2, 3] 4).accessWrite fun _ hd => hd.trip hle 7 g.isLt).in_table htrip⟩
  · exact ⟨_, rfl, ((hrefl [0] 1).accessWrite fun _ hd => hd.clearGroup 0 g.val).in_table hstart⟩
  · refine ⟨_, rfl, ((hrefl [0] 1).accessWrite fun _ hd => ?_).in_table hstart⟩
    exact hd.each (fun _ hx => mem_groupsOf hx) fun _ hx _ hd => hd.startGroup hx
  · refine ⟨_, rfl, ((hrefl [1, 2, 4] 3).accessWrite fun _ hd => ?_).in_table hstop⟩
    exact hd.each (fun _ hx => mem_groupsOf hx) fun _ hx _ hd => hd.stopGroup false hx
  · refine ⟨_, rfl, ((hrefl [0] 1).accessWrite fun _ hd => ?_).in_table hstart⟩
    exact hd.each (fun _ hx => mem_groupsOf hx) fun x _ _ hd => hd.clearGroup _ x
  · exact ⟨_, rfl, ((hrefl [3] 0).groupOff g.val).in_table hoff⟩
  · exact ⟨_, rfl, ((hrefl [1, 2, 3] 4).tripInput hle i.val b k).in_table htrip⟩

end Sys2Proof.Machine

/-! SUPPORT. Passwords: what a wrong one leaves of the registers of the safety page, and of the log (R543, R549, R550). -/

namespace Sys2Proof.Machine

theorem keyedWrite_safeCmd_one : keyedWrite Reg.SAFE_CMD 1 = true := by decide

/-- OPEN that its master's access table permits, with the page unlocked, takes the unlock and acts. -/
theorem goes_open {s : State} {m : Master} (h : s.dev.Unlocked m Reg.SAFE_CMD) :
    Goes (.open_ m) s ((s.dev.setKstate 0x92 0).openOp m) := by
  obtain ⟨⟨hheld, hmay⟩, hkey⟩ := h
  show execOpen m s = _
  rw [execOpen, State.onDev_eq, Dev.accessWrite_unlocked hheld hmay keyedWrite_safeCmd_one hkey]
  rfl

/-- An event is beside what Sloe holds. -/
@[simp] theorem Dev.sloe_raise (p i : Nat) (d : Dev) : (d.raise p i).sloe = d.sloe := rfl

/-! ### The log -/

/-- The log takes an entry; beside it and the page's event, STAT and LOG_STAT show it. -/
theorem Dev.log_logEntry (o kind item : Nat) (x y : Word) (d : Dev) :
    ∃ e, (d.logEntry o kind item x y).sloe.log = d.sloe.log ++ [e] ∧ nth 0 e 13 = BitVec.ofNat 8 kind := by
  refine ⟨_, rfl, ?_⟩
  simp [nth, bytesOfNat]

/-- LOG_FULL apart, STAT stands, and so does every other register but LOG_STAT and the page's events. -/
theorem Dev.reg_logEntry {k : Nat} (hstat : k ≠ Reg.SAFE_STAT) (hlog : k ≠ Reg.SAFE_LOG_STAT) (hraw : k ≠ Reg.evtRaw 0x92) (o kind item : Nat)
    (x y : Word) (d : Dev) : (d.logEntry o kind item x y).reg k = d.reg k := by
  unfold Dev.logEntry Dev.logShown
  rw [Dev.reg_raise_ne hraw, Dev.reg_setFld_ne hlog, Dev.reg_setBit_ne hstat, Dev.modSloe_reg]

theorem Dev.bit_logEntry_stat {i : Nat} (hi : i ≠ 12) (o kind item : Nat) (x y : Word) (d : Dev) :
    (d.logEntry o kind item x y).bit Reg.SAFE_STAT i = d.bit Reg.SAFE_STAT i := by
  unfold Dev.logEntry Dev.logShown
  rw [Dev.bit, Dev.reg_raise_ne (by decide), Dev.reg_setFld_ne (by decide), ← Dev.bit, Dev.bit_setBit_other hi, Dev.bit, Dev.modSloe_reg,
    Dev.bit]

/-! ### A wrong password -/

/-- Both counts step. -/
def Dev.countPassword (d : Dev) : Dev := (d.bumpSat Reg.SAFE_PW_FAIL 7 0).bumpSat Reg.SAFE_PW_FAIL 31 16

/-- The entry is logged, or counted as dropped. -/
def Dev.logPassword (m : Master) (d : Dev) : Dev :=
  if d.logFull then d.bumpSat Reg.SAFE_LOG_STAT 23 16 else d.logEntry (originOf m) 7 0 d.safetyCrc d.safetyCrc

/-- The third in a row locks. -/
def Dev.lockPassword (d : Dev) : Dev :=
  d.when (3 ≤ d.fld Reg.SAFE_PW_FAIL 7 0) (fun d => (d.setBit Reg.SAFE_STAT 11 true).modSloe (fun x => { x with pwLockAt := d.now }))

theorem Dev.passwordWrong_eq (m : Master) (d : Dev) :
    d.passwordWrong m = ((d.countPassword.logPassword m).raise 0x92 0).lockPassword := rfl

theorem Dev.fld_countPassword (d : Dev) : d.countPassword.fld Reg.SAFE_PW_FAIL 7 0 = min 0xFF (d.fld Reg.SAFE_PW_FAIL 7 0 + 1) ∧
    d.countPassword.fld Reg.SAFE_PW_FAIL 31 16 = min 0xFFFF (d.fld Reg.SAFE_PW_FAIL 31 16 + 1) := by
  have hsum : (d.bumpSat Reg.SAFE_PW_FAIL 7 0).fld Reg.SAFE_PW_FAIL 31 16 = d.fld Reg.SAFE_PW_FAIL 31 16 :=
    Dev.fld_setFld_disjoint (by decide) (by decide) (by decide) d
  constructor
  · exact (Dev.fld_setFld_disjoint (by decide) (by decide) (by decide) _).trans (Dev.fld_bumpSat_same (by decide) (by decide) d)
  · rw [← hsum]
    exact Dev.fld_bumpSat_same (by decide) (by decide) _

theorem Dev.reg_countPassword {k : Nat} (hk : k ≠ Reg.SAFE_PW_FAIL) (d : Dev) : d.countPassword.reg k = d.reg k := by
  rw [Dev.countPassword, Dev.reg_bumpSat_ne hk, Dev.reg_bumpSat_ne hk]

theorem Dev.reg_logPassword {k : Nat} (hstat : k ≠ Reg.SAFE_STAT) (hlog : k ≠ Reg.SAFE_LOG_STAT) (hraw : k ≠ Reg.evtRaw 0x92) (m : Master)
    (d : Dev) : (d.logPassword m).reg k = d.reg k := by
  unfold Dev.logPassword
  split
  · exact Dev.reg_bumpSat_ne hlog d
  · exact Dev.reg_logEntry hstat hlog hraw ..

theorem Dev.bit_logPassword_stat {i : Nat} (hi : i ≠ 12) (m : Master) (d : Dev) :
    (d.logPassword m).bit Reg.SAFE_STAT i = d.bit Reg.SAFE_STAT i := by
  unfold Dev.logPassword
  split
  · rw [Dev.bit, Dev.reg_bumpSat_ne (by decide), Dev.bit]
  · exact Dev.bit_logEntry_stat hi ..

theorem Dev.reg_lockPassword {k : Nat} (hk : k ≠ Reg.SAFE_STAT) (d : Dev) : d.lockPassword.reg k = d.reg k :=
  Dev.reg_when (Dev.reg_setBit_ne hk true d)

theorem Dev.bit_lockPassword_other {i : Nat} (hi : i ≠ 11) (d : Dev) : d.lockPassword.bit Reg.SAFE_STAT i = d.bit Reg.SAFE_STAT i := by
  unfold Dev.lockPassword
  rcases Dev.when_cases .. with ⟨hw, -⟩ | ⟨hw, -⟩ <;> rw [hw]
  exact Dev.bit_setBit_other hi true d

theorem Dev.bit_lockPassword (d : Dev) :
    d.lockPassword.bit Reg.SAFE_STAT 11 = (d.bit Reg.SAFE_STAT 11 || decide (3 ≤ d.fld Reg.SAFE_PW_FAIL 7 0)) := by
  unfold Dev.lockPassword
  rcases Dev.when_cases .. with ⟨hw, hc⟩ | ⟨hw, hc⟩ <;> rw [hw, hc]
  · rw [Bool.or_true]
    exact Dev.bit_setBit_same (by decide) true d
  · rw [Bool.or_false]

theorem Dev.log_lockPassword (d : Dev) : d.lockPassword.sloe.log = d.sloe.log := by
  unfold Dev.lockPassword
  rcases Dev.when_cases .. with ⟨hw, -⟩ | ⟨hw, -⟩ <;> rw [hw]
  rfl

/-- PW_FAIL after a wrong password. -/
theorem Dev.reg_passwordWrong_fail (m : Master) (d : Dev) :
    (d.passwordWrong m).reg Reg.SAFE_PW_FAIL = d.countPassword.reg Reg.SAFE_PW_FAIL := by
  rw [Dev.passwordWrong_eq, Dev.reg_lockPassword (by decide), Dev.reg_raise_ne (by decide),
    Dev.reg_logPassword (by decide) (by decide) (by decide)]

/-- The lock after a wrong password. -/
theorem Dev.bit_passwordWrong_lock (m : Master) (d : Dev) : (d.passwordWrong m).bit Reg.SAFE_STAT 11 =
    (d.bit Reg.SAFE_STAT 11 || decide (3 ≤ d.fld Reg.SAFE_PW_FAIL 7 0 + 1)) := by
  have hcount : ((d.countPassword.logPassword m).raise 0x92 0).fld Reg.SAFE_PW_FAIL 7 0 = min 0xFF (d.fld Reg.SAFE_PW_FAIL 7 0 + 1) := by
    rw [← (Dev.fld_countPassword d).1, Dev.fld, Dev.reg_raise_ne (by decide), Dev.reg_logPassword (by decide) (by decide) (by decide), Dev.fld]
  have hstat : ((d.countPassword.logPassword m).raise 0x92 0).bit Reg.SAFE_STAT 11 = d.bit Reg.SAFE_STAT 11 := by
    rw [Dev.bit, Dev.reg_raise_ne (by decide), ← Dev.bit, Dev.bit_logPassword_stat (by decide), Dev.bit,
      Dev.reg_countPassword (by decide), Dev.bit]
  rw [Dev.passwordWrong_eq, Dev.bit_lockPassword, hcount, hstat]
  congr 2
  exact propext (by omega)

/-- It opens no session. -/
theorem Dev.sessionOpen_passwordWrong (m : Master) (d : Dev) : (d.passwordWrong m).sessionOpen = d.sessionOpen := by
  rw [Dev.passwordWrong_eq, Dev.sessionOpen, Dev.bit_lockPassword_other (by decide), Dev.bit, Dev.reg_raise_ne (by decide), ← Dev.bit,
    Dev.bit_logPassword_stat (by decide), Dev.bit, Dev.reg_countPassword (by decide), ← Dev.bit, Dev.sessionOpen]

theorem Dev.bit_passwordWrong_raised (m : Master) (d : Dev) : (d.passwordWrong m).bit (Reg.evtRaw 0x92) 0 = true := by
  rw [Dev.passwordWrong_eq, Dev.bit, Dev.reg_lockPassword (by decide), ← Dev.bit, Dev.bit_raise_same (by decide)]

/-- The entry is of kind 7. -/
theorem Dev.log_passwordWrong (m : Master) {d : Dev} (h : d.logFull = false) :
    ∃ e, (d.passwordWrong m).sloe.log = d.sloe.log ++ [e] ∧ nth 0 e 13 = 7 := by
  have hfull : d.countPassword.logFull = false := h
  rw [Dev.passwordWrong_eq, Dev.log_lockPassword, Dev.sloe_raise, Dev.logPassword, if_neg (by simp [hfull])]
  exact Dev.log_logEntry ..

/-- A full log takes no entry, and counts it. -/
theorem Dev.log_passwordWrong_full (m : Master) {d : Dev} (h : d.logFull = true) : (d.passwordWrong m).sloe.log = d.sloe.log ∧
    (d.passwordWrong m).fld Reg.SAFE_LOG_STAT 23 16 = min 0xFF (d.fld Reg.SAFE_LOG_STAT 23 16 + 1) := by
  have hfull : d.countPassword.logFull = true := h
  have hdrop : d.countPassword.fld Reg.SAFE_LOG_STAT 23 16 = d.fld Reg.SAFE_LOG_STAT 23 16 := by
    rw [Dev.fld, Dev.reg_countPassword (by decide), Dev.fld]
  rw [Dev.passwordWrong_eq, Dev.log_lockPassword, Dev.fld, Dev.reg_lockPassword (by decide), Dev.reg_raise_ne (by decide), ← Dev.fld,
    Dev.sloe_raise, Dev.logPassword, if_pos hfull, Dev.fld_bumpSat_same (by decide) (by decide), hdrop]
  exact ⟨rfl, rfl⟩

/-! ### OPEN -/

/-- OPEN consumes the unlock and the password written. -/
def Dev.beginOpen (d : Dev) : Dev := (d.setKstate 0x92 0).modSloe (fun x => { x with pwIn := 0 })

theorem Dev.reg_beginOpen {k : Nat} (hk : k % 0x1000 ≠ 0x1C) (d : Dev) : d.beginOpen.reg k = d.reg k := by
  rw [Dev.beginOpen, Dev.modSloe_reg, Dev.reg_setKstate hk]

theorem Dev.fld_beginOpen {k hi lo : Nat} (hk : k % 0x1000 ≠ 0x1C) (d : Dev) : d.beginOpen.fld k hi lo = d.fld k hi lo := by
  rw [Dev.fld, Dev.reg_beginOpen hk, Dev.fld]

theorem Dev.bit_beginOpen {k i : Nat} (hk : k % 0x1000 ≠ 0x1C) (d : Dev) : d.beginOpen.bit k i = d.bit k i := by
  rw [Dev.bit, Dev.reg_beginOpen hk, Dev.bit]

theorem Dev.deviceOff_beginOpen (d : Dev) : d.beginOpen.deviceOff = d.deviceOff := by
  have hstate (g : Nat) : d.beginOpen.gstate g = d.gstate g := Dev.fld_beginOpen (by unfold Reg.PG_STAT; omega) d
  simp only [Dev.deviceOff, hstate]

/-- A master that may open a session, with no safety CRC under way, no session open, the device OFF and not ARMED: the lock refuses
without a comparison, and without it the password decides (R542, R543). -/
theorem Dev.openOp_judges {m : Master} {d : Dev} (hm : m = .host ∨ m = .medlar) (hcrc : d.sloe.crcRun = false)
    (hclosed : d.sessionOpen = false) (hoff : d.deviceOff = true) (harmed : d.cstate ≠ 3) :
    (d.bit Reg.SAFE_STAT 11 = true → (d.setKstate 0x92 0).openOp m = d.beginOpen.safeResult 1 4 0) ∧
      (d.bit Reg.SAFE_STAT 11 = false → (d.setKstate 0x92 0).openOp m =
        if d.sloe.pwIn ≠ d.sloe.password.getD 0 then (d.beginOpen.passwordWrong m).safeResult 1 3 0
        else
          let u := d.beginOpen.setFld Reg.SAFE_PW_FAIL 7 0 0
          if u.logFull then u.safeResult 1 8 0
          else (((((u.setBit Reg.SAFE_STAT 8 true).setFld Reg.SAFE_STAT 10 9 (if m = .host then 1 else 2)).raise 0x92 1).logEntry
            (originOf m) 8 0 u.safetyCrc u.safetyCrc).safeResult 1 0 0).touchSession.evaluate) := by
  have hcrc' : d.beginOpen.sloe.crcRun = false := hcrc
  have hclosed' : d.beginOpen.sessionOpen = false := (Dev.bit_beginOpen (by decide) d).trans hclosed
  have hoff' : d.beginOpen.deviceOff = true := d.deviceOff_beginOpen.trans hoff
  have harmed' : d.beginOpen.cstate ≠ 3 := fun h => harmed ((Dev.fld_beginOpen (by decide) d).symm.trans h)
  have hlock : d.beginOpen.bit Reg.SAFE_STAT 11 = d.bit Reg.SAFE_STAT 11 := Dev.bit_beginOpen (by decide) d
  have hmay : ¬ (m ≠ .host ∧ m ≠ .medlar) := fun h => hm.elim h.1 h.2
  unfold Dev.openOp
  dsimp only
  rw [show (d.setKstate 0x92 0).modSloe (fun x => { x with pwIn := 0 }) = d.beginOpen from rfl]
  simp only [hcrc', hclosed', hoff', harmed', hmay, hlock, Bool.false_eq_true, Bool.not_true, if_false]
  exact ⟨fun h => if_pos h, fun h => if_neg (by simp [h])⟩

/-- RESULT apart, a result changes no register. -/
theorem Dev.reg_safeResult_ne {k c e i : Nat} (hk : k ≠ Reg.SAFE_RESULT) (d : Dev) : (d.safeResult c e i).reg k = d.reg k :=
  Dev.reg_setReg_ne hk _ d

/-- Settles O48: a wrong password is counted, logged and answered; the third locks; the lock answers by itself and ends by itself. -/
theorem wrongPasswordsLock : Obligations.WrongPasswordsLock := by
  unfold Obligations.WrongPasswordsLock
  rintro s m d rfl hunlocked hm hcrc hclosed hoff harmed
  have hgoes := goes_open hunlocked
  obtain ⟨hlocked, hwrong⟩ := Dev.openOp_judges hm hcrc hclosed hoff harmed
  have hclosed' : s.dev.beginOpen.sessionOpen = false := (Dev.bit_beginOpen (by decide) s.dev).trans hclosed
  refine ⟨fun hfree hpw => ?wrong, fun hlock => ?locked, fun hend => ?expiry⟩
  case wrong =>
    rw [hwrong hfree, if_pos hpw] at hgoes
    obtain ⟨hconsec, htotal⟩ := s.dev.beginOpen.fld_countPassword
    refine ⟨_, hgoes, ?session, Dev.reg_setReg_same .., ?raised, ?consec, ?total, ?lock, fun hroom => ?logged, fun hfull => ?dropped⟩
    case session =>
      rw [Dev.sessionOpen, Dev.bit, Dev.reg_safeResult_ne (by decide), ← Dev.bit, ← Dev.sessionOpen, Dev.sessionOpen_passwordWrong, hclosed']
    case raised => rw [Dev.bit, Dev.reg_safeResult_ne (by decide), ← Dev.bit, Dev.bit_passwordWrong_raised]
    case consec =>
      rw [Dev.fld, Dev.reg_safeResult_ne (by decide), Dev.reg_passwordWrong_fail, ← Dev.fld, hconsec, Dev.fld_beginOpen (by decide)]
    case total =>
      rw [Dev.fld, Dev.reg_safeResult_ne (by decide), Dev.reg_passwordWrong_fail, ← Dev.fld, htotal, Dev.fld_beginOpen (by decide)]
    case lock =>
      rw [Dev.bit, Dev.reg_safeResult_ne (by decide), ← Dev.bit, Dev.bit_passwordWrong_lock, Dev.bit_beginOpen (by decide),
        Dev.fld_beginOpen (by decide), hfree, Bool.false_or]
    case logged => exact Dev.log_passwordWrong m (d := s.dev.beginOpen) hroom
    case dropped =>
      obtain ⟨hlog, hcount⟩ := Dev.log_passwordWrong_full m (d := s.dev.beginOpen) hfull
      rw [Dev.fld_beginOpen (by decide)] at hcount
      refine ⟨hlog, ?_⟩
      rw [Dev.fld, Dev.reg_safeResult_ne (by decide), ← Dev.fld, hcount]
  case locked =>
    rw [hlocked hlock] at hgoes
    refine ⟨_, hgoes, ?_, Dev.reg_setReg_same .., ?_, rfl⟩
    · rw [Dev.sessionOpen, Dev.bit, Dev.reg_safeResult_ne (by decide), ← Dev.bit, ← Dev.sessionOpen, hclosed']
    · rw [Dev.reg_safeResult_ne (by decide), Dev.reg_beginOpen (by decide)]
  case expiry =>
    refine ⟨s.dev.setBit Reg.SAFE_STAT 11 false, ?_, Dev.bit_setBit_same (by decide) .., Dev.reg_setBit_ne (by decide) ..⟩
    show execPwLockExpiry s = _
    rw [execPwLockExpiry, State.onDev_eq, hend, beq_self_eq_true, Dev.when_true]

end Sys2Proof.Machine

/-! SUPPORT. Memory by words: bytes written upward and read back, and what writes to memory leave of registers and shadows (R39). -/

namespace Sys2Proof.Machine

/-! ### Bytes written upward -/

/-- The addresses where memory can be written, by the map of R39. -/
theorem Region.writable_iff {a : Nat} : (regionOf a).writable = true ↔ (0x10000000 ≤ a ∧ a < 0x10200000) ∨
    (0x18000000 ≤ a ∧ a < 0x18C00000 ∧ (a - 0x18000000) % 0x100000 < 0x20000) ∨ (0x20000000 ≤ a ∧ a < 0x20040000) ∨
    (0x80000000 ≤ a ∧ a < 0x84000000) := by
  unfold regionOf
  dsimp only
  repeat' split
  all_goals simp only [Region.writable, true_iff, Bool.false_eq_true, false_iff]
  all_goals omega

/-- An aligned access of up to four bytes lies in one region. -/
theorem Region.writable_add {a n i : Nat} (h : (regionOf a).writable = true) (hn : n = 1 ∨ n = 2 ∨ n = 4) (ha : a % n = 0) (hi : i < n) :
    (regionOf (a + i)).writable = true := by
  rw [Region.writable_iff] at h ⊢
  rcases hn with rfl | rfl | rfl <;> omega

/-- Bytes written upward in memory read back. -/
theorem Dev.byteAt_setBytes {a : Nat} (bs : List Byte) (hw : ∀ i < bs.length, (regionOf (a + i)).writable = true) (d : Dev) (i : Nat)
    (hi : i < bs.length) : (Dev.setBytes a bs d).byteAt (a + i) = bs[i] := by
  induction bs generalizing a d i with
  | nil => simp at hi
  | cons b rest ih =>
    unfold Dev.setBytes
    cases i with
    | zero =>
      show (Dev.setBytes (a + 1) rest (d.setByte a b)).byteAt a = b
      rw [Dev.byteAt_setBytes_ne rest (by omega), Dev.byteAt_setByte_same (a := a) (hw 0 (by simp))]
    | succ i =>
      have hrest : ∀ j < rest.length, (regionOf (a + 1 + j)).writable = true := fun j hj => by
        have h := hw (j + 1) (by simpa using hj)
        rwa [show a + 1 + j = a + (j + 1) by omega]
      rw [show a + (i + 1) = a + 1 + i by omega, ih hrest _ i (by simpa using hi), List.getElem_cons_succ]

@[simp] theorem Dev.sh_setBytes (a k : Nat) (bs : List Byte) (d : Dev) : (Dev.setBytes a bs d).sh k = d.sh k := by
  induction bs generalizing a d with
  | nil => rfl
  | cons b rest ih =>
    unfold Dev.setBytes
    rw [ih]
    unfold Dev.setByte
    split <;> rfl

theorem length_wordBytes (w : Word) : (wordBytes w).length = 4 := rfl

/-- A byte of a word, from the least significant up. -/
theorem wordBytes_getElem (w : Word) (i : Nat) (hi : i < (wordBytes w).length) : (wordBytes w)[i] = w.extractLsb' (8 * i) 8 := by
  have hi : i < 4 := hi
  match i with
  | 0 | 1 | 2 | 3 => rfl

/-- A word's bytes make the word. -/
theorem wordOfBytes_wordBytes (w : Word) : wordOfBytes (wordBytes w) = w := by
  apply BitVec.eq_of_toNat_eq
  have hlt := w.isLt
  rw [toNat_wordOfBytes (Nat.le_of_eq (length_wordBytes w))]
  simp only [wordBytes, natOfBytes, BitVec.extractLsb'_toNat, Nat.shiftRight_eq_div_pow]
  omega

/-- A word written to memory reads back. -/
theorem Dev.wordAt_setBytes {a : Nat} (hw : ∀ i < 4, (regionOf (a + i)).writable = true) (w : Word) (d : Dev) :
    (Dev.setBytes a (wordBytes w) d).wordAt a = w := by
  have hbytes : (Dev.setBytes a (wordBytes w) d).bytesAt a 4 = wordBytes w := by
    refine List.ext_getElem (Dev.length_bytesAt ..) fun i hi _ => ?_
    rw [Dev.length_bytesAt] at hi
    simp only [Dev.bytesAt, List.getElem_map, List.getElem_range]
    exact Dev.byteAt_setBytes (wordBytes w) hw d i hi
  rw [Dev.wordAt, hbytes, wordOfBytes_wordBytes]

/-! ### A permitted write to memory (R39, R43) -/

/-- The regions that take writes are those of memory. -/
theorem writable_of_mem {r : Region}
    (h : r ∈ Region.sram :: .triad :: .dram :: ((List.range 12).map .leProg ++ (List.range 12).map .leData)) : r.writable = true := by
  simp only [List.mem_cons, List.mem_append, List.mem_map] at h
  rcases h with rfl | rfl | rfl | ⟨n, -, rfl⟩ | ⟨n, -, rfl⟩ <;> rfl

/-- The memory of the cycle in which a write lands, traffic of the DRAM noted, is that before it. -/
theorem Dev.byteAt_enterCycle (m : Master) (same : Bool) (x : Nat) (d : Dev) : (d.enterCycle m same).byteAt x = d.byteAt x := by
  obtain ⟨c, hc⟩ := Dev.enterCycle_eq m same d
  rw [hc]
  rfl

/-- Settles O54: the write is a write of the value's low bytes, upward from its address. -/
theorem memoryWritesStoreTheirBytes : Obligations.MemoryWritesStoreTheirBytes := by
  unfold Obligations.MemoryWritesStoreTheirBytes
  rintro s m a n v same _ r rfl hn1 hn4 hn3 halign hmem rfl hmay
  have hwritable := writable_of_mem hmem
  have hlen : ((wordBytes v).take n).length = n := by rw [List.length_take, length_wordBytes]; omega
  have hgoes := goes_registerWrite m a n v same s
  rw [Dev.landWrite_memory hwritable (by rwa [Dev.mayAccess_enterCycle])] at hgoes
  refine ⟨_, hgoes, fun i hi => ?stored, fun x hx => ?others, fun k => ?registers⟩
  case stored =>
    rw [Dev.byteAt_setBytes _ (fun j hj => Region.writable_add hwritable (by omega) halign (hlen ▸ hj)) _ i (by rwa [hlen]),
      List.getElem_take, wordBytes_getElem]
  case others =>
    rw [Dev.byteAt_setBytes_ne _ (by rwa [hlen]), apply_ite (Dev.byteAt · x)]
    exact (ite_self _).trans (Dev.byteAt_enterCycle m same x s.dev)
  case registers =>
    rw [Dev.reg_setBytes, Dev.sh_setBytes, apply_ite (Dev.reg · k), apply_ite (Dev.sh · k)]
    exact ⟨(ite_self _).trans (Dev.reg_enterCycle ..), (ite_self _).trans (Dev.sh_enterCycle ..)⟩

end Sys2Proof.Machine

/-! SUPPORT. Frames of the engine's instructions: what an engine changes inside its own page, and what a store changes of memory
(R169, R187). -/

namespace Sys2Proof.Machine

/-! ### Changes inside an engine -/

/-- From `a` to `b` only registers of the page of engine `e`, its own state and the cycle's record change. -/
structure Dev.InsideEngine (e : Nat) (a b : Dev) : Prop where
  outside : a.SameOutside [0x10 + e] b
  others  : ∀ n, n ≠ e → b.engine n = a.engine n
  rest    : ∃ r x c, b = { a with regs := r, engines := x, cyc := c }

namespace Dev.InsideEngine

variable {e : Nat} {a d : Dev}

theorem refl (e : Nat) (a : Dev) : a.InsideEngine e a := ⟨fun _ _ => ⟨rfl, rfl⟩, fun _ _ => rfl, ⟨_, _, _, rfl⟩⟩

theorem setReg (h : a.InsideEngine e d) {k : Nat} {v : Word} (hk : k / 0x1000 = 0x10 + e) : a.InsideEngine e (d.setReg k v) where
  outside j hj := by
    have hne : j ≠ k := by
      rintro rfl
      exact hj (List.mem_singleton.mpr hk)
    rw [Dev.reg_setReg_ne hne, Dev.sh_setReg]
    exact h.outside j hj
  others := h.others
  rest := by
    obtain ⟨r, x, c, rfl⟩ := h.rest
    exact ⟨_, _, _, rfl⟩

theorem putCyc (h : a.InsideEngine e d) (y : FabCycle) : a.InsideEngine e (Dev.putCyc y d) where
  outside := h.outside
  others := h.others
  rest := by
    obtain ⟨r, x, c, rfl⟩ := h.rest
    exact ⟨_, _, _, rfl⟩

theorem modEngine (h : a.InsideEngine e d) (f : Engine → Engine) : a.InsideEngine e (d.modEngine e f) where
  outside := h.outside
  others n hn := by
    rw [Dev.engine_modEngine, if_neg (fun q => hn q.1.symm)]
    exact h.others n hn
  rest := by
    obtain ⟨r, x, c, rfl⟩ := h.rest
    exact ⟨_, _, _, rfl⟩

theorem begun (h : a.InsideEngine e d) (f : EngFields) : a.InsideEngine e (d.begun f) := by
  unfold Dev.begun
  split
  · exact h
  · exact h.putCyc _

theorem raise (h : a.InsideEngine e d) (i : Nat) : a.InsideEngine e (d.raise (0x10 + e) i) :=
  putCyc (setReg h (by unfold Reg.evtRaw; omega)) _

theorem setPc (h : a.InsideEngine e d) (pc : Nat) : a.InsideEngine e (d.setPc e pc) := setReg h (by unfold Reg.LE_PC; omega)

theorem advance (h : a.InsideEngine e d) : a.InsideEngine e (d.advance e) := by
  unfold Dev.advance
  dsimp only
  repeat' split
  · exact (h.modEngine _).setPc _
  · exact (h.modEngine _).setPc _
  · exact h.setPc _
  · exact h.setPc _

theorem setV (h : a.InsideEngine e d) (r : Nat) (w : Word) : a.InsideEngine e (d.setV e r w) := by
  unfold Dev.setV
  split
  · exact h
  · exact h.modEngine _

theorem fpFlags (h : a.InsideEngine e d) (fl : FpFlags) : a.InsideEngine e (d.fpFlags e fl) := by
  unfold Dev.fpFlags
  dsimp only
  split
  · exact h
  · exact raise (setReg h (by unfold Reg.LE_FPX; omega)) 5

theorem oneResult (h : a.InsideEngine e d) {f : EngFields} {act : Dev → Dev} (hact : OneResult e f act) : a.InsideEngine e (act d) := by
  obtain rfl | ⟨g, rfl⟩ := hact
  · exact h.advance
  · exact ((h.setV _ _).fpFlags _).advance

/-- Memory stands beside all of these. -/
theorem sameMemory (h : a.InsideEngine e d) : a.SameMemory d := by
  obtain ⟨r, x, c, rfl⟩ := h.rest
  exact fun _ => rfl

end Dev.InsideEngine

/-! ### Registers of an engine -/

/-- A register of any engine reads as its file has it. -/
theorem Dev.v_congr {a b : Dev} {n : Nat} (h : (b.engine n).v = (a.engine n).v) (r : Nat) : b.v n r = a.v n r := by
  rw [Dev.v, h, Dev.v]

theorem Dev.v_setV_ne {r q : Nat} (h : q ≠ r) (e n : Nat) (w : Word) (d : Dev) : (d.setV e r w).v n q = d.v n q := by
  have hfile : vget 0 ((d.setV e r w).engine n).v q = vget 0 (d.engine n).v q := by
    unfold Dev.setV
    split
    · rfl
    rw [Dev.engine_modEngine]
    split
    · next hn =>
      obtain ⟨rfl, -⟩ := hn
      simp [vset, vget, Ne.symm h]
    · rfl
  rw [Dev.v, hfile, Dev.v]

theorem OneResult.v_ne {e : Nat} {f : EngFields} {act : Dev → Dev} (h : OneResult e f act) {r : Nat} (hr : r ≠ f.d.val) (n : Nat) (d : Dev) :
    (act d).v n r = d.v n r := by
  obtain rfl | ⟨g, rfl⟩ := h
  · exact Dev.v_congr (Dev.vregs_advance ..) r
  · rw [Dev.v_congr (Dev.vregs_advance ..), Dev.v_congr (congrArg Engine.v (Dev.engine_fpFlags ..)), Dev.v_setV_ne hr]

/-- Settles O52: a result, its flags and the pointer are the engine's own. -/
theorem arithmeticLeavesTheRest : Obligations.ArithmeticLeavesTheRest := by
  unfold Obligations.ArithmeticLeavesTheRest
  rintro s e f _ c op u rfl hmem hop hissues
  obtain ⟨act, hact, hexec⟩ := exec_eq_issue_oneResult e f _ hmem hop
  have hinside := ((Dev.InsideEngine.refl e.val s.dev).begun f).oneResult hact
  refine ⟨act (s.dev.begun f), ?goes, hinside.sameMemory, hinside.outside, fun r hr => ?others, hinside.others, ?rest⟩
  case goes => exact (hexec s).trans (by rw [State.onDev_eq, Dev.issue_acts hissues])
  case others => rw [hact.v_ne hr, Dev.v_congr (congrArg Engine.v (Dev.engine_begun ..))]
  case rest =>
    obtain ⟨r, x, c, heq⟩ := hinside.rest
    rw [heq]

/-! ### Stores (R185, R187) -/

/-- Bytes of memory are beside the engines. -/
@[simp] theorem Dev.engine_setBytes (a n : Nat) (bs : List Byte) (d : Dev) : (Dev.setBytes a bs d).engine n = d.engine n := by
  induction bs generalizing a d with
  | nil => rfl
  | cons b rest ih =>
    unfold Dev.setBytes
    rw [ih]
    unfold Dev.setByte
    split <;> rfl

/-- ST that issues acts. -/
theorem goes_st {s : State} {e : Fin 12} {f : EngFields} (h : s.dev.Issues e.val 0x19 { a := true, b := true, imm := allImm, mMax := 1 } f) :
    Goes (.st e f) s ((s.dev.begun f).storeOp e.val f) := by
  show execSt e f s = _
  rw [execSt, State.onDev_eq, Dev.issue_acts h]

/-- The second word of a pair: the register after the first, or a free value. -/
def Dev.storeSecond (e : Nat) (f : EngFields) (a : Nat) (d : Dev) : Dev :=
  (d.vNext e f.b.val).2.setBytes (a + 4) (wordBytes (d.vNext e f.b.val).1)

/-- What a store to the engine's own memory makes of it: one word, or two. -/
def Dev.storeOwn (e : Nat) (f : EngFields) (a : Nat) (d : Dev) : Dev :=
  let d1 := d.setBytes a (wordBytes (d.v e f.b.val))
  if f.m.val = 1 then d1.storeSecond e f a else d1

theorem Dev.storeOp_own {e : Nat} {f : EngFields} {d : Dev} (hal : misaligned e (d.memAddr e f) f.m.val = false)
    (hown : ownTcm e (d.memAddr e f) = true) : d.storeOp e f = (d.storeOwn e f (d.memAddr e f)).advance e := by
  simp [Dev.storeOp, Dev.storeOwn, Dev.storeSecond, hal, hown]

/-- Any other store joins the queue, or waits for a place in it. -/
theorem Dev.storeOp_queued {e : Nat} {f : EngFields} {d : Dev} (hal : misaligned e (d.memAddr e f) f.m.val = false)
    (hown : ownTcm e (d.memAddr e f) = false) :
    d.storeOp e f = d ∨ ∃ g : Engine → Engine, (∀ x, (g x).v = x.v) ∧ d.storeOp e f = (d.modEngine e g).advance e := by
  unfold Dev.storeOp
  dsimp only
  rw [if_neg (by simp [hal]), if_neg (by simp [hown])]
  split
  · exact .inl rfl
  · refine .inr ⟨fun x => { x with queue := x.queue ++ [_] }, fun _ => rfl, rfl⟩

/-- The second word is that of the next register, where there is one. -/
theorem Dev.vNext_eq {r : Nat} (h : r < 63) (e : Nat) (d : Dev) : d.vNext e r = (d.v e (r + 1), d) := if_pos (by omega)

/-- It may draw a free value, and changes nothing else. -/
theorem Dev.vNext_snd (e r : Nat) (d : Dev) : ∃ n, (d.vNext e r).2 = { d with freeCount := n } := by
  unfold Dev.vNext Dev.free
  split
  · exact ⟨_, rfl⟩
  · exact ⟨_, rfl⟩

section

variable {e : Nat} {f : EngFields} {a : Nat} {d : Dev}

theorem Dev.storeSecond_regs : (d.storeSecond e f a).reg = d.reg ∧ (d.storeSecond e f a).sh = d.sh ∧
    (d.storeSecond e f a).engine = d.engine := by
  obtain ⟨n, hn⟩ := d.vNext_snd e f.b.val
  unfold Dev.storeSecond
  refine ⟨funext fun k => ?_, funext fun k => ?_, funext fun k => ?_⟩
  · rw [Dev.reg_setBytes, hn]; rfl
  · rw [Dev.sh_setBytes, hn]; rfl
  · rw [Dev.engine_setBytes, hn]; rfl

theorem Dev.byteAt_storeSecond {x : Nat} (hx : x < a + 4 ∨ a + 8 ≤ x) : (d.storeSecond e f a).byteAt x = d.byteAt x := by
  obtain ⟨n, hn⟩ := d.vNext_snd e f.b.val
  unfold Dev.storeSecond
  rw [Dev.byteAt_setBytes_ne _ (by rw [length_wordBytes]; omega), hn]
  rfl

/-- A store to memory changes no register, no shadow and no engine. -/
theorem Dev.storeOwn_regs : (d.storeOwn e f a).reg = d.reg ∧ (d.storeOwn e f a).sh = d.sh ∧ (d.storeOwn e f a).engine = d.engine := by
  obtain ⟨hreg, hsh, hengine⟩ := Dev.storeSecond_regs (e := e) (f := f) (a := a) (d := d.setBytes a (wordBytes (d.v e f.b.val)))
  unfold Dev.storeOwn
  dsimp only
  split
  · rw [hreg, hsh, hengine]
    exact ⟨funext fun _ => Dev.reg_setBytes .., funext fun _ => Dev.sh_setBytes .., funext fun _ => Dev.engine_setBytes ..⟩
  · exact ⟨funext fun _ => Dev.reg_setBytes .., funext fun _ => Dev.sh_setBytes .., funext fun _ => Dev.engine_setBytes ..⟩

theorem Dev.byteAt_storeOwn {x : Nat} (hx : x < a ∨ a + 4 * (1 + f.m.val) ≤ x) : (d.storeOwn e f a).byteAt x = d.byteAt x := by
  have hfirst : (d.setBytes a (wordBytes (d.v e f.b.val))).byteAt x = d.byteAt x :=
    Dev.byteAt_setBytes_ne _ (by rw [length_wordBytes]; omega) d
  unfold Dev.storeOwn
  dsimp only
  split
  · rw [Dev.byteAt_storeSecond (by omega), hfirst]
  · exact hfirst

/-- The word at the address is register B. -/
theorem Dev.wordAt_storeOwn (hw : ∀ i < 4, (regionOf (a + i)).writable = true) : (d.storeOwn e f a).wordAt a = d.v e f.b.val := by
  have hfirst := Dev.wordAt_setBytes hw (d.v e f.b.val) d
  unfold Dev.storeOwn
  dsimp only
  split
  · have hbytes : ∀ i ∈ List.range 4, ((d.setBytes a (wordBytes (d.v e f.b.val))).storeSecond e f a).byteAt (a + i) =
        (d.setBytes a (wordBytes (d.v e f.b.val))).byteAt (a + i) :=
      fun i hi => Dev.byteAt_storeSecond (by rw [List.mem_range] at hi; omega)
    rwa [Dev.wordAt, Dev.bytesAt, List.map_congr_left hbytes]
  · exact hfirst

/-- The word after it is the register after B. -/
theorem Dev.wordAt_storeOwn_second (hm : f.m.val = 1) (hb : f.b.val < 63) (hw : ∀ i < 4, (regionOf (a + 4 + i)).writable = true) :
    (d.storeOwn e f a).wordAt (a + 4) = d.v e (f.b.val + 1) := by
  unfold Dev.storeOwn Dev.storeSecond
  dsimp only
  rw [if_pos hm, Dev.vNext_eq hb]
  dsimp only
  rw [Dev.wordAt_setBytes hw]
  exact Dev.v_congr (congrArg Engine.v (Dev.engine_setBytes ..)) _

end

/-- Words of memory that stands the same read the same. -/
theorem Dev.SameMemory.wordAt {a b : Dev} (h : a.SameMemory b) (x : Nat) : b.wordAt x = a.wordAt x := by
  rw [Dev.wordAt, Dev.bytesAt, funext fun i => h (x + i), Dev.wordAt, Dev.bytesAt]

theorem ownTcm_iff {e a : Nat} : ownTcm e a = true ↔ tcmBase e ≤ a ∧ a < tcmBase e + 0x20000 := by simp [ownTcm]

/-- The engine's own memory is memory. -/
theorem writable_of_ownTcm {e a i : Nat} (he : e < 12) (hown : ownTcm e a = true) (hi : a + i < tcmBase e + 0x20000) :
    (regionOf (a + i)).writable = true := by
  rw [ownTcm_iff] at hown
  unfold tcmBase at hown hi
  rw [Region.writable_iff]
  omega

/-- Settles O53: the own memory takes one word or two, and any other store is the engine's own state. -/
theorem storesWriteTheirBytesAlone : Obligations.StoresWriteTheirBytesAlone := by
  unfold Obligations.StoresWriteTheirBytesAlone
  rintro s e f _ a rfl rfl hissues hal
  have hgoes := goes_st hissues
  have hbegun := (Dev.InsideEngine.refl e.val s.dev).begun f
  have hv (n r : Nat) : (s.dev.begun f).v n r = s.dev.v n r := Dev.v_congr (congrArg Engine.v (Dev.engine_begun f n s.dev)) r
  rw [← Dev.memAddr_begun] at hal ⊢
  cases hown : ownTcm e.val ((s.dev.begun f).memAddr e.val f) with
  | false =>
    obtain hop | ⟨g, hg, hop⟩ := Dev.storeOp_queued hal hown
    · rw [hop] at hgoes
      exact ⟨_, hgoes, hbegun.outside, hv, fun _ => hbegun.sameMemory, fun h => absurd h (by decide)⟩
    · rw [hop] at hgoes
      have hinside := (hbegun.modEngine g).advance
      refine ⟨_, hgoes, hinside.outside, fun n r => ?_, fun _ => hinside.sameMemory, fun h => absurd h (by decide)⟩
      rw [Dev.v_congr (Dev.vregs_advance ..), Dev.v_congr (Dev.vregs_modEngine hg e.val n _), hv]
  | true =>
    have hroom := ownTcm_iff.mp hown
    have halign := mt misaligned_iff.mpr (ne_true_of_eq_false hal)
    have hbase : tcmBase e.val % 8 = 0 := by unfold tcmBase; omega
    rw [Dev.storeOp_own hal hown] at hgoes
    have hstored := Dev.InsideEngine.advance (.refl e.val ((s.dev.begun f).storeOwn e.val f ((s.dev.begun f).memAddr e.val f)))
    obtain ⟨hreg, hsh, hengine⟩ := Dev.storeOwn_regs (e := e.val) (f := f) (a := (s.dev.begun f).memAddr e.val f) (d := s.dev.begun f)
    refine ⟨_, hgoes, fun k hk => ?outside, fun n r => ?registers, fun h => absurd h (by decide), fun _ => ⟨?first, fun hm hb => ?second, fun x hx => ?others⟩⟩
    case outside =>
      obtain ⟨hk1, hk2⟩ := hstored.outside k hk
      rw [hk1, hk2, hreg, hsh]
      exact hbegun.outside k hk
    case registers => rw [Dev.v_congr (Dev.vregs_advance ..), Dev.v_congr (congrArg Engine.v (congrFun hengine n)), hv]
    case first => rw [hstored.sameMemory.wordAt, Dev.wordAt_storeOwn fun i hi => writable_of_ownTcm e.isLt hown (by omega), hv]
    case second =>
      rw [hstored.sameMemory.wordAt, Dev.wordAt_storeOwn_second hm hb, hv]
      intro i hi
      rw [Nat.add_assoc]
      exact writable_of_ownTcm e.isLt hown (by omega)
    case others => rw [hstored.sameMemory, Dev.byteAt_storeOwn hx, hbegun.sameMemory]

end Sys2Proof.Machine

/-! SUPPORT. Frames of keys, of the check-value units and of the message buses: what changes stay in a page and in the record of access
errors (R44, R58, R79). -/

namespace Sys2Proof.Machine

/-! ### Properties that changes in a page keep -/

/-- `P` stands through any change of the registers of page `p` and of page 0, and of the cycle's record. -/
structure PageClosed (p : Nat) (P : Dev → Prop) : Prop where
  reg : ∀ {k : Nat} {v : Word} {d : Dev}, k / 0x1000 = p ∨ k / 0x1000 = 0 → P d → P (d.setReg k v)
  cyc : ∀ {y : FabCycle} {d : Dev}, P d → P (Dev.putCyc y d)

namespace PageClosed

variable {p k hi lo i : Nat} {v : Word} {P : Dev → Prop} {d : Dev} {m : Master}

theorem setReg (h : PageClosed p P) (hk : k / 0x1000 = p) (hd : P d) : P (d.setReg k v) := h.reg (.inl hk) hd

theorem setFld (h : PageClosed p P) {x : Nat} (hk : k / 0x1000 = p) (hd : P d) : P (d.setFld k hi lo x) := h.setReg hk hd

theorem setBit (h : PageClosed p P) {x : Bool} (hk : k / 0x1000 = p) (hd : P d) : P (d.setBit k i x) := h.setReg hk hd

theorem bumpSat (h : PageClosed p P) (hk : k / 0x1000 = p) (hd : P d) : P (d.bumpSat k hi lo) := h.setReg hk hd

theorem addSat (h : PageClosed p P) {n : Nat} (hk : k / 0x1000 = p) (hd : P d) : P (d.addSat k hi lo n) := h.setReg hk hd

theorem setKstate (h : PageClosed p P) {x : Nat} (hd : P d) : P (d.setKstate p x) := h.setReg (by unfold Reg.key; omega) hd

theorem raiseIn (h : PageClosed p P) {q : Nat} (hq : q = p ∨ q = 0) (hd : P d) : P (d.raise q i) :=
  h.cyc (h.reg (by unfold Reg.evtRaw; omega) hd)

theorem raise (h : PageClosed p P) (hd : P d) : P (d.raise p i) := h.raiseIn (.inl rfl) hd

theorem when {c : Bool} {f : Dev → Dev} (hf : ∀ d, P d → P (f d)) (hd : P d) : P (d.when c f) := by
  cases c with
  | true => exact hf d hd
  | false => exact hd

theorem branch {c : Prop} [Decidable c] {x y : Dev} (hx : P x) (hy : P y) : P (if c then x else y) := by
  split
  · exact hx
  · exact hy

theorem logAccess (h : PageClosed p P) {a : Nat} {w : Bool} (hd : P d) : P (d.logAccess m a w) := by
  unfold Dev.logAccess
  dsimp only
  refine h.reg (.inr rfl) ?_
  split
  · exact hd
  · exact h.reg (.inr rfl) (h.reg (.inr rfl) hd)

theorem refuse (h : PageClosed p P) {a : Nat} {w : Bool} (hd : P d) : P (d.refuse m p a w) := h.logAccess (h.raise hd)

theorem refuseSys (h : PageClosed p P) {a : Nat} {w : Bool} (hd : P d) : P (d.refuseSys m a w) := h.logAccess (h.raiseIn (.inr rfl) hd)

theorem discard (h : PageClosed p P) (hk : k / 0x1000 = p) (hd : P d) : P (d.discard m k) := by
  subst hk
  exact h.refuse hd

theorem accessWrite (h : PageClosed p P) {op : Dev → Dev} (hk : k / 0x1000 = p) (hop : ∀ d, P d → P (op d)) (hd : P d) :
    P (d.accessWrite m k v op) := by
  subst hk
  unfold Dev.accessWrite
  dsimp only
  repeat' split
  · exact h.refuseSys hd
  · exact h.refuse hd
  · exact hop _ (h.setKstate hd)
  · exact h.refuse hd
  · exact hop _ hd

theorem bumpGen (h : PageClosed p P) (hd : P d) : P (d.bumpGen p) := h.setReg (by unfold Reg.gen; omega) hd

end PageClosed

/-! ### Keys (R59 to R61) -/

section

variable {p : Nat} {P : Dev → Prop} {d : Dev} {m : Master} {v : Word}

theorem PageClosed.keyOp (h : PageClosed p P) (hd : P d) : P (d.keyOp m p v) := by
  unfold Dev.keyOp
  repeat' split
  · exact h.setKstate hd
  · exact h.setKstate hd
  · exact h.discard (by unfold Reg.key; omega) (h.setKstate hd)

theorem PageClosed.keyWrite (h : PageClosed p P) (hp : (pageKind? p).isSome = true) (hd : P d) :
    P (d.busWrite m (keyAddr (Reg.key p)) 4 v) := by
  have hregion : regionOf (keyAddr (Reg.key p)) = .page p 0x1C := by
    rw [show Reg.key p = p * 0x1000 + 0x1C by unfold Reg.key; omega, regionOf_keyAddr hp (by decide)]
  obtain ⟨y, hy⟩ := Dev.enterCycle_eq m false d
  have hcyc : P (d.enterCycle m false) := hy ▸ h.cyc hd
  unfold Dev.busWrite
  cases hheld : (d.enterCycle m false).pageHeld p with
  | true => rw [Dev.landWrite_held hregion hheld]; exact h.refuseSys hcyc
  | false =>
    cases hmay : (d.enterCycle m false).mayWrite m p 0x1C with
    | true => rw [Dev.landWrite_page hregion hheld hmay, Dev.pageWrite_key]; exact h.keyOp hcyc
    | false => rw [Dev.landWrite_refused hregion hheld (.inl hmay)]; exact h.refuse hcyc

end

/-! ### Check-value units (R588 to R600) -/

/-- `P` stands through any change of the registers of the unit's page, of the units themselves, and of the DRAM's record. -/
structure CrcClosed (n : Nat) (P : Dev → Prop) : Prop extends PageClosed (0x88 + n) P where
  modCrc : ∀ {f : CrcRun → CrcRun} {d : Dev}, P d → P (d.modCrc n f)
  touchDram : ∀ {d : Dev}, P d → P d.touchDram

namespace CrcClosed

variable {P : Dev → Prop} {d : Dev} {m : Master} {v : Word}

section

variable {n : Nat}

theorem crcFeed (h : CrcClosed n P) {bs : List Byte} (hd : P d) : P (d.crcFeed n bs) :=
  h.setReg (by unfold Reg.CRC_BYTES; omega) (h.setReg (by unfold Reg.CRC_RUN; omega) hd)

theorem setStat (h : CrcClosed n P) {i : Nat} {x : Bool} (hd : P d) : P (d.setBit (Reg.CRC_STAT n) i x) :=
  h.setBit (by unfold Reg.CRC_STAT; omega) hd

theorem crcCompare (h : CrcClosed n P) (hd : P d) : P (d.crcCompare n) :=
  PageClosed.when (fun _ => h.raise) (h.setStat (h.setStat hd))

theorem crcComplete (h : CrcClosed n P) (hd : P d) : P (d.crcComplete n) :=
  PageClosed.when (fun _ => h.crcCompare) (h.raise (h.setStat hd))

theorem crcInitNow (h : CrcClosed n P) (hd : P d) : P (d.crcInitNow n) :=
  h.setStat (h.setStat (h.setReg (by unfold Reg.CRC_BYTES; omega) (h.setReg (by unfold Reg.CRC_RUN; omega) hd)))

theorem crcGuard (h : CrcClosed n P) {k : Nat} {op : Dev → Dev} (hk : k / 0x1000 = 0x88 + n) (hop : ∀ d, P d → P (op d)) (hd : P d) :
    P (d.crcGuard m n k op) := by
  unfold Dev.crcGuard
  split
  · exact h.discard hk hd
  · exact hop d hd

theorem crcDataOp (h : CrcClosed n P) {k : Nat} {bs : List Byte} (hk : k / 0x1000 = 0x88 + n) (hd : P d) : P (d.crcDataOp m n k bs) := by
  unfold Dev.crcDataOp
  split
  · exact h.modCrc (h.crcFeed hd)
  · exact h.discard hk hd

theorem crcRunOp (h : CrcClosed n P) (hd : P d) : P (d.crcRunOp m n v) := by
  have hk : Reg.CRC_RUN n / 0x1000 = 0x88 + n := by unfold Reg.CRC_RUN; omega
  unfold Dev.crcRunOp Dev.crcSetOp
  split
  · exact h.discard hk hd
  · exact h.setReg hk hd

theorem crcClaimOp (h : CrcClosed n P) (hd : P d) : P (d.crcClaimOp m n v) := by
  have hk : Reg.CRC_CLAIM n / 0x1000 = 0x88 + n := by unfold Reg.CRC_CLAIM; omega
  unfold Dev.crcClaimOp
  dsimp only
  repeat' split
  · exact hd
  · exact h.setStat (h.setReg hk hd)
  · exact h.setStat (h.setBit hk hd)
  · exact hd

end

section

variable {n : Fin 4}

theorem touchAt (h : CrcClosed n.val P) {a : Nat} (hd : P d) : P (d.touchAt a) := by
  unfold Dev.touchAt
  split
  · exact h.touchDram hd
  · exact hd

theorem crcAbortNow (h : CrcClosed n.val P) (hd : P d) : P (d.crcAbortNow n) := by
  refine h.raise (h.setStat ?_)
  unfold Dev.crcNow
  dsimp only
  split
  · exact h.crcFeed (h.touchAt hd)
  · exact h.touchAt hd

theorem crcCmdOp (h : CrcClosed n.val P) {code : Nat} (hd : P d) : P (d.crcCmdOp n code) := by
  have hrefuse : P (d.crcRefuse n.val) := h.raise hd
  unfold Dev.crcCmdOp
  dsimp only
  repeat' split
  all_goals try exact hrefuse
  · exact h.crcInitNow hd
  · exact h.crcComplete hd
  · exact h.modCrc (h.setStat hd)
  · exact h.crcAbortNow hd
  · exact h.crcCompare hd

theorem crcCommand (h : CrcClosed n.val P) {code : Nat} (hd : P d) : P (d.crcCommand m n code) := by
  have hk : Reg.CRC_CMD n.val / 0x1000 = 0x88 + n.val := by unfold Reg.CRC_CMD; omega
  exact h.accessWrite hk (fun _ => h.crcGuard hk fun _ => h.crcCmdOp) hd

/-- A run all of whose reads are permitted. -/
theorem crcRunEnd (h : CrcClosed n.val P) (hall : d.crcReadable n = d.fld (Reg.CRC_LEN n.val) 23 0) (hd : P d) : P (d.crcRunEnd n) := by
  unfold Dev.crcRunEnd
  dsimp only
  rw [if_pos hall]
  exact h.crcComplete (h.crcFeed (h.touchAt hd))

end

end CrcClosed

/-! ### Message buses (R557 to R587) -/

/-- `P` stands through any change of the registers of the controller's page and of its own state. -/
structure CanClosed (n : Nat) (P : Dev → Prop) : Prop extends PageClosed (0x80 + n) P where
  modCtl : ∀ {f : CanCtl → CanCtl} {d : Dev}, P d → P (d.modCtl n f)

namespace CanClosed

variable {n b w : Nat} {P : Dev → Prop} {d : Dev} {m : Master} {v : Word}

/-! #### Buffers and their registers -/

theorem setStat (h : CanClosed n P) {i : Nat} {x : Bool} (hd : P d) : P (d.setBit (Reg.MB_STAT n) i x) :=
  h.setBit (by unfold Reg.MB_STAT; omega) hd

theorem setCanState (h : CanClosed n P) {x : Nat} (hd : P d) : P (d.setCanState n x) := h.setFld (by unfold Reg.MB_STAT; omega) hd

theorem bufStat (h : CanClosed n P) (hb : b < 64) (hd : P d) : P (d.setReg (Reg.MB_BUF_STAT n b) v) :=
  h.setReg (by unfold Reg.MB_BUF_STAT; omega) hd

theorem hpbStat (h : CanClosed n P) (hd : P d) : P (d.setReg (Reg.MB_HPB_STAT n) v) := h.setReg (by unfold Reg.MB_HPB_STAT; omega) hd

theorem page_pairKey {lo hi p : Nat} (hlo : lo / 0x1000 = p) (hhi : hi / 0x1000 = p) (b : Nat) : pairKey lo hi b / 0x1000 = p := by
  unfold pairKey
  split
  · exact hlo
  · exact hhi

theorem page_txreq (n b : Nat) : pairKey (Reg.MB_TXREQ0 n) (Reg.MB_TXREQ1 n) b / 0x1000 = 0x80 + n :=
  page_pairKey (by unfold Reg.MB_TXREQ0; omega) (by unfold Reg.MB_TXREQ1; omega) b

theorem page_txabt (n b : Nat) : pairKey (Reg.MB_TXABT0 n) (Reg.MB_TXABT1 n) b / 0x1000 = 0x80 + n :=
  page_pairKey (by unfold Reg.MB_TXABT0; omega) (by unfold Reg.MB_TXABT1; omega) b

theorem setTxPending (h : CanClosed n P) {x : Bool} (hd : P d) : P (d.setTxPending n b x) := h.setBit (page_txreq n b) hd

theorem setTxAborting (h : CanClosed n P) {x : Bool} (hd : P d) : P (d.setTxAborting n b x) := h.setBit (page_txabt n b) hd

theorem setRxFull (h : CanClosed n P) {x : Bool} (hd : P d) : P (d.setRxFull n b x) := by
  unfold Dev.setRxFull
  split
  · exact h.setBit (page_pairKey (by unfold Reg.MB_RXFULL0; omega) (by unfold Reg.MB_RXFULL1; omega) b) hd
  · exact h.hpbStat hd

theorem setShadow (h : CanClosed n P) {x : Option CanBuf} (hd : P d) : P (d.setShadow n b x) := by
  unfold Dev.setShadow
  dsimp only
  split
  · next hb => exact h.bufStat hb (h.modCtl hd)
  · exact h.hpbStat (h.modCtl hd)

theorem bufRoleChange (h : CanClosed n P) (hb : b < 64) (hd : P d) : P (d.bufRoleChange n b) := h.bufStat hb (h.bumpGen hd)

theorem page_bufCfg (hb : b < 64) : Reg.MB_BUF_CFG n b / 0x1000 = 0x80 + n := by unfold Reg.MB_BUF_CFG; omega

theorem setBufCfg (h : CanClosed n P) (hb : b < 64) (hd : P d) : P (d.setBufCfg n b v) :=
  PageClosed.when (fun _ => h.bufRoleChange hb) (h.setReg (page_bufCfg hb) hd)

/-! #### Reception -/

theorem stopReceiving (h : CanClosed n P) (hd : P d) : P (d.stopReceiving n) := h.setStat (h.modCtl hd)

theorem rxLost (h : CanClosed n P) (hd : P d) : P (d.rxLost n b) := by
  have hlost : P ((d.raise (0x80 + n) 8).bumpSat (Reg.MB_RX_LOST_CNT n) 15 0) :=
    h.bumpSat (by unfold Reg.MB_RX_LOST_CNT; omega) (h.raise hd)
  unfold Dev.rxLost Dev.when
  dsimp only
  split
  · next hb => exact h.bufStat (of_decide_eq_true hb) hlost
  · exact hlost

theorem storeFrame (h : CanClosed n P) {x : CanBuf} (hd : P d) : P (d.storeFrame n b x) := by
  have hnote : P (d.noteRx n b x) := h.modCtl hd
  unfold Dev.storeFrame
  dsimp only
  repeat' split
  · exact h.raise (h.setRxFull (h.modCtl hnote))
  · exact h.raise (h.setShadow hnote)
  · exact h.raise (h.rxLost (h.setShadow hnote))
  · exact h.rxLost hnote

theorem acceptFrame (h : CanClosed n P) {f : CanFrame} {t : Option CanTarget} (hd : P d) : P (d.acceptFrame n f t) := by
  unfold Dev.acceptFrame
  repeat' split
  · exact h.bumpSat (by unfold Reg.MB_ORPHAN_CNT; omega) (h.raise hd)
  · exact h.storeFrame hd
  · exact h.bumpSat (by unfold Reg.MB_NOMATCH_CNT; omega) hd

theorem releaseNow (h : CanClosed n P) (hd : P d) : P (d.releaseNow n b) := by
  unfold Dev.releaseNow
  repeat' split
  · exact hd
  · exact h.raise (h.setShadow (h.modCtl hd))
  · exact h.setRxFull hd

theorem undoRx (h : CanClosed n P) {r : RxNote} (hd : P d) : P (d.undoRx n r) := by
  have hundone : P (((((d.setBuf n r.buf r.old).setShadow n r.buf r.shadow).setRxFull n r.buf r.full).setBit
      (Reg.evtRaw (0x80 + n)) 8 (bitAt 8 r.events)).setReg (Reg.MB_RX_LOST_CNT n) r.lost) :=
    h.setReg (by unfold Reg.MB_RX_LOST_CNT; omega) (h.setBit (by unfold Reg.evtRaw; omega) (h.setRxFull (h.setShadow (h.modCtl hd))))
  unfold Dev.undoRx Dev.when
  dsimp only
  split
  · next hb => exact h.bufStat (of_decide_eq_true hb) hundone
  · exact hundone

theorem releaseBuf (h : CanClosed n P) (hd : P d) : P (d.releaseBuf n b) := by
  unfold Dev.releaseBuf
  repeat' split
  · exact h.storeFrame (h.releaseNow (h.undoRx hd))
  · exact h.releaseNow hd
  · exact h.releaseNow hd

/-- The buffers that a word of a pair names exist. -/
theorem lt_of_mem_wordBufs (hw : w < 2) (hb : b ∈ wordBufs w v) : b < 64 := by
  simp only [wordBufs, setBits, List.mem_map, List.mem_filter, List.mem_range] at hb
  obtain ⟨i, hi, rfl⟩ := hb
  omega

theorem bufBits (h : CanClosed n P) {k : Nat} {ok : Nat → Bool} {act : Nat → Dev → Dev} (hk : k / 0x1000 = 0x80 + n) (hw : w < 2)
    (hact : ∀ b < 64, ∀ d, P d → P (act b d)) (hd : P d) : P (d.bufBits m n k w v ok act) :=
  PageClosed.when (fun _ => h.discard hk)
    (each_induction hd fun b hb d hd => hact b (lt_of_mem_wordBufs hw (List.mem_filter.mp hb).1) d hd)

theorem page_releaseKey (n w : Nat) : releaseKey n w / 0x1000 = 0x80 + n := by
  unfold releaseKey Reg.MB_RXFULL0 Reg.MB_RXFULL1 Reg.MB_HPB_STAT
  repeat' split
  all_goals omega

theorem rxReleaseOp (h : CanClosed n P) (hd : P d) : P (d.rxReleaseOp m n w v) := by
  unfold Dev.rxReleaseOp
  split
  · next hw => exact h.bufBits (page_releaseKey n w) hw (fun _ _ _ => h.releaseBuf) hd
  · exact PageClosed.when (fun _ => h.releaseBuf) hd

/-! #### Transmission -/

theorem stopSending (h : CanClosed n P) (hd : P d) : P (d.stopSending n) := h.setStat (h.modCtl hd)

theorem endRequest (h : CanClosed n P) {r : Nat} (hb : b < 64) (hd : P d) : P (d.endRequest n b r) :=
  h.raise (h.setBit (page_pairKey (by unfold Reg.MB_TXFIN0; omega) (by unfold Reg.MB_TXFIN1; omega) b)
    (h.setTxAborting (h.setTxPending (h.bufStat hb hd))))

theorem txReqOp (h : CanClosed n P) (hw : w < 2) (hd : P d) : P (d.txReqOp m n w v) :=
  h.bufBits (page_txreq n _) hw (fun _ _ _ => h.setTxPending) hd

theorem abortTx (h : CanClosed n P) (hb : b < 64) (hd : P d) : P (d.abortTx n b) := by
  unfold Dev.abortTx
  repeat' split
  · exact hd
  · exact h.setTxAborting hd
  · exact h.endRequest hb hd

theorem txAbtOp (h : CanClosed n P) (hw : w < 2) (hd : P d) : P (d.txAbtOp m n w v) :=
  h.bufBits (page_txabt n _) hw (fun _ hb _ => h.abortTx hb) hd

/-! #### Modes, errors and their states -/

theorem page_ctrl (n : Nat) : Reg.MB_CTRL n / 0x1000 = 0x80 + n := by unfold Reg.MB_CTRL; omega

theorem enterInit (h : CanClosed n P) (hd : P d) : P (d.enterInit n) :=
  h.setCanState (h.setFld (page_ctrl n) (h.modCtl (h.stopReceiving (h.stopSending hd))))

theorem frameOver (h : CanClosed n P) {bits : Nat} (hd : P d) : P (d.frameOver n bits) :=
  PageClosed.when (fun _ => h.enterInit) (h.modCtl (h.stopReceiving hd))


theorem enterBusOff (h : CanClosed n P) (hd : P d) : P (d.enterBusOff n) := by
  have hgone (q : Nat → Bool) (d : Dev) (hd : P d) : P (each ((List.range 64).filter q) (fun b d => d.endRequest n b 7) d) :=
    each_induction hd fun b hb _ => h.endRequest (List.mem_range.mp (List.mem_filter.mp hb).1)
  unfold Dev.enterBusOff
  dsimp only
  split
  · exact PageClosed.when (fun _ => h.stopSending) (hgone _ _ (h.modCtl (h.stopReceiving (h.setCanState (h.raise hd)))))
  · exact hgone _ _ (h.modCtl (h.stopReceiving (h.setCanState (h.raise hd))))

theorem canJudge (h : CanClosed n P) (hd : P d) : P (d.canJudge n) := by
  unfold Dev.canJudge
  dsimp only
  repeat' split
  · exact hd
  · exact h.enterBusOff hd
  · exact PageClosed.when (fun _ => h.raise) (h.setCanState hd)

theorem page_ecnt (n : Nat) : Reg.MB_ECNT n / 0x1000 = 0x80 + n := by unfold Reg.MB_ECNT; omega

theorem countError (h : CanClosed n P) {c : CanErrorCase} (hd : P d) : P (d.countError n c) := by
  unfold Dev.countError
  dsimp only
  split
  · exact h.canJudge (h.addSat (page_ecnt n) hd)
  · exact h.canJudge (h.addSat (page_ecnt n) hd)

theorem logError (h : CanClosed n P) {e : CanError} {x : Bool} (hd : P d) : P (d.logError n e x) := by
  have hk : Reg.MB_ERRLOG n / 0x1000 = 0x80 + n := by unfold Reg.MB_ERRLOG; omega
  exact h.bumpSat hk (h.setBit hk (h.setFld hk (h.setBit hk (h.raise hd))))

theorem tecGood (h : CanClosed n P) (hd : P d) : P (d.tecGood n) := h.canJudge (h.setFld (page_ecnt n) hd)

theorem applyHeld (h : CanClosed n P) (hb : b < 64) (hd : P d) : P (d.applyHeld n b) := by
  unfold Dev.applyHeld
  split
  · exact h.setBufCfg hb (h.bufStat hb (h.modCtl hd))
  · exact hd

theorem attemptOver (h : CanClosed n P) {o : TxOutcome} (hd : P d) : P (d.attemptOver n o) := by
  unfold Dev.attemptOver
  split
  · exact h.setStat hd
  · exact h.frameOver hd

theorem canCmdOp (h : CanClosed n P) (hd : P d) : P (d.canCmdOp n v) := by
  unfold Dev.canCmdOp
  split
  · exact h.modCtl (h.setCanState hd)
  · exact h.raise hd

theorem canSetMode (h : CanClosed n P) {x : Nat} (hd : P d) : P (d.canSetMode m n x) := by
  have hleave : P ((((d.setFld (Reg.MB_CTRL n) 18 16 x).setBit (Reg.MB_STAT n) 7 false))) := h.setStat (h.setFld (page_ctrl n) hd)
  unfold Dev.canSetMode
  refine PageClosed.branch (PageClosed.branch ?same (PageClosed.branch ?bad ?leave))
    (PageClosed.branch hd (PageClosed.branch ?barred (PageClosed.branch ?later ?now)))
  case same => exact h.setFld (page_ctrl n) hd
  case bad => exact h.raise (h.setStat hd)
  case leave => exact h.modCtl (h.setCanState hleave)
  case barred => exact h.discard (page_ctrl n) hd
  case later => exact h.modCtl hd
  case now => exact h.enterInit hd

theorem canCtrlOp (h : CanClosed n P) (hd : P d) : P (d.canCtrlOp m n v) := by
  have hser : P (d.setBit (Reg.MB_CTRL n) 20 (bitAt 20 v)) := h.setBit (page_ctrl n) hd
  unfold Dev.canCtrlOp
  dsimp only
  refine h.canSetMode (PageClosed.branch ?fden (PageClosed.branch (h.modCtl (h.setBit (page_ctrl n) ?fden))
    (PageClosed.branch (h.setBit (page_ctrl n) ?fden) (h.discard (page_ctrl n) ?fden))))
  exact PageClosed.branch hser (PageClosed.branch (h.setBit (page_ctrl n) hser) (h.discard (page_ctrl n) hser))

theorem bufCfgOp (h : CanClosed n P) (hb : b < 64) (hd : P d) : P (d.bufCfgOp m n b v) := by
  unfold Dev.bufCfgOp
  repeat' split
  · exact h.discard (page_bufCfg hb) hd
  · exact h.bufStat hb (h.modCtl hd)
  · exact h.endRequest hb (h.setBufCfg hb hd)
  · exact h.setBufCfg hb hd

theorem page_filterKey {f : Nat} (hf : f < 32) (x : Bool) : filterKey n f x / 0x1000 = 0x80 + n := by
  unfold filterKey Reg.MB_FLT_MASK Reg.MB_FLT_ID
  split
  · omega
  · omega

theorem filterOp (h : CanClosed n P) {f : Nat} {x : Bool} (hf : f < 32) (hd : P d) : P (d.filterOp m n f x v) := by
  have hbuf (d : Dev) : d.fld (Reg.MB_FLT_MASK n f) 31 26 < 64 := fld_lt ..
  unfold Dev.filterOp
  dsimp only
  split
  · exact h.discard (page_filterKey hf x) hd
  · exact PageClosed.when (fun _ => h.bufRoleChange (hbuf _)) (PageClosed.when (fun _ => h.bufRoleChange (hbuf _)) (h.setReg (page_filterKey hf x) hd))

theorem page_winKey (hw : w < 2) : winKey n w 0 / 0x1000 = 0x80 + n := by
  unfold winKey Reg.MB_WIN0_SEL
  omega

theorem winSelOp (h : CanClosed n P) (hw : w < 2) (hd : P d) : P (d.winSelOp m n w v) := by
  unfold Dev.winSelOp
  split
  · exact h.setReg (page_winKey hw) hd
  · exact h.discard (page_winKey hw) hd

/-! #### Commands -/

theorem modeCommand (h : CanClosed n P) {x : Nat} (hd : P d) : P (d.canModeCmd m n x) :=
  h.accessWrite (page_ctrl n) (fun _ => h.canCtrlOp) hd

/-- The start and the arbitration field of another node's frame. -/
theorem frameReceive {n : Fin 4} (h : CanClosed n.val P) {p : CanRxPhase} {f : CanFrame} {s : State} (hp : p ≠ .valid) (hd : P s.dev) :
    ∃ t, Goes (.canFrameReceive n p f) s t ∧ P t := by
  refine ⟨_, rfl, PageClosed.branch hd ?_⟩
  cases p with
  | sof => exact PageClosed.branch hd (h.setStat (h.modCtl hd))
  | arbitration => exact PageClosed.branch hd (h.modCtl hd)
  | valid => exact absurd rfl hp

theorem transmissionStart {n : Fin 4} (h : CanClosed n.val P) {s : State} (hd : P s.dev) :
    ∃ t, Goes (.transmissionStart n) s t ∧ P t := by
  refine ⟨_, rfl, PageClosed.branch hd ?_⟩
  repeat' split
  · exact h.setStat (h.modCtl hd)
  · exact hd
  · exact hd

theorem canTxEnd {n : Fin 4} (h : CanClosed n.val P) {o : TxOutcome} {x : BitVec 7} {s : State} (hd : P s.dev) :
    ∃ t, Goes (.canTxEnd n o x) s t ∧ P t := by
  refine ⟨_, rfl, ?_⟩
  dsimp only
  split
  · exact hd
  next b _ =>
  refine h.attemptOver (h.applyHeld b.isLt (PageClosed.branch ?sent (PageClosed.branch (h.endRequest b.isLt ?stopped)
    (PageClosed.branch (h.endRequest b.isLt ?stopped) (PageClosed.branch (h.endRequest b.isLt ?stopped) (h.bufStat b.isLt ?stopped))))))
  case stopped =>
    exact PageClosed.when (fun _ => h.setFld (by unfold Reg.MB_TDC; omega)) (h.stopSending hd)
  case sent =>
    exact PageClosed.when (fun _ => h.acceptFrame) (h.endRequest b.isLt (h.modCtl (h.tecGood
      (PageClosed.when (fun _ => h.setFld (by unfold Reg.MB_TDC; omega)) (h.stopSending hd)))))

theorem canBusError {n : Fin 4} (h : CanClosed n.val P) {e : CanError} {c : CanErrorCase} {x : Bool} {s : State} (hd : P s.dev) :
    ∃ t, Goes (.canBusError n e c x) s t ∧ P t :=
  ⟨_, rfl, PageClosed.branch hd (PageClosed.when (fun _ => h.frameOver)
    (PageClosed.when (fun _ => h.countError) (PageClosed.when (fun _ => h.logError) hd)))⟩

theorem recovered {n : Fin 4} (h : CanClosed n.val P) {s : State} (hd : P s.dev) : ∃ t, Goes (.recovered n) s t ∧ P t :=
  ⟨_, rfl, PageClosed.branch (h.raise (h.setCanState (h.setReg (page_ecnt n.val) hd))) hd⟩

end CanClosed

/-! ### The obligation -/

/-- From `a` to `b` only registers of page `p` and of page 0 change, the check-value units, and the records of the cycle and of DRAM. -/
structure Dev.InsideUnit (p : Nat) (a b : Dev) : Prop where
  outside : a.SameOutside [p, 0] b
  rest : ∃ r x c t, b = { a with regs := r, crcs := x, cyc := c, dramAt := t }

/-- From `a` to `b` only registers of the page of bus `n` and of page 0 change, the bus's own state, and the cycle's record. -/
structure Dev.InsideBus (n : Nat) (a b : Dev) : Prop where
  outside : a.SameOutside [0x80 + n, 0] b
  others : ∀ q, q ≠ n → b.ctl q = a.ctl q
  rest : ∃ r x c, b = { a with regs := r, can := x, cyc := c }

/-- A register of one of the pages is outside of no other. -/
theorem Dev.SameOutside.setReg {p k : Nat} {v : Word} {a d : Dev} (h : a.SameOutside [p, 0] d) (hk : k / 0x1000 = p ∨ k / 0x1000 = 0) :
    a.SameOutside [p, 0] (d.setReg k v) := by
  intro j hj
  have hne : j ≠ k := by
    rintro rfl
    exact hj (by simpa using hk)
  rw [Dev.reg_setReg_ne hne, Dev.sh_setReg]
  exact h j hj

theorem Dev.InsideUnit.closed (p : Nat) (a : Dev) : PageClosed p (a.InsideUnit p) where
  reg hk hd := by
    obtain ⟨r, x, c, t, rfl⟩ := hd.rest
    exact ⟨Dev.SameOutside.setReg hd.outside hk, ⟨_, _, _, _, rfl⟩⟩
  cyc hd := by
    obtain ⟨r, x, c, t, rfl⟩ := hd.rest
    exact ⟨hd.outside, ⟨_, _, _, _, rfl⟩⟩

theorem Dev.InsideUnit.crcClosed (n : Nat) (a : Dev) : CrcClosed n (a.InsideUnit (0x88 + n)) where
  toPageClosed := Dev.InsideUnit.closed _ a
  modCrc hd := by
    obtain ⟨r, x, c, t, rfl⟩ := hd.rest
    exact ⟨hd.outside, ⟨_, _, _, _, rfl⟩⟩
  touchDram hd := by
    obtain ⟨r, x, c, t, rfl⟩ := hd.rest
    exact ⟨hd.outside, ⟨_, _, _, _, rfl⟩⟩

theorem Dev.InsideBus.canClosed (n : Nat) (a : Dev) : CanClosed n (a.InsideBus n) where
  reg hk hd := by
    obtain ⟨r, x, c, rfl⟩ := hd.rest
    exact ⟨Dev.SameOutside.setReg hd.outside hk, hd.others, ⟨_, _, _, rfl⟩⟩
  cyc hd := by
    obtain ⟨r, x, c, rfl⟩ := hd.rest
    exact ⟨hd.outside, hd.others, ⟨_, _, _, rfl⟩⟩
  modCtl hd := by
    refine ⟨hd.outside, fun q hq => ?_, ?_⟩
    · rw [Dev.ctl, Dev.modCtl, vget_vmod, if_neg (fun e => hq e.1.symm)]
      exact hd.others q hq
    · obtain ⟨r, x, c, rfl⟩ := hd.rest
      exact ⟨_, _, _, rfl⟩

/-- The commands of a page and of a check-value unit. -/
theorem unitCommand_inside {s : State} {m : Master} {p page : Nat} {n : Fin 4} {v : Word} {c : Instr} (hp : (pageKind? p).isSome = true)
    (hc : (c, page) ∈ [(Instr.keyWrite m p v, p), (.keyWindowExpiry p, p), (.unlockTimeout p, p), (.crcInit m n, 0x88 + n.val),
      (.crcStart m n, 0x88 + n.val), (.crcAbort m n, 0x88 + n.val), (.check m n, 0x88 + n.val), (.din m n v, 0x88 + n.val), (.dinB m n v, 0x88 + n.val), (.crcRunWrite m n v, 0x88 + n.val), (.claim m n v, 0x88 + n.val)] ∨
      (c = .crcDmaDone n ∧ page = 0x88 + n.val ∧ s.dev.crcReadable n = s.dev.fld (Reg.CRC_LEN n.val) 23 0)) :
    ∃ t, Goes c s t ∧ s.dev.InsideUnit page t := by
  have hkeys := Dev.InsideUnit.closed p s.dev
  have hcrc := Dev.InsideUnit.crcClosed n.val s.dev
  have hrefl (q : Nat) : s.dev.InsideUnit q s.dev := ⟨fun _ _ => ⟨rfl, rfl⟩, ⟨_, _, _, _, rfl⟩⟩
  have hguarded (k : Nat) (op : Dev → Dev) (hk : k / 0x1000 = 0x88 + n.val)
      (hop : ∀ d, s.dev.InsideUnit (0x88 + n.val) d → s.dev.InsideUnit (0x88 + n.val) (op d)) :
      s.dev.InsideUnit (0x88 + n.val) (s.dev.accessWrite m k v (Dev.crcGuard m n.val k op)) :=
    hcrc.accessWrite hk (fun _ => hcrc.crcGuard hk hop) (hrefl _)
  simp only [List.mem_cons, Prod.mk.injEq, List.not_mem_nil, or_false] at hc
  rcases hc with (⟨rfl, rfl⟩ | ⟨rfl, rfl⟩ | ⟨rfl, rfl⟩ | ⟨rfl, rfl⟩ | ⟨rfl, rfl⟩ | ⟨rfl, rfl⟩ | ⟨rfl, rfl⟩ | ⟨rfl, rfl⟩ | ⟨rfl, rfl⟩ |
    ⟨rfl, rfl⟩ | ⟨rfl, rfl⟩) | ⟨rfl, rfl, hall⟩
  · exact ⟨_, rfl, hkeys.keyWrite hp (hrefl _)⟩
  · exact ⟨_, rfl, PageClosed.when (fun _ => hkeys.setKstate) (hrefl _)⟩
  · exact ⟨_, rfl, PageClosed.when (fun _ => hkeys.setKstate) (hrefl _)⟩
  · exact ⟨_, rfl, hcrc.crcCommand (hrefl _)⟩
  · exact ⟨_, rfl, hcrc.crcCommand (hrefl _)⟩
  · exact ⟨_, rfl, hcrc.crcCommand (hrefl _)⟩
  · exact ⟨_, rfl, hcrc.crcCommand (hrefl _)⟩
  · have hk : Reg.CRC_DIN n.val / 0x1000 = 0x88 + n.val := by unfold Reg.CRC_DIN; omega
    exact ⟨_, rfl, hguarded _ _ hk fun _ => hcrc.crcDataOp hk⟩
  · have hk : Reg.CRC_DIN_B n.val / 0x1000 = 0x88 + n.val := by unfold Reg.CRC_DIN_B; omega
    exact ⟨_, rfl, hguarded _ _ hk fun _ => hcrc.crcDataOp hk⟩
  · exact ⟨_, rfl, hguarded _ _ (by unfold Reg.CRC_RUN; omega) fun _ => hcrc.crcRunOp⟩
  · exact ⟨_, rfl, hguarded _ _ (by unfold Reg.CRC_CLAIM; omega) fun _ => hcrc.crcClaimOp⟩
  · exact ⟨_, rfl, PageClosed.branch (hcrc.crcRunEnd hall (hrefl _)) (hrefl _)⟩

/-- The commands of a message bus. -/
theorem busCommand_inside {s : State} {m : Master} {n : Fin 4} {w : Fin 2} {w3 : Fin 3} {b : Fin 64} {k : Fin 32} {v : Word} {x : Bool}
    {o : TxOutcome} {tdcv : BitVec 7} {e : CanError} {i : CanErrorCase} {f : CanFrame} {c : Instr}
    (hc : c ∈ [Instr.init m n, .normal m n, .listen m n, .loopback m n, .busIntegrated n, .recover m n, .recovered n, .canBusError n e i x,
      .canFrameReceive n .sof f, .canFrameReceive n .arbitration f, .tsWrap n, .rxRelease m n w3 v, .txreq m n w v, .txabt m n w v, .transmissionStart n, .canTxEnd n o tdcv, .bufCfgWrite m n b v,
      .filterWrite m n k x v, .windowSelect m n w v]) : ∃ t, Goes c s t ∧ s.dev.InsideBus n.val t := by
  have h := Dev.InsideBus.canClosed n.val s.dev
  have hrefl : s.dev.InsideBus n.val s.dev := ⟨fun _ _ => ⟨rfl, rfl⟩, fun _ _ => rfl, ⟨_, _, _, rfl⟩⟩
  simp only [List.mem_cons, List.not_mem_nil, or_false] at hc
  rcases hc with rfl | rfl | rfl | rfl | rfl | rfl | rfl | rfl | rfl | rfl | rfl | rfl | rfl | rfl | rfl | rfl | rfl | rfl | rfl
  · exact ⟨_, rfl, h.modeCommand hrefl⟩
  · exact ⟨_, rfl, h.modeCommand hrefl⟩
  · exact ⟨_, rfl, h.modeCommand hrefl⟩
  · exact ⟨_, rfl, h.modeCommand hrefl⟩
  · exact ⟨_, rfl, PageClosed.when (fun _ => h.setCanState) hrefl⟩
  · exact ⟨_, rfl, h.accessWrite (by unfold Reg.MB_CMD; omega) (fun _ => h.canCmdOp) hrefl⟩
  · exact h.recovered hrefl
  · exact h.canBusError hrefl
  · exact h.frameReceive (by decide) hrefl
  · exact h.frameReceive (by decide) hrefl
  · exact ⟨_, rfl, PageClosed.when (fun _ => h.raise) hrefl⟩
  · exact ⟨_, rfl, h.accessWrite (CanClosed.page_releaseKey ..) (fun _ => h.rxReleaseOp) hrefl⟩
  · exact ⟨_, rfl, h.accessWrite (CanClosed.page_txreq ..) (fun _ => h.txReqOp w.isLt) hrefl⟩
  · exact ⟨_, rfl, h.accessWrite (CanClosed.page_txabt ..) (fun _ => h.txAbtOp w.isLt) hrefl⟩
  · exact h.transmissionStart hrefl
  · exact h.canTxEnd hrefl
  · exact ⟨_, rfl, h.accessWrite (CanClosed.page_bufCfg b.isLt) (fun _ => h.bufCfgOp b.isLt) hrefl⟩
  · exact ⟨_, rfl, h.accessWrite (CanClosed.page_filterKey k.isLt x) (fun _ => h.filterOp k.isLt) hrefl⟩
  · exact ⟨_, rfl, h.accessWrite (CanClosed.page_winKey w.isLt) (fun _ => h.winSelOp w.isLt) hrefl⟩

/-- Settles O55: each command is made of changes that stay in its page and beside memory. -/
theorem commandsStayInTheirPage : Obligations.CommandsStayInTheirPage := by
  unfold Obligations.CommandsStayInTheirPage
  refine ⟨fun s m p n v c page hp hc => ?units, fun s m n w w3 b k v x o tdcv e i f c hc => ?buses⟩
  case units =>
    obtain ⟨t, hgoes, houtside, r, y, cyc, at_, rfl⟩ := unitCommand_inside hp hc
    exact ⟨_, hgoes, fun _ => rfl, houtside, rfl⟩
  case buses =>
    obtain ⟨t, hgoes, houtside, hothers, r, y, cyc, rfl⟩ := busCommand_inside hc
    exact ⟨_, hgoes, fun _ => rfl, houtside, hothers, rfl⟩

end Sys2Proof.Machine

/-! SUPPORT. What the gate and sync balls show (R105, R292, R297), and the history that moves a gate's edges (R299). -/

namespace Sys2Proof.Machine

/-! ### Balls of a bank -/

section

variable {d : Dev} {bank : Fin 5} {cold live : BallLevel}

theorem Dev.ball_unpowered (h : d.bankOn bank = false) : d.ball bank cold live = .hiZ := by simp [Dev.ball, h]

theorem Dev.ball_cold (h : d.bankOn bank = true) (hc : d.coldHeld = true) : d.ball bank cold live = cold := by simp [Dev.ball, h, hc]

theorem Dev.ball_live (h : d.bankOn bank = true) (hc : d.coldHeld = false) : d.ball bank cold live = live := by simp [Dev.ball, h, hc]

/-- A ball that is low in a cold reset is high where its unit drives it high. -/
theorem high_of_ball {x : Bool} (h : d.ball bank .low (.of x) = .high) : x = true := by
  unfold Dev.ball at h
  cases x with
  | true => rfl
  | false => split at h <;> (try split at h) <;> cases h

end

/-- A gate ball is high only in its own command of the leg, on a group that leaves on its pins. -/
theorem gateBall_high {d : Dev} {g k : Nat} {h : Bool} (hhigh : d.gateBall g k h = .high) :
    d.laneGroup g = false ∧ d.gateShown g k = if h then 1 else 2 := by
  have hx := high_of_ball hhigh
  rw [Bool.and_eq_true, Bool.not_eq_true', beq_iff_eq] at hx
  exact hx

/-! ### SYNC_OUT (R292) -/

/-- A pulse that is due rises. -/
theorem goes_syncOutPulse {s : State} (hen : s.dev.bit Reg.PWMSYS_SYNC_OUT 31 = true) (hsel : s.dev.fld Reg.PWMSYS_SYNC_OUT 19 16 < 12)
    {x : Nat} (hdue : s.dev.nextStart (s.dev.fld Reg.PWMSYS_SYNC_OUT 19 16) = some (s.dev.now + s.dev.fld Reg.PWMSYS_SYNC_OUT 7 0, x)) :
    Goes .syncOutPulse s (Dev.putSyncOutAt (some s.dev.now) s.dev) := by
  show execSyncOutPulse s = _
  rw [execSyncOutPulse, State.onDev_eq, if_pos ⟨hen, hsel, by simp [hdue]⟩]

/-- What SYNC_OUT shows some ticks after its pulse. -/
theorem syncOutBall_after {d : Dev} (hen : d.bit Reg.PWMSYS_SYNC_OUT 31 = true) (hbank : d.bankOn 0 = true) (hcold : d.coldHeld = false) (i : Nat) :
    ({ Dev.putSyncOutAt (some d.now) d with now := d.now + i } : Dev).syncOutBall = .of (decide (i < 16)) := by
  have hpulse : (d.bit Reg.PWMSYS_SYNC_OUT 31 && (some d.now).any fun t => decide (d.now + i < t + 16)) = decide (i < 16) := by
    simp [hen]
  rw [← hpulse]
  exact Dev.ball_live hbank hcold

/-! ### The history of a leg (R299) -/

section

variable {x : LegEdge} {o : Leg} {skew : Int} {e : Nat × Bool × Bool}

/-- A change of the group's own commands moves by SKEW, but not before the edge before it. -/
theorem Leg.note_own (h : o.hist.head? = some x) : ∃ rest, (o.note true skew e).hist =
    { at_ := e.1, pin := max ((e.1 : Int) + skew) x.pin, h := e.2.1, l := e.2.2 } :: rest := by
  obtain ⟨tail, htail⟩ := List.head?_eq_some_iff.mp h
  unfold Leg.note
  rw [htail]
  exact ⟨_, rfl⟩

/-- Any other change acts at its instant. -/
theorem Leg.note_other (h : o.hist.head? = some x) (hx : x.pin ≤ e.1) : ∃ rest, (o.note false skew e).hist =
    { at_ := e.1, pin := e.1, h := e.2.1, l := e.2.2 } :: rest := by
  obtain ⟨tail, htail⟩ := List.head?_eq_some_iff.mp h
  have hkept : (x :: tail).filter (fun p => decide (p.pin ≤ (e.1 : Int))) = x :: tail.filter (fun p => decide (p.pin ≤ (e.1 : Int))) :=
    List.filter_cons_of_pos (decide_eq_true hx)
  unfold Leg.note
  simp only [Bool.false_eq_true, if_false, htail, hkept, Int.max_eq_left hx]
  exact ⟨_, rfl⟩

end

/-- Settles O46: each ball shows its bank, its reset or its unit, and an edge is noted where `note` puts it. -/
theorem ballsShowTheState : Obligations.BallsShowTheState := by
  unfold Obligations.BallsShowTheState
  refine ⟨fun d g k h => ⟨fun hoff => ?unpowered, fun hon hcold => ?cold, fun hhigh hother => ?both, fun hlane hhigh => ?lane⟩,
    ?sync, ?skew⟩
  case unpowered => exact ⟨Dev.ball_unpowered hoff, Dev.ball_unpowered hoff⟩
  case cold => exact ⟨Dev.ball_cold hon hcold, Dev.ball_cold hon hcold⟩
  case both =>
    have hsame := (gateBall_high hhigh).2.symm.trans (gateBall_high hother).2
    cases h <;> cases hsame
  case lane => exact Bool.false_ne_true ((gateBall_high hhigh).1.symm.trans hlane)
  case sync =>
    rintro s _ _ _ rfl rfl rfl hsel hen hbank hcold ⟨x, hdue⟩
    refine ⟨_, goes_syncOutPulse hen hsel hdue, fun i hi => ?_, syncOutBall_after hen hbank hcold 16⟩
    exact (syncOutBall_after hen hbank hcold i).trans (by rw [decide_eq_true hi]; rfl)
  case skew =>
    rintro d _ own g k h l u x _ rfl rfl hne hhead
    rw [Dev.leg_driveFrom_changes g.isLt k.isLt hne]
    refine ⟨?own, ?other⟩
    case own =>
      rintro rfl
      exact Leg.note_own hhead
    case other =>
      rintro rfl hx
      exact Leg.note_other hhead hx

end Sys2Proof.Machine

/-! SUPPORT. Completion: what a command's effect is where its access is taken and its conditions hold. -/

namespace Sys2Proof.Machine

theorem Goes.congr {c : Instr} {s : State} {a b : Dev} (h : Goes c s a) (hab : a = b) : Goes c s b := hab ▸ h

/-- A change made where its condition holds. -/
theorem Dev.when_of {c : Bool} {f : Dev → Dev} {d : Dev} (h : c = true) : d.when c f = f d := by
  rw [h, Dev.when_true]

theorem Dev.when_not {c : Bool} {f : Dev → Dev} {d : Dev} (h : c = false) : d.when c f = d := by
  rw [h, Dev.when_false]

section

variable {d : Dev} {m : Master} {k : Nat} {v : Word} {op : Dev → Dev}

/-- A write that its master's access table permits, with no keyed field in it, acts. -/
theorem Dev.accessWrite_reaches (h : d.Reaches m k) (hk : keyedWrite k v = false) : d.accessWrite m k v op = op d :=
  Dev.accessWrite_plain h.1 h.2 hk

/-- A keyed one acts on an unlocked page, and consumes the unlock. -/
theorem Dev.accessWrite_takes (h : d.Unlocked m k) (hk : keyedWrite k v = true) :
    d.accessWrite m k v op = op (d.setKstate (k / 0x1000) 0) := Dev.accessWrite_unlocked h.1.1 h.1.2 hk h.2

/-- The cycle of a write is beside what its master may reach. -/
theorem Dev.reaches_enterCycle {n : Master} {same : Bool} (h : d.Reaches m k) : (d.enterCycle n same).Reaches m k := by
  rwa [Dev.Reaches, Dev.pageHeld_enterCycle, Dev.mayWrite_enterCycle]

/-- A write over the bus, in a cycle of its own, to a register that its master reaches. -/
theorem Dev.busWrite_page {a p off : Nat} (hr : regionOf a = .page p off) (ho : off < 0x1000) (halign : off % 4 = 0)
    (h : d.Reaches m (p * 0x1000 + off)) : d.busWrite m a 4 v = (d.enterCycle m false).pageWrite m p off v := by
  obtain ⟨hheld, hmay⟩ := Dev.reaches_enterCycle (n := m) (same := false) h
  have hpage : (p * 0x1000 + off) / 0x1000 = p := by omega
  have hoff : (p * 0x1000 + off) % 0x1000 = off := by omega
  rw [hpage] at hheld
  rw [hpage, hoff] at hmay
  rw [Dev.busWrite_lands, Dev.landWrite_page hr hheld hmay, halign, Nat.sub_zero]

end

end Sys2Proof.Machine

/-! SUPPORT. Completion of writes to registers, of keys, of shadows, and of the delivery of events (chapter 2). -/

namespace Sys2Proof.Machine

/-! ### A register's row -/

theorem pageKind_of_regAt {key i j : Nat} {k : PageKind} {r : RegDesc} (h : regAt key = some (k, i, r, j)) :
    pageKind? (key / 0x1000) = some (k, i) := by
  unfold regAt at h
  split at h
  · cases h
  next hkind =>
    rw [hkind]
    split at h
    · cases h
    split at h
    · cases h
    · cases h; rfl

/-- FORCE_SH stands on the groups' pages alone. -/
theorem pageKind_group {p : Nat} (h : 0x20 ≤ p) (h' : p ≤ 0x2B) : pageKind? p = some (.pg, p - 0x20) := by
  have hpages : ∀ g < 12, pageKind? (0x20 + g) = some (.pg, g) := by decide
  have hkind := hpages (p - 0x20) (by omega)
  rwa [Nat.add_sub_cancel' h] at hkind

/-- A 32-bit write at an offset of a page beside its shadows, KEY and FORCE_SH. -/
theorem Dev.pageWrite_reg {m : Master} {p off i : Nat} {k : PageKind} {v : Word} {d : Dev} (hkind : pageKind? p = some (k, i))
    (hk : k ≠ .pg) (h40 : 0x40 ≤ off) (h800 : off < 0x800) (hreach : d.Reaches m (p * 0x1000 + off))
    (hkeyed : keyedWrite (p * 0x1000 + off) v = false) :
    d.pageWrite m p off v = d.regOp m (p * 0x1000 + off) v := by
  have hforce : ¬(0x20 ≤ p ∧ p ≤ 0x2B ∧ off = 0x164) := by
    rintro ⟨hlow, hhigh, -⟩
    rw [pageKind_group hlow hhigh] at hkind
    exact hk (Prod.mk.inj (Option.some.inj hkind)).1.symm
  unfold Dev.pageWrite
  rw [if_neg (by omega), if_neg (by omega), if_neg hforce, Dev.accessWrite_reaches hreach hkeyed]

/-- A page whose registers have no operation of their own. -/
theorem Dev.regOp_plain {m : Master} {key i : Nat} {k : PageKind} {v : Word} {d : Dev} (hkind : pageKind? (key / 0x1000) = some (k, i))
    (hk : k ∈ [PageKind.rst, .clk, .evt, .ts, .fl, .ac, .acc, .mmx, .cmp, .sd, .eth, .scrub, .pad]) (h40 : 0x40 ≤ key % 0x1000) :
    d.regOp m key v = d.plainWrite m key v := by
  unfold Dev.regOp
  dsimp only
  rw [if_neg (by omega), if_neg (by omega), hkind]
  simp only [List.mem_cons, List.not_mem_nil, or_false] at hk
  rcases hk with rfl | rfl | rfl | rfl | rfl | rfl | rfl | rfl | rfl | rfl | rfl | rfl | rfl <;> rfl

theorem word_and_ones (v : Word) : v &&& 4294967295#32 = v := BitVec.and_allOnes

/-- Fields that no write clears or sets: those of type RW take the value. -/
theorem Dev.plainFields_rw {k : PageKind} {r : RegDesc} {key : Nat} {v : Word} {d : Dev} (hw1c : r.w1c = 0) (hw1s : r.w1s = 0) :
    d.plainFields k r key v = d.setReg key ((d.reg key &&& ~~~ word r.rw) ||| (v &&& word r.rw)) := by
  have hzero : word 0 = 0#32 := rfl
  have hbit : bitAt 31 (0#32) = false := by decide
  unfold Dev.plainFields
  simp [hw1c, hw1s, hzero, hbit, word_and_ones]

/-- A write to a register of RW and RO fields. -/
theorem Dev.plainWrite_rw {m : Master} {key i j : Nat} {k : PageKind} {r : RegDesc} {v : Word} {d : Dev}
    (hat : regAt key = some (k, i, r, j)) (hw1c : r.w1c = 0) (hw1s : r.w1s = 0) (hrwc : r.rwc = 0) (hrws : r.rws = 0)
    (h40 : 0x40 ≤ key % 0x1000) :
    d.plainWrite m key v = d.setReg key ((d.reg key &&& ~~~ word r.rw) ||| (v &&& word r.rw)) := by
  have hevents : (key % 0x1000 == 0x0C || key % 0x1000 == 0x10 || key % 0x1000 == 0x18) = false := by
    simp only [Bool.or_eq_false_iff, beq_eq_false_iff_ne]
    omega
  unfold Dev.plainWrite
  simp only [hat, hrwc, hrws, hevents, bne_self_eq_false, Bool.false_and, Dev.when_false, Dev.plainFields_rw hw1c hw1s]

/-! ### Registers of the safety configuration (R545) -/

/-- The safety CRC reads registers alone. -/
theorem Dev.safetyCrc_congr {a b : Dev} (h : ∀ k, b.reg k = a.reg k) : b.safetyCrc = a.safetyCrc := by
  rw [Dev.safetyCrc, List.map_congr_left fun k _ => congrArg (· &&& safetyMask k) (h k), Dev.safetyCrc]

theorem safetyItem_safe {off : Nat} (ho : 0x54 ≤ off) (h110 : off < 0x110) : safetyItem (0x92000 + off) = 0x1000 + off := by
  unfold safetyItem
  dsimp only
  rw [if_pos (by omega), if_neg (by omega)]
  omega

/-- A write of RWS fields by the session's owner, the log with room. -/
theorem Dev.rwsApply_owner {m : Master} {key i j : Nat} {k : PageKind} {r : RegDesc} {v : Word} {d : Dev}
    (hat : regAt key = some (k, i, r, j)) (hpw : key ≠ Reg.SAFE_PW_NEW) (howns : d.ownsSession m = true) (hcrc : d.sloe.crcRun = false)
    (hfull : d.logFull = false) {d' : Dev} (hd' : d' = d.setReg key ((d.reg key &&& ~~~ word r.rws) ||| (v &&& word r.rws))) :
    d.rwsApply m key v =
      ((d'.logEntry (originOf m) 1 (safetyItem key) d.safetyCrc d'.safetyCrc).setBit Reg.SAFE_STAT 0 false).touchSession.evaluate := by
  subst hd'
  unfold Dev.rwsApply
  simp only [howns, hcrc, hfull, hat, hpw, Bool.not_true, Bool.false_eq_true, if_false]

theorem Dev.ownsSession_enterCycle (m n : Master) (same : Bool) (d : Dev) : (d.enterCycle m same).ownsSession n = d.ownsSession n := by
  unfold Dev.enterCycle
  split <;> rfl

theorem Dev.sloe_enterCycle (m : Master) (same : Bool) (d : Dev) : (d.enterCycle m same).sloe = d.sloe := by
  unfold Dev.enterCycle
  split <;> rfl

/-- The same, of a register whose other fields are RO, on a write of the register. -/
theorem Dev.plainWrite_rws {m : Master} {key i j : Nat} {k : PageKind} {r : RegDesc} {v : Word} {d : Dev}
    (hat : regAt key = some (k, i, r, j)) (hrw : r.rw = 0) (hw1c : r.w1c = 0) (hw1s : r.w1s = 0) (hrwc : r.rwc = 0) (hrws : r.rws ≠ 0)
    (h40 : 0x40 ≤ key % 0x1000) (hpw : key ≠ Reg.SAFE_PW_NEW) (howns : d.ownsSession m = true) (hcrc : d.sloe.crcRun = false)
    (hfull : d.logFull = false) {d' : Dev} (hd' : d' = d.setReg key ((d.reg key &&& ~~~ word r.rws) ||| (v &&& word r.rws))) :
    d.plainWrite m key v =
      ((d'.logEntry (originOf m) 1 (safetyItem key) d.safetyCrc d'.safetyCrc).setBit Reg.SAFE_STAT 0 false).touchSession.evaluate := by
  have hevents : (key % 0x1000 == 0x0C || key % 0x1000 == 0x10 || key % 0x1000 == 0x18) = false := by
    simp only [Bool.or_eq_false_iff, beq_eq_false_iff_ne]
    omega
  have hfields : d.plainFields k r key v = d.setReg key (d.reg key) := by
    rw [Dev.plainFields_rw hw1c hw1s, hrw]
    simp [word, word_and_ones]
  have hself (j : Nat) : (d.setReg key (d.reg key)).reg j = d.reg j := Dev.reg_setReg_self ..
  have howns' : (d.setReg key (d.reg key)).ownsSession m = true := by
    simpa only [Dev.ownsSession, Dev.sessionOpen, Dev.bit, Dev.fld, hself] using howns
  unfold Dev.plainWrite
  simp only [hat, hrwc, hevents, hfields, bne_self_eq_false, Bool.false_and, Dev.when_false, bne_iff_ne.mpr hrws, Dev.when_true]
  rw [Dev.rwsApply_owner hat hpw howns' hcrc hfull (hd'.trans (by rw [Dev.setReg_setReg, hself])), Dev.safetyCrc_congr hself]

/-! ### Shadows (R64, R70) -/

/-- The cycle of a write is beside the commit and the loader. -/
theorem Dev.commitBusy_enterCycle (m : Master) (same : Bool) (d : Dev) : (d.enterCycle m same).commitBusy = d.commitBusy := by
  unfold Dev.enterCycle
  split <;> rfl

theorem Dev.rwcBarred_enterCycle (m n : Master) (same : Bool) (d : Dev) : (d.enterCycle m same).rwcBarred n = d.rwcBarred n := by
  unfold Dev.enterCycle
  split <;> rfl

theorem Dev.pageWrite_shadow {m : Master} {p off : Nat} {v : Word} {d : Dev} :
    d.pageWrite m p (0x800 + off) v = d.shadowOp m (p * 0x1000 + off) v := by
  have hkey : p * 0x1000 + (0x800 + off) - 0x800 = p * 0x1000 + off := by omega
  unfold Dev.pageWrite
  rw [if_pos (by omega), hkey]

/-- The RWC fields of the shadow take the value. -/
theorem Dev.shadowOp_takes {m : Master} {key : Nat} {v : Word} {d : Dev} (hmask : rwcMask key ≠ 0) (hbusy : d.commitBusy = false)
    (hbar : d.rwcBarred m = false) :
    d.shadowOp m key v = (d.setSh key ((d.sh key &&& ~~~ rwcMask key) ||| (storedValue key v &&& rwcMask key))).rwcAccepted := by
  unfold Dev.shadowOp
  simp only [hbusy, hbar, hmask, Bool.false_and, Bool.or_self, Bool.false_eq_true, if_false]

/-! ### Keys (R59) -/

/-- A write of KEY lands at its page's key. -/
theorem goes_keyWrite {s : State} {m : Master} {p : Nat} {v : Word} (hp : (pageKind? p).isSome = true) (hreach : s.dev.Reaches m (Reg.key p)) :
    Goes (.keyWrite m p v) s ((s.dev.enterCycle m false).keyOp m p v) := by
  have hkey : Reg.key p = p * 0x1000 + 0x1C := rfl
  have hregion : regionOf (keyAddr (Reg.key p)) = .page p 0x1C := hkey ▸ regionOf_keyAddr hp (by decide)
  rw [hkey] at hreach
  exact Goes.congr rfl (Dev.busWrite_page hregion (by decide) (by decide) hreach)

/-! ### Events at the triad (R499) -/

/-- The three cores changed alike. -/
def allCores (f : Nat → TriadCore → TriadCore) (v : Vector TriadCore 3) : Vector TriadCore 3 := vmod {} (vmod {} (vmod {} v 0 (f 0)) 1 (f 1)) 2 (f 2)

theorem vget_allCores (f : Nat → TriadCore → TriadCore) (v : Vector TriadCore 3) (c : Fin 3) :
    vget {} (allCores f v) c.val = f c.val (vget {} v c.val) := by
  unfold allCores
  match c with
  | 0 | 1 | 2 => simp [vget_vmod]

/-- Most of three cores that are alike. -/
theorem mostCores_alike {d : Dev} {f : TriadCore → Bool} {x : Bool} (h : ∀ c : Fin 3, f (d.core c.val) = x) : d.mostCores f = x := by
  have h0 := h 0
  have h1 := h 1
  have h2 := h 2
  unfold Dev.mostCores
  cases x <;> simp_all

/-- A majority reads what its cores do. -/
theorem mostCores_congr {a b : Dev} {f : TriadCore → Bool} (h : ∀ c : Fin 3, f (b.core c.val) = f (a.core c.val)) :
    b.mostCores f = a.mostCores f := by
  have hcores : ∀ c ∈ [0, 1, 2], f (b.core c) = f (a.core c) := by
    intro c hc
    exact h ⟨c, by simp only [List.mem_cons, List.not_mem_nil, or_false] at hc; omega⟩
  rw [Dev.mostCores, List.filter_congr hcores, Dev.mostCores]

/-- What the delivery leaves of the triad, the cores alike. -/
def Triad.takeEvents (level taken : Bool) (t : Triad) : Triad :=
  let latched := allCores (fun _ k => { k with eip := level }) t.cores
  { t with events := level, cores := if taken then allCores (fun _ => TriadCore.trap (2 ^ 31 + 11) 0) latched else latched }

theorem each_modCore (f : Nat → TriadCore → TriadCore) (d : Dev) :
    each [0, 1, 2] (fun c d => d.modCore c (f c)) d = d.modTriad (fun t => { t with cores := allCores f t.cores }) := rfl

theorem Dev.modTriad_modTriad (f g : Triad → Triad) (d : Dev) : (d.modTriad f).modTriad g = d.modTriad (fun t => g (f t)) := rfl

theorem Dev.modTriad_eq (f : Triad → Triad) (d : Dev) : d.modTriad f = d.modTriad (fun _ => f d.triad) := rfl

theorem Dev.triadEvents_alike (level : Bool) (d : Dev) : d.triadEvents level 0 =
    d.modTriad (Triad.takeEvents level (level && d.mostCores (fun k => bitAt 3 k.mstatus && bitAt 11 k.mie))) := by
  obtain ⟨latched, hlatched⟩ : ∃ t : Dev, t = d.modTriad (fun t => { t with cores := allCores (fun _ k => { k with eip := level }) t.cores }) := ⟨_, rfl⟩
  have hcore (c : Fin 3) : latched.core c.val = { d.core c.val with eip := level } := by
    rw [hlatched]
    exact vget_allCores (fun _ k => { k with eip := level }) d.triad.cores c
  have heip : latched.mostCores (fun k => k.eip) = level := mostCores_alike fun c => congrArg TriadCore.eip (hcore c)
  have hmost : (latched.modTriad (fun t => { t with events := level })).mostCores (fun k => bitAt 3 k.mstatus && bitAt 11 k.mie) =
      d.mostCores (fun k => bitAt 3 k.mstatus && bitAt 11 k.mie) :=
    mostCores_congr fun c => by
      show (bitAt 3 (latched.core c.val).mstatus && bitAt 11 (latched.core c.val).mie) = _
      rw [hcore c]
  have hnone (c : Nat) : (level != (0 : BitVec 3).getLsbD c) = level := by simp
  unfold Dev.triadEvents
  simp only [hnone]
  rw [each_modCore (fun _ k => { k with eip := level }), ← hlatched]
  simp only [heip]
  rw [hmost]
  unfold Triad.takeEvents
  cases level && d.mostCores (fun k => bitAt 3 k.mstatus && bitAt 11 k.mie) with
  | true =>
    rw [Dev.when_true, each_modCore (fun _ => TriadCore.trap (2 ^ 31 + 11) 0), hlatched]
    simp only [Dev.modTriad_modTriad, if_true]
  | false =>
    rw [Dev.when_false, hlatched]
    simp only [Dev.modTriad_modTriad, Bool.false_eq_true, if_false]

/-- Each core, then. -/
theorem core_takeEvents (level taken : Bool) (t : Triad) (c : Fin 3) : vget {} (t.takeEvents level taken).cores c.val =
    let k : TriadCore := { vget {} t.cores c.val with eip := level }
    if taken then k.trap (2 ^ 31 + 11) 0 else k := by
  unfold Triad.takeEvents
  dsimp only
  split
  · rw [vget_allCores, vget_allCores]
  · rw [vget_allCores]

/-! ### Pages with operations of their own -/

/-- A register of SAFE between the passwords and the bank of safety inputs. -/
theorem Dev.regOp_safe {m : Master} {off : Nat} {v : Word} {d : Dev} (ho : 0x54 ≤ off) (h110 : off < 0x110) :
    d.regOp m (0x92000 + off) v = d.plainWrite m (0x92000 + off) v := by
  have hpage : (0x92000 + off) / 0x1000 = 0x92 := by omega
  have hoff : (0x92000 + off) % 0x1000 = off := by omega
  have hkind : pageKind? 0x92 = some (.safe, 0) := rfl
  unfold Dev.regOp
  dsimp only
  rw [hpage, hoff, if_neg (by omega), if_neg (by omega), hkind]
  show d.safeWrite m off (0x92000 + off) v = _
  unfold Dev.safeWrite
  rw [if_neg (by omega), if_neg (by omega), if_neg (by omega), if_neg (by omega), if_neg (by omega)]

/-! ### The obligation -/

/-- Settles O1: a write lands at its page or in memory, and takes effect where nothing refuses it. -/
theorem registerCommandsComplete : Obligations.RegisterCommandsComplete := by
  unfold Obligations.RegisterCommandsComplete
  refine ⟨?sram, ?fields, fun s m p hp hreach hk => ?first, fun s m p hp hreach hk => ?second, fun s p hk => ?expiry,
    fun s p hk => ?timeout, ?shadow, ?safety, fun s p differ hrouted hheld => ?sloe, fun s p level hruns hrouted hlevel => ?triad⟩
  case sram =>
    intro s m a n v same hregion hmay
    have hlands := Dev.landWrite_memory (n := n) (v := v) (by rw [hregion]; rfl) ((Dev.mayAccess_enterCycle m m same true s.dev a.toNat).trans hmay)
    rw [if_neg (by rw [hregion]; decide)] at hlands
    exact Goes.congr rfl hlands
  case fields =>
    intro s m a v same p off i j k r hregion h40 h800 halign hreach hat hk hrwc hrws hw1c hw1s hkeyed
    have hpage : (p * 0x1000 + off) / 0x1000 = p := by omega
    have hoff : (p * 0x1000 + off) % 0x1000 = off := by omega
    have hkind := pageKind_of_regAt hat
    have hpg : k ≠ .pg := by rintro rfl; exact absurd hk (by decide)
    have hreach' := Dev.reaches_enterCycle (n := m) (same := same) hreach
    refine Goes.congr (goes_registerWrite_page hregion halign (by omega) hreach') ?_
    rw [Dev.pageWrite_reg (hpage ▸ hkind) hpg h40 h800 hreach' hkeyed, Dev.regOp_plain hkind hk (by omega),
      Dev.plainWrite_rw hat hw1c hw1s hrwc hrws (by omega), Dev.reg_enterCycle]
  case first =>
    refine Goes.congr (goes_keyWrite hp hreach) ?_
    rw [Dev.keyOp, Dev.kstate_enterCycle, if_pos ⟨hk, rfl⟩]
  case second =>
    refine Goes.congr (goes_keyWrite hp hreach) ?_
    rw [Dev.keyOp, Dev.kstate_enterCycle, if_neg (by omega), if_pos ⟨hk, rfl⟩]
  case expiry => exact Goes.congr rfl (by simp [hk])
  case timeout => exact Goes.congr rfl (by simp [hk])
  case shadow =>
    intro s m p off v hp h800 halign hreach hmask hbusy hbar
    have hkey : p * 0x1000 + 0x800 + off = p * 0x1000 + (0x800 + off) := by omega
    have hregion := regionOf_keyAddr (off := 0x800 + off) hp (by omega)
    rw [hkey] at hreach
    refine Goes.congr rfl ((Dev.busWrite_page (by rw [hkey]; exact hregion) (by omega) (by omega) hreach).trans ?_)
    rw [Dev.pageWrite_shadow, Dev.shadowOp_takes hmask ((Dev.commitBusy_enterCycle ..).trans hbusy) ((Dev.rwcBarred_enterCycle ..).trans hbar),
      Dev.sh_enterCycle]
  case safety =>
    intro s m a v off i j k r hregion h54 h110 halign hreach hat hrw hw1c hw1s hrwc hrws hkeyed howns hcrc hfull
    have hreach' := Dev.reaches_enterCycle (n := m) (same := false) hreach
    have hkeyed' : keyedWrite (0x92000 + off) v = false := keyedWrite_false (by rw [hat]; exact hkeyed)
    have hkind := pageKind_of_regAt hat
    rw [show (0x92000 + off) / 0x1000 = 0x92 by omega] at hkind
    refine ⟨_, rfl, Goes.congr rfl ((Dev.busWrite_page hregion (by omega) halign hreach).trans ?_)⟩
    rw [Dev.pageWrite_reg (p := 0x92) hkind (by cases hkind; decide) (by omega) (by omega) hreach' hkeyed',
      Dev.regOp_safe h54 h110, Dev.plainWrite_rws hat hrw hw1c hw1s hrwc hrws (by omega) (by unfold Reg.SAFE_PW_NEW; omega)
      ((Dev.ownsSession_enterCycle ..).trans howns) (by rwa [Dev.sloe_enterCycle]) (by rwa [Dev.logFull, Dev.sloe_enterCycle]) rfl,
      safetyItem_safe h54 h110, Dev.reg_enterCycle, Dev.safetyCrc_congr (a := s.dev) (Dev.reg_enterCycle m false s.dev)]
  case sloe =>
    refine ⟨_, rfl, Goes.congr rfl ?_⟩
    simp only [hrouted, hheld, Bool.not_false, Bool.and_self, Dev.when_true]
  case triad =>
    obtain ⟨t, ht⟩ : ∃ t, t = s.dev.triad.takeEvents level (level && s.dev.mostCores (fun k => bitAt 3 k.mstatus && bitAt 11 k.mie)) := ⟨_, rfl⟩
    have hevents : t.events = level := by rw [ht, Triad.takeEvents]
    have hcores (c : Fin 3) := core_takeEvents level (level && s.dev.mostCores (fun k => bitAt 3 k.mstatus && bitAt 11 k.mie)) s.dev.triad c
    rw [← ht] at hcores
    refine ⟨t, ?_, hevents, hcores⟩
    show execEventDelivery p 0 s = _
    rw [execEventDelivery, State.onDev_eq]
    simp only [hrouted, hruns, Bool.false_and, Dev.when_false, Dev.when_true, ← hlevel, Dev.triadEvents_alike]
    rw [Dev.modTriad_eq, ← ht]

end Sys2Proof.Machine

/-! SUPPORT. Completion of the reset sources and of the supplies (R83 to R86, R650, R654). -/

namespace Sys2Proof.Machine

/-! ### Keys of SWRST -/

theorem keyedWrite_swrst {v : Word} (h : v = 1 ∨ v = 2 ∨ v = 3) : keyedWrite Reg.SYS_SWRST v = true := by
  rcases h with rfl | rfl | rfl
  · decide
  · decide
  · decide

/-! ### Supplies -/

/-- A bank that has passed 2.85 V within its window takes the 3.3 V class. -/
theorem VioBank.class_rise {b : VioBank} {now mv : Nat} (hup : b.up = true) (hnone : b.class33 = none) (hmv : 2850 ≤ mv)
    (hnow : now ≤ b.since + 8000000) : (b.rise now mv).class33 = some true := by
  simp [VioBank.rise, VioBank.take, hup, hnone, hmv, hnow]

/-- One that has not takes the 1.8 V class at the window's end. -/
theorem VioBank.class_take {b : VioBank} {now : Nat} (hup : b.up = true) (hnone : b.class33 = none) (hlow : b.high = false)
    (hnow : b.since + 8000000 ≤ now) : (b.take now).class33 = some false := by
  simp [VioBank.take, hup, hnone, hlow, hnow]

/-- A bank changed is itself so changed, and no other. -/
theorem vio_set (v : Vector VioBank 5) (b : Fin 5) (x : VioBank) : (v.set b.val x b.isLt).get b = x ∧ ∀ c, c ≠ b → (v.set b.val x b.isLt).get c = v.get c := by
  refine ⟨Vector.getElem_set_self b.isLt, fun c hc => Vector.getElem_set_ne b.isLt c.isLt fun h => hc (Fin.ext h.symm)⟩

/-! ### The obligation -/

/-- Settles O2: each command is its source's change, made where its condition holds. -/
theorem resetSourcesComplete : Obligations.ResetSourcesComplete := by
  unfold Obligations.ResetSourcesComplete
  refine ⟨fun s ns h => ?porst, fun s ns h => ?reset, fun s x hx => ?ball, fun s x hx => ?software, fun s x hx => ?internal,
    fun s m both h => ?cold, fun s m h => ?warm, fun s r mv ns hfloor hns => ?brownOut, fun s mv h => ?vdd, fun s mv h => ?vdda,
    fun s b mv hup hnone hmv hnow => ?rise, fun s b hup hnone hlow hnow => ?take, fun s hup hclass => ?all, fun s hup hclass => ?some,
    fun s h => ?vddq⟩
  case porst => exact Goes.congr rfl (Dev.when_of (by simp [pulseOk, h]))
  case reset => exact Goes.congr rfl (Dev.when_of (by simp [pulseOk, h]))
  case ball => exact Goes.congr rfl (Dev.when_of (by simpa using hx))
  case software => exact Goes.congr rfl (Dev.when_of (List.contains_iff_mem.mpr hx))
  case internal => exact Goes.congr rfl (Dev.when_of (List.contains_iff_mem.mpr hx))
  case cold =>
    cases both with
    | true => exact Goes.congr rfl (Dev.accessWrite_takes h (keyedWrite_swrst (by decide)))
    | false => exact Goes.congr rfl (Dev.accessWrite_takes h (keyedWrite_swrst (by decide)))
  case warm => exact Goes.congr rfl (Dev.accessWrite_takes h (keyedWrite_swrst (by decide)))
  case brownOut => exact Goes.congr rfl (Dev.when_of (by simp [hfloor, hns]))
  case vdd => exact ⟨_, rfl, by simp [h], rfl, rfl⟩
  case vdda => exact ⟨_, rfl, by simp [h], rfl, rfl⟩
  case rise =>
    obtain ⟨hsame, hothers⟩ := vio_set s.dev.supplies.vio b ((s.dev.supplies.vio.get b).rise s.dev.now mv)
    exact ⟨_, rfl, (congrArg VioBank.class33 hsame).trans (VioBank.class_rise hup hnone hmv hnow), hothers⟩
  case take =>
    obtain ⟨hsame, hothers⟩ := vio_set s.dev.supplies.vio b ((s.dev.supplies.vio.get b).take s.dev.now)
    exact ⟨_, rfl, (congrArg VioBank.class33 hsame).trans (VioBank.class_take hup hnone hlow hnow), hothers⟩
  case all => exact Goes.congr rfl ((Dev.when_of hup).trans (Dev.when_of hclass))
  case some => exact Goes.congr rfl ((Dev.when_of hup).trans (Dev.when_not hclass))
  case vddq => exact Goes.congr rfl (Dev.when_of h)

end Sys2Proof.Machine

/-! SUPPORT. Completion of the block resets, the JTAG resets and the release sequence (R89 to R99). -/

namespace Sys2Proof.Machine

/-- SRST stands in the CTRL of every page, and is keyed (R58). -/
theorem keyedWrite_srst {p : Nat} (hp : (pageKind? p).isSome = true) : keyedWrite (Reg.ctrl p) 2 = true := by
  have hoff : Reg.ctrl p % 0x1000 = 4 := by unfold Reg.ctrl; omega
  have hpage : Reg.ctrl p / 0x1000 = p := by unfold Reg.ctrl; omega
  have hrow : ∀ k : PageKind, (findDesc 4 (descsOf k)).any (fun r => 2 &&& r.1.keyed != 0) = true := by
    intro k
    cases k <;> rfl
  obtain ⟨⟨k, i⟩, hkind⟩ := Option.isSome_iff_exists.mp hp
  have habsent : absentAt k i 4 = false := by simp [absentAt]
  obtain ⟨⟨r, j⟩, hfind, hkeyed⟩ := (Option.any_eq_true _ _).mp (hrow k)
  have hat : regAt (Reg.ctrl p) = some (k, i, r, j) := by
    unfold regAt
    rw [hpage, hoff, hkind]
    simp only [habsent, hfind]
    rfl
  unfold keyedWrite
  rw [hat]
  exact Bool.or_eq_true_iff.mpr (.inr hkeyed)

/-- SRST that nothing discards. -/
theorem Dev.blockResetOp_resets {m : Master} {p : Nat} {d : Dev} (h91 : p ≠ 0x91) (h92 : p ≠ 0x92) (h90 : p = 0x90 → d.cstate ≠ 3)
    (hcrc : p / 4 ≠ 0x22) : d.blockResetOp m p = (d.blockReset 0 p).commitRelease := by
  have hunit : ¬(0x88 ≤ p ∧ p ≤ 0x8B ∧ d.crcBarred m (p - 0x88) = true) := fun h => hcrc (by omega)
  have hkept : ¬(p = 0x91 ∨ p = 0x92 ∨ p = 0x90 ∧ d.cstate = 3) := by
    rintro (h | h | ⟨h, hc⟩)
    · exact h91 h
    · exact h92 h
    · exact h90 h hc
  rw [Dev.blockResetOp, if_neg hunit, Dev.srstOp, if_neg hkept]

/-- The release of another page does not start the boot ROM. -/
theorem Dev.romAfter_of_held {a d : Dev} (h : d.pageHeld 0x98 = a.pageHeld 0x98) : Dev.romAfter a d = d := by
  rw [Dev.romAfter, h]
  exact Dev.when_not (by simp)

/-- The release of a page from its block reset: released or deferred. -/
theorem Dev.reset_releasePage (p : Nat) (d : Dev) : (d.releasePage p).reset = { d.reset with
    held := d.reset.held.filter (· != p), deferred := if d.pageQualified p then d.reset.deferred else d.reset.deferred ++ [p] } := by
  unfold Dev.releasePage
  dsimp only
  have hqual : (Dev.putReset { d.reset with held := d.reset.held.filter (· != p) } d).pageQualified p = d.pageQualified p := rfl
  rw [hqual]
  split
  · rfl
  · rfl

/-- A page released beside MGT leaves MGT as it is. -/
theorem Dev.pageHeld_freed {p q : Nat} (hpq : q ≠ p) (d : Dev) :
    ((Dev.putReset { d.reset with blockHeld := d.reset.blockHeld.filter (· != p) } d).releasePage p).pageHeld q = d.pageHeld q := by
  have hfilter (l : List Nat) : (l.filter (· != p)).contains q = l.contains q := by simp [List.mem_filter, hpq]
  have happend (l : List Nat) : (l ++ [p]).contains q = l.contains q := by simp [hpq]
  unfold Dev.pageHeld
  rw [Dev.reset_releasePage]
  dsimp only [Dev.putReset_reset]
  rw [hfilter, hfilter, apply_ite (List.contains · q), happend, ite_self]

/-- Settles O3: each reset is its change, made where its condition holds. -/
theorem resetStepsComplete : Obligations.ResetStepsComplete := by
  unfold Obligations.ResetStepsComplete
  refine ⟨fun s m p hp h h91 h92 h90 hcrc => ?srst, fun s p hblock hfree hmgt => ?release, fun s p hblock hjoined => ?joined,
    fun s e hoff harmed => ?engine, fun s hoff harmed => ?triad, fun s hoff harmed => ?medlar, fun s h => ?refresh,
    fun s r hepisode hsources hreleasing hplls hxtal => ?sequence, fun s hepisode hreleasing => ?plane,
    fun s r hepisode hr hreleasing => ?memories, fun s hheld hinit => ?zero, fun s hheld hinit => ?kept, fun s e hruns hlimit => ?engineWatchdog,
    fun s hheld hlate => ?medlarWatchdog⟩
  case srst =>
    have hpage : Reg.ctrl p / 0x1000 = p := by unfold Reg.ctrl; omega
    have hcstate : (s.dev.setKstate p 0).cstate = s.dev.cstate := Dev.fld_setKstate (by decide) s.dev
    refine Goes.congr rfl ?_
    simp only [hp, if_true]
    rw [Dev.accessWrite_takes h (keyedWrite_srst hp), hpage, Dev.blockResetOp_resets h91 h92 (by rwa [hcstate]) hcrc]
  case release =>
    refine ⟨(Dev.putReset { s.dev.reset with blockHeld := s.dev.reset.blockHeld.filter (· != p) } s.dev).releasePage p,
      Goes.congr rfl ?_, ?_, ?_⟩
    · simp only [hblock, hfree, if_true, Bool.false_eq_true, if_false]
      exact Dev.romAfter_of_held (Dev.pageHeld_freed hmgt.symm s.dev)
    · rw [Dev.reset_releasePage]
      rfl
    · intro hqual
      rw [Dev.reset_releasePage]
      refine (if_neg (ne_true_of_eq_false hqual)).symm ▸ ?_
      simp
  case joined =>
    refine Goes.congr rfl ?_
    simp only [hblock, hjoined, if_true]
    rfl
  case engine => exact Goes.congr rfl (if_neg (by simp [hoff, harmed]))
  case triad => exact Goes.congr rfl (if_neg (by simp [hoff, harmed]))
  case medlar => exact Goes.congr rfl (if_neg (by simp [hoff, harmed]))
  case refresh =>
    refine Goes.congr (b := s.dev.dramLoss) rfl ?_
    rcases h with h | h
    · simp only [h]
    · simp only [h]
  case sequence =>
    refine Goes.congr rfl ?_
    simp only [hepisode]
    exact if_neg (by simp [hsources, hreleasing, hplls, hxtal])
  case plane =>
    refine Goes.congr rfl ?_
    simp only [hepisode, hreleasing]
    rfl
  case memories =>
    refine Goes.congr rfl ?_
    simp only [hepisode, hreleasing, Dev.when_of (bne_iff_ne.mpr hr), if_true]
  case zero =>
    refine Goes.congr rfl ?_
    simp only [hheld, hinit, if_true, Bool.false_eq_true, if_false]
  case kept =>
    refine Goes.congr rfl ?_
    simp only [hheld, hinit, Bool.false_eq_true, if_false]
  case engineWatchdog => exact Goes.congr rfl (Dev.when_of (by simp [hruns, hlimit]))
  case medlarWatchdog => exact goes_medlarWatchdog hheld hlate

end Sys2Proof.Machine

/-! SUPPORT. Completion of the clock commands (R95, R97, R114 to R121) and of the pins' (R664 to R667). -/

namespace Sys2Proof.Machine

/-! ### Clocks -/

/-- The boot ROM's start is one of SYS.BOOT, and of the page's first event where it waits for the host. -/
theorem Dev.romStart_cases (d : Dev) : ∃ y w, d.romStart = Dev.putRomAt y (d.setReg Reg.SYS_BOOT w) ∨
    d.romStart = ((((Dev.putRomAt y (d.setReg Reg.SYS_BOOT w)).setFld Reg.SYS_BOOT 3 0 3).setBit (Reg.evtEn 0) 0 true).raise 0 0) := by
  refine ⟨if d.bootsel % 4 = 1 then none else some d.now, place 31 30 (d.bootsel % 4), ?_⟩
  by_cases hhost : d.bootsel % 4 = 1
  · exact .inr (if_pos hhost)
  · exact .inl (if_neg hhost)

/-- It changes SYS.BOOT and the page's events alone, and no hold of a page. -/
theorem Dev.reg_romStart {k : Nat} (hboot : k ≠ Reg.SYS_BOOT) (hen : k ≠ Reg.evtEn 0) (hraw : k ≠ Reg.evtRaw 0) (d : Dev) :
    d.romStart.reg k = d.reg k := by
  obtain ⟨y, w, h | h⟩ := d.romStart_cases
  · rw [h]
    exact Dev.reg_setReg_ne hboot w d
  · rw [h, Dev.reg_raise_ne hraw, Dev.reg_setBit_ne hen, Dev.reg_setFld_ne hboot]
    exact Dev.reg_setReg_ne hboot w d

theorem Dev.reset_romStart (d : Dev) : d.romStart.reset = d.reset := by
  obtain ⟨y, w, h | h⟩ := d.romStart_cases <;> rw [h] <;> rfl

theorem Dev.reg_romAfter {k : Nat} (hboot : k ≠ Reg.SYS_BOOT) (hen : k ≠ Reg.evtEn 0) (hraw : k ≠ Reg.evtRaw 0) (a d : Dev) :
    (Dev.romAfter a d).reg k = d.reg k := Dev.reg_when (Dev.reg_romStart hboot hen hraw d)

theorem Dev.reset_romAfter (a d : Dev) : (Dev.romAfter a d).reset = d.reset := by
  unfold Dev.romAfter
  rcases Dev.when_cases .. with ⟨hw, -⟩ | ⟨hw, -⟩ <;> rw [hw]
  exact Dev.reset_romStart d

/-- The pages of a domain leave the deferred ones. -/
def Dev.undefer (x : Domain) (d : Dev) : Dev :=
  Dev.putReset { d.reset with deferred := d.reset.deferred.filter (fun p => pageDomain p != some x) } d

/-- MGT is deferred with its own domain alone. -/
theorem Dev.pageHeld_undefer {x : Domain} (hx : x ≠ .mgt) (d : Dev) : (d.undefer x).pageHeld 0x98 = d.pageHeld 0x98 := by
  have hstays : (pageDomain 0x98 != some x) = true := by
    cases x with
    | mgt => exact absurd rfl hx
    | fab | tri | pwm | adc | fbk | mbus | net | mem => decide
  have hdeferred : (d.undefer x).reset.deferred.contains 0x98 = d.reset.deferred.contains 0x98 := by
    simp [Dev.undefer, List.mem_filter, hstays]
  unfold Dev.pageHeld
  rw [hdeferred]
  rfl

/-- Settles O4: each clock command is its change, made where its condition holds. -/
theorem clockCommandsComplete : Obligations.ClockCommandsComplete := by
  unfold Obligations.ClockCommandsComplete
  refine ⟨fun s hplls hxtal => ?valid, fun s hplls => ?timeout, fun s p hplls => ?lock, fun s x n hlock hcount => ?qualify,
    fun s x hdeferred => ?late, fun s x n hqual hcount hbad => ?second, fun s x n hqual hcount => ?good, fun s x hqual => ?edges,
    fun s hany => ?mismatch, fun s hany => ?noMismatch, fun s p hmay hdiffers => ?ssc⟩
  case valid =>
    refine ⟨_, Goes.congr rfl (if_neg (by simp [hplls, hxtal])), rfl, Dev.bit_setBit_same (by decide) true s.dev, fun k hk => ?_⟩
    exact Dev.reg_setBit_ne hk true s.dev
  case timeout =>
    refine ⟨_, Goes.congr rfl (if_neg (by simp [hplls])), rfl, hplls, ?_, ?_⟩
    · exact (congrArg (bitAt 16) (Dev.reg_raise_ne (by decide) _)).trans (Dev.bit_setBit_same (by decide) true s.dev)
    · exact Dev.bit_raise_same (by decide) _
  case lock => exact Goes.congr rfl (Dev.when_of hplls)
  case qualify =>
    have hqualified : Goes (.clockQualify x n) s (Dev.romAfter ((s.dev.noteCount x n 0).setBit Reg.CLK_QUAL (domainBit x) true)
        (((s.dev.noteCount x n 0).setBit Reg.CLK_QUAL (domainBit x) true).undefer x)) :=
      Goes.congr rfl (if_pos (by rw [hcount, Bool.and_true]; exact hlock))
    refine ⟨_, hqualified, ?bit, ?deferred, fun hx k hk => ?others⟩
    case bit =>
      refine (congrArg (bitAt (domainBit x)) (Dev.reg_romAfter (by decide) (by decide) (by decide) _ _)).trans ?_
      exact Dev.bit_setBit_same (by cases x <;> decide) true _
    case deferred =>
      rw [Dev.reset_romAfter]
      rfl
    case others =>
      rw [Dev.romAfter_of_held (Dev.pageHeld_undefer hx _)]
      exact Dev.reg_setBit_ne hk true _
  case late => exact Goes.congr rfl (Dev.when_of hdeferred)
  case second =>
    refine Goes.congr rfl ?_
    simp only [hqual, hcount, hbad, Bool.not_true, Bool.false_eq_true, if_false]
    rfl
  case good =>
    refine Goes.congr rfl ?_
    simp only [hqual, hcount, Bool.not_true, Bool.false_eq_true, if_false, if_true]
    rfl
  case edges => exact Goes.congr rfl (Dev.when_of hqual)
  case mismatch => exact Goes.congr rfl (Dev.when_of (by simpa [List.isEmpty_iff, List.filter_eq_nil_iff] using hany))
  case noMismatch => exact Goes.congr rfl (Dev.when_not (by simpa [List.isEmpty_iff, List.filter_eq_nil_iff] using hany))
  case ssc => exact Goes.congr rfl (if_pos (by simp [hmay, hdiffers]))

/-! ### Pins -/

/-- A bit of a word set or cleared by its mask. -/
theorem natBit_mask (v : BitVec 32) (i : Fin 32) (up : Bool) :
    natBit i.val (if up then v ||| BitVec.ofNat 32 (2 ^ i.val) else v &&& ~~~ BitVec.ofNat 32 (2 ^ i.val)).toNat = up := by
  have hmask : (BitVec.ofNat 32 (2 ^ i.val)).getLsbD i.val = true := by
    rw [BitVec.getLsbD_ofNat, Nat.testBit_two_pow_self, decide_eq_true i.isLt]
    rfl
  rw [natBit, BitVec.testBit_toNat]
  cases up with
  | true => rw [if_pos rfl, BitVec.getLsbD_or, hmask, Bool.or_true]
  | false => rw [if_neg Bool.false_ne_true, BitVec.getLsbD_and, BitVec.getLsbD_not, hmask, Bool.not_true, Bool.and_false, Bool.and_false]

/-- Settles O5: each pin command is its change, made where its condition holds. -/
theorem pinCommandsComplete : Obligations.PinCommandsComplete := by
  unfold Obligations.PinCommandsComplete
  refine ⟨fun s m h => ?pads, fun s m v same h => ?outSet, fun s m v same h => ?outClr, fun s i up ns hstable hwas hcfg hheld => ?edge,
    fun s i up ns hshort => ?short⟩
  case pads => exact Goes.congr rfl ((Dev.accessWrite_reaches h (by decide)).trans (if_pos (by decide)))
  case outSet =>
    refine Goes.congr rfl ((Dev.accessWrite_reaches (Dev.reaches_enterCycle h) (keyedWrite_false (by decide))).trans ?_)
    rw [Dev.outSetOp, Dev.reg_enterCycle]
  case outClr =>
    refine Goes.congr rfl ((Dev.accessWrite_reaches (Dev.reaches_enterCycle h) (keyedWrite_false (by decide))).trans ?_)
    rw [Dev.outClrOp, Dev.reg_enterCycle]
  case edge =>
    have hfiltered : s.dev.filtered (Reg.GPIO_CFG i.val) ns = true := decide_eq_true hstable
    have hhit : (natBit i.val s.dev.gpioIn.toNat != up && natBit (if up then 0 else 1) (s.dev.edgeCfg i.val) && !s.dev.pageHeld 0xA9) = true := by
      simp [hwas, hcfg, hheld]
    refine ⟨_, Goes.congr rfl ((if_neg (by simp [hfiltered])).trans (if_pos hhit)), natBit_mask s.dev.gpioIn i up, ?_, ?_⟩
    · refine (congrArg (bitAt i.val) (Dev.reg_raise_ne (by decide) _)).trans ?_
      exact Dev.bit_setBit_same i.isLt true _
    · exact Dev.bit_raise_same (by decide) _
  case short => exact Goes.congr rfl (if_pos (by simp [Dev.filtered, hshort]))

end Sys2Proof.Machine

/-! SUPPORT. Completion of boot, of loads, and of the commands of the CFG page (R108 to R112, R145 to R163). -/

namespace Sys2Proof.Machine

/-! ### What an unlock consumed leaves of the conditions of a command -/

section

variable (p : Nat) (d : Dev)

@[simp] theorem Dev.cstate_setKstate : (d.setKstate p 0).cstate = d.cstate := Dev.fld_setKstate (by decide) d

@[simp] theorem Dev.cfgBusy_setKstate : (d.setKstate p 0).cfgBusy = d.cfgBusy := by
  rw [Dev.cfgBusy, Dev.bit_setKstate (by decide), Dev.bit_setKstate (by decide), Dev.cfgBusy]

theorem Dev.gstate_setKstate (g : Nat) : (d.setKstate p 0).gstate g = d.gstate g :=
  Dev.fld_setKstate (by unfold Reg.PG_STAT; omega) d

@[simp] theorem Dev.deviceOff_setKstate : (d.setKstate p 0).deviceOff = d.deviceOff := by
  unfold Dev.deviceOff
  simp only [Dev.gstate_setKstate]

@[simp] theorem Dev.faults_setKstate : (d.setKstate p 0).faults = d.faults := Dev.fld_setKstate (by decide) d

@[simp] theorem Dev.demands_setKstate : (d.setKstate p 0).demands = d.demands := Dev.fld_setKstate (by decide) d

theorem Dev.armError_setKstate (m : Master) (r : Bool) : (d.setKstate p 0).armError m r = d.armError m r := by
  rw [Dev.armError, Dev.cstate_setKstate, Dev.bit_setKstate (by decide), Dev.bit_setKstate (by decide), Dev.faults_setKstate]
  rfl

theorem Dev.keyPlaceOk_setKstate : (d.setKstate p 0).keyPlaceOk = d.keyPlaceOk := by
  rw [Dev.keyPlaceOk, Dev.reg_setKstate (by decide), Dev.keyPlaceOk]

end

/-- RESULT is beside the commit state. -/
theorem Dev.cstate_cfgResult (code err sect : Nat) (d : Dev) : (d.cfgResult code err sect).cstate = d.cstate :=
  congrArg (Machine.fld 2 0) (Dev.reg_setReg_ne (k := Reg.CFG_RESULT) (j := Reg.CFG_STATE) (by decide) _ d)

/-- It is beside the place of the key and what stands there, and so is KEY. -/
theorem Dev.reg_cfgResult_image (code : Nat) (d : Dev) :
    ((d.setKstate 3 0).cfgResult code 0 0).reg Reg.CFG_IMG_ADDR = d.reg Reg.CFG_IMG_ADDR := by
  rw [Dev.cfgResult, Dev.reg_setReg_ne (by decide), Dev.reg_setKstate (by decide)]

theorem Dev.bytesAt_cfgResult (code a n : Nat) (d : Dev) : ((d.setKstate 3 0).cfgResult code 0 0).bytesAt a n = d.bytesAt a n := by
  obtain ⟨r, hr⟩ : ∃ r, (d.setKstate 3 0).cfgResult code 0 0 = { d with regs := r } := ⟨_, rfl⟩
  rw [hr]
  rfl

/-- An accepted command acts on the state in which RESULT shows it. -/
theorem Dev.cfgCommand_accepted {code err : Nat} {op : Dev → Dev} {d : Dev} (hbusy : d.cfgBusy = false) (herr : err = 0) :
    d.cfgCommand code err op = op (d.cfgResult code 0 0) := by
  rw [Dev.cfgCommand, if_neg (ne_true_of_eq_false hbusy), if_neg (not_not_intro herr)]

/-- A command of CFG whose page is unlocked and idle, and whose own conditions hold. -/
theorem Dev.cfgWrite_accepted {m : Master} {v : Word} {code err : Nat} {op act : Dev → Dev} {d : Dev} (h : d.Unlocked m Reg.CFG_CMD)
    (hbusy : d.cfgBusy = false) (hv : keyedWrite Reg.CFG_CMD v = true)
    (hop : op (d.setKstate 3 0) = (d.setKstate 3 0).cfgCommand code err act) (herr : err = 0) :
    d.accessWrite m Reg.CFG_CMD v op = act ((d.setKstate 3 0).cfgResult code 0 0) := by
  have hpage : Reg.CFG_CMD / 0x1000 = 3 := by decide
  rw [Dev.accessWrite_takes h hv, hpage, hop, Dev.cfgCommand_accepted (by rwa [Dev.cfgBusy_setKstate]) herr]

/-! ### Loads -/

/-- A load command outside ARMED and SAFE: in SEALED the triad cores go into reset and the state is LOADED first. -/
theorem Dev.loadWrite_accepted {m : Master} {v : Word} {code : Nat} {op act : Dev → Dev} {d : Dev} (h : d.Unlocked m Reg.CFG_CMD)
    (hbusy : d.cfgBusy = false) (hv : keyedWrite Reg.CFG_CMD v = true) (hop : op = Dev.loadCommand code act) (hstate : d.cstate ≤ 2) :
    d.accessWrite m Reg.CFG_CMD v op =
      (((d.setKstate 3 0).cfgResult code 0 0).when (d.cstate == 2) (fun d => d.triadHold.setCstate 1)).loadRun code act := by
  subst hop
  refine (Dev.cfgWrite_accepted h hbusy hv (op := Dev.loadCommand code act) rfl ?_).trans ?_
  · exact if_neg (by rw [Dev.cstate_setKstate]; omega)
  · rw [Dev.cstate_cfgResult, Dev.cstate_setKstate]

theorem Dev.loadWrite_unsealed {m : Master} {v : Word} {code : Nat} {op act : Dev → Dev} {d : Dev} (h : d.Unlocked m Reg.CFG_CMD)
    (hbusy : d.cfgBusy = false) (hv : keyedWrite Reg.CFG_CMD v = true) (hop : op = Dev.loadCommand code act) (hstate : d.cstate ≤ 1) :
    d.accessWrite m Reg.CFG_CMD v op = ((d.setKstate 3 0).cfgResult code 0 0).loadRun code act := by
  rw [Dev.loadWrite_accepted h hbusy hv hop (by omega), Dev.when_not (beq_eq_false_iff_ne.mpr (by omega))]

/-- Settles O6: boot and loads are their checks, passed. -/
theorem bootAndLoadComplete : Obligations.BootAndLoadComplete := by
  unfold Obligations.BootAndLoadComplete
  refine ⟨fun s hboot hvalid hlen => ?verify, fun s m n h hstage hheld hhalted hn => ?go, fun s t hboot hrom hlate => ?bootLate,
    fun s l hboot hload hsource hlate => ?loadLate, fun s hup hstate hbusy hfree => ?start,
    fun s m h hbusy hstate => ⟨?newest, ?slotA, ?slotB, ?sram⟩, fun s m h hbusy hstate => ?sealed, fun s l hload => ?complete⟩
  case verify =>
    refine Goes.congr rfl ?_
    simp only [hboot, hvalid, Bool.not_true, Bool.false_eq_true, if_false, if_true]
    exact if_neg (by omega)
  case go =>
    refine Goes.congr rfl ((Dev.accessWrite_reaches h (keyedWrite_false (by decide))).trans ?_)
    have hlen : decide (n % 2 ^ 21 ≤ 0x100000) = true := decide_eq_true (by omega)
    rw [Dev.hostBootOp, if_neg (by simp [hstage, hheld, hhalted]), hlen, Bool.and_true, if_pos rfl]
  case bootLate =>
    refine Goes.congr rfl ((if_pos hboot).trans (Dev.when_of ?_))
    rw [hrom, Option.any_some, Dev.flashLate, decide_eq_true hlate]
  case loadLate =>
    refine Goes.congr rfl ((if_neg (ne_true_of_eq_false hboot)).trans ?_)
    have hl : s.dev.flashLate l.startAt = true := by rw [Dev.flashLate, decide_eq_true hlate]
    simp only [hload, hsource, hl, false_or, if_false, Bool.true_eq_false]
  case start =>
    refine Goes.congr rfl ((Dev.when_of (by simp [hup, hstate, hbusy])).trans ?_)
    rw [Dev.loadRun, if_neg (ne_true_of_eq_false hfree)]
  case newest => exact Goes.congr rfl (Dev.loadWrite_unsealed h hbusy (by decide) rfl hstate)
  case slotA => exact Goes.congr rfl (Dev.loadWrite_unsealed h hbusy (by decide) rfl hstate)
  case slotB => exact Goes.congr rfl (Dev.loadWrite_unsealed h hbusy (by decide) rfl hstate)
  case sram => exact Goes.congr rfl (Dev.loadWrite_unsealed h hbusy (by decide) rfl hstate)
  case sealed =>
    refine Goes.congr rfl ((Dev.loadWrite_accepted h hbusy (by decide) rfl (by omega)).trans ?_)
    rw [Dev.when_of (beq_iff_eq.mpr hstate)]
  case complete =>
    refine Goes.congr rfl ?_
    simp only [hload]

/-! ### Commits and arming -/

/-- Settles O7: a command of CFG that no condition refuses acts, and the CRC step ends as it is. -/
theorem commitCommandsComplete : Obligations.CommitCommandsComplete := by
  unfold Obligations.CommitCommandsComplete
  refine ⟨fun s m h hbusy => ⟨fun hstate => ?commit, fun r harm => ?arm, fun hstate hoff => ?disarm, fun hstate hoff hdemands hfaults => ?ack,
    fun hm hstate hhash hplace => ?key, fun hm hstate hsig hhash => ?sig⟩, fun s hstep hcrc => ?mismatch, fun s hstep => ?step⟩
  case commit => exact Goes.congr rfl (Dev.cfgWrite_accepted h hbusy (by decide) rfl (if_neg (by rwa [Dev.cstate_setKstate])))
  case arm => exact Goes.congr rfl (Dev.cfgWrite_accepted h hbusy (by decide) rfl ((Dev.armError_setKstate 3 s.dev m r).trans harm))
  case disarm =>
    refine Goes.congr rfl (Dev.cfgWrite_accepted h hbusy (by decide) rfl ?_)
    simp [hstate, hoff]
  case ack =>
    refine Goes.congr rfl (Dev.cfgWrite_accepted h hbusy (by decide) rfl ?_)
    simp [hstate, hoff, hdemands, hfaults]
  case key =>
    have hfuse (p : Nat) : (s.dev.setKstate p 0).fuses.keyHash = none := hhash
    refine Goes.congr rfl ((Dev.cfgWrite_accepted (v := 0x40) h hbusy (by decide)
      (act := fun d => d.burnHash (sha256 (d.bytesAt (d.reg Reg.CFG_IMG_ADDR).toNat 64))) rfl ?_).trans ?_)
    · simp [hm, hstate, hfuse, Dev.keyPlaceOk_setKstate, hplace]
    · rw [Dev.bytesAt_cfgResult, Dev.reg_cfgResult_image]
  case sig =>
    refine Goes.congr rfl (Dev.cfgWrite_accepted h hbusy (by decide) rfl ?_)
    have hfuse : (s.dev.setKstate 3 0).fuses = s.dev.fuses := rfl
    simp [hm, hstate, hfuse, hsig, Option.isSome_iff_ne_none.mp hhash]
  case mismatch =>
    refine Goes.congr rfl ((Dev.when_of hstep).trans (if_pos ?_))
    rwa [Dev.reg_setReg_ne (by decide)]
  case step => exact Goes.congr rfl (Dev.when_of hstep)

end Sys2Proof.Machine

/-! SUPPORT. Completion of the engine's instructions (R169 to R188, R236 to R261). -/

namespace Sys2Proof.Machine

/-- A command that is the issue of an instruction leaves what the instruction makes of its FAB cycle. -/
theorem Runs.of_issue {s : State} {e op : Nat} {u : Form} {f : EngFields} {c : Instr} {d : Dev} {act : Dev → Dev}
    (hexec : exec c s = s.onDev (Dev.issue e op u f act)) (hact : act (s.dev.begun f) = d) : Runs s e op u f c d :=
  fun h => hexec.trans (by rw [State.onDev_eq, Dev.issue_acts h, hact])

/-- The condition of a compare is one of four. -/
theorem Form.cond_ok {f : EngFields} (h : Form.cond.ok f = true) : f.c.val % 4 = f.c.val := by
  have hc : f.c.val ≤ 3 := by
    simp only [Form.ok, Bool.and_eq_true] at h
    obtain ⟨⟨⟨-, hc⟩, -⟩, -⟩ := h
    exact of_decide_eq_true hc
  omega

/-- A shift to the right, of the sign with M[1]. -/
theorem shiftRight_eq (arith : Prop) [Decidable arith] (a b : Word) :
    shiftRight (decide arith) a b = if arith then a.sshiftRight (fld 4 0 b) else a >>> fld 4 0 b := by
  unfold shiftRight
  by_cases h : arith <;> simp [h]

/-- Settles O8: each instruction issues, and acts as its operation does. -/
theorem arithmeticAndControlComplete : Obligations.ArithmeticAndControlComplete := by
  unfold Obligations.ArithmeticAndControlComplete
  rintro s e f _ _ _ _ _ n rfl rfl rfl rfl rfl hn
  refine ⟨?fadd, ?fsub, ?fmul, ?fma, ?fms, ?fmin, ?fmax, ?fabs, ?fneg, ?fcmp, ?fsel, ?cvtfi, ?cvtif, ?div, ?sqrt, ?mov, ?iadd, ?isub,
    ?iand, ?ior, ?ishl, ?ishr, ?icmp, ?nop, ?br, fun hzero => ?skip, fun hcount hloops => ?push, ?call, ?jr, ?fend, ?time,
    fun op hissue hillegal hop => ?illegal⟩
  case fadd | fsub | fmul | fma | fms | fmin | fmax | fabs | fneg | fsel | cvtfi | cvtif | div | sqrt => exact Runs.of_issue rfl rfl
  case mov | iadd | isub | iand | ior | ishl | time => exact Runs.of_issue rfl rfl
  case nop | br | call | jr | fend => exact Runs.of_issue rfl rfl
  case fcmp =>
    intro h
    have ⟨_, _, _, _, hok, _⟩ := h
    exact Runs.of_issue rfl (by rw [Form.cond_ok hok]) h
  case icmp =>
    intro h
    have ⟨_, _, _, _, hok, _⟩ := h
    exact Runs.of_issue rfl (by rw [Form.cond_ok hok]) h
  case ishr => exact Runs.of_issue rfl (congrArg (fun w => (s.dev.begun f).Result e.val f (plain w)) (shiftRight_eq ..))
  case skip => exact Runs.of_issue rfl (if_pos (hn.symm.trans hzero))
  case push =>
    subst hn
    exact Runs.of_issue rfl ((if_neg hcount).trans (if_neg (by omega)))
  case illegal =>
    refine Goes.congr rfl ((Dev.when_of (by simp [hissue, hillegal, hop])).trans ?_)
    rfl

/-! ### Memory, the bridge and requests (R185 to R188, R201, R202, R226, R255) -/

/-- A load from the engine's own memory. -/
theorem Dev.loadOp_own {e : Nat} {f : EngFields} {d : Dev} (hal : misaligned e (d.memAddr e f) f.m.val = false) (hdata : f.data = .ok)
    (hown : ownTcm e (d.memAddr e f) = true) : d.loadOp e f = ((d.setV e f.d.val (d.wordAt (d.memAddr e f))).when (f.m.val == 1)
      (Dev.setV e (f.d.val + 1) (d.wordAt (d.memAddr e f + 4)))).advance e := by
  have hcorrected : d.when (Ecc.ok == .corrected) (Dev.eccCorrected e) = d := Dev.when_not (by decide)
  unfold Dev.loadOp
  simp only [hal, hown, hdata, hcorrected, Bool.false_eq_true, if_false, if_true, reduceCtorEq]

/-- Any other load waits for its data. -/
theorem Dev.loadOp_waits {e : Nat} {f : EngFields} {d : Dev} (hal : misaligned e (d.memAddr e f) f.m.val = false)
    (hown : ownTcm e (d.memAddr e f) = false) :
    d.loadOp e f = (d.modEngine e (fun x => { x with loadWait := some (f.d, d.memAddr e f) })).advance e := by
  unfold Dev.loadOp
  simp only [hal, hown, Bool.false_eq_true, if_false]

/-- A store that finds a place in the queue joins it. -/
theorem Dev.storeOp_joins {e : Nat} {f : EngFields} {d : Dev} (hal : misaligned e (d.memAddr e f) f.m.val = false)
    (hown : ownTcm e (d.memAddr e f) = false) (hroom : (d.engine e).queue.length < 16) :
    d.storeOp e f = (d.modEngine e (fun x => { x with
      queue := x.queue ++ [{ addr := d.memAddr e f, data := d.v e f.b.val, gen := d.capturedGen e (d.memAddr e f) }] })).advance e := by
  unfold Dev.storeOp
  simp only [hal, hown, Bool.false_eq_true, if_false, Nat.not_le.mpr hroom]

/-- Settles O9: each instruction issues, and acts as its operation does. -/
theorem memoryInstructionsComplete : Obligations.MemoryInstructionsComplete := by
  unfold Obligations.MemoryInstructionsComplete
  rintro s e f _ _ _ _ _ rfl rfl rfl rfl rfl
  refine ⟨fun hal hdata => ⟨fun hown hm => ?word, fun hown hm => ?pair, fun hown => ?wait⟩, fun r n hwait hqueue => ?data,
    fun hal => ⟨fun hown hm => ?store, fun hown hroom => ?post⟩, fun p rest hqueue hgen => ?deliver, fun hslot => ?publish,
    fun w hw => ?receive, ?capture, ?trip, ?swap, ?write⟩
  case word => exact Runs.of_issue rfl ((Dev.loadOp_own hal hdata hown).trans (by rw [Dev.when_not (by rw [hm]; rfl)]))
  case pair => exact Runs.of_issue rfl ((Dev.loadOp_own hal hdata hown).trans (by rw [Dev.when_of (by rw [hm]; rfl)]))
  case wait => exact Runs.of_issue rfl (Dev.loadOp_waits hal hown)
  case data =>
    refine Goes.congr rfl ?_
    simp only [hwait, hqueue]
  case store =>
    refine Runs.of_issue rfl ((Dev.storeOp_own hal hown).trans ?_)
    rw [Dev.storeOwn, if_neg (by omega)]
  case post => exact Runs.of_issue rfl (Dev.storeOp_joins hal hown hroom)
  case deliver =>
    refine Goes.congr rfl ?_
    simp only [hqueue, Dev.deliverPosted, hgen]
  case publish => exact Runs.of_issue rfl (congrArg (Dev.advance e.val) (if_pos hslot))
  case receive => exact Runs.of_issue rfl (by rw [hw])
  case capture | trip | swap => exact Runs.of_issue rfl rfl
  case write =>
    rintro unit inst index active rfl rfl rfl rfl hok
    exact Runs.of_issue rfl (congrArg (Dev.advance e.val) (if_pos hok))

/-! ### Control-law units (R222, R228, R238 to R251) -/

/-- An invocation of a unit that exists, its coefficients read without an error. -/
theorem RunsUnit.of_invoke {s : State} {e unit modes mode outs : Nat} {f : EngFields} {c : Instr} {d : Dev} {act : Nat → Dev → Dev}
    (hexec : exec c s = s.onDev (Dev.invoke e unit modes mode outs f act))
    (hact : (act (fld 3 0 f.imm) (s.dev.begun f)).advance e = d) : RunsUnit s e unit modes mode outs f c d := by
  intro hdata hinst
  obtain ⟨i, hi, hlt⟩ := (Option.any_eq_true _ _).mp hinst
  refine Runs.of_issue hexec ?_
  have hcorrected : (s.dev.begun f).when (Ecc.ok == .corrected) (Dev.eccCorrected e) = s.dev.begun f := Dev.when_not (by decide)
  have hcount : ¬ i.1 ≤ fld 3 0 f.imm := Nat.not_le.mpr (of_decide_eq_true hlt)
  have hnot : ¬(Ecc.ok = Ecc.uncorrectable ∧ coefValid unit (fld 3 0 f.imm) f.bad.toNat = true) := fun h => Ecc.noConfusion h.1
  simp only [hi, hcount, hdata, hnot, hcorrected, if_false, hact]

/-- The one flag of a limit. -/
theorem flagsOf_single (x : Bool) (i : Nat) : flagsOf [(x, i)] = if x then [i] else [] := by
  cases x with
  | true => rfl
  | false => rfl

/-- Settles O10: each instruction issues, and its unit computes as its equations say. -/
theorem unitInstructionsComplete : Obligations.UnitInstructionsComplete := by
  unfold Obligations.UnitInstructionsComplete
  rintro s e f _ _ _ _ _ _ rfl rfl rfl rfl rfl rfl
  refine ⟨?sincos, ?atan2, ?clarke, ?park, ?inversePark, ?inverseClarke, ?pi, ?pr, ?biq, ?limScalar, ?limCircle, ?pll, fun ha hb => ?obs,
    ?svpwm, ?sinusoidal, ?threeLevel, ?discontinuous, ?dtc, fun hb => ?vsm⟩
  case sincos | atan2 | clarke | park | inversePark | inverseClarke => exact Runs.of_issue rfl rfl
  case pi | pr | biq | limScalar | pll | svpwm | sinusoidal | threeLevel | discontinuous | dtc => exact RunsUnit.of_invoke rfl rfl
  case limCircle =>
    rintro _ _ _ _ rfl hmode rfl rfl rfl
    refine RunsUnit.of_invoke rfl (congrArg (Dev.advance e.val) ?_)
    simp only [hmode, if_true, flagsOf_single]
    rfl
  case obs =>
    refine RunsUnit.of_invoke rfl (congrArg (Dev.advance e.val) ?_)
    simp only [Dev.vNext_eq ha, Dev.vNext_eq hb]
  case vsm =>
    refine RunsUnit.of_invoke rfl (congrArg (Dev.advance e.val) ?_)
    simp only [Dev.vNext_eq hb]

end Sys2Proof.Machine

/-! SUPPORT. Completion of frames, of the engine commands and of the coefficient window (R194 to R231). -/

namespace Sys2Proof.Machine

section

variable {ι : Type} {key : ι → Nat} {v : Word}

/-- No write to a family of registers without keyed fields is keyed. -/
theorem keyedWrite_none (h : ∀ i, (regAt (key i)).elim 0 (fun r => r.2.2.1.keyed) = 0) (i : ι) : keyedWrite (key i) v = false :=
  keyedWrite_false (h i)

/-- The same of a family with two numbers. -/
theorem keyedWrite_none_pair {κ : Type} {key : ι → κ → Nat} (h : ∀ i j, (regAt (key i j)).elim 0 (fun r => r.2.2.1.keyed) = 0) (i : ι)
    (j : κ) : keyedWrite (key i j) v = false :=
  keyedWrite_false (h i j)

/-- Each write to a family of registers with a keyed field that software writes is keyed. -/
theorem keyedWrite_every (h : ∀ i, (regAt (key i)).any (fun r => r.2.2.1.keyed &&& r.2.2.1.rw != 0) = true) (i : ι) :
    keyedWrite (key i) v = true := by
  obtain ⟨⟨k, n, r, j⟩, hat, hrow⟩ := (Option.any_eq_true _ _).mp (h i)
  simp only [keyedWrite, hat, hrow, Bool.true_or]

end

/-- A frame that has not passed its deadline completes as it stands. -/
theorem goes_frameComplete {e : Fin 12} {s : State} (hdone : s.dev.sectionDone e.val = true) (hinit : (s.dev.engine e.val).inInit = false)
    (hdue : s.dev.now ≤ (s.dev.engine e.val).deadline) : Goes (.frameComplete e) s (s.dev.frameDone e.val) := by
  have hlate : (decide ((s.dev.engine e.val).deadline < s.dev.now) && !(s.dev.engine e.val).overran) = false := by
    rw [decide_eq_false (Nat.not_lt.mpr hdue), Bool.false_and]
  refine Goes.congr rfl ?_
  simp only [hdone, hinit, Bool.not_true, Bool.false_eq_true, if_false, Dev.when_not hlate, Dev.when_of]

/-- STOP in a state that takes it, no owned group barring it. -/
theorem Dev.engineStop_taken {e : Nat} {d : Dev} (hbar : twelve.any (fun g => natBit g (d.owned e) && d.barsStop g) = false)
    (h0 : d.estate e ≠ 0) (h4 : d.estate e ≠ 4) : d.engineStop e =
      if d.estate e = 1 ∨ d.estate e = 3 then (d.setEstate e 4).dropEvents e else d.enterHalted e := by
  simp only [Dev.engineStop, h0, h4, hbar, Bool.false_eq_true, or_self, if_false]

/-- A write of CW_DATA while the window is open. -/
theorem Dev.cwDataOp_open {m : Master} {e : Nat} {w : Word} {d : Dev}
    (hopen : (d.bit (Reg.LE_CLU_CTRL e) 0 && !(d.estate e == 0 || d.estate e == 5)) = false) : d.cwDataOp m e w =
      let a := d.reg (Reg.LE_CW_ADDR e)
      let unit := Machine.fld 31 28 a
      let inst := Machine.fld 23 16 a
      let index := Machine.fld 15 8 a
      (if d.coefWriteOk e unit inst index (bitAt 0 a) && !d.cyc.cwr.contains (e, d.coefPlace e unit inst index (bitAt 0 a)) then
        d.coefWrite e unit inst index (bitAt 0 a) w
      else (d.discard m (Reg.LE_CW_DATA e)).cluFlag e 12).cwInc e := by
  simp only [Dev.cwDataOp, hopen, Bool.false_eq_true, if_false]

/-- Settles O11: each command of frames and engines takes its branch. -/
theorem frameCommandsComplete : Obligations.FrameCommandsComplete := by
  unfold Obligations.FrameCommandsComplete
  rintro s m e v _ _ _ _ _ _ same rfl rfl rfl rfl rfl rfl
  refine ⟨fun hidle htrig hat hheld => ?start, fun hdone hinit => ?init, fun hdone hinit hdue => goes_frameComplete hdone hinit hdue,
    fun hrun hover hdue => ?deadline, fun h hidle hen => ?engineStart, fun h hbar => ⟨fun hs => ?stopIdle, fun hs => ?stopRun⟩,
    fun h hwait hpost => ?post, fun h hopen => ?window, fun hheld hread hvalid => ?read, fun h => ?bank⟩
  case start => exact Goes.congr rfl (Dev.when_of (by simpa [hidle, hat, hheld] using htrig))
  case init =>
    refine Goes.congr rfl ?_
    simp only [hdone, hinit, Bool.not_true, Bool.false_eq_true, if_false, if_true]
  case deadline => exact Goes.congr rfl (Dev.when_of (by simp [hrun, hover, hdue]))
  case engineStart =>
    exact Goes.congr rfl ((Dev.accessWrite_reaches h (keyedWrite_none (key := fun e : Fin 12 => Reg.LE_CMD e.val) (by decide) e)).trans (if_pos ⟨hidle, hen⟩))
  case stopIdle =>
    refine Goes.congr rfl ((Dev.accessWrite_reaches h (keyedWrite_none (key := fun e : Fin 12 => Reg.LE_CMD e.val) (by decide) e)).trans ?_)
    rw [Dev.engineStop_taken hbar (by omega) (by omega), if_neg (by omega)]
  case stopRun =>
    refine Goes.congr rfl ((Dev.accessWrite_reaches h (keyedWrite_none (key := fun e : Fin 12 => Reg.LE_CMD e.val) (by decide) e)).trans ?_)
    rw [Dev.engineStop_taken hbar (by omega) (by omega), if_pos hs]
  case post =>
    refine Goes.congr rfl ((Dev.accessWrite_reaches h (keyedWrite_none (key := fun e : Fin 12 => Reg.LE_MBX_POST e.val) (by decide) e)).trans ?_)
    simp only [Dev.leMbxPost, hwait, hpost, Bool.false_eq_true, if_false, if_true]
  case window =>
    rintro b rfl hok
    have hop : ∀ r, Dev.cwDataOp m e.val v (s.dev.enterCycle m same) = r → Goes (.cwDataWrite m e v same) s r := fun r hr =>
      Goes.congr rfl ((Dev.accessWrite_reaches (Dev.reaches_enterCycle h) (keyedWrite_none (key := fun e : Fin 12 => Reg.LE_CW_DATA e.val) (by decide) e)).trans hr)
    have hwindow : ((s.dev.enterCycle m same).bit (Reg.LE_CLU_CTRL e.val) 0 &&
        !((s.dev.enterCycle m same).estate e.val == 0 || (s.dev.enterCycle m same).estate e.val == 5)) = false := by
      simp only [Dev.bit, Dev.estate, Dev.fld, Dev.reg_enterCycle] at hopen ⊢
      rcases hopen with hoff | hidle | hfault
      · rw [hoff, Bool.false_and]
      · rw [hidle, beq_self_eq_true, Bool.true_or, Bool.not_true, Bool.and_false]
      · rw [hfault, beq_self_eq_true, Bool.or_true, Bool.not_true, Bool.and_false]
    refine ⟨fun hfree => hop _ ?_, fun htaken => hop _ ?_⟩
    · simp only [Dev.cwDataOp_open hwindow, Dev.reg_enterCycle, hok, hfree, List.contains_eq_mem, decide_false, Bool.not_false,
        Bool.and_self, if_true]
    · simp only [Dev.cwDataOp_open hwindow, Dev.reg_enterCycle, hok, htaken, List.contains_eq_mem, decide_true, Bool.not_true,
        Bool.and_false, Bool.false_eq_true, if_false]
  case read =>
    refine Goes.congr rfl ?_
    simp only [hheld, hread, hvalid, Dev.cwReadOp, Bool.false_eq_true, Bool.not_true, if_false]
  case bank => exact Goes.congr rfl (Dev.accessWrite_reaches h (keyedWrite_none (key := fun e : Fin 12 => Reg.LE_BANK_REQ e.val) (by decide) e))

end Sys2Proof.Machine

/-! SUPPORT. Completion of reloads, of the shadows and of the edges (R264 to R289, R323 to R328). -/

namespace Sys2Proof.Machine

/-! ### A shadow that is late (R277 to R279) -/

/-- LATE outside the tick of a reload that has passed, no reload to come. -/
theorem Dev.noteLate_idle {g : Nat} {d : Dev} (hpast : (d.group g).running = false ∨ (d.group g).perStart ≠ d.now)
    (hnone : d.reloadAt g = none) : d.noteLate g = d := by
  have hthis : ((d.group g).running && (d.group g).perStart == d.now) = false := by
    rw [Bool.and_eq_false_iff, beq_eq_false_iff_ne]
    exact hpast
  simp only [Dev.noteLate, hthis, hnone, Bool.false_eq_true, if_false]

/-- LATE outside the tick of a reload that has passed, one to come. -/
theorem Dev.noteLate_running {g r : Nat} {d : Dev} (hpast : (d.group g).running = false ∨ (d.group g).perStart ≠ d.now)
    (hsome : d.reloadAt g = some r) : d.noteLate g = if d.now + 8 < r then d else
      (d.raise (0x20 + g) 0).setReg (Reg.PG_LATE g) (bitMask 31 ||| place 30 30 (b2n (decide (r ≤ d.now + 1))) |||
        place 15 0 (d.fld (Reg.PG_WIN_CNT g) 15 0 + b2n (d.group g).winDue + (if r ≤ d.now + 1 then 2 else 1))) := by
  have hthis : ((d.group g).running && (d.group g).perStart == d.now) = false := by
    rw [Bool.and_eq_false_iff, beq_eq_false_iff_ne]
    exact hpast
  simp only [Dev.noteLate, hthis, hsome, Bool.false_eq_true, if_false]
  by_cases hnext : r ≤ d.now + 1
  · simp only [hnext, if_true, decide_true]
  · simp only [hnext, if_false, decide_false]

/-- A write of a duty shadow by a master other than an engine. -/
theorem Dev.dutyOp_direct {m : Master} {g k : Nat} {v : Word} {d : Dev} (hm : ∀ e, m ≠ .le e) : d.dutyOp m g k v =
    (if vget none (d.group g).engAt k = some d.now then d else d.setReg (Reg.PG_DUTY_SH g k) (v &&& fieldMask 24 0)).noteLate g := by
  cases m with
  | le e => exact absurd rfl (hm e)
  | triad | medlar | host | loader | crc n | jtag =>
    simp only [Dev.dutyOp, Bool.not_false, Bool.true_and, beq_iff_eq, Dev.when_not]

/-- A write of FORCE_SH by a master other than an engine. -/
theorem Dev.forceShWrite_direct {m : Master} {g : Nat} {v : Word} {op : Dev → Dev} {d : Dev} (hm : ∀ e, m ≠ .le e) :
    d.forceShWrite m g v op = d.accessWrite m (Reg.PG_FORCE_SH g) v op := by
  cases m with
  | le e => exact absurd rfl (hm e)
  | triad | medlar | host | loader | crc n | jtag => rfl

/-! ### Edges (R264, R271 to R275) -/

/-- The one edge of a list of one, where it falls into the tick. -/
theorem find_edge {place_ : Nat → Nat} {now x : Nat} (h : place_ x / 32 = now) :
    ([x].map place_).find? (fun u => u / 32 == now) = some (place_ x) := by
  rw [List.map_singleton, List.find?_singleton, if_pos (beq_iff_eq.mpr h)]

/-- A duty command that is off in the period, or on to its end, goes off at no instant inside it. -/
theorem dutyEdges_off {start p : Nat} {iv : Nat × Nat} (h : iv.2 ≤ iv.1 ∨ p ≤ iv.2) : dutyEdges start p iv false = [] := by
  by_cases hnone : iv.2 ≤ iv.1
  · rw [dutyEdges, if_pos hnone]
  · rw [dutyEdges, if_neg hnone, if_neg Bool.false_ne_true, if_pos (h.resolve_left hnone)]

/-- A forced pulse that ends inside the period. -/
theorem Dev.forceEnd_of {g k start p : Nat} {d : Dev} (hon : d.forceOn g k = true) (hpos : 0 < d.fld (Reg.PG_FORCE_WIDTH g) 23 0)
    (hend : d.fld (Reg.PG_FORCE_WIDTH g) 23 0 < p) : d.forceEnd g k start p = [start + d.fld (Reg.PG_FORCE_WIDTH g) 23 0] :=
  if_pos (by rw [hon, decide_eq_true hend, bne_iff_ne.mpr (Nat.pos_iff_ne_zero.mp hpos), Bool.and_self, Bool.and_self])

/-- Settles O12: each command of reloads, shadows and edges takes its branch. -/
theorem reloadAndEdgesComplete : Obligations.ReloadAndEdgesComplete := by
  unfold Obligations.ReloadAndEdgesComplete
  rintro s m g k v _ rfl
  refine ⟨fun hheld hdue hfollow => ?reload, fun hheld hdue hfollow => ?follow, fun hwin hat => ?replace, fun h hm => ?duty,
    fun hrun => ?edge, fun high u hend hmay hat => ?dead, fun h hm hen => ?force, fun e hheld => ?forceEngine, fun hen => ?mask⟩
  case reload | follow =>
    refine Goes.congr rfl ?_
    simp only [hheld, hdue, hfollow, Bool.not_true, Bool.or_self, Bool.false_eq_true, if_false, if_true]
  case replace => exact Goes.congr rfl (Dev.when_of (by simp [hwin, hat]))
  case duty =>
    intro t ht hpast
    have hwrite : ∀ r, t.noteLate g.val = r → Goes (.dutyShadowWrite m g k v) s r := by
      intro r hr
      refine Goes.congr rfl ((Dev.accessWrite_reaches h (keyedWrite_none_pair
        (key := fun (i : Fin 12) (j : Fin 4) => Reg.PG_DUTY_SH i.val j.val) (by decide) g k)).trans ?_)
      rw [Dev.dutyOp_direct hm, ← ht, hr]
    have hnow : t.now = s.dev.now := by rw [ht]; split <;> rfl
    have hgroup : t.group g.val = s.dev.group g.val := by rw [ht]; split <;> rfl
    rw [← hgroup, ← hnow] at hpast
    rw [← hnow]
    refine ⟨fun hnone => hwrite _ (Dev.noteLate_idle hpast hnone), fun r hr => ⟨fun hlate => hwrite _ ?_, fun hlate => hwrite _ ?_⟩⟩
    · rw [Dev.noteLate_running hpast hr, if_pos hlate]
    · rw [Dev.noteLate_running hpast hr, if_neg (Nat.not_lt.mpr hlate)]
  case edge =>
    rintro _ _ _ rfl rfl rfl
    refine ⟨?on, ?off, ?pulse⟩
    case on =>
      rintro _ hpos hzero rfl hat _ rfl
      have hedge := find_edge hat
      constructor <;>
      · intro hforce
        refine Goes.congr rfl ?_
        simp only [hrun, dutyEdges, Nat.not_le.mpr hpos, Nat.pos_iff_ne_zero.mp hzero, if_false, if_true, hedge, Option.isSome_some,
          Option.isNone_none, Bool.and_true, Bool.not_true, Bool.false_eq_true, hforce]
    case off =>
      rintro _ hpos hend rfl hat hfree _ rfl hforce
      have hedge := find_edge hat
      refine Goes.congr rfl ?_
      simp only [hrun, dutyEdges, Dev.forceEnd, hfree, Nat.not_le.mpr hpos, Nat.not_le.mpr hend, if_false, if_true, hedge,
        Option.isSome_some, Bool.false_and, List.map_nil, List.find?_nil,
        Option.isNone_none, Bool.and_true, Bool.not_true, Bool.false_eq_true, hforce]
    case pulse =>
      rintro _ _ rfl hpos hend hon hiv rfl hat _ rfl hforce
      have hedge := find_edge hat
      refine Goes.congr rfl ?_
      simp only [hrun, dutyEdges_off hiv, Dev.forceEnd_of hon hpos hend, hedge, hforce, List.map_nil, List.find?_nil, Option.isSome_none,
        Option.isNone_some, Bool.and_false, Bool.not_true, Bool.false_eq_true, if_false, if_true]
  case dead =>
    refine Goes.congr rfl ?_
    simp only [hend, hmay, hat, beq_self_eq_true, Bool.and_self]
    exact Dev.when_of rfl
  case force =>
    have hpage : Reg.PG_FORCE_SH g.val / 0x1000 = 0x20 + g.val := by unfold Reg.PG_FORCE_SH; omega
    refine Goes.congr rfl ((Dev.forceShWrite_direct hm).trans ?_)
    rw [Dev.accessWrite_takes h (keyedWrite_every (key := fun g : Fin 12 => Reg.PG_FORCE_SH g.val) (by decide) g), hpage, Dev.forceOp,
      if_neg]
    rw [Dev.bit_setKstate (by unfold Reg.PG_FORCE_CFG; omega), hen]
    decide
  case forceEngine => exact Goes.congr rfl (if_neg (by simp [hheld]))
  case mask =>
    rintro w hw
    have hmask : ∀ r, ((s.dev.when (s.dev.fld (Reg.PG_CMASK g.val) 7 0 != w) (Dev.bumpSat (Reg.PG_CMASK_CNT g.val) 15 0)).setFld
        (Reg.PG_CMASK g.val) 7 0 w).settle g.val = r → Goes (.commutationEvent g) s r :=
      fun r hr => Goes.congr rfl ((if_pos hen).trans (by rw [← hr, hw]))
    refine ⟨fun hsame => hmask _ ?_, fun hdiff => hmask _ ?_⟩
    · rw [Dev.when_not (bne_eq_false_iff_eq.mpr hsame)]
    · rw [Dev.when_of (bne_iff_ne.mpr hdiff)]

end Sys2Proof.Machine

/-! SUPPORT. Completion of the commands of groups and of trips (R263, R284 to R295, R304 to R321). -/

namespace Sys2Proof.Machine

/-! ### Start and stop (R284 to R286) -/

/-- STOP, or STOP_NOW, at a group that runs or is TRIPPED. -/
theorem Dev.stopGroup_stops {now : Bool} {g : Nat} {d : Dev} (h : d.gstate g = 1 ∨ d.gstate g = 2 ∨ d.gstate g = 4) :
    d.stopGroup now g = ((((d.modGroup g (fun x => { x with
      stopAtReload := d.gstate g == 2 && !now, clearPending := false, stateSentAt := none, cmdsOffAt := d.now })).when
        (d.gstate g == 4 && !d.latched g) (Dev.setFld (Reg.PG_TRIP_ACT g) 17 16 0)).setGstate g 3).settle g) := if_pos h

/-- STOP, or STOP_NOW, is one operation of the group. -/
theorem goes_stop {s : State} {m : Master} {g : Fin 12} {now : Bool} {c : Instr} (hc : c = if now then .stopNow m g else .stop m g)
    (h : s.dev.Reaches m (Reg.PG_CMD g.val)) : Goes c s (s.dev.stopGroup now g.val) := by
  subst hc
  cases now with
  | false => exact Goes.congr rfl (Dev.accessWrite_reaches h (keyedWrite_groupCmd g _))
  | true => exact Goes.congr rfl (Dev.accessWrite_reaches h (keyedWrite_groupCmd g _))

/-- Settles O13: each command of groups, of the delay line and of the sync chain takes its branch. -/
theorem groupCommandsComplete : Obligations.GroupCommandsComplete := by
  unfold Obligations.GroupCommandsComplete
  rintro s m g v n _ rfl
  refine ⟨fun h hcause => ?start, ?refuse, fun h now c hc => ⟨fun hs => ?stop, fun hs => ?stopTripped, fun hs => ?stopRefused⟩,
    fun h => ?gstart, fun h => ?gstop, fun hs hreload => ⟨fun hlane hoff => ?off, fun t hlane hsent hoff => ?offLane⟩, fun hen => ?lock,
    fun hlock => ⟨fun hlane => ?unlock, fun hlane => ?unlockLane⟩, fun hn hen hmode hrun hstarts => ?first,
    fun hn hen hmode hrun => ?later, fun hn => ?short, fun hmode hrun hlost hloss => ?lost,
    fun p hen hsel hnext hdue => ?pulse⟩
  case start =>
    refine Goes.congr rfl ((Dev.accessWrite_reaches h (keyedWrite_groupCmd g _)).trans ?_)
    have hzero : bitMask 31 ||| place 15 8 0 = bitMask 31 := by decide
    have hcarrier : (s.dev.setReg (Reg.PG_START_RES g.val) (bitMask 31)).fld (Reg.PG_CARRIER g.val) 15 8 =
        s.dev.fld (Reg.PG_CARRIER g.val) 15 8 := by
      rw [Dev.fld, Dev.reg_setReg_ne (by unfold Reg.PG_CARRIER Reg.PG_START_RES; omega), ← Dev.fld]
    simp only [Dev.startGroup, hcause, if_true, hzero, hcarrier]
  case refuse =>
    rintro h _ rfl hcause
    refine Goes.congr rfl ((Dev.accessWrite_reaches h (keyedWrite_groupCmd g _)).trans ?_)
    exact if_neg hcause
  case stop =>
    refine Goes.congr (goes_stop hc h) ?_
    rw [Dev.stopGroup_stops (by omega), Dev.when_not (by rw [beq_eq_false_iff_ne.mpr (by omega), Bool.false_and])]
  case stopTripped =>
    rintro _ rfl
    have hlive : (s.dev.gstate g.val == 2 && !now) = false := by rw [hs]; rfl
    refine ⟨fun hlatch => Goes.congr (goes_stop hc h) ?_, fun hlatch => Goes.congr (goes_stop hc h) ?_⟩
    · rw [Dev.stopGroup_stops (.inr (.inr hs)), hlive, Dev.when_not (by rw [hlatch, Bool.not_true, Bool.and_false])]
    · rw [Dev.stopGroup_stops (.inr (.inr hs)), hlive, Dev.when_of (by rw [hs, hlatch]; rfl)]
  case stopRefused => exact Goes.congr (goes_stop hc h) (if_neg (by omega))
  case gstart | gstop => exact Goes.congr rfl (Dev.accessWrite_reaches h (keyedWrite_false (by decide)))
  case off => exact Goes.congr rfl (Dev.when_of (by simp [Dev.offDue, hs, hreload, hlane, hoff]))
  case offLane =>
    have hdue : t + 16 + 160 ≤ s.dev.now := by omega
    exact Goes.congr rfl (Dev.when_of (by simp [Dev.offDue, hs, hreload, hlane, hsent, hdue]))
  case lock => exact Goes.congr rfl (Dev.when_of hen)
  case unlock => exact Goes.congr rfl ((if_pos hlock).trans (Dev.when_of (by rw [hlane]; rfl)))
  case unlockLane => exact Goes.congr rfl ((if_pos hlock).trans (Dev.when_not (by rw [hlane]; rfl)))
  case first =>
    refine Goes.congr rfl ?_
    have hpass : ¬ (n < 4 ∨ s.dev.groupEn 0 = false ∨ s.dev.syncMode 0 = 0) := by simp [Nat.not_lt.mpr hn, hen, hmode]
    simp only [hpass, hrun, hstarts, List.isEmpty_nil, Bool.not_false, if_false, if_true]
  case later =>
    rintro _ _ rfl rfl
    have hpass : ¬ (n < 4 ∨ s.dev.groupEn 0 = false ∨ s.dev.syncMode 0 = 0) := by simp [Nat.not_lt.mpr hn, hen, hmode]
    exact Goes.congr rfl ((if_neg hpass).trans ((if_neg (by simp [hrun])).trans (if_pos hmode)))
  case short => exact Goes.congr rfl (if_pos (.inl hn))
  case lost => exact Goes.congr rfl (if_pos ⟨hmode, hrun, hlost, hloss⟩)
  case pulse =>
    obtain ⟨x, y⟩ := p
    subst hdue
    exact goes_syncOutPulse hen hsel hnext

/-! ### Trips (R304 to R321) -/

/-- The latch cleared leaves GSTATE. -/
theorem Dev.gstate_clearLatch {g : Nat} {d : Dev} :
    ((d.setBit (Reg.PG_TRIP_STAT g) 31 false).raise (0x20 + g) 18).gstate g = d.gstate g := by
  rw [Dev.gstate, Dev.fld, Dev.reg_raise_of_offset (by unfold Reg.PG_STAT; omega),
    Dev.reg_setBit_ne (by unfold Reg.PG_STAT Reg.PG_TRIP_STAT; omega)]
  rfl

/-- A clear that nothing blocks. -/
theorem Dev.clearGroup_clears {g : Nat} {d : Dev} (h : d.clearBlock g 0 = 0) : d.clearGroup 0 g =
    let t := (d.setBit (Reg.PG_TRIP_STAT g) 31 false).raise (0x20 + g) 18
    if d.gstate g = 4 then t.modGroup g (fun x => { x with clearPending := true, runAt := 32 * t.nextReload g })
    else (t.setFld (Reg.PG_TRIP_ACT g) 17 16 0).settle g := by
  simp only [Dev.clearGroup, h, ne_eq, not_true_eq_false, if_false, Dev.gstate_clearLatch]

/-- Settles O14: each command of trips takes its branch. -/
theorem tripCommandsComplete : Obligations.TripCommandsComplete := by
  unfold Obligations.TripCommandsComplete
  rintro s m g i v n _ rfl
  refine ⟨goes_tripNow, fun h hclear => ⟨fun hs => ?cleared, ?clearPending⟩, ?blocked, fun h => ?gclr, ?input, ?released,
    fun level hn => ?short, ?asc, fun hheld hat => ?sloeAsc⟩
  case cleared =>
    refine Goes.congr rfl ((Dev.accessWrite_reaches h (keyedWrite_groupCmd g _)).trans ?_)
    exact (Dev.clearGroup_clears hclear).trans (if_neg hs)
  case clearPending =>
    rintro hs _ rfl
    refine Goes.congr rfl ((Dev.accessWrite_reaches h (keyedWrite_groupCmd g _)).trans ?_)
    exact (Dev.clearGroup_clears hclear).trans (if_pos hs)
  case blocked =>
    rintro h _ rfl hblock
    exact Goes.congr rfl ((Dev.accessWrite_reaches h (keyedWrite_groupCmd g _)).trans (if_pos hblock))
  case gclr => exact Goes.congr rfl (Dev.accessWrite_reaches h (keyedWrite_false (by decide)))
  case input =>
    rintro hheld hfilter hwas _ rfl
    have hpass : ¬ (s.dev.pageHeld 0x2C = true ∨ n < s.dev.tripFilter i.val) := by simp [hheld, Nat.not_lt.mpr hfilter]
    have hset : s.dev.tripInputSet i.val true =
        ((Dev.putTripIn (s.dev.tripIn ||| BitVec.ofNat 13 (2 ^ i.val)) s.dev).raise 0x2C i.val).tripFromInput i.val := by
      simp only [Dev.tripInputSet, hwas, Bool.not_false, Bool.and_self, if_true]
    refine ⟨_, rfl, fun hall => Goes.congr rfl ?_, fun hone => Goes.congr rfl ?_⟩
    · refine (if_neg hpass).trans ?_
      rw [beq_self_eq_true, hset, Dev.tripFromInput, if_pos hall]
    · refine (if_neg hpass).trans ?_
      rw [beq_self_eq_true, hset, Dev.tripFromInput, if_neg (by omega)]
  case released =>
    rintro hheld hfilter level hlevel
    have hpass : ¬ (s.dev.pageHeld 0x2C = true ∨ n < s.dev.tripFilter i.val) := by simp [hheld, Nat.not_lt.mpr hfilter]
    refine Goes.congr rfl ?_
    simp only [hpass, beq_eq_false_iff_ne.mpr hlevel, Dev.tripInputSet, Bool.false_eq_true, Bool.false_and, if_false]
  case short => exact Goes.congr rfl (if_pos (.inr hn))
  case asc =>
    rintro _ rfl happlied hhold hat
    exact Goes.congr rfl (Dev.when_of (by simp [happlied, hhold, hat]))
  case sloeAsc =>
    refine Goes.congr rfl ?_
    simp only [hheld, hat, beq_self_eq_true, Bool.and_self]
    rfl

end Sys2Proof.Machine

/-! SUPPORT. Completion of what a lane sends and receives (R334 to R366). -/

namespace Sys2Proof.Machine

/-! ### Lanes -/

/-- A lane after its own change. -/
theorem Dev.lane_modLane (n : Fin 12) (f : Lane → Lane) (d : Dev) : (d.modLane n.val f).lane n.val = f (d.lane n.val) := by
  rw [Dev.lane, Dev.modLane_lanes, vget_vmod, if_pos ⟨rfl, n.isLt⟩, Dev.lane]

/-! ### What a lane sends -/

/-- A STATE frame of a lit lane in a free slot. -/
theorem goes_stateFrameSend {s : State} {n : Fin 12} (hlit : s.dev.lstate n.val ≠ 0 ∨ (s.dev.lane n.val).safeTx = true)
    (hfree : s.dev.slotFree n.val false = true) (hidle : s.dev.edgesIdle n.val = true) (hdue : s.dev.stateDue n.val = true) {t : Dev}
    (ht : t = ((s.dev.sendFrame n.val (s.dev.stateFrame n.val)).laneBusy n.val).modLane n.val
      (fun x => { x with stateCycle := some (s.dev.ltick n.val / 1024) })) :
    Goes (.stateFrameSend n) s (t.when (s.dev.stoppedOff n.val && (s.dev.group n.val).stateSentAt.isNone)
      (Dev.modGroup n.val (fun x => { x with stateSentAt := some s.dev.now }))) := by
  have hpowered : (s.dev.lanePowered n.val || (s.dev.lane n.val).safeTx) = true := by
    rcases hlit with hlit | hlit
    · rw [Dev.lanePowered, bne_iff_ne.mpr hlit, Bool.true_or]
    · rw [hlit, Bool.or_true]
  subst ht
  refine Goes.congr rfl ?_
  simp only [hpowered, hfree, hidle, hdue, Bool.not_true, Bool.or_self, Bool.false_eq_true, if_false]
  rfl

/-- Settles O15: each send of a lane takes its branch. -/
theorem laneSendsComplete : Obligations.LaneSendsComplete := by
  unfold Obligations.LaneSendsComplete
  rintro s n _ _ rfl rfl
  refine ⟨fun hlit hfree => ?align, ?edge, fun f rest hleft hevents hfree => ?repeat_, fun hflow hpast => ?deadline,
    fun hlit hfree hidle hdue => ?state, fun hlit hidle hdue => ?measure, fun hmeas hpings hout hat hquiet hcycle hfree hidle => ?ping⟩
  case align =>
    have hpowered : s.dev.lanePowered n.val = true := bne_iff_ne.mpr hlit
    exact Goes.congr rfl (Dev.when_of (by rw [hpowered, hfree]; rfl))
  case edge =>
    rintro _ rfl hevents hpast hfree _ rfl
    have hsome : (s.dev.edgeEvents n.val).isEmpty = false := List.isEmpty_eq_false_iff.mpr hevents
    exact Goes.congr rfl (if_neg (by simp [hfree, hsome, hpast]))
  case repeat_ =>
    refine Goes.congr rfl ?_
    simp only [hleft, hevents, hfree, List.isEmpty_nil, Bool.and_self, if_true]
  case deadline => exact Goes.congr rfl (if_pos ⟨hflow, hpast⟩)
  case state =>
    intro t ht
    refine ⟨fun hs => Goes.congr (goes_stateFrameSend hlit hfree hidle hdue ht) (Dev.when_not ?_), fun hs hreload hsent =>
      Goes.congr (goes_stateFrameSend hlit hfree hidle hdue ht) (Dev.when_of ?_)⟩
    · rw [Dev.stoppedOff, beq_eq_false_iff_ne.mpr hs, Bool.false_and, Bool.false_and]
    · rw [Dev.stoppedOff, hs, hreload, hsent]
      rfl
  case measure =>
    refine Goes.congr rfl (Dev.when_of ?_)
    rcases hdue with hnone | ⟨t, hat, ht⟩
    · simp [hlit, hidle, hnone]
    · simp [hlit, hidle, hat, ht]
  case ping =>
    have hstate : (s.dev.lstate n.val == 4 && decide (2 ≤ s.dev.laneMode n.val)) = false := by
      rcases hquiet with hquiet | hquiet
      · rw [beq_eq_false_iff_ne.mpr hquiet, Bool.false_and]
      · rw [decide_eq_false (Nat.not_le.mpr hquiet), Bool.and_false]
    refine Goes.congr rfl (if_neg ?_)
    rw [hmeas, decide_eq_false (Nat.not_le.mpr hpings), hout, hstate, hcycle, bne_self_eq_false, hfree, hidle]
    cases hping : (s.dev.lane n.val).pingAt with
    | none => exact Bool.false_ne_true
    | some t => simp [hat t hping]

/-! ### What a lane receives -/

/-- The lane after a valid frame. -/
theorem Dev.lane_validUp (n : Fin 12) (d : Dev) : (d.validUp n.val).lane n.val = { d.lane n.val with invalids := 0, rxAt := d.now } :=
  Dev.lane_modLane n _ d

/-- A valid frame leaves link time. -/
theorem Dev.ltime_validUp (n : Fin 12) (d : Dev) : (d.validUp n.val).ltime n.val = d.ltime n.val := by
  rw [Dev.ltime, Dev.lane_validUp]
  rfl

/-- A reply to the ping that is out, in its time. -/
theorem goes_pingReply {s : State} {n : Fin 12} {f : List Byte} {tap : Fin 32} (hlit : s.dev.lstate n.val ≠ 0)
    (htype : frameType f = some 2) (hmeas : (s.dev.lane n.val).measuring = true) (hout : (s.dev.lane n.val).pingOut = true) {t4 : Nat}
    (ht4 : t4 = s.dev.ltime n.val - 512 + tap.val) (hin : ∃ t, (s.dev.lane n.val).pingAt = some t ∧ t4 ≤ 32 * (t + 64))
    (hpid : (nth 0 f 4).toNat = (s.dev.lane n.val).pid) {rtts : List Nat} {t : Dev}
    (hrtts : rtts = (s.dev.lane n.val).rtts ++
      [(t4 + 2 * 2 ^ 24 - natOfBytesBE ((f.drop 1).take 3) - natOfBytesBE ((f.drop 5).take 3)) % 2 ^ 24])
    (ht : t = (s.dev.validUp n.val).modLane n.val (fun x => { x with rtts := rtts, pingOut := false, pid := (x.pid + 1) % 256 })) :
    Goes (.pingReplyReceive n f tap) s (if rtts.length < 8 then t
      else if rtts.foldl max 0 - rtts.foldl min (2 ^ 24) ≤ 8 then
        t.measureAccepted n.val rtts (rtts.foldl max 0 - rtts.foldl min (2 ^ 24))
      else (t.setFld (Reg.FL_MEAS n.val) 23 16 (min (rtts.foldl max 0 - rtts.foldl min (2 ^ 24)) 255)).measureRejected n.val) := by
  obtain ⟨p, hat, hin⟩ := hin
  have hslot : 32 * 16 = 512 := by decide
  have htaken : ¬ (!(s.dev.lane n.val).measuring || !(s.dev.lane n.val).pingOut ||
      !(s.dev.lane n.val).pingAt.any (fun t => decide (t4 ≤ 32 * (t + 64))) || (nth 0 f 4).toNat != (s.dev.lane n.val).pid) = true := by
    simp only [hmeas, hout, hat, hpid, Option.any_some, decide_eq_true hin, bne_self_eq_false, Bool.not_true, Bool.or_self,
      Bool.false_eq_true, not_false_eq_true]
  subst ht
  refine Goes.congr rfl ((if_neg hlit).trans ((if_neg (not_not_intro htype)).trans ?_))
  simp only [Dev.lane_validUp, Dev.ltime_validUp, hslot, ← ht4]
  rw [if_neg htaken, ← hrtts]

/-- A STATE frame that passes its check. -/
theorem goes_upstreamState {s : State} {n : Fin 12} {f : List Byte} (hlit : s.dev.lstate n.val ≠ 0) (htype : frameType f = some 1)
    {b fe : Nat} (hb : b = (nth 0 f 1).toNat) (hfe : fe = b / 32) {t u : Dev}
    (ht : t = (((s.dev.validUp n.val).modLane n.val (fun x => { x with stateRx := some s.dev.now })).setFld (Reg.FL_STAT n.val) 10 8 fe).setFld
      (Reg.FL_ERR_CNT n.val) 31 16 (natOfBytesBE ((f.drop 2).take 2)))
    (hu : u = if b / 4 % 8 = 0 then t else t.raise (0x30 + n.val) 3) :
    Goes (.upstreamStateReceive n f) s (if fe = 4 then u.laneLoss n.val 5
      else if fe = 3 ∧ u.latched n.val = false ∧ u.sloeHolds n.val = false then u.laneLoss n.val 6
      else if u.lstate n.val = 3 ∧ fe = 2 ∧ 2 ≤ (u.lane n.val).owdSent then (u.setFld (Reg.FL_STAT n.val) 2 0 4).raise (0x30 + n.val) 1
      else u) := by
  have hfault : t.when (b / 4 % 8 != 0) (Dev.raise (0x30 + n.val) 3) = u := by
    rw [hu]
    by_cases h : b / 4 % 8 = 0
    · rw [if_pos h, Dev.when_not (bne_eq_false_iff_eq.mpr h)]
    · rw [if_neg h, Dev.when_of (bne_iff_ne.mpr h)]
  subst hfe hb ht
  rw [← hfault]
  exact Goes.congr rfl ((if_neg hlit).trans (if_neg (not_not_intro htype)))

/-- Settles O16: each reception of a lane takes its branch. -/
theorem laneReceivesComplete : Obligations.LaneReceivesComplete := by
  unfold Obligations.LaneReceivesComplete
  rintro s n f _ _ rfl rfl hlit
  refine ⟨?reply, fun t hmeas hout hat hlate => ?timeout, fun hlen hcomma hcrc => ?align, fun htype => ?state, fun htype => ?tele,
    ⟨Goes.congr rfl rfl, Goes.congr rfl rfl⟩, fun hlate => ?silence, fun t hat hlate => ?stateLate, ?missed⟩
  case reply =>
    intro tap t4 ht4 htype hmeas hout hin hpid rtts t hrtts ht
    have hgoes := goes_pingReply hlit htype hmeas hout ht4 hin hpid hrtts ht
    refine ⟨fun hlen => Goes.congr hgoes (if_pos hlen), ?_⟩
    rintro _ hlen rfl
    refine ⟨fun hw => Goes.congr hgoes ?_, fun hw => Goes.congr hgoes ?_⟩
    · rw [if_neg (Nat.not_lt.mpr hlen), if_pos hw]
    · rw [if_neg (Nat.not_lt.mpr hlen), if_neg (Nat.not_le.mpr hw)]
  case timeout =>
    have hdue : t + 64 + 16 < s.dev.ltick n.val := by omega
    exact Goes.congr rfl (if_pos (by simp [hmeas, hout, hat, hdue]))
  case align =>
    have hgood : ¬ (f.length ≠ 10 ∨ nth 0 f 0 ≠ commaByte ∨ crcByte8 ((f.drop 1).take 8) ≠ nth 0 f 9) := by
      rintro (h | h | h)
      · exact h hlen
      · exact h hcomma
      · exact h hcrc
    refine ⟨_, rfl, fun hstay => Goes.congr rfl ?_, fun htrain hfour => Goes.congr rfl ?_⟩
    · refine (if_neg hlit).trans ((if_neg hgood).trans (if_neg ?_))
      rintro ⟨htrain, hfour⟩
      exact hstay.elim (fun h => h htrain) (fun h => Nat.not_le.mpr h hfour)
    · exact (if_neg hlit).trans ((if_neg hgood).trans (if_pos ⟨htrain, hfour⟩))
  case state =>
    intro b fe hb hfe
    refine ⟨_, _, rfl, rfl, ?_⟩
    have hgoes := goes_upstreamState hlit htype hb hfe rfl rfl
    generalize (if b / 4 % 8 = 0 then _ else _ : Dev) = u at hgoes ⊢
    refine ⟨fun hloss => Goes.congr hgoes (if_pos hloss), fun htrip hlatch hhold => Goes.congr hgoes ?_,
      fun hrun hsync hsent => Goes.congr hgoes ?_, fun hstay => Goes.congr hgoes ?_⟩
    · rw [if_neg (by omega), if_pos ⟨htrip, hlatch, hhold⟩]
    · rw [if_neg (by omega), if_neg (by omega), if_pos ⟨hsync, hrun, hsent⟩]
    · rw [if_neg (by omega), if_neg (fun h => ?_), if_neg (by omega)]
      obtain ⟨htrip, hlatch, hhold⟩ := h
      simp [htrip, hlatch, hhold] at hstay
  case tele =>
    rintro _ _ rfl rfl
    refine ⟨_, _, _, _, _, _, rfl, rfl, rfl, rfl, rfl, rfl, fun hquiet => Goes.congr rfl ?_, fun hfault hlane => Goes.congr rfl ?_⟩
    · refine (if_neg hlit).trans ((if_neg (not_not_intro htype)).trans (Dev.when_not ?_))
      rcases hquiet with ⟨h3, h4⟩ | hlane
      · rw [h3, h4, Bool.or_self, Bool.and_false]
      · rw [hlane, Bool.false_and]
    · refine (if_neg hlit).trans ((if_neg (not_not_intro htype)).trans (Dev.when_of ?_))
      rw [hlane, Bool.true_and, Bool.or_eq_true]
      exact hfault
  case silence => exact Goes.congr rfl (Dev.when_of (decide_eq_true hlate))
  case stateLate => exact Goes.congr rfl (Dev.when_of (by rw [hat]; exact decide_eq_true hlate))
  case missed =>
    rintro t _ hat hlate rfl
    have hcount : ((s.dev.modLane n.val (fun x => { x with
        missed := x.missed + 1, aligned := 0, alignRx := some (t + 1024) })).lane n.val).missed = (s.dev.lane n.val).missed + 1 := by
      rw [Dev.lane_modLane]
    refine ⟨fun hfirst => Goes.congr rfl ?_, fun hsecond => Goes.congr rfl ?_⟩
    · simp only [hat, hlate, if_true]
      exact Dev.when_not (decide_eq_false (by omega))
    · simp only [hat, hlate, if_true]
      exact Dev.when_of (decide_eq_true (by omega))

end Sys2Proof.Machine

/-! SUPPORT. Completion of conversions, of calibration, of the sigma-delta channels and of the comparators (R369 to R408). -/

namespace Sys2Proof.Machine

/-! ### Conversions (R373 to R398) -/

/-- A conversion of a calibration step, at its instant, with less than 4096 values taken. -/
theorem Dev.calSample_at {c j : Nat} {r : CalStep} {code : Int} {d : Dev} (hn : r.n < 4096) (hat : r.start + 8 + 40 * j = d.now)
    (hmux : d.muxError c r.input = false) : d.calSample c r code =
      let t := d.bumpWrap (Reg.AC_CONV_CNT c) 31 0
      if t.refReady (c / 12) = false then t.refMissing c
      else if t.endCode r.input (t.codeOf r.input code) = true then t.calEnd.calFail 6
      else Dev.putCal (some { r with n := r.n + 1, sum := r.sum + 256 * t.codeOf r.input code }) t := by
  have hdue : ¬ (d.now < r.start + 8 ∨ (d.now - r.start - 8) % 40 ≠ 0 ∨ 4096 ≤ r.n) := by omega
  simp only [Dev.calSample, hdue, hmux, Bool.false_eq_true, if_false, Bool.not_eq_true', Dev.calTake, decide_eq_true hn, Dev.when_of]

/-- Settles O17: each command of conversions takes its branch. -/
theorem conversionCommandsComplete : Obligations.ConversionCommandsComplete := by
  unfold Obligations.ConversionCommandsComplete
  rintro s c _ code rfl
  refine ⟨fun i hfire t ht => ⟨fun hcal hpend => ⟨fun hrun => ?start, fun hrun => ?pend⟩, fun hbusy => ?drop⟩, ?grid,
    fun x hlive hcal hfind => ?sample, ?calSample, ?result, fun h hen hheld hdue => ?ready, fun h hready => ?refDrop, ?trim⟩
  case start =>
    subst ht
    refine Goes.congr rfl ((Dev.when_of hfire).trans ?_)
    simp only [Dev.trigger, hcal, hpend, hrun, Bool.false_eq_true, if_false]
  case pend =>
    subst ht
    refine Goes.congr rfl ((Dev.when_of hfire).trans ?_)
    simp only [Dev.trigger, hcal, hpend, hrun, Bool.false_eq_true, if_false, if_true]
  case drop =>
    subst ht
    refine Goes.congr rfl ((Dev.when_of hfire).trans ?_)
    rw [Dev.trigger]
    rcases hbusy with hcal | hpend
    · exact if_pos hcal
    · rw [if_pos hpend, ite_self]
      rfl
  case grid =>
    rintro _ _ hlive hmode hcal hgrid rfl rfl hnew
    exact Goes.congr rfl (Dev.when_of (by rw [hlive, bne_iff_ne.mpr hmode, hcal, hgrid, hnew]; rfl))
  case sample =>
    have hdue : s.dev.sampleDue c.val code =
        (s.dev.modConv c.val (fun v => { v with due := v.due.filter (fun y => decide (s.dev.now < y.at_)) })).sampleSlot c.val x code := by
      rw [Dev.sampleDue, hfind]
    refine Goes.congr rfl ((if_neg (by simp [hlive])).trans ?_)
    cases hstep : s.dev.cal with
    | none => exact hdue
    | some r => exact (if_neg (by simp [hcal])).trans hdue
  case calSample =>
    rintro j _ r hlive hcal hstep - hn rfl hat hmux _ _ rfl rfl
    have hgoes : Goes (.conversionSample c code) s (s.dev.calSample c.val r code) := by
      refine Goes.congr rfl ((if_neg (by simp [hlive])).trans ?_)
      rw [hstep]
      exact if_pos hcal
    rw [Dev.calSample_at hn hat hmux] at hgoes
    refine ⟨fun href => Goes.congr hgoes (if_pos href), fun href hend => Goes.congr hgoes ?_, fun href hend => Goes.congr hgoes ?_⟩
    · exact (if_neg (by simp [href])).trans (if_pos hend)
    · exact (if_neg (by simp [href])).trans (if_neg (by simp [hend]))
  case result =>
    rintro r hfind _ _ rfl rfl
    refine Goes.congr rfl ?_
    simp only [hfind]
    rfl
  case ready => exact Goes.congr rfl (if_pos (by rw [hen, hheld, decide_eq_true hdue]; rfl))
  case refDrop => exact Goes.congr rfl (if_neg (by simp [hready]))
  case trim => exact Goes.congr rfl rfl

/-! ### Calibration, channels and comparators (R393 to R408) -/

/-- A command of CAL_CMD, by its code. -/
theorem Dev.calOp_code {code : Nat} {v : Word} {d : Dev} (h1 : 1 ≤ code) (h4 : code ≤ 4) : d.calOp (put 2 0 code v) =
    let err := d.calError code (Machine.fld 22 16 v) (Machine.fld 12 8 v)
    let t := d.setFld Reg.ADCSYS_CAL_STAT 31 24 0
    if err ≠ 0 then d.calFail err
    else if code = 3 then t.calCalc (Machine.fld 22 16 v)
    else if code = 4 then (if t.cal.isSome then t.calEnd.calFail 9 else t)
    else t.calStart (code == 2) (Machine.fld 22 16 v) (Machine.fld 12 8 v) := by
  have hcode : Machine.fld 2 0 (put 2 0 code v) = code := by
    rw [fld_put_same (by decide) (by decide)]
    exact Nat.mod_eq_of_lt (by omega)
  have hinput : Machine.fld 22 16 (put 2 0 code v) = Machine.fld 22 16 v := fld_put_disjoint (by decide) (by decide) (by decide) v
  have hconv : Machine.fld 12 8 (put 2 0 code v) = Machine.fld 12 8 v := fld_put_disjoint (by decide) (by decide) (by decide) v
  have hknown : ¬ (code = 0 ∨ 4 < code) := by omega
  simp only [Dev.calOp, hcode, hinput, hconv, hknown, if_false]

/-- The levels of a channel's sampling instants, as many as there were, the last of them now. -/
theorem Dev.sdTake_bits {c j : Nat} {bits : List Bool} {d : Dev} (hon : d.sdOn c = true) (hclock : d.sdClocked c = true) (hbits : bits ≠ [])
    (hj : j = d.sdIndex c (d.sdChan c).fromT) (hlen : bits.length = d.sdIndex c (d.now + 1) - j)
    (hlast : d.sdEdge c (j + bits.length - 1) + d.sdDelay c = d.now) :
    d.sdTake c bits = (Dev.sdBits c j bits d).modSd c (fun x => { x with fromT := d.now + 1 }) := by
  have hsome : bits.isEmpty = false := List.isEmpty_eq_false_iff.mpr hbits
  simp only [Dev.sdTake, ← hj, ← hlen, hon, hclock, hsome, hlast, bne_self_eq_false, Bool.not_true, Bool.or_self, Bool.false_eq_true,
    if_false]

/-- Settles O18: each command of calibration, of the channels and of the comparators takes its branch. -/
theorem calibrationAndFiltersComplete : Obligations.CalibrationAndFiltersComplete := by
  unfold Obligations.CalibrationAndFiltersComplete
  rintro s m v _ _ _ rfl rfl rfl
  have hop : ∀ code, s.dev.Reaches m Reg.ADCSYS_CAL_CMD → s.dev.accessWrite m Reg.ADCSYS_CAL_CMD (put 2 0 code v)
      (Dev.calOp (put 2 0 code v)) = s.dev.calOp (put 2 0 code v) :=
    fun code h => Dev.accessWrite_reaches h (keyedWrite_false (by decide))
  refine ⟨fun h herr => ?zero, fun h herr => ?full, fun h herr => ?calcSpan, fun h herr hsome => ?abort,
    fun h e he => ⟨fun herr => ?zeroFails, fun herr => ?fullFails, fun herr => ?calcFails, fun herr => ?abortFails⟩,
    fun x hx hn => ?done, ?bits, fun j x => Goes.congr rfl rfl, fun j => Goes.congr rfl rfl⟩
  case zero =>
    refine Goes.congr rfl ((hop 1 h).trans ((Dev.calOp_code (by decide) (by decide)).trans ?_))
    rw [herr]
    rfl
  case full =>
    refine Goes.congr rfl ((hop 2 h).trans ((Dev.calOp_code (by decide) (by decide)).trans ?_))
    rw [herr]
    rfl
  case calcSpan =>
    refine Goes.congr rfl ((hop 3 h).trans ((Dev.calOp_code (by decide) (by decide)).trans ?_))
    rw [herr]
    rfl
  case abort =>
    refine Goes.congr rfl ((hop 4 h).trans ((Dev.calOp_code (by decide) (by decide)).trans ?_))
    rw [herr]
    exact if_pos hsome
  case zeroFails =>
    subst herr
    exact Goes.congr rfl ((hop 1 h).trans ((Dev.calOp_code (by decide) (by decide)).trans (if_pos he)))
  case fullFails =>
    subst herr
    exact Goes.congr rfl ((hop 2 h).trans ((Dev.calOp_code (by decide) (by decide)).trans (if_pos he)))
  case calcFails =>
    subst herr
    exact Goes.congr rfl ((hop 3 h).trans ((Dev.calOp_code (by decide) (by decide)).trans (if_pos he)))
  case abortFails =>
    subst herr
    exact Goes.congr rfl ((hop 4 h).trans ((Dev.calOp_code (by decide) (by decide)).trans (if_pos he)))
  case done =>
    refine Goes.congr rfl ?_
    simp only [hx, Nat.not_lt.mpr hn, if_false]
  case bits =>
    rintro c bits j hon hclock hbits hj hlen hlast t ht
    have htake : s.dev.sdTake c.val bits = t := (Dev.sdTake_bits hon hclock hbits hj hlen hlast).trans ht.symm
    refine ⟨fun hphase => Goes.congr rfl ?_, fun hown => Goes.congr rfl ?_, fun hfault => Goes.congr rfl ?_⟩
    · simp only [htake, hphase, if_true]
    · simp only [htake, bne_iff_ne.mpr hown, if_true]
    · simp only [htake, bne_iff_ne.mpr hfault, if_true]

end Sys2Proof.Machine

/-! SUPPORT. Completion of position feedback (R419 to R449): the decoders, the speed units, the emulator, the compare units and the
serial sensors. -/

namespace Sys2Proof.Machine

/-! ### The incremental decoder (R421 to R425) -/

/-- Levels that have not changed make no edge. -/
theorem quadStep_same (a b : Bool) : quadStep a b a b = none := by
  rw [quadStep, beq_self_eq_true, beq_self_eq_true, if_pos (beq_self_eq_true true)]

/-- A decoder that works, with levels that have not changed. -/
theorem Dev.abzLevels_same {n : Nat} {a b : Bool} {d : Dev} (hunit : d.pfUnit n (Reg.PF_ABZ_CFG n) = true) (ha : (d.pf n).a = a)
    (hb : (d.pf n).b = b) : d.abzLevels n a b = (none, d.modPf n (fun p => { p with a := a, b := b })) := by
  have hunit' : (d.modPf n (fun p => { p with a := a, b := b })).pfUnit n (Reg.PF_ABZ_CFG n) = true := hunit
  simp only [Dev.abzLevels, hunit', ha, hb, quadStep_same, bne_self_eq_false, Bool.and_self, Bool.not_true, Bool.false_eq_true, if_false,
    Option.map_none]

/-- An index without an edge, its levels not gated. -/
theorem goes_index {s : State} {n : Fin 8} {a b : Bool} {ns : Nat} {u t : Dev} (hu : u = s.dev.sloeLevels n.val a b ns)
    (hfilter : u.filtered (Reg.PAD_GRP n.val) ns = true) (ha : (u.pf n.val).a = a) (hb : (u.pf n.val).b = b)
    (hunit : u.pfUnit n.val (Reg.PF_ABZ_CFG n.val) = true) (hgate : u.bit (Reg.PF_ABZ_CFG n.val) 27 = false)
    (hhome : u.fld (Reg.PF_ABZ_CFG n.val) 29 28 ≠ 2)
    (ht : t = (u.modPf n.val (fun x => { x with a := a, b := b })).raise (0x68 + n.val) 11) :
    Goes (.index n a b ns) s (Dev.emuFollow n.val ((t.when (u.fld (Reg.PF_ABZ_CFG n.val) 29 28 != 0)
      (Dev.setReg (Reg.PF_ZLATCH n.val) (word (u.reg (Reg.PF_POS n.val)).toNat))).when (u.fld (Reg.PF_ABZ_CFG n.val) 29 28 == 3)
        (fun x => x.setReg (Reg.PF_POS n.val) (word (x.fld (Reg.PF_ZPOS n.val) 23 0))))) := by
  have hlevels := Dev.abzLevels_same hunit ha hb
  have hgate' : bitAt 27 (u.reg (Reg.PF_ABZ_CFG n.val)) = false := hgate
  have hhome' : (fld 29 28 (u.reg (Reg.PF_ABZ_CFG n.val)) == 2) = false := beq_eq_false_iff_ne.mpr hhome
  subst ht
  refine Goes.congr rfl ?_
  simp only [← hu, hfilter, hlevels, hunit, hgate', hhome', Bool.not_true, Bool.not_false, Bool.true_or, Bool.true_and, Bool.and_self,
    Bool.false_and, Bool.or_false, Bool.false_eq_true, if_false]
  rfl

/-- Settles O19: each command of the position interfaces takes its branch. -/
theorem positionCommandsComplete : Obligations.PositionCommandsComplete := by
  unfold Obligations.PositionCommandsComplete
  rintro s m n a b ns v _ _ rfl rfl
  refine ⟨fun u hu hfilter => ⟨fun fwd hedge => ?edge, fun hunit ha hb => ?both⟩, fun u hu hfilter => ⟨?dropped, ?indexDropped⟩,
    fun u mode hu hfilter ha hb hunit hgate hmode => ?index, fun h => ?home, fun code u hu hcode hfilter hunit => ?hall,
    fun hunit hend => ?window, fun hunit hstate hstill => ?standstill, fun hunit hvalid hdue => ?emulator, fun h => ?compare,
    fun hpulse hend => ?pulse⟩
  case edge =>
    have hfilter' : s.dev.filtered (Reg.PAD_GRP n.val) ns = true := by
      rw [← (s.dev.sameDecoders_sloeLevels n.val a b ns).filtered, ← hu, hfilter]
    refine ⟨_, _, _, rfl, rfl, rfl, ?_⟩
    exact Goes.congr (goes_abzEdge hfilter' (by rw [← hu])) (by rw [hedge]; rfl)
  case both =>
    have hfilter' : s.dev.filtered (Reg.PAD_GRP n.val) ns = true := by
      rw [← (s.dev.sameDecoders_sloeLevels n.val a b ns).filtered, ← hu, hfilter]
    exact Goes.congr (goes_abzEdge hfilter' (by rw [← hu, Dev.abzLevels_both hunit (by simp [ha]) (by simp [hb])])) rfl
  case dropped =>
    subst hu
    exact Goes.congr rfl (if_pos (by rw [hfilter]; rfl))
  case indexDropped =>
    subst hu
    exact Goes.congr rfl (if_pos (by rw [hfilter]; rfl))
  case index =>
    have hindex := fun h => goes_index hu hfilter ha hb hunit hgate h rfl
    refine ⟨_, _, rfl, rfl, fun h => ?_, fun h => ?_, fun h => ?_⟩
    · exact Goes.congr (hindex (by omega)) (by rw [← hmode, h]; rfl)
    · exact Goes.congr (hindex (by omega)) (by rw [← hmode, h]; rfl)
    · exact Goes.congr (hindex (by omega)) (by rw [← hmode, h]; rfl)
  case home => exact Goes.congr rfl (Dev.accessWrite_reaches h (keyedWrite_none (key := fun n : Fin 8 => Reg.PF_ABZ_CMD n.val) (by decide) n))
  case hall =>
    subst hu
    refine Goes.congr rfl ((if_neg (by simp [hcode, hfilter])).trans (Dev.when_of ?_))
    exact hunit
  case window =>
    intro c runs rev t u hc hruns hrev ht hu
    have hopen : ¬ (!s.dev.pfUnit n.val (Reg.PF_SPD_CFG n.val) || (s.dev.pf n.val).winEnd != s.dev.now) = true := by simp [hunit, hend]
    have hevent : t.when rev (Dev.raise (0x68 + n.val) 10) = u := hu.symm
    have hgoes : Goes (.speedWindowClose n) s
        (u.when runs (Dev.showSpeed n.val 3 (fpMul (fpOfIntZ c) (u.reg (Reg.PF_SPD_SCALE n.val))).val)) := by
      rw [← hevent, ht, hrev, hruns, hc]
      exact Goes.congr rfl (if_neg hopen)
    exact ⟨fun h => Goes.congr hgoes (Dev.when_not h), fun h => Goes.congr hgoes (Dev.when_of h)⟩
  case standstill => exact Goes.congr rfl (if_neg (by simp [hunit, hstate, hstill]))
  case emulator =>
    rintro k c _ rfl rfl htie rfl
    have hdue' : ¬ (!s.dev.pfUnit n.val (Reg.PF_EMU_CFG n.val) || !s.dev.emuValid n.val || decide (s.dev.now < s.dev.emuDue n.val)) = true := by
      rw [hunit, hvalid, decide_eq_false (Nat.not_lt.mpr hdue)]
      decide
    have htie' : (2 * (s.dev.emuDist n.val).natAbs == s.dev.emuStates n.val) = false := beq_eq_false_iff_ne.mpr htie
    refine ⟨fun hdist => Goes.congr rfl ((if_neg hdue').trans ((if_neg (by omega)).trans ?_)),
      fun hdist => Goes.congr rfl ((if_neg hdue').trans ((if_neg (by omega)).trans ?_))⟩
    · simp only [htie', decide_eq_true hdist, Bool.false_eq_true, if_false, if_true]
    · simp only [htie', decide_eq_false (show ¬ 0 < s.dev.emuDist n.val by omega), Bool.false_eq_true, if_false]
  case compare => exact Goes.congr rfl (Dev.accessWrite_reaches h (keyedWrite_none (key := fun n : Fin 8 => Reg.PF_CMP_POS n.val) (by decide) n))
  case pulse => exact Goes.congr rfl (Dev.when_of (by simp [hpulse, hend]))

/-! ### Serial sensors (R428 to R436) -/

/-- A request at a unit that is free. -/
theorem Dev.serRequest_free {n : Nat} {d : Dev} (hbusy : (d.pf n).busy = false) (hrec : (d.pf n).recovering = false) :
    d.serRequest n = (d.modPf n (fun x => { x with
      busy := true, reqTime := d.devTime, reqTick := d.now, serCfg := d.reg (Reg.PF_SER_CFG n)
      serTim := d.reg (Reg.PF_SER_TIM n) })).setBit (Reg.PF_STAT n) 4 true := if_neg (by simp [hbusy, hrec])

/-- A request in a transfer or its recovery. -/
theorem Dev.serRequest_busy {n : Nat} {d : Dev} (h : (d.pf n).busy = true ∨ (d.pf n).recovering = true) :
    d.serRequest n = (d.raise (0x68 + n) 7).bumpSat (Reg.PF_SER_OVR n) 15 0 := if_pos ((Bool.or_eq_true ..).mpr h)

/-- An interface after its own change. -/
theorem Dev.pf_modPf (n : Fin 8) (f : PosUnit → PosUnit) (d : Dev) : (d.modPf n.val f).pf n.val = f (d.pf n.val) := by
  rw [Dev.pf, Dev.modPf_pos, vget_vmod, if_pos ⟨rfl, n.isLt⟩, Dev.pf]

/-- The element of a list after some others. -/
theorem headD_drop {l : List Bool} {n : Nat} {x dflt : Bool} (h : l[n]? = some x) : (l.drop n).headD dflt = x := by
  rw [List.headD_eq_head?_getD, List.head?_drop, h, Option.getD_some]

/-- A BiSS-C transfer with its start bit: check, error bit and warning bit. -/
theorem Dev.serTaken_biss {n len : Nat} {bits : List Bool} {d : Dev} {err warn : Bool} (hlen : len = xferLen (d.pf n).serCfg)
    (hbiss : bitAt 30 (d.pf n).serCfg = true) (hstart : bits.headD false = true) (herr : bits[len + 2]? = some err)
    (hwarn : bits[len + 3]? = some warn) : d.serTaken n bits =
      let bad := bissCrc ((bits.drop 2).take (len + 2)) != bitsMsb (bits.drop (len + 4))
      let t := (((d.serEnd n).when bad (Dev.raise (0x68 + n) 3)).when (!err) (Dev.raise (0x68 + n) 4)).when (!warn) (Dev.raise (0x68 + n) 5)
      if bad || !err then t.serFail n else t.serValid n (bitsMsb ((bits.drop 2).take len)) := by
  have herr' : ((bits.drop 2).drop len).headD false = err := by
    rw [List.drop_drop, Nat.add_comm 2 len]
    exact headD_drop herr
  have hwarn' : ((bits.drop 2).drop (len + 1)).headD false = warn := by
    rw [List.drop_drop, Nat.add_comm 2 (len + 1)]
    exact headD_drop hwarn
  have hcheck : (bits.drop 2).drop (len + 2) = bits.drop (len + 4) := by
    rw [List.drop_drop, Nat.add_comm 2 (len + 2)]
  simp only [Dev.serTaken, ← hlen, hbiss, hstart, herr', hwarn', hcheck, Bool.not_true, Bool.false_or, Bool.true_and, Bool.false_and,
    Bool.false_eq_true, if_false, if_true]

/-- An SSI transfer without an error bit. -/
theorem Dev.serTaken_ssi {n len : Nat} {bits : List Bool} {d : Dev} (hlen : len = xferLen (d.pf n).serCfg)
    (hbiss : bitAt 30 (d.pf n).serCfg = false) (hflag : bitAt 28 (d.pf n).serCfg = false) : d.serTaken n bits =
      (d.serEnd n).serValid n (if bitAt 29 (d.pf n).serCfg then grayToBin 32 (bitsMsb (bits.take len)) else bitsMsb (bits.take len)) := by
  simp only [Dev.serTaken, ← hlen, hbiss, hflag, Bool.not_false, Bool.true_and, Bool.false_and, Bool.or_self, Bool.false_eq_true, if_false,
    Dev.when_not]

/-- Settles O20: each command of the serial sensors takes its branch. -/
theorem serialSensorsComplete : Obligations.SerialSensorsComplete := by
  unfold Obligations.SerialSensorsComplete
  rintro s m n bits _ _ rfl rfl
  refine ⟨fun t hasked ht => ⟨fun hbusy hrec => ?start, fun hbusy => ?counted⟩,
    fun hunit hsource h => ⟨fun hbusy hrec => ?cmdStart, fun hbusy => ?cmdCounted⟩, fun hunit hbusy hends hbits len pos t hlen ht => ?done,
    fun hunit hbusy hlimit hlate => ?timeout, fun hrec hlate => ?recovered⟩
  case start =>
    have hfree : (t.pf n.val).busy = false := by
      rw [ht, Dev.pf_modPf]
      exact hbusy
    have hready : (t.pf n.val).recovering = false := by
      rw [ht, Dev.pf_modPf]
      exact hrec
    refine Goes.congr rfl ((Dev.when_of hasked).trans ?_)
    rw [← Dev.serRequest_free hfree hready, ht]
  case counted =>
    have hpf : (t.pf n.val).busy = true ∨ (t.pf n.val).recovering = true := by
      rw [ht, Dev.pf_modPf]
      exact hbusy
    refine Goes.congr rfl ((Dev.when_of hasked).trans ?_)
    rw [← Dev.serRequest_busy hpf, ht]
  case cmdStart =>
    refine Goes.congr rfl ((Dev.accessWrite_reaches h
      (keyedWrite_none (key := fun n : Fin 8 => Reg.PF_SER_CMD n.val) (by decide) n)).trans ((Dev.when_of ?_).trans
        (Dev.serRequest_free hbusy hrec)))
    rw [hunit, hsource]
    decide
  case cmdCounted =>
    refine Goes.congr rfl ((Dev.accessWrite_reaches h
      (keyedWrite_none (key := fun n : Fin 8 => Reg.PF_SER_CMD n.val) (by decide) n)).trans ((Dev.when_of ?_).trans
        (Dev.serRequest_busy hbusy)))
    rw [hunit, hsource]
    decide
  case done =>
    subst ht
    have hgoes : Goes (.serialTransferDone n bits) s (s.dev.serTaken n.val bits) :=
      Goes.congr rfl (Dev.when_of (by rw [hunit, hbusy, hends, beq_iff_eq.mpr hbits]; rfl))
    refine ⟨fun hbiss hstart check hcheck hpos => ⟨fun hgood herr hwarn => Goes.congr hgoes ?_, fun hgood herr hwarn => Goes.congr hgoes ?_,
      fun hbad herr hwarn => Goes.congr hgoes ?_⟩, fun hssi hflag hpos => Goes.congr hgoes ?_⟩
    · rw [Dev.serTaken_biss hlen hbiss hstart herr hwarn, ← hcheck, hgood, bne_self_eq_false, hpos]
      rfl
    · rw [Dev.serTaken_biss hlen hbiss hstart herr hwarn, ← hcheck, hgood, bne_self_eq_false]
      rfl
    · rw [Dev.serTaken_biss hlen hbiss hstart herr hwarn, ← hcheck, bne_iff_ne.mpr hbad.symm]
      rfl
    · rw [Dev.serTaken_ssi hlen hssi hflag, hpos]
  case timeout =>
    refine Goes.congr rfl (Dev.when_of ?_)
    rw [hunit, hbusy, beq_iff_eq.mpr hlimit, Bool.and_self, Bool.and_self, Bool.true_and, Bool.or_eq_true, decide_eq_true_iff]
    exact hlate
  case recovered => exact Goes.congr rfl (Dev.when_of (by rw [hrec, decide_eq_true hlate]; rfl))

end Sys2Proof.Machine

/-! SUPPORT. Completion of machine control (R460 to R485). -/

namespace Sys2Proof.Machine

/-- RUN at a unit in IDLE or DECLINED, by the state of its group. -/
theorem Dev.mcRunOp_idle {n : Nat} {d : Dev} (h : d.mstate n = 0 ∨ d.mstate n = 7) : d.mcRunOp n =
    if d.gstate n = 3 then d.mcResult n 1 2
    else if d.gstate n = 0 ∨ d.gstate n = 4 then d.mcResult n 1 1
    else if !d.mcOn n || !d.bit (Reg.PG_CMASK_CFG n) 0 then d.mcResult n 1 4
    else (d.mcResult n 1 0).runStart n := (if_neg (by omega)).trans (if_pos h)

/-- Settles O21: each command of machine control takes its branch. -/
theorem machineControlComplete : Obligations.MachineControlComplete := by
  unfold Obligations.MachineControlComplete
  rintro s m n v _ _ rfl rfl
  have hcmd : ∀ {code : Word} {op : Dev → Dev}, s.dev.Reaches m (Reg.MC_CMD n.val) →
      s.dev.accessWrite m (Reg.MC_CMD n.val) code op = op s.dev :=
    fun h => Dev.accessWrite_reaches h (keyedWrite_none (key := fun n : Fin 12 => Reg.MC_CMD n.val) (by decide) n)
  refine ⟨fun h hidle => ⟨fun hgroup hon hmask => ?run, fun hgroup => ?runStopping, fun hgroup => ?runOff⟩,
    fun h => ⟨fun hs => ?decel, fun hs => ?idle, fun hs => ?again, fun hs => ?asc, fun hs => ?stopRefused⟩,
    fun h => ⟨fun hs hasc => ?reset, fun hs => ?resetRefused⟩, fun h => ?report, fun hjudged hlate => ?timeout,
    fun t hon hmode hrow hcross => ⟨fun hs => ?align, fun hdriven hnext => ?crossing⟩, fun r hnext hdriven hdue => ?row,
    fun hdriven hmode hrow hnext hdue t ht => ?miss, fun made crossed hon hs hdue hmade hcrossed => ⟨fun hleft => ?step, fun hlast => ?fail⟩,
    fun k high ns kind hkind => ⟨fun h0 => ?analog, fun h12 hfilter hfresh => ?edge, fun h12 hdue => ?lost⟩⟩
  case run =>
    refine Goes.congr rfl ((hcmd h).trans ((Dev.mcRunOp_idle hidle).trans ?_))
    exact (if_neg (by omega)).trans ((if_neg (by omega)).trans (if_neg (by simp [hon, hmask])))
  case runStopping => exact Goes.congr rfl ((hcmd h).trans ((Dev.mcRunOp_idle hidle).trans (if_pos hgroup)))
  case runOff =>
    refine Goes.congr rfl ((hcmd h).trans ((Dev.mcRunOp_idle hidle).trans ?_))
    exact (if_neg (by omega)).trans (if_pos hgroup)
  case decel => exact Goes.congr rfl ((hcmd h).trans (if_pos hs))
  case idle =>
    refine Goes.congr rfl ((hcmd h).trans ?_)
    exact (if_neg (by omega)).trans ((if_neg (by omega)).trans (if_pos (by omega)))
  case again =>
    refine Goes.congr rfl ((hcmd h).trans ?_)
    exact (if_neg (by omega)).trans ((if_neg (by omega)).trans ((if_neg (by omega)).trans (if_pos hs)))
  case asc => exact Goes.congr rfl ((hcmd h).trans ((if_neg (by omega)).trans (if_pos hs)))
  case stopRefused =>
    refine Goes.congr rfl ((hcmd h).trans ?_)
    exact (if_neg (by omega)).trans ((if_neg (by omega)).trans ((if_neg (by omega)).trans (if_neg (by omega))))
  case reset => exact Goes.congr rfl ((hcmd h).trans (if_pos ⟨hs, hasc⟩))
  case resetRefused =>
    refine Goes.congr rfl ((hcmd h).trans (if_neg ?_))
    rintro ⟨hlock, hasc⟩
    simp [hlock, hasc] at hs
  case report =>
    exact Goes.congr rfl (Dev.accessWrite_reaches h (keyedWrite_none (key := fun n : Fin 12 => Reg.MC_OBS_CONF n.val) (by decide) n))
  case timeout => exact Goes.congr rfl (Dev.when_of (by rw [hjudged, hlate]; rfl))
  case align =>
    refine Goes.congr rfl ((if_neg (by simp [hon, hmode, hrow])).trans ?_)
    rw [hcross]
    exact if_pos hs
  case crossing =>
    have hs : s.dev.mstate n.val ≠ 6 := by
      intro hs
      simp [Dev.mcDriven, hs] at hdriven
    refine Goes.congr rfl ((if_neg (by simp [hon, hmode, hrow])).trans ?_)
    rw [hcross]
    exact (if_neg hs).trans (Dev.when_of (by rw [hdriven, hnext]; rfl))
  case row =>
    refine Goes.congr rfl ?_
    simp only [hnext, hdriven, hdue, beq_self_eq_true, Bool.and_self, Dev.when_of]
  case miss =>
    have hcount : Goes (.zcMiss n) s (t.when (decide (max 1 (t.fld (Reg.MC_ZC_TIM n.val) 7 0) ≤ (s.dev.mcu n.val).misses + 1))
        (Dev.rotorLost n.val)) := by
      subst ht
      exact Goes.congr rfl (Dev.when_of (by simp [hdriven, hmode, hrow, hnext, hdue]))
    exact ⟨fun hfew => Goes.congr hcount (Dev.when_not (decide_eq_false (Nat.not_le.mpr hfew))),
      fun hmany => Goes.congr hcount (Dev.when_of (decide_eq_true hmany))⟩
  case step =>
    subst hmade hcrossed
    exact Goes.congr rfl ((if_neg (by simp [hon, hs, hdue])).trans (if_neg (Nat.not_le.mpr hleft)))
  case fail =>
    subst hmade
    exact Goes.congr rfl ((if_neg (by simp [hon, hs, hdue])).trans (if_pos hlast))
  case analog =>
    subst h0
    refine Goes.congr rfl ?_
    simp only [hkind]
  case edge =>
    have hedge : (s.dev.filtered (Reg.PAD_GRP 10) ns && (s.dev.cmdPin k.val).edges.all (fun t => decide (t < s.dev.now))) = true := by
      rw [hfilter, hfresh]
      rfl
    refine Goes.congr rfl ?_
    rcases h12 with rfl | rfl
    · simp only [hkind]
      exact Dev.when_of hedge
    · simp only [hkind]
      exact Dev.when_of hedge
  case lost =>
    refine Goes.congr rfl (Dev.when_of ?_)
    rw [hkind, beq_iff_eq.mpr hdue]
    rcases h12 with rfl | rfl
    · rfl
    · rfl

end Sys2Proof.Machine

/-! SUPPORT. Completion of the triad's commands (R490 to R508). -/

namespace Sys2Proof.Machine

/-! ### The cores' own memory and the voters (R490 to R494) -/

/-- No copy with an uncorrectable error leaves the memory. -/
theorem Dev.eccRepair_none (a : Nat) (d : Dev) : d.eccRepair a 0 = d := rfl

/-- Three copies that agree store once. -/
theorem Dev.votedStore_agree {c : StoreCopy} (hstore : c.store = true) (d : Dev) :
    d.votedStore { t0 := c, t1 := c, t2 := c, vaVbDiff := false } =
      Dev.votedWrite (voteStore { t0 := c, t1 := c, t2 := c, vaVbDiff := false }) d := by
  have hagree : allAgree { t0 := c, t1 := c, t2 := c, vaVbDiff := false } = true := allAgree_iff.mpr ⟨rfl, rfl⟩
  have hvote : (voteStore { t0 := c, t1 := c, t2 := c, vaVbDiff := false }).store = true := by simp [voteStore, hstore]
  simp only [Dev.votedStore, hagree, hvote, Bool.not_true, Dev.when_of, Dev.when_not]

/-! ### The exchange (R496 to R500) -/

/-- An exchange load that not every core refuses, its samples all there. -/
theorem Dev.exchangeLoad_delivers {k : LoadKind} {rd a : Nat} {i : BitVec 12} {x z : Exchange} {r : List Word × Dev} {d t : Dev}
    (hruns : d.triadRuns = true) (htrap : [0, 1, 2].all (fun c => (d.core c).traps a i) = false) (hz : z = d.loadSamples a i x)
    (hready : d.exchangeReady z = true) (hr : r = d.samples (fun c => ((d.core c).loadAddr a i).toNat) 4 z) (ht : t = r.2.deliver k r.1 z)
    (htruns : t.triadRuns = true) : d.exchangeLoad k rd a i x =
      each [0, 1, 2] (fun c => Dev.modCore c (TriadCore.exchangeLoad (k == .medianFloat) rd a i t.triad.delivered
        (Config.freeWord t.freeCount))) (t.skipFree 1) := by
  subst hz hr ht
  simp only [Dev.exchangeLoad, hruns, htrap, hready, Bool.not_true, Bool.not_false, Bool.and_false, Bool.false_eq_true, if_false]
  rw [show (fun c => ((vget {} d.triad.cores c).loadAddr a i).toNat) = fun c => ((d.core c).loadAddr a i).toNat from rfl, htruns]
  rfl

/-- One that every core refuses. -/
theorem Dev.exchangeLoad_traps {k : LoadKind} {rd a : Nat} {i : BitVec 12} {x : Exchange} {d : Dev}
    (hruns : d.triadRuns = true) (htrap : [0, 1, 2].all (fun c => (d.core c).traps a i) = true) : d.exchangeLoad k rd a i x =
      each [0, 1, 2] (fun c => Dev.modCore c (TriadCore.exchangeLoad (k == .medianFloat) rd a i d.triad.delivered
        (Config.freeWord (d.skipFree 1).freeCount))) ((d.skipFree 1).skipFree 1) := by
  have hruns' : (d.skipFree 1).triadRuns = true := hruns
  simp only [Dev.exchangeLoad, hruns, hruns', htrap, Bool.not_true, Bool.false_and, Bool.false_eq_true, if_false, if_true]
  rfl

/-! ### Sync points (R495, R501 to R505) -/

/-- The sync point at which nothing differs. -/
theorem goes_syncPoint {s : State} {va vb : VoterTest} {g : Word} {t u : Dev} (hruns : s.dev.triadRuns = true)
    (hdue : s.dev.triad.nextSync ≤ s.dev.now) (hva : s.dev.voterPasses va = true) (hvb : s.dev.voterPasses vb = true)
    (hcores : ∀ c, c < 3 → s.dev.odd c = false ∧ (s.dev.core c).finish = g)
    (ht : t = ((s.dev.modTriad (fun t => { t with nextSync := t.nextSync + 400000 })).bumpWrap Reg.TRIAD_DIGEST_STAT 31 16).bumpWrap
      Reg.TRIAD_VTEST 31 16)
    (hu : u = (((t.setReg (Reg.TRIAD_DIGEST 0) g).setReg (Reg.TRIAD_DIGEST 1) g).setReg (Reg.TRIAD_DIGEST 2) g).setFld
      Reg.TRIAD_DIGEST_STAT 2 0 7) :
    Goes (.syncPoint va vb) s (each [0, 1, 2] (fun c => Dev.modCore c (fun k => { k with digest := 0xFFFFFFFF, lines := [] })) u) := by
  have hstat : t.reg Reg.TRIAD_STAT = s.dev.reg Reg.TRIAD_STAT := by
    rw [ht, Dev.bumpWrap, Dev.reg_setFld_ne (by decide), Dev.bumpWrap, Dev.reg_setFld_ne (by decide)]
    rfl
  have hodd : [0, 1, 2].filter t.odd = [] := by
    rw [List.filter_eq_nil_iff]
    intro c hc
    rw [Dev.odd, Dev.bit, hstat, ← Dev.bit, ← Dev.odd, (hcores c (by simp at hc; omega)).1]
    decide
  have hfinish : [0, 1, 2].map (fun c => (t.core c).finish) = [g, g, g] := by
    have hcore : t.core = s.dev.core := by
      rw [ht]
      rfl
    rw [hcore, List.map_cons, List.map_cons, List.map_cons, List.map_nil, (hcores 0 (by decide)).2, (hcores 1 (by decide)).2,
      (hcores 2 (by decide)).2]
  have huruns : u.triadRuns = true := by
    have hustat : u.reg Reg.TRIAD_STAT = t.reg Reg.TRIAD_STAT := by
      rw [hu, Dev.reg_setFld_ne (by decide), Dev.reg_setReg_ne (by decide), Dev.reg_setReg_ne (by decide), Dev.reg_setReg_ne (by decide)]
    have hreleased : u.triad.released = s.dev.triad.released := by
      rw [hu, ht]
      rfl
    have hheld : u.pageHeld 0x90 = s.dev.pageHeld 0x90 := by
      rw [hu, ht]
      rfl
    rwa [Dev.triadRuns, hreleased, hheld, Dev.fld, hustat, hstat, ← Dev.fld, ← Dev.triadRuns]
  have hdigest : each [0, 1, 2] (fun c d => Dev.setReg (Reg.TRIAD_DIGEST c) (nth 0 [g, g, g] c) d) t =
      ((t.setReg (Reg.TRIAD_DIGEST 0) g).setReg (Reg.TRIAD_DIGEST 1) g).setReg (Reg.TRIAD_DIGEST 2) g := rfl
  refine Goes.congr rfl ((if_neg (by simp [hruns, hdue])).trans ((if_neg (by simp [hva, hvb])).trans ?_))
  have houtcome : digestOutcome (([0, 1, 2].filter (fun c => !([] : List Nat).contains c)).map (fun c => (c, nth 0 [g, g, g] c))) =
      (none, false) := (if_pos rfl).trans (if_pos rfl)
  have hmajority : majorityDigest (nth 0 [g, g, g] 0) (nth 0 [g, g, g] 1) (nth 0 [g, g, g] 2) = some g := if_pos (.inl rfl)
  have hagree : [0, 1, 2].foldl (fun a c => if nth 0 [g, g, g] c = g then a + 2 ^ c else a) 0 = 7 := by
    simp [nth]
  simp only [← ht, hodd, hfinish, hdigest, houtcome, hmajority, hagree, ← hu, huruns, Bool.not_true, Bool.false_eq_true, if_false,
    List.isEmpty_nil, Option.isSome_none, if_true]

/-- Settles O22: each command of the triad takes its branch. -/
theorem triadCommandsComplete : Obligations.TriadCommandsComplete := by
  unfold Obligations.TriadCommandsComplete
  rintro s m v x _ rfl
  refine ⟨fun c a n hruns hpos hfour hfirst hlast => ⟨?load, ?store⟩, fun c hruns hstore => ?voted,
    fun k a n hruns hexch r hr => ⟨fun hready => ?delivery, fun y t hpresent hsame ht htruns => ?timeout⟩,
    fun rd a i hruns => ⟨fun htrap z r hz hready hr => ⟨fun t ht htruns => ?signed, fun t ht htruns => ?unsigned, fun t ht htruns => ?float⟩,
      fun htrap => ?traps⟩,
    fun g va vb hruns hdue hva hvb hcores => ⟨_, _, rfl, rfl, goes_syncPoint hruns hdue hva hvb hcores rfl rfl⟩,
    fun h hwait hpost => ⟨fun hgen => ?post, fun hgen => ?stale⟩, fun h hwait hack => ?ack, fun h => ?seq⟩
  case load =>
    refine Goes.congr rfl ((if_neg (by simp [hruns, hfirst, hlast]; omega)).trans ?_)
    exact if_neg (by rw [Dev.eccRepair_none, hruns]; decide)
  case store =>
    refine Goes.congr rfl ((if_neg (by simp [hruns, hfirst, hlast]; omega)).trans ?_)
    exact if_neg (by rw [Dev.eccRepair_none, hruns]; decide)
  case voted => exact Goes.congr rfl ((Dev.when_of hruns).trans (Dev.votedStore_agree hstore _))
  case delivery =>
    subst hr
    exact Goes.congr rfl (Dev.when_of (by rw [hruns, hexch, hready]; rfl))
  case timeout =>
    have hsilent : [0, 1, 2].filter (fun c => !x.present.getLsbD c) = [2] := by
      rw [hpresent]
      rfl
    have hodd : each [2] (fun c d => Dev.markOdd c 5 d) (r.2.addSat Reg.TRIAD_XCHG_STAT 31 16 1) = t := ht.symm
    refine Goes.congr rfl ((if_neg (by simp [hruns, hpresent, hexch])).trans ?_)
    simp only [hsilent, ← hr, hodd, htruns, hsame, Bool.not_true, Bool.false_eq_true, if_false, if_true]
  case signed => exact Goes.congr rfl (Dev.exchangeLoad_delivers hruns htrap hz hready hr ht htruns)
  case unsigned => exact Goes.congr rfl (Dev.exchangeLoad_delivers hruns htrap hz hready hr ht htruns)
  case float => exact Goes.congr rfl (Dev.exchangeLoad_delivers hruns htrap hz hready hr ht htruns)
  case traps => exact Goes.congr rfl (Dev.exchangeLoad_traps hruns htrap)
  case post =>
    refine Goes.congr rfl ((Dev.accessWrite_reaches h (keyedWrite_false (by decide))).trans ?_)
    exact (if_neg (by simp [hwait])).trans ((if_neg (by simp [hpost])).trans (if_pos hgen))
  case stale =>
    refine Goes.congr rfl ((Dev.accessWrite_reaches h (keyedWrite_false (by decide))).trans ?_)
    exact (if_neg (by simp [hwait])).trans ((if_neg (by simp [hpost])).trans (if_neg hgen))
  case ack =>
    refine Goes.congr rfl ((Dev.accessWrite_reaches h (keyedWrite_false (by decide))).trans ?_)
    exact (if_neg (not_not_intro rfl)).trans (if_pos (by rw [hack, hwait]; rfl))
  case seq => exact Goes.congr rfl ((Dev.accessWrite_reaches h (keyedWrite_false (by decide))).trans (if_pos rfl))

end Sys2Proof.Machine

/-! SUPPORT. Completion of Sloe's commands (R514 to R555): inputs, speed sources, the STO switches and the safety session. -/

namespace Sys2Proof.Machine

/-! ### Inputs and speed sources (R514 to R529) -/

/-- A condition that has stood for longer than a time. -/
theorem Dev.longer_some {ticks t : Nat} {since : Option Nat} {d : Dev} (hsince : since = some t) (hlong : t + ticks < d.now) :
    d.longer since ticks = true := by
  rw [hsince]
  exact decide_eq_true hlong

/-- One that does not stand. -/
theorem Dev.longer_none (d : Dev) (ticks : Nat) : d.longer none ticks = false := rfl

/-- The close of a window of source A with SLS out of force. -/
theorem goes_speedAWindowClose {s : State} (hon : bitAt 31 (s.dev.act Reg.SLOE_SPD_A) = true)
    (hsls : bitAt 31 (s.dev.act Reg.SAFE_SLS_CFG) = false) (hend : s.dev.sloe.winEnd = s.dev.now) {t : Dev}
    (ht : t = ((s.dev.setReg Reg.SLOE_SPD_A_CNT (word (unsignedOf 24 s.dev.sloe.count))).modSloe (fun x => { x with
      count := 0, winEnd := s.dev.now + 400000 * s.dev.spdWin, spdBWins := x.spdBWins + 1, oneAt := none })).evaluate) :
    Goes .speedAWindowClose s (t.when (decide (3 ≤ t.sloe.spdBWins)) (Dev.faultSet 6 0)) := by
  subst ht
  have hoff : bitAt 31 (lookup resetWord Reg.SAFE_SLS_CFG s.dev.sloe.active) = false := hsls
  refine Goes.congr rfl ((if_neg (by simp [hon, hend])).trans ?_)
  simp only [Dev.slsActive, Dev.act, Dev.setReg_sloe, Dev.modSloe_sloe, hoff, Bool.false_and, Bool.and_false, disagreeSince, if_true,
    Dev.when_not, Dev.longer_none]
  rfl

/-- Settles O23: each command of the safety inputs takes its branch. -/
theorem safetyInputsComplete : Obligations.SafetyInputsComplete := by
  unfold Obligations.SafetyInputsComplete
  rintro s i k v _ rfl
  refine ⟨fun level ns t run ht hrun => ⟨fun hen hdiff hstood => ?change, fun hstay => ?stays⟩, fun x p hphase hfrom hto => ?testPulse,
    fun htol hstat hlong => ?ossd, fun t hat hlong => ?discrepancy, fun t hat hlong => ?lock, fun hen hpulse => ?pulse,
    fun hruns hend => ?ss1, fun hon hsls hend t ht => ⟨fun hfew => ?fresh, fun hmany => ?stale⟩, fun h => ?source, fun m hm h => ?other⟩
  case change =>
    subst ht hrun
    exact Goes.congr rfl (Dev.when_of (by rw [hen, bne_iff_ne.mpr hdiff, decide_eq_true hstood]; rfl))
  case stays =>
    subst ht hrun
    refine Goes.congr rfl (Dev.when_not ?_)
    rcases hstay with hoff | hsame | hshort
    · rw [hoff, Bool.false_and, Bool.false_and]
    · rw [bne_eq_false_iff_eq.mpr hsame, Bool.and_false, Bool.false_and]
    · rw [decide_eq_false (Nat.not_le.mpr hshort), Bool.and_false]
  case testPulse =>
    refine Goes.congr rfl ?_
    simp only [hphase]
    exact if_pos ⟨hfrom, hto⟩
  case ossd =>
    exact Goes.congr rfl (if_pos (by rw [bne_iff_ne.mpr htol, hstat, decide_eq_true hlong]; rfl))
  case discrepancy | lock => exact Goes.congr rfl (Dev.when_of (Dev.longer_some hat hlong))
  case pulse => exact Goes.congr rfl (if_neg (by rw [hen, hpulse]; decide))
  case ss1 => exact Goes.congr rfl (if_pos ⟨hruns, hend⟩)
  case fresh => exact Goes.congr (goes_speedAWindowClose hon hsls hend ht) (Dev.when_not (decide_eq_false (Nat.not_le.mpr hfew)))
  case stale => exact Goes.congr (goes_speedAWindowClose hon hsls hend ht) (Dev.when_of (decide_eq_true hmany))
  case source => exact Goes.congr rfl ((Dev.accessWrite_reaches h (keyedWrite_false (by decide))).trans (if_pos rfl))
  case other => exact Goes.congr rfl ((Dev.accessWrite_reaches h (keyedWrite_false (by decide))).trans (if_neg hm))

/-! ### The STO switches, the permit and the fault latches (R531 to R538) -/

/-- A write of one bit names that latch alone. -/
theorem named_one {b : Nat} (hb : b < 7) {set_ : Nat} (hset : natBit b set_ = true) :
    (List.range 8).filter (fun i => bitAt i (word (2 ^ b)) && natBit i set_) = [b] := by
  have hbit : ∀ b < 7, ∀ i < 8, bitAt i (word (2 ^ b)) = (i == b) := by decide
  have hself : ∀ b < 7, (List.range 8).filter (fun i => i == b) = [b] := by decide
  have hnamed : ∀ i ∈ List.range 8, (bitAt i (word (2 ^ b)) && natBit i set_) = (i == b) := by
    intro i hi
    rw [hbit b hb i (List.mem_range.mp hi)]
    by_cases h : i = b
    · rw [h, hset, Bool.and_true]
    · rw [beq_eq_false_iff_ne.mpr h, Bool.false_and]
  rw [List.filter_congr hnamed, hself b hb]

/-- The owner of the session clears one latch whose condition is absent. -/
theorem Dev.faultClearOp_one {m : Master} {b : Nat} {d : Dev} (howns : d.ownsSession m = true) (hcrc : d.sloe.crcRun = false)
    (hroom : d.logFull = false) (hb : b < 7) (hset : natBit b d.faults = true) (habsent : d.faultAbsent b = true)
    (hold : d.faultNow b = false) : d.faultClearOp m (word (2 ^ b)) =
      ((d.setBit Reg.SLOE_FAULT b false).logEntry (originOf m) 6 (2 ^ b) (d.setBit Reg.SLOE_FAULT b false).safetyCrc
        (d.setBit Reg.SLOE_FAULT b false).safetyCrc).touchSession.evaluate := by
  have hclear : [b].filter (fun b => d.faultAbsent b && !d.faultNow b) = [b] := by
    rw [List.filter_cons, habsent, hold]
    rfl
  have htriad : [b].contains 7 = false := by
    rw [List.contains_eq_mem, decide_eq_false]
    simp only [List.mem_singleton]
    omega
  have hmask : [b].foldl (fun a b => a + 2 ^ b) 0 = 2 ^ b := Nat.zero_add _
  have hdone : each [b] (fun b d => d.setBit Reg.SLOE_FAULT b false) d = d.setBit Reg.SLOE_FAULT b false := rfl
  simp only [Dev.faultClearOp, howns, hcrc, hroom, named_one hb hset, hclear, htriad, hmask, hdone, List.isEmpty_cons, Bool.not_true,
    Bool.false_eq_true, if_false, Dev.when_not, bne_self_eq_false]

/-- The permit's answer in time, at the triad. -/
theorem Dev.trespOp_inTime {v : Word} {d : Dev} (hlate : d.permitLate = false) : d.trespOp .triad v =
    if Machine.fld 15 0 v = 65535 - d.fld Reg.SLOE_TCHAL 15 0 then
      ((((d.setBit Reg.SLOE_STAT 17 true).setFld Reg.SLOE_TCHAL 15 0 (nextChallenge (d.fld Reg.SLOE_TCHAL 15 0))).modSloe
        (fun x => { x with permitOk := true, tpAt := d.now })).evaluate)
    else d.faultSet 4 0 := by
  refine (if_neg (not_not_intro rfl)).trans ?_
  simp only [hlate, Dev.when_not]
  rfl

/-- Settles O24: each command of the STO switches, of the permit and of the fault latches takes its branch. -/
theorem torqueOffComplete : Obligations.TorqueOffComplete := by
  unfold Obligations.TorqueOffComplete
  rintro s m v _ rfl
  refine ⟨fun hopen hok hdue => ?test, fun hopen hok hfresh => ?close, fun htest hend => ⟨fun hbad => ?fails, fun hok hfirst => ?second,
    fun hok hsecond => ?passes⟩, fun a b => Goes.congr rfl rfl, fun t hat hlong => ?feedback, fun hend => ?settle,
    fun hpast hhour t ht => ⟨fun hyoung => ?hour, fun hclosed hmax => ?overdue⟩,
    fun h hlate => ⟨fun hright => ?answer, fun hwrong => ?wrong⟩, fun hlate => Goes.congr rfl (Dev.when_of hlate),
    fun h => ⟨fun hzero hnow => ?withdraw, fun hset => ?demand⟩, ?clear⟩
  case test => exact Goes.congr rfl ((if_pos ⟨hopen, hok⟩).trans (if_pos hdue))
  case close => exact Goes.congr rfl ((if_pos ⟨hopen, hok⟩).trans (if_neg (Nat.not_le.mpr hfresh)))
  case fails => exact Goes.congr rfl ((if_neg (by simp [htest, hend])).trans (if_pos (by rw [hbad]; rfl)))
  case second =>
    exact Goes.congr rfl ((if_neg (by simp [htest, hend])).trans ((if_neg (by rw [hok]; decide)).trans (if_pos (by rw [hfirst]; rfl))))
  case passes =>
    exact Goes.congr rfl ((if_neg (by simp [htest, hend])).trans ((if_neg (by rw [hok]; decide)).trans (if_neg (by rw [hsecond]; decide))))
  case feedback =>
    refine Goes.congr rfl (Dev.when_of ?_)
    rcases hat with hat | hat
    · rw [Dev.longer_some hat hlong, Bool.true_or, Bool.true_or]
    · rw [Dev.longer_some hat hlong, Bool.or_true, Bool.true_or]
  case settle => exact Goes.congr rfl (Dev.when_of (by rw [hend, Bool.or_true]))
  case hour =>
    subst ht
    refine Goes.congr rfl ((if_neg (by simp [hpast, hhour])).trans (Dev.when_not ?_))
    rcases hyoung with hopen | hyoung
    · rw [beq_eq_false_iff_ne.mpr hopen, Bool.false_and]
    · rw [beq_eq_false_iff_ne.mpr hyoung, Bool.and_false]
  case overdue =>
    subst ht
    refine Goes.congr rfl ((if_neg (by simp [hpast, hhour])).trans (Dev.when_of ?_))
    rw [beq_iff_eq.mpr hclosed, beq_iff_eq.mpr hmax, Bool.and_self]
  case answer =>
    refine Goes.congr rfl ((Dev.accessWrite_reaches h (keyedWrite_false (by decide))).trans ((Dev.trespOp_inTime hlate).trans ?_))
    exact if_pos hright
  case wrong =>
    refine Goes.congr rfl ((Dev.accessWrite_reaches h (keyedWrite_false (by decide))).trans ((Dev.trespOp_inTime hlate).trans ?_))
    exact if_neg hwrong
  case withdraw =>
    refine Goes.congr rfl ((Dev.accessWrite_reaches h (keyedWrite_false (by decide))).trans ((if_neg (not_not_intro rfl)).trans ?_))
    simp only [hzero, if_true, hnow, Bool.not_false, Dev.when_of]
  case demand =>
    refine Goes.congr rfl ((Dev.accessWrite_reaches h (keyedWrite_false (by decide))).trans ((if_neg (not_not_intro rfl)).trans ?_))
    simp only [hset, if_false]
  case clear =>
    rintro b h howns hcrc hroom hb rfl hset habsent hold
    refine ⟨_, rfl, Goes.congr rfl ((Dev.accessWrite_reaches h (keyedWrite_false (by decide))).trans ?_)⟩
    exact Dev.faultClearOp_one howns hcrc hroom hb hset habsent hold

/-! ### The safety session (R542 to R549) -/

/-- Consuming the unlock leaves the session. -/
theorem Dev.sessionOpen_setKstate (d : Dev) (p : Nat) : (d.setKstate p 0).sessionOpen = d.sessionOpen := Dev.bit_setKstate (by decide) d

/-- Consuming the unlock leaves its owner. -/
theorem Dev.ownsSession_setKstate (d : Dev) (p : Nat) (m : Master) : (d.setKstate p 0).ownsSession m = d.ownsSession m := by
  simp only [Dev.ownsSession, Dev.sessionOpen_setKstate, Dev.fld_setKstate (show Reg.SAFE_STAT % 0x1000 ≠ 0x1C by decide)]

/-- A command of the session's owner. -/
theorem Dev.sessionCommand_owner {m : Master} {code : Nat} {op : Dev → Dev} {d : Dev} (hcrc : d.sloe.crcRun = false)
    (howns : d.ownsSession m = true) : d.sessionCommand m code op = op d := by
  have hopen : d.sessionOpen = true := by
    rw [Dev.ownsSession, Bool.and_eq_true] at howns
    exact howns.1
  simp only [Dev.sessionCommand, hcrc, hopen, howns, Bool.not_true, Bool.false_eq_true, if_false]

/-- A command of no session. -/
theorem Dev.sessionCommand_closed {m : Master} {code : Nat} {op : Dev → Dev} {d : Dev} (hcrc : d.sloe.crcRun = false)
    (hclosed : d.sessionOpen = false) : d.sessionCommand m code op = d.safeResult code 5 0 := by
  simp only [Dev.sessionCommand, hcrc, hclosed, Bool.not_false, Bool.false_eq_true, if_false, if_true]

/-- Settles O25: each command of the safety session takes its branch. -/
theorem safetySessionComplete : Obligations.SafetySessionComplete := by
  unfold Obligations.SafetySessionComplete
  rintro s m v _ rfl
  refine ⟨fun h t ht hcrc => ?commands, fun hcrc hin t r ht hr => ⟨fun hok => ?accepted, fun hfail => ?refused⟩,
    fun hopen hat => ?timeout, fun hat => ?expiry, fun e rest h hlog => ⟨fun hm hseq => ?taken, fun hother => ?discarded⟩⟩
  case commands =>
    have hcmd : ∀ (code : Word) (op : Dev → Dev), keyedWrite Reg.SAFE_CMD code = true →
        s.dev.accessWrite m Reg.SAFE_CMD code op = op t := by
      intro code op hkeyed
      rw [Dev.accessWrite_takes h hkeyed, ht]
      rfl
    have hcrc' : t.sloe.crcRun = false := by rwa [ht]
    have hsession : t.sessionOpen = s.dev.sessionOpen := by rw [ht, Dev.sessionOpen_setKstate]
    have howner : t.ownsSession m = s.dev.ownsSession m := by rw [ht, Dev.ownsSession_setKstate]
    refine ⟨fun hm hclosed hoff harmed hlock => ⟨fun hpw hroom => ?opened, fun hpw => ?wrong⟩,
      fun howns => ⟨?closed, fun hroom => ?commit, fun hfull => ?commitFull⟩, fun hclosed => ⟨?noSession, ?noCommit⟩, ?reset⟩
    case opened =>
      refine ⟨_, rfl, Goes.congr (goes_open h) (((Dev.openOp_judges hm hcrc hclosed hoff harmed).2 hlock).trans ?_)⟩
      have hroom' : (s.dev.beginOpen.setFld Reg.SAFE_PW_FAIL 7 0 0).logFull = false := hroom
      rw [if_neg (not_not_intro hpw), ht]
      exact if_neg (by rw [hroom']; decide)
    case wrong =>
      refine Goes.congr (goes_open h) (((Dev.openOp_judges hm hcrc hclosed hoff harmed).2 hlock).trans ?_)
      rw [if_pos hpw, ht]
      rfl
    case closed =>
      exact Goes.congr rfl ((hcmd 2 _ (by decide)).trans (Dev.sessionCommand_owner hcrc' (howner.trans howns)))
    case commit =>
      have hnow : t.now = s.dev.now := by
        rw [ht]
        rfl
      rw [← hnow]
      refine Goes.congr rfl ((hcmd 3 _ (by decide)).trans ((Dev.sessionCommand_owner hcrc' (howner.trans howns)).trans (if_neg ?_)))
      rw [ht]
      exact Bool.eq_false_iff.mp hroom
    case commitFull =>
      refine Goes.congr rfl ((hcmd 3 _ (by decide)).trans ((Dev.sessionCommand_owner hcrc' (howner.trans howns)).trans (if_pos ?_)))
      rw [ht]
      exact hfull
    case noSession => exact Goes.congr rfl ((hcmd 2 _ (by decide)).trans (Dev.sessionCommand_closed hcrc' (hsession.trans hclosed)))
    case noCommit => exact Goes.congr rfl ((hcmd 3 _ (by decide)).trans (Dev.sessionCommand_closed hcrc' (hsession.trans hclosed)))
    case reset =>
      have hreset : ∀ {r : Dev}, t.safeResetOp = r → Goes (.safeReset m) s r := fun hr => Goes.congr rfl ((hcmd 0x10 _ (by decide)).trans hr)
      refine ⟨_, _, rfl, rfl, fun hrouted hnow => hreset ?_, fun hnow hrouted => hreset ?_⟩
      · simp only [Dev.safeResetOp, hcrc', Bool.false_eq_true, if_false, hnow, Bool.not_true, Dev.when_not, hrouted, Bool.false_and]
      · simp only [Dev.safeResetOp, hcrc', Bool.false_eq_true, if_false, hnow, Bool.not_false, Dev.when_of, hrouted, Bool.not_true,
          Bool.false_and, Dev.when_not]
  case accepted =>
    subst ht hr
    exact Goes.congr rfl ((if_neg (by simp [hcrc, hin])).trans (if_pos hok))
  case refused =>
    subst ht hr
    exact Goes.congr rfl ((if_neg (by simp [hcrc, hin])).trans (if_neg (by rw [hfail]; decide)))
  case timeout => exact Goes.congr rfl (Dev.when_of (by rw [hopen, beq_iff_eq.mpr hat, Bool.and_self]))
  case expiry => exact Goes.congr rfl (Dev.when_of (beq_iff_eq.mpr hat))
  case taken =>
    refine Goes.congr rfl ((Dev.accessWrite_reaches h (keyedWrite_false (by decide))).trans ?_)
    rw [Dev.logAckOp, hlog]
    exact if_pos ⟨hm, hseq⟩
  case discarded =>
    refine Goes.congr rfl ((Dev.accessWrite_reaches h (keyedWrite_false (by decide))).trans ?_)
    rw [Dev.logAckOp, hlog]
    refine if_neg ?_
    rintro ⟨hm, hseq⟩
    exact hother.elim (fun hn => hn hm) (fun hn => hn hseq)

end Sys2Proof.Machine

/-! SUPPORT. Completion of the message buses (R557 to R587): modes and errors. -/

namespace Sys2Proof.Machine

/-! ### Writes of MODE (R557 to R561) -/

/-- A bit written as it stands. -/
theorem setBit_self {i : Nat} (hi : i < 32) (w : Word) : setBit i (bitAt i w) w = w :=
  word_ext fun j _ => by
    by_cases hj : j = i
    · rw [hj, bitAt_setBit_same hi]
    · rw [bitAt_setBit_ne hj]

/-- It leaves every register. -/
theorem Dev.reg_setBit_self {i : Nat} (hi : i < 32) (k j : Nat) (d : Dev) : (d.setBit k i (d.bit k i)).reg j = d.reg j := by
  rw [Dev.setBit, Dev.bit, setBit_self hi, Dev.reg_setReg_self]

/-- SRST is the one keyed field of a controller's CTRL, and it is only written. -/
theorem regAt_busCtrl (n : Fin 4) : (regAt (Reg.MB_CTRL n.val)).any (fun r =>
    r.2.2.1.keyed == 0x2 && r.2.2.1.keyed &&& r.2.2.1.rw == 0 && r.2.2.1.keyed &&& r.2.2.1.rwc == 0) = true := by
  revert n
  decide

/-- A word without a bit shares nothing with its mask. -/
theorem toNat_and_two_pow {i : Nat} {v : Word} (hv : bitAt i v = false) : v.toNat &&& 2 ^ i = 0 := by
  have hbit : v.toNat.testBit i = false := hv
  apply Nat.eq_of_testBit_eq
  intro j
  rw [Nat.testBit_and, Nat.testBit_two_pow, Nat.zero_testBit]
  by_cases hj : i = j
  · rw [← hj, hbit, Bool.false_and]
  · rw [decide_eq_false hj, Bool.and_false]

/-- A write of a controller's CTRL without SRST is no keyed write. -/
theorem keyedWrite_busCtrl (n : Fin 4) {v : Word} (hv : bitAt 1 v = false) : keyedWrite (Reg.MB_CTRL n.val) v = false := by
  obtain ⟨⟨k, i, r, j⟩, hat, hrow⟩ := (Option.any_eq_true _ _).mp (regAt_busCtrl n)
  simp only [Bool.and_eq_true, beq_iff_eq] at hrow
  obtain ⟨⟨hkeyed, hrw⟩, hrwc⟩ := hrow
  have hsrst : v.toNat &&& r.keyed = 0 := hkeyed ▸ toNat_and_two_pow hv
  simp only [keyedWrite, hat, hrw, hrwc, hsrst, bne_self_eq_false, Bool.or_self]

/-- A mode command is a write of MODE. -/
theorem Dev.canModeCmd_sets {m : Master} {n : Fin 4} {mode : Nat} {d : Dev} (h : d.Reaches m (Reg.MB_CTRL n.val))
    (hsrst : d.bit (Reg.MB_CTRL n.val) 1 = false) (hmode : mode < 8) :
    d.canModeCmd m n.val mode = (d.setBit (Reg.MB_CTRL n.val) 20 (d.bit (Reg.MB_CTRL n.val) 20)).canSetMode m n.val mode := by
  have hout : ∀ i, i < 16 ∨ 18 < i → bitAt i (put 18 16 mode (d.reg (Reg.MB_CTRL n.val))) = d.bit (Reg.MB_CTRL n.val) i :=
    fun i hi => bitAt_put_outside hi (by decide) _
  have hfld : Machine.fld 18 16 (put 18 16 mode (d.reg (Reg.MB_CTRL n.val))) = mode := by
    rw [fld_put_same (by decide) (by decide)]
    exact Nat.mod_eq_of_lt hmode
  have hstands : ∀ i, (d.setBit (Reg.MB_CTRL n.val) 20 (d.bit (Reg.MB_CTRL n.val) 20)).bit (Reg.MB_CTRL n.val) i =
      d.bit (Reg.MB_CTRL n.val) i := fun i => congrArg (bitAt i) (Dev.reg_setBit_self (by decide) _ _ d)
  rw [Dev.canModeCmd, Dev.accessWrite_reaches h (keyedWrite_busCtrl n ((hout 1 (by decide)).trans hsrst))]
  simp only [Dev.canCtrlOp, hout 20 (by decide), hout 19 (by decide), hout 0 (by decide), hfld, hstands, beq_self_eq_true, if_true]

section

variable {n : Nat} {d t : Dev}

/-- What MODE turns on is read from the registers. -/
theorem Dev.canMode_congr (h : ∀ k, t.reg k = d.reg k) : t.canMode n = d.canMode n := by
  unfold Dev.canMode Dev.fld
  rw [h]

theorem Dev.canCfgBad_congr (h : ∀ k, t.reg k = d.reg k) : t.canCfgBad n = d.canCfgBad n := by
  simp only [Dev.canCfgBad, Dev.bit, h]

theorem Dev.canTec_congr (h : ∀ k, t.reg k = d.reg k) : t.canTec n = d.canTec n := by simp only [Dev.canTec, Dev.fld, h]

theorem Dev.canState_congr (h : ∀ k, t.reg k = d.reg k) : t.canState n = d.canState n := by simp only [Dev.canState, Dev.fld, h]

theorem Dev.receiving_congr (h : ∀ k, t.reg k = d.reg k) : t.receiving n = d.receiving n := by simp only [Dev.receiving, Dev.bit, h]

/-- Out of INIT into a mode, the settings in bounds. -/
theorem Dev.canSetMode_leaves {m : Master} {mode : Nat} (hinit : t.canMode n = 0) (hmode : 1 ≤ mode ∧ mode ≤ 3)
    (hok : t.canCfgBad n = false) (htec : t.canTec n ≤ 255) : t.canSetMode m n mode =
      (((t.setFld (Reg.MB_CTRL n) 18 16 mode).setBit (Reg.MB_STAT n) 7 false).setCanState n 1).modCtl n (fun c => { c with since := t.now }) := by
  have hknown : mode < 4 := by omega
  have hmode' : mode ≠ 0 := by omega
  simp only [Dev.canSetMode, hinit, hknown, hmode', hok, Nat.not_lt.mpr htec, Bool.false_eq_true, if_true, if_false]

/-- The settings out of bounds. -/
theorem Dev.canSetMode_barred {m : Master} {mode : Nat} (hinit : t.canMode n = 0) (hmode : 1 ≤ mode ∧ mode ≤ 3)
    (hbad : t.canCfgBad n = true) : t.canSetMode m n mode = (t.setBit (Reg.MB_STAT n) 7 true).raise (0x80 + n) 11 := by
  have hknown : mode < 4 := by omega
  have hmode' : mode ≠ 0 := by omega
  simp only [Dev.canSetMode, hinit, hknown, hmode', hbad, if_true, if_false]

/-- Back to INIT. -/
theorem Dev.canSetMode_init {m : Master} (hmode : t.canMode n ≠ 0) : t.canSetMode m n 0 =
    if ((t.ctl n).sending.isSome ∨ t.receiving n = true) ∧ (t.canState n = 2 ∨ t.canState n = 3) then
      t.modCtl n (fun c => { c with initPend := true })
    else t.enterInit n := by
  have hother : 0 ≠ t.canMode n := hmode.symm
  simp only [Dev.canSetMode, hmode, hother, Nat.zero_lt_succ, ne_eq, not_true_eq_false, if_true, if_false]

end

/-- An error that is detected, of a controller on the bus. -/
theorem goes_canBusError {s : State} {n : Fin 4} {e : CanError} {c : CanErrorCase} {data : Bool} (hbus : s.dev.canOnBus n.val = true)
    (hseen : c.detected = true) {u x : Dev} (hu : u = s.dev.logError n.val e data)
    (hx : x = if u.canMode n.val = 2 then u else u.countError n.val c) :
    Goes (.canBusError n e c data) s (x.when ((x.ctl n.val).sending.isNone && x.canOnBus n.val) (Dev.frameOver n.val 17)) := by
  have hcount : u.when (u.canMode n.val != 2) (Dev.countError n.val c) = x := by
    rw [hx]
    by_cases hlisten : u.canMode n.val = 2
    · rw [if_pos hlisten, Dev.when_not (bne_eq_false_iff_eq.mpr hlisten)]
    · rw [if_neg hlisten, Dev.when_of (bne_iff_ne.mpr hlisten)]
  refine Goes.congr rfl ((if_neg (by rw [hbus]; decide)).trans ?_)
  simp only [hseen, Dev.when_of, ← hu, hcount]

/-- What a case of an error adds, in a transmitter and in a receiver. -/
theorem Dev.countError_eq (n : Nat) (c : CanErrorCase) (d : Dev) : d.countError n c =
    (if (d.ctl n).sending.isSome then d.addSat (Reg.MB_ECNT n) 24 16 (c.adds true)
      else d.addSat (Reg.MB_ECNT n) 7 0 (c.adds false)).canJudge n := by
  unfold Dev.countError
  cases (d.ctl n).sending.isSome with
  | true => simp only [if_true]
  | false => simp only [Bool.false_eq_true, if_false]

/-- Settles O26: each command of the modes and errors takes its branch. -/
theorem busModesComplete : Obligations.BusModesComplete := by
  unfold Obligations.BusModesComplete
  rintro s m n _ t rfl ht
  have hreg : ∀ k, t.reg k = s.dev.reg k := fun k => ht ▸ Dev.reg_setBit_self (by decide) _ _ _
  have hctl : t.ctl n.val = s.dev.ctl n.val := by
    rw [ht]
    rfl
  have hcmd : ∀ mode < 8, s.dev.Reaches m (Reg.MB_CTRL n.val) → s.dev.bit (Reg.MB_CTRL n.val) 1 = false →
      s.dev.canModeCmd m n.val mode = t.canSetMode m n.val mode :=
    fun mode hmode h hsrst => ht ▸ Dev.canModeCmd_sets h hsrst hmode
  refine ⟨fun h hsrst hinit hok htec k hk => ?leave, fun h hsrst hinit hbad => ?barred, fun h hsrst hmode => ⟨fun hsend hrec => ?init,
    fun hbusy hstate => ?initLater⟩, fun hstate hen hheld hbits => ?integrated, fun h => ⟨fun hoff => ?recover, fun hon => ?noRecover⟩,
    fun hstate hheld hbits => ?recovered, fun e c data hbus hseen => ?error, fun hheld hwrap => ?wrap⟩
  case leave =>
    have hset : ∀ mode, 1 ≤ mode ∧ mode ≤ 3 → s.dev.canModeCmd m n.val mode = (((t.setFld (Reg.MB_CTRL n.val) 18 16 mode).setBit
        (Reg.MB_STAT n.val) 7 false).setCanState n.val 1).modCtl n.val (fun c => { c with since := s.dev.now }) := by
      intro mode hmode
      have hnow : t.now = s.dev.now := by
        rw [ht]
        rfl
      rw [hcmd mode (by omega) h hsrst, Dev.canSetMode_leaves ((Dev.canMode_congr hreg).trans hinit) hmode
        ((Dev.canCfgBad_congr hreg).trans hok) (Nat.le_trans (Nat.le_of_eq (Dev.canTec_congr hreg)) htec), hnow]
    refine ⟨_, rfl, ?_, ?_, ?_⟩
    · rintro rfl
      exact Goes.congr rfl (hset 1 (by decide))
    · rintro rfl
      exact Goes.congr rfl (hset 2 (by decide))
    · rintro rfl
      exact Goes.congr rfl (hset 3 (by decide))
  case barred =>
    have hset : ∀ mode, 1 ≤ mode ∧ mode ≤ 3 →
        s.dev.canModeCmd m n.val mode = (t.setBit (Reg.MB_STAT n.val) 7 true).raise (0x80 + n.val) 11 := by
      intro mode hmode
      rw [hcmd mode (by omega) h hsrst, Dev.canSetMode_barred ((Dev.canMode_congr hreg).trans hinit) hmode
        ((Dev.canCfgBad_congr hreg).trans hbad)]
    exact ⟨_, rfl, Goes.congr rfl (hset 1 (by decide)), Goes.congr rfl (hset 2 (by decide)), Goes.congr rfl (hset 3 (by decide))⟩
  case init =>
    refine Goes.congr rfl ((hcmd 0 (by decide) h hsrst).trans
      ((Dev.canSetMode_init (fun h0 => hmode ((Dev.canMode_congr hreg).symm.trans h0))).trans (if_neg ?_)))
    rw [hctl, hsend, Dev.receiving_congr hreg, hrec]
    simp
  case initLater =>
    refine Goes.congr rfl ((hcmd 0 (by decide) h hsrst).trans
      ((Dev.canSetMode_init (fun h0 => hmode ((Dev.canMode_congr hreg).symm.trans h0))).trans (if_pos ?_)))
    rw [hctl, Dev.receiving_congr hreg, Dev.canState_congr hreg, Option.isSome_iff_ne_none]
    exact ⟨hbusy, hstate⟩
  case integrated => exact Goes.congr rfl (Dev.when_of (by rw [hstate, hen, hheld, hbits]; rfl))
  case recover =>
    exact Goes.congr rfl ((Dev.accessWrite_reaches h (keyedWrite_none (key := fun n : Fin 4 => Reg.MB_CMD n.val) (by decide) n)).trans
      (if_pos ⟨by decide, hoff⟩))
  case noRecover =>
    exact Goes.congr rfl ((Dev.accessWrite_reaches h (keyedWrite_none (key := fun n : Fin 4 => Reg.MB_CMD n.val) (by decide) n)).trans
      (if_neg (fun hboth => hon hboth.2)))
  case recovered => exact Goes.congr rfl (if_pos ⟨hstate, hheld, hbits⟩)
  case error =>
    obtain ⟨u, hu⟩ : ∃ u, u = s.dev.logError n.val e data := ⟨_, rfl⟩
    have hlistens : u.canMode n.val = 2 → Goes (.canBusError n e c data) s _ :=
      fun hlisten => goes_canBusError hbus hseen hu (if_pos hlisten).symm
    have hcounts : u.canMode n.val ≠ 2 → Goes (.canBusError n e c data) s _ :=
      fun hcount => goes_canBusError hbus hseen hu (if_neg hcount).symm
    rw [Dev.countError_eq] at hcounts
    refine ⟨u, _, hu, rfl, fun hlisten hsend hon => ?_, fun hmode => ⟨fun hsend => ?_, fun hsend hon => ?_⟩⟩
    · exact Goes.congr (hlistens hlisten) (Dev.when_of (by rw [hsend, hon]; rfl))
    · refine Goes.congr (hcounts hmode) (Dev.when_not ?_)
      rw [Option.isNone_eq_false_iff.mpr (Option.isSome_iff_ne_none.mpr hsend)]
      rfl
    · exact Goes.congr (hcounts hmode) (Dev.when_of (by rw [hsend, hon]; rfl))
  case wrap => exact Goes.congr rfl (Dev.when_of (by rw [hheld, hwrap]; rfl))

end Sys2Proof.Machine

/-! SUPPORT. Completion of the message buses (R563 to R587): buffers, frames, filters and windows. -/

namespace Sys2Proof.Machine

/-! ### The state of a controller -/

section

variable {n : Nat} {f : CanCtl → CanCtl} {d : Dev}

theorem Dev.ctl_modCtl (hn : n < 4) : (d.modCtl n f).ctl n = f (d.ctl n) := by
  unfold Dev.ctl Dev.modCtl
  rw [vget_vmod, if_pos ⟨rfl, hn⟩]

end

/-! ### The bit of one buffer in a pair of registers -/

/-- A word with one bit names one buffer. -/
theorem wordBufs_one {b w : Nat} (hw : w = b / 32) : wordBufs w (word (2 ^ (b % 32))) = [b] := by
  have hone : ∀ i < 32, setBits 32 (word (2 ^ i)).toNat = [i] := by decide
  rw [wordBufs, hone _ (Nat.mod_lt _ (by decide)), hw, List.map_singleton, Nat.div_add_mod]

/-- A write that names one buffer, which passes. -/
theorem Dev.bufBits_one {m : Master} {n key w b : Nat} {ok : Nat → Bool} {act : Nat → Dev → Dev} {d : Dev} (hw : w = b / 32)
    (huse : d.mayUseBuf m n b = true) (hok : ok b = true) :
    d.bufBits m n key w (word (2 ^ (b % 32))) ok act = act b d := by
  have hpass : (d.mayUseBuf m n b && ok b) = true := by rw [huse, hok]; rfl
  simp only [Dev.bufBits, wordBufs_one hw, List.filter_cons, hpass, if_true, List.filter_nil, List.any_cons, Bool.not_true,
    List.any_nil, Bool.or_self, Dev.when_not, each, List.foldl_cons, List.foldl_nil]

/-- The registers of releases and aborts have no keyed field. -/
theorem keyedWrite_release (n : Fin 4) (w : Fin 3) (v : Word) : keyedWrite (releaseKey n.val w.val) v = false :=
  keyedWrite_none_pair (key := fun (i : Fin 4) (j : Fin 3) => releaseKey i.val j.val) (by decide) n w

theorem keyedWrite_txabt (n : Fin 4) (w : Fin 2) (v : Word) :
    keyedWrite (pairKey (Reg.MB_TXABT0 n.val) (Reg.MB_TXABT1 n.val) (32 * w.val)) v = false :=
  keyedWrite_none_pair (key := fun (i : Fin 4) (j : Fin 2) => pairKey (Reg.MB_TXABT0 i.val) (Reg.MB_TXABT1 i.val) (32 * j.val)) (by decide) n w

theorem keyedWrite_bufCfg (n : Fin 4) (b : Fin 64) (v : Word) : keyedWrite (Reg.MB_BUF_CFG n.val b.val) v = false :=
  keyedWrite_none_pair (key := fun (i : Fin 4) (j : Fin 64) => Reg.MB_BUF_CFG i.val j.val) (by decide +kernel) n b

theorem keyedWrite_filter (n : Fin 4) (f : Fin 32) (v : Word) : keyedWrite (Reg.MB_FLT_ID n.val f.val) v = false :=
  keyedWrite_none_pair (key := fun (i : Fin 4) (j : Fin 32) => Reg.MB_FLT_ID i.val j.val) (by decide +kernel) n f

theorem keyedWrite_window (n : Fin 4) (w : Fin 2) (v : Word) : keyedWrite (winKey n.val w.val 0) v = false :=
  keyedWrite_none_pair (key := fun (i : Fin 4) (j : Fin 2) => winKey i.val j.val 0) (by decide) n w

/-! ### Reception (R567, R568) -/

/-- Room in the target: the frame enters it. -/
theorem Dev.storeFrame_room {n b : Nat} {x : CanBuf} {d : Dev} (hb : b < 64) (hroom : d.rxFull n b = false) :
    d.storeFrame n b x = (((d.noteRx n b x).setBuf n b x).setRxFull n b true).raise (0x80 + n) 7 := by
  have hfull : (d.noteRx n b x).rxFull n b = false := hroom
  simp only [Dev.storeFrame, hfull, Bool.not_false, if_true, Dev.rxEvent, hb]

/-- A frame reaches a controller that is on the bus and not in LOOPBACK. -/
theorem goes_canFrameReceive_valid {s : State} {n : Fin 4} {f : CanFrame} {h : RxHead} {u : Dev}
    (hbus : s.dev.canOnBus n.val = true) (hlisten : s.dev.canMode n.val = 2) (hrec : s.dev.receiving n.val = true)
    (hhead : (s.dev.ctl n.val).rxHead = some h) (hide : h.ide = f.ide) (hid : h.id = f.id) (hfdf : f.fdf = false)
    (hu : u = s.dev.acceptFrame n.val f h.target) :
    Goes (.canFrameReceive n .valid f) s ((u.frameOver n.val 4).when (u.resetCommand n.val f) (Dev.resetFrame n.val)) := by
  refine Goes.congr rfl ?_
  have hnormal : (2 == 1) = false := rfl
  have hloop : (2 == 3) = false := rfl
  simp only [hbus, hlisten, hrec, hhead, hide, hid, hfdf, hnormal, hloop, Dev.frameValid, Dev.when_not, ← hu, Bool.not_true,
    bne_self_eq_false, Bool.or_self, Bool.false_and, Bool.false_eq_true, if_false]

/-- What a valid frame with a target does to it. -/
theorem Dev.acceptFrame_target {n : Nat} {f : CanFrame} {b : Fin 64} {g : Byte} {d : Dev} :
    d.acceptFrame n f (some { buf := Fin.ofNat 65 b.val, gen := g }) =
      if d.targetGen n b.val ≠ g.toNat then (d.raise (0x80 + n) 13).bumpSat (Reg.MB_ORPHAN_CNT n) 15 0
      else d.storeFrame n b.val (f.stored (d.ctl n).sofTs) := by
  have hbuf : (Fin.ofNat 65 b.val).val = b.val := Nat.mod_eq_of_lt (by omega)
  simp only [Dev.acceptFrame, hbuf]

/-! ### The end of a transmission (R573 to R579) -/

section

variable {n k : Nat} {d : Dev}

theorem Dev.ctl_stopSending (hn : n < 4) : (d.stopSending n).ctl n = { d.ctl n with sending := none } := Dev.ctl_modCtl hn

theorem Dev.reg_stopSending (hk : k ≠ Reg.MB_STAT n) : (d.stopSending n).reg k = d.reg k := Dev.reg_setBit_ne hk _ _

/-- STAT.FSTATE is beside the bit that a transmission sets. -/
theorem Dev.canState_stopSending : (d.stopSending n).canState n = d.canState n := by
  unfold Dev.canState Dev.stopSending Dev.setBit Dev.fld
  rw [Dev.reg_setReg_same, fld_setBit_outside (by decide) (by decide)]
  rfl

/-- A request that ends leaves CTRL. -/
theorem Dev.reg_ctrl_endRequest (b r : Nat) : (d.endRequest n b r).reg (Reg.MB_CTRL n) = d.reg (Reg.MB_CTRL n) := by
  have hpair : ∀ lo hi : Nat, 0x80008 + n * 0x1000 < lo → 0x80008 + n * 0x1000 < hi → Reg.MB_CTRL n ≠ pairKey lo hi b := by
    intro lo hi hlo hhi
    unfold pairKey Reg.MB_CTRL
    split <;> omega
  have hstat : Reg.MB_CTRL n ≠ Reg.MB_BUF_STAT n b := by
    unfold Reg.MB_CTRL Reg.MB_BUF_STAT
    omega
  have hraw : Reg.MB_CTRL n ≠ Reg.evtRaw (0x80 + n) := by
    unfold Reg.MB_CTRL Reg.evtRaw
    omega
  refine (Dev.reg_raise_ne hraw _).trans ((Dev.reg_setBit_ne (hpair _ _ ?_ ?_) _ _).trans
    ((Dev.reg_setBit_ne (hpair _ _ ?_ ?_) _ _).trans ((Dev.reg_setBit_ne (hpair _ _ ?_ ?_) _ _).trans (Dev.reg_setFld_ne hstat _))))
  all_goals
    simp only [Reg.MB_TXREQ0, Reg.MB_TXREQ1, Reg.MB_TXABT0, Reg.MB_TXABT1, Reg.MB_TXFIN0, Reg.MB_TXFIN1]
    omega

/-- TEC 0, and the controller error-active: a frame sent leaves it so. -/
theorem Dev.tecGood_zero (htec : d.canTec n = 0) (hrec : d.canRec n < 128) (hstate : d.canState n = 2) :
    d.tecGood n = d.setFld (Reg.MB_ECNT n) 24 16 0 := by
  have hsame : (d.setFld (Reg.MB_ECNT n) 24 16 0).canClass n = (d.setFld (Reg.MB_ECNT n) 24 16 0).canState n := by
    have htec' : (d.setFld (Reg.MB_ECNT n) 24 16 0).canTec n = 0 := Dev.fld_setFld_same (by decide) (by decide) d
    have hrec' : (d.setFld (Reg.MB_ECNT n) 24 16 0).canRec n = d.canRec n :=
      Dev.fld_setFld_disjoint (by decide) (by decide) (by decide) d
    have hstate' : (d.setFld (Reg.MB_ECNT n) 24 16 0).canState n = d.canState n := Dev.fld_setFld_ne (by unfold Reg.MB_STAT Reg.MB_ECNT; omega) d
    rw [hstate', hstate, Dev.canClass, htec', hrec', if_neg (by decide), if_neg (by omega)]
  rw [Dev.tecGood, htec, Dev.canJudge]
  exact if_pos (.inl hsame)

/-- No held value takes effect. -/
theorem Dev.applyHeld_none {b : Nat} (h : vget none (d.ctl n).held b = none) : d.applyHeld n b = d := by
  simp only [Dev.applyHeld, h]

end

/-- An attempt of a classic frame ends. -/
theorem goes_canTxEnd {s : State} {n : Fin 4} {b : Fin 64} {o : TxOutcome} {tdcv : BitVec 7} {t : Dev}
    (hsend : (s.dev.ctl n.val).sending = some b) (hfdf : s.dev.bufBit n.val b.val 26 = false)
    (habort : s.dev.txAborting n.val b.val = false) (hheld : vget none (s.dev.ctl n.val).held b.val = none)
    (ht : t = s.dev.stopSending n.val) :
    (o = .arbLost → s.dev.bufBit n.val b.val 28 = false → Goes (.canTxEnd n o tdcv) s
      ((t.setFld (Reg.MB_BUF_STAT n.val b.val) 31 28 2).attemptOver n.val o)) ∧
    (o = .done → s.dev.canMode n.val = 1 → s.dev.canTec n.val = 0 → s.dev.canRec n.val < 128 → s.dev.canState n.val = 2 →
      Goes (.canTxEnd n o tdcv) s
        ((((t.setFld (Reg.MB_ECNT n.val) 24 16 0).setBuf n.val b.val
          { s.dev.buf n.val b.val with ts := (s.dev.ctl n.val).sofTs }).endRequest n.val b.val 1).attemptOver n.val o)) := by
  have hn := n.isLt
  have hctl : t.ctl n.val = { s.dev.ctl n.val with sending := none } := ht ▸ Dev.ctl_stopSending hn
  have hreg : ∀ k, k ≠ Reg.MB_STAT n.val → t.reg k = s.dev.reg k := fun k hk => ht ▸ Dev.reg_stopSending hk
  have hheld' : vget none (t.ctl n.val).held b.val = none := by rw [hctl, hheld]
  have hfdf' : (s.dev.txFrame n.val b.val).fdf = false := hfdf
  have hcfg : ∀ i, t.bufBit n.val b.val i = s.dev.bufBit n.val b.val i := fun i =>
    congrArg (bitAt i) (hreg _ (by unfold Reg.MB_BUF_CFG Reg.MB_STAT; omega))
  have habort' : t.txAborting n.val b.val = false := by
    rw [← habort]
    refine congrArg (bitAt (b.val % 32)) (hreg _ ?_)
    unfold pairKey Reg.MB_TXABT0 Reg.MB_TXABT1 Reg.MB_STAT
    split <;> omega
  constructor
  · rintro rfl hretry
    refine Goes.congr rfl ?_
    simp only [hsend, ← ht, hfdf', Bool.false_and, Dev.when_not, hheld', Option.isSome_none, Bool.false_eq_true, if_false, habort',
      hcfg, hretry, reduceCtorEq]
    exact congrArg (Dev.attemptOver n.val .arbLost) (Dev.applyHeld_none hheld')
  · rintro rfl hmode htec hrec hstate
    have hgood : t.tecGood n.val = t.setFld (Reg.MB_ECNT n.val) 24 16 0 := by
      have hecnt : t.reg (Reg.MB_ECNT n.val) = s.dev.reg (Reg.MB_ECNT n.val) := hreg _ (by unfold Reg.MB_ECNT Reg.MB_STAT; omega)
      refine Dev.tecGood_zero ?_ ?_ ?_
      · rwa [Dev.canTec, Dev.fld, hecnt]
      · rwa [Dev.canRec, Dev.fld, hecnt]
      · rw [ht, Dev.canState_stopSending, hstate]
    obtain ⟨w, hw⟩ : ∃ w, w = ((t.setFld (Reg.MB_ECNT n.val) 24 16 0).setBuf n.val b.val
      { s.dev.buf n.val b.val with ts := (s.dev.ctl n.val).sofTs }).endRequest n.val b.val 1 := ⟨_, rfl⟩
    have hwmode : w.canMode n.val = 1 := by
      have hctrl : w.reg (Reg.MB_CTRL n.val) = s.dev.reg (Reg.MB_CTRL n.val) := by
        rw [hw, Dev.reg_ctrl_endRequest]
        exact (Dev.reg_setFld_ne (by unfold Reg.MB_CTRL Reg.MB_ECNT; omega) _).trans (hreg _ (by unfold Reg.MB_CTRL Reg.MB_STAT; omega))
      unfold Dev.canMode Dev.fld at hmode ⊢
      rw [hctrl, hmode]
    have hwheld : vget none (w.ctl n.val).held b.val = none := by
      have hwctl : w.ctl n.val = ((t.setFld (Reg.MB_ECNT n.val) 24 16 0).setBuf n.val b.val
        { s.dev.buf n.val b.val with ts := (s.dev.ctl n.val).sofTs }).ctl n.val := hw ▸ rfl
      rw [hwctl, Dev.setBuf, Dev.ctl_modCtl hn]
      exact hheld'
    have hbuf : (t.setFld (Reg.MB_ECNT n.val) 24 16 0).buf n.val b.val = s.dev.buf n.val b.val := by
      show vget ({} : CanBuf) (t.ctl n.val).bufs b.val = s.dev.buf n.val b.val
      rw [hctl]
      rfl
    have hsof : ((t.setFld (Reg.MB_ECNT n.val) 24 16 0).ctl n.val).sofTs = (s.dev.ctl n.val).sofTs := by
      show (t.ctl n.val).sofTs = (s.dev.ctl n.val).sofTs
      rw [hctl]
    have hnormal : (1 == 3) = false := rfl
    refine Goes.congr rfl ?_
    simp only [hsend, ← ht, hfdf', Bool.false_and, Dev.when_not, if_true, hgood, hbuf, hsof, ← hw, hwmode, hnormal, Dev.applyHeld_none hwheld]

/-! ### Filters (R563, R582) -/

/-- A change of a filter's identifier, by a master that may use its buffer. -/
theorem Dev.filterOp_id {m : Master} {n f : Nat} {v : Word} {d : Dev} (huse : d.mayUseBuf m n (d.fld (Reg.MB_FLT_MASK n f) 31 26) = true) :
    d.filterOp m n f false v = (d.setReg (Reg.MB_FLT_ID n f) (v &&& 0xDFFFFFFF)).when (v &&& 0xDFFFFFFF != d.reg (Reg.MB_FLT_ID n f))
      (Dev.bufRoleChange n (d.fld (Reg.MB_FLT_MASK n f) 31 26)) := by
  have hpass : (d.bufBit n (d.fld (Reg.MB_FLT_MASK n f) 31 26) 29 && m != .medlar) = false := by
    have hbuf : ¬ 64 ≤ d.fld (Reg.MB_FLT_MASK n f) 31 26 := Nat.not_le.mpr (fld_lt 31 26 _)
    rw [Dev.mayUseBuf, decide_eq_false hbuf, Bool.false_or, beq_iff_eq] at huse
    rw [huse, bne, Bool.and_not_self]
  have hafter : (d.setReg (Reg.MB_FLT_ID n f) (v &&& 0xDFFFFFFF)).fld (Reg.MB_FLT_MASK n f) 31 26 = d.fld (Reg.MB_FLT_MASK n f) 31 26 :=
    congrArg (Machine.fld 31 26) (Dev.reg_setReg_ne (by unfold Reg.MB_FLT_ID Reg.MB_FLT_MASK; omega) _ _)
  simp only [Dev.filterOp, filterKey, hpass, hafter, Bool.false_eq_true, if_false, bne_self_eq_false, Bool.and_false, Dev.when_not]

/-- Settles O27: each command of buffers, frames, filters and windows takes its branch. -/
theorem busBuffersComplete : Obligations.BusBuffersComplete := by
  unfold Obligations.BusBuffersComplete
  rintro s m n b v _ rfl
  refine ⟨fun f hbus hloop => ⟨fun hrec hsend => ?sof, fun hrec hhead => ?arbitration, fun h hrec hhead hide hid hfdf hlisten =>
    ⟨fun g htarget hgen hroom => ?stored, fun g htarget hgen => ?orphan, fun htarget => ?noMatch⟩⟩, fun w hw h huse => ?release,
    fun w hw huse => ⟨fun h hrole hidle => ?request, fun h hpend hsending => ?abortSent, fun h hpend hsending => ?abortNow⟩,
    fun hbus hlisten hfree hselect => ?start, fun hsend hmode hfdf habort hheld tdcv => ⟨fun hretry => ?lost, fun htec hrec hstate => ?done⟩,
    fun h howner hrole => ?bufCfg, fun f k o hk ho h huse => ?filter, fun w h hmay => ?window⟩
  case sof =>
    refine Goes.congr rfl ((if_neg ?_).trans (if_neg ?_))
    · rw [hbus, Bool.not_true, Bool.false_or, beq_iff_eq]
      exact hloop
    · rw [hrec, hsend]
      decide
  case arbitration =>
    refine Goes.congr rfl ((if_neg ?_).trans (if_neg ?_))
    · rw [hbus, Bool.not_true, Bool.false_or, beq_iff_eq]
      exact hloop
    · rw [hrec, hhead]
      decide
  case stored =>
    obtain ⟨u, hu⟩ : ∃ u, u = (((s.dev.noteRx n.val b.val (f.stored (s.dev.ctl n.val).sofTs)).setBuf n.val b.val
      (f.stored (s.dev.ctl n.val).sofTs)).setRxFull n.val b.val true).raise (0x80 + n.val) 7 := ⟨_, rfl⟩
    have haccept : u = s.dev.acceptFrame n.val f h.target := by
      rw [htarget, Dev.acceptFrame_target, if_neg (not_not_intro hgen), Dev.storeFrame_room b.isLt hroom, hu]
    have hgoes := goes_canFrameReceive_valid hbus hlisten hrec hhead hide hid hfdf haccept
    exact ⟨_, u, rfl, hu, fun hplain => Goes.congr hgoes (Dev.when_not hplain), fun hreset => Goes.congr hgoes (Dev.when_of hreset)⟩
  case orphan =>
    obtain ⟨u, hu⟩ : ∃ u, u = (s.dev.raise (0x80 + n.val) 13).bumpSat (Reg.MB_ORPHAN_CNT n.val) 15 0 := ⟨_, rfl⟩
    have haccept : u = s.dev.acceptFrame n.val f h.target := by rw [htarget, Dev.acceptFrame_target, if_pos hgen, hu]
    exact ⟨u, hu, fun hplain => Goes.congr (goes_canFrameReceive_valid hbus hlisten hrec hhead hide hid hfdf haccept) (Dev.when_not hplain)⟩
  case noMatch =>
    obtain ⟨u, hu⟩ : ∃ u, u = s.dev.bumpSat (Reg.MB_NOMATCH_CNT n.val) 15 0 := ⟨_, rfl⟩
    have haccept : u = s.dev.acceptFrame n.val f h.target := by rw [htarget, hu, Dev.acceptFrame]
    exact ⟨u, hu, fun hplain => Goes.congr (goes_canFrameReceive_valid hbus hlisten hrec hhead hide hid hfdf haccept) (Dev.when_not hplain)⟩
  case release =>
    exact Goes.congr rfl ((Dev.accessWrite_reaches h (keyedWrite_release n w _)).trans
      ((if_pos (by omega)).trans (Dev.bufBits_one hw huse rfl)))
  case request =>
    exact Goes.congr (goes_txreq _ h) (Dev.bufBits_one hw huse (by rw [hrole, hidle]; rfl))
  case abortSent =>
    refine Goes.congr rfl ((Dev.accessWrite_reaches h (keyedWrite_txabt n w _)).trans ((Dev.bufBits_one hw huse rfl).trans ?_))
    simp only [Dev.abortTx, hpend, hsending, Bool.not_true, Bool.false_eq_true, if_false, if_true]
  case abortNow =>
    refine Goes.congr rfl ((Dev.accessWrite_reaches h (keyedWrite_txabt n w _)).trans ((Dev.bufBits_one hw huse rfl).trans ?_))
    simp only [Dev.abortTx, hpend, hsending, Bool.not_true, Bool.false_eq_true, if_false]
  case start =>
    refine Goes.congr rfl ((if_neg ?_).trans ?_)
    · rw [hbus, hfree, beq_eq_false_iff_ne.mpr hlisten]
      decide
    · simp only [hselect, b.isLt, dite_true, Fin.eta]
  case lost => exact (goes_canTxEnd hsend hfdf habort hheld rfl).1 rfl hretry
  case done => exact (goes_canTxEnd hsend hfdf habort hheld rfl).2 rfl hmode htec hrec hstate
  case bufCfg =>
    refine Goes.congr rfl ((Dev.accessWrite_reaches h (keyedWrite_bufCfg n b v)).trans ((if_neg ?_).trans (if_neg ?_)))
    · rw [howner]
      exact Bool.false_ne_true
    · rw [beq_eq_false_iff_ne.mpr hrole]
      exact Bool.false_ne_true
  case filter =>
    subst hk ho
    have hgoes : Goes (.filterWrite m n f false v) s _ :=
      Goes.congr rfl ((Dev.accessWrite_reaches h (keyedWrite_filter n f v)).trans (Dev.filterOp_id huse))
    exact ⟨fun hsame => Goes.congr hgoes (Dev.when_not (bne_eq_false_iff_eq.mpr hsame)),
      fun hnew => Goes.congr hgoes (Dev.when_of (bne_iff_ne.mpr hnew))⟩
  case window =>
    refine Goes.congr rfl ((Dev.accessWrite_reaches h (keyedWrite_window n w v)).trans (if_pos ?_))
    rw [mayUseWindow, Bool.or_eq_true, beq_iff_eq, beq_iff_eq]
    exact hmay

end Sys2Proof.Machine

/-! SUPPORT. Completion of the check-value units (R588 to R600). -/

namespace Sys2Proof.Machine

/-! ### Commands of a unit -/

section

variable {m : Master} {n : Fin 4} {d : Dev}

/-- The claim lets a write pass. -/
theorem Dev.crcGuard_free {k : Nat} {op : Dev → Dev} (hfree : d.crcBarred m n.val = false) : d.crcGuard m n.val k op = op d := by
  rw [Dev.crcGuard, hfree, if_neg Bool.false_ne_true]

/-- A command on a unit that no other master holds. -/
theorem Dev.crcCommand_reaches (h : d.Reaches m (Reg.CRC_CMD n.val)) (hfree : d.crcBarred m n.val = false) (code : Nat) :
    d.crcCommand m n code = d.crcCmdOp n code := by
  have hkeyed := keyedWrite_none (v := word code) (key := fun n : Fin 4 => Reg.CRC_CMD n.val) (by decide) n
  rw [Dev.crcCommand, Dev.accessWrite_reaches h hkeyed, Dev.crcGuard_free hfree]

/-- While a run is under way every command but ABORT is refused. -/
theorem Dev.crcCmdOp_busy (hon : d.crcOn n.val = true) (hbusy : d.crcBusy n.val = true) {code : Nat} (hcode : code ≠ 3) :
    d.crcCmdOp n code = d.raise (0x88 + n.val) 4 := by
  simp only [Dev.crcCmdOp, hon, hbusy, hcode, Bool.not_true, Bool.false_eq_true, if_false, if_true, Dev.crcRefuse, ite_self]

/-- With no run under way, INIT, START and CHECK act. -/
theorem Dev.crcCmdOp_idle (hon : d.crcOn n.val = true) (hidle : d.crcBusy n.val = false) :
    d.crcCmdOp n 1 = d.crcInitNow n.val ∧
    d.crcCmdOp n 2 = (if d.fld (Reg.CRC_LEN n.val) 23 0 = 0 then d.crcComplete n.val
      else (d.setBit (Reg.CRC_STAT n.val) 0 true).modCrc n.val (fun x => { x with startAt := d.now })) ∧
    d.crcCmdOp n 4 = d.crcCompare n.val := by
  simp [Dev.crcCmdOp, hon, hidle]

end

/-- Settles O28: each command of a unit takes its branch. -/
theorem checkUnitsComplete : Obligations.CheckUnitsComplete := by
  unfold Obligations.CheckUnitsComplete
  rintro s m n v _ rfl hfree
  have hclaims : s.dev.Reaches m (Reg.CRC_CLAIM n.val) → Goes (.claim m n v) s (s.dev.crcClaimOp m n.val v) := fun h =>
    Goes.congr rfl ((Dev.accessWrite_reaches h (keyedWrite_none (key := fun n : Fin 4 => Reg.CRC_CLAIM n.val) (by decide) n)).trans
      (Dev.crcGuard_free hfree))
  refine ⟨fun h hon hidle => ?idle, fun t h hon hbusy ht => ?busy, fun t hbusy hheld ht => ⟨fun hall => ?done, fun hpart hregion => ?refused⟩,
    fun hon hidle => ⟨fun h => ?din, fun h => ?dinB⟩, fun hno h => ?discard, fun h hidle => ?runWrite,
    fun h => ⟨fun hset hclaim => ?claim, fun hset hclaim => ?release⟩⟩
  case idle =>
    have hcmd := Dev.crcCommand_reaches h hfree
    obtain ⟨hinit, hstart, hcheck⟩ := Dev.crcCmdOp_idle hon hidle
    exact ⟨Goes.congr rfl ((hcmd 1).trans hinit), fun hlen => Goes.congr rfl ((hcmd 2).trans (hstart.trans (if_neg hlen))),
      fun hlen => Goes.congr rfl ((hcmd 2).trans (hstart.trans (if_pos hlen))), Goes.congr rfl ((hcmd 4).trans hcheck)⟩
  case busy =>
    have hcmd := Dev.crcCommand_reaches h hfree
    have hrefused : ∀ code, code ≠ 3 → s.dev.crcCommand m n code = s.dev.raise (0x88 + n.val) 4 :=
      fun code hcode => (hcmd code).trans (Dev.crcCmdOp_busy hon hbusy hcode)
    refine ⟨Goes.congr rfl ((hcmd 3).trans ?_), Goes.congr rfl (hrefused 1 (by decide)), Goes.congr rfl (hrefused 2 (by decide)),
      Goes.congr rfl (hrefused 4 (by decide))⟩
    have hreg : ∀ k, t.reg k = s.dev.reg k := by
      intro k
      rw [ht, Dev.touchAt]
      split <;> rfl
    have hbusy' : t.crcBusy n.val = true := by rw [← hbusy, Dev.crcBusy, Dev.bit, hreg, Dev.crcBusy, Dev.bit]
    have hsrc : (t.reg (Reg.CRC_SRC n.val)).toNat = (s.dev.reg (Reg.CRC_SRC n.val)).toNat := by rw [hreg]
    have hnow : t.crcNow n = t.crcFeed n.val (t.bytesAt (s.dev.reg (Reg.CRC_SRC n.val)).toNat (t.crcFed n)) := by
      rw [← hsrc]
      exact if_pos hbusy'
    rw [← hnow, ht]
    simp only [Dev.crcCmdOp, hon, hbusy, Bool.not_true, Bool.false_eq_true, if_false, if_true, Nat.reduceEqDiff, Dev.crcAbortNow]
  case done =>
    subst ht
    refine Goes.congr rfl ((Dev.when_of (by rw [hbusy, hheld]; rfl)).trans ?_)
    exact if_pos hall
  case refused =>
    subst ht
    refine Goes.congr rfl ((Dev.when_of (by rw [hbusy, hheld, bne_iff_ne.mpr hpart]; rfl)).trans ((if_neg hpart).trans ?_))
    simp only [hregion]
  case din => exact Goes.congr (goes_din h hfree) (Dev.crcDataOp_feeds hon hidle)
  case dinB =>
    rw [BitVec.setWidth_eq_extractLsb' (by decide)]
    exact Goes.congr (goes_dinB h hfree) (Dev.crcDataOp_feeds hon hidle)
  case discard => exact Goes.congr (goes_din h hfree) (Dev.crcDataOp_discards hno)
  case runWrite =>
    exact Goes.congr rfl ((Dev.accessWrite_reaches h (keyedWrite_none (key := fun n : Fin 4 => Reg.CRC_RUN n.val) (by decide) n)).trans
      ((Dev.crcGuard_free hfree).trans (if_neg (by rw [hidle]; exact Bool.false_ne_true))))
  case claim =>
    refine Goes.congr (hclaims h) ?_
    simp only [Dev.crcClaimOp, hset, hclaim, if_true, Bool.false_eq_true, if_false]
  case release =>
    refine Goes.congr (hclaims h) ?_
    simp only [Dev.crcClaimOp, hset, hclaim, if_true, Bool.false_eq_true, if_false]

end Sys2Proof.Machine

/-! SUPPORT. Completion of the capture path, the event log and the scrub engine (R611 to R618). -/

namespace Sys2Proof.Machine

/-! ### Capture (R612) -/

/-- The bytes of memory are beside the capture path. -/
theorem Dev.capture_setBytes (a : Nat) (bs : List Byte) (d : Dev) : (Dev.setBytes a bs d).capture = d.capture := by
  induction bs generalizing a d with
  | nil => rfl
  | cons b bs ih =>
    have hbyte : (d.setByte a b).capture = d.capture := by
      unfold Dev.setByte
      split <;> rfl
    rw [Dev.setBytes, ih, hbyte]

/-- The first trigger of a capture with records left to take. -/
theorem Dev.captureTrigger_first {d : Dev} (hmode : d.fld Reg.DRAM_CAP_CTRL 1 0 = 2) (hrun : d.bit Reg.DRAM_STAT 8 = false)
    (hfirst : d.reg Reg.DRAM_CAP_TRIG_PTR = 0xFFFFFFFF) (hpost : d.fld Reg.DRAM_CAP_POST 23 0 ≠ 0) {t : Dev}
    (ht : t = (d.setReg Reg.DRAM_CAP_TRIG_PTR (d.reg Reg.DRAM_CAP_WPTR)).raise 0xA0 0) :
    d.captureTrigger = Dev.putCapture { t.capture with postLeft := some (d.fld Reg.DRAM_CAP_POST 23 0) } t := by
  have hsame : t.fld Reg.DRAM_CAP_POST 23 0 = d.fld Reg.DRAM_CAP_POST 23 0 :=
    congrArg (Machine.fld 23 0) (ht ▸ (Dev.reg_raise_ne (by decide) _).trans (Dev.reg_setReg_ne (by decide) _ _))
  simp only [Dev.captureTrigger, hmode, hrun, hfirst, ← ht, hsame, hpost, true_or, and_self, if_true, if_false, Bool.false_eq_true]

/-! ### The scrub engine (R616, R618) -/

section

variable {d : Dev} {f : ScrubFindings}

/-- A controller is READY by its own state and hold. -/
theorem Dev.dramReady_congr {t : Dev} (hreg : t.reg Reg.DRAM_STAT = d.reg Reg.DRAM_STAT) (hreset : t.reset = d.reset) :
    t.dramReady = d.dramReady := by
  unfold Dev.dramReady Dev.fld Dev.pageHeld
  rw [hreg, hreset]

/-- The count of a pass, and its miss, are beside the controller. -/
theorem Dev.dramReady_passEnds (late : Bool) : (d.passEnds late Reg.SCRUB_DRAM_STAT).dramReady = d.dramReady := by
  cases late
  · exact Dev.dramReady_congr (Dev.reg_bumpWrap_ne (by decide) d) rfl
  · exact Dev.dramReady_congr ((Dev.reg_raise_ne (by decide) _).trans (Dev.reg_setBit_ne (by decide) _ _)) rfl

/-- A pass over the memories of the SRAM kind ends in its interval, or after it. -/
theorem goes_sramScrubPass {s : State} (hheld : s.dev.pageHeld 0xA1 = false) (hdue : s.dev.mgmt.sramAt ≤ s.dev.now) {t u w : Dev}
    (ht : t = Dev.putMgmt { s.dev.mgmt with sramAt := nextInterval s.dev.mgmt.sramAt sramPeriod s.dev.now } s.dev)
    (hu : u = if s.dev.mgmt.sramAt + 400000000 < s.dev.now then (t.setBit Reg.SCRUB_SRAM_STAT 31 true).raise 0xA1 4
      else t.bumpWrap Reg.SCRUB_SRAM_STAT 15 0)
    (hw : w = u.scrubPass (f.fixed.filter inSramPass) (f.bad.filter inSramPass) Reg.SCRUB_SRAM_CORR Reg.SCRUB_SRAM_UNC
      Reg.SCRUB_SRAM_UNC_ADDR 0) :
    Goes (.sramScrubPass f) s (Dev.scrubL2 f.l2Fixed f.l2Bad (each f.triadBad
      (fun t d => (d.scrubUnc Reg.SCRUB_SRAM_UNC Reg.SCRUB_SRAM_UNC_ADDR 1 [t.1]).eccRepair t.1 t.2)
      (each (f.bad.filter inSramPass) Dev.tcmUnc (each (f.fixed.filter inSramPass) Dev.tcmCorrected w)))) := by
  have hnow : t.now = s.dev.now := ht ▸ rfl
  have hends : t.passEnds (decide (s.dev.mgmt.sramAt + sramPeriod < t.now)) Reg.SCRUB_SRAM_STAT = u := by
    rw [hu, Dev.passEnds, hnow, sramPeriod]
    simp only [decide_eq_true_eq]
  refine Goes.congr rfl ((if_neg ?_).trans ?_)
  · rw [hheld, decide_eq_false (Nat.not_lt.mpr hdue)]
    exact Bool.false_ne_true
  · rw [hw, ← hends, ht]

/-- A pass over the DRAM, in its interval with the controller READY, or after it. -/
theorem goes_dramScrubPass {s : State} (hheld : s.dev.pageHeld 0xA1 = false) (hdue : s.dev.mgmt.dramPassAt ≤ s.dev.now) {t u : Dev}
    {late : Bool} (hlate : late = decide (s.dev.mgmt.dramPassAt + 24000000000 < s.dev.now)) (hok : late = true ∨ s.dev.dramReady = true)
    (ht : t = Dev.putMgmt { s.dev.mgmt with dramPassAt := nextInterval s.dev.mgmt.dramPassAt dramPeriod s.dev.now } s.dev)
    (hu : u = t.passEnds late Reg.SCRUB_DRAM_STAT) :
    Goes (.dramScrubPass f) s (if s.dev.dramReady = false then u else u.touchDram.scrubPass (f.fixed.filter inDramPass)
      (f.bad.filter inDramPass) Reg.SCRUB_DRAM_CORR Reg.SCRUB_DRAM_UNC Reg.SCRUB_DRAM_UNC_ADDR 2) := by
  have hready : u.dramReady = s.dev.dramReady := by
    rw [hu, Dev.dramReady_passEnds, ht]
    rfl
  have hlate' : decide (s.dev.mgmt.dramPassAt + dramPeriod < s.dev.now) = late := by rw [hlate, dramPeriod]
  refine Goes.congr rfl ((if_neg ?_).trans ?_)
  · rw [hlate', hheld, decide_eq_false (Nat.not_lt.mpr hdue)]
    obtain h | h := hok <;> simp [h]
  · simp only [hlate', ← ht, ← hu, hready, Bool.not_eq_true']

end

/-- Settles O29: each command of the capture path, the event log and the scrub engine takes its branch. -/
theorem captureAndScrubComplete : Obligations.CaptureAndScrubComplete := by
  unfold Obligations.CaptureAndScrubComplete
  rintro s m _ rfl
  refine ⟨fun r rest n t hfifo hmode hrun hready hpost hn ht => ?record, fun h => ⟨?restart, fun hmode hrun hpost hfirst hleft => ?trigger,
    ?freeze⟩, fun hup hready => ⟨fun p bits hpage hbits hnew => ?event, fun c rest r hstates hr => ?state, fun hdue => ?reset⟩,
    fun f t u w hheld => ⟨fun hdue ht hu hw => goes_sramScrubPass hheld hdue ht hu hw, fun hdue ht => ⟨fun htime _ hready => ?dram,
    fun hlate hready => ?dramLate⟩⟩⟩
  case record =>
    subst hn ht
    have hleft : ∀ v, ((Dev.setBytes (0x80000000 + s.dev.fld Reg.DRAM_CAP_WPTR 25 0) r (Dev.touchDram (Dev.putCapture
        { s.dev.capture with fifo := rest } s.dev))).setFld Reg.DRAM_CAP_WPTR 25 0 v).capture.postLeft = none := by
      intro v
      refine (congrArg Capture.postLeft (Dev.capture_setBytes _ _ _)).trans ?_
      exact hpost
    refine Goes.congr rfl ?_
    simp only [hfifo, hmode, hrun, hready, Bool.false_eq_true, or_self, if_false, reduceCtorEq, hleft]
  case restart => exact Goes.congr rfl (Dev.accessWrite_reaches h (by decide))
  case trigger =>
    exact ⟨_, rfl, Goes.congr rfl ((Dev.accessWrite_reaches h (by decide)).trans (Dev.captureTrigger_first hmode hrun hfirst hleft rfl))⟩
  case freeze => exact Goes.congr rfl (Dev.accessWrite_reaches h (by decide))
  case event =>
    subst hbits
    refine ⟨_, rfl, Goes.congr rfl ((if_neg ?_).trans ((if_pos hpage).trans (if_neg hnew)))⟩
    rw [hup, hready]
    decide
  case state =>
    subst hr
    refine Goes.congr rfl ((if_neg ?_).trans ?_)
    · rw [hup, hready]
      decide
    · simp only [hstates]
  case reset =>
    refine Goes.congr rfl ((if_neg ?_).trans (if_pos hdue))
    rw [hup, hready]
    decide
  case dram =>
    have hlate : false = decide (s.dev.mgmt.dramPassAt + 24000000000 < s.dev.now) := (decide_eq_false (Nat.not_lt.mpr htime)).symm
    subst ht
    exact Goes.congr (goes_dramScrubPass hheld hdue hlate (.inr hready) rfl rfl) (if_neg (fun h => Bool.false_ne_true (h.symm.trans hready)))
  case dramLate =>
    subst ht
    exact Goes.congr (goes_dramScrubPass hheld hdue (decide_eq_true hlate).symm (.inl rfl) rfl rfl) (if_pos hready)

end Sys2Proof.Machine

/-! SUPPORT. Completion of Medlar's services (R619 to R624). -/

namespace Sys2Proof.Machine

/-! ### The journal and the safety log (R620, R621) -/

section

variable {s : State}

/-- A compaction that is due, with the journal in use. -/
theorem goes_journalCompaction {ok : Bool} (hup : s.dev.medlarUp = true)
    (hdue : ∀ t, s.dev.mgmt.compactAt = some t → t + 4000000000 ≤ s.dev.now) (huse : s.dev.bit Reg.MGT_JOURNAL_STAT 30 = false) :
    Goes (.journalCompaction ok) s (if ok = false then s.dev.journalFail else Dev.journalStat
      (Dev.putMgmt { s.dev.mgmt with journal := liveRecords s.dev.mgmt.journal, compactAt := some s.dev.now } s.dev)) := by
  refine Goes.congr rfl ?_
  simp only [hup, huse, Bool.not_true, Bool.false_or, Bool.or_false, Bool.not_eq_true']
  cases h : s.dev.mgmt.compactAt with
  | none => simp only [Bool.true_eq_false, if_false]
  | some t => simp only [decide_eq_true (hdue t h), Bool.true_eq_false, if_false]

/-- A record of the journal is beside Sloe. -/
theorem Dev.sloe_journalAppend (kind : Nat) (data : List Byte) (d : Dev) : (d.journalAppend kind data).sloe = d.sloe := by
  unfold Dev.journalAppend
  split <;> rfl

end

/-! ### The mailbox (R623, R624) -/

/-- What a command's word says: its sequence number and its code. -/
theorem fld_command (q : BitVec 8) {code : Nat} (hcode : code < 256) :
    fld 7 0 (place 31 24 q.toNat ||| place 7 0 code) = code ∧ fld 31 24 (place 31 24 q.toNat ||| place 7 0 code) = q.toNat := by
  have hhigh : ∀ {x j : Nat}, x < 256 → ¬ j < 8 → x.testBit j = false := fun hx hj =>
    Nat.testBit_lt_two_pow (Nat.lt_of_lt_of_le hx (Nat.pow_le_pow_right (n := 2) (i := 8) (by decide) (Nat.not_lt.mp hj)))
  have hbit : ∀ i, bitAt i (place 31 24 q.toNat ||| place 7 0 code) = (bitAt i (place 31 24 q.toNat) || bitAt i (place 7 0 code)) :=
    fun i => BitVec.getLsbD_or
  constructor
  · apply Nat.eq_of_testBit_eq
    intro j
    rw [testBit_fld, hbit, bitAt_place, bitAt_place]
    by_cases hj : j < 8
    · simp [hj, show ¬ 24 ≤ j by omega, show j < 32 by omega]
    · simp [hj, hhigh hcode hj]
  · apply Nat.eq_of_testBit_eq
    intro j
    rw [testBit_fld, hbit, bitAt_place, bitAt_place]
    by_cases hj : j < 8
    · simp [hj, show 24 + j < 32 by omega, show ¬ 24 + j < 8 by omega]
    · simp [hj, hhigh q.isLt hj]

/-- Medlar runs by the stage of the boot, its page's hold and its own halt. -/
theorem Dev.medlarUp_congr {d t : Dev} (hreg : t.reg Reg.SYS_BOOT = d.reg Reg.SYS_BOOT) (hreset : t.reset = d.reset)
    (hmgmt : t.mgmt = d.mgmt) : t.medlarUp = d.medlarUp := by
  unfold Dev.medlarUp Dev.fld Dev.pageHeld
  rw [hreg, hreset, hmgmt]

/-- A command in the mailbox is beside it. -/
theorem Dev.medlarUp_postMbx (v : Word) (d : Dev) :
    ((d.setReg Reg.MGT_MBX_CMD v).setBit Reg.MGT_MBX_STAT 0 true).medlarUp = d.medlarUp :=
  Dev.medlarUp_congr ((Dev.reg_setBit_ne (by decide) _ _).trans (Dev.reg_setReg_ne (by decide) _ _)) rfl rfl

/-- A command that no other is ahead of runs at once. -/
theorem Dev.mgtCommand_runs {m : Master} {code : Nat} {q : BitVec 8} {ok : Bool} {d : Dev} (h : d.Reaches m Reg.MGT_MBX_CMD)
    (hfree : d.bit Reg.MGT_MBX_STAT 0 = false) (hup : d.medlarUp = true) (hcode : code < 256) : d.mgtCommand m code q ok =
      ((d.setReg Reg.MGT_MBX_CMD (place 31 24 q.toNat ||| place 7 0 code)).setBit Reg.MGT_MBX_STAT 0 true).mgtRun code q.toNat ok := by
  obtain ⟨hcmd, hseq⟩ := fld_command q hcode
  have hkeyed : keyedWrite Reg.MGT_MBX_CMD (place 31 24 q.toNat ||| place 7 0 code) = false := keyedWrite_false (by decide)
  refine (Dev.accessWrite_reaches h hkeyed).trans ?_
  simp only [Dev.mgtPost, hfree, Bool.false_eq_true, if_false, Dev.medlarUp_postMbx, hup, if_true, hcmd, hseq]

/-- Settles O30: each service takes its branch. -/
theorem medlarServicesComplete : Obligations.MedlarServicesComplete := by
  unfold Obligations.MedlarServicesComplete
  rintro s m q _ rfl
  refine ⟨fun hup hdue huse => ⟨?compacted, ?fails⟩, fun e rest hlog hup huse => ⟨_, rfl, fun h => ?transfer⟩,
    fun x t hservice hup hdue ht => ⟨fun hlate => ?missed, fun htime r u hr hu => ?taken⟩, fun code f op c hmem h hfree hup => ?mailbox⟩
  case compacted => exact Goes.congr (goes_journalCompaction hup hdue huse) (if_neg Bool.false_ne_true.symm)
  case fails => exact Goes.congr (goes_journalCompaction hup hdue huse) (if_pos rfl)
  case transfer =>
    have hlog' : (s.dev.journalAppend 1 e).sloe.log = e :: rest := by rw [Dev.sloe_journalAppend, hlog]
    refine Goes.congr rfl ?_
    simp only [hlog, hup, huse, Bool.not_true, Bool.or_self, Bool.false_eq_true, if_false]
    rw [Dev.accessWrite_reaches h (keyedWrite_false (by decide)), Dev.logAckOp, hlog']
    exact if_pos ⟨rfl, rfl⟩
  case missed =>
    subst ht
    refine Goes.congr rfl ?_
    simp only [hservice, hup, Nat.not_lt.mpr hdue, hlate, Bool.not_true, Bool.false_or, decide_true, decide_false, Bool.false_eq_true,
      if_false, if_true]
  case taken =>
    subst ht hr hu
    refine Goes.congr rfl ?_
    simp only [hservice, hup, Nat.not_lt.mpr hdue, Nat.not_lt.mpr htime, Bool.not_true, Bool.false_or, decide_false, Bool.false_eq_true,
      if_false]
    rfl
  case mailbox =>
    simp only [List.mem_cons, Prod.mk.injEq, List.not_mem_nil, or_false] at hmem
    obtain ⟨rfl, rfl, rfl, rfl⟩ | ⟨rfl, rfl, rfl, rfl⟩ | ⟨rfl, rfl, rfl, rfl⟩ | ⟨rfl, rfl, rfl, rfl⟩ | ⟨rfl, rfl, rfl, rfl⟩ |
      ⟨rfl, rfl, rfl, rfl⟩ := hmem
    all_goals
      refine Goes.congr rfl ((Dev.mgtCommand_runs h hfree hup (by decide)).trans ?_)
      simp only [Dev.mgtRun, Nat.reduceEqDiff, if_true, if_false]

end Sys2Proof.Machine

/-! SUPPORT. Completion of the host SPI port (R626 to R630). -/

namespace Sys2Proof.Machine

section

variable {ns : Nat} {ok : Bool} {zeros : List Word} {op : Dev → Dev} {d : Dev}

/-- A frame with its CRC right executes. -/
theorem Dev.hostFrame_executes (htakes : d.hostTakes ns = true) (hok : ok = true) : d.hostFrame ns ok zeros op = op d := by
  rw [Dev.hostFrame, if_pos htakes, if_pos hok]

/-- Any other is counted, and answered. -/
theorem Dev.hostFrame_fails (htakes : d.hostTakes ns = true) (hbad : ok = false) : d.hostFrame ns ok zeros op = d.hostCrcFail zeros := by
  rw [Dev.hostFrame, if_pos htakes, hbad, if_neg Bool.false_ne_true]

end

/-- Settles O31: each frame takes its branch. -/
theorem hostFramesComplete : Obligations.HostFramesComplete := by
  unfold Obligations.HostFramesComplete
  rintro s ns a _ rfl
  have hbad : ∀ {x c : BitVec 16}, x ≠ c → (x == c) = false := beq_eq_false_iff_ne.mpr
  refine ⟨fun htakes => ⟨fun k l ecc same t ht hup r hr => ?read, fun ws c hc => ⟨fun hroom => ?queued, fun hfull => ?full⟩, fun c => ?nop,
    fun c => ⟨fun r hreach => ?reset, fun hreach => ?noReach⟩, fun cmd c => ?unknown, fun c x => ⟨_, rfl, fun hx => ?nopCrc, fun hx => ?resetCrc,
    fun ws hx => ?writeCrc⟩, ?abort⟩, fun w v rest hqueue => ?issue⟩
  case read =>
    subst hr ht
    exact Goes.congr rfl ((Dev.hostFrame_executes htakes (beq_self_eq_true _)).trans (if_pos hup))
  case queued => exact Goes.congr rfl ((Dev.hostFrame_executes htakes (beq_iff_eq.mpr hc)).trans (if_pos hroom))
  case full => exact Goes.congr rfl ((Dev.hostFrame_executes htakes (beq_iff_eq.mpr hc)).trans (if_neg (Nat.not_le.mpr hfull)))
  case nop => exact Goes.congr rfl (Dev.hostFrame_executes htakes (beq_self_eq_true _))
  case reset =>
    refine ⟨_, rfl, Goes.congr rfl ((Dev.hostFrame_executes htakes (beq_self_eq_true _)).trans ?_)⟩
    simp only [Dev.hostReset, hreach]
  case noReach =>
    refine Goes.congr rfl ((Dev.hostFrame_executes htakes (beq_self_eq_true _)).trans ?_)
    simp only [Dev.hostReset, hreach]
  case unknown => exact Goes.congr rfl (Dev.hostFrame_executes htakes (beq_self_eq_true _))
  case nopCrc => exact Goes.congr rfl (Dev.hostFrame_fails htakes (hbad hx))
  case resetCrc => exact Goes.congr rfl (Dev.hostFrame_fails htakes (hbad hx))
  case writeCrc => exact Goes.congr rfl (Dev.hostFrame_fails htakes (hbad hx))
  case abort => exact Goes.congr rfl (Dev.when_of htakes)
  case issue =>
    refine Goes.congr rfl ?_
    simp only [Dev.hostIssue, hqueue]

end Sys2Proof.Machine

/-! SUPPORT. Completion of the network (R632 to R637). -/

namespace Sys2Proof.Machine

section

variable {n : Nat} {p : EthPeer} {q : Word} {ok : Bool} {op : Dev → Dev} {d t : Dev}

/-- A request that is taken in, of a permitted source and of the right length: it executes, or its stored reply goes out again. -/
theorem Dev.ethRequest_new (hport : d.portUp n = true) (htake : d.ethTake n = (true, t)) (hup : t.medlarUp = true)
    (hsource : t.permitsSource p.ip = true) (hlen : ok = true) (hnew : t.net.last = none) : d.ethRequest n p q ok op = op t := by
  simp only [Dev.ethRequest, hport, htake, hup, hsource, hlen, hnew, Bool.not_true, Bool.and_self, Bool.false_eq_true, if_false]

theorem Dev.ethRequest_again {r : EthReply} (hport : d.portUp n = true) (htake : d.ethTake n = (true, t)) (hup : t.medlarUp = true)
    (hsource : t.permitsSource p.ip = true) (hlen : ok = true) (hlast : t.net.last = some r) (hsame : r.peer = p ∧ r.seq = q) :
    d.ethRequest n p q ok op = t.ethSend n r.reply := by
  simp only [Dev.ethRequest, hport, htake, hup, hsource, hlen, hlast, hsame, Bool.not_true, Bool.and_self, Bool.false_eq_true, if_false,
    if_true, and_self]

/-- Any other is discarded. -/
theorem Dev.ethRequest_discards (hport : d.portUp n = true) (htake : d.ethTake n = (true, t))
    (hbad : ok = false ∨ t.permitsSource p.ip = false) : d.ethRequest n p q ok op = t := by
  have hno : (true && t.medlarUp && ok && t.permitsSource p.ip) = false := by
    obtain h | h := hbad <;> simp [h]
  simp only [Dev.ethRequest, hport, htake, hno, Bool.not_true, Bool.not_false, Bool.false_eq_true, if_false, if_true]

/-- The excess over 20 000 frames in a second. -/
theorem Dev.ethTake_excess {c : Nat} (htaken : vget (0, 0) d.net.taken n = (d.now / 400000000, c)) (hfull : 20000 ≤ c) :
    d.ethTake n = (false, (d.ethReceived n).bumpSat (Reg.ETH_DROP n) 31 0) := by
  have htaken' : vget (0, 0) (d.ethReceived n).net.taken n = ((d.ethReceived n).now / 400000000, c) := htaken
  simp only [Dev.ethTake, htaken', if_true, Nat.not_lt.mpr hfull, if_false]

/-- A period that no act began has passed. -/
theorem Dev.periodPassed_of {last : Option Nat} {ms : Nat} (h : ∀ x, last = some x → x + 400000 * ms ≤ d.now) :
    d.periodPassed last ms = true := by
  cases last with
  | none => rfl
  | some x => exact decide_eq_true (h x rfl)

end

/-- A frame that a port receives. -/
theorem goes_ethFrameReceive {s : State} {n : Fin 2} {r : Bool × Dev} (hport : s.dev.portUp n.val = true) (hr : s.dev.ethTake n.val = r)
    (kind : EthKind) : Goes (.ethFrameReceive n kind) s (r.2.when (r.1 && kind != .other && s.dev.medlarUp) (Dev.ethSent n.val)) := by
  subst hr
  exact Goes.congr rfl (if_neg (by rw [hport]; exact Bool.false_ne_true))

/-- Settles O32: each command of the network takes its branch. -/
theorem ethernetComplete : Obligations.EthernetComplete := by
  unfold Obligations.EthernetComplete
  rintro s n p q a k ecc same _ t rfl
  refine ⟨fun hport htake => ⟨fun hup hsource => ⟨fun hnew => ⟨fun r hr => ?read, fun ws u hlen hu huport hup' => ?write,
    fun r hreach => ?reset, fun hreach => ?noReach⟩, fun r hlast hpeer hseq => ?again⟩, fun hsource => ?barred, fun len hlen => ?length,
    fun ws hlen => ?writeLength, fun hup => ?answered, ?other⟩, fun hport second hsecond c htaken hfull kind => ?excess,
    fun up hheld hlink => ?link, fun hup hdue => ?beacon⟩
  case read =>
    subst hr
    exact Goes.congr rfl (Dev.ethRequest_new hport htake hup hsource rfl hnew)
  case write =>
    subst hu
    refine Goes.congr rfl ((Dev.ethRequest_new hport htake hup hsource (beq_iff_eq.mpr hlen) hnew).trans (Dev.when_of ?_))
    rw [huport, hup']
    rfl
  case reset =>
    refine ⟨_, rfl, Goes.congr rfl ((Dev.ethRequest_new hport htake hup hsource rfl hnew).trans ?_)⟩
    simp only [hreach]
  case noReach =>
    refine Goes.congr rfl ((Dev.ethRequest_new hport htake hup hsource rfl hnew).trans ?_)
    simp only [hreach]
  case again =>
    have hsame := And.intro hpeer hseq
    exact ⟨Goes.congr rfl (Dev.ethRequest_again hport htake hup hsource rfl hlast hsame),
      fun ws hlen => Goes.congr rfl (Dev.ethRequest_again hport htake hup hsource (beq_iff_eq.mpr hlen) hlast hsame),
      Goes.congr rfl (Dev.ethRequest_again hport htake hup hsource rfl hlast hsame)⟩
  case barred =>
    exact ⟨Goes.congr rfl (Dev.ethRequest_discards hport htake (.inr hsource)),
      Goes.congr rfl (Dev.ethRequest_discards hport htake (.inr hsource))⟩
  case length =>
    have hbad : (len == 12) = false := beq_eq_false_iff_ne.mpr hlen
    exact ⟨Goes.congr rfl (Dev.ethRequest_discards hport htake (.inl hbad)),
      Goes.congr rfl (Dev.ethRequest_discards hport htake (.inl hbad))⟩
  case writeLength => exact Goes.congr rfl (Dev.ethRequest_discards hport htake (.inl (beq_eq_false_iff_ne.mpr hlen)))
  case answered =>
    exact ⟨Goes.congr (goes_ethFrameReceive hport htake _) (Dev.when_of (by rw [hup]; rfl)),
      Goes.congr (goes_ethFrameReceive hport htake _) (Dev.when_of (by rw [hup]; rfl))⟩
  case other => exact Goes.congr (goes_ethFrameReceive hport htake _) (Dev.when_not rfl)
  case excess =>
    subst hsecond
    exact Goes.congr (goes_ethFrameReceive hport (Dev.ethTake_excess htaken hfull) kind) (Dev.when_not rfl)
  case link =>
    refine Goes.congr rfl (if_neg ?_)
    rw [hheld, beq_eq_false_iff_ne.mpr hlink]
    exact Bool.false_ne_true
  case beacon => exact Goes.congr rfl (Dev.when_of (by rw [hup, Dev.periodPassed_of hdue]; rfl))

end Sys2Proof.Machine

/-! SUPPORT. Completion of device time, PTP and Modbus TCP (R638 to R642). -/

namespace Sys2Proof.Machine

/-! ### A read of TIME_LO (R639) -/

theorem regionOf_timeLo : regionOf 0x40005040 = .page 5 0x40 := by decide

/-- TIME_LO reads as the low word of device time, whatever its register holds. -/
theorem Dev.pageRead_timeLo {m : Master} {d : Dev} (hheld : d.pageHeld 5 = false) : d.pageRead m 5 0x40 = word d.devTime := by
  have hrow : (regAt 0x5040).any (fun r => r.2.2.1.readMask == 0xFFFFFFFF) = true := by decide
  obtain ⟨⟨k, i, r, j⟩, hat, hmask⟩ := (Option.any_eq_true _ _).mp hrow
  rw [beq_iff_eq] at hmask
  have hview : d.view m 5 0x40 = word d.devTime := rfl
  have hones : ∀ w : Word, w &&& word 0xFFFFFFFF = w := fun w => BitVec.and_allOnes
  simp only [Dev.pageRead, hheld, Bool.false_eq_true, if_false, Nat.reduceMul, Nat.reduceAdd, Nat.reduceLeDiff, hat, hmask, hview, hones]

/-- A read of it that the table permits. -/
theorem Dev.busRead_timeLo {m : Master} {d : Dev} (hheld : d.pageHeld 5 = false) (hmay : d.mayAccess m false 0x40005040 = true) :
    d.busRead m 0x40005040 4 = (word d.devTime, Dev.putReadData (word d.devTime) (d.latchTime m)) := by
  have hok : d.readOk m 0x40005040 = true := by
    rw [Dev.readOk, hmay, regionOf_timeLo]
    rfl
  have heffect : d.readEffect m 5 0x40 = (word d.devTime, d.latchTime m) := by
    simp only [Dev.readEffect, hheld, Bool.false_eq_true, if_false, and_self, if_true, Dev.pageRead_timeLo hheld]
  unfold Dev.busRead
  simp [hok, regionOf_timeLo, heffect, lanesOf]

/-! ### Modbus (R642) -/

section

variable {fc : Byte} {base size start count : Nat} {ws : List Word} {d : Dev}

/-- A read inside the map. -/
theorem Dev.modbusRead_reads (hsome : count ≠ 0) (hfew : count ≤ 125) (hlow : base ≤ start) (hhigh : start + count ≤ base + size) :
    d.modbusRead fc base size ws start count = (d.skipFree (size / 2)).modbusAnswer ([fc, BitVec.ofNat 8 (2 * count)] ++
      (List.range count).flatMap (fun k => bytesOfNatBE 2 (d.halfOf ws (start - base + k)))) := by
  rw [Dev.modbusRead, if_neg (by omega), if_neg (by omega)]

/-- A quantity out of range, and registers outside the map. -/
theorem Dev.modbusRead_quantity (hnone : count = 0) : d.modbusRead fc base size ws start count = d.modbusAnswer [fc ||| 0x80, 3] := by
  rw [Dev.modbusRead, if_pos (.inl hnone), Dev.modbusError]

theorem Dev.modbusRead_outside (hsome : count ≠ 0) (hfew : count ≤ 125) (hhigh : base + size < start + count) :
    d.modbusRead fc base size ws start count = d.modbusAnswer [fc ||| 0x80, 2] := by
  rw [Dev.modbusRead, if_neg (by omega), if_pos (.inr hhigh), Dev.modbusError]

end

/-- Settles O33: each command of time synchronisation and Modbus takes its branch. -/
theorem timeAndModbusComplete : Obligations.TimeAndModbusComplete := by
  unfold Obligations.TimeAndModbusComplete
  rintro s m i c _ rfl
  have hcount : c ≠ 0 → c.toNat ≠ 0 := fun hc h => hc (BitVec.eq_of_toNat_eq h)
  refine ⟨fun x hslave hheld => ?sync, fun g o hgood hoffset hready => ?servo, fun hheld => ⟨fun hmay => ?time, fun hmay => ?timeBarred⟩,
    fun hon => ⟨fun hc hfew hin => ?input, fun hc hlow hin => ?holding, fun hc hfew hout => ?outside, fun hc => ⟨?inputNone, ?holdingNone⟩,
    fun hs t hlen => ⟨fun hfree ht => ?posted, fun hpend => ?busy⟩⟩⟩
  case sync => exact Goes.congr rfl (Dev.when_of (by rw [hslave, hheld]; rfl))
  case servo =>
    refine Goes.congr rfl ?_
    simp only [hgood, hoffset, hready, Dev.when_of]
  case time => exact Goes.congr rfl (congrArg Prod.snd (Dev.busRead_timeLo hheld hmay))
  case timeBarred =>
    rw [Dev.mayAccess_page regionOf_timeLo] at hmay
    exact Goes.congr rfl (congrArg Prod.snd (Dev.busRead_barred (by decide) regionOf_timeLo hheld hmay))
  case input =>
    refine Goes.congr rfl ((Dev.when_of hon).trans ((Dev.modbusRead_reads (hcount hc) hfew (Nat.zero_le _) (by omega)).trans ?_))
    simp only [Nat.sub_zero, Nat.reduceDiv]
  case holding =>
    refine Goes.congr rfl ((Dev.when_of hon).trans (Dev.modbusRead_reads (hcount hc) (by omega) hlow (by omega)))
  case outside => exact Goes.congr rfl ((Dev.when_of hon).trans (Dev.modbusRead_outside (hcount hc) hfew (by omega)))
  case inputNone => exact Goes.congr rfl ((Dev.when_of hon).trans (Dev.modbusRead_quantity (congrArg BitVec.toNat hc)))
  case holdingNone => exact Goes.congr rfl ((Dev.when_of hon).trans (Dev.modbusRead_quantity (congrArg BitVec.toNat hc)))
  case posted =>
    subst ht
    refine Goes.congr rfl ((Dev.when_of hon).trans ?_)
    rw [if_pos ⟨rfl, hlen⟩, Dev.modbusPost, hfree, if_neg Bool.false_ne_true]
  case busy =>
    refine Goes.congr rfl ((Dev.when_of hon).trans ?_)
    rw [if_pos ⟨rfl, hlen⟩, Dev.modbusPost, hpend, if_pos rfl]
    rfl

end Sys2Proof.Machine

/-! SUPPORT. Completion of the CANopen device (R643, R644). -/

namespace Sys2Proof.Machine

section

variable {d : Dev}

/-- A request on the announcement object that reads. -/
theorem Dev.sdoRequest_announce {sub : Byte} : d.sdoRequest 0x2000 sub none = d.announceRequest 0x2000 sub none := by
  have hindex : (0x2000 : BitVec 16).toNat = 0x2000 := rfl
  rw [Dev.sdoRequest, if_pos hindex]

/-- A write to a channel that is bound, whose engine takes it. -/
theorem Dev.channelWrite_posts {c : Nat} {target : Bool} {v : BitVec 16} {n e : Fin 12} (hbound : d.channel c = some (n, e))
    (hfree : d.bit (Reg.LE_MBX_STAT e.val) 0 = false) {o : CanOpen}
    (ho : o = if target then { d.canopen with target := vset d.canopen.target c v } else { d.canopen with ctrl := vset d.canopen.ctrl c v }) :
    d.channelWrite c target v = (Dev.postToEngine e.val (channelWords c (d.polePairs n.val) (vget 0 o.ctrl c) (vget 0 o.target c))
      (Dev.putCanopen o d)).sdoAnswer (sdoWritten (BitVec.ofNat 16 ((if target then 0x6042 else 0x6040) + 0x800 * c)) 0) := by
  simp only [Dev.channelWrite, hbound, hfree, Bool.false_eq_true, if_false, ← ho]

/-- A write to one whose mailbox is pending, and to one that is not bound. -/
theorem Dev.channelWrite_pending {c : Nat} {target : Bool} {v : BitVec 16} {n e : Fin 12} (hbound : d.channel c = some (n, e))
    (hpend : d.bit (Reg.LE_MBX_STAT e.val) 0 = true) : d.channelWrite c target v =
      d.sdoAnswer (sdoAbort (BitVec.ofNat 16 ((if target then 0x6042 else 0x6040) + 0x800 * c)) 0 0x08000020) := by
  simp only [Dev.channelWrite, hbound, hpend, if_true]

theorem Dev.channelWrite_unbound {c : Nat} {target : Bool} {v : BitVec 16} (hbound : d.channel c = none) : d.channelWrite c target v =
    d.sdoAnswer (sdoAbort (BitVec.ofNat 16 ((if target then 0x6042 else 0x6040) + 0x800 * c)) 0 0x06020000) := by
  simp only [Dev.channelWrite, hbound]

end

/-- Settles O34: each command of the device takes its branch. -/
theorem canOpenComplete : Obligations.CanOpenComplete := by
  unfold Obligations.CanOpenComplete
  rintro s _ rfl hup
  have hnmt : ∀ cmd : Byte, Goes (.nmt cmd 0) s (s.dev.nmtCommand cmd.toNat) := fun cmd =>
    Goes.congr rfl (Dev.when_of (by rw [hup]; rfl))
  refine ⟨fun hdue hjoined => ?beat, fun hserves => ?serving, fun hstopped => ?stopped, Goes.congr (hnmt 1) rfl, Goes.congr (hnmt 2) rfl,
    Goes.congr (hnmt 0x80) rfl, Goes.congr (hnmt 0x82) rfl⟩
  case beat =>
    refine Goes.congr rfl ((Dev.when_of (by rw [hup, Dev.periodPassed_of hdue]; rfl)).trans ?_)
    simp only [Dev.putMgmt_mgmt, hjoined, Dev.when_not, Dev.putMgmt_canopen]
  case serving =>
    have hon : (s.dev.medlarUp && s.dev.canopen.nmt != 4) = true := by rw [hup, bne_iff_ne.mpr hserves]; rfl
    have hsdo : ∀ sub, Goes (.sdoRequest 0x2000 sub none) s (s.dev.announceRequest 0x2000 sub none) := fun sub =>
      Goes.congr rfl ((Dev.when_of hon).trans Dev.sdoRequest_announce)
    refine ⟨Goes.congr (hsdo 0) rfl, Goes.congr (hsdo 1) rfl, Goes.congr (hsdo 2) rfl, Goes.congr (hsdo 3) rfl, ?_,
      Goes.congr rfl (Dev.when_of hon)⟩
    rintro c target v _ rfl
    refine ⟨fun n e hbound => ⟨fun hfree o t ho ht => ?_, fun hpend => ?_⟩, fun hbound => ?_⟩
    · subst ht
      exact Goes.congr rfl ((Dev.when_of hon).trans (Dev.channelWrite_posts hbound hfree ho))
    · exact Goes.congr rfl ((Dev.when_of hon).trans (Dev.channelWrite_pending hbound hpend))
    · exact Goes.congr rfl ((Dev.when_of hon).trans (Dev.channelWrite_unbound hbound))
  case stopped =>
    have hoff : (s.dev.medlarUp && s.dev.canopen.nmt != 4) = false := by rw [hup, hstopped]; rfl
    exact ⟨Goes.congr rfl (Dev.when_not hoff), fun i b w => Goes.congr rfl (Dev.when_not hoff)⟩

end Sys2Proof.Machine
